-- ==== Sys2Proof/Word.lean ====
section
/-! DEFINITION. Sys2Proof/Word.lean: the word types of the block (00 R1, R2) and the finite tables its
memories and record lists are held in. -/

namespace Sys2Proof

/-- One byte of a record, a ring entry or a sector. -/
abbrev Byte := BitVec 8

/-- A BAR0 register, a Fleist slot, a position mask or an integrity tag. -/
abbrev Word := BitVec 64

/-- A 32-bit free-running counter (05 R172) or a completion dword. -/
abbrev Dword := BitVec 32

/-- A table of records by number. Canonical form: keys strictly rising (`Tbl.wf`). -/
abbrev Tbl (α : Type) := List (Nat × α)

end Sys2Proof
end

