-- ==== Sys2Proof/Syntax.lean ====
section
/-! DEFINITION. Sys2Proof/Syntax.lean: the commands of the block, one constructor per row of
spec/opcode_table.json, and the operand records they carry. The spec gives rows no bits: an operand
is what the rule of the row says comes from outside the module (the host, a member, the peer, the
board, the management bus) or which of the module's own units the event concerns. -/

namespace Sys2Proof

/-- A member port, 0 to 127; a member behind a switch at port q with downstream index d is at q + 128 · d (04 R122). Log
entry 76. -/
abbrev PortNo := Fin 4096

/-- How a host write reaches an 8-byte doorbell (05 R189). -/
inductive DbWidth where
  | w64 | lo32 | hi32
  deriving DecidableEq, Repr

/-- How a member command ended (08 R307, 10 R365, 14 R550). -/
inductive MStatus where
  | success
  | unrecoveredRead
  | reservationConflict
  | otherError
  deriving DecidableEq, Repr

/-- A power domain that can wake (01, Power domains and clocks; R18). -/
inductive Domain where
  | controlCore (n : Fin 4)
  | lane (n : Fin 8)
  | cache
  | hostLink
  | pairLink
  | memberGroup (n : Fin 16)
  deriving DecidableEq, Repr

/-- A PLL (13 R465, R466, R472). -/
inductive Pll where
  | core | dram | hostSerdes
  | group (n : Fin 16)
  deriving DecidableEq, Repr

/-- A block that can be reset (14 R478, numbered by R491). -/
inductive Block where
  | lane (n : Fin 8)
  | memberGroup (n : Fin 16)
  | pairLink
  | vault
  | packInterface
  deriving DecidableEq, Repr

/-- A rail that the monitor trips on (11 R391). -/
inductive MonRail where
  | vddCore | vddAon | vddDram | vddNv
  deriving DecidableEq, Repr

/-- What the energy pack channels 44 to 51 read in one round (12 R432). Charge in nAh, current in µA,
temperature in quarter degrees C. -/
structure PackReading where
  vMv : Nat
  iUa : Int
  dqNah : Int
  tQ : Int
  chgStat : Bool
  clipped : Bool
  deriving DecidableEq, Repr

/-- A tag that fails parity (07 R270), and whether its shadow entry fails SEC-DED too (R272);
`tagGood` is the case of a good tag with a bad shadow entry. -/
structure TagErr where
  set : Fin 65536
  way : Fin 16
  shadowBad : Bool
  tagGood : Bool
  deriving DecidableEq, Repr

/-- The 64 channels of one housekeeping round (01 R17, 13 R455). `counts` are the raw counts of the 32 sensors (13 R451); `slack` is the canary slack of the four groups and `twins` the eight twin
degradations in 0.001 % (13 R467). `tagFlips` are the tag and shadow entries that went bad since the round before, which the next
command that reads tags meets (07 R270; log entry 80). -/
structure RoundReadings where
  counts : List Nat
  railsMv : List Nat
  pack : PackReading
  slack : List Nat
  twins : List Nat
  rcTrimmed : Bool
  hostRef : Bool
  sysRef : Bool
  tagFlips : List TagErr := []
  deriving DecidableEq, Repr

/-- What the plan engine reads for a margin plan beside the counts that the machine holds (13 R469): the eight twin
degradations in 0.001 %. -/
structure MarginInputs where
  twins : List Nat
  deriving DecidableEq, Repr

/-- The parameters of a profile (02 R66) with its name. Times in ms unless said otherwise. The byte
layout of the 512-byte data of PROFILE_READ and PROFILE_WRITE is given nowhere in the spec, so both
carry the fields. -/
structure Profile where
  name : List Byte
  writeThrough : Bool
  /-- units of 256 MiB, 0 to 64 -/
  dirtyCapLimit : Nat
  cqCapDefault : Nat
  hedgeDelay : Nat
  suspectLatency : Nat
  failLatency : Nat
  suspectCount : Nat
  suspectWindow : Nat
  retirePctUsed : Nat
  rebuildPriority : Nat
  /-- days -/
  patrolPeriod : Nat
  patrolLeaveMarked : Bool
  /-- tenths of a second -/
  throttleGrace : Nat
  laneGateEn : Bool
  memberGateEn : Bool
  laneIdleUs : Nat
  minLanes : Nat
  deriving DecidableEq, Repr

/-- The settable ledger records of 11 R419 by their fields. Their byte layouts are given nowhere in
the spec; `other` is any record type and instance that is not settable or does not exist. -/
inductive SetRecord where
  | identity (cohort : BitVec 18) (paired : Bool) (peer : BitVec 18)
  /-- contexts and vectors of port 0 (05 R170) -/
  | portSplit (contexts : Nat) (vectors : Nat)
  | boot (volume : Option (Fin 4096)) (retrain : Bool)
  | cacheClasses (ways : List (BitVec 16)) (lock : BitVec 16) (volClass : List (Nat × Fin 16))
  | pairConfig (bytes : List Byte)
  | other
  deriving DecidableEq, Repr

/-- A read of host memory that ends (05 R198, R201; 06 R232): submission entries of a ring from a
counter on, or the scatter list of a begun command; `none` when it completes with Unsupported
Request, Completer Abort or poisoned data. -/
inductive FetchWhat where
  | entries (ring : Fin 262144) (counter : Dword) (data : Option (List (List Byte)))
  | scatterList (cmd : Nat) (data : Option (List Byte))
  /-- the read of a scatter list fails in another way (06 R232) -/
  | scatterFail (cmd : Nat)
  deriving DecidableEq, Repr

/-- One NVMe submission entry of PF1 (06 R246), as the NVMe Base Specification lays it out. -/
structure NvmeSqe where
  cid : BitVec 16
  nsid : Dword
  prp1 : Word
  prp2 : Word
  cdw10 : Dword
  cdw11 : Dword
  cdw12 : Dword
  cdw13 : Dword
  /-- the entry's opcode is none of those that PF1 supports (06 R246) -/
  unsupported : Bool := false
  deriving DecidableEq, Repr

/-- An error that a DRAM scrub finds, or that a command meets that reads the sector (07 R269, R273; 11 R395): line by set and way, sector of the line. -/
structure DramErr where
  set : Fin 65536
  way : Fin 16
  sector : Fin 16
  uncorrectable : Bool
  deriving DecidableEq, Repr

/-- DISPATCH: the operation, and the DRAM errors met in the cached sectors that it reads (07 R269). -/
structure DispatchIn where
  op : Nat
  errs : List DramErr := []
  deriving DecidableEq, Repr

/-- READ: the command, and the DRAM errors met in the cached sectors that it reads (07 R269). -/
structure ReadIn where
  cmd : Nat
  errs : List DramErr := []
  deriving DecidableEq, Repr

/-- FLUSH_END: whether main power is there, and the DRAM errors that step 6 meets (11 R395). -/
structure FlushIn where
  mainPower : Bool
  errs : List DramErr := []
  deriving DecidableEq, Repr

/-- MEMBER_GROUP_GATE: the group, and which links of its ports are in L1.2 (01 R20). -/
structure GateIn where
  group : Fin 16
  l12 : BitVec 8
  deriving DecidableEq, Repr

/-- What a member reports when it appears at a port: its namespace and both label copies (04 R163,
R166), reservation support (10 R364). -/
structure MemberId where
  lbaSize : Nat
  metaSize : Nat
  capacity : Nat
  width : BitVec 2
  zeroOnDealloc : Bool
  reservations : Bool
  labelA : List Byte
  labelB : List Byte
  /-- end-to-end protection enabled (04 R139) -/
  protection : Bool := false
  /-- reports endurance groups (04 R160) -/
  endurance : Bool := false
  deriving DecidableEq, Repr

/-- The SMART / Health log of a member (04 R160, R161). Temperatures in kelvin. -/
structure HealthLog where
  pctUsed : Nat
  critWarning : BitVec 8
  tempK : Nat
  warnK : Nat
  deriving DecidableEq, Repr

/-- A move that a boundary commit concerns (04 R149; 08 R325): a relocated cell or a restore walk. -/
inductive MoveRef where
  | cell (pool : Fin 8) (entry : Fin 4096) (pos : Fin 64)
  | restore (pool : Fin 8) (slot : Fin 128)
  deriving DecidableEq, Repr

/-- Header of a pair message as it arrives (10 R357); `crcOk` is the verdict on its CRC. -/
structure PairHdr where
  seq : Nat
  node : BitVec 18
  epoch : Nat
  crcOk : Bool
  deriving DecidableEq, Repr

/-- Payload of a HELLO (10 R358, R385). -/
structure HelloMsg where
  commitSeq : Nat
  /-- the commit sequence of each shared record's last commit, by record (log entry 36) -/
  recSeqs : List (Nat × Nat)
  planHash : List Byte
  poolOwner : List (BitVec 18)
  poolEpoch : List Nat
  profile : BitVec 2
  deriving DecidableEq, Repr

/-- Payload of a HEARTBEAT (10 R360). -/
structure HeartbeatMsg where
  hbSeq : Dword
  peerState : BitVec 4
  dirtyCap : Nat
  commitSeq : Nat
  profile : BitVec 2
  deriving DecidableEq, Repr

/-- One sector of a mirrored or resent line (10 R367, R386); pool p + 8 is the target layout of pool p (log entry 82). `mask` is the
line's shadow mask on the owner as the message is sent (R367). -/
structure LineSector where
  pool : Fin 16
  line : Nat
  sector : Fin 16
  data : List Byte
  mask : BitVec 16 := 0
  deriving DecidableEq, Repr

/-- A stripe journal entry as it travels on the pair link (07 R282, 10 R369). -/
structure JnlWire where
  seq : Nat
  pool : Fin 16
  row : Nat
  kind : BitVec 4
  positions : Word
  slice : Nat
  first : Nat
  count : Nat
  dataCached : Bool
  reloc : Bool
  newGen : Dword
  context : Nat := 0
  deriving DecidableEq, Repr

/-- A lost-extent record (08 R319). -/
structure LostE where
  pool : Nat := 0
  row : Nat := 0
  slice : Nat := 0
  positions : Word := 0
  first : Nat := 0
  count : Nat := 1
  reason : Nat := 1
  volume : Nat := 0
  accepted : Bool := false
  opSeconds : Nat := 0
  deriving DecidableEq, Repr

/-- What the ledger holds of a pool's patrol (09 R334, R356). -/
structure PatrolRec where
  st : Nat := 0
  passes : Nat := 0
  passStart : Nat := 0
  lastEnd : Nat := 0
  row : Nat := 0
  checked : Nat := 0
  repaired : Nat := 0
  corrected : Nat := 0
  rewritten : Nat := 0
  markedN : Nat := 0
  unchecked : Nat := 0
  dropped : Nat := 0
  deriving DecidableEq, Repr

/-- The patrol record of a pool (09 R356) and the pass's place. -/
structure Patrol where
  /-- 0 idle, 1 running, 2 paused under R355, 3 paused under R344 -/
  st : Nat := 0
  passes : Nat := 0
  passStart : Nat := 0
  lastEnd : Nat := 0
  /-- the committed record, and the walk's next row and slice -/
  saved : PatrolRec := {}
  row : Nat := 0
  slice : Nat := 0
  checked : Nat := 0
  repaired : Nat := 0
  corrected : Nat := 0
  rewritten : Nat := 0
  markedN : Nat := 0
  unchecked : Nat := 0
  dropped : Nat := 0
  lastCommit : Nat := 0
  /-- the start of the previous pass or the pool's creation, from which PATROL_PERIOD runs (R332) -/
  dueFrom : Nat := 0
  /-- the next pass fell due while one runs, or while a voluntary move keeps it from starting -/
  overdue : Bool := false
  deriving DecidableEq, Repr

/-- The record is committed as it stands (R334). -/
def Patrol.save (p : Patrol) : Patrol :=
  { p with saved := { st := p.st, passes := p.passes, passStart := p.passStart, lastEnd := p.lastEnd, row := p.row,
                      checked := p.checked, repaired := p.repaired, corrected := p.corrected, rewritten := p.rewritten,
                      markedN := p.markedN, unchecked := p.unchecked, dropped := p.dropped } }

/-- The patrol as its committed record has it: what a reset or a takeover resumes from (R334). -/
def Patrol.resume (p : Patrol) : Patrol :=
  let r := p.saved
  { st := r.st, passes := r.passes, passStart := r.passStart, lastEnd := r.lastEnd, row := r.row, checked := r.checked,
    repaired := r.repaired, corrected := r.corrected, rewritten := r.rewritten, markedN := r.markedN,
    unchecked := r.unchecked, dropped := r.dropped, saved := r, lastCommit := p.lastCommit, dueFrom := p.dueFrom,
    overdue := p.overdue }

/-- A window entry of a reshape (09 R356): target row with its place in walk order, first source band used, bands used, homed,
whether a commit has recorded it, and the strips it names as (band, band slot, member slot). -/
structure WinRow where
  row : Nat
  index : Nat := 0
  saved : Bool := false
  first : Nat := 0
  bands : Nat := 0
  homed : Bool := false
  strips : List (Nat × Nat × Nat) := []
  deriving DecidableEq, Repr

/-- A relocation entry in use as the ledger holds it (04 R144, 11 R419): its cell is entry × 64 + position. -/
structure MoveShare where
  cell : Nat
  fromSlot : Nat
  fromB : Nat
  toSlot : Nat
  toB : Nat
  settled : Bool
  reason : Nat
  boundary : Nat
  back : Bool := false
  deriving DecidableEq, Repr

/-- What the owner's pool records say of a pool (08 R328; 09 R334, R354; 10 R372; 11 R419; log entry 77): slots as (slot, state code,
reason, LABEL_GEN, restore boundary), arbiters, relocations, lost extents, the patrol record, and the reshape record as (state, B,
SRC, ROWS) with its image hash and window. -/
structure PoolShare where
  slots : List (Nat × Nat × Nat × Nat × Nat) := []
  arbiters : List Nat := []
  moves : List MoveShare := []
  lost : List LostE := []
  patrol : Patrol := {}
  reshape : Nat × Nat × Nat × Nat := (0, 0, 0, 0)
  target : List Byte := []
  window : List WinRow := []
  /-- slots that are being prepared, at pool creation or at adoption (04 R143) -/
  preps : List (Nat × Bool) := []
  /-- lost-write records of the pool: line, mask, volume, reason, operating seconds (07 R294; 10 R375) -/
  lostW : List (Nat × BitVec 16 × Nat × Nat × Nat) := []
  deriving DecidableEq, Repr

/-- A shared ledger record proposed on the pair link (10 R372). -/
inductive SharedRec where
  | profile (n : Fin 4) (p : Profile)
  | profileLock (l : Option (Fin 4))
  | planImage (image : List Byte)
  | planKeys (keys : List (List Byte))
  | poolOwner (pool : Fin 8) (node : BitVec 18) (epoch : Nat)
  | poolRecord (pool : Fin 8) (r : PoolShare)
  | pairEpoch (epoch : Nat)
  | pairConfig (bytes : List Byte)
  | profileInForce (n : Fin 4)
  /-- the plan image that ran before the active one (02 R54; 10 R385) -/
  | previousImage (image : Option (List Byte))
  deriving DecidableEq, Repr

/-- QUIESCE as it comes: the header, and whether the 1 s of 02 R70 bounds it (log entry 75). -/
structure QuiesceIn where
  hdr : PairHdr
  bounded : Bool
  deriving DecidableEq, Repr

/-- A forwarded command's data or outcome (10 R371, R375). -/
structure ForwardEnd where
  tag : Nat
  status : BitVec 16
  result : Dword
  deriving DecidableEq, Repr

/-- A step of an ownership transfer as its messages carry it (10 R383). -/
inductive XferStep where
  | released (pool : Fin 8)
  | acquired (pool : Fin 8)
  | done (pool : Fin 8)
  deriving DecidableEq, Repr

/-- What one beat of the reservation keys saw at an arbiter (10 R377, R378). `landed` is whether this
module's own key was replaced there; `peerKey` is what the Reservation Report showed, none when the arbiter
could not be read; `peerHolds` and `mine` are whether it showed the peer, or this module, as the holder (R384). -/
structure ArbiterRead where
  pool : Fin 8
  arb : Fin 3
  landed : Bool
  peerKey : Option Word
  peerHolds : Bool
  mine : Bool := false
  deriving DecidableEq, Repr

/-- What the board and the boot checks give at power-good (11 R407, 16 R529). -/
structure BootInputs where
  profileSel : BitVec 2
  hostBif : Bool
  mgmtAddr : BitVec 2
  mgmtSpeed : Bool
  railsOk : Bool
  mramReadable : Bool
  /-- units that fail self-test at this boot (01 R24) -/
  badLanes : BitVec 8
  badCtrlCores : BitVec 4
  badGroups : BitVec 16
  badSeqCores : BitVec 32
  badHostLanes : BitVec 16
  badTagSram : Bool
  badPair : Bool
  badVault : Bool
  /-- DRAM channels that fail to start, also after retraining (11 R407) -/
  badDram : BitVec 16
  indexReadable : Bool
  /-- ledger records whose data fails its CRC (11 R420), by type and instance -/
  damaged : List (Nat × Nat)
  /-- entries of the vault index log whose CRC fails (11 R409) -/
  badIndex : List Nat
  /-- copies, 0 or 1, of the ledger directory (11 R416) and of the flush header (R400) whose CRC fails -/
  badDirs : List Nat := []
  badHeaders : List Nat := []
  /-- the slot pointer word fails its SEC-DED, until it is written again (15 R508) -/
  badPointer : Bool := false
  /-- bits of the anti-rollback counter, and revocation bits, that read unblown after every retry (15 R510) -/
  stuckFuses : List Nat := []
  stuckKeys : BitVec 4 := 0
  deriving DecidableEq, Repr

/-- The commands of the block. Constructors stand in the order of the table. -/
inductive Instr where
  | intakeBeginEntry
  | intakeResume
  | rowOrderRelease (pool : Fin 8) (row : Nat)
  | laneWake (lane : Fin 8)
  | laneGate (lane : Fin 8) (wakeRequest : Bool)
  | memberGroupGate (g : GateIn)
  | domainWake (d : Domain)
  | housekeepingRound (r : RoundReadings)
  | throttleGraceEnd (region : Fin 15)
  | throttleEscalate (region : Fin 15)
  | clockRelockDone
  | thermtrip
  | xtalLoss
  | pllLockLoss (p : Pll)
  | marginPlan (m : MarginInputs)
  | deepStandby
  | planStage (data : List Byte)
  | planCommit
  | planSwitch
  | planKeyInstall (data : List Byte)
  | planKeyRemove (data : List Byte)
  | scheduleStored
  | longWait (geometry : Fin 16) (erased : Word)
  | planSectionReload (geometry : Fin 16)
  | profileRead
  | profileWrite (p : Profile)
  | profileSelect
  | profileLock (data : List Byte)
  | profileQuiesceApply
  | dispatch (d : DispatchIn)
  | look (core : Fin 32)
  | mrd (core : Fin 32)
  | mrdLateReport (ctx : Fin 1024) (slot : Fin 16) (pos : Fin 64)
  | mwr (core : Fin 32)
  | gmx (core : Fin 32)
  | xor (core : Fin 32)
  | tag (core : Fin 32)
  | jnl (core : Fin 32)
  | premarkTimeout (ctx : Fin 1024)
  | jcl (core : Fin 32)
  | wait (core : Fin 32)
  | br (core : Fin 32)
  | bz (core : Fin 32)
  | bnz (core : Fin 32)
  | call (core : Fin 32)
  | ret (core : Fin 32)
  | done (core : Fin 32)
  | trap (core : Fin 32)
  | nop (core : Fin 32)
  | stageResultWritten (ctx : Fin 1024) (slot : Fin 16)
  | programStoreReload
  | registerWrite (port : Fin 2) (off : BitVec 20) (width : Nat) (value : Word)
  | read (r : ReadIn)
  | write (cmd : Nat)
  | writeFua (cmd : Nat)
  | flush (cmd : Nat)
  | deallocate (cmd : Nat)
  | verify (cmd : Nat)
  | routineCall (cmd : Nat)
  | acceptLoss (cmd : Nat)
  | identify
  | ringCreate (desc : List Byte)
  | ringReset
  | ringShutdown
  | ringEnable
  | abort
  | drainEnd (ring : Fin 262144)
  | sqDoorbell (port : Fin 2) (ring : Fin 262144) (width : DbWidth) (value : Word)
  | cqDoorbell (port : Fin 2) (ring : Fin 262144) (width : DbWidth) (value : Word)
  | push (port : Fin 2) (offset : BitVec 25) (data : List Byte)
  | fetchComplete (w : FetchWhat)
  | coalesceTimeout (ring : Fin 262144)
  | msixVectorUnmask (port : Fin 2) (vector : Fin 2048)
  | pf0Flr (port : Fin 2)
  | adminCtlWrite (port : Fin 2) (value : Word)
  | poolStatus
  | lostListRead
  | memberAdopt
  | memberRetire
  | memberFail
  | patrolStart
  | ledgerRead
  | ledgerSet (r : SetRecord)
  | ledgerLock
  | ledgerUnlock (data : List Byte)
  | logRead
  | logClear (data : List Byte)
  | logFlush
  | hostTime
  | attest (nonce : List Byte)
  | certRead
  | ownerEnrol (data : List Byte)
  | fwStage (data : List Byte)
  | fwCommit (data : List Byte)
  | sensorMask (data : List Byte)
  | learnApprove
  | nvmeIdentify (port : Fin 2) (e : NvmeSqe)
  | nvmeCreateIoQueue (port : Fin 2) (submission : Bool) (e : NvmeSqe)
  | nvmeDeleteIoQueue (port : Fin 2) (submission : Bool) (e : NvmeSqe)
  | nvmeGetLogPage (port : Fin 2) (e : NvmeSqe)
  | nvmeGetFeatures (port : Fin 2) (e : NvmeSqe)
  | nvmeSetFeatures (port : Fin 2) (e : NvmeSqe)
  | nvmeAsyncEventRequest (port : Fin 2) (e : NvmeSqe)
  | nvmeAbort (port : Fin 2) (e : NvmeSqe)
  | nvmeRead (port : Fin 2) (e : NvmeSqe)
  | nvmeWrite (port : Fin 2) (e : NvmeSqe)
  | nvmeFlush (port : Fin 2) (e : NvmeSqe)
  | nvmeWriteZeroes (port : Fin 2) (e : NvmeSqe)
  | nvmeDatasetManagement (port : Fin 2) (e : NvmeSqe) (ranges : List (Nat × Nat))
  | nvmeControllerReset (port : Fin 2)
  | evictionEnd (set : Fin 65536) (way : Fin 16)
  | allocationRetry (set : Fin 65536)
  | allocationLongWait (op : Nat)
  | destageAge (pool : Fin 8) (row : Nat) (slice : Nat)
  | destageRetry (pool : Fin 8) (row : Nat) (slice : Nat)
  | tagScrub (errs : List TagErr)
  | dramScrub (errs : List DramErr)
  | regionSweep
  | checkpoint
  | rangeInvalidate (value : Word)
  | wayMaskWrite (cls : Option (Fin 16)) (value : Word)
  | unnamedLossClear
  | memberCommandCompletion (tag : Nat) (st : MStatus) (data : List Byte) (tags : List Word)
  | slowMark (tag : Nat)
  | failLatencyTimeout (tag : Nat)
  | suspectWindowExpiry (pool : Fin 8) (slot : Fin 128)
  | slotFailureCommit (pool : Fin 8) (slot : Fin 128)
  | memberAbortTimeout (port : PortNo)
  | linkRetrainTimeout (port : PortNo)
  | memberSidebandFrame (presence : BitVec 128)
  | memberRemoved (port : PortNo)
  | memberInserted (port : PortNo) (id : MemberId)
  | discoveryWindowClose
  | memberPrepDone (port : PortNo)
  | boundaryCommit (m : MoveRef)
  | healthLogRead (port : PortNo) (log : HealthLog)
  | enduranceLogRead (port : PortNo) (pctUsed : Nat)
  | patrolPassDue (pool : Fin 8)
  | patrolProgressCommit (pool : Fin 8)
  | reshapeWalkStart (pool : Fin 8)
  | reshapeCommit (pool : Fin 8)
  | hello (h : PairHdr) (m : HelloMsg)
  | heartbeat (h : PairHdr) (m : HeartbeatMsg)
  | heartbeatSend
  | heartbeatTimeout
  | farewell (h : PairHdr)
  | suspectNotice (h : PairHdr)
  | mirrorWrite (h : PairHdr) (sectors : List LineSector)
  | mirrorAck (h : PairHdr) (upTo : Nat)
  | mirrorClean (h : PairHdr) (pool : Fin 16) (line : Nat) (mask : BitVec 16)
  | jnlMirror (h : PairHdr) (e : JnlWire)
  | jnlRetire (h : PairHdr) (seq : Nat)
  | ledgerPrepare (h : PairHdr) (r : SharedRec)
  | ledgerVote (h : PairHdr) (accept : Bool)
  | ledgerDecide (h : PairHdr) (commit : Bool)
  | quiesce (q : QuiesceIn)
  | quiesceDone (h : PairHdr)
  | forwardCmd (h : PairHdr) (tag : Nat) (entry : List Byte)
  | forwardData (h : PairHdr) (write : Bool) (tag : Nat) (data : List Byte)
  | forwardCpl (h : PairHdr) (e : ForwardEnd)
  | memberReport (h : PairHdr) (pool : Fin 8) (slot : Fin 128) (timeout : Bool)
  | resyncLine (h : PairHdr) (sectors : List LineSector) (entry : Option JnlWire)
  | resyncDone (h : PairHdr)
  | xfer (h : PairHdr) (st : XferStep)
  | pairLinkUp (width : Fin 9)
  | pairLinkDown
  | reservationBeat (reads : List ArbiterRead)
  | lossDecision
  | helloTimeout (reads : List ArbiterRead)
  | force (value : Word)
  | pairXferGo (value : Word)
  | pfailN (low : Bool)
  | railMonitorTrip (rail : MonRail)
  | flushEnd (e : FlushIn)
  | postFlushReset
  | vaultHotWaitEnd
  | powerGood (b : BootInputs)
  | ready
  | pwrokFall
  | perstN (port : Fin 2) (low : Bool)
  | vaultHalfEraseDone (half : Fin 2)
  | restoreEnd
  | countersCommit
  | ledgerScrub (corrected : Nat) (uncorrectable : List (Nat × Nat))
  | bootVolWrite (value : Word)
  | retrainRequest (value : Word)
  | packIdentityRead (block : Option (List Byte))
  | packPresN (high : Bool) (block : Option (List Byte))
  | restPoint
  | packUnproven
  | learnRepropose
  | learnDischargeEnd
  | learnTimeout
  | chargerStuck
  | faultMessage (sent : Option Word)
  | blockResetEnd (b : Block)
  | resetShadowEnd (b : Block)
  | fcForce (width : Nat) (value : Word)
  | fcClear (value : Word)
  | errClr (port : Fin 2)
  | evtCtlFlush
  | attestSigned
  | setEndpointId (eid : Byte)
  | getEndpointId
  | getEndpointUuid
  | getMctpVersionSupport
  | getMessageTypeSupport
  | getVendorDefinedMessageSupport
  | getStatus (inst : Byte)
  | attestStart (inst : Byte) (alg : Byte) (nonce : List Byte)
  | readObject (inst : Byte) (object : Byte) (offset : Nat) (length : Nat)
  | setEventReceiver (inst : Byte) (eid : Byte) (enable : Bool)
  | wake (inst : Byte)
  | extest (pins : Nat)
  | idcode
  | samplePreload (pins : Nat) (shift : Nat)
  | highz
  | clamp
  | extestPulse (pins : Nat)
  | extestTrain (pins : Nat)
  | bypass (code : Byte)
  | hostDataRead (cmd : Nat) (data : Option (List Byte))
  | memberLinkDown (port : PortNo)
  | memberLinkRetrained (port : PortNo) (width : BitVec 2)
  | controllerFatal (port : PortNo)
  | hostLinkTrained (port : Fin 2) (width : Fin 17) (inL12 : Bool) (vdm : Bool) (sris : Bool)
  | pf1QueueDoorbell (port : Fin 2) (io : Bool) (completion : Bool) (value : Dword)
  | pf1ControllerEnable (port : Fin 2) (cc : Dword) (asq : Word) (acq : Word) (aqa : Dword)
  | vaultReadComplete (half : Fin 2) (page : Nat) (badSectors : BitVec 4)
  | pllRelocked (p : Pll)
  | xtalRestored
  deriving DecidableEq, Repr

end Sys2Proof
end

