-- ==== Sys2Proof/Decode.lean ====
section
/-! DEFINITION. Sys2Proof/Decode.lean: the table gives its rows no bits (every "fields" list of
spec/opcode_table.json is empty), so no word spells a command. -/

namespace Sys2Proof

/-- The command that a word spells by the table's bits: none, because no row has bits. Log entry 60. -/
def decodeTableWord (_nbits _w : Nat) : Option Instr := none

end Sys2Proof
end

