-- ==== Sys2Proof/Config.lean ====
section
/-! DEFINITION. Sys2Proof/Config.lean: what an implementation fixes and the spec leaves open. Every constant
is uninterpreted: nothing in Lean can evaluate it, so a statement that holds, holds whatever it is. -/

namespace Sys2Proof.Config

/-- The `n`-th free byte: contents the spec calls undefined (03 R97: what the scratch sectors held when a
DEF defines a handle). Applied to the counter `State.free` and an offset. Log entry 2. -/
opaque freeByte : Nat → Nat → Byte

/-- The `n`-th free 64-bit value (tags of a freshly defined handle, 03 R97). Log entry 2. -/
opaque freeWord : Nat → Word

/-- The page of the service region on which the `n`-th stashed completion entry lies, before the module leaves out the channels that
are fenced (05 R206, 07 R551). Log entry 80. -/
opaque stashPage : Nat → Nat

/-- The page of the service region on which the schedule with a key lies, by the mask of fenced channels (02 R56, 07 R551). Log
entry 80. -/
opaque schedPage : Nat → Nat → Nat

/-- SHA-256 (named, not given, by 02, 14 and 15). Log entry 3. -/
opaque sha256 : List Byte → List Byte

/-- The SLH-DSA verdict on (public key, message, signature) under FIPS 205 pure signing with an empty
context string (02 R43, 15 R507, R513). Log entry 3. -/
opaque slhDsaVerify : List Byte → List Byte → List Byte → Bool

/-- The SLH-DSA signature that the security block makes with key `alg` (0 attestation, 1 identity)
over a message (15 R519). Log entry 3. -/
opaque slhDsaSign : Nat → List Byte → List Byte

/-- SHA-256 of firmware key `i`, in boot ROM (15 R506). Log entry 4. -/
opaque firmwareKeyHash : Nat → List Byte

/-- The identity public key of the die (15 R506). Log entry 4. -/
opaque identityKey : List Byte

/-- The attestation public key of the die (15 R506). Log entry 4. -/
opaque attestationKey : List Byte

/-- The boot ROM image, over which M0 is taken (15 R509). Log entry 4. -/
opaque bootRom : List Byte

/-- The identity certificate of the one-time-programmable array (15 R506). Log entry 4. -/
opaque identityCert : List Byte

/-- The attestation certificate (15 R506). Log entry 4. -/
opaque attestationCert : List Byte

/-- The module serial of IDENTIFY, 32 bytes (06 R241). Log entry 4. -/
opaque serialNumber : List Byte

/-- The enterprise number fixed at mask (15 R525 MGMT_IANA). Log entry 4. -/
opaque ianaNumber : Dword

/-- The endpoint UUID of the management sideband (15 R523). Log entry 4. -/
opaque endpointUuid : List Byte

/-- Firmware slot contents as the maker ships them (15 R507). Log entry 4. -/
opaque factorySlot : Nat → List Byte

/-- The VDD_CORE code of a new module, from manufacture calibration (13 R469). Log entry 5. -/
opaque factoryVid : BitVec 4

/-- The canary slack, in taps, of a group that the margin plan predicts for a least seen slack, a twin
degradation, a VDD_CORE code and a clock in MHz (13 R469: "corrected to 140 °C Tj by the calibrated
coefficient, and reduced by the twin degradation predicted over the next 720 h"). Log entry 5. -/
opaque plannedSlack : Nat → Nat → List Nat → Nat → Nat → Int

/-- Spare blocks of the vault, the divisor of the wear fraction (13 R469). Log entry 5. -/
opaque spareBlocks : Nat

/-- The half of the vault that the block of a NAND die's error message lies in, by die and ADDRESS, and the blocks that a half has
beyond its 64 GiB (11 R403). Log entry 5. -/
opaque blockHalf : Nat → Nat → Bool
opaque halfSpare : Nat

/-- The bytes of the identity record, whose layout no chapter gives (11 R419): cohort node, paired setting, peer
node. Log entry 6. -/
opaque identityBytes : Nat → Bool → Nat → List Byte

/-- The bytes of the port split record: contexts and vectors of port 0. Log entry 6. -/
opaque portSplitBytes : Nat → Nat → List Byte

/-- The bytes of the boot settings record: boot volume, retraining request. Log entry 6. -/
opaque bootBytes : Option Nat → Bool → List Byte

/-- The bytes of the cache classes record: masks by class, WAY_LOCK, classes by volume. Log entry 6. -/
opaque cacheClassBytes : Tbl (BitVec 16) → BitVec 16 → Tbl Nat → List Byte

/-- The bytes of a profile record, and of the data of PROFILE_READ (02 R66). Log entry 6. -/
opaque profileBytes : Profile → List Byte

/-- The bytes of the profile lock record. Log entry 6. -/
opaque lockBytes : Option Nat → List Byte

/-- The bytes of the plan-signing keys record. Log entry 6. -/
opaque keysBytes : List (List Byte) → List Byte

/-- The bytes of a ledger record whose layout no chapter gives (11 R416: "Any other record has the
length that the module gives it"), by type, instance and what the record holds. Log entry 6. -/
opaque recordBytes : Nat → Nat → List Int → List Byte

/-- What the firmware's trap handler captures into a record for a message (14 R479 TRAP, R491).
Log entry 7. -/
opaque trapCapture : Word → List Byte

/-- Hours in a month of 11 R404 (13 R469). Log entry 5. -/
opaque monthHours : Nat

/-- The result, as numerator and denominator, of a division by zero in the pack's formulas, by the numerator divided
(12 R434 to R445, for an identity block whose fields are 0). Log entry 15. -/
opaque divByZero : Int → Nat → Int × Nat

/-- A state of charge, as numerator and denominator, for a cell voltage in 10 mV outside the OCV table (12 R430).
Log entry 15. -/
opaque ocvBeyond : Int → Nat → Int × Nat

/-- The byte of PF1's Identify Controller data at an offset, where neither 06 R246 nor the NVM Express specification that it
names fixes it. Log entry 43. -/
opaque nvmeIdentity : Nat → Byte

/-- The MCTP version entries of Get MCTP Version Support (15 R523 names the message; DSP0236 gives its form). Log entry 48. -/
opaque mctpVersions : List Byte

/-- The 16-bit value that Get Vendor Defined Message Support gives beside the enterprise number. Log entry 48. -/
opaque vendorSet : List Byte

end Sys2Proof.Config
end

