-- ==== Sys2Proof/Machine/State.lean ====
section
/-! DEFINITION. Sys2Proof/Machine/State.lean: everything the spec gives the block, as plain data. A field's
docstring names the rule that gives it; the default value of a field is its value after power-on reset
(`State.reset`). Tables list records by number; a number that is not listed holds the value its reader
states. Times are microseconds of `State.now` unless a docstring says otherwise. -/

namespace Sys2Proof.Machine

/-- Why a step stops with a fault. -/
inductive Fault where
  /-- Raised by HOUSEKEEPING_ROUND alone, for an operand that is not a round: a number of channels
  other than the 64 of 01 R17. Safe: no event of the hardware has such an operand. -/
  | malformed
  deriving DecidableEq, Repr

/-- Why a step refuses. -/
inductive Refusal where
  /-- Raised by an arm of `exec` whose command has no meaning yet. Safe. -/
  | notModelled (mnemonic : String)
  deriving DecidableEq, Repr

/-! ## What leaves the module -/

/-- A command that the module sends to a member controller (04, 08). -/
inductive MReq where
  | read (lba count : Nat)
  /-- `n` blocks; tags that travel with the data are in `tags` when the namespace has a separate metadata buffer, and stand after
  each 4,096 bytes of `data` when it has extended LBA data (04 R139) -/
  | write (lba n : Nat) (fua : Bool) (data : List Byte) (tags : List Word)
  | deallocate (lba count : Nat)
  | writeZeroes (lba count : Nat)
  | health
  | endurance
  /-- Set Features, Host Identifier (FID 0x81), with the cohort node (10 R364) -/
  | hostId (node : Nat)
  /-- Reservation Register with the Register action and Persist Through Power Loss (10 R364) -/
  | join (key : Word)
  /-- Reservation Register with the Replace action -/
  | register (key : Word)
  | acquire (key : Word)
  | preempt (key victim : Word)
  | release (key : Word)
  | report
  deriving DecidableEq, Repr

/-- A pair-link message as the module sends it (10 R358), by its body. -/
inductive PMsg where
  | hello (m : HelloMsg)
  | heartbeat (m : HeartbeatMsg)
  | farewell
  | suspectNotice
  | mirrorWrite (sectors : List LineSector)
  | mirrorAck (upTo : Nat)
  | mirrorClean (pool line : Nat) (mask : BitVec 16)
  | jnlMirror (e : JnlWire)
  | jnlRetire (seq : Nat)
  | ledgerPrepare (r : SharedRec)
  /-- the vote, with the reason of a refusal (R358; log entry 75) -/
  | ledgerVote (accept : Bool) (reason : Nat)
  | ledgerDecide (commit : Bool)
  | quiesce (profile : Bool)
  | quiesceDone
  | forwardCmd (tag : Nat) (entry : List Byte)
  | forwardData (write : Bool) (tag : Nat) (data : List Byte)
  | forwardCpl (e : ForwardEnd)
  | memberReport (pool slot : Nat) (timeout : Bool)
  | resyncLine (sectors : List LineSector) (entry : Option JnlWire)
  | resyncDone
  | xfer (st : XferStep)
  deriving DecidableEq, Repr

/-- Everything the module drives outward: memory transactions, member commands, pair and management
messages and levels on balls. The list `State.out` keeps them newest first. -/
inductive Out where
  | hostWrite (port addr : Nat) (data : List Byte)
  | hostRead (port addr len : Nat)
  | msix (port vector : Nat) (addr : Word) (data : Dword)
  | member (port tag : Nat) (r : MReq)
  | memberAbort (port tag : Nat)
  | memberCcClear (port : Nat)
  | memberReset (port : Nat)
  /-- a pair message: TYPE, CLASS, SEQ, NODE and EPOCH of its header (10 R357), and its body; LEN and CRC are those of the body's
  bytes (log entry 30) -/
  | pair (typ cls seq node epoch : Nat) (m : PMsg)
  /-- a management message: MCTP message type, command, instance, status or completion code, bytes -/
  | mctp (typ cmd inst cc : Nat) (data : List Byte)
  /-- a level on a ball, by name -/
  | pin (name : String) (level : Bool)
  /-- the code on CORE_VID[3:0] (13 R468) -/
  | vid (code : Nat)
  /-- bytes shifted out of the test access port -/
  | tap (code : Nat) (bits : Nat)
  deriving DecidableEq, Repr

/-! ## Host rings (05) -/

/-- Ring states of 05 R211, coded by RING_STATE.STATE. -/
inductive RingSt where
  | free | active | draining | idle | error
  deriving DecidableEq, Repr

/-- A completion or event entry before it is written into a ring (05 R186, 06 R242). The lap bit and
SQ_HEAD are those of the moment it is written. -/
structure Cqe where
  isEvent : Bool := false
  /-- RESULT, or DATA of an event -/
  dw0 : Dword := 0
  /-- CID, or TYPE -/
  cid : BitVec 16 := 0
  /-- STATUS, or MERGED -/
  status : BitVec 16 := 0
  /-- SQ, or OBJECT -/
  obj : Nat := 0
  /-- SEQ of an event -/
  seq : Dword := 0
  /-- page of the DRAM service region on which a stashed entry lies; none in the SRAM stash of FLOOR (R206, 07 R551) -/
  page : Option Nat := none
  deriving DecidableEq, Repr

/-- One ring context (05 R178, R211). -/
structure Ring where
  st : RingSt := .free
  /-- 0 submission, 1 completion, 2 async event -/
  typ : Nat := 0
  base : Nat := 0
  log2 : Nat := 4
  pushEn : Bool := false
  /-- bound completion ring of a submission ring -/
  bind : Nat := 0
  vector : Nat := 0
  intEn : Bool := false
  cap : Nat := 0
  weight : Nat := 1
  coalCount : Nat := 0
  coalTime : Nat := 0
  /-- the start value given for the ring (R174) -/
  init : Dword := 0
  head : Dword := 0
  tail : Dword := 0
  /-- the accepted copies of push slots 0 and 1 (R196) -/
  push0 : Option (List Byte) := none
  push1 : Option (List Byte) := none
  /-- fetched copies by counter value, and the counters whose read is outstanding (R198) -/
  fetched : Tbl (List Byte) := []
  reading : List Nat := []
  /-- ERROR cause -/
  cause : Nat := 0
  charge : Nat := 0
  stash : List Cqe := []
  /-- counters that ABORT marked (06 R240) -/
  marked : List Nat := []
  /-- begun commands of a submission ring whose completion is not yet written (R183, R212) -/
  open_ : Nat := 0
  /-- completions written since the last signal, and when the first of them was (R208) -/
  unsignalled : Nat := 0
  firstAt : Nat := 0
  /-- tail at which a drain ends, and the state that follows it (R212) -/
  drainTail : Dword := 0
  drainTo : RingSt := .idle
  deriving DecidableEq, Repr

/-- An MSI-X table entry (05 R207; PCI Express Base 6.0). -/
structure Msix where
  addr : Word := 0
  data : Dword := 0
  masked : Bool := true
  pend : Bool := false
  deriving DecidableEq, Repr

/-- The pending event of one type (05 R205, R213; 06 R243). -/
structure PendEv where
  data : Dword := 0
  obj : Nat := 0
  merged : Nat := 0
  seq : Dword := 0
  deriving DecidableEq, Repr

/-- A PF1 queue (06 R246). -/
structure Nvq where
  base : Nat := 0
  size : Nat := 0
  head : Nat := 0
  tail : Nat := 0
  phase : Bool := true
  intEn : Bool := false
  vector : Nat := 0
  deriving DecidableEq, Repr

/-- The PF1 controller of a port (06 R246 to R250). -/
structure Pf1 where
  en : Bool := false
  enPending : Bool := false
  rdy : Bool := false
  cfs : Bool := false
  asq : Option Nvq := none
  acq : Option Nvq := none
  ioSq : Option Nvq := none
  ioCq : Option Nvq := none
  /-- Interrupt Coalescing and Asynchronous Event Configuration features -/
  coalescing : Dword := 0
  aerConfig : Dword := 0
  /-- outstanding Asynchronous Event Requests by CID -/
  aers : List (BitVec 16) := []
  /-- Critical Warning bits seen, those of them not yet reported by an event, and whether the events of the log page are masked
  until it is read -/
  warned : Nat := 0
  warnNew : Nat := 0
  aerMasked : Bool := false
  /-- CC, AQA, ASQ and ACQ as written last -/
  cc : Dword := 0
  aqa : Dword := 0
  asqReg : Word := 0
  acqReg : Word := 0
  msix : Tbl Msix := []
  sectorsRead : Nat := 0
  sectorsWritten : Nat := 0
  /-- completions that wait for room: admin queue, CID, status, first dword -/
  stash : List (Bool × BitVec 16 × Nat × Nat) := []
  /-- first failure of a Dataset Management command that still runs, by CID -/
  dsmFail : Tbl (BitVec 16) := []
  deriving DecidableEq, Repr

/-- What each host port holds (05 R216, 01 R32, R33). -/
structure Port where
  adminSqBase : Nat := 0
  adminCqBase : Nat := 0
  en : Bool := false
  pushEn : Bool := false
  sqLog2 : Nat := 0
  cqLog2 : Nat := 0
  /-- an EN write made before READY (06 R218) -/
  enPending : Bool := false
  adminErr : Bool := false
  adminDraining : Bool := false
  ringSel : Nat := 0
  pushAccept : Nat := 0
  pushDiscard : Nat := 0
  stale : Nat := 0
  dbErrors : Nat := 0
  errRing : Nat := 0
  errCause : Nat := 0
  errValid : Bool := false
  msix : Tbl Msix := []
  /-- the port's async event ring, its pending events by type and its SEQ (R213) -/
  evRing : Option Nat := none
  evPend : Tbl PendEv := []
  evSeq : Dword := 0
  /-- weighted round robin (R199): last ring served and entries left of its turn -/
  lastRing : Nat := 0
  turnLeft : Nat := 0
  /-- PF1's queue has had its turn of this round (06 R248) -/
  pf1Turn : Bool := false
  width : Nat := 0
  inL12 : Bool := false
  vdm : Bool := false
  /-- the link trained with SRIS (13 R471) -/
  sris : Bool := false
  perstLow : Bool := false
  pf1 : Pf1 := {}
  deriving DecidableEq, Repr

/-! ## Commands and stripe operations (03, 06) -/

/-- Where a command came from. -/
inductive CmdSrc where
  | ring (r : Nat)
  | pf1 (port : Nat) (admin : Bool) (cid : BitVec 16)
  /-- one range of a Dataset Management command -/
  | dsm (port : Nat) (cid : BitVec 16)
  | peer (tag : Nat)
  /-- from a ring that FLR freed: its completion is discarded (05 R214) -/
  | gone
  deriving DecidableEq, Repr

/-- How far a begun command is. -/
inductive CmdPh where
  /-- its scatter list is being read (05 R182) -/
  | list
  /-- checked and split; its own row has not run -/
  | begun
  /-- its write data is being read from host memory -/
  | data
  /-- its write data is staged; sectors wait under 07 R261, R262 or R265, or the operation waits for a way -/
  | staged
  /-- its operations run -/
  | running
  /-- its mirror copy is outstanding (10 R367) -/
  | mirror
  /-- FLUSH, range or admin work outstanding -/
  | waiting
  /-- sent to the owner (10 R375) -/
  | forwarded
  /-- held until the pool has an owner that serves it (10 R376) -/
  | held
  deriving DecidableEq, Repr

/-- A begun command (05 R177, 06). -/
structure Cmd where
  src : CmdSrc
  port : Nat := 0
  /-- the 64-byte entry -/
  entry : List Byte := []
  opcode : Nat := 0
  ph : CmdPh := .begun
  volume : Nat := 0
  lba : Nat := 0
  count : Nat := 0
  /-- host buffer as (address, length) runs -/
  sgl : List (Nat × Nat) := []
  wt : Bool := false
  /-- dirty sectors claimed against the cap (07 R277) -/
  claim : Nat := 0
  /-- write data by offset in sectors; read data by offset -/
  wdata : Tbl (List Byte) := []
  rdata : Tbl (List Byte) := []
  /-- offsets of write data not yet placed in a sector -/
  unplaced : List Nat := []
  /-- failing offsets with their status (06 R223) -/
  fails : List (Nat × BitVec 16) := []
  opsLeft : Nat := 0
  result : Dword := 0
  /-- sectors that FLUSH, a range invalidate or WT wait to see clean: (slot of the line, sector) -/
  waitSecs : List (Nat × Nat) := []
  /-- the same for dirty sectors not yet restored from the vault: (pool, line, sector) -/
  waitVault : List (Nat × Nat × Nat) := []
  /-- last mirror message of a paired cached write (10 R367) -/
  mirrorSeq : Nat := 0
  /-- a READ that vault paging has served a sector of (11 R424 PAGED) -/
  paged : Bool := false
  /-- sectors of a forwarded command whose data has come over the pair link (10 R375) -/
  got : Nat := 0
  deriving DecidableEq, Repr

/-- One sector of a handle: data, tag beside it, uncorrectable buffer error (03 R85, R97). -/
structure HSec where
  data : List Byte := []
  tag : Word := 0
  bad : Bool := false
  /-- its tag page failed its own check (04 R141) -/
  tagBad : Bool := false
  /-- read from a member and not written since: the position whose slot a tag failure counts against (04 R142) -/
  read : Bool := false
  deriving DecidableEq, Repr

/-- Handle kinds of 03 R85. -/
inductive HKind where
  | none | host | template | scratch
  deriving DecidableEq, Repr

/-- A buffer handle (03 R84, R85). Sectors by position × 16 + sector of the slice. -/
structure Handle where
  kind : HKind := .none
  first : Nat := 0
  count : Nat := 0
  mask : Word := 0
  tagged : Bool := false
  secs : Tbl HSec := []
  deriving DecidableEq, Repr

/-- A recovery schedule in use: ERASED, SOURCES and the rows (03 R93, 02 R44). -/
structure Sched where
  erased : Word := 0
  sources : Word := 0
  rows : List (List Byte) := []
  deriving DecidableEq, Repr

/-- One position of an issued MRD or MWR. -/
structure Job where
  /-- member commands of the position still outstanding -/
  left : Nat := 0
  fail : Bool := false
  late : Bool := false
  deriving DecidableEq, Repr

/-- An issued instruction whose result is not yet written (03 R91). -/
structure Inflight where
  word : Word := 0
  /-- slot values read at issue -/
  sa : Word := 0
  sb : Word := 0
  reads : Option Nat := none
  writes : Option Nat := none
  jobs : Tbl Job := []
  issuedAt : Nat := 0
  /-- its place in the order in which instructions arrive at the stages (03 R107) -/
  arr : Nat := 0
  /-- LOOK.SCHED waits on a schedule: its ERASED mask (02 R57) -/
  schedWait : Option Word := none
  /-- journal status decided (03 R100), and the pair message whose acknowledgement it waits for -/
  jnl : Option Nat := none
  mirror : Option Nat := none
  deriving DecidableEq, Repr

/-- What a context does (03 R119 CTX_STATE). -/
inductive CtxRun where
  | held | running | ended
  deriving DecidableEq, Repr

/-- A sequencer context in use (03 R84). `slots` has 16 entries; instructions in flight by slot, the
built-in procedures under number 16. -/
structure Ctx where
  op : Nat
  run : CtxRun := .held
  pc : Nat := 0
  extStart : Nat := 0
  extLen : Nat := 0
  stack : List (Nat × Nat × Nat) := []
  slots : Tbl Word := []
  handles : Tbl Handle := []
  sch : Option Sched := none
  /-- schedule cache slots, by key, that the operation uses (02 R61) -/
  schUsed : List Nat := []
  /-- index of the open entry in the journal area -/
  jnl : Option Nat := none
  pending : BitVec 16 := 0
  entry : Nat := 0
  routine : Bool := false
  scratch : Nat := 0
  issued : Nat := 0
  inflight : Tbl Inflight := []
  deriving DecidableEq, Repr

/-- Why an operation was made. -/
inductive Why where
  | host
  | destage
  | evict (slot : Nat)
  | cell (entry pos : Nat)
  | restore (slot : Nat)
  | patrol
  | check
  | reshape
  /-- a window row of a reshape is copied home (09 R349) -/
  | home
  | replay (idx : Nat)
  | region
  | sealRow
  | dealloc
  deriving DecidableEq, Repr

/-- How far an operation is. -/
inductive OpSt where
  /-- held by intake under 01 R12 or R13 -/
  | held
  /-- at stage 3, waiting for a way (07 R259) since the time given -/
  | alloc (since : Nat)
  /-- placed and probed, before its command's row or stage 4 -/
  | placed
  /-- its command's row has run; at stage 4 -/
  | ready
  /-- at stage 4 waiting for scratch or staging sectors (03 R83, 01 R9) -/
  | scratch
  /-- at stage 4 with its reservation, its host data being read into the staging sectors (01 R9) -/
  | fetch
  /-- its program runs -/
  | program
  /-- a built-in procedure runs -/
  | builtin
  /-- held at stage 4 beyond m or for lost-extent room (08 R310, R552) -/
  | parked
  deriving DecidableEq, Repr

/-- Phases of a built-in procedure. -/
inductive BiPh where
  | read | write | close
  deriving DecidableEq, Repr

/-- A stripe operation (03 R77, R78, R84). -/
structure Op where
  /-- code of 03 R78; 9 for a host write that starts no program (R79) -/
  kind : Nat := 0
  pool : Nat := 0
  row : Nat := 0
  slice : Nat := 0
  first : Nat := 0
  count : Nat := 1
  /-- S2 DATA, S5 REBUILD, and the erasures a REDISPATCH added (03 R84, R113) -/
  data : Word := 0
  rebuild : Word := 0
  extra : Word := 0
  /-- S3 as the last dispatch loaded it -/
  erased : Word := 0
  fua : Bool := false
  hostpost : Bool := false
  cmd : Option Nat := none
  why : Why := .host
  st : OpSt := .held
  ctx : Option Nat := none
  /-- order of acceptance and release by ROW_ORDER_RELEASE (01 R14) -/
  seq : Nat := 0
  rowOk : Bool := false
  /-- stopped by a lane reset after it had reached stage 4: it goes to stage 4 again once it is placed (14 R487) -/
  again : Bool := false
  /-- cache lines it holds: line number to tag index set × 16 + way; and the sectors it fills or destages,
  position × 16 + sector of the slice -/
  lines : Tbl Nat := []
  secs : List Nat := []
  /-- HOST sectors while the DRAM cache is out of service, or loaded for a destage -/
  hdata : Tbl HSec := []
  staging : Nat := 0
  /-- a host write whose data stage 4 has still to read from host memory (01 R9) -/
  unread : Bool := false
  routine : Nat := 0
  arg0 : Word := 0
  arg1 : Word := 0
  /-- stage 4 has granted its reservation once: its place in the order is kept (03 R83, 01 R9) -/
  granted : Bool := false
  /-- 08 R310: continued at class 0 after erasures beyond m -/
  cont0 : Bool := false
  /-- 08 R316: run sector row by sector row -/
  single : Bool := false
  bi : BiPh := .read
  /-- sectors of the span whose parity a built-in procedure encodes from data (09 R343) -/
  encoded : List Nat := []
  deriving DecidableEq, Repr

/-! ## The plan (02, 04) -/

/-- A geometry row (04 R121). -/
structure Geom where
  k : Nat
  m : Nat
  shift : Nat
  deriving DecidableEq, Repr

/-- A pool table entry (04 R122). -/
structure PoolEnt where
  dual : Bool := false
  switchOk : Bool := false
  geom : Nat := 0
  n : Nat := 1
  fallow : Nat := 0
  format : Nat := 0
  q : Nat := 1
  nblocks : Nat := 1
  bands : Nat := 0
  dataBase : Nat := 16384
  serial : Nat := 0
  members : List (BitVec 16) := []
  deriving DecidableEq, Repr

/-- A volume table entry (04 R123). -/
structure VolEnt where
  pool : Nat
  startRow : Nat
  sectors : Nat
  name : List Byte := []
  deriving DecidableEq, Repr

/-- Placement limits of a pool (04 R151). -/
structure Limits where
  reserve : Nat := 0
  wearSpread : Nat := 10
  hotReads : Nat := 10
  flags : Nat := 0
  overlay : Nat := 1024
  deriving DecidableEq, Repr

/-- A reshape target section (09 R345). The target layout of pool p is held as pool p + 8 of the pool and
roll tables of `PlanTab`; what is left of the section is here. -/
structure Target where
  descending : Bool := false
  lead : Nat := 2048
  rows : Nat := 0
  sourceHash : List Byte := []
  /-- volume and its target START_ROW -/
  vols : List (Nat × Nat) := []
  bytes : List Byte := []
  deriving DecidableEq, Repr

/-- Plan SRAM and program store of the image that runs (02 R41), by table. -/
structure PlanTab where
  hash : List Byte := []
  seq : Nat := 0
  pools : Tbl PoolEnt := []
  vols : Tbl VolEnt := []
  geoms : Tbl Geom := []
  coeff : Tbl (List Byte) := []
  roll : Tbl (List Byte) := []
  sched : Tbl (List Byte) := []
  dispatch : List (Word × Word) := []
  program : List Word := []
  routines : List (Word × Word) := []
  limits : Tbl Limits := []
  targets : Tbl Target := []
  deriving DecidableEq, Repr

/-- A schedule cache slot (02 R56, R61): its record of 320 bytes (R44). -/
structure SchedSlot where
  record : List Byte
  lastUse : Nat := 0
  deriving DecidableEq, Repr

/-- A request to the plan engine (02 R57, R58, R63). -/
structure SchedReq where
  geom : Nat
  erased : Word
  since : Nat
  /-- made by the walk of R60 -/
  pre : Bool := false
  raised : Bool := false
  deriving DecidableEq, Repr

/-- The data path's plan and what the plan engine adds to it (02). -/
structure PlanSt where
  /-- none until an image is loaded (R55) -/
  tab : Option PlanTab := none
  /-- schedule cache, or floor schedule area: key geometry × 2^64 + ERASED -/
  cache : Tbl SchedSlot := []
  queue : List SchedReq := []
  /-- geometries whose precompiled section reloads (R62) -/
  reloading : List Nat := []
  /-- program-store words with an uncorrectable error, until the reload (03 R117) -/
  badWords : List Nat := []
  /-- fenced dispatch entries and routines (03 R111) -/
  fencedDisp : List Nat := []
  fencedRout : List Nat := []
  /-- intake holds of R52 and R70, and the time a profile quiesce began -/
  switching : Bool := false
  quiesceSince : Option Nat := none
  /-- the admin command or joint quiesce that waits on the switch or the quiesce -/
  waiter : Option Nat := none
  /-- profile number that the quiesce puts in force -/
  nextProfile : Option Nat := none
  jointHold : Bool := false
  deriving DecidableEq, Repr

/-- The pipeline registers (03 R119) and lane state. -/
structure PipeSt where
  ops : Tbl Op := []
  ctxs : Tbl Ctx := []
  cmds : Tbl Cmd := []
  nextOp : Nat := 0
  nextCmd : Nat := 0
  nextSeq : Nat := 0
  /-- the place in the stages' order of arrival that the next issued instruction takes (03 R107) -/
  nextArr : Nat := 0
  /-- operations held by intake, oldest first (01 R12, R13) -/
  held : List Nat := []
  /-- operations waiting for scratch or staging, in arrival order (03 R83) -/
  waitScratch : List Nat := []
  /-- last context issued per core (03 R74) -/
  lastCtx : Tbl Nat := []
  faults : Nat := 0
  traps : Nat := 0
  lastCode : Nat := 0
  lastContext : Nat := 0
  lastPc : Nat := 0
  lastEntry : Nat := 0
  lastRoutine : Bool := false
  lastValid : Bool := false
  ctxSel : Nat := 0
  /-- sector errors of lane buffer SRAM corrected in the program store (03 R117) -/
  storeCorrected : Nat := 0
  /-- the port that intake served last, while the host link is bifurcated (05 R199) -/
  lastPort : Nat := 1
  deriving DecidableEq, Repr

/-! ## Cache, journal and lost writes (07) -/

/-- A tag (07 R253). -/
structure Tag where
  valid : BitVec 16 := 0
  dirty : BitVec 16 := 0
  lineHi : Nat := 0
  pool : Nat := 0
  evicting : Bool := false
  deriving DecidableEq, Repr

/-- A dirty shadow entry in use (07 R271). -/
structure Shadow where
  dirty : BitVec 16 := 0
  lineHi : Nat := 0
  pool : Nat := 0
  deriving DecidableEq, Repr

/-- An eviction in progress (07 R264, R265): the operation that destages it, the operation whose
allocation caused it, and whether a request attached. -/
structure Evict where
  ops : List Nat := []
  waiter : Option Nat := none
  attached : Bool := false
  failed : Bool := false
  /-- every operation has passed stage 10 -/
  ended : Bool := false
  deriving DecidableEq, Repr

/-- A lost-write record (07 R294); its key is pool × 2^43 + line. -/
structure LostW where
  mask : BitVec 16 := 0
  volume : Nat := 0
  reason : Nat := 0
  opSeconds : Nat := 0
  deriving DecidableEq, Repr

/-- A destage to be made again (07 R264): not before `due`, and after the patrol check of its slice. -/
structure Retry where
  due : Nat := 0
  patrol : Bool := false
  /-- 08 R310: held until the row's erasures fall to m -/
  beyond : Bool := false
  deriving DecidableEq, Repr

/-- The write-back cache and its registers (07). -/
structure CacheSt where
  /-- tags and shadow by set × 16 + way -/
  tags : Tbl Tag := []
  shadow : Tbl Shadow := []
  /-- pseudo-LRU tree by set (R258) -/
  plru : Tbl (BitVec 15) := []
  /-- cache data space: byte address ((set × 16 + way) × 16 + sector) × 4,096 + offset -/
  mem : List Host.Cell := []
  /-- when a sector became dirty, by (set × 16 + way) × 16 + sector (R279) -/
  since : Tbl Nat := []
  evict : Tbl Evict := []
  lostW : Tbl LostW := []
  retry : Tbl Retry := []
  ways : Tbl (BitVec 16) := []
  lock : BitVec 16 := 0
  volClass : Tbl Nat := []
  capUnits : Nat := 0
  energyUnits : Nat := 0
  /-- energy units of the latest rounds that were above those in force (R276) -/
  rising : List Nat := []
  unnamedLoss : Bool := false
  anchorDegraded : Bool := false
  frozen : Bool := false
  invLba : Nat := 0
  invVol : Nat := 0
  invCount : Nat := 0
  invBusy : Bool := false
  invDone : Bool := false
  invErr : Bool := false
  /-- the range of the invalidate in progress: volume, first sector, count -/
  invRange : Nat × Nat × Nat := (0, 0, 0)
  /-- sectors a range invalidate still waits to destage, and those of them that are still in the vault (pool, line, sector) -/
  invWait : List (Nat × Nat) := []
  invVault : List (Nat × Nat × Nat) := []
  /-- tag and shadow entries that have gone bad and that no tag read has met yet (R270) -/
  tagErrs : List TagErr := []
  dramCorr : Nat := 0
  dramUnc : Nat := 0
  tagParity : Nat := 0
  shadowRep : Nat := 0
  lostSel : Nat := 0
  lastTagScrub : Nat := 0
  lastDramScrub : Nat := 0
  deriving DecidableEq, Repr

/-- A stripe journal entry (07 R282). -/
structure Jnl where
  seq : Nat := 0
  row : Nat := 0
  pool : Nat := 0
  kind : Nat := 0
  positions : Word := 0
  slice : Nat := 0
  first : Nat := 0
  count : Nat := 1
  /-- 0 free, 1 open, 2 retired -/
  st : Nat := 0
  cached : Bool := false
  mirrored : Bool := false
  reloc : Bool := false
  newGen : Dword := 0
  context : Nat := 0
  deriving DecidableEq, Repr

/-- An anchor member (04 R162, 07 R290). -/
structure Anchor where
  pool : Nat := 0
  slot : Nat := 0
  port : Nat := 0
  /-- holds a current checkpoint -/
  valid : Bool := false
  /-- the older copy is A -/
  copyA : Bool := true
  /-- not yet given a full checkpoint in both copies (07 R292) -/
  fresh : Bool := true
  /-- the checkpoint that runs on it: 0 none, 1 its pages, 2 its header; and the copies that it has still to write -/
  stage : Nat := 0
  todo : Nat := 0
  deriving DecidableEq, Repr

/-- What a write to an anchor carries, made from the state when it is sent (07 R290, R291). -/
inductive AnchorPage where
  /-- the bitmap page of a pool, for the pre-mark of a journal entry -/
  | premark (id pool page : Nat)
  | journal
  | bitmap (pool : Nat)
  | header
  deriving DecidableEq, Repr

/-- A write to an anchor that waits: writes of one page to one anchor are serialised (07 R291). -/
structure AnchorJob where
  anchor : Nat
  lba : Nat
  n : Nat
  what : AnchorPage
  deriving DecidableEq, Repr

/-- A valid checkpoint header that a member holds (07 R290, R293): checkpoint and journal sequence, and where it stands. -/
structure CkptHdr where
  seq : Nat := 0
  jseq : Nat := 0
  pool : Nat := 0
  slot : Nat := 0
  port : Nat := 0
  copyA : Bool := true
  deriving DecidableEq, Repr

/-- A pre-mark in progress (07 R291, R292), named by the journal sequence that follows its entry. -/
structure Premark where
  id : Nat
  ctx : Nat
  since : Nat
  /-- writes not ended: anchor and LBA -/
  left : List (Nat × Nat) := []
  acked : List Nat := []
  failed : List Nat := []
  /-- its JNL has gone on; its shortage of acknowledgements is reported -/
  used : Bool := false
  noted : Bool := false
  deriving DecidableEq, Repr

/-- Stripe journal, regions and anchor image (07 R282 to R293). Regions are keyed
pool × 2^48 + region. -/
structure JnlSt where
  own : Tbl Jnl := []
  mirror : Tbl Jnl := []
  nextSeq : Nat := 0
  /-- plan-image hash recorded with the journal -/
  hash : List Byte := []
  shift : Tbl Nat := []
  marked : List Nat := []
  opens : Tbl Nat := []
  lastOpen : Tbl Nat := []
  image : List Nat := []
  anchors : Tbl Anchor := []
  /-- the anchors before the last chip reset: which of their copies is the older one (07 R290) -/
  oldAnchors : List Anchor := []
  anchorQ : List AnchorJob := []
  premarks : List Premark := []
  ckptSeq : Nat := 0
  /-- when the last checkpoint since the chip reset was complete, and when the last one started (R290) -/
  lastCkpt : Option Nat := none
  ckptAt : Nat := 0
  /-- members that did not acknowledge a pre-mark: none is chosen again before it has left ONLINE and come back (R292) -/
  barred : List (Nat × Nat) := []
  /-- a checkpoint fell due while one ran -/
  ckptAgain : Bool := false
  lastSweep : Nat := 0
  /-- header of the mirror area (07 R282): next sequence, plan-image hash, region shifts -/
  mirrorNext : Nat := 0
  mirrorHash : List Byte := []
  mirrorShift : Tbl Nat := []
  /-- open entries and marked regions that replay or background resynchronisation has still to make
  whole: journal indices, and regions with the next row -/
  replay : List Nat := []
  resync : Tbl Nat := []
  /-- rows of those regions that were resynchronised ahead of the walk, as pool × 2^48 + row (R289) -/
  resyncDone : List Nat := []
  /-- replay waits for an image whose hash is the journal's (02 R55) -/
  waitImage : Bool := false
  /-- pools of which the ledger lost its record, or that an older module ran: their members' checkpoints are looked for
  (R293, 04 R169) -/
  restorePools : List Nat := []
  hdrs : List CkptHdr := []
  /-- the copy that is being read, and the pages read of it by their offset from the header -/
  restFrom : Option CkptHdr := none
  restPages : Tbl (List Byte) := []
  deriving DecidableEq, Repr

/-! ## Members and pools (04, 08, 09) -/

/-- Slot states of 08 R298. -/
inductive SlotSt where
  | absent | online | suspect | failed | rebuilding | retiring | retired
  deriving DecidableEq, Repr

/-- A member slot of a pool (08). -/
structure SlotRec where
  st : SlotSt := .absent
  reason : Nat := 0
  port : Option Nat := none
  commitPending : Bool := false
  commitSince : Nat := 0
  restore : Nat := 0
  labelGen : Nat := 0
  marks : List Nat := []
  /-- command times: (time of completion or of the mark, ms) (08 R329, R330) -/
  lat : List (Nat × Nat) := []
  suspects : List Nat := []
  readErrs : List Nat := []
  tagFails : List Nat := []
  readErrTotal : Nat := 0
  tagFailTotal : Nat := 0
  pctUsed : Nat := 0
  smartPct : Nat := 0
  endurPct : Nat := 0
  eol : Nat := 0xFFFFFFFF
  /-- percentage used seen at health reads: (operating seconds, percent) -/
  pctHist : List (Nat × Nat) := []
  critWarn : BitVec 8 := 0
  tempK : Nat := 0
  hotReads : Nat := 0
  hot : Bool := false
  /-- being prepared under 04 R143, at pool creation (true) or at adoption -/
  prep : Option Bool := none
  lastHealth : Nat := 0
  lastEndur : Nat := 0
  failedAt : Nat := 0
  ccCleared : Bool := false
  /-- the state that the ledger holds for a slot not yet found after a boot (08 R304), or whose failure is not committed
  (R300) -/
  resume : SlotSt := .online
  /-- the MEMBER_ADOPT whose labels are being written (08 R324) -/
  adopting : Option Nat := none
  deriving DecidableEq, Repr

/-- A relocation entry in use (04 R144), keyed entry × 64 + position, with its mover's window (R149). -/
structure Reloc where
  fromSlot : Nat := 0
  fromB : Nat := 0
  toSlot : Nat := 0
  toB : Nat := 0
  settled : Bool := false
  reason : Nat := 0
  boundary : Nat := 0
  /-- next band to copy, rows finished above the boundary, rows written since and to be copied again -/
  next : Nat := 0
  window : List Nat := []
  remark : List Nat := []
  active : Bool := false
  stopped : Bool := false
  /-- a voluntary move that a rebuild or retirement stopped (04 R154) -/
  paused : Bool := false
  /-- stopped at its BOUNDARY until the lost-extent list has room again (08 R321) -/
  full : Bool := false
  /-- the roll home was restored while the entry settled: it goes back there then (08 R326) -/
  back : Bool := false
  lastCommit : Nat := 0
  deriving DecidableEq, Repr

/-- A restore walk's window (08 R325), per slot. -/
structure Walk where
  next : Nat := 0
  window : List Nat := []
  remark : List Nat := []
  lastCommit : Nat := 0
  /-- roll entries of the cells that stopped until the lost-extent list has room again (08 R321) -/
  stopped : List Nat := []
  deriving DecidableEq, Repr

/-- The reshape record of a pool (09 R356) and the walk's frontier. -/
structure Reshape where
  /-- 0 none, 1 WAITING, 2 walking, 3 done -/
  st : Nat := 0
  b : Nat := 0
  src : Nat := 0
  rows : Nat := 0
  hash : List Byte := []
  window : List WinRow := []
  /-- target rows started, finished above B, and to be done again (R351) -/
  next : Nat := 0
  finished : List Nat := []
  remark : List Nat := []
  lastCommit : Nat := 0
  deriving DecidableEq, Repr

/-- A mark list record (09 R342). -/
structure Mark where
  row : Nat
  pool : Nat
  ssec : Nat
  unlocated : Bool := false
  opSeconds : Nat := 0
  deriving DecidableEq, Repr

/-- A pool as the module holds it: the ledger's pool record, and what runs on it (04, 08, 09, 10). -/
structure PoolRec where
  serial : Nat := 0
  n : Nat := 0
  geom : Nat := 0
  fallow : Nat := 0
  format : Nat := 0
  owner : Nat := 0
  epoch : Nat := 0
  /-- node of the module that created the pool (04 R163) -/
  home : Nat := 0
  slots : Tbl SlotRec := []
  relocs : Tbl Reloc := []
  walks : Tbl Walk := []
  writes : Tbl Nat := []
  reads : Tbl Nat := []
  sealPaused : Bool := false
  homeless : Bool := false
  discovery : Bool := true
  progress : Nat := 0
  patrol : Patrol := {}
  reshape : Reshape := {}
  voluntary : Option Nat := none
  /-- arbiter slots of a pair pool (10 R366) -/
  arbs : List Nat := []
  rebuildTotal : Nat := 0
  deriving DecidableEq, Repr

/-- A member port's classification (08 R303). -/
inductive PortCls where
  | absent
  | unclassified
  | foreign (reason : Nat)
  | serving (pool slot : Nat)
  | retired
  | stale (pool slot : Nat)
  deriving DecidableEq, Repr

/-- A member port (08 R303, 16 R530). -/
structure MPort where
  cls : PortCls := .absent
  present : Bool := false
  agree : Nat := 0
  linkUp : Bool := false
  downAt : Option Nat := none
  id : Option MemberId := none
  label : Option (List Byte) := none
  width : Nat := 0
  lastUse : Nat := 0
  reserved : Bool := false
  deriving DecidableEq, Repr

/-- To whom a member command's end is reported. -/
inductive MOwner where
  /-- sectors `from` to `from + n - 1` of the span at a position, for an instruction of a context -/
  | rd (ctx slot pos fr n : Nat)
  | rdTag (ctx slot pos fr n idx : Nat)
  /-- a data write, followed by a tag page write on a 4096+0 member -/
  | wr (ctx slot pos fr n : Nat) (tagLba : Option (Nat × Nat)) (tags : List Word)
  | rmwRd (ctx slot pos lba idx : Nat) (tags : List Word)
  | rmwWr (ctx slot pos lba : Nat)
  /-- a label page with its LABEL_GEN (04 R164) -/
  | label (pool slot gen : Nat) (page : List Byte)
  /-- LBAs 0 to 15 of a member that this module does not serve (04 R168) -/
  | labelRd
  | prep (pool slot : Nat)
  | premark (id anchor : Nat)
  | ckpt (anchor : Nat)
  /-- the header of a checkpoint copy, read when the module restores from anchors (07 R293) -/
  | ckptHdr (copyA : Bool)
  /-- pages of the copy that it restores from, at an offset from the header -/
  | ckptRead (copyA : Bool) (off : Nat)
  | health (pool slot : Nat)
  /-- a reservation command of a takeover or a transfer -/
  | resv (pool slot : Nat)
  | other
  deriving DecidableEq, Repr

/-- An outstanding member command (08 R306); its key is its tag. The latency values are those in force at
its issue (02 R70). -/
structure MCmd where
  port : Nat
  slot : Option (Nat × Nat) := none
  write : Bool := false
  lba : Nat := 0
  count : Nat := 0
  owner : MOwner := .other
  issued : Nat := 0
  suspectMs : Nat := 1500
  failMs : Nat := 8000
  hedgeMs : Nat := 50
  marked : Bool := false
  /-- reported as failed or late: its data is discarded -/
  dead : Bool := false
  aborted : Bool := false
  deriving DecidableEq, Repr

/-- A tag page update that waits for another of the same page (04 R141). -/
structure TagJob where
  port : Nat
  lba : Nat
  ctx : Nat
  slot : Nat
  pos : Nat
  idx : Nat
  tags : List Word
  deriving DecidableEq, Repr

/-- Members, pools and their lists (04, 08, 09). -/
structure MemSt where
  ports : Tbl MPort := []
  pools : Tbl PoolRec := []
  cmds : Tbl MCmd := []
  nextTag : Nat := 0
  /-- commands to ports of member groups whose PLL does not run, oldest first: port, tag, command (13 R465, R466) -/
  stopped : List (Nat × Nat × MReq) := []
  tagQueue : List TagJob := []
  lostE : List LostE := []
  marks : List Mark := []
  /-- slices queued for a patrol check: (pool, row, slice) (08 R307, 09 R335) -/
  checks : List (Nat × Nat × Nat) := []
  checksDropped : Nat := 0
  /-- rows for which R310 recorded its event -/
  beyondRows : List Nat := []
  poolSel : Nat := 0
  slotSel : Nat := 0
  portSel : Nat := 0
  discoveryAt : Option Nat := none
  lastFrame : Nat := 0
  /-- the reset bits that the last member sideband frame drove: bit n set releases the PERST# of port n (16 R530) -/
  released : BitVec 128 := 0
  resetPorts : List Nat := []
  deriving DecidableEq, Repr

/-! ## Device status, power domains and profiles in force (01, 02) -/

/-- The profile that a new module's ledger holds (02 R66). -/
def defaultProfile (n : Nat) : Profile :=
  { name := [0x64, 0x65, 0x66, 0x61, 0x75, 0x6C, 0x74, 0x2D, BitVec.ofNat 8 (0x30 + n)] ++ List.replicate 7 0,
    writeThrough := false, dirtyCapLimit := 64, cqCapDefault := 256, hedgeDelay := 50, suspectLatency := 1500,
    failLatency := 8000, suspectCount := 3, suspectWindow := 60, retirePctUsed := 90, rebuildPriority := 7,
    patrolPeriod := 30, patrolLeaveMarked := false, throttleGrace := 20, laneGateEn := true,
    memberGateEn := true, laneIdleUs := 100, minLanes := 1 }

/-- Fences, domains and levels (01 R24 to R31, R35). -/
structure DevSt where
  level : BitVec 3 := 0
  ready : Bool := false
  /-- why the module gives no service (01 R30), coded as 15 GET_STATUS carries it; 0 for none -/
  noService : Nat := 0
  laneFence : BitVec 8 := 0
  ctrlFence : BitVec 4 := 0
  dramFence : BitVec 16 := 0
  groupFence : BitVec 16 := 0
  vaultFence : Bool := false
  pairFence : Bool := false
  tagFence : Bool := false
  seqFence : BitVec 32 := 0
  hostFence : BitVec 16 := 0
  laneAwake : BitVec 8 := 0
  groupAwake : BitVec 16 := 0
  /-- when the supplies of a member group came up (16 R530) -/
  groupUpAt : Tbl Nat := []
  coreAwake : BitVec 4 := 0
  cacheActive : Bool := false
  pairActive : Bool := false
  /-- when a lane last held a context (R19), lanes that were asked to wake and since when -/
  laneIdle : Tbl Nat := []
  waking : Tbl Nat := []
  groupWaking : Tbl Nat := []
  laneGateEn : Bool := true
  memberGateEn : Bool := true
  idleUs : Nat := 100
  minLanes : Nat := 1
  /-- lanes that the throttle plan leaves awake (13 R461) -/
  laneLimit : Nat := 8
  /-- profile in force and its values (02 R67) -/
  profile : BitVec 2 := 0
  prof : Profile := defaultProfile 0
  /-- duties of control cores, by duty 0 to 3 (01 R16) -/
  duty : Tbl Nat := []
  fwBuild : Nat := 0
  fwMinor : Nat := 0
  fwMajor : Nat := 0
  fwSlot : Bool := false
  standby : Bool := false
  powerGood : Bool := false
  bifurcated : Bool := false
  /-- port split in force since chip reset (05 R170): contexts and vectors of port 0 -/
  ctxSplit : Nat := 262144
  vecSplit : Nat := 2048
  /-- units fenced before READY whose events are recorded at READY (R31) -/
  fenceEvents : List Nat := []
  deriving DecidableEq, Repr

/-! ## The ledger (11 R416 to R424, R419) -/

/-- The settable and module-written records of the ledger; plan images as byte strings with their
signatures. -/
structure Ledger where
  seq : Nat := 0
  /-- commit sequence at the last commit of each shared record, by type × 65,536 + instance (10 R385) -/
  recSeq : Tbl Nat := []
  cohort : Nat := 0
  paired : Bool := false
  peer : Nat := 0
  splitCtx : Nat := 131072
  splitVec : Nat := 1024
  bootVol : Option Nat := none
  /-- BOOT_VOL.VOLUME as written last, also while VALID is 0 -/
  bootVolNo : Nat := 0
  retrain : Bool := false
  /-- full DRAM trainings so far: the training data of the calibration record, known by that number alone (R407, R419; log entry 6) -/
  training : Nat := 0
  ways : Tbl (BitVec 16) := []
  lock : BitVec 16 := 0
  volClass : Tbl Nat := []
  active : Option (List Byte) := none
  previous : Option (List Byte) := none
  staging : List Byte := []
  stagingLast : Bool := false
  keys : List (List Byte) := []
  profiles : Tbl Profile := []
  profLock : Option Nat := none
  pairCfg : List Byte := []
  /-- the pair epoch (10 R385) -/
  pairEpoch : Nat := 0
  ownerKey : Option (List Byte) := none
  authSeq : Nat := 0
  locked : Bool := false
  discards : Nat := 0
  /-- the discard count as the counters record holds it (11 R422) -/
  discardsKept : Nat := 0
  lastDiscard : Nat := 0
  /-- LEDGER_LAST_DISCARD.VALID -/
  discardValid : Bool := false
  damaged : Bool := false
  fallback : Bool := false
  unnamedLoss : Bool := false
  /-- counters record: operating seconds and power cycles committed (14 R500) -/
  opSeconds : Nat := 0
  powerCycles : Nat := 0
  lastScrub : Nat := 0
  deriving DecidableEq, Repr

/-! ## Fault collection and the event recorder (14) -/

/-- A fault message (14 R473). -/
structure FMsg where
  src : Nat
  kind : Nat
  addr : Nat := 0
  forced : Bool := false
  deriving DecidableEq, Repr

/-- An event record (14 R490). -/
structure EvRec where
  seq : Nat := 0
  opSeconds : Nat := 0
  powerCycles : Nat := 0
  rtype : Nat := 0
  msg : FMsg
  tally : Nat := 1
  rgen : Nat := 0
  htValid : Bool := false
  htBackwards : Bool := false
  forced : Bool := false
  overrun : Bool := false
  trapIncomplete : Bool := false
  dropsBefore : Bool := false
  severe : Bool := false
  ticks : Nat := 0
  hostTime : Nat := 0
  htSeconds : Nat := 0
  detail : List Byte := []
  boot : Nat := 0
  node : Nat := 0
  deriving DecidableEq, Repr

/-- Classification and reactions of a source, when they differ from the default matrix (14 R476, R504). -/
structure SrcCfg where
  ordinary : BitVec 6 := 0
  severe : BitVec 6 := 0
  n : Nat := 1
  /-- window in ms; 0 means until chip reset -/
  w : Nat := 0
  immed : Word := 0x2000000000000000#64
  deriving DecidableEq, Repr

/-- Counts of a source (14 R480, FC_COUNT). -/
structure SrcCnt where
  count : Nat := 0
  windowStart : Nat := 0
  total : Nat := 0
  shadow : Nat := 0
  /-- overruns since the source's last record, and the kinds of those not yet classified (R475) -/
  overruns : Nat := 0
  pendOver : List Nat := []
  deriving DecidableEq, Repr

/-- A block in reset or reset shadow (14 R485 to R488). -/
structure BlockRst where
  startedAt : Nat := 0
  endedAt : Option Nat := none
  shadowed : Nat := 0
  sources : List Nat := []
  /-- a member group reset ends when its links have retrained -/
  links : List Nat := []
  deriving DecidableEq, Repr

/-- A last-words entry (14 R499). -/
structure LastWord where
  msg : FMsg
  opSeconds : Nat := 0
  powerCycles : Nat := 0
  deriving DecidableEq, Repr

/-- Fault collector (14 R504). -/
structure FaultSt where
  /-- messages not yet taken, by source, oldest first (R475) -/
  queue : Tbl (List FMsg) := []
  lastServed : Nat := 1023
  last : FMsg := { src := 0, kind := 0 }
  lastSevere : Nat := 0
  messages : Nat := 0
  errLatch : Bool := false
  creset : Bool := false
  sticky : List Nat := []
  severe : List Nat := []
  sel : Nat := 0
  cfg : Tbl SrcCfg := []
  cnt : Tbl SrcCnt := []
  resets : Tbl BlockRst := []
  /-- operating seconds of the block resets of each block (R486) -/
  hist : Tbl (List Nat) := []
  cycBase : Nat := 0
  cycWraps : Nat := 0
  vector0 : Nat := 0
  vector1 : Nat := 0
  intEn0 : Bool := false
  intEn1 : Bool := false
  deriving DecidableEq, Repr

/-- Event recorder (14 R505). -/
structure RecSt where
  staging : List EvRec := []
  log : List EvRec := []
  nextSeq : Nat := 0
  firstSeq : Nat := 0
  notLogged : Nat := 0
  full : Bool := false
  memFailed : Bool := false
  drops : Bool := false
  lastWords : List LastWord := []
  hostTime : Option (Nat × Nat) := none
  backwards : Bool := false
  fromLog : Bool := false
  boot : Nat := 0
  /-- operating seconds at `opAt` (R500) -/
  opBase : Nat := 0
  opAt : Nat := 0
  powerCycles : Nat := 0
  lastCounters : Nat := 0
  deriving DecidableEq, Repr

/-! ## Pair (10) -/

/-- What an admin operation does to a pool (08 R324, R327): adopt the member at a port into a slot, retire a slot, fail it, start a
patrol pass. -/
inductive SlotAct where
  | adopt (port : Nat)
  | retire
  | fail
  /-- PATROL_START's new pass (09 R332, R336); it concerns no slot -/
  | patrol
  /-- PATROL_START's resumed pass -/
  | patrolOn
  deriving DecidableEq, Repr

/-- A joint commit of this module as initiator (10 R372): the record, and the admin operation that waits. -/
structure JointC where
  r : SharedRec
  cmd : Option Nat := none
  /-- the admin operation's change of a slot, which takes effect at the commit point -/
  act : Option (Nat × Nat × SlotAct) := none
  /-- part of the joint quiesce -/
  quiesced : Bool := false
  /-- the authorisation sequence that this module accepts at the commit point (15 R516, R518) -/
  auth : Option Nat := none
  deriving DecidableEq, Repr

/-- A joint quiesce (10 R374). -/
structure JointQ where
  /-- the initiator's record and the admin operation that waits; none on the peer -/
  r : Option SharedRec := none
  cmd : Option Nat := none
  since : Nat := 0
  /-- the quiesce is that of 02 R70: its first part lasts at most 1 s -/
  bounded : Bool := false
  ownDone : Bool := false
  peerDone : Bool := false
  /-- the joint commit has started, and its commit point is passed -/
  proposed : Bool := false
  committed : Bool := false
  ownApplied : Bool := false
  peerApplied : Bool := false
  deriving DecidableEq, Repr

/-- A takeover of a pool in progress (10 R381). -/
structure Take where
  /-- preempts of the arbiters (false) or of the other members (true) are outstanding -/
  members : Bool := false
  need : Nat := 2
  oks : Nat := 0
  left : Nat := 0
  victim : Word := 0
  /-- slots whose member refused -/
  bad : List Nat := []
  confirmedAt : Nat := 0
  forced : Bool := false
  deriving DecidableEq, Repr

/-- How far an ownership transfer is (10 R383). -/
inductive XferPh where
  | none
  /-- the owner drains the pool -/
  | drain
  /-- the reservations are being released -/
  | release
  /-- the peer acquires; the joint commit follows its message -/
  | acquire
  | commit
  /-- the pair left PAIRED meanwhile: this module asks the arbiters which module holds the reservation, by acquiring it -/
  | regain
  deriving DecidableEq, Repr

/-- The pair registers and protocol state (10). -/
structure PairSt where
  /-- pair state code of R361 -/
  st : Nat := 0
  /-- pools whose role is DETACHED (R363, R365, R378), and since when -/
  detached : List Nat := []
  detachedAt : Tbl Nat := []
  /-- last SEQ sent and delivered, by class, and the class 1 and 2 messages not yet acknowledged (R357, R359) -/
  sendSeq : Tbl Nat := []
  recvSeq : Tbl Nat := []
  unacked : List (Nat × Nat × PMsg) := []
  /-- PAIR_LINK and LINK_UP -/
  linkUp : Bool := false
  linkSeen : Bool := false
  width : Nat := 0
  retrains : Nat := 0
  suspects : Nat := 0
  /-- PAIR_HB; when the last heartbeat went out and came in; heartbeats in a row since the HELLO exchange -/
  hbTx : Dword := 0
  hbRx : Dword := 0
  hbTxAt : Nat := 0
  hbRxAt : Nat := 0
  hbTxRun : Nat := 0
  hbRxRun : Nat := 0
  /-- what the peer's heartbeats and HELLO said (R360, R385) -/
  peerSt : Nat := 0
  peerCap : Nat := 0
  peerCommit : Nat := 0
  peerProfile : Nat := 0
  mismatch : Bool := false
  helloIn : Option HelloMsg := none
  helloSent : Bool := false
  /-- a HELLO exchange of this SUSPECT period carried the same epoch (R362) -/
  helloOk : Bool := false
  /-- this module gives its shared records at formation (R385) -/
  giver : Bool := false
  /-- entry into SUSPECT, or READY (R377, R379, R384); start of the loss window (R378) -/
  suspectAt : Nat := 0
  windowAt : Nat := 0
  /-- whether the loss rules run, from SUSPECT or from DOWN (R384) -/
  deciding : Bool := false
  undecided : List Nat := []
  /-- own beat counter (R364), the time of the last beat, and by pool × 4 + arbiter: when a beat landed; the
  peer's reference key and the key last read -/
  beat : Dword := 1
  lastBeat : Nat := 0
  beatAt : Tbl Nat := []
  peerKeys : Tbl (Word × Word) := []
  /-- own pools whose reservation is not checked since READY (R384) -/
  ownCheck : List Nat := []
  takes : Tbl Take := []
  /-- pools taken since the loss was confirmed -/
  taken : List Nat := []
  /-- mirror sectors that wait for their line again: (pool, line, sector) (R368) -/
  gaps : List (Nat × Nat × Nat) := []
  joint : List JointC := []
  staged : List SharedRec := []
  /-- pools whose record changed again while a commit of it was in flight (R372) -/
  again : List Nat := []
  jq : Option JointQ := none
  /-- changes of this module that wait for a joint quiesce that runs, with their admin operations (R374) -/
  jqWait : List (SharedRec × Option Nat) := []
  /-- pools of which this module acquires members' reservations: a pool serves once they are held (R363, R365) -/
  acquiring : Tbl Nat := []
  /-- acquires of arbiters that succeeded in the transfer that runs, and the slots whose member refused (R383) -/
  xferOk : Nat := 0
  xferBad : List Nat := []
  /-- a FAREWELL is sent: no new member command is issued (R380) -/
  farewell : Bool := false
  resyncOut : Bool := false
  resyncIn : Bool := false
  /-- PAIR_CTL.POOLS, PAIR_XFER and PAIR_TAKEOVER (R387) -/
  ctlPools : BitVec 8 := 0
  xferPool : BitVec 3 := 0
  xfer : XferPh := .none
  /-- the pool that moves -/
  xferCur : Nat := 0
  xferDone : Bool := false
  xferErr : Bool := false
  xferReason : BitVec 16 := 0
  /-- release or acquire commands of the transfer outstanding, on either module -/
  xferLeft : Nat := 0
  xferIn : Option Nat := none
  takePools : BitVec 8 := 0
  takeConfirm : Nat := 0
  takeServe : Nat := 0
  takeForced : Bool := false
  takeValid : Bool := false
  deriving DecidableEq, Repr

/-! ## Power, flush and vault (11) -/

/-- An entry of the vault index log (11 R398), with the sectors already restored into the cache. -/
structure IdxEnt where
  pool : Nat := 0
  line : Nat := 0
  mask : BitVec 16 := 0
  vsec : Nat := 0
  half : Nat := 0
  dead : Bool := false
  restored : BitVec 16 := 0
  deriving DecidableEq, Repr

/-- Where the module stands between supplies and service (01 R22, R30; 11 R392, R393, R405, R410; 13 R464). -/
inductive PwrPh where
  | off
  /-- a rail out of limits at power-good: held in the always-on domain -/
  | held
  | boot
  | run
  | flush
  /-- flushed, waiting for PFAIL_N under R393 -/
  | flushed
  | coldStopped
  | standby
  | noService
  /-- after the analog trip -/
  | tripped
  deriving DecidableEq, Repr

/-- The boot inputs of a module on which every self-test passes. -/
def goodBoot : BootInputs :=
  { profileSel := 0, hostBif := false, mgmtAddr := 0, mgmtSpeed := false, railsOk := true, mramReadable := true,
    badLanes := 0, badCtrlCores := 0, badGroups := 0, badSeqCores := 0, badHostLanes := 0, badTagSram := false,
    badPair := false, badVault := false, badDram := 0, indexReadable := true, damaged := [], badIndex := [] }

/-- A copy of the flush header (11 R400): flush sequence, state (0 OPEN, 1 DONE, 2 ABANDONED, 3 no flush recorded), log position of the
flush's first entry, current half, next free vault sector and erased state of each half. -/
structure FlushHdr where
  seq : Nat := 0
  st : Nat := 3
  first : Nat := 0
  cur : Nat := 0
  free0 : Nat := 0
  free1 : Nat := 0
  erased0 : Bool := true
  erased1 : Bool := true
  deriving DecidableEq, Repr

/-- Power, flush, vault and boot state (11). -/
structure PowSt where
  ph : PwrPh := .off
  /-- VDD_AON has not fallen since the always-on domain started -/
  aon : Bool := true
  pfail : Bool := false
  /-- when PFAIL_N last changed -/
  pfailAt : Nat := 0
  hold : Bool := false
  flushing : Bool := false
  coldStop : Bool := false
  /-- trigger of the flush in progress, and BOOT_CAUSE of the boot that follows it -/
  flushAt : Nat := 0
  flushCause : Nat := 0
  /-- step 6 waits on a hot vault die; it runs since such a wait ended (R406) -/
  hotWait : Bool := false
  step6 : Bool := false
  bootCause : Nat := 0
  /-- a flush ended DONE, or was torn or ABANDONED, since the last READY -/
  endedDone : Bool := false
  endedBad : Bool := false
  /-- the vault index log, oldest first, and the vault's sectors by half × 2^24 + VSEC -/
  index : List IdxEnt := []
  nand : Tbl (List Byte) := []
  /-- the two header copies as written, by number, and the number of the one in force (R400) -/
  hdrs : Tbl FlushHdr := []
  hdrCur : Nat := 1
  /-- what the header in force says, as the module goes on from it -/
  logFirst : Nat := 0
  flushSeq : Nat := 0
  header : Nat := 3
  cur : Nat := 0
  free0 : Nat := 0
  free1 : Nat := 0
  erased0 : Bool := true
  erased1 : Bool := true
  /-- LAST_FLUSH -/
  lastSectors : Nat := 0
  lastClean : Nat := 0
  lastResult : Nat := 3
  lastMs : Nat := 0
  /-- VAULT_WEAR: erases of a block of each half, blocks marked bad -/
  erases0 : Nat := 0
  erases1 : Nat := 0
  /-- bad blocks of half 0 and of half 1 (R403) -/
  bad0 : Nat := 0
  bad1 : Nat := 0
  /-- sectors lost at this boot, by lost-write record, whose events READY raises (R409) -/
  bootLost : Tbl Nat := []
  /-- sectors paged into lane buffer SRAM while the cache is out of service (R415) -/
  pagedData : Tbl (List Byte) := []
  pagedN : Nat := 0
  restoring : Bool := false
  /-- BOOT_TIME -/
  goodAt : Nat := 0
  readyAt : Nat := 0
  readyMs : Nat := 0
  ledgerMs : Nat := 0
  planMs : Nat := 0
  restoreMs : Nat := 0
  /-- MRAM_ERR -/
  mramCorr : Nat := 0
  mramUnc : Nat := 0
  /-- what the balls latched and the last power-good's checks gave -/
  boot : BootInputs := goodBoot
  deriving DecidableEq, Repr

/-! ## Energy pack (12) -/

/-- An exact fraction in lowest terms (`frac` makes one); the rules of 12 round nothing. -/
structure Frac where
  num : Int := 0
  den : Nat := 1
  deriving DecidableEq, Repr

/-- Certified energy (12 R445): `a + √b` joules. -/
structure Energy where
  a : Frac := {}
  b : Frac := {}
  deriving DecidableEq, Repr

/-- A rest point that may serve as A of R438: operating seconds, s, the charge counter in mAh, and whether the pack
temperature lay in the learn band. -/
structure RestPt where
  at_ : Nat
  s : Frac
  q : Frac
  inBand : Bool
  deriving DecidableEq, Repr

/-- Phases of a learn cycle, coded as PACK_STATUS.LEARN_STATE (12 R443, R449). -/
inductive LearnPh where
  | idle | destaging | discharging | resting
  deriving DecidableEq, Repr

/-- The energy pack, its estimator and its ledger record (12). Charges in mAh, currents in mA, volts, degrees C. -/
structure PackSt where
  /-- the pack record of R448: identity, learned values, their times in operating seconds, cycles, failed learns -/
  identity : Option (List Byte) := none
  qLearn : Frac := {}
  uLearn : Frac := {}
  rho : Frac := {}
  learnAt : Nat := 0
  insertedAt : Nat := 0
  cycles : Frac := {}
  fails : Nat := 0
  lastResult : Nat := 0
  /-- equivalent cycles, resistance ratio, failed learns and last result as last committed -/
  cyclesKept : Frac := {}
  rhoKept : Frac := {}
  failsKept : Nat := 0
  resultKept : Nat := 0
  /-- level on PACK_PRES_N, identity reads that failed in a row, the last one's outcome, when it was -/
  presHigh : Bool := true
  idFails : Nat := 0
  idOk : Bool := false
  idAt : Nat := 0
  /-- the absent state of R428 -/
  absent : Bool := true
  /-- the latest round's channels 44 to 50 -/
  meas : Option PackReading := none
  /-- s, unset until R429 or R436 sets it; whether that waits for a current below 0.01 C -/
  soc : Option Frac := none
  unc : Frac := {}
  needLow : Bool := false
  /-- charge counted since boot, the rest points that may serve as A, newest first -/
  count : Frac := {}
  points : List RestPt := []
  /-- operating seconds of the last anchor; when the current fell below 0.01 C; whether a rest holds (R435) -/
  anchorAt : Option Nat := none
  lowAt : Option Nat := none
  atRest : Bool := false
  /-- the unproven state, a pending proposal, and when the host declined one (R440) -/
  unproven : Bool := false
  proposed : Bool := false
  declinedAt : Option Nat := none
  /-- the learn cycle: phase, point A, E_learn, resistance ratio measured below the one in force, the round before
  PACK_DRAW_EN rose, and when the discharge ended -/
  learn : LearnPh := .idle
  pointA : Option RestPt := none
  eLearn : Energy := {}
  rhoMeas : Option Frac := none
  beforeDraw : Option PackReading := none
  restFrom : Nat := 0
  /-- E_cert and r of the latest round (R445) -/
  eCert : Energy := {}
  rOhm : Frac := {}
  /-- levels and flags of PACK_STATUS -/
  chgInh : Bool := true
  draw : Bool := false
  tempFault : Bool := false
  overvolt : Bool := false
  clipped : Bool := false
  /-- R447: above T_MAX, and rounds since at least 5 °C below it; no round has read the pack since boot -/
  hot : Bool := false
  cool : Nat := 0
  fresh : Bool := true
  /-- operating seconds since which PACK_CHG_STAT is high at or above V_CHG, and whether its message is raised -/
  fullAt : Option Nat := none
  stuck : Bool := false
  /-- rounds until the energy units may rise again (14 R487) -/
  noRise : Nat := 0
  deriving DecidableEq, Repr

/-! ## Thermal, ageing and clocks (13) -/

/-- A throttle request (13 R459): region, target, whether it is a rate request of R458, grace in 0.1 s, when it was
raised and when its target was enforced, and whether R460 raised the next one. -/
structure ThrReq where
  region : Nat
  target : Nat
  rate : Bool := false
  grace : Nat
  at_ : Nat
  enforcedAt : Option Nat := none
  followed : Bool := false
  deriving DecidableEq, Repr

/-- A sensor's trim of manufacture (13 R451, R452): two points as (count, quarter degrees C), and the die-to-die offset of a sensor
under a memory die. -/
structure Trim where
  c0 : Int := 0
  t0 : Int := -1024
  c1 : Int := 4096
  t1 : Int := 3072
  off : Int := 0
  deriving DecidableEq, Repr

/-- What the margin plan needs of one operating hour of the last 720 (13 R469): rounds, those of them in which region 13 lay above 105 °C
Tj, the least slack seen by canary group, corrected DRAM and MRAM words. -/
structure HourLog where
  hour : Nat := 0
  rounds : Nat := 0
  hot : Nat := 0
  slack : Tbl Nat := []
  dram : Nat := 0
  mram : Nat := 0
  deriving DecidableEq, Repr

/-- Throttle, clocks and ageing (13). Temperatures in quarter degrees C; tokens are hundredths of a command and of a
byte. -/
structure ThermSt where
  /-- readings of the latest 17 rounds, newest first, and the latest raw counts -/
  hist : List (List Int) := []
  counts : List Nat := []
  rounds : Nat := 0
  /-- the ledger's calibration record: sensor trims by sensor, and the masked sensors -/
  trims : Tbl Trim := []
  mask : BitVec 32 := 0
  /-- the mask as the latest round took it (R454); broken sensors with their cause -/
  maskNow : BitVec 32 := 0
  broken : Tbl Nat := []
  /-- level of each region; rounds at or above, and below, by region × 4 + level -/
  lvl : Tbl Nat := []
  up : Tbl Nat := []
  dn : Tbl Nat := []
  /-- round of the last rate notice of a sensor; rounds that rate5 has stayed below 3 °C/s by region with a rate
  request -/
  noticeAt : Tbl Nat := []
  slow : Tbl Nat := []
  requests : List ThrReq := []
  /-- enforced target in percent (R461), and targets enforced since chip reset -/
  target : Nat := 100
  enforcements : Nat := 0
  cmdTok : Int := 0
  byteTok : Int := 0
  tokAt : Nat := 0
  /-- clock state, and the one that a relock leads to (R462) -/
  clk : Nat := 0
  relock : Option Nat := none
  /-- clock ceiling in MHz, VDD_CORE code for P0 and the code driven -/
  ceiling : Nat := 2000
  code : Nat := 10
  vid : Nat := 10
  /-- the plan in force (R469): committed record -/
  planVid : Option Nat := none
  planCeiling : Nat := 2000
  planHours : Nat := 0
  planValid : Bool := false
  refresh : Nat := 0
  scrubH : Nat := 24
  wear : Frac := {}
  planTwins : List Nat := []
  /-- a plan whose commit was torn or refused is computed again (R470) -/
  planAgain : Bool := false
  /-- latest twin degradations, least canary slack of the latest round, and rounds below 4 taps by group -/
  twins : List Nat := []
  slackMin : Nat := 0
  lowSlack : Tbl Nat := []
  steps : Nat := 0
  /-- the operating hours of the last 720, newest first, and the corrected words that they count already (R469) -/
  hours : List HourLog := []
  dramSeen : Nat := 0
  mramSeen : Nat := 0
  rails : List Nat := []
  xtalOk : Bool := false
  rcTrimmed : Bool := false
  hostRef : Bool := false
  sysRef : Bool := false
  coreLock : Bool := false
  dramLock : Bool := false
  hostLock : Bool := false
  groupLock : BitVec 16 := 0
  sensorSel : Nat := 0
  /-- THERMTRIP_N is low (R464) -/
  tripped : Bool := false
  deriving DecidableEq, Repr

/-! ## Security, management sideband and test access port (15, 16) -/

/-- Security block and management sideband (15 R506 to R525). -/
structure SecSt where
  /-- blown anti-rollback bits from bit 0 upward (R506), the blown ones beyond the first unblown bit, and revoked firmware keys -/
  arb : Nat := 0
  beyond : List Nat := []
  revoked : BitVec 4 := 0
  fuseFail : Bool := false
  /-- firmware slots that FW_STAGE has written; a slot not listed holds what the maker shipped -/
  slots : Tbl (List Byte) := []
  /-- slot pointer (R508) -/
  pointer : Nat := 0
  /-- bytes staged so far, and whether the last chunk came (06 R237) -/
  staged : Nat := 0
  stagedLast : Bool := false
  fwSvn : Nat := 0
  fwKey : Nat := 0
  accepted : Nat := 0
  refused : Nat := 0
  /-- reports that wait to be signed, oldest first: none for the sideband, else the admin command; ALG and nonce -/
  signing : List (Option Nat × Nat × List Byte) := []
  /-- the body whose signing has started (R520) -/
  body : Option (List Byte) := none
  /-- the last report signed for the sideband -/
  report : Option (List Byte) := none
  eid : Byte := 0
  addr : Nat := 0
  fast : Bool := false
  recvEid : Byte := 0
  recvEn : Bool := false
  deriving DecidableEq, Repr

/-- The test access port (16 R545). -/
structure TapSt where
  /-- instruction in force; IDCODE at test-logic reset -/
  ir : Nat := 1
  /-- boundary cells as last preloaded or captured -/
  cells : Nat := 0
  /-- the boundary cells drive the balls, or the balls float -/
  drives : Bool := false
  highz : Bool := false
  deriving DecidableEq, Repr

/-! ## The block -/

/-- What one directory copy of the ledger names (11 R416, R417): the records as they stood at its commit, with the pool, margin and pack
records in the structures that hold them while the module runs. -/
structure LedSnap where
  led : Ledger := {}
  pools : Tbl PoolRec := []
  therm : ThermSt := {}
  pack : PackSt := {}
  deriving DecidableEq, Repr

/-- The whole machine. -/
structure State where
  /-- microseconds since power-on of the always-on domain; advanced by `step` on an empty queue. Log entry 10. -/
  now : Nat := 0
  /-- the model's own counter of free values (`Config.freeByte`, `Config.freeWord`). Log entry 2. -/
  free : Nat := 0
  /-- the model's own list of what left the module, newest first. Log entry 10. -/
  out : List Out := []
  /-- commands that wait, first in, first out -/
  pending : List Instr := []
  dev : DevSt := {}
  port0 : Port := {}
  port1 : Port := {}
  rings : Tbl Ring := []
  pipe : PipeSt := {}
  plan : PlanSt := {}
  cache : CacheSt := {}
  jnl : JnlSt := {}
  mem : MemSt := {}
  led : Ledger := {}
  /-- the ledger as its latest commit left it, and as the commit before left it: the records of the directory in force and of the other
  copy (11 R416) -/
  ledNow : LedSnap := {}
  ledOld : LedSnap := {}
  pair : PairSt := {}
  pow : PowSt := {}
  pack : PackSt := {}
  therm : ThermSt := {}
  sec : SecSt := {}
  tap : TapSt := {}
  fc : FaultSt := {}
  evr : RecSt := {}
  deriving DecidableEq, Repr

/-- The machine right after power-on reset: the always-on domain is powered and PWROK is low. -/
def State.reset : State := {}

end Sys2Proof.Machine
end

