-- ==== Sys2Proof/Machine/Bits.lean ====
section
/-! DEFINITION. Sys2Proof/Machine/Bits.lean: finite tables, byte and bit-field helpers, the byte memory of
the cache data space, CRC-32C and GF(2^8). -/

namespace Sys2Proof.Machine

/-! ## Tables -/

/-- The record at key `k`, if listed. -/
def tget {α : Type} (t : Tbl α) (k : Nat) : Option α := List.lookup k t

/-- The record at key `k`, or `d`. -/
def tgetD {α : Type} (t : Tbl α) (k : Nat) (d : α) : α := (tget t k).getD d

/-- `t` with `v` at key `k`, keys kept rising. -/
def tset {α : Type} : Tbl α → Nat → α → Tbl α
  | [], k, v => [(k, v)]
  | (k', v') :: t, k, v =>
    if k < k' then (k, v) :: (k', v') :: t
    else if k = k' then (k, v) :: t
    else (k', v') :: tset t k v

/-- `t` without key `k`. -/
def tdel {α : Type} (t : Tbl α) (k : Nat) : Tbl α := t.filter (fun e => e.1 != k)

/-- `t` with `f` applied at key `k`, taking `d` where it is not listed. -/
def tmod {α : Type} (t : Tbl α) (k : Nat) (d : α) (f : α → α) : Tbl α := tset t k (f (tgetD t k d))

/-- `t` with `f` applied at key `k` when it is listed. -/
def tupd {α : Type} (t : Tbl α) (k : Nat) (f : α → α) : Tbl α :=
  match tget t k with
  | none => t
  | some v => tset t k (f v)

/-- The canonical form of a table: keys strictly rising. -/
def Tbl.wf {α : Type} : Tbl α → Bool
  | [] => true
  | [_] => true
  | (k, _) :: (k', v) :: t => k < k' && Tbl.wf ((k', v) :: t)

/-- Insert a number in a rising list without repeats. -/
def nins : List Nat → Nat → List Nat
  | [], k => [k]
  | a :: l, k => if k < a then k :: a :: l else if k = a then a :: l else a :: nins l k

/-- Least listed number, by a measure, or none. -/
def leastBy {α : Type} (f : α → Nat) : List α → Option α
  | [] => none
  | a :: l => match leastBy f l with
    | none => some a
    | some b => if f b < f a then some b else some a

/-- Replace element `n` of a list. -/
def lset {α : Type} : List α → Nat → α → List α
  | [], _, _ => []
  | _ :: l, 0, v => v :: l
  | a :: l, n + 1, v => a :: lset l n v

/-- Saturating add to a 32-bit counter. -/
def sat32 (a b : Nat) : Nat := min (a + b) 0xFFFFFFFF

/-! ## Bit fields and bytes -/

/-- Bits `hi` to `lo` of a number. -/
def fld (v hi lo : Nat) : Nat := (v / 2 ^ lo) % 2 ^ (hi + 1 - lo)

/-- Bit `i` of a number. -/
def bitN (v i : Nat) : Bool := v.testBit i

/-- A Boolean as 0 or 1. -/
def b2n (b : Bool) : Nat := if b then 1 else 0

/-- The little-endian value of bytes (00 R1). -/
def leNat : List Byte → Nat
  | [] => 0
  | b :: l => b.toNat + 256 * leNat l

/-- A value in `n` little-endian bytes (00 R1). -/
def leBytes : Nat → Nat → List Byte
  | 0, _ => []
  | n + 1, v => BitVec.ofNat 8 v :: leBytes n (v / 256)

/-- `n` bytes of `l` from offset `o`. -/
def slice {α : Type} (l : List α) (o n : Nat) : List α := (l.drop o).take n

/-- The little-endian field of `n` bytes at offset `o`. -/
def leAt (l : List Byte) (o n : Nat) : Nat := leNat (slice l o n)

/-- Byte at offset `o`. -/
def byteAt (l : List Byte) (o : Nat) : Nat := (l.getD o 0).toNat

/-- Whether every byte is zero. -/
def allZero (l : List Byte) : Bool := l.all (fun b => b == 0)

/-- `l` cut or padded with zeroes to `n` bytes. -/
def padTo (n : Nat) (l : List Byte) : List Byte := (l ++ List.replicate (n - l.length) 0).take n

/-- Cut `l` into pieces of `n` bytes, at most `m` of them. -/
def chunks : Nat → Nat → List Byte → List (List Byte)
  | 0, _, _ => []
  | m + 1, n, l => if l.isEmpty then [] else l.take n :: chunks m n (l.drop n)

/-- Positions set in a mask, ascending. -/
def bitsOf (w : Word) : List Nat := (List.range 64).filter (fun i => w.getLsbD i)

/-- Number of positions set. -/
def pop (w : Word) : Nat := (bitsOf w).length

/-- The mask with position `i`. -/
def bit (i : Nat) : Word := BitVec.ofNat 64 (2 ^ i)

/-- The mask of a list of positions. -/
def maskOf (l : List Nat) : Word := l.foldl (fun w i => w ||| bit i) 0

/-- Positions `lo` to `hi - 1`. -/
def span (lo hi : Nat) : Word := BitVec.ofNat 64 (2 ^ hi - 2 ^ lo)

/-- Whether every position of `a` lies in `b`. -/
def sub (a b : Word) : Bool := a &&& ~~~ b == 0

/-- 16-bit masks of the sectors of a line. -/
def bit16 (i : Nat) : BitVec 16 := BitVec.ofNat 16 (2 ^ i)

/-- Sectors set in a line mask, ascending. -/
def secsOf (w : BitVec 16) : List Nat := (List.range 16).filter (fun i => w.getLsbD i)

/-- 4,096 zero bytes: a sector of zeroes. -/
def zeroSector : List Byte := List.replicate 4096 0

/-! ## Fractions -/

/-- A fraction in lowest terms; a zero denominator counts as 1. -/
def frac (n : Int) (d : Nat) : Frac :=
  if d = 0 then { num := n, den := 1 }
  else
    let g := Nat.gcd n.natAbs d
    { num := n / (g : Int), den := d / g }

/-- Sum. -/
def Frac.add (a b : Frac) : Frac := frac (a.num * b.den + b.num * a.den) (a.den * b.den)

/-- Difference. -/
def Frac.sub (a b : Frac) : Frac := frac (a.num * b.den - b.num * a.den) (a.den * b.den)

/-- Product. -/
def Frac.mul (a b : Frac) : Frac := frac (a.num * b.num) (a.den * b.den)

/-- Quotient; by zero it is what `Config.divByZero` gives, which nothing constrains (log entry 15). -/
def Frac.div (a b : Frac) : Frac :=
  if b.num = 0 then
    let r := Config.divByZero a.num a.den
    frac r.1 r.2
  else if b.num < 0 then frac (-(a.num * b.den)) (a.den * b.num.natAbs)
  else frac (a.num * b.den) (a.den * b.num.natAbs)

/-- Less or equal. -/
def Frac.le (a b : Frac) : Bool := decide (a.num * b.den ≤ b.num * a.den)

/-- Less. -/
def Frac.lt (a b : Frac) : Bool := decide (a.num * b.den < b.num * a.den)

/-- The lesser of two. -/
def Frac.min (a b : Frac) : Frac := if a.le b then a else b

/-- The greater of two. -/
def Frac.max (a b : Frac) : Frac := if a.le b then b else a

/-- Absolute value. -/
def Frac.abs (a : Frac) : Frac := { a with num := a.num.natAbs }

/-- Greatest whole number not above. -/
def Frac.floor (a : Frac) : Int := a.num / (a.den : Int)

/-- The greatest whole number not above `a + √b`, exactly; 0 under the root for a negative `b`. -/
def floorRoot (a b : Frac) : Int :=
  let r := a.den * b.den
  (a.num * b.den + (Nat.sqrt ((b.num.toNat * b.den) * (a.den * a.den)) : Int)) / (r : Int)

/-! ## Byte memory -/

/-- What an unlisted byte of the cache data space reads as. Log entry 11. -/
def memDefault : Byte := 0

/-- Read one byte. -/
def mread (m : List Host.Cell) (a : Nat) : Byte := (List.lookup a m).getD memDefault

/-- Write one byte, keeping the canonical form: addresses rising, no entry equal to the default. -/
def mwrite : List Host.Cell → Nat → Byte → List Host.Cell
  | [], a, b => if b = memDefault then [] else [(a, b)]
  | (a', b') :: m, a, b =>
    if a < a' then (if b = memDefault then (a', b') :: m else (a, b) :: (a', b') :: m)
    else if a = a' then (if b = memDefault then m else (a, b) :: m)
    else (a', b') :: mwrite m a b

/-- Write a run of bytes. -/
def mwriteRun (m : List Host.Cell) (a : Nat) : List Byte → List Host.Cell
  | [] => m
  | b :: l => mwriteRun (mwrite m a b) (a + 1) l

/-- Read a run of bytes. -/
def mreadRun (m : List Host.Cell) (a n : Nat) : List Byte := (List.range n).map (fun i => mread m (a + i))

/-- The canonical form of the byte memory. -/
def Memory.wf : List Host.Cell → Bool
  | [] => true
  | [(_, b)] => b != memDefault
  | (a, b) :: (a', b') :: m => b != memDefault && a < a' && Memory.wf ((a', b') :: m)

/-! ## CRC-32C and GF(2^8) -/

/-- One bit of the reflected CRC-32C register (polynomial 0x1EDC6F41). Log entry 9. -/
def crcBit (c : Dword) : Dword := if c.getLsbD 0 then (c >>> 1) ^^^ 0x82F63B78#32 else c >>> 1

/-- One byte into the CRC register. -/
def crcByte (c : Dword) (b : Byte) : Dword :=
  let c := c ^^^ b.setWidth 32
  crcBit (crcBit (crcBit (crcBit (crcBit (crcBit (crcBit (crcBit c)))))))

/-- CRC-32C with initial value and final XOR 0xFFFF_FFFF (04 R136). -/
def crc32c (l : List Byte) : Dword := (l.foldl crcByte 0xFFFFFFFF#32) ^^^ 0xFFFFFFFF#32

/-- Multiplication by the generator 0x02 modulo 0x11D (04 R127). -/
def gfx (a : Byte) : Byte := if a.getLsbD 7 then (a <<< 1) ^^^ 0x1D#8 else a <<< 1

/-- Sum of `a · 2^i` over the set bits of the second factor, low bit first. -/
def gfMulAux : Nat → Byte → Byte → Byte
  | 0, _, _ => 0
  | n + 1, a, b => (if b.getLsbD 0 then a else 0) ^^^ gfMulAux n (gfx a) (b >>> 1)

/-- GF(2^8) multiplication (04 R127). -/
def gfMul (a b : Byte) : Byte := gfMulAux 8 a b

/-- `a` to the power `n`. -/
def gfPow (a : Byte) : Nat → Byte
  | 0 => 1
  | n + 1 => gfMul a (gfPow a n)

/-- The inverse of a non-zero element: its 254th power. -/
def gfInv (a : Byte) : Byte := gfPow a 254

/-- A row times a scalar. -/
def rowScale (c : Byte) (r : List Byte) : List Byte := r.map (gfMul c)

/-- Byte-wise XOR, the longer operand's tail kept. -/
def xorBytes : List Byte → List Byte → List Byte
  | [], b => b
  | a, [] => a
  | x :: a, y :: b => (x ^^^ y) :: xorBytes a b

/-- The linear combination of sectors with coefficients. -/
def combine : List Byte → List (List Byte) → List Byte
  | c :: cs, d :: ds => xorBytes (rowScale c d) (combine cs ds)
  | _, _ => []

/-- Eliminate column `j`: find a pivot among rows from `j`, normalise it, clear the column elsewhere. -/
def elimCol (j : Nat) (m : List (List Byte)) : Option (List (List Byte)) :=
  match (List.range m.length).find? (fun i => j ≤ i && (m.getD i []).getD j 0 != 0) with
  | none => none
  | some p =>
    let rp := m.getD p []
    let piv := rowScale (gfInv (rp.getD j 0)) rp
    let swapped := lset (lset m p (m.getD j [])) j piv
    some ((List.range swapped.length).map (fun i =>
      let r := swapped.getD i []
      if i = j then r else xorBytes r (rowScale (r.getD j 0) piv)))

/-- Gauss-Jordan elimination of the first `n` columns. -/
def elim : Nat → Nat → List (List Byte) → Option (List (List Byte))
  | 0, _, m => some m
  | n + 1, j, m => match elimCol j m with
    | none => none
    | some m' => elim n (j + 1) m'

/-- The inverse of a square matrix given by rows, if it has one. -/
def gfInverse (m : List (List Byte)) : Option (List (List Byte)) :=
  let n := m.length
  let aug := (List.range n).map (fun i =>
    m.getD i [] ++ (List.range n).map (fun j => if i = j then (1 : Byte) else 0))
  (elim n 0 aug).map (fun r => r.map (fun row => row.drop n))

end Sys2Proof.Machine
end

