-- ==== Sys2Proof/Machine/Ops.lean ====
section
/-! DEFINITION. Sys2Proof/Machine/Ops.lean: the named operations that many meanings share: outputs, event
records, fault messages, async events, completion rings and the end of a command. -/

namespace Sys2Proof.Machine

/-! ## Small updates -/

/-- Something leaves the module. -/
def emit (o : Out) (s : State) : State := { s with out := o :: s.out }

/-- Port 0 or port 1 (01 R33). -/
def getPort (p : Nat) (s : State) : Port := if p = 0 then s.port0 else s.port1

/-- Replace a port. -/
def setPort (p : Nat) (v : Port) (s : State) : State :=
  if p = 0 then { s with port0 := v } else { s with port1 := v }

/-- Change a port. -/
def updPort (p : Nat) (f : Port → Port) (s : State) : State := setPort p (f (getPort p s)) s

/-- The event of a timer says that its time has come: the clock stands at it or beyond (log entry 10). -/
def timeTo (t : Nat) (s : State) : State := { s with now := max s.now t }

/-- Draw a free value's index: the counter before, and the state after (log entry 2). -/
def nextFree (s : State) : State := { s with free := s.free + 1 }

/-- Operating seconds (14 R500), saturating. -/
def opSeconds (s : State) : Nat := min (s.evr.opBase + (s.now - s.evr.opAt) / 1000000) 0xFFFFFFFF

/-- Move the clock to an operating second (14 R500). -/
def timeToOp (t : Nat) (s : State) : State := timeTo (s.evr.opAt + (t - s.evr.opBase) * 1000000) s

/-- The profile values in force (02 R67). -/
def prof (s : State) : Profile := s.dev.prof

/-- Whether the DRAM cache is in service (01 R26). -/
def cacheOn (s : State) : Bool := s.dev.dramFence == 0 && !s.dev.tagFence

/-- Whether the domains of the data path run: the core PLL is locked, and the DRAM PLL while the cache is in service (13
R462, R466). -/
def domainsRun (s : State) : Bool := s.therm.coreLock && s.therm.hostLock && (s.therm.dramLock || !cacheOn s)

/-- Member group of a member port, whether or not a switch stands on it (04 R122). -/
def portGroup (q : Nat) : Nat := q % 128 / 8

/-- A member command goes out. While its member group's PLL does not run it waits for the group (13 R465, R466). -/
def emitMember (q tag : Nat) (r : MReq) (s : State) : State :=
  if s.therm.groupLock.getLsbD (portGroup q) then emit (.member q tag r) s
  else { s with mem.stopped := s.mem.stopped ++ [(q, tag, r)] }

/-- A member group's PLL is locked: what waited for it goes out. -/
def startGroup (g : Nat) (s : State) : State :=
  let go := s.mem.stopped.filter (fun e => portGroup e.1 == g)
  let s := { s with therm.groupLock := s.therm.groupLock ||| BitVec.ofNat 16 (2 ^ g),
                    mem.stopped := s.mem.stopped.filter (fun e => portGroup e.1 != g) }
  go.foldl (fun s (q, tag, r) => if ((tget s.mem.cmds tag).map (·.dead)).getD false then s else emit (.member q tag r) s) s

/-- A member group's PLL stops or loses lock. -/
def stopGroup (g : Nat) (s : State) : State := { s with therm.groupLock := s.therm.groupLock &&& ~~~ BitVec.ofNat 16 (2 ^ g) }

/-- Whether the module runs at FLOOR (01 R25). -/
def atFloor (s : State) : Bool := s.dev.level == 4

/-- Whether the MRAM has power and can be read: not in the states in which the always-on domain alone is powered (01, the table of power domains; R22, R30; 11 R405, R407;
13 R464). -/
def nvOn (s : State) : Bool := match s.pow.ph with
  | .off => false
  | .held => false
  | .boot => true
  | .run => true
  | .flush => true
  | .flushed => true
  | .coldStopped => false
  | .standby => false
  | .noService => s.dev.noService != 1
  | .tripped => false

/-- Whether new ledger commits are refused (11 R395, R405), or cannot be made. -/
def commitsRefused (s : State) : Bool := s.pow.flushing || s.pow.coldStop || !nvOn s

/-- Whether the pair is in state PAIRED (10 R361). -/
def pairUp (s : State) : Bool := s.pair.st == 4

/-- Whether intake holds new stripe operations for a plan switch (02 R52), a profile quiesce (R70) or a joint quiesce (10
R374). -/
def intakeHeld (s : State) : Bool := s.plan.switching || s.plan.quiesceSince.isSome || s.plan.jointHold

/-- A ledger commit lands (11 R416, R417): the other directory copy, copy number COMMIT_SEQ mod 2, takes the records as they are, with
the commit sequence raised by 1. Each copy has room for 2,048 entries, and the types and instances of R419 are fewer. -/
def ledCommit (s : State) : State :=
  let l := { s.led with seq := s.led.seq + 1 }
  { s with led := l, ledOld := s.ledNow, ledNow := { led := l, pools := s.mem.pools, therm := s.therm, pack := s.pack } }

/-- The commit of a shared record: its last commit is this one (10 R385). -/
def ledCommitRec (k : Nat) (s : State) : State :=
  let s := ledCommit s
  { s with led.recSeq := tset s.led.recSeq k s.led.seq }

/-! ## Rings: which port, which state -/

/-- First ring context of a port (05 R170). -/
def ringFirst (p : Nat) (s : State) : Nat := if p = 0 then 0 else s.dev.ctxSplit

/-- One more than the last ring context of a port (05 R170). -/
def ringEnd (p : Nat) (s : State) : Nat :=
  if p = 0 then (if s.dev.bifurcated then s.dev.ctxSplit else 262144) else 262144

/-- MSI-X vectors of a port (05 R170). -/
def vectors (p : Nat) (s : State) : Nat :=
  if s.dev.bifurcated then (if p = 0 then s.dev.vecSplit else 2048 - s.dev.vecSplit)
  else (if p = 0 then 2048 else 0)

/-- The port that holds a ring context. -/
def ringPort (r : Nat) (s : State) : Nat :=
  if s.dev.bifurcated && s.dev.ctxSplit ≤ r then 1 else 0

/-- Whether a ring context is accessible through a port's windows (01 R33). -/
def ringIn (p r : Nat) (s : State) : Bool := ringFirst p s ≤ r && r < ringEnd p s

/-- A ring context; one that is not listed is FREE. -/
def ringOf (r : Nat) (s : State) : Ring := tgetD s.rings r {}

/-- Replace a ring context; a FREE one is not listed. -/
def setRing (r : Nat) (v : Ring) (s : State) : State :=
  if v.st = .free then { s with rings := tdel s.rings r } else { s with rings := tset s.rings r v }

/-- Change a ring context. -/
def updRing (r : Nat) (f : Ring → Ring) (s : State) : State := setRing r (f (ringOf r s)) s

/-- Entries of a ring. -/
def ringSize (v : Ring) : Nat := 2 ^ v.log2

/-- `(a - b) mod 2^32` (05 R172). -/
def cdiff (a b : Dword) : Nat := (a - b).toNat

/-- A completion ring's cap in force (05 R206). -/
def capOf (v : Ring) (s : State) : Nat := if atFloor s then min v.cap 8 else v.cap

/-- The charges of all completion and async event rings (05 R206). -/
def allCharges (s : State) : Nat := (s.rings.map (fun e => if e.2.typ = 0 then 0 else e.2.charge)).sum

/-- Whether a completion ring takes no further charge (05 R203, R206). -/
def capped (r : Nat) (s : State) : Bool :=
  let v := ringOf r s
  capOf v s ≤ v.charge || (atFloor s && 256 ≤ allCharges s)

/-! ## MSI-X (05 R207 to R209) -/

/-- Signal a vector of a port: the message is sent, or its pending bit is set while it is masked. -/
def signal (p v : Nat) (s : State) : State :=
  let e := tgetD (getPort p s).msix v {}
  if e.masked then updPort p (fun q => { q with msix := tset q.msix v { e with pend := true } }) s
  else emit (.msix p v e.addr e.data) s

/-! ## Completion rings -/

/-- The 16 bytes of an entry, with lap bit and SQ_HEAD (05 R175, R186; 06 R242). -/
def cqeBytes (c : Cqe) (lap : Bool) (sqHead : Dword) : List Byte :=
  leBytes 4 c.dw0.toNat ++ leBytes 2 c.cid.toNat ++ leBytes 2 c.status.toNat ++
  leBytes 4 (c.obj % 2 ^ 18 + (if lap then 2 ^ 31 else 0)) ++
  leBytes 4 (if c.isEvent then c.seq.toNat else sqHead.toNat)

/-- Signal a ring's vector when the completions since its last signal exceed COAL_COUNT (05 R208). -/
def maybeSignal (r : Nat) (s : State) : State :=
  let v := ringOf r s
  if v.intEn && v.coalCount < v.unsignalled then
    signal (ringPort r s) v.vector (setRing r { v with unsignalled := 0 } s)
  else s

/-- Write one entry into a completion ring that has room: the aligned 16-byte write, tail + 1, charge - 1,
and the signal after it (05 R187, R202, R208). SQ_HEAD of a submission ring that is FREE by now is 0 (log entry 85). -/
def writeCqe (r : Nat) (c : Cqe) (s : State) : State :=
  let v := ringOf r s
  let lap := v.tail.getLsbD v.log2
  let s := emit (.hostWrite (ringPort r s) (v.base + 16 * (v.tail.toNat % ringSize v))
    (cqeBytes c lap (ringOf c.obj s).head)) s
  let s := setRing r { v with tail := v.tail + 1, charge := v.charge - 1, unsignalled := v.unsignalled + 1,
                              firstAt := if v.unsignalled = 0 then s.now else v.firstAt } s
  maybeSignal r s

/-- Whether a completion ring is full, by the last head reported (05 R188). -/
def ringFull (v : Ring) : Bool := ringSize v ≤ cdiff v.tail v.head

/-- The DRAM channels in service. -/
def openChannels (s : State) : List Nat := (List.range 16).filter (fun c => !s.dev.dramFence.getLsbD c)

/-- An entry joins the tail of a ring's stash queue: on a page of a channel in service, or in SRAM at FLOOR (05 R206; 01 R26; 07
R551), behind DRAM entries of the ring too (log entry 85). -/
def stashCqe (r : Nat) (c : Cqe) (s : State) : State :=
  let put (p : Option Nat) (s : State) : State := updRing r (fun v => { v with stash := v.stash ++ [{ c with page := p }] }) s
  let chans := openChannels s
  if atFloor s || chans.isEmpty then put none s
  else
    let n := Config.stashPage s.free
    put (some (16 * (n / 16) + chans.getD (n % chans.length) 0)) (nextFree s)

/-- Post an entry: into the ring, or to the tail of its stash queue when the ring is full, has stashed
entries or is in ERROR (05 R204, R211); discarded when the ring is FREE (R211). -/
def postCqe (r : Nat) (c : Cqe) (s : State) : State :=
  let v := ringOf r s
  match v.st with
  | .free => s
  | .idle => s
  | .error => stashCqe r c s
  | _ => if v.stash.isEmpty && !ringFull v then writeCqe r c s else stashCqe r c s

/-! ## Async events (06 R242 to R244, 05 R205, R213) -/

/-- Deliver a port's pending events, in SEQ order, while its ring takes charges and is not IDLE (05 R205, R211, R213). -/
def deliverEvents : Nat → Nat → State → State
  | 0, _, s => s
  | n + 1, p, s =>
    let q := getPort p s
    match q.evRing, leastBy (fun (e : Nat × PendEv) => (e.2.seq - q.evSeq - 1).toNat) q.evPend with
    | some r, some (t, e) =>
      if capped r s || (ringOf r s).st == .idle then s
      else
        let s := setPort p { q with evPend := tdel q.evPend t } s
        let s := updRing r (fun v => { v with charge := v.charge + 1 }) s
        let c : Cqe :=
          { isEvent := true, dw0 := e.data, cid := BitVec.ofNat 16 t, status := BitVec.ofNat 16 e.merged,
            obj := e.obj, seq := e.seq }
        deliverEvents n p (postCqe r c s)
    | _, _ => s

/-- Raise an event on one port: its SEQ advances; the event is pending, merged with one of its type
(R243), and is delivered at once when the ring takes it. -/
def eventOn (p typ obj : Nat) (data : Dword) (s : State) : State :=
  let q := getPort p s
  let e : PendEv := match tget q.evPend typ with
    | none => { data := data, obj := obj, merged := 0, seq := q.evSeq + 1 }
    | some o => { data := data, obj := obj, merged := min (o.merged + 1) 0xFFFF, seq := q.evSeq + 1 }
  let s := setPort p { q with evSeq := q.evSeq + 1, evPend := tset q.evPend typ e } s
  deliverEvents 17 p s

/-- Raise a module event on every port (06, Async events). -/
def event (typ obj : Nat) (data : Nat) (s : State) : State :=
  let s := eventOn 0 typ obj (BitVec.ofNat 32 data) s
  if s.dev.bifurcated then eventOn 1 typ obj (BitVec.ofNat 32 data) s else s

/-! ## Event records (14) -/

/-- The flags and times of a record made now (14 R490, R502). -/
def mkRec (rtype : Nat) (m : FMsg) (severe : Bool) (detail : List Byte) (s : State) : EvRec :=
  { opSeconds := opSeconds s, powerCycles := s.evr.powerCycles, rtype := rtype, msg := m,
    htValid := s.evr.hostTime.isSome, htBackwards := s.evr.backwards, forced := m.forced, severe := severe,
    ticks := (s.now % 1000000) * 32768 / 1000000, hostTime := (s.evr.hostTime.getD (0, 0)).1,
    htSeconds := (s.evr.hostTime.getD (0, 0)).2, detail := padTo 16 detail, boot := s.evr.boot,
    node := s.led.cohort }

/-- Whether a record repeats another (14 R494). -/
def repeats (a b : EvRec) : Bool :=
  a.rtype == b.rtype && a.msg.src == b.msg.src && a.msg.kind == b.msg.kind && a.msg.addr == b.msg.addr &&
  a.boot == b.boot && a.forced == b.forced && a.severe == b.severe && a.tally < 65535

/-- One more occurrence of a record (14 R494). -/
def bump (r : EvRec) : EvRec := { r with tally := r.tally + 1, rgen := (r.rgen + 1) % 65536 }

/-- Change the last element of a list. -/
def modLast {α : Type} (f : α → α) : List α → List α
  | [] => []
  | [a] => [f a]
  | a :: b :: l => a :: modLast f (b :: l)

/-- Log capacity in records (14 R495). -/
def logMax : Nat := 1048576

/-- Flush the staged records into the log in SEQ order (14 R493, R495); they stay staged while the MRAM has no power. -/
def flushRecs (s : State) : State :=
  if s.evr.memFailed || !nvOn s then s
  else
    let room := logMax - s.evr.log.length
    let kept := s.evr.staging.take room
    let lost := s.evr.staging.length - kept.length
    let nowFull := s.evr.full || decide (logMax ≤ s.evr.log.length + kept.length)
    let s' := { s with evr := { s.evr with
      log := s.evr.log ++ kept, staging := [],
      firstSeq := if s.evr.log.isEmpty then (kept.headD { msg := { src := 0, kind := 0 }, seq := s.evr.firstSeq }).seq
                  else s.evr.firstSeq,
      notLogged := sat32 s.evr.notLogged lost, full := nowFull } }
    if nowFull && !s.evr.full then event 0x0010 0 1 s' else s'

/-- Stage a record, or add to the last one that it repeats (14 R493 to R495). -/
def addRec (r : EvRec) (s : State) : State :=
  let e := s.evr
  if e.memFailed then s
  else match e.staging.getLast?, e.log.getLast? with
  | some l, _ =>
    if repeats l r then { s with evr.staging := modLast bump e.staging } else stageNew r s
  | none, some l =>
    if repeats l r && nvOn s then { s with evr.log := modLast bump e.log } else stageNew r s
  | none, none => stageNew r s
where
  /-- A record that repeats none: it takes the next SEQ, or is not kept when staging is full. -/
  stageNew (r : EvRec) (s : State) : State :=
    let e := s.evr
    if 256 ≤ e.staging.length then
      { s with evr := { e with notLogged := sat32 e.notLogged 1, drops := true } }
    else
      let s := { s with evr := { e with
        staging := e.staging ++ [{ r with seq := e.nextSeq, dropsBefore := e.drops }],
        nextSeq := (e.nextSeq + 1) % 2 ^ 32, drops := false } }
      if 192 ≤ s.evr.staging.length then flushRecs s else s

/-- "Records an event": an EVENT record with a code, an object and data (14 R492). -/
def recEvent (src code obj : Nat) (detail : List Byte) (s : State) : State :=
  addRec (mkRec 0x02 { src := src, kind := 0x3F, addr := obj * 65536 + code } false detail s) s

/-! ## Fault messages (14 R473, R475) -/

/-- A unit raises a fault message: it waits at its source's detector, which holds 4; a further one is an
overrun (14 R475). -/
def raise (src kind addr : Nat) (s : State) (forced : Bool := false) : State :=
  let q := tgetD s.fc.queue src []
  if q.length < 4 then
    { s with fc.queue := tset s.fc.queue src (q ++ [{ src := src, kind := kind, addr := addr % 2 ^ 48, forced := forced }]) }
  else
    { s with fc.cnt := tmod s.fc.cnt src {} (fun c =>
        { c with overruns := c.overruns + 1, pendOver := c.pendOver ++ [kind] }) }

/-- A message whose ADDRESS no rule states: a free value (log entry 2). -/
def raiseFree (src kind : Nat) (s : State) : State :=
  raise src kind (Config.freeWord s.free).toNat (nextFree s)

/-- A kind that a unit may send (14 R474) and that is not the severe-class one, out of any number. -/
def openKind (n : Nat) : Nat :=
  let k := n % 64
  if k = 0 || (0x37 ≤ k && k ≤ 0x3E) then 0x3F else k

/-- A message of which no rule states KIND or ADDRESS: both are free values, but for the severe-class kind (log
entry 2). -/
def raiseOpen (src : Nat) (s : State) : State :=
  let w := (Config.freeWord s.free).toNat
  raise src (openKind w) (w / 64) (nextFree s)

/-! ## End of a command -/

/-- NVMe status (status field without phase: code, type, DNR) for a module status (06 R249). -/
def nvmeStatus (st : BitVec 16) : Nat :=
  match st.toNat with
  | 0x0000 => 0x000
  | 0x0004 => 0x080
  | 0x0009 => 0x004
  | 0x0101 => 0x281
  | 0x0103 => 0x281
  | 0x0102 => 0x281
  | 0x0104 => 0x280
  | 0x0201 => 0x082
  | _ => 0x006

/-- The 16 bytes of an NVMe completion entry. -/
def nvmeCqe (dw0 sqHead sqid : Nat) (cid : BitVec 16) (status : Nat) (phase : Bool) : List Byte :=
  leBytes 4 dw0 ++ leBytes 4 0 ++ leBytes 2 sqHead ++ leBytes 2 sqid ++ leBytes 2 cid.toNat ++
  leBytes 2 (2 * status + b2n phase)

/-- Change a port's PF1 controller. -/
def updPf1 (p : Nat) (f : Pf1 → Pf1) (s : State) : State := updPort p (fun u => { u with pf1 := f u.pf1 }) s

/-- PF1's admin or I/O completion queue of a port. -/
def nvmeCq (p : Nat) (admin : Bool) (s : State) : Option Nvq :=
  if admin then (getPort p s).pf1.acq else (getPort p s).pf1.ioCq

/-- Whether a PF1 completion queue has no room. -/
def nvqFull (q : Nvq) : Bool := (q.tail + 1) % q.size == q.head

/-- Write a completion into a PF1 completion queue that has room, and signal its vector (06 R246). -/
def writeNvme (p : Nat) (admin : Bool) (cid : BitVec 16) (status dw0 : Nat) (s : State) : State :=
  let f := (getPort p s).pf1
  let sqHead := ((if admin then f.asq else f.ioSq).map (·.head)).getD 0
  match nvmeCq p admin s with
  | none => s
  | some q =>
    let s := emit (.hostWrite p (q.base + 16 * q.tail)
      (nvmeCqe dw0 sqHead (if admin then 0 else 1) cid status q.phase)) s
    let t := if q.tail + 1 = q.size then 0 else q.tail + 1
    let q' := { q with tail := t, phase := if t = 0 then !q.phase else q.phase }
    let s := updPf1 p (fun u => if admin then { u with acq := some q' } else { u with ioCq := some q' }) s
    if q.intEn then
      let e := tgetD (getPort p s).pf1.msix q.vector {}
      if e.masked then updPf1 p (fun u => { u with msix := tset u.msix q.vector { e with pend := true } }) s
      else emit (.msix p (4096 + q.vector) e.addr e.data) s
    else s

/-- Post a completion on PF1's admin or I/O completion queue of a port (06 R246); it waits while the queue is full. -/
def postNvme (p : Nat) (admin : Bool) (cid : BitVec 16) (status dw0 : Nat) (s : State) : State :=
  match nvmeCq p admin s with
  | none => s
  | some q =>
    if nvqFull q then updPf1 p (fun u => { u with stash := u.stash ++ [(admin, cid, status, dw0)] }) s
    else writeNvme p admin cid status dw0 s

/-- Critical Warning of PF1's SMART log (06 R250). -/
def critWarn (s : State) : Nat := 2 * b2n (s.therm.target != 100) + 8 * b2n (atFloor s) + 16 * b2n (s.cache.capUnits == 0)

/-- A Critical Warning bit that has risen, and that the Asynchronous Event Configuration selects, completes an outstanding
Asynchronous Event Request; a further one waits until the SMART log is read (06 R246; log entry 43). -/
def nvmeEvent (p : Nat) (s : State) : State :=
  let u := (getPort p s).pf1
  let rose := (BitVec.ofNat 8 (critWarn s) &&& ~~~ BitVec.ofNat 8 u.warned &&& u.aerConfig.setWidth 8) |||
    BitVec.ofNat 8 u.warnNew
  let s := updPf1 p (fun u => { u with warned := critWarn s, warnNew := rose.toNat }) s
  match u.aers with
  | cid :: rest =>
    if !u.rdy || u.aerMasked || rose == 0 then s
    else
      let info := if rose.getLsbD 1 then 1 else 0
      postNvme p true cid 0 (1 + info * 2 ^ 8 + 2 * 2 ^ 16)
        (updPf1 p (fun u => { u with aers := rest, warnNew := 0, aerMasked := true }) s)
  | [] => s

/-- The same on every port. -/
def nvmeEvents (s : State) : State := nvmeEvent 1 (nvmeEvent 0 s)

/-- PF1's counts of sectors that commands moved (06 R250). -/
def countNvme (p opcode n : Nat) (s : State) : State :=
  if opcode = 1 then updPf1 p (fun u => { u with sectorsRead := u.sectorsRead + n }) s
  else if opcode = 2 ∨ opcode = 3 then updPf1 p (fun u => { u with sectorsWritten := u.sectorsWritten + n }) s
  else s

/-- One range of a Dataset Management command ends; the last one completes the command with the first failure. -/
def endRange (p : Nat) (cid : BitVec 16) (status : BitVec 16) (s : State) : State :=
  let k := cid.toNat
  let s := if status = 0 ∨ (tget (getPort p s).pf1.dsmFail k).isSome = true then s
    else updPf1 p (fun u => { u with dsmFail := tset u.dsmFail k status }) s
  if s.pipe.cmds.any (fun e => e.2.src == .dsm p cid) then s
  else
    let st := tgetD (getPort p s).pf1.dsmFail k 0
    postNvme p false cid (nvmeStatus st) 0 (updPf1 p (fun u => { u with dsmFail := tdel u.dsmFail k }) s)

/-- A command, if it is begun and not complete. -/
def cmdOf (c : Nat) (s : State) : Option Cmd := tget s.pipe.cmds c

/-- Change a command. -/
def updCmd (c : Nat) (f : Cmd → Cmd) (s : State) : State := { s with pipe.cmds := tupd s.pipe.cmds c f }

/-- The TYPE of a pair message (10 R358). -/
def PMsg.typ : PMsg → Nat
  | .hello _ => 0x01
  | .heartbeat _ => 0x02
  | .farewell => 0x03
  | .suspectNotice => 0x04
  | .mirrorWrite _ => 0x10
  | .mirrorAck _ => 0x11
  | .mirrorClean .. => 0x12
  | .jnlMirror _ => 0x13
  | .jnlRetire _ => 0x14
  | .ledgerPrepare _ => 0x20
  | .ledgerVote .. => 0x21
  | .ledgerDecide _ => 0x22
  | .quiesce _ => 0x28
  | .quiesceDone => 0x29
  | .forwardCmd .. => 0x30
  | .forwardData .. => 0x31
  | .forwardCpl _ => 0x32
  | .memberReport .. => 0x38
  | .resyncLine .. => 0x40
  | .resyncDone => 0x41
  | .xfer _ => 0x48

/-- The class of a pair message (10 R358). -/
def PMsg.cls : PMsg → Nat
  | .hello _ => 0
  | .heartbeat _ => 0
  | .farewell => 0
  | .suspectNotice => 0
  | .mirrorWrite _ => 1
  | .mirrorAck _ => 1
  | .mirrorClean .. => 1
  | .jnlMirror _ => 1
  | .jnlRetire _ => 1
  | .ledgerPrepare _ => 2
  | .ledgerVote .. => 2
  | .ledgerDecide _ => 2
  | .quiesce _ => 2
  | .quiesceDone => 2
  | .xfer _ => 2
  | .forwardCmd .. => 3
  | .forwardData .. => 3
  | .forwardCpl _ => 3
  | .memberReport .. => 3
  | .resyncLine .. => 4
  | .resyncDone => 4

/-- Whether the sender keeps a message until it is acknowledged (10 R359): classes 1 and 2, the MIRROR_ACK of class 1 too, which the
peer's next MIRROR_ACK acknowledges. Log entry 30. -/
def PMsg.kept (m : PMsg) : Bool := m.cls == 1 || m.cls == 2

/-- Sectors that one message carries beside what names them, within the 65,536 payload bytes of 10 R357 (log entry 30). -/
def sectorsPerMsg : Nat := 15

/-- A list in pieces of at most `n`. -/
def piecesOf {α : Type} (n : Nat) (l : List α) : List (List α) :=
  (List.range ((l.length + n - 1) / n)).map (fun i => (l.drop (n * i)).take n)

/-- SEQ of the next message of a class (10 R357). -/
def pairSeq (cls : Nat) (s : State) : Nat := tgetD s.pair.sendSeq cls 0 + 1

/-- Put a message on the link, if it is in L0. -/
def wirePair (seq : Nat) (m : PMsg) (s : State) : State :=
  if s.pair.linkUp then emit (.pair m.typ m.cls seq s.led.cohort s.led.pairEpoch m) s else s

/-- Send a pair message: it takes the next SEQ of its class (10 R357, R359). -/
def sendPair (m : PMsg) (s : State) : State :=
  let seq := pairSeq m.cls s
  wirePair seq m { s with pair := { s.pair with
    sendSeq := tset s.pair.sendSeq m.cls seq,
    unacked := if m.kept then s.pair.unacked ++ [(m.cls, seq, m)] else s.pair.unacked } }

/-- Whether this module mirrors what it makes dirty: PAIRED, and RESYNC (10 R367, R386). -/
def mirroring (s : State) : Bool := s.pair.st == 3 || s.pair.st == 4

/-- Whether mirror messages are made: while mirroring, and in SUSPECT, where they wait to be sent again (R362, R369). -/
def mirrorsOut (s : State) : Bool := mirroring s || s.pair.st == 5

/-- Complete a command with a status and a result: the completion is posted on the ring bound to its
submission ring (05 R186, R202), on PF1's queue, or sent to the peer (10 R375). -/
def finishCmd (c : Nat) (status : BitVec 16) (result : Dword) (s : State) : State :=
  match cmdOf c s with
  | none => s
  | some cmd =>
    let s := { s with pipe.cmds := tdel s.pipe.cmds c }
    match cmd.src with
    | .ring r =>
      let cid := BitVec.ofNat 16 (leAt cmd.entry 2 2)
      let s := updRing r (fun v => { v with open_ := v.open_ - 1 }) s
      postCqe (ringOf r s).bind { dw0 := result, cid := cid, status := status, obj := r } s
    | .pf1 p admin cid =>
      postNvme p admin cid (nvmeStatus status) 0 (if status = 0 then countNvme p cmd.opcode cmd.count s else s)
    | .dsm p cid => endRange p cid status s
    | .peer tag => sendPair (.forwardCpl { tag := tag, status := status, result := result }) s
    | .gone => s

end Sys2Proof.Machine
end

