-- ==== Sys2Proof/Machine/Geometry.lean ====
section
/-! DEFINITION. Sys2Proof/Machine/Geometry.lean: stage 2 (04 R134): volumes, rows, homes, relocation, erased
positions, lost extents, cache line addresses. A *layout* is 0 to 7 for the layout a pool runs on, and
pool + 8 for the target of its reshape (09 R348). -/

namespace Sys2Proof.Machine

/-- The plan that runs; an empty one while none is loaded. -/
def tab (s : State) : PlanTab := s.plan.tab.getD {}

/-- The pool table entry of a layout. -/
def poolEnt (l : Nat) (s : State) : PoolEnt := tgetD (tab s).pools l {}

/-- Whether a pool is valid in the active image. -/
def poolValid (p : Nat) (s : State) : Bool := (tget (tab s).pools p).isSome

/-- The geometry row of a layout (04 R121). -/
def geomOf (l : Nat) (s : State) : Geom := tgetD (tab s).geoms (poolEnt l s).geom { k := 1, m := 0, shift := 2 }

/-- Stripe width. -/
def Geom.w (g : Geom) : Nat := g.k + g.m

/-- Strip sectors. -/
def Geom.ss (g : Geom) : Nat := 2 ^ g.shift

/-- Sectors of a slice (03 R76). -/
def Geom.sliceLen (g : Geom) : Nat := min 16 g.ss

/-- Data and parity positions. -/
def Geom.dataMask (g : Geom) : Word := span 0 g.k
/-- Positions k to w - 1. -/
def Geom.parMask (g : Geom) : Word := span g.k g.w

/-- Rows of a layout (04 R126). -/
def rowsOf (l : Nat) (s : State) : Nat := (poolEnt l s).bands * (poolEnt l s).q

/-- The fixed hash from band to block (04 R132). -/
def blockHash (b nblocks : Nat) : Nat :=
  let x := (b % 2 ^ 32) ^^^ (b / 2 ^ 32 * 40503)
  let h := (x * 2654435761) % 2 ^ 32
  (h / 65536) % nblocks

/-- Band and roll entry of a row (04 R134). -/
def bandEntry (l row : Nat) (s : State) : Nat × Nat :=
  let p := poolEnt l s
  let band := row / p.q
  (band, blockHash band p.nblocks * p.q + row % p.q)

/-- The member slot that the roll table names (04 R134). -/
def rollSlot (l e pos : Nat) (s : State) : Nat :=
  byteAt (tgetD (tab s).roll l []) (e * (geomOf l s).w + pos)

/-- A pool's record. -/
def poolRec (l : Nat) (s : State) : PoolRec := tgetD s.mem.pools (l % 8) {}

/-- Change a pool's record. -/
def updPool (l : Nat) (f : PoolRec → PoolRec) (s : State) : State :=
  { s with mem.pools := tmod s.mem.pools (l % 8) {} f }

/-- A slot of a pool. -/
def slotRec (l slot : Nat) (s : State) : SlotRec := tgetD (poolRec l s).slots slot {}

/-- Change a slot. -/
def updSlot (l slot : Nat) (f : SlotRec → SlotRec) (s : State) : State :=
  updPool l (fun p => { p with slots := tmod p.slots slot {} f }) s

/-- Key of a cell (04, Relocation). -/
def cellKey (e pos : Nat) : Nat := e * 64 + pos

/-- The relocation entry of a cell, if one is in use. -/
def relocOf (l e pos : Nat) (s : State) : Option Reloc :=
  if 8 ≤ l then none else tget (poolRec l s).relocs (cellKey e pos)

/-- The relocation lookup (04 R145): slot and band slot of a cell in a band. -/
def lookupHome (l e pos band : Nat) (s : State) : Nat × Nat :=
  match relocOf l e pos s with
  | none => (rollSlot l e pos s, pos)
  | some r => if r.settled || band < r.boundary then (r.toSlot, r.toB) else (r.fromSlot, r.fromB)

/-- Whether a strip of a roll entry's block is a fallow strip: its member holds no stripe strip at that band slot (04 R132,
R147). -/
def isFallow (l e slot bs : Nat) (s : State) : Bool :=
  let q := (poolEnt l s).q
  !(List.range q).any (fun j => rollSlot l (e / q * q + j) bs s == slot)

/-- The window row of a target row, while it is not homed (09 R349). -/
def winRow (l row : Nat) (s : State) : Option WinRow :=
  if l < 8 then none
  else (poolRec l s).reshape.window.find? (fun w => w.row == row && !w.homed)

/-- Source strips that one target strip fills in a window row. -/
def winPer (l : Nat) (s : State) : Nat :=
  ((geomOf l s).ss + (geomOf (l % 8) s).ss - 1) / (geomOf (l % 8) s).ss

/-- Slot and data page of a strip sector (04 R134). -/
def pageOf (l row pos ssec : Nat) (s : State) : Nat × Nat :=
  match winRow l row s with
  | some w =>
    let g := geomOf (l % 8) s
    let (band, bs, slot) := w.strips.getD (pos * winPer l s + ssec / g.ss) (0, 0, 0)
    (slot, (band * g.w + bs) * g.ss + ssec % g.ss)
  | none =>
    let g := geomOf l s
    let (band, e) := bandEntry l row s
    let (slot, bs) := lookupHome l e pos band s
    (slot, (band * g.w + bs) * g.ss + ssec)

/-- The member slot that holds a position of a row. -/
def homeSlot (l row pos : Nat) (s : State) : Nat := (pageOf l row pos 0 s).1

/-- The format of a pool (04 R122). -/
def formatOf (l : Nat) (s : State) : Nat := (poolEnt (l % 8) s).format

/-- Member LBA of a data page, and tag page LBA with the index in it for 4096+0 (04 R134). -/
def lbaOf (l page : Nat) (s : State) : Nat × Option (Nat × Nat) :=
  let b := (poolEnt (l % 8) s).dataBase
  if formatOf l s = 2 then (b + page / 511 * 512 + 1 + page % 511, some (b + page / 511 * 512, page % 511))
  else (b + page, none)

/-- Whether the discovery window of a pool is open (08 R304). -/
def discovering (l : Nat) (s : State) : Bool := (poolRec l s).discovery

/-- Positions of a roll entry at slots that are failed, or rebuilding and not restored up to a band (02 R60). -/
def entryPattern (l e band : Nat) (s : State) : Word :=
  maskOf ((List.range (geomOf l s).w).filter (fun p =>
    let r := slotRec l (lookupHome l e p band s).1 s
    r.st == .failed || (r.st == .rebuilding && (relocOf l e p s).isNone && decide (r.restore ≤ band))))

/-- The patterns that a pool's present failed and rebuilding slots produce: for each roll entry, one below, at and above each
boundary of a move or a restore (02 R60, R61). -/
def failurePatterns (l : Nat) (s : State) : List Word :=
  let p := poolEnt l s
  let walks := ((poolRec l s).slots.filter (fun e => e.2.st == .rebuilding)).map (·.2.restore)
  ((List.range (p.nblocks * p.q)).flatMap (fun e =>
    let cuts := (List.range (geomOf l s).w).filterMap (fun q => (relocOf l e q s).map (·.boundary))
    (0 :: (cuts ++ walks)).map (fun b => entryPattern l e b s))).eraseDups

/-- Whether a position of a row is erased under 08 R299. -/
def posErased (l row pos : Nat) (s : State) : Bool :=
  let slot := homeSlot l row pos s
  let r := slotRec l slot s
  match r.st with
  | .failed => true
  | .absent => true
  | .rebuilding =>
    let (band, e) := bandEntry l row s
    (relocOf l e pos s).isNone && (winRow l row s).isNone && decide (r.restore ≤ band)
  | _ => false

/-- The erased positions of a row (08 R299). -/
def erasedMask (l row : Nat) (s : State) : Word :=
  maskOf ((List.range (geomOf l s).w).filter (fun p => posErased l row p s))

/-- Positions of a row at slots not yet found while the discovery window is open (08 R304). -/
def unfoundMask (l row : Nat) (s : State) : Word :=
  if discovering l s then
    maskOf ((List.range (geomOf l s).w).filter (fun p =>
      (slotRec l (homeSlot l row p s) s).st == .absent))
  else 0

/-- Positions of a row at slots being prepared (04 R143): at pool creation (`true`) or adoption. -/
def prepMask (l row : Nat) (creation : Bool) (s : State) : Word :=
  maskOf ((List.range (geomOf l s).w).filter (fun p =>
    (slotRec l (homeSlot l row p s) s).prep == some creation))

/-- Positions of a row at slots whose failure is not yet committed (08 R300). -/
def pendingMask (l row : Nat) (s : State) : Word :=
  maskOf ((List.range (geomOf l s).w).filter (fun p =>
    (slotRec l (homeSlot l row p s) s).commitPending))

/-! ## Lost extents and known-zero positions (08 R317, R319) -/

/-- Whether a lost extent names a sector, whatever was accepted: the position is known zero there. -/
def knownZero (l row pos ssec : Nat) (s : State) : Bool :=
  s.mem.lostE.any (fun e => e.pool == l && e.row == row && e.slice == ssec / 16 && e.positions.getLsbD pos &&
    e.first ≤ ssec % 16 && ssec % 16 < e.first + e.count)

/-- Whether a sector lies in a lost extent not accepted (06 R223). -/
def lostNow (l row pos ssec : Nat) (s : State) : Bool :=
  s.mem.lostE.any (fun e => e.pool == l && e.row == row && e.slice == ssec / 16 && e.positions.getLsbD pos &&
    e.first ≤ ssec % 16 && ssec % 16 < e.first + e.count && !e.accepted)

/-- Positions known zero in every sector of a span. -/
def zeroMask (l row slice first count : Nat) (s : State) : Word :=
  maskOf ((List.range (geomOf l s).w).filter (fun p =>
    (List.range count).all (fun i => knownZero l row p (16 * slice + first + i) s)))

/-- Erased positions of a span; known-zero positions do not count (08 R317). -/
def erasedSpan (l row slice first count : Nat) (s : State) : Word :=
  erasedMask l row s &&& ~~~ zeroMask l row slice first count s

/-! ## Volumes (04 R123, R134) -/

/-- Pools that the module's table holds. -/
def poolIds (s : State) : List Nat := ((tab s).pools.map (·.1)).filter (· < 8)

/-- Slots of a pool that its table uses. -/
def usedSlots (p : Nat) (s : State) : List Nat :=
  (List.range (poolEnt p s).n).filter (fun n => ((poolEnt p s).members.getD n 0).getLsbD 15)

/-- The port number of a member descriptor, with the downstream index of a member behind a switch (04 R122; log entry 76). -/
def descPort (d : BitVec 16) : Nat := d.toNat % 128 + (if d.getLsbD 14 then 128 * (d.toNat / 512 % 32) else 0)

/-- The port at which a slot's member is expected (04 R122). -/
def expectedPort (p n : Nat) (s : State) : Nat := descPort ((poolEnt p s).members.getD n 0)

/-- Slots of a reshape's target that the source does not have. -/
def addedSlots (p : Nat) (s : State) : List Nat := (usedSlots (p + 8) s).filter (fun n => !(usedSlots p s).contains n)

/-- Slots that members serve: those of the table, and those that a reshape has added already (09 R347). -/
def heldSlots (p : Nat) (s : State) : List Nat :=
  usedSlots p s ++ (addedSlots p s).filter (fun n => (tget (poolRec p s).slots n).isSome)

/-- The reshape record of a pool, while it walks. -/
def walking (p : Nat) (s : State) : Option Reshape :=
  let r := (poolRec p s).reshape
  if r.st = 2 then some r else none

/-- The place of a target row in walk order (09 R348): the target rows that hold volume data, ascending or
descending. -/
def walkRows (p : Nat) (s : State) : List Nat :=
  let t := tgetD (tab s).targets p {}
  let g := geomOf (p + 8) s
  let rows := t.vols.flatMap (fun (v, st) =>
    let sec := ((tget (tab s).vols v).map (·.sectors)).getD 0
    (List.range ((sec + g.k * g.ss - 1) / (g.k * g.ss))).map (fun i => st + i))
  let asc := rows.foldl (fun acc r => nins acc r) []
  if t.descending then asc.reverse else asc

/-- Whether a target row is behind the committed boundary B (09 R348). -/
def behindB (p row : Nat) (s : State) : Bool :=
  match walking p s with
  | none => false
  | some r => (walkRows p s).idxOf row < r.b

/-- First row of a volume in a layout. -/
def volStart (v : Nat) (e : VolEnt) (l : Nat) (s : State) : Nat :=
  if l < 8 then e.startRow
  else (((tgetD (tab s).targets (l % 8) {}).vols.find? (fun x => x.1 == v)).map (·.2)).getD e.startRow

/-- Layout, row, position and strip sector of a volume sector in one layout (04 R134). -/
def locIn (l v : Nat) (e : VolEnt) (x : Nat) (s : State) : Nat × Nat × Nat × Nat :=
  let g := geomOf l s
  let rd := g.k * g.ss
  let d := x % rd
  (l, volStart v e l s + x / rd, d / g.ss, d % g.ss)

/-- Stage 2 for a volume sector: the target layout behind B, else the source layout (04 R134, 09 R348). -/
def locate (v x : Nat) (s : State) : Option (Nat × Nat × Nat × Nat) :=
  match tget (tab s).vols v with
  | none => none
  | some e =>
    match walking e.pool s with
    | none => some (locIn e.pool v e x s)
    | some _ =>
      let t := locIn (e.pool + 8) v e x s
      if behindB e.pool t.2.1 s then some t else some (locIn e.pool v e x s)

/-- Rows that a volume occupies in a layout (04 R124). -/
def volRows (l : Nat) (e : VolEnt) (s : State) : Nat :=
  let g := geomOf l s
  (e.sectors + g.k * g.ss - 1) / (g.k * g.ss)

/-- The volume that a row of a layout belongs to. -/
def volOfRow (l row : Nat) (s : State) : Option Nat :=
  ((tab s).vols.find? (fun (v, e) => e.pool == l % 8 &&
    volStart v e l s ≤ row && row < volStart v e l s + volRows l e s)).map (·.1)

/-! ## Cache lines (07 R251) -/

/-- Lines per row. -/
def lpr (g : Geom) : Nat := (g.k * g.ss + 15) / 16

/-- Line and sector in line of a strip sector of a data position. -/
def lineOf (l row pos ssec : Nat) (s : State) : Nat × Nat :=
  let g := geomOf l s
  let d := pos * g.ss + ssec
  (row * lpr g + d / 16, d % 16)

/-- The per-pool scramble `f` of a line. -/
def lineF (l line : Nat) : Nat := (line / 65536 * 40503 + l % 8 * 7919) % 65536

/-- The set of a line. -/
def setOf (l line : Nat) : Nat := (line % 65536) ^^^ lineF l line

/-- Row, position and strip sector of a sector of a line. -/
def secOfLine (l line sec : Nat) (s : State) : Nat × Nat × Nat :=
  let g := geomOf l s
  let d := line % lpr g * 16 + sec
  (line / lpr g, d / g.ss, d % g.ss)

/-- The line that a tag at set × 16 + way holds: LINE_HI above the set unscrambled (07 R253). -/
def tagLine (x : Nat) (t : Tag) : Nat :=
  t.lineHi * 65536 + ((x / 16) ^^^ ((t.lineHi * 40503 + t.pool % 8 * 7919) % 65536))

/-- The tag at set × 16 + way. -/
def tagAt (x : Nat) (s : State) : Tag := tgetD s.cache.tags x {}

/-- Whether a tag holds a line (07 R253). -/
def Tag.holds (t : Tag) : Bool := t.valid != 0 || t.dirty != 0 || t.evicting

/-- Replace a tag; one that holds no line is not listed. -/
def setTag (x : Nat) (t : Tag) (s : State) : State :=
  if t.holds then { s with cache.tags := tset s.cache.tags x t } else { s with cache.tags := tdel s.cache.tags x }

/-- Where a line is cached: set × 16 + way (07 R255: a lookup hits in any way). -/
def findLine (l line : Nat) (s : State) : Option Nat :=
  let set := setOf l line
  ((List.range 16).map (fun w => set * 16 + w)).find? (fun x =>
    let t := tagAt x s
    t.holds && t.pool == l && t.lineHi == line / 65536)

/-- A sector's state in a tag: valid and dirty bits (07 R253). -/
def secSt (t : Tag) (i : Nat) : Bool × Bool := (t.valid.getLsbD i, t.dirty.getLsbD i)

/-- Bytes of a cached sector. -/
def cacheSec (x sec : Nat) (s : State) : List Byte := mreadRun s.cache.mem ((x * 16 + sec) * 4096) 4096

/-- Store a cached sector. -/
def setCacheSec (x sec : Nat) (d : List Byte) (s : State) : State :=
  { s with cache.mem := mwriteRun s.cache.mem ((x * 16 + sec) * 4096) (padTo 4096 d) }

/-! ## The vault index (11 R398, R399) -/

/-- Whether an index entry is the one in force for a sector: the last one that names it. -/
def idxInForce (s : State) (l line sec : Nat) : Option IdxEnt :=
  s.pow.index.reverse.find? (fun e => e.pool == l && e.line == line && e.mask.getLsbD sec)

/-- Whether a sector is dirty in the vault and not yet restored. -/
def unrestored (l line sec : Nat) (s : State) : Bool :=
  match idxInForce s l line sec with
  | some e => !e.dead && !e.restored.getLsbD sec
  | none => false

/-- The unrestored sectors of a line. -/
def unrestoredMask (l line : Nat) (s : State) : BitVec 16 :=
  if s.pow.index.isEmpty then 0
  else (List.range 16).foldl (fun m i => if unrestored l line i s then m ||| bit16 i else m) 0

/-- Every line with an index entry. -/
def idxLines (s : State) : List (Nat × Nat) := (s.pow.index.map (fun e => (e.pool, e.line))).eraseDups

/-- Dirty sectors (07 R274): VALID and DIRTY both set, and those not yet restored. -/
def dirtySectors (s : State) : Nat :=
  (s.cache.tags.map (fun e => (secsOf (e.2.valid &&& e.2.dirty)).length)).sum +
  ((idxLines s).map (fun x => (secsOf (unrestoredMask x.1 x.2 s)).length)).sum

/-- Whether a line has a dirty sector in the cache. -/
def lineDirtyHere (l line : Nat) (s : State) : Bool := match findLine l line s with
  | some x => (tagAt x s).valid &&& (tagAt x s).dirty != 0
  | none => false

/-- Lines with a dirty sector, in the cache or still in the vault (07 R278). -/
def dirtyLines (s : State) : Nat :=
  (s.cache.tags.filter (fun e => e.2.valid &&& e.2.dirty != 0)).length +
  ((idxLines s).filter (fun x => unrestoredMask x.1 x.2 s != 0 && !lineDirtyHere x.1 x.2 s)).length

/-- The dirty cap in force, in sectors: units of 256 MiB. -/
def capSectors (s : State) : Nat := s.cache.capUnits * 65536

end Sys2Proof.Machine
end

