-- ==== Sys2Proof/Machine/Code.lean ====
section
/-! DEFINITION. Sys2Proof/Machine/Code.lean: encoding and decoding of a sector row (04 R127 to R129), and the
recovery schedules of the plan image and the plan engine (02 R44 to R46, R56). -/

namespace Sys2Proof.Machine

/-- C[r][i] of a geometry: byte i of row r of its coefficient rows (04 R129). -/
def coeffAt (g : Geom) (rows : List Byte) (r i : Nat) : Byte := rows.getD (r * g.k + i) 0

/-- How a position's sector depends on the k data sectors: a unit row for data, a coefficient row for
parity. -/
def genRow (g : Geom) (rows : List Byte) (pos : Nat) : List Byte :=
  (List.range g.k).map (fun i =>
    if pos < g.k then (if i = pos then (1 : Byte) else 0) else coeffAt g rows (pos - g.k) i)

/-- Coefficients that give each position of `outs` from the sources `srcs` (exactly k of them). -/
def decodeRows (g : Geom) (rows : List Byte) (srcs outs : List Nat) : Option (List (List Byte)) :=
  (gfInverse (srcs.map (genRow g rows))).map (fun inv =>
    outs.map (fun p => (List.range g.k).map (fun j =>
      ((List.range g.k).map (fun i =>
        gfMul ((genRow g rows p).getD i 0) ((inv.getD i []).getD j 0))).foldl (· ^^^ ·) 0)))

/-- The k lowest-numbered positions that are not erased (02 R46). -/
def sourcesFor (g : Geom) (erased : Word) : List Nat :=
  ((List.range g.w).filter (fun p => !erased.getLsbD p)).take g.k

/-- The schedule that the plan engine makes for an erasure pattern (02 R44, R46, R59). -/
def makeSched (g : Geom) (rows : List Byte) (erased : Word) : Option Sched :=
  let srcs := sourcesFor g erased
  if g.m < pop erased || srcs.length != g.k then none
  else (decodeRows g rows srcs (bitsOf erased)).map (fun r =>
    { erased := erased, sources := maskOf srcs, rows := r })

/-- The coefficient rows of a layout's geometry. -/
def coeffsOf (l : Nat) (s : State) : List Byte := tgetD (tab s).coeff (poolEnt l s).geom []

/-- Sector data of every position of a sector row from k readable ones; none when fewer are given. -/
def decodeAll (g : Geom) (rows : List Byte) (have_ : List (Nat × List Byte)) : Option (List (List Byte)) :=
  let chosen := have_.take g.k
  if chosen.length != g.k then none
  else (decodeRows g rows (chosen.map (·.1)) (List.range g.w)).map (fun cs =>
    cs.map (fun c => combine c (chosen.map (·.2))))

/-- The parity sectors of k data sectors (04 R129). -/
def encodeParity (g : Geom) (rows : List Byte) (data : List (List Byte)) : List (List Byte) :=
  (List.range g.m).map (fun r => combine (genRow g rows (g.k + r)) data)

/-- Index of the record for one or two erased positions (02 R45). -/
def schedIndex (g : Geom) (erased : Word) : Option Nat :=
  match bitsOf erased with
  | [p] => some p
  | [p, q] => some (g.w + q * (q - 1) / 2 + p)
  | _ => none

/-- The record that the plan engine stores for a schedule: 320 bytes (02 R44). -/
def schedRecord (g : Geom) (geom : Nat) (x : Sched) : List Byte :=
  let head := leBytes 8 x.erased.toNat ++ leBytes 8 x.sources.toNat ++ leBytes 1 x.rows.length ++ leBytes 1 g.k ++ leBytes 2 geom
  let rows := x.rows.flatMap (padTo 64)
  head ++ leBytes 4 (crc32c (padTo 320 (head ++ List.replicate 4 0 ++ rows))).toNat ++ padTo 296 rows

/-- A schedule record of 160 or 320 bytes, when its CRC is right (02 R44, R62). -/
def parseSched (b : List Byte) : Option Sched :=
  let padded := b.take 20 ++ List.replicate 4 0 ++ b.drop 24
  if leAt b 20 4 == (crc32c padded).toNat then
    let outs := byteAt b 16
    some { erased := BitVec.ofNat 64 (leAt b 0 8), sources := BitVec.ofNat 64 (leAt b 8 8),
           rows := (List.range outs).map (fun i => slice b (24 + 64 * i) 64) }
  else none

/-- Key of a schedule cache slot: geometry and ERASED (02 R56). -/
def schedKey (geom : Nat) (erased : Word) : Nat := geom * 2 ^ 64 + erased.toNat

/-- Slots of the schedule cache, or of the floor schedule area (02 R56, R64). -/
def schedSlots (s : State) : Nat := if s.dev.dramFence == 0xFFFF then 819 else 262144

/-- What a LOOK.SCHED finds for an erasure pattern of a layout: a schedule, a wait, or a failed record
(02 R57, R62, 03 R93). -/
inductive SchedFind where
  | found (x : Sched)
  | missing
  | damaged
  | reloading
  /-- a cached record whose CRC fails -/
  | broken
  deriving DecidableEq, Repr

/-- Look a schedule up (02 R45, R56). -/
def findSched (l : Nat) (erased : Word) (s : State) : SchedFind :=
  let g := geomOf l s
  let geom := (poolEnt l s).geom
  match schedIndex g erased with
  | some i =>
    if s.plan.reloading.contains geom then .reloading
    else match parseSched (slice (tgetD (tab s).sched geom []) (160 * i) 160) with
      | some x => .found x
      | none => .damaged
  | none => match tget s.plan.cache (schedKey geom erased) with
    | some x => ((parseSched x.record).map SchedFind.found).getD .broken
    | none => .missing

/-- Add a request to the plan engine queue, ahead of precompute work and once per pattern (02 R57, R58). -/
def requestSched (l : Nat) (erased : Word) (s : State) : State :=
  let geom := (poolEnt l s).geom
  if s.plan.queue.any (fun r => r.geom == geom && r.erased == erased && !r.pre) then s
  else
    let q := s.plan.queue.filter (fun r => !(r.geom == geom && r.erased == erased))
    let r : SchedReq := { geom := geom, erased := erased, since := s.now }
    { s with plan.queue := q.filter (fun r => !r.pre) ++ [r] ++ q.filter (·.pre) }

end Sys2Proof.Machine
end

