-- ==== Sys2Proof/Machine/Rings.lean ====
section
/-! DEFINITION. Sys2Proof/Machine/Rings.lean: host rings (05): fetch, doorbells, pushes, caps, interrupts, ring
states, drains, admin rings, FLR. -/

namespace Sys2Proof.Machine

/-! ## Entries at hand (05 R197, R198) -/

/-- Counter value of a pushed copy: its ETAIL less 1 (05 R180). -/
def copyCounter (e : List Byte) : Dword := BitVec.ofNat 32 (leAt e 4 4) - 1

/-- The accepted push copy of a counter value, if its slot holds one (05 R193). -/
def heldCopy (v : Ring) (i : Dword) : Option (List Byte) :=
  let h := if i.getLsbD 0 then v.push1 else v.push0
  match h with
  | some e => if copyCounter e == i then some e else none
  | none => none

/-- The entry at a counter value: its push copy, or its fetched copy (05 R197). An empty copy marks a failed read. -/
def entryOf (v : Ring) (i : Dword) : Option (List Byte) :=
  match heldCopy v i with
  | some e => some e
  | none => tget v.fetched i.toNat

/-- Counter values of the outstanding entries, oldest first. -/
def outstanding (v : Ring) : List Dword :=
  (List.range (cdiff (if v.st == .draining then v.drainTail else v.tail) v.head)).map (fun n => v.head + BitVec.ofNat 32 n)

/-- Whether submission fetch is stopped (01 R13; 02 R52, R70; 11 R395). -/
def fetchStopped (s : State) : Bool :=
  !s.dev.ready || !s.pipe.held.isEmpty || intakeHeld s ||
  s.pow.ph != .run

/-- Send the read of one entry (05 R198); a read is always of one entry of 64 bytes (log entry 85). -/
def readEntry (r : Nat) (i : Dword) (s : State) : State :=
  let v := ringOf r s
  emit (.hostRead (ringPort r s) (v.base + 64 * (i.toNat % ringSize v)) 64)
    (setRing r { v with reading := nins v.reading i.toNat } s)

/-- Read every outstanding entry that has no copy and no read on its way (05 R197, R212, R240). -/
def fetchRing (r : Nat) (s : State) : State :=
  let v := ringOf r s
  (outstanding v).foldl (fun s i =>
    if (entryOf v i).isSome || v.reading.contains i.toNat then s else readEntry r i s) s

/-- Fetch for a ring when fetch is not stopped. -/
def kickRing (r : Nat) (s : State) : State :=
  let v := ringOf r s
  if v.typ == 0 && (v.st == .active || v.st == .draining) && !fetchStopped s then fetchRing r s else s

/-- Fetch for every submission ring. -/
def kickFetch (s : State) : State :=
  if fetchStopped s then s else s.rings.foldl (fun s e => kickRing e.1 s) s

/-! ## Ring errors (05 R190, R201, R211) -/

/-- A ring enters ERROR (05 R211): fault message, RING_ERR and RING_ERROR event. -/
def ringError (r cause src : Nat) (s : State) : State :=
  let p := ringPort r s
  let s := updRing r (fun v => { v with st := .error, cause := cause }) s
  let s := updPort p (fun q => { q with errRing := r, errCause := cause, errValid := true }) s
  event 0x000D r cause (raise src 0x34 r s)

/-! ## Doorbells (05 R190 to R192) -/

/-- Count a stale tail or head. -/
def countStale (p : Nat) (s : State) : State := updPort p (fun q => { q with stale := sat32 q.stale 1 }) s
/-- Count a doorbell error. -/
def countDbError (p : Nat) (s : State) : State := updPort p (fun q => { q with dbErrors := sat32 q.dbErrors 1 }) s

/-- Apply a submission tail (05 R190); `cause` is the cause of a ring error it raises. -/
def applyTail (p r : Nat) (t : Dword) (cause : Nat) (s : State) : State :=
  let v := ringOf r s
  let size := ringSize v
  if size < cdiff t v.head then
    if cdiff v.tail t ≤ size then countStale p s
    else ringError r cause (0x020 + p) (countDbError p s)
  else if cdiff t v.head < cdiff v.tail v.head then countStale p s
  else kickRing r (setRing r { v with tail := t } s)

/-- The value that a doorbell write carries, if it writes bits [31:0] (05 R189). -/
def doorbellValue (w : DbWidth) (v : Word) : Option Dword :=
  match w with
  | .hi32 => none
  | _ => some (v.setWidth 32)

/-- A doorbell write to a submission ring (05 R189, R190, R192); one to a ring that is not ACTIVE is counted (R216), one outside the
port's range is not (log entry 85). -/
def sqDoorbell (p r : Nat) (w : DbWidth) (v : Word) (s : State) : State :=
  match doorbellValue w v with
  | none => s
  | some t =>
    if !ringIn p r s then s
    else match (ringOf r s).st with
      | .active => if (ringOf r s).typ == 0 then applyTail p r t 1 s else s
      | _ => countDbError p s

/-- A stashed entry cannot be read: its charge is released, and RING_ERR, an event and a message say so; the ring stays ACTIVE (05
R206; 14 R550). -/
def loseStashed (r : Nat) (s : State) : State :=
  let s := updRing r (fun v => { v with charge := v.charge - 1 }) s
  let s := updPort (ringPort r s) (fun q => { q with errRing := r, errCause := 4, errValid := true }) s
  event 0x000D r 4 (raise 0x026 0x31 r s)

/-- Whether a stashed entry cannot be read, and the state after: one on a page of a fenced channel can for as long as the channel
lets it, which is a free value (05 R206, 07 R551; log entry 80). -/
def stashLost (c : Cqe) (s : State) : Bool × State :=
  match c.page with
  | some p => if s.dev.dramFence.getLsbD (p % 16) then ((Config.freeWord s.free).getLsbD 0, nextFree s) else (false, s)
  | none => (false, s)

/-- Write stashed entries, oldest first, while the ring has room (05 R204, R206). -/
def drainStash : Nat → Nat → State → State
  | 0, _, s => s
  | n + 1, r, s =>
    let v := ringOf r s
    match v.stash with
    | [] => s
    | c :: rest =>
      if ringFull v || v.st != .active then s
      else
        let (lost, s) := stashLost c (setRing r { v with stash := rest } s)
        drainStash n r (if lost then loseStashed r s else writeCqe r c s)

/-- Apply a completion head (05 R191): freed room lets stashed entries and events in (R204, R205). -/
def applyHead (p r : Nat) (h : Dword) (s : State) : State :=
  let v := ringOf r s
  let size := ringSize v
  if cdiff h v.head ≤ cdiff v.tail v.head then
    let s := setRing r { v with head := h } s
    let s := drainStash 1048576 r s
    deliverEvents 17 p s
  else if cdiff v.head h ≤ size then countStale p s
  else ringError r 1 (0x020 + p) (countDbError p s)

/-- A doorbell write to a completion or async event ring. -/
def cqDoorbell (p r : Nat) (w : DbWidth) (v : Word) (s : State) : State :=
  match doorbellValue w v with
  | none => s
  | some h =>
    if !ringIn p r s then s
    else match (ringOf r s).st with
      | .active => if (ringOf r s).typ == 0 then s else applyHead p r h s
      | _ => countDbError p s

/-! ## Pushes (05 R195, R196) -/

/-- Count a write to BAR4 that was not accepted. -/
def countDiscard (p : Nat) (s : State) : State := updPort p (fun q => { q with pushDiscard := sat32 q.pushDiscard 1 }) s

/-- A write to BAR4 at an offset (05 R195, R196). -/
def pushWrite (p off : Nat) (data : List Byte) (s : State) : State :=
  let r := off / 128
  let slot := off / 64 % 2
  if off % 64 != 0 || data.length != 64 || !ringIn p r s then countDiscard p s
  else
    let v := ringOf r s
    if v.st != .active || v.typ != 0 || !v.pushEn then countDiscard p s
    else
      let e := BitVec.ofNat 32 (leAt data 4 4)
      let held := if slot = 1 then v.push1.isSome else v.push0.isSome
      if e == v.tail + 1 && slot == v.tail.toNat % 2 && !held && decide (cdiff e v.head ≤ ringSize v) then
        let v' := if slot = 1 then { v with push1 := some data, tail := e } else { v with push0 := some data, tail := e }
        updPort p (fun q => { q with pushAccept := sat32 q.pushAccept 1 }) (setRing r v' s)
      else countDiscard p (applyTail p r e 2 s)

/-! ## Drains (05 R212, R213) -/

/-- The end of a submission ring's drain (05 R212 step 3). -/
def drainDone (v : Ring) : Bool := v.st == .draining && v.head == v.drainTail && v.open_ == 0

/-- DRAIN_END: the push slots empty and the ring reports its next state. -/
def endDrain (r : Nat) (s : State) : State :=
  let v := ringOf r s
  if drainDone v then
    setRing r { v with st := v.drainTo, push0 := none, push1 := none, fetched := [], reading := [], marked := [] } s
  else s

/-- Start the drain of a submission ring (05 R212). -/
def startDrain (r : Nat) (dest : RingSt) (s : State) : State :=
  let v := ringOf r s
  if v.st == .idle then setRing r { v with st := dest } s
  else kickRing r (setRing r { v with st := .draining, drainTail := v.tail, drainTo := dest, cause := 0 } s)

/-- Events of an async event ring's stash queue become pending events, the later one's data standing (05 R213; 06 R242: SEQ is
free-running). -/
def stashToPending (p : Nat) (q : List Cqe) (s : State) : State :=
  q.foldl (fun s c =>
    if c.isEvent then
      updPort p (fun u =>
        let t := c.cid.toNat
        let e : PendEv := match tget u.evPend t with
          | none => { data := c.dw0, obj := c.obj, merged := c.status.toNat, seq := c.seq }
          | some o =>
            if (o.seq - c.seq).toNat < 2 ^ 31 then { o with merged := min (o.merged + 1 + c.status.toNat) 0xFFFF }
            else { data := c.dw0, obj := c.obj, merged := min (o.merged + 1 + c.status.toNat) 0xFFFF, seq := c.seq }
        { u with evPend := tset u.evPend t e }) s
    else s) s

/-- Reset or shutdown of a completion or async event ring (05 R213): its stash is discarded. Answers the number
discarded. -/
def dropCompletion (r : Nat) (dest : RingSt) (s : State) : Nat × State :=
  let v := ringOf r s
  let p := ringPort r s
  let n := v.stash.length
  let s := if v.typ = 2 then stashToPending p v.stash s else s
  let s := if v.typ = 2 && dest == .free then updPort p (fun q => { q with evRing := none }) s else s
  (n, setRing r { v with st := dest, stash := [], charge := v.charge - n, unsignalled := 0, cause := 0 } s)

/-! ## Creating rings (05 R178, R179, R211) -/

/-- The sum of the caps of all completion and async event rings (05 R179). -/
def capSum (s : State) : Nat := (s.rings.map (fun e => if e.2.typ = 0 then 0 else e.2.cap)).sum

/-- A ring from its descriptor (05 R178). -/
def ringOfDesc (d : List Byte) (s : State) : Ring :=
  let typ := byteAt d 9
  let bind := leAt d 12 4
  let cap := leAt d 20 4
  let w := byteAt d 24
  let init : Dword := BitVec.ofNat 32 (leAt d 16 4)
  { st := .active, typ := typ, base := leAt d 0 8, log2 := byteAt d 8, pushEn := bitN (leAt d 10 2) 0,
    bind := if typ = 0 then bind % 2 ^ 18 else 0,
    vector := if typ = 0 then 0 else bind % 2048, intEn := typ != 0 && bitN bind 31,
    cap := if typ = 0 then 0 else if cap = 0 then (prof s).cqCapDefault else cap,
    weight := if w = 0 then 1 else w, coalCount := byteAt d 25, coalTime := leAt d 26 2,
    init := init, head := init, tail := init }

/-- Reserved fields and bits of a descriptor are 0 and BASE is aligned (reason 0x0103); a field that is 0 for a ring's type counts as
reserved in it (log entry 85). -/
def descReservedOk (d : List Byte) : Bool :=
  let typ := byteAt d 9
  let bind := leAt d 12 4
  leAt d 0 8 % 4096 == 0 && decide (leAt d 10 2 ≤ 1) && (typ == 0 || leAt d 10 2 == 0) && leAt d 28 4 == 0 &&
  (if typ = 0 then decide (bind < 2 ^ 18) && leAt d 20 4 == 0 && leAt d 25 3 == 0
   else bind % 2 ^ 31 == bind % 2048 && byteAt d 24 == 0)

/-- LOG2_SIZE, TYPE, CAP, WEIGHT, COAL_COUNT and COAL_TIME in range (reason 0x0104). -/
def descRangeOk (d : List Byte) : Bool :=
  decide (4 ≤ byteAt d 8) && decide (byteAt d 8 ≤ 16) && decide (byteAt d 9 ≤ 2) && decide (leAt d 20 4 ≤ 65536) &&
  decide (byteAt d 24 ≤ 16) && decide (leAt d 26 2 ≤ 1023)

/-- The reason code of RING_CREATE's first failing check; none when the ring is made (05 R179). -/
def createReason (p r : Nat) (d : List Byte) (s : State) : Option Nat :=
  let v := ringOfDesc d s
  let cq := ringOf v.bind s
  if !ringIn p r s || r == ringFirst p s || r == ringFirst p s + 1 then some 0x0101
  else if (ringOf r s).st != .free then some 0x0102
  else if !descReservedOk d then some 0x0103
  else if !descRangeOk d then some 0x0104
  else if v.typ = 0 && !(ringIn p v.bind s && cq.st == .active && cq.typ == 1) then some 0x0105
  else if v.typ != 0 && decide (vectors p s ≤ v.vector) then some 0x0106
  else if v.typ != 0 && decide (1048576 < capSum s + v.cap) then some 0x0107
  else if v.typ = 2 && (getPort p s).evRing.isSome then some 0x0108
  else if v.typ = 2 && decide (v.cap < 64) then some 0x0109
  else none

/-- The ring is made (05 R211): an async event ring becomes the port's, and takes its pending events (R213). -/
def createRing (p r : Nat) (d : List Byte) (s : State) : State :=
  let v := ringOfDesc d s
  let s := setRing r v s
  if v.typ = 2 then deliverEvents 17 p (updPort p (fun q => { q with evRing := some r }) s) else s

/-- Whether every submission ring bound to a completion ring is IDLE or FREE (reason 0x010A). -/
def bindsIdle (r : Nat) (s : State) : Bool :=
  s.rings.all (fun e => !(e.2.typ == 0 && e.2.bind == r) || e.2.st == .idle || e.2.st == .free)

/-! ## Admin rings (05 R210, R215) -/

/-- Create a port's admin rings (05 R215): completions signal vector 0. -/
def createAdmin (p : Nat) (s : State) : State :=
  let q := getPort p s
  if q.adminDraining || q.sqLog2 < 4 || 12 < q.sqLog2 || q.cqLog2 < 4 || 12 < q.cqLog2 then
    setPort p { q with adminErr := true, en := false, enPending := false } s
  else
    let f := ringFirst p s
    let sq : Ring := { st := .active, typ := 0, base := q.adminSqBase, log2 := q.sqLog2, pushEn := q.pushEn, bind := f + 1 }
    let cq : Ring :=
      { st := .active, typ := 1, base := q.adminCqBase, log2 := q.cqLog2, intEn := true, cap := (prof s).cqCapDefault }
    setRing f sq (setRing (f + 1) cq (setPort p { q with en := true, enPending := false } s))

/-- A write to ADMIN_CTL (05 R215, 06 R218): an EN write before READY takes effect at READY. -/
def adminCtlWrite (p : Nat) (w : Word) (s : State) : State :=
  let q := getPort p s
  let en := w.getLsbD 0
  let q' := { q with pushEn := w.getLsbD 1, sqLog2 := fld w.toNat 7 4, cqLog2 := fld w.toNat 11 8 }
  if en && !q.en then
    if s.dev.ready then createAdmin p (setPort p q' s)
    else setPort p { q' with en := true, enPending := true } s
  else if !en && q.en then
    if q.enPending then setPort p { q' with en := false, enPending := false } s
    else
      let s := setPort p { q' with en := false, adminDraining := true } s
      startDrain (ringFirst p s) .free s
  else setPort p q' s

/-- The admin completion ring follows its submission ring to FREE (05 R215). -/
def endAdminDrain (p : Nat) (s : State) : State :=
  let f := ringFirst p s
  if (getPort p s).adminDraining && (ringOf f s).st == .free then
    let s := (dropCompletion (f + 1) .free s).2
    updPort p (fun q => { q with adminDraining := false }) s
  else s

/-! ## Interrupts (05 R207 to R209) -/

/-- COAL_TIME after the first unsignalled completion (05 R208). -/
def coalesce (r : Nat) (s : State) : State :=
  let v := ringOf r s
  if v.st == .active && v.typ != 0 && v.intEn && v.coalTime != 0 && v.unsignalled != 0 &&
      decide (v.firstAt + v.coalTime ≤ s.now) then
    signal (ringPort r s) v.vector (setRing r { v with unsignalled := 0 } s)
  else s

/-- Unmask a vector: a pending message is sent (05 R209). -/
def unmaskVector (p n : Nat) (s : State) : State :=
  let q := getPort p s
  let e := tgetD q.msix n {}
  if vectors p s ≤ n then s
  else
    let s := setPort p { q with msix := tset q.msix n { e with masked := false, pend := false } } s
    if e.pend then emit (.msix p n e.addr e.data) s else s

/-! ## FLR (05 R214) -/

/-- FLR or hot reset of a port's PF0: its ring contexts become FREE, the admin registers return to reset; begun
commands run on, their completions discarded. -/
def flrPort (p : Nat) (s : State) : State :=
  let mine (r : Nat) : Bool := ringIn p r s
  let q := getPort p s
  let evs := match q.evRing with
    | some r => (ringOf r s).stash
    | none => []
  let s := stashToPending p evs s
  let s := { s with rings := s.rings.filter (fun e => !mine e.1),
                    pipe.cmds := s.pipe.cmds.map (fun e => match e.2.src with
                      | .ring r => if mine r then (e.1, { e.2 with src := .gone }) else e
                      | _ => e) }
  updPort p (fun q => { q with
    adminSqBase := 0, adminCqBase := 0, en := false, pushEn := false, sqLog2 := 0, cqLog2 := 0, enPending := false,
    adminErr := false, adminDraining := false, ringSel := 0, evRing := none, lastRing := 0, turnLeft := 0, msix := [] }) s

/-! ## Fetch completions (05 R201, R212, 06 R240) -/

/-- Submission entries arrive, from a counter on. -/
def entriesArrive (r : Nat) (c : Dword) (es : List (List Byte)) (s : State) : State :=
  (es.zipIdx).foldl (fun s (e, n) =>
    let i := (c + BitVec.ofNat 32 n).toNat
    updRing r (fun v => if v.reading.contains i then
      { v with reading := v.reading.filter (· != i), fetched := tset v.fetched i (padTo 64 e) } else v) s) s

/-- A read of entries fails: in a drain the entry counts as read with CID 0; otherwise the ring enters ERROR with
cause FETCH. -/
def entriesFail (r : Nat) (c : Dword) (s : State) : State :=
  let v := ringOf r s
  if !v.reading.contains c.toNat then s
  else
    let v' := { v with reading := v.reading.filter (· != c.toNat), fetched := tset v.fetched c.toNat [] }
    let s := setRing r v' s
    let src := 0x022 + ringPort r s
    match v.st with
    | .draining => raise src 0x34 r s
    | .active => ringError r 3 src s
    | _ => s

end Sys2Proof.Machine
end

