-- ==== Sys2Proof/Machine/Sched.lean ====
section
/-! DEFINITION. Sys2Proof/Machine/Sched.lean: stripe operations: acceptance, placement on lanes and contexts
(01 R10 to R14), row order, scratch and staging reservations (03 R83, 01 R9). -/

namespace Sys2Proof.Machine

/-- An operation, if it runs. -/
def opOf (o : Nat) (s : State) : Option Op := tget s.pipe.ops o

/-- Change an operation. -/
def updOp (o : Nat) (f : Op → Op) (s : State) : State := { s with pipe.ops := tupd s.pipe.ops o f }

/-- A context, if it is occupied. -/
def ctxOf (c : Nat) (s : State) : Option Ctx := tget s.pipe.ctxs c

/-- Change a context. -/
def updCtx (c : Nat) (f : Ctx → Ctx) (s : State) : State := { s with pipe.ctxs := tupd s.pipe.ctxs c f }

/-- Lane of a context: lane j holds contexts 128j to 128j + 127 (03). -/
def laneOf (c : Nat) : Nat := c / 128

/-- Occupied contexts of a lane. -/
def laneOcc (j : Nat) (s : State) : Nat := (s.pipe.ctxs.filter (fun e => laneOf e.1 == j)).length

/-- Lanes that the throttle plan leaves: all, or those below its limit (13 R461). -/
def lanesAllowed (s : State) : Nat := s.dev.laneLimit

/-- Whether a lane is fenced or in block reset (01 R24, 14 R487). -/
def laneUnusable (j : Nat) (s : State) : Bool :=
  s.dev.laneFence.getLsbD j ||
  (match tget s.fc.resets j with | some b => b.endedAt.isNone | none => false) ||
  (List.range 4).all (fun i => s.dev.seqFence.getLsbD (4 * j + i))

/-- The one lane of FLOOR: the lowest-numbered unfenced one (01 R29). -/
def floorLane (s : State) : Nat := ((List.range 8).find? (fun j => !laneUnusable j s)).getD 0

/-- Whether the service level and the throttle plan let a lane be awake (01 R12, R29). -/
def laneMay (j : Nat) (s : State) : Bool :=
  !laneUnusable j s && (if atFloor s then j == floorLane s else decide (j < lanesAllowed s))

/-- The contexts that a lane may use: those of its unfenced cores, or at FLOOR contexts 0 to 7 of its
lowest-numbered unfenced core (03 R75). -/
def laneCtxs (j : Nat) (s : State) : List Nat :=
  let cores := ((List.range 4).map (fun i => 4 * j + i)).filter (fun k => !s.dev.seqFence.getLsbD k)
  if atFloor s then (cores.take 1).flatMap (fun k => (List.range 8).map (fun i => 32 * k + i))
  else cores.flatMap (fun k => (List.range 32).map (fun i => 32 * k + i))

/-- The lowest-numbered free context of a lane (log entry 12). -/
def freeCtx (j : Nat) (s : State) : Option Nat := (laneCtxs j s).find? (fun c => (ctxOf c s).isNone)

/-- The lane that intake chooses: awake, with a free context, fewest occupied contexts, lowest number
(01 R11). -/
def chooseLane (s : State) : Option Nat :=
  leastBy (fun j => laneOcc j s * 8 + j)
    ((List.range 8).filter (fun j => s.dev.laneAwake.getLsbD j && laneMay j s && (freeCtx j s).isSome))

/-- A gated lane that may be woken (01 R12). -/
def wakeable (s : State) : Option Nat :=
  (List.range 8).find? (fun j => !s.dev.laneAwake.getLsbD j && laneMay j s)

/-- Operations on a row of a layout that have not passed stage 9 (01 R14). -/
def rowOps (l row : Nat) (s : State) : List (Nat × Op) :=
  s.pipe.ops.filter (fun e => e.2.pool == l && e.2.row == row)

/-- The region of a row (07 R285), as pool × 2^48 + region. -/
def regionKey (l row : Nat) (s : State) : Nat := l * 2 ^ 48 + row / 2 ^ (tgetD s.jnl.shift l 6)

/-- Whether a row waits for resynchronisation: an open entry that no running context opened, or a marked
region under background resynchronisation (07 R289), or a pool whose marked regions are still to be read from the anchors
(R293, log entry 17). -/
def rowUnsure (l row : Nat) (s : State) : Bool :=
  s.jnl.restorePools.contains (l % 8) || s.jnl.replay.any (fun i => let e := tgetD s.jnl.own i {}
    e.st == 1 && e.pool == l && e.row == row) ||
  (match tget s.jnl.resync (regionKey l row s) with
   | some next => decide (next ≤ row) && !s.jnl.resyncDone.contains (l * 2 ^ 48 + row)
   | none => false)

/-- Key of a row slice. -/
def sliceKey (l row sl : Nat) : Nat := (l * 2 ^ 48 + row) * 16 + sl

/-- Whether one control core runs every duty and stripe operations wait on the plan engine: it runs first (01 R16). -/
def planFirst (s : State) : Bool :=
  !s.dev.duty.isEmpty && s.dev.duty.all (fun e => e.2 == tgetD s.dev.duty 0 0) &&
  s.pipe.ctxs.any (fun e => e.2.inflight.any (fun f => f.2.schedWait.isSome))

/-- Whether the module's own operation `op` is one that operation `w` of a command stands waiting for before stage 4 (01 R14; log
entry 57): an eviction's destage for one that waits for a way (07 R259); a destage of its sectors, or of what its line's eviction
writes, for a staged write (07 R261, R262, R265); a destage of what the command waits to see clean (03 R116; 06 R228 to R230); the
check, or the rebuilding, that such a destage waits for (07 R264; 08 R310). -/
def madeFor (op w : Op) (s : State) : Bool :=
  let destage := (op.kind == 1 || op.kind == 2) && !op.hostpost
  let unblocks := match tget s.cache.retry (sliceKey w.pool w.row w.slice) with
    | some r => r.beyond || (r.patrol && op.why == .check && op.slice == w.slice)
    | none => false
  let mine (x : Cmd) : Bool := op.secs.any (fun k =>
    let (line, sec) := lineOf op.pool op.row (k / 16) (16 * op.slice + k % 16) s
    x.waitVault.contains (op.pool, line, sec) ||
    (match tget op.lines line with
     | some y => x.waitSecs.contains (y, sec)
     | none => false))
  op.cmd.isNone &&
  (match w.st, op.why with
   | .alloc _, .evict _ => true
   | .placed, why => (match w.cmd.bind (fun c => tget s.pipe.cmds c) with
     | none => false
     | some x =>
       (x.ph == .staged && (unblocks || (destage && ((op.slice == w.slice && op.secs.any (fun k => w.secs.contains k)) ||
         (match why with
          | .evict y => w.lines.any (fun e => e.2 == y)
          | _ => false))))) ||
       (x.ph == .waiting && (unblocks || (destage && mine x))))
   | _, _ => false)

/-- Whether a RESYNC operation is one that operation `w` waits for (07 R289): it has not started, its row is not yet made whole, and
it is no READ without an erased position. -/
def resyncFor (op w : Op) (s : State) : Bool :=
  op.kind == 7 && w.kind != 7 && rowUnsure op.pool op.row s &&
  (w.kind != 0 || (erasedSpan w.pool w.row w.slice w.first w.count s ||| w.extra) != 0) &&
  (match w.st with
   | .placed => true
   | .ready => true
   | .scratch => true
   | .alloc _ => true
   | _ => false)

/-- Whether an operation is first on its row in the order of acceptance (01 R14). Work that the module makes for an operation that
waits for it goes before that operation, and before what waits behind it (log entry 57). -/
def firstOnRow (o : Op) (s : State) : Bool :=
  (rowOps o.pool o.row s).all (fun e => decide (o.seq ≤ e.2.seq) ||
    (rowOps o.pool o.row s).any (fun w => decide (w.2.seq ≤ e.2.seq) && (madeFor o w.2 s || resyncFor o w.2 s)))

/-- Whether an operation of a row is between stage 5 and stage 9 (01 R14). -/
def rowBusy (o : Nat) (l row : Nat) (s : State) : Bool :=
  s.pipe.ops.any (fun e => e.1 != o && e.2.pool == l && e.2.row == row && (e.2.st == .program || e.2.st == .builtin))

/-- An operation that leaves stage 3 goes on when it is first on its row. -/
def rowTurn (o : Nat) (s : State) : State :=
  { s with pipe.ops := tupd s.pipe.ops o (fun x => { x with rowOk := x.rowOk || firstOnRow x s }) }

/-- Place an operation on a lane and context, or hold it and wake a lane (01 R10 to R13). -/
def placeOp (o : Nat) (s : State) : State :=
  match opOf o s with
  | none => s
  | some op =>
    match (chooseLane s).bind (fun j => freeCtx j s) with
    | some c =>
      { s with pipe := { s.pipe with
        ops := tset s.pipe.ops o { op with ctx := some c, st := if op.again then .ready else .placed, again := false, rowOk := op.rowOk || firstOnRow op s },
        ctxs := tset s.pipe.ctxs c { op := o },
        held := s.pipe.held.filter (· != o) } }
    | none =>
      let s := { s with pipe.held := if s.pipe.held.contains o then s.pipe.held else s.pipe.held ++ [o] }
      match wakeable s with
      | some j => if (tget s.dev.waking j).isSome then s
                  else { s with dev.waking := tset s.dev.waking j s.now }
      | none => s

/-- Lanes below MIN_LANES are kept awake: those that are gated get a wake request (01 R19, R35). -/
def keepLanes (s : State) : State :=
  (List.range s.dev.minLanes).foldl (fun s j =>
    if s.dev.laneAwake.getLsbD j || laneUnusable j s || (tget s.dev.waking j).isSome then s
    else { s with dev.waking := tset s.dev.waking j s.now }) s

/-- Place held operations, oldest first, until one must wait again; none while intake holds new operations. -/
def placeHeld (s : State) : State :=
  if intakeHeld s then s
  else s.pipe.held.foldl (fun s o => if s.pipe.held.head? == some o then placeOp o s else s) s

/-- Accept a new operation: it takes its place in the row order and is placed, behind operations already
held (01 R13, R14); it is held while intake holds (02 R52, R70). -/
def newOp (op : Op) (s : State) : State :=
  let o := s.pipe.nextOp
  let s := { s with pipe := { s.pipe with
    nextOp := o + 1, nextSeq := s.pipe.nextSeq + 1,
    ops := tset s.pipe.ops o { op with seq := s.pipe.nextSeq, st := .held } } }
  if s.pipe.held.isEmpty && !intakeHeld s then placeOp o s else { s with pipe.held := s.pipe.held ++ [o] }

/-- The number that the next operation takes. -/
def nextOpId (s : State) : Nat := s.pipe.nextOp

/-- An outstanding member command's owner after context `c` gave up its instructions in flight: it goes on, and
its result reaches no context (03 R110; 1,024 is no context's number). -/
def orphan (c : Nat) : MOwner → MOwner
  | .rd x k p fr n => if x = c then .other else .rd x k p fr n
  | .rdTag x k p fr n i => if x = c then .other else .rdTag x k p fr n i
  | .wr x k p fr n t g => if x = c then .wr 1024 k p fr n t g else .wr x k p fr n t g
  | .rmwRd x k p a i g => if x = c then .rmwRd 1024 k p a i g else .rmwRd x k p a i g
  | .rmwWr x k p a => if x = c then .rmwWr 1024 k p a else .rmwWr x k p a
  | o => o

/-- A context gives up its instructions in flight. -/
def dropInflight (c : Nat) (s : State) : State :=
  { s with mem.cmds := s.mem.cmds.map (fun e => (e.1, { e.2 with owner := orphan c e.2.owner })),
           mem.tagQueue := s.mem.tagQueue.map (fun j => if j.ctx = c then { j with ctx := 1024 } else j) }

/-- Remove an operation that has passed stage 10 and free its context; its lane's idle time starts when it
was the last (01 R19). -/
def freeOp (o : Nat) (s : State) : State :=
  match opOf o s with
  | none => s
  | some op =>
    let s := { s with pipe := { s.pipe with
      ops := tdel s.pipe.ops o, held := s.pipe.held.filter (· != o),
      waitScratch := s.pipe.waitScratch.filter (· != o) } }
    match op.ctx with
    | none => s
    | some c =>
      let s := dropInflight c { s with pipe.ctxs := tdel s.pipe.ctxs c }
      if laneOcc (laneOf c) s = 0 then { s with dev.laneIdle := tset s.dev.laneIdle (laneOf c) s.now } else s

/-- Scratch sectors reserved on a lane (03 R83). -/
def scratchUsed (j : Nat) (s : State) : Nat :=
  (s.pipe.ctxs.map (fun e => if laneOf e.1 = j then e.2.scratch else 0)).sum

/-- Staging sectors reserved on a lane (01 R9). -/
def stagingUsed (j : Nat) (s : State) : Nat :=
  (s.pipe.ops.map (fun e => match e.2.ctx with
    | some c => if laneOf c = j then e.2.staging else 0
    | none => 0)).sum

/-- Whether operations of a lane wait for a reservation before operation `o` (03 R83). One that was granted its reservation before
has its place already. -/
def waitsBefore (o j : Nat) (s : State) : Bool :=
  !((opOf o s).map (·.granted)).getD false &&
  (s.pipe.waitScratch.takeWhile (· != o)).any (fun x =>
    match (opOf x s).bind (·.ctx) with
    | some c => laneOf c == j
    | none => false)

/-- An operation waits at stage 4 for a reservation, in the order in which operations reached stage 4 first (03 R83, 01 R9): one
that was granted one before stands before those that were not. -/
def joinWait (o : Nat) (s : State) : State :=
  let had (x : Nat) : Bool := ((opOf x s).map (·.granted)).getD false
  let q := s.pipe.waitScratch
  let q' := if q.contains o then q
    else if had o then q.takeWhile had ++ [o] ++ q.dropWhile had
    else q ++ [o]
  { updOp o (fun x => { x with st := .scratch }) s with pipe.waitScratch := q' }

/-- Whether an operation that has started stage 5 has not passed stage 9 (02 R52, R70). Log entry 75. -/
def opsStarted (s : State) : Bool := s.pipe.ops.any (fun e => e.2.st == .program || e.2.st == .builtin)

end Sys2Proof.Machine
end

