-- ==== Sys2Proof/Machine/Cache.lean ====
section
/-! DEFINITION. Sys2Proof/Machine/Cache.lean: the operations of the write-back cache (07): replacement,
eviction, dirty sectors and their shadow, destage grouping, lost writes and lost extents. -/

namespace Sys2Proof.Machine

/-- R379 for an own pool: outside PAIRED and RESYNC, no cached write completes and no journal entry opens until 20 ms
after the entry into SUSPECT, and only while this module's beats landed on two arbiters within the last 10 ms. -/
def ackHold (l : Nat) (s : State) : Bool :=
  let p := l % 8
  s.led.paired && (poolEnt p s).dual && !mirroring s &&
  !(decide (s.pair.suspectAt + 20000 ≤ s.now) &&
    decide (2 ≤ ((List.range 3).filter (fun a => match tget s.pair.beatAt (p * 4 + a) with
      | some t => decide (s.now ≤ t + 10000)
      | none => false)).length))

/-- Whether this module owns a pool (10 R363); an unpaired module owns every pool. -/
def owns (l : Nat) (s : State) : Bool :=
  !s.led.paired || ((poolRec l s).owner == s.led.cohort && !s.pair.detached.contains (l % 8))

/-- Whether work on a pool starts: this module owns it, and no transfer of it runs (10 R383). -/
def works (l : Nat) (s : State) : Bool :=
  owns l s && (tget s.pair.acquiring (l % 8)).isNone && !(s.pair.xfer != .none && s.pair.xferCur == l % 8)

/-! ## Pseudo-LRU (07 R258) -/

/-- The tree after way `w` is used: at each of the four levels the node points away from `w`. Node numbers
are 1 to 15, the children of n being 2n and 2n + 1; a bit of 0 points to the lower half. -/
def plruTouch (t : BitVec 15) (w : Nat) : BitVec 15 :=
  (List.range 4).foldl (fun t k =>
    let node := 2 ^ k + w / 2 ^ (4 - k)
    let upper := (w / 2 ^ (3 - k)) % 2 = 1
    let m : BitVec 15 := BitVec.ofNat 15 (2 ^ (node - 1))
    if upper then t &&& ~~~ m else t ||| m) t

/-- The least recently used way by the tree among the eligible ones: at each node the tree's half, or the
other half when the tree's half has none (log entry 8). -/
def plruPick : Nat → Nat → BitVec 15 → List Nat → Option Nat
  | 0, node, _, el => if el.contains (node - 16) then some (node - 16) else none
  | n + 1, node, t, el =>
    let lo := 2 * node
    let hi := 2 * node + 1
    let inHalf (c : Nat) : Bool := el.any (fun w => (w + 16) / 2 ^ n = c)
    let up := t.getLsbD (node - 1)
    let c := if up then (if inHalf hi then hi else lo) else (if inHalf lo then lo else hi)
    plruPick n c t el

/-- Mark a way most recently used. -/
def touch (x : Nat) (s : State) : State :=
  { s with cache.plru := tmod s.cache.plru (x / 16) 0 (fun t => plruTouch t (x % 16)) }

/-! ## Ways -/

/-- The way mask of a requester class (07 R255). -/
def waysOf (cls : Nat) (s : State) : BitVec 16 := if cls = 15 then 0xFFFF else tgetD s.cache.ways cls 0xFFFF

/-- The class of a volume (07 R254). -/
def classOf (v : Nat) (s : State) : Nat := tgetD s.cache.volClass v 0

/-- Whether a running operation holds a way: an allocation or the sectors of its HOST handle. -/
def wayHeld (x : Nat) (s : State) : Bool := s.pipe.ops.any (fun e => e.2.lines.any (fun y => y.2 == x))

/-- The way that a shadow entry keeps for a line not yet restored (11 R411). -/
def shadowWay (l line : Nat) (s : State) : Option Nat :=
  (s.cache.shadow.find? (fun e => e.2.pool == l && e.2.lineHi == line / 65536 && e.1 / 16 == setOf l line)).map (·.1)

/-- Where a line is, or is being filled, or is to be restored. -/
def findWay (l line : Nat) (s : State) : Option Nat :=
  match findLine l line s with
  | some x => some x
  | none => match s.pipe.ops.findSome? (fun e => if e.2.pool == l then tget e.2.lines line else none) with
    | some x => some x
    | none => shadowWay l line s

/-- Evictions in progress (07 R264). -/
def evictions (s : State) : Nat := s.cache.evict.length

/-- The outcome of an allocation (07 R258). -/
inductive Alloc where
  | way (x : Nat)
  | evict (x : Nat)
  | wait
  deriving DecidableEq, Repr

/-- Slices of the dirty sectors of one line. -/
def lineSlices (x : Nat) (s : State) : List (Nat × Nat × Nat) :=
  let t := tagAt x s
  ((secsOf (t.valid &&& t.dirty)).map (fun sec =>
    let (row, _, ssec) := secOfLine t.pool (tagLine x t) sec s
    (t.pool, row, ssec / 16))).eraseDups

/-- Whether a slice's destage may be made now (07 R264, 08 R310). -/
def retryOk (l row sl : Nat) (s : State) : Bool :=
  match tget s.cache.retry (sliceKey l row sl) with
  | none => true
  | some r => decide (r.due ≤ s.now) &&
      !(r.patrol && s.mem.checks.contains (l, row, sl)) &&
      !(r.beyond && decide ((geomOf l s).m < pop (erasedMask l row s)))

/-- Choose a way for a line of a set (07 R256, R258, R264); none that a line still in the vault keeps (11 R411). -/
def chooseWay (cls set : Nat) (s : State) : Alloc :=
  let mask := waysOf cls s
  let cand := (List.range 16).filter (fun w => mask.getLsbD w)
  match cand.find? (fun w => !(tagAt (set * 16 + w) s).holds && !wayHeld (set * 16 + w) s &&
      (tget s.cache.shadow (set * 16 + w)).isNone) with
  | some w => .way (set * 16 + w)
  | none =>
    let repl := cand.filter (fun w =>
      !s.cache.lock.getLsbD w && !(tagAt (set * 16 + w) s).evicting && !wayHeld (set * 16 + w) s)
    let clean := repl.filter (fun w => (tagAt (set * 16 + w) s).dirty == 0 && (tget s.cache.shadow (set * 16 + w)).isNone)
    let tree := tgetD s.cache.plru set 0
    match plruPick 4 1 tree clean with
    | some w => .way (set * 16 + w)
    | none =>
      let dirty := repl.filter (fun w =>
        let t := tagAt (set * 16 + w) s
        t.valid &&& t.dirty != 0 && owns t.pool s && unrestoredMask t.pool (tagLine (set * 16 + w) t) s == 0 &&
        (lineSlices (set * 16 + w) s).all (fun (l, row, sl) => retryOk l row sl s))
      match plruPick 4 1 tree dirty with
      | some w => if 8192 ≤ evictions s then .wait else .evict (set * 16 + w)
      | none => .wait

/-! ## Dirty sectors and the shadow (07 R271) -/

/-- The shadow entry of a way follows its tag's dirty sectors (valid and dirty). -/
def syncShadow (x : Nat) (s : State) : State :=
  let t := tagAt x s
  let d := (t.valid &&& t.dirty) ||| unrestoredMask t.pool (tagLine x t) s
  if d == 0 then { s with cache.shadow := tdel s.cache.shadow x }
  else { s with cache.shadow := tset s.cache.shadow x { dirty := d, lineHi := t.lineHi, pool := t.pool } }

/-- A pool of a pair image. -/
def pairPool (p : Nat) (s : State) : Bool := s.led.paired && (poolEnt (p % 8) s).dual

/-- Whether commits of a pool's record are joint: this module owns a pair pool, and the pair is PAIRED (10 R372, R373). -/
def jointPool (p : Nat) (s : State) : Bool := pairUp s && pairPool p s && owns p s

/-- A list that the pool's record carries has changed: `kickAgain` commits it (10 R375). -/
def noteShare (l : Nat) (s : State) : State :=
  if jointPool l s then { s with pair.again := nins s.pair.again (l % 8) } else s

/-- The lost-write list drops a sector that is written or accepted (06 R227, 07 R295). -/
def dropLostW (l line sec : Nat) (s : State) : State :=
  let k := l * 2 ^ 43 + line
  match tget s.cache.lostW k with
  | none => s
  | some r =>
    let m := r.mask &&& ~~~ bit16 sec
    noteShare l (if m == 0 then { s with cache.lostW := tdel s.cache.lostW k }
      else { s with cache.lostW := tset s.cache.lostW k { r with mask := m } })

/-- Key of a sector's dirty time. -/
def secKey (x sec : Nat) : Nat := x * 16 + sec

/-- The index log is freed when no entry is live (11 R401). -/
def freeIndex (s : State) : State :=
  if s.pow.index.all (fun e => e.dead) then { s with pow.index := [] } else s

/-- What waits for a sector in the vault goes on waiting for it in its way (06 R228; 07 R266). -/
def vaultMoved (l line x sec : Nat) (s : State) : State :=
  let here (v : Nat × Nat × Nat) : Bool := v == (l, line, sec)
  let moved (e : Nat × Cmd) : Nat × Cmd :=
    if e.2.waitVault.any here then
      (e.1, { e.2 with waitVault := e.2.waitVault.filter (fun v => !here v), waitSecs := e.2.waitSecs ++ [(x, sec)] })
    else e
  let s := if s.cache.invVault.any here then
      { s with cache.invVault := s.cache.invVault.filter (fun v => !here v), cache.invWait := s.cache.invWait ++ [(x, sec)] }
    else s
  { s with pipe.cmds := s.pipe.cmds.map moved }

/-- A restored sector is installed dirty in a way, which becomes most recently used (11 R411; 07 R258). -/
def installRestored (l line x sec : Nat) (d : List Byte) (s : State) : State :=
  let t := tagAt x s
  let b := bit16 sec
  let s := setCacheSec x sec d s
  let s := setTag x { t with valid := t.valid ||| b, dirty := t.dirty ||| b, lineHi := line / 65536, pool := l } s
  let done (e : IdxEnt) : IdxEnt :=
    if e.pool = l ∧ e.line = line ∧ e.mask.getLsbD sec = true then { e with restored := e.restored ||| b } else e
  vaultMoved l line x sec (touch x { s with cache.since := tset s.cache.since (secKey x sec) s.now, pow.index := s.pow.index.map done })

/-- The sector of an index entry in the vault (11 R398: ascending from VSEC). -/
def vaultSec (e : IdxEnt) (sec : Nat) (s : State) : Option (List Byte) :=
  tget s.pow.nand (e.half * 2 ^ 24 + e.vsec + ((secsOf e.mask).filter (· < sec)).length)

/-- A sector was destaged straight from the vault, or is lost there: its entry no longer names dirty data, and is DEAD
once no sector of it does (11 R399, R415). -/
def settleVault (l line sec : Nat) (s : State) : State :=
  match idxInForce s l line sec with
  | none => s
  | some f =>
    let pay (e : IdxEnt) : IdxEnt :=
      if e.pool = l ∧ e.line = line ∧ e.half = f.half ∧ e.vsec = f.vsec then
        let r := e.restored ||| bit16 sec
        { e with restored := r, dead := e.dead || e.mask &&& ~~~ r == 0 }
      else e
    let less (e : Nat × Shadow) : Nat × Shadow :=
      if e.2.pool = l ∧ tagLine e.1 { lineHi := e.2.lineHi, pool := e.2.pool } = line then
        (e.1, { e.2 with dirty := e.2.dirty &&& ~~~ bit16 sec }) else e
    freeIndex { s with
      pow.index := s.pow.index.map pay,
      cache.shadow := (s.cache.shadow.map less).filter (fun e => e.2.dirty != 0),
      cache.invVault := s.cache.invVault.filter (· != (l, line, sec)),
      pipe.cmds := s.pipe.cmds.map (fun e => (e.1, { e.2 with waitVault := e.2.waitVault.filter (· != (l, line, sec)) })) }

/-- Capacity of the lost-write list. -/
def lostWMax : Nat := 1048576

/-- The event of a lost sector of a record; at boot, and at a power loss, it waits for READY (07 R294; 11 R409). -/
def lostEvent (k vol : Nat) (s : State) : State :=
  if s.pow.ph = .boot ∨ s.pow.ph = .flush then { s with pow.bootLost := tmod s.pow.bootLost k 0 (· + 1) } else event 0x0005 vol 1 s

/-- A loss that a full list cannot name, in the line at set × 16 + way (R294). -/
def unnamedLost (x : Nat) (s : State) : State :=
  raiseFree 0x093 0x3D (recEvent 0x093 0x0010 x [] { s with cache.unnamedLoss := true, led.unnamedLoss := true })

/-- A sector of a line is lost: it joins the list, or cannot be named when the list is full (07 R294). -/
def addLostW (l line x sec reason : Nat) (s : State) : State :=
  let k := l * 2 ^ 43 + line
  let (row, _, _) := secOfLine l line sec s
  let vol := (volOfRow l row s).getD 0
  match tget s.cache.lostW k with
  | some r =>
    let r' := { r with mask := r.mask ||| bit16 sec, reason := reason, opSeconds := opSeconds s }
    noteShare l (lostEvent k vol { s with cache.lostW := tset s.cache.lostW k r' })
  | none =>
    if s.cache.lostW.length < lostWMax then
      let r : LostW := { mask := bit16 sec, volume := vol, reason := reason, opSeconds := opSeconds s }
      noteShare l (lostEvent k vol { s with cache.lostW := tset s.cache.lostW k r })
    else
      unnamedLost x s

/-- A sector's index entry is marked DEAD (11 R399); sectors of the entry not yet restored are restored first into
the same way, since the entry no longer names current content. While the cache is out of service nothing is installed (01 R26): the
sector alone is settled. -/
def killVault (l line x sec : Nat) (s : State) : State :=
  match idxInForce s l line sec with
  | none => s
  | some e =>
    if e.dead then s
    else if !cacheOn s then settleVault l line sec s
    else
      let s := ((secsOf e.mask).filter (fun i => i != sec && unrestored l line i s)).foldl (fun s i =>
        match vaultSec e i s with
        | some d =>
          if (Config.freeWord s.free).getLsbD i then settleVault l line i (addLostW l line x i 3 (nextFree s))
          else installRestored l line x i d (nextFree s)
        | none => s) s
      let kill (y : IdxEnt) : IdxEnt :=
        if y.pool = l ∧ y.line = line ∧ y.half = e.half ∧ y.vsec = e.vsec then
          { y with dead := true, restored := y.restored ||| bit16 sec } else y
      freeIndex (vaultMoved l line x sec { s with pow.index := s.pow.index.map kill })

/-- A vault sector paged into lane buffer SRAM (11 R415). -/
def pagedSec (l line sec : Nat) (s : State) : Option (List Byte) :=
  (idxInForce s l line sec).bind (fun e =>
    tget s.pow.pagedData (e.half * 2 ^ 24 + e.vsec + ((secsOf e.mask).filter (· < sec)).length))

/-- The paged data of a sector that is still in the vault. -/
def vaultData (l line sec : Nat) (s : State) : Option (List Byte) := if unrestored l line sec s then pagedSec l line sec s else none

/-- Host data becomes dirty in a sector: DRAM, tag, then shadow (07 R271, R280 steps 3 to 5). -/
def storeDirty (l line x sec : Nat) (d : List Byte) (s : State) : State :=
  let s := killVault l line x sec s
  let t := tagAt x s
  let b := bit16 sec
  let s := setCacheSec x sec d s
  let s := setTag x { t with valid := t.valid ||| b, dirty := t.dirty ||| b, lineHi := line / 65536, pool := l } s
  let s := { s with cache.since := if t.valid.getLsbD sec && t.dirty.getLsbD sec then s.cache.since
                                   else tset s.cache.since (secKey x sec) s.now }
  dropLostW l line sec (syncShadow x (touch x s))

/-- Data of a write-through or FUA write goes in transit; the shadow is not written (07 R281). -/
def storeTransit (l line x sec : Nat) (d : List Byte) (s : State) : State :=
  let t := tagAt x s
  let b := bit16 sec
  let s := setCacheSec x sec d s
  touch x (setTag x { t with valid := t.valid &&& ~~~ b, dirty := t.dirty ||| b, lineHi := line / 65536, pool := l } s)

/-- Read data is installed clean (03 R105). -/
def storeClean (l line x sec : Nat) (d : List Byte) (s : State) : State :=
  let t := tagAt x s
  let b := bit16 sec
  let s := setCacheSec x sec d s
  touch x (setTag x { t with valid := t.valid ||| b, dirty := t.dirty &&& ~~~ b, lineHi := line / 65536, pool := l } s)

/-- A destaged sector becomes clean: tag first, shadow after (07 R271). -/
def makeClean (x sec : Nat) (s : State) : State :=
  let s := killVault (tagAt x s).pool (tagLine x (tagAt x s)) x sec s
  let t := tagAt x s
  let b := bit16 sec
  let s := setTag x { t with valid := t.valid ||| b, dirty := t.dirty &&& ~~~ b } s
  syncShadow x { s with cache.since := tdel s.cache.since (secKey x sec) }

/-- A sector is set invalid (07 R266, R269; 06 R226). -/
def dropSec (x sec : Nat) (s : State) : State :=
  let s := killVault (tagAt x s).pool (tagLine x (tagAt x s)) x sec s
  let t := tagAt x s
  let b := bit16 sec
  let s := setTag x { t with valid := t.valid &&& ~~~ b, dirty := t.dirty &&& ~~~ b } s
  syncShadow x { s with cache.since := tdel s.cache.since (secKey x sec) }

/-! ## Lost writes (07 R294) -/

/-- Whether a sector is a lost write not yet accepted (07 R295). -/
def isLostW (l line sec : Nat) (s : State) : Bool :=
  match tget s.cache.lostW (l * 2 ^ 43 + line) with
  | some r => r.mask.getLsbD sec
  | none => false

/-! ## Lost extents (08 R319, R552) -/

/-- Capacity of the lost-extent list and the part kept for splits (08 R321). -/
def lostEMax : Nat := 2097152

/-- Whether new lost extents may be made (08 R321). -/
def lostERoom (s : State) : Bool := decide (65536 ≤ lostEMax - s.mem.lostE.length)

/-- Order of the list: pool, row, slice, first sector. -/
def lostEKey (e : LostE) : Nat := ((e.pool * 2 ^ 48 + e.row) * 16 + e.slice) * 16 + e.first

/-- Insert a record in list order. -/
def insLostE : List LostE → LostE → List LostE
  | [], e => [e]
  | a :: l, e => if lostEKey e < lostEKey a then e :: a :: l else a :: insLostE l e

/-- Add a lost extent, extending a record of the same pool, row, slice and positions that it overlaps or
abuts (08 R319); an ACCEPTED record stays as it is (R320, log entry 69). -/
def addLostE (l row sl : Nat) (positions : Word) (first count reason : Nat) (s : State) : State :=
  let same (e : LostE) : Bool := !e.accepted && e.pool == l && e.row == row && e.slice == sl && e.positions == positions &&
    first ≤ e.first + e.count && e.first ≤ first + count
  match s.mem.lostE.find? same with
  | some e =>
    let lo := min e.first first
    let hi := max (e.first + e.count) (first + count)
    let e' := { e with first := lo, count := hi - lo, opSeconds := opSeconds s }
    { s with mem.lostE := insLostE (s.mem.lostE.filter (· != e)) e' }
  | none =>
    let e : LostE :=
      { pool := l, row := row, slice := sl, positions := positions, first := first, count := count,
        reason := reason, volume := (volOfRow l row s).getD 0, opSeconds := opSeconds s }
    event 0x0004 (l % 8) 1 { s with mem.lostE := insLostE s.mem.lostE e }

/-- The records that describe a record less one sector (08 R552): the other positions over the whole span,
and the position before and after the sector. -/
def splitLostE (e : LostE) (pos i : Nat) : List LostE :=
  let others := e.positions &&& ~~~ bit pos
  (if others == 0 then [] else [{ e with positions := others }]) ++
  (if e.first < i then [{ e with positions := bit pos, count := i - e.first }] else []) ++
  (if i + 1 < e.first + e.count then
     [{ e with positions := bit pos, first := i + 1, count := e.first + e.count - (i + 1) }] else [])

/-- The record of a list that holds a sector. -/
def lostEIn (l row pos ssec : Nat) (es : List LostE) : Option LostE :=
  es.find? (fun e => e.pool == l && e.row == row && e.slice == ssec / 16 && e.positions.getLsbD pos &&
    e.first ≤ ssec % 16 && ssec % 16 < e.first + e.count)

/-- The record that holds a sector. -/
def lostEOf (l row pos ssec : Nat) (s : State) : Option LostE := lostEIn l row pos ssec s.mem.lostE

/-- A list without a sector (08 R552). -/
def leaveE (l row pos ssec : Nat) (es : List LostE) : List LostE :=
  match lostEIn l row pos ssec es with
  | none => es
  | some e => (splitLostE e pos (ssec % 16)).foldl insLostE (es.filter (· != e))

/-- A sector leaves its record (08 R552); the state is unchanged when the list has no room for the split. -/
def dropLostE (l row pos ssec : Nat) (s : State) : State :=
  let es := leaveE l row pos ssec s.mem.lostE
  if lostEMax < es.length then s else { s with mem.lostE := es }

/-- A sector of a record whose position has no home stays recorded with ACCEPTED set (08 R320). -/
def acceptLostE (l row pos ssec : Nat) (s : State) : State :=
  match lostEOf l row pos ssec s with
  | none => s
  | some e =>
    if e.accepted then s
    else
      let parts := splitLostE e pos (ssec % 16) ++
        [{ e with positions := bit pos, first := ssec % 16, count := 1, accepted := true }]
      if lostEMax < s.mem.lostE.length - 1 + parts.length then s
      else { s with mem.lostE := parts.foldl insLostE (s.mem.lostE.filter (· != e)) }

/-! ## Spans and groups (03 R77, 07 R279) -/

/-- Maximal runs of consecutive numbers of a rising list, as (first, count). -/
def runs : List Nat → List (Nat × Nat)
  | [] => []
  | a :: l => match runs l with
    | [] => [(a, 1)]
    | (b, n) :: r => if b = a + 1 then (a, n + 1) :: r else (a, 1) :: (b, n) :: r

/-- Add a position with a span to the groups of identical spans. -/
def addGroup : List (Nat × Nat × Word) → Nat → Nat → Nat → List (Nat × Nat × Word)
  | [], f, c, p => [(f, c, bit p)]
  | (f', c', m) :: g, f, c, p =>
    if f = f' && c = c' then (f', c', m ||| bit p) :: g else (f', c', m) :: addGroup g f c p

/-- The lowest position of a mask. -/
def lowPos (m : Word) : Nat := (bitsOf m).headD 64

/-- Insert a group by first sector, then lowest position (07 R279). -/
def insGroup : List (Nat × Nat × Word) → (Nat × Nat × Word) → List (Nat × Nat × Word)
  | [], e => [e]
  | a :: g, e =>
    if e.1 * 64 + lowPos e.2.2 < a.1 * 64 + lowPos a.2.2 then e :: a :: g else a :: insGroup g e

/-- Operations that destage the given sectors of a row slice: one for each set of positions whose runs are
identical (07 R279). `secs` are (position, sector of the slice). -/
def destageGroups (secs : List (Nat × Nat)) : List (Nat × Nat × Word) :=
  let poss := (secs.map (·.1)).foldl nins []
  let gs := poss.foldl (fun g p =>
    (runs ((secs.filter (fun x => x.1 == p)).map (·.2) |>.foldl nins [])).foldl
      (fun g r => addGroup g r.1 r.2 p) g) []
  gs.foldl insGroup []

/-- Whether a running operation already destages a sector. -/
def underDestage (l row pos sl i : Nat) (s : State) : Bool :=
  s.pipe.ops.any (fun e => e.2.pool == l && e.2.row == row && e.2.slice == sl &&
    (e.2.kind == 1 || e.2.kind == 2) && e.2.data.getLsbD pos && e.2.first ≤ i && i < e.2.first + e.2.count)

/-- Dirty sectors of a row slice, as (position, sector of the slice), not yet under destage. -/
def dirtyOf (l row sl : Nat) (s : State) : List (Nat × Nat) :=
  let g := geomOf l s
  (List.range g.k).flatMap (fun p => ((List.range g.sliceLen).filter (fun i =>
    let (line, sec) := lineOf l row p (16 * sl + i) s
    match findLine l line s with
    | none => false
    | some x =>
      let t := tagAt x s
      t.valid.getLsbD sec && t.dirty.getLsbD sec && !underDestage l row p sl i s)).map (fun i => (p, i)))

/-- The lines a group of positions and span touches, with their ways. -/
def groupLines (l row sl first count : Nat) (m : Word) (s : State) : Tbl Nat :=
  (bitsOf m).foldl (fun t p => (List.range count).foldl (fun t i =>
    let (line, _) := lineOf l row p (16 * sl + first + i) s
    match findWay l line s with
    | none => t
    | some x => tset t line x) t) []

/-- Position × 16 + sector for every sector of a group. -/
def groupSecs (first count : Nat) (m : Word) : List Nat :=
  (bitsOf m).flatMap (fun p => (List.range count).map (fun i => p * 16 + first + i))

/-- DESTAGE_FULL when the group is the whole slice at every data position (07 R279). -/
def destageKind (l first count : Nat) (m : Word) (s : State) : Nat :=
  let g := geomOf l s
  if m == g.dataMask && first == 0 && count == g.sliceLen then 2 else 1

/-- Make the destage operations of a list of sectors of a row slice. -/
def destageSecs (l row sl : Nat) (secs : List (Nat × Nat)) (why : Why) (s : State) : State :=
  (destageGroups secs).foldl (fun s (f, c, m) =>
    newOp { kind := destageKind l f c m s, pool := l, row := row, slice := sl, first := f, count := c, data := m,
            why := why, lines := groupLines l row sl f c m s, secs := groupSecs f c m } s) s

/-- Destage the dirty sectors of a row slice (07 R279), when its pool is owned and no retry holds it. -/
def destageSlice (l row sl : Nat) (why : Why) (s : State) : State :=
  if works l s && retryOk l row sl s then destageSecs l row sl (dirtyOf l row sl s) why s else s

/-- Row and slice of every dirty sector, as keys of slices without repeats, of a layout table. -/
def dirtySlices (s : State) : List (Nat × Nat × Nat) :=
  (s.cache.tags.flatMap (fun (x, t) =>
    (secsOf (t.valid &&& t.dirty)).map (fun sec =>
      let (row, _, ssec) := secOfLine t.pool (tagLine x t) sec s
      (t.pool, row, ssec / 16)))).eraseDups

/-- Dirty sectors of own pools that may be destaged now and are not yet, oldest first, as (since, layout, row, slice). -/
def oldestDirty (s : State) : List (Nat × Nat × Nat × Nat) :=
  let all := s.cache.tags.flatMap (fun (x, t) => (secsOf (t.valid &&& t.dirty)).filterMap (fun sec =>
    let (row, pos, ss) := secOfLine t.pool (tagLine x t) sec s
    if works t.pool s && retryOk t.pool row (ss / 16) s && !underDestage t.pool row pos (ss / 16) (ss % 16) s
    then some (tgetD s.cache.since (secKey x sec) 0, t.pool, row, ss / 16) else none))
  all.foldl (fun acc e => (acc.takeWhile (fun a => a.1 ≤ e.1)) ++ [e] ++ (acc.dropWhile (fun a => a.1 ≤ e.1))) []

/-- Sectors that are being destaged. -/
def beingDestaged (s : State) : Nat :=
  (s.cache.tags.map (fun (x, t) => ((secsOf (t.valid &&& t.dirty)).filter (fun sec =>
    let (row, pos, ss) := secOfLine t.pool (tagLine x t) sec s
    underDestage t.pool row pos (ss / 16) (ss % 16) s)).length)).sum

/-- Destage slices, oldest first. -/
def destageOldest (l : List (Nat × Nat × Nat × Nat)) (s : State) : State :=
  ((l.map (·.2)).eraseDups).foldl (fun s (l, row, sl) => destageSlice l row sl .destage s) s

/-- Destage everything dirty, oldest first (07 R279; 01 R27). -/
def destageAll (s : State) : State := destageOldest (oldestDirty s) s

/-- Trigger 3 of R279 and the rule of R277: destage the oldest dirty sectors until a number of dirty sectors is left. -/
def destageDown (dest : Nat) (s : State) : State :=
  destageOldest ((oldestDirty s).take (dirtySectors s - beingDestaged s - dest)) s

/-! ## Eviction (07 R264) -/

/-- The dirty sectors of one line in a slice, as (position, sector of the slice). -/
def lineDirty (x l row sl : Nat) (s : State) : List (Nat × Nat) :=
  let t := tagAt x s
  ((secsOf (t.valid &&& t.dirty)).map (fun sec => secOfLine t.pool (tagLine x t) sec s)).filterMap
    (fun (r, p, ss) => if t.pool == l && r == row && ss / 16 == sl && !underDestage l row p sl (ss % 16) s
                       then some (p, ss % 16) else none)

/-- Begin the eviction of a line with dirty sectors for an operation that waits (07 R264 steps 1 and 2). -/
def beginEvict (x : Nat) (waiter : Option Nat) (s : State) : State :=
  let first := nextOpId s
  let s1 := setTag x { tagAt x s with evicting := true } s
  let s2 := (lineSlices x s).foldl (fun st (l, row, sl) =>
    destageSecs l row sl (lineDirty x l row sl s) (.evict x) st) s1
  let e : Evict := { ops := (List.range (nextOpId s2 - first)).map (· + first), waiter := waiter }
  { s2 with cache.evict := tset s2.cache.evict x e }

/-- Take a way for a line: an operation's allocation (07 R258). Answers the way, or none when it must wait. -/
def takeWay (cls l line : Nat) (op : Option Nat) (s : State) : Option Nat × State :=
  match chooseWay cls (setOf l line) s with
  | .way x => (some x, setTag x {} s)
  | .evict x => (none, beginEvict x op s)
  | .wait => (none, s)

/-! ## The cap (07 R275 to R278) -/

/-- Sectors that begun cached writes have claimed. -/
def claims (s : State) : Nat := (s.pipe.cmds.map (fun e => e.2.claim)).sum

/-- Whether a write with `n` new dirty sectors would exceed the cap (07 R277, 10 R370). -/
def overCap (n : Nat) (s : State) : Bool :=
  let total := dirtySectors s + claims s + n
  decide (capSectors s < total) ||
  (mirroring s && decide (min (capSectors s) (s.pair.peerCap * 65536) ≤ dirtySectors s))

/-- Whether 07 R278 makes a write that dirties a clean line write-through. -/
def linesFull (s : State) : Bool := decide (lostWMax - s.cache.lostW.length ≤ dirtyLines s)

/-- CACHE_STATUS.CAP_REACHED: a further new dirty sector would be written through (07 R277, R278). -/
def capReached (s : State) : Bool := overCap 1 s || linesFull s

/-! ## Service level (01 R25 to R28) -/

/-- Whether every unit is unfenced (01 R25 FULL). -/
def noFence (s : State) : Bool :=
  s.dev.laneFence == 0 && s.dev.ctrlFence == 0 && s.dev.dramFence == 0 && s.dev.groupFence == 0 && !s.dev.vaultFence &&
  !s.dev.pairFence && !s.dev.tagFence && s.dev.seqFence == 0 && s.dev.hostFence == 0

/-- Whether the units of the floor set remain (01 R28): a control core, a lane with a sequencer core, a host lane. The MRAM and
the firmware were there at boot. -/
def floorSet (s : State) : Bool :=
  s.dev.ctrlFence != 0xF && (List.range 8).any (fun j => !laneUnusable j s) && s.dev.hostFence != 0xFFFF

/-- The service level that the rules give now (01 R25, R26, R28); log entry 40. Without the floor set no level is given. -/
def levelNow (s : State) : Nat :=
  if !s.dev.ready then 0
  else if !floorSet s then s.dev.level.toNat
  else if s.dev.dramFence == 0xFFFF then 4
  else if s.dev.dramFence != 0 || s.dev.tagFence || s.dev.vaultFence || s.cache.capUnits == 0 then 3
  else if noFence s then 1
  else 2

/-- Sectors of own pools that are still in the vault, as (layout, line, sector). -/
def inVault (s : State) : List (Nat × Nat × Nat) :=
  (s.pow.index.flatMap (fun e => if owns e.pool s then
    ((secsOf e.mask).filter (fun i => unrestored e.pool e.line i s)).map (fun i => (e.pool, e.line, i)) else [])).eraseDups

/-- Whether a dirty sector of an own pool, in the cache or still in the vault, is still to be written back before a cached level is
left (01 R27). One whose row has more than m erasures cannot be (08 R310). -/
def dirtyToLeave (s : State) : Bool :=
  let stays (l row sl : Nat) : Bool :=
    (tgetD s.cache.retry (sliceKey l row sl) {}).beyond && decide ((geomOf l s).m < pop (erasedMask l row s))
  (dirtySlices s).any (fun (l, row, sl) => owns l s && !stays l row sl) ||
  (inVault s).any (fun (l, line, sec) => let (row, _, ss) := secOfLine l line sec s; !stays l row (ss / 16))

/-- The service level changes, by event (01 R25; 06 R244). A cached level is left for WRITE_THROUGH or FLOOR once every dirty
line that can be read is written back (01 R27). -/
def relevel (s : State) : State :=
  let n := levelNow s
  let was := s.dev.level.toNat
  if n = was then s
  else if (was = 1 || was = 2) && 3 ≤ n && dirtyToLeave s then destageAll s
  else event 0x000B 0 n { s with dev.level := BitVec.ofNat 3 n }

end Sys2Proof.Machine
end

