-- ==== Sys2Proof/Machine/PairBase.lean ====
section
/-! DEFINITION. Sys2Proof/Machine/PairBase.lean: joint commits as the initiator starts them, joint quiesces, arbiters
(10 R363 to R366, R372 to R374). -/

namespace Sys2Proof.Machine

/-- The slot state codes of 08 R298. -/
def SlotSt.code : SlotSt → Nat
  | .absent => 0
  | .online => 2
  | .suspect => 3
  | .failed => 4
  | .rebuilding => 5
  | .retiring => 6
  | .retired => 7

/-- The slot state of a code. -/
def slotStOf (c : Nat) : SlotSt :=
  match c with
  | 2 => .online
  | 3 => .suspect
  | 4 => .failed
  | 5 => .rebuilding
  | 6 => .retiring
  | 7 => .retired
  | _ => .absent

/-- The initiator stages a shared record and proposes it (10 R372 step 1). -/
def propose (c : JointC) (s : State) : State :=
  sendPair (.ledgerPrepare c.r) { s with pair.joint := s.pair.joint ++ [c] }

/-- What the pool record says of the pool's slots. -/
def poolShared (p : Nat) (s : State) : SharedRec :=
  let r := poolRec p s
  .poolRecord (Fin.ofNat 8 p)
    { slots := r.slots.map (fun (n, x) => (n, x.st.code, x.reason, x.labelGen, x.restore)), arbiters := r.arbs,
      moves := r.relocs.map (fun (k, x) => { cell := k, fromSlot := x.fromSlot, fromB := x.fromB, toSlot := x.toSlot, toB := x.toB,
                                             settled := x.settled, reason := x.reason, boundary := x.boundary, back := x.back }),
      lost := s.mem.lostE.filter (fun e => e.pool % 8 == p), patrol := r.patrol.resume,
      reshape := (r.reshape.st, r.reshape.b, r.reshape.src, r.reshape.rows), target := r.reshape.hash,
      window := r.reshape.window.filter (·.saved),
      preps := r.slots.filterMap (fun (n, x) => x.prep.map (fun c => (n, c))),
      lostW := (s.cache.lostW.filter (fun e => e.1 / 2 ^ 43 % 8 == p)).map (fun e =>
        (e.1, e.2.mask, e.2.volume, e.2.reason, e.2.opSeconds)) }

/-- Take what the owner's pool records say of a pool, its slots apart. -/
def takeShare (p : Nat) (r : PoolShare) (s : State) : State :=
  let (st, b, src, rows) := r.reshape
  let move (m : MoveShare) : Reloc :=
    { fromSlot := m.fromSlot, fromB := m.fromB, toSlot := m.toSlot, toB := m.toB, settled := m.settled, reason := m.reason,
      boundary := m.boundary, next := m.boundary, back := m.back }
  let s := updPool p (fun x => { x with
    slots := x.slots.map (fun (n, y) => (n, { y with prep := (r.preps.find? (fun z => z.1 == n)).map (·.2) })), arbs := r.arbiters, patrol := r.patrol, relocs := r.moves.map (fun m => (m.cell, move m)),
    reshape := { st := st, b := b, src := src, rows := rows, hash := r.target, window := r.window.filter (fun w => decide (w.index < b)), next := b } }) s
  { s with mem.lostE := (s.mem.lostE.filter (fun e => e.pool % 8 != p) ++ r.lost).foldl insLostE [],
           cache.lostW := r.lostW.foldl (fun t (k, m, v, why, at_) => tset t k { mask := m, volume := v, reason := why, opSeconds := at_ })
             (s.cache.lostW.filter (fun e => e.1 / 2 ^ 43 % 8 != p)) }

/-- Whether a joint commit of a pool's record has not landed, or one is still to be started. -/
def poolPending (p : Nat) (s : State) : Bool :=
  s.pair.again.contains (p % 8) || s.pair.joint.any (fun c => match c.r with
    | .poolRecord q _ => q.val == p % 8
    | _ => false)

/-- A commit of a pool record as it stands: joint while the pair is PAIRED, one commit after the other, else alone (10 R372,
R373). -/
def poolCommit (p : Nat) (s : State) : State :=
  if !jointPool p s then ledCommit s
  else if poolPending p s then { s with pair.again := nins s.pair.again (p % 8) }
  else propose { r := poolShared (p % 8) s } s

/-- A commit of what a pool record is to be, given by `f`; `land` is what follows at the commit point. A joint one is proposed when no
other of the pool is in flight, and lands by `landPool` (10 R372). -/
def futureCommit (p : Nat) (f land : State → State) (s : State) : State :=
  if !jointPool p s then ledCommit (land s)
  else if poolPending p s then s
  else propose { r := poolShared (p % 8) (f s) } s

/-- The commits of pools that have landed or failed: what changed since is committed now. -/
def kickAgain (s : State) : State :=
  s.pair.again.foldl (fun s p =>
    let t := { s with pair.again := s.pair.again.filter (· != p) }
    if poolPending p t then s else poolCommit p t) s

/-- Whether a joint commit that would move a reshape's boundary is in flight (09 R350, R354). -/
def reshapeLands (p : Nat) (s : State) : Bool :=
  s.pair.joint.any (fun c => match c.r with
    | .poolRecord q r => q.val == p % 8 && (decide ((poolRec q.val s).reshape.b < r.reshape.2.1) ||
        (r.reshape.1 == 3 && (poolRec q.val s).reshape.st == 2))
    | _ => false)

/-- Whether a row lies between a committed boundary and the one that a joint commit in flight brings: what would write it waits for
the landing (log entry 84). -/
def rowLands (l row : Nat) (s : State) : Bool :=
  let (band, e) := bandEntry l row s
  s.pair.joint.any (fun c => match c.r with
    | .poolRecord q r => q.val == l &&
        (r.moves.any (fun m => m.cell / 64 == e && decide (band < m.boundary) && (match relocOf l e (m.cell % 64) s with
          | some x => decide (x.boundary ≤ band) && !x.settled
          | none => false)) ||
         r.slots.any (fun (n, _, _, _, b) => decide (band < b) && (match tget (poolRec l s).slots n with
          | some x => x.st == .rebuilding && decide (x.restore ≤ band)
          | none => false)))
    | _ => false)

/-- The pool's lost-extent list has changed: the peer answers for it too (10 R375). -/
def shareLost (p : Nat) (s : State) : State := if jointPool p s then poolCommit p s else s

/-- The same, where the list may have changed from one state to the next. -/
def lostChanged (p : Nat) (was s : State) : State := if s.mem.lostE == was.mem.lostE then s else shareLost p s

/-- Member group of a slot's member. -/
def slotGroup (p n : Nat) (s : State) : Nat := portGroup ((slotRec p n s).port.getD 0)

/-- Fill a list of arbiters to three: lowest ONLINE slot of a group not yet used, else lowest ONLINE slot (R366). -/
def fillArbs : Nat → Nat → List Nat → State → List Nat
  | 0, _, l, _ => l
  | k + 1, p, l, s =>
    if 3 ≤ l.length then l
    else
      let c := ((poolRec p s).slots.filter (fun e => e.2.st == .online && !l.contains e.1)).map (·.1)
      match c.find? (fun n => !(l.map (fun m => slotGroup p m s)).contains (slotGroup p n s)) with
      | some n => fillArbs k p (l ++ [n]) s
      | none => match c with
        | n :: _ => fillArbs k p (l ++ [n]) s
        | [] => l

/-- The owner chooses arbiters at first, and replacements while PAIRED (R366). -/
def fixArbs (p : Nat) (s : State) : State :=
  if !pairPool p s || !owns p s then s
  else
    let old := (poolRec p s).arbs
    if old.isEmpty then
      let l := fillArbs 3 p [] s
      if l.length = 3 then updPool p (fun r => { r with arbs := l }) s else s
    else if pairUp s then
      let l := fillArbs 3 p (old.filter (fun n => (slotRec p n s).st == .online)) s
      if l.length = 3 then updPool p (fun r => { r with arbs := l }) s else s
    else s

/-! ## Joint quiesce (10 R374) -/

/-- Change the joint quiesce. -/
def updJq (f : JointQ → JointQ) (s : State) : State := { s with pair.jq := s.pair.jq.map f }

/-- Whether the quiesce of a record is that of 02 R70, which lasts at most 1 s; that of R52 has no bound. -/
def boundedQuiesce : SharedRec → Bool
  | .planImage _ => false
  | _ => true

/-- Begin a joint quiesce as the initiator (step 1); one joint quiesce runs after the other (log entry 84). -/
def startQuiesce (r : SharedRec) (c : Option Nat) (s : State) : State :=
  let b := boundedQuiesce r
  if s.pair.jq.isSome then { s with pair.jqWait := s.pair.jqWait ++ [(r, c)] }
  else sendPair (.quiesce b)
    { s with pair.jq := some { r := some r, cmd := c, since := s.now, bounded := b }, plan.jointHold := true }

/-- A joint quiesce has ended: the next change that waits begins its own, or is refused where the pair is no longer PAIRED (R373). -/
def nextJoint (s : State) : State :=
  if pairUp s then match s.pair.jqWait with
    | [] => s
    | (r, c) :: rest => startQuiesce r c { s with pair.jqWait := rest }
  else s.pair.jqWait.foldl (fun s (_, c) => match c with
    | some k => finishCmd k 0x0202 0 s
    | none => s) { s with pair.jqWait := [] }

/-- This module's started operations are done (step 2). -/
def quiesceOwn (s : State) : State :=
  match s.pair.jq with
  | none => s
  | some q => if q.ownDone then s else sendPair .quiesceDone (updJq (fun q => { q with ownDone := true }) s)

/-- The joint quiesce goes on by itself: own operations done, then, on the initiator, the joint commit (steps 2
and 3). -/
def kickJoint (s : State) : State :=
  let s := if !opsStarted s then quiesceOwn s else s
  if planFirst s then s else match s.pair.jq with
  | none => s
  | some q => match q.r with
    | some r => if q.ownDone && q.peerDone && !q.proposed then
        propose { r := r, cmd := q.cmd, quiesced := true } (updJq (fun q => { q with proposed := true }) s)
      else s
    | none => s

/-- Both modules have applied the change: intake resumes and the waiting operation completes (step 5). -/
def endJoint (s : State) : State :=
  match s.pair.jq with
  | none => s
  | some q =>
    if !q.ownApplied || !q.peerApplied then s
    else
      let s := { s with pair.jq := none, plan.jointHold := false }
      nextJoint (placeHeld (match q.cmd with
        | some c => finishCmd c 0 0 s
        | none => s))

/-- This module has applied the change (step 4). -/
def jointApplied (s : State) : State :=
  match s.pair.jq with
  | none => s
  | some q => if q.ownApplied then s
    else endJoint (sendPair .quiesceDone (updJq (fun q => { q with ownApplied := true }) s))

/-- The change of a joint quiesce has committed here. It is applied at the switch of 02 R52 or the quiesce of R70; a record
that changes nothing in force here is applied at once. -/
def jointCommitted (s : State) : State :=
  let s := updJq (fun q => { q with committed := true }) s
  if s.plan.switching || s.plan.quiesceSince.isSome then s else jointApplied s

/-- Whether a record commits at a joint quiesce on this module: the one that the peer's QUIESCE announced. -/
def jointRecord (r : SharedRec) (s : State) : Bool :=
  match r, s.pair.jq with
  | .planImage _, some q => q.r.isNone && !q.bounded
  | .profile _ _, some q => q.r.isNone && q.bounded
  | .profileInForce _, some q => q.r.isNone && q.bounded
  | _, _ => false

/-! ## Transfers (10 R383) -/

/-- This module's reservation key (R364). -/
def ownKey (s : State) : Word := BitVec.ofNat 64 (s.led.cohort % 2 ^ 18 + s.pair.beat.toNat * 2 ^ 32)

/-- The peer's reference key of a pool (R378, R381): as first read on an arbiter of it, else of another pool, else as the peer registers
at first (R364). Log entry 33. -/
def peerKey (p : Nat) (s : State) : Word :=
  match (s.pair.peerKeys.find? (fun e => e.1 / 4 == p)).or s.pair.peerKeys.head? with
  | some (_, k, _) => k
  | none => BitVec.ofNat 64 (s.led.peer % 2 ^ 18 + 2 ^ 32)

/-- Operations of a pool that have started. -/
def poolBusy (p : Nat) (s : State) : Bool :=
  s.pipe.ops.any (fun e => e.2.pool % 8 == p && e.2.st != .held && e.2.st != .parked)

end Sys2Proof.Machine
end

