-- ==== Sys2Proof/Machine/Member.lean ====
section
/-! DEFINITION. Sys2Proof/Machine/Member.lean: commands to members and what comes back (04 R139 to R142, 08
R306 to R308), slot states (08 R301), member labels (04 R163, R164), the stripe journal and its regions
(07 R282 to R292). -/

namespace Sys2Proof.Machine

/-! ## Commands to members -/

/-- The source of a member port's fault messages (14 R477). -/
def portSrc (q : Nat) : Nat := 0x100 + q % 128

/-- A member port. -/
def mport (n : Nat) (s : State) : MPort := tgetD s.mem.ports n {}

/-- Change a member port. -/
def updMport (n : Nat) (f : MPort → MPort) (s : State) : State :=
  { s with mem.ports := tmod s.mem.ports n {} f }

/-- Send one command to a member; it takes the next tag and the latency values in force (02 R70, 08 R306). After a
FAREWELL none is issued (10 R380). -/
def sendMember (port : Nat) (slot : Option (Nat × Nat)) (owner : MOwner) (r : MReq) (s : State) : State :=
  if s.pair.farewell then s else
  let tag := s.mem.nextTag
  let (w, lba, n) := match r with
    | .read lba n => (false, lba, n)
    | .write lba n .. => (true, lba, n)
    | .deallocate lba n => (true, lba, n)
    | .writeZeroes lba n => (true, lba, n)
    | .health => (false, 0, 0)
    | .endurance => (false, 0, 0)
    | .hostId _ => (false, 0, 0)
    | .join _ => (false, 0, 0)
    | .register _ => (false, 0, 0)
    | .acquire _ => (false, 0, 0)
    | .preempt .. => (false, 0, 0)
    | .release _ => (false, 0, 0)
    | .report => (false, 0, 0)
  let c : MCmd := { port := port, slot := slot, write := w, lba := lba, count := n, owner := owner, issued := s.now,
                    suspectMs := (prof s).suspectLatency, failMs := (prof s).failLatency, hedgeMs := (prof s).hedgeDelay }
  let s := { s with mem.cmds := tset s.mem.cmds tag c, mem.nextTag := tag + 1 }
  emitMember port tag r (updMport port (fun p => { p with lastUse := s.now }) s)

/-- A member of a pair pool that this module finds or takes gets its Host Identifier and its reservation key; the owner of a new
member reserves it, Write Exclusive (10 R364, R365). -/
def joinMember (p n q : Nat) (take : Bool) (s : State) : State :=
  if !pairPool p s then s
  else
    let s := sendMember q (some (p, n)) .other (.hostId (s.led.cohort % 2 ^ 18)) s
    let s := sendMember q (some (p, n)) .other (.join (ownKey s)) s
    if take then sendMember q (some (p, n)) (.resv p n) (.acquire (ownKey s)) { s with pair.acquiring := tmod s.pair.acquiring p 0 (· + 1) }
    else s

/-- Blocks as a member of a pool FORMAT sends and takes them (04 R139): FORMAT 1 has extended LBA data, 4,096 bytes and then the
tag of each block. -/
def blocksOf (fmt : Nat) (data : List Byte) (tags : List Word) : List Byte :=
  if fmt = 1 then (tags.zipIdx).flatMap (fun (t, i) => padTo 4096 (slice data (4096 * i) 4096) ++ leBytes 8 t.toNat) else data

/-- The separate metadata buffer, which FORMAT 0 has. -/
def metaBuffer (fmt : Nat) (tags : List Word) : List Word := if fmt = 0 then tags else []

/-- The data of `n` blocks that a member returned. -/
def blockData (fmt n : Nat) (d : List Byte) : List Byte :=
  if fmt = 1 then (List.range n).flatMap (fun i => padTo 4096 (slice d (4104 * i) 4096)) else d

/-- The tags of `n` blocks that a member returned. -/
def blockTags (fmt n : Nat) (d : List Byte) (tags : List Word) : List Word :=
  if fmt = 1 then (List.range n).map (fun i => BitVec.ofNat 64 (leAt d (4104 * i + 4096) 8)) else tags

/-- A write of whole pages that carry no tags: Force Unit Access, zero metadata on a 4096+8 member (04 R163, R164; 07 R290). -/
def pageWrite (l lba : Nat) (d : List Byte) (s : State) : MReq :=
  let f := formatOf l s
  let n := d.length / 4096
  .write lba n true (blocksOf f d (List.replicate n 0)) (metaBuffer f (List.replicate n 0))

/-- Where the sectors of a span at a position lie: sector of the span, slot, LBA, tag page and index. -/
def spanAddrs (l row pos sl first count : Nat) (s : State) : List (Nat × Nat × Nat × Option (Nat × Nat)) :=
  (List.range count).map (fun i =>
    let (slot, page) := pageOf l row pos (16 * sl + first + i) s
    let (lba, t) := lbaOf l page s
    (i, slot, lba, t))

/-- A run of sectors that one command carries: first sector of the span, count, slot, LBA, tag page. -/
structure Run where
  fr : Nat
  n : Nat
  slot : Nat
  lba : Nat
  tag : Option (Nat × Nat)
  deriving DecidableEq, Repr

/-- Where a write of an operation goes: a REBUILD writes the position it rebuilds to the TO strip of its cell
(03 R96, 04 Moving a cell), every other write the present home. -/
def writeAddrs (op : Op) (pos first count : Nat) (s : State) : List (Nat × Nat × Nat × Option (Nat × Nat)) :=
  match op.why with
  | .cell e p =>
    if p = pos ∧ op.rebuild.getLsbD pos then
      match relocOf op.pool e p s with
      | some r =>
        let g := geomOf op.pool s
        let (band, _) := bandEntry op.pool op.row s
        (List.range count).map (fun i =>
          let (lba, t) := lbaOf op.pool ((band * g.w + r.toB) * g.ss + 16 * op.slice + first + i) s
          (i, r.toSlot, lba, t))
      | none => spanAddrs op.pool op.row pos op.slice first count s
    else spanAddrs op.pool op.row pos op.slice first count s
  | .home =>
    let g := geomOf op.pool s
    let (band, e) := bandEntry op.pool op.row s
    let (slot, bs) := lookupHome op.pool e pos band s
    (List.range count).map (fun i =>
      let (lba, t) := lbaOf op.pool ((band * g.w + bs) * g.ss + 16 * op.slice + first + i) s
      (i, slot, lba, t))
  | _ => spanAddrs op.pool op.row pos op.slice first count s

/-- Join the addresses of a span into runs: consecutive LBAs of one slot within one tag group (04 R140). -/
def joinRuns : List (Nat × Nat × Nat × Option (Nat × Nat)) → List Run
  | [] => []
  | (i, slot, lba, t) :: l => match joinRuns l with
    | [] => [{ fr := i, n := 1, slot := slot, lba := lba, tag := t }]
    | r :: rs =>
      if r.slot = slot && r.lba = lba + 1 && r.fr = i + 1 && r.tag.map (·.1) = t.map (·.1) then
        { fr := i, n := r.n + 1, slot := slot, lba := lba, tag := t } :: rs
      else { fr := i, n := 1, slot := slot, lba := lba, tag := t } :: r :: rs

/-- Whether the module may send data commands to the member of a slot: it is serving and the pool is owned. -/
def slotServes (l slot : Nat) (s : State) : Option Nat :=
  let r := slotRec l slot s
  match r.st with
  | .online | .suspect | .rebuilding | .retiring => if owns l s then r.port else none
  | _ => none

/-- An instruction in flight of a context. -/
def inflightOf (c k : Nat) (s : State) : Option Inflight := (ctxOf c s).bind (fun x => tget x.inflight k)

/-- Change an instruction in flight. -/
def updInflight (c k : Nat) (f : Inflight → Inflight) (s : State) : State :=
  updCtx c (fun x => { x with inflight := tupd x.inflight k f }) s

/-- Change one position's job. -/
def updJob (c k pos : Nat) (f : Job → Job) (s : State) : State :=
  updInflight c k (fun i => { i with jobs := tmod i.jobs pos {} f }) s

/-- Put a sector into the handle that an instruction writes. -/
def putHSec (c h pos i : Nat) (f : HSec → HSec) (s : State) : State :=
  updCtx c (fun x => { x with handles := tupd x.handles h (fun hd =>
    { hd with secs := tmod hd.secs (pos * 16 + i) {} f }) }) s

/-- Whether a READ fills a sector of its HOST handle: it was not valid at the cache probe (03 R87). -/
def fills (op : Op) (hd : Handle) (pos i : Nat) : Bool :=
  if op.kind = 0 && hd.kind == .host then op.secs.contains (pos * 16 + i) else true

/-- Count a member command of a cell (04 R157, R159): 32-bit saturating counters, which FLOOR does not have and a target layout of
a reshape does not use. -/
def countCell (l row pos : Nat) (write : Bool) (s : State) : State :=
  if 8 ≤ l || atFloor s then s
  else
    let k := cellKey (bandEntry l row s).2 pos
    updPool l (fun r => if write then { r with writes := tmod r.writes k 0 (fun x => sat32 x 1) }
                        else { r with reads := tmod r.reads k 0 (fun x => sat32 x 1) }) s

/-- Target rows that hold the data of a source row. -/
def targetsOf (p row : Nat) (s : State) : List Nat :=
  match volOfRow p row s with
  | none => []
  | some v => match tget (tab s).vols v with
    | none => []
    | some e =>
      let gs := geomOf p s
      let gt := geomOf (p + 8) s
      let lo := (row - e.startRow) * (gs.k * gs.ss)
      let hi := min e.sectors (lo + gs.k * gs.ss)
      ((List.range (hi - lo)).map (fun i => volStart v e (p + 8) s + (lo + i) / (gt.k * gt.ss))).eraseDups

/-- A write of a source row between a reshape's boundary and its frontier marks the target rows to be done again (09 R351). -/
def markReshape (op : Op) (s : State) : State :=
  match (if op.pool < 8 then walking op.pool s else none) with
  | none => s
  | some r =>
    let order := walkRows op.pool s
    let again := (targetsOf op.pool op.row s).filter (fun t => let n := order.idxOf t; decide (r.b ≤ n) && decide (n < r.next))
    updPool op.pool (fun x => { x with reshape := { x.reshape with remark := again.foldl nins x.reshape.remark } }) s

/-- A write of a row that a mover has done above its boundary marks it to be done again (04 R149, 08 R325); a mover's own
writes do not. -/
def markMovers (op : Op) (s : State) : State :=
  let own (w : Why) : Bool := op.why == w
  updPool op.pool (fun r => { r with
    relocs := r.relocs.map (fun (k, m) => (k, if m.window.contains op.row && !own (.cell (k / 64) (k % 64)) then
      { m with remark := nins m.remark op.row } else m)),
    walks := r.walks.map (fun (k, m) => (k, if m.window.contains op.row && !own (.restore k) then
      { m with remark := nins m.remark op.row } else m)) }) (markReshape op s)

/-- Issue the reads of one position of an MRD (03 R94): known-zero sectors are supplied as zeroes (08 R317), a
slot that does not serve fails the position. -/
def startRead (c k h pos : Nat) (op : Op) (first count : Nat) (s : State) : State :=
  let addrs := spanAddrs op.pool op.row pos op.slice first count s
  let isZero (a : Nat × Nat × Nat × Option (Nat × Nat)) : Bool :=
    knownZero op.pool op.row pos (16 * op.slice + first + a.1) s
  let hd := ((ctxOf c s).map (fun x => tgetD x.handles h {})).getD {}
  let s := ((addrs.filter isZero).filter (fun a => fills op hd pos (first + a.1))).foldl (fun s a =>
    putHSec c h pos (first + a.1) (fun x => { x with data := zeroSector, tag := 0, tagBad := false }) s) s
  let rs := joinRuns (addrs.filter (fun a => !isZero a))
  let s := updJob c k pos (fun j => j) s
  rs.foldl (fun s r =>
    match slotServes op.pool r.slot s with
    | none => updJob c k pos (fun j => { j with fail := true }) s
    | some port =>
      let sr := some (op.pool % 8, r.slot)
      let s := sendMember port sr (.rd c k pos (first + r.fr) r.n) (.read r.lba r.n) (countCell op.pool op.row pos false s)
      let s := updJob c k pos (fun j => { j with left := j.left + 1 }) s
      match r.tag with
      | none => s
      | some (tl, idx) =>
        let s := sendMember port sr (.rdTag c k pos (first + r.fr) r.n idx) (.read tl 1) s
        updJob c k pos (fun j => { j with left := j.left + 1 }) s) s

/-- Issue the writes of one position of an MWR (03 R96), for the sectors of the span that `want` names. -/
def startWrite (c k : Nat) (hd : Handle) (pos : Nat) (op : Op) (fua : Bool) (s : State)
    (want : Nat → Bool := fun _ => true) : State :=
  let rs := joinRuns ((writeAddrs op pos hd.first hd.count s).filter (fun a => want a.1))
  let fmt := formatOf op.pool s
  let s := markMovers op (updJob c k pos (fun j => j) s)
  rs.foldl (fun s r =>
    match slotServes op.pool r.slot s with
    | none => updJob c k pos (fun j => { j with fail := true }) s
    | some port =>
      let secs := (List.range r.n).map (fun i => tgetD hd.secs (pos * 16 + hd.first + r.fr + i) {})
      let s := sendMember port (some (op.pool % 8, r.slot)) (.wr c k pos (hd.first + r.fr) r.n r.tag (secs.map (·.tag)))
        (.write r.lba r.n fua (blocksOf fmt (secs.flatMap (·.data)) (secs.map (·.tag))) (metaBuffer fmt (secs.map (·.tag))))
        (countCell op.pool op.row pos true s)
      updJob c k pos (fun j => { j with left := j.left + 1 }) s) s

/-! ## Tags (04 R136, R137, R140) -/

/-- The tag of a sector with a generation (04 R136). -/
def mkTag (d : List Byte) (gen : Dword) : Word := BitVec.ofNat 64 ((crc32c d).toNat + gen.toNat * 2 ^ 32)

/-- The generation of a tag. -/
def tagGen (t : Word) : Dword := t.extractLsb' 32 32

/-- Whether a sector passes its tag check (04 R137). -/
def tagOk (h : HSec) : Bool :=
  !h.tagBad && (if h.tag == 0 then allZero h.data else h.tag.setWidth 32 == crc32c h.data)

/-- Whether a tag page passes its own check: blank, or its group number and CRC match (04 R140). -/
def tagPageOk (page : List Byte) (group : Nat) : Bool :=
  allZero page ||
  (leAt page 4088 4 == group % 2 ^ 32 && leAt page 4092 4 == (crc32c (page.take 4092)).toNat)

/-- The tag page with the tags of some indices replaced (04 R141). -/
def mergeTags (page : List Byte) (group idx : Nat) (tags : List Word) : List Byte :=
  let body := (List.range 511).flatMap (fun i =>
    if idx ≤ i ∧ i < idx + tags.length then leBytes 8 (tags.getD (i - idx) 0).toNat
    else slice (padTo 4096 page) (8 * i) 8)
  let head := body ++ leBytes 4 (group % 2 ^ 32)
  head ++ leBytes 4 (crc32c head).toNat

/-- Start tag page updates whose page has none in flight at its member (04 R141). -/
def kickTagJobs (s : State) : State :=
  s.mem.tagQueue.foldl (fun s j =>
    let busy := s.mem.cmds.any (fun e => e.2.port == j.port && (match e.2.owner with
      | .rmwRd _ _ _ lba _ _ => lba == j.lba
      | .rmwWr _ _ _ lba => lba == j.lba
      | _ => false))
    if busy then s
    else
      let sr := s.mem.pools.findSome? (fun (p, rec) =>
        (rec.slots.find? (fun e => e.2.port == some j.port)).map (fun e => (p, e.1)))
      sendMember j.port sr (.rmwRd j.ctx j.slot j.pos j.lba j.idx j.tags) (.read j.lba 1)
        { s with mem.tagQueue := s.mem.tagQueue.filter (· != j) }) s

/-! ## Labels (04 R163, R164) -/

/-- A member label page (04 R163): its home is the module that created the pool, its peer that module's. -/
def labelPage (l slot gen : Nat) (retired : Bool) (s : State) : List Byte :=
  let p := poolEnt l s
  let g := geomOf l s
  let home := (poolRec (l % 8) s).home
  let peer := if home = s.led.cohort then s.led.peer else s.led.cohort
  let body := [0x44, 0x56, 0x4D, 0x4C] ++ leBytes 2 1 ++ leBytes 2 (b2n retired) ++ leBytes 8 gen ++
    leBytes 4 home ++ leBytes 4 (if s.led.paired then peer + (if (poolEnt (l % 8) s).dual then 2 ^ 31 else 0) else 0) ++
    leBytes 1 (l % 8) ++ leBytes 1 slot ++ leBytes 1 p.n ++ leBytes 1 g.k ++ leBytes 1 g.m ++
    leBytes 1 g.shift ++ leBytes 1 p.fallow ++ leBytes 1 (formatOf l s) ++ leBytes 8 (poolEnt (l % 8) s).serial ++
    leBytes 8 p.bands ++ padTo 32 (tab s).hash ++ leBytes 4 (opSeconds s) ++
    leBytes 4 (s.evr.powerCycles % 2 ^ 24) ++ List.replicate 164 0
  padTo 4096 (body ++ leBytes 4 (crc32c body).toNat)

/-- Whether a label copy is valid (04 R163). -/
def labelValid (b : List Byte) : Bool :=
  slice b 0 4 == [0x44, 0x56, 0x4D, 0x4C] && leAt b 4 2 == 1 && leAt b 252 4 == (crc32c (b.take 252)).toNat

/-- LABEL_GEN of a copy. -/
def labelGen (b : List Byte) : Nat := leAt b 8 8

/-- The member's label: the valid copy with the higher LABEL_GEN (04 R164). -/
def memberLabel (id : MemberId) : Option (List Byte) :=
  match labelValid id.labelA, labelValid id.labelB with
  | true, true => some (if labelGen id.labelA < labelGen id.labelB then id.labelB else id.labelA)
  | true, false => some id.labelA
  | false, true => some id.labelB
  | false, false => none

/-- The copy that a label write takes: the invalid one, else the one with the lower LABEL_GEN (04 R164). -/
def labelTarget (id : MemberId) : Nat :=
  if !labelValid id.labelA then 0
  else if !labelValid id.labelB then 8
  else if labelGen id.labelA ≤ labelGen id.labelB then 0 else 8

/-- The greatest LABEL_GEN of the labels that are being written to a slot's member. -/
def labelWriting (l slot : Nat) (s : State) : Nat :=
  (s.mem.cmds.map (fun e => match e.2.owner with
    | .label p n gen _ => if p = l % 8 ∧ n = slot ∧ !e.2.dead then gen else 0
    | _ => 0)).foldl max 0

/-- Write a slot's label with a LABEL_GEN one greater than the ledger's record and the member's own (04 R164,
08 R324). What the ledger and the port hold of the label follows when the write has ended. -/
def writeLabel (l slot : Nat) (retired : Bool) (both : Bool) (s : State) : State :=
  match (slotRec l slot s).port with
  | none => s
  | some port =>
    let id := (mport port s).id
    let mine := match id with
      | some i => max (if labelValid i.labelA then labelGen i.labelA else 0)
                      (if labelValid i.labelB then labelGen i.labelB else 0)
      | none => 0
    let gen := max (max (slotRec l slot s).labelGen mine) (labelWriting l slot s) + 1
    let page := labelPage l slot gen retired s
    let lbas := if both then [0, 8] else [(id.map labelTarget).getD 0]
    lbas.foldl (fun s lba => sendMember port (some (l % 8, slot)) (.label (l % 8) slot gen page) (pageWrite l lba page s) s) s

/-- A label copy is on the member: the port holds it, and the ledger's record is its LABEL_GEN (04 R164). -/
def labelWritten (port lba l slot gen : Nat) (page : List Byte) (s : State) : State :=
  let put (i : MemberId) : MemberId := if lba = 0 then { i with labelA := page } else { i with labelB := page }
  let s := updMport port (fun p => { p with label := some page, id := p.id.map put }) s
  if (slotRec l slot s).port = some port then
    poolCommit l (updSlot l slot (fun r => { r with labelGen := max r.labelGen gen }) s)
  else s

/-! ## Slot states (08 R298 to R302, R308) -/

/-- A slot changes state: MEMBER_STATE event, EVENT record and ledger commit (08 R300 to R302). -/
def slotTo (l slot : Nat) (st : SlotSt) (reason : Nat) (s : State) : State :=
  let p := l % 8
  let old := (slotRec p slot s).st
  let s := updSlot p slot (fun r => { r with st := st, reason := reason }) s
  let s := if old = .online then { s with jnl.barred := s.jnl.barred.filter (· != (p, slot)) } else s
  let s := event 0x0001 (slot + p * 128) (st.code + old.code * 16 + reason * 256) s
  poolCommit p (fixArbs p (recEvent 0x1F4 0x0020 (p * 128 + slot) [BitVec.ofNat 8 st.code, BitVec.ofNat 8 old.code, BitVec.ofNat 8 reason] s))

/-- A member command's operation learns that the command failed, so far as it still waits for it. -/
def failOwner (o : MOwner) (s : State) : State :=
  let fails (c k pos : Nat) : State := updJob c k pos (fun j => { j with left := j.left - 1, fail := true }) s
  match o with
  | .rd c k pos _ _ => fails c k pos
  | .rdTag c k pos _ _ _ => fails c k pos
  | .wr c k pos _ _ _ _ => fails c k pos
  | .rmwRd c k pos _ _ _ => fails c k pos
  | .rmwWr c k pos _ => fails c k pos
  | _ => s

/-- The tag page updates that wait for a port end failed. -/
def failTags (port : Nat) (s : State) : State :=
  let s := (s.mem.tagQueue.filter (fun j => j.port == port)).foldl (fun s j =>
    updJob j.ctx j.slot j.pos (fun y => { y with left := y.left - 1, fail := true }) s) s
  { s with mem.tagQueue := s.mem.tagQueue.filter (fun j => j.port != port) }

/-- The tag page updates of a pool that this module must not write any more end failed (10 R365). -/
def failPoolTags (p : Nat) (s : State) : State :=
  ((poolRec p s).slots.filterMap (fun e => e.2.port)).foldl (fun s q => failTags q s) s

/-- Fail every outstanding command of a port: reported at once, NVMe Abort sent, later completions
discarded (08 R308). -/
def failPort (port : Nat) (s : State) : State :=
  let mine := s.mem.cmds.filter (fun e => e.2.port == port && !e.2.dead)
  let s := mine.foldl (fun s e => emit (.memberAbort port e.1) (failOwner e.2.owner s)) s
  let s := failTags port s
  { s with mem.cmds := s.mem.cmds.map (fun e =>
      if e.2.port = port then (e.1, { e.2 with dead := true, aborted := true }) else e) }

/-- A slot enters FAILED (08 R300, R301, R307, R308): commit pending, outstanding commands failed and
aborted, the notice of 14 R550. A restore walk and a preparation of it end; what the ledger holds of it stands until the
commit lands. A MEMBER_ADOPT whose labels are still being written ends with INVALID_STATE (log entry 78). Only the owner of the pool
does so (08 R328). -/
def slotFails (l slot reason : Nat) (s : State) : State :=
  let p := l % 8
  let r := slotRec p slot s
  if !owns p s then s
  else match r.st with
  | .online | .suspect | .rebuilding | .retiring =>
    let gen := max r.labelGen ((r.port.bind (fun q => (mport q s).label)).map labelGen |>.getD 0) + 1
    let s := slotTo p slot .failed reason (updSlot p slot (fun x => { x with labelGen := gen }) s)
    let s := updSlot p slot (fun x => { x with commitPending := true, commitSince := s.now, failedAt := s.now,
                                               ccCleared := false,
                                               resume := if r.st = .suspect then .online else r.st }) s
    let s := updPool p (fun x => { x with walks := tdel x.walks slot }) s
    let s := match r.adopting with
      | some c => finishCmd c 0x0005 0x0202 (updSlot p slot (fun x => { x with adopting := none }) s)
      | none => s
    match r.port with
    | none => s
    | some q => raise (portSrc q) 0x3F ((p * 128 + slot) * 65536 + reason) (failPort q s)
  | _ => s

/-! ## Journal and regions (07 R282 to R292) -/

/-- The smallest shift of 6 or more that keeps the regions at 8,388,608 or fewer (07 R285). -/
def regionShift (rows : Nat) : Nat :=
  ((List.range 40).map (· + 6)).find? (fun k => decide ((rows + 2 ^ k - 1) / 2 ^ k ≤ 8388608)) |>.getD 6

/-- Open journal entries. -/
def openEntries (s : State) : Nat := (s.jnl.own.filter (fun e => e.2.st == 1)).length

/-- A free or retired place in the journal area. -/
def freeJnl (s : State) : Nat :=
  ((List.range 4096).find? (fun i => (tgetD s.jnl.own i {}).st != 1)).getD 0

/-- A bitmap page of the anchor image (07 R290, R291); the regions of a reshape's target layout are marked beside the source's. -/
def bitmapPage (l page : Nat) (s : State) : List Byte :=
  (List.range 4096).map (fun i => BitVec.ofNat 8 (((List.range 8).map (fun b =>
    b2n (s.jnl.image.contains (l * 2 ^ 48 + (page * 4096 + i) * 8 + b) ||
         s.jnl.image.contains ((l + 8) * 2 ^ 48 + (page * 4096 + i) * 8 + b)) * 2 ^ b)).sum))

/-- Members that were anchors before the chip reset and are none hold an image that is no longer current (R291, R292). -/
def oldCopies (s : State) : State :=
  { s with jnl.oldAnchors := s.jnl.oldAnchors.map (fun a => { a with valid := false, fresh := true }) }

/-- Raise the open count of a region, set its bit, and pre-mark the anchors when their image lacks it (07
R286, R291): the page goes to both copies on every anchor. -/
def markRegion (c l row : Nat) (s : State) : State :=
  let k := regionKey l row s
  let s := { s with jnl.opens := tmod s.jnl.opens k 0 (· + 1), jnl.lastOpen := tset s.jnl.lastOpen k s.now }
  let need := !s.jnl.marked.contains k && !s.jnl.image.contains k
  let s := if need then { s with jnl.image := nins s.jnl.image k } else s
  let s := { s with jnl.marked := nins s.jnl.marked k }
  if need then
    let page := k % 2 ^ 48 / 32768
    let id := s.jnl.nextSeq
    let jobs : List AnchorJob := s.jnl.anchors.flatMap (fun e => [1089, 8257].map (fun base =>
      { anchor := e.1, lba := base + (l % 8) * 256 + page, n := 1, what := .premark id (l % 8) page }))
    let p : Premark := { id := id, ctx := c, since := s.now, left := jobs.map (fun j => (j.anchor, j.lba)) }
    oldCopies { s with jnl.premarks := s.jnl.premarks ++ [p], jnl.anchorQ := s.jnl.anchorQ ++ jobs }
  else s

/-- Whether a pre-mark lets its JNL proceed: two anchors acknowledged, or fewer than two still can (07 R292). -/
def premarkDone (p : Premark) : Bool :=
  let can := (p.left.map (·.1)).eraseDups.filter (fun a => !p.failed.contains a)
  decide (2 ≤ p.acked.length) || decide (p.acked.length + can.length < 2)

/-- The pre-marks of a context's open entry are done. -/
def premarksDone (c : Nat) (s : State) : Bool := (s.jnl.premarks.filter (fun p => p.ctx == c && !p.used)).all premarkDone

/-- A context's JNL has gone on: its pre-marks wait only for what is still outstanding (07 R292). -/
def usePremarks (c : Nat) (s : State) : State :=
  { s with jnl.premarks := s.jnl.premarks.map (fun p => if p.ctx = c then { p with used := true } else p) }

/-- Whether an operation's writes go to a relocation TO strip, or are a reshape's (07 R282 RELOC; 09 R350). -/
def relocates (op : Op) : Bool :=
  op.kind == 5 || (match op.why with
    | .cell .. => true
    | _ => false)

/-- Open an entry for an operation's positions and span (03 R100, 07 R283): the entry, then the region bit.
Answers its place. -/
def openJnl (c : Nat) (op : Op) (positions : Word) (first count : Nat) (gen : Dword) (cached reloc : Bool)
    (s : State) : Nat × State :=
  let i := freeJnl s
  let e : Jnl := { seq := s.jnl.nextSeq, row := op.row, pool := op.pool, kind := op.kind, positions := positions,
                   slice := op.slice, first := first, count := count, st := 1, cached := cached,
                   mirrored := mirrorsOut s && (poolEnt op.pool s).dual, reloc := reloc, newGen := gen, context := c }
  (i, markRegion c op.pool op.row { s with jnl.own := tset s.jnl.own i e, jnl.nextSeq := s.jnl.nextSeq + 1 })

/-- Retire an entry: STATE 2, and its region's open count falls (07 R284, R286). -/
def retireJnl (i : Nat) (s : State) : State :=
  match tget s.jnl.own i with
  | none => s
  | some e =>
    if e.st != 1 then s
    else
      { s with jnl.own := tset s.jnl.own i { e with st := 2 },
               jnl.opens := tmod s.jnl.opens (regionKey e.pool e.row s) 0 (· - 1) }

/-- An entry as it travels to the peer (10 R369). -/
def jnlWire (e : Jnl) : JnlWire :=
  { seq := e.seq, pool := Fin.ofNat 16 e.pool, row := e.row, kind := BitVec.ofNat 4 e.kind, positions := e.positions,
    slice := e.slice, first := e.first, count := e.count, dataCached := e.cached, reloc := e.reloc, newGen := e.newGen,
    context := e.context }

end Sys2Proof.Machine
end

