-- ==== Sys2Proof/Machine/Check.lean ====
section
/-! DEFINITION. Sys2Proof/Machine/Check.lean: what the control cores compute on one sector row: the patrol check
(09 R337 to R341), the replay decode (07 R287 to R289) and the seal (08 R317). -/

namespace Sys2Proof.Machine

/-- Outcomes of 09 R340. -/
inductive Outcome where
  | clean | repaired | corrected | rewritten | marked | unchecked | lost
  deriving DecidableEq, Repr

/-- The code of an outcome (09 R340). -/
def Outcome.code : Outcome → Nat
  | .clean => 0 | .repaired => 1 | .corrected => 2 | .rewritten => 3 | .marked => 4 | .unchecked => 5 | .lost => 6

/-- The verdict on a sector row: outcome, positions to write with their data, the positions that its event names, whether it was
UNLOCATED, and every position's content as far as it is known. -/
structure Verdict where
  outcome : Outcome
  writes : List (Nat × List Byte) := []
  named : List Nat := []
  unlocated : Bool := false
  row : Option (List (List Byte)) := none
  deriving DecidableEq, Repr

/-- The whole sector row decoded from the readable positions, when the others agree with it. -/
def agree (g : Geom) (c : List Byte) (have_ : List (Nat × List Byte)) : Option (List (List Byte)) :=
  match decodeAll g c have_ with
  | none => none
  | some row => if have_.all (fun (p, d) => row.getD p [] == d) then some row else none

/-- R339 on readable positions with at least one spare: consistent (no position), or the one position that
alone is wrong, with the content. -/
def locateBad (g : Geom) (c : List Byte) (have_ : List (Nat × List Byte)) : Option (Option Nat × List (List Byte)) :=
  match agree g c have_ with
  | some row => some (none, row)
  | none =>
    if have_.length < g.k + 2 then none
    else match have_.filterMap (fun (q, _) => (agree g c (have_.filter (·.1 != q))).map (fun r => (q, r))) with
      | [(q, row)] => some (some q, row)
      | _ => none

/-- Groups of parity positions by generation, largest first, ties to the lowest position (09 R338). -/
def genGroups (ps : List (Nat × Dword)) : List (List Nat) :=
  let gens := (ps.map (·.2)).eraseDups
  let groups := gens.map (fun g => (ps.filter (·.2 == g)).map (·.1))
  groups.foldl (fun acc g =>
    let before := acc.takeWhile (fun h => g.length < h.length || (g.length == h.length && h.headD 0 < g.headD 0))
    before ++ [g] ++ acc.drop before.length) []

/-- The check of one sector row (09 R337 to R341): `erased` are the erased positions, `secs` what was read at
each other position, `rewrite` the rewrite-parity policy, `home` whether a position can be written. -/
def checkRow (g : Geom) (c : List Byte) (erased : Word) (secs : List (Nat × HSec)) (rewrite : Bool)
    (home : Nat → Bool) : Verdict :=
  if g.m = 0 then { outcome := .unchecked, named := (secs.filter (fun x => !tagOk x.2)).map (·.1), row := agree g c ((secs.filter (fun x => tagOk x.2)).map (fun x => (x.1, x.2.data))) }
  else
    let good := secs.filter (fun x => tagOk x.2)
    let added := ((List.range g.w).filter (fun p => !erased.getLsbD p && !good.any (·.1 == p)))
    let e := pop erased + added.length
    let data (ps : List (Nat × HSec)) : List (Nat × List Byte) := ps.map (fun x => (x.1, x.2.data))
    let fix (row : List (List Byte)) (ps : List Nat) : List (Nat × List Byte) :=
      (ps.filter home).map (fun p => (p, row.getD p []))
    if g.m < e then { outcome := .lost }
    else
      let par := (good.filter (fun x => g.k ≤ x.1)).map (fun x => (x.1, if x.2.tag == 0 then 0 else tagGen x.2.tag))
      let groups := genGroups par
      if 1 < groups.length then
        match groups.findSome? (fun grp =>
          let out := (par.map (·.1)).filter (fun p => !grp.contains p)
          let rest := good.filter (fun x => !out.contains x.1)
          (if rest.length ≤ g.k then none else locateBad g c (data rest)).map (fun r => (out ++ r.1.toList ++ added, r.2))) with
        | some (bad, row) => { outcome := .corrected, writes := fix row bad, named := bad, row := some row }
        | none => { outcome := .marked, unlocated := true }
      else if g.m = e then
        match decodeAll g c (data good) with
        | none => { outcome := .lost }
        | some row =>
          if added.isEmpty then { outcome := .unchecked, row := some row }
          else { outcome := .repaired, writes := fix row added, named := added, row := some row }
      else match locateBad g c (data good) with
        | some (none, row) =>
          if added.isEmpty then { outcome := .clean, row := some row }
          else { outcome := .repaired, writes := fix row added, named := added, row := some row }
        | some (some q, row) => { outcome := .corrected, writes := fix row (q :: added), named := q :: added, row := some row }
        | none =>
          if g.m = e + 1 then
            let dataErased := (List.range g.k).any (fun p => erased.getLsbD p || added.contains p)
            if rewrite && !dataErased then
              match decodeAll g c (data (good.filter (fun x => x.1 < g.k))) with
              | none => { outcome := .marked }
              | some row =>
                let par := (List.range g.w).filter (fun p => g.k ≤ p && !erased.getLsbD p && !added.contains p)
                { outcome := .rewritten, row := some row, writes := fix row par, named := par }
            else { outcome := .marked }
          else { outcome := .marked, unlocated := true }

/-- What a replay leaves of a sector row (07 R287 to R289). -/
inductive Redo where
  /-- the whole sector row's content, to be written at the new generation, and whether its parity is encoded from the data -/
  | rewrite (row : List (List Byte)) (encoded : Bool)
  /-- nothing to write -/
  | keep
  /-- the erased data positions are lost; the sector row is sealed -/
  | seal
  deriving DecidableEq, Repr

/-- Replay of an open entry's sector row (07 R287, R288): `mask` the entry's positions, `cached` the dirty
data from the cache or the vault, `secs` what was read, `gen` NEW_GEN. In a row with an erased position the sources are those
of R288, all new or all old. -/
def replayRow (g : Geom) (c : List Byte) (erased mask : Word) (cached : List (Nat × List Byte))
    (secs : List (Nat × HSec)) (gen : Dword) : Redo :=
  let good := secs.filter (fun x => tagOk x.2)
  let isC (p : Nat) : Bool := cached.any (·.1 == p)
  let d (x : Nat × HSec) : Nat × List Byte := (x.1, x.2.data)
  let apply (row : List (List Byte)) : List (List Byte) :=
    let data := (List.range g.k).map (fun p => ((cached.find? (·.1 == p)).map (·.2)).getD (row.getD p []))
    data ++ encodeParity g c data
  let dataGood := (good.filter (fun x => x.1 < g.k && !isC x.1)).map d ++ cached
  if erased == 0 && (List.range g.k).all (fun p => dataGood.any (·.1 == p)) then
    let data := (List.range g.k).map (fun p => ((dataGood.find? (·.1 == p)).map (·.2)).getD [])
    .rewrite (data ++ encodeParity g c data) true
  else
    let genOf (h : HSec) : Dword := if h.tag == 0 then 0 else tagGen h.tag
    let s1 := cached ++ (good.filter (fun x => !isC x.1 && (!mask.getLsbD x.1 || genOf x.2 == gen))).map d
    match decodeAll g c s1 with
    | some row => .rewrite (apply row) false
    | none =>
      let s2 := (good.filter (fun x => !mask.getLsbD x.1 || genOf x.2 == gen - 1)).map d
      match decodeAll g c s2 with
      | some row => .rewrite (apply row) false
      | none => if erased == 0 then .keep else .seal

/-- Background resynchronisation of a marked region's sector row (07 R289). -/
def resyncRow (g : Geom) (c : List Byte) (erased : Word) (secs : List (Nat × HSec)) : Redo :=
  let good := secs.filter (fun x => tagOk x.2)
  let dataGood := (good.filter (fun x => x.1 < g.k)).map (fun x => (x.1, x.2.data))
  if erased == 0 then
    if dataGood.length = g.k then
      let data := (List.range g.k).map (fun p => ((dataGood.find? (·.1 == p)).map (·.2)).getD [])
      .rewrite (data ++ encodeParity g c data) true
    else
      (match decodeAll g c (good.map (fun x => (x.1, x.2.data))) with
       | some row => .rewrite row false
       | none => .keep)
  else
    let par := secs.filter (fun x => g.k ≤ x.1)
    let gens := (par.map (fun x => if x.2.tag == 0 then 0 else tagGen x.2.tag)).eraseDups
    if par.all (fun x => tagOk x.2) && gens.length ≤ 1 then .keep
    else if dataGood.length = g.k then
      let data := (List.range g.k).map (fun p => ((dataGood.find? (·.1 == p)).map (·.2)).getD [])
      .rewrite (data ++ encodeParity g c data) true
    else .seal

/-- The sealed content of a sector row (08 R317): known-zero positions as zero, parity from the data. A data
position that is neither readable nor known zero makes none. -/
def sealedRow (g : Geom) (c : List Byte) (zero : Word) (secs : List (Nat × HSec)) : Option (List (List Byte)) :=
  let data := (List.range g.k).map (fun p =>
    if zero.getLsbD p then some zeroSector
    else (secs.find? (fun x => x.1 == p && tagOk x.2)).map (·.2.data))
  if data.all (·.isSome) then
    let ds := data.map (fun x => x.getD [])
    some (ds ++ encodeParity g c ds)
  else none

end Sys2Proof.Machine
end

