-- ==== Sys2Proof/Machine/Anchors.lean ====
section
/-! DEFINITION. Sys2Proof/Machine/Anchors.lean: anchor members: their choice (04 R162), what is written to them, checkpoints and
pre-marks (07 R290 to R292). -/

namespace Sys2Proof.Machine

/-! ## The choice of anchors (04 R162) -/

/-- Whether a member of a slot serves as an anchor. -/
def isAnchor (l slot : Nat) (s : State) : Bool :=
  s.jnl.anchors.any (fun e => e.2.pool == l % 8 && e.2.slot == slot)

/-- Slots that may be anchors: ONLINE members of pools that the module owns, as (percentage used, port,
pool, slot) (04 R162), but one that did not acknowledge a pre-mark (07 R292); none while checkpoints are still to be read (07 R293, log entry 17). -/
def anchorCands (s : State) : List (Nat × Nat × Nat × Nat) :=
  if !s.jnl.restorePools.isEmpty then [] else s.mem.pools.flatMap (fun (p, rec) =>
    if owns p s then
      rec.slots.filterMap (fun (n, r) =>
        match r.st, r.port with
        | .online, some q => if isAnchor p n s || s.jnl.barred.contains (p, n) then none else some (r.pctUsed, q, p, n)
        | _, _ => none)
    else [])

/-- The next anchor: a different member group where possible, a different pool where possible, lowest
percentage used, lowest port (04 R162). -/
def pickAnchor (s : State) : Option (Nat × Nat × Nat × Nat) :=
  let used := s.jnl.anchors.map (fun e => e.2)
  leastBy (fun (pct, port, p, _) =>
    (((b2n (used.any (fun a => portGroup a.port == portGroup port)) * 2 + b2n (used.any (fun a => a.pool == p))) * 256 + pct) *
      128 + port % 128) * 32 + port / 128)
    (anchorCands s)

/-- Whether a checkpoint runs on some anchor. -/
def ckptRuns (s : State) : Bool := s.jnl.anchors.any (fun e => e.2.stage != 0)

/-- Fill empty anchor places (04 R162). A member that was an anchor before the last chip reset goes on with the copies that it
holds, which are current so long as no region has been pre-marked and no checkpoint made since. -/
def fillAnchors : Nat → State → State
  | 0, s => s
  | n + 1, s =>
    match (List.range 3).find? (fun i => (tget s.jnl.anchors i).isNone), pickAnchor s with
    | some i, some (_, port, p, slot) =>
      let a : Anchor := match s.jnl.oldAnchors.find? (fun a => a.pool == p && a.slot == slot) with
        | some a => { a with port := port }
        | none => { pool := p, slot := slot, port := port }
      fillAnchors n { s with jnl.anchors := tset s.jnl.anchors i a,
                             jnl.oldAnchors := s.jnl.oldAnchors.filter (fun a => !(a.pool == p && a.slot == slot)) }
    | _, _ => s

/-- Whether a member command belongs to an anchor's pre-marks or checkpoint. -/
def forAnchor (i : Nat) (o : MOwner) : Bool :=
  match o with
  | .premark _ j => i == j
  | .ckpt j => i == j
  | _ => false

/-- A pre-mark whose anchor will not acknowledge it any more. -/
def failMark (i : Nat) (p : Premark) : Premark :=
  if p.left.any (·.1 == i) then { p with left := p.left.filter (·.1 != i), failed := nins p.failed i } else p

/-- An anchor is one no more: what waits for it is dropped, what is outstanding at it goes on for nobody (04 R162, 07 R292). A
checkpoint that ran on it alone is over: it is complete when another anchor has it. -/
def dropAnchor (i : Nat) (s : State) : State :=
  let ran := ckptRuns s
  let s := { s with
    jnl.anchors := tdel s.jnl.anchors i, jnl.anchorQ := s.jnl.anchorQ.filter (fun j => j.anchor != i),
    jnl.premarks := s.jnl.premarks.map (failMark i),
    mem.cmds := s.mem.cmds.map (fun e => if forAnchor i e.2.owner then (e.1, { e.2 with owner := .other }) else e) }
  if ran && !ckptRuns s && s.jnl.anchors.any (·.2.valid) then { s with jnl.lastCkpt := some s.now } else s

/-- An anchor that did not acknowledge a pre-mark: it is replaced by another member (R292). -/
def barAnchor (i : Nat) (s : State) : State :=
  match tget s.jnl.anchors i with
  | none => s
  | some a => dropAnchor i { s with jnl.barred := if s.jnl.barred.contains (a.pool, a.slot) then s.jnl.barred
                                                   else (a.pool, a.slot) :: s.jnl.barred }

/-- Whether an anchor has to be replaced: it left ONLINE, or its pool is not the module's (04 R162). -/
def anchorGone (a : Anchor) (s : State) : Bool :=
  (slotRec a.pool a.slot s).st != .online || (slotRec a.pool a.slot s).port != some a.port || !owns a.pool s

/-- Anchors that left ONLINE are dropped and replaced (04 R162). -/
def replaceAnchors (s : State) : State :=
  fillAnchors 3 (s.jnl.anchors.foldl (fun s (i, a) => if anchorGone a s then dropAnchor i s else s) s)

/-! ## What is written to them (07 R282, R290, R291) -/

/-- A journal entry's 64 bytes (07 R282). -/
def jnlBytes (e : Jnl) : List Byte :=
  let b := leBytes 8 e.seq ++ leBytes 6 e.row ++ leBytes 1 (e.pool % 8) ++ leBytes 1 e.kind ++ leBytes 8 e.positions.toNat ++
    leBytes 1 e.slice ++ leBytes 1 (e.first + 16 * (e.count - 1)) ++ leBytes 1 e.st ++
    leBytes 1 (b2n e.cached + 2 * b2n e.mirrored + 4 * b2n e.reloc) ++ leBytes 4 e.newGen.toNat ++ leBytes 2 e.context ++
    List.replicate 26 0
  b ++ leBytes 4 (crc32c b).toNat

/-- The journal pages of a checkpoint. -/
def jnlPages (s : State) : List Byte :=
  (List.range 4096).flatMap (fun i => match tget s.jnl.own i with
    | some e => jnlBytes e
    | none => List.replicate 64 0)

/-- The header page of a checkpoint (R290): its fields in the order in which the rule names them (log entry 14). -/
def ckptHeader (s : State) : List Byte :=
  let body := padTo 4092 ([0x44, 0x56, 0x41, 0x4E] ++ leBytes 8 s.jnl.ckptSeq ++ leBytes 8 s.jnl.nextSeq ++
    padTo 32 s.jnl.hash ++ leBytes 4 s.led.cohort ++
    (List.range 8).flatMap (fun p => leBytes 8 (poolRec p s).serial ++ leBytes 1 (tgetD s.jnl.shift p 6)))
  body ++ leBytes 4 (crc32c body).toNat

/-- What a write to an anchor carries, taken from the state at that time (R291). -/
def anchorData (w : AnchorPage) (s : State) : List Byte :=
  match w with
  | .premark _ p page => bitmapPage p page s
  | .journal => jnlPages s
  | .bitmap p => (List.range 256).flatMap (fun n => bitmapPage p n s)
  | .header => ckptHeader s

/-- Whether LBA ranges of one anchor meet. -/
def sameLbas (a n b k : Nat) : Bool := decide (a < b + k ∧ b < a + n)

/-- Whether a write to a member that is outstanding takes some of the pages of a write to an anchor there (R291); one that the member
got when it was an anchor before counts. -/
def anchorBusy (j : AnchorJob) (s : State) : Bool :=
  let port := ((tget s.jnl.anchors j.anchor).map (·.port)).getD 0
  s.mem.cmds.any (fun e => e.2.port == port && e.2.write && sameLbas e.2.lba e.2.count j.lba j.n)

/-- Send the waiting writes to anchors, oldest first; writes of one page to one anchor are serialised (R291). -/
def kickAnchorQ (s : State) : State :=
  (s.jnl.anchorQ.foldl (fun (acc : List AnchorJob × State) j =>
    let (kept, s) := acc
    match tget s.jnl.anchors j.anchor with
    | none => (kept, s)
    | some a =>
      if anchorBusy j s || kept.any (fun k => k.anchor == j.anchor && sameLbas k.lba k.n j.lba j.n) then (kept ++ [j], s)
      else
        let o : MOwner := match j.what with
          | .premark id _ _ => .premark id j.anchor
          | _ => .ckpt j.anchor
        let s := sendMember a.port (some (a.pool, a.slot)) o (pageWrite a.pool j.lba (anchorData j.what s) s)
          { s with jnl.anchorQ := s.jnl.anchorQ.erase j }
        (kept, s)) ([], s)).2

/-! ## Checkpoints (R290, R292) -/

/-- Where the header of a checkpoint copy stands (R290). -/
def ckptBase (copyA : Bool) : Nat := if copyA then 1024 else 8192

/-- The pages of a checkpoint go to the older copy of one anchor; `copies` copies are to be written one after the other. -/
def ckptPages (i copies : Nat) (s : State) : State :=
  match tget s.jnl.anchors i with
  | none => s
  | some a =>
    let base := ckptBase a.copyA
    let jobs : List AnchorJob := { anchor := i, lba := base + 1, n := 64, what := .journal } ::
      (List.range 8).map (fun p => { anchor := i, lba := base + 65 + 256 * p, n := 256, what := .bitmap p })
    { s with jnl.anchors := tset s.jnl.anchors i { a with stage := 1, todo := copies }, jnl.anchorQ := s.jnl.anchorQ ++ jobs }

/-- A checkpoint starts on every anchor; the anchor image becomes the bitmap (R290, R291). While one runs, the next waits for its
end; none starts while the module restores from anchors (log entry 17). -/
def startCkpt (s : State) : State :=
  if !s.jnl.restorePools.isEmpty then s
  else if ckptRuns s then { s with jnl.ckptAgain := true }
  else
    let s := oldCopies { s with
      jnl.image := s.jnl.marked, jnl.ckptSeq := s.jnl.ckptSeq + 1, jnl.ckptAgain := false, jnl.ckptAt := s.now }
    s.jnl.anchors.foldl (fun s e => ckptPages e.1 (if e.2.fresh then 2 else 1) s) s

/-- A write of an anchor's checkpoint ended: the header follows the pages and completes the copy; after the last copy of the last
anchor the checkpoint is complete. An anchor that fails it is replaced. -/
def ckptDone (i : Nat) (good : Bool) (s : State) : State :=
  if !good then dropAnchor i s
  else match tget s.jnl.anchors i with
    | none => s
    | some a =>
      if s.mem.cmds.any (fun e => e.2.owner == .ckpt i) || s.jnl.anchorQ.any (fun j => j.anchor == i && (match j.what with
          | .premark .. => false
          | _ => true)) then s
      else if a.stage = 1 then
        { s with jnl.anchors := tset s.jnl.anchors i { a with stage := 2 },
                 jnl.anchorQ := s.jnl.anchorQ ++ [AnchorJob.mk i (ckptBase a.copyA) 1 .header] }
      else
        let a' : Anchor := { a with valid := true, copyA := !a.copyA, stage := 0, todo := 0, fresh := a.fresh && decide (1 < a.todo) }
        let s := { s with jnl.anchors := tset s.jnl.anchors i a' }
        if 1 < a.todo then ckptPages i (a.todo - 1) s
        else if ckptRuns s then s
        else
          { s with jnl.lastCkpt := some s.now }

/-- A new anchor gets a full checkpoint in both copies (R292), of the bitmap as it is in MRAM (R291); a checkpoint that fell due while
one ran starts (R290). -/
def kickNewAnchors (s : State) : State :=
  let s := if s.jnl.ckptAgain && !ckptRuns s then startCkpt s else s
  if !s.jnl.anchors.any (fun e => e.2.fresh && e.2.stage == 0) then s
  else s.jnl.anchors.foldl (fun s e => if e.2.fresh && e.2.stage == 0 then ckptPages e.1 2 s else s) { s with jnl.image := s.jnl.marked }

/-! ## Pre-marks (R291, R292) -/

/-- A pre-mark write of an anchor ended. One that fails makes the anchor one that has not acknowledged: it is replaced. -/
def premarkEnd (id i lba : Nat) (good : Bool) (s : State) : State :=
  if !good then barAnchor i s
  else
    let f (p : Premark) : Premark :=
      if p.id = id then
        let l := p.left.filter (· != (i, lba))
        { p with left := l, acked := if l.any (·.1 == i) || p.failed.contains i then p.acked else nins p.acked i }
      else p
    { s with jnl.premarks := s.jnl.premarks.map f }

/-- A pre-mark that lets its JNL go on with fewer than two acknowledgements: ANCHOR_DEGRADED and an event record (R292). -/
def notePremark (p : Premark) (s : State) : State :=
  if premarkDone p && !p.noted && decide (p.acked.length < 2) then
    recEvent 0x094 0x0011 0 [BitVec.ofNat 8 p.acked.length] { s with cache.anchorDegraded := true }
  else s

/-- Every pre-mark that is done is noted once; those that wait for nothing more go. -/
def notePremarks (s : State) : State :=
  let s := s.jnl.premarks.foldl (fun s p => notePremark p s) s
  let ps := s.jnl.premarks.map (fun p => { p with noted := p.noted || premarkDone p })
  { s with jnl.premarks := ps.filter (fun p => !(p.used && p.left.isEmpty)) }

/-- 100 ms after a context's pre-mark, the anchors that have not acknowledged it are replaced (R292). -/
def premarkTimeout (c : Nat) (s : State) : State :=
  match s.jnl.premarks.find? (fun p => p.ctx == c && !p.left.isEmpty) with
  | none => s
  | some p => ((p.left.map (·.1)).eraseDups).foldl (fun s i => barAnchor i s) (timeTo (p.since + 100000) s)

/-- Whether three anchors hold a checkpoint that is current. -/
def anchorsCurrent (s : State) : Bool := decide (3 ≤ (s.jnl.anchors.filter (fun e => e.2.valid)).length)

/-- What the anchors do by themselves: replacements, their checkpoints, pre-marks, writes that wait, ANCHOR_DEGRADED (04 R162, 07
R290 to R292). Nothing starts while power fails. -/
def kickAnchors (s : State) : State :=
  if commitsRefused s || !s.dev.ready || s.pair.farewell then s
  else
    let s := kickAnchorQ (notePremarks (kickNewAnchors (replaceAnchors s)))
    if s.cache.anchorDegraded && anchorsCurrent s then { s with cache.anchorDegraded := false } else s

end Sys2Proof.Machine
end

