-- ==== Sys2Proof/Machine/Finish.lean ====
section
/-! DEFINITION. Sys2Proof/Machine/Finish.lean: stages 9 and 10: what the end of a stripe operation does to the
cache, to its command and to the work that asked for it (03 R105, 06 R223, R226, 07 R264). -/

namespace Sys2Proof.Machine

/-- Offset within a command of a sector of a row, if the command's range holds it. -/
def cmdOffset (c : Cmd) (l row pos ssec : Nat) (s : State) : Option Nat :=
  (List.range c.count).find? (fun o => locate c.volume (c.lba + o) s == some (l, row, pos, ssec))

/-- Offset of a sector for an operation: by arithmetic on its layout (04 R134 read backwards). -/
def opOffset (op : Op) (c : Cmd) (pos i : Nat) (s : State) : Nat :=
  let g := geomOf op.pool s
  match tget (tab s).vols c.volume with
  | none => 0
  | some e => (op.row - volStart c.volume e op.pool s) * (g.k * g.ss) + pos * g.ss + 16 * op.slice + i - c.lba

/-- Record that sectors of a command fail with a status (06 R223). -/
def failSecs (c : Nat) (offs : List Nat) (st : BitVec 16) (s : State) : State :=
  updCmd c (fun x => { x with fails := x.fails ++ offs.map (fun o => (o, st)) }) s

/-- The lowest failing offset with its status. -/
def firstFail (f : List (Nat × BitVec 16)) : Option (Nat × BitVec 16) := leastBy (·.1) f

/-- Scatter bytes over host runs as posted writes (05 R181, R182). -/
def scatter (port : Nat) : List (Nat × Nat) → List Byte → State → State
  | [], _, s => s
  | (a, n) :: rest, d, s =>
    if d.isEmpty then s else scatter port rest (d.drop n) (emit (.hostWrite port a (d.take n)) s)

/-- Runs of a buffer from a byte offset on. -/
def dropRuns : Nat → List (Nat × Nat) → List (Nat × Nat)
  | _, [] => []
  | n, (a, k) :: rest => if n < k then (a + n, k - n) :: rest else dropRuns (n - k) rest

/-- Data of a forwarded command goes over the pair link, in messages that R357's payload bound admits (10 R375). -/
def forwardOut (write : Bool) (tag : Nat) (d : List Byte) (s : State) : State :=
  (piecesOf (4096 * sectorsPerMsg) d).foldl (fun s x => sendPair (.forwardData write tag x) s) s

/-- The read buffer of a command: zeroes for every failing sector (06 R223). -/
def readBuffer (c : Cmd) : List Byte :=
  (List.range c.count).flatMap (fun o =>
    if c.fails.any (fun f => f.1 == o) then zeroSector else padTo 4096 (tgetD c.rdata o []))

/-- Complete a command whose operations have all ended: READ moves its data; a failure reports the lowest
offset (06 R221, R223 to R226). -/
def concludeCmd (c : Nat) (s : State) : State :=
  match cmdOf c s with
  | none => s
  | some x =>
    let isRead := x.opcode = 0x01
    let s := if isRead then
        (match x.src with
         | .peer tag => forwardOut false tag (readBuffer x) s
         | _ => scatter x.port x.sgl (readBuffer x) s)
      else s
    match firstFail x.fails with
    | some (o, st) => finishCmd c st (BitVec.ofNat 32 o) s
    | none => finishCmd c 0 (if x.opcode = 0x02 || x.opcode = 0x03 then BitVec.ofNat 32 (b2n x.wt) else x.result) s

/-- One operation of a command has ended. -/
def opLeft (c : Nat) (s : State) : State :=
  match cmdOf c s with
  | none => s
  | some x =>
    let s := updCmd c (fun y => { y with opsLeft := y.opsLeft - 1 }) s
    if x.opsLeft ≤ 1 then concludeCmd c s else s

/-- A sector that was written to members: nothing waits for it any more (06 R228, 07 R262, R266). -/
def unwait (x sec : Nat) (s : State) : State :=
  { s with pipe.cmds := s.pipe.cmds.map (fun e => (e.1, { e.2 with waitSecs := e.2.waitSecs.filter (· != (x, sec)) })),
           cache.invWait := s.cache.invWait.filter (· != (x, sec)) }

/-- Place of a sector of an operation in the cache. -/
def opSecPlace (op : Op) (key : Nat) (s : State) : Nat × Option Nat × Nat :=
  let (line, sec) := lineOf op.pool op.row (key / 16) (16 * op.slice + key % 16) s
  (line, findWay op.pool line s, sec)

/-- Sectors that host data reached leave the lost-extent and lost-write records (06 R227, 08 R552). -/
def leaveExtents (op : Op) (s : State) : State :=
  op.secs.foldl (fun s k =>
    let (line, sec) := lineOf op.pool op.row (k / 16) (16 * op.slice + k % 16) s
    dropLostE op.pool op.row (k / 16) (16 * op.slice + k % 16)
      (if op.hostpost then dropLostW op.pool line sec s else s)) s

/-- Destaged sectors become clean, and the peer's mirror of them too (07 R271, 10 R368). -/
def cleanSecs (op : Op) (s : State) : State :=
  op.secs.foldl (fun s k =>
    match opSecPlace op k s with
    | (line, some x, sec) =>
      let s := if (tagAt x s).dirty.getLsbD sec then unwait x sec (makeClean x sec s)
               else if !cacheOn s && unrestored op.pool line sec s then settleVault op.pool line sec s
               else s
      if mirrorsOut s && (poolEnt op.pool s).dual then sendPair (.mirrorClean op.pool line (bit16 sec)) s else s
    | _ => s) s

/-- Sectors in transit of a failed write are set invalid (06 R226). -/
def dropTransit (op : Op) (s : State) : State :=
  op.secs.foldl (fun s k =>
    match opSecPlace op k s with
    | (_, some x, sec) =>
      let t := tagAt x s
      if t.dirty.getLsbD sec && !t.valid.getLsbD sec then dropSec x sec s else s
    | _ => s) s

/-- An operation of an eviction has ended (07 R264 step 3; the row EVICTION_END follows). -/
def noteEvict (o x : Nat) (ok : Bool) (s : State) : State :=
  { s with cache.evict := tupd s.cache.evict x (fun e =>
      let ops := e.ops.filter (· != o)
      { e with ops := ops, failed := e.failed || !ok, ended := ops.isEmpty }) }

/-- A range invalidate gives up the dirty sectors whose destage failed, and reports ERR (07 R296 INV_CTL). -/
def invFail (op : Op) (s : State) : State :=
  let mine := op.secs.filterMap (fun k => match opSecPlace op k s with
    | (_, some x, sec) => some (x, sec)
    | _ => none)
  if s.cache.invWait.any (fun e => mine.contains e) then
    { s with cache.invErr := true, cache.invWait := s.cache.invWait.filter (fun e => !mine.contains e) }
  else s

/-- Keep a destage for later (07 R264): not before 1 s, and after the patrol check of an inconsistent slice. -/
def keepRetry (op : Op) (status : BitVec 16) (s : State) : State :=
  let r : Retry := { due := s.now + 1000000, patrol := status == 0x0102 }
  invFail op { s with cache.retry := tset s.cache.retry (sliceKey op.pool op.row op.slice) r }

/-- Whether operation `o` is the last one that its mover runs on its row. -/
def lastOnMove (o : Nat) (op : Op) (s : State) : Bool :=
  !s.pipe.ops.any (fun e => e.1 != o && e.2.pool == op.pool && e.2.row == op.row && e.2.why == op.why)

/-- A sector row's mark is removed (09 R343). -/
def unmark (l row ssec : Nat) (s : State) : State :=
  { s with mem.marks := s.mem.marks.filter (fun m => !(m.pool == l && m.row == row && m.ssec == ssec)) }

/-- The marks of every sector row of an operation's span are removed (09 R343). -/
def unmarkSpan (op : Op) (s : State) : State :=
  (List.range op.count).foldl (fun s i => unmark op.pool op.row (16 * op.slice + op.first + i) s) s

/-- Whether another slice of the row follows. -/
def lastSlice (l sl : Nat) (s : State) : Bool :=
  let g := geomOf l s
  (g.ss + 15) / 16 ≤ sl + 1

/-- A move goes back to its committed BOUNDARY: what it did above it is forgotten (04 R149, R150). -/
def toBoundary (r : Reloc) : Reloc := { r with next := r.boundary, window := [], remark := [] }

/-- A row of a mover has been done, or one of its operations failed (04 R149, 08 R325, 09 R350). A cell that fails stops at its
committed BOUNDARY (08 R321); a row that was given out before the move went back to its BOUNDARY does not count. A patrol operation's
end takes the pass to the next slice. -/
def noteMover (o : Nat) (op : Op) (good : Bool) (s : State) : State :=
  if good && !lastOnMove o op s then s else
  let band := op.row / (poolEnt op.pool s).q
  match op.why with
  | .cell e p => updPool op.pool (fun r => { r with relocs := tupd r.relocs (cellKey e p) (fun m =>
      if !good then { toBoundary m with full := true }
      else if m.settled || m.stopped || m.paused || m.full || decide (m.next ≤ band) then m
      else { m with window := nins m.window op.row, remark := m.remark.filter (· != op.row) }) }) s
  | .restore slot => updPool op.pool (fun r => { r with walks := tupd r.walks slot (fun m =>
      let e := (bandEntry op.pool op.row s).2
      if !good then { m with stopped := nins m.stopped e, window := m.window.filter (· != op.row), remark := m.remark.filter (· != op.row) }
      else if m.stopped.contains e || decide (m.next < band) then m
      else { m with window := nins m.window op.row, remark := m.remark.filter (· != op.row) }) }) s
  | .reshape => updPool op.pool (fun r => { r with reshape := { r.reshape with
      finished := if good then nins r.reshape.finished op.row else r.reshape.finished,
      remark := if good then r.reshape.remark else nins r.reshape.remark op.row } }) s
  | .home => if good then poolCommit (op.pool % 8) (updPool op.pool (fun r => { r with reshape := { r.reshape with
      window := r.reshape.window.map (fun w => if w.row = op.row then { w with homed := true } else w) } }) s) else s
  | .replay i => if good then { s with jnl.replay := s.jnl.replay.filter (· != i) } else s
  | .patrol =>
    let next (y : Patrol) : Patrol :=
      if y.st == 3 || y.row != op.row || y.slice != op.slice then y
      else if lastSlice op.pool op.slice s then { y with row := op.row + 1, slice := 0 }
      else { y with slice := op.slice + 1 }
    updPool op.pool (fun r => { r with patrol := next r.patrol }) s
  | _ => s

/-- Read data goes into the cache and to the command (03 R105, 01 R26). -/
def deliverRead (op : Op) (c : Nat) (secs : Tbl HSec) (s : State) : State :=
  match cmdOf c s with
  | none => s
  | some cmd =>
    op.secs.foldl (fun s k =>
      let d := (tgetD secs k {}).data
      let (line, x, sec) := opSecPlace op k s
      let s := match x with
        | some x => if cacheOn s then storeClean op.pool line x sec d s else s
        | none => s
      updCmd c (fun y => { y with rdata := tset y.rdata (opOffset op cmd (k / 16) (k % 16) s) d }) s) s

/-- Offsets of an operation's sectors in its command. -/
def opOffsets (op : Op) (cmd : Cmd) (s : State) : List Nat :=
  op.secs.map (fun k => opOffset op cmd (k / 16) (k % 16) s)

/-- Destages of a sector that have not started: without its data they end, and are made again for the others (R264). -/
def destagesOf (x sec : Nat) (s : State) : List Nat :=
  (s.pipe.ops.filter (fun e => (e.2.kind == 1 || e.2.kind == 2) && !e.2.hostpost && e.2.st != .program && e.2.st != .builtin &&
    e.2.secs.any (fun k => let (_, w, i) := opSecPlace e.2 k s; w == some x && i == sec))).map (·.1)

/-- A destage that has not started has nothing to write any more: it leaves, and the eviction that made it goes on. -/
def dropDestage (o : Nat) (s : State) : State :=
  match opOf o s with
  | none => s
  | some op => freeOp o (match op.why with
    | .evict x => noteEvict o x true s
    | _ => s)

/-- Stage 9 and stage 10 of an operation that ends with a status: what DONE, a trap, a fault or a refusal at
stage 4 leaves. `secs` is its HOST handle. -/
def endOp (o : Nat) (status : BitVec 16) (result : Dword) (secs : Tbl HSec) (s : State) : State :=
  match opOf o s with
  | none => s
  | some op =>
    let ok := status == 0
    let s := match op.kind with
      | 0 => (match op.cmd with
        | none => s
        | some c => if ok then deliverRead op c secs s
                    else match cmdOf c s with
                      | some cmd => failSecs c (opOffsets op cmd s) status s
                      | none => s)
      | 6 => (match op.cmd with
        | none => s
        | some c => if ok then s
                    else match cmdOf c s with
                      | some cmd => failSecs c (opOffsets op cmd s) status s
                      | none => s)
      | 8 => (match op.cmd with
        | none => s
        | some c => if ok then updCmd c (fun y => { y with result := result }) s
                    else updCmd c (fun y => { y with fails := y.fails ++ [(result.toNat, status)] }) s)
      | 1 | 2 =>
        if ok then
          let s := cleanSecs op s
          let s := lostChanged op.pool s (leaveExtents op s)
          let s := if op.kind = 2 then unmarkSpan op s else s
          { s with cache.retry := tdel s.cache.retry (sliceKey op.pool op.row op.slice) }
        else if op.hostpost then
          let s := dropTransit op s
          match op.cmd with
          | some c => (match cmdOf c s with
            | some cmd => failSecs c ((opOffsets op cmd s).take 1) status s
            | none => s)
          | none => s
        else keepRetry op status s
      | _ => (match op.cmd with
        | some c => if ok then s else (match cmdOf c s with
          | some cmd => failSecs c ((opOffsets op cmd s).take 1) status s
          | none => s)
        | none => s)
    let s := match op.why with
      | .evict x => noteEvict o x ok s
      | _ => s
    let s := noteMover o op ok s
    let s := freeOp o s
    match op.cmd with
    | some c => opLeft c s
    | none => s

end Sys2Proof.Machine
end

