-- ==== Sys2Proof/Machine/Builtin.lean ====
section
/-! DEFINITION. Sys2Proof/Machine/Builtin.lean: operations that the control cores run with a built-in procedure
(08 R317, 07 R287, R289, 09 R337, R348, 06 R229, 04 Moving a cell): read, compute, journal, write, retire. Their
reads and writes are instructions in flight under numbers 16 and 17 of the context, their sectors handles 1 and 2.
Log entry 13. -/

namespace Sys2Proof.Machine

/-- Whether every position of an instruction in flight has ended (03 R94, R96). -/
def jobsDone (i : Inflight) : Bool := i.jobs.all (fun e => e.2.left == 0 || e.2.late)

/-- Positions of an operation's row that are erased for it, known-zero ones apart. -/
def opErased (op : Op) (s : State) : Word := erasedSpan op.pool op.row op.slice op.first op.count s ||| op.extra

/-- Erased positions of one sector row. -/
def secErased (op : Op) (i : Nat) (s : State) : Word := erasedSpan op.pool op.row op.slice i 1 s

/-- Whether a position of a row has a home that can be written. -/
def writableHome (l row pos : Nat) (s : State) : Bool := (slotServes l (homeSlot l row pos s) s).isSome

/-- What is known of a sector row, by position: what was read of it, and zeroes where a position is known zero (08 R317). -/
def rowSecs (op : Op) (hd : Handle) (i : Nat) (s : State) : List (Nat × HSec) :=
  (List.range (geomOf op.pool s).w).filterMap (fun p => match tget hd.secs (p * 16 + i) with
    | some x => some (p, x)
    | none => if knownZero op.pool op.row p (16 * op.slice + i) s then some (p, { data := zeroSector }) else none)

/-! ## Queued checks, tag failures (04 R142, 08 R307, 09 R335) -/

/-- Change a pool's patrol record. -/
def updPatrol (l : Nat) (f : Patrol → Patrol) (s : State) : State := updPool l (fun p => { p with patrol := f p.patrol }) s

/-- Mark list capacity (09 R342). -/
def markMax : Nat := 65536

/-- Check queue capacity (09 R335). -/
def checkMax : Nat := 4096

/-- Queue a slice for a patrol check (09 R335). -/
def queueCheck (l row sl : Nat) (s : State) : State :=
  if s.mem.checks.contains (l, row, sl) then s
  else if checkMax ≤ s.mem.checks.length then
    recEvent 0x1F5 0x0031 (l % 8) (leBytes 6 row ++ leBytes 1 sl)
      (updPatrol l (fun p => { p with dropped := sat32 p.dropped 1 }) s)
  else { s with mem.checks := s.mem.checks ++ [(l, row, sl)] }

/-- Times of a list within the last 24 operating hours. -/
def lastDay (l : List Nat) (s : State) : List Nat := l.filter (fun t => decide (opSeconds s < t + 86400))

/-- A tag failure of a sector that a member returned counts against the member and raises its message (04 R142, 08 R307, 14
R550). -/
def noteTagFail (l row pos ssec : Nat) (s : State) : State :=
  let (slot, page) := pageOf l row pos ssec s
  let s := updSlot l slot (fun r => { r with tagFailTotal := sat32 r.tagFailTotal 1, tagFails := lastDay r.tagFails s ++ [opSeconds s] }) s
  match (slotRec l slot s).port with
  | some q => raise (portSrc q) 0x32 (lbaOf l page s).1 s
  | none => s

/-! ## Reads -/

/-- The volume sector that a target sector of a reshape holds, with its place in the source layout. -/
def sourceOf (op : Op) (pos i : Nat) (s : State) : Option (Nat × Nat × Nat × Nat) :=
  let p := op.pool % 8
  match volOfRow op.pool op.row s with
  | none => none
  | some v => match tget (tab s).vols v with
    | none => none
    | some e =>
      let g := geomOf op.pool s
      let x := (op.row - volStart v e op.pool s) * (g.k * g.ss) + pos * g.ss + 16 * op.slice + i
      if x < e.sectors then some (locIn p v e x s) else none

/-- The source sector rows of a reshape operation: (row, strip sector) without repeats, in order of use. -/
def sourceRows (op : Op) (s : State) : List (Nat × Nat) :=
  let g := geomOf op.pool s
  ((List.range g.k).flatMap (fun pos => (List.range op.count).filterMap (fun i =>
    (sourceOf op pos (op.first + i) s).map (fun x => (x.2.1, x.2.2.2))))).eraseDups

/-- Read one sector of a source row into place `key` of handle 1 (09 R348). -/
def startSource (c key row pos ssec l : Nat) (s : State) : State :=
  let (slot, page) := pageOf l row pos ssec s
  let (lba, t) := lbaOf l page s
  match slotServes l slot s with
  | none => s
  | some port =>
    let sr := some (l, slot)
    let s := sendMember port sr (.rd c 16 (key / 16) (key % 16) 1) (.read lba 1) (countCell l row pos false s)
    let s := updJob c 16 (key / 16) (fun j => { j with left := j.left + 1 }) s
    match t with
    | none => s
    | some (tl, idx) =>
      let s := sendMember port sr (.rdTag c 16 (key / 16) (key % 16) 1 idx) (.read tl 1) s
      updJob c 16 (key / 16) (fun j => { j with left := j.left + 1 }) s

/-- The positions that a built-in procedure reads in its own row. -/
def biReadMask (op : Op) (s : State) : Word :=
  let g := geomOf op.pool s
  let all := span 0 g.w &&& ~~~ opErased op s
  match op.why with
  | .dealloc => 0
  | .reshape => 0
  | .replay i => if (tgetD s.jnl.own i {}).reloc then 0 else all
  | .cell _ _ | .restore _ =>
    if sub op.rebuild (zeroMask op.pool op.row op.slice op.first op.count s) then 0
    else if op.rebuild &&& opErased op s == 0 then op.rebuild
    else all
  | _ => all

/-- Start a built-in procedure: its reads go out. -/
def biStart (o : Nat) (s : State) : State :=
  match opOf o s with
  | none => s
  | some op => match op.ctx with
    | none => s
    | some c =>
      let h : Handle := { kind := .scratch, first := op.first, count := op.count, mask := biReadMask op s }
      let s := updOp o (fun x => { x with st := .builtin, bi := .read, erased := opErased op s }) s
      let s := updCtx c (fun x => { x with handles := tset x.handles 1 h, inflight := [(16, { writes := some 1, issuedAt := s.now })] }) s
      match op.why with
      | .reshape =>
        let g := geomOf (op.pool % 8) s
        ((sourceRows op s).zipIdx).foldl (fun s ((row, ssec), n) =>
          (List.range g.w).foldl (fun s pos =>
            if posErased (op.pool % 8) row pos s then s
            else startSource c (n * 64 + pos) row pos ssec (op.pool % 8) s) s) s
      | _ => (bitsOf (biReadMask op s)).foldl (fun s p => startRead c 16 1 p op op.first op.count s) s

/-! ## Computation -/

/-- A sector whose content the spec leaves undefined (03 R97): free value `n` (log entry 2). -/
def freeSec (n : Nat) : HSec :=
  { data := (List.range 4096).map (Config.freeByte n), tag := Config.freeWord n }

/-- Bytes of a sector of B0 at its start: write data, or a cached sector, or undefined. -/
def hostSec (op : Op) (key n : Nat) (s : State) : HSec :=
  match tget op.hdata key with
  | some h => { freeSec n with data := h.data, bad := h.bad }
  | none =>
    if op.kind = 0 && op.secs.contains key then freeSec n
    else match opSecPlace op key s with
      | (_, some x, sec) => { freeSec n with data := cacheSec x sec s }
      | _ => freeSec n

/-- What a built-in procedure writes and leaves: sectors by position × 16 + sector, lost sector rows with
reason, status, verdicts for a patrol. -/
structure BiRes where
  writes : Tbl HSec := []
  lost : List (Nat × Word) := []
  reason : Nat := 1
  stuck : Bool := false
  verdicts : List (Nat × Verdict) := []
  /-- sectors whose parity is encoded from data -/
  encoded : List Nat := []
  /-- what a host operation ends with: its status, and its HOST sectors -/
  status : BitVec 16 := 0
  secs : Tbl HSec := []
  deriving DecidableEq, Repr

/-- Add a sector to write with a generation. -/
def BiRes.put (r : BiRes) (pos i : Nat) (d : List Byte) (gen : Dword) : BiRes :=
  { r with writes := tset r.writes (pos * 16 + i) { data := d, tag := mkTag d gen } }

/-- The generation after the one that parity carries in a sector row: the next one (04 R138). Parity positions that a check names
as wrong do not tell it (09 R338). -/
def nextGen (g : Geom) (secs : List (Nat × HSec)) (wrong : List Nat := []) : Dword :=
  match (secs.filter (fun x => g.k ≤ x.1 && tagOk x.2 && !wrong.contains x.1)).map (fun x => if x.2.tag == 0 then 0 else tagGen x.2.tag) with
  | [] => 1
  | x :: _ => x + 1

/-- Write positions of a sector row from its content. -/
def BiRes.putRow (r : BiRes) (ps : List Nat) (i : Nat) (row : List (List Byte)) (gen : Dword) : BiRes :=
  ps.foldl (fun r p => r.put p i (row.getD p []) gen) r

/-- Whether a seal can write a position: at its present home, or where the operation rebuilds it. -/
def sealWritable (op : Op) (p : Nat) (s : State) : Bool :=
  writableHome op.pool op.row p s || (op.rebuild.getLsbD p && (writeAddrs op p op.first 1 s).all (fun a => (slotServes op.pool a.2.1 s).isSome))

/-- Seal one sector row (08 R317), or stop when the list has no room (08 R321). -/
def biSeal (op : Op) (g : Geom) (c : List Byte) (i : Nat) (er : Word) (secs : List (Nat × HSec)) (reason : Nat)
    (s : State) (r : BiRes) : BiRes :=
  let failed := maskOf ((List.range g.k).filter (fun p => !er.getLsbD p && !secs.any (fun x => x.1 == p && tagOk x.2)))
  let zero := ((er ||| failed) &&& g.dataMask) ||| (zeroMask op.pool op.row op.slice i 1 s &&& g.dataMask)
  if !lostERoom s then { r with stuck := true }
  else match sealedRow g c zero secs with
    | none => r
    | some row =>
      let ps := ((List.range g.w).filter (fun p => (g.k ≤ p && (!er.getLsbD p || op.rebuild.getLsbD p)) || zero.getLsbD p)).filter
        (fun p => sealWritable op p s)
      { (r.putRow ps i row (nextGen g secs)) with lost := r.lost ++ [(i, (er ||| failed) &&& g.dataMask)], reason := reason }

/-- Dirty data of a sector row at the positions of a journal entry, from the cache or as paged from the vault (07 R287; 11 R415). -/
def cachedRow (op : Op) (mask : Word) (i : Nat) (s : State) : List (Nat × List Byte) :=
  (bitsOf (mask &&& (geomOf op.pool s).dataMask)).filterMap (fun p =>
    let (line, sec) := lineOf op.pool op.row p (16 * op.slice + i) s
    match findLine op.pool line s with
    | some x =>
      let t := tagAt x s
      if t.valid.getLsbD sec && t.dirty.getLsbD sec then some (p, cacheSec x sec s) else (vaultData op.pool line sec s).map (fun d => (p, d))
    | none => (vaultData op.pool line sec s).map (fun d => (p, d)))

/-- One sector row of a rebuild, restore or copy (04 Moving a cell, 08 R316, R317, 09 R343): the position as its present home
holds it, else decoded, else the sector row is sealed. -/
def biMove (op : Op) (g : Geom) (c : List Byte) (i : Nat) (secs : List (Nat × HSec)) (s : State) (r : BiRes) : BiRes :=
  let p := lowPos op.rebuild
  if knownZero op.pool op.row p (16 * op.slice + i) s then
    { r with writes := tset r.writes (p * 16 + i) { data := zeroSector, tag := 0 } }
  else match secs.find? (fun x => x.1 == p && tagOk x.2) with
    | some (_, x) => { r with writes := tset r.writes (p * 16 + i) x }
    | none =>
      let er := secErased op i s
      let marked := s.mem.marks.any (fun m => m.pool == op.pool && m.row == op.row && m.ssec == 16 * op.slice + i)
      let good := (secs.filter (fun x => tagOk x.2)).map (fun x => (x.1, x.2.data))
      match (if marked then none else decodeAll g c good) with
      | some row => r.put p i (row.getD p []) (nextGen g secs - 1)
      | none => biSeal op g c i er secs 1 s r

/-- The verdict on the source sector row `n` of a reshape operation (09 R348). -/
def sourceVerdict (op : Op) (hd : Handle) (n : Nat) (s : State) : Verdict :=
  let l := op.pool % 8
  let (row, ssec) := (sourceRows op s).getD n (0, 0)
  let secs := (List.range (geomOf l s).w).filterMap (fun p => (tget hd.secs (n * 64 + p)).map (fun x => (p, x)))
  let known := secs ++ ((List.range (geomOf l s).w).filter (fun p => !secs.any (·.1 == p) && knownZero l row p ssec s)).map (fun p =>
    (p, { data := zeroSector }))
  checkRow (geomOf l s) (coeffsOf l s) (erasedSpan l row (ssec / 16) (ssec % 16) 1 s) known (!(prof s).patrolLeaveMarked)
    (fun p => writableHome l row p s)

/-- The source slices of a reshape operation that a check has to repair, or to mark, before their data is used (09 R348). -/
def sourceFixes (op : Op) (hd : Handle) (s : State) : List (Nat × Nat) :=
  let l := op.pool % 8
  (((sourceRows op s).zipIdx).filterMap (fun ((row, ss), n) =>
    let v := sourceVerdict op hd n s
    let marked := s.mem.marks.any (fun m => m.pool == l && m.row == row && m.ssec == ss)
    if !v.writes.isEmpty || (v.outcome == .marked && !marked && decide (s.mem.marks.length < markMax)) then some (row, ss / 16)
    else none)).eraseDups

/-- A reshape's target sector row from the source sector rows it needs (09 R348). What neither a source nor its row gives is lost,
and so is, where the target row's erasures exceed m, the data of its erased positions: the sector row is sealed (R352). -/
def biReshape (op : Op) (g : Geom) (c : List Byte) (i : Nat) (hd : Handle) (s : State) (r : BiRes) : BiRes :=
  let srcs := sourceRows op s
  let er := erasedMask op.pool op.row s
  let gone := if g.m < pop er then er else 0
  let sec (pos : Nat) : Option (List Byte) :=
    match sourceOf op pos i s with
    | none => some zeroSector
    | some (l, row, p, ssec) =>
      if knownZero l row p ssec s || gone.getLsbD pos then none
      else match (sourceVerdict op hd (srcs.idxOf (row, ssec)) s).row with
        | some content => some (content.getD p [])
        | none => (tget hd.secs (srcs.idxOf (row, ssec) * 64 + p)).bind (fun x => if tagOk x then some x.data else none)
  let data := (List.range g.k).map sec
  let lostM := maskOf ((List.range g.k).filter (fun p => (data.getD p none).isNone))
  if lostM != 0 && !lostERoom s then { r with stuck := true }
  else
    let ds := data.map (fun x => x.getD zeroSector)
    let row := ds ++ encodeParity g c ds
    let ps := (List.range g.w).filter (fun p => writableHome op.pool op.row p s)
    let r := r.putRow ps i row 1
    if lostM == 0 then r else { r with lost := r.lost ++ [(i, lostM)], reason := 1 }

/-- Whether a position of a target row can be written at its home (09 R349). -/
def homeWritable (l row pos : Nat) (s : State) : Bool :=
  let (band, e) := bandEntry l row s
  (slotServes l (lookupHome l e pos band s).1 s).isSome

/-- A window row's sectors go home as they are; one that cannot be read is decoded (09 R349), and where that fails the sector row is
sealed (R352). -/
def biHome (op : Op) (g : Geom) (c : List Byte) (i : Nat) (secs : List (Nat × HSec)) (s : State) (r : BiRes) : BiRes :=
  let good := (secs.filter (fun x => tagOk x.2)).map (fun x => (x.1, x.2.data))
  let zero (p : Nat) : Bool := knownZero op.pool op.row p (16 * op.slice + i) s
  let homes := (List.range g.w).filter (fun p => homeWritable op.pool op.row p s)
  let bad := maskOf ((List.range g.k).filter (fun p => !good.any (·.1 == p) && !zero p))
  if bad != 0 && (decodeAll g c good).isNone then
    if !lostERoom s then { r with stuck := true }
    else
      let data := (List.range g.k).map (fun p => ((good.find? (·.1 == p)).map (·.2)).getD zeroSector)
      { (r.putRow homes i (data ++ encodeParity g c data) (nextGen g secs)) with lost := r.lost ++ [(i, bad)], reason := 1 }
  else homes.foldl (fun r p =>
    match secs.find? (fun x => x.1 == p && tagOk x.2) with
    | some (_, x) => { r with writes := tset r.writes (p * 16 + i) x }
    | none =>
      if zero p then { r with writes := tset r.writes (p * 16 + i) { data := zeroSector, tag := 0 } }
      else match decodeAll g c good with
        | some row => r.put p i (row.getD p []) (nextGen g secs - 1)
        | none => r) r

/-- A status that one sector row of a host operation gives: the first failure counts. -/
def BiRes.failed (r : BiRes) (st : BitVec 16) : BiRes := if r.status == 0 then { r with status := st } else r

/-- One sector row of a READ, a destage or a VERIFY whose program would take a known-zero position (08 R317). A READ gets its
missing sectors, decoded where they are erased or unreadable. A destage writes its sectors and every parity at the next generation.
A VERIFY compares. What cannot be decoded ends MEDIA_LOST (0x0101). -/
def biHost (op : Op) (g : Geom) (c : List Byte) (i : Nat) (er : Word) (secs : List (Nat × HSec)) (s : State) (r : BiRes) : BiRes :=
  let good := (secs.filter (fun x => tagOk x.2)).map (fun x => (x.1, x.2.data))
  let zeroes := (List.range g.k).all (fun p => good.any (·.1 == p))
  let full := if zeroes then some ((List.range g.k).map (fun p => ((good.find? (·.1 == p)).map (·.2)).getD [])) else
    (decodeAll g c good).map (fun row => row.take g.k)
  let want := (List.range g.k).filter (fun p => op.secs.contains (p * 16 + i))
  match op.kind with
  | 0 =>
    let mine := want.filter (fun p => good.any (·.1 == p))
    (match full with
     | some row => { r with secs := want.foldl (fun t p => tset t (p * 16 + i) { data := row.getD p [] }) r.secs }
     | none => if mine.length = want.length then
         { r with secs := good.foldl (fun t x => if want.contains x.1 then tset t (x.1 * 16 + i) { data := x.2 } else t) r.secs }
       else r.failed 0x0101)
  | 6 =>
    if good.length < g.k then r.failed 0x0101
    else if secs.any (fun x => !tagOk x.2) || (agree g c good).isNone then r.failed 0x0102
    else r
  | _ => match full with
    | none => r.failed 0x0104
    | some old =>
      if want.isEmpty then r
      else
        let data := (List.range g.k).map (fun p => if want.contains p then (hostSec op (p * 16 + i) s.free s).data else old.getD p [])
        let ps := (List.range g.w).filter (fun p => (g.k ≤ p || want.contains p) && !er.getLsbD p && writableHome op.pool op.row p s)
        r.putRow ps i (data ++ encodeParity g c data) (nextGen g secs)

/-- One sector row of a built-in procedure. -/
def biRow (op : Op) (hd : Handle) (s : State) (r : BiRes) (i : Nat) : BiRes :=
  let g := geomOf op.pool s
  let c := coeffsOf op.pool s
  let secs := rowSecs op hd i s
  let er := secErased op i s
  let redo (x : Redo) (ps : List Nat) (gen : Dword) (reason : Nat) : BiRes :=
    match x with
    | .rewrite row enc =>
      let r := r.putRow (ps.filter (fun p => writableHome op.pool op.row p s)) i row gen
      if enc then { r with encoded := r.encoded ++ [i] } else r
    | .keep => r
    | .seal => biSeal op g c i er secs reason s r
  match op.why with
  | .cell _ _ => biMove op g c i secs s r
  | .restore _ => biMove op g c i secs s r
  | .sealRow => biSeal op g c i er secs 1 s r
  | .reshape => biReshape op g c i hd s r
  | .home => biHome op g c i secs s r
  | .replay idx =>
    let e := tgetD s.jnl.own idx {}
    if e.reloc then r
    else
      let cached := if e.cached then cachedRow op e.positions i s else []
      redo (replayRow g c er e.positions cached secs e.newGen)
        ((List.range g.w).filter (fun p => g.k ≤ p || ((e.cached || er != 0) && e.positions.getLsbD p))) (e.newGen + 1) 2
  | .region => redo (resyncRow g c er secs) ((List.range g.w).filter (g.k ≤ ·)) (nextGen g secs) 3
  | .patrol | .check =>
    let v := checkRow g c er secs (!(prof s).patrolLeaveMarked) (fun p => writableHome op.pool op.row p s)
    let gen := nextGen g secs v.named
    let extra := if v.writes.isEmpty then [] else match v.row with
      | some row => ((List.range g.w).filter (fun p => g.k ≤ p && !er.getLsbD p && !v.writes.any (·.1 == p) &&
          writableHome op.pool op.row p s)).map (fun p => (p, row.getD p []))
      | none => []
    let r := (v.writes ++ extra).foldl (fun r (p, d) => r.put p i d gen) r
    { r with verdicts := r.verdicts ++ [(i, v)] }
  | .dealloc =>
    ((List.range g.w).filter (fun p => g.k ≤ p && !er.getLsbD p)).foldl (fun r p =>
      { r with writes := tset r.writes (p * 16 + i) { data := zeroSector, tag := 0 } }) r
  | _ => biHost op g c i er secs s r

/-- Everything a built-in procedure computes from what it read. -/
def biCompute (op : Op) (hd : Handle) (s : State) : BiRes :=
  ((List.range op.count).map (· + op.first)).foldl (fun r i => biRow op hd s r i) {}

/-! ## Patrol outcomes (09 R340 to R344) -/

/-- Count one outcome in the patrol record. -/
def countOutcome (o : Outcome) (p : Patrol) : Patrol :=
  let p := { p with checked := p.checked + 1 }
  match o with
  | .clean => p
  | .repaired => { p with repaired := sat32 p.repaired 1 }
  | .corrected => { p with corrected := sat32 p.corrected 1 }
  | .rewritten => { p with rewritten := sat32 p.rewritten 1 }
  | .marked => { p with markedN := sat32 p.markedN 1 }
  | .unchecked | .lost => { p with unchecked := sat32 p.unchecked 1 }

/-- One sector row's verdict takes effect: record, event, mark (09 R340 to R344). Slice and sector share a byte of the event's detail,
so that every position has its bit (log entry 84). -/
def noteVerdict (op : Op) (i : Nat) (v : Verdict) (s : State) : State :=
  let ssec := 16 * op.slice + i
  let had := s.mem.marks.any (fun m => m.pool == op.pool && m.row == op.row && m.ssec == ssec)
  let s := updPatrol op.pool (countOutcome v.outcome) s
  let s := match v.outcome with
    | .clean | .rewritten => unmark op.pool op.row ssec s
    | _ => s
  let note := match v.outcome with
    | .clean | .lost => false
    | .unchecked => !v.named.isEmpty
    | _ => true
  let s := if note then recEvent 0x1F5 0x0030 (op.pool % 8) (leBytes 6 op.row ++ leBytes 1 (op.slice + 16 * i) ++
             leBytes 8 (maskOf v.named).toNat ++ leBytes 1 v.outcome.code) s else s
  match v.outcome with
  | .marked =>
    if had then s
    else if markMax ≤ s.mem.marks.length then
      (match op.why with
       | .patrol => if (poolRec op.pool s).patrol.st = 3 then s else recEvent 0x1F5 0x0032 (op.pool % 8) (leBytes 6 op.row)
           (poolCommit op.pool (updPatrol op.pool (fun p =>
             ({ p with st := 3, row := op.row, slice := op.slice, lastCommit := opSeconds s } : Patrol).save) s))
       | _ => s)
    else
      let m : Mark := { row := op.row, pool := op.pool, ssec := ssec, unlocated := v.unlocated, opSeconds := opSeconds s }
      { s with mem.marks := s.mem.marks ++ [m] }
  | _ => s

/-- Every verdict of a check takes effect; a queued check that would make a mark for which the list has no room is dropped, counted
and recorded once (09 R344). -/
def noteVerdicts (op : Op) (vs : List (Nat × Verdict)) (s : State) : State :=
  let s := vs.foldl (fun s (i, v) => noteVerdict op i v s) s
  let short := vs.any (fun (i, v) => v.outcome == .marked &&
    !s.mem.marks.any (fun m => m.pool == op.pool && m.row == op.row && m.ssec == 16 * op.slice + i))
  if short && op.why != .patrol then
    recEvent 0x1F5 0x0031 (op.pool % 8) (leBytes 6 op.row ++ leBytes 1 op.slice)
      (updPatrol op.pool (fun p => { p with dropped := sat32 p.dropped 1 }) s)
  else s

/-! ## Journal, writes, end -/

/-- Whether no journal entry may open on a layout now: while its pool is shared and the pair is in SUSPECT, and while R379 holds it (10
R369, R379). -/
def jnlHeld (l : Nat) (s : State) : Bool :=
  owns l s && ((s.pair.st == 5 && (poolEnt l s).dual) || ackHold l s)

/-- Whether a mirror message has been acknowledged. -/
def acked (n : Option Nat) (s : State) : Bool :=
  match n with
  | none => true
  | some k => !s.pair.unacked.any (fun m => m.1 == 1 && m.2.1 == k)

/-- Whether an entry that a context opened is durable: pre-marks done (07 R291) and mirrored when paired
(10 R369); in SUSPECT, and while R379 holds the pool, it waits. -/
def jnlDurable (c : Nat) (mirror : Option Nat) (s : State) : Bool :=
  let l := (((ctxOf c s).bind (fun x => opOf x.op s)).map (·.pool)).getD 0
  s.pair.st != 5 && !ackHold l s && acked mirror s && premarksDone c s

/-- The peer holds a copy of an own entry from now on (07 R282 MIRRORED). -/
def setMirrored (idx : Nat) (s : State) : State := { s with jnl.own := tupd s.jnl.own idx (fun e => { e with mirrored := true }) }

/-- Send the mirror of an entry, when paired; answers the message it waits for. -/
def mirrorJnl (idx : Nat) (s : State) : Option Nat × State :=
  if mirrorsOut s && (poolEnt (tgetD s.jnl.own idx {}).pool s).dual then
    let s := setMirrored idx s
    (some (pairSeq 1 s), sendPair (.jnlMirror (jnlWire (tgetD s.jnl.own idx {}))) s)
  else (none, s)

/-- Retire a context's entry and the peer's copy (07 R284, 10 R369). -/
def closeJnl (idx : Nat) (s : State) : State :=
  let e := tgetD s.jnl.own idx {}
  let s := retireJnl idx s
  if mirrorsOut s && e.mirrored then sendPair (.jnlRetire e.seq) s else s

/-- A marked region's row has been made whole; the bit clears with its last row (07 R289). -/
def resyncNext (l row : Nat) (s : State) : State :=
  let k := regionKey l row s
  let sh := tgetD s.jnl.shift l 6
  let last := min ((row / 2 ^ sh + 1) * 2 ^ sh) (rowsOf l s)
  let done := nins s.jnl.resyncDone (l * 2 ^ 48 + row)
  let from_ := tgetD s.jnl.resync k 0
  match ((List.range (last - from_)).map (· + from_)).find? (fun r => !done.contains (l * 2 ^ 48 + r)) with
  | some r => { s with jnl.resync := tset s.jnl.resync k r, jnl.resyncDone := done }
  | none => { s with jnl.resync := tdel s.jnl.resync k, jnl.marked := s.jnl.marked.filter (· != k),
                     jnl.resyncDone := done.filter (fun r => regionKey (r / 2 ^ 48) (r % 2 ^ 48) s != k) }

/-- Sealing pauses for want of room (08 R321). -/
def pauseSeal (l : Nat) (s : State) : State :=
  let s := if (poolRec l s).sealPaused then s else recEvent 0x1F5 0x0022 (l % 8) [] s
  updPool l (fun p => { p with sealPaused := true }) s

/-- A deallocated slice's cached sectors are dropped without write-back (07 R267), and its records end. -/
def dropSlice (op : Op) (s : State) : State :=
  op.secs.foldl (fun s k =>
    let (line, sec) := lineOf op.pool op.row (k / 16) (16 * op.slice + k % 16) s
    let s := match findLine op.pool line s with
      | some x =>
        let os := destagesOf x sec s
        os.foldl (fun s o => dropDestage o s) (unwait x sec (dropSec x sec s))
      | none => if unrestored op.pool line sec s then settleVault op.pool line sec s else s
    lostChanged op.pool s (dropLostE op.pool op.row (k / 16) (16 * op.slice + k % 16) (dropLostW op.pool line sec s))) s

/-- The marks of the sector rows whose parity was encoded from data are removed (09 R343). -/
def unmarkEncoded (op : Op) (s : State) : State :=
  if op.bi == .close then op.encoded.foldl (fun s i => unmark op.pool op.row (16 * op.slice + i) s) s else s

/-- The end of a built-in procedure. -/
def biEnd (o : Nat) (op : Op) (r : BiRes) (s : State) : State :=
  let s := noteVerdicts op r.verdicts s
  let s := match op.why with
    | .check => { s with mem.checks := s.mem.checks.filter (· != (op.pool, op.row, op.slice)) }
    | _ => s
  if r.stuck then endOp o 0x0104 0 [] (pauseSeal op.pool s)
  else
    let s := match op.why with
      | .replay idx => closeJnl idx (unmarkEncoded op s)
      | .region =>
        let s := unmarkEncoded op s
        if lastSlice op.pool op.slice s then resyncNext op.pool op.row s else s
      | .dealloc => dropSlice op s
      | _ => if op.kind == 6 && r.status == 0x0102 then queueCheck op.pool op.row op.slice s else s
    endOp o r.status 0 r.secs s

/-- Record the lost sector rows of a seal (08 R317 step 1, R319). -/
def biLose (op : Op) (r : BiRes) (s : State) : State :=
  lostChanged op.pool s (r.lost.foldl (fun s (i, m) => if m == 0 then s else addLostE op.pool op.row op.slice m i 1 r.reason s) s)

/-- Positions that a result writes. -/
def BiRes.mask (r : BiRes) : Word := maskOf (r.writes.map (fun e => e.1 / 16))

/-- Sectors that a member returned with a bad tag: (pool, row, position, strip sector). -/
def badTags (op : Op) (hd : Handle) (s : State) : List (Nat × Nat × Nat × Nat) :=
  let bad := hd.secs.filter (fun e => e.2.read && !tagOk e.2)
  match op.why with
  | .reshape =>
    let srcs := sourceRows op s
    bad.map (fun e => let (row, ssec) := srcs.getD (e.1 / 64) (0, 0); (op.pool % 8, row, e.1 % 64, ssec))
  | _ => bad.map (fun e => (op.pool, op.row, e.1 / 16, 16 * op.slice + e.1 % 16))

/-- The tag failures that a built-in procedure's reads found count, and their slices are queued for a check, unless the procedure
is itself a patrol's (04 R142; 08 R307, R316). A rebuild whose sources were not all read queues its slice too. -/
def noteBadTags (op : Op) (hd : Handle) (s : State) : State :=
  let check (l row sl : Nat) (s : State) : State := match op.why with
    | .patrol | .check => s
    | _ => queueCheck l row sl s
  let s := (badTags op hd s).foldl (fun s (l, row, pos, ssec) => check l row (ssec / 16) (noteTagFail l row pos ssec s)) s
  let short := (bitsOf hd.mask).any (fun p => (List.range op.count).any (fun i => (tget hd.secs (p * 16 + op.first + i)).isNone &&
    !knownZero op.pool op.row p (16 * op.slice + op.first + i) s))
  match op.why with
  | .cell _ _ | .restore _ => if short then queueCheck op.pool op.row op.slice s else s
  | _ => s

/-- Whether a copy's source could not be read whole, so that the rest of the row has to be read and the position decoded (04 R150,
R161; 08 R316). -/
def copyFailed (op : Op) (hd : Handle) (s : State) : Bool :=
  (match op.why with
   | .cell _ _ => true
   | .restore _ => true
   | _ => false) && hd.mask == op.rebuild && op.extra &&& op.rebuild == 0 &&
  (List.range op.count).any (fun i =>
    let p := lowPos op.rebuild
    !(tagOk (tgetD hd.secs (p * 16 + op.first + i) { tagBad := true })) && !knownZero op.pool op.row p (16 * op.slice + op.first + i) s)

/-- The other positions of a row are read, beside what the copy has read. -/
def redoAsRebuild (o c : Nat) (op : Op) (hd : Handle) (s : State) : State :=
  let op' : Op := { op with extra := op.extra ||| op.rebuild }
  let more := span 0 (geomOf op.pool s).w &&& ~~~ opErased op' s
  let s := updOp o (fun x => { x with extra := op'.extra, erased := opErased op' s }) s
  let s := updCtx c (fun x => { x with handles := tset x.handles 1 { hd with mask := hd.mask ||| more, secs := hd.secs.filter (fun e => tagOk e.2) },
                                       inflight := [(16, { writes := some 1, issuedAt := s.now })] }) s
  (bitsOf more).foldl (fun s p => startRead c 16 1 p op' op.first op.count s) s

/-- Whether a built-in procedure may open a journal entry of its own. -/
def opensJnl (op : Op) : Bool :=
  match op.why with
  | .replay _ => false
  | _ => !(op.kind == 0 || op.kind == 6)

/-- Advance a built-in procedure whose outstanding member commands have ended. -/
def biAdvance (o : Nat) (s : State) : State :=
  match opOf o s with
  | none => s
  | some op => match op.st, op.ctx with
    | .builtin, some c =>
      match ctxOf c s with
      | none => s
      | some x =>
        match op.bi with
        | .read =>
          if !(((tget x.inflight 16).map jobsDone).getD true) || (opensJnl op && jnlHeld op.pool s) then s
          else
            let hd := tgetD x.handles 1 {}
            if copyFailed op hd s then redoAsRebuild o c op hd (noteBadTags op hd s)
            else
            let s := noteBadTags op hd s
            let fixes := if op.why == .reshape then sourceFixes op hd s else []
            if !fixes.isEmpty then
              endOp o 0x0102 0 [] (fixes.foldl (fun s f =>
                if s.mem.checks.length < checkMax then queueCheck (op.pool % 8) f.1 f.2 s else s) s)
            else
            let r := biCompute op hd s
            if r.stuck || (r.writes.isEmpty && op.why != .dealloc) then biEnd o op r (biLose op r s)
            else if commitsRefused s then endOp o 0x0104 0 [] s
            else
              let s := biLose op r s
              let gen := match r.writes with
                | (_, h) :: _ => tagGen h.tag
                | [] => 0
              let (idx, s) := match op.why with
                | .replay i => (i, s)
                | _ => openJnl c op (r.mask ||| (if op.why == .dealloc then (geomOf op.pool s).dataMask else 0))
                         op.first op.count gen ((op.kind == 1 || op.kind == 2) && !op.hostpost) (relocates op) s
              let (m, s) := mirrorJnl idx s
              let hd : Handle := { kind := .scratch, first := op.first, count := op.count, mask := r.mask, tagged := true, secs := r.writes }
              let s := updOp o (fun y => { y with bi := .write, encoded := r.encoded }) s
              updCtx c (fun y => { y with jnl := some idx, handles := tset y.handles 2 hd,
                                          inflight := [(16, { mirror := m })], sch := none }) s
        | .write =>
          let mirror := ((tget x.inflight 16).map (·.mirror)).getD none
          if !jnlDurable c mirror s then s
          else
            let hd := tgetD x.handles 2 {}
            let s := usePremarks c s
            let s := updCtx c (fun y => { y with inflight := [(17, { reads := some 2, issuedAt := s.now })] }) s
            let s := if op.why == .dealloc then
                (bitsOf ((geomOf op.pool s).dataMask)).foldl (fun s p =>
                  (joinRuns (spanAddrs op.pool op.row p op.slice op.first op.count s)).foldl (fun s q =>
                    match slotServes op.pool q.slot s with
                    | none => s
                    | some port =>
                      let s := sendMember port (some (op.pool % 8, q.slot)) (.wr c 17 p (op.first + q.fr) q.n none []) (.deallocate q.lba q.n)
                        (markMovers op (countCell op.pool op.row p true s))
                      updJob c 17 p (fun j => { j with left := j.left + 1 }) s) s) s
              else s
            let s := (bitsOf hd.mask).foldl (fun s p =>
              startWrite c 17 hd p op true s (fun i => (tget hd.secs (p * 16 + hd.first + i)).isSome)) s
            updOp o (fun y => { y with bi := .close }) s
        | .close =>
          if !(((tget x.inflight 17).map jobsDone).getD true) then s
          else
            let r := match op.why with
              | .patrol | .check => biCompute op (tgetD x.handles 1 {}) s
              | _ => {}
            let bad := maskOf ((((tget x.inflight 17).map (·.jobs)).getD []).filter (·.2.fail) |>.map (·.1))
            if (op.kind == 1 || op.kind == 2) && decide ((geomOf op.pool s).m < pop (opErased op s ||| bad)) then
              endOp o 0x0104 0 [] (match x.jnl with
                | some i => { s with jnl.replay := nins s.jnl.replay i }
                | none => s)
            else
            let s := match op.why, x.jnl with
              | .replay _, _ => s
              | _, some idx => closeJnl idx s
              | _, none => s
            biEnd o op r s
    | _, _ => s

/-- Advance every built-in procedure as far as it goes. -/
def biAll (s : State) : State :=
  (s.pipe.ops.filter (fun e => e.2.st == .builtin)).foldl (fun s e => biAdvance e.1 (biAdvance e.1 (biAdvance e.1 s))) s

end Sys2Proof.Machine
end

