-- ==== Sys2Proof/Machine/Stage4.lean ====
section
/-! DEFINITION. Sys2Proof/Machine/Stage4.lean: stage 4, dispatch (03 R80 to R85, R111; 08 R310, R316; 07 R289; 01
R9): which program an operation runs, when it waits, and what its context starts with. -/

namespace Sys2Proof.Machine

/-! ## Entries (03 R81, R82, R114) -/

/-- START of a dispatch or routine table entry. -/
def entStart (lo : Word) : Nat := fld lo.toNat 16 0
/-- Program length in instructions: LEN + 1. -/
def entLen (lo : Word) : Nat := fld lo.toNat 28 17 + 1
/-- VALID. -/
def entValid (lo : Word) : Bool := lo.getLsbD 29
/-- MAY_WRITE of a routine entry (R114). -/
def entMayWrite (lo : Word) : Bool := lo.getLsbD 30
/-- SCRATCH. -/
def entScratch (lo : Word) : Nat := fld lo.toNat 42 32

/-- Whether stage 4 may start an entry, fences apart (R82). -/
def entUsable (routine : Bool) (e : Word × Word) (area : Nat) : Bool :=
  entValid e.1 && (routine || !e.1.getLsbD 30) && !e.1.getLsbD 31 && fld e.1.toNat 63 43 == 0 && e.2 == 0 &&
  decide (entStart e.1 + entLen e.1 ≤ area) && decide (entScratch e.1 ≤ 1024)

/-- An entry of a table; beyond its end it reads as VALID 0 (02 R548). -/
def entryAt (routine : Bool) (i : Nat) (s : State) : Word × Word :=
  (if routine then (tab s).routines else (tab s).dispatch).getD i (0, 0)

/-- Whether an entry is fenced (R111). -/
def entFenced (routine : Bool) (i : Nat) (s : State) : Bool :=
  if routine then s.plan.fencedRout.contains i else s.plan.fencedDisp.contains i

/-- Fence an entry. -/
def fenceEntry (routine : Bool) (i : Nat) (s : State) : State :=
  if routine then { s with plan.fencedRout := nins s.plan.fencedRout i }
  else { s with plan.fencedDisp := nins s.plan.fencedDisp i }

/-- Whether an operation's routine may write. -/
def mayWrite (op : Op) (s : State) : Bool := entMayWrite (entryAt true op.routine s).1

/-! ## What an operation starts with (03 R84, R85) -/

/-- Whether stage 10 posts a host completion for an operation (03 R78). -/
def posts (op : Op) : Bool := op.hostpost || op.kind == 0 || op.kind == 6 || op.kind == 8

/-- S0 of R84. -/
def slot0 (op : Op) (s : State) : Word :=
  BitVec.ofNat 64 (op.kind + (poolEnt op.pool s).geom * 2 ^ 4 + op.pool % 8 * 2 ^ 8 + op.first * 2 ^ 12 +
    (op.count - 1) * 2 ^ 16 + op.slice * 2 ^ 20 + b2n (posts op) * 2 ^ 24 + b2n op.fua * 2 ^ 25)

/-- The slots of R84. -/
def startSlots (op : Op) (er : Word) (s : State) : Tbl Word :=
  [(0, slot0 op s), (1, BitVec.ofNat 64 op.row), (2, op.data), (3, er), (4, (geomOf op.pool s).parMask),
   (5, if op.kind = 8 then op.arg0 else op.rebuild), (6, if op.kind = 8 then op.arg1 else 0),
   (7, 0), (8, 0), (9, 0), (10, 0), (11, 0), (12, 0), (13, 0), (14, 0), (15, 0)]

/-- Whether an operation's B0 is a HOST handle. -/
def hasHost (op : Op) : Bool := op.kind ≤ 2

/-- B0 of R85, and the state after the free values it draws. -/
def startB0 (op : Op) (s : State) : Handle × State :=
  if hasHost op then
    let keys := groupSecs op.first op.count op.data
    let h : Handle :=
      { kind := .host, first := op.first, count := op.count, mask := op.data,
        secs := (keys.zipIdx).foldl (fun t (k, n) => tset t k (hostSec op k (s.free + n) s)) [] }
    (h, { s with free := s.free + keys.length })
  else ({ kind := .template, first := op.first, count := op.count }, s)

/-- Start an entry's program on the operation's context (03 R84, R85). -/
def startProgram (o c : Nat) (op : Op) (er : Word) (routine : Bool) (idx : Nat) (e : Word × Word) (staging : Nat)
    (s : State) : State :=
  let op := { op with erased := er }
  let (b0, s1) := startB0 op s
  let x : Ctx :=
    { op := o, run := .running, pc := entStart e.1, extStart := entStart e.1, extLen := entLen e.1,
      slots := startSlots op er s, handles := [(0, b0)], entry := idx, routine := routine,
      scratch := entScratch e.1 }
  { s1 with pipe := { s1.pipe with
      ops := tset s1.pipe.ops o { op with st := .program, staging := staging, granted := true },
      ctxs := tset s1.pipe.ctxs c x,
      waitScratch := s1.pipe.waitScratch.filter (· != o) } }

/-! ## Waiting at stage 4 -/

/-- Whether a destage's end would need more lost-extent records than are free, all its sectors together (08 R552). -/
def splitBlocked (op : Op) (s : State) : Bool :=
  decide (lostEMax < (op.secs.foldl (fun l k => leaveE op.pool op.row (k / 16) (16 * op.slice + k % 16) l) s.mem.lostE).length)

/-- Whether an operation may write members. -/
def writes (op : Op) (s : State) : Bool :=
  op.kind == 1 || op.kind == 2 || op.kind == 3 || op.kind == 4 || op.kind == 5 || op.kind == 7 ||
  (op.kind == 8 && mayWrite op s)

/-- The waits of stage 2 and stage 4 before a program: failure commits (08 R300), the discovery window (R304),
pool creation (R305), resynchronisation (07 R289), lost-extent room (R552). -/
def stage4Waits (op : Op) (er : Word) (s : State) : Bool :=
  let beyond := decide ((geomOf op.pool s).m < pop er)
  prepMask op.pool op.row true s != 0 ||
  ((op.kind == 1 || op.kind == 2 || op.kind == 3 || op.kind == 5) && pendingMask op.pool op.row s != 0) ||
  (writes op s && rowLands op.pool op.row s) ||
  (writes op s && unfoundMask op.pool op.row s != 0) ||
  ((op.kind == 0 || op.kind == 6) && beyond && unfoundMask op.pool op.row s &&& er != 0) ||
  (op.kind != 7 && (op.kind != 0 || er != 0) && rowUnsure op.pool op.row s) ||
  ((op.kind == 1 || op.kind == 2) && splitBlocked op s)

/-- Whether an operation stands at stage 4 (03, stage 4): host operations after their command's row, the
module's own as soon as they are placed. -/
def dispatchable (op : Op) : Bool :=
  match op.st with
  | .ready => op.kind != 9
  | .scratch => true
  | .placed => op.kind != 9 && (op.cmd.isNone || op.kind == 1 || op.kind == 2)
  | _ => false

/-! ## Beyond m (08 R310, R316) -/

/-- Whether a sector row of the span is marked (09 R342). -/
def markedSpan (op : Op) (s : State) : Bool :=
  (List.range op.count).any (fun i => s.mem.marks.any (fun m =>
    m.pool == op.pool && m.row == op.row && m.ssec == 16 * op.slice + op.first + i))

/-- Run an operation again sector row by sector row (08 R316), each with the erasures that its own sources give it, and queue the
slice's check. -/
def splitSingle (o : Nat) (op : Op) (s : State) : State :=
  let s := (List.range op.count).foldl (fun s i =>
    newOp { op with first := op.first + i, count := 1, single := true, st := .held, ctx := none, rowOk := false, extra := 0,
                    granted := false, bi := .read } s) s
  queueCheck op.pool op.row op.slice (endOp o 0 0 [] s)

/-- A destage whose row is beyond m is kept until the erasures fall; one event per row (08 R310). -/
def keepBeyond (o : Nat) (op : Op) (s : State) : State :=
  let key := op.pool * 2 ^ 48 + op.row
  let s := if s.mem.beyondRows.contains key then s
    else recEvent 0x1F5 0x0023 (op.pool % 8) (leBytes 6 op.row) { s with mem.beyondRows := nins s.mem.beyondRows key }
  let s := endOp o 0x0104 0 [] s
  { s with cache.retry := tset s.cache.retry (sliceKey op.pool op.row op.slice) { beyond := true } }

/-- The sectors of an operation at the positions of a mask end MEDIA_LOST (06 R223, 08 R310). -/
def loseSecs (o : Nat) (op : Op) (m : Word) (s : State) : State :=
  let (gone, kept) := op.secs.partition (fun k => m.getLsbD (k / 16))
  let s := match op.cmd with
    | some c => (match cmdOf c s with
      | some cmd => failSecs c (opOffsets { op with secs := gone } cmd s) 0x0101 s
      | none => s)
    | none => s
  updOp o (fun x => { x with secs := kept, data := x.data &&& ~~~ m }) s

/-! ## A routine's slice (03 R116) -/

/-- State of a sector of an operation in the cache: (way, valid, dirty). -/
def cachedBits (op : Op) (k : Nat) (s : State) : Option (Nat × Bool × Bool) :=
  let (line, sec) := lineOf op.pool op.row (k / 16) (16 * op.slice + k % 16) s
  (findLine op.pool line s).map (fun x => (x, (tagAt x s).valid.getLsbD sec, (tagAt x s).dirty.getLsbD sec))

/-- Destage the slices that hold the given places. -/
def destagePlaces (ps : List (Nat × Nat)) (s : State) : State :=
  ((ps.map (fun (x, sec) =>
    let t := tagAt x s
    let (row, _, ss) := secOfLine t.pool (tagLine x t) sec s
    (t.pool, row, ss / 16))).eraseDups).foldl (fun s (l, row, sl) => destageSlice l row sl .destage s) s

/-- Set the cached sectors of a routine's slice invalid (03 R116). -/
def invalidateSlice (op : Op) (s : State) : State :=
  let g := geomOf op.pool s
  (List.range g.k).foldl (fun s p => (List.range g.sliceLen).foldl (fun s i =>
    match cachedBits op (p * 16 + i) s with
    | some (x, v, d) =>
      let (_, sec) := lineOf op.pool op.row p (16 * op.slice + i) s
      if v && !d then dropSec x sec s else s
    | none => s) s) s

/-- Dirty sectors of a list of sectors: places in the cache, and those still in the vault. -/
def dirtyAmong (secs : List (Nat × Nat × Nat × Nat)) (s : State) : List (Nat × Nat) × List (Nat × Nat × Nat) :=
  (secs.filterMap (fun (l, row, pos, ss) =>
     let (line, sec) := lineOf l row pos ss s
     (findLine l line s).bind (fun x =>
       let t := tagAt x s
       if t.valid.getLsbD sec && t.dirty.getLsbD sec then some (x, sec) else none)),
   secs.filterMap (fun (l, row, pos, ss) =>
     let (line, sec) := lineOf l row pos ss s
     if unrestored l line sec s then some (l, line, sec) else none))

/-- Every data sector of an operation's slice. -/
def sliceSecs (op : Op) (s : State) : List (Nat × Nat × Nat × Nat) :=
  let g := geomOf op.pool s
  (List.range g.k).flatMap (fun p => (List.range g.sliceLen).map (fun i => (op.pool, op.row, p, 16 * op.slice + i)))

/-- What is dirty in the slice of a routine that may write: it is destaged before the routine starts. -/
def routineDirty (op : Op) (s : State) : List (Nat × Nat) × List (Nat × Nat × Nat) :=
  if op.kind = 8 && mayWrite op s then dirtyAmong (sliceSecs op s) s else ([], [])

/-- A routine's operation goes back to wait for its slice to be clean. -/
def cleanAgain (o : Nat) (op : Op) (w : List (Nat × Nat) × List (Nat × Nat × Nat)) (s : State) : State :=
  match op.cmd with
  | none => s
  | some c =>
    destagePlaces w.1 (updOp o (fun y => { y with st := .placed })
      (updCmd c (fun y => { y with ph := .waiting, waitSecs := w.1, waitVault := w.2 }) s))

/-! ## Host data into staging (01 R9) -/

/-- The runs of host memory that hold `len` bytes of a buffer from an offset. -/
def sglSlice : List (Nat × Nat) → Nat → Nat → List (Nat × Nat)
  | [], _, _ => []
  | (a, n) :: r, o, len =>
    if len = 0 then [] else if n ≤ o then sglSlice r (o - n) len
    else (a + o, min (n - o) len) :: sglSlice r 0 (len - min (n - o) len)

/-- The reads of an operation's sectors from host memory. -/
def readSectors (op : Op) (s : State) : State :=
  match op.cmd.bind (fun c => cmdOf c s) with
  | none => s
  | some x => (runs ((opOffsets op x s).foldl nins [])).foldl (fun s (o, n) =>
      (sglSlice x.sgl (4096 * o) (4096 * n)).foldl (fun s (a, len) => emit (.hostRead x.port a len) s) s) s

/-! ## The choice -/

/-- Whether the control cores carry an operation on when its selected program has ended: the kinds whose own chapters say what is
done with each sector row (07 R287 to R289, 09 R337 to R353; log entry 13). -/
def ruled (op : Op) : Bool := op.kind == 4 || op.kind == 5 || op.kind == 7

/-- Whether an operation's program would read a known-zero position, or take one as a source or an output of a decode (08 R317): a
READ or a destage that touches one or that decodes, a VERIFY, a rebuild, and the kinds that read the whole row. A destage of the
full slice reads nothing, and what a routine reads only the routine knows. -/
def takesZero (op : Op) (er : Word) (s : State) : Bool :=
  let z := maskOf ((List.range (geomOf op.pool s).w).filter (fun p =>
    (List.range op.count).any (fun i => knownZero op.pool op.row p (16 * op.slice + op.first + i) s)))
  z != 0 &&
  (match op.kind with
   | 0 => op.data &&& (er ||| z) != 0
   | 1 => op.data &&& (er ||| z) != 0
   | 2 => false
   | 8 => false
   | _ => true)

/-- Whether the control cores run the operation themselves, without the dispatch table (04 Moving a cell, 06 R229, 08 R316, R317, 09
R343; log entry 13). -/
def runsBuiltin (op : Op) (er : Word) (s : State) : Bool :=
  op.why == .sealRow || op.why == .dealloc || (ruled op && decide ((geomOf op.pool s).m < pop er)) ||
  (decide (pop er ≤ (geomOf op.pool s).m) && takesZero op er s) ||
  (op.kind == 3 && (op.rebuild &&& er == 0 || (op.single && decide ((geomOf op.pool s).m < pop er)) || markedSpan op s))

/-- Stage 4 reserves an operation's scratch and staging sectors in its turn; a write's data is read into its staging sectors first,
and a repeated dispatch keeps what it holds of them (03 R83, 01 R9). -/
def reserve (o c : Nat) (op : Op) (scratch : Nat) (go : Nat → State → State) (s : State) : State :=
  let j := laneOf c
  let staging := if op.staging = 0 && hasHost op && !cacheOn s then pop op.data * op.count else op.staging
  let held := ((ctxOf c s).map (·.scratch)).getD 0
  if waitsBefore o j s || decide (1024 + held < scratchUsed j s + scratch) ||
      decide (1024 + op.staging < stagingUsed j s + staging) then joinWait o s
  else
    let s := { s with pipe.waitScratch := s.pipe.waitScratch.filter (· != o) }
    if op.unread then
      readSectors op (updCtx c (fun x => { x with scratch := scratch })
        (updOp o (fun x => { x with st := .fetch, staging := staging, granted := true }) s))
    else go staging s

/-- Select the program by class, reserve, start (03 R80 to R84). -/
def selectStart (o c : Nat) (op : Op) (er : Word) (s : State) : State :=
  let routine := op.kind = 8
  let idx := if routine then op.routine else op.kind * 64 + (poolEnt op.pool s).geom * 4 + min (pop er) 3
  let ent := entryAt routine idx s
  let addr := if routine then 0x400 + idx else idx
  if entFenced routine idx s then endOp o 0x0301 0 [] (raise 0x06A 0x02 addr s)
  else if !entUsable routine ent (tab s).program.length then
    endOp o 0x0301 0 [] (raise 0x06A 0x01 addr (fenceEntry routine idx s))
  else
    let w := routineDirty op s
    reserve o c op (entScratch ent.1) (fun staging s =>
      if w.1.isEmpty && w.2.isEmpty then
        startProgram o c op er routine idx ent staging (if op.kind = 8 && mayWrite op s then invalidateSlice op s else s)
      else cleanAgain o op w s) s

/-- An operation without a program starts: one that carries host data has its reservation and its data first. -/
def startOwn (o c : Nat) (op : Op) (s : State) : State :=
  if hasHost op then
    reserve o c op 0 (fun staging s => biStart o (updOp o (fun x => { x with staging := staging, granted := true }) s)) s
  else biStart o s

/-- Stage 4 for an operation with its erased positions known (03 R80; 08 R310; 09 R343). -/
def stage4Run (o c : Nat) (op : Op) (er : Word) (s : State) : State :=
  if op.kind == 0 && op.data &&& er != 0 && markedSpan op s && decide (pop er ≤ (geomOf op.pool s).m) then endOp o 0x0102 0 [] s
  else if runsBuiltin op er s then startOwn o c op s
  else if decide ((geomOf op.pool s).m < pop er) then
    match op.kind with
    | 1 | 2 => if op.hostpost then endOp o 0x0104 0 [] s else keepBeyond o op s
    | 3 => splitSingle o op s
    | 8 => endOp o 0x0101 0 [] s
    | _ =>
      let s := loseSecs o op (op.data &&& er) s
      let op' := { op with secs := op.secs.filter (fun k => !(op.data &&& er).getLsbD (k / 16)),
                           data := op.data &&& ~~~ er, cont0 := true }
      if op'.data == 0 then endOp o 0 0 [] s
      else selectStart o c op' 0 (updOp o (fun x => { x with cont0 := true }) s)
  else selectStart o c op er s

/-- Stage 4 (03 R80): nothing happens while the operation waits. -/
def stage4 (o : Nat) (s : State) : State :=
  match opOf o s with
  | none => s
  | some op => match op.ctx with
    | none => s
    | some c =>
      let er := if op.cont0 then 0 else opErased op s
      if !domainsRun s || !dispatchable op || !op.rowOk || rowBusy o op.pool op.row s || s.plan.tab.isNone ||
          stage4Waits op er s then s
      else stage4Run o c op er s

/-- Give scratch and staging to the operations that wait, in order (03 R83, 01 R9). -/
def grantScratch (s : State) : State := s.pipe.waitScratch.foldl (fun s o => stage4 o s) s

/-- The erased positions of one operation grow and stage 4 takes it again on its context (03 R113). -/
def redispatch (o c : Nat) (add : Word) (s : State) : State :=
  let s := updOp o (fun x => { x with extra := x.extra ||| add, st := .ready }) (dropInflight c s)
  stage4 o (updCtx c (fun _ => { op := o }) s)

end Sys2Proof.Machine
end

