-- ==== Sys2Proof/Machine/Serve.lean ====
section
/-! DEFINITION. Sys2Proof/Machine/Serve.lean: I/O commands between intake and their programs: the split into stripe
operations (03 R77), the cache probe of a read (07 R258 to R260, R265), the placing of write data (07 R261 to R263,
R271, R277 to R281), FLUSH, DEALLOCATE and what waits for them (06). -/

namespace Sys2Proof.Machine

/-! ## Splitting (03 R77) -/

/-- Sectors of a command as (layout, row, position, strip sector), in order of offset. -/
def cmdSecs (v lba count : Nat) (s : State) : List (Nat × Nat × Nat × Nat) :=
  (List.range count).filterMap (fun o => locate v (lba + o) s)

/-- Insert a group by its lowest position (03 R77 step 2). -/
def insByPos : List (Nat × Nat × Word) → (Nat × Nat × Word) → List (Nat × Nat × Word)
  | [], e => [e]
  | a :: g, e => if lowPos e.2.2 < lowPos a.2.2 then e :: a :: g else a :: insByPos g e

/-- Groups of positions with identical spans, ascending by lowest position. -/
def spanGroups (secs : List (Nat × Nat)) : List (Nat × Nat × Word) :=
  let poss := (secs.map (·.1)).foldl nins []
  (poss.foldl (fun g p =>
    (runs (((secs.filter (fun x => x.1 == p)).map (·.2)).foldl nins [])).foldl (fun g r => addGroup g r.1 r.2 p) g)
    []).foldl insByPos []

/-- The row slices that sectors touch, ascending, each with its (position, sector of the slice) pairs. -/
def bySlice (secs : List (Nat × Nat × Nat × Nat)) : Tbl (List (Nat × Nat)) :=
  secs.foldl (fun t (l, row, pos, ss) => tmod t (sliceKey l row (ss / 16)) [] (fun x => x ++ [(pos, ss % 16)])) []

/-- Layout, row and slice of a slice key. -/
def unkey (k : Nat) : Nat × Nat × Nat := (k / 2 ^ 52, k / 16 % 2 ^ 48, k % 16)

/-- The operations of a command of one kind (03 R77). -/
def splitOps (c kind : Nat) (secs : List (Nat × Nat × Nat × Nat)) : List Op :=
  (bySlice secs).flatMap (fun (k, ps) =>
    let (l, row, sl) := unkey k
    (spanGroups ps).map (fun (f, n, m) =>
      { kind := kind, pool := l, row := row, slice := sl, first := f, count := n, data := m, cmd := some c,
        secs := groupSecs f n m }))

/-- Accept a command's operations (01 R11 to R14). -/
def acceptOps (c : Nat) (ops : List Op) (s : State) : State :=
  ops.foldl (fun s o => newOp o s) (updCmd c (fun x => { x with opsLeft := x.opsLeft + ops.length }) s)

/-- The operations of a command that run. -/
def opsOfCmd (c : Nat) (s : State) : List Nat :=
  (s.pipe.ops.filter (fun e => e.2.cmd == some c)).map (·.1)

/-! ## Reads (06 R223, 07 R260) -/

/-- Where a read takes a sector from (07 R260). -/
inductive Src where
  | cache (x sec : Nat)
  | vault
  /-- paged into lane buffer SRAM while the cache is out of service (11 R415) -/
  | paged (d : List Byte)
  | stale
  | lost
  | member
  deriving DecidableEq, Repr

/-- The first source of R260 that applies; while the cache is out of service only what is dirty in it counts, until it
is written back (01 R26, R27). -/
def sourceFor (l row pos ssec : Nat) (s : State) : Src :=
  let (line, sec) := lineOf l row pos ssec s
  match ((findLine l line s).bind (fun x =>
      let t := tagAt x s
      if (if cacheOn s then t.valid.getLsbD sec || t.dirty.getLsbD sec else t.valid.getLsbD sec && t.dirty.getLsbD sec)
      then some x else none)) with
  | some x => .cache x sec
  | none =>
    if unrestored l line sec s then (match (if cacheOn s then none else pagedSec l line sec s) with
      | some d => .paged d
      | none => .vault)
    else if isLostW l line sec s then .stale
    else if lostNow l row pos ssec s then .lost
    else .member

/-- Source of a sector of an operation, by key. -/
def keySource (op : Op) (k : Nat) (s : State) : Src :=
  sourceFor op.pool op.row (k / 16) (16 * op.slice + k % 16) s

/-- Whether an eviction in progress was begun for an operation. -/
def evictsFor (o : Nat) (s : State) : Bool := s.cache.evict.any (fun e => e.2.waiter == some o)

/-- A request attaches to an eviction (07 R265). -/
def attach (x : Nat) (s : State) : State :=
  { s with cache.evict := tupd s.cache.evict x (fun e => { e with attached := true }) }

/-- The class of an operation's allocations (07 R254). -/
def opClass (op : Op) (s : State) : Nat :=
  match op.cmd.bind (fun c => cmdOf c s) with
  | some c => classOf c.volume s
  | none => 15

/-- Give an operation a way for each line of a list of keys (07 R258); false when it must wait. A line that is being evicted is
reinstalled (R265). -/
def takeWays (o : Nat) (keys : List Nat) (s : State) : Bool × State :=
  keys.foldl (fun (ok, s) k =>
    if !ok then (ok, s)
    else match opOf o s with
      | none => (false, s)
      | some op =>
        let (line, _) := lineOf op.pool op.row (k / 16) (16 * op.slice + k % 16) s
        match findWay op.pool line s with
        | some x =>
          let s := if (tagAt x s).evicting then attach x s else s
          (true, updOp o (fun y => { y with lines := tset y.lines line x }) s)
        | none =>
          let (w, s) := takeWay (opClass op s) op.pool line (some o) s
          match w with
          | some x => (true, updOp o (fun y => { y with lines := tset y.lines line x }) s)
          | none => (false, s)) (true, s)

/-- An operation waits at stage 3 (07 R259). -/
def waitAlloc (o : Nat) (s : State) : State :=
  updOp o (fun y => { y with st := match y.st with | .alloc t => .alloc t | _ => .alloc s.now }) s

/-- Stage 3 for a READ (07 R258): a way for each missed sector. -/
def probeRead (o : Nat) (s : State) : State :=
  match opOf o s with
  | none => s
  | some op =>
    if op.kind != 0 || (op.st != .placed) || !cacheOn s || op.cont0 then s
    else
      let (ok, s) := takeWays o (op.secs.filter (fun k => keySource op k s == .member)) s
      if ok then s else waitAlloc o s

/-- A read hit goes to the command; it marks the way most recently used, and attaches to an eviction (R265). -/
def serveHit (op : Op) (c k x sec : Nat) (s : State) : State :=
  match cmdOf c s with
  | none => s
  | some cmd =>
    let off := opOffset op cmd (k / 16) (k % 16) s
    let d := cacheSec x sec s
    let s := if (tagAt x s).evicting then attach x s else s
    updCmd c (fun y => { y with rdata := tset y.rdata off d }) (touch x s)

/-- Serve what a READ operation finds without a program (07 R260): hits, stale and lost sectors; the rest stays
with the operation, which ends when nothing is left. It waits while a sector is in the vault (11 R412). -/
def serveRead (o : Nat) (s : State) : State :=
  match opOf o s with
  | none => s
  | some op => match op.cmd with
    | none => s
    | some c => match cmdOf c s with
      | none => s
      | some cmd =>
        if op.st != .placed || op.kind != 0 || cmd.ph != .running then s
        else if op.secs.any (fun k => keySource op k s == .vault) then s
        else
          let src (k : Nat) : Src := keySource op k s
          let s1 := op.secs.foldl (fun st k => match src k with
            | .cache x sec => serveHit op c k x sec st
            | .paged d => updCmd c (fun y => { y with rdata := tset y.rdata (opOffset op cmd (k / 16) (k % 16) s) d }) st
            | .stale => failSecs c [opOffset op cmd (k / 16) (k % 16) s] 0x0103 st
            | .lost => failSecs c [opOffset op cmd (k / 16) (k % 16) s] 0x0101 st
            | _ => st) s
          let missed := op.secs.filter (fun k => src k == .member)
          let s1 := updOp o (fun y => { y with secs := missed, data := maskOf (missed.map (· / 16)), st := .ready }) s1
          if missed.isEmpty then endOp o 0 0 [] s1 else s1

/-- What the vault pages of a READ's sectors wait for: (half, vault sector ÷ 4) of each. -/
def vaultPages (op : Op) (s : State) : List (Nat × Nat) :=
  (op.secs.filterMap (fun k =>
    let (line, sec) := lineOf op.pool op.row (k / 16) (16 * op.slice + k % 16) s
    if unrestored op.pool line sec s then
      (idxInForce s op.pool line sec).map (fun e => (e.half, (e.vsec + ((secsOf e.mask).filter (· < sec)).length) / 4))
    else none)).eraseDups

/-! ## Writes -/

/-- Whether a running operation holds a sector in its HOST handle (07 R261). -/
def heldByOp (o l row sl k : Nat) (s : State) : Bool :=
  s.pipe.ops.any (fun e => e.1 != o && e.2.pool == l && e.2.row == row && e.2.slice == sl && e.2.secs.contains k &&
    (e.2.why == .dealloc ||
     (e.2.kind == 0 && (e.2.st == .ready || e.2.st == .scratch || e.2.st == .program || e.2.st == .builtin)) ||
     ((e.2.kind == 1 || e.2.kind == 2) && (e.2.st == .program || e.2.st == .builtin || e.2.hostpost))))

/-- Whether a sector is dirty (07 R253), in the cache or still in the vault. -/
def isDirty (op : Op) (k : Nat) (s : State) : Bool :=
  let (line, sec) := lineOf op.pool op.row (k / 16) (16 * op.slice + k % 16) s
  unrestored op.pool line sec s || (match cachedBits op k s with
    | some (_, v, d) => v && d
    | none => false)

/-- Whether a write to a sector must wait: a running operation holds it (R261), its line is being evicted (R265),
or, written through, it is dirty (R262; 11 R415 at FLOOR). -/
def sectorWaits (o : Nat) (op : Op) (wt : Bool) (k : Nat) (s : State) : Bool :=
  heldByOp o op.pool op.row op.slice k s ||
  (match cachedBits op k s with
   | some (x, _, _) => (tagAt x s).evicting
   | none => false) ||
  (wt && isDirty op k s)

/-- A write that waits for an eviction attaches to it (07 R265). -/
def attachWaits (op : Op) (s : State) : State :=
  op.secs.foldl (fun s k => match cachedBits op k s with
    | some (x, _, _) => if (tagAt x s).evicting then attach x s else s
    | none => s) s

/-- Trigger 1 of R279: every data sector of the slice is dirty. -/
def fullSlice (l row sl : Nat) (s : State) : State :=
  let g := geomOf l s
  let d := dirtyOf l row sl s
  if d.length = g.k * g.sliceLen && works l s && retryOk l row sl s then destageSecs l row sl d .destage s else s

/-- Destaging under pressure (07 R277, R279): above the cap all that is above it, above 75 % of it without age. -/
def pressure (s : State) : State :=
  if prof s |>.writeThrough then destageAll s
  else if capSectors s * 3 / 4 < dirtySectors s then destageDown (capSectors s * 3 / 4) s
  else s

/-- Put one operation's write data in the cache as dirty data (07 R280 steps 2 to 5). -/
def placeCached (o c : Nat) (op : Op) (cmd : Cmd) (s : State) : State :=
  let (ok, s) := takeWays o op.secs s
  if !ok then waitAlloc o s
  else
    let s := op.secs.foldl (fun s k =>
      let (line, sec) := lineOf op.pool op.row (k / 16) (16 * op.slice + k % 16) s
      match findWay op.pool line s with
      | some x => storeDirty op.pool line x sec (tgetD cmd.wdata (opOffset op cmd (k / 16) (k % 16) s) []) s
      | none => s) s
    let s := freeOp o s
    let s := updCmd c (fun y => { y with opsLeft := y.opsLeft - 1, claim := if y.opsLeft ≤ 1 then 0 else y.claim }) s
    fullSlice op.pool op.row op.slice s

/-- The sectors of a write operation from data given by offset. -/
def stagedData (op : Op) (cmd : Cmd) (wdata : Tbl (List Byte)) (s : State) : Tbl HSec :=
  op.secs.foldl (fun t k => tset t k { data := padTo 4096 (tgetD wdata (opOffset op cmd (k / 16) (k % 16) s) []) }) []

/-- A write-through operation takes its data and becomes the destage that stage 10 reports (07 R281). While the cache is
out of service its data goes to lane staging: what the module has, or what stage 4 reads once it has reserved the
sectors (01 R9). -/
def placeThrough (o c : Nat) (op : Op) (cmd : Cmd) (s : State) : State :=
  let kind := destageKind op.pool op.first op.count op.data s
  let turn (s : State) : State :=
    rowTurn o (updOp o (fun y => { y with kind := kind, hostpost := true, fua := cmd.opcode == 3, cmd := some c }) s)
  if cacheOn s then
    let (ok, s) := takeWays o op.secs s
    if !ok then waitAlloc o s
    else
      turn (op.secs.foldl (fun s k =>
        let (line, sec) := lineOf op.pool op.row (k / 16) (16 * op.slice + k % 16) s
        match findWay op.pool line s with
        | some x => storeTransit op.pool line x sec (tgetD cmd.wdata (opOffset op cmd (k / 16) (k % 16) s) []) s
        | none => s) s)
  else
    turn (if cmd.wdata.isEmpty then updOp o (fun y => { y with unread := true }) s
          else updOp o (fun y => { y with hdata := stagedData op cmd cmd.wdata s }) s)

/-- The shadow mask of a line as it stands (07 R271). -/
def shadowMask (l line : Nat) (s : State) : BitVec 16 :=
  match findLine l line s with
  | some x => (tagAt x s).valid &&& (tagAt x s).dirty
  | none => 0

/-- The mirror copy of a cached write (10 R367): its sectors with the lines they lie in. -/
def mirrorSectors (cmd : Cmd) (offs : List Nat) (s : State) : List LineSector :=
  offs.filterMap (fun o => (locate cmd.volume (cmd.lba + o) s).map (fun (l, row, pos, ss) =>
    let (line, sec) := lineOf l row pos ss s
    { pool := Fin.ofNat 16 l, line := line, sector := Fin.ofNat 16 sec, data := padTo 4096 (tgetD cmd.wdata o []),
      mask := shadowMask l line s }))

/-- Sectors go to the peer, in messages that R357's payload bound admits. -/
def sendMirror (secs : List LineSector) (s : State) : State :=
  (piecesOf sectorsPerMsg secs).foldl (fun s x => sendPair (.mirrorWrite x) s) s

/-- Install a mirrored sector as dirty, class 15 (10 R367); false when no way can be had, or the DRAM cache is out of service (01 R26). -/
def mirrorSector (l line sec : Nat) (d : List Byte) (s : State) : Bool × State :=
  if !cacheOn s then (false, s)
  else match findLine l line s with
  | some x => (true, storeDirty l line x sec d s)
  | none => match takeWay 15 l line none s with
    | (some x, s) => (true, storeDirty l line x sec d s)
    | (none, s) => (false, s)

/-- A forwarded write is installed here first, as mirror lines (10 R371). -/
def mirrorOwn (cmd : Cmd) (d : List Byte) (s : State) : State :=
  (List.range cmd.count).foldl (fun s o => match locate cmd.volume (cmd.lba + o) s with
    | some (l, row, pos, ss) =>
      let (line, sec) := lineOf l row pos ss s
      let (fits, s) := mirrorSector l line sec (slice d (4096 * o) 4096) s
      if fits || s.pair.gaps.contains (l, line, sec) then s else { s with pair.gaps := (l, line, sec) :: s.pair.gaps }
    | none => s) s

/-- A cached write whose data is placed: mirrored first while the pair is PAIRED, held while it is SUSPECT
(10 R367), else complete. -/
def endCachedWrite (c : Nat) (s : State) : State :=
  match cmdOf c s with
  | none => s
  | some cmd =>
    let s := updCmd c (fun y => { y with claim := 0 }) s
    let l := ((tget (tab s).vols cmd.volume).map (·.pool)).getD 0
    let far := match cmd.src with | .peer _ => true | _ => false
    if s.led.paired && (poolEnt l s).dual && mirrorsOut s && !far then
      let s := sendMirror (mirrorSectors cmd (List.range cmd.count) s) s
      updCmd c (fun y => { y with ph := .mirror, mirrorSeq := tgetD s.pair.sendSeq 1 0 }) s
    else if ackHold l s then updCmd c (fun y => { y with ph := .mirror, mirrorSeq := 0 }) s
    else finishCmd c 0 0 s

/-- Cached writes whose mirror is acknowledged, or which R379 no longer holds, complete (10 R367, R379). -/
def releaseMirrored (s : State) : State :=
  let s := (s.pipe.cmds.filter (fun e => e.2.ph == .running && e.2.mirrorSeq != 0)).foldl (fun s e =>
    if s.pair.unacked.any (fun m => m.1 == 1 && m.2.1 == e.2.mirrorSeq) then s
    else opLeft e.1 (updCmd e.1 (fun y => { y with mirrorSeq := 0 }) s)) s
  (s.pipe.cmds.filter (fun e => e.2.ph == .mirror)).foldl (fun s e =>
    let l := ((tget (tab s).vols e.2.volume).map (·.pool)).getD 0
    if !s.pair.unacked.any (fun m => m.1 == 1 && m.2.1 == e.2.mirrorSeq) && !ackHold l s then finishCmd e.1 0 0 s else s) s

/-- Whether writes make no sector dirty (07 R275, R279; 01 R26): WRITE_MODE is write-through, or the level has no cache. -/
def throughNow (s : State) : Bool := (prof s).writeThrough || decide (3 ≤ levelNow s)

/-- WRITE_MODE has become write-through, or a level without a cache is in force, while a cached write was being placed: the rest of it is
written through (07 R279). What it has placed already is mirrored before it completes (10 R367). -/
def nowThrough (c : Nat) (cmd : Cmd) (s : State) : State :=
  if cmd.wt || !throughNow s then s
  else
    let s := updCmd c (fun y => { y with wt := true, claim := 0 }) s
    let left := (opsOfCmd c s).flatMap (fun o => match opOf o s with
      | some op => opOffsets op cmd s
      | none => [])
    let placed := (List.range cmd.count).filter (fun o => !left.contains o)
    let far := match cmd.src with
      | .peer _ => true
      | _ => false
    if placed.isEmpty || far || !(s.led.paired && (poolEnt (((tget (tab s).vols cmd.volume).map (·.pool)).getD 0) s).dual && mirrorsOut s) then s
    else
      let s := sendMirror (mirrorSectors cmd placed s) s
      updCmd c (fun y => { y with opsLeft := y.opsLeft + 1, mirrorSeq := tgetD s.pair.sendSeq 1 0 }) s

/-- Place every operation of a staged write that need not wait (07 R261 to R265); no copy starts after the freeze of
the shadow (R263). -/
def placeWrite (c : Nat) (s : State) : State :=
  match cmdOf c s with
  | none => s
  | some cmd =>
    if cmd.ph != .staged || s.cache.frozen || s.pow.coldStop then s
    else
      let s := nowThrough c cmd s
      let cmd := (cmdOf c s).getD cmd
      let s := (opsOfCmd c s).foldl (fun s o =>
        match opOf o s with
        | none => s
        | some op =>
          if op.kind != 9 || op.st != .placed then s
          else if op.secs.any (fun k => sectorWaits o op cmd.wt k s) then attachWaits op s
          else if cmd.wt || !cacheOn s then placeThrough o c op cmd s
          else placeCached o c op cmd s) s
      match cmdOf c s with
      | none => s
      | some y =>
        if cmd.wt then
          if (opsOfCmd c s).any (fun o => match opOf o s with | some p => p.kind == 9 | none => false) then s
          else updCmd c (fun y => { y with ph := .running }) s
        else if y.opsLeft = 0 then pressure (endCachedWrite c s) else s

/-! ## Waiting commands -/

/-- Dirty sectors of a volume, or of all of them, as (place, sector) (06 R228). -/
def dirtyPlaces (vol : Option Nat) (s : State) : List (Nat × Nat) :=
  s.cache.tags.flatMap (fun (x, t) =>
    (secsOf (t.valid &&& t.dirty)).filterMap (fun sec =>
      let (row, _, _) := secOfLine t.pool (tagLine x t) sec s
      match vol with
      | none => some (x, sec)
      | some v => if volOfRow t.pool row s == some v then some (x, sec) else none))

/-- Dirty sectors still in the vault, of a volume or of all. -/
def vaultPlaces (vol : Option Nat) (s : State) : List (Nat × Nat × Nat) :=
  (idxLines s).flatMap (fun (l, line) =>
    (secsOf (unrestoredMask l line s)).filterMap (fun sec =>
      let (row, _, _) := secOfLine l line sec s
      match vol with
      | none => some (l, line, sec)
      | some v => if volOfRow l row s == some v then some (l, line, sec) else none))

/-- A VERIFY operation's lost sectors fail at once (06 R230); the others are checked. -/
def verifyOp (o c : Nat) (s : State) : State :=
  match opOf o s, cmdOf c s with
  | some op, some cmd =>
    if op.st != .placed then s
    else
      let stale (k : Nat) : Bool :=
        let (line, sec) := lineOf op.pool op.row (k / 16) (16 * op.slice + k % 16) s
        isLostW op.pool line sec s
      let gone (k : Nat) : Bool := lostNow op.pool op.row (k / 16) (16 * op.slice + k % 16) s
      let offs (l : List Nat) : List Nat := l.map (fun k => opOffset op cmd (k / 16) (k % 16) s)
      let st := op.secs.filter stale
      let go := op.secs.filter (fun k => !stale k && gone k)
      let rest := op.secs.filter (fun k => !stale k && !gone k)
      let s := failSecs c (offs go) 0x0101 (failSecs c (offs st) 0x0103 s)
      let s := updOp o (fun y => { y with secs := rest, st := .ready }) s
      if rest.isEmpty then endOp o 0 0 [] s else s
  | _, _ => s

/-- A ROUTINE_CALL's operation is ready for stage 4 (03 R116). -/
def routineOp (o : Nat) (s : State) : State :=
  match opOf o s with
  | some op => if op.st == .placed then updOp o (fun y => { y with st := .ready }) s else s
  | none => s

/-- A command that waited for sectors to be destaged goes on (06 R228, R230, 03 R116). -/
def advanceWaiting (c : Nat) (s : State) : State :=
  match cmdOf c s with
  | none => s
  | some cmd =>
    if cmd.ph != .waiting || !cmd.waitSecs.isEmpty || !cmd.waitVault.isEmpty then s
    else match cmd.opcode with
      | 0x04 => if cmd.opsLeft = 0 then finishCmd c 0 0 s else s
      | 0x06 => (opsOfCmd c s).foldl (fun s o => verifyOp o c s) s
      | 0x07 => (opsOfCmd c s).foldl (fun s o => routineOp o s) s
      | _ => s

/-- A command that cannot go on ends, and its operations with it (06 R226, R232). -/
def dropCmd (c : Nat) (status : BitVec 16) (s : State) : State :=
  finishCmd c status 0 ((opsOfCmd c s).foldl (fun s o => freeOp o s) s)

/-! ## DEALLOCATE (06 R229) -/

/-- Whether an operation's slice may be deallocated on the members: it covers the slice at every data position, and
every member that holds a data position of the row reads zeroes after deallocate (04 R143). -/
def wholeSlice (op : Op) (s : State) : Bool :=
  let g := geomOf op.pool s
  op.data == g.dataMask && op.first == 0 && op.count == g.sliceLen && erasedMask op.pool op.row s == 0 &&
  formatOf op.pool s != 2 &&
  (List.range g.w).all (fun p => match (slotRec op.pool (homeSlot op.pool op.row p s) s).port with
    | some q => ((mport q s).id.map (·.zeroOnDealloc)).getD false
    | none => false)

/-- The whole slices of a DEALLOCATE that no running operation holds go to the members. -/
def deallocPass (c : Nat) (s : State) : State :=
  match cmdOf c s with
  | none => s
  | some cmd =>
    if cmd.opcode != 0x05 || cmd.ph != .staged then s
    else (opsOfCmd c s).foldl (fun s o =>
      match opOf o s with
      | some op =>
        if op.kind == 9 && op.st == .placed && wholeSlice op s && !(op.secs.any (fun k => heldByOp o op.pool op.row op.slice k s)) then
          rowTurn o (updOp o (fun y => { y with kind := 3, why := .dealloc, st := .ready }) s)
        else s
      | none => s) s

/-- DEALLOCATE's own row: whole slices go to the members, every other part is written as zeroes. -/
def deallocOps (c : Nat) (s : State) : State :=
  match cmdOf c s with
  | none => s
  | some cmd =>
    let zeros : Tbl (List Byte) := (List.range cmd.count).map (fun o => (o, zeroSector))
    placeWrite c (deallocPass c (updCmd c (fun y => { y with ph := .staged, wdata := zeros }) s))

end Sys2Proof.Machine
end

