-- ==== Sys2Proof/Machine/Ecc.lean ====
section
/-! DEFINITION. Sys2Proof/Machine/Ecc.lean: errors in the DRAM and in the tag SRAM of the cache (07 R269 to R273), found by a scrub
or met by a command that reads there. -/

namespace Sys2Proof.Machine

/-- Sectors in transit of a line that its operations hold stay in their HOST handles (R270). -/
def keepTransit (x : Nat) (s : State) : State :=
  let t := tagAt x s
  let keep (op : Op) : Op :=
    if op.lines.any (fun y => y.2 == x) then
      { op with hdata := op.secs.foldl (fun h k =>
          match opSecPlace op k s with
          | (_, some y, sec) =>
            if y = x && t.dirty.getLsbD sec && (tget h k).isNone then tset h k { data := cacheSec x sec s } else h
          | _ => h) op.hdata }
    else op
  { s with pipe.ops := s.pipe.ops.map (fun e => (e.1, keep e.2)) }

/-- One tag error (R270, R272). -/
def tagError (e : TagErr) (s : State) : State :=
  let x := e.set.val * 16 + e.way.val
  if e.tagGood then (if e.shadowBad then syncShadow x s else s)
  else
    let s := raiseFree 0x090 0x32 { s with cache.tagParity := sat32 s.cache.tagParity 1 }
    let s := keepTransit x s
    let s := { s with cache.evict := tupd s.cache.evict x (fun v => { v with attached := true }) }
    if e.shadowBad then
      let s := setTag x {} { s with cache.unnamedLoss := true, led.unnamedLoss := true, cache.shadow := tdel s.cache.shadow x }
      raiseFree 0x091 0x3D (recEvent 0x091 0x0010 x [] s)
    else match tget s.cache.shadow x with
      | some h =>
        let live := h.dirty &&& ~~~ unrestoredMask h.pool (tagLine x { lineHi := h.lineHi, pool := h.pool }) s
        setTag x { valid := live, dirty := live, lineHi := h.lineHi, pool := h.pool }
          { s with cache.shadowRep := sat32 s.cache.shadowRep 1 }
      | none => setTag x {} s

/-- The operation whose HOST handle holds a sector in transit. -/
def transitOp (x sec : Nat) (s : State) : Option Nat :=
  (s.pipe.ops.find? (fun e => e.2.hostpost && e.2.secs.any (fun k => match opSecPlace e.2 k s with
    | (_, some y, i) => y == x && i == sec
    | _ => false))).map (·.1)

/-- A mirror sector is dropped, and the owner asked for the line (10 R368): MIRROR_GAP until it arrives. The request is
a RESYNC_LINE that names the sector and carries no data (log entry 36). -/
def mirrorLost (l line x sec : Nat) (s : State) : State :=
  let ask : LineSector := { pool := Fin.ofNat 16 l, line := line, sector := Fin.ofNat 16 sec, data := [] }
  let s := dropSec x sec { s with pair.gaps := (l, line, sec) :: s.pair.gaps }
  raiseFree 0x183 0x31 (sendPair (.resyncLine [ask] none) (unwait x sec s))

/-- The data of a sector cannot be read any more (R269, R551). -/
def loseSec (x sec : Nat) (s : State) : State :=
  let t := tagAt x s
  if t.dirty.getLsbD sec then
    if t.valid.getLsbD sec then
      let line := tagLine x t
      if !owns t.pool s then mirrorLost t.pool line x sec s
      else
        let os := destagesOf x sec s
        let s := unwait x sec (addLostW t.pool line x sec 1 (dropSec x sec s))
        os.foldl (fun s o => endOp o 0x0104 0 [] s) s
    else
      let s := match transitOp x sec s with
        | some o => endOp o 0x0104 0 [] s
        | none => s
      dropSec x sec s
  else if t.valid.getLsbD sec then dropSec x sec s
  else s

/-- One DRAM error in a sector (R269). -/
def dramError (e : DramErr) (s : State) : State :=
  let x := e.set.val * 16 + e.way.val
  let src := 0x080 + e.set.val % 16
  if !e.uncorrectable then raiseFree src 0x30 { s with cache.dramCorr := sat32 s.cache.dramCorr 1 }
  else loseSec x e.sector.val (raiseFree src 0x31 { s with cache.dramUnc := sat32 s.cache.dramUnc 1 })

/-- A command that reads tags meets their errors first, those that stand and those that come with it, and then proceeds (R270). -/
def meetTags (errs : List TagErr) (s : State) : State :=
  (s.cache.tagErrs ++ errs).foldl (fun s e => tagError e s) { s with cache.tagErrs := [] }

/-- A command that reads the given sectors of the DRAM, as (place, sector), meets the errors that lie in them (R269). -/
def meetDram (places : State → List (Nat × Nat)) (errs : List DramErr) (s : State) : State :=
  errs.foldl (fun s e => if (places s).contains (e.set.val * 16 + e.way.val, e.sector.val) then dramError e s else s) s

/-- The sectors of an operation that are read from the DRAM: hits of a READ, what a destage writes out. -/
def opReads (o : Nat) (s : State) : List (Nat × Nat) :=
  match opOf o s with
  | none => []
  | some op => op.secs.filterMap (fun k => match cachedBits op k s with
    | some (x, v, d) =>
      let sec := (lineOf op.pool op.row (k / 16) (16 * op.slice + k % 16) s).2
      if (op.kind == 0 || op.kind == 1 || op.kind == 2) && (v || d) then some (x, sec) else none
    | none => none)

end Sys2Proof.Machine
end

