-- ==== Sys2Proof/Machine/Movers.lean ====
section
/-! DEFINITION. Sys2Proof/Machine/Movers.lean: work that the control cores run on their own: relocation of cells (04
R144 to R159, 08 R312 to R318), restore walks (R325, R326), patrol and queued checks (09 R332 to R335, R355), replay
and resynchronisation (07 R287, R289), reshape (09 R345 to R355). The bandwidth limits of 08 R315 and 09 R333 are
timing and are left out. -/

namespace Sys2Proof.Machine

/-! ## Cells and fallow strips (04 R132, R144 to R147) -/

/-- Roll entries of a pool. -/
def rollEntries (l : Nat) (s : State) : Nat := (poolEnt l s).nblocks * (poolEnt l s).q

/-- Every cell of a pool. -/
def allCells (l : Nat) (s : State) : List (Nat × Nat) :=
  (List.range (rollEntries l s)).flatMap (fun e => (List.range (geomOf l s).w).map (fun p => (e, p)))

/-- Present home of a cell: slot and band slot (08 R312). -/
def presentHome (l e p : Nat) (s : State) : Nat × Nat :=
  match relocOf l e p s with
  | none => (rollSlot l e p s, p)
  | some r => if r.settled then (r.toSlot, r.toB) else (r.fromSlot, r.fromB)

/-- Cells whose present home is on a slot. -/
def cellsOn (l slot : Nat) (s : State) : List (Nat × Nat) :=
  (allCells l s).filter (fun (e, p) => (presentHome l e p s).1 == slot)

/-- Fallow strips of a block as (member slot, band slot): at each band slot, the members without a stripe strip. -/
def fallowOf (l block : Nat) (s : State) : List (Nat × Nat) :=
  let p := poolEnt l s
  (List.range (geomOf l s).w).flatMap (fun b =>
    let used := (List.range p.q).map (fun j => rollSlot l (block * p.q + j) b s)
    ((List.range p.n).filter (fun m => !used.contains m)).map (fun m => (m, b)))

/-- Strips that entries in use of a block name as TO or FROM, but for one cell; the FROM of a settled entry counts (log entry
62). -/
def namedStrips (l block : Nat) (but : Option (Nat × Nat)) (s : State) : List (Nat × Nat) :=
  (poolRec l s).relocs.flatMap (fun (k, r) =>
    if k / 64 / (poolEnt l s).q == block && but != some (k / 64, k % 64) then [(r.fromSlot, r.fromB), (r.toSlot, r.toB)] else [])

/-- Free fallow strips of a block. -/
def freeFallow (l block : Nat) (s : State) : List (Nat × Nat) :=
  let named := namedStrips l block none s
  (fallowOf l block s).filter (fun x => !named.contains x)

/-- Least number of free fallow strips in any block (08 R329). -/
def leastFallow (l : Nat) (s : State) : Nat :=
  ((List.range (poolEnt l s).nblocks).map (fun b => (freeFallow l b s).length)).foldl min (2 ^ 20)

/-- Strips already relocated onto a member (04 R156). -/
def relocatedOnto (l slot : Nat) (s : State) : Nat := ((poolRec l s).relocs.filter (fun e => e.2.toSlot == slot)).length

/-- The TO of a cell under R147, chosen under R156, on a member that can be written: ONLINE or SUSPECT and not being prepared
(log entry 62). The members of the roll entry's other strips are barred, and that of the cell itself; so are the roll-table homes of
cells that have settled elsewhere (log entry 85). -/
def chooseTo (l e p : Nat) (s : State) : Option (Nat × Nat) :=
  let block := e / (poolEnt l s).q
  let w := (geomOf l s).w
  let named := namedStrips l block (some (e, p)) s
  let busy := ((List.range w).filter (· != p)).flatMap (fun p' =>
    rollSlot l e p' s :: (match relocOf l e p' s with
      | some r => if r.settled then [r.toSlot] else [r.toSlot, r.fromSlot]
      | none => []))
  let own := (presentHome l e p s).1
  let cand := (fallowOf l block s).filter (fun x => !named.contains x && !busy.contains x.1 && x.1 != own &&
    ((slotRec l x.1 s).st == .online || (slotRec l x.1 s).st == .suspect) && (slotRec l x.1 s).prep.isNone)
  leastBy (fun (m, b) => (((slotRec l m s).pctUsed * 8192 + relocatedOnto l m s) * 128 + m) * 64 + b) cand

/-- Whether the overlay takes one more entry (04 R148). -/
def overlayRoom (l : Nat) (s : State) : Bool :=
  decide ((poolRec l s).relocs.length < (tgetD (tab s).limits l {}).overlay)

/-- Put an entry for a cell in use. -/
def setReloc (l e p : Nat) (r : Reloc) (s : State) : State :=
  updPool l (fun x => { x with relocs := tset x.relocs (cellKey e p) r }) s

/-- Start or restart the move of a cell off its present home, for a reason (04 R146, R150; 08 R312). Answers whether
a TO exists. -/
def moveCell (l e p reason : Nat) (s : State) : Bool × State :=
  match chooseTo l e p s with
  | none => (false, s)
  | some (m, b) =>
    match relocOf l e p s with
    | none =>
      if overlayRoom l s then
        (true, setReloc l e p { fromSlot := rollSlot l e p s, fromB := p, toSlot := m, toB := b, reason := reason, lastCommit := s.now } s)
      else (false, s)
    | some r =>
      (true, setReloc l e p { fromSlot := r.toSlot, fromB := r.toB, toSlot := m, toB := b, reason := reason, lastCommit := s.now,
                                  back := r.back } s)

/-- A cell that keeps no home (04 R153): recorded, and the pool is HOMELESS (08 R318). -/
def leaveErased (l slot e p : Nat) (s : State) : State :=
  updPool l (fun x => { x with homeless := true })
    (recEvent 0x1F5 0x0021 (l % 8 * 128 + slot) (leBytes 2 e ++ leBytes 1 p) s)

/-- A failed slot's cells get their moves (08 R312). A move off the slot goes on as a rebuild from its BOUNDARY; one onto it starts
again with a new TO, and stops where there is none (04 R150). -/
def startRebuild (l slot : Nat) (s : State) : State :=
  if (geomOf l s).m = 0 || (poolRec l s).reshape.st = 2 then s
  else
    let cells := (allCells l s).filter (fun (e, p) => match relocOf l e p s with
      | none => rollSlot l e p s == slot
      | some r => r.toSlot == slot || (!r.settled && r.fromSlot == slot))
    cells.foldl (fun s (e, p) =>
      match relocOf l e p s with
      | some r =>
        if !r.settled && r.fromSlot == slot && r.toSlot != slot then
          setReloc l e p { toBoundary r with reason := 0, stopped := false, paused := false, full := false } s
        else
          let (ok, s) := moveCell l e p 0 s
          if ok then s
          else leaveErased l slot e p (if r.settled then s else setReloc l e p { toBoundary r with stopped := true } s)
      | none =>
        let (ok, s) := moveCell l e p 0 s
        if ok then s else leaveErased l slot e p s) s

/-- Cells of a slot in RETIRING that have no possible TO are recorded (04 R161). -/
def noteShort (l slot short : Nat) (s : State) : State :=
  if short = 0 then s else recEvent 0x1F5 0x0024 (l % 8 * 128 + slot) (leBytes 4 short) s

/-- A slot in RETIRING: every cell homed on it moves off (04 R161, 08 R301). A move off it that runs goes on; one that stopped without
a TO starts again where there is one now (R150). -/
def startRetire (l slot : Nat) (s : State) : State :=
  let cells := (cellsOn l slot s).filter (fun (e, p) => match relocOf l e p s with
    | some r => r.settled || r.stopped
    | none => true)
  let (short, s) := cells.foldl (fun (n, s) (e, p) =>
    let again := (relocOf l e p s).any (fun r => !r.settled)
    let (ok, s) := moveCell l e p (if again then 0 else 1) s
    (if ok then n else n + 1, s)) (0, s)
  noteShort l slot short s

/-- A settled entry goes back to its roll home, when a member that can be written serves it (04 R146, 08 R326). -/
def copyBack (l e p : Nat) (s : State) : State :=
  match relocOf l e p s with
  | none => s
  | some r =>
    let slot := rollSlot l e p s
    if r.settled && ((slotRec l slot s).st == .online || (slotRec l slot s).st == .suspect) then
      setReloc l e p { fromSlot := r.toSlot, fromB := r.toB, toSlot := slot, toB := p, reason := 5, lastCommit := s.now } s
    else s

/-- Copy-back to a restored slot (08 R326): every entry whose roll home is on it goes home, one that still settles does so then. -/
def startCopyBack (l slot : Nat) (s : State) : State :=
  (poolRec l s).relocs.foldl (fun s (k, r) =>
    let e := k / 64
    let p := k % 64
    if rollSlot l e p s != slot || r.toSlot == slot && r.toB == p then s
    else if r.settled then copyBack l e p s
    else setReloc l e p { r with back := true } s) s

/-- Whether a pool runs a rebuild, restore, retirement or copy-back (09 R355). -/
def heavyWork (l : Nat) (s : State) : Bool :=
  (poolRec l s).relocs.any (fun e => !e.2.settled && (e.2.reason == 0 || e.2.reason == 1 || e.2.reason == 5)) ||
  !(poolRec l s).walks.isEmpty

/-- A voluntary reason: wear, heat or slowness. -/
def voluntary (reason : Nat) : Bool := reason == 2 || reason == 3 || reason == 4

/-- Whether a patrol pass runs or waits to run (09 R355). -/
def passRuns (l : Nat) (s : State) : Bool :=
  let p := (poolRec l s).patrol
  p.st == 1 || p.st == 2 || (p.st == 0 && p.overdue)

/-- Whether a pool runs a rebuild or a retirement (04 R154). -/
def movesOff (l : Nat) (s : State) : Bool :=
  (poolRec l s).relocs.any (fun e => !e.2.settled && (e.2.reason == 0 || e.2.reason == 1))

/-- Whether a voluntary move may start (04 R154). -/
def voluntaryMay (l : Nat) (s : State) : Bool :=
  !movesOff l s && !passRuns l s && (poolRec l s).reshape.st != 2

/-- Whether a voluntary move runs (09 R355). -/
def voluntaryRuns (l : Nat) (s : State) : Bool :=
  (poolRec l s).relocs.any (fun e => !e.2.settled && !e.2.stopped && !e.2.paused && voluntary e.2.reason)

/-- Whether a voluntary move of a cell keeps the reserve (04 R153). -/
def reserveKept (l e : Nat) (s : State) : Bool :=
  let need := (geomOf l s).w * (tgetD (tab s).limits l {}).reserve
  (List.range (poolEnt l s).nblocks).all (fun b =>
    decide (need + (if b = e / (poolEnt l s).q then 1 else 0) ≤ (freeFallow l b s).length))

/-- The most written, or most read, cell on a slot that may move: one that has a TO and leaves the reserve (04 R153, R157 to R159). -/
def busiestCell (l slot : Nat) (t : Tbl Nat) (s : State) : Option (Nat × Nat) :=
  leastBy (fun (e, p) => 2 ^ 64 - tgetD t (cellKey e p) 0)
    ((cellsOn l slot s).filter (fun (e, p) => (match relocOf l e p s with
      | some r => r.settled
      | none => overlayRoom l s) && reserveKept l e s && (chooseTo l e p s).isSome))

/-- Whether a pool has a voluntary move that has not settled. -/
def hasVoluntary (l : Nat) (s : State) : Bool := (poolRec l s).relocs.any (fun e => !e.2.settled && voluntary e.2.reason)

/-- Start one voluntary move off a slot (04 R153, R154). -/
def startVoluntary (l slot reason : Nat) (s : State) : State :=
  let r := poolRec l s
  if !voluntaryMay l s || hasVoluntary l s then s
  else match busiestCell l slot (if reason = 4 then r.reads else r.writes) s with
    | some (e, p) => (moveCell l e p reason s).2
    | none => s

/-- Mean percentage used of a pool's serving members. -/
def poolMean (p : Nat) (s : State) : Nat :=
  let l := ((poolRec p s).slots.filter (fun e => e.2.port.isSome && e.2.st != .failed)).map (·.2.pctUsed)
  if l.isEmpty then 0 else l.sum / l.length

/-- Voluntary moves that are due off a slot, one of each reason tried in the order wear, heat, slowness (04 R157 to R159; log entry
62). -/
def voluntaryDue (p n : Nat) (s : State) : State :=
  let lim := tgetD (tab s).limits p {}
  let r := slotRec p n s
  if !(r.st == .online || r.st == .suspect) then s
  else
    let s := if bitN lim.flags 0 && decide (poolMean p s + lim.wearSpread < r.pctUsed) then startVoluntary p n 2 s else s
    let s := if bitN lim.flags 1 && r.hot then startVoluntary p n 3 s else s
    if bitN lim.flags 2 && r.st == .online && decide (3 ≤ (lastDay r.suspects s).length) then startVoluntary p n 4 s else s

/-- Voluntary moves of a pool: a running one stops at its BOUNDARY for a rebuild or retirement and resumes when the pool is idle, no
restore or copy-back running either (04 R154; log entry 62); none starts at FLOOR. -/
def kickVoluntary (l : Nat) (s : State) : State :=
  let s :=
    if movesOff l s then updPool l (fun r => { r with relocs := r.relocs.map (fun (k, m) =>
      (k, if !m.settled && voluntary m.reason && !m.paused then { toBoundary m with paused := true } else m)) }) s
    else if voluntaryMay l s && !heavyWork l s then updPool l (fun r => { r with relocs := r.relocs.map (fun (k, m) =>
      (k, if m.paused then { m with paused := false } else m)) }) s
    else s
  if atFloor s || !voluntaryMay l s || hasVoluntary l s then s
  else ((poolRec l s).slots.map (·.1)).foldl (fun s n => voluntaryDue l n s) s

/-! ## Moving (04 R149, 08 R313, R314) -/

/-- The first band at or above `b` whose block holds a roll entry. -/
def nextBandFor (l e b : Nat) (s : State) : Option Nat :=
  let p := poolEnt l s
  ((List.range (p.bands - b)).map (· + b)).find? (fun x => blockHash x p.nblocks == e / p.q)

/-- Row of a roll entry in a band. -/
def rowAt (l e band : Nat) (s : State) : Nat := band * (poolEnt l s).q + e % (poolEnt l s).q

/-- Slices of a row. -/
def slicesOf (l : Nat) (s : State) : Nat := ((geomOf l s).ss + 15) / 16

/-- Remaining redundancy of a cell in its next band, above zero by 64 (08 R313). -/
def cellRank (l e p : Nat) (r : Reloc) (s : State) : Nat :=
  let g := geomOf l s
  let er := match nextBandFor l e (max r.next r.boundary) s with
    | some b => pop (erasedMask l (rowAt l e b s) s)
    | none => 0
  let cls := if r.reason = 0 then 0 else if r.reason = 1 then 1 else 2
  (((64 + g.m - er) * 4 + cls) * 4096 + e) * 64 + p

/-- Operations in flight for a mover. -/
def moverOps (l : Nat) (w : Why) (s : State) : Nat := (s.pipe.ops.filter (fun e => e.2.pool == l && e.2.why == w)).length

/-- Make the operations of one row of a mover, one per slice. -/
def rowOf (l row : Nat) (kind : Nat) (rebuild : Word) (why : Why) (s : State) : State :=
  (List.range (slicesOf l s)).foldl (fun s sl =>
    newOp { kind := kind, pool := l, row := row, slice := sl, first := 0, count := (geomOf l s).sliceLen,
            rebuild := rebuild, why := why } s) s

/-- Whether a mover already works on a row. -/
def onRow (l row : Nat) (why : Why) (s : State) : Bool :=
  s.pipe.ops.any (fun e => e.2.pool == l && e.2.row == row && e.2.why == why)

/-- Give a moving cell its next rows (04 R149): marked rows again first, then, when it is in motion, onward within 256 rows of
window and 32 operations. -/
def kickCell : Nat → Bool → Nat → Nat → Nat → State → State
  | 0, _, _, _, _, s => s
  | n + 1, onward, l, e, p, s =>
    match relocOf l e p s with
    | none => s
    | some r =>
      if r.settled || r.stopped || r.paused || r.full || 32 < moverOps l (.cell e p) s + slicesOf l s then s
      else match r.remark.find? (fun row => !onRow l row (.cell e p) s) with
        | some row => kickCell n onward l e p (rowOf l row 3 (bit p) (.cell e p) s)
        | none =>
          if !onward || 256 ≤ r.window.length + moverOps l (.cell e p) s then s
          else match nextBandFor l e (max r.next r.boundary) s with
            | none => s
            | some b => kickCell n onward l e p
                (rowOf l (rowAt l e b s) 3 (bit p) (.cell e p) (setReloc l e p { r with next := b + 1, active := true } s))

/-- Rows of a band in which a slot holds a cell with no entry in use, with the position (08 R325). -/
def walkRowsOf (l slot band : Nat) (s : State) : List (Nat × Nat) :=
  let p := poolEnt l s
  (List.range p.q).flatMap (fun j =>
    let row := band * p.q + j
    let (_, e) := bandEntry l row s
    ((List.range (geomOf l s).w).filter (fun q => rollSlot l e q s == slot && (relocOf l e q s).isNone)).map (fun q => (row, q)))

/-- Cells that wait or move: moving entries, and the cells of each restore walk's present band (log entry 62), with their ranks. -/
def movingCells (l : Nat) (s : State) : List (Nat × Nat) :=
  ((poolRec l s).relocs.filter (fun e => !e.2.settled && !e.2.stopped && !e.2.paused && !e.2.full)).map (fun (k, r) =>
    (cellRank l (k / 64) (k % 64) r s, k)) ++
  (poolRec l s).walks.flatMap (fun (n, w) => (walkRowsOf l n w.next s).map (fun (row, p) =>
    let e := (bandEntry l row s).2
    (cellRank l e p { boundary := w.next } s, cellKey e p)))

/-- Cells in motion: the first 256 by rank (08 R313, R314). -/
def cellsInMotion (l : Nat) (s : State) : List (Nat × Nat) :=
  (((movingCells l s).foldl (fun t x => tset t x.1 x.2) ([] : Tbl Nat)).take 256).map (fun x => (x.2 / 64, x.2 % 64))

/-- Whether a cell of a restore walk may have one row's operations more: at most 32 are in flight (08 R314). -/
def walkMay (l slot row : Nat) (s : State) : Bool :=
  let e := (bandEntry l row s).2
  decide ((s.pipe.ops.filter (fun o => o.2.pool == l && o.2.why == .restore slot && (bandEntry l o.2.row s).2 == e)).length +
    slicesOf l s ≤ 32)

/-- Give a restore walk its next rows (08 R325): rows to be done again, then those of the present band whose cells are in motion; the
rows of a cell that stopped are passed over (R321). -/
def kickWalk : Nat → Nat → Nat → State → State
  | 0, _, _, s => s
  | n + 1, l, slot, s =>
    match tget (poolRec l s).walks slot with
    | none => s
    | some w =>
      if (slotRec l slot s).st != .rebuilding || (slotRec l slot s).prep.isSome || (slotRec l slot s).adopting.isSome then s
      else
        let s := w.remark.foldl (fun s row =>
          if onRow l row (.restore slot) s || !walkMay l slot row s then s
          else match (walkRowsOf l slot (row / (poolEnt l s).q) s).find? (·.1 == row) with
            | some (_, q) => rowOf l row 3 (bit q) (.restore slot) s
            | none => s) s
        let left := (walkRowsOf l slot w.next s).filter (fun x => !w.window.contains x.1 && !onRow l x.1 (.restore slot) s &&
          !w.stopped.contains (bandEntry l x.1 s).2)
        if (poolEnt l s).bands ≤ w.next then s
        else if left.isEmpty then
          kickWalk n l slot (updPool l (fun x => { x with walks := tset x.walks slot { w with next := w.next + 1 } }) s)
        else
          let on := cellsInMotion l s
          left.foldl (fun s (row, q) =>
            if !on.contains ((bandEntry l row s).2, q) || !walkMay l slot row s || 256 ≤ w.window.length + moverOps l (.restore slot) s then s
            else rowOf l row 3 (bit q) (.restore slot) s) s

/-! ## Patrol (09 R332 to R335, R355) -/

/-- Whether any slot of a pool is being prepared (08 R305). -/
def formatting (l : Nat) (s : State) : Bool := (poolRec l s).slots.any (fun e => e.2.prep.isSome)

/-- The patrol record as it stands is the one that a commit makes lasting (09 R334). -/
def recordPatrol (l : Nat) (s : State) : State := updPatrol l (fun p => { p.save with lastCommit := opSeconds s }) s

/-- The patrol record is committed (09 R334). -/
def savePatrol (l : Nat) (s : State) : State := poolCommit l (recordPatrol l s)

/-- What a new pass makes of the patrol (09 R332); while a voluntary move runs it waits (R355). -/
def beginPass (l : Nat) (s : State) : State :=
  let now := opSeconds s
  if voluntaryRuns l s then updPatrol l (fun p => { p with overdue := true }) s
  else updPatrol l (fun p => { p with
    st := if heavyWork l s then 2 else 1, passes := sat32 p.passes 1, passStart := now, dueFrom := now,
    row := 0, slice := 0, checked := 0, repaired := 0, corrected := 0, rewritten := 0, markedN := 0, unchecked := 0,
    overdue := false }) s

/-- A pass starts (09 R332), and its record is committed (log entry 81). -/
def startPass (l : Nat) (s : State) : State :=
  if voluntaryRuns l s then beginPass l s else savePatrol l (beginPass l s)

/-- A pass ends: its record is committed (09 R334); an overdue pass starts (R332). -/
def endPass (l : Nat) (s : State) : State :=
  let late := (poolRec l s).patrol.overdue
  let s := savePatrol l (updPatrol l (fun p => { p with st := 0, lastEnd := opSeconds s }) s)
  if late then startPass l s else s

/-- The first row at or above `r` that belongs to a volume of a pool; past its rows when there is none. -/
def nextVolRow (l r : Nat) (s : State) : Nat :=
  (((tab s).vols.filter (fun e => e.2.pool == l)).filterMap (fun e =>
    let a := volStart e.1 e.2 l s
    if r < a + volRows l e.2 s then some (max r a) else none)).foldl min (rowsOf l s)

/-- The state of a patrol record changes: the record is committed (log entry 81). -/
def setPatrol (l st : Nat) (s : State) : State := savePatrol l (updPatrol l (fun p => { p with st := st }) s)

/-- The patrol walk of a pool goes on over the rows of its volumes: it pauses at its next row under R355, ends after the
last. Queued checks run before it (R335). The walk's place moves when the slice's operation ends, so that a record never passes over a
slice in flight (R334). -/
def kickPatrol (l : Nat) (s : State) : State :=
  let p := (poolRec l s).patrol
  let s := if p.st = 1 && p.slice = 0 && moverOps l .patrol s = 0 && heavyWork l s then setPatrol l 2 s
           else if p.st = 2 && !heavyWork l s then setPatrol l 1 s
           else if p.st = 0 && p.overdue && (poolRec l s).reshape.st != 2 && !voluntaryRuns l s then startPass l s
           else s
  let p := (poolRec l s).patrol
  if p.st != 1 || formatting l s || moverOps l .patrol s != 0 || s.mem.checks.any (fun c => c.1 == l) then s
  else if rowsOf l s ≤ nextVolRow l p.row s then endPass l s
  else
    let row := nextVolRow l p.row s
    let p := if row = p.row then p else { p with row := row, slice := 0 }
    let s := updPatrol l (fun y => { y with row := p.row, slice := p.slice }) s
    newOp { kind := 4, pool := l, row := p.row, slice := p.slice, count := (geomOf l s).sliceLen, why := .patrol } s

/-- Source rows that hold volume data, in walk order. -/
def walkSrcRows (p : Nat) (s : State) : List Nat :=
  let asc := ((tab s).vols.filter (fun e => e.2.pool == p)).foldl (fun acc e =>
    (List.range (volRows p e.2 s)).foldl (fun acc i => nins acc (e.2.startRow + i)) acc) []
  if (tgetD (tab s).targets p {}).descending then asc.reverse else asc

/-- Whether a source row lies behind SRC (09 R349). -/
def behindSrc (p row : Nat) (s : State) : Bool :=
  let order := walkSrcRows p s
  !order.contains row || decide (order.idxOf row < order.idxOf (poolRec p s).reshape.src)

/-- The target row of a source sector of a volume, with its place there. -/
def targetOf (p row pos ss : Nat) (s : State) : Option (Nat × Nat × Nat) :=
  (volOfRow p row s).bind (fun v => (tget (tab s).vols v).map (fun e =>
    let g := geomOf p s
    (locIn (p + 8) v e ((row - e.startRow) * (g.k * g.ss) + pos * g.ss + ss) s).2))

/-- A queued check of a source row behind SRC becomes checks of the target slices that hold its data (09 R355). -/
def moveChecks (s : State) : State :=
  s.mem.checks.foldl (fun s (l, row, sl) =>
    if 8 ≤ l || (walking l s).isNone || !behindSrc l row s || s.pipe.ops.any (fun e => e.2.why == .check && e.2.pool == l) then s
    else
      let g := geomOf l s
      let ts := ((List.range g.k).flatMap (fun pos => (List.range g.sliceLen).filterMap (fun i =>
        (targetOf l row pos (16 * sl + i) s).map (fun t => (t.1, t.2.2 / 16))))).eraseDups
      ts.foldl (fun s t => queueCheck (l + 8) t.1 t.2 s) { s with mem.checks := s.mem.checks.filter (· != (l, row, sl)) }) s

/-- The oldest queued check runs (09 R335), on the layout that R348 gives its row (R355). -/
def kickCheck (s : State) : State :=
  let s := moveChecks s
  match s.mem.checks.find? (fun (l, _, _) => !formatting l s && works l s) with
  | none => s
  | some (l, row, sl) =>
    if s.pipe.ops.any (fun e => e.2.why == .check) then s
    else newOp { kind := 4, pool := l, row := row, slice := sl, count := (geomOf l s).sliceLen, why := .check } s

/-! ## Replay and resynchronisation (07 R287, R289) -/

/-- Whether an entry's cached data is still in the vault: its replay waits for the restore, or for the pages at FLOOR (07 R287; 11
R411, R415). -/
def replayWaits (e : Jnl) (s : State) : Bool :=
  e.cached && (bitsOf (e.positions &&& (geomOf e.pool s).dataMask)).any (fun p => (List.range e.count).any (fun i =>
    let (line, sec) := lineOf e.pool e.row p (16 * e.slice + e.first + i) s
    unrestored e.pool line sec s && (vaultData e.pool line sec s).isNone))

/-- One RESYNC for each open entry that waits for it (07 R287). -/
def kickReplay (s : State) : State :=
  if s.jnl.waitImage then s
  else s.jnl.replay.foldl (fun s i =>
    let e := tgetD s.jnl.own i {}
    if e.st != 1 || !works e.pool s || replayWaits e s || s.pipe.ops.any (fun x => x.2.why == .replay i) ||
        ((poolRec e.pool s).sealPaused && !lostERoom s) then s
    else newOp { kind := 7, pool := e.pool, row := e.row, slice := e.slice, first := e.first, count := e.count,
                 why := .replay i } s) s

/-- Whether a pool's replay goes on: open entries wait for it that a full lost-extent list does not hold (07 R289, 08 R321). -/
def replaying (l : Nat) (s : State) : Bool :=
  !((poolRec l s).sealPaused && !lostERoom s) &&
  s.jnl.replay.any (fun i => let e := tgetD s.jnl.own i {}; e.st == 1 && e.pool % 8 == l % 8)

/-- Rows of marked regions that operations wait for at stage 4 (07 R289). -/
def wantedRows (s : State) : List (Nat × Nat) :=
  (s.pipe.ops.filter (fun e => (e.2.st == .placed || e.2.st == .ready || e.2.st == .scratch) && e.2.kind != 7 &&
    (match tget s.jnl.resync (regionKey e.2.pool e.2.row s) with
     | some next => decide (next ≤ e.2.row) && !s.jnl.resyncDone.contains (e.2.pool * 2 ^ 48 + e.2.row)
     | none => false))).map (fun e => (e.2.pool, e.2.row))

/-- Background resynchronisation, one row per pool at a time, wanted rows first (07 R289). -/
def kickResync (s : State) : State :=
  if s.jnl.waitImage then s
  else
    let ahead := (wantedRows s).foldl (fun s (l, row) =>
      if onRow l row .region s || replaying l s then s else rowOf l row 7 0 .region s) s
    ahead.jnl.resync.foldl (fun s (k, row) =>
      let l := k / 2 ^ 48
      if moverOps l .region s != 0 || ((poolRec l s).sealPaused && !lostERoom s) || !works l s || replaying l s then s
      else rowOf l row 7 0 .region s) ahead

/-! ## Restore from anchors (07 R293) -/

/-- Reads of checkpoint copies are outstanding. -/
def ckptReading (s : State) : Bool :=
  s.mem.cmds.any (fun e => !e.2.dead && (match e.2.owner with
    | .ckptHdr _ => true
    | .ckptRead .. => true
    | _ => false))

/-- One open entry of a checkpoint's journal becomes an own entry that waits for replay, without cached data (R293, R287). -/
def adoptEntry (b : List Byte) (s : State) : State :=
  if leAt b 60 4 != (crc32c (b.take 60)).toNat || byteAt b 26 != 1 || !s.jnl.restorePools.contains (byteAt b 14) then s
  else
    let i := freeJnl s
    let e : Jnl :=
      { seq := s.jnl.nextSeq, row := leAt b 8 6, pool := byteAt b 14, kind := byteAt b 15, positions := BitVec.ofNat 64 (leAt b 16 8),
        slice := byteAt b 24, first := byteAt b 25 % 16, count := byteAt b 25 / 16 + 1, st := 1,
        reloc := bitN (byteAt b 27) 2, newGen := BitVec.ofNat 32 (leAt b 28 4) }
    let k := regionKey e.pool e.row s
    { s with jnl.own := tset s.jnl.own i e, jnl.nextSeq := s.jnl.nextSeq + 1, jnl.replay := nins s.jnl.replay i,
             jnl.marked := nins s.jnl.marked k, jnl.opens := tmod s.jnl.opens k 0 (· + 1) }

/-- Regions that a pool's bitmap marks, as keys. -/
def bitmapKeys (p : Nat) (data : List Byte) : List Nat :=
  (data.zipIdx.filter (fun e => e.1 != 0)).flatMap (fun (b, i) =>
    ((List.range 8).filter (fun j => b.getLsbD j)).map (fun j => p * 2 ^ 48 + 8 * i + j))

/-- Every region that the bitmaps mark is resynchronised (R293, R289). -/
def adoptRegions (p : Nat) (data : List Byte) (s : State) : State :=
  let first (k : Nat) : Nat := (k % 2 ^ 48) * 2 ^ (tgetD s.jnl.shift p 6)
  let ks := (bitmapKeys p data).filter (fun k => decide (first k < rowsOf p s))
  { s with jnl.marked := ks.foldl nins s.jnl.marked, jnl.resync := ks.foldl (fun t k => tset t k (first k)) s.jnl.resync }

/-- The restore ends; anchors are chosen from now on. -/
def endRestore (s : State) : State :=
  fillAnchors 3 { s with jnl := { s.jnl with restorePools := [], hdrs := [], restFrom := none, restPages := [] } }

/-- The copy that was read is taken: its open entries, its marked regions, the one event of R293. -/
def takeCkpt (c : CkptHdr) (s : State) : State :=
  let s := { s with jnl.nextSeq := max s.jnl.nextSeq c.jseq, jnl.ckptSeq := max s.jnl.ckptSeq c.seq }
  let j := tgetD s.jnl.restPages 1 []
  let s := (List.range 4096).foldl (fun s i => adoptEntry (slice j (64 * i) 64) s) s
  let s := s.jnl.restorePools.foldl (fun s p => adoptRegions p (tgetD s.jnl.restPages (65 + 256 * p) []) s) s
  endRestore (recEvent 0x094 0x0012 0 (leBytes 8 c.seq) s)

/-- The valid copy with the highest checkpoint sequence is read; with none left the restore ends. -/
def readCkpt (s : State) : State :=
  match leastBy (fun c => 2 ^ 64 - c.seq) s.jnl.hdrs with
  | none => endRestore s
  | some c =>
    let base := if c.copyA then 1024 else 8192
    let get (off n : Nat) (s : State) : State :=
      sendMember c.port (some (c.pool, c.slot)) (.ckptRead c.copyA off) (.read (base + off) n) s
    let s := { s with jnl := { s.jnl with restFrom := some c, restPages := [], hdrs := s.jnl.hdrs.filter (· != c) } }
    (List.range 8).foldl (fun s p => get (65 + 256 * p) 256 s) (get 1 64 s)

/-- The restore from anchors goes on (R293): once the members are found and every header is read, the best copy is read
whole; a copy that cannot be read gives way to the next (log entry 17). -/
def kickRestore (s : State) : State :=
  if s.jnl.restorePools.isEmpty || ckptReading s || s.jnl.restorePools.any (fun p => (tget s.mem.pools p).any (·.discovery)) then s
  else match s.jnl.restFrom with
    | none => readCkpt s
    | some c =>
      if (1 :: (List.range 8).map (fun p => 65 + 256 * p)).all (fun o => (tget s.jnl.restPages o).isSome) then takeCkpt c s
      else readCkpt s

/-! ## Reshape (09 R347 to R353) -/

/-- SRC for a boundary: the first source row, in walk order, with data beyond it (09 R348). -/
def srcFor (p b : Nat) (s : State) : Nat :=
  let order := walkRows p s
  ((walkSrcRows p s).find? (fun r => (targetsOf p r s).any (fun t => decide (b ≤ order.idxOf t)))).getD (rowsOf p s)

/-- Pages that one band takes on a member. -/
def bandPages (l : Nat) (s : State) : Nat := (geomOf l s).w * (geomOf l s).ss

/-- Whether the band of a target row is clear (09 R349). -/
def bandClear (p row : Nat) (s : State) : Bool :=
  let pt := bandPages (p + 8) s
  let ps := bandPages p s
  let b := row / (poolEnt (p + 8) s).q
  let lo := b * pt / ps
  let hi := ((b + 1) * pt - 1) / ps
  ((List.range (hi + 1 - lo)).map (· + lo)).all (fun sb =>
    (List.range (poolEnt p s).q).all (fun j => behindSrc p (sb * (poolEnt p s).q + j) s))

/-- The band that a window row's cursor starts from: the first, in walk order, that lies wholly LEAD target rows' worth of pages or more
beyond the frontier. -/
def cursorBand (p row : Nat) (s : State) : Nat :=
  let t := tgetD (tab s).targets p {}
  let q := (poolEnt (p + 8) s).q
  let pt := bandPages (p + 8) s
  let ps := bandPages p s
  let lead := (t.lead + q - 1) / q * pt
  if t.descending then (row / q * pt - lead) / ps - 1 else ((row / q + 1) * pt + lead + ps - 1) / ps

/-- Whether a band of the source lies wholly beyond the LEAD of a descending walk. -/
def leadFits (p row : Nat) (s : State) : Bool :=
  let q := (poolEnt (p + 8) s).q
  let lead := ((tgetD (tab s).targets p {}).lead + q - 1) / q * bandPages (p + 8) s
  decide (bandPages p s ≤ row / q * bandPages (p + 8) s - lead)

/-- Strips for a window row, in order of band, band slot and member slot (09 R349). -/
def windowStrips (p row : Nat) (s : State) : List (Nat × Nat × Nat) :=
  let need := (geomOf (p + 8) s).w * winPer (p + 8) s
  let used := (poolRec p s).reshape.window.flatMap (·.strips)
  let start := cursorBand p row s
  let bands := if (tgetD (tab s).targets p {}).descending then (if leadFits p row s then List.range (start + 1) else [])
               else (List.range ((poolEnt p s).bands - start)).map (· + start)
  bands.foldl (fun acc band =>
    if need ≤ acc.length then acc
    else
      let block := blockHash band (poolEnt p s).nblocks
      let free := freeFallow p block s
      let order := (List.range (geomOf p s).w).flatMap (fun b => (List.range (poolEnt p s).n).filterMap (fun m =>
        if free.contains (m, b) then some (band, b, m) else none))
      order.foldl (fun acc x =>
        if need ≤ acc.length || used.contains x || acc.any (fun y => y.2.2 == x.2.2) then acc else acc ++ [x]) acc) []

/-- Whether a source sector of a target row is dirty in the cache; its slice is destaged first. -/
def dirtySources (p row : Nat) (s : State) : List (Nat × Nat × Nat) :=
  let g := geomOf (p + 8) s
  ((List.range (slicesOf (p + 8) s)).flatMap (fun sl => (List.range g.k).flatMap (fun pos =>
    (List.range g.sliceLen).filterMap (fun i =>
      (sourceOf { pool := p + 8, row := row, slice := sl } pos i s).bind (fun (l, r, q, ss) =>
        let (line, sec) := lineOf l r q ss s
        let dirty := (match findLine l line s with
          | some x => (tagAt x s).dirty.getLsbD sec
          | none => false)
        if dirty || unrestored l line sec s then some (l, r, ss / 16) else none))))).eraseDups

/-- Source rows that hold the data of a target row. -/
def sourcesOf (p row : Nat) (s : State) : List Nat :=
  match volOfRow (p + 8) row s with
  | none => []
  | some v => match tget (tab s).vols v with
    | none => []
    | some e =>
      let gs := geomOf p s
      let gt := geomOf (p + 8) s
      let lo := (row - volStart v e (p + 8) s) * (gt.k * gt.ss)
      let hi := min e.sectors (lo + gt.k * gt.ss)
      if hi ≤ lo then []
      else (List.range ((hi - 1) / (gs.k * gs.ss) + 1 - lo / (gs.k * gs.ss))).map (fun i => e.startRow + lo / (gs.k * gs.ss) + i)

/-- Whether an operation works on a source row of a target row, or a check of one is queued (09 R348). -/
def sourcesBusy (p row : Nat) (s : State) : Bool :=
  s.pipe.ops.any (fun e => e.2.pool == p && (e.2.st == .program || e.2.st == .builtin) && (sourcesOf p row s).contains e.2.row) ||
  s.mem.checks.any (fun c => c.1 == p && (sourcesOf p row s).contains c.2.1)

/-- Whether a WAITING reshape may start (R347, R355): it is the first of those that this module runs, its slots serve, and nothing
moves in the pool. -/
def reshapeMay (p : Nat) (s : State) : Bool :=
  (poolRec p s).reshape.st == 1 && owns p s &&
  ((usedSlots (p + 8) s).filter (fun n => !(addedSlots p s).contains n)).all (fun n =>
    (slotRec p n s).st == .online || (slotRec p n s).st == .suspect) &&
  !(poolRec p s).relocs.any (fun e => !e.2.settled) && !heavyWork p s &&
  (poolIds s).all (fun q => !owns q s || ((poolRec q s).reshape.st != 2 && (p ≤ q || (poolRec q s).reshape.st != 1)))

/-- Whether an added slot is ready for the walk (R347): its member serves, its data area is prepared, its labels are written. -/
def addedReady (p n : Nat) (s : State) : Bool :=
  let r := slotRec p n s
  (tget (poolRec p s).slots n).isSome && (r.st == .online || r.st == .suspect) && r.prep.isNone &&
  !s.mem.cmds.any (fun e => !e.2.dead && (match e.2.owner with
    | .label q m _ _ => q == p && m == n
    | _ => false))

/-- The walk of a reshape that may start starts once the added slots are ready (R347, R348); a patrol pass ends (R355). -/
def beginWalk (p : Nat) (s : State) : State :=
  if !reshapeMay p s || commitsRefused s || !(addedSlots p s).all (fun n => addedReady p n s) then s
  else
    let t := tgetD (tab s).targets p {}
    let s := updPatrol p (fun y => ({ y with st := 0, overdue := false } : Patrol).save) s
    let begin_ (x : PoolRec) : PoolRec := { x with reshape := { x.reshape with
      st := 2, b := 0, rows := t.rows, window := [], next := 0, finished := [], remark := [], lastCommit := s.now } }
    let s := updPool p begin_ s
    poolCommit p (updPool p (fun x => { x with reshape.src := srcFor p 0 s }) s)

/-- The reshape walk of a pool goes on: at most 256 target rows beyond B, one row at a time, homed rows of the window
after it (09 R348 to R350). -/
def kickReshape (p : Nat) (s : State) : State :=
  let s := if !(addedSlots p s).isEmpty && (addedSlots p s).all (fun n => (tget (poolRec p s).slots n).isSome) then beginWalk p s
           else s
  match walking p s with
  | none => s
  | some r =>
    if moverOps (p + 8) .reshape s != 0 || !owns p s then s
    else
      let order := walkRows p s
      let run (row : Nat) (s : State) : State :=
        if sourcesBusy p row s then s
        else match dirtySources p row s with
        | [] => rowOf (p + 8) row 5 0 .reshape
            (updPool p (fun x => { x with reshape := { x.reshape with remark := x.reshape.remark.filter (· != row) } }) s)
        | ds => ds.foldl (fun s (l, rw, sl) => destageSlice l rw sl .destage s) s
      match r.remark.find? (fun row => !onRow (p + 8) row .reshape s) with
      | some row => run row s
      | none =>
        if r.b + 256 ≤ r.next || order.length ≤ r.next then s
        else
          let row := order.getD r.next 0
          if !(dirtySources p row s).isEmpty || sourcesBusy p row s then run row s
          else if bandClear p row s then
            run row (updPool p (fun x => { x with reshape.next := r.next + 1 }) s)
          else
            let strips := windowStrips p row s
            if strips.length < (geomOf (p + 8) s).w * winPer (p + 8) s || 1024 ≤ r.window.length then s
            else
              let bs := strips.map (·.1)
              let w : WinRow := { row := row, index := r.next, first := bs.headD 0, bands := bs.eraseDups.length, strips := strips }
              run row (updPool p (fun x => { x with reshape := { r with next := r.next + 1, window := r.window ++ [w] } }) s)

/-! ## The vault at FLOOR (11 R415) -/

/-- Sectors of a row slice that are still in the vault, with their paged data where it is there. -/
def vaultSlice (l row sl : Nat) (s : State) : List (Nat × Nat × Option (List Byte)) :=
  let g := geomOf l s
  (List.range g.k).flatMap (fun p => (List.range g.sliceLen).filterMap (fun i =>
    let (line, sec) := lineOf l row p (16 * sl + i) s
    if unrestored l line sec s then some (p, i, pagedSec l line sec s) else none))

/-- While the cache is out of service, live sectors are destaged straight from the vault, one slice at a time. -/
def kickVault (s : State) : State :=
  if cacheOn s || s.pipe.ops.any (fun e => e.2.why == .destage && !e.2.hdata.isEmpty && !e.2.hostpost) then s
  else
    let slices := ((idxLines s).flatMap (fun (l, line) => (secsOf (unrestoredMask l line s)).map (fun sec =>
      let (row, _, ss) := secOfLine l line sec s
      (l, row, ss / 16)))).eraseDups
    match slices.find? (fun (l, row, sl) => works l s && retryOk l row sl s && (vaultSlice l row sl s).all (fun x => x.2.2.isSome)) with
    | none => s
    | some (l, row, sl) =>
      let v := vaultSlice l row sl s
      (destageGroups (v.map (fun x => (x.1, x.2.1)))).foldl (fun s (f, c, m) =>
        let h : Tbl HSec := v.foldl (fun t (p, i, d) =>
          if m.getLsbD p && f ≤ i && i < f + c then tset t (p * 16 + i) { data := d.getD [] } else t) []
        newOp { kind := destageKind l f c m s, pool := l, row := row, slice := sl, first := f, count := c, data := m,
                why := .destage, lines := groupLines l row sl f c m s, secs := groupSecs f c m, hdata := h } s) s

/-! ## Labels (04 R165) -/

/-- Whether a label of a slot is being written. -/
def labelOut (l slot : Nat) (s : State) : Bool :=
  s.mem.cmds.any (fun e => !e.2.dead && (match e.2.owner with
    | .label p n _ _ => p == l && n == slot
    | _ => false))

/-- Labels that name another plan image than the one that runs are written again in the background (04 R165). -/
def kickLabels (l : Nat) (s : State) : State :=
  (poolRec l s).slots.foldl (fun s (n, _) =>
    match slotServes l n s with
    | none => s
    | some q => match (mport q s).label with
      | none => s
      | some b =>
        if slice b 48 32 == padTo 32 (tab s).hash || (mport q s).cls != .serving l n || labelOut l n s then s
        else writeLabel l n false false s) s

/-! ## All of them -/

/-- Once the lost-extent list has room again, the cells that stopped for want of it go on, and SEAL_PAUSED clears (08 R321). -/
def resumeSeals (s : State) : State :=
  if !lostERoom s then s
  else (s.mem.pools.filter (fun e => e.2.sealPaused)).foldl (fun s (p, _) => updPool p (fun x => { x with
    sealPaused := false, relocs := x.relocs.map (fun (k, m) => (k, { m with full := false })),
    walks := x.walks.map (fun (n, w) => (n, if w.stopped.isEmpty then w else { w with stopped := [], next := (tgetD x.slots n {}).restore })) }) s) s

/-- Everything that runs by itself gets its next operations; nothing while power fails or no plan runs, or while the one control
core left makes a schedule that operations wait for. -/
def kickMovers (s : State) : State :=
  if planFirst s || s.plan.tab.isNone || s.pow.flushing || s.pow.coldStop || !s.dev.ready || intakeHeld s || s.pair.farewell then s
  else
    let s := kickVault (kickCheck (kickResync (kickReplay (resumeSeals s))))
    (s.mem.pools.map (·.1)).foldl (fun s l =>
      if !poolValid l s || !works l s then s
      else
        let s := kickVoluntary l (kickLabels l s)
        let on := cellsInMotion l s
        let s := ((poolRec l s).relocs.map (·.1)).foldl (fun s k => kickCell 32 (on.contains (k / 64, k % 64)) l (k / 64) (k % 64) s) s
        let s := (poolRec l s).walks.foldl (fun s w => kickWalk 64 l w.1 s) s
        kickReshape l (kickPatrol l s)) s

end Sys2Proof.Machine
end

