-- ==== Sys2Proof/Machine/Intake.lean ====
section
/-! DEFINITION. Sys2Proof/Machine/Intake.lean: intake (01 R11 to R13, 05 R197 to R203, 06 R218 to R224): which entry
is begun next, the checks of R220 and what a begun entry becomes; and `settle`, what the module does by itself after
every command, as far as nothing outside it has to happen first. -/

namespace Sys2Proof.Machine

/-! ## Admin entries (06 R235) -/

/-- Data and ARGS of an admin opcode: least and greatest data length (0 for none), whether the data may be absent, and
the ARGS bytes with the mask of their bits. -/
structure AdminForm where
  lo : Nat := 0
  hi : Nat := 0
  /-- only the least and the greatest length are allowed -/
  ends : Bool := false
  none_ : Bool := true
  args : List (Nat × Nat) := []
  deriving DecidableEq, Repr

/-- Bytes of an authorisation (15 R513). -/
def authLen : Nat := 29920

/-- Whether a form takes a data length. -/
def AdminForm.takes (f : AdminForm) (n : Nat) : Bool := if f.ends then n == f.lo || n == f.hi else decide (f.lo ≤ n ∧ n ≤ f.hi)

/-- Bytes of an ARGS field, every bit used. -/
def argBytes (o n : Nat) : List (Nat × Nat) := (List.range n).map (fun i => (o + i, 0xFF))

/-- The table of 06 R235. -/
def adminForm (opcode : Nat) : Option AdminForm :=
  match opcode with
  | 0x80 => some { lo := 4096, hi := 4096, none_ := false }
  | 0x81 => some { lo := 32, hi := 32, none_ := false, args := argBytes 40 4 }
  | 0x82 => some { args := argBytes 40 4 }
  | 0x83 => some { args := argBytes 40 4 }
  | 0x84 => some { args := argBytes 40 8 ++ [(48, 1)] }
  | 0x85 => some { args := argBytes 40 6 }
  | 0x88 => some { lo := 1, hi := 1048576, none_ := false, args := argBytes 40 8 ++ [(48, 1)] }
  | 0x89 => some {}
  | 0x8A => some { lo := 64, hi := 64 + authLen, ends := true, none_ := false }
  | 0x8B => some { lo := authLen, hi := authLen, args := argBytes 40 8 }
  | 0x90 => some { lo := 1, hi := 65536, none_ := false, args := argBytes 40 1 }
  | 0x91 => some { lo := 1, hi := 1048576, none_ := false, args := argBytes 40 1 ++ argBytes 44 4 }
  | 0x92 => some { args := argBytes 40 3 }
  | 0x93 => some { args := argBytes 41 2 }
  | 0x94 => some { args := argBytes 41 2 }
  | 0x95 => some { args := argBytes 41 1 }
  | 0x98 => some { lo := 1, hi := 1048576, none_ := false, args := argBytes 40 4 ++ argBytes 48 8 }
  | 0x99 => some { lo := 1, hi := 4096, none_ := false, args := argBytes 40 4 }
  | 0x9A => some {}
  | 0x9B => some { lo := authLen, hi := authLen }
  | 0xA0 => some { lo := 512, hi := 512, none_ := false, args := argBytes 40 1 }
  | 0xA1 => some { lo := 512, hi := 512, none_ := false, args := argBytes 40 1 }
  | 0xA2 => some { args := argBytes 40 1 }
  | 0xA3 => some { lo := authLen, hi := authLen, args := argBytes 40 1 ++ [(41, 1)] }
  | 0xA8 => some { lo := 1, hi := 1048576, none_ := false, args := argBytes 40 4 }
  | 0xA9 => some { lo := authLen, hi := authLen }
  | 0xAA => some {}
  | 0xAB => some { args := argBytes 40 8 }
  | 0xB0 => some { lo := 32, hi := 65536, none_ := false, args := argBytes 40 1 }
  | 0xB1 => some { lo := 1, hi := 65536, none_ := false }
  | 0xB2 => some { lo := 1, hi := 4096, none_ := false }
  | 0xB3 => some { lo := 1, hi := 1048576, none_ := false, args := argBytes 40 8 ++ [(48, 1)] }
  | 0xB4 => some { lo := authLen, hi := authLen }
  | 0xB5 => some { lo := authLen, hi := authLen, args := argBytes 40 1 ++ [(41, 1)] }
  | 0xB8 => some { args := [(40, 1)] }
  | 0xB9 => some {}
  | _ => none

/-! ## Fields of an entry (05 R180) -/

/-- DPTYPE. -/
def entDp (e : List Byte) : Nat := byteAt e 1 % 4
/-- FENCE. -/
def entFence (e : List Byte) : Bool := bitN (byteAt e 1) 2
/-- VOLUME. -/
def entVol (e : List Byte) : Nat := leAt e 8 2 % 4096
/-- COUNT. -/
def entCount (e : List Byte) : Nat := leAt e 12 4
/-- LBA. -/
def entLba (e : List Byte) : Nat := leAt e 16 6
/-- DPTR0 and DPTR1. -/
def entPtr (e : List Byte) : Nat := leAt e 24 8
/-- Buffer length, or element count of a scatter list. -/
def entLen1 (e : List Byte) : Nat := leAt e 32 8

/-- Whether an opcode is an I/O opcode (06 R222). -/
def ioOpcode (n : Nat) : Bool := decide (1 ≤ n ∧ n ≤ 8)

/-- Whether an opcode transfers sectors. -/
def ioData (n : Nat) : Bool := decide (1 ≤ n ∧ n ≤ 3)

/-- Whether the ARGS bytes hold nothing but the given bits. -/
def argsOk (e : List Byte) (used : List (Nat × Nat)) : Bool :=
  ((List.range 24).map (· + 40)).all (fun o =>
    let m := ((used.find? (fun u => u.1 == o)).map (·.2)).getD 0
    byteAt e o &&& m == byteAt e o)

/-- ARGS bytes of an I/O opcode (06 R222). -/
def ioArgs (n : Nat) : List (Nat × Nat) :=
  match n with
  | 4 => [(40, 1)]
  | 7 => argBytes 40 1 ++ argBytes 48 16
  | 8 => [(40, 1)]
  | _ => []

/-- Check 2 of R220: reserved fields are 0, DPTYPE is allowed, fields in range. -/
def reservedOk (admin : Bool) (e : List Byte) : Bool :=
  let n := byteAt e 0
  let form := (adminForm n).getD {}
  let data := if admin then form.hi != 0 else ioData n
  let noData := if admin then form.none_ else !ioData n
  let used := if admin then false else n != 4
  byteAt e 1 / 8 == 0 && (match entDp e with
    | 0 => data
    | 1 => data && entLen1 e / 2 ^ 13 == 0
    | 2 => noData && entPtr e == 0 && entLen1 e == 0
    | _ => false) &&
  leAt e 10 2 == 0 && (if admin then leAt e 8 2 == 0 else leAt e 8 2 == entVol e) &&
  (if used then decide (1 ≤ entCount e ∧ entCount e ≤ 65536) && leAt e 22 2 == 0
   else entCount e == 0 && leAt e 16 8 == 0) &&
  argsOk e (if admin then form.args else ioArgs n) &&
  !(n == 4 && !admin && byteAt e 40 == 1 && entVol e != 0)

/-- Check 5 of R220: the one buffer (R181), or the place and element count of the scatter list (R182). -/
def bufferOk (admin : Bool) (e : List Byte) : Bool :=
  let n := byteAt e 0
  let form := (adminForm n).getD {}
  match entDp e with
  | 0 => entPtr e % 4 == 0 &&
      (if admin then form.takes (entLen1 e) else entLen1 e == entCount e * 4096)
  | 1 => entPtr e % 16 == 0 && decide (1 ≤ entLen1 e ∧ entLen1 e ≤ 4096)
  | _ => true

/-- The runs of a scatter list, when it meets R182 for a command. -/
def parseList (admin : Bool) (e : List Byte) (d : List Byte) : Option (List (Nat × Nat)) :=
  let n := entLen1 e
  let form := (adminForm (byteAt e 0)).getD {}
  let els := (List.range n).map (fun i => slice d (16 * i) 16)
  let runs := els.map (fun x => (leAt x 0 8, leAt x 8 4))
  let total := (runs.map (·.2)).sum
  let ok := d.length == 16 * n && els.all (fun x => leAt x 12 4 == 0) &&
    runs.all (fun (a, l) => a % 4 == 0 && l % 4 == 0 && l != 0) &&
    (if admin then form.takes total else total == entCount e * 4096)
  if ok then some runs else none

/-! ## Ownership (10 R375, R376) -/

/-- Pool of a volume in the running image. -/
def volPool (v : Nat) (s : State) : Nat := ((tget (tab s).vols v).map (·.pool)).getD 0

/-- The ways of R376. -/
inductive Own where
  | here | forward | hold | refuse
  deriving DecidableEq, Repr

/-- R376 by pair state; a module's own pool is served here, and held while it is being transferred (10 R383) or its reservation is not
yet held (R363). -/
def ownPool (p : Nat) (s : State) : Own :=
  if s.pair.xfer != .none && s.pair.xferCur == p then .hold
  else if owns p s then (if reshapeLands p s || (tget s.pair.acquiring p).isSome then .hold else .here)
  else match s.pair.st with
    | 3 => .forward
    | 4 => .forward
    | 2 => .hold
    | 5 => .hold
    | 7 => if s.pair.detached.contains p then .refuse else .hold
    | _ => .refuse

/-- How a command for a volume is handled. -/
def ownOf (v : Nat) (s : State) : Own := ownPool (volPool v s) s

/-- Whether an I/O opcode names a volume (06 R220). -/
def namesVolume (e : List Byte) : Bool := !(byteAt e 0 == 4 && byteAt e 40 == 1)

/-- How an I/O entry is handled: by its volume's pool; a FLUSH of every volume is held while it is for one pool. -/
def entryOwn (e : List Byte) (s : State) : Own :=
  if namesVolume e then ownOf (leAt e 8 2 % 4096) s
  else if (tab s).pools.any (fun x => decide (x.1 < 8) && ownPool x.1 s == .hold) then .hold
  else .here

/-! ## The throttle bucket (13 R461) -/

/-- The buckets after accrual to now, in hundredths of a command and of a byte. -/
def accrue (s : State) : State :=
  let dt : Int := s.now - s.therm.tokAt
  let t : Int := s.therm.target
  let capC : Int := t * 30 * 10000
  let capB : Int := t * 110000 * 10000
  { s with therm := { s.therm with
      cmdTok := min capC (s.therm.cmdTok + t * 30 * dt), byteTok := min capB (s.therm.byteTok + t * 110000 * dt), tokAt := s.now } }

/-- Whether both buckets are positive, or none is enforced. -/
def tokensOk (s : State) : Bool :=
  s.therm.target == 100 || (let s := accrue s; decide (0 < s.therm.cmdTok) && decide (0 < s.therm.byteTok))

/-- Byte tokens that an entry's data takes (13 R461). -/
def debitBytes (bytes : Nat) (s : State) : State :=
  if s.therm.target = 100 then s
  else
    let s := accrue s
    { s with therm.byteTok := s.therm.byteTok - 100 * bytes }

/-- Take the tokens of a begun entry. -/
def debit (bytes : Nat) (s : State) : State :=
  if s.therm.target = 100 then s
  else
    let s := accrue s
    { s with therm := { s.therm with cmdTok := s.therm.cmdTok - 100, byteTok := s.therm.byteTok - 100 * bytes } }

/-- Bytes that an entry takes from the byte bucket. -/
def entBytes (e : List Byte) : Nat := if ioData (byteAt e 0) then entCount e * 4096 else 0

/-! ## Beginning (05 R197, R202; 06 R220) -/

/-- Whether the entry at head of a ring may take a turn now (05 R183, R200, R203; 10 R376). -/
def turnReady (r : Nat) (s : State) : Bool :=
  let v := ringOf r s
  if v.st != .active || v.typ != 0 || v.head == v.tail || capped v.bind s then false
  else match entryOf v v.head with
    | none => false
    | some e =>
      v.marked.contains v.head.toNat ||
      ((!entFence e || v.open_ == 0) &&
       (r == ringFirst (ringPort r s) s ||
        (tokensOk s && !(ioOpcode (byteAt e 0) && entryOwn e s == .hold))))

/-- The other submission rings of a port that may take a turn, in ring-number order. -/
def readyRings (p : Nat) (s : State) : List Nat :=
  (s.rings.map (·.1)).filter (fun r => ringIn p r s && r != ringFirst p s && turnReady r s)

/-- The ring that a port serves next (05 R199), with the turn state after it. -/
def portPick (p : Nat) (s : State) : Option (Nat × Nat × Nat) :=
  let q := getPort p s
  if turnReady (ringFirst p s) s then some (ringFirst p s, q.lastRing, q.turnLeft)
  else
    let rs := readyRings p s
    if q.turnLeft != 0 && rs.contains q.lastRing then some (q.lastRing, q.lastRing, q.turnLeft - 1)
    else match (rs.filter (fun r => q.lastRing < r)) ++ rs with
      | [] => none
      | r :: _ => some (r, r, (ringOf r s).weight - 1)

/-- Take the entry at head: its push slot empties, head passes it (05 R197). -/
def takeHead (r : Nat) (s : State) : State :=
  updRing r (fun v =>
    let held := (heldCopy v v.head).isSome
    { v with push0 := if held && !v.head.getLsbD 0 then none else v.push0,
             push1 := if held && v.head.getLsbD 0 then none else v.push1,
             fetched := tdel v.fetched v.head.toNat, marked := v.marked.filter (· != v.head.toNat), head := v.head + 1 }) s

/-- Complete the entry at head without beginning it (05 R202, R212; 06 R240). -/
def completeHead (r : Nat) (e : List Byte) (status : BitVec 16) (s : State) : State :=
  let b := (ringOf r s).bind
  let s := takeHead r s
  let s := updRing b (fun v => { v with charge := v.charge + 1 }) s
  postCqe b { cid := BitVec.ofNat 16 (leAt e 2 2), status := status, obj := r } s

/-- The entries of draining rings complete as far as the caps allow, once every begun one has (05 R212 steps 1 and 2). -/
def drainRing : Nat → Nat → State → State
  | 0, _, s => s
  | n + 1, r, s =>
    let v := ringOf r s
    if v.st != .draining || v.typ != 0 || v.open_ != 0 || v.head == v.drainTail || capped v.bind s then s
    else match entryOf v v.head with
      | none => s
      | some e => drainRing n r (completeHead r e 0x0007 s)

/-- Sectors of a cached write that are not dirty yet (07 R277), as places. -/
def newDirty (secs : List (Nat × Nat × Nat × Nat)) (s : State) : List (Nat × Nat × Nat × Nat) :=
  secs.filter (fun (l, row, pos, ss) =>
    !isDirty { pool := l, row := row, slice := ss / 16 } (pos * 16 + ss % 16) s)

/-- Whether a sector lies in a line without a dirty sector (07 R278). -/
def cleanLine (x : Nat × Nat × Nat × Nat) (s : State) : Bool :=
  let (l, row, pos, ss) := x
  let (line, _) := lineOf l row pos ss s
  (match findLine l line s with
   | some w => (tagAt w s).valid &&& (tagAt w s).dirty == 0
   | none => true) && unrestoredMask l line s == 0

/-- Whether a write is written through (06 R224, 07 R277, R278), and the dirty sectors it claims. -/
def writeMode (secs : List (Nat × Nat × Nat × Nat)) (s : State) : Bool × Nat :=
  let new := newDirty secs s
  if throughNow s then (true, 0)
  else if new.isEmpty then (false, 0)
  else if overCap new.length s || (linesFull s && new.any (fun x => cleanLine x s)) then (true, 0)
  else (false, new.length)

/-- The first sector of a write whose sector row has more than m erasures (08 R311). -/
def beyondAt (secs : List (Nat × Nat × Nat × Nat)) (s : State) : Option Nat :=
  secs.findIdx? (fun (l, row, _, ss) =>
    decide ((geomOf l s).m < pop (erasedSpan l row (ss / 16) (ss % 16) 1 s &&& ~~~ unfoundMask l row s)))

/-- Whether a begun ROUTINE_CALL may run (03 R115): its status, or none. -/
def routineBad (idx : Nat) (ops : List Op) (s : State) : Option (BitVec 16) :=
  if !entValid (entryAt true idx s).1 || ops.length != 1 then some 0x0002
  else if entFenced true idx s then some 0x0301
  else none

/-- A checked I/O command becomes what its opcode says: operations, or a forwarded command (03 R77, 10 R375). A write is refused once
a cold stop has started (06 R226). -/
def startIo (c : Nat) (s : State) : State :=
  match cmdOf c s with
  | none => s
  | some cmd =>
    let n := cmd.opcode
    let v := cmd.volume
    let own := if namesVolume cmd.entry then ownOf v s else entryOwn cmd.entry s
    let go (ph : CmdPh) (ops : List Op) (s : State) : State := acceptOps c ops (updCmd c (fun x => { x with ph := ph }) s)
    if s.pow.coldStop && (n = 2 || n = 3 || n = 5) then finishCmd c 0x0104 0 s
    else match own with
    | .refuse => finishCmd c 0x0201 0 s
    | .here =>
      let secs := if n = 4 then [] else cmdSecs v cmd.lba cmd.count s
      if n = 2 || n = 3 || n = 5 then
        match beyondAt secs s with
          | some o => finishCmd c 0x0104 (BitVec.ofNat 32 o) s
          | none =>
            let (wt, claim) := if n = 3 then (true, 0) else writeMode secs s
            go .begun (splitOps c 9 secs) (updCmd c (fun x =>
              { x with wt := wt, claim := claim, unplaced := List.range cmd.count }) s)
      else if n = 1 then go .begun (splitOps c 0 secs) s
      else if n = 6 then go .begun (splitOps c 6 secs) s
      else if n = 7 then
        let idx := byteAt cmd.entry 40
        let ops := (splitOps c 8 secs).map (fun o =>
          { o with routine := idx, arg0 := BitVec.ofNat 64 (leAt cmd.entry 48 8),
                   arg1 := BitVec.ofNat 64 (leAt cmd.entry 56 8) })
        match routineBad idx ops s with
        | some st => finishCmd c st 0 (if st = 0x0301 then raise 0x06A 0x02 (0x400 + idx) s else s)
        | none => go .begun ops s
      else updCmd c (fun x => { x with ph := .begun }) s
    | .hold => updCmd c (fun x => { x with ph := .held }) s
    | .forward => updCmd c (fun x => { x with ph := .forwarded }) (sendPair (.forwardCmd c cmd.entry) s)

/-- Commands that were held for a pool's owner go on (10 R376). -/
def kickHeld (s : State) : State :=
  (s.pipe.cmds.filter (fun e => e.2.ph == .held)).foldl (fun s e => if entryOwn e.2.entry s == .hold then s else startIo e.1 s) s

/-- Checks 3 and 4 of R220, after the image is found: status and RESULT. With no image every I/O command fails (02 R55). -/
def volumeBad (e : List Byte) (s : State) : Option (BitVec 16 × Nat) :=
  if s.plan.tab.isNone then some (0x0301, 0)
  else if !namesVolume e then none
  else match tget (tab s).vols (entVol e) with
    | none => some (0x0003, 0)
    | some ve =>
      if byteAt e 0 = 4 then none
      else if ve.sectors < entLba e + entCount e then some (0x0004, ve.sectors - entLba e)
      else none

/-- The status of the first check of R220 that an entry fails. -/
def checkEntry (admin : Bool) (e : List Byte) (s : State) : Option (BitVec 16 × Nat) :=
  let n := byteAt e 0
  if !(if admin then (adminForm n).isSome else ioOpcode n) then some (0x0001, 0)
  else if !reservedOk admin e then some (0x0002, 0)
  else match (if admin then none else volumeBad e s) with
    | some x => some x
    | none => if bufferOk admin e then none else some (0x0002, 0)

/-- A new command of an entry, from a source. -/
def newCmd (src : CmdSrc) (port : Nat) (e : List Byte) (s : State) : Nat × State :=
  let c := s.pipe.nextCmd
  let cmd : Cmd :=
    { src := src, port := port, entry := e, opcode := byteAt e 0, volume := entVol e, lba := entLba e, count := entCount e,
      sgl := if entDp e = 0 then [(entPtr e, entLen1 e)] else [] }
  (c, { s with pipe := { s.pipe with nextCmd := c + 1, cmds := tset s.pipe.cmds c cmd } })

/-- Check and start a begun command. -/
def beginCmd (admin : Bool) (c : Nat) (s : State) : State :=
  match cmdOf c s with
  | none => s
  | some cmd => match checkEntry admin cmd.entry s with
    | some (st, res) => finishCmd c st (BitVec.ofNat 32 res) s
    | none =>
      if entDp cmd.entry = 1 then
        emit (.hostRead cmd.port (entPtr cmd.entry) (16 * entLen1 cmd.entry)) (updCmd c (fun x => { x with ph := .list }) s)
      else if admin then s
      else startIo c s

/-- Begin the entry at head of a ring (05 R202), or complete it when ABORT marked it (06 R240). -/
def beginHead (r : Nat) (s : State) : State :=
  let v := ringOf r s
  match entryOf v v.head with
  | none => s
  | some e =>
    if v.marked.contains v.head.toNat then completeHead r e 0x0008 s
    else
      let p := ringPort r s
      let admin := r == ringFirst p s
      let s := takeHead r s
      let s := updRing r (fun v => { v with open_ := v.open_ + 1 }) s
      let s := updRing v.bind (fun v => { v with charge := v.charge + 1 }) s
      let s := if admin then s else debit (entBytes e) s
      let (c, s) := newCmd (.ring r) p e s
      beginCmd admin c s

/-- The ports in the order in which they take their turn (05 R199). -/
def portOrder (s : State) : List Nat :=
  if s.dev.bifurcated then (if s.pipe.lastPort = 0 then [1, 0] else [0, 1]) else [0]

/-- The ring that intake serves next, with its port and the turn state after it. -/
def nextTurn (s : State) : Option (Nat × Nat × Nat × Nat) :=
  (portOrder s).findSome? (fun p => (portPick p s).map (fun x => (p, x)))

/-- Intake takes the next entry (05 R199, R200). -/
def intakeNext (s : State) : State :=
  if fetchStopped s || !domainsRun s then s
  else match nextTurn s with
    | none => s
    | some (p, r, last, left) =>
      let round := r != ringFirst p s && last ≤ (getPort p s).lastRing && !((getPort p s).turnLeft != 0 && left + 1 == (getPort p s).turnLeft)
      let s := updPort p (fun q => { q with lastRing := last, turnLeft := left, pf1Turn := q.pf1Turn && !round })
        { s with pipe.lastPort := p }
      beginHead r s

/-! ## Range invalidate (07 R266) -/

/-- Sectors of a range, when it passes checks 3 and 4 of 06 R220. -/
def invSecs (vol lba count : Nat) (s : State) : Option (List (Nat × Nat × Nat × Nat)) :=
  match tget (tab s).vols vol with
  | none => none
  | some v => if count = 0 || 65536 < count || v.sectors < lba + count then none else some (cmdSecs vol lba count s)

/-- A range invalidate whose dirty sectors are destaged sets the clean ones invalid and ends (R266). -/
def endInvalidate (s : State) : State :=
  if !s.cache.invBusy || !s.cache.invWait.isEmpty || !s.cache.invVault.isEmpty then s
  else
    let (vol, lba, count) := s.cache.invRange
    let s := ((invSecs vol lba count s).getD []).foldl (fun s (l, row, pos, ss) =>
      let (line, sec) := lineOf l row pos ss s
      match findLine l line s with
      | some x => let t := tagAt x s
                  if t.valid.getLsbD sec && !t.dirty.getLsbD sec then dropSec x sec s else s
      | none => s) s
    { s with cache := { s.cache with invBusy := false, invDone := true } }

/-! ## Transfers (10 R383) -/

/-- The owner's pool is drained: the reservations are released (R383 step 2). -/
def kickXfer (s : State) : State :=
  if planFirst s || s.pair.xfer != .drain || poolBusy s.pair.xferCur s || (tget s.pair.acquiring s.pair.xferCur).isSome then s
  else
    let p := s.pair.xferCur
    let (n, s) := ((poolRec p s).slots).foldl (fun (n, s) e => match e.2.port with
      | some q => (match e.2.st with
        | .online | .suspect | .rebuilding | .retiring => (n + 1, sendMember q (some (p, e.1)) (.resv p e.1) (.release (ownKey s)) s)
        | _ => (n, s))
      | none => (n, s)) ((0, s) : Nat × State)
    if n = 0 then sendPair (.xfer (.released (Fin.ofNat 8 p))) { s with pair.xfer := .acquire }
    else { s with pair.xfer := .release, pair.xferLeft := n }

/-! ## After every command -/

/-- Draining rings go on. -/
def settleDrains (s : State) : State :=
  (s.rings.filter (fun e => e.2.st == .draining)).foldl (fun s e => drainRing 65536 e.1 s) s

/-- Operations and commands that need nothing from outside go on; a level that waits for dirty lines is left (01 R27). -/
def settleOps (s : State) : State :=
  let s := kickHeld (kickAgain (biAll (grantScratch (relevel (nvmeEvents s)))))
  let s := (s.pipe.ops.map (·.1)).foldl (fun s o => serveRead o (probeRead o s)) s
  kickXfer (kickJoint (releaseMirrored ((s.pipe.cmds.map (·.1)).foldl (fun s c => advanceWaiting c (placeWrite c (deallocPass c s))) s)))

/-- What follows a command without anything from outside: reservations, built-in procedures, staged data, tag pages,
a restore from anchors, movers, anchors, draining rings and fetch; nothing while a PLL of the data path is not locked (13 R462, R466),
or when the module gives no service (01 R30). -/
def settle (s : State) : State :=
  if !domainsRun s || s.dev.noService != 0 then s
  else kickFetch (settleDrains (kickAnchors (kickMovers (kickRestore (kickTagJobs (endInvalidate (settleOps (meetTags [] s))))))))

end Sys2Proof.Machine
end

