-- ==== Sys2Proof/Machine/Admin.lean ====
section
/-! DEFINITION. Sys2Proof/Machine/Admin.lean: what the meanings of all commands share: how a meaning answers, and the
admin operation that runs (06 R221, R234, R238). -/

namespace Sys2Proof.Machine

/-- What a meaning answers. -/
abbrev Res := Host.Outcome State Fault Refusal

/-- The effect alone. -/
def ok (s : State) : Res := .next s

/-- The effect, and what the module then does by itself. -/
def go (s : State) : Res := .next (settle s)

/-- The admin operation that runs: the oldest one begun, on either port (06 R234). -/
def adminFront (s : State) : Option (Nat × Cmd) := s.pipe.cmds.find? (fun e => decide (0x80 ≤ e.2.opcode))

/-- The running admin operation, when it has an opcode and its own row has not run. -/
def adminNow (opcode : Nat) (s : State) : Option (Nat × Cmd) :=
  if planFirst s then none else match adminFront s with
  | some (c, x) => if x.opcode = opcode && x.ph == .begun then some (c, x) else none
  | none => none

/-- Run an admin operation's effect when it is the one that runs. -/
def asAdmin (opcode : Nat) (f : Nat → Cmd → State → State) (s : State) : State :=
  match adminNow opcode s with
  | some (c, x) => f c x s
  | none => s

/-- An admin operation succeeds. -/
def adminOk (c : Nat) (s : State) : State := finishCmd c 0 0 s

/-- An admin operation fails with a status and a reason (06 R221). -/
def adminFail (c : Nat) (status : BitVec 16) (reason : Nat) (s : State) : State :=
  finishCmd c status (BitVec.ofNat 32 reason) s

/-- An admin operation that would commit the ledger, refused while commits are refused (06 R238). -/
def commitGate (c : Nat) (f : State → State) (s : State) : State :=
  if commitsRefused s then adminFail c 0x0005 0x0B07 s else f s

/-- Bytes of an admin operation's host buffer. -/
def bufLen (x : Cmd) : Nat := (x.sgl.map (·.2)).sum

/-- Data goes to the host buffer, as much of it as the buffer holds. -/
def adminOut (x : Cmd) (d : List Byte) (s : State) : State := scatter x.port x.sgl (d.take (bufLen x)) s

/-- What the module read from the host buffer. -/
def adminIn (x : Cmd) (d : List Byte) : List Byte := padTo (bufLen x) d

/-- ARGS fields. -/
def arg (x : Cmd) (o n : Nat) : Nat := leAt x.entry o n

/-! ## BAR0 accesses (00 R2, 11 R410) -/

/-- Whether the host link has power: not in a flush or after it (11 R393, R395). -/
def hostPowered (s : State) : Bool :=
  (s.pow.ph == .run || s.pow.ph == .boot) && s.dev.noService == 0 && s.dev.hostFence != 0xFFFF

/-- Whether a port presents its functions (01 R33). -/
def portThere (p : Nat) (s : State) : Bool := p == 0 || s.dev.bifurcated

/-- Whether a port's BAR0 answers: the host link's domain is up, and the port exists (01 R33). -/
def barUp (p : Nat) (s : State) : Bool := hostPowered s && portThere p s

/-- Before READY only these answer (11 R410): the device block, the admin registers of the rings block, the ledger block and
the power block. -/
def answers (off : Nat) (s : State) : Bool :=
  s.dev.ready || off / 0x10000 == 0 || (0x10008 ≤ off && off ≤ 0x10020) || off / 0x10000 == 0xB || off / 0x10000 == 0xC

/-- A write of a register at a BAR0 offset takes effect where the offset answers; else it is discarded. -/
def barWrite (p off : Nat) (f : State → State) (s : State) : State := if barUp p s && answers off s then f s else s

end Sys2Proof.Machine
end

