-- ==== Sys2Proof/Machine/IoRows.lean ====
section
/-! DEFINITION. Sys2Proof/Machine/IoRows.lean: the I/O commands of 06 and what intake does with held operations (01
R12 to R14). Each row of an I/O command is what follows when its entry has been begun, checked and split. -/

namespace Sys2Proof.Machine

/-- Run a row of an I/O command that was begun with an opcode, before its own row ran. -/
def asIo (opcode c : Nat) (f : Cmd → State → State) (s : State) : State :=
  match cmdOf c s with
  | some x => if x.opcode = opcode && x.ph == .begun then f x s else s
  | none => s

/-- The reads of a write's data from host memory; a command from the peer gets its data over the pair link (10 R371). -/
def readHostData (x : Cmd) (s : State) : State :=
  match x.src with
  | .peer _ => s
  | _ => x.sgl.foldl (fun s (a, n) => emit (.hostRead x.port a n) s) s

/-- READ (06 R223): hits, stale and lost sectors are served, the rest goes to stage 4; an error met in a hit is treated first (07
R269). -/
def execRead (r : ReadIn) (s : State) : Res :=
  go (asIo 0x01 r.cmd (fun _ s =>
    updCmd r.cmd (fun y => { y with ph := .running }) (meetDram (fun s => (opsOfCmd r.cmd s).flatMap (fun o => opReads o s)) r.errs s)) s)

/-- Whether a write's data is read only when stage 4 has reserved its staging sectors: while the cache is out of service,
for data that lies in host memory (01 R9). -/
def stagesLate (x : Cmd) (s : State) : Bool :=
  !cacheOn s && (match x.src with
    | .peer _ => false
    | _ => true)

/-- A write's data is asked for, or will be at stage 4; a forwarded write's data too, to be sent on (10 R375). -/
def askData (opcode cmd : Nat) (s : State) : State :=
  match cmdOf cmd s with
  | some x =>
    if x.opcode != opcode then s
    else if x.ph == .begun then
      if stagesLate x s then updCmd cmd (fun y => { y with ph := .staged }) s
      else readHostData x (updCmd cmd (fun y => { y with ph := .data }) s)
    else if x.ph == .forwarded then readHostData x s
    else s
  | none => s

/-- WRITE (06 R224, 07 R280 step 1): its data is read from host memory. -/
def execWrite (cmd : Nat) (s : State) : Res := ok (askData 0x02 cmd s)

/-- WRITE_FUA (06 R225). -/
def execWriteFua (cmd : Nat) (s : State) : Res := ok (askData 0x03 cmd s)

/-- The data of a write's operations that hold their staging sectors has been read, or not: they start, or end with
TRANSFER_ERROR (01 R9, 06 R232). -/
def stageData (c : Nat) (x : Cmd) (d : Option (List Byte)) (s : State) : State :=
  (opsOfCmd c s).foldl (fun s o => match opOf o s with
    | none => s
    | some op =>
      if op.st != .fetch then s
      else match d with
        | some d =>
          let t : Tbl (List Byte) := (List.range x.count).map (fun o => (o, slice d (4096 * o) 4096))
          stage4 o (updOp o (fun y => { y with st := .ready, unread := false, hdata := stagedData op x t s }) s)
        | none => opLeft c (freeOp o (failSecs c ((opOffsets op x s).take 1) 0x0009 s))) s

/-- A write's data has been read, or not (06 R232, 07 R280, 10 R371). -/
def hostData (c : Nat) (d : Option (List Byte)) (s : State) : State :=
  match cmdOf c s with
  | none => s
  | some x =>
    if x.ph == .data then
      match d with
      | none => dropCmd c 0x0009 s
      | some d =>
        let t : Tbl (List Byte) := (List.range x.count).map (fun o => (o, padTo 4096 (slice d (4096 * o) 4096)))
        updCmd c (fun y => { y with ph := .staged, wdata := t }) s
    else if x.ph == .running then stageData c x d s
    else if x.ph == .forwarded && (x.opcode = 0x02 || x.opcode = 0x03) then
      match d with
      | none => finishCmd c 0x0009 0 s
      | some d =>
        let d := padTo (x.count * 4096) d
        forwardOut true c d (mirrorOwn x d s)
    else s

/-- HOST_DATA_READ (06 R232). -/
def execHostDataRead (cmd : Nat) (data : Option (List Byte)) (s : State) : Res := go (hostData cmd data s)

/-- FLUSH waits for what is dirty now (06 R228); with ALL, the peer flushes what it owns. -/
def flushCmd (c : Nat) (x : Cmd) (s : State) : State :=
  if entryOwn x.entry s == .hold then updCmd c (fun y => { y with ph := .held }) s else
  let all := byteAt x.entry 40 == 1
  let vol := if all then none else some x.volume
  let ws := dirtyPlaces vol s
  let far := all && (match x.src with | .peer _ => false | _ => true) && (s.pair.st == 3 || s.pair.st == 4) &&
    (tab s).pools.any (fun e => decide (e.1 < 8) && !owns e.1 s)
  let s := updCmd c (fun y => { y with ph := .waiting, waitSecs := ws, waitVault := vaultPlaces vol s, opsLeft := b2n far }) s
  let s := if far then sendPair (.forwardCmd c x.entry) s else s
  destagePlaces ws s

/-- FLUSH (06 R228). -/
def execFlush (cmd : Nat) (s : State) : Res := go (asIo 0x04 cmd (flushCmd cmd) s)

/-- DEALLOCATE (06 R229). -/
def execDeallocate (cmd : Nat) (s : State) : Res := go (asIo 0x05 cmd (fun _ s => deallocOps cmd s) s)

/-- A command waits until the dirty sectors among the given ones are destaged. -/
def waitClean (c : Nat) (secs : List (Nat × Nat × Nat × Nat)) (s : State) : State :=
  let (ws, wv) := dirtyAmong secs s
  destagePlaces ws (updCmd c (fun y => { y with ph := .waiting, waitSecs := ws, waitVault := wv }) s)

/-- VERIFY (06 R230): dirty sectors of the range are destaged first. -/
def execVerify (cmd : Nat) (s : State) : Res :=
  go (asIo 0x06 cmd (fun x s => waitClean cmd (cmdSecs x.volume x.lba x.count s) s) s)

/-- ROUTINE_CALL (03 R115, R116): a routine that may write waits until its slice is clean. -/
def execRoutineCall (cmd : Nat) (s : State) : Res :=
  go (asIo 0x07 cmd (fun _ s =>
    let ops := (opsOfCmd cmd s).filterMap (fun o => opOf o s)
    waitClean cmd (ops.flatMap (fun op => if mayWrite op s then sliceSecs op s else [])) s) s)

/-- Release one sector of a lost extent (08 R320, R552). -/
def releaseE (x : Nat × Nat × Nat × Nat) (s : State) : State :=
  let (l, row, pos, ss) := x
  if writableHome l row pos s then dropLostE l row pos ss s else acceptLostE l row pos ss s

/-- ACCEPT_LOSS over a range (06 R231): all of it, or nothing when the list has no room for a split. -/
def acceptLoss (c : Nat) (x : Cmd) (s : State) : State :=
  let secs := cmdSecs x.volume x.lba x.count s
  if byteAt x.entry 40 = 0 then
    let gone := secs.filter (fun (l, row, pos, ss) => let (line, sec) := lineOf l row pos ss s; isLostW l line sec s)
    let s := gone.foldl (fun s (l, row, pos, ss) => let (line, sec) := lineOf l row pos ss s; dropLostW l line sec s) s
    finishCmd c 0 (BitVec.ofNat 32 gone.length) s
  else
    let gone := secs.filter (fun (l, row, pos, ss) => lostNow l row pos ss s)
    let s' := gone.foldl (fun s e => releaseE e s) s
    if gone.any (fun (l, row, pos, ss) => lostNow l row pos ss s') then finishCmd c 0x0005 0x0209 s
    else finishCmd c 0 (BitVec.ofNat 32 gone.length) (lostChanged ((secs.headD (0, 0, 0, 0)).1) s s')

/-- ACCEPT_LOSS (06 R231). -/
def execAcceptLoss (cmd : Nat) (s : State) : Res :=
  go (asIo 0x08 cmd (fun x s => acceptLoss cmd x s) s)

/-! ## Held operations and row order (01 R12 to R14) -/

/-- INTAKE_RESUME (01 R13). -/
def execIntakeResume (s : State) : Res := go (placeHeld s)

/-- ROW_ORDER_RELEASE (01 R14), for the row of the layout that runs and of a reshape's target. -/
def execRowOrderRelease (pool : Fin 8) (row : Nat) (s : State) : Res :=
  let rel (l : Nat) (s : State) : State :=
    (rowOps l row s).foldl (fun s (o, op) =>
      if firstOnRow op s && !rowBusy o l row s then updOp o (fun y => { y with rowOk := true }) s else s) s
  go (rel (pool.val + 8) (rel pool.val s))

/-! ## Domains (01 R12, R18 to R20) -/

/-- A lane is awake (01 R12): operations that intake held are placed. -/
def wakeLane (j : Nat) (s : State) : State :=
  if (tget s.dev.waking j).isSome && !laneUnusable j s then
    placeHeld { s with dev := { s.dev with laneAwake := s.dev.laneAwake ||| BitVec.ofNat 8 (2 ^ j),
                                           waking := tdel s.dev.waking j, laneIdle := tset s.dev.laneIdle j s.now } }
  else s

/-- LANE_WAKE (01 R12). -/
def execLaneWake (lane : Fin 8) (s : State) : Res := go (wakeLane lane.val s)

/-- Whether a lane may gate once it has been idle for LANE_IDLE_US (01 R19): gating enabled, above MIN_LANES. -/
def laneMayGate (j : Nat) (s : State) : Bool :=
  s.dev.laneAwake.getLsbD j && s.dev.laneGateEn && laneOcc j s == 0 && decide (s.dev.minLanes ≤ j)

/-- LANE_GATE (01 R19): a wake request in the same cycle wins. -/
def execLaneGate (lane : Fin 8) (wakeRequest : Bool) (s : State) : Res :=
  ok (if laneMayGate lane.val s && !wakeRequest then
        let s := timeTo (tgetD s.dev.laneIdle lane.val 0 + s.dev.idleUs) s
        { s with dev.laneAwake := s.dev.laneAwake &&& ~~~ BitVec.ofNat 8 (2 ^ lane.val) }
      else s)

/-- Whether a member group may gate (01 R20): every port has no member, on it or behind its switch, or its link is in L1.2, by a mask
of the group's ports; and none has a command outstanding. -/
def groupMayGate (g : Nat) (l12 : BitVec 8) (s : State) : Bool :=
  s.dev.groupAwake.getLsbD g && s.dev.memberGateEn &&
  s.mem.ports.all (fun e => portGroup e.1 != g || !e.2.present || l12.getLsbD (e.1 % 8)) &&
  !(s.mem.cmds.any (fun e => portGroup e.2.port == g && !e.2.dead))

/-- MEMBER_GROUP_GATE (01 R20), 10 ms after the group's last command. -/
def execMemberGroupGate (g : GateIn) (s : State) : Res :=
  ok (if groupMayGate g.group.val g.l12 s then
        let last := (s.mem.ports.filter (fun e => portGroup e.1 == g.group.val)).foldl (fun t e => max t e.2.lastUse) 0
        let s := timeTo (last + 10000) s
        stopGroup g.group.val { s with dev.groupAwake := s.dev.groupAwake &&& ~~~ BitVec.ofNat 16 (2 ^ g.group.val) }
      else s)

/-- DOMAIN_WAKE (01 R18): the domain accepts work. -/
def execDomainWake (d : Domain) (s : State) : Res :=
  match d with
  | .controlCore n =>
    ok (if s.dev.ctrlFence.getLsbD n.val then s else { s with dev.coreAwake := s.dev.coreAwake ||| BitVec.ofNat 4 (2 ^ n.val) })
  | .lane n => go (wakeLane n.val s)
  | .cache => ok (if cacheOn s then { s with dev.cacheActive := true } else s)
  | .hostLink => ok { s with port0.inL12 := false, port1.inL12 := false }
  | .pairLink => ok (if s.dev.pairFence then s else { s with dev.pairActive := true })
  | .memberGroup n =>
    ok (if s.dev.groupFence.getLsbD n.val then s
        else startGroup n.val { s with dev := { s.dev with
          groupAwake := s.dev.groupAwake ||| BitVec.ofNat 16 (2 ^ n.val), groupWaking := tdel s.dev.groupWaking n.val,
          groupUpAt := if s.dev.groupAwake.getLsbD n.val then s.dev.groupUpAt else tset s.dev.groupUpAt n.val s.now } })

end Sys2Proof.Machine
end

