-- ==== Sys2Proof/Machine/Fleist.lean ====
section
/-! DEFINITION. Sys2Proof/Machine/Fleist.lean: the Fleist instruction set (03 R74, R84 to R113, R117): fields,
checks, stalls, what each instruction does when it issues and what its stage writes at the end. -/

namespace Sys2Proof.Machine

/-! ## Instruction words (R88 to R90) -/

/-- The fields of an instruction word (R88). -/
structure Ins where
  op : Nat
  sub : Nat
  ds : Nat
  sa : Nat
  sb : Nat
  ba : Nat
  bb : Nat
  imm : Nat
  deriving DecidableEq, Repr

/-- Take a word apart (R88). -/
def insOf (w : Word) : Ins :=
  let v := w.toNat
  { op := fld v 63 58, sub := fld v 57 54, ds := fld v 53 50, sa := fld v 49 46, sb := fld v 45 42,
    ba := fld v 41 37, bb := fld v 36 32, imm := fld v 31 0 }

/-- SUB[3]: DEF. -/
def Ins.isDef (i : Ins) : Bool := bitN i.sub 3
/-- SUB[0]: LATE, FUA, M or RES. -/
def Ins.low (i : Ins) : Bool := bitN i.sub 0

/-- Fields an instruction uses with the SUB it carries, as SUB bits, DS, SA, SB, BA, BB, IMM (R89, R90). -/
def Ins.uses (i : Ins) : Nat × Bool × Bool × Bool × Bool × Bool × Bool :=
  match i.op with
  | 0x01 => (15, true, i.sub == 3 || i.sub == 4, false, false, false, i.sub == 0 || i.sub == 1 || i.sub == 2 || i.sub == 5)
  | 0x02 => (9, true, true, false, true, i.isDef, false)
  | 0x03 => (1, true, true, false, true, false, false)
  | 0x04 => (11, true, i.isDef, false, true, true, false)
  | 0x05 => (0, true, false, false, true, true, false)
  | 0x06 => (15, true, i.sub == 1 || i.sub == 3 || i.sub == 4, false, true, false, false)
  | 0x07 => (0, true, true, true, true, false, false)
  | 0x08 => (0, true, false, false, false, false, false)
  | 0x09 => (0, false, false, false, false, false, true)
  | 0x0A => (0, false, false, false, false, false, true)
  | 0x0B => (1, false, true, i.low, false, false, true)
  | 0x0C => (1, false, true, i.low, false, false, true)
  | 0x0D => (0, false, false, false, false, false, true)
  | 0x0F => (1, false, i.low, false, false, false, true)
  | 0x10 => (0, false, true, false, false, false, true)
  | _ => (0, false, false, false, false, false, false)

/-- Whether the instruction names a destination slot. -/
def Ins.hasDs (i : Ins) : Bool := i.uses.2.1

/-- R89: every unused field and SUB bit is 0, and SUB is no reserved value. -/
def Ins.fieldsOk (i : Ins) : Bool :=
  let (m, ds, sa, sb, ba, bb, imm) := i.uses
  i.sub &&& m == i.sub && (ds || i.ds == 0) && (sa || i.sa == 0) && (sb || i.sb == 0) && (ba || i.ba == 0) &&
  (bb || i.bb == 0) && (imm || i.imm == 0) &&
  !(i.op == 0x01 && (decide (6 ≤ i.sub) || (i.sub == 2 && decide (5 ≤ i.imm % 8)) || (i.sub == 5 && decide (3 ≤ i.imm)))) &&
  !(i.op == 0x04 && i.sub % 4 == 3) && !(i.op == 0x06 && decide (5 ≤ i.sub))

/-- R90: whether an opcode exists. -/
def Ins.legal (i : Ins) : Bool := decide (1 ≤ i.op) && decide (i.op ≤ 0x11)

/-! ## Context reads -/

/-- Value of a slot. -/
def Ctx.sl (x : Ctx) (n : Nat) : Word := tgetD x.slots n 0
/-- A handle. -/
def Ctx.h (x : Ctx) (n : Nat) : Handle := tgetD x.handles n {}
/-- Whether a slot is pending. -/
def Ctx.pend (x : Ctx) (n : Nat) : Bool := x.pending.getLsbD n
/-- Whether an instruction of an opcode is in flight. -/
def Ctx.flying (x : Ctx) (op : Nat) : Bool := x.inflight.any (fun e => (insOf e.2.word).op == op)

/-- Handle that an instruction reads. -/
def Ins.readsH (i : Ins) : Option Nat :=
  match i.op with
  | 0x02 => if i.isDef then some i.bb else none
  | 0x03 | 0x04 | 0x05 | 0x07 => some i.ba
  | 0x06 => if i.sub < 3 then some i.ba else none
  | _ => none

/-- Handle that an instruction writes. -/
def Ins.writesH (i : Ins) : Option Nat :=
  match i.op with
  | 0x02 => some i.ba
  | 0x04 | 0x05 => some i.bb
  | 0x06 => if 3 ≤ i.sub then some i.ba else none
  | _ => none

/-- R107: an instruction waits while an earlier one still uses its handle. -/
def handleStall (x : Ctx) (i : Ins) : Bool :=
  x.inflight.any (fun e =>
    (i.readsH.isSome && e.2.writes == i.readsH) || (i.writesH.isSome && e.2.writes == i.writesH) ||
    (i.writesH.isSome && e.2.reads == i.writesH))

/-- Every reason for which an instruction stalls (R101, R102, R105 to R107). -/
def stalls (x : Ctx) (i : Ins) : Bool :=
  let (_, _, sa, sb, _, _, _) := i.uses
  (sa && x.pend i.sa) || (sb && x.pend i.sb) || handleStall x i ||
  (i.op == 0x08 && (x.flying 0x03 || x.flying 0x07)) ||
  (i.op == 0x09 && (if i.imm == 0 then x.pending != 0
                    else x.pending &&& BitVec.ofNat 16 i.imm != 0)) ||
  (i.op == 0x0F && x.pending != 0)

/-- The word at a context's program counter; none past the extent (R103). Beyond the program area it is 0, no instruction (log entry 85). -/
def fetchWord (x : Ctx) (s : State) : Option Word :=
  if x.extStart ≤ x.pc && x.pc < x.extStart + x.extLen then some ((tab s).program.getD x.pc 0) else none

/-- Whether a JNL of a context waits because no entry may open on its pool (10 R369, R379). -/
def jnlWaits (x : Ctx) (s : State) : Bool := ((opOf x.op s).map (fun op => jnlHeld op.pool s)).getD false

/-- Whether a context is ready (R74): it runs and its next instruction does not stall. A word that waits for its reload is
not read before (R117). An instruction that stalls for another reason is not yet tested for a pending DS (R106, log
entry 73). -/
def ctxReady (x : Ctx) (s : State) : Bool :=
  x.run == .running &&
  (match fetchWord x s with
   | none => true
   | some w => !s.plan.badWords.contains x.pc &&
      (!(insOf w).legal || !(insOf w).fieldsOk || (!stalls x (insOf w) && !((insOf w).op == 0x07 && jnlWaits x s))))

/-- The next context of a core in round-robin order (R74). -/
def nextCtx (k : Nat) (s : State) : Option Nat :=
  let lastC := tgetD s.pipe.lastCtx k 31
  ((List.range 32).map (fun i => 32 * k + (lastC + 1 + i) % 32)).find? (fun c =>
    match ctxOf c s with
    | some x => ctxReady x s
    | none => false)

/-! ## Faults (R109, R110) -/

/-- Leave the open entry of a context to resynchronisation (R110, R112). -/
def leaveOpen (x : Ctx) (s : State) : State :=
  match x.jnl with
  | some i => { s with jnl.replay := nins s.jnl.replay i }
  | none => s

/-- What is left of a context's entry when its program ends without DONE: a JCL that has issued completes and retires it; otherwise
it stays open (R110, R112). -/
def settleOpen (x : Ctx) (s : State) : State :=
  match x.jnl with
  | some i => if x.flying 0x08 then closeJnl i s else leaveOpen x s
  | none => s

/-- An operation's program has ended with DONE or a trap (R105, R112). The control cores go on with a kind whose own chapter says what
is done with each sector row; any other operation ends (log entry 13). -/
def progEnd (o : Nat) (status : BitVec 16) (result : Dword) (secs : Tbl HSec) (s : State) : State :=
  match opOf o s with
  | some op => match ruled op, op.ctx with
    | true, some c => biStart o (updCtx c (fun x => { op := o, scratch := x.scratch }) (dropInflight c s))
    | _, _ => endOp o status result secs s
  | none => s

/-- A program fault (R110). -/
def programFault (c : Nat) (x : Ctx) (code : Nat) (s : State) : State :=
  let s := settleOpen x s
  let s := fenceEntry x.routine x.entry s
  let s := { s with pipe := { s.pipe with
    faults := sat32 s.pipe.faults 1, lastCode := code, lastContext := c, lastPc := x.pc, lastEntry := x.entry,
    lastRoutine := x.routine, lastValid := true } }
  endOp x.op 0x0301 0 [] (raiseFree (0x048 + c / 32) code s)

/-! ## Handles -/

/-- Scratch sectors that a context's handles hold. -/
def scratchHeld (x : Ctx) : Nat :=
  (x.handles.map (fun e => if e.2.kind == .scratch then pop e.2.mask * e.2.count else 0)).sum

/-- Define a scratch handle (R86): the handle with undefined content, or a fault code. -/
def defHandle (x : Ctx) (h : Nat) (mask : Word) (first count : Nat) (s : State) : Except Nat (Handle × State) :=
  let old := x.h h
  if old.kind == .host || old.kind == .template then .error 0x08
  else
    let held := scratchHeld x - (if old.kind == .scratch then pop old.mask * old.count else 0)
    if x.scratch < held + pop mask * count then .error 0x09
    else
      let keys := groupSecs first count mask
      let hd : Handle :=
        { kind := .scratch, first := first, count := count, mask := mask,
          secs := (keys.zipIdx).foldl (fun t (k, n) => tset t k (freeSec (s.free + n))) [] }
      .ok (hd, { s with free := s.free + keys.length })

/-- Whether a mask names a position at or above w. -/
def beyondW (g : Geom) (m : Word) : Bool := m >>> g.w != 0

/-! ## Computation (R97 to R99) -/

/-- Data of a sector of a handle. -/
def hData (h : Handle) (p i : Nat) : List Byte := (tgetD h.secs (p * 16 + i) {}).data

/-- Sectors of the span. -/
def spanSecs (h : Handle) : List Nat := (List.range h.count).map (· + h.first)

/-- Source positions with an uncorrectable buffer error (R97). -/
def badMask (h : Handle) (ps : List Nat) : Word :=
  maskOf (ps.filter (fun p => (spanSecs h).any (fun i => (tgetD h.secs (p * 16 + i) {}).bad)))

/-- The same for an instruction that also takes BB's old sectors as sources: XOR, and UPD of GMX (R97, R98). -/
def badSources (a b : Handle) (ps : List Nat) : Word := badMask a ps ||| badMask b (bitsOf b.mask)

/-- Write data bytes into a handle's positions: tags are left, TAGGED clears (R97); a READ writes only what missed
(R87). -/
def putData (op : Op) (h : Handle) (f : Nat → Nat → List Byte) : Handle :=
  let secs := (groupSecs h.first h.count h.mask).foldl (fun t k =>
    if fills op h (k / 16) (k % 16) then
      tset t k { tgetD h.secs k {} with data := f (k / 16) (k % 16), bad := false, read := false }
    else t) h.secs
  { h with secs := secs, tagged := false }

/-- The value that a position of BB gets in each mode of GMX (R97). -/
def gmxValue (mode : Nat) (g : Geom) (coef : List Byte) (sch : Sched) (a b : Handle) (p i : Nat) : List Byte :=
  match mode with
  | 0 => combine (genRow g coef p) ((List.range g.k).map (fun q => hData a q i))
  | 1 => xorBytes (hData b p i) (combine ((bitsOf a.mask).map (fun q => coeffAt g coef (p - g.k) q))
           ((bitsOf a.mask).map (fun q => hData a q i)))
  | _ =>
    if sch.sources.getLsbD p then hData a p i
    else combine ((sch.rows.getD ((bitsOf sch.erased).idxOf p) []).take g.k)
           ((bitsOf sch.sources).map (fun q => hData a q i))

/-- Source positions that a GMX reads. -/
def gmxSources (mode : Nat) (sch : Sched) (a : Handle) : List Nat :=
  if mode = 2 then bitsOf sch.sources else bitsOf a.mask

/-- R97's operand rules: none, or the fault code. -/
def gmxCheck (mode : Nat) (g : Geom) (sch : Option Sched) (a b : Handle) : Option Nat :=
  if a.first != b.first || a.count != b.count then some 0x07
  else match mode with
  | 0 => if a.mask == g.dataMask && sub b.mask g.parMask then none else some 0x07
  | 1 => if sub a.mask g.dataMask && sub b.mask g.parMask then none else some 0x07
  | _ => match sch with
    | none => some 0x0F
    | some c => if sub c.sources a.mask && sub b.mask (c.erased ||| c.sources) then none else some 0x07

/-- The sectors of a handle that TAG works on (R87). -/
def tagKeys (op : Op) (h : Handle) : List Nat :=
  (groupSecs h.first h.count h.mask).filter (fun k => fills op h (k / 16) (k % 16))

/-- Generation of a sector; 0 when blank (04 R137). -/
def secGen (h : HSec) : Dword := if h.tag == 0 then 0 else tagGen h.tag

/-- Positions of a handle whose tags fail a test. -/
def failMask (op : Op) (h : Handle) (ok : HSec → Bool) : Word :=
  maskOf (((tagKeys op h).filter (fun k => !ok (tgetD h.secs k {}))).map (· / 16)).eraseDups

/-- The result of TAG GET (R99). -/
def tagGet (op : Op) (h : Handle) : Word :=
  match tagKeys op h with
  | [] => 0
  | k :: ks =>
    let g := secGen (tgetD h.secs k {})
    let bad := (k :: ks).any (fun j => let x := tgetD h.secs j {}
      !tagOk x || secGen x != g)
    BitVec.ofNat 64 (g.toNat + b2n bad * 2 ^ 32)

/-- Tags of a generation on every sector (R99 GEN and NEXT). -/
def tagGenerate (op : Op) (h : Handle) (gen : Dword) : Handle :=
  { h with tagged := true, secs := (tagKeys op h).foldl (fun t k =>
      let x := tgetD h.secs k {}
      tset t k { x with tag := mkTag x.data gen, tagBad := false, read := false }) h.secs }

/-- A tag failure in a member read counts against the member and raises its message (04 R142, 14 R550), and the
slice's check is queued (08 R307). -/
def countTagFails (op : Op) (h : Handle) (m : Word) (s : State) : State :=
  (tagKeys op h).foldl (fun s k =>
    let x := tgetD h.secs k {}
    if m.getLsbD (k / 16) && x.read && !tagOk x then
      queueCheck op.pool op.row op.slice (noteTagFail op.pool op.row (k / 16) (16 * op.slice + k % 16) s)
    else s) s

/-! ## Issue -/

/-- Set pending and put an instruction in flight, the program counter moved on (R91). -/
def launch (c : Nat) (w : Word) (f : Inflight → Inflight) (s : State) : State :=
  let i := insOf w
  updCtx c (fun x => { x with
    pc := x.pc + 1, issued := x.issued + 1, pending := x.pending ||| BitVec.ofNat 16 (2 ^ i.ds),
    inflight := tset x.inflight i.ds (f { word := w, sa := x.sl i.sa, sb := x.sl i.sb, reads := i.readsH,
                                          writes := i.writesH, issuedAt := s.now, arr := s.pipe.nextArr }) })
    { s with pipe.nextArr := s.pipe.nextArr + 1 }

/-- The program counter moves to an address. -/
def goto (c pc : Nat) (s : State) : State := updCtx c (fun x => { x with pc := pc, issued := x.issued + 1 }) s

/-- Whether an address lies in the running extent (R103). -/
def inExtent (x : Ctx) (a : Nat) : Bool := x.extStart ≤ a && a < x.extStart + x.extLen

/-- LOOK (R92, R93). -/
def issueLook (c : Nat) (x : Ctx) (op : Op) (w : Word) (s : State) : State :=
  let i := insOf w
  let g := geomOf op.pool s
  let v := x.sl i.sa
  if i.sub = 3 && g.w ≤ v.toNat % 64 then programFault c x 0x0A s
  else if i.sub = 4 && beyondW g v then programFault c x 0x0A s
  else if i.sub = 4 && 3 ≤ pop v && pop v ≤ g.m && (match findSched op.pool v s with | .missing => true | _ => false) then
    requestSched op.pool v (launch c w (fun f => { f with schedWait := some v }) s)
  else launch c w id s

/-- MRD (R94). -/
def issueMrd (c : Nat) (x : Ctx) (op : Op) (w : Word) (s : State) : State :=
  let i := insOf w
  let g := geomOf op.pool s
  let v := x.sl i.sa
  let run (x : Ctx) (s : State) : State :=
    let h := x.h i.ba
    let m := v &&& h.mask
    if h.kind == .none || h.kind == .template then programFault c x 0x06 s
    else if m &&& x.sl 3 != 0 then programFault c x 0x0A s
    else
      let s := launch c w id (updCtx c (fun _ => x) s)
      (bitsOf m).foldl (fun s p => startRead c i.ds i.ba p op h.first h.count s) s
  if beyondW g v then programFault c x 0x0A s
  else if i.isDef then
    let b := x.h i.bb
    if b.kind == .none then programFault c x 0x06 s
    else match defHandle x i.ba v b.first b.count s with
      | .error e => programFault c x e s
      | .ok (hd, s) => run { x with handles := tset x.handles i.ba hd } s
  else run x s

/-- Whether an operation's kind may write (R96, R109). -/
def mayIssueWrite (x : Ctx) (op : Op) (s : State) : Bool :=
  !(op.kind == 0 || op.kind == 6 || (x.routine && !mayWrite op s))

/-- MWR (R96). An entry that a JNL still opens counts as open for JCL, DONE and JNL only (R101). -/
def issueMwr (c : Nat) (x : Ctx) (op : Op) (w : Word) (s : State) : State :=
  let i := insOf w
  let g := geomOf op.pool s
  let v := x.sl i.sa
  let h := x.h i.ba
  let m := v &&& h.mask
  let covered := match x.jnl with
    | none => false
    | some j => !x.flying 0x07 && sub m (tgetD s.jnl.own j {}).positions
  if h.kind == .none || h.kind == .template then programFault c x 0x06 s
  else if beyondW g v then programFault c x 0x0A s
  else if !mayIssueWrite x op s then programFault c x 0x0E s
  else if !h.tagged then programFault c x 0x0B s
  else if !covered then programFault c x 0x0C s
  else if m &&& x.sl 3 &&& ~~~ (if op.kind = 3 then x.sl 5 else 0) != 0 then programFault c x 0x0A s
  else
    let s := launch c w id s
    if s.pow.flushing || s.pow.coldStop then
      (bitsOf m).foldl (fun s p => updJob c i.ds p (fun j => { j with fail := true }) s) s
    else (bitsOf m).foldl (fun s p => startWrite c i.ds h p op i.low s) s

/-- GMX (R97). With DEF the operand rules are tested on the handles as the DEF leaves them. -/
def issueGmx (c : Nat) (x : Ctx) (op : Op) (w : Word) (s : State) : State :=
  let i := insOf w
  let g := geomOf op.pool s
  let a := x.h i.ba
  let data (h : Handle) : Bool := h.kind == .host || h.kind == .scratch
  let go (x : Ctx) (s : State) : State :=
    if !data (x.h i.bb) then programFault c x 0x06 s
    else match gmxCheck (i.sub % 4) g x.sch (x.h i.ba) (x.h i.bb) with
      | some e => programFault c x e s
      | none => launch c w id (updCtx c (fun _ => x) s)
  if !data a then programFault c x 0x06 s
  else if i.isDef then
    if beyondW g (x.sl i.sa) then programFault c x 0x0A s
    else match defHandle x i.bb (x.sl i.sa) a.first a.count s with
      | .error e => programFault c x e s
      | .ok (hd, s) => go { x with handles := tset x.handles i.bb hd } s
  else go x s

/-- XOR (R98). -/
def issueXor (c : Nat) (x : Ctx) (_op : Op) (w : Word) (s : State) : State :=
  let i := insOf w
  let a := x.h i.ba
  let b := x.h i.bb
  let data (h : Handle) : Bool := h.kind == .host || h.kind == .scratch
  if !data a || !data b then programFault c x 0x06 s
  else if a.mask != b.mask || a.first != b.first || a.count != b.count then programFault c x 0x07 s
  else launch c w id s

/-- TAG (R99). -/
def issueTag (c : Nat) (x : Ctx) (_op : Op) (w : Word) (s : State) : State :=
  let a := x.h (insOf w).ba
  if a.kind == .host || a.kind == .scratch then launch c w id s else programFault c x 0x06 s

/-- The operation with the row of S1 and the pool of S0, which an entry covers (R100); S0 names the pool without the layout. -/
def slotOp (x : Ctx) (op : Op) : Op :=
  let p := fld (x.sl 0).toNat 10 8
  { op with row := (x.sl 1).toNat % 2 ^ 48, pool := if p = op.pool % 8 then op.pool else p }

/-- JNL (R100, 07 R283): the entry opens, unless MRAM fails, power fails, or the pool was lost while the JNL waited (10 R369). -/
def issueJnl (c : Nat) (x : Ctx) (op : Op) (w : Word) (s : State) : State :=
  let i := insOf w
  let g := geomOf op.pool s
  let m := x.sl i.sa ||| x.sl i.sb
  let h := x.h i.ba
  if x.jnl.isSome || x.flying 0x07 then programFault c x 0x0D s
  else if h.kind == .none then programFault c x 0x06 s
  else if beyondW g m then programFault c x 0x0A s
  else if !mayIssueWrite x op s then programFault c x 0x0E s
  else if commitsRefused s then launch c w (fun f => { f with jnl := some 3 }) s
  else if !owns op.pool s then launch c w (fun f => { f with jnl := some 2 }) s
  else
    let gen := match tagKeys op h with
      | k :: _ => tagGen (tgetD h.secs k {}).tag
      | [] => 0
    let s := launch c w id s
    let cached := (op.kind == 1 || op.kind == 2) && !op.hostpost
    let (idx, s) := openJnl c (slotOp x op) m h.first h.count gen cached (relocates op) s
    let (mir, s) := mirrorJnl idx s
    updInflight c i.ds (fun f => { f with mirror := mir }) (updCtx c (fun y => { y with jnl := some idx }) s)

/-- JCL (R101). -/
def issueJcl (c : Nat) (x : Ctx) (_op : Op) (w : Word) (s : State) : State :=
  match x.jnl with
  | none => programFault c x 0x0D s
  | some _ => launch c w id s

/-- BR (R103). -/
def issueBr (c : Nat) (x : Ctx) (_op : Op) (w : Word) (s : State) : State :=
  let t := (insOf w).imm % 2 ^ 17
  if inExtent x t then goto c t s else programFault c x 0x03 s

/-- BZ and BNZ (R103). -/
def issueBranch (onZero : Bool) (c : Nat) (x : Ctx) (_op : Op) (w : Word) (s : State) : State :=
  let i := insOf w
  let t := i.imm % 2 ^ 17
  let v := if i.low then x.sl i.sa &&& x.sl i.sb else x.sl i.sa
  if !inExtent x t then programFault c x 0x03 s
  else if (v == 0) == onZero then goto c t s else goto c (x.pc + 1) s

/-- CALL (R104). -/
def issueCall (c : Nat) (x : Ctx) (_op : Op) (w : Word) (s : State) : State :=
  let i := insOf w
  if 4 ≤ x.stack.length then programFault c x 0x04 s
  else updCtx c (fun y => { y with
    stack := (x.pc + 1, x.extStart, x.extLen) :: x.stack, pc := i.imm % 2 ^ 17, extStart := i.imm % 2 ^ 17,
    extLen := fld i.imm 28 17 + 1, issued := x.issued + 1 }) s

/-- RET (R104). -/
def issueRet (c : Nat) (x : Ctx) (_op : Op) (_w : Word) (s : State) : State :=
  match x.stack with
  | [] => programFault c x 0x04 s
  | (pc, st, len) :: rest =>
    updCtx c (fun y => { y with stack := rest, pc := pc, extStart := st, extLen := len, issued := x.issued + 1 }) s

/-- DONE (R105). -/
def issueDone (c : Nat) (x : Ctx) (op : Op) (w : Word) (s : State) : State :=
  let i := insOf w
  let st := i.imm % 65536
  if x.jnl.isSome then programFault c x 0x0D s
  else if !(st == 0 || st == 0x0101 || st == 0x0102 || st == 0x0104) then programFault c x 0x10 s
  else
    let s := if op.kind == 6 && st == 0x0102 then queueCheck op.pool op.row op.slice s else s
    progEnd x.op (BitVec.ofNat 16 st) (if i.low then (x.sl i.sa).setWidth 32 else 0) (x.h 0).secs s

/-- A LOST trap (R112, 08 R317): the span at the positions is recorded and sealed (log entry 13). REDISPATCH is one for an operation
that goes on at class 0 (08 R310). -/
def trapLost (x : Ctx) (op : Op) (m : Word) (s : State) : State :=
  let lost := m &&& (geomOf op.pool s).dataMask
  let s := if lost != 0 && lostERoom s then
      newOp { kind := 3, pool := op.pool, row := op.row, slice := op.slice, first := op.first, count := op.count,
              why := .sealRow, rebuild := lost, extra := lost } s
    else if lost != 0 then pauseSeal op.pool s else s
  let s := if lost != 0 && lostERoom s then lostChanged op.pool s (addLostE op.pool op.row op.slice lost op.first op.count 1 s) else s
  progEnd x.op 0x0101 0 [] (settleOpen x s)

/-- TRAP (R112, R113). A set bit of SA at or above w faults for LOST and REDISPATCH, whose positions it names; INCONSISTENT
names no position and does not test SA (log entry 73). For REDISPATCH a JNL in flight, and a JCL without its result yet, count as an
open entry (log entry 85). -/
def issueTrap (c : Nat) (x : Ctx) (op : Op) (w : Word) (s : State) : State :=
  let i := insOf w
  let code := i.imm % 65536
  let v := x.sl i.sa
  let count (s : State) : State :=
    raise (0x048 + c / 32) 0x3F code { s with pipe.traps := sat32 s.pipe.traps 1 }
  if code = 1 then
    if beyondW (geomOf op.pool s) v then programFault c x 0x0A s else trapLost x op v (count s)
  else if code = 2 then
    queueCheck op.pool op.row op.slice (progEnd x.op 0x0102 0 [] (settleOpen x (count s)))
  else if code = 3 then
    if x.jnl.isSome || x.flying 0x07 then programFault c x 0x0D s
    else if beyondW (geomOf op.pool s) v then programFault c x 0x0A s
    else if v &&& ~~~ x.sl 3 == 0 then programFault c x 0x11 s
    else if op.cont0 then trapLost x op v (count s)
    else redispatch x.op c (v ||| x.sl 3) (count s)
  else programFault c x 0x11 s

/-- What an instruction of each opcode does when it issues. -/
def issueIns (c : Nat) (x : Ctx) (op : Op) (w : Word) (s : State) : State :=
  match (insOf w).op with
  | 0x01 => issueLook c x op w s
  | 0x02 => issueMrd c x op w s
  | 0x03 => issueMwr c x op w s
  | 0x04 => issueGmx c x op w s
  | 0x05 => issueXor c x op w s
  | 0x06 => issueTag c x op w s
  | 0x07 => issueJnl c x op w s
  | 0x08 => issueJcl c x op w s
  | 0x09 => goto c (x.pc + 1) s
  | 0x0A => issueBr c x op w s
  | 0x0B => issueBranch true c x op w s
  | 0x0C => issueBranch false c x op w s
  | 0x0D => issueCall c x op w s
  | 0x0E => issueRet c x op w s
  | 0x0F => issueDone c x op w s
  | 0x10 => issueTrap c x op w s
  | _ => goto c (x.pc + 1) s

/-- A core issues one instruction of opcode `want` (R74): the next ready context in round-robin order, when its next
instruction is that one; a word that no program may hold faults whichever opcode it shows. Nothing issues while a PLL of the data path is not locked (13 R462,
R466). -/
def issue (want k : Nat) (s : State) : State :=
  if !domainsRun s then s
  else match nextCtx k s with
  | none => s
  | some c => match ctxOf c s with
    | none => s
    | some x => match opOf x.op s with
      | none => s
      | some op =>
        let served (s : State) : State := { s with pipe.lastCtx := tset s.pipe.lastCtx k (c % 32) }
        match fetchWord x s with
        | none => programFault c x 0x03 (served s)
        | some w =>
          let i := insOf w
          if 65536 ≤ x.issued then programFault c x 0x12 (served s)
          else if !i.legal then programFault c x 0x01 (served s)
          else if i.op != want then s
          else if !i.fieldsOk then programFault c x 0x02 (served s)
          else if i.hasDs && x.pend i.ds then programFault c x 0x05 (served s)
          else issueIns c x op w (served s)

/-- The MRAM write of an entry, or of its region bit, fails (07 R283): the JNL that opened it gets code 1, and no
entry is open. A built-in procedure ends without its writes. -/
def journalWriteFails (idx : Nat) (s : State) : State :=
  match s.pipe.ctxs.find? (fun e => e.2.jnl == some idx) with
  | none => s
  | some (c, x) =>
    let drop (s : State) : State :=
      updCtx c (fun y => { y with jnl := none }) { (retireJnl idx s) with jnl.own := tdel (retireJnl idx s).jnl.own idx }
    match x.inflight.find? (fun e => (insOf e.2.word).op == 0x07 && e.2.jnl.isNone) with
    | some (n, _) => updInflight c n (fun f => { f with jnl := some 1 }) (drop s)
    | none => match opOf x.op s with
      | some op => if op.st == .builtin && op.bi == .write then endOp x.op 0x0104 0 [] (drop s) else s
      | none => s

/-! ## Results (R91) -/

/-- A result is written and the slot's pending bit clears. -/
def writeSlot (c n : Nat) (v : Word) (s : State) : State :=
  updCtx c (fun x => { x with slots := tset x.slots n v, pending := x.pending &&& ~~~ BitVec.ofNat 16 (2 ^ n),
                              inflight := tdel x.inflight n }) s

/-- LOOK's value (R92). -/
def lookValue (op : Op) (i : Ins) (v : Word) (s : State) : Word :=
  let g := geomOf op.pool s
  match i.sub with
  | 0 => BitVec.ofNat 64 i.imm
  | 1 => BitVec.ofNat 64 (i.imm * 2 ^ 32)
  | 2 => BitVec.ofNat 64 (match i.imm % 8 with
    | 0 => g.k | 1 => g.m | 2 => g.w | 3 => g.ss | _ => (poolEnt op.pool s).geom)
  | 3 =>
    let p := v.toNat % 64
    let slot := homeSlot op.pool op.row p s
    let (band, e) := bandEntry op.pool op.row s
    let home := lookupHome op.pool e p band s
    let fallow := (winRow op.pool op.row s).isSome || isFallow op.pool e home.1 home.2 s
    BitVec.ofNat 64 (slot + (slotRec op.pool slot s).st.code * 2 ^ 7 + b2n fallow * 2 ^ 11)
  | _ => match i.imm with
    | 0 => g.dataMask | 1 => g.parMask | _ => span 0 g.w

/-- LOOK.SCHED ends when the schedule is at hand (R93, 02 R57, R62). -/
def endSched (c n : Nat) (op : Op) (f : Inflight) (s : State) : State :=
  let g := geomOf op.pool s
  if f.sa == 0 then writeSlot c n g.dataMask (updCtx c (fun x => { x with sch := none }) s)
  else if g.m < pop f.sa then writeSlot c n 0 (updCtx c (fun x => { x with sch := none }) s)
  else match findSched op.pool f.sa s with
    | .found y =>
      let key := schedKey (poolEnt op.pool s).geom f.sa
      let s := { s with plan.cache := tupd s.plan.cache key (fun z => { z with lastUse := s.now }) }
      writeSlot c n y.sources (updCtx c (fun x => { x with sch := some y, schUsed := nins x.schUsed key }) s)
    | .broken =>
      let s := { s with plan.cache := tdel s.plan.cache (schedKey (poolEnt op.pool s).geom f.sa) }
      raiseFree 0x069 0x32 (updInflight c n (fun f => { f with schedWait := some f.sa }) (requestSched op.pool f.sa s))
    | .missing => updInflight c n (fun f => { f with schedWait := some f.sa }) (requestSched op.pool f.sa s)
    | .damaged =>
      raiseFree 0x069 0x32 { s with plan.reloading := nins s.plan.reloading (poolEnt op.pool s).geom }
    | .reloading => s

/-- The result of an instruction in flight, when its stage has finished (R91 to R101). GMX.REC takes the schedule as SCH holds
it now (log entry 73). -/
def writeResult (c n : Nat) (x : Ctx) (op : Op) (f : Inflight) (s : State) : State :=
  let i := insOf f.word
  let g := geomOf op.pool s
  let jobMask : Word := maskOf ((f.jobs.filter (fun e => e.2.fail || e.2.late)).map (·.1))
  let setH (k : Nat) (h : Handle) (s : State) : State := updCtx c (fun y => { y with handles := tset y.handles k h }) s
  match i.op with
  | 0x01 => if i.sub = 4 then endSched c n op f s else writeSlot c n (lookValue op i f.sa s) s
  | 0x02 => if jobsDone f then writeSlot c n jobMask s else s
  | 0x03 => if jobsDone f then writeSlot c n jobMask s else s
  | 0x04 =>
    let mode := i.sub % 4
    let sch := x.sch.getD {}
    let a := x.h i.ba
    let b := x.h i.bb
    writeSlot c n (if mode = 1 then badSources a b (bitsOf a.mask) else badMask a (gmxSources mode sch a))
      (setH i.bb (putData op b (gmxValue mode g (coeffsOf op.pool s) sch a b)) s)
  | 0x05 =>
    let a := x.h i.ba
    let b := x.h i.bb
    writeSlot c n (badSources a b (bitsOf a.mask)) (setH i.bb (putData op b (fun p j => xorBytes (hData a p j) (hData b p j))) s)
  | 0x06 =>
    let h := x.h i.ba
    match i.sub with
    | 0 => let m := failMask op h tagOk
           writeSlot c n m (countTagFails op h m s)
    | 1 => let m := failMask op h (fun y => tagOk y && secGen y == f.sa.setWidth 32)
           writeSlot c n m (countTagFails op h m s)
    | 2 => writeSlot c n (tagGet op h) (countTagFails op h (failMask op h tagOk) s)
    | 3 => writeSlot c n (BitVec.ofNat 64 (f.sa.toNat % 2 ^ 32)) (setH i.ba (tagGenerate op h (f.sa.setWidth 32)) s)
    | _ => let gen : Dword := f.sa.setWidth 32 + 1
           writeSlot c n (BitVec.ofNat 64 gen.toNat) (setH i.ba (tagGenerate op h gen) s)
  | 0x07 => match f.jnl with
    | some code => writeSlot c n (BitVec.ofNat 64 code) s
    | none =>
      if jnlDurable c f.mirror s then
        writeSlot c n 0 (usePremarks c s)
      else s
  | _ => match x.jnl with
    | some idx => writeSlot c n 0 (closeJnl idx (updCtx c (fun y => { y with jnl := none }) s))
    | none => writeSlot c n 0 s

/-- The stage that serves an instruction by itself, with nothing outside to wait for: 1 table lookup, 2 GF combine, 3 tag check, 4
commit, which retires entries; 0 for the others (R90), and for a LOOK.SCHED that waits for its schedule. A JNL's entry opens at
its issue, and so in the order of arrival; what it then waits for are members and the peer. -/
def fixedStage (f : Inflight) : Nat :=
  let i := insOf f.word
  match i.op with
  | 0x01 => if f.schedWait.isSome then 0 else 1
  | 0x04 => 2
  | 0x05 => 2
  | 0x06 => 3
  | 0x08 => 4
  | _ => 0

/-- Whether a request that arrived earlier, of another context of the lane, waits at the same stage (R107). -/
def servedBefore (c : Nat) (f : Inflight) (s : State) : Bool :=
  fixedStage f != 0 && s.pipe.ctxs.any (fun e => e.1 != c && laneOf e.1 == laneOf c && e.2.run == .running &&
    e.2.inflight.any (fun g => fixedStage g.2 == fixedStage f && decide (g.2.arr < f.arr)))

/-- A stage finishes the work of the instruction whose destination is slot `n` of context `c` (R91), which waits while the
stage has an earlier request to serve (R107). -/
def stageResult (c n : Nat) (s : State) : State :=
  match ctxOf c s with
  | none => s
  | some x => match opOf x.op s, tget x.inflight n with
    | some op, some f => if x.run == .running && x.pend n && !servedBefore c f s then writeResult c n x op f s else s
    | _, _ => s

/-- The reads of a position for an instruction: data, and tags of a 4096+0 member. -/
def readsFor (c n pos : Nat) (o : MOwner) : Bool :=
  match o with
  | .rd c' n' p' _ _ => c' == c && n' == n && p' == pos
  | .rdTag c' n' p' _ _ _ => c' == c && n' == n && p' == pos
  | _ => false

/-- The reads of a late position go on; what they return reaches no handle and no instruction (R95). -/
def leaveReads (c n pos : Nat) (s : State) : State :=
  { s with mem.cmds := s.mem.cmds.map (fun e => if readsFor c n pos e.2.owner then (e.1, { e.2 with owner := .other }) else e) }

/-- R95: a hedged read is reported late. -/
def lateReport (c n pos : Nat) (s : State) : State :=
  match ctxOf c s with
  | none => s
  | some x => match opOf x.op s, tget x.inflight n with
    | some op, some f =>
      let i := insOf f.word
      let j := tgetD f.jobs pos {}
      let lates := (f.jobs.filter (·.2.late)).length
      let hedge := s.mem.cmds.find? (fun e => readsFor c n pos e.2.owner)
      if i.op == 0x02 && i.low && j.left != 0 && !j.fail && !j.late && hedge.isSome &&
          decide (pop (x.sl 3) + lates + 1 ≤ (geomOf op.pool s).m) then
        let ms := (hedge.map (·.2.hedgeMs)).getD 0
        leaveReads c n pos (updJob c n pos (fun j => { j with late := true }) (timeTo (f.issuedAt + 1000 * ms) s))
      else s
    | _, _ => s

end Sys2Proof.Machine
end

