-- ==== Sys2Proof/Machine/PipeRows.lean ====
section
/-! DEFINITION. Sys2Proof/Machine/PipeRows.lean: dispatch, the Fleist instructions, results and the plan engine's
schedules (03; 02 R57 to R63). An instruction's row is one issue by a core (03 R74); its operands are in the program. -/

namespace Sys2Proof.Machine

/-- DISPATCH (03 R80); an error met in the data of a destage is treated first (07 R269). -/
def execDispatch (d : DispatchIn) (s : State) : Res := go (stage4 d.op (meetDram (opReads d.op) d.errs s))

/-- LOOK (03 R92). -/
def execLook (core : Fin 32) (s : State) : Res := go (issue 0x01 core.val s)

/-- MRD (03 R94). -/
def execMrd (core : Fin 32) (s : State) : Res := go (issue 0x02 core.val s)

/-- MRD_LATE_REPORT (03 R95). -/
def execMrdLateReport (ctx : Fin 1024) (slot : Fin 16) (pos : Fin 64) (s : State) : Res :=
  go (lateReport ctx.val slot.val pos.val s)

/-- MWR (03 R96). -/
def execMwr (core : Fin 32) (s : State) : Res := go (issue 0x03 core.val s)

/-- GMX (03 R97). -/
def execGmx (core : Fin 32) (s : State) : Res := go (issue 0x04 core.val s)

/-- XOR (03 R98). -/
def execXor (core : Fin 32) (s : State) : Res := go (issue 0x05 core.val s)

/-- TAG (03 R99). -/
def execTag (core : Fin 32) (s : State) : Res := go (issue 0x06 core.val s)

/-- JNL (03 R100). -/
def execJnl (core : Fin 32) (s : State) : Res := go (issue 0x07 core.val s)

/-- JCL (03 R101). -/
def execJcl (core : Fin 32) (s : State) : Res := go (issue 0x08 core.val s)

/-- WAIT (03 R102). -/
def execWait (core : Fin 32) (s : State) : Res := go (issue 0x09 core.val s)

/-- BR (03 R103). -/
def execBr (core : Fin 32) (s : State) : Res := go (issue 0x0A core.val s)

/-- BZ (03 R103). -/
def execBz (core : Fin 32) (s : State) : Res := go (issue 0x0B core.val s)

/-- BNZ (03 R103). -/
def execBnz (core : Fin 32) (s : State) : Res := go (issue 0x0C core.val s)

/-- CALL (03 R104). -/
def execCall (core : Fin 32) (s : State) : Res := go (issue 0x0D core.val s)

/-- RET (03 R104). -/
def execRet (core : Fin 32) (s : State) : Res := go (issue 0x0E core.val s)

/-- DONE (03 R105). -/
def execDone (core : Fin 32) (s : State) : Res := go (issue 0x0F core.val s)

/-- TRAP (03 R112). -/
def execTrap (core : Fin 32) (s : State) : Res := go (issue 0x10 core.val s)

/-- NOP (03 R90). -/
def execNop (core : Fin 32) (s : State) : Res := go (issue 0x11 core.val s)

/-- STAGE_RESULT_WRITTEN (03 R91). -/
def execStageResultWritten (ctx : Fin 1024) (slot : Fin 16) (s : State) : Res := go (stageResult ctx.val slot.val s)

/-! ## Pre-marks (07 R292) -/

/-- PREMARK_TIMEOUT (07 R292). -/
def execPremarkTimeout (ctx : Fin 1024) (s : State) : Res := go (premarkTimeout ctx.val s)

/-! ## Program store and schedules -/

/-- PROGRAM_STORE_RELOAD (03 R117): the DEST 1 sections are whole again; stalled contexts resume. -/
def execProgramStoreReload (s : State) : Res := go { s with plan.badWords := [] }

/-- Whether an instruction in flight waits on a schedule of a geometry. -/
def waitsOn (geom : Nat) (erased : Word) (e : Nat × Ctx) (s : State) : List Nat :=
  match opOf e.2.op s with
  | some op =>
    if (poolEnt op.pool s).geom = geom then
      (e.2.inflight.filter (fun f => f.2.schedWait == some erased)).map (·.1)
    else []
  | none => []

/-- Whether a pattern occurs in a pool's present failure state, or an operation waits on a slot or uses it (02 R61). -/
def slotPinned (key : Nat) (s : State) : Bool :=
  let erased := BitVec.ofNat 64 key
  s.pipe.ctxs.any (fun e => e.2.schUsed.contains key || !(waitsOn (key / 2 ^ 64) erased e s).isEmpty) ||
  (tab s).pools.any (fun (l, p) => p.geom == key / 2 ^ 64 && (failurePatterns l s).contains erased)

/-- A schedule goes into the cache, in place of the least recently used unpinned slot when it is full; none when every
slot is pinned (02 R61). -/
def storeSched (key : Nat) (rec : List Byte) (s : State) : Option State :=
  let put (c : Tbl SchedSlot) : State := { s with plan.cache := tset c key { record := rec, lastUse := s.now } }
  if s.plan.cache.length < schedSlots s then some (put s.plan.cache)
  else match leastBy (fun (e : Nat × SchedSlot) => e.2.lastUse) (s.plan.cache.filter (fun e => !slotPinned e.1 s)) with
    | some e => some (put (tdel s.plan.cache e.1))
    | none => none

/-- The coefficient rows and the row of a geometry. -/
def geomRow (n : Nat) (s : State) : Option (Geom × List Byte) :=
  (tget (tab s).geoms n).map (fun g => (g, tgetD (tab s).coeff n []))

/-- The plan engine finishes the oldest request (02 R57, R58, R60). -/
def scheduleStored (s : State) : State :=
  match s.plan.queue with
  | [] => s
  | r :: rest =>
    match (geomRow r.geom s).bind (fun (g, c) => (makeSched g c r.erased).map (schedRecord g r.geom)) with
    | none => { s with plan.queue := rest }
    | some x => match storeSched (schedKey r.geom r.erased) x s with
      | none => s
      | some s => { s with plan.queue := rest }

/-- Waiting LOOKs of a pattern get their schedule, longest waiting first (02 R57). -/
def releaseSched (geom : Nat) (erased : Word) (s : State) : State :=
  let ws := s.pipe.ctxs.flatMap (fun e => (waitsOn geom erased e s).map (fun n =>
    ((tgetD e.2.inflight n {}).issuedAt, e.1, n)))
  let ordered := ws.foldl (fun acc w => acc.takeWhile (fun a => a.1 ≤ w.1) ++ [w] ++ acc.dropWhile (fun a => a.1 ≤ w.1)) []
  ordered.foldl (fun s (_, c, n) =>
    stageResult c n (updInflight c n (fun f => { f with schedWait := none }) s)) s

/-- SCHEDULE_STORED (02 R57). -/
def execScheduleStored (s : State) : Res :=
  go (match s.plan.queue with
      | [] => s
      | r :: _ => releaseSched r.geom r.erased (scheduleStored s))

/-- LONG_WAIT (02 R63): the request has waited more than 100 ms; operations stay held. -/
def execLongWait (geometry : Fin 16) (erased : Word) (s : State) : Res :=
  ok (match s.plan.queue.find? (fun r => r.geom == geometry.val && r.erased == erased) with
      | some r =>
        if r.raised then s
        else
          let s := timeTo (r.since + 100001) s
          raiseFree 0x1F5 0x36 { s with plan.queue := s.plan.queue.map (fun q => if q = r then { q with raised := true } else q) }
      | none => s)

/-- PLAN_SECTION_RELOAD (02 R62): the section is whole again, from the ledger's image. -/
def execPlanSectionReload (geometry : Fin 16) (s : State) : Res :=
  go { s with plan.reloading := s.plan.reloading.filter (· != geometry.val) }

end Sys2Proof.Machine
end

