-- ==== Sys2Proof/Machine/CacheRows.lean ====
section
/-! DEFINITION. Sys2Proof/Machine/CacheRows.lean: the events of the cache, the journal's regions and the anchors (07). -/

namespace Sys2Proof.Machine

/-! ## Allocation (07 R259, R264, R265) -/

/-- The way that an eviction freed goes to the line of the waiting operation that lies in its set (R264 step 3). -/
def passWay (x o : Nat) (s : State) : State :=
  match opOf o s with
  | none => s
  | some op =>
    match op.secs.findSome? (fun k =>
      let (line, _) := lineOf op.pool op.row (k / 16) (16 * op.slice + k % 16) s
      if setOf op.pool line == x / 16 && (findWay op.pool line s).isNone then some line else none) with
    | some line => updOp o (fun y => { y with lines := tset y.lines line x }) s
    | none => s

/-- A waiting allocation chooses again (R259); it keeps the time since which it waits. -/
def retryAlloc (o : Nat) (s : State) : State :=
  match opOf o s with
  | none => s
  | some op => match op.st with
    | .alloc t =>
      let s := updOp o (fun y => { y with st := .placed }) s
      let s := match op.kind, op.cmd with
        | 9, some c => placeWrite c s
        | _, _ => probeRead o s
      (match opOf o s with
       | some y => (match y.st with
         | .alloc _ => updOp o (fun z => { z with st := .alloc t }) s
         | _ => if y.kind = 9 then s else rowTurn o s)
       | none => s)
    | _ => s

/-- An eviction whose destage has passed stage 10 ends (R264 step 3, R265). -/
def endEviction (x : Nat) (s : State) : State :=
  match tget s.cache.evict x with
  | none => s
  | some e =>
    if !e.ended && !e.ops.isEmpty then s
    else
      let s := { s with cache.evict := tdel s.cache.evict x }
      let t := tagAt x s
      if e.attached || e.failed || t.valid &&& t.dirty != 0 then
        let s := touch x (setTag x { t with evicting := false } s)
        (match e.waiter with
         | some o => retryAlloc o s
         | none => s)
      else
        let s := setTag x {} s
        (match e.waiter with
         | some o => retryAlloc o (passWay x o s)
         | none => s)

/-- EVICTION_END (07 R264). -/
def execEvictionEnd (set : Fin 65536) (way : Fin 16) (s : State) : Res := go (endEviction (set.val * 16 + way.val) s)

/-- Whether a waiting operation needs a way of a set. -/
def needsSet (op : Op) (set : Nat) (s : State) : Bool :=
  op.secs.any (fun k =>
    let (line, _) := lineOf op.pool op.row (k / 16) (16 * op.slice + k % 16) s
    setOf op.pool line == set)

/-- ALLOCATION_RETRY (07 R259), the longest waiting first. -/
def execAllocationRetry (set : Fin 65536) (s : State) : Res :=
  let ws := s.pipe.ops.filterMap (fun e => match e.2.st with
    | .alloc t => if needsSet e.2 set.val s then some (t, e.1) else none
    | _ => none)
  let ordered := ws.foldl (fun acc w => acc.takeWhile (fun a => a.1 ≤ w.1) ++ [w] ++ acc.dropWhile (fun a => a.1 ≤ w.1)) []
  go (ordered.foldl (fun s w => retryAlloc w.2 s) s)

/-- ALLOCATION_LONG_WAIT (07 R259). -/
def execAllocationLongWait (op : Nat) (s : State) : Res :=
  ok (match opOf op s with
      | some y => (match y.st with
        | .alloc t => raiseFree 0x092 0x36 (timeTo (t + 1000000) s)
        | _ => s)
      | none => s)

/-! ## Destage (07 R264, R279) -/

/-- When the oldest dirty sector of a slice became dirty, if it has one. -/
def oldestOf (l row sl : Nat) (s : State) : Option Nat :=
  leastBy id ((dirtyOf l row sl s).filterMap (fun (p, i) =>
    let (line, sec) := lineOf l row p (16 * sl + i) s
    (findLine l line s).bind (fun x => tget s.cache.since (secKey x sec))))

/-- The dirty sectors of a slice whose oldest is 2 s old are destaged (R279 trigger 2). -/
def destageAged (l row sl : Nat) (s : State) : State :=
  match oldestOf l row sl s with
  | some t => destageSlice l row sl .destage (timeTo (t + 2000000) s)
  | none => s

/-- DESTAGE_AGE (07 R279). -/
def execDestageAge (pool : Fin 8) (row : Nat) (slice : Nat) (s : State) : Res :=
  go (destageAged (pool.val + 8) row slice (destageAged pool.val row slice s))

/-- A failed destage is made again (R264): when 1 s has passed and nothing else holds it. -/
def destageAgain (l row sl : Nat) (s : State) : State :=
  match tget s.cache.retry (sliceKey l row sl) with
  | none => s
  | some r => destageSlice l row sl .destage (timeTo r.due s)

/-- DESTAGE_RETRY (07 R264). -/
def execDestageRetry (pool : Fin 8) (row : Nat) (slice : Nat) (s : State) : Res :=
  go (destageAgain (pool.val + 8) row slice (destageAgain pool.val row slice s))

/-! ## Scrubs (07 R269 to R273) -/

/-- TAG_SCRUB (07 R273). -/
def execTagScrub (errs : List TagErr) (s : State) : Res :=
  let s := timeTo (s.cache.lastTagScrub + 1000000) s
  go (meetTags errs { s with cache.lastTagScrub := s.now })

/-- DRAM_SCRUB (07 R273). -/
def execDramScrub (errs : List DramErr) (s : State) : Res :=
  let due := s.cache.lastDramScrub + 86400
  let s := timeTo (s.evr.opAt + (due - s.evr.opBase) * 1000000) s
  go (errs.foldl (fun s e => dramError e s) { s with cache.lastDramScrub := opSeconds s })

/-! ## Regions and anchors (07 R286, R290) -/

/-- REGION_SWEEP (07 R286): bits with no open entry for 10 s clear, but for regions that wait for resynchronisation. -/
def execRegionSweep (s : State) : Res :=
  let s := timeTo (s.jnl.lastSweep + 1000000) s
  let keep (k : Nat) : Bool :=
    tgetD s.jnl.opens k 0 != 0 || decide (s.now < tgetD s.jnl.lastOpen k 0 + 10000000) || (tget s.jnl.resync k).isSome
  ok { s with jnl := { s.jnl with marked := s.jnl.marked.filter keep, lastSweep := s.now } }

/-- CHECKPOINT (07 R290). -/
def execCheckpoint (s : State) : Res := go (startCkpt (timeTo (s.jnl.ckptAt + 60000000) s))

/-! ## Restore from anchors (07 R293, 04 R169) -/

/-- The headers of both copies on a member of a pool that is restored from anchors are read. -/
def readHeaders (q p n : Nat) (s : State) : State :=
  if !s.jnl.restorePools.contains p then s
  else [true, false].foldl (fun s a => sendMember q (some (p, n)) (.ckptHdr a) (.read (ckptBase a) 1) s) s

/-- A header was read: it counts when its CRC holds and it names this module's cohort node and the image that runs. -/
def noteHeader (m : MCmd) (a : Bool) (data : List Byte) (s : State) : State :=
  match m.slot with
  | none => s
  | some (p, n) =>
    let h := padTo 4096 data
    if slice h 0 4 == [0x44, 0x56, 0x41, 0x4E] && leAt h 4092 4 == (crc32c (h.take 4092)).toNat &&
        leAt h 52 4 == s.led.cohort && slice h 20 32 == padTo 32 (tab s).hash then
      { s with jnl.hdrs := s.jnl.hdrs ++
          [{ seq := leAt h 4 8, jseq := leAt h 12 8, pool := p, slot := n, port := m.port, copyA := a }] }
    else s

/-- Pages of the copy that is being read came. -/
def notePages (m : MCmd) (a : Bool) (off : Nat) (data : List Byte) (s : State) : State :=
  match s.jnl.restFrom with
  | some c => if c.port = m.port && c.copyA == a then { s with jnl.restPages := tset s.jnl.restPages off data } else s
  | none => s

/-! ## Registers with an effect of their own (07 R257, R266, R272, R296) -/

/-- A write to INV_CTL. -/
def invCtl (v : Word) (s : State) : State :=
  let c := s.cache
  let c := { c with invDone := c.invDone && !v.getLsbD 34, invErr := c.invErr && !v.getLsbD 35,
                    invCount := fld v.toNat 16 0 }
  let s := { s with cache := c }
  if !v.getLsbD 32 || c.invBusy then s
  else match invSecs c.invVol c.invLba c.invCount s with
    | none => { s with cache := { c with invErr := true, invDone := true } }
    | some secs =>
      let (ws, vs) := dirtyAmong secs s
      let run : CacheSt := { c with invBusy := true, invRange := (c.invVol, c.invLba, c.invCount), invWait := ws, invVault := vs }
      endInvalidate (destagePlaces ws { s with cache := run })

/-- RANGE_INVALIDATE (07 R266). -/
def execRangeInvalidate (value : Word) (s : State) : Res := go (barWrite 0 0x200D0 (invCtl value) s)

/-- Whether every host class keeps a way that is in its mask and unlocked (R257). -/
def waysLeft (ways : Tbl (BitVec 16)) (lock : BitVec 16) : Bool :=
  (List.range 15).all (fun n => tgetD ways n 0xFFFF &&& ~~~ lock != 0)

/-- A write to CLASS_WAYSn, or to WAY_LOCK. -/
def wayMask (cls : Option (Fin 16)) (v : Word) (s : State) : State :=
  let m : BitVec 16 := v.setWidth 16
  match cls with
  | some n =>
    if n.val = 15 then s
    else if waysLeft (tset s.cache.ways n.val m) s.cache.lock then { s with cache.ways := tset s.cache.ways n.val m }
    else raiseFree 0x092 0x34 s
  | none =>
    if waysLeft s.cache.ways m then { s with cache.lock := m } else raiseFree 0x092 0x34 s

/-- WAY_MASK_WRITE (07 R257). -/
def execWayMaskWrite (cls : Option (Fin 16)) (value : Word) (s : State) : Res :=
  ok (barWrite 0 0x20040 (wayMask cls value) s)

/-- A 1 written to CACHE_STATUS.UNNAMED_LOSS clears it and the ledger flag (07 R272). -/
def clearUnnamed (s : State) : State :=
  let s := { s with cache.unnamedLoss := false }
  if commitsRefused s || !s.led.unnamedLoss then s else ledCommit { s with led.unnamedLoss := false }

/-- UNNAMED_LOSS_CLEAR. -/
def execUnnamedLossClear (s : State) : Res := ok (barWrite 0 0x20000 clearUnnamed s)

end Sys2Proof.Machine
end

