-- ==== Sys2Proof/Machine/PairOps.lean ====
section
/-! DEFINITION. Sys2Proof/Machine/PairOps.lean: takeover of a pool and transfer of a pool as their member commands end
(10 R381 to R383). -/

namespace Sys2Proof.Machine

/-- The pair state changes: PAIR_STATE (10 R361; 06 R244). -/
def setPairSt (n : Nat) (s : State) : State :=
  if s.pair.st = n then s else event 0x000C s.led.peer n { s with pair.st := n }

/-- Pair pools that the ledger says a node owns. -/
def poolsOf (node : Nat) (s : State) : List Nat :=
  (s.mem.pools.filter (fun e => pairPool e.1 s && e.2.owner == node)).map (·.1)

/-- A pool becomes DETACHED. -/
def detach (p : Nat) (s : State) : State :=
  if s.pair.detached.contains p then s
  else { s with pair.detached := nins s.pair.detached p, pair.detachedAt := tset s.pair.detachedAt p (opSeconds s) }

/-- Acquires of a pool's members that are still outstanding. -/
def acquiresLeft (p n : Nat) (s : State) : State :=
  { s with pair.acquiring := if n = 0 then tdel s.pair.acquiring p else tset s.pair.acquiring p n }

/-- Send a reservation command to the members of slots of a pool; answers how many were sent. -/
def resvTo (p : Nat) (slots : List Nat) (r : MReq) (s : State) : Nat × State :=
  slots.foldl (fun (n, s) k => match (slotRec p k s).port with
    | some q => (n + 1, sendMember q (some (p, k)) (.resv p k) r s)
    | none => (n, s)) (0, s)

/-- Slots of a pool whose member serves. -/
def resvSlots (p : Nat) (s : State) : List Nat :=
  ((poolRec p s).slots.filter (fun e => match e.2.st with
    | .online => true
    | .suspect => true
    | .rebuilding => true
    | .retiring => true
    | _ => false)).map (·.1)

/-- Commands for a pool that were forwarded run again from the start (R376). -/
def rerun (p : Nat) (s : State) : State :=
  (s.pipe.cmds.filter (fun e => e.2.ph == .forwarded && volPool e.2.volume s == p)).foldl (fun s e =>
    startIo e.1 (updCmd e.1 (fun x => { x with ph := .begun }) s)) s

/-- Commands for a pool that were forwarded end with NOT_OWNER (R376). -/
def refuseForwarded (p : Nat) (s : State) : State :=
  (s.pipe.cmds.filter (fun e => e.2.ph == .forwarded && volPool e.2.volume s == p)).foldl (fun s e => finishCmd e.1 0x0201 0 s) s

/-- The open mirror entries of a pool become this module's own and are replayed (R381 step 4). -/
def adoptMirror (p : Nat) (s : State) : State :=
  let mine := s.jnl.mirror.filter (fun e => e.2.pool % 8 == p)
  let s := { s with jnl.mirror := s.jnl.mirror.filter (fun e => e.2.pool % 8 != p) }
  (mine.filter (fun e => e.2.st == 1)).foldl (fun s e =>
    let i := freeJnl s
    let k := regionKey e.2.pool e.2.row s
    { s with jnl.own := tset s.jnl.own i { e.2 with mirrored := false, context := 0, seq := s.jnl.nextSeq },
             jnl.nextSeq := s.jnl.nextSeq + 1, jnl.replay := nins s.jnl.replay i, jnl.marked := nins s.jnl.marked k,
             jnl.opens := tmod s.jnl.opens k 0 (· + 1) }) s

/-- The data area of a slot's member is deallocated, and written with zeroes where that does not make it read as zero (04 R143). -/
def prepare (p n : Nat) (creation : Bool) (s : State) : State :=
  match (slotRec p n s).port with
  | none => s
  | some q =>
    let base := (poolEnt p s).dataBase
    let id := (mport q s).id
    let len := (id.map (·.capacity)).getD base - base
    let zeroes := formatOf p s == 2 || !((id.map (·.zeroOnDealloc)).getD false)
    let s := updSlot p n (fun r => { r with prep := some creation }) s
    let s := sendMember q (some (p, n)) (.prep p n) (.deallocate base len) s
    if zeroes then sendMember q (some (p, n)) (.prep p n) (.writeZeroes base len) s else s


/-- Slots that the pool's new owner finds in REBUILDING: their preparation is made again, or their restore walk goes on from its
committed boundary (08 R325, R328). -/
def resumeSlots (p : Nat) (s : State) : State :=
  ((poolRec p s).slots.filter (fun e => e.2.port.isSome)).foldl (fun s (n, r) => match r.prep with
    | some creation => prepare p n creation s
    | none => if r.st == .rebuilding then updPool p (fun x => { x with walks := tset x.walks n { next := r.restore, lastCommit := s.now } }) s
              else s) s

/-- The module becomes the owner, alone (R381 steps 3 to 5). -/
def takeCommit (p : Nat) (t : Take) (s : State) : State :=
  let s := { s with pair.takes := tdel s.pair.takes p, pair.detached := s.pair.detached.filter (· != p),
                    pair.taken := nins s.pair.taken p }
  let s := ledCommit (updPool p (fun r => { r with owner := s.led.cohort, epoch := r.epoch + 1 }) s)
  let s := t.bad.foldl (fun s n => slotFails p n 0x06 s) s
  let s := adoptMirror p (resumeSlots p s)
  let s := { s with pair := { s.pair with
    takeServe := min 65535 ((s.now - t.confirmedAt) / 10), takeForced := t.forced, takeValid := true,
    takePools := s.pair.takePools ||| BitVec.ofNat 8 (2 ^ p) } }
  let s := if t.forced then
      recEvent 0x182 0x0040 p (leBytes 4 (tgetD s.pair.detachedAt p 0)) (setPairSt 7 s)
    else s
  rerun p s

/-- Fewer arbiters than needed were preempted (R381 step 1). -/
def takeFail (p : Nat) (s : State) : State :=
  let s := detach p { s with pair.takes := tdel s.pair.takes p }
  let s := if s.pair.takes.isEmpty && s.pair.taken.isEmpty then setPairSt 6 s else s
  refuseForwarded p s

/-- Every preempt of the arbiters has ended: the other members follow (R381 step 2). -/
def takeMembers (p : Nat) (t : Take) (s : State) : State :=
  if t.oks < t.need then takeFail p s
  else
    let (n, s) := resvTo p ((resvSlots p s).filter (fun k => !(poolRec p s).arbs.contains k)) (.preempt (ownKey s) t.victim) s
    let t := { t with members := true, left := n }
    if n = 0 then takeCommit p t s else { s with pair.takes := tset s.pair.takes p t }

/-- A takeover starts (R381 step 1). -/
def startTake (p : Nat) (forced : Bool) (s : State) : State :=
  if (tget s.pair.takes p).isSome then s
  else
    let v := peerKey p s
    let (n, s) := resvTo p (poolRec p s).arbs (.preempt (ownKey s) v) s
    let t : Take := { need := if forced then 1 else 2, left := n, victim := v, confirmedAt := s.now, forced := forced }
    if n = 0 then takeFail p s else { s with pair.takes := tset s.pair.takes p t }

/-- A transfer ends on the owner's side, well or not (R383). -/
def endXfer (reason : Option Nat) (s : State) : State :=
  { s with pair := { s.pair with
    xfer := .none, xferDone := true, xferErr := s.pair.xferErr || reason.isSome,
    xferReason := match reason with
      | some r => BitVec.ofNat 16 r
      | none => s.pair.xferReason } }

/-- The owner reserves every member of its pool again: what a transfer had released (R383). -/
def acquireAll (p : Nat) (s : State) : State :=
  let (n, s) := resvTo p (resvSlots p s) (.acquire (ownKey s)) s
  acquiresLeft p (tgetD s.pair.acquiring p 0 + n) s

/-- This module becomes the owner by a transfer and serves the pool (R383 steps 4 and 5): a member that refused its reservation is
failed, as in a takeover (R381 step 2), and the pool's moves go on from their committed points (08 R328). -/
def ownerHere (p e : Nat) (s : State) : State :=
  let bad := s.pair.xferBad
  let s := ledCommit (updPool p (fun x => { x with owner := s.led.cohort, epoch := e }) s)
  let s := { s with pair.detached := s.pair.detached.filter (· != p), pair.xferIn := none, pair.xferBad := [] }
  resumeSlots p (bad.foldl (fun s n => slotFails p n 0x06 s) s)

/-- The reservation commands of a transfer have all ended (R383 steps 2 to 5). A peer that acquired fewer than two arbiters gives the
pool back by RELEASED; outside PAIRED the module that acquires two of the arbiters has the pool (log entry 85). -/
def xferStep (p : Nat) (s : State) : State :=
  if s.pair.xfer = .release && s.pair.xferCur = p then sendPair (.xfer (.released (Fin.ofNat 8 p))) { s with pair.xfer := .acquire }
  else if s.pair.xfer = .regain && s.pair.xferCur = p then
    let s := endXfer (some 0x0A04) s
    if s.pair.xferOk < 2 then s
    else
      let (n, s) := resvTo p ((resvSlots p s).filter (fun k => !(poolRec p s).arbs.contains k)) (.acquire (ownKey s)) s
      acquiresLeft p n { s with pair.detached := s.pair.detached.filter (· != p) }
  else if s.pair.xferIn = some p then
    if s.pair.xferOk < 2 then
      let s := (resvTo p ((resvSlots p s).filter (fun k => !s.pair.xferBad.contains k)) (.release (ownKey s)) s).2
      let s := { s with pair.xferIn := none, pair.xferBad := [] }
      if pairUp s then sendPair (.xfer (.released (Fin.ofNat 8 p))) s else s
    else if pairUp s then sendPair (.xfer (.acquired (Fin.ofNat 8 p))) s
    else ownerHere p ((poolRec p s).epoch + 1) s
  else s

/-- A reservation command of a takeover, a transfer or a pool's new member ends. A member whose reservation this module, the pool's
owner, does not get is failed (log entry 85). -/
def resvEnd (p n : Nat) (good : Bool) (s : State) : State :=
  match tget s.pair.takes p with
  | some t =>
    let t' := { t with left := t.left - 1, oks := if good then t.oks + 1 else t.oks,
                       bad := if good then t.bad else t.bad ++ [n] }
    if t'.left != 0 then { s with pair.takes := tset s.pair.takes p t' }
    else if t.members then takeCommit p t' s
    else takeMembers p t' s
  | none => match tget s.pair.acquiring p with
    | some k =>
      let s := acquiresLeft p (k - 1) s
      if good then s else slotFails p n 0x06 s
    | none =>
      if s.pair.xferLeft = 0 then s
      else
        let s := { s with pair := { s.pair with
          xferLeft := s.pair.xferLeft - 1, xferBad := if good then s.pair.xferBad else s.pair.xferBad ++ [n],
          xferOk := if good && (poolRec p s).arbs.contains n then s.pair.xferOk + 1 else s.pair.xferOk } }
        if s.pair.xferLeft = 0 then xferStep p s else s

end Sys2Proof.Machine
end

