-- ==== Sys2Proof/Machine/MemberRows.lean ====
section
/-! DEFINITION. Sys2Proof/Machine/MemberRows.lean: what members and their ports report, slot states and the commands for
members and pools (04 R143 to R168, 08). -/

namespace Sys2Proof.Machine

/-! ## Slots and ports -/

/-- The slot that a port serves. -/
def portSlot (q : Nat) (s : State) : Option (Nat × Nat) :=
  s.mem.pools.findSome? (fun (p, rec) => (rec.slots.find? (fun e => e.2.port == some q)).map (fun e => (p, e.1)))

/-- Cells whose present home is on a slot, those that move off it among them (08 R318, R329). -/
def homedOn (p n : Nat) (s : State) : Nat := (cellsOn p n s).length

/-- Cells of a pool that a rebuild still moves. -/
def rebuildLeft (p : Nat) (s : State) : Nat := ((poolRec p s).relocs.filter (fun e => !e.2.settled && e.2.reason == 0)).length

/-- Progress of a pool's rebuild in percent (08 R318). -/
def rebuildPercent (p : Nat) (s : State) : Nat :=
  let total := (poolRec p s).rebuildTotal
  if total = 0 then 0 else (total - min total (rebuildLeft p s)) * 100 / total


/-- Whether a slot keeps a cell: one homed on it, or one whose move onto it stopped without a new TO (04 R150, R153; 08 R318). -/
def keepsCells (p n : Nat) (s : State) : Bool :=
  homedOn p n s != 0 || (poolRec p s).relocs.any (fun e => !e.2.settled && e.2.stopped && e.2.toSlot == n)

/-- Queue every pattern of three or more erasures that a pool's failed and rebuilding slots produce, fewest surviving
redundant strips first (02 R60). -/
def precompute (l : Nat) (s : State) : State :=
  let g := geomOf l s
  if g.m < 3 then s
  else
    let geom := (poolEnt l s).geom
    let want := (failurePatterns l s).filter (fun m => decide (3 ≤ pop m ∧ pop m ≤ g.m) &&
      (tget s.plan.cache (schedKey geom m)).isNone && !s.plan.queue.any (fun r => r.geom == geom && r.erased == m))
    let reqs := (want.filter (fun m => pop m == 4) ++ want.filter (fun m => pop m == 3)).map (fun m =>
      ({ geom := geom, erased := m, since := s.now, pre := true } : SchedReq))
    { s with plan.queue := s.plan.queue ++ reqs }

/-- The same for every pool that has failed or rebuilding members, when the module has booted (02 R65). -/
def precomputeAll (s : State) : State :=
  (poolIds s).foldl (fun s l =>
    if (usedSlots l s).any (fun n => let st := (slotRec l n s).st; st == .failed || st == .rebuilding) then precompute l s
    else s) s

/-- A Reservation Conflict at a member (10 R365): the pool is DETACHED, its operations stop; a JNL that waits gets
DS 2 with no entry open (R283, R369). -/
def conflictPool (p : Nat) (s : State) : State :=
  if s.pair.detached.contains p then s
  else
    let s := failPoolTags p { s with pair.detached := nins s.pair.detached p, pair.detachedAt := tset s.pair.detachedAt p (opSeconds s),
                                     pair.acquiring := tdel s.pair.acquiring p }
    let waits := s.pipe.ctxs.filterMap (fun e => match opOf e.2.op s with
      | some op => if op.pool % 8 = p && e.2.run == .running then
          (e.2.inflight.find? (fun f => f.1 < 16 && (insOf f.2.word).op == 0x07 && f.2.jnl.isNone)).map (fun f => (e.1, f.1, e.2.op))
        else none
      | none => none)
    let s := waits.foldl (fun s (c, k, _) =>
      let s := match (ctxOf c s).bind (·.jnl) with
        | some i => updCtx c (fun x => { x with jnl := none }) (retireJnl i s)
        | none => s
      updInflight c k (fun f => { f with jnl := some 2 }) s) s
    let mine := ((s.pipe.ops.filter (fun e => e.2.pool % 8 == p)).map (·.1)).filter (fun o => !waits.any (fun w => w.2.2 == o))
    let s := mine.foldl (fun s o => match opOf o s with
      | some op => (match op.cmd with
        | some c => (match cmdOf c s with
          | some cmd => freeOp o (failSecs c (opOffsets op cmd s) 0x0201 s) |> opLeft c
          | none => freeOp o s)
        | none => freeOp o s)
      | none => s) s
    raiseFree 0x185 0x3F (recEvent 0x185 ((Config.freeWord s.free).toNat % 65536) p [] (nextFree s))

/-! ## Completions (08 R306 to R308, 04 R140 to R142) -/

/-- The operation that a member command serves. -/
def ownerOp (o : MOwner) (s : State) : Option Op :=
  let c? := match o with
    | .rd c _ _ _ _ => some c
    | .rdTag c _ _ _ _ _ => some c
    | .wr c _ _ _ _ _ _ => some c
    | .rmwRd c _ _ _ _ _ => some c
    | .rmwWr c _ _ _ => some c
    | _ => none
  (c?.bind (fun c => ctxOf c s)).bind (fun x => opOf x.op s)

/-- A command of a position ended. -/
def jobLess (c k pos : Nat) (good : Bool) (s : State) : State :=
  updJob c k pos (fun j => { j with left := j.left - 1, fail := j.fail || !good }) s

/-- Whether an instruction still takes a position's data: it is in flight and was not reported late (03 R95). -/
def takesData (c k pos : Nat) (s : State) : Bool :=
  match inflightOf c k s with
  | some i => !(tgetD i.jobs pos {}).late
  | none => false

/-- The handle that an instruction in flight fills. -/
def fillsHandle (c k : Nat) (s : State) : Nat := ((inflightOf c k s).bind (·.writes)).getD 0

/-- Sectors that a READ may still fill. -/
def mayFill (c k pos i : Nat) (s : State) : Bool :=
  match ctxOf c s with
  | none => false
  | some x => match opOf x.op s with
    | none => false
    | some op => k == 16 || fills op (tgetD x.handles (fillsHandle c k s) {}) pos i

/-- Read data and the tags that came with it go into the handle. -/
def putRead (c k pos fr n : Nat) (data : List Byte) (tags : List Word) (meta_ : Bool) (s : State) : State :=
  let h := fillsHandle c k s
  (List.range n).foldl (fun s i =>
    if mayFill c k pos (fr + i) s then
      putHSec c h pos (fr + i) (fun x =>
        { x with data := padTo 4096 (slice data (4096 * i) 4096), bad := false, read := true,
                 tag := if meta_ then tags.getD i 0 else x.tag, tagBad := if meta_ then false else x.tagBad }) s
    else s) s

/-- Tags of a span from its tag page (04 R140, R141). -/
def putTags (c k pos fr n idx group : Nat) (page : List Byte) (s : State) : State :=
  let h := fillsHandle c k s
  let good := tagPageOk page group
  (List.range n).foldl (fun s i =>
    if mayFill c k pos (fr + i) s then
      putHSec c h pos (fr + i) (fun x =>
        { x with tag := BitVec.ofNat 64 (leAt page (8 * (idx + i)) 8), tagBad := !good }) s
    else s) s

/-- Whether the writes of an instruction carry Force Unit Access: MWR.FUA, and every built-in procedure. -/
def jobFua (c k : Nat) (s : State) : Bool :=
  k == 17 || (match inflightOf c k s with
    | some i => (insOf i.word).low
    | none => false)

/-- The source slice that a read of a reshape operation meets (09 R348). -/
def sourceRead (o : MOwner) (op : Op) (s : State) : Option (Nat × Nat) :=
  match o with
  | .rd _ _ pos _ _ => ((sourceRows op s)[pos / 4]?).map (fun x => (x.1, x.2 / 16))
  | .rdTag _ _ pos _ _ _ => ((sourceRows op s)[pos / 4]?).map (fun x => (x.1, x.2 / 16))
  | _ => none

/-- What a member command's error does to its slot (08 R307, 14 R550). -/
def memberError (m : MCmd) (st : MStatus) (op : Option Op) (s : State) : State :=
  let src := portSrc m.port
  let note (s : State) : State :=
    match op with
    | some o =>
      if m.write then s
      else match o.why, sourceRead m.owner o s with
        | .reshape, some (row, sl) => queueCheck (o.pool % 8) row sl s
        | _, _ => queueCheck o.pool o.row o.slice s
    | none => s
  let resv : Bool := match m.owner with
    | .resv .. => true
    | _ => false
  let foreignPool : Bool := match m.slot with
    | some (p, _) => s.led.paired && !owns p s && st != .success && st != .reservationConflict && !resv
    | none => false
  if foreignPool then
    match m.slot with
    | some (p, n) => sendPair (.memberReport p n false) s
    | none => s
  else
  match st, m.slot with
  | .success, _ => s
  | .reservationConflict, some (p, _) =>
    let s := raise src (if m.write then 0x31 else 0x34) m.lba s
    if owns p s then conflictPool p s else s
  | .unrecoveredRead, some (p, n) =>
    if m.write then slotFails p n 0x06 (raise src 0x31 m.lba s)
    else
      let s := note (raise src 0x31 m.lba s)
      let s := updSlot p n (fun r => { r with readErrs := lastDay r.readErrs s ++ [opSeconds s], readErrTotal := sat32 r.readErrTotal 1 }) s
      if 64 ≤ (slotRec p n s).readErrs.length then slotFails p n 0x07 s else s
  | _, some (p, n) =>
    if m.write then slotFails p n 0x06 (raise src 0x31 m.lba s) else raise src 0x34 m.lba s
  | _, none => raise src 0x34 m.lba s

/-! ## Latency (08 R301, R306 to R308) -/

/-- Marks of a slot within its window. -/
def marksNow (r : SlotRec) (s : State) : List Nat :=
  r.marks.filter (fun t => decide (s.now < t + (prof s).suspectWindow * 1000000))

/-- Command times of a slot within its window. -/
def latNow (r : SlotRec) (s : State) : List (Nat × Nat) :=
  r.lat.filter (fun t => decide (s.now < t.1 + (prof s).suspectWindow * 1000000))

/-- The largest command time of a slot in its window, in ms (08 R329, R330). -/
def maxMs (r : SlotRec) (s : State) : Nat := ((latNow r s).map (·.2)).foldl max 0

/-- Reservation commands that end by an abort, or with the member that had them, from one state to the next (10 R381, R383). -/
def resvLost (was s : State) : State :=
  was.mem.cmds.foldl (fun s e => match e.2.owner with
    | .resv p n => if !e.2.dead && ((tget s.mem.cmds e.1).map (·.dead)).getD true then resvEnd p n false s else s
    | _ => s) s

/-- A command that is outstanding for SUSPECT_LATENCY adds a mark to its slot. -/
def slowMark (tag : Nat) (s : State) : State :=
  match tget s.mem.cmds tag with
  | none => s
  | some m =>
    if m.marked || m.dead then s
    else match m.slot with
      | none => s
      | some (p, n) =>
        let s := timeTo (m.issued + m.suspectMs * 1000) s
        let s := { s with mem.cmds := tset s.mem.cmds tag { m with marked := true } }
        if s.led.paired && !owns p s then s else
        let s := raise (portSrc m.port) 0x33 m.lba s
        let s := updSlot p n (fun r => { r with marks := marksNow r s ++ [s.now], lat := latNow r s ++ [(s.now, m.suspectMs)] }) s
        let s := if (slotRec p n s).st = .online then
            updSlot p n (fun r => { r with suspects := lastDay r.suspects s ++ [opSeconds s] }) (slotTo p n .suspect 0x02 s)
          else s
        if (prof s).suspectCount ≤ (slotRec p n s).marks.length then slotFails p n 0x05 s else s

/-- SLOW_MARK (08 R306). -/
def execSlowMark (tag : Nat) (s : State) : Res := go (slowMark tag s)

/-- FAIL_LATENCY_TIMEOUT (08 R307). -/
def execFailLatencyTimeout (tag : Nat) (s : State) : Res :=
  go (match tget s.mem.cmds tag with
      | none => s
      | some m =>
        if m.dead then s
        else match m.slot with
          | none => s
          | some (p, n) =>
            let s := timeTo (m.issued + m.failMs * 1000) s
            if s.led.paired && !owns p s then match m.owner with
              | .resv .. => resvLost s { s with mem.cmds := tset s.mem.cmds tag { m with dead := true } }
              | _ => sendPair (.memberReport p n true) s
            else resvLost s (slotFails p n 0x04 (raise (portSrc m.port) 0x33 m.lba s)))

/-- A slot's window passes without a new mark (08 R301). -/
def windowExpiry (p n : Nat) (s : State) : State :=
  let r := slotRec p n s
  let last := r.marks.foldl max 0
  let s := timeTo (last + (prof s).suspectWindow * 1000000) s
  let s := updSlot p n (fun r => { r with marks := [] }) s
  if r.st != .suspect || !owns p s then s else slotTo p n .online 0x03 s

/-- SUSPECT_WINDOW_EXPIRY (08 R301). -/
def execSuspectWindowExpiry (pool : Fin 8) (slot : Fin 128) (s : State) : Res := go (windowExpiry pool.val slot.val s)

/-- A slot that holds no cell any more: FAILED becomes ABSENT, RETIRING becomes RETIRED (08 R301, R318). A member that is still
plugged serves no slot then (R303). -/
def slotEmptied (p n : Nat) (s : State) : State :=
  if keepsCells p n s || (slotRec p n s).commitPending then s
  else match (slotRec p n s).st with
    | .failed =>
      let s := updSlot p n (fun r => { r with port := none }) (slotTo p n .absent 0x10 s)
      let s := if rebuildLeft p s = 0 then updPool p (fun x => { x with rebuildTotal := 0 }) s else s
      event 0x0003 p (100 + 2 ^ 31) s
    | .retiring =>
      let s := writeLabel p n true false s
      let s := match (slotRec p n s).port with
        | some q => updMport q (fun m => { m with cls := .retired }) s
        | none => s
      slotTo p n .retired 0x11 s
    | _ => s

/-- The commit of a slot's failure lands (08 R300): held writes go on, the rebuild starts, and the member's label, older than the
record now, is stale (04 R166 row 6). A slot that no cell is homed on is ABSENT at once (08 R301, R318). -/
def failureCommit (p n : Nat) (s : State) : State :=
  let r := slotRec p n s
  if !r.commitPending || poolPending p s then s
  else
    let s := updSlot p n (fun r => { r with commitPending := false, restore := 0, prep := none }) s
    let s := match r.port with
      | some q => if (mport q s).cls == .serving p n then updMport q (fun m => { m with cls := .stale p n }) s else s
      | none => s
    let more (x : PoolRec) : PoolRec := { x with rebuildTotal := x.rebuildTotal + homedOn p n s }
    slotEmptied p n (precompute p (startRebuild p n (updPool p more s)))

/-- SLOT_FAILURE_COMMIT (08 R300). -/
def execSlotFailureCommit (pool : Fin 8) (slot : Fin 128) (s : State) : Res := go (failureCommit pool.val slot.val s)

/-- 1 s after a failure the member's controller is disabled when commands are still outstanding (08 R308). -/
def abortTimeout (q : Nat) (s : State) : State :=
  match portSlot q s with
  | none => s
  | some (p, n) =>
    let r := slotRec p n s
    if r.st != .failed || r.ccCleared || !(s.mem.cmds.any (fun e => e.2.port == q && e.2.dead)) then s
    else
      let s := timeTo (r.failedAt + 1000000) s
      let s := updSlot p n (fun r => { r with ccCleared := true }) s
      emit (.memberCcClear q) { s with mem.cmds := s.mem.cmds.filter (fun e => !(e.2.port == q && e.2.dead)) }

/-- MEMBER_ABORT_TIMEOUT (08 R308). -/
def execMemberAbortTimeout (port : PortNo) (s : State) : Res := ok (abortTimeout port.val s)

/-! ## Links and presence (08 R307, 16 R530) -/

/-- MEMBER_LINK_DOWN (08 R307, 14 R550). -/
def execMemberLinkDown (port : PortNo) (s : State) : Res :=
  let s := updMport port.val (fun p => { p with linkUp := false, downAt := some s.now }) s
  ok (raise (portSrc port.val) 0x34 0 s)

/-- No member group reset waits for a port's link any more (14 R487). -/
def forgetLink (q : Nat) (s : State) : State :=
  { s with fc.resets := s.fc.resets.map (fun e => (e.1, { e.2 with links := e.2.links.filter (· != q) })) }

/-- A port's link is back in L0 (08 R307). -/
def linkUp (q : Nat) (width : BitVec 2) (s : State) : State :=
  forgetLink q (updMport q (fun p => { p with linkUp := true, downAt := none, width := width.toNat }) s)

/-- MEMBER_LINK_RETRAINED (08 R307, 14 R487). -/
def execMemberLinkRetrained (port : PortNo) (width : BitVec 2) (s : State) : Res := go (linkUp port.val width s)

/-- LINK_RETRAIN_TIMEOUT (08 R307). -/
def execLinkRetrainTimeout (port : PortNo) (s : State) : Res :=
  go (match (mport port.val s).downAt with
      | none => s
      | some t =>
        let s := forgetLink port.val (timeTo (t + 1000000) s)
        match portSlot port.val s with
        | some (p, n) => resvLost s (slotFails p n 0x09 s)
        | none => s)

/-- CONTROLLER_FATAL (08 R307). -/
def execControllerFatal (port : PortNo) (s : State) : Res :=
  go (match portSlot port.val s with
      | some (p, n) => resvLost s (slotFails p n 0x08 s)
      | none => s)

/-- A member is gone (08 R307). -/
def removed (q : Nat) (s : State) : State :=
  let sl := portSlot q s
  let s := match sl with
    | some (p, n) => resvLost s (slotFails p n 0x0A s)
    | none => s
  let s := match sl with
    | some (p, n) => updSlot p n (fun r => { r with port := none }) s
    | none => s
  let s := resvLost s (forgetLink q { s with mem.cmds := s.mem.cmds.filter (fun e => e.2.port != q) })
  updMport q (fun p => { p with cls := .absent, present := false, agree := 0, linkUp := false, downAt := none, id := none, label := none }) s

/-- MEMBER_REMOVED (08 R307). -/
def execMemberRemoved (port : PortNo) (s : State) : Res := go (removed port.val s)

/-- What stands on a port is gone: its member, or the switch with every member behind it. -/
def portEmptied (q : Nat) (s : State) : State :=
  (q :: ((s.mem.ports.map (·.1)).filter (fun k => k != q && k % 128 == q))).foldl (fun s k => removed k s) s

/-- The reset bit of a port (16 R530): 1 releases its PERST#, once its group's supplies have been up for 100 ms and while the
group is neither gated nor fenced. -/
def resetBit (q : Nat) (s : State) : Bool :=
  let g := portGroup q
  s.dev.groupAwake.getLsbD g && !s.dev.groupFence.getLsbD g && decide (tgetD s.dev.groupUpAt g 0 + 100000 ≤ s.now)

/-- The reset bits of every port. -/
def resetBits (s : State) : BitVec 128 :=
  (List.range 128).foldl (fun v q => if resetBit q s then v ||| BitVec.ofNat 128 (2 ^ q) else v) 0

/-- One sideband frame (16 R530): a port's presence changes when 10 consecutive frames agree, where a 0 means present, and
the frame drives the reset bits. -/
def sidebandFrame (f : BitVec 128) (s : State) : State :=
  let s := timeTo (s.mem.lastFrame + 100) s
  let s := { s with mem.released := resetBits s }
  (List.range 128).foldl (fun s q =>
    let here := !f.getLsbD q
    let p := mport q s
    if here == p.present then (if p.agree = 0 then s else updMport q (fun p => { p with agree := 0 }) s)
    else if p.agree + 1 < 10 then updMport q (fun p => { p with agree := p.agree + 1 }) s
    else if here then updMport q (fun p => { p with present := true, agree := 0, cls := .unclassified }) s
    else portEmptied q s) { s with mem.lastFrame := s.now }

/-- MEMBER_SIDEBAND_FRAME (16 R530); none runs while the always-on domain alone is powered, or nothing is. -/
def execMemberSidebandFrame (presence : BitVec 128) (s : State) : Res :=
  if s.pow.ph = .off ∨ s.pow.ph = .tripped ∨ s.pow.ph = .standby ∨ s.pow.ph = .coldStopped then ok s
  else go (sidebandFrame presence s)

/-! ## Discovery (04 R166, R167; 08 R303, R304) -/

/-- Metadata bytes that a pool FORMAT has. -/
def metaOf (fmt : Nat) : Nat := if fmt = 2 then 0 else 8

/-- Whether a namespace is one that a pool takes (04 R139; 10 R364): its metadata size is the pool FORMAT's, end-to-end protection is
disabled, and it supports reservations where the pool is a pair's. -/
def fits (p : Nat) (id : MemberId) (s : State) : Bool :=
  id.metaSize == metaOf (formatOf p s) && !id.protection && (!pairPool p s || id.reservations)

/-- Whether the ledger has no LABEL_GEN record for a pool of which no slot serves, or the module restores it from anchors: labels are taken whatever their
LABEL_GEN (04 R169). -/
def takesLabels (p : Nat) (s : State) : Bool :=
  s.jnl.restorePools.contains p || (poolRec p s).slots.all (fun e => e.2.labelGen == 0 && e.2.st == .absent)

/-- Classification by R166's rows, in order; a namespace with end-to-end protection (R139), and one without reservations in a pair
pool (10 R364), have reason FORMAT (log entry 78). -/
def classify (q : Nat) (id : MemberId) (s : State) : PortCls :=
  let copies := [id.labelA, id.labelB].filter labelValid
  let badFmt := id.lbaSize != 4096 || !(id.metaSize == 0 || id.metaSize == 8) || id.protection ||
    copies.any (fun b => metaOf (byteAt b 31) != id.metaSize)
  match memberLabel id with
  | none => .foreign (if badFmt then 1 else 2)
  | some b =>
    let p := byteAt b 24
    let n := byteAt b 25
    let home := leAt b 16 4 % 2 ^ 18
    let peer := leAt b 20 4
    let newest := takesLabels p s && decide ((slotRec p n s).labelGen < labelGen b)
    if badFmt then .foreign 1
    else if !(home == s.led.cohort || (bitN peer 31 && peer % 2 ^ 18 == s.led.cohort)) then .foreign 3
    else if !(p < 8 && poolValid p s && (poolEnt p s).serial == leAt b 32 8) then .foreign 4
    else if pairPool p s && !id.reservations then .foreign 1
    else if bitN (leAt b 6 2) 0 then .retired
    else if labelGen b < (slotRec p n s).labelGen then .stale p n
    else if !newest && s.mem.ports.any (fun e => e.1 != q && e.2.cls == .serving p n &&
        (e.2.label.map labelGen) == some (slotRec p n s).labelGen) then .foreign 5
    else .serving p n

/-- Whether a port is the expected one of a slot that waits for a replacement (08 R303). -/
def offersAt (q : Nat) (s : State) : Bool :=
  (poolIds s).any (fun p => (usedSlots p s).any (fun n => expectedPort p n s == q &&
    (match (slotRec p n s).st with | .failed | .absent | .retired => true | _ => false)))

/-- Every used slot of a pool is found. -/
def allFound (p : Nat) (s : State) : Bool := (heldSlots p s).all (fun n => (slotRec p n s).st != .absent)

/-- The discovery window closes once every used slot of every pool is found (08 R304). -/
def closeIfFound (s : State) : State :=
  if (poolIds s).all (fun p => allFound p s) then
    { s with mem.pools := s.mem.pools.map (fun e => (e.1, { e.2 with discovery := false })), mem.discoveryAt := none }
  else s

/-- Whether a pool that an older module ran may be served: some label of it names the image that runs (04 R169). -/
def labelsMatch (p : Nat) (s : State) : Bool :=
  s.mem.ports.any (fun e => e.2.present && (match e.2.label with
    | some b => byteAt b 24 == p && leAt b 32 8 == (poolEnt p s).serial && slice b 48 32 == padTo 32 (tab s).hash
    | none => false))

/-- The LABEL_GEN on a port's member. -/
def portGen (q : Nat) (s : State) : Nat := ((mport q s).label.map labelGen).getD 0

/-- A member with a greater LABEL_GEN takes a slot from the one found before it, whose label is stale then (04 R169). -/
def yieldSlot (q p n : Nat) (s : State) : State :=
  match (slotRec p n s).port with
  | some old =>
    if old = q then s
    else updSlot p n (fun r => { r with port := some q }) (failPort old (updMport old (fun m => { m with cls := .stale p n }) s))
  | none => s

/-- A member of a pool that an older module ran is found after the image: the pool's members are discovered, and its journal and regions
come from the anchors (04 R169, 07 R293; log entry 17). -/
def olderFound (p : Nat) (s : State) : State :=
  if s.jnl.restorePools.contains p then s
  else updPool p (fun x => { x with discovery := true })
    { s with jnl.restorePools := nins s.jnl.restorePools p, mem.discoveryAt := some (s.mem.discoveryAt.getD s.now) }

/-- An own member is served at its slot (04 R167, 08 R301). Where the ledger has no record of the pool's labels, the greatest
LABEL_GEN found becomes the slot's, and nothing is served before the image runs that the labels name (04 R169). -/
def serveAt (q p n : Nat) (s : State) : State :=
  let fresh := takesLabels p s
  if fresh && !labelsMatch p s then s
  else
  let s := if fresh && owns p s then
      updSlot p n (fun x => { x with labelGen := max x.labelGen (portGen q s) }) (yieldSlot q p n (olderFound p s)) else s
  let r := slotRec p n s
  let s := if r.port = some q then s else joinMember p n q (owns p s) s
  if !owns p s then updSlot p n (fun x => { x with port := some q }) s
  else match r.st with
  | .absent =>
    if discovering p s then
      let s := updSlot p n (fun x => { x with port := some q, resume := .online }) s
      let s := match r.resume with
        | .rebuilding =>
          let walk (x : PoolRec) : PoolRec := if r.prep.isSome then x
            else { x with walks := tset x.walks n { next := r.restore, lastCommit := s.now } }
          precompute p (slotTo p n .rebuilding 0x01 (updPool p walk s))
        | .retiring => slotTo p n .retiring 0x01 s
        | _ => slotTo p n .online 0x01 s
      let s := match r.prep with
        | some creation => prepare p n creation s
        | none => s
      closeIfFound (readHeaders q p n s)
    else updSlot p n (fun x => { x with port := some q }) s
  | _ => if r.port.isNone then updSlot p n (fun x => { x with port := some q }) s else s

/-- A pool is served from now on: members found while it was not are served at their slots. -/
def serveOwn (p : Nat) (s : State) : State :=
  let s := { s with pair.detached := s.pair.detached.filter (· != p) }
  ((poolRec p s).slots.filter (fun e => e.2.st == .absent && e.2.port.isSome)).foldl (fun s e => match e.2.port with
    | some q => serveAt q p e.1 s
    | none => s) s

/-- Members that matched no pool before an image came are classified again, where the image made a pool that an older
module ran, and members of such a pool that waited for its image are served (04 R166, R169; log entry 17). -/
def meetMembers (s : State) : State :=
  if s.jnl.restorePools.isEmpty then s
  else s.mem.ports.foldl (fun s e => match e.2.id with
    | none => s
    | some id =>
      if !e.2.present || !(e.2.cls == .foreign 4 || (match e.2.cls with | .serving _ _ => true | _ => false)) then s
      else match classify e.1 id s with
        | .serving p n =>
          if s.jnl.restorePools.contains p && (slotRec p n s).port != some e.1 then
            serveAt e.1 p n (updMport e.1 (fun m => { m with cls := .serving p n }) s) else s
        | _ => s) s

/-- A member appears at a port: its label classifies it. -/
def inserted (q : Nat) (id : MemberId) (s : State) : State :=
  let cls := classify q id s
  let s := updMport q (fun p => { p with present := true, agree := 0, linkUp := true, downAt := none, id := some id,
                                         label := memberLabel id, width := id.width.toNat, cls := cls, lastUse := s.now }) s
  match cls with
  | .serving p n => serveAt q p n s
  | .foreign why => if why = 2 && !offersAt q s then s else event 0x0002 q why s
  | _ => s

/-- LBAs 0 to 15 of a member were read again: its label may be another now, written by the peer (04 R164, R167). -/
def labelsRead (q : Nat) (data : List Byte) (s : State) : State :=
  match (mport q s).id with
  | none => s
  | some i =>
    let fmt := if 16 * 4104 ≤ data.length then 1 else 0
    let d := blockData fmt 16 data
    let id : MemberId := { i with labelA := slice d 0 4096, labelB := slice d 32768 4096 }
    match (mport q s).cls with
    | .serving _ _ => s
    | _ =>
      let cls := classify q id s
      let s := updMport q (fun p => { p with id := some id, label := memberLabel id, cls := cls }) s
      match cls with
      | .serving p n => serveAt q p n s
      | _ => s

/-- Where a slot of a pool that the peer owns serves without a member found here, the labels of the members that this module does
not serve are read again (04 R167, R168; 10 R365). -/
def seekMembers (p : Nat) (s : State) : State :=
  if owns p s || !(poolRec p s).slots.any (fun e => e.2.port.isNone && (match e.2.st with
      | .online | .suspect | .rebuilding | .retiring => true
      | _ => false)) then s
  else (s.mem.ports.filter (fun e => e.2.present && e.2.id.isSome && (match e.2.cls with
      | .serving _ _ => false
      | _ => true))).foldl (fun s e => sendMember e.1 none .labelRd (.read 0 16) s) s

/-- MEMBER_INSERTED (04 R166). -/
def execMemberInserted (port : PortNo) (id : MemberId) (s : State) : Res := go (inserted port.val id s)

/-- The discovery window closes (08 R304): unfound slots with a cell homed on them fail. -/
def closeWindow (s : State) : State :=
  match s.mem.discoveryAt with
  | none => s
  | some t =>
    let s := timeTo (t + 60000000) s
    let s := { s with mem.discoveryAt := none }
    (poolIds s).foldl (fun s p =>
      if !discovering p s then s
      else
        let s := (heldSlots p s).foldl (fun s n =>
          if (slotRec p n s).st = .absent && (homedOn p n s != 0 || !(usedSlots p s).contains n) && owns p s then
            updSlot p n (fun r => { r with commitPending := true, commitSince := s.now, failedAt := s.now, labelGen := r.labelGen + 1 })
              (slotTo p n .failed 0x0B s)
          else s) s
        updPool p (fun x => { x with discovery := false }) s) s

/-- DISCOVERY_WINDOW_CLOSE (08 R304). -/
def execDiscoveryWindowClose (s : State) : Res := go (closeWindow s)

/-! ## A member command's end (08 R306) -/

/-- An adoption's labels are on the member: its command completes, and the data area is prepared (08 R324). -/
def adopted (p n : Nat) (s : State) : State :=
  match (slotRec p n s).adopting with
  | none => s
  | some c =>
    if labelOut p n s then s
    else prepare p n false (finishCmd c 0 0 (updSlot p n (fun r => { r with adopting := none }) s))

/-- A member command's end reaches the work that sent it. A tag page that fails its own check when it is read for a merge is
merged as it was read, and gets its group number and CRC anew (log entry 80). -/
def ownerEnd (m : MCmd) (good : Bool) (data : List Byte) (tags : List Word) (s : State) : State :=
  let fmt := match m.slot with
    | some (p, _) => formatOf p s
    | none => 0
  let mayTag : Bool := match m.slot with
    | some (p, _) => owns p s
    | none => true
  let group (lba : Nat) : Nat := (lba - (match m.slot with | some (p, _) => (poolEnt p s).dataBase | none => 0)) / 512
  match m.owner with
  | .rd c k pos fr n =>
    let s := if good && takesData c k pos s then putRead c k pos fr n (blockData fmt n data) (blockTags fmt n data tags) (fmt != 2) s
      else s
    jobLess c k pos good s
  | .rdTag c k pos fr n idx =>
    let s := if good && takesData c k pos s then putTags c k pos fr n idx (group m.lba) data s else s
    jobLess c k pos good s
  | .wr c k pos _ _ (some (lba, idx)) ts =>
    if good && mayTag then
      { s with mem.tagQueue := s.mem.tagQueue ++ [{ port := m.port, lba := lba, ctx := c, slot := k, pos := pos, idx := idx, tags := ts }] }
    else jobLess c k pos good s
  | .wr c k pos _ _ none _ => jobLess c k pos good s
  | .rmwRd c k pos lba idx ts =>
    if good && mayTag then
      sendMember m.port m.slot (.rmwWr c k pos lba)
        (.write lba 1 (jobFua c k s) (mergeTags (padTo 4096 data) (group lba) idx ts) []) s
    else jobLess c k pos good s
  | .rmwWr c k pos _ => jobLess c k pos good s
  | .premark id i => premarkEnd id i m.lba good s
  | .ckpt i => ckptDone i good s
  | .ckptHdr a => if good then noteHeader m a (blockData fmt m.count data) s else s
  | .ckptRead a off => if good then notePages m a off (blockData fmt m.count data) s else s
  | .label p n gen page => if good then adopted p n (labelWritten m.port m.lba p n gen page s) else s
  | .labelRd => if good then labelsRead m.port data s else s
  | .resv p n => resvEnd p n good s
  | _ => s

/-- A member command completes. -/
def memberDone (tag : Nat) (st : MStatus) (data : List Byte) (tags : List Word) (s : State) : State :=
  match tget s.mem.cmds tag with
  | none => s
  | some m =>
    let s := { s with mem.cmds := tdel s.mem.cmds tag }
    let s := updMport m.port (fun p => { p with lastUse := s.now }) s
    if m.dead then s
    else
      let ms := (s.now - m.issued) / 1000
      let s := match m.slot with
        | some (p, n) => updSlot p n (fun r => { r with lat := latNow r s ++ [(s.now, ms)] }) s
        | none => s
      let op := ownerOp m.owner s
      match m.owner with
      | .resv .. => ownerEnd m (st == .success) data tags (memberError m st op s)
      | _ => memberError m st op (ownerEnd m (st == .success) data tags s)

/-- MEMBER_COMMAND_COMPLETION (08 R306). -/
def execMemberCommandCompletion (tag : Nat) (st : MStatus) (data : List Byte) (tags : List Word) (s : State) : Res :=
  go (memberDone tag st data tags s)

/-! ## Preparation, moves (04 R143, R149, R150; 08 R318, R324 to R326) -/

/-- A member's data area is prepared: an adopted slot's restore walk starts (08 R324). -/
def prepDone (q : Nat) (s : State) : State :=
  match portSlot q s with
  | none => s
  | some (p, n) =>
    match (slotRec p n s).prep with
    | none => s
    | some creation =>
      if (slotRec p n s).st == .failed || (slotRec p n s).adopting.isSome || !owns p s then s else
      let s := poolCommit p (updSlot p n (fun r => { r with prep := none }) s)
      if creation || (slotRec p n s).st != .rebuilding then s
      else updPool p (fun x => { x with walks := tset x.walks n { next := (slotRec p n s).restore, lastCommit := s.now } }) s

/-- MEMBER_PREP_DONE (04 R143, 08 R305). -/
def execMemberPrepDone (port : PortNo) (s : State) : Res := go (prepDone port.val s)

/-- A move settles (04 R146, R150); the entry of a cell that is back at its roll home is freed. A cell that settled on a slot in
RETIRING moves on, and one without a TO is recorded (R161); one whose roll home was restored meanwhile goes back there (08 R326). -/
def settleCell (p e pos : Nat) (r : Reloc) (s : State) : State :=
  let home := r.toSlot == rollSlot p e pos s && r.toB == pos
  let before := rebuildPercent p s
  let s := if home then updPool p (fun x => { x with relocs := tdel x.relocs (cellKey e pos) }) s
           else setReloc p e pos { r with settled := true, active := false, window := [], remark := [] } s
  let after := rebuildPercent p s
  let s := if r.reason = 0 && before / 10 != after / 10 && after != 100 then event 0x0003 p after s else s
  let s := if r.back && !home then copyBack p e pos s
           else if (slotRec p r.toSlot s).st = .retiring then
             let (ok, s) := moveCell p e pos 1 s
             if ok then s else noteShort p r.toSlot 1 s
           else s
  slotEmptied p r.fromSlot s

/-- Whether a row may lie below a boundary that a joint commit brings: no operation works on it (log entry 84). -/
def rowQuiet (p row : Nat) (s : State) : Bool := !jointPool p s || !rowBusy (nextOpId s) p row s

/-- The first band at or above a boundary whose row of the cell is not yet in the window. -/
def cellFront : Nat → Nat → Nat → Reloc → Nat → State → Nat
  | 0, _, _, _, b, _ => b
  | k + 1, p, e, r, b, s =>
    match nextBandFor p e b s with
    | none => (poolEnt p s).bands
    | some x => if r.window.contains (rowAt p e x s) && rowQuiet p (rowAt p e x s) s then cellFront k p e r (x + 1) s else x

/-- ACCEPTED sectors of a position are freed once it has a home, on which its zero data stands (08 R320). -/
def freeAccepted (l row pos : Nat) (s : State) : State :=
  let mine := s.mem.lostE.filter (fun e => e.pool == l && e.row == row && e.accepted && e.positions.getLsbD pos)
  if mine.isEmpty then s
  else shareLost l (mine.foldl (fun s e => (List.range e.count).foldl (fun s i => dropLostE l row pos (16 * e.slice + e.first + i) s) s) s)

/-- A cell's BOUNDARY is at a band (04 R149): its strips below are the TO's, and past the last band the move settles (R150). -/
def cellTo (p e pos b : Nat) (s : State) : State :=
  match relocOf p e pos s with
  | none => s
  | some r =>
    let done (row : Nat) : Bool := decide (row / (poolEnt p s).q < b)
    let r' := { r with boundary := b, window := r.window.filter (fun row => !done row), lastCommit := s.now }
    let s := (r.window.filter done).foldl (fun s row => freeAccepted p row pos s) (setReloc p e pos r' s)
    if (poolEnt p s).bands ≤ b || (nextBandFor p e b s).isNone then poolCommit p (settleCell p e pos r' s) else s

/-- A cell's BOUNDARY commits (04 R149): with 256 rows in the window at once, else 1 s after the last commit. -/
def commitCell (p e pos : Nat) (s : State) : State :=
  match relocOf p e pos s with
  | none => s
  | some r =>
    if r.settled || r.stopped || r.paused || r.full || !r.remark.isEmpty || commitsRefused s || !works p s then s
    else
      let s := if 256 ≤ r.window.length then s else timeTo (r.lastCommit + 1000000) s
      let b := cellFront 257 p e r r.boundary s
      futureCommit p (setReloc p e pos { r with boundary := b }) (cellTo p e pos b) s

/-- The first band at or above a restore boundary with a row not yet restored. -/
def walkFront : Nat → Nat → Nat → Walk → Nat → State → Nat
  | 0, _, _, _, b, _ => b
  | k + 1, p, n, w, b, s =>
    if w.next ≤ b then b
    else if (walkRowsOf p n b s).all (fun x => w.window.contains x.1 && rowQuiet p x.1 s) then walkFront k p n w (b + 1) s else b

/-- A slot's restore boundary is at a band (08 R325); past the last band the slot is ONLINE and copy-back starts (R326). -/
def walkTo (p n b : Nat) (s : State) : State :=
  match tget (poolRec p s).walks n with
  | none => s
  | some w =>
    let done (row : Nat) : Bool := decide (row / (poolEnt p s).q < b)
    let w' : Walk := { w with window := w.window.filter (fun row => !done row), lastCommit := s.now }
    let s := updSlot p n (fun r => { r with restore := b }) (updPool p (fun x => { x with walks := tset x.walks n w' }) s)
    let s := (w.window.filter done).foldl (fun s row =>
      ((walkRowsOf p n (row / (poolEnt p s).q) s).filter (fun x => x.1 == row)).foldl (fun s x => freeAccepted p row x.2 s) s) s
    if (poolEnt p s).bands ≤ b then
      startCopyBack p n (slotTo p n .online 0x13 (updPool p (fun x => { x with walks := tdel x.walks n }) s))
    else s

/-- A restore boundary commits (08 R325). -/
def commitWalk (p n : Nat) (s : State) : State :=
  match tget (poolRec p s).walks n with
  | none => s
  | some w =>
    if !w.remark.isEmpty || commitsRefused s || (slotRec p n s).st != .rebuilding || !works p s then s
    else
      let s := if 256 ≤ w.window.length then s else timeTo (w.lastCommit + 1000000) s
      let b := walkFront (w.next + 1) p n w (slotRec p n s).restore s
      futureCommit p (updSlot p n (fun r => { r with restore := b })) (walkTo p n b) s

/-- BOUNDARY_COMMIT (04 R149; 08 R325). -/
def execBoundaryCommit (m : MoveRef) (s : State) : Res :=
  match m with
  | .cell p e pos => go (commitCell p.val e.val pos.val s)
  | .restore p n => go (commitWalk p.val n.val s)

/-! ## Health (04 R157 to R161) -/

/-- Predicted end of life in operating hours (04 R160), by the rate over the last 720 hours. -/
def predictEol (hist : List (Nat × Nat)) (pct now : Nat) : Nat :=
  match hist with
  | [] => 0xFFFFFFFF
  | (t, p) :: _ =>
    if pct ≤ p || now ≤ t then 0xFFFFFFFF
    else if 100 ≤ pct then 0
    else min 0xFFFFFFFF ((100 - pct) * (now - t) / (pct - p) / 3600)

/-- A slot's percentage used changes (R160): MEMBER_WEAR when it rises, and the retirement triggers of R161. -/
def noteWear (p n : Nat) (s : State) : State :=
  let r := slotRec p n s
  let pct := max r.smartPct r.endurPct
  let t := opSeconds s
  let hist := (r.pctHist.filter (fun h => decide (t ≤ h.1 + 2592000))) ++ [(t, pct)]
  let s := updSlot p n (fun x => { x with pctUsed := pct, pctHist := hist, eol := predictEol hist pct t }) s
  let s := if r.pctUsed < pct then event 0x000F (n + p * 128) pct s else s
  let due := if (prof s).retirePctUsed ≤ pct then some 0x0D
             else if (slotRec p n s).critWarn.getLsbD 2 || (slotRec p n s).critWarn.getLsbD 3 then some 0x0E else none
  match due with
  | some why =>
    if (r.st == .online || r.st == .suspect) && owns p s then
      slotEmptied p n (startRetire p n (slotTo p n .retiring why s))
    else s
  | none => s

/-- The member of a port, when its health is read (R160). -/
def healthSlot (q : Nat) (s : State) : Option (Nat × Nat) :=
  (portSlot q s).bind (fun (p, n) => match (slotRec p n s).st with
    | .online | .suspect | .retiring => some (p, n)
    | _ => none)

/-- A log of a member is read: the command and its answer are one event (log entry 79). -/
def readLog (q : Nat) (r : MReq) (s : State) : State :=
  if s.pair.farewell then s else emitMember q s.mem.nextTag r { s with mem.nextTag := s.mem.nextTag + 1 }

/-- HEALTH_LOG_READ (04 R160): every 600 operating seconds. -/
def execHealthLogRead (port : PortNo) (log : HealthLog) (s : State) : Res :=
  go (match healthSlot port.val s with
      | none => s
      | some (p, n) =>
        let lim := tgetD (tab s).limits p {}
        let s := readLog port.val .health (timeToOp ((slotRec p n s).lastHealth + 600) s)
        let s := updSlot p n (fun r =>
          let hot := if log.warnK ≤ log.tempK then r.hotReads + 1 else 0
          { r with smartPct := log.pctUsed, critWarn := log.critWarning, tempK := log.tempK, hotReads := hot,
                   hot := decide (lim.hotReads ≤ hot), lastHealth := opSeconds s }) s
        noteWear p n s)

/-- ENDURANCE_LOG_READ (04 R160): every 24 operating hours, of a member that reports endurance groups. -/
def execEnduranceLogRead (port : PortNo) (pctUsed : Nat) (s : State) : Res :=
  go (match healthSlot port.val s, (mport port.val s).id.any (·.endurance) with
      | some (p, n), true =>
        let s := readLog port.val .endurance (timeToOp ((slotRec p n s).lastEndur + 86400) s)
        noteWear p n (updSlot p n (fun r => { r with endurPct := pctUsed, lastEndur := opSeconds s }) s)
      | _, _ => s)

end Sys2Proof.Machine
end

