-- ==== Sys2Proof/Machine/PoolRows.lean ====
section
/-! DEFINITION. Sys2Proof/Machine/PoolRows.lean: pool status and the admin commands for slots (08 R322 to R330), patrol
passes and the reshape walk (09). -/

namespace Sys2Proof.Machine

/-! ## Pool status (08 R329, R330) -/

/-- Slots of a pool in one of some states. -/
def countSlots (p : Nat) (f : SlotSt → Bool) (s : State) : Nat :=
  ((poolRec p s).slots.filter (fun e => f e.2.st)).length

/-- Whether a slot serves its pool. -/
def SlotSt.serving : SlotSt → Bool
  | .online => true | .suspect => true | .rebuilding => true | .retiring => true
  | .absent => false | .failed => false | .retired => false

/-- Erased positions of a roll entry by the present homes of its cells, and by a slot that is to fail. -/
def entryErased (p e : Nat) (plus : Option Nat) (s : State) : Nat :=
  ((List.range (geomOf p s).w).filter (fun q =>
    let slot := (presentHome p e q s).1
    (match (slotRec p slot s).st with
     | .failed => true | .absent => true | .rebuilding => (relocOf p e q s).isNone
     | _ => false) || plus == some slot)).length

/-- Least remaining redundancy of a pool; 7 while any row exceeds m. -/
def minRedundancy (p : Nat) (s : State) : Nat :=
  let m := (geomOf p s).m
  let worst := ((List.range (rollEntries p s)).map (fun e => entryErased p e none s)).foldl max 0
  if m < worst then 7 else m - worst

/-- POOL_STATE (R330). -/
def poolState (p : Nat) (s : State) : Nat :=
  let r := poolRec p s
  countSlots p SlotSt.serving s % 256 + countSlots p (· == .failed) s % 256 * 2 ^ 8 +
  (if poolValid p s then minRedundancy p s else 0) * 2 ^ 16 + b2n (r.slots.any (fun e => e.2.commitPending)) * 2 ^ 19 +
  b2n r.sealPaused * 2 ^ 20 + b2n r.homeless * 2 ^ 21 + b2n (formatting p s) * 2 ^ 22 + b2n r.discovery * 2 ^ 23 +
  b2n (poolValid p s) * 2 ^ 24

/-- Cells that wait to move: those that move or are to be restored next, and are not in motion. -/
def cellsWaiting (p : Nat) (s : State) : Nat :=
  ((poolRec p s).relocs.filter (fun e => !e.2.settled && (e.2.stopped || e.2.paused || e.2.full))).length +
  ((movingCells p s).length - (cellsInMotion p s).length)

/-- Port of a slot, or its expected port while it has none. -/
def slotPort (p n : Nat) (s : State) : Nat := ((slotRec p n s).port).getD (expectedPort p n s)

/-- Width code of a slot: its descriptor's. -/
def slotWidth (p n : Nat) (s : State) : Nat := ((poolEnt p s).members.getD n 0).toNat / 128 % 4

/-- A slot record of POOL_STATUS. -/
def slotBytes (p n : Nat) (s : State) : List Byte :=
  let r := slotRec p n s
  padTo 64 (leBytes 1 r.st.code ++ leBytes 1 r.reason ++ leBytes 1 (slotPort p n s % 128) ++ leBytes 1 (slotWidth p n s) ++
    leBytes 1 (min r.pctUsed 255) ++ leBytes 1 r.critWarn.toNat ++ leBytes 2 r.tempK ++ leBytes 8 r.labelGen ++
    leBytes 4 r.eol ++ leBytes 4 (min (maxMs r s) 0xFFFFFFFF) ++ leBytes 2 (marksNow r s).length ++ leBytes 2 (lastDay r.readErrs s).length ++
    leBytes 4 (min r.tagFailTotal 0xFFFFFFFF) ++ leBytes 8 r.restore ++ leBytes 4 (homedOn p n s) ++
    leBytes 4 (relocatedOnto p n s))

/-- POOL_STATUS's data. -/
def poolBytes (p : Nat) (s : State) : List Byte :=
  let e := poolEnt p s
  padTo 64 (leBytes 1 p ++ leBytes 1 e.n ++ leBytes 1 e.fallow ++ leBytes 1 e.geom ++ leBytes 4 (poolState p s) ++
    leBytes 8 (rowsOf p s) ++ leBytes 4 (cellsWaiting p s) ++ leBytes 4 (cellsInMotion p s).length ++
    leBytes 4 (leastFallow p s) ++ leBytes 4 ((s.mem.lostE.filter (fun x => x.pool % 8 == p)).length)) ++
  (List.range e.n).flatMap (fun n => slotBytes p n s)

/-- POOL_STATUS (R329). -/
def execPoolStatus (s : State) : Res :=
  ok (asAdmin 0x90 (fun c x s =>
    let p := arg x 40 1
    if !(p < 8 && poolValid p s) then adminFail c 0x0002 0x0201 s
    else adminOk c (adminOut x (poolBytes p s) s)) s)

/-- A lost-extent record's 32 bytes (R319). -/
def lostEBytes (e : LostE) : List Byte :=
  let b := leBytes 6 e.row ++ leBytes 1 (e.pool % 8) ++ leBytes 1 e.slice ++ leBytes 8 e.positions.toNat ++
    leBytes 1 (e.first + 16 * (e.count - 1)) ++ leBytes 1 e.reason ++ leBytes 2 (e.volume % 4096 + b2n e.accepted * 2 ^ 15) ++
    leBytes 4 e.opSeconds ++ leBytes 4 0
  b ++ leBytes 4 (crc32c b).toNat

/-- LOST_LIST_READ (R322). -/
def execLostListRead (s : State) : Res :=
  ok (asAdmin 0x91 (fun c x s =>
    let p := arg x 40 1
    let fst := arg x 44 4
    if !(p < 8 && poolValid p s) then adminFail c 0x0002 0x0201 s
    else
      let all := s.mem.lostE.filter (fun e => e.pool % 8 == p)
      let n := min 32767 ((bufLen x - 16) / 32)
      let got := (all.drop fst).take n
      adminOk c (adminOut x (leBytes 4 all.length ++ leBytes 4 fst ++ leBytes 4 got.length ++ leBytes 4 0 ++
        got.flatMap lostEBytes) s)) s)

/-! ## Slots (08 R323, R324, R327) -/

/-- Checks 1 and 2 of R323. -/
def slotChecks (p n : Nat) (s : State) : Option (BitVec 16 × Nat) :=
  if !(p < 8 && poolValid p s && (usedSlots p s).contains n) then some (0x0002, 0x0201)
  else if !owns p s then some (0x0201, 0x0206)
  else none

/-- Whether a port's member may be adopted into a pool (check 4); one whose namespace the pool does not take counts as FORMAT (log
entry 78). -/
def adoptable (q p : Nat) (s : State) : Bool :=
  (mport q s).id.any (fun i => fits p i s) &&
  (match (mport q s).cls with
   | .foreign why => why != 1 && why != 5
   | .stale _ _ => true
   | _ => false)

/-- Data pages of a data area (04 R126). -/
def dataPages (p len : Nat) (s : State) : Nat :=
  if formatOf p s = 2 then len / 512 * 511 + (len % 512 - 1) else len

/-- The first failing check of R323. -/
def adoptBad (q p n : Nat) (s : State) : Option (BitVec 16 × Nat) :=
  match slotChecks p n s with
  | some x => some x
  | none =>
    let r := slotRec p n s
    let id := (mport q s).id
    let free := r.st == .failed || r.st == .retired || (r.st == .absent && homedOn p n s == 0)
    let e := poolEnt p s
    let g := geomOf p s
    if !free then some (0x0005, 0x0202)
    else if !adoptable q p s then some (0x0005, 0x0203)
    else if (id.map (·.width.toNat)).getD 0 != slotWidth p n s || portGroup q != portGroup (expectedPort p n s) then some (0x0002, 0x0205)
    else if dataPages p ((id.map (·.capacity)).getD 0 - e.dataBase) s < e.bands * g.w * g.ss then some (0x0002, 0x0204)
    else if (poolRec p s).slots.any (fun x => x.1 != n && x.2.st == .rebuilding) then some (0x0006, 0x0207)
    else none

/-- The port that MEMBER_ADOPT means: the one that it names, with the downstream index of the slot's descriptor (log entry
76). -/
def adoptPort (port p n : Nat) (s : State) : Nat := port + expectedPort p n s / 128 * 128

/-- The first failing check of PATROL_START (09 R336). -/
def patrolBad (p : Nat) (s : State) : Option (BitVec 16 × Nat) :=
  let st := (poolRec p s).patrol.st
  if !(p < 8 && poolValid p s) then some (0x0002, 0x0901)
  else if !owns p s then some (0x0201, 0x0902)
  else if (poolRec p s).reshape.st = 1 || (poolRec p s).reshape.st = 2 then some (0x0006, 0x0903)
  else if st = 1 || st = 2 then some (0x0006, 0x0904)
  else none

/-- A pass that the host starts, as its record has it (09 R332). -/
def passFrom (p : Nat) (s : State) : State :=
  if voluntaryRuns p s then beginPass p s else recordPatrol p (beginPass p s)

/-- A pass that the host resumes, as its record has it (09 R344). -/
def passOn (p : Nat) (s : State) : State := recordPatrol p (updPatrol p (fun y => { y with st := 1 }) s)

/-- The first failing check of an operation on a slot (R323, R327), or of PATROL_START. -/
def slotActBad (a : SlotAct) (p n : Nat) (s : State) : Option (BitVec 16 × Nat) :=
  match a with
  | .adopt q => adoptBad q p n s
  | .retire => (slotChecks p n s).or
      (if (slotRec p n s).st == .online || (slotRec p n s).st == .suspect then none else some (0x0005, 0x0202))
  | .patrol => patrolBad p s
  | .patrolOn => patrolBad p s
  | .fail => (slotChecks p n s).or
      (if !(slotRec p n s).st.serving then some (0x0005, 0x0202)
       else if (List.range (rollEntries p s)).any (fun e => decide ((geomOf p s).m < entryErased p e (some n) s)) then
         some (0x0005, 0x0208)
       else none)

/-- Whether another slot than `n` keeps cells that have no home (08 R318). -/
def otherHomeless (p n : Nat) (s : State) : Bool :=
  (poolRec p s).slots.any (fun e => e.1 != n && e.2.st == .failed && keepsCells p e.1 s)

/-- A member is adopted (R324): the slot is committed, the label goes to both copies; the command's end and the preparation follow
the labels. -/
def adopt (c q p n : Nat) (s : State) : State :=
  let s := match (slotRec p n s).port with
    | some old => if (mport old s).cls = .serving p n then updMport old (fun m => { m with cls := .stale p n }) s else s
    | none => s
  let s := updPool p (fun x => { x with homeless := x.homeless && otherHomeless p n s }) s
  let s := updSlot p n (fun r => { st := r.st, reason := r.reason, port := some q, labelGen := r.labelGen, adopting := some c, prep := some false }) s
  let s := updMport q (fun m => { m with cls := .serving p n }) (slotTo p n .rebuilding 0x12 s)
  writeLabel p n false true (joinMember p n q true s)

/-- The commit of what an admin operation changed: the joint commit that carried it has been counted already. -/
def landCommit (p : Nat) (s : State) : State := if jointPool p s then s else ledCommit s

/-- An operation on a slot takes effect at its commit point; its checks are made again there (06 R238). -/
def slotAct (c p n : Nat) (a : SlotAct) (s : State) : State :=
  match slotActBad a p n s with
  | some (st, why) => adminFail c st why s
  | none => match a with
    | .adopt q => adopt c q p n s
    | .retire => adminOk c (slotEmptied p n (startRetire p n (slotTo p n .retiring 0x0F s)))
    | .fail => adminOk c (slotFails p n 0x0C s)
    | .patrol => adminOk c (landCommit p (passFrom p s))
    | .patrolOn => finishCmd c 0 1 (landCommit p (passOn p s))

/-- The pool as the record says that the operation leaves it. -/
def actPool (a : SlotAct) (p n : Nat) (s : State) : State :=
  match a with
  | .adopt _ => updSlot p n (fun r => { r with st := .rebuilding, reason := 0x12, restore := 0, prep := some false }) s
  | .retire => updSlot p n (fun r => { r with st := .retiring, reason := 0x0F }) s
  | .fail => updSlot p n (fun r => { r with st := .failed, reason := 0x0C, labelGen := r.labelGen + 1 }) s
  | .patrol => passFrom p s
  | .patrolOn => passOn p s

/-- Run an operation on a pool: checked; then at once, or, for a pair's pool while PAIRED, when both modules commit (06 R238, 10
R372). -/
def startAct (c p n : Nat) (a : SlotAct) (s : State) : State :=
  match slotActBad a p n s with
  | some (st, why) => adminFail c st why s
  | none => commitGate c (fun s =>
      if jointPool p s then
        propose { r := poolShared p (actPool a p n s), cmd := some c, act := some (p, n, a) }
          (updCmd c (fun x => { x with ph := .waiting }) s)
      else slotAct c p n a s) s

/-- MEMBER_ADOPT (R323, R324). -/
def execMemberAdopt (s : State) : Res :=
  go (asAdmin 0x92 (fun c x s =>
    let p := arg x 41 1
    let n := arg x 42 1
    startAct c p n (.adopt (adoptPort (arg x 40 1) p n s)) s) s)

/-- MEMBER_RETIRE (R327). -/
def execMemberRetire (s : State) : Res := go (asAdmin 0x93 (fun c x s => startAct c (arg x 41 1) (arg x 42 1) .retire s) s)

/-- MEMBER_FAIL (R327). -/
def execMemberFail (s : State) : Res := go (asAdmin 0x94 (fun c x s => startAct c (arg x 41 1) (arg x 42 1) .fail s) s)

/-! ## Patrol passes (09 R332 to R336) -/

/-- PATROL_START (R336); the pass starts, or resumes, at the commit of its record (06 R238). -/
def execPatrolStart (s : State) : Res :=
  go (asAdmin 0x95 (fun c x s =>
    let p := arg x 41 1
    match patrolBad p s with
    | some (st, why) => adminFail c st why s
    | none => startAct c p 0 (if (poolRec p s).patrol.st = 3 then .patrolOn else .patrol) s) s)

/-- A pass falls due (R332). -/
def passDue (p : Nat) (s : State) : State :=
  let r := poolRec p s
  if !poolValid p s || !owns p s || r.reshape.st = 2 then s
  else
    let s := timeToOp (r.patrol.dueFrom + (prof s).patrolPeriod * 86400) s
    if r.patrol.st = 0 then startPass p s else updPatrol p (fun y => { y with overdue := true }) s

/-- PATROL_PASS_DUE (R332). -/
def execPatrolPassDue (pool : Fin 8) (s : State) : Res := go (passDue pool.val s)

/-- PATROL_PROGRESS_COMMIT (R334). -/
def execPatrolProgressCommit (pool : Fin 8) (s : State) : Res :=
  let p := (poolRec pool.val s).patrol
  go (if p.st = 0 || commitsRefused s then s
      else
        let s := timeToOp (p.lastCommit + 600) s
        savePatrol pool.val s)

/-! ## Reshape (09 R345 to R354) -/

/-- Slots of the source that the target does not have. -/
def removedSlots (p : Nat) (s : State) : List Nat := (usedSlots p s).filter (fun n => !(usedSlots (p + 8) s).contains n)

/-- An added slot takes the blank member at its port: prepared and labelled (R347). -/
def addSlot (p n : Nat) (s : State) : State :=
  let q := expectedPort (p + 8) n s
  let s := updSlot p n (fun r => { r with port := some q }) s
  let s := updMport q (fun m => { m with cls := .serving p n }) (slotTo p n .online 0x12 s)
  writeLabel (p + 8) n false true (prepare p n true (joinMember p n q true s))

/-- Added slots that no member has been taken for. -/
def openSlots (p : Nat) (s : State) : List Nat := (addedSlots p s).filter (fun n => (tget (poolRec p s).slots n).isNone)

/-- A WAITING reshape that may start takes the blank members of its added slots; one that is not blank keeps it WAITING, with an
event. The walk starts once they are prepared and labelled (R347). -/
def reshapeStart (p : Nat) (s : State) : State :=
  if !reshapeMay p s || commitsRefused s then s
  else match (openSlots p s).find? (fun n => let m := mport (expectedPort (p + 8) n s) s
      m.cls != .foreign 2 || !m.id.any (fun i => fits p i s)) with
    | some n => recEvent 0x1F5 0x0033 p [BitVec.ofNat 8 (expectedPort (p + 8) n s % 128)] s
    | none => beginWalk p ((openSlots p s).foldl (fun s n => addSlot p n s) s)

/-- RESHAPE_WALK_START (R347). -/
def execReshapeWalkStart (pool : Fin 8) (s : State) : Res := go (reshapeStart pool.val s)

/-- Target rows done beyond a boundary without a gap. -/
def reshapeFront : Nat → List Nat → List Nat → Nat → Nat
  | 0, _, _, b => b
  | k + 1, order, done, b =>
    match order[b]? with
    | some row => if done.contains row then reshapeFront k order done (b + 1) else b
    | none => b

/-- A table's keys of pool p + 8 become keys of pool p; those of p are dropped. Keys count `unit` per pool. -/
def rekey {α : Type} (p unit : Nat) (t : Tbl α) : Tbl α :=
  (t.filter (fun e => e.1 / unit != p)).foldl (fun acc e =>
    tset acc (if e.1 / unit = p + 8 then e.1 - 8 * unit else e.1) e.2) []

/-- The same for a list of keys. -/
def rekeyList (p unit : Nat) (l : List Nat) : List Nat :=
  ((l.filter (fun k => k / unit != p)).map (fun k => if k / unit = p + 8 then k - 8 * unit else k)).foldl nins []

/-- Plan tables with the target of a finished reshape as the pool's layout (R353 step 2). -/
def adoptTab (p : Nat) (t : PlanTab) : PlanTab :=
  let src := tgetD t.pools p {}
  let ent := { tgetD t.pools (p + 8) {} with serial := src.serial, format := src.format, dataBase := src.dataBase, dual := src.dual }
  let starts := (tgetD t.targets p {}).vols
  let vols := t.vols.map (fun (v, e) => (v, if e.pool = p then
    { e with startRow := ((starts.find? (fun x => x.1 == v)).map (·.2)).getD e.startRow } else e))
  { t with
    pools := tdel (tset t.pools p ent) (p + 8), vols := vols, roll := tdel (tset t.roll p (tgetD t.roll (p + 8) [])) (p + 8),
    targets := tdel t.targets p }

/-- The target becomes the pool's layout (R353 step 2): what the module holds by layout follows, its peer's mirror too. -/
def adoptTarget (p : Nat) (s : State) : State :=
  let tgt := tgetD (tab s).targets p {}
  let tab' := adoptTab p (tab s)
  let ent := tgetD tab'.pools p {}
  let keep (l : Nat) : Nat := if l = p + 8 then p else l
  let rows := ent.bands * ent.q
  let s := { s with
    plan.tab := some tab',
    plan.cache := s.plan.cache.filter (fun e => e.1 / 2 ^ 64 != (poolEnt p s).geom),
    cache.tags := (s.cache.tags.filter (fun e => e.2.pool != p)).map (fun e => (e.1, { e.2 with pool := keep e.2.pool })),
    cache.shadow := (s.cache.shadow.filter (fun e => e.2.pool != p)).map (fun e => (e.1, { e.2 with pool := keep e.2.pool })),
    cache.lostW := rekey p (2 ^ 43) s.cache.lostW,
    cache.retry := rekey p (2 ^ 52) s.cache.retry,
    pow.index := s.pow.index.map (fun e => { e with pool := keep e.pool, dead := e.dead || e.pool == p }),
    pair.gaps := (s.pair.gaps.filter (fun g => g.1 != p)).map (fun g => (keep g.1, g.2)),
    jnl.own := s.jnl.own.map (fun e => (e.1, { e.2 with pool := keep e.2.pool })),
    jnl.mirror := s.jnl.mirror.map (fun e => (e.1, { e.2 with pool := keep e.2.pool })),
    jnl.marked := rekeyList p (2 ^ 48) s.jnl.marked,
    jnl.image := rekeyList p (2 ^ 48) s.jnl.image,
    jnl.resync := rekey p (2 ^ 48) s.jnl.resync,
    jnl.resyncDone := rekeyList p (2 ^ 48) s.jnl.resyncDone,
    jnl.opens := rekey p (2 ^ 48) s.jnl.opens,
    jnl.lastOpen := rekey p (2 ^ 48) s.jnl.lastOpen,
    jnl.shift := tset s.jnl.shift p (regionShift rows),
    mem.lostE := ((s.mem.lostE.filter (fun e => e.pool != p)).map (fun e => { e with pool := keep e.pool })).foldl insLostE [],
    mem.marks := (s.mem.marks.filter (fun e => e.pool != p)).map (fun e => { e with pool := keep e.pool }),
    mem.checks := (s.mem.checks.filter (fun e => e.1 != p)).map (fun e => (keep e.1, e.2)),
    pipe.ops := s.pipe.ops.map (fun e => (e.1, { e.2 with pool := keep e.2.pool })) }
  updPool p (fun x => { x with
    n := ent.n, geom := ent.geom, fallow := ent.fallow, relocs := [], walks := [], writes := [], reads := [],
    patrol := ({ x.patrol with dueFrom := opSeconds s, row := 0, slice := 0 } : Patrol).save,
    reshape := { x.reshape with st := 3, b := tgt.rows, window := [], finished := [], remark := [] } }) s

/-- The pool record as the end of a reshape leaves it (R353 step 2). -/
def doneRecord (p : Nat) (s : State) : State :=
  let gone := removedSlots p s
  updPool p (fun x => { x with
    slots := x.slots.filter (fun e => !gone.contains e.1), relocs := [],
    reshape := { x.reshape with st := 3, b := (tgetD (tab s).targets p {}).rows, window := [] } }) s

/-- The end of a reshape (R353): labels are rewritten, removed members get the retired flag, rebuilds start on the
target layout (R352). -/
def reshapeEnd (p : Nat) (s : State) : State :=
  let gone := removedSlots p s
  let s := adoptTarget p s
  let s := (usedSlots p s).foldl (fun s n => if (slotRec p n s).st.serving then writeLabel p n false false s else s) s
  let s := gone.foldl (fun s n =>
    let s := writeLabel p n true false s
    let s := match (slotRec p n s).port with
      | some q => updMport q (fun m => { m with cls := .retired }) s
      | none => s
    updPool p (fun x => { x with slots := tdel x.slots n }) s) s
  ((usedSlots p s).filter (fun n => (slotRec p n s).st == .failed)).foldl (fun s n => startRebuild p n s) s

/-- A lost write's sector goes to its place in the target layout (07 R295); a list that cannot take it says so as R294 does. -/
def carryLost (p line sec row pos ss : Nat) (r : LostW) (s : State) : State :=
  let s := dropLostW p line sec s
  let (l2, sec2) := lineOf (p + 8) row pos ss s
  let k := (p + 8) * 2 ^ 43 + l2
  if (tget s.cache.lostW k).isNone && decide (lostWMax ≤ s.cache.lostW.length) then
    unnamedLost ((findLine (p + 8) l2 s).getD (setOf (p + 8) l2 * 16)) s
  else { s with cache.lostW := tmod s.cache.lostW k { r with mask := 0 } (fun x => { x with mask := x.mask ||| bit16 sec2 }) }

/-- The lost writes of a pool whose target rows lie behind a boundary go to the target layout. -/
def carryLosts (p b : Nat) (s : State) : State :=
  let order := walkRows p s
  (s.cache.lostW.filter (fun e => e.1 / 2 ^ 43 == p)).foldl (fun s (k, r) =>
    let line := k % 2 ^ 43
    (secsOf r.mask).foldl (fun s sec =>
      let (row, pos, ss) := secOfLine p line sec s
      match targetOf p row pos ss s with
      | some (tr, tp, tss) => if order.idxOf tr < b then carryLost p line sec tr tp tss r s else s
      | none => s) s) s

/-- Whether a source row of a target row has an operation, or a queued check: the target row is not committed then, so that none is left
that has looked its row up in the source layout (09 R348, R351). -/
def sourcesUsed (p row : Nat) (s : State) : Bool :=
  sourcesBusy p row s || s.pipe.ops.any (fun e => e.2.pool == p && (sourcesOf p row s).contains e.2.row)

/-- The reshape's record at a boundary (R350): homed window rows are freed, the others are recorded. -/
def boundaryRecord (p b : Nat) (s : State) : State :=
  let order := walkRows p s
  let src := srcFor p b s
  updPool p (fun x => { x with reshape := { x.reshape with
    b := b, src := src, finished := x.reshape.finished.filter (fun row => decide (b ≤ order.idxOf row)),
    window := (x.reshape.window.filter (fun w => !w.homed)).map (fun w => { w with saved := true }), lastCommit := s.now } }) s

/-- A boundary has been committed: lost writes behind it go to the target layout, and window rows whose band is clear are copied home
(R349, R350; 07 R295). -/
def reshapeTo (p b : Nat) (s : State) : State :=
  let s := boundaryRecord p b (carryLosts p b s)
  (poolRec p s).reshape.window.foldl (fun s w =>
    if behindB p w.row s && bandClear p w.row s && !onRow (p + 8) w.row .home s then rowOf (p + 8) w.row 5 0 .home s else s) s

/-- The target becomes the pool's layout when B has reached ROWS, no window row is left and no operation works on the source layout
(R353). -/
def reshapeDone (p : Nat) (s : State) : State :=
  match walking p s with
  | none => s
  | some r =>
    if decide ((walkRows p s).length ≤ r.b) && r.window.isEmpty && !s.pipe.ops.any (fun e => e.2.pool == p) then
      futureCommit p (doneRecord p) (reshapeEnd p) s
    else s

/-- A boundary commit of the reshape (R349, R350, R353), with 256 rows done at once, else 1 s after the last: up to the first target row
that is not done or whose source rows are in use; a done row with a dirty source sector is done again first (R351). -/
def reshapeCommit (p : Nat) (s : State) : State :=
  match walking p s with
  | none => s
  | some r =>
    let dirty := r.finished.filter (fun row => !(dirtySources p row s).isEmpty)
    if !works p s || !r.remark.isEmpty || commitsRefused s then s
    else if !dirty.isEmpty then updPool p (fun x => { x with reshape := { r with remark := dirty } }) s
    else
      let s := if 256 ≤ r.finished.length then s else timeTo (r.lastCommit + 1000000) s
      let order := walkRows p s
      let b := reshapeFront (order.length + 1) order (r.finished.filter (fun row => !sourcesUsed p row s)) r.b
      let s := if b == r.b && r.window.all (fun w => !w.homed && w.saved) then reshapeTo p b s
               else futureCommit p (boundaryRecord p b) (reshapeTo p b) s
      reshapeDone p s

/-- RESHAPE_COMMIT (R350). -/
def execReshapeCommit (pool : Fin 8) (s : State) : Res := go (reshapeCommit pool.val s)

end Sys2Proof.Machine
end

