-- ==== Sys2Proof/Machine/Plan.lean ====
section
/-! DEFINITION. Sys2Proof/Machine/Plan.lean: plan images: their layout, the load checks (02 R39 to R55, R548, R553) and
what a load puts into plan SRAM and the program store. -/

namespace Sys2Proof.Machine

/-! ## Layout (02 R39, R40) -/

/-- A section directory entry. -/
structure Sect where
  typ : Nat
  inst : Nat
  dest : Nat
  off : Nat
  len : Nat
  crc : Nat
  deriving DecidableEq, Repr

/-- Bytes of the signature that follows an image (R43). -/
def sigLen : Nat := 29792

/-- IMAGE_LEN. -/
def imgLen (b : List Byte) : Nat := leAt b 8 8
/-- IMAGE_SEQ. -/
def imgSeq (b : List Byte) : Nat := leAt b 16 8
/-- SIGNER_HASH. -/
def imgSigner (b : List Byte) : List Byte := slice b 48 32
/-- The plan-image hash: SHA-256 of bytes 0 to IMAGE_LEN - 1. -/
def imgHash (b : List Byte) : List Byte := Config.sha256 (b.take (imgLen b))

/-- The section directory. -/
def imgDir (b : List Byte) : List Sect :=
  (List.range (leAt b 6 2)).map (fun i =>
    let o := 128 + 32 * i
    { typ := leAt b o 2, inst := leAt b (o + 2) 2, dest := byteAt b (o + 4), off := leAt b (o + 8) 8, len := leAt b (o + 16) 8,
      crc := leAt b (o + 24) 4 })

/-- The bytes of a section. -/
def secData (b : List Byte) (x : Sect) : List Byte := slice b x.off x.len

/-- The sections of a type and instance, in directory order. -/
def sections (b : List Byte) (typ inst : Nat) : List (List Byte) :=
  ((imgDir b).filter (fun x => x.typ == typ && x.inst == inst)).map (secData b)

/-- The first section of a type and instance, or no bytes. -/
def section1 (b : List Byte) (typ inst : Nat) : List Byte := (sections b typ inst).headD []

/-! ## Tables of an image (04 R121 to R123, R151; 09 R345) -/

/-- Geometry row `n` when it is valid. -/
def parseGeom (g : List Byte) (n : Nat) : Option Geom :=
  if bitN (byteAt g (16 * n + 4)) 0 then
    some { k := byteAt g (16 * n), m := byteAt g (16 * n + 1), shift := byteAt g (16 * n + 3) }
  else none

/-- Member descriptors. -/
def parseMembers (b : List Byte) (o : Nat) : List (BitVec 16) :=
  (List.range 128).map (fun i => BitVec.ofNat 16 (leAt b (o + 2 * i) 2))

/-- Pool table entry `p` when it is valid. -/
def parsePool (t : List Byte) (p : Nat) : Option PoolEnt :=
  let o := 512 * p
  let f := byteAt t o
  if bitN f 0 then
    some { dual := bitN f 1, switchOk := bitN f 2, geom := byteAt t (o + 1), n := byteAt t (o + 2), fallow := byteAt t (o + 3),
           format := byteAt t (o + 4), q := leAt t (o + 6) 2, nblocks := leAt t (o + 8) 2, bands := leAt t (o + 16) 8,
           dataBase := leAt t (o + 24) 8, serial := leAt t (o + 32) 8, members := parseMembers t (o + 256) }
  else none

/-- Volume table entry `v` when it is valid. -/
def parseVol (t : List Byte) (v : Nat) : Option VolEnt :=
  let o := 64 * v
  if bitN (byteAt t o) 0 then
    some { pool := byteAt t (o + 1), startRow := leAt t (o + 8) 8, sectors := leAt t (o + 16) 8, name := slice t (o + 32) 32 }
  else none

/-- The entries of a numbered table that are present. -/
def present {α : Type} (n : Nat) (f : Nat → Option α) : Tbl α :=
  (List.range n).filterMap (fun i => (f i).map (fun x => (i, x)))

/-- A reshape target section of a pool: what is left of it, and its layout as a pool table entry. -/
def parseTarget (b : List Byte) : Target × PoolEnt :=
  ({ descending := byteAt b 4 == 1, lead := leAt b 12 4, rows := leAt b 24 8, sourceHash := slice b 32 32,
     vols := (List.range (leAt b 10 2)).map (fun i => (leAt b (320 + 16 * i) 2, leAt b (328 + 16 * i) 8)), bytes := b },
   { geom := byteAt b 1, n := byteAt b 2, fallow := byteAt b 3, q := leAt b 6 2, nblocks := leAt b 8 2, bands := leAt b 16 8,
     members := parseMembers b 64 })

/-- Little-endian 64-bit words of a section. -/
def words : Nat → List Byte → List Word
  | 0, _ => []
  | n + 1, b => if b.isEmpty then [] else BitVec.ofNat 64 (leNat (b.take 8)) :: words n (b.drop 8)

/-- Pairs of words. -/
def pairsOf : List Word → List (Word × Word)
  | a :: b :: l => (a, b) :: pairsOf l
  | _ => []

/-- The tables that a load copies (R52 step 3). -/
def parseImage (b : List Byte) : PlanTab :=
  let pt := section1 b 0x0001 0
  let pools := present 8 (parsePool pt)
  let targets := (present 8 (fun p => ((sections b 0x000A p).head?).map parseTarget)).filter (fun e => (tget pools e.1).isSome)
  let geoms := present 16 (parseGeom (section1 b 0x0003 0))
  let lims (p : Nat) : Option Limits := ((sections b 0x000B p).head?).map (fun l =>
    { reserve := byteAt l 1, wearSpread := byteAt l 2, hotReads := byteAt l 3, flags := leAt l 4 4, overlay := leAt l 8 4 })
  let two (p : Nat) : PoolEnt := (tgetD targets p ({}, {})).2
  let inherit_ (p : Nat) (e : PoolEnt) : PoolEnt :=
    let src := tgetD pools p {}
    { e with dual := src.dual, switchOk := src.switchOk, format := src.format, dataBase := src.dataBase, serial := src.serial }
  let prog := section1 b 0x0008 0
  { hash := imgHash b, seq := imgSeq b,
    pools := pools ++ targets.map (fun e => (e.1 + 8, inherit_ e.1 (two e.1))),
    vols := present 4096 (parseVol (section1 b 0x0002 0)),
    geoms := geoms,
    coeff := present 16 (fun g => (sections b 0x0004 g).head?),
    roll := present 16 (fun p => if p < 8 then (sections b 0x0005 p).head? else (sections b 0x0005 (p - 8))[1]?),
    sched := present 16 (fun g => (sections b 0x0006 g).head?),
    dispatch := pairsOf (words 2048 (section1 b 0x0007 0)),
    program := words (prog.length / 8) prog,
    routines := pairsOf (words 512 (section1 b 0x0009 0)),
    limits := present 8 lims,
    targets := targets.map (fun e => (e.1, e.2.1)) }

/-! ## Load checks (02 R49) -/

/-- Check 2: header form. -/
def headerOk (b : List Byte) : Bool :=
  let n := leAt b 6 2
  leAt b 0 4 == 0x4C505644 && leAt b 4 2 == 1 && decide (1 ≤ n ∧ n ≤ 64) && imgLen b % 4096 == 0 &&
  leAt b 24 4 / 2 ^ 18 == 0 && leAt b 28 4 / 2 == 0 && allZero (slice b 80 48) &&
  (List.range n).all (fun i => allZero (slice b (128 + 32 * i + 5) 3) && allZero (slice b (128 + 32 * i + 28) 4)) &&
  allZero (slice b (128 + 32 * n) (4096 - (128 + 32 * n)))

/-- The key that signed an image, among the installed ones. -/
def signerKey (b : List Byte) (keys : List (List Byte)) : Option (List Byte) :=
  keys.find? (fun k => Config.sha256 k == imgSigner b)

/-- DEST of a section type, and the instances it may carry (R41). -/
def typeForm (t : Nat) : Option (Nat × Nat) :=
  match t with
  | 0x0001 => some (0, 1)
  | 0x0002 => some (0, 1)
  | 0x0003 => some (0, 1)
  | 0x0004 => some (0, 16)
  | 0x0005 => some (0, 8)
  | 0x0006 => some (0, 16)
  | 0x0007 => some (0, 1)
  | 0x0008 => some (1, 1)
  | 0x0009 => some (1, 1)
  | 0x000A => some (2, 8)
  | 0x000B => some (2, 8)
  | _ => none

/-- Whether two sections overlap. -/
def overlap (a b : Sect) : Bool := decide (a.off < b.off + b.len ∧ b.off < a.off + a.len)

/-- No two of a list of sections overlap. -/
def disjointSects : List Sect → Bool
  | [] => true
  | a :: l => l.all (fun b => !overlap a b) && disjointSects l

/-- Geometry row contents (04 R120, R121). -/
def geomRowOk (r : List Byte) : Bool :=
  if bitN (byteAt r 4) 0 then
    let k := byteAt r 0
    let m := byteAt r 1
    decide (1 ≤ k ∧ k ≤ 60 ∧ m ≤ 4 ∧ k + m ≤ 64) && byteAt r 2 == k + m && decide (2 ≤ byteAt r 3 ∧ byteAt r 3 ≤ 8) &&
    byteAt r 4 == 1 && allZero (r.drop 5)
  else allZero r

/-- Member descriptors of N slots (04 R120, R122). -/
def membersOk (n : Nat) (switchOk : Bool) (ms : List (BitVec 16)) : Bool :=
  (List.range 128).all (fun i =>
    let d := (ms.getD i 0).toNat
    if n ≤ i then d == 0
    else
      let port := d % 128
      let wd := fld d 8 7
      !bitN d 15 || (decide (wd ≤ 2) && port % 2 ^ wd == 0 && (switchOk || !bitN d 14)))

/-- A layout of a pool (04 R120, R122). -/
def layoutOk (e : PoolEnt) (g : Option Geom) : Bool :=
  match g with
  | none => false
  | some g =>
    decide (1 ≤ e.n ∧ e.n ≤ 128 ∧ g.w ≤ e.n ∧ e.fallow ≤ 4 ∧ e.fallow ≤ e.n - g.w) && (g.m != 0 || e.fallow == 0) &&
    e.q == e.n - e.fallow && e.nblocks == 4096 / e.q && membersOk e.n e.switchOk e.members

/-- A pool table entry's bytes. -/
def poolOk (t : List Byte) (p : Nat) (geoms : Tbl Geom) : Bool :=
  let b := slice t (512 * p) 512
  match parsePool t p with
  | none => allZero b
  | some e => layoutOk e (tget geoms e.geom) && decide (e.format ≤ 2) && byteAt b 0 / 8 == 0 && byteAt b 5 == 0 &&
    allZero (slice b 10 6) && e.dataBase == 16384 && allZero (slice b 40 216)

/-- Rows that a volume of some size takes in a geometry (04 R124). -/
def rowsFor (g : Geom) (sectors : Nat) : Nat := (sectors + g.k * g.ss - 1) / (g.k * g.ss)

/-- No two of a list of row ranges of one pool overlap. -/
def disjointRows : List (Nat × Nat) → Bool
  | [] => true
  | (a, n) :: l => l.all (fun (b, k) => a + n ≤ b || b + k ≤ a) && disjointRows l

/-- ASCII, padded with 0x00 (04 R123). -/
def nameOk (b : List Byte) : Bool := (b.reverse.dropWhile (· == 0)).all (fun x => x != 0 && x < 0x80)

/-- The volume table's bytes and row ranges (04 R123, R124). -/
def volsOk (t : List Byte) (tab : PlanTab) : Bool :=
  (List.range 4096).all (fun v =>
    let b := slice t (64 * v) 64
    match parseVol t v with
    | none => allZero b
    | some e => byteAt b 0 == 1 && allZero (slice b 2 6) && allZero (slice b 24 8) && nameOk e.name && decide (e.startRow < 2 ^ 48) &&
      decide (1 ≤ e.sectors ∧ e.sectors < 2 ^ 48) &&
      (match tget tab.pools e.pool with
       | some p => decide (e.pool < 8) && (match tget tab.geoms p.geom with
         | some g => decide (e.startRow + rowsFor g e.sectors ≤ p.bands * p.q)
         | none => false)
       | none => false)) &&
  (List.range 8).all (fun p => disjointRows ((tab.vols.filter (fun e => e.2.pool == p)).filterMap (fun (_, e) =>
    ((tget tab.pools p).bind (fun x => tget tab.geoms x.geom)).map (fun g => (e.startRow, rowsFor g e.sectors)))))

/-- A placement limits section (04 R151). -/
def limitsOk (p : Nat) (tab : PlanTab) (l : List Byte) : Bool :=
  byteAt l 0 == p && decide (byteAt l 1 ≤ (tgetD tab.pools p {}).fallow) && decide (1 ≤ byteAt l 2 ∧ byteAt l 2 ≤ 50) &&
  decide (1 ≤ byteAt l 3 ∧ byteAt l 3 ≤ 60) && leAt l 4 4 / 8 == 0 && decide (1024 ≤ leAt l 8 4 ∧ leAt l 8 4 ≤ 8192) &&
  allZero (l.drop 12)

/-- A reshape target section (09 R345). -/
def targetOk (p : Nat) (tab : PlanTab) (b : List Byte) : Bool :=
  let (t, e) := parseTarget b
  let src := tgetD tab.pools p {}
  byteAt b 0 == p && decide (byteAt b 4 ≤ 1) && byteAt b 5 == 0 && layoutOk { e with switchOk := src.switchOk } (tget tab.geoms e.geom) &&
  decide (1 ≤ t.vols.length ∧ t.vols.length ≤ 4096) && decide (2048 ≤ t.lead) && b.length == 320 + 16 * t.vols.length &&
  t.vols.all (fun (v, _) => match tget tab.vols v with
    | some x => x.pool == p
    | none => false) &&
  (List.range t.vols.length).all (fun i => allZero (slice b (322 + 16 * i) 6)) &&
  (match tget tab.geoms e.geom with
   | some g =>
     let rs := t.vols.map (fun (v, st) => (st, rowsFor g (tgetD tab.vols v { pool := 0, startRow := 0, sectors := 0 }).sectors))
     t.rows == (rs.map (·.2)).sum && disjointRows rs && rs.all (fun (st, n) => decide (st + n ≤ e.bands * e.q))
   | none => false)

/-- The member descriptors of every layout of an image, target layouts too. -/
def allDescs (tab : PlanTab) : List (BitVec 16) :=
  tab.pools.flatMap (fun e => e.2.members.filter (fun d => d.getLsbD 15))

/-- Switch tiers (04 R120): at most one in a port group, and at most 32 members behind one port. -/
def switchesOk (tab : PlanTab) : Bool :=
  let far := ((allDescs tab).filter (fun d => d.getLsbD 14)).map descPort |>.eraseDups
  let ports := (far.map (· % 128)).eraseDups
  (List.range 16).all (fun g => decide ((ports.filter (fun q => portGroup q == g)).length ≤ 1)) &&
  ports.all (fun q => decide ((far.filter (fun x => x % 128 == q)).length ≤ 32))

/-- Members of all pools, those of a reshape's target among them (04 R120). -/
def memberTotal (tab : PlanTab) : Nat :=
  ((tab.pools.filter (fun e => e.1 < 8)).map (fun e => max e.2.n (tgetD tab.pools (e.1 + 8) { n := 0 }).n)).sum

/-- Bytes of plan SRAM that the relocation overlays take: 16 for each entry and 32 KiB for each pool (04 R148). -/
def overlayBytes (tab : PlanTab) : Nat :=
  ((tab.pools.filter (fun e => e.1 < 8)).map (fun e => 16 * (tgetD tab.limits e.1 {}).overlay + 32768)).sum

/-- Check 8: sections, counts, sizes, CRCs and contents (R41, R42, R548; 04 R120, R129, R148). -/
def contentOk (b : List Byte) : Bool :=
  let dir := imgDir b
  let tab := parseImage b
  let count (t i : Nat) : Nat := (dir.filter (fun x => x.typ == t && x.inst == i)).length
  let size (t i n : Nat) : Bool := (sections b t i).all (fun x => x.length == n)
  let sized (t : Nat) : Nat := (dir.filter (fun x => x.typ == t)).map (·.len) |>.sum
  let total (d : Nat) : Nat := (dir.filter (fun x => x.dest == d)).map (·.len) |>.sum
  dir.all (fun x => (match typeForm x.typ with
      | some (d, n) => x.dest == d && decide (x.inst < n)
      | none => false) &&
    x.off % 4096 == 0 && decide (4096 ≤ x.off) && decide (x.off + x.len ≤ imgLen b) && x.crc == (crc32c (secData b x)).toNat) &&
  disjointSects dir &&
  count 0x0001 0 == 1 && count 0x0002 0 == 1 && count 0x0003 0 == 1 && count 0x0007 0 == 1 && count 0x0008 0 == 1 &&
  decide (count 0x0009 0 ≤ 1) && size 0x0001 0 4096 && size 0x0002 0 262144 && size 0x0003 0 256 &&
  sized 0x0007 % 16 == 0 && decide (sized 0x0007 ≤ 16384) && sized 0x0009 % 16 == 0 && decide (sized 0x0009 ≤ 4096) &&
  sized 0x0008 % 8 == 0 && decide (sized 0x0008 + sized 0x0009 ≤ 1048576) &&
  decide (total 0 + overlayBytes tab ≤ 16515072) && decide (total 1 ≤ 1048576) &&
  (List.range 16).all (fun g => match tget tab.geoms g with
    | some x =>
      let n := if x.m = 0 then 0 else 1
      count 0x0004 g == n && count 0x0006 g == n && size 0x0004 g (x.m * x.k) &&
      size 0x0006 g ((x.w + x.w * (x.w - 1) / 2) * 160) && geomRowOk (slice (section1 b 0x0003 0) (16 * g) 16)
    | none => count 0x0004 g == 0 && count 0x0006 g == 0 && geomRowOk (slice (section1 b 0x0003 0) (16 * g) 16)) &&
  (List.range 8).all (fun p => poolOk (section1 b 0x0001 0) p tab.geoms && (match tget tab.pools p with
    | some e =>
      let w (g : Nat) : Nat := ((tget tab.geoms g).map Geom.w).getD 0
      count 0x000B p == 1 && size 0x000B p 32 && limitsOk p tab (section1 b 0x000B p) && decide (count 0x000A p ≤ 1) &&
      (match (sections b 0x000A p).head? with
       | some t => count 0x0005 p == 2 && targetOk p tab t &&
         (sections b 0x0005 p).map (·.length) == [4096 * w e.geom, 4096 * w (byteAt t 1)]
       | none => (sections b 0x0005 p).map (·.length) == [4096 * w e.geom])
    | none => count 0x000B p == 0 && count 0x000A p == 0 && count 0x0005 p == 0)) &&
  volsOk (section1 b 0x0002 0) tab &&
  decide (memberTotal tab ≤ 128) && switchesOk tab

/-! ## Compatibility: check 9 (02 R50, R553; 09 R353, R354) -/

/-- Whether a volume holds dirty sectors or lost extents (R50). -/
def volHeld (v : Nat) (s : State) : Bool :=
  !(dirtyPlaces (some v) s).isEmpty || !(vaultPlaces (some v) s).isEmpty || s.mem.lostE.any (fun e => e.volume == v)

/-- Whether a pool's source layout is kept: members, geometry and roll table with its shape. -/
def samePool (p : Nat) (old new : PlanTab) : Bool :=
  match tget old.pools p, tget new.pools p with
  | some a, some b => a.n == b.n && a.members == b.members && a.geom == b.geom && tget old.geoms a.geom == tget new.geoms b.geom &&
    a.q == b.q && a.nblocks == b.nblocks && tget old.roll p == tget new.roll p
  | _, _ => false

/-- R354: a reshape that waits or walks finds its target section and both roll tables unchanged. -/
def sameTarget (p : Nat) (old new : PlanTab) : Bool :=
  (tget old.targets p).isSome && (tget old.targets p).map (·.bytes) == (tget new.targets p).map (·.bytes) &&
  tget old.roll p == tget new.roll p && tget old.roll (p + 8) == tget new.roll (p + 8)

/-- Whether a volume has dirty sectors in the shadow, by the layout of an image. -/
def shadowHeld (v : Nat) (t : State) : Bool :=
  t.cache.shadow.any (fun (x, h) => (secsOf h.dirty).any (fun i =>
    volOfRow h.pool (secOfLine h.pool (tagLine x { lineHi := h.lineHi, pool := h.pool }) i t).1 t == some v))

/-- R50 against the image of plan SRAM. -/
def compatRunning (new : PlanTab) (s : State) : Bool :=
  let old := tab s
  (poolIds s).all (fun p => samePool p old new && (let st := (poolRec p s).reshape.st
    !(st == 1 || st == 2) || sameTarget p old new)) &&
  old.vols.all (fun (v, a) => match tget new.vols v with
    | some b => a.pool == b.pool && a.startRow == b.startRow && decide (a.sectors ≤ b.sectors)
    | none => !(volHeld v s || shadowHeld v s))

/-- Lines with dirty sectors in the vault index or the dirty shadow, with a sector of each (R553). -/
def heldLines (s : State) : List (Nat × Nat × Nat) :=
  (idxLines s).flatMap (fun (l, line) => (secsOf (unrestoredMask l line s)).map (fun i => (l, line, i))) ++
  s.cache.shadow.flatMap (fun (x, h) => (secsOf h.dirty).map (fun i =>
    (h.pool, tagLine x { lineHi := h.lineHi, pool := h.pool }, i)))

/-- Whether every dirty sector and every loss record lies in a volume of an image, the one that the record names: what R553
asks of the volumes where no active image tells their places (log entry 74). -/
def heldCovered (new : PlanTab) (s : State) : Bool :=
  let t : State := { s with plan.tab := some new }
  (heldLines s).all (fun (l, line, i) => (volOfRow l (secOfLine l line i t).1 t).isSome) &&
  s.cache.lostW.all (fun (k, e) => (secsOf e.mask).all (fun i =>
    volOfRow (k / 2 ^ 43) (secOfLine (k / 2 ^ 43) (k % 2 ^ 43) i t).1 t == some e.volume)) &&
  s.mem.lostE.all (fun e => volOfRow e.pool e.row t == some e.volume)

/-- R553 against what the module keeps in non-volatile memory; volumes are held against the active image of the ledger, where
it can be read. -/
def compatStored (new : PlanTab) (s : State) : Bool :=
  let old := match s.led.active with
    | some b => parseImage b
    | none => {}
  let sOld : State := { s with plan.tab := some old }
  s.mem.pools.all (fun (p, r) =>
    let done := r.reshape.st == 3
    match (if done then (tget new.pools (p + 8)).or (tget new.pools p) else tget new.pools p) with
    | some e => e.serial == r.serial && e.n == r.n && e.geom == r.geom && e.fallow == r.fallow && e.format == r.format &&
      (!(r.reshape.st == 1 || r.reshape.st == 2) || sameTarget p old new || new.hash == r.reshape.hash)
    | none => false) &&
  (s.led.active.isSome || heldCovered new s) &&
  old.vols.all (fun (v, a) =>
    !(volHeld v sOld || shadowHeld v sOld || s.cache.lostW.any (fun e => e.2.volume == v)) ||
    (match tget new.vols v with
     | some b => a.pool == b.pool && a.startRow == b.startRow && a.sectors == b.sectors
     | none => false))

/-- Every pool whose reshape is done is described by its target (R353). -/
def doneTargets (s : State) (t : PlanTab) : PlanTab :=
  s.mem.pools.foldl (fun t (p, r) =>
    if r.reshape.st == 3 && r.reshape.hash == t.hash && (tget t.targets p).isSome then adoptTab p t else t) t

/-- The image that the module runs; where none runs, the active image of the ledger, if it can be read (log entry 74). -/
def baseImage (s : State) : Option PlanTab :=
  match s.plan.tab with
  | some t => some t
  | none => (s.led.active.filter (fun b => headerOk b && contentOk b)).map (fun b => doneTargets s (parseImage b))

/-- SOURCE_HASH of every reshape target of a new image names the image that last described the source layout (09 R345): the one that
runs, or, for a reshape that it holds already, the one that its own target section names. -/
def sourcesOk (new : PlanTab) (s : State) : Bool :=
  match baseImage s with
  | none => true
  | some old => new.targets.all (fun (p, t) => t.sourceHash == padTo 32 old.hash || (tget old.targets p).map (·.bytes) == some t.bytes)

/-- Checks 2 to 9 of R49 as they apply to a transfer, to the peer's image at a joint commit, to a stored image. The
answer is the status and the reason of the first failure. At a joint commit and at boot, COHORT of a pair image may
name either node (log entry 31). No check refuses an IMAGE_SEQ of 0 while no image is active (log entry 74). -/
def imageBad (transfer : Bool) (cohorts : List Nat) (check9 : PlanTab → State → Bool) (b : List Byte) (s : State) :
    Option (BitVec 16 × Nat) :=
  if !headerOk b then some (0x0301, 0x0002)
  else match signerKey b s.led.keys with
    | none => some (0x0401, 0x0003)
    | some k =>
      if !Config.slhDsaVerify k (b.take (imgLen b)) (slice b (imgLen b) sigLen) then some (0x0301, 0x0004)
      else if transfer && (match s.led.active with
          | some a => decide (imgSeq b ≤ imgSeq a)
          | none => false) then some (0x0301, 0x0005)
      else if !cohorts.contains (leAt b 24 4) then some (0x0301, 0x0006)
      else if bitN (leAt b 28 4) 0 != s.led.paired then some (0x0301, 0x0007)
      else if !contentOk b || (transfer && !sourcesOk (parseImage b) s) then some (0x0301, 0x0008)
      else if !check9 (parseImage b) s then some (0x0301, 0x0009)
      else none

/-- Check 9 for a new image: R50 against the running image, or the active one while none runs; R553 where there is neither. -/
def check9 (new : PlanTab) (s : State) : Bool :=
  match baseImage s with
  | some old => compatRunning new { s with plan.tab := some old }
  | none => compatStored new s

/-- PLAN_COMMIT's checks, in order (R49). -/
def stagedBad (s : State) : Option (BitVec 16 × Nat) :=
  let b := s.led.staging
  if b.length != imgLen b + sigLen || decide (20 * 1048576 < imgLen b) then some (0x0002, 0x0001)
  else imageBad true [s.led.cohort] check9 b s

/-- The cohort nodes that a stored or joint image may name. -/
def imageNodes (s : State) : List Nat := if s.led.paired then [s.led.cohort, s.led.peer] else [s.led.cohort]

/-! ## Load (02 R51, R52) -/

/-- The commit: the image becomes active, the active one previous (R51); the switch follows. -/
def commitImage (b : List Byte) (s : State) : State :=
  ledCommit { s with led.previous := s.led.active, led.active := some b, led.fallback := false, plan.switching := true }

/-- The label of a member here that says it is of a pool, created by this module or its pair, and not retired. -/
def olderLabel (p : Nat) (s : State) : Option (List Byte) :=
  (s.mem.ports.filter (fun e => e.2.present)).findSome? (fun e => e.2.label.bind (fun b =>
    if byteAt b 24 == p && leAt b 32 8 == (poolEnt p s).serial && !bitN (leAt b 6 2) 0 &&
      (leAt b 16 4 % 2 ^ 18 == s.led.cohort || (bitN (leAt b 20 4) 31 && leAt b 20 4 % 2 ^ 18 == s.led.cohort)) then some b
    else none))

/-- Whether members hold labels of a pool that the ledger has no record of: an older module ran it (04 R169, log entry 17). It is
served once the image runs that the labels name. -/
def olderPool (p : Nat) (s : State) : Bool := s.jnl.restorePools.contains p || (olderLabel p s).isSome

/-- A slot of a new pool takes the blank member at its expected port: labelled and prepared (04 R143, R165). The label goes to both
copies, with one LABEL_GEN (log entry 85). -/
def takeBlank (p n : Nat) (s : State) : State :=
  let q := expectedPort p n s
  if (mport q s).cls = .foreign 2 && (mport q s).id.any (fun i => fits p i s) then
    let s := updSlot p n (fun r => { r with port := some q }) s
    let s := updMport q (fun m => { m with cls := .serving p n }) (slotTo p n .online 0x12 s)
    writeLabel p n false true (prepare p n true (joinMember p n q true s))
  else s

/-- A new pool belongs to the node that the image names (log entry 32); its owner takes the blank members at the
expected ports, and the other module of a pair finds them by the labels that they get (04 R167, R168). A pool that an older module
ran keeps its members: they are discovered, and its journal and regions come from the anchors (04 R169, 07 R293). -/
def createPool (p node : Nat) (s : State) : State :=
  let e := poolEnt p s
  let fresh : PoolRec :=
    { serial := e.serial, n := e.n, geom := e.geom, fallow := e.fallow, format := e.format,
      owner := node, epoch := 1, home := ((olderLabel p s).map (fun b => leAt b 16 4 % 2 ^ 18)).getD node,
      discovery := false, patrol := { dueFrom := opSeconds s } }
  let older := olderPool p s
  let s := updPool p (fun _ => { fresh with discovery := older }) s
  let s := { s with jnl.shift := tset s.jnl.shift p (regionShift (rowsOf p s)) }
  if older then
    ledCommit { s with jnl.restorePools := nins s.jnl.restorePools p,
                       mem.discoveryAt := if s.dev.ready then some (s.mem.discoveryAt.getD s.now) else s.mem.discoveryAt }
  else ledCommit (if owns p s then (usedSlots p s).foldl (fun s n => takeBlank p n s) s else s)

/-- The members found so far of a pool that an image makes a pair pool register, and the owner reserves them (10 R364, R365). -/
def joinMembers (p : Nat) (s : State) : State :=
  (poolRec p s).slots.foldl (fun s (n, r) => match r.port with
    | some q => joinMember p n q (owns p s) s
    | none => s) s

/-- Put an image into plan SRAM and the program store: cached schedules of changed geometries go, fences end, new pools
are made (R52, R111). The target of a reshape that is done under this image stands as the pool's layout; one that waits or walks has
this image for its target's; another target section starts a reshape (09 R345, R353, R354). -/
def loadImage (b : List Byte) (s : State) : State :=
  let old := tab s
  let new := doneTargets s (parseImage b)
  let kept (g : Nat) : Bool := tget old.geoms g == tget new.geoms g && tget old.coeff g == tget new.coeff g
  let s := { s with
    plan.tab := some new, plan.cache := s.plan.cache.filter (fun e => kept (e.1 / 2 ^ 64)),
    plan.fencedDisp := [], plan.fencedRout := [], plan.badWords := [], plan.reloading := [] }
  let s := (poolIds s).foldl (fun s p =>
    if (tget s.mem.pools p).isNone then createPool p (leAt b 24 4) s
    else if pairPool p s && !(tgetD old.pools p {}).dual then joinMembers p s
    else s) s
  (poolIds s).foldl (fun s p =>
    if (tget new.targets p).isNone then s
    else if (poolRec p s).reshape.st = 1 ∨ (poolRec p s).reshape.st = 2 then updPool p (fun x => { x with reshape.hash := new.hash }) s
    else updPool p (fun x => { x with reshape := { st := 1, hash := new.hash, rows := (tgetD new.targets p {}).rows } }) s) s

end Sys2Proof.Machine
end

