-- ==== Sys2Proof/Machine/Joint.lean ====
section
/-! DEFINITION. Sys2Proof/Machine/Joint.lean: what a shared ledger record does when it commits, and what becomes of
commits and quiesces when the pair leaves PAIRED (10 R372 to R374). -/

namespace Sys2Proof.Machine

/-- The limits of profile parameters (02 R66). -/
def profileOk (p : Profile) : Bool :=
  decide (p.name.length = 16) && decide (p.dirtyCapLimit ≤ 64) && decide (1 ≤ p.cqCapDefault ∧ p.cqCapDefault ≤ 65536) &&
  decide (1 ≤ p.hedgeDelay ∧ p.hedgeDelay ≤ 1000 ∧ p.hedgeDelay < p.suspectLatency) &&
  decide (100 ≤ p.suspectLatency ∧ p.suspectLatency ≤ 10000 ∧ p.suspectLatency < p.failLatency) &&
  decide (1000 ≤ p.failLatency ∧ p.failLatency ≤ 60000) && decide (1 ≤ p.suspectCount ∧ p.suspectCount ≤ 15) &&
  decide (1 ≤ p.suspectWindow ∧ p.suspectWindow ≤ 600) && decide (50 ≤ p.retirePctUsed ∧ p.retirePctUsed ≤ 100) &&
  decide (p.rebuildPriority ≤ 7) && decide (1 ≤ p.patrolPeriod ∧ p.patrolPeriod ≤ 365) &&
  decide (1 ≤ p.throttleGrace ∧ p.throttleGrace ≤ 300) && decide (1 ≤ p.laneIdleUs ∧ p.laneIdleUs ≤ 65535) &&
  decide (p.minLanes ≤ 7)

/-- Profile `n` as the ledger holds it. -/
def ledProfile (n : Nat) (s : State) : Profile := tgetD s.led.profiles n (defaultProfile n)

/-- A change of the profile in force: intake holds until the quiesce (02 R70), which a joint quiesce has begun already (10
R374). -/
def profileChange (n : Nat) (s : State) : State :=
  { s with plan.quiesceSince := some ((s.pair.jq.map (·.since)).getD s.now), plan.nextProfile := some n }

/-- Ports whose member served a slot that has another member now, or none (08 R303). -/
def leavePorts (p n : Nat) (s : State) : State :=
  (s.mem.ports.filter (fun e => e.2.cls == .serving p n)).foldl (fun s e => updMport e.1 (fun m => { m with cls := .stale p n }) s) s

/-- The standby raises the events of the pool too (10 R375): lost extents and lost writes that the owner's record adds, and the
rebuild's progress. -/
def peerEvents (p : Nat) (was s : State) : State :=
  let extents (x : State) : Nat := (x.mem.lostE.filter (fun e => e.pool % 8 == p)).length
  let s := if extents was < extents s then event 0x0004 p (extents s - extents was) s else s
  let s := (s.cache.lostW.filter (fun e => e.1 / 2 ^ 43 % 8 == p)).foldl (fun s (k, r) =>
    let n := (secsOf (r.mask &&& ~~~ (((tget was.cache.lostW k).map (·.mask)).getD 0))).length
    if n = 0 then s else event 0x0005 r.volume n s) s
  let left := rebuildLeft p s
  let before := rebuildPercent p was
  let s := updPool p (fun x => { x with rebuildTotal := if left = 0 then 0 else max x.rebuildTotal left }) s
  let after := rebuildPercent p s
  if left = 0 then (if rebuildLeft p was = 0 then s else event 0x0003 p (100 + 2 ^ 31) s)
  else if before / 10 < after / 10 then event 0x0003 p after s else s

/-- A pool record of this module has landed (10 R372): the boundaries that it brings are in force from now on (04 R149; 08 R325; 09 R349,
R353). -/
def landPool (p : Nat) (r : PoolShare) (s : State) : State :=
  let s := r.moves.foldl (fun s m => match relocOf p (m.cell / 64) (m.cell % 64) s with
    | some x => if x.fromSlot == m.fromSlot && x.fromB == m.fromB && x.toSlot == m.toSlot && x.toB == m.toB && !x.settled &&
        decide (x.boundary < m.boundary) then cellTo p (m.cell / 64) (m.cell % 64) m.boundary s else s
    | none => s) s
  let s := r.slots.foldl (fun s (n, _, _, _, b) =>
    if (slotRec p n s).st == .rebuilding && decide ((slotRec p n s).restore < b) then walkTo p n b s else s) s
  match walking p s with
  | none => s
  | some x =>
    if r.reshape.1 = 3 then poolCommit p (reshapeEnd p s)
    else if x.b < r.reshape.2.1 || x.window.any (·.homed) then reshapeDone p (reshapeTo p r.reshape.2.1 s)
    else s

/-- A shared record commits here: on the initiator at its commit point, on the peer at the decision, or alone. -/
def applyShared (r : SharedRec) (mine : Bool) (s : State) : State :=
  match r with
  | .profile n p =>
    let s := ledCommitRec (0x20 * 65536 + n.val) { s with led.profiles := tset s.led.profiles n.val p }
    if s.dev.profile.toNat = n.val then profileChange n.val s else s
  | .profileLock l => ledCommitRec (0x21 * 65536) { s with led.profLock := l.map Fin.val }
  | .planImage b => commitImage b s
  | .planKeys ks => ledCommitRec (0x13 * 65536) { s with led.keys := ks }
  | .poolOwner p node e =>
    if node.toNat = s.led.cohort then ownerHere p.val e s
    else ledCommit (updPool p.val (fun x => { x with owner := node.toNat, epoch := e }) s)
  | .pairConfig b => ledCommitRec (0x38 * 65536) { s with led.pairCfg := b }
  | .profileInForce n => profileChange n.val s
  | .poolRecord p r =>
    if mine then ledCommit (landPool p.val r s)
    else
      let s := if r.reshape.1 = 3 && (walking p.val s).isSome then
          let gone := removedSlots p.val s
          updPool p.val (fun x => { x with slots := x.slots.filter (fun e => !gone.contains e.1) }) (adoptTarget p.val s)
        else s
      let s := r.slots.foldl (fun s (n, st, why, gen, b) =>
        let old := (slotRec p.val n s).st
        let s := updSlot p.val n (fun x => { x with st := slotStOf st, reason := why, labelGen := gen, restore := b,
                                                    port := if st = 0 ∨ (st = 5 ∧ old != .rebuilding) then none else x.port }) s
        let s := match (slotRec p.val n s).port with
          | none => leavePorts p.val n s
          | some _ => s
        if old = slotStOf st then s else event 0x0001 (n + p.val * 128) (st + old.code * 16 + why * 256) s) s
      peerEvents p.val s (seekMembers p.val (ledCommit (takeShare p.val r s)))
  | .pairEpoch e => ledCommit { s with led.pairEpoch := e }
  | .previousImage b => ledCommitRec (0x11 * 65536) { s with led.previous := b }

/-- Whether two proposals are of one shared record. -/
def sameRecord (a b : SharedRec) : Bool :=
  match a, b with
  | .profile n _, .profile m _ => n == m
  | .profileLock _, .profileLock _ => true
  | .planImage _, .planImage _ => true
  | .planKeys _, .planKeys _ => true
  | .pairConfig _, .pairConfig _ => true
  | .profileInForce _, .profileInForce _ => true
  | _, _ => false

/-- Both modules propose the same record at once: the change of the lower cohort node goes through, and the other is refused (log
entry 84). -/
def crossed (r : SharedRec) (s : State) : Bool :=
  decide (s.led.cohort < s.led.peer) && s.pair.joint.any (fun c => sameRecord c.r r)

/-- The peer's check of a proposed record (R372 step 2, 02 R53), and of two that cross (log entry 84). -/
def sharedOk (r : SharedRec) (s : State) : Bool :=
  !commitsRefused s && !crossed r s && (match r with
  | .profile _ p => profileOk p
  | .profileLock _ => true
  | .planImage b => (imageBad true (imageNodes s) check9 b s).isNone
  | .planKeys ks => decide (ks.length ≤ 4) && ks.all (fun k => k.length == 64)
  | .poolOwner p node e => (node.toNat == s.led.cohort || node.toNat == s.led.peer) && e == (poolRec p.val s).epoch + 1
  | .pairConfig _ => true
  | .profileInForce _ => s.led.profLock.isNone
  | .poolRecord p _ => (poolRec p.val s).owner == s.led.peer
  | .pairEpoch e => e == s.led.pairEpoch + 1
  | .previousImage _ => true)

/-- The reason of a refusing vote (R358): that of the image's failed check, else PEER_REFUSED (log entry 75). -/
def voteReason (r : SharedRec) (s : State) : Nat :=
  match r with
  | .planImage b => ((imageBad true (imageNodes s) check9 b s).map (·.2)).getD 0x0202
  | _ => 0x0202

/-- Change a shared record for an admin operation: at once when the module is unpaired, jointly while PAIRED, refused
otherwise (R372, R373). `quiesce` asks for the joint quiesce of R374; `auth` is the authorisation sequence that the
commit accepts (15 R516, R518). A selection of the profile in force is refused outside PAIRED like a shared record's change (log entry
84). -/
def changeShared (c : Nat) (quiesce : Bool) (r : SharedRec) (s : State) (auth : Option Nat := none) : State :=
  if !s.led.paired then
    let s := match auth with
      | some n => { s with led.authSeq := n, sec.accepted := sat32 s.sec.accepted 1 }
      | none => s
    let s := applyShared r true s
    if s.plan.switching || s.plan.quiesceSince.isSome then
      updCmd c (fun x => { x with ph := .waiting }) { s with plan.waiter := some c }
    else finishCmd c 0 0 s
  else if !pairUp s then finishCmd c 0x0202 0 s
  else
    let s := updCmd c (fun x => { x with ph := .waiting }) s
    if quiesce then startQuiesce r (some c) s else propose { r := r, cmd := some c, auth := auth } s

/-- The joint quiesce ends without a change: both modules resume (R374). -/
def dropQuiesce (s : State) : State :=
  match s.pair.jq with
  | none => s
  | some q =>
    let s := { s with pair.jq := none, plan.jointHold := false, pair.joint := s.pair.joint.filter (fun c => !c.quiesced) }
    nextJoint (placeHeld (match q.cmd with
      | some c => finishCmd c 0x0202 0 s
      | none => s))

/-- The pair leaves PAIRED: a joint quiesce before its commit point ends; its proposal is aborted (R374). A transfer
that runs ends (R383): an owner that has not yet released every member takes its reservations back, one that has released them asks
the arbiters, and the peer goes by what it has acquired. -/
def leavePaired (s : State) : State :=
  let s := match s.pair.jq with
    | none => s
    | some q => if q.committed then s
      else dropQuiesce (if q.proposed then sendPair (.ledgerDecide false) s else s)
  let s := match s.pair.xfer with
    | .none => s
    | .drain => endXfer (some 0x0A04) s
    | .regain => s
    | .release => endXfer (some 0x0A04) (acquireAll s.pair.xferCur
        { acquiresLeft s.pair.xferCur s.pair.xferLeft s with pair.xferLeft := 0 })
    | _ =>
      let p := s.pair.xferCur
      let (n, s) := resvTo p (poolRec p s).arbs (.acquire (ownKey s)) (detach p s)
      let s := { s with pair.xfer := .regain, pair.xferLeft := n, pair.xferOk := 0, pair.xferBad := [] }
      if n = 0 then endXfer (some 0x0A04) s else s
  match s.pair.xferIn with
  | none => s
  | some p => if s.pair.xferLeft = 0 then xferStep p s else s

/-- What waits for a joint commit goes on: a slot's change takes effect, or the admin operation completes. -/
def jointEnd (c : JointC) (s : State) : State :=
  match c.act, c.cmd with
  | some (p, n, a), some k => slotAct k p n a s
  | _, some k => finishCmd k 0 0 s
  | _, none => s

/-- A joint commit of the initiator that has no vote: it commits alone when the peer is lost and the record is a pool
record of a pool that it owns, else it aborts; the owner then commits alone what its pool record says without the change (R373). -/
def settleJoint (lost : Bool) (c : JointC) (s : State) : State :=
  let alone := lost && (match c.r with
    | .poolRecord p _ => owns p.val s
    | .poolOwner p _ _ => owns p.val s
    | _ => false)
  let s := if alone then applyShared c.r true s else s
  if alone then jointEnd c s
  else match c.cmd, c.r with
    | some k, _ => finishCmd k 0x0202 0 s
    | none, .poolRecord p _ => if owns p.val s then ledCommit s else s
    | none, _ => s

/-- What a decision on the peer's loss does to commits in flight and to messages kept (R369, R373). -/
def endPairing (lost : Bool) (s : State) : State :=
  let cs := s.pair.joint
  let st := s.pair.staged
  let s := { s with pair := { s.pair with joint := [], staged := [], unacked := [] } }
  let s := cs.foldl (fun s c => settleJoint lost c s) s
  let s := if lost then st.foldl (fun s r => applyShared r false s) s else s
  endJoint (updJq (fun q => { q with peerApplied := true }) s)

end Sys2Proof.Machine
end

