-- ==== Sys2Proof/Machine/PairRows.lean ====
section
/-! DEFINITION. Sys2Proof/Machine/PairRows.lean: the commands of the pair link and of the pair registers (10). -/

namespace Sys2Proof.Machine

/-! ## Delivery (10 R359) -/

/-- Send again every message kept (R359, R362). -/
def resendPair (s : State) : State := s.pair.unacked.foldl (fun s m => wirePair m.2.1 m.2.2 s) s

/-- The HELLO of this module (R358, R385). It carries the profile in force, from which formation judges a mismatch (log entry
36). -/
def mkHello (s : State) : PMsg :=
  .hello { commitSeq := s.led.seq, recSeqs := s.led.recSeq, planHash := (tab s).hash,
           poolOwner := (List.range 8).map (fun p => BitVec.ofNat 18 (poolRec p s).owner),
           poolEpoch := (List.range 8).map (fun p => (poolRec p s).epoch), profile := s.dev.profile }

/-- HELLO is sent. -/
def sendHello (s : State) : State := sendPair (mkHello s) { s with pair.helloSent := true }

/-- Entry into SUSPECT (R362, R377 to R379). -/
def enterSuspect (s : State) : State :=
  if !mirroring s then s
  else
    let s := { s with pair := { s.pair with
      suspects := sat32 s.pair.suspects 1, suspectAt := s.now, windowAt := s.now, deciding := true,
      undecided := poolsOf s.led.peer s, peerKeys := [], taken := [], lastBeat := s.now - 5000,
      helloIn := none, helloOk := false, helloSent := false, hbTxRun := 0, hbRxRun := 0 } }
    let s := leavePaired (setPairSt 5 s)
    if s.pair.linkUp then sendHello (sendPair .suspectNotice s) else s

/-- The pair link leaves L0 (R362). -/
def pairDown (s : State) : State :=
  enterSuspect { s with pair.linkUp := false, pair.width := 0, pair.helloSent := false, pair.helloIn := none }

/-- A message of a class arrives (R359): a CRC failure retrains the link; a message already delivered, of another epoch
or of another node is discarded; classes 1 and 2 take no message out of turn. -/
def deliver (cls : Nat) (h : PairHdr) (f : State → State) (s : State) : State :=
  if !s.led.paired then s
  else if !h.crcOk then raiseFree 0x181 0x34 (pairDown s)
  else
    let last := tgetD s.pair.recvSeq cls 0
    if h.node.toNat != s.led.peer || h.epoch != s.led.pairEpoch || h.seq ≤ last ||
       ((cls == 1 || cls == 2) && h.seq != last + 1) then s
    else f { s with pair.recvSeq := tset s.pair.recvSeq cls h.seq }

/-- Messages of a class up to and including the first that satisfies a test are acknowledged. -/
def ackThrough (cls : Nat) (f : PMsg → Bool) (s : State) : State :=
  match s.pair.unacked.find? (fun m => m.1 == cls && f m.2.2) with
  | none => s
  | some (_, k, _) => { s with pair.unacked := s.pair.unacked.filter (fun m => !(m.1 == cls && m.2.1 ≤ k)) }

/-- Acknowledge mirror messages (R358). -/
def ackMirror (s : State) : State := sendPair (.mirrorAck (tgetD s.pair.recvSeq 1 0)) s

/-! ## Heartbeats and SUSPECT (R360, R362) -/

/-- A module in SUSPECT is back in PAIRED (R362): three heartbeats in a row have passed each way. -/
def resumePaired (s : State) : State :=
  if s.pair.st = 5 && s.pair.linkUp && s.pair.helloOk && 3 ≤ s.pair.hbTxRun && 3 ≤ s.pair.hbRxRun then
    resendPair (setPairSt 4 { s with pair.deciding := false, pair.undecided := [], pair.peerKeys := [] })
  else s

/-- Whether heartbeats are sent: PAIRED, RESYNC, and SUSPECT after the HELLO exchange. Log entry 34. -/
def beats (s : State) : Bool := s.pair.linkUp && (mirroring s || (s.pair.st == 5 && s.pair.helloOk))

/-- HEARTBEAT_SEND (R358). -/
def execHeartbeatSend (s : State) : Res :=
  go (if !beats s then s
      else
        let s := timeTo (s.pair.hbTxAt + 1000) s
        let s := { s with pair.hbTx := s.pair.hbTx + 1, pair.hbTxAt := s.now, pair.hbTxRun := s.pair.hbTxRun + 1 }
        resumePaired (sendPair (.heartbeat
          { hbSeq := s.pair.hbTx, peerState := BitVec.ofNat 4 s.pair.st, dirtyCap := s.cache.capUnits, commitSeq := s.led.seq,
            profile := s.dev.profile }) s))

/-- A heartbeat is received (R360). -/
def heartbeatIn (m : HeartbeatMsg) (s : State) : State :=
  let inRow := m.hbSeq == s.pair.hbRx + 1
  resumePaired { s with pair := { s.pair with
    hbRx := m.hbSeq, hbRxAt := s.now, hbRxRun := if inRow then s.pair.hbRxRun + 1 else 1, peerSt := m.peerState.toNat,
    peerCap := m.dirtyCap, peerCommit := m.commitSeq, peerProfile := m.profile.toNat,
    mismatch := s.pair.mismatch && m.profile != s.dev.profile } }

/-- HEARTBEAT (R360). -/
def execHeartbeat (h : PairHdr) (m : HeartbeatMsg) (s : State) : Res := go (deliver 0 h (heartbeatIn m) s)

/-- HEARTBEAT_TIMEOUT (R362). -/
def execHeartbeatTimeout (s : State) : Res :=
  go (if mirroring s then enterSuspect (timeTo (s.pair.hbRxAt + 3000) s) else s)

/-- SUSPECT_NOTICE (R362). -/
def execSuspectNotice (h : PairHdr) (s : State) : Res := go (deliver 0 h enterSuspect s)

/-! ## Formation and rejoin (R385, R386) -/

/-- Mirror lines and mirror entries of a pool go (R384, R386); answers how many dirty sectors were dropped. -/
def dropPoolDirty (p : Nat) (s : State) : Nat × State :=
  let secs := s.cache.tags.flatMap (fun e => if e.2.pool % 8 = p then
    (secsOf (e.2.valid &&& e.2.dirty)).map (fun sec => (e.1, sec)) else [])
  let lines := (idxLines s).filter (fun (l, _) => l % 8 == p)
  let inVault := (lines.map (fun (l, line) => (secsOf (unrestoredMask l line s)).length)).sum
  let kill (e : IdxEnt) : IdxEnt := if e.pool % 8 = p then { e with dead := true, restored := e.mask } else e
  let s := { s with pow.index := s.pow.index.map kill,
                    cache.invVault := s.cache.invVault.filter (fun v => v.1 % 8 != p),
                    pipe.cmds := s.pipe.cmds.map (fun e => (e.1, { e.2 with waitVault := e.2.waitVault.filter (fun v => v.1 % 8 != p) })) }
  (secs.length + inVault, secs.foldl (fun s (x, sec) => unwait x sec (dropSec x sec s)) (freeIndex s))

/-- The sectors of a line as a message carries them. -/
def lineSectors (l line : Nat) (s : State) : List LineSector :=
  let mk (sec : Nat) (d : List Byte) : LineSector :=
    { pool := Fin.ofNat 16 l, line := line, sector := Fin.ofNat 16 sec, data := d, mask := shadowMask l line s ||| unrestoredMask l line s }
  let cached := match findLine l line s with
    | some x => (secsOf ((tagAt x s).valid &&& (tagAt x s).dirty)).map (fun sec => mk sec (cacheSec x sec s))
    | none => []
  let stored := (secsOf (unrestoredMask l line s)).filterMap (fun sec =>
    (idxInForce s l line sec).bind (fun e => (vaultSec e sec s).map (mk sec)))
  cached ++ stored

/-- The dirty sectors of a line go to the peer, in messages that R357's payload bound admits; a line without any goes as one empty
message. -/
def sendLine (l line : Nat) (s : State) : State :=
  match piecesOf sectorsPerMsg (lineSectors l line s) with
  | [] => sendPair (.resyncLine [] none) s
  | xs => xs.foldl (fun s x => sendPair (.resyncLine x none) s) s

/-- Lines of a pool that hold dirty sectors. -/
def dirtyLinesOf (p : Nat) (s : State) : List (Nat × Nat) :=
  ((s.cache.tags.filter (fun e => e.2.pool % 8 == p && e.2.valid &&& e.2.dirty != 0)).map (fun e => (e.2.pool, tagLine e.1 e.2)) ++
   (idxLines s).filter (fun (l, line) => l % 8 == p && unrestoredMask l line s != 0)).eraseDups

/-- RESYNC begins (R386): mirror lines of the peer's pools go, then every dirty line and open entry of the own pools is
sent. -/
def enterResync (s : State) : State :=
  let s := { s with pair := { s.pair with hbRxAt := s.now, hbTxAt := s.now, resyncIn := false, resyncOut := true, taken := [] } }
  let s := (poolsOf s.led.cohort s).foldl (fun s p => serveOwn p s) { s with pair.ownCheck := [] }
  let far := poolsOf s.led.peer s
  let s := far.foldl (fun s p => (dropPoolDirty p s).2) s
  let s := { s with jnl.mirror := s.jnl.mirror.filter (fun e => !far.contains (e.2.pool % 8)), pair.gaps := [] }
  let s := setPairSt 3 s
  let s := (poolsOf s.led.cohort s).foldl (fun s p =>
    (dirtyLinesOf p s).foldl (fun s (l, line) => sendLine l line s) s) s
  let s := (s.jnl.own.filter (fun e => e.2.st == 1 && pairPool e.2.pool s && owns e.2.pool s)).foldl (fun s e =>
    sendPair (.resyncLine [] (some (jnlWire e.2))) (setMirrored e.1 s)) s
  sendPair .resyncDone s

/-- Both modules have sent everything: STANDBY and PAIRED (R386). -/
def endResync (s : State) : State :=
  if s.pair.st != 3 || !s.pair.resyncIn || !s.pair.resyncOut then s
  else
    let far := poolsOf s.led.peer s
    setPairSt 4 { s with pair.detached := s.pair.detached.filter (fun p => !far.contains p) }

/-- The shared records but the pool records and the active image, which the hash check makes equal (R372, R385), with their places in
the ledger. -/
def sharedRecs (s : State) : List (Nat × SharedRec) :=
  (List.range 4).map (fun n => (0x20 * 65536 + n, .profile (Fin.ofNat 4 n) (ledProfile n s))) ++
  [(0x21 * 65536, .profileLock (s.led.profLock.map (Fin.ofNat 4))), (0x13 * 65536, .planKeys s.led.keys),
   (0x38 * 65536, .pairConfig s.led.pairCfg), (0x11 * 65536, .previousImage s.led.previous)]

/-- Whether this module gives its copy of a shared record (R385): it has the higher commit sequence for it; the lower cohort node
where they are equal (log entry 36). -/
def gives (m : HelloMsg) (k : Nat) (s : State) : Bool :=
  let far := ((m.recSeqs.find? (fun e => e.1 == k)).map (·.2)).getD 0
  let near := tgetD s.led.recSeq k 0
  decide (far < near) || (far == near && decide (s.led.cohort < s.led.peer))

/-- The giver's records have all landed: the epoch follows (R385). -/
def nextForming (s : State) : State :=
  if s.pair.st = 2 && s.pair.giver && s.pair.joint.isEmpty then
    propose { r := .pairEpoch (s.led.pairEpoch + 1) } { s with pair.giver := false }
  else s

/-- The checks of formation pass (R385): SEQs restart, pool owners follow the higher epoch, and the module with the
higher commit sequence for a shared record gives it. The lower cohort node raises the epoch; the mismatch event's DETAIL
holds this module's profile in byte 0 and the peer's in byte 1 (log entry 36). -/
def beginForming (m : HelloMsg) (s : State) : State :=
  let s := { s with pair := { s.pair with
    giver := decide (s.led.cohort < s.led.peer), sendSeq := s.pair.sendSeq.filter (fun e => e.1 == 0), recvSeq := s.pair.recvSeq.filter (fun e => e.1 == 0),
    unacked := [], joint := [], staged := [], deciding := false, undecided := [] } }
  let s := (List.range 8).foldl (fun s p =>
    let e := m.poolEpoch.getD p 0
    if pairPool p s && (poolRec p s).epoch < e then
      updPool p (fun r => { r with owner := (m.poolOwner.getD p 0).toNat, epoch := e }) s
    else s) s
  let s := if m.profile = s.dev.profile then { s with pair.mismatch := false }
    else recEvent 0x184 0x0004 s.led.peer (leBytes 1 s.dev.profile.toNat ++ leBytes 1 m.profile.toNat) { s with pair.mismatch := true }
  let s := (sharedRecs s).foldl (fun s (k, r) => if gives m k s then propose { r := r } s else s) s
  nextForming ((poolsOf s.led.cohort s).foldl (fun s p => propose { r := poolShared p s } s) s)

/-- Formation refused (R385): event and message. -/
def refuseForming (check : Nat) (s : State) : State :=
  raiseFree 0x181 0x34 (recEvent 0x181 0x0042 s.led.peer (leBytes 1 check) s)

/-- HELLO has gone both ways with the link in L0 (R362, R385). -/
def helloDone (h : PairHdr) (s : State) : State :=
  match s.pair.helloIn with
  | none => s
  | some m =>
    if !s.pair.linkUp || !s.pair.helloSent || s.pair.st = 0 || mirroring s then s
    else if s.pair.st = 5 then
      if h.epoch = s.led.pairEpoch && h.node.toNat = s.led.peer && !s.pair.helloOk then
        { s with pair.helloOk := true, pair.hbTxRun := 0, pair.hbRxRun := 0 }
      else s
    else
      let s := setPairSt 2 s
      if h.node.toNat != s.led.peer then refuseForming 0 s
      else if m.planHash != (tab s).hash then refuseForming 1 s
      else beginForming m s

/-- HELLO (R385): it is delivered whatever its node and epoch, since formation checks them; its SEQ opens the class
anew. Log entry 30. -/
def execHello (h : PairHdr) (m : HelloMsg) (s : State) : Res :=
  go (if !s.led.paired then s
      else if !h.crcOk then raiseFree 0x181 0x34 (pairDown s)
      else
        let s := { s with pair.recvSeq := tset s.pair.recvSeq 0 h.seq, pair.helloIn := some m,
                          pair.peerCommit := m.commitSeq, pair.peerProfile := m.profile.toNat }
        let s := if s.pair.linkUp && !s.pair.helloSent && !mirroring s then sendHello s else s
        helloDone h s)

/-- PAIR_LINK_UP (R385). -/
def execPairLinkUp (width : Fin 9) (s : State) : Res :=
  go (let s := { s with pair := { s.pair with
        linkUp := true, width := width.val, linkSeen := true,
        retrains := if s.pair.linkSeen then min 65535 (s.pair.retrains + 1) else s.pair.retrains } }
      if !s.led.paired || !s.dev.ready then s else resendPair (sendHello s))

/-- PAIR_LINK_DOWN (R362). -/
def execPairLinkDown (s : State) : Res := go (pairDown s)

/-! ## Mirroring (R367 to R371, R386) -/

/-- Install sectors; none when one of them finds no way. -/
def installAll (secs : List LineSector) (s : State) : Option State :=
  secs.foldl (fun acc x => acc.bind (fun s =>
    let (fits, s') := mirrorSector x.pool.val x.line x.sector.val (padTo 4096 x.data) s
    if fits then some { s' with pair.gaps := s'.pair.gaps.filter (· != (x.pool.val, x.line, x.sector.val)) } else none)) (some s)

/-- MIRROR_WRITE (R367): installed as dirty and acknowledged; a message that cannot be installed is not taken. -/
def execMirrorWrite (h : PairHdr) (sectors : List LineSector) (s : State) : Res :=
  go (deliver 1 h (fun t =>
    if (mirroring s || s.pair.st == 5) && cacheOn s && sectors.all (fun x => !owns x.pool.val s) then
      match installAll sectors t with
      | some t => ackMirror t
      | none => s
    else s) s)

/-- MIRROR_ACK (R367). -/
def execMirrorAck (h : PairHdr) (upTo : Nat) (s : State) : Res :=
  go (deliver 1 h (fun s =>
    { s with pair.unacked := s.pair.unacked.filter (fun m => !(m.1 == 1 && m.2.1 ≤ upTo)) }) s)

/-- MIRROR_CLEAN (R368). -/
def execMirrorClean (h : PairHdr) (pool : Fin 16) (line : Nat) (mask : BitVec 16) (s : State) : Res :=
  go (deliver 1 h (fun s =>
    let s := if owns pool.val s then s
      else (secsOf mask).foldl (fun s sec =>
        match (findLine pool.val line s).filter (fun x => (tagAt x s).valid.getLsbD sec && (tagAt x s).dirty.getLsbD sec) with
        | some x => unwait x sec (makeClean x sec s)
        | none => if unrestored pool.val line sec s then settleVault pool.val line sec s else s)
        { s with pair.gaps := s.pair.gaps.filter (fun g => !(g.1 == pool.val && g.2.1 == line && mask.getLsbD g.2.2)) }
    ackMirror s) s)

/-- A place for a mirror entry. -/
def freeMirror (s : State) : Nat := ((List.range 4096).find? (fun i => (tgetD s.jnl.mirror i {}).st != 1)).getD 0

/-- Write an entry of the peer into the mirror area (07 R282, 10 R369). -/
def storeMirror (e : JnlWire) (s : State) : State :=
  let j : Jnl :=
    { seq := e.seq, row := e.row, pool := e.pool.val, kind := e.kind.toNat, positions := e.positions, slice := e.slice,
      first := e.first, count := e.count, st := 1, cached := e.dataCached, mirrored := true, reloc := e.reloc, newGen := e.newGen,
      context := e.context }
  { s with jnl.mirror := tset s.jnl.mirror (freeMirror s) j, jnl.mirrorNext := max s.jnl.mirrorNext (j.seq + 1),
           jnl.mirrorHash := (tab s).hash, jnl.mirrorShift := tset s.jnl.mirrorShift (j.pool % 8) (tgetD s.jnl.shift (j.pool % 8) 6) }

/-- JNL_MIRROR (R369). -/
def execJnlMirror (h : PairHdr) (e : JnlWire) (s : State) : Res := go (deliver 1 h (fun s => ackMirror (storeMirror e s)) s)

/-- JNL_RETIRE (R369). -/
def execJnlRetire (h : PairHdr) (seq : Nat) (s : State) : Res :=
  go (deliver 1 h (fun s =>
    let retire (e : Nat × Jnl) : Nat × Jnl := if e.2.seq = seq && e.2.st = 1 then (e.1, { e.2 with st := 2 }) else e
    ackMirror { s with jnl.mirror := s.jnl.mirror.map retire }) s)

/-- A line that cannot be installed is a mirror gap, and the owner is asked for it again (R368; log entry 82). -/
def missLine (secs : List LineSector) (s : State) : State :=
  match secs with
  | [] => s
  | x :: _ => sendPair (.resyncLine [{ x with data := [] }] none)
      { s with pair.gaps := (secs.map (fun y => (y.pool.val, y.line, y.sector.val))).filter (fun g => !s.pair.gaps.contains g) ++ s.pair.gaps }

/-- RESYNC_LINE (R368, R386): installed by the standby; one that carries no data asks the owner for the line. -/
def execResyncLine (h : PairHdr) (sectors : List LineSector) (entry : Option JnlWire) (s : State) : Res :=
  go (deliver 4 h (fun s =>
    let s := match entry with
      | some e => storeMirror e s
      | none => s
    match sectors.find? (fun x => owns x.pool.val s) with
    | some x => sendLine x.pool.val x.line s
    | none => (installAll sectors s).getD (missLine sectors s)) s)

/-- RESYNC_DONE (R386). -/
def execResyncDone (h : PairHdr) (s : State) : Res :=
  go (deliver 4 h (fun s => endResync { s with pair.resyncIn := true }) s)

/-! ## Joint commits and quiesces (R372, R374) -/

/-- LEDGER_PREPARE: checked, staged, voted on. -/
def execLedgerPrepare (h : PairHdr) (r : SharedRec) (s : State) : Res :=
  go (deliver 2 h (fun s =>
    if sharedOk r s then sendPair (.ledgerVote true 0) { s with pair.staged := s.pair.staged ++ [r] }
    else
      let t := sendPair (.ledgerVote false (voteReason r s)) s
      if jointRecord r s then dropQuiesce t else t) s)

/-- After a record's commit: RESYNC follows the pair epoch's. -/
def afterShared (r : SharedRec) (s : State) : State :=
  match r with
  | .pairEpoch _ => enterResync s
  | _ => s

/-- A vote on the oldest proposal (R372 step 3). A pool record that no operation waits for is proposed again after a refusing vote (log
entry 84). -/
def voteIn (accept : Bool) (s : State) : State :=
  let s := ackThrough 2 (fun m => match m with
    | .ledgerPrepare _ => true
    | _ => false) s
  match s.pair.joint with
  | [] => s
  | c :: rest =>
    let s := { s with pair.joint := rest }
    if accept then
      let s := match c.auth with
        | some n => { s with led.authSeq := n, sec.accepted := sat32 s.sec.accepted 1 }
        | none => s
      let s := applyShared c.r true (sendPair (.ledgerDecide true) s)
      let s := match c.r with
        | .poolOwner p _ _ => if s.pair.xfer = .commit && s.pair.xferCur = p.val then
            endXfer none (sendPair (.xfer (.done p)) s) else s
        | _ => s
      let s := if c.quiesced then jointCommitted s else jointEnd c s
      nextForming (afterShared c.r s)
    else if c.quiesced then dropQuiesce s
    else nextForming (match c.cmd with
      | some k => finishCmd k 0x0202 0 s
      | none => (match c.r with
        | .poolOwner p _ _ => if s.pair.xfer = .commit && s.pair.xferCur = p.val then endXfer (some 0x0A04) s else s
        | .poolRecord p _ => if owns p.val s then { s with pair.again := nins s.pair.again p.val } else s
        | _ => s))

/-- LEDGER_VOTE. -/
def execLedgerVote (h : PairHdr) (accept : Bool) (s : State) : Res := go (deliver 2 h (voteIn accept) s)

/-- LEDGER_DECIDE (R372 step 4). -/
def execLedgerDecide (h : PairHdr) (commit : Bool) (s : State) : Res :=
  go (deliver 2 h (fun s =>
    let s := ackThrough 2 (fun m => match m with
      | .ledgerVote .. => true
      | _ => false) s
    match s.pair.staged with
    | [] => s
    | r :: rest =>
      let s := { s with pair.staged := rest }
      if commit then
        let s := applyShared r false s
        let s := if jointRecord r s then jointCommitted s else s
        afterShared r s
      else if jointRecord r s then dropQuiesce s else s) s)

/-- The peer's QUIESCE has come (R374 step 2). Where this module has begun a joint quiesce too, that of the lower cohort node goes first:
the other keeps its place in front of the changes that wait (log entry 84). -/
def quiesceIn (bounded : Bool) (s : State) : State :=
  match s.pair.jq with
  | none => { s with pair.jq := some { since := s.now, bounded := bounded }, plan.jointHold := true }
  | some q => match q.r with
    | some r =>
      if s.led.cohort < s.led.peer then s
      else { s with pair.jq := some { q with r := none, cmd := none, bounded := bounded }, pair.jqWait := (r, q.cmd) :: s.pair.jqWait }
    | none => s

/-- QUIESCE (R374 step 2). Whether the 1 s of 02 R70 bounds the quiesce comes with it (log entry 75). -/
def execQuiesce (q : QuiesceIn) (s : State) : Res := go (deliver 2 q.hdr (quiesceIn q.bounded) s)

/-- QUIESCE_DONE (R374). -/
def execQuiesceDone (h : PairHdr) (s : State) : Res :=
  go (deliver 2 h (fun s =>
    let s := ackThrough 2 (fun m => match m with
      | .quiesce _ => true
      | .quiesceDone => true
      | .ledgerDecide _ => true
      | _ => false) s
    match s.pair.jq with
    | none => s
    | some q => if q.peerDone then endJoint (updJq (fun q => { q with peerApplied := true }) s)
                else updJq (fun q => { q with peerDone := true }) s) s)

/-! ## Forwarding (R371, R375, R376) -/

/-- FORWARD_CMD: the owner runs the entry with its own. -/
def execForwardCmd (h : PairHdr) (tag : Nat) (entry : List Byte) (s : State) : Res :=
  go (deliver 3 h (fun s =>
    let (c, s) := newCmd (.peer tag) 0 entry s
    match volumeBad entry s with
    | some (st, res) => finishCmd c st (BitVec.ofNat 32 res) s
    | none =>
      if namesVolume entry && ownOf (entVol entry) s != .here then finishCmd c 0x0201 0 s else startIo c s) s)

/-- A begun command of the peer by its tag. -/
def peerCmd (tag : Nat) (s : State) : Option Nat :=
  (s.pipe.cmds.find? (fun e => e.2.src == .peer tag)).map (·.1)

/-- A message of write data of a forwarded command has come; with the last of them the command goes on. -/
def forwardIn (c : Nat) (data : List Byte) (s : State) : State :=
  match cmdOf c s with
  | none => s
  | some x =>
    let n := data.length / 4096
    let t : Tbl (List Byte) := x.wdata ++ (List.range n).map (fun i => (x.got + i, slice data (4096 * i) 4096))
    if x.got + n < x.count then updCmd c (fun y => { y with wdata := t, got := y.got + n }) s
    else hostData c (some ((List.range x.count).flatMap (fun o => padTo 4096 (tgetD t o []))))
      (updCmd c (fun y => { y with got := y.got + n, ph := if y.ph = .begun then .data else y.ph }) s)

/-- FORWARD_DATA: write data reaches the owner, read data the module that forwarded. -/
def execForwardData (h : PairHdr) (write : Bool) (tag : Nat) (data : List Byte) (s : State) : Res :=
  go (deliver 3 h (fun s =>
    if write then
      match peerCmd tag s with
      | some c => forwardIn c data s
      | none => s
    else match cmdOf tag s with
      | some x =>
        if x.ph = .forwarded then
          scatter x.port (dropRuns (4096 * x.got) x.sgl) data (updCmd tag (fun y => { y with got := y.got + data.length / 4096 }) s)
        else s
      | none => s) s)

/-- A forwarded write has ended: the sectors that found no place here as mirror lines are asked for, unless the owner wrote them through
and holds nothing dirty (R368, R371). -/
def fillGaps (x : Cmd) (through : Bool) (s : State) : State :=
  if x.opcode != 2 && x.opcode != 3 then s
  else
    let secs := (cmdSecs x.volume x.lba x.count s).map (fun (l, row, pos, ss) =>
      let (line, sec) := lineOf l row pos ss s
      (l, line, sec))
    let miss := secs.filter (fun g => s.pair.gaps.contains g)
    if through then { s with pair.gaps := s.pair.gaps.filter (fun g => !miss.contains g) }
    else ((miss.map (fun g => (g.1, g.2.1))).eraseDups).foldl (fun s (l, line) =>
      sendPair (.resyncLine [{ pool := Fin.ofNat 16 l, line := line, sector := 0, data := [] }] none) s) s

/-- FORWARD_CPL: the owner's status becomes the command's own; a FLUSH of every pool goes on with its own lines. -/
def execForwardCpl (h : PairHdr) (e : ForwardEnd) (s : State) : Res :=
  go (deliver 3 h (fun s => match cmdOf e.tag s with
    | some x =>
      if x.ph = .forwarded then finishCmd e.tag e.status e.result (fillGaps x (e.result != 0) s)
      else if x.ph = .waiting && x.opcode = 4 then updCmd e.tag (fun y => { y with opsLeft := 0 }) s
      else s
    | none => s) s)

/-- MEMBER_REPORT (08 R328): a timeout fails the slot; an error counts as a read error. Log entry 35. -/
def execMemberReport (h : PairHdr) (pool : Fin 8) (slot : Fin 128) (timeout : Bool) (s : State) : Res :=
  go (deliver 3 h (fun s =>
    if !owns pool.val s then s
    else if timeout then slotFails pool.val slot.val 0x04 s
    else
      let s := updSlot pool.val slot.val (fun r =>
        { r with readErrs := lastDay r.readErrs s ++ [opSeconds s], readErrTotal := sat32 r.readErrTotal 1 }) s
      if 64 ≤ (slotRec pool.val slot.val s).readErrs.length then slotFails pool.val slot.val 0x07 s else s) s)

/-! ## Loss of the peer (R377 to R384) -/

/-- The peer is alive: PARTITIONED (R378); forwarded commands end with NOT_OWNER (R376). -/
def partition (s : State) : State :=
  let s := setPairSt 6 { s with pair.deciding := false, pair.undecided := [] }
  let s := endPairing false s
  let s := (s.pipe.cmds.filter (fun e => e.2.ph == .waiting && e.2.opcode == 4 && e.2.opsLeft != 0)).foldl
    (fun s e => finishCmd e.1 0x0201 0 s) s
  (poolsOf s.led.peer s).foldl (fun s p => refuseForwarded p s) s

/-- The loss of pools is confirmed (R378, R381). -/
def confirmLoss (pools : List Nat) (s : State) : State :=
  let s := { s with pair := { s.pair with takePools := 0, takeConfirm := min 65535 ((s.now - s.pair.hbRxAt) / 1000) } }
  let s := endPairing true (setPairSt 7 s)
  let s := { s with pipe.cmds := s.pipe.cmds.map (fun e =>
    (e.1, if e.2.ph == .waiting && e.2.opcode == 4 then { e.2 with opsLeft := 0 } else e.2)) }
  pools.foldl (fun s p => startTake p false s) s

/-- What the reads of the arbiters say of a pool (R378): none while fewer than two could be read, else whether the peer
is alive. -/
def peerAlive (p : Nat) (s : State) : Option Bool :=
  let seen := (List.range 3).filterMap (fun a => tget s.pair.peerKeys (p * 4 + a))
  if seen.any (fun k => k.1 != k.2) then some true
  else if seen.length < 2 then none
  else some false

/-- The decision 20 ms after the window began (R378). -/
def lossDecide (s : State) : State :=
  if !s.pair.deciding then s
  else
    let s := timeTo (s.pair.windowAt + 20000) s
    let alive := s.pair.undecided.filter (fun p => peerAlive p s == some true)
    let lost := s.pair.undecided.filter (fun p => peerAlive p s == some false)
    let open_ := s.pair.undecided.filter (fun p => peerAlive p s == none)
    let s := alive.foldl (fun s p => refuseForwarded p (detach p s)) s
    let s := { s with pair := { s.pair with
      undecided := open_, windowAt := s.now, deciding := !open_.isEmpty,
      peerKeys := s.pair.peerKeys.filter (fun e => !open_.contains (e.1 / 4)) } }
    if !lost.isEmpty then confirmLoss lost s
    else if open_.isEmpty && s.pair.st != 7 then partition s
    else s

/-- LOSS_DECISION (R378). -/
def execLossDecision (s : State) : Res := go (lossDecide s)

/-- FAREWELL (R378): the loss is confirmed at once. -/
def execFarewell (h : PairHdr) (s : State) : Res :=
  go (deliver 0 h (fun s =>
    if s.pair.st = 3 || s.pair.st = 4 || s.pair.st = 5 then
      let far := if s.pair.st = 5 then s.pair.undecided else poolsOf s.led.peer s
      let s := if s.pair.st = 5 then s else leavePaired { s with pair.suspectAt := s.now, pair.lastBeat := s.now - 5000, pair.taken := [] }
      let s := { s with pair.deciding := false, pair.undecided := [] }
      if far.isEmpty then partition s else confirmLoss far s
    else s) s)

/-- This module lost an own pool while it was away (R384): DETACHED, its dirty lines and open entries of the pool go. -/
def lostOwn (p : Nat) (s : State) : State :=
  let s := detach p { s with pair.ownCheck := s.pair.ownCheck.filter (· != p) }
  let (n, s) := dropPoolDirty p s
  let s := (s.jnl.own.filter (fun e => e.2.st == 1 && e.2.pool % 8 == p)).foldl (fun s e =>
    retireJnl e.1 { s with jnl.replay := s.jnl.replay.filter (· != e.1) }) s
  recEvent 0x182 0x0041 p (leBytes 8 n) s

/-- One beat (R377): the own key takes the next beat counter on the arbiters, and the arbiters are read. The reference key of a pool is
the peer's key as first read in the period (R378). A pool whose arbiters this module still holds serves, one that the peer holds is
lost (R384). A module that has sent FAREWELL sends the members nothing (R380). -/
def beat (reads : List ArbiterRead) (s : State) : State :=
  let s := { s with pair := { s.pair with
    lastBeat := s.now, beat := if s.pair.beat = 0xFFFFFFFF then 1 else s.pair.beat + 1 } }
  if s.pair.farewell then s else
  let mine := if s.pair.deciding then poolsOf s.led.cohort s ++ poolsOf s.led.peer s else poolsOf s.led.cohort s
  let s := mine.foldl (fun s p => (poolRec p s).arbs.foldl (fun s n => match (slotRec p n s).port with
    | some q => emitMember q s.mem.nextTag (.register (ownKey s)) { s with mem.nextTag := s.mem.nextTag + 1 }
    | none => s) s) s
  let far := if s.pair.deciding then poolsOf s.led.peer s ++ s.pair.ownCheck else s.pair.ownCheck
  let s := far.foldl (fun s p => (poolRec p s).arbs.foldl (fun s n => match (slotRec p n s).port with
    | some q => emitMember q s.mem.nextTag .report { s with mem.nextTag := s.mem.nextTag + 1 }
    | none => s) s) s
  let s := reads.foldl (fun s r =>
    let p := r.pool.val
    let k := p * 4 + r.arb.val
    let s := if r.landed then { s with pair.beatAt := tset s.pair.beatAt k s.now } else s
    let s := match r.peerKey with
      | some key => if (poolRec p s).owner = s.led.peer then
          let first := ((s.pair.peerKeys.find? (fun e => e.1 / 4 == p)).map (·.2.1)).getD key
          { s with pair.peerKeys := tset s.pair.peerKeys k (first, key) } else s
      | none => s
    s) s
  s.pair.ownCheck.foldl (fun s p =>
    let here := reads.filter (fun r => r.pool.val == p)
    if here.any (·.peerHolds) then lostOwn p s
    else if here.any (·.mine) then serveOwn p { s with pair.ownCheck := s.pair.ownCheck.filter (· != p) }
    else s) s

/-- RESERVATION_BEAT (R377, R379, R384). -/
def execReservationBeat (reads : List ArbiterRead) (s : State) : Res :=
  go (if !s.led.paired || mirroring s || s.pair.st = 0 then s else beat reads (timeTo (s.pair.lastBeat + 5000) s))

/-- HELLO_TIMEOUT (R384): the loss rules run from DOWN, 5 s after READY. -/
def execHelloTimeout (reads : List ArbiterRead) (s : State) : Res :=
  go (if s.pair.st != 1 || s.pair.deciding || !s.dev.ready then s
      else
        let s := timeTo (s.pair.suspectAt + 5000000) s
        beat reads { s with pair := { s.pair with
          deciding := true, windowAt := s.now, undecided := poolsOf s.led.peer s, peerKeys := [], taken := [] } })

/-! ## Forced takeover and transfer (R382, R383, R387) -/

/-- A write of PAIR_CTL (R382, R387). -/
def pairCtl (v : Word) (s : State) : State :=
  let named : BitVec 8 := v.extractLsb' 8 8
  if !v.getLsbD 0 then { s with pair.ctlPools := named }
  else if s.led.locked || s.pair.st != 6 then s
  else
    let s := { s with pair := { s.pair with ctlPools := named, takePools := 0, taken := [],
                                            takeConfirm := min 65535 ((s.now - s.pair.hbRxAt) / 1000) } }
    (s.pair.detached.filter (fun p => pairPool p s && named.getLsbD p)).foldl (fun s p => startTake p true s) s

/-- FORCE (R382). -/
def execForce (value : Word) (s : State) : Res := go (barWrite 0 0x50020 (pairCtl value) s)

/-- A write of PAIR_XFER (R383, R387). -/
def pairXfer (v : Word) (s : State) : State :=
  let s := { s with pair := { s.pair with
    xferPool := v.extractLsb' 0 3, xferDone := s.pair.xferDone && !v.getLsbD 5, xferErr := s.pair.xferErr && !v.getLsbD 6 } }
  let p := s.pair.xferPool.toNat
  let refuse (r : Nat) (s : State) : State := { s with pair.xferErr := true, pair.xferReason := BitVec.ofNat 16 r }
  if !v.getLsbD 3 || s.pair.xfer != .none then s
  else if !pairUp s then refuse 0x0A01 s
  else if !(pairPool p s && owns p s) then refuse 0x0A02 s
  else if (poolRec p s).reshape.st = 2 then refuse 0x0A03 s
  else updPool p (fun r => { r with
      relocs := r.relocs.map (fun (k, m) => (k, if m.settled then m else toBoundary m)),
      walks := r.walks.map (fun (n, w) => (n, { w with next := (slotRec p n s).restore, window := [], remark := [] })) })
    { s with pair.xfer := .drain, pair.xferCur := p }

/-- PAIR_XFER_GO (R383). -/
def execPairXferGo (value : Word) (s : State) : Res := go (barWrite 0 0x50028 (pairXfer value) s)

/-- XFER (R383 steps 3 to 5). RELEASED to a module that has released the pool itself gives the pool back (log entry 85). -/
def execXfer (h : PairHdr) (st : XferStep) (s : State) : Res :=
  go (deliver 2 h (fun s =>
    let s := ackThrough 2 (fun m => match m with
      | .xfer _ => true
      | _ => false) s
    match st with
    | .released p =>
      if s.pair.xfer = .acquire && s.pair.xferCur = p.val then endXfer (some 0x0A04) (acquireAll p.val s)
      else
        let (n, s) := resvTo p.val (resvSlots p.val s) (.acquire (ownKey s))
          { s with pair.xferIn := some p.val, pair.xferOk := 0, pair.xferBad := [] }
        let s := { s with pair.xferLeft := n }
        if n = 0 then xferStep p.val s else s
    | .acquired p =>
      if s.pair.xfer = .acquire && s.pair.xferCur = p.val then
        propose { r := .poolOwner p (BitVec.ofNat 18 s.led.peer) ((poolRec p.val s).epoch + 1) } { s with pair.xfer := .commit }
      else s
    | .done p => if s.pair.xferIn = some p.val then { s with pair.xferIn := none } else s) s)

end Sys2Proof.Machine
end

