-- ==== Sys2Proof/Machine/Level.lean ====
section
/-! DEFINITION. Sys2Proof/Machine/Level.lean: vault in service, dirty cap, service level and fencing (01 R24 to R31;
07 R275, R276; 11 R402). -/

namespace Sys2Proof.Machine

/-! ## Vault and dirty cap -/

/-- Vault sectors of a half: 64 GiB (11). -/
def halfSecs : Nat := 16777216

/-- Erased and unused vault sectors of a half. -/
def halfFree (h : Nat) (s : State) : Nat := halfSecs - (if h = 0 then s.pow.free0 else s.pow.free1)

/-- Whether a half is erased. -/
def halfErased (h : Nat) (s : State) : Bool := if h = 0 then s.pow.erased0 else s.pow.erased1

/-- 17 GiB in sectors (11 R402). -/
def halfNeed : Nat := 4456448

/-- Entries of the vault index log (11 R398). -/
def indexMax : Nat := 4194304

/-- Whether fewer than 64 GiB of good blocks are left in a half of the vault (11 R403). -/
def halvesWorn (s : State) : Bool := decide (Config.halfSpare < s.pow.bad0) || decide (Config.halfSpare < s.pow.bad1)

/-- Whether the vault is in service (11 R402); it is off at FLOOR (01 R25). -/
def vaultOn (s : State) : Bool :=
  decide (halfNeed ≤ halfFree s.pow.cur s) && decide (s.pow.index.length + 1048576 ≤ indexMax) && !s.dev.vaultFence &&
  s.dev.dramFence != 0xFFFF

/-- The dirty cap that the rules give now, in units of 256 MiB (07 R275). -/
def capNow (s : State) : Nat := if vaultOn s then min (min (prof s).dirtyCapLimit s.cache.energyUnits) 64 else 0

/-- The header copy in force is written as the module goes on from it (R400). -/
def saveHdr (p : PowSt) : PowSt :=
  { p with hdrs := tset p.hdrs p.hdrCur { seq := p.flushSeq, st := p.header, first := p.logFirst, cur := p.cur, free0 := p.free0,
                                          free1 := p.free1, erased0 := p.erased0, erased1 := p.erased1 } }

/-- Put the dirty cap that the rules give in force: DIRTY_CAP at a change (07 R276), the level, and destage under the
new cap (R277). -/
def setCap (s : State) : State :=
  let c := capNow s
  let s := relevel (if c = s.cache.capUnits then s else event 0x0006 0 c { s with cache.capUnits := c })
  if s.dev.ready then pressure s else s

/-! ## Fencing (01 R24, R31; 14 R479) -/

/-- A unit that can be fenced, by its number of 14 R492. -/
abbrev UnitNo := Nat

/-- Whether a unit is fenced. -/
def isFenced (u : UnitNo) (s : State) : Bool :=
  if u < 8 then s.dev.laneFence.getLsbD u
  else if u < 24 then s.dev.groupFence.getLsbD (u - 8)
  else if u = 24 then s.dev.pairFence
  else if u = 25 then s.dev.vaultFence
  else if 32 ≤ u ∧ u < 36 then s.dev.ctrlFence.getLsbD (u - 32)
  else if 48 ≤ u ∧ u < 64 then s.dev.dramFence.getLsbD (u - 48)
  else if u = 64 then s.dev.tagFence
  else if 96 ≤ u ∧ u < 128 then s.dev.seqFence.getLsbD (u - 96)
  else if 128 ≤ u ∧ u < 144 then s.dev.hostFence.getLsbD (u - 128)
  else false

/-- The source that owns a unit (14 R477, R478). -/
def unitSource (u : UnitNo) : Nat :=
  if u < 8 then 0x040 + u
  else if u < 24 then 0x100 + 8 * (u - 8)
  else if u = 24 then 0x180
  else if u = 25 then 0x0F0
  else if u < 36 then 0x1F0 + (u - 32)
  else if u < 64 then 0x080 + (u - 48)
  else if u = 64 then 0x090
  else if u < 128 then 0x048 + (u - 96)
  else 0x000

/-- Set a unit's fence bit. -/
def setFence (u : UnitNo) (s : State) : State :=
  let d := s.dev
  if u < 8 then { s with dev.laneFence := d.laneFence ||| BitVec.ofNat 8 (2 ^ u), dev.laneAwake := d.laneAwake &&& ~~~ BitVec.ofNat 8 (2 ^ u) }
  else if u < 24 then
    { s with dev.groupFence := d.groupFence ||| BitVec.ofNat 16 (2 ^ (u - 8)),
             dev.groupAwake := d.groupAwake &&& ~~~ BitVec.ofNat 16 (2 ^ (u - 8)),
             therm.groupLock := s.therm.groupLock &&& ~~~ BitVec.ofNat 16 (2 ^ (u - 8)),
             mem.stopped := s.mem.stopped.filter (fun e => portGroup e.1 != u - 8) }
  else if u = 24 then { s with dev.pairFence := true, dev.pairActive := false }
  else if u = 25 then { s with dev.vaultFence := true }
  else if 32 ≤ u ∧ u < 36 then
    { s with dev.ctrlFence := d.ctrlFence ||| BitVec.ofNat 4 (2 ^ (u - 32)), dev.coreAwake := d.coreAwake &&& ~~~ BitVec.ofNat 4 (2 ^ (u - 32)) }
  else if 48 ≤ u ∧ u < 64 then { s with dev.dramFence := d.dramFence ||| BitVec.ofNat 16 (2 ^ (u - 48)) }
  else if u = 64 then { s with dev.tagFence := true }
  else if 96 ≤ u ∧ u < 128 then { s with dev.seqFence := d.seqFence ||| BitVec.ofNat 32 (2 ^ (u - 96)) }
  else if 128 ≤ u ∧ u < 144 then { s with dev.hostFence := d.hostFence ||| BitVec.ofNat 16 (2 ^ (u - 128)) }
  else s

/-- The order in which duties move (01 R16). -/
def dutyOrder : List Nat := [0, 1, 3, 2]

/-- The core that runs a duty: its own, or the first one left in the order of R16; duty 0 goes to the lowest-numbered
one. That the order 0, 1, 3, 2 is that of the receiving cores, for each duty alike, is a choice: log entry 74. -/
def dutyCore (duty : Nat) (s : State) : Option Nat :=
  let left (c : Nat) : Bool := !s.dev.ctrlFence.getLsbD c
  if left duty then some duty
  else if duty = 0 then [0, 1, 2, 3].find? left
  else dutyOrder.find? left

/-- Duties move away from fenced control cores (01 R16). -/
def moveDuties (s : State) : State :=
  { s with dev.duty := (List.range 4).filterMap (fun d => (dutyCore d s).map (fun c => (d, c))) }

/-- Every sector of the sets on a DRAM channel is lost (07 R551; 01 R27). -/
def loseChannel (ch : Nat) (s : State) : State :=
  (s.cache.tags.filter (fun e => e.1 / 16 % 16 == ch)).foldl (fun s e =>
    (secsOf (e.2.valid ||| e.2.dirty)).foldl (fun s i => loseSec e.1 i s) s) s

/-- The schedules on pages of a DRAM channel that is fenced are gone (07 R551). With no channel left all are, and are made again in
the floor schedule area (02 R64); the counters of member commands per cell are gone too (04 R157). -/
def dropSchedules (ch : Nat) (s : State) : State :=
  if s.dev.dramFence == 0xFFFF then
    { s with plan.cache := [], mem.pools := s.mem.pools.map (fun e => (e.1, { e.2 with writes := [], reads := [] })) }
  else { s with plan.cache := s.plan.cache.filter (fun e => Config.schedPage s.dev.dramFence.toNat e.1 % 16 != ch) }

/-- Drive HOLD_EN (R392). -/
def setHold (b : Bool) (s : State) : State :=
  if s.pow.hold = b then s else emit (.pin "HOLD_EN" b) { s with pow.hold := b }

/-- What the rest of the module loses when its domains are gated (R395 step 5; 13 R464): work in progress, links. -/
def dropWork (s : State) : State :=
  let q : PipeSt := { s.pipe with ops := [], ctxs := [], cmds := [], held := [], waitScratch := [] }
  let m : MemSt := { s.mem with
    cmds := [], tagQueue := [], stopped := [], ports := s.mem.ports.map (fun e => (e.1, { e.2 with linkUp := false })) }
  let p : PairSt := { s.pair with linkUp := false }
  let d : DevSt := { s.dev with laneAwake := s.dev.laneAwake &&& 1, groupAwake := 0, pairActive := false }
  let j : JnlSt := { s.jnl with
    premarks := [], anchorQ := [], anchors := s.jnl.anchors.map (fun e => (e.1, { e.2 with stage := 0, todo := 0 })) }
  let c : CacheSt := { s.cache with evict := [] }
  { s with pipe := q, mem := m, pair := p, dev := d, jnl := j, cache := c, therm.groupLock := 0,
           port0 := { s.port0 with width := 0, inL12 := false, vdm := false },
           port1 := { s.port1 with width := 0, inL12 := false, vdm := false } }

/-- The module gives no service for a reason (01 R30): PF1 reports a fatal status and PF0 answers nothing any more. In operation its
work ends with it, and HOLD_EN falls (11 R392). -/
def loseService (why : Nat) (s : State) : State :=
  let s := { s with dev.noService := why, port0.pf1.cfs := true, port1.pf1.cfs := true }
  if s.pow.ph = .run ∨ s.pow.ph = .boot then
    dropWork (setHold false { s with pow.ph := .noService, dev.ready := false, dev.level := 0 })
  else s

/-- The sectors that only a fenced vault held are lost writes (01 R27; 07 R294 reason 3). -/
def loseVault (s : State) : State :=
  (inVault s).foldl (fun s (l, line, sec) =>
    settleVault l line sec (addLostW l line ((findWay l line s).getD (setOf l line * 16)) sec 3 s)) s

/-- With no usable lane or no control core left there is no service (01 R30). -/
def serviceLeft (s : State) : State :=
  if s.dev.ctrlFence == 0xF then loseService 3 s
  else if (List.range 8).all (fun j => laneUnusable j s) then loseService 4 s
  else s

/-- A unit is fenced in operation: it takes no work, one event is recorded, and service goes on without it (01 R24,
R26, R27, R31). What its work does is the caller's. -/
def fenceUnit (u : UnitNo) (s : State) : State :=
  if isFenced u s then s
  else
    let s := recEvent (unitSource u) 0x0001 u [] (setFence u s)
    let s := if 48 ≤ u ∧ u < 64 then dropSchedules (u - 48) (loseChannel (u - 48) s) else if u = 25 then loseVault s else s
    setCap (serviceLeft (moveDuties s))

end Sys2Proof.Machine
end

