-- ==== Sys2Proof/Machine/Pack.lean ====
section
/-! DEFINITION. Sys2Proof/Machine/Pack.lean: the energy pack, its estimator and learn cycles (12). Every formula is
computed exactly, with fractions. -/

namespace Sys2Proof.Machine

/-! ## Identity block (R427) and chemistries (R430, R431) -/

/-- CHEM of an identity. -/
def idChem (b : List Byte) : Nat := byteAt b 6
/-- CELLS. -/
def idCells (b : List Byte) : Nat := byteAt b 7
/-- NAMEPLATE in mAh. -/
def idNameplate (b : List Byte) : Frac := frac (leAt b 8 4) 1000
/-- R_NOM in ohms. -/
def idRNom (b : List Byte) : Frac := frac (leAt b 12 2) 1000
/-- SHUNT in µΩ. -/
def idShunt (b : List Byte) : Frac := frac (leAt b 14 2) 1
/-- V_MIN in volts. -/
def idVMin (b : List Byte) : Frac := frac (leAt b 16 2) 1000
/-- EFF as a fraction. -/
def idEff (b : List Byte) : Frac := frac (byteAt b 18) 100
/-- T_MAX in quarter degrees C. -/
def idTMax (b : List Byte) : Int := 4 * byteAt b 19
/-- V_CHG in volts. -/
def idVChg (b : List Byte) : Frac := frac (leAt b 20 2) 1000

/-- Whether CHEM names a chemistry of R431. -/
def chemOk (b : List Byte) : Bool := decide (1 ≤ idChem b ∧ idChem b ≤ 3)

/-- Whether a block passes MAGIC, FORMAT and CRC. -/
def blockSound (b : List Byte) : Bool :=
  b.length == 128 && leAt b 0 4 == 0x50455644 && leAt b 4 2 == 1 && leAt b 124 4 == (crc32c (b.take 124)).toNat

/-- OCV per cell at 0 %, 10 %, … in 10 mV (R430). -/
def ocvTable (chem : Nat) : List Int :=
  if chem = 1 then [220, 236, 252, 268, 284, 300, 316, 332, 348, 364, 380]
  else if chem = 2 then [180, 215, 222, 226, 229, 231, 233, 236, 240, 247, 265]
  else [250, 320, 325, 328, 330, 331, 332, 333, 334, 336, 350]

/-- The OCV columns as (state of charge in percent, 10 mV). -/
def ocvPoints (chem : Nat) : List (Int × Int) := (List.range 11).map (fun (i : Nat) => (((10 * i : Nat) : Int), (ocvTable chem).getD i 0))

/-- Temperature columns of R431 in degrees C. -/
def tempCols : List Int := [-55, -40, -20, 0, 25, 60]

/-- a(T) in hundredths and f(T) in tenths (R431). -/
def aTable (chem : Nat) : List Int :=
  if chem = 1 then [55, 70, 85, 95, 100, 100]
  else if chem = 2 then [35, 55, 75, 92, 100, 100]
  else [0, 20, 50, 85, 100, 100]

/-- f(T) in tenths. -/
def fTable (chem : Nat) : List Int :=
  if chem = 1 then [120, 70, 30, 16, 10, 8]
  else if chem = 2 then [200, 100, 40, 18, 10, 7]
  else [400, 250, 80, 25, 10, 7]

/-- u_rest (R431). -/
def uRest (chem : Nat) : Frac := if chem = 1 then frac 1 100 else if chem = 2 then frac 3 100 else frac 5 100

/-- The learn band in quarter degrees C. -/
def learnBand (chem : Nat) : Int × Int := if chem = 3 then (40, 180) else (0, 180)

/-- Time fade F_t per 8,760 operating hours. -/
def fadeT (chem : Nat) : Frac := if chem = 1 then frac 20 1000 else if chem = 2 then frac 15 1000 else frac 30 1000

/-- Cycle fade F_c per equivalent full cycle. -/
def fadeC (chem : Nat) : Frac := if chem = 1 then frac 1 100000 else if chem = 2 then frac 2 100000 else frac 10 100000

/-- Linear interpolation between columns, constant beyond them (R430, R431). -/
def lerp : List (Int × Int) → Frac → Frac
  | [], _ => {}
  | [(_, y)], _ => frac y 1
  | (x0, y0) :: (x1, y1) :: l, x =>
    if x.le (frac x0 1) then frac y0 1
    else if x.le (frac x1 1) then
      (frac y0 1).add (((x.sub (frac x0 1)).mul (frac (y1 - y0) 1)).div (frac (x1 - x0) 1))
    else lerp ((x1, y1) :: l) x

/-- ocv(s) of the string in volts, s from 0 to 1 (R430). -/
def ocv (b : List Byte) (s : Frac) : Frac :=
  ((lerp (ocvPoints (idChem b)) (s.mul (frac 100 1))).mul (frac (idCells b) 1)).mul (frac 1 100)

/-- 0 and 1. -/
def fzero : Frac := {}
/-- One. -/
def fone : Frac := frac 1 1

/-- s by the OCV table's inverse (R430). A voltage outside the table has none: s is then a free value from 0 to 1 (log
entry 15). -/
def ocvInverse (b : List Byte) (v : Frac) : Frac :=
  let cell := (v.mul (frac 100 1)).div (frac (idCells b) 1)
  let pts := (ocvPoints (idChem b)).map (fun e => (e.2, e.1))
  let lo := frac ((pts.headD (0, 0)).1) 1
  let hi := frac ((pts.getLastD (0, 0)).1) 1
  if cell.lt lo || hi.lt cell then
    let r := Config.ocvBeyond cell.num cell.den
    (frac r.1 r.2).max fzero |>.min fone
  else (lerp pts cell).mul (frac 1 100)

/-- a(T) and f(T), the temperature in quarter degrees C (R431). -/
def aOf (b : List Byte) (tQ : Int) : Frac := (lerp (tempCols.zip (aTable (idChem b))) (frac tQ 4)).mul (frac 1 100)
/-- f(T). -/
def fOf (b : List Byte) (tQ : Int) : Frac := (lerp (tempCols.zip (fTable (idChem b))) (frac tQ 4)).mul (frac 1 10)

/-! ## Capacity in force (R437, R440) -/

/-- Operating seconds at which the learn clock started: the last accepted learn, or the insertion of a new identity. -/
def learnClock (s : State) : Nat := max s.pack.learnAt s.pack.insertedAt

/-- Operating hours on the learn clock. -/
def learnHours (s : State) : Frac := frac ((opSeconds s - learnClock s : Nat) : Int) 3600

/-- The capacity in force, in mAh. -/
def capQ (s : State) : Frac :=
  let chem := idChem (s.pack.identity.getD [])
  s.pack.qLearn.mul ((fone.sub (((fadeT chem).mul (learnHours s)).mul (frac 1 8760))).sub ((fadeC chem).mul s.pack.cycles))

/-- u_Q. -/
def capU (s : State) : Frac :=
  let u := s.pack.uLearn.add ((frac 1 100).mul ((learnHours s).mul (frac 1 720)))
  if s.pack.unproven then u.max (frac 15 100) else u

/-- Whether a current in µA lies below 0.01 C: below q / 100 in mA. -/
def below1C (iUa : Int) (q : Frac) : Bool := (frac iUa 1).abs.lt (q.mul (frac 10 1))

/-! ## Certified energy (R445) -/

/-- r in ohms at a temperature. -/
def packR (tQ : Int) (s : State) : Frac :=
  let b := s.pack.identity.getD []
  ((idRNom b).mul (fOf b tQ)).mul s.pack.rho

/-- s_end: the smallest hundredth from 15 on at which the converter holds V_MIN under the flush load. -/
def sEnd (b : List Byte) (r p : Frac) : Option Frac :=
  let need := (idVMin b).add ((p.div (idVMin b)).mul r)
  (((List.range 86).map (fun (i : Nat) => frac ((15 + i : Nat) : Int) 100))).find? (fun x => need.le (ocv b x))

/-- E_cert for a state of charge and its uncertainty at a temperature. An energy below 0 counts as 0. -/
def certify (soc u : Frac) (tQ : Int) (s : State) : Energy :=
  let b := s.pack.identity.getD []
  let eta := idEff b
  let p := (frac 40 1).div eta
  let r := packR tQ s
  let qLo := (capQ s).mul (fone.sub (capU s))
  let sLo := (soc.sub u).min (frac 95 100)
  match sEnd b r p with
  | none => {}
  | some e =>
    if sLo.le e then {}
    else
      let vm := ocv b ((sLo.add e).mul (frac 1 2))
      let disc := (vm.mul vm).sub ((r.mul p).mul (frac 4 1))
      let k := (((eta.mul (frac 18 10)).mul (sLo.sub e)).mul qLo).mul (aOf b tQ)
      if disc.lt fzero || k.lt fzero then {}
      else { a := k.mul vm, b := (k.mul k).mul disc }

/-- E_cert in 0.1 J, rounded down. -/
def tenths (e : Energy) : Nat := (floorRoot (e.a.mul (frac 10 1)) (e.b.mul (frac 100 1))).toNat

/-- Energy units (07 R275): floor(4 × (E − 25) / 8.1), and 0 for 25 J or less. -/
def unitsOf (e : Energy) : Nat :=
  (floorRoot (((e.a.mul (frac 40 1)).sub (frac 1000 1)).mul (frac 1 81)) (e.b.mul (frac 1600 6561))).toNat

/-- Energy units for the dirty cap: during a learn cycle those of the lower of E_cert and E_learn (R443). -/
def unitsNow (s : State) : Nat :=
  if s.pack.learn = .idle then unitsOf s.pack.eCert else min (unitsOf s.pack.eCert) (unitsOf s.pack.eLearn)

/-- The energy units of one round (07 R276; 14 R487). -/
def unitsRound (s : State) : State :=
  let n := unitsNow s
  let c := s.cache
  let c' : CacheSt :=
    if n < c.energyUnits then { c with energyUnits := n, rising := [] }
    else if n = c.energyUnits || s.pack.noRise != 0 then { c with rising := [] }
    else
      let l := c.rising ++ [n]
      if l.length < 10 then { c with rising := l }
      else { c with energyUnits := l.foldl min n, rising := [] }
  setCap { s with cache := c', pack.noRise := s.pack.noRise - 1 }

/-! ## Levels, events and the record -/

/-- PACK_STATE (06 R244). -/
def packEvent (changed : Bool) (s : State) : State :=
  event 0x000A 0 (b2n s.pack.unproven + 2 * b2n s.pack.proposed + 4 * b2n s.pack.absent + 8 * b2n changed) s

/-- Drive PACK_DRAW_EN. -/
def setDraw (b : Bool) (s : State) : State :=
  if s.pack.draw = b then s else emit (.pin "PACK_DRAW_EN" b) { s with pack.draw := b }

/-- Drive PACK_CHG_INH as R447 says. -/
def setInh (s : State) : State :=
  let b := s.pack.fresh || s.pack.hot || s.pack.tempFault || s.pack.overvolt || s.pack.learn != .idle
  if s.pack.chgInh = b then s else emit (.pin "PACK_CHG_INH" b) { s with pack.chgInh := b }

/-- The pack record is committed (R448): what it keeps of values that change between commits. -/
def packCommit (s : State) : State :=
  ledCommit { s with pack := { s.pack with
    cyclesKept := s.pack.cycles, rhoKept := s.pack.rho, failsKept := s.pack.fails, resultKept := s.pack.lastResult } }

/-- A learn cycle is abandoned with a code (R444). -/
def abandonLearn (code : Nat) (s : State) : State :=
  if s.pack.learn = .idle then s
  else
    let bad := code == 4 || code == 5 || code == 7
    setInh (setDraw false { s with pack := { s.pack with
      learn := .idle, pointA := none, eLearn := {}, rhoMeas := none, beforeDraw := none, lastResult := code,
      fails := if bad then min (s.pack.fails + 1) 255 else s.pack.fails } })

/-- The absent state is judged (R428); PACK_STATE at a change. -/
def judgeAbsent (s : State) : State :=
  let low := match s.pack.identity, s.pack.meas with
    | some b, some m => decide (m.vMv < 1000 * idCells b)
    | _, _ => false
  let a := s.pack.presHigh || decide (3 ≤ s.pack.idFails) || low
  let s := if a = s.pack.absent then s else packEvent false { s with pack.absent := a }
  if a then
    abandonLearn 3 { s with pack := { s.pack with
      soc := none, points := [], lowAt := none, atRest := false, eCert := {} } }
  else s

/-! ## Identity reads (R428, R429) -/

/-- A valid identity that differs from the record's: a new pack (R429). While commits are refused nothing is taken
over. -/
def newPack (b : List Byte) (s : State) : State :=
  if commitsRefused s then { s with pack := { s.pack with soc := none, eCert := {} } }
  else
    let s := abandonLearn 3 s
    let p : PackSt := { s.pack with
      identity := some (b.take 64), qLearn := (idNameplate b).mul (frac 8 10), uLearn := frac 10 100,
      rho := frac 125 100, insertedAt := opSeconds s, cycles := {}, soc := none, needLow := true, unproven := false,
      proposed := false, declinedAt := none, points := [], lowAt := none, atRest := false, eCert := {} }
    packEvent true (packCommit { s with pack := p })

/-- One read of the identity block; `none` when it is not acknowledged or fails its PEC. -/
def readIdentity (block : Option (List Byte)) (s : State) : State :=
  let bad (s : State) : State := { s with pack.idFails := s.pack.idFails + 1, pack.idOk := false }
  let s := match block with
    | none => raise 0x1C0 0x34 (0x20 + (Config.freeWord s.free).toNat % 4) (nextFree (bad s))
    | some b =>
      if !blockSound b then
        raise 0x1C0 0x34 (if leAt b 0 4 == 0x50455644 && leAt b 4 2 == 1 then 0x23 else 0x20) (bad s)
      else if !chemOk b then bad s
      else
        let s := { s with pack.idFails := 0, pack.idOk := true }
        if s.pack.identity = some (b.take 64) then s else newPack b s
  judgeAbsent s

/-- Whether the module measures the pack: from power-good on (12). -/
def packPowered (s : State) : Bool := s.pow.ph != .off

/-- PACK_IDENTITY_READ (R428): `PackSt.idAt` is when the next read is due, at once after power-good. -/
def execPackIdentityRead (block : Option (List Byte)) (s : State) : Res :=
  if !packPowered s then ok s
  else
    let s := timeToOp s.pack.idAt s
    go (readIdentity block { s with pack.idAt := opSeconds s + 600 })

/-- PACK_PRES_N (R428): each change reads the identity again. -/
def execPackPresN (high : Bool) (block : Option (List Byte)) (s : State) : Res :=
  if high = s.pack.presHigh then ok s
  else
    let s := { s with pack.presHigh := high }
    if packPowered s then go (readIdentity block s) else ok s

/-! ## Capacity learns (R438, R439, R441) -/

/-- Whether the latest pack temperature lies in the learn band and is plausible. -/
def inBand (s : State) : Bool :=
  match s.pack.meas with
  | none => false
  | some m =>
    let bd := learnBand (idChem (s.pack.identity.getD []))
    decide (bd.1 ≤ m.tQ ∧ m.tQ ≤ bd.2) && !s.pack.tempFault

/-- Whether two rest points meet the conditions of R438. -/
def pairOk (a b : RestPt) : Bool :=
  (frac 30 100).le (a.s.sub b.s).abs && decide (b.at_ - a.at_ ≤ 172800) && a.inBand && b.inBand

/-- The learned capacity of R438, when it is accepted. -/
def learned (a b : RestPt) (s : State) : Option Frac :=
  let q := (b.q.sub a.q).abs.div (a.s.sub b.s).abs
  let n := idNameplate (s.pack.identity.getD [])
  if (n.mul (frac 5 10)).le q && q.le (n.mul (frac 12 10)) then some q else none

/-- A fraction rounded up to a whole percent. -/
def ceilPercent (x : Frac) : Frac := frac (-(((fzero.sub x).mul (frac 100 1)).floor)) 100

/-- An accepted learn is committed and applied (R438, R439); a refused commit discards it. -/
def acceptLearn (a b : RestPt) (q : Frac) (s : State) : State :=
  if commitsRefused s then s
  else
    let was := s.pack.unproven
    let u := ((uRest (idChem (s.pack.identity.getD []))).mul (frac 2 1)).div (a.s.sub b.s).abs
    let p : PackSt := { s.pack with
      qLearn := q, uLearn := ceilPercent (u.add (frac 1 100)), rho := s.pack.rhoMeas.getD s.pack.rho, learnAt := opSeconds s,
      cycles := {}, unproven := false, proposed := false, declinedAt := none,
      lastResult := if s.pack.learn = .resting then 0 else s.pack.lastResult }
    let s := packCommit { s with pack := p }
    if was then packEvent false s else s

/-- A learn that R438 rejects. -/
def rejectLearn (s : State) : State :=
  raiseOpen 0x1C4 { s with pack.fails := min (s.pack.fails + 1) 255 }

/-- The learn cycle ends with its rest point B (R443 steps 5 and 6, R444 code 7). A clipped round since A leaves A out of
the points (R438). -/
def endCycle (a b : RestPt) (s : State) : State :=
  if !pairOk a b || !s.pack.points.contains a then abandonLearn 7 s
  else match learned a b s with
    | none => abandonLearn 7 (raiseOpen 0x1C4 s)
    | some q =>
      let s := acceptLearn a b q s
      setInh { s with pack := { s.pack with learn := .idle, pointA := none, eLearn := {}, rhoMeas := none } }

/-- Rest point B outside a learn cycle: learn from the latest point A that meets R438 (log entry 16). -/
def learnFrom (b : RestPt) (s : State) : State :=
  match s.pack.points.find? (fun a => pairOk a b) with
  | none => s
  | some a => match learned a b s with
    | none => rejectLearn s
    | some q => acceptLearn a b q s

/-- The module anchors (R435): s from the table, u_s the table's; answers the rest point. -/
def anchor (s : State) : RestPt × State :=
  let b := s.pack.identity.getD []
  let v := frac ((s.pack.meas.map (·.vMv)).getD 0) 1000
  let soc := ocvInverse b v
  let pt : RestPt := { at_ := opSeconds s, s := soc, q := s.pack.count, inBand := inBand s }
  (pt, { s with pack := { s.pack with
    soc := some soc, unc := uRest (idChem b), needLow := false, anchorAt := some (opSeconds s) } })

/-- Twenty minutes of rest, or twenty more (R435). -/
def restPoint (s : State) : State :=
  match s.pack.lowAt with
  | none => s
  | some t =>
    if s.pack.absent then s
    else
      let s := timeTo (t + 1200000000) s
      let (pt, s) := anchor { s with pack.lowAt := some (t + 1200000000), pack.atRest := true }
      let s := if s.pack.learn = .resting then endCycle (s.pack.pointA.getD pt) pt s
        else learnFrom pt s
      { s with pack.points := pt :: s.pack.points.filter (fun a => decide (pt.at_ - a.at_ ≤ 172800) && a != pt) }

/-- REST_POINT (R435). -/
def execRestPoint (s : State) : Res := go (setCap (restPoint s))

/-! ## Learn cycles (R440 to R444) -/

/-- PACK_UNPROVEN (R440). -/
def execPackUnproven (s : State) : Res :=
  if s.pack.identity.isNone || (s.pack.unproven && (s.pack.proposed || s.pack.declinedAt.isSome)) then ok s
  else
    let s := timeToOp (learnClock s + 7776000) s
    ok (packEvent false (raiseOpen 0x1C4 { s with pack.unproven := true, pack.proposed := true }))

/-- LEARN_REPROPOSE (R440): 168 operating hours after a declined proposal. -/
def execLearnRepropose (s : State) : Res :=
  match s.pack.declinedAt with
  | none => ok s
  | some t =>
    if !s.pack.unproven then ok s
    else ok (packEvent false { timeToOp (t + 604800) s with pack.proposed := true, pack.declinedAt := none })

/-- The checks of R442, in order. -/
def learnCheck (s : State) : Option (BitVec 16 × Nat) :=
  if s.pack.absent || !s.pack.idOk then some (0x0005, 0x0C01)
  else if s.pack.learn != .idle then some (0x0006, 0x0C02)
  else if !inBand s then some (0x0005, 0x0C03)
  else if !s.pack.atRest then some (0x0005, 0x0C04)
  else if !vaultOn s || !(s.dev.level == 1 || s.dev.level == 2) then some (0x0005, 0x0C05)
  else if s.pow.flushing || s.pow.coldStop || decide (s.therm.target < 100) then some (0x0005, 0x0C06)
  else none

/-- A learn cycle starts (R443 step 1). -/
def startLearn (s : State) : State :=
  let (pt, s) := anchor s
  let tQ := (s.pack.meas.map (·.tQ)).getD 0
  let e := certify (pt.s.sub (frac 50 100)) (uRest (idChem (s.pack.identity.getD []))) tQ s
  let s := setInh { s with pack := { s.pack with
    learn := .destaging, pointA := some pt, eLearn := e, proposed := false, rhoMeas := none, beforeDraw := none,
    points := pt :: s.pack.points } }
  setCap { s with cache.energyUnits := min s.cache.energyUnits (unitsNow s) }

/-- LEARN_APPROVE (R442). -/
def execLearnApprove (s : State) : Res :=
  go (asAdmin 0xB8 (fun c x s =>
    if bitN (arg x 40 1) 0 then
      let s := { s with pack.proposed := false, pack.declinedAt := if s.pack.proposed then some (opSeconds s) else s.pack.declinedAt }
      adminOk c (abandonLearn 6 s)
    else match learnCheck s with
      | some (st, r) => adminFail c st r s
      | none => adminOk c (startLearn s)) s)

/-- LEARN_DISCHARGE_END (R443 step 4): the charge counted since A has reached 0.50 q. -/
def execLearnDischargeEnd (s : State) : Res :=
  match s.pack.pointA with
  | none => ok s
  | some a =>
    if s.pack.learn = .discharging && ((capQ s).mul (frac 5 10)).le (s.pack.count.sub a.q).abs then
      ok (setDraw false { s with pack.learn := .resting, pack.restFrom := opSeconds s })
    else ok s

/-- LEARN_TIMEOUT (R444 code 5). -/
def execLearnTimeout (s : State) : Res :=
  if s.pack.learn = .resting then go (setCap (abandonLearn 5 (timeToOp (s.pack.restFrom + 7200) s))) else ok s

/-! ## Charger supervision (R447) -/

/-- The charger's part of a round. -/
def chargerRound (m : PackReading) (s : State) : State :=
  match s.pack.identity with
  | none => setInh s
  | some b =>
    let v := frac m.vMv 1000
    let high := ((idVChg b).mul (frac 103 100)).lt v
    let cool := if m.tQ ≤ idTMax b - 20 then s.pack.cool + 1 else 0
    let hot := decide (idTMax b < m.tQ) || (s.pack.hot && decide (cool < 10))
    let full := m.chgStat && (idVChg b).le v
    let s := if high && !s.pack.overvolt then raiseOpen 0x1C3 s else s
    setInh { s with pack := { s.pack with
      overvolt := high, hot := hot, cool := cool,
      fullAt := if full then some (s.pack.fullAt.getD (opSeconds s)) else none, stuck := full && s.pack.stuck } }

/-- CHARGER_STUCK (R447). -/
def execChargerStuck (s : State) : Res :=
  match s.pack.fullAt with
  | none => ok s
  | some t =>
    if s.pack.stuck then ok s
    else ok (raiseOpen 0x1C3 { timeToOp (t + 86400) s with pack.stuck := true })

/-! ## The pack's part of a round (R432 to R437, R443) -/

/-- Temperature that E_cert is computed at: −55 °C while implausible (R433). -/
def packTemp (m : PackReading) (s : State) : Int := if s.pack.tempFault then -220 else m.tQ

/-- R434, or the first setting of s under R429 and R436. -/
def socRound (m : PackReading) (q : Frac) (s : State) : State :=
  let b := s.pack.identity.getD []
  match s.pack.soc with
  | none =>
    if s.pack.needLow && !below1C m.iUa q then s
    else { s with pack := { s.pack with
      soc := some (ocvInverse b (frac m.vMv 1000)), unc := (uRest (idChem b)).add (frac 2 100), needLow := false } }
  | some soc =>
    let dq := frac m.dqNah 1000000
    let s' := (soc.add (dq.div q)).max fzero |>.min fone
    let off := ((frac 500 1).div (idShunt b)).mul (frac 1 36000)
    let u := (s.pack.unc.add (((dq.abs.mul (frac 5 1000)).add off).div q)).min fone
    { s with pack.soc := some s', pack.unc := if m.clipped then (u.add (frac 2 100)).min fone else u }

/-- Charge and cycles of a round: n counts the discharged charge divided by q (R437). -/
def countRound (m : PackReading) (q : Frac) (s : State) : State :=
  let dq := frac m.dqNah 1000000
  { s with pack := { s.pack with
    count := s.pack.count.add dq,
    cycles := if m.dqNah < 0 then s.pack.cycles.add (dq.abs.div q) else s.pack.cycles,
    points := if m.clipped then [] else s.pack.points } }

/-- The rest of R435 goes on, or ends. -/
def restRound (m : PackReading) (q : Frac) (s : State) : State :=
  if m.clipped || !below1C m.iUa q then { s with pack.lowAt := none, pack.atRest := false }
  else { s with pack.lowAt := some (s.pack.lowAt.getD s.now) }

/-- The resistance ratio at the start of the discharge (R441). -/
def measureRho (m : PackReading) (s : State) : State :=
  match s.pack.beforeDraw with
  | none => s
  | some p =>
    let b := s.pack.identity.getD []
    let r := (frac (((m.vMv : Int) - p.vMv) * 1000) 1).div (frac (m.iUa - p.iUa) 1)
    let rho := r.div ((idRNom b).mul (fOf b m.tQ))
    let s := { s with pack.beforeDraw := none }
    if s.pack.rho.lt rho then { s with pack.rho := rho, pack.rhoMeas := none } else { s with pack.rhoMeas := some rho }

/-- The learn cycle's part of a round (R443 steps 2 and 3; R444 codes 2 and 4). -/
def learnRound (m : PackReading) (q : Frac) (s : State) : State :=
  if s.pack.learn = .idle then s
  else if !inBand s then abandonLearn 2 s
  else if (q.mul (frac 10 1)).lt (frac m.iUa 1) && s.pack.chgInh then abandonLearn 4 s
  else if s.pack.learn = .destaging then
    if dirtySectors s < capSectors s || dirtySectors s = 0 then
      setDraw true { s with pack.learn := .discharging, pack.beforeDraw := some m }
    else s
  else measureRho m s

/-- Channels 44 to 50 of one round. -/
def packRound (m : PackReading) (s : State) : State :=
  let fault := decide (m.tQ < -240) || decide (440 < m.tQ)
  let s := if fault && !s.pack.tempFault then raise 0x1C2 0x01 ((m.tQ % 2 ^ 48).toNat) s else s
  let s := { s with pack := { s.pack with
    meas := some m, tempFault := fault, clipped := s.pack.clipped || m.clipped, fresh := false } }
  let s := judgeAbsent s
  if s.pack.absent || s.pack.identity.isNone then chargerRound m s
  else
    let q := capQ s
    let s := restRound m q (countRound m q (socRound m q s))
    let s := learnRound m q s
    let s := { s with pack.rOhm := packR (packTemp m s) s,
                      pack.eCert := match s.pack.soc with
                        | none => {}
                        | some x => certify x s.pack.unc (packTemp m s) s }
    chargerRound m s

end Sys2Proof.Machine
end

