-- ==== Sys2Proof/Machine/Flush.lean ====
section
/-! DEFINITION. Sys2Proof/Machine/Flush.lean: the flush of the dirty cache into the vault (11 R391 to R406). -/

namespace Sys2Proof.Machine

/-- The log of this operating hour is changed; hours more than 720 old go (13 R469). -/
def noteHour (f : HourLog → HourLog) (s : State) : State :=
  let h := opSeconds s / 3600
  let l := match s.therm.hours with
    | x :: rest => if x.hour = h then f x :: rest else f { hour := h } :: x :: rest
    | [] => [f { hour := h }]
  { s with therm.hours := l.filter (fun x => decide (h < x.hour + 720)) }

/-- Corrected words since they were counted last are counted in this hour. -/
def noteWords (s : State) : State :=
  let d := s.cache.dramCorr - s.therm.dramSeen
  let m := s.pow.mramCorr - s.therm.mramSeen
  let s := { s with therm.dramSeen := s.cache.dramCorr, therm.mramSeen := s.pow.mramCorr }
  if d = 0 ∧ m = 0 then s else noteHour (fun h => { h with dram := h.dram + d, mram := h.mram + m }) s

/-- Tj of a sensor as every rule takes it, in quarter degrees C: its latest reading, 126 °C while broken (13 R453). -/
def sensorTj (n : Nat) (s : State) : Int :=
  if (tget s.therm.broken n).isSome then 504 else (s.therm.hist.headD []).getD n 0

/-- The unmasked vault-die sensors (13 R452, R454). -/
def vaultSensors (s : State) : List Nat := [28, 29].filter (fun n => !s.therm.maskNow.getLsbD n)

/-- Whether any vault-die sensor reads above 125 °C (R406). -/
def vaultHot (s : State) : Bool := (vaultSensors s).any (fun n => decide (500 < sensorTj n s))

/-- Whether every vault-die sensor reads 120 °C or below (R406). -/
def vaultCool (s : State) : Bool := (vaultSensors s).all (fun n => decide (sensorTj n s ≤ 480))

/-- Sectors of a shadow entry that a flush programs: those that are not vault-clean (R395 step 6, R399). -/
def flushMask (x : Nat) (h : Shadow) (s : State) : BitVec 16 :=
  let line := tagLine x { lineHi := h.lineHi, pool := h.pool }
  let clean (i : Nat) : Bool := match idxInForce s h.pool line i with
    | some e => !e.dead
    | none => false
  (secsOf h.dirty).foldl (fun m i => if clean i then m else m ||| bit16 i) 0

/-- Sectors are appended to a half from a vault sector on. -/
def programSecs (half : Nat) : Nat → List (List Byte) → Tbl (List Byte) → Tbl (List Byte)
  | _, [], t => t
  | v, d :: l, t => programSecs half (v + 1) l (tset t (half * 2 ^ 24 + v) d)

/-- Program one line of the frozen shadow, with its index entry (R395 step 6, R398). -/
def programLine (x : Nat) (h : Shadow) (s : State) : State :=
  let m := flushMask x h s
  if m == 0 then s
  else
    let half := s.pow.cur
    let v := if half = 0 then s.pow.free0 else s.pow.free1
    let d := (secsOf m).map (fun i => cacheSec x i s)
    let e : IdxEnt := { pool := h.pool, line := tagLine x { lineHi := h.lineHi, pool := h.pool }, mask := m, vsec := v, half := half }
    let p := s.pow
    let p' : PowSt := { p with
      nand := programSecs half v d p.nand, index := p.index ++ [e],
      free0 := if half = 0 then v + d.length else p.free0, free1 := if half = 0 then p.free1 else v + d.length,
      erased0 := p.erased0 && half != 0, erased1 := p.erased1 && half == 0, lastSectors := p.lastSectors + d.length }
    { s with pow := p' }

/-- Step 6 for some lines of the frozen shadow: their dirty sectors that are not vault-clean, in ascending set and way order;
nothing while the vault is out of service (R402, R409). -/
def programLines (l : Tbl Shadow) (s : State) : State :=
  let clean := (s.cache.shadow.map (fun e => (secsOf (e.2.dirty &&& ~~~ flushMask e.1 e.2 s)).length)).sum
  let s := { s with pow.lastSectors := 0, pow.lastClean := clean }
  if vaultOn s then l.foldl (fun s e => programLine e.1 e.2 s) s else s

/-- The sectors that step 6 reads from the DRAM. -/
def flushReads (s : State) : List (Nat × Nat) :=
  s.cache.shadow.flatMap (fun e => (secsOf (flushMask e.1 e.2 s)).map (fun i => (e.1, i)))

/-- A sector that step 6 cannot read is lost, and its record is written at once; the frozen shadow names it no more (R395; 07 R269). -/
def flushErrors (errs : List DramErr) (s : State) : State :=
  let less (s : State) (x sec : Nat) : State :=
    { s with cache.shadow := (tmod s.cache.shadow x {} (fun h => { h with dirty := h.dirty &&& ~~~ bit16 sec })).filter (fun e => e.2.dirty != 0) }
  errs.foldl (fun s e =>
    let x := e.set.val * 16 + e.way.val
    if (flushReads s).contains (x, e.sector.val) then
      let s := dramError e s
      if e.uncorrectable then less s x e.sector.val else s
    else s) s

/-- Step 6 of a flush. -/
def programVault (errs : List DramErr) (s : State) : State :=
  let s := if vaultOn s then flushErrors errs s else s
  programLines s.cache.shadow s

/-- Codes of CORE_VID driven one step at a time from one code to another (13 R468). -/
def vidSteps : Nat → Nat → Nat → State → State
  | 0, _, _, s => s
  | n + 1, a, b, s =>
    if a = b then s
    else
      let c := if a < b then a + 1 else a - 1
      vidSteps n c b (emit (.vid c) { s with therm.vid := c })

/-- Drive CORE_VID to a code from 0 to 10. -/
def setVid (c : Nat) (s : State) : State := vidSteps 16 s.therm.vid (min c 10) s

/-- The counters record is committed (R395 step 7; 14 R501), and with it the pack record and the discard count (R422). -/
def commitCounters (s : State) : State :=
  let s := { s with evr.lastCounters := opSeconds s }
  packCommit { s with led.opSeconds := opSeconds s, led.powerCycles := s.evr.powerCycles, led.discardsKept := s.led.discards }

/-- A cold stop refuses every write that is not complete (06 R226; R405 step 3). -/
def refuseWrites (s : State) : State :=
  (s.pipe.cmds.filter (fun e => e.2.opcode == 2 || e.2.opcode == 3 || e.2.opcode == 5)).foldl (fun s e => dropCmd e.1 0x0104 s) s

/-- A flush starts (R391, R395 steps 1 to 5): `cause` is what PWR_STATUS.BOOT_CAUSE reads after a boot with power
present, `cold` whether a cold stop started it (R405). Before READY no sector has become dirty: a power loss only commits
the counters and releases HOLD_EN (R410), and so does a cold stop, which then enters COLD_STOPPED (log entry 70); where nothing is left
to flush, in standby, held, without service or flushed, a cold stop enters it at once, and it takes a running flush over (13 R463). At FLOOR the vault
takes no flush: no header is opened (R415). A flush's header goes into the copy that is not in force, in each of its states (R400). -/
def startFlush (cause : Nat) (cold : Bool) (s : State) : State :=
  match s.pow.ph with
  | .run =>
    let s := abandonLearn 1 (if cold then refuseWrites s else s)
    let s := if 3 ≤ s.pair.st ∧ s.pair.st ≤ 5 then { sendPair .farewell s with pair.farewell := true } else s
    let w := s.pow
    let w := if atFloor s then w else saveHdr { w with hdrCur := 1 - w.hdrCur, header := 0, flushSeq := w.flushSeq + 1,
                                                       logFirst := w.index.length }
    let p : PowSt := { w with
      ph := .flush, flushing := true, coldStop := cold, flushAt := s.now, flushCause := cause, hotWait := false,
      step6 := false, lastSectors := 0, lastClean := 0 }
    dropWork { s with cache.frozen := true, pow := p }
  | .boot =>
    let s := setHold false (commitCounters s)
    if cold then dropWork { s with pow.ph := .coldStopped, pow.coldStop := true }
    else { s with pow.ph := .off, pow.aon := false }
  | .flush => if cold then { s with pow.coldStop := true } else s
  | .standby => if cold then { s with pow.ph := .coldStopped, pow.coldStop := true } else s
  | .held => if cold then { s with pow.ph := .coldStopped, pow.coldStop := true } else s
  | .flushed => if cold then { s with pow.ph := .coldStopped, pow.coldStop := true } else s
  | .noService => if cold then dropWork { s with pow.ph := .coldStopped, pow.coldStop := true } else s
  | _ => s

/-- Steps 7 and 8: the header in its last state, counters, event staging; HOLD_EN falls 10 ms later. -/
def closeFlush (state : Nat) (s : State) : State :=
  let s := flushRecs (commitCounters { s with pow := if atFloor s then s.pow else saveHdr { s.pow with header := state }, dev.ready := false })
  let s := timeTo (s.pow.flushAt + 10000) s
  let ms := min ((s.now - s.pow.flushAt) / 1000) 0xFFFF
  setHold false { s with pow := { s.pow with
    lastResult := if state = 1 then 0 else 2, lastMs := ms, hotWait := false, flushing := false,
    endedDone := s.pow.endedDone || state == 1, endedBad := s.pow.endedBad || state != 1 } }

/-- Where the module stands after a flush (R393, R405). -/
def afterFlush (mainPower : Bool) (s : State) : State :=
  if s.pow.coldStop then { s with pow.ph := .coldStopped }
  else if mainPower then { s with pow.ph := .flushed }
  else { s with pow.ph := .off, pow.aon := false }

/-- Whether the vault is in block reset, which a flush waits for (14 R487). -/
def vaultResetting (s : State) : Bool := match tget s.fc.resets 25 with
  | some b => b.endedAt.isNone
  | none => false

/-- A flush that is cut off (R409; 13 R464; 16 R533): step 6 has got to some line by then, which is a free value, and goes no
further. -/
def tornFlush (s : State) : State :=
  let n := (Config.freeWord s.free).toNat % (s.cache.shadow.length + 1)
  let s := if s.pow.hotWait || (!s.pow.step6 && vaultHot s) || vaultResetting s then s
    else nextFree (programLines (s.cache.shadow.take n) s)
  { s with pow.lastResult := 1, pow.endedBad := true }

/-- FLUSH_END (R393, R395, R406), with the DRAM errors that step 6 meets. -/
def flushEnds (mainPower : Bool) (errs : List DramErr) (s : State) : State :=
  if s.pow.ph != .flush || vaultResetting s then s
  else if s.pow.step6 then afterFlush mainPower (closeFlush 1 (programVault errs s))
  else if s.pow.hotWait || vaultHot s then
    if mainPower then { s with pow.hotWait := true } else afterFlush mainPower (closeFlush 2 s)
  else afterFlush mainPower (closeFlush 1 (programVault errs s))

/-- FLUSH_END (R393, R395). -/
def execFlushEnd (e : FlushIn) (s : State) : Res := ok (flushEnds e.mainPower e.errs s)

/-- VAULT_HOT_WAIT_END (R406): the wait ends and step 6 runs, until FLUSH_END. -/
def execVaultHotWaitEnd (s : State) : Res :=
  if s.pow.ph = .flush ∧ s.pow.hotWait = true ∧ vaultCool s = true ∧ vaultResetting s = false then
    ok { s with pow.hotWait := false, pow.step6 := true }
  else ok s

/-- PFAIL_N (R391): low for 1 µs starts a flush. -/
def execPfailN (low : Bool) (s : State) : Res :=
  let s := { s with pow.pfail := low, pow.pfailAt := s.now }
  if low then ok (startFlush 0 false s) else ok s

/-- RAIL_MONITOR_TRIP (R391): a monitored rail lies below its threshold for 1 µs. -/
def execRailMonitorTrip (_rail : MonRail) (s : State) : Res := ok (startFlush 0 false s)

/-- PWROK_FALL (16 R533): the supplies go; a flush that runs is torn. After the analog trip the next boot still reads its
cause (13 R464). -/
def execPwrokFall (s : State) : Res :=
  if s.pow.ph = .off then ok s
  else if s.pow.ph = .tripped then
    let s := if s.therm.tripped then emit (.pin "THERMTRIP_N" true) s else s
    ok { s with pow.aon := false, therm.tripped := false, dev.powerGood := false }
  else
    let s := if s.pow.ph = .flush then tornFlush s else s
    ok (dropWork { s with pow.ph := .off, pow.aon := false, pow.flushing := false, dev.powerGood := false, dev.ready := false, dev.level := 0 })

end Sys2Proof.Machine
end

