-- ==== Sys2Proof/Machine/Secure.lean ====
section
/-! DEFINITION. Sys2Proof/Machine/Secure.lean: firmware slots, measurements and authorisations (15 R506 to R518). -/

namespace Sys2Proof.Machine

/-! ## Firmware slots (R507, R508) -/

/-- Bytes of a firmware image, and of its body. -/
def fwLen : Nat := 16777216
/-- Bytes of the body. -/
def fwBodyLen : Nat := 16744448

/-- Contents of a firmware slot. -/
def slotImage (i : Nat) (s : State) : List Byte := tgetD s.sec.slots i (Config.factorySlot i)

/-- The body of an image. -/
def fwBody (b : List Byte) : List Byte := b.take fwBodyLen
/-- KEY. -/
def fwKeyOf (b : List Byte) : Nat := byteAt b 6
/-- SVN. -/
def fwSvnOf (b : List Byte) : Nat := byteAt b 7
/-- VERSION. -/
def fwVersionOf (b : List Byte) : Nat := leAt b 8 4
/-- REVOKE, for the keys below KEY. -/
def fwRevokeOf (b : List Byte) : BitVec 4 := BitVec.ofNat 4 (byteAt b 12 % 2 ^ (min (fwKeyOf b) 4))
/-- PUBKEY. -/
def fwPubOf (b : List Byte) : List Byte := slice b 64 64

/-- Whether an image verifies, its SVN aside (R508). -/
def fwSound (b : List Byte) (s : State) : Bool :=
  b.length == fwLen && leAt b 0 4 == 0x57465644 && leAt b 4 2 == 1 && decide (fwKeyOf b < 4) &&
  !s.sec.revoked.getLsbD (fwKeyOf b) && Config.sha256 (fwPubOf b) == Config.firmwareKeyHash (fwKeyOf b) &&
  Config.slhDsaVerify (fwPubOf b) (fwBody b) (slice b fwBodyLen 29792)

/-- Whether a slot verifies (R508). -/
def slotVerifies (i : Nat) (s : State) : Bool :=
  fwSound (slotImage i s) s && decide (s.sec.arb ≤ fwSvnOf (slotImage i s))

/-- The running firmware's version, laid out as FW_VERSION[31:0]. -/
def runningVersion (s : State) : Nat := s.dev.fwBuild + s.dev.fwMinor * 2 ^ 16 + s.dev.fwMajor * 2 ^ 24

/-- The running slot. -/
def runningSlot (s : State) : Nat := b2n s.dev.fwSlot

/-- The boot ROM runs a slot: FW_VERSION (R508; 01 R35). -/
def runSlot (i : Nat) (s : State) : State :=
  let b := slotImage i s
  let v := fwVersionOf b
  { s with dev.fwBuild := fld v 15 0, dev.fwMinor := fld v 23 16, dev.fwMajor := fld v 31 24, dev.fwSlot := i == 1,
           sec.fwSvn := fwSvnOf b, sec.fwKey := fwKeyOf b }

/-- Firmware verification at boot (R508): the slot that the pointer names, 0 for a pointer that fails its SEC-DED, then the
other; a slot that fails raises a message from 0x1E0. Answers whether one verified. -/
def verifyFirmware (s : State) : Bool × State :=
  let a := if s.pow.boot.badPointer then 0 else s.sec.pointer
  if slotVerifies a s then (true, runSlot a s)
  else
    let s := raiseOpen 0x1E0 s
    if slotVerifies (1 - a) s then (true, runSlot (1 - a) s) else (false, raiseOpen 0x1E0 s)

/-- Fuses blown at READY (R510): the counter up to the running SVN, then the revocation bits; the count ends at the first
bit that stays unblown, and each such bit raises a message. -/
def blowFuses (s : State) : State :=
  if s.sec.fwSvn ≤ s.sec.arb then s
  else
    let todo := ((List.range (min s.sec.fwSvn 128)).drop s.sec.arb).filter (fun i => !s.sec.beyond.contains i)
    let bits := todo.filter (fun i => s.pow.boot.stuckFuses.contains i)
    let blown := s.sec.beyond ++ todo.filter (fun i => !s.pow.boot.stuckFuses.contains i)
    let count := (((List.range 129).drop s.sec.arb).find? (fun i => !blown.contains i)).getD s.sec.fwSvn
    let revoke := fwRevokeOf (slotImage (runningSlot s) s) &&& ~~~ s.sec.revoked
    let keys := (List.range 4).filter (fun i => (revoke &&& s.pow.boot.stuckKeys).getLsbD i)
    let s := { s with sec := { s.sec with
      arb := count, beyond := blown.filter (fun i => decide (count < i)), revoked := s.sec.revoked ||| revoke &&& ~~~ s.pow.boot.stuckKeys,
      fuseFail := s.sec.fuseFail || !bits.isEmpty || !keys.isEmpty } }
    (bits ++ keys).foldl (fun s _ => raiseFree 0x1E1 0x3D s) s

/-! ## Measurements (R509) -/

/-- 32 zero bytes. -/
def zero32 : List Byte := List.replicate 32 0

/-- The owner key hash, or 32 zero bytes. -/
def ownerHash (s : State) : List Byte := match s.led.ownerKey with
  | some k => Config.sha256 k
  | none => zero32

/-- SHA-256 of the identity public key. -/
def identityHash : List Byte := Config.sha256 Config.identityKey

/-- The plan-image hash of the image that runs, or 32 zero bytes. -/
def runningHash (s : State) : List Byte := match s.plan.tab with
  | some t => padTo 32 t.hash
  | none => zero32

/-- Measurements M0 to M5, in order. They are functions of what they measure, so each is up to date. -/
def measurements (s : State) : List (List Byte) :=
  [Config.sha256 Config.bootRom,
   Config.sha256 (fwBody (slotImage (runningSlot s) s)),
   Config.sha256 (leBytes 1 s.sec.arb ++ leBytes 1 s.sec.revoked.toNat ++ ownerHash s ++ leBytes 1 (b2n s.led.locked) ++
     Config.lockBytes s.led.profLock),
   runningHash s,
   Config.sha256 (Config.profileBytes (tgetD s.led.profiles s.dev.profile.toNat (defaultProfile s.dev.profile.toNat))),
   Config.sha256 (Config.identityBytes s.led.cohort s.led.paired s.led.peer ++ s.led.pairCfg)]

/-! ## Authorisations (R513 to R516) -/

/-- SEQ of an authorisation. -/
def authSeqOf (a : List Byte) : Nat := leAt a 8 8

/-- Whether the module accepts an authorisation for an OP with its ARG (R513, R515). -/
def authOk (op : Nat) (av : List Byte) (a : List Byte) (s : State) : Bool :=
  match s.led.ownerKey with
  | none => false
  | some k =>
    a.length == authLen && leAt a 0 4 == 0x5A415644 && leAt a 4 2 == 1 && leAt a 6 2 == op &&
    leAt a 16 4 == s.led.cohort && leAt a 20 4 == 0 && slice a 24 32 == identityHash && slice a 56 32 == Config.sha256 k &&
    slice a 88 24 == padTo 24 av && allZero (slice a 112 16) && decide (s.led.authSeq < authSeqOf a) &&
    Config.slhDsaVerify k (a.take 128) (a.drop 128)

/-- A refused authorisation (R515). -/
def authRefused (c : Nat) (reason : Nat) (s : State) : State :=
  adminFail c 0x0402 reason (raiseOpen 0x1E4 { s with sec.refused := sat32 s.sec.refused 1 })

/-- An accepted sequence joins the transaction of the operation's effect (R516). -/
def authAccept (a : List Byte) (s : State) : State :=
  { s with led.authSeq := authSeqOf a, sec.accepted := sat32 s.sec.accepted 1 }

/-- Run an operation that needs an owner-signed authorisation and commits the ledger (06 R236, R238): refused while commits
are refused; AUTH_REQUIRED when the authorisation is absent or no owner is enrolled, AUTH_INVALID when it is not accepted.
`f` runs with the authorisation good; where its effect lands it accepts the sequence with `authAccept` (R516; log entry 41). -/
def withAuth (c op : Nat) (av : List Byte) (a : List Byte) (f : State → State) (s : State) : State :=
  commitGate c (fun s =>
    if a.isEmpty || s.led.ownerKey.isNone then adminFail c 0x0401 0 s
    else if !authOk op av a s then authRefused c 0 s
    else f s) s

end Sys2Proof.Machine
end

