-- ==== Sys2Proof/Machine/Boot.lean ====
section
/-! DEFINITION. Sys2Proof/Machine/Boot.lean: the boot, from power-good or from a chip reset with power present (11 R407 to
R412; 01 R23; 02 R54, R67; 14 R501). -/

namespace Sys2Proof.Machine

/-! ## The ledger load (11 R416, R420) -/

/-- A record that is damaged is absent: it starts from its initial state. A learn cycle that runs and what the pack's channels read are
no part of the pack record (12 R428, R448). -/
def absentRecord (typ inst : Nat) (s : State) : State :=
  match typ with
  | 0x0001 => { s with led.cohort := 0, led.paired := false, led.peer := 0 }
  | 0x0002 => { s with led.splitCtx := 131072, led.splitVec := 1024 }
  | 0x0003 => { s with led.bootVol := none, led.bootVolNo := 0, led.retrain := false }
  | 0x0004 => { s with led.ways := [], led.lock := 0, led.volClass := [] }
  | 0x0010 => { s with led.active := none }
  | 0x0011 => { s with led.previous := none }
  | 0x0012 => { s with led.staging := [], led.stagingLast := false }
  | 0x0013 => { s with led.keys := [] }
  | 0x0020 => { s with led.profiles := tdel s.led.profiles inst }
  | 0x0021 => { s with led.profLock := none }
  | 0x0030 => { s with mem.pools := tdel s.mem.pools inst, jnl.restorePools := nins s.jnl.restorePools inst }
  | 0x0031 => updPool inst (fun p => { p with patrol := {} }) s
  | 0x0032 => updPool inst (fun p => { p with reshape := {} }) s
  | 0x0033 => updPool inst (fun p => { p with relocs := p.relocs.map (fun e => (e.1, { e.2 with boundary := 0 })) }) s
  | 0x0038 => { s with led.pairCfg := [] }
  | 0x0040 => { s with therm.mask := 0, therm.trims := [], led.training := s.led.training + 1 }
  | 0x0041 => { s with therm := { s.therm with
      planVid := none, planCeiling := 2000, planHours := 0, planValid := false, refresh := 0, scrubH := 24, wear := {},
      planTwins := [] } }
  | 0x0042 => { s with pack := { s.pack with
      identity := none, qLearn := {}, uLearn := {}, rho := {}, learnAt := 0, insertedAt := 0, cycles := {}, fails := 0, lastResult := 0,
      cyclesKept := {}, rhoKept := {}, failsKept := 0, resultKept := 0 } }
  | 0x0050 => { s with led.opSeconds := 0, led.powerCycles := 0 }
  | 0x0051 => { s with led.fallback := false, led.unnamedLoss := false, led.discards := 0, led.discardsKept := 0 }
  | 0x0060 => { s with led.ownerKey := none, led.authSeq := 0 }
  | _ => s

/-- DAMAGED is set, and one event recorded, for a damaged record (R420). -/
def noteDamaged (r : Nat × Nat) (s : State) : State := recEvent 0x0C4 0x0005 (r.1 * 65536 + r.2) [] { s with led.damaged := true }

/-- One damaged record: absent, DAMAGED set, one event (R420). -/
def damagedRecord (r : Nat × Nat) (s : State) : State := noteDamaged r (absentRecord r.1 r.2 s)

/-- The ledger that a boot loads (R416): the directory copy in force, else the other one, which is that of the commit before; with
neither every record is absent. What the board and the always-on domain hold is no ledger content. -/
def loadLedger (b : BootInputs) (s : State) : State :=
  let put (k : LedSnap) (s : State) : State :=
    { s with led := k.led, mem.pools := k.pools, ledNow := k,
             therm := { k.therm with xtalOk := s.therm.xtalOk, tripped := s.therm.tripped, vid := s.therm.vid, hours := s.therm.hours,
                                     dramSeen := s.therm.dramSeen, mramSeen := s.therm.mramSeen },
             pack := { k.pack with presHigh := s.pack.presHigh, draw := s.pack.draw, chgInh := s.pack.chgInh } }
  let s := if !b.badDirs.contains (s.led.seq % 2) then s
    else if !b.badDirs.contains (1 - s.led.seq % 2) then put s.ledOld s
    else put {} s
  b.damaged.foldl (fun s r => absentRecord r.1 r.2 s) s

/-! ## What a chip reset leaves -/

/-- A slot as the ledger keeps it, not found yet (08 R304); a failure that was not committed did not happen (08 R300). -/
def bootSlot (r : SlotRec) : SlotRec :=
  let undone := r.st == .failed && r.commitPending
  let st : SlotSt × SlotSt := match r.st with
    | .online => (.absent, .online)
    | .suspect => (.absent, .online)
    | .rebuilding => (.absent, .rebuilding)
    | .retiring => (.absent, .retiring)
    | .absent => (.absent, r.resume)
    | .failed => if r.commitPending then (.absent, r.resume) else (.failed, r.resume)
    | .retired => (.retired, r.resume)
  { st := st.1, resume := st.2, restore := r.restore, labelGen := if undone then r.labelGen - 1 else r.labelGen, prep := r.prep,
    readErrTotal := r.readErrTotal, tagFailTotal := r.tagFailTotal }

/-- A pool as the ledger keeps it. -/
def bootPool (p : PoolRec) : PoolRec :=
  { p with
    slots := p.slots.map (fun e => (e.1, bootSlot e.2)),
    relocs := p.relocs.map (fun e => (e.1, { toBoundary e.2 with active := false, full := false })),
    walks := [], writes := [], reads := [], discovery := true, progress := 0, sealPaused := false, voluntary := none, rebuildTotal := 0,
    patrol := p.patrol.resume,
    reshape := { p.reshape with next := p.reshape.b, finished := [], remark := [],
                                window := p.reshape.window.filter (fun w => w.saved && decide (w.index < p.reshape.b)) } }

/-- The journal at boot: open entries and marked regions wait for replay (07 R287, R289). What the anchors hold is not forgotten: the
image, and which of their copies is the older one (R290, R291). -/
def bootJnl (j : JnlSt) : JnlSt :=
  let opened := j.own.filter (fun e => e.2.st == 1)
  { own := j.own, mirror := j.mirror, nextSeq := j.nextSeq, hash := j.hash, shift := j.shift, marked := j.marked,
    opens := opened.foldl (fun t e =>
      tmod t (e.2.pool * 2 ^ 48 + e.2.row / 2 ^ (tgetD j.shift e.2.pool 6)) 0 (· + 1)) [],
    ckptSeq := j.ckptSeq, restorePools := j.restorePools, replay := opened.map (·.1), image := j.image,
    oldAnchors := j.anchors.map (fun e => { e.2 with stage := 0, todo := 0 }) ++
      j.oldAnchors.filter (fun a => !j.anchors.any (fun e => e.2.pool == a.pool && e.2.slot == a.slot)),
    mirrorNext := j.mirrorNext, mirrorHash := j.mirrorHash, mirrorShift := j.mirrorShift,
    resync := j.marked.map (fun k => (k, (k % 2 ^ 48) * 2 ^ (tgetD j.shift (k / 2 ^ 48) 6))) }

/-- The event recorder at boot (14 R493, R501): the log goes on, counts resume from the greater value; the always-on
domain keeps its count, its staging and its last words while it has power. -/
def bootRec (fresh : Bool) (s : State) : RecSt :=
  let e := s.evr
  let last := e.log.getLast?
  let lastOp := (last.map (·.opSeconds)).getD 0
  let lastPc := (last.map (·.powerCycles)).getD 0
  let kept := if fresh then s.led.opSeconds else max s.led.opSeconds (opSeconds s)
  let cycles := if fresh then s.led.powerCycles else max s.led.powerCycles e.powerCycles
  { staging := if fresh then [] else e.staging, log := e.log,
    nextSeq := if fresh then (match last with
      | some r => (r.seq + 1) % 2 ^ 32
      | none => e.nextSeq) else e.nextSeq,
    firstSeq := e.firstSeq, notLogged := e.notLogged, full := e.full, memFailed := e.memFailed,
    lastWords := if fresh then [] else e.lastWords, boot := e.boot + 1,
    opBase := max kept lastOp, opAt := s.now, powerCycles := min (max cycles lastPc + 1) 0xFFFFFF,
    fromLog := decide (kept < lastOp) || decide (cycles < lastPc), lastCounters := max kept lastOp }

/-- The index log at boot: entries that cannot be read are dropped; an entry names what the shadow still marks dirty (11
R398, R401, R403). -/
def bootIndex (readable : Bool) (bad : List Nat) (s : State) : List IdxEnt :=
  if !readable then []
  else
    let good := (s.pow.index.zipIdx.filter (fun e => !bad.contains e.2)).map (·.1)
    let left (e : IdxEnt) : BitVec 16 := (s.cache.shadow.find? (fun h => h.2.pool == e.pool &&
      tagLine h.1 { lineHi := h.2.lineHi, pool := h.2.pool } == e.line)).elim 0 (fun h => h.2.dirty)
    let es := good.map (fun e => { e with restored := e.mask &&& ~~~ left e, dead := e.dead || e.mask &&& left e == 0 })
    if es.all (fun e => e.dead) then [] else es

/-- The current half of a boot (11 R402), and of an erase that completes (log entry 26). -/
def bootHalf (p : PowSt) : PowSt :=
  let free (h : Nat) : Nat := 16777216 - (if h = 0 then p.free0 else p.free1)
  let erased (h : Nat) : Bool := if h = 0 then p.erased0 else p.erased1
  if free p.cur < 4456448 && erased (1 - p.cur) then { p with cur := 1 - p.cur } else p

/-- The flush header of a boot: of the copies whose CRC is good, the one with the higher sequence (11 R400). With neither the module
takes both halves as used. Sectors that the index names count as used too, since a torn flush has written no header after them (log
entry 26). -/
def bootHdr (bad : List Nat) (p : PowSt) : PowSt :=
  let used (h : Nat) : Nat := (p.index.filter (fun e => e.half == h)).foldl (fun m e => max m (e.vsec + (secsOf e.mask).length)) 0
  let clip (p : PowSt) : PowSt :=
    { p with free0 := max p.free0 (used 0), free1 := max p.free1 (used 1),
             erased0 := p.erased0 && used 0 == 0, erased1 := p.erased1 && used 1 == 0 }
  if p.hdrs.isEmpty then p
  else match leastBy (fun e => 2 ^ 64 - e.2.seq) (p.hdrs.filter (fun e => !bad.contains e.1)) with
    | some (k, h) => clip { p with hdrCur := k, flushSeq := h.seq, header := h.st, logFirst := h.first, cur := h.cur, free0 := h.free0,
                                   free1 := h.free1, erased0 := h.erased0, erased1 := h.erased1 }
    | none => { p with header := 3, free0 := 16777216, free1 := 16777216, erased0 := false, erased1 := false }

/-- What a boot drives on the balls at once: CORE_VID at code 10 until the ledger is loaded (16 R532), the charger
inhibited (12 R436), and no draw from the pack, since no learn cycle runs (12 R443). -/
def bootPins (s : State) : State :=
  let s := if s.therm.vid = 10 then s else emit (.vid 10) s
  let s := if s.pack.draw then emit (.pin "PACK_DRAW_EN" false) s else s
  if s.pack.chgInh then s else emit (.pin "PACK_CHG_INH" true) s

/-- Everything that a chip reset makes of the state, before the boot's checks: non-volatile memory, what the always-on
domain and the balls hold, and reset values elsewhere. -/
def resetState (powerOn : Bool) (cause : Nat) (b : BootInputs) (s : State) : State :=
  let s := noteWords s
  let fresh := powerOn && !s.pow.aon
  let led : Ledger := { s.led with damaged := false, discards := s.led.discardsKept, lastDiscard := 0, discardValid := false }
  let dev : DevSt :=
    { powerGood := true, bifurcated := b.hostBif,
      ctxSplit := if b.hostBif then s.led.splitCtx else 262144, vecSplit := if b.hostBif then s.led.splitVec else 2048,
      laneFence := b.badLanes, ctrlFence := b.badCtrlCores, groupFence := b.badGroups, seqFence := b.badSeqCores,
      hostFence := b.badHostLanes, tagFence := b.badTagSram, pairFence := b.badPair,
      vaultFence := b.badVault || !b.indexReadable || halvesWorn s, dramFence := b.badDram, coreAwake := ~~~ b.badCtrlCores,
      cacheActive := true, pairActive := s.led.paired && !b.badPair, groupAwake := ~~~ b.badGroups,
      groupUpAt := (List.range 16).map (fun g => (g, s.now)) }
  let cache : CacheSt :=
    { shadow := s.cache.shadow, lostW := s.cache.lostW, unnamedLoss := s.led.unnamedLoss, frozen := true,
      ways := s.led.ways, lock := s.led.lock, volClass := s.led.volClass,
      lastDramScrub := s.cache.lastDramScrub, lastTagScrub := s.now }
  let p := s.pow
  let h := bootHalf (bootHdr b.badHeaders p)
  let keep (q : PowSt) : PowSt := if q.hdrs.isEmpty then q else saveHdr q
  let pow : PowSt := keep
    { ph := .boot, pfail := p.pfail, pfailAt := p.pfailAt, bootCause := cause, index := bootIndex b.indexReadable b.badIndex s,
      nand := p.nand, hdrs := h.hdrs, hdrCur := h.hdrCur, logFirst := h.logFirst, flushSeq := h.flushSeq, header := h.header,
      cur := h.cur, free0 := h.free0, free1 := h.free1, erased0 := h.erased0, erased1 := h.erased1, lastSectors := p.lastSectors, lastClean := p.lastClean,
      lastResult := p.lastResult, lastMs := p.lastMs, erases0 := p.erases0, erases1 := p.erases1, bad0 := p.bad0, bad1 := p.bad1,
      goodAt := s.now, boot := { b with damaged := [], badIndex := [], badDirs := [], badHeaders := [] }, endedDone := p.endedDone, endedBad := p.endedBad, hold := p.hold,
      bootLost := p.bootLost }
  let k := s.pack
  let pack : PackSt :=
    { identity := k.identity, qLearn := k.qLearn, uLearn := k.uLearn, rho := k.rhoKept, learnAt := k.learnAt,
      insertedAt := k.insertedAt, cycles := k.cyclesKept, cyclesKept := k.cyclesKept, fails := k.failsKept,
      failsKept := k.failsKept, lastResult := k.resultKept, resultKept := k.resultKept, rhoKept := k.rhoKept,
      presHigh := k.presHigh }
  let t := s.therm
  let therm : ThermSt :=
    { mask := t.mask, maskNow := t.mask, trims := t.trims, hours := t.hours, ceiling := t.planCeiling, code := 10, vid := 10, planVid := t.planVid, planCeiling := t.planCeiling,
      planHours := t.planHours, planValid := t.planValid, refresh := t.refresh, scrubH := t.scrubH, wear := t.wear,
      planTwins := t.planTwins, planAgain := t.planAgain, tokAt := s.now, xtalOk := t.xtalOk || powerOn,
      coreLock := true, dramLock := true, hostLock := true, groupLock := ~~~ b.badGroups }
  let sec : SecSt :=
    { arb := s.sec.arb, beyond := s.sec.beyond, revoked := s.sec.revoked, slots := s.sec.slots, pointer := s.sec.pointer,
      eid := if fresh then 0 else s.sec.eid, addr := 0x4C + b.mgmtAddr.toNat, fast := b.mgmtSpeed,
      recvEid := if fresh then 0 else s.sec.recvEid, recvEn := !fresh && s.sec.recvEn }
  let fc : FaultSt := if fresh then { cycBase := s.now }
    else { sticky := s.fc.sticky, severe := s.fc.severe, errLatch := s.fc.errLatch, cycBase := s.now }
  { now := s.now, free := s.free, out := (bootPins s).out, pending := s.pending, dev := dev, fc := fc, ledNow := s.ledNow, ledOld := s.ledOld,
    port0 := { perstLow := s.port0.perstLow }, port1 := { perstLow := s.port1.perstLow },
    cache := cache, jnl := bootJnl s.jnl,
    mem := { pools := s.mem.pools.map (fun e => (e.1, bootPool e.2)), lostE := s.mem.lostE, marks := s.mem.marks },
    led := led, pair := { st := if s.led.paired then 1 else 0 }, pow := pow, pack := pack, therm := therm, sec := sec,
    tap := if powerOn then {} else s.tap, evr := bootRec fresh s }

/-! ## Steps of the boot (R407) -/

/-- No service (01 R30): HOLD_EN low, PF1 fatal. -/
def giveNoService (why : Nat) (s : State) : State :=
  loseService why (setHold false { s with pow.ph := .noService })

/-- The ledger is loaded: CORE_VID goes to the code of the margin plan, or of manufacture (16 R532; 13 R468, R469), and
what the plan holds is in force. -/
def loadMargin (s : State) : State :=
  let code := min (s.therm.planVid.getD Config.factoryVid.toNat) 10
  setVid code { s with therm.code := code, therm.ceiling := s.therm.planCeiling, therm.twins := s.therm.planTwins }

/-- The profile in force after a chip reset (02 R67), with GATE_CTL loaded from it. -/
def putProfile (n : Nat) (s : State) : State :=
  let p := ledProfile n s
  keepLanes { s with dev := { s.dev with
    profile := BitVec.ofNat 2 n, prof := p, laneGateEn := p.laneGateEn, memberGateEn := p.memberGateEn,
    idleUs := p.laneIdleUs, minLanes := p.minLanes } }

/-- The image that a boot loads (02 R54): the active one, else the previous one, which records the fallback. -/
def loadPlan (s : State) : State :=
  let any (_ : PlanTab) (_ : State) : Bool := true
  let active := s.led.active.bind (fun b => if (imageBad false (imageNodes s) any b s).isNone then some b else none)
  match active with
  | some b => loadImage b s
  | none =>
    match s.led.previous.bind (fun b => if (imageBad false (imageNodes s) compatStored b s).isNone then some b else none) with
    | none => s
    | some b =>
      let s := loadImage b { s with led.fallback := true }
      event 0x0011 0 (imgSeq b % 2 ^ 32) (recEvent 0x1F5 0x0003 0 (leBytes 8 (imgSeq b)) s)

/-- Whether replay may start (02 R55): the image that runs is the journal's, or the ledger records it as its
successor. -/
def replayMay (s : State) : Bool :=
  match s.plan.tab with
  | none => false
  | some t =>
    s.jnl.hash.isEmpty || t.hash == s.jnl.hash ||
    (s.jnl.replay.isEmpty && s.jnl.resync.isEmpty) ||
    ((s.led.active.map imgHash) == some t.hash && (s.led.previous.map imgHash) == some s.jnl.hash)

/-- Replay is allowed and the journal takes the hash of the image that runs, or it waits for such an image (02 R55; 07
R282). -/
def bindJnl (s : State) : State :=
  if replayMay s then { s with jnl.waitImage := false, jnl.hash := runningHash s } else { s with jnl.waitImage := true }

/-- The dirty sectors that have no live entry are lost (11 R409): the shadow marks them no more. -/
def bootLost (s : State) : State :=
  let reason := if s.pow.header = 2 then 2 else 4
  let gone (x : Nat) (h : Shadow) (i : Nat) : Bool :=
    match idxInForce s h.pool (tagLine x { lineHi := h.lineHi, pool := h.pool }) i with
    | some e => e.dead
    | none => true
  s.cache.shadow.foldl (fun s (x, h) =>
    let l := (secsOf h.dirty).filter (gone x h)
    let s := l.foldl (fun s i => addLostW h.pool (tagLine x { lineHi := h.lineHi, pool := h.pool }) x i reason s) s
    let d := l.foldl (fun m i => m &&& ~~~ bit16 i) h.dirty
    { s with cache.shadow := if d == 0 then tdel s.cache.shadow x else tset s.cache.shadow x { h with dirty := d } }) s

/-- Units that failed self-test, whose events are recorded at READY (01 R31). -/
def fencedUnits (s : State) : List Nat :=
  ((List.range 26) ++ (List.range 4).map (· + 32) ++ (List.range 16).map (· + 48) ++ [64] ++ (List.range 32).map (· + 96) ++
    (List.range 16).map (· + 128)).filter (fun u => isFenced u s)

/-- The boot from the always-on start to the point where READY follows (R407). Whether the pack is unproven follows from
its record (12 R440, R449). -/
def boot (powerOn : Bool) (cause : Nat) (b : BootInputs) (s : State) : State :=
  let s := resetState powerOn cause b (if b.railsOk && b.mramReadable then loadLedger b s else s)
  if !b.railsOk then setHold false { s with pow.ph := .held }
  else
    let s := setHold true s
    if !b.mramReadable then giveNoService 1 s
    else
      let (good, s) := verifyFirmware s
      if !good then giveNoService 2 s
      else
        let s := b.damaged.foldl (fun s r => noteDamaged r s) s
        let s := loadMargin { s with pow.ledgerMs := (s.now - s.pow.goodAt) / 1000 }
        let s := putProfile (s.led.profLock.getD b.profileSel.toNat % 4) s
        if b.badCtrlCores == 0xF then giveNoService 3 s
        else if (List.range 8).all (fun j => laneUnusable j s) then giveNoService 4 s
        else
          let s := if s.led.retrain then ledCommit { s with led.retrain := false, led.training := s.led.training + 1 } else s
          let s := moveDuties (loadPlan s)
          let s := bootLost { s with pow.planMs := (s.now - s.pow.goodAt) / 1000 }
          let s := bindJnl s
          { s with dev.fenceEvents := fencedUnits s, pack.idAt := opSeconds s,
                   pack.unproven := s.pack.identity.isSome && decide (learnClock s + 7776000 ≤ opSeconds s) }

/-- POWER_GOOD (R407): PWROK rises. Its boot cause is what the last power-down was (11 R424 BOOT_CAUSE). -/
def execPowerGood (b : BootInputs) (s : State) : Res :=
  if s.pow.ph = .off ∨ s.pow.ph = .tripped then
    let cause := if s.pow.ph = .tripped then 6 else if s.pow.endedBad then 7 else if s.pow.endedDone then 1 else 0
    ok (boot true cause b s)
  else ok s

/-- A boot with power present, from what the last power-good latched and its self-tests found (02 R67, 16 R529); what that
boot found damaged in the ledger and the index it has dealt with. -/
def bootAgain (cause : Nat) (s : State) : State := boot false cause s.pow.boot s

/-- POST_FLUSH_RESET (R393): PFAIL_N has been high for 100 ms after a flush. -/
def execPostFlushReset (s : State) : Res :=
  if s.pow.ph = .flushed ∧ s.pow.pfail = false then
    ok (bootAgain (if s.pow.flushCause = 3 then 3 else 2) (timeTo (s.pow.pfailAt + 100000) s))
  else ok s

/-! ## READY (R408 to R411) -/

/-- The boot notices of 14 R550. -/
def bootNotices (s : State) : State :=
  let s := match s.pow.endedBad, s.pow.lastResult with
    | true, 1 => raise 0x0F1 0x3F (1 + s.pow.flushSeq % 2 ^ 32 * 65536) s
    | true, 2 => raise 0x0F1 0x3F (2 + s.pow.flushSeq % 2 ^ 32 * 65536) s
    | _, _ => s
  if s.pow.bootCause = 6 then raise 0x1A3 0x3F 1 s else s

/-- The BOOT record (14 R491). -/
def bootRecord (s : State) : State :=
  addRec (mkRec 0x06 { src := 0x1F9, kind := 0x3F, addr := s.pow.bootCause } false
    (leBytes 2 s.pow.readyMs ++ leBytes 1 (b2n s.evr.fromLog)) s) s

/-- Vault sectors to restore (11 R424 VAULT_RESTORE.REMAINING). -/
def restoreLeft (s : State) : Nat := ((idxLines s).map (fun x => (secsOf (unrestoredMask x.1 x.2 s)).length)).sum

/-- A paired module waits in DOWN; its pools are checked, and it does not serve its peer's (10 R384). -/
def pairReady (s : State) : State :=
  if !s.led.paired then s
  else
    let s := setPairSt 1 s
    let own := poolsOf s.led.cohort s
    let s := (own ++ poolsOf s.led.peer s).foldl (fun s p => detach p s) s
    { s with pair.ownCheck := own, pair.suspectAt := s.now, pair.lastBeat := s.now - 5000 }

/-- What READY does before fuses are blown: service starts, schedules are computed ahead (02 R65), the boot record is
written, failed units are reported. -/
def comeUp (s : State) : State :=
  let s := { s with dev.ready := true, pow.ph := .run, pow.readyAt := s.now,
                    pow.readyMs := min ((s.now - s.pow.goodAt) / 1000) 0xFFFF, cache.frozen := false,
                    pow.restoring := decide (restoreLeft s != 0), mem.discoveryAt := some s.now, jnl.ckptAt := s.now }
  let s := bootRecord (setCap (relevel (precomputeAll (moveDuties s))))
  let s := s.dev.fenceEvents.foldl (fun s u => recEvent (unitSource u) 0x0001 u [] s) s
  { s with dev.fenceEvents := [] }

/-- What READY does after: notices, enables that waited, the pair. -/
def openService (s : State) : State :=
  let s := bootNotices s
  let s := s.pow.bootLost.foldl (fun s (k, n) => event 0x0005 (tgetD s.cache.lostW k {}).volume n s)
    { s with pow.endedDone := false, pow.endedBad := false, pow.bootLost := [] }
  let s := if s.port0.enPending then createAdmin 0 s else s
  let s := if s.port1.enPending && s.dev.bifurcated then createAdmin 1 s else s
  let rdy (q : Port) : Port := if q.pf1.enPending then { q with pf1 := { q.pf1 with rdy := true, enPending := false } } else q
  let s := { s with port0 := rdy s.port0, port1 := rdy s.port1 }
  closeIfFound (pairReady s)

/-- READY (R408). -/
def becomeReady (s : State) : State := openService (blowFuses (comeUp s))

/-- READY (R408). -/
def execReady (s : State) : Res := if s.pow.ph = .boot then go (becomeReady s) else ok s

end Sys2Proof.Machine
end

