-- ==== Sys2Proof/Machine/Collector.lean ====
section
/-! DEFINITION. Sys2Proof/Machine/Collector.lean: the fault collector and the event recorder (14 R475 to R502): sources,
classification, reactions, block resets, force bits, records and the log. -/

namespace Sys2Proof.Machine

/-! ## Sources (R476, R478) -/

/-- Defaults of a source: N, window in ms, ordinary and severe reactions coded by R479; none for a reserved one. -/
def defaultRow (src : Nat) : Option (Nat × Nat × Nat × Nat) :=
  if src < 0x020 then some (16, 1000, 1, 33)
  else if src < 0x040 then some (64, 1000, 0, 3)
  else if src < 0x048 then some (4, 10000, 2, 5)
  else if src < 0x068 then some (16, 1000, 0, 5)
  else if src < 0x06B then some (2, 0, 2, 49)
  else if 0x080 ≤ src ∧ src < 0x090 then some (1024, 1000, 0, 41)
  else if src = 0x090 then some (16, 1000, 0, 41)
  else if 0x091 ≤ src ∧ src < 0x095 then some (64, 10000, 1, 33)
  else if 0x0C0 ≤ src ∧ src < 0x0C9 then some (16, 10000, 2, 33)
  else if 0x0E0 ≤ src ∧ src < 0x0F3 then some (32, 10000, 0, 41)
  else if 0x100 ≤ src ∧ src < 0x180 then some (256, 10000, 0, 1)
  else if 0x180 ≤ src ∧ src < 0x187 then some (16, 10000, 1, 5)
  else if 0x1A0 ≤ src ∧ src < 0x1A7 then some (64, 10000, 1, 33)
  else if 0x1C0 ≤ src ∧ src < 0x1C6 then some (16, 60000, 1, 5)
  else if 0x1D0 ≤ src ∧ src < 0x1D9 then some (4, 10000, 1, 35)
  else if 0x1E0 ≤ src ∧ src < 0x1F0 then some (1, 0, 33, 33)
  else if 0x1F0 ≤ src ∧ src < 0x1F4 then some (4, 10000, 2, 41)
  else if 0x1F4 ≤ src ∧ src < 0x1FA then some (4, 10000, 2, 49)
  else none

/-- Whether a source is reserved (14 R476; 05 R217; 15 R526). -/
def reservedSrc (src : Nat) : Bool := (defaultRow src).isNone || (decide (0x028 ≤ src) && decide (src < 0x040)) || (decide (0x1E8 ≤ src) && decide (src < 0x1F0))

/-- Classification and reactions that the default matrix gives a source. -/
def defaultCfg (src : Nat) : SrcCfg :=
  match defaultRow src with
  | none => {}
  | some (n, w, o, v) => { ordinary := BitVec.ofNat 6 o, severe := BitVec.ofNat 6 v, n := n, w := w }

/-- Those in force. -/
def cfgOf (src : Nat) (s : State) : SrcCfg := tgetD s.fc.cfg src (defaultCfg src)

/-- The unit that BRESET and FENCE act on, by its number of R492: a block, or a unit that can be fenced alone. -/
def unitOf (src : Nat) : Option UnitNo :=
  if 0x040 ≤ src ∧ src < 0x048 then some (src - 0x040)
  else if 0x048 ≤ src ∧ src < 0x068 then some ((src - 0x048) / 4)
  else if 0x100 ≤ src ∧ src < 0x180 then some (8 + (src - 0x100) / 8)
  else if 0x180 ≤ src ∧ src < 0x187 then some 24
  else if 0x0E0 ≤ src ∧ src < 0x0F3 then some 25
  else if 0x1C0 ≤ src ∧ src < 0x1C6 then some 26
  else if 0x080 ≤ src ∧ src < 0x090 then some (48 + (src - 0x080))
  else if src = 0x090 then some 64
  else if 0x1F0 ≤ src ∧ src < 0x1F4 then some (32 + (src - 0x1F0))
  else none

/-- Interface sources of a block. -/
def interfaceOf (b : Nat) : List Nat :=
  if b < 8 then [0x027, 0x069] else if b < 24 then [0x1D5] else if b = 24 then [0x1D4] else if b = 25 then [0x0C8] else []

/-- Whether a block's reset shadow covers a source (R488). -/
def covers (b src : Nat) : Bool := unitOf src == some b || (interfaceOf b).contains src

/-- The lowest inside source of a block (R491 SHADOW). -/
def lowestInside (b : Nat) : Nat :=
  if b < 8 then 0x040 + b else if b < 24 then 0x100 + 8 * (b - 8) else if b = 24 then 0x180 else if b = 25 then 0x0E0 else 0x1C0

/-- The block number of a block (R491). -/
def blockNo : Block → Nat
  | .lane n => n.val
  | .memberGroup n => 8 + n.val
  | .pairLink => 24
  | .vault => 25
  | .packInterface => 26

/-! ## Reactions (R479, R482, R483) -/

/-- INT: the vector of each port that enables it. -/
def reactInt (s : State) : State :=
  let s := if s.fc.intEn0 then signal 0 s.fc.vector0 s else s
  if s.fc.intEn1 && s.dev.bifurcated then signal 1 s.fc.vector1 s else s

/-- ERR: the latch, and ERR_N low. -/
def reactErr (s : State) : State :=
  if s.fc.errLatch then s else emit (.pin "ERR_N" false) { s with fc.errLatch := true }

/-- Operations that occupy contexts of a lane. -/
def laneOps (j : Nat) (s : State) : List Nat :=
  (s.pipe.ops.filter (fun e => match e.2.ctx with
    | some c => laneOf c == j
    | none => false)).map (·.1)

/-- An operation stops on its lane (R487): instructions that it issued complete, so that a JCL closes its journal entry (03 R110 step 2),
and an entry that is open then stays open; a destage leaves its lines dirty; any other one is
queued again and runs from the start on another lane. -/
def stopOnLane (o : Nat) (s : State) : State :=
  match opOf o s with
  | none => s
  | some op =>
    let s := match op.ctx with
      | none => s
      | some c => (match ctxOf c s with
        | some x => dropInflight c (settleOpen x s)
        | none => s)
    if (op.kind = 1 ∨ op.kind = 2) ∧ op.hostpost = false then endOp o 0x0104 0 [] s
    else
      let started : Bool := match op.st with
        | .ready => true
        | .scratch => true
        | .program => true
        | .builtin => true
        | _ => false
      let op' : Op := { op with ctx := none, again := started, st := .held, staging := 0, granted := false, bi := .read }
      let q := s.pipe
      let q' : PipeSt := { q with
        ops := tset q.ops o op', ctxs := (match op.ctx with | some c => tdel q.ctxs c | none => q.ctxs),
        waitScratch := q.waitScratch.filter (· != o) }
      placeOp o { s with pipe := q' }

/-- Everything that runs on a lane leaves it. -/
def clearLane (j : Nat) (s : State) : State := (laneOps j s).foldl (fun s o => stopOnLane o s) s

/-- Ports of a member group that have a member. -/
def groupPorts (g : Nat) (s : State) : List Nat :=
  (s.mem.ports.filter (fun e => portGroup e.1 == g && e.2.present)).map (·.1)

/-- Outstanding member commands of operations on a port are reported as failed to them, and to nothing else (R487). -/
def failOps (q : Nat) (s : State) : State :=
  let mine := s.mem.cmds.filter (fun e => e.2.port == q && !e.2.dead && (match e.2.owner with
    | .label .. => false
    | .prep .. => false
    | .ckpt .. => false
    | .ckptHdr _ => false
    | .ckptRead .. => false
    | .health .. => false
    | .resv .. => false
    | .other => false
    | _ => true))
  let s := failTags q (mine.foldl (fun s e => failOwner e.2.owner s) s)
  { s with mem.cmds := s.mem.cmds.map (fun e => if mine.any (fun m => m.1 == e.1) then (e.1, { e.2 with dead := true }) else e) }

/-- The links of a member group leave L0. -/
def dropGroup (g : Nat) (s : State) : State :=
  (groupPorts g s).foldl (fun s q =>
    updMport q (fun p => { p with linkUp := false, downAt := some s.now }) (failOps q s)) s

/-- What a block reset does to the work in its block (R487). -/
def resetWork (b : Nat) (s : State) : State :=
  if b < 8 then clearLane b s
  else if b < 24 then dropGroup (b - 8) s
  else if b = 24 then pairDown s
  else s

/-- What a fence does to the work of a unit (01 R24, R31). -/
def fenceWork (u : UnitNo) (s : State) : State :=
  if u < 8 then clearLane u s
  else if u < 24 then dropGroup (u - 8) s
  else if u = 24 then pairDown s
  else s

/-- FENCE: the unit, a lane with its sequencer cores (R478). -/
def reactFence (u : UnitNo) (s : State) : State :=
  if u = 26 ∨ isFenced u s then s
  else
    let s := fenceUnit u s
    let s := if u < 8 then (List.range 4).foldl (fun s i => fenceUnit (96 + 4 * u + i) s) s else s
    fenceWork u { s with fc.resets := tdel s.fc.resets u }

/-- Block resets of a block within the last 3,600 operating seconds (R486). -/
def recentResets (b : Nat) (s : State) : List Nat := (tgetD s.fc.hist b []).filter (fun t => decide (opSeconds s < t + 3600))

/-- BRESET (R485 to R487): one at a time per block; the third within 3,600 operating seconds is a FENCE, or ERR for the pack
interface. -/
def reactBreset (src b : Nat) (s : State) : State :=
  if isFenced b s then s
  else if (tget s.fc.resets b).isSome then
    { s with fc.cnt := tmod s.fc.cnt src {} (fun c => { c with shadow := min (c.shadow + 1) 0xFFFF }) }
  else if 2 ≤ (recentResets b s).length then (if b = 26 then reactErr s else reactFence b s)
  else
    let r : BlockRst := { startedAt := s.now, links := if 8 ≤ b ∧ b < 24 then groupPorts (b - 8) s else [] }
    resetWork b { s with fc.resets := tset s.fc.resets b r, fc.hist := tset s.fc.hist b (recentResets b s ++ [opSeconds s]) }

/-- CRESET (R479, R485): a flush, and a boot after it with cause 3; before READY, or with nothing to flush, the boot
itself. No block reset goes on. -/
def reactCreset (s : State) : State :=
  let s := { s with fc.creset := true, fc.resets := [] }
  match s.pow.ph with
  | .run => startFlush 3 false s
  | .boot => bootAgain 3 s
  | .standby => bootAgain 3 s
  | .noService => bootAgain 3 s
  | _ => s

/-- FENCE, else BRESET, then CRESET (R483 steps 6 and 7). -/
def reactRest (src : Nat) (r : BitVec 6) (s : State) : State :=
  let s := match unitOf src with
    | none => s
    | some u =>
      if r.getLsbD 3 && u != 26 then reactFence u s
      else if r.getLsbD 2 && decide (u < 27) then reactBreset src u s
      else s
  if r.getLsbD 4 then reactCreset s else s

/-! ## Records of messages (R491) -/

/-- SOURCE, KIND and ADDRESS as R473 lays them out. -/
def msgWord (m : FMsg) : Word := BitVec.ofNat 64 (m.addr % 2 ^ 48 + m.kind * 2 ^ 48 + m.src * 2 ^ 54)

/-- A FAULT record; the overruns of its source are reported in it when it is a record of its own. -/
def faultRecord (m : FMsg) (severe trap : Bool) (s : State) : State :=
  let c := tgetD s.fc.cnt m.src {}
  let d := leBytes 4 c.overruns ++ (if trap then (Config.trapCapture (msgWord m)).take 12 else [])
  let r : EvRec := { mkRec 0x01 m severe d s with overrun := c.overruns != 0 }
  let again : Bool := match s.evr.staging.getLast?, s.evr.log.getLast? with
    | some l, _ => repeats l r
    | none, some l => repeats l r && nvOn s
    | none, none => false
  let s := addRec r s
  if again || s.evr.memFailed then s
  else { s with fc.cnt := tmod s.fc.cnt m.src {} (fun c => { c with overruns := 0 }) }

/-- Entries 1 to 7 of the last-words file take escalations while the log memory has failed (R499). -/
def lastWord (m : FMsg) (s : State) : State :=
  if s.evr.memFailed && decide (s.evr.lastWords.length < 8) then
    { s with evr.lastWords := s.evr.lastWords ++ [{ msg := m, opSeconds := opSeconds s, powerCycles := s.evr.powerCycles }] }
  else s

/-- An ordinary reaction (R482). -/
def ordinary (m : FMsg) (silent : Bool) (s : State) : State :=
  let r := (cfgOf m.src s).ordinary
  let first := !s.fc.sticky.contains m.src
  let s := { s with fc.sticky := nins s.fc.sticky m.src }
  let s := if silent then s else faultRecord m false (r.getLsbD 1 && !s.fc.creset) s
  if s.fc.creset then s
  else
    let s := if r.getLsbD 0 && first then reactInt s else s
    let s := if r.getLsbD 5 then reactErr s else s
    reactRest m.src r s

/-- An escalation (R483). Once a CRESET has begun it is counted and recorded, and nothing else (R485). -/
def escalate (m : FMsg) (silent : Bool) (s : State) : State :=
  let r := (cfgOf m.src s).severe
  let s := { s with fc.sticky := nins s.fc.sticky m.src, fc.severe := nins s.fc.severe m.src, fc.lastSevere := m.src }
  let s := if r.getLsbD 5 && !s.fc.creset then reactErr s else s
  let s := lastWord m s
  let s := if silent then s else faultRecord m true (r.getLsbD 1 && !s.fc.creset) s
  let s := flushRecs s
  if s.fc.creset then s
  else
    let s := event 0x000E m.src m.kind s
    reactRest m.src r (if r.getLsbD 0 then reactInt s else s)

/-- Classification (R480, R481). -/
def classifyMsg (m : FMsg) (silent : Bool) (s : State) : State :=
  let f := cfgOf m.src s
  let c := tgetD s.fc.cnt m.src {}
  let fresh := c.count == 0 || (f.w != 0 && decide (c.windowStart + f.w * 1000 ≤ s.now))
  let c1 : SrcCnt := { c with
    count := if fresh then 1 else c.count + 1, windowStart := if fresh then s.now else c.windowStart, total := sat32 c.total 1 }
  if m.kind = 0x3D ∨ f.immed.getLsbD m.kind = true ∨ f.n ≤ c1.count then
    let s := escalate m silent { s with fc.cnt := tset s.fc.cnt m.src c1 }
    { s with fc.cnt := tupd s.fc.cnt m.src (fun c => { c with count := 0 }) }
  else ordinary m silent { s with fc.cnt := tset s.fc.cnt m.src c1 }

/-- A message from a source in reset shadow is tallied and nothing else (R488). -/
def shadowMsg (m : FMsg) (s : State) : State :=
  { s with fc.cnt := tmod s.fc.cnt m.src {} (fun c => { c with shadow := min (c.shadow + 1) 0xFFFF }),
           fc.resets := s.fc.resets.map (fun (b, r) =>
             (b, if covers b m.src then { r with shadowed := r.shadowed + 1, sources := nins r.sources m.src } else r)) }

/-- The collector takes one message: it is in shadow, or classified. -/
def takeMsg (m : FMsg) (silent : Bool) (s : State) : State :=
  if s.fc.resets.any (fun e => covers e.1 m.src) then shadowMsg m s else classifyMsg m silent s

/-- Overruns of a source run through the same steps without a record (R475, R480). -/
def takeOverruns (src : Nat) (s : State) : State :=
  let l := (tgetD s.fc.cnt src {}).pendOver
  let s := { s with fc.cnt := tupd s.fc.cnt src (fun c => { c with pendOver := [] }) }
  l.foldl (fun s k => takeMsg { src := src, kind := k } true s) s

/-- The source that round robin serves next. -/
def nextSource (s : State) : Option Nat :=
  let l := (s.fc.queue.filter (fun e => !e.2.isEmpty)).map (·.1)
  match l.find? (fun k => decide (s.fc.lastServed < k)) with
  | some k => some k
  | none => l.head?

/-- The collector takes its next message (R475). -/
def collect (s : State) : State :=
  match nextSource s with
  | none => s
  | some src => match tgetD s.fc.queue src [] with
    | [] => s
    | m :: rest =>
      let f := s.fc
      let f' : FaultSt := { f with
        queue := if rest.isEmpty then tdel f.queue src else tset f.queue src rest, lastServed := src, last := m,
        messages := sat32 f.messages 1 }
      takeOverruns src (takeMsg m false { s with fc := f' })

/-! ## Messages of the module's own units that no other command makes -/

/-- The log memory fails (R499). -/
def logFails (m : FMsg) (s : State) : State :=
  if s.evr.memFailed then s
  else
    let w : LastWord := { msg := m, opSeconds := opSeconds s, powerCycles := s.evr.powerCycles }
    let s := { s with evr := { s.evr with lastWords := [w], memFailed := true } }
    event 0x0010 0 (2 + b2n s.evr.full) (raiseFree 0x1F8 0x3D s)

/-- The buffer sectors of a lane that scratch handles hold: (context, handle, key). -/
def bufferSecs (j : Nat) (s : State) : List (Nat × Nat × Nat) :=
  (s.pipe.ctxs.filter (fun e => laneOf e.1 == j)).flatMap (fun (c, x) =>
    x.handles.flatMap (fun (h, hd) => if hd.kind == .scratch then hd.secs.map (fun e => (c, h, e.1)) else []))

/-- An uncorrectable error in a lane's buffer SRAM (03 R97). Which sector lies at the address no rule states: it is a free
choice among the sectors that the lane holds there, or none (log entry 2). -/
def bufferError (j : Nat) (s : State) : State :=
  let l := bufferSecs j s
  let n := (Config.freeWord s.free).toNat % (l.length + 1)
  let s := nextFree s
  match l[n]? with
  | none => s
  | some (c, h, k) => updCtx c (fun x => { x with
      handles := tupd x.handles h (fun hd => { hd with secs := tupd hd.secs k (fun y => { y with bad := true }) }) }) s

/-- A journal write fails; which of the entries being opened no rule says by ADDRESS, so it is a free choice (07 R283; log
entry 2). -/
def journalFails (s : State) : State :=
  let l := s.pipe.ctxs.filterMap (fun e => e.2.jnl)
  match l[(Config.freeWord s.free).toNat % (l.length + 1)]? with
  | none => nextFree s
  | some i => journalWriteFails i (nextFree s)

/-- A block of the vault is bad; a half without 64 GiB of good blocks fences the vault (11 R403). -/
def badBlock (die addr : Nat) (s : State) : State :=
  let s := if Config.blockHalf die addr then { s with pow.bad1 := sat32 s.pow.bad1 1 } else { s with pow.bad0 := sat32 s.pow.bad0 1 }
  if halvesWorn s then fenceUnit 25 s else s

/-- What a unit's error does beside its message (R484): 03 R117 for the program store, whose ADDRESS is taken as the number
of a word (log entry 73), 07 R283 for the journal and the
bitmap, 11 R424 for MRAM counters and vault blocks, R499 for the log memory. -/
def unitEffect (m : FMsg) (s : State) : State :=
  if 0x040 ≤ m.src ∧ m.src < 0x048 ∧ m.kind = 0x31 then bufferError (m.src - 0x040) s
  else if m.src = 0x068 ∧ m.kind = 0x31 then { s with plan.badWords := nins s.plan.badWords m.addr }
  else if m.src = 0x068 ∧ m.kind = 0x30 then { s with pipe.storeCorrected := sat32 s.pipe.storeCorrected 1 }
  else if 0x080 ≤ m.src ∧ m.src < 0x090 ∧ m.kind = 0x30 then { s with cache.dramCorr := sat32 s.cache.dramCorr 1 }
  else if 0x0C0 ≤ m.src ∧ m.src < 0x0C4 ∧ m.kind = 0x30 then { s with pow.mramCorr := sat32 s.pow.mramCorr 1 }
  else if 0x0C0 ≤ m.src ∧ m.src < 0x0C4 ∧ m.kind = 0x31 then { s with pow.mramUnc := sat32 s.pow.mramUnc 1 }
  else if (m.src = 0x0C5 ∨ m.src = 0x0C6) ∧ m.kind = 0x31 then journalFails s
  else if 0x0E0 ≤ m.src ∧ m.src < 0x0F0 ∧ m.kind = 0x31 then badBlock (m.src - 0x0E0) m.addr s
  else if m.src = 0x1E1 ∧ m.kind = 0x3D then { s with sec.fuseFail := true }
  else if m.src = 0x1F8 ∧ (m.kind = 0x31 ∨ m.kind = 0x32) then logFails m s
  else s

/-- A message as a 64-bit word names it (R473). -/
def msgOf (v : Word) (forced : Bool) : FMsg :=
  { src := fld v.toNat 63 54, kind := fld v.toNat 53 48, addr := fld v.toNat 47 0, forced := forced }

/-- A unit raises a message, with what it does; no unit uses a reserved source or kind 0 (R474, R476). -/
def unitRaises (m : FMsg) (s : State) : State :=
  if reservedSrc m.src || m.kind == 0 then s else raise m.src m.kind m.addr (unitEffect m s)

/-- FAULT_MESSAGE (R475, R480 to R488): a unit may raise a message first; the collector takes its next one. -/
def execFaultMessage (sent : Option Word) (s : State) : Res :=
  go (collect (match sent with
    | some w => unitRaises (msgOf w false) s
    | none => s))

/-! ## Block resets end (R487, R488) -/

/-- A block reset ends: the links of a member group have retrained by then. -/
def endReset (b : Nat) (s : State) : State :=
  match tget s.fc.resets b with
  | none => s
  | some r =>
    if r.endedAt.isSome || !r.links.isEmpty then s
    else
      let s := { s with fc.resets := tset s.fc.resets b { r with endedAt := some s.now } }
      if b = 26 then { s with pack.noRise := 3 } else if b < 8 then placeHeld s else s

/-- BLOCK_RESET_END (R487). -/
def execBlockResetEnd (b : Block) (s : State) : Res := go (endReset (blockNo b) s)

/-- The present core clock in MHz (13 R461). -/
def coreMhz (s : State) : Nat :=
  match s.therm.clk with
  | 0 => s.therm.ceiling
  | 1 => 1600
  | 2 => 1200
  | _ => 800

/-- The shadow ends 1,024 core clocks after the reset (R488), with its SHADOW record (R491). -/
def endShadow (b : Nat) (s : State) : State :=
  match tget s.fc.resets b with
  | none => s
  | some r => match r.endedAt with
    | none => s
    | some t =>
      let s := timeTo (t + (1024 + coreMhz s - 1) / coreMhz s) { s with fc.resets := tdel s.fc.resets b }
      addRec (mkRec 0x03 { src := lowestInside b, kind := 0x3F } false
        (leBytes 2 b ++ leBytes 4 (t - r.startedAt) ++ leBytes 4 r.shadowed ++ leBytes 2 r.sources.length) s) s

/-- RESET_SHADOW_END (R488). -/
def execResetShadowEnd (b : Block) (s : State) : Res := ok (endShadow (blockNo b) s)

/-! ## Registers of the collector and the recorder that act (R489, R504, R505) -/

/-- A write that the ledger lock discards is counted (11 R422). -/
def countLockDiscard (off : Nat) (s : State) : State :=
  { s with led := { s.led with discards := sat32 s.led.discards 1, lastDiscard := off, discardValid := true } }

/-- A write of FC_FORCE (R489): one of 64 bits; a reserved source or kind 0 is discarded, and so is any while the ledger
is locked. -/
def fcForce (width : Nat) (v : Word) (s : State) : State :=
  let m := msgOf v true
  if width != 8 then s
  else if s.led.locked then countLockDiscard 0x80168 s
  else if reservedSrc m.src || m.kind == 0 then s
  else raise m.src m.kind m.addr s (forced := true)

/-- FC_FORCE (R489). -/
def execFcForce (width : Nat) (value : Word) (s : State) : Res :=
  ok (barWrite 0 0x80168 (fcForce width value) s)

/-- A write of FC_CLEAR (R504). -/
def fcClear (v : Word) (s : State) : State :=
  let hit (k : Nat) : Bool := v.getLsbD 10 || k == fld v.toNat 9 0
  let s := if v.getLsbD 11 then { s with fc.sticky := s.fc.sticky.filter (fun k => !hit k) } else s
  if v.getLsbD 12 then
    { s with fc.severe := s.fc.severe.filter (fun k => !hit k),
             fc.cnt := s.fc.cnt.map (fun (k, c) => (k, if hit k then { c with count := 0, windowStart := 0 } else c)) }
  else s

/-- FC_CLEAR (R504). -/
def execFcClear (value : Word) (s : State) : Res := ok (barWrite 0 0x80140 (fcClear value) s)

/-- A write of 1 to FC_CTL.ERR_CLR (R504). -/
def errClr (s : State) : State := if s.fc.errLatch then emit (.pin "ERR_N" true) { s with fc.errLatch := false } else s

/-- ERR_CLR (R504): the latch is shared by the ports. -/
def execErrClr (port : Fin 2) (s : State) : Res := ok (barWrite port.val 0x80180 errClr s)

/-- EVT_CTL_FLUSH (R493, R505). -/
def execEvtCtlFlush (s : State) : Res := ok (barWrite 0 0x90028 flushRecs s)

/-! ## The log (R490, R493 to R498, R502) -/

/-- The 64 bytes of a record (R490). -/
def recBytes (staged : Bool) (r : EvRec) : List Byte :=
  let flags := b2n r.htValid + 2 * b2n r.htBackwards + 4 * b2n staged + 8 * b2n r.forced + 16 * b2n r.overrun +
    32 * b2n r.trapIncomplete + 64 * b2n r.dropsBefore + 128 * b2n r.severe
  let b := leBytes 4 r.seq ++ leBytes 4 r.opSeconds ++ leBytes 3 r.powerCycles ++ leBytes 1 r.rtype ++ leBytes 4 r.node ++
    leBytes 8 (msgWord r.msg).toNat ++ leBytes 2 r.tally ++ leBytes 2 r.rgen ++ leBytes 2 flags ++ leBytes 2 r.ticks ++
    leBytes 8 r.hostTime ++ leBytes 4 r.htSeconds ++ padTo 16 r.detail
  b ++ leBytes 4 (crc32c b).toNat

/-- Every record with its STAGED flag, in SEQ order. -/
def allRecs (s : State) : List (Bool × EvRec) := s.evr.log.map (fun r => (false, r)) ++ s.evr.staging.map (fun r => (true, r))

/-- Distance of a sequence from FIRST_SEQ, modulo 2^32 (R496). -/
def seqFrom (first q : Nat) : Nat := (q + 2 ^ 32 - first) % 2 ^ 32

/-- LOG_READ's records from a sequence on; one older than FIRST_SEQ starts at FIRST_SEQ. -/
def recsFrom (q : Nat) (s : State) : List (Bool × EvRec) :=
  let all := allRecs s
  let first := (all.head?.map (·.2.seq)).getD s.evr.firstSeq
  if 2 ^ 31 ≤ seqFrom first q then all
  else all.filter (fun r => decide (seqFrom first q ≤ seqFrom first r.2.seq))

/-- LOG_READ (R496). -/
def execLogRead (s : State) : Res :=
  ok (asAdmin 0xA8 (fun c x s =>
    let got := (recsFrom (arg x 40 4) s).take (min (bufLen x) 1048576 / 64)
    finishCmd c 0 (BitVec.ofNat 32 got.length) (adminOut x (got.flatMap (fun r => recBytes r.1 r.2)) s)) s)

/-- The log is cleared (R498). -/
def clearLog (authSeq : Nat) (s : State) : State :=
  let first := ((allRecs s).head?.map (·.2.seq)).getD s.evr.firstSeq
  let last := (s.evr.nextSeq + 2 ^ 32 - 1) % 2 ^ 32
  let s := { s with evr := { s.evr with log := [], staging := [], full := false, notLogged := 0, drops := false } }
  let s := addRec (mkRec 0x04 { src := 0x1F7, kind := 0x3F } false (leBytes 4 first ++ leBytes 4 last ++ leBytes 8 authSeq) s) s
  event 0x0010 0 0 (flushRecs s)

/-- LOG_CLEAR (R498, R499). -/
def execLogClear (data : List Byte) (s : State) : Res :=
  ok (asAdmin 0xA9 (fun c x s =>
    withAuth c 1 [] (adminIn x data) (fun s =>
      if s.evr.memFailed then adminFail c 0x0005 0x0E01 s
      else adminOk c (clearLog (authSeqOf (adminIn x data)) (ledCommit (authAccept (adminIn x data) s)))) s) s)

/-- LOG_FLUSH (R493). -/
def execLogFlush (s : State) : Res := ok (asAdmin 0xAA (fun c _ s => adminOk c (flushRecs s)) s)

/-- A host time is supplied (R502). -/
def hostTime (t : Nat) (s : State) : State :=
  let old := s.evr.hostTime.map (·.1)
  let s := { s with evr := { s.evr with hostTime := some (t, opSeconds s), backwards := decide (t < old.getD 0) } }
  addRec (mkRec 0x05 { src := 0x1F9, kind := 0x3F } false (leBytes 8 (old.getD 0)) s) s

/-- HOST_TIME (R502). -/
def execHostTime (s : State) : Res := ok (asAdmin 0xAB (fun c x s => adminOk c (hostTime (arg x 40 8) s)) s)

end Sys2Proof.Machine
end

