-- ==== Sys2Proof/Machine/NvmeIo.lean ====
section
/-! DEFINITION. Sys2Proof/Machine/NvmeIo.lean: the I/O commands of PF1 as commands of the module (06 R246 to R249). What the
NVM Express specifications fix is log entry 43. -/

namespace Sys2Proof.Machine

/-! ## The boot volume (R247) -/

/-- The volume that namespace 1 is, while a plan image is in force. -/
def bootVolume (s : State) : Option Nat := if s.plan.tab.isSome then s.led.bootVol else none

/-- NSZE: sectors of the boot volume. -/
def nsze (s : State) : Nat := match bootVolume s with
  | some v => ((tget (tab s).vols v).map (·.sectors)).getD 0
  | none => 0

/-! ## Queues -/

/-- PF1's admin or I/O submission queue of a port. -/
def nvmeSq (p : Nat) (admin : Bool) (s : State) : Option Nvq :=
  if admin then (getPort p s).pf1.asq else (getPort p s).pf1.ioSq

/-- Whether PF1 can begin a command of a queue now: the controller is ready and the queue holds an entry. -/
def nvmeReady (p : Nat) (admin : Bool) (s : State) : Bool :=
  !(admin && planFirst s) && (getPort p s).pf1.rdy && !(getPort p s).pf1.cfs && (match nvmeSq p admin s with
    | some q => q.head != q.tail
    | none => false)

/-- The entry at a submission queue's head is taken. -/
def nvmeTake (p : Nat) (admin : Bool) (s : State) : State :=
  updPf1 p (fun u =>
    let step (q : Nvq) : Nvq := { q with head := (q.head + 1) % q.size }
    if admin then { u with asq := u.asq.map step } else { u with ioSq := u.ioSq.map step }) s

/-- Invalid Command Opcode. -/
def nvmeInvalidOpcode : Nat := 0x001

/-- Whether PF1's queue has to leave a turn to a ring of its port, or its port one to the other port (06 R248, 05 R199). -/
def nvmeTurnOver (p : Nat) (s : State) : Bool :=
  ((getPort p s).pf1Turn && !(readyRings p s).isEmpty) ||
  (s.dev.bifurcated && s.pipe.lastPort == p && (portPick (1 - p) s).isSome)

/-- Run an admin command of PF1 that is at its queue's head; one of an unsupported opcode completes so. -/
def asNvmeAdmin (p : Nat) (e : NvmeSqe) (f : State → State) (s : State) : State :=
  if !nvmeReady p true s then s
  else if e.unsupported then postNvme p true e.cid nvmeInvalidOpcode 0 (nvmeTake p true s)
  else f (nvmeTake p true s)

/-- Run an I/O command of PF1 that is at its queue's head, when its turn, intake and throttling let it begin (R248); one of an
unsupported opcode completes so. Every entry begun takes a command token (13 R461). -/
def asNvmeIo (p : Nat) (e : NvmeSqe) (f : State → State) (s : State) : State :=
  let hold := match bootVolume s with
    | some v => ownOf v s == .hold
    | none => false
  if nvmeReady p false s && !fetchStopped s && domainsRun s && tokensOk s && !hold && !nvmeTurnOver p s then
    let s := debit 0 (nvmeTake p false (updPort p (fun q => { q with pf1Turn := true }) { s with pipe.lastPort := p }))
    if e.unsupported then postNvme p false e.cid nvmeInvalidOpcode 0 s else f s
  else s

/-- Generic NVMe status codes that are not a module status. -/
def nvmeInvalidField : Nat := 0x002
/-- Command Abort Requested. -/
def nvmeAborted : Nat := 0x007
/-- Invalid Namespace or Format. -/
def nvmeInvalidNs : Nat := 0x00B
/-- PRP Offset Invalid. -/
def nvmePrpOffset : Nat := 0x013

/-! ## Data pointers -/

/-- The runs of a PRP entry pair, when no list is needed. -/
def prpRuns (prp1 prp2 len : Nat) : List (Nat × Nat) :=
  let a := min (4096 - prp1 % 4096) len
  if a = len then [(prp1, a)] else [(prp1, a), (prp2, len - a)]

/-- Whether a transfer needs a PRP list. -/
def prpList (prp1 len : Nat) : Bool := decide (4096 - prp1 % 4096 + 4096 < len)

/-- Whether the offsets of a PRP pair are valid: the first is a multiple of 4, a page address has none. -/
def prpOk (prp1 prp2 len : Nat) : Bool :=
  prp1 % 4 == 0 && (decide (len ≤ 4096 - prp1 % 4096) || (if prpList prp1 len then prp2 % 8 == 0 else prp2 % 4096 == 0))

/-- Entries of a PRP list. -/
def prps : Nat → List Byte → List Nat
  | 0, _ => []
  | n + 1, d => leNat (d.take 8) :: prps n (d.drop 8)

/-- A transfer's bytes. -/
def nvmeLen (x : Cmd) : Nat := x.count * 4096

/-- Bytes of a command's transfer that its runs cover. -/
def covered (x : Cmd) : Nat := (x.sgl.map (·.2)).sum

/-- PRP entries that a command still needs. -/
def prpsLeft (x : Cmd) : Nat := (nvmeLen x - covered x + 4095) / 4096

/-- Entries that a list segment at an address holds, up to its page's end. -/
def segment (addr : Nat) : Nat := (4096 - addr % 4096) / 8

/-- Ask for a list segment. -/
def readPrps (x : Cmd) (addr : Nat) (s : State) : State :=
  emit (.hostRead x.port addr (8 * min (prpsLeft x) (segment addr))) s

/-! ## Running -/

/-- The command starts: its operations, and what its own row does (06 R223 to R229). -/
def runNvme (c : Nat) (s : State) : State :=
  let s := startIo c s
  match cmdOf c s with
  | none => s
  | some x =>
    if x.ph != .begun then s
    else match x.opcode with
      | 1 => updCmd c (fun y => { y with ph := .running }) s
      | 2 => askData 2 c s
      | 3 => askData 3 c s
      | 4 => flushCmd c x s
      | _ => deallocOps c s

/-- A segment of a command's PRP list has been read, or not. -/
def prpArrive (c : Nat) (x : Cmd) (d : Option (List Byte)) (s : State) : State :=
  match d with
  | none => finishCmd c 0x0009 0 s
  | some d =>
    let left := prpsLeft x
    let addr := if x.sgl.length = 1 then leAt x.entry 32 8 else 0
    let n := min left (segment addr)
    let es := prps n (padTo (8 * n) d)
    let chain := decide (n < left)
    let pages := if chain then es.dropLast else es
    let runs := pages.zipIdx.map (fun (a, i) => (a, min 4096 (nvmeLen x - covered x - 4096 * i)))
    let x' := { x with sgl := x.sgl ++ runs }
    if es.any (fun a => a % 4096 != 0) then
      let s := { s with pipe.cmds := tdel s.pipe.cmds c }
      (match x.src with
       | .pf1 p _ cid => postNvme p false cid nvmePrpOffset 0 s
       | _ => s)
    else if chain then readPrps x' (es.getLastD 0) (updCmd c (fun _ => x') s)
    else runNvme c (updCmd c (fun _ => { x' with ph := .begun }) s)

/-! ## Beginning -/

/-- A 64-byte entry of a module command over the boot volume, as intake would read it (05 R180); the PRP pair stands where
the buffer fields are. -/
def nvmeEntry (opcode v lba count prp1 prp2 : Nat) : List Byte :=
  padTo 64 (leBytes 1 opcode ++ leBytes 7 0 ++ leBytes 2 v ++ leBytes 2 0 ++ leBytes 4 count ++ leBytes 6 lba ++ leBytes 2 0 ++
    leBytes 8 prp1 ++ leBytes 8 prp2)

/-- Begin a module command for PF1: checks 3 and 4 of R220, then its data pointer. -/
def beginNvme (src : CmdSrc) (p opcode v lba count prp1 prp2 : Nat) (data : Bool) (s : State) : State :=
  let e := nvmeEntry opcode v lba count prp1 prp2
  let (c, s) := newCmd src p e s
  let bad := if opcode = 4 && s.plan.tab.isSome then none else volumeBad e s
  match bad with
  | some (st, _) => finishCmd c st 0 s
  | none =>
    if !data then runNvme c (updCmd c (fun x => { x with sgl := [] }) s)
    else if prpList prp1 (count * 4096) then
      let s := updCmd c (fun x => { x with ph := .list, sgl := [(prp1, 4096 - prp1 % 4096)] }) s
      (match cmdOf c s with
       | some x => readPrps x prp2 s
       | none => s)
    else runNvme c (updCmd c (fun x => { x with sgl := prpRuns prp1 prp2 (count * 4096) }) s)

/-! ## Controller reset (R248) -/

/-- Commands of PF1 run on with no queue to complete on. -/
def orphanNvme (p : Nat) (s : State) : State :=
  { s with pipe.cmds := s.pipe.cmds.map (fun e => match e.2.src with
      | .pf1 q _ _ => if q = p then (e.1, { e.2 with src := .gone }) else e
      | .dsm q _ => if q = p then (e.1, { e.2 with src := .gone }) else e
      | _ => e) }

/-- A controller reset: queues, features and outstanding requests go; a fatal status, the MSI-X table and the counts stay. -/
def nvmeReset (p : Nat) (s : State) : State :=
  updPf1 p (fun u => { cfs := u.cfs, msix := u.msix, warned := u.warned, cc := 0, aqa := u.aqa, asqReg := u.asqReg, acqReg := u.acqReg, sectorsRead := u.sectorsRead, sectorsWritten := u.sectorsWritten })
    (orphanNvme p s)

end Sys2Proof.Machine
end

