-- ==== Sys2Proof/Machine/RingRows.lean ====
section
/-! DEFINITION. Sys2Proof/Machine/RingRows.lean: the commands of 05: ring operations, doorbells, pushes, fetch,
interrupts, FLR, and ABORT (06 R240). -/

namespace Sys2Proof.Machine

/-- INTAKE_BEGIN_ENTRY (06 R220); tag errors that the command's probe meets are treated first (07 R270). -/
def execIntakeBeginEntry (s : State) : Res := go (intakeNext (meetTags [] s))

/-- SQ_DOORBELL (05 R190). -/
def execSqDoorbell (port : Fin 2) (ring : Fin 262144) (width : DbWidth) (value : Word) (s : State) : Res :=
  ok (if barUp port.val s then sqDoorbell port.val ring.val width value s else s)

/-- CQ_DOORBELL (05 R191): freed room lets draining rings go on. -/
def execCqDoorbell (port : Fin 2) (ring : Fin 262144) (width : DbWidth) (value : Word) (s : State) : Res :=
  ok (if barUp port.val s then settleDrains (cqDoorbell port.val ring.val width value s) else s)

/-- PUSH (05 R196). -/
def execPush (port : Fin 2) (offset : BitVec 25) (data : List Byte) (s : State) : Res :=
  ok (if barUp port.val s then pushWrite port.val offset.toNat data s else s)

/-- COALESCE_TIMEOUT (05 R208). -/
def execCoalesceTimeout (ring : Fin 262144) (s : State) : Res :=
  let v := ringOf ring.val s
  ok (coalesce ring.val (if v.unsignalled = 0 || v.coalTime = 0 then s else timeTo (v.firstAt + v.coalTime) s))

/-- MSIX_VECTOR_UNMASK (05 R209). -/
def execMsixVectorUnmask (port : Fin 2) (vector : Fin 2048) (s : State) : Res :=
  ok (barWrite port.val (0x1800C + 16 * vector.val) (unmaskVector port.val vector.val) s)

/-- PF0_FLR (05 R214), with the NOTICE of source 0x008 (14); none while a flush runs (11 R393). -/
def execPf0Flr (port : Fin 2) (s : State) : Res :=
  if barUp port.val s then ok (raiseFree 0x008 0x3F (flrPort port.val s)) else ok s

/-- ADMIN_CTL_WRITE (05 R215). -/
def execAdminCtlWrite (port : Fin 2) (value : Word) (s : State) : Res :=
  ok (barWrite port.val 0x10018 (adminCtlWrite port.val value) s)

/-- DRAIN_END (05 R212 step 3), after what step 2 still can do. -/
def execDrainEnd (ring : Fin 262144) (s : State) : Res :=
  let s := if drainDone (ringOf ring.val s) then s else settleDrains s
  let s := endDrain ring.val s
  ok (endAdminDrain (ringPort ring.val s) s)

/-! ## Ring operations (05 R179, R211 to R213) -/

/-- Whether a ring operation may name a ring (reason 0x0101). -/
def ringNamed (p r : Nat) (s : State) : Bool := ringIn p r s && r != ringFirst p s && r != ringFirst p s + 1

/-- RING_CREATE (05 R178, R179). -/
def execRingCreate (desc : List Byte) (s : State) : Res :=
  ok (asAdmin 0x81 (fun c x s =>
    let d := adminIn x desc
    let r := arg x 40 4
    match createReason x.port r d s with
    | some n => adminFail c 0x0002 n s
    | none => adminOk c (createRing x.port r d s)) s)

/-- Reset (towards IDLE) or shutdown (towards FREE) of a ring; `idleOk` is whether the IDLE state is allowed. -/
def ringDown (c : Nat) (x : Cmd) (dest : RingSt) (idleOk : Bool) (s : State) : State :=
  let r := arg x 40 4
  let v := ringOf r s
  if !ringNamed x.port r s then adminFail c 0x0002 0x0101 s
  else if !(v.st == .active || v.st == .error || (idleOk && v.st == .idle)) then adminFail c 0x0002 0x0102 s
  else if v.typ = 0 then adminOk c (settleDrains (startDrain r dest s))
  else if !bindsIdle r s then adminFail c 0x0002 0x010A s
  else
    let (n, s) := dropCompletion r dest s
    finishCmd c 0 (BitVec.ofNat 32 n) s

/-- RING_RESET (05 R212, R213). -/
def execRingReset (s : State) : Res := ok (asAdmin 0x82 (fun c x s => ringDown c x .idle false s) s)

/-- RING_SHUTDOWN (05 R212, R213). -/
def execRingShutdown (s : State) : Res := ok (asAdmin 0x83 (fun c x s => ringDown c x .free true s) s)

/-- A ring enabled from IDLE (05 R174, R211): its counters take INIT, the new one where one is given; an async event ring
then takes its port's pending events. -/
def enableRing (p r : Nat) (init : Option Dword) (s : State) : State :=
  let v := ringOf r s
  let n := init.getD v.init
  let s := setRing r { v with st := .active, init := n, head := n, tail := n, push0 := none, push1 := none,
                              fetched := [], reading := [], cause := 0 } s
  if v.typ = 2 then deliverEvents 17 p s else s

/-- RING_ENABLE (05 R211). -/
def execRingEnable (s : State) : Res :=
  ok (asAdmin 0x84 (fun c x s =>
    let r := arg x 40 4
    let v := ringOf r s
    if !ringNamed x.port r s then adminFail c 0x0002 0x0101 s
    else if v.st != .idle then adminFail c 0x0002 0x0102 s
    else
      adminOk c (enableRing x.port r (if bitN (arg x 48 1) 0 then some (BitVec.ofNat 32 (arg x 44 4)) else none) s)) s)

/-- The entries of a ring that ABORT can look at: between head and tail, at hand. -/
def abortMatches (v : Ring) (cid : Nat) : List Nat :=
  ((outstanding v).filter (fun i => match entryOf v i with
    | some e => !e.isEmpty && leAt e 2 2 == cid
    | none => false)).map (·.toNat)

/-- Mark what can be marked; done once every outstanding entry of the command's span is at hand (06 R240). -/
def abortGo (c : Nat) (x : Cmd) (s : State) : State :=
  let r := arg x 40 4
  let v := ringOf r s
  if v.st == .active && (outstanding v).any (fun i => (entryOf v i).isNone) then
    fetchRing r (updCmd c (fun y => { y with ph := .waiting }) s)
  else
    let m := abortMatches v (arg x 44 2)
    let s := updRing r (fun v => { v with marked := m.foldl nins v.marked }) s
    finishCmd c 0 (BitVec.ofNat 32 m.length) s

/-- ABORT (06 R240). -/
def execAbort (s : State) : Res :=
  ok (asAdmin 0x85 (fun c x s =>
    let r := arg x 40 4
    let v := ringOf r s
    if !ringNamed x.port r s then adminFail c 0x0002 0x0101 s
    else if v.st != .active then adminFail c 0x0002 0x0102 s
    else if v.typ != 0 then adminFail c 0x0002 0x010B s
    else abortGo c x s) s)

/-- An ABORT that waits for reads goes on when they have come. -/
def kickAbort (s : State) : State :=
  match adminFront s with
  | some (c, x) => if x.opcode = 0x85 && x.ph == .waiting then abortGo c x s else s
  | none => s

/-- A scatter list has been read, or its read failed (05 R182, R201); a PRP list of PF1 (06 R246). -/
def listRead (c : Nat) (d : Option (List Byte)) (s : State) : State :=
  match cmdOf c s with
  | none => s
  | some x =>
    let admin := decide (0x80 ≤ x.opcode)
    if x.ph != .list then s
    else if (match x.src with | .pf1 .. => true | _ => false) then prpArrive c x d s
    else match d with
      | none =>
        let s := finishCmd c 0x0002 0 s
        (match x.src with
         | .ring r => if (ringOf r s).st == .active then ringError r 3 (0x022 + x.port) s else s
         | _ => s)
      | some d => match parseList admin x.entry d with
        | none => finishCmd c 0x0002 0 s
        | some runs =>
          let s := updCmd c (fun y => { y with ph := .begun, sgl := runs }) s
          if admin then s else startIo c s

/-- The read of a scatter list fails otherwise than R201 says: the command ends with TRANSFER_ERROR (06 R232; log entry 67). -/
def listFails (c : Nat) (s : State) : State :=
  match cmdOf c s with
  | some x => if x.ph == .list then finishCmd c 0x0009 0 s else s
  | none => s

/-- FETCH_COMPLETE (05 R201). -/
def execFetchComplete (w : FetchWhat) (s : State) : Res :=
  match w with
  | .entries r c (some es) => go (kickAbort (entriesArrive r.val c es s))
  | .entries r c none => go (kickAbort (entriesFail r.val c s))
  | .scatterList c d => go (listRead c d s)
  | .scatterFail c => go (listFails c s)

end Sys2Proof.Machine
end

