-- ==== Sys2Proof/Machine/Therm.lean ====
section
/-! DEFINITION. Sys2Proof/Machine/Therm.lean: the housekeeping round, thermal levels, the throttle handshake, clocks, ageing
and the margin plan (13). Temperatures in quarter degrees C. -/

namespace Sys2Proof.Machine

/-! ## Regions (R452 to R454) -/

/-- The region of a sensor. -/
def regionOf (n : Nat) : Nat :=
  if n < 4 then 0 else if n < 20 then 1 + (n - 4) / 2 else if n < 24 then 9 else if n < 26 then 10 else if n < 28 then 11
  else if n < 30 then 12 else if n = 30 then 13 else 14

/-- The sensors of a region. -/
def sensorsOf (r : Nat) : List Nat := (List.range 32).filter (fun n => regionOf n == r)

/-- A sensor's neighbours. -/
def neighbours (n : Nat) : List Nat :=
  if n = 30 then [28, 29] else if n = 31 then [0, 1] else (sensorsOf (regionOf n)).filter (· != n)

/-- Whether a sensor is masked, as the latest round took it (R454). -/
def masked (n : Nat) (s : State) : Bool := s.therm.maskNow.getLsbD n

/-- A sensor's trim. -/
def trimOf (n : Nat) (s : State) : Trim := tgetD s.therm.trims n {}

/-- Tj of a count by the line through a trim's two points, in quarter degrees, times the count between them; and that divisor, which is
made positive (R451). -/
def trimLine (x : Trim) (c : Nat) : Int × Int :=
  let d := x.c1 - x.c0
  let y := x.t0 * d + (Int.ofNat c - x.c0) * (x.t1 - x.t0)
  if d < 0 then (-y, -d) else (y, d)

/-- Whether a sensor lies on the controller die under a memory die stack (R452). -/
def underDies (n : Nat) : Bool := n == 22 || n == 23 || n == 28 || n == 29 || n == 30

/-- A sensor's reading: its count converted, rounded down to a quarter degree, with the die-to-die offset where a memory die lies above
(R451, R452). Log entry 86. -/
def readTj (n c : Nat) (s : State) : Int :=
  let x := trimOf n s
  let (y, d) := trimLine x c
  y / d + (if underDies n then x.off else 0)

/-- Whether a count lies in the band that the trim gives for −70 °C to 170 °C (R453). -/
def countInBand (n c : Nat) (s : State) : Bool :=
  let (y, d) := trimLine (trimOf n s) c
  decide (-280 * d ≤ y ∧ y ≤ 680 * d)

/-- The unmasked sensors of a region. -/
def liveSensors (r : Nat) (s : State) : List Nat := (sensorsOf r).filter (fun n => !masked n s)

/-- The hottest unmasked sensor of a region, the lowest-numbered of several, with its reading. -/
def hottest (r : Nat) (s : State) : Option (Nat × Int) :=
  (liveSensors r s).foldl (fun b n => match b with
    | none => some (n, sensorTj n s)
    | some (m, t) => if t < sensorTj n s then some (n, sensorTj n s) else some (m, t)) none

/-- A temperature in whole degrees, rounded down and offset by 64. -/
def tjByte (t : Int) : Nat := (t / 4 + 64).toNat % 256

/-- The highest region temperature with its sensor. -/
def maxTj (s : State) : Nat × Int :=
  ((List.range 15).filterMap (fun r => hottest r s)).foldl (fun b x => if b.2 < x.2 then x else b) (0, -256)

/-- A reading of a sensor `j` rounds ago, as it read then. -/
def tjAgo (n j : Nat) (s : State) : Option Int := (s.therm.hist[j]?).map (fun l => l.getD n 0)

/-! ## VDD_CORE and clocks (R461, R462, R468) -/

/-- The core PLL relocks to a clock state; the core domains pause (R462). -/
def startRelock (k : Nat) (s : State) : State := { s with therm.relock := some k, therm.coreLock := false }

/-- The clock state that an enforced target sets. -/
def clkOf (target : Nat) : Nat := if 100 ≤ target then 0 else if 75 ≤ target then 1 else if 50 ≤ target then 2 else 3

/-- A change of clock state: VDD_CORE first when the clock rises to P0 (R462). -/
def setClk (k : Nat) (s : State) : State :=
  if s.therm.relock.getD s.therm.clk = k then s
  else startRelock k (if k = 0 then setVid s.therm.code s else s)

/-- CLOCK_RELOCK_DONE (R462): the core domains run again; VDD_CORE follows a clock that fell. -/
def execClockRelockDone (s : State) : Res :=
  match s.therm.relock with
  | none => ok s
  | some k =>
    let s := { s with therm := { s.therm with relock := none, coreLock := true, clk := k } }
    go (setVid (if k = 0 then s.therm.code else 0) s)

/-! ## The throttle handshake (R459 to R461) -/

/-- The sideband message THERMAL (15 R524): to the event receiver while it is enabled. -/
def sendThermal (r : ThrReq) (state : Nat) (s : State) : State :=
  if s.sec.recvEn then
    emit (.mctp 0x7F 0x81 0 0 (leBytes 1 r.region ++ leBytes 1 r.target ++ leBytes 2 r.grace ++ leBytes 1 state ++
      leBytes 1 (tjByte (maxTj s).2))) s
  else s

/-- THROTTLE_STATE, and the same on the sideband. -/
def throttleState (r : ThrReq) (enforced : Bool) (s : State) : State :=
  sendThermal r (if enforced then 1 else 2) (event 0x0008 r.region (b2n enforced) s)

/-- A throttle request is raised (R459 step 1). -/
def request (region target : Nat) (rate : Bool) (s : State) : State :=
  let r : ThrReq := { region := region, target := target, rate := rate, grace := (prof s).throttleGrace, at_ := s.now }
  let s := { s with therm.requests := s.therm.requests ++ [r] }
  sendThermal r 0 (event 0x0007 region (target + 256 * r.grace) s)

/-- The lowest target among the requests whose grace has ended (R461). -/
def lowestTarget (s : State) : Nat := (s.therm.requests.filter (fun r => r.enforcedAt.isSome)).foldl (fun t r => min t r.target) 100

/-- Put the enforced target in force (R461): buckets accrue up to now, a new bucket starts full. -/
def setTarget (s : State) : State :=
  let t := lowestTarget s
  if t = s.therm.target then s
  else
    let fresh := s.therm.target == 100
    let s := if fresh then s else accrue s
    let capC : Int := t * 30 * 10000
    let capB : Int := t * 110000 * 10000
    let s := { s with therm := { s.therm with
      target := t, tokAt := s.now, cmdTok := if fresh then capC else min s.therm.cmdTok capC,
      byteTok := if fresh then capB else min s.therm.byteTok capB } }
    setClk (clkOf t) s

/-- The target of the pending request at an index is enforced (R459 step 3). -/
def enforceAt (i : Nat) (s : State) : State :=
  match s.therm.requests[i]? with
  | none => s
  | some r =>
    if r.enforcedAt.isSome then s
    else
      let r' : ThrReq := { r with enforcedAt := some s.now }
      let s := { s with therm := { s.therm with
        requests := lset s.therm.requests i r', enforcements := sat32 s.therm.enforcements 1 } }
      throttleState r true (setTarget s)

/-- The index of a region's earliest pending request. -/
def pendingReq (region : Nat) (s : State) : Option Nat :=
  s.therm.requests.findIdx? (fun r => r.region == region && r.enforcedAt.isNone)

/-- Every pending request of a region is enforced at once (R460, 135 °C). -/
def enforceAll : Nat → Nat → State → State
  | 0, _, s => s
  | n + 1, region, s => match pendingReq region s with
    | none => s
    | some i => enforceAll n region (enforceAt i s)

/-- Requests that satisfy a test end (R460): a pending one is cancelled with THROTTLE_STATE; when the last enforced one ends,
P0 and the full rate return with THROTTLE_STATE. -/
def endRequests (f : ThrReq → Bool) (s : State) : State :=
  let gone := s.therm.requests.filter f
  let was := s.therm.target
  let s := setTarget { s with therm.requests := s.therm.requests.filter (fun r => !f r) }
  let s := (gone.filter (fun r => r.enforcedAt.isNone)).foldl (fun s r => throttleState r false s) s
  if was < 100 ∧ s.therm.requests.isEmpty then
    match (gone.filter (fun r => r.enforcedAt.isSome)).getLast? with
    | some r => throttleState r false s
    | none => s
  else s

/-- Whether a rate request of a region holds. -/
def rateHeld (region : Nat) (s : State) : Bool := s.therm.requests.any (fun r => r.region == region && r.rate)

/-- The region's level (R457): 0 none, 1 NOTICE, 2 THROTTLE, 3 CRITICAL. -/
def levelOf (region : Nat) (s : State) : Nat := tgetD s.therm.lvl region 0

/-- THROTTLE_GRACE_END (R459): the grace of the region's earliest pending request ends. -/
def execThrottleGraceEnd (region : Fin 15) (s : State) : Res :=
  match pendingReq region.val s with
  | none => ok s
  | some i => match s.therm.requests[i]? with
    | none => ok s
    | some r => go (enforceAt i (timeTo (r.at_ + r.grace * 100000) s))

/-- THROTTLE_ESCALATE (R460): the region is still in THROTTLE 30 s after a target of its was enforced, the one enforced
first of those that no request has followed. -/
def execThrottleEscalate (region : Fin 15) (s : State) : Res :=
  match leastBy (fun r : ThrReq => r.enforcedAt.getD 0)
      (s.therm.requests.filter (fun r => r.region == region.val && r.enforcedAt.isSome && !r.followed)) with
  | none => ok s
  | some r =>
    if levelOf region.val s < 2 then ok s
    else
      let s := timeTo (r.enforcedAt.getD 0 + 30000000) s
      let s := { s with therm.requests := s.therm.requests.map (fun q => if q = r then { q with followed := true } else q) }
      ok (request region.val (max 25 (r.target - 25)) false s)

/-! ## Broken sensors (R453) -/

/-- Readings of a sensor over the latest 17 rounds. -/
def readings (n : Nat) (s : State) : List Int := s.therm.hist.map (fun l => l.getD n 0)

/-- Greatest less least of a list. -/
def spread (l : List Int) : Int := match l with
  | [] => 0
  | a :: t => t.foldl max a - t.foldl min a

/-- The second test of R453: unchanged for 16 rounds against the reading before them, while a neighbour moved. -/
def stuckSensor (n : Nat) (s : State) : Bool :=
  let l := readings n s
  l.length == 17 && (l.take 16).all (fun t => decide ((t - l.getD 16 0).natAbs ≤ 1)) &&
  (neighbours n).any (fun m => !masked m s && decide (8 ≤ spread ((readings m s).take 16)))

/-- A sensor becomes broken: event and message; it reads 126 °C from this round on. -/
def breakSensor (n cause : Nat) (s : State) : State :=
  let s := { s with therm := { s.therm with
    broken := tset s.therm.broken n cause,
    hist := match s.therm.hist with
      | [] => []
      | l :: t => lset l n 504 :: t } }
  raiseOpen 0x1A1 (recEvent 0x1A1 0x0050 n (leBytes 1 cause) s)

/-- The tests of R453 on every unmasked sensor. -/
def testSensors (r : RoundReadings) (s : State) : State :=
  (List.range 32).foldl (fun t n =>
    if masked n s || (tget s.therm.broken n).isSome then t
    else if !countInBand n (r.counts.getD n 0) s then breakSensor n 1 t
    else if stuckSensor n s then breakSensor n 2 t
    else t) s

/-! ## Levels and rates (R456 to R458) -/

/-- Tj of a digital level. -/
def levelTj (l : Nat) : Int := if l = 1 then 460 else if l = 2 then 500 else 560

/-- A region enters a level (R457, R459, R463). -/
def enterLevel (region l : Nat) (s : State) : State :=
  let s := { s with therm.lvl := tset s.therm.lvl region l }
  match l with
  | 1 => (match hottest region s with
    | some (n, t) => event 0x0009 n (tjByte t) s
    | none => s)
  | 2 => request region 75 false s
  | _ => startFlush 4 true (raiseFree 0x1A0 0x3D s)

/-- A region leaves a level, and every higher one with it (R457); leaving THROTTLE settles its requests (R460). -/
def leaveLevel (region l : Nat) (s : State) : State :=
  let was := levelOf region s
  let s := { s with therm.lvl := tset s.therm.lvl region (l - 1) }
  if l ≤ 2 ∧ 2 ≤ was then
    let s := endRequests (fun r => r.region == region && !r.rate && r.enforcedAt.isNone) s
    if rateHeld region s then s else endRequests (fun r => r.region == region) s
  else s

/-- One level of one region in one round: dwell in and out. -/
def stepLevel (region : Nat) (s : State) (l : Nat) : State :=
  match hottest region s with
  | none => s
  | some (_, t) =>
    let k := region * 4 + l
    let up := if levelTj l ≤ t then tgetD s.therm.up k 0 + 1 else 0
    let dn := if t < levelTj l - 12 then tgetD s.therm.dn k 0 + 1 else 0
    let s := { s with therm := { s.therm with up := tset s.therm.up k (min up 3), dn := tset s.therm.dn k (min dn 10) } }
    if levelOf region s < l ∧ 3 ≤ up then enterLevel region l s
    else if l ≤ levelOf region s ∧ 10 ≤ dn then leaveLevel region l s
    else s

/-- Rises of a sensor over 5 and over 2 rounds, in quarter degrees: rate5 × 0.5 s and rate2 × 0.2 s (R458). -/
def rises (n : Nat) (s : State) : Option Int × Option Int :=
  ((tjAgo n 5 s).map (fun t => sensorTj n s - t), (tjAgo n 2 s).map (fun t => sensorTj n s - t))

/-- Whether rate5 is 3 °C/s or more: 1.5 °C in 0.5 s. -/
def fast5 (n : Nat) (s : State) : Bool :=
  decide (340 ≤ sensorTj n s) && (match (rises n s).1 with | some d => decide (6 ≤ d) | none => false)

/-- Whether rate2 is 8 °C/s or more: 1.6 °C in 0.2 s. -/
def fast2 (n : Nat) (s : State) : Bool :=
  decide (340 ≤ sensorTj n s) && (match (rises n s).2 with | some d => decide (32 ≤ d * 5) | none => false)

/-- The rate rules for one sensor (R458). -/
def stepRate (n : Nat) (s : State) : State :=
  if masked n s then s
  else
    let recent := match tget s.therm.noticeAt n with
      | some k => decide (s.therm.rounds < k + 10)
      | none => false
    let s := if fast5 n s && !recent then
        event 0x0009 n (tjByte (sensorTj n s) + 256) { s with therm.noticeAt := tset s.therm.noticeAt n s.therm.rounds }
      else s
    if fast2 n s && !rateHeld (regionOf n) s then
      request (regionOf n) 50 true { s with therm.slow := tset s.therm.slow (regionOf n) 0 }
    else s

/-- The end of a region's rate request: rate5 below 3 °C/s for 10 rounds, and not in THROTTLE (R458). -/
def stepSlow (region : Nat) (s : State) : State :=
  if !rateHeld region s then s
  else
    let k := if (liveSensors region s).any (fun n => fast5 n s) then 0 else tgetD s.therm.slow region 0 + 1
    let s := { s with therm.slow := tset s.therm.slow region k }
    if 10 ≤ k ∧ levelOf region s < 2 then endRequests (fun r => r.region == region) s else s

/-- The thresholds of one region in one round. -/
def stepRegion (region : Nat) (s : State) : State := [1, 2, 3].foldl (stepLevel region) s

/-- The throttle state of one region in one round: a rate request may end, and at 135 °C every grace does (R458, R460). -/
def stepThrottle (region : Nat) (s : State) : State :=
  let s := stepSlow region s
  match hottest region s with
  | some (_, t) => if 540 ≤ t then enforceAll 8 region s else s
  | none => s

/-! ## Canaries (R467) -/

/-- Whether a canary group's domain runs in P0: control, lane, cache, host. -/
def canaryRuns (g : Nat) (s : State) : Bool :=
  s.therm.clk == 0 && s.therm.relock.isNone && (s.pow.ph == .run || s.pow.ph == .boot) &&
  (match g with
   | 0 => s.dev.coreAwake != 0
   | 1 => s.dev.laneAwake != 0
   | 2 => s.dev.cacheActive
   | _ => s.port0.width != 0 || s.port1.width != 0)

/-- A canary step: VDD_CORE up one code, or at code 10 the ceiling down 50 MHz. -/
def canaryStep (g : Nat) (s : State) : State :=
  let s := { s with therm.steps := min (s.therm.steps + 1) 0xFFFF, therm.lowSlack := tset s.therm.lowSlack g 0 }
  let s := if s.therm.code < 10 then
      let s := { s with therm.code := s.therm.code + 1 }
      if s.therm.clk = 0 then setVid s.therm.code s else s
    else startRelock 0 { s with therm.ceiling := s.therm.ceiling - 50 }
  recEvent 0x1A5 0x0052 g (leBytes 1 s.therm.code ++ leBytes 2 s.therm.ceiling) s

/-- One canary group whose slack is read in this round. -/
def stepCanary (slack : List Nat) (s : State) (g : Nat) : State :=
  let x := slack.getD g 0
  let k := if x < 4 then tgetD s.therm.lowSlack g 0 + 1 else 0
  let s := noteHour (fun h => { h with slack := tmod h.slack g x (fun y => min x y) })
    { s with therm.lowSlack := tset s.therm.lowSlack g k }
  if 3 ≤ k then canaryStep g s else s

/-- The canary groups in one round: those whose domain runs in P0 as the evaluation begins are read (R467). -/
def stepCanaries (slack : List Nat) (s : State) : State :=
  match (List.range 4).filter (fun g => canaryRuns g s) with
  | [] => s
  | g :: gs => gs.foldl (stepCanary slack) (stepCanary slack
      { s with therm.slackMin := gs.foldl (fun m k => min m (slack.getD k 0)) (slack.getD g 0) } g)

/-! ## Rail limits (R455 step 7, R472; 16 R531) -/

/-- Nominal voltage and tolerance in percent of the rail on channel 32 + n; VDD_CORE's nominal is its target, and the PFAIL reference has
no limit. -/
def railLimit (n : Nat) (s : State) : Option (Nat × Nat) :=
  if n < 4 then some (900 + 10 * s.therm.vid, 3)
  else match n with
    | 4 => some (900, 3)
    | 5 => some (900, 3)
    | 6 => some (1200, 3)
    | 7 => some (1050, 3)
    | 8 => some (1050, 3)
    | 9 => some (1800, 3)
    | 10 => some (1800, 5)
    | _ => none

/-- Whether a channel reads its rail outside its limits. -/
def railOut (n mv : Nat) (s : State) : Bool :=
  match railLimit n s with
  | some (nom, pct) => decide (pct * nom < 100 * (max nom mv - min nom mv))
  | none => false

/-- The rail limits of one round: a rail that goes out of its limits raises a message (log entry 86). -/
def stepRails (was : List Nat) (s : State) : State :=
  (List.range 12).foldl (fun s n =>
    let before := match was[n]? with
      | some mv => railOut n mv s
      | none => false
    match s.therm.rails[n]? with
    | some mv => if railOut n mv s && !before then raiseOpen 0x1D7 s else s
    | none => s) s

/-! ## The round (R455) -/

/-- Whether an operand holds the 64 channels of a round (01 R17). -/
def roundSound (r : RoundReadings) : Bool :=
  r.counts.length == 32 && r.railsMv.length == 12 && r.slack.length == 4 &&
  r.twins.length == 8

/-- Counts are converted and readings stored; a broken sensor's is 126 °C. A change of the sensor mask takes effect (R451, R454). -/
def storeRound (r : RoundReadings) (s : State) : State :=
  let l := r.counts.zipIdx.map (fun (c, n) => if (tget s.therm.broken n).isSome then 504 else readTj n c s)
  { s with therm := { s.therm with
      maskNow := s.therm.mask, hist := (l :: s.therm.hist).take 17, counts := r.counts, rounds := s.therm.rounds + 1, rails := r.railsMv,
      rcTrimmed := r.rcTrimmed, hostRef := r.hostRef, sysRef := r.sysRef } }

/-- Pack channels, unless the pack interface is in block reset (14 R487). -/
def stepPack (r : RoundReadings) (s : State) : State :=
  if s.pow.ph = .off || (match tget s.fc.resets 26 with
      | some b => b.endedAt.isNone
      | none => false) then s
  else packRound r.pack s

/-- What the last 720 h show is kept for the margin plan: corrected words, and whether region 13 lies above 105 °C (R469). -/
def stepHours (s : State) : State :=
  let hot := match hottest 13 s with
    | some (_, t) => decide (420 < t)
    | none => false
  noteHour (fun h => { h with rounds := h.rounds + 1, hot := h.hot + b2n hot }) (noteWords s)

/-- One housekeeping round: evaluation in the order of step 7. -/
def housekeep (r : RoundReadings) (s : State) : State :=
  let rails := s.therm.rails
  let s := testSensors r (storeRound r { s with now := s.now + 100000, cache.tagErrs := s.cache.tagErrs ++ r.tagFlips })
  let s := (List.range 15).foldl (fun s g => stepRegion g s) s
  let s := (List.range 32).foldl (fun s n => stepRate n s) s
  let s := (List.range 15).foldl (fun s g => stepThrottle g s) s
  let s := stepHours (stepCanaries r.slack { s with therm.twins := r.twins })
  let s := stepPack r s
  let s := if s.pow.ph = .off then s else unitsRound s
  stepRails rails s

/-- HOUSEKEEPING_ROUND (R455; 01 R17). -/
def execHousekeepingRound (r : RoundReadings) (s : State) : Res :=
  if roundSound r then go (housekeep r s) else .fault .malformed

/-! ## The analog trip and clocks (R464, R466) -/

/-- THERMTRIP (R464): every domain but the always-on domain is gated, with no flush; one that runs is torn. Without its
supply no comparator acts. -/
def execThermtrip (s : State) : Res :=
  if s.therm.tripped || s.pow.ph == .off then ok s
  else
    let s := if s.pow.ph = .flush then tornFlush s else s
    let s := setHold false (emit (.pin "THERMTRIP_N" false) s)
    ok (dropWork { s with therm.tripped := true, pow.ph := .tripped, pow.flushing := false, dev.ready := false, dev.level := 0 })

/-- XTAL_LOSS (R466). -/
def execXtalLoss (s : State) : Res := ok { s with therm.xtalOk := false }

/-- XTAL_RESTORED (R466). -/
def execXtalRestored (s : State) : Res := ok { s with therm.xtalOk := true }

/-- A PLL's lock. -/
def setLock (p : Pll) (b : Bool) (s : State) : State :=
  match p with
  | .core => { s with therm.coreLock := b }
  | .dram => { s with therm.dramLock := b }
  | .hostSerdes => { s with therm.hostLock := b }
  | .group n => if b then startGroup n.val s else stopGroup n.val s

/-- The source of a PLL (R472). -/
def pllSource : Pll → Nat
  | .core => 0x1D2
  | .dram => 0x1D3
  | .hostSerdes => 0x1D4
  | .group _ => 0x1D5

/-- PLL_LOCK_LOSS (R466): a message, and the domain stops. -/
def execPllLockLoss (p : Pll) (s : State) : Res := ok (setLock p false (raiseOpen (pllSource p) s))

/-- PLL_RELOCKED (R466): the domain resumes, unless the core PLL relocks for a clock state as well. -/
def execPllRelocked (p : Pll) (s : State) : Res :=
  if p = .core ∧ s.therm.relock.isSome = true then ok s else go (setLock p true s)

/-! ## The margin plan (R469, R470) -/

/-- The least slack of a canary group over the last 720 h; 64 taps where none was read (log entry 86). -/
def leastSlack (g : Nat) (s : State) : Nat := (s.therm.hours.filterMap (fun h => tget h.slack g)).foldl min 64

/-- Whether every canary group keeps 4 taps of slack at a code and a clock. -/
def planMeets (twins : List Nat) (code mhz : Nat) (s : State) : Bool :=
  (List.range 4).all (fun g => decide (4 ≤ Config.plannedSlack g (leastSlack g s) twins code mhz))

/-- VDD_CORE code and clock ceiling, and whether the rule is met. -/
def planPoint (twins : List Nat) (s : State) : Nat × Nat × Bool :=
  match (List.range 11).find? (fun c => planMeets twins c 2000 s) with
  | some c => (c, 2000, true)
  | none => match (List.range 8).find? (fun i => planMeets twins 10 (1950 - 50 * i) s) with
    | some i => (10, 1950 - 50 * i, true)
    | none => (10, 1600, false)

/-- The refresh factor, moved by at most one step. -/
def planRefresh (s : State) : Nat :=
  let n := (s.therm.hours.map (·.dram)).sum
  let want := if 100000 ≤ n then 2 else if 1000 ≤ n then 1 else 0
  if s.therm.refresh < want then s.therm.refresh + 1 else if want < s.therm.refresh then s.therm.refresh - 1 else s.therm.refresh

/-- The MRAM scrub interval in hours. -/
def planScrub (s : State) : Nat :=
  let n := (s.therm.hours.map (·.mram)).sum
  let hot := decide ((s.therm.hours.map (·.rounds)).sum < 10 * (s.therm.hours.map (·.hot)).sum)
  if 1000 ≤ n || (decide (100 ≤ n) && hot) then 6 else if 100 ≤ n || hot then 12 else 24

/-- The wear fraction of the vault. -/
def wearNow (s : State) : Frac :=
  (frac (max s.pow.erases0 s.pow.erases1 : Nat) 100000).max ((frac (s.pow.bad0 + s.pow.bad1 : Nat) 1).div (frac (Config.spareBlocks : Nat) 1))

/-- The plan takes effect (R470). A throttle state of P1 to P3, or a relock to one, is unaffected by the ceiling; VDD_CORE falls once the
relock has ended (CLOCK_RELOCK_DONE). -/
def applyPlan (code ceiling : Nat) (s : State) : State :=
  let p0 := s.therm.relock.getD s.therm.clk == 0
  let up := decide (s.therm.code < code)
  let s := { s with therm.code := code }
  let s := if p0 && up then setVid code s else s
  let s := if ceiling = s.therm.ceiling then s
    else if p0 then startRelock 0 { s with therm.ceiling := ceiling } else { s with therm.ceiling := ceiling }
  if p0 && !up && s.therm.relock.isNone then setVid code s else s

/-- The counters of member commands per cell halve when the margin plan runs (04 R157, R159). -/
def halveCounts (s : State) : State :=
  let half (t : Tbl Nat) : Tbl Nat := (t.map (fun e => (e.1, e.2 / 2))).filter (fun e => e.2 != 0)
  { s with mem.pools := s.mem.pools.map (fun e => (e.1, { e.2 with writes := half e.2.writes, reads := half e.2.reads })) }

/-- The plan is computed and committed (R469). -/
def marginPlan (m : MarginInputs) (s : State) : State :=
  let s := if s.therm.planAgain then s else timeToOp ((s.therm.planHours + 720) * 3600) s
  if commitsRefused s then { s with therm.planAgain := true }
  else
    let s := noteHour id (noteWords s)
    let (code, ceiling, met) := planPoint m.twins s
    let t := s.therm
    let t' : ThermSt := { t with
      planVid := some code, planCeiling := ceiling, planHours := opSeconds s / 3600, planValid := true, refresh := planRefresh s,
      scrubH := planScrub s, wear := wearNow s, planTwins := m.twins, planAgain := false, steps := 0, lowSlack := [] }
    let s := applyPlan code ceiling (ledCommit (halveCounts { s with therm := t' }))
    if met then s
    else raiseFree 0x1A6 0x3D (recEvent 0x1A6 0x0053 0 (leBytes 1 code ++ leBytes 2 ceiling) s)

/-- MARGIN_PLAN (R469, R470). -/
def execMarginPlan (m : MarginInputs) (s : State) : Res := ok (if planFirst s then s else marginPlan m s)

/-! ## Sensor masks (R454) -/

/-- A sensor's mask changes: committed, and recorded with whether it was broken; rules take it from the next round on (R454). -/
def changeMask (n : Nat) (on : Bool) (s : State) : State :=
  let b : BitVec 32 := BitVec.ofNat 32 (2 ^ n)
  let s := ledCommit { s with therm.mask := if on then s.therm.mask ||| b else s.therm.mask &&& ~~~ b }
  recEvent 0x1A1 0x0051 n (leBytes 1 (b2n on) ++ leBytes 1 (b2n (tget s.therm.broken n).isSome)) s

/-- SENSOR_MASK (R454). -/
def execSensorMask (data : List Byte) (s : State) : Res :=
  ok (asAdmin 0xB5 (fun c x s =>
    let n := arg x 40 1
    let on := !bitN (arg x 41 1) 0
    let a := adminIn x data
    withAuth c 2 (leBytes 1 n ++ leBytes 1 (b2n !on)) a (fun s =>
      if 32 ≤ n then adminFail c 0x0002 0x0D01 s
      else if on && (sensorsOf (regionOf n)).filter (fun k => !s.therm.mask.getLsbD k) == [n] then adminFail c 0x0005 0x0D02 s
      else if s.therm.mask.getLsbD n = on then adminOk c s
      else adminOk c (changeMask n on (authAccept a s))) s) s)

end Sys2Proof.Machine
end

