-- ==== Sys2Proof/Machine/NvmeRows.lean ====
section
/-! DEFINITION. Sys2Proof/Machine/NvmeRows.lean: the NVMe boot function PF1 (06 R246 to R250): its controller, its admin
commands and its I/O commands. What the NVM Express specifications fix is log entry 43. -/

namespace Sys2Proof.Machine

/-! ## The controller (R248) -/

/-- NVME_CONTROLLER_RESET. -/
def execNvmeControllerReset (port : Fin 2) (s : State) : Res := ok (nvmeReset port.val s)

/-- CC.EN rises: the admin queues are made from AQA, ASQ and ACQ; RDY is set at READY, or now. More than 64 entries are
fatal. -/
def nvmeEnable (p : Nat) (asq acq : Word) (aqa : Dword) (s : State) : State :=
  let u := (getPort p s).pf1
  let nsq := fld aqa.toNat 11 0 + 1
  let ncq := fld aqa.toNat 27 16 + 1
  if u.en || !portThere p s then s
  else if 64 < nsq ∨ 64 < ncq then updPf1 p (fun u => { u with en := true, cfs := true }) s
  else
    let sq : Nvq := { base := asq.toNat / 4096 * 4096, size := nsq }
    let cq : Nvq := { base := acq.toNat / 4096 * 4096, size := ncq, intEn := true, vector := 0 }
    updPf1 p (fun u => { u with en := true, asq := some sq, acq := some cq, rdy := s.dev.ready, enPending := !s.dev.ready }) s

/-- PF1_CONTROLLER_ENABLE, a write of CC with the admin queue registers as the host wrote them: a 0 in CC.EN is a controller
reset, which keeps those registers. -/
def execPf1ControllerEnable (port : Fin 2) (cc : Dword) (asq acq : Word) (aqa : Dword) (s : State) : Res :=
  ok (updPf1 port.val (fun u => { u with cc := cc, asqReg := asq, acqReg := acq, aqa := aqa })
    (if cc.getLsbD 0 then nvmeEnable port.val asq acq aqa s else nvmeReset port.val s))

/-- Entries of a submission queue from its old tail to a new one are read. -/
def readSqes (p : Nat) (q : Nvq) (t : Nat) (s : State) : State :=
  (List.range ((t + q.size - q.tail) % q.size)).foldl (fun s i =>
    emit (.hostRead p (q.base + 64 * ((q.tail + i) % q.size)) 64) s) s

/-- Completions that waited go into the queues that have room again, oldest first of each queue. -/
def nvmeStashed : Nat → Nat → State → State
  | 0, _, s => s
  | n + 1, p, s =>
    let l := (getPort p s).pf1.stash
    match l.find? (fun x => (nvmeCq p x.1 s).any (fun q => !nvqFull q)) with
    | none => s
    | some x =>
      nvmeStashed n p (writeNvme p x.1 x.2.1 x.2.2.1 x.2.2.2 (updPf1 p (fun u => { u with stash := l.erase x }) s))

/-- PF1_QUEUE_DOORBELL: a submission tail makes the module read entries, a completion head frees room. A value outside the
queue has no effect. -/
def nvmeDoorbell (p : Nat) (io completion : Bool) (v : Nat) (s : State) : State :=
  if !(getPort p s).pf1.rdy then s
  else if completion then match nvmeCq p (!io) s with
    | none => s
    | some q =>
      if q.size ≤ v then s
      else
        let q' := { q with head := v }
        let s := updPf1 p (fun u => if io then { u with ioCq := some q' } else { u with acq := some q' }) s
        nvmeStashed 512 p s
  else match nvmeSq p (!io) s with
    | none => s
    | some q =>
      if q.size ≤ v then s
      else
        let q' := { q with tail := v }
        readSqes p q v (updPf1 p (fun u => if io then { u with ioSq := some q' } else { u with asq := some q' }) s)

/-- PF1_QUEUE_DOORBELL. -/
def execPf1QueueDoorbell (port : Fin 2) (io completion : Bool) (value : Dword) (s : State) : Res :=
  ok (nvmeDoorbell port.val io completion (value.toNat % 65536) s)

/-! ## Admin commands (R246) -/

/-- An admin command completes. -/
def nvmeDone (p : Nat) (e : NvmeSqe) (status dw0 : Nat) (s : State) : State := postNvme p true e.cid status dw0 s

/-- An admin command returns data of at most a page and completes. -/
def nvmeOut (p : Nat) (e : NvmeSqe) (d : List Byte) (s : State) : State :=
  if !prpOk e.prp1.toNat e.prp2.toNat d.length then nvmeDone p e nvmePrpOffset 0 s
  else nvmeDone p e 0 0 (scatter p (prpRuns e.prp1.toNat e.prp2.toNat d.length) d s)

/-- Bytes replaced from an offset on. -/
def overlay (l : List Byte) (f : Nat × List Byte) : List Byte := l.take f.1 ++ f.2 ++ l.drop (f.1 + f.2.length)

/-- Identify Controller data: what R246 fixes, over what it leaves open. -/
def identController : List Byte :=
  [(77, leBytes 1 6), (80, leBytes 4 0x00020000), (111, leBytes 1 1), (256, leBytes 2 0), (259, leBytes 1 3), (512, leBytes 1 0x66),
   (513, leBytes 1 0x44), (516, leBytes 4 1), (520, leBytes 2 0x0C), (536, leBytes 4 0)].foldl overlay
    ((List.range 4096).map Config.nvmeIdentity)

/-- Identify Namespace data: one LBA format of 4,096 bytes and no metadata. -/
def identNamespace (s : State) : List Byte :=
  padTo 4096 (leBytes 8 (nsze s) ++ leBytes 8 (nsze s) ++ leBytes 8 (nsze s) ++ List.replicate 104 0 ++ leBytes 4 (12 * 65536))

/-- NVME_IDENTIFY: CNS 0x00, 0x01, 0x02. -/
def nvmeIdentify (p : Nat) (e : NvmeSqe) (s : State) : State :=
  match fld e.cdw10.toNat 7 0 with
  | 0 => if e.nsid.toNat != 1 then nvmeDone p e nvmeInvalidNs 0 s
         else nvmeOut p e (if (bootVolume s).isSome then identNamespace s else List.replicate 4096 0) s
  | 1 => nvmeOut p e identController s
  | 2 => if 0xFFFFFFFE ≤ e.nsid.toNat then nvmeDone p e nvmeInvalidNs 0 s
         else nvmeOut p e (padTo 4096 (if (bootVolume s).isSome && e.nsid.toNat == 0 then leBytes 4 1 else [])) s
  | _ => nvmeDone p e nvmeInvalidField 0 s

/-- NVME_IDENTIFY. -/
def execNvmeIdentify (port : Fin 2) (e : NvmeSqe) (s : State) : Res := ok (asNvmeAdmin port.val e (nvmeIdentify port.val e) s)

/-- Create I/O Submission or Completion Queue: the pair has identifier 1 and up to 256 entries, contiguous. -/
def nvmeCreate (p : Nat) (submission : Bool) (e : NvmeSqe) (s : State) : State :=
  let u := (getPort p s).pf1
  let size := fld e.cdw10.toNat 31 16 + 1
  let hi := fld e.cdw11.toNat 31 16
  if fld e.cdw10.toNat 15 0 != 1 || (if submission then u.ioSq.isSome else u.ioCq.isSome) then nvmeDone p e 0x101 0 s
  else if size < 2 ∨ 256 < size then nvmeDone p e 0x102 0 s
  else if !e.cdw11.getLsbD 0 then nvmeDone p e nvmeInvalidField 0 s
  else if e.prp1.toNat % 4096 != 0 then nvmeDone p e nvmePrpOffset 0 s
  else if submission then
    if hi != 1 then nvmeDone p e 0x101 0 s
    else if u.ioCq.isNone then nvmeDone p e 0x100 0 s
    else nvmeDone p e 0 0 (updPf1 p (fun u => { u with ioSq := some { base := e.prp1.toNat, size := size } }) s)
  else if 1 < hi then nvmeDone p e 0x108 0 s
  else
    let q : Nvq := { base := e.prp1.toNat, size := size, intEn := e.cdw11.getLsbD 1, vector := hi }
    nvmeDone p e 0 0 (updPf1 p (fun u => { u with ioCq := some q }) s)

/-- NVME_CREATE_IO_QUEUE. -/
def execNvmeCreateIoQueue (port : Fin 2) (submission : Bool) (e : NvmeSqe) (s : State) : Res :=
  ok (asNvmeAdmin port.val e (nvmeCreate port.val submission e) s)

/-- Delete I/O Submission or Completion Queue: commands of a deleted submission queue run on unreported; a completion queue
goes after its submission queue. -/
def nvmeDelete (p : Nat) (submission : Bool) (e : NvmeSqe) (s : State) : State :=
  let u := (getPort p s).pf1
  if fld e.cdw10.toNat 15 0 != 1 || (if submission then u.ioSq.isNone else u.ioCq.isNone) then nvmeDone p e 0x101 0 s
  else if submission then nvmeDone p e 0 0 (updPf1 p (fun u => { u with ioSq := none, dsmFail := [] }) (orphanNvme p s))
  else if u.ioSq.isSome then nvmeDone p e 0x10C 0 s
  else nvmeDone p e 0 0 (updPf1 p (fun u => { u with ioCq := none, stash := u.stash.filter (·.1) }) s)

/-- NVME_DELETE_IO_QUEUE. -/
def execNvmeDeleteIoQueue (port : Fin 2) (submission : Bool) (e : NvmeSqe) (s : State) : Res :=
  ok (asNvmeAdmin port.val e (nvmeDelete port.val submission e) s)

/-- Data units of 1,000 × 512 bytes, rounded up. -/
def dataUnits (sectors : Nat) : Nat := (sectors * 8 + 999) / 1000

/-- The SMART / Health Information log (R250). -/
def smartLog (p : Nat) (s : State) : List Byte :=
  let u := (getPort p s).pf1
  padTo 512 (leBytes 1 (critWarn s) ++ leBytes 2 ((maxTj s).2 / 4 + 273).toNat ++ List.replicate 29 0 ++
    leBytes 16 (dataUnits u.sectorsRead) ++ leBytes 16 (dataUnits u.sectorsWritten))

/-- Get Log Page: 0x01 Error, with no entry, and 0x02 SMART. -/
def nvmeLog (p : Nat) (e : NvmeSqe) (s : State) : State :=
  let lid := fld e.cdw10.toNat 7 0
  let n := 4 * (fld e.cdw10.toNat 31 16 + fld e.cdw11.toNat 15 0 * 65536 + 1)
  let off := e.cdw12.toNat + e.cdw13.toNat * 2 ^ 32
  let out (d : List Byte) : State := nvmeOut p e ((d.drop off).take n) s
  if lid = 1 then out (List.replicate 64 0)
  else if lid = 2 then nvmeEvent p (updPf1 p (fun u => if e.cdw10.getLsbD 15 then u else { u with aerMasked := false }) (out (smartLog p s)))
  else nvmeDone p e 0x109 0 s

/-- NVME_GET_LOG_PAGE. -/
def execNvmeGetLogPage (port : Fin 2) (e : NvmeSqe) (s : State) : Res := ok (asNvmeAdmin port.val e (nvmeLog port.val e) s)

/-- Get Features: 0x07 (one queue of each kind), 0x08 and 0x0B. -/
def nvmeGetFeature (p : Nat) (e : NvmeSqe) (s : State) : State :=
  let u := (getPort p s).pf1
  match fld e.cdw10.toNat 7 0 with
  | 0x07 => nvmeDone p e 0 0 s
  | 0x08 => nvmeDone p e 0 u.coalescing.toNat s
  | 0x0B => nvmeDone p e 0 u.aerConfig.toNat s
  | _ => nvmeDone p e nvmeInvalidField 0 s

/-- NVME_GET_FEATURES. -/
def execNvmeGetFeatures (port : Fin 2) (e : NvmeSqe) (s : State) : Res := ok (asNvmeAdmin port.val e (nvmeGetFeature port.val e) s)

/-- Set Features; none can be saved. -/
def nvmeSetFeature (p : Nat) (e : NvmeSqe) (s : State) : State :=
  let f := fld e.cdw10.toNat 7 0
  if f != 0x07 && f != 0x08 && f != 0x0B then nvmeDone p e nvmeInvalidField 0 s
  else if e.cdw10.getLsbD 31 then nvmeDone p e 0x10D 0 s
  else if f = 0x08 then nvmeDone p e 0 0 (updPf1 p (fun u => { u with coalescing := e.cdw11 &&& 0xFFFF#32 }) s)
  else if f = 0x0B then nvmeDone p e 0 0 (updPf1 p (fun u => { u with aerConfig := e.cdw11 }) s)
  else nvmeDone p e 0 0 s

/-- NVME_SET_FEATURES. -/
def execNvmeSetFeatures (port : Fin 2) (e : NvmeSqe) (s : State) : Res := ok (asNvmeAdmin port.val e (nvmeSetFeature port.val e) s)

/-- Asynchronous Event Request: up to 4 wait. -/
def nvmeAer (p : Nat) (e : NvmeSqe) (s : State) : State :=
  if 4 ≤ (getPort p s).pf1.aers.length then nvmeDone p e 0x105 0 s
  else nvmeEvent p (updPf1 p (fun u => { u with aers := u.aers ++ [e.cid] }) s)

/-- NVME_ASYNC_EVENT_REQUEST. -/
def execNvmeAsyncEventRequest (port : Fin 2) (e : NvmeSqe) (s : State) : Res := ok (asNvmeAdmin port.val e (nvmeAer port.val e) s)

/-- Abort: a waiting event request is aborted; any other command runs on, which bit 0 of the first dword says. -/
def nvmeAbort (p : Nat) (e : NvmeSqe) (s : State) : State :=
  let cid : BitVec 16 := BitVec.ofNat 16 (fld e.cdw10.toNat 31 16)
  if fld e.cdw10.toNat 15 0 == 0 && (getPort p s).pf1.aers.contains cid then
    let s := updPf1 p (fun u => { u with aers := u.aers.erase cid }) s
    nvmeDone p e 0 0 (postNvme p true cid nvmeAborted 0 s)
  else nvmeDone p e 0 1 s

/-- NVME_ABORT. -/
def execNvmeAbort (port : Fin 2) (e : NvmeSqe) (s : State) : Res := ok (asNvmeAdmin port.val e (nvmeAbort port.val e) s)

/-! ## I/O commands (R247 to R249) -/

/-- An I/O command fails before it begins. -/
def nvmeFail (p : Nat) (e : NvmeSqe) (status : Nat) (s : State) : State := postNvme p false e.cid status 0 s

/-- Run an I/O command on namespace 1 as the boot volume. -/
def onBoot (p : Nat) (e : NvmeSqe) (f : Nat → State → State) (s : State) : State :=
  match bootVolume s with
  | some v => if e.nsid.toNat = 1 then f v s else nvmeFail p e nvmeInvalidNs s
  | none => nvmeFail p e nvmeInvalidNs s

/-- SLBA. -/
def nvmeLba (e : NvmeSqe) : Nat := e.cdw10.toNat + e.cdw11.toNat * 2 ^ 32
/-- NLB, counted from 1. -/
def nvmeCount (e : NvmeSqe) : Nat := fld e.cdw12.toNat 15 0 + 1

/-- Read or Write: at most 256 KiB. It takes its byte tokens as it begins (13 R461). -/
def nvmeRw (p opcode : Nat) (e : NvmeSqe) (s : State) : State :=
  let s := debitBytes (nvmeCount e * 4096) s
  onBoot p e (fun v s =>
    let n := nvmeCount e
    if 64 < n then nvmeFail p e nvmeInvalidField s
    else if !prpOk e.prp1.toNat e.prp2.toNat (n * 4096) then nvmeFail p e nvmePrpOffset s
    else if (nsze s) < nvmeLba e + n then nvmeFail p e 0x080 s
    else beginNvme (.pf1 p false e.cid) p opcode v (nvmeLba e) n e.prp1.toNat e.prp2.toNat true s) s

/-- NVME_READ. -/
def execNvmeRead (port : Fin 2) (e : NvmeSqe) (s : State) : Res := go (asNvmeIo port.val e (nvmeRw port.val 1 e) s)

/-- NVME_WRITE: with FUA set it is the module's WRITE_FUA. -/
def execNvmeWrite (port : Fin 2) (e : NvmeSqe) (s : State) : Res :=
  go (asNvmeIo port.val e (nvmeRw port.val (if e.cdw12.getLsbD 30 then 3 else 2) e) s)

/-- NVME_FLUSH: of namespace 1, or of every namespace. -/
def execNvmeFlush (port : Fin 2) (e : NvmeSqe) (s : State) : Res :=
  go (asNvmeIo port.val e (fun s =>
    let e' := if e.nsid = 0xFFFFFFFF#32 then { e with nsid := 1#32 } else e
    onBoot port.val e' (fun v s => beginNvme (.pf1 port.val false e.cid) port.val 4 v 0 0 0 0 false s) s) s)

/-- NVME_WRITE_ZEROES: as DEALLOCATE, which makes a range read as zeroes (R229). -/
def execNvmeWriteZeroes (port : Fin 2) (e : NvmeSqe) (s : State) : Res :=
  go (asNvmeIo port.val e (onBoot port.val e (fun v s =>
    if (nsze s) < nvmeLba e + nvmeCount e then nvmeFail port.val e 0x080 s
    else beginNvme (.pf1 port.val false e.cid) port.val 5 v (nvmeLba e) (nvmeCount e) 0 0 false s)) s)

/-- Dataset Management with the deallocate attribute: DEALLOCATE of each range; other attributes have no effect. -/
def nvmeDsm (p : Nat) (e : NvmeSqe) (ranges : List (Nat × Nat)) (s : State) : State :=
  onBoot p e (fun v s =>
    let rs := (ranges.take (fld e.cdw10.toNat 7 0 + 1)).filter (fun r => r.2 != 0)
    if !e.cdw11.getLsbD 2 || rs.isEmpty then nvmeFail p e 0 s
    else if rs.any (fun r => decide ((nsze s) < r.1 + r.2)) then nvmeFail p e 0x080 s
    else
      -- every range's command exists before the first one runs, so that the last one to end completes the whole
      let (cs, s) := rs.foldl (fun (cs, s) r =>
        let (c, s) := newCmd (.dsm p e.cid) p (nvmeEntry 5 v r.1 r.2 0 0) s
        (cs ++ [c], updCmd c (fun x => { x with sgl := [] }) s)) (([], s) : List Nat × State)
      cs.foldl (fun s c => runNvme c s) s) s

/-- NVME_DATASET_MANAGEMENT. -/
def execNvmeDatasetManagement (port : Fin 2) (e : NvmeSqe) (ranges : List (Nat × Nat)) (s : State) : Res :=
  go (asNvmeIo port.val e (nvmeDsm port.val e ranges) s)

end Sys2Proof.Machine
end

