-- ==== Sys2Proof/Machine/PowerRows.lean ====
section
/-! DEFINITION. Sys2Proof/Machine/PowerRows.lean: PERST_N, vault paging and restore, vault halves, counters and the
ledger's commands (11 R393 to R424). -/

namespace Sys2Proof.Machine

/-! ## PERST_N (R394; 01 R23; 11 R405) -/

/-- Whether every Tj reading lies below the throttle level of 125 °C (R405). -/
def belowThrottle (s : State) : Bool :=
  (List.range 32).all (fun n => s.therm.maskNow.getLsbD n || decide (sensorTj n s < 500))

/-- A wake (01 R23): deep standby ends, and COLD_STOPPED once every Tj lies below the throttle level; the boot runs from
the firmware verification on. -/
def wakeUp (s : State) : State :=
  match s.pow.ph with
  | .standby => bootAgain 5 s
  | .coldStopped => if belowThrottle s then bootAgain 4 s else s
  | _ => s

/-- A fundamental reset of a port's link: both functions are reset, and the link is down until it trains again. -/
def linkReset (p : Nat) (s : State) : State :=
  updPort p (fun q => { q with width := 0, inL12 := false, vdm := false, sris := false }) (nvmeReset p (flrPort p s))

/-- PERST_N of port 0, or PERST_B_N of port 1, which is ignored unless the link is bifurcated (16 R529). PERST_N applies
05 R214 to both ports; none acts while a flush runs (R393). A rise after a fall is a wake (01 R23). -/
def perst (port : Nat) (low : Bool) (s : State) : State :=
  let was := (getPort port s).perstLow
  let s := updPort port (fun q => { q with perstLow := low }) s
  if port = 1 && !s.dev.bifurcated then s
  else if low then
    if !hostPowered s then s
    else
      let s := if port = 0 then linkReset 1 (linkReset 0 s) else linkReset 1 s
      raiseFree 0x008 0x3F s
  else if was && port = 0 then wakeUp s
  else s

/-- PERST_N. -/
def execPerstN (port : Fin 2) (low : Bool) (s : State) : Res := ok (perst port.val low s)

/-! ## Vault paging and restore (R411 to R415) -/

/-- The live sectors of a NAND page that are not restored, as (entry, sector of the line, vault sector). -/
def pageSecs (half page : Nat) (s : State) : List (IdxEnt × Nat × Nat) :=
  s.pow.index.flatMap (fun e =>
    if e.half != half || e.dead then []
    else ((secsOf e.mask).zipIdx.map (fun (i, n) => (e, i, e.vsec + n))).filter (fun x =>
      x.2.2 / 4 == page && idxInForce s e.pool e.line x.2.1 == some e && unrestored e.pool e.line x.2.1 s))

/-- READ commands that wait for a page. -/
def pageReaders (half page : Nat) (s : State) : List Nat :=
  ((s.pipe.ops.filter (fun e => e.2.kind == 0 && (vaultPages e.2 s).contains (half, page))).filterMap (fun e => e.2.cmd)).eraseDups

/-- One sector of a page that was read: it fails its checks and is lost (R414), is installed under its shadow's way
(R411), or, while the cache is out of service, waits in lane buffer SRAM (R415). -/
def takeSector (bad : Bool) (e : IdxEnt) (i v : Nat) (s : State) : State :=
  match shadowWay e.pool e.line s, tget s.pow.nand (e.half * 2 ^ 24 + v) with
  | some x, some d =>
    if bad then settleVault e.pool e.line i (addLostW e.pool e.line x i 3 s)
    else if cacheOn s then installRestored e.pool e.line x i d s
    else { s with pow.pagedData := tset s.pow.pagedData (e.half * 2 ^ 24 + v) d }
  | _, _ => s

/-- Of the sectors that were restored, those that a FLUSH or a range invalidate waits for are destaged, and slices that are dirty as
a whole (07 R279 triggers 4 and 1). -/
def destageWaited (l : List (Nat × Nat × Nat)) (s : State) : State :=
  let got := l.filterMap (fun (p, line, i) => (findLine p line s).map (fun x => (x, i)))
  let waited := got.filter (fun x => s.cache.invWait.contains x || s.pipe.cmds.any (fun e => e.2.waitSecs.contains x))
  let slices := (l.map (fun (p, line, i) => let (row, _, ss) := secOfLine p line i s; (p, row, ss / 16))).eraseDups
  slices.foldl (fun s (p, row, sl) => fullSlice p row sl s) (destagePlaces waited s)

/-- VAULT_READ_COMPLETE (R411, R412, R414). -/
def vaultRead (half page : Nat) (bad : BitVec 4) (s : State) : State :=
  let secs := pageSecs half page s
  let s := (pageReaders half page s).foldl (fun s c =>
    if ((cmdOf c s).map (·.paged)).getD true then s
    else updCmd c (fun x => { x with paged := true }) { s with pow.pagedN := sat32 s.pow.pagedN 1 }) s
  let s := secs.foldl (fun s (e, i, v) => takeSector (bad.getLsbD (v % 4)) e i v s) s
  destageWaited (secs.map (fun (e, i, _) => (e.pool, e.line, i))) s

/-- VAULT_READ_COMPLETE; nothing before READY, after a flush has started, and in a block reset of the vault (14 R487). -/
def execVaultReadComplete (half : Fin 2) (page : Nat) (bad : BitVec 4) (s : State) : Res :=
  if s.pow.ph = .run ∧ vaultResetting s = false then go (vaultRead half.val page bad s) else ok s

/-- RESTORE_END (R414). -/
def execRestoreEnd (s : State) : Res :=
  if s.pow.restoring && restoreLeft s == 0 then
    ok { s with pow.restoring := false, pow.restoreMs := min ((s.now - s.pow.readyAt) / 1000) 0xFFFF }
  else ok s

/-! ## Vault halves (R401, R402) -/

/-- Whether an index entry is live: not DEAD, and in force for a sector. -/
def liveEntry (e : IdxEnt) (s : State) : Bool :=
  !e.dead && (secsOf e.mask).any (fun i => idxInForce s e.pool e.line i == some e)

/-- VAULT_HALF_ERASE_DONE (R401): a half that is not current, holds no live entry and is not erased is erased. The vault
may return to service: the erased half becomes the current one where the current one has no room (R402; log entry 26). -/
def eraseHalf (h : Nat) (s : State) : State :=
  let p := s.pow
  if h = p.cur || halfErased h s || p.index.any (fun e => e.half == h && liveEntry e s) then s
  else
    let nand := p.nand.filter (fun e => e.1 / 2 ^ 24 != h)
    let p : PowSt := if h = 0 then { p with nand := nand, free0 := 0, erased0 := true, erases0 := p.erases0 + 1 }
      else { p with nand := nand, free1 := 0, erased1 := true, erases1 := p.erases1 + 1 }
    setCap { s with pow := saveHdr (bootHalf p) }

/-- VAULT_HALF_ERASE_DONE. -/
def execVaultHalfEraseDone (half : Fin 2) (s : State) : Res :=
  if s.pow.ph = .run then go (eraseHalf half.val s) else ok s

/-! ## Counters and scrub (R418, R420) -/

/-- COUNTERS_COMMIT: every 15 minutes (R418). -/
def execCountersCommit (s : State) : Res :=
  let s := timeToOp (s.evr.lastCounters + 900) s
  ok (if commitsRefused s then s else commitCounters s)

/-- LEDGER_SCRUB (R420; 13 R469): corrected words are counted and rewritten, records that fail are damaged. -/
def execLedgerScrub (corrected : Nat) (uncorrectable : List (Nat × Nat)) (s : State) : Res :=
  let s := timeToOp (s.led.lastScrub + s.therm.scrubH * 3600) s
  let s := { s with led.lastScrub := opSeconds s, pow.mramCorr := sat32 s.pow.mramCorr corrected }
  ok (uncorrectable.foldl (fun s r => damagedRecord r { s with pow.mramUnc := sat32 s.pow.mramUnc 1 }) s)

/-! ## Ledger records by type and instance (R419) -/

/-- Instances of a record type; 0 for a type that is not in the table. -/
def instances (typ : Nat) : Nat :=
  match typ with
  | 0x0001 => 1 | 0x0002 => 1 | 0x0003 => 1 | 0x0004 => 1
  | 0x0010 => 1 | 0x0011 => 1 | 0x0012 => 1 | 0x0013 => 1
  | 0x0020 => 4 | 0x0021 => 1
  | 0x0030 => 8 | 0x0031 => 8 | 0x0032 => 8 | 0x0033 => 8
  | 0x0038 => 1 | 0x0040 => 1 | 0x0041 => 1 | 0x0042 => 1 | 0x0050 => 1 | 0x0051 => 1 | 0x0060 => 1
  | _ => 0

/-- Whether a type and instance are in the table. -/
def recordExists (typ inst : Nat) : Bool := decide (inst < instances typ)

/-- Whether LEDGER_SET writes a type. -/
def settable (typ : Nat) : Bool := typ == 1 || typ == 2 || typ == 3 || typ == 4 || typ == 0x38

/-- The patrol record (09 R356). -/
def patrolBytes (p : Nat) (r : PatrolRec) : List Byte :=
  leBytes 1 p ++ leBytes 1 r.st ++ leBytes 2 0 ++ leBytes 4 (sat32 r.passes 0) ++ leBytes 4 r.passStart ++ leBytes 4 r.lastEnd ++
  leBytes 8 (r.row % 2 ^ 48) ++ leBytes 8 r.checked ++ leBytes 4 (sat32 r.repaired 0) ++ leBytes 4 (sat32 r.corrected 0) ++
  leBytes 4 (sat32 r.rewritten 0) ++ leBytes 4 (sat32 r.markedN 0) ++ leBytes 4 (sat32 r.unchecked 0) ++
  leBytes 4 (sat32 r.dropped 0) ++ leBytes 8 0

/-- The reshape record (09 R356), with the window entries that a commit has recorded. -/
def reshapeBytes (p : Nat) (r : Reshape) : List Byte :=
  leBytes 1 p ++ leBytes 1 r.st ++ leBytes 2 (r.window.filter (·.saved)).length ++ leBytes 4 0 ++ leBytes 8 r.b ++ leBytes 8 r.src ++
  leBytes 8 r.rows ++ padTo 32 r.hash ++
  (r.window.filter (·.saved)).flatMap (fun w => leBytes 6 w.row ++ leBytes 2 0 ++ leBytes 6 w.first ++ leBytes 1 w.bands ++ leBytes 1 (b2n w.homed))

/-- A fraction by its numbers. -/
def fracHolds (f : Frac) : List Int := [f.num, f.den]

/-- What a record holds whose layout no chapter gives (R419; 12 R448; 13 R470). -/
def recordHolds (typ inst : Nat) (s : State) : List Int :=
  let nats (l : List Nat) : List Int := l.map Int.ofNat
  let bytes (b : List Byte) : List Int := b.map (fun x => Int.ofNat x.toNat)
  let r := poolRec inst s
  let t := s.therm
  let k := s.pack
  match typ with
  | 0x0030 => nats ([r.serial, r.n, r.geom, r.fallow, r.format, r.owner, r.epoch] ++ r.arbs) ++
      r.slots.flatMap (fun (n, x) => nats [n, x.st.code, x.reason, x.labelGen, x.restore, x.resume.code])
  | 0x0033 => nats (r.relocs.flatMap (fun (c, x) => [c, x.boundary]))
  | 0x0040 => Int.ofNat t.mask.toNat :: Int.ofNat s.led.training :: t.trims.flatMap (fun (n, x) => [Int.ofNat n, x.c0, x.t0, x.c1, x.t1, x.off])
  | 0x0041 => nats ([b2n t.planValid, t.planVid.getD 0, b2n t.planVid.isSome, t.planCeiling, t.planHours, t.refresh, t.scrubH] ++ t.planTwins) ++
      fracHolds t.wear
  | 0x0042 => bytes (k.identity.getD []) ++ fracHolds k.qLearn ++ fracHolds k.uLearn ++ fracHolds k.rhoKept ++
      nats [b2n k.identity.isSome, k.learnAt, k.insertedAt, k.failsKept, k.resultKept] ++ fracHolds k.cyclesKept
  | 0x0050 => nats [s.led.opSeconds, s.led.powerCycles]
  | 0x0051 => nats [b2n s.led.fallback, b2n s.led.unnamedLoss, b2n s.led.locked, s.led.discardsKept]
  | 0x0060 => bytes (s.led.ownerKey.getD []) ++ nats [b2n s.led.ownerKey.isSome, s.led.authSeq]
  | _ => []

/-- The bytes of the record in force; those of a layout that no chapter gives are uninterpreted (log entry 6). A record
that is not there has none. -/
def recordData (typ inst : Nat) (s : State) : List Byte :=
  let l := s.led
  match typ with
  | 0x0001 => Config.identityBytes l.cohort l.paired l.peer
  | 0x0002 => Config.portSplitBytes l.splitCtx l.splitVec
  | 0x0003 => Config.bootBytes l.bootVol l.retrain
  | 0x0004 => Config.cacheClassBytes l.ways l.lock l.volClass
  | 0x0010 => l.active.getD []
  | 0x0011 => l.previous.getD []
  | 0x0012 => l.staging
  | 0x0013 => Config.keysBytes l.keys
  | 0x0020 => Config.profileBytes (ledProfile inst s)
  | 0x0021 => Config.lockBytes l.profLock
  | 0x0031 => (match tget s.mem.pools inst with
    | some r => patrolBytes inst r.patrol.saved
    | none => [])
  | 0x0032 => (match tget s.mem.pools inst with
    | some r => reshapeBytes inst r.reshape
    | none => [])
  | 0x0038 => l.pairCfg
  | 0x0030 => if (tget s.mem.pools inst).isSome then Config.recordBytes typ inst (recordHolds typ inst s) else []
  | 0x0033 => if (tget s.mem.pools inst).isSome then Config.recordBytes typ inst (recordHolds typ inst s) else []
  | _ => Config.recordBytes typ inst (recordHolds typ inst s)

/-- LEDGER_READ (R419). -/
def execLedgerRead (s : State) : Res :=
  ok (asAdmin 0x98 (fun c x s =>
    let typ := arg x 40 2
    let inst := arg x 42 2
    if !recordExists typ inst then adminFail c 0x0002 0x0B01 s
    else
      let d := ((recordData typ inst s).drop (arg x 48 8)).take (bufLen x)
      finishCmd c 0 (BitVec.ofNat 32 d.length) (adminOut x d s)) s)

/-! ## LEDGER_SET (R421) -/

/-- The record type that an operand is. -/
def setType : SetRecord → Nat
  | .identity .. => 1
  | .portSplit .. => 2
  | .boot .. => 3
  | .cacheClasses .. => 4
  | .pairConfig _ => 0x38
  | .other => 0

/-- Mask table from a list of masks by class; a mask of all ones is the reset value. -/
def maskTable (l : List (BitVec 16)) : Tbl (BitVec 16) := (l.zipIdx.map (fun (m, n) => (n, m))).filter (fun e => e.2 != 0xFFFF)

/-- Check 4: the fields are valid for the record (05 R170; 07 R257). -/
def setValid (typ : Nat) (r : SetRecord) : Bool :=
  setType r == typ && (match r with
  | .identity c paired peer => !paired || c != peer
  | .portSplit ctx vec => decide (ctx % 4096 = 0 ∧ 4096 ≤ ctx ∧ ctx ≤ 258048 ∧ vec % 64 = 0 ∧ 64 ≤ vec ∧ vec ≤ 1984)
  | .boot _ _ => true
  | .cacheClasses ways lock _ => decide (ways.length = 15) && waysLeft (maskTable ways) lock
  | .pairConfig _ => true
  | .other => false)

/-- Whether every ring context of both ports is FREE, but for the admin rings, through which the operation itself comes
(check 6; log entry 42). -/
def ringsFree (s : State) : Bool :=
  s.rings.all (fun e => e.1 == ringFirst 0 s || e.1 == ringFirst 0 s + 1 ||
    (s.dev.bifurcated && (e.1 == ringFirst 1 s || e.1 == ringFirst 1 s + 1)))

/-- A new identity: the pair state starts anew when the pairing changes (10 R361). -/
def setIdentity (cohort : Nat) (paired : Bool) (peer : Nat) (s : State) : State :=
  let l := s.led
  let changed := paired != l.paired || (paired && (peer != l.peer || cohort != l.cohort))
  let s := if changed then endPairing false (leavePaired s) else s
  let s := { s with led.cohort := cohort, led.paired := paired, led.peer := peer }
  if !changed then s
  else
    let fresh : PairSt := { st := s.pair.st, linkUp := s.pair.linkUp, linkSeen := s.pair.linkSeen, width := s.pair.width,
                            retrains := s.pair.retrains }
    let s := setPairSt (if paired then 1 else 0) { s with pair := fresh, dev.pairActive := paired && !s.dev.pairFence }
    if paired && s.pair.linkUp then sendHello s else s

/-- The record is written. -/
def setRecord (c : Nat) (r : SetRecord) (s : State) : State :=
  match r with
  | .identity n paired peer => adminOk c (ledCommit (setIdentity n.toNat paired peer.toNat s))
  | .portSplit ctx vec => adminOk c (ledCommit { s with led.splitCtx := ctx, led.splitVec := vec })
  | .boot v t =>
    adminOk c (ledCommit { s with led.bootVol := v.map Fin.val, led.bootVolNo := (v.map Fin.val).getD 0, led.retrain := t })
  | .cacheClasses ways lock vc =>
    adminOk c (ledCommit { s with led.ways := maskTable ways, led.lock := lock,
                                  led.volClass := (vc.foldl (fun t e => tset t (e.1 % 4096) e.2.val) []).filter (fun e => e.2 != 0) })
  | .pairConfig b => changeShared c false (.pairConfig b) s
  | .other => s

/-- The first failing check of R421. -/
def setBad (typ inst : Nat) (r : SetRecord) (s : State) : Option (BitVec 16 × Nat) :=
  if !recordExists typ inst then some (0x0002, 0x0B01)
  else if !settable typ then some (0x0002, 0x0B02)
  else if s.led.locked then some (0x0401, 0x0B03)
  else if !setValid typ r then some (0x0002, 0x0B04)
  else if typ == 1 && (match s.led.active with
      | some b => !(parseImage b).pools.isEmpty
      | none => false) then some (0x0005, 0x0B05)
  else if typ == 2 && !ringsFree s then some (0x0005, 0x0B06)
  else if commitsRefused s then some (0x0005, 0x0B07)
  else none

/-- LEDGER_SET (R421). -/
def execLedgerSet (r : SetRecord) (s : State) : Res :=
  ok (asAdmin 0x99 (fun c x s => match setBad (arg x 40 2) (arg x 42 2) r s with
    | some (st, why) => adminFail c st why s
    | none => setRecord c r s) s)

/-! ## The lock (R422; 06 R236; 15 R514, R517) -/

/-- LEDGER_LOCK. -/
def execLedgerLock (s : State) : Res :=
  ok (asAdmin 0x9A (fun c _ s => commitGate c (fun s =>
    if s.led.ownerKey.isNone then adminFail c 0x0005 0 s
    else adminOk c (ledCommit { s with led.locked := true })) s) s)

/-- LEDGER_UNLOCK: OP 5 unlocks, OP 8 releases the owner too; OP 9 is never accepted. -/
def execLedgerUnlock (data : List Byte) (s : State) : Res :=
  ok (asAdmin 0x9B (fun c x s =>
    let a := adminIn x data
    let release := leAt a 6 2 == 8
    withAuth c (if release then 8 else 5) [] a (fun s =>
      let s := authAccept a { s with led.locked := false }
      adminOk c (ledCommit (if release then { s with led.ownerKey := none } else s))) s) s)

/-! ## BOOT_VOL and PWR_CTL (R422 to R424) -/

/-- A write of BOOT_VOL: the boot volume of 06 R247, committed; discarded and counted while the ledger is locked. -/
def bootVol (v : Word) (s : State) : State :=
  if s.led.locked then countLockDiscard 0xB0020 s
  else if commitsRefused s then s
  else
    let n := fld v.toNat 11 0
    ledCommit { s with led.bootVol := if v.getLsbD 12 then some n else none, led.bootVolNo := n }

/-- BOOT_VOL_WRITE. -/
def execBootVolWrite (value : Word) (s : State) : Res := ok (barWrite 0 0xB0020 (bootVol value) s)

/-- A write of PWR_CTL. -/
def pwrCtl (v : Word) (s : State) : State :=
  if s.led.locked then countLockDiscard 0xC0008 s
  else if commitsRefused s then s
  else ledCommit { s with led.retrain := v.getLsbD 0 }

/-- RETRAIN_REQUEST. -/
def execRetrainRequest (value : Word) (s : State) : Res := ok (barWrite 0 0xC0008 (pwrCtl value) s)

end Sys2Proof.Machine
end

