-- ==== Sys2Proof/Machine/PlanRows.lean ====
section
/-! DEFINITION. Sys2Proof/Machine/PlanRows.lean: the commands of plan images, plan-signing keys and profiles (02). -/

namespace Sys2Proof.Machine

/-! ## Staging (06 R237) -/

/-- Why a chunk of image bytes is refused: not contiguous, or not a multiple of 4,096 bytes. -/
def chunkBad (off len staged : Nat) (last : Bool) : Option Nat :=
  if off != 0 && off != staged then some 0x0021
  else if !last && len % 4096 != 0 then some 0x0022
  else none

/-- PLAN_STAGE: a refused chunk discards the staging. -/
def execPlanStage (data : List Byte) (s : State) : Res :=
  ok (asAdmin 0x88 (fun c x s => commitGate c (fun s =>
    let d := adminIn x data
    let off := arg x 40 8
    let last := bitN (arg x 48 1) 0
    match chunkBad off d.length s.led.staging.length last with
    | some why => adminFail c 0x0002 why (ledCommit { s with led.staging := [], led.stagingLast := false })
    | none =>
      let l := if off = 0 then d else s.led.staging ++ d
      adminOk c (ledCommit { s with led.staging := l, led.stagingLast := last })) s) s)

/-! ## Commit and switch (R49 to R53) -/

/-- PLAN_COMMIT. -/
def execPlanCommit (s : State) : Res :=
  go (asAdmin 0x89 (fun c _ s => commitGate c (fun s =>
    if !s.led.stagingLast then adminFail c 0x0005 0x0023 s
    else match stagedBad s with
      | some (st, why) => adminFail c st why s
      | none => changeShared c true (.planImage s.led.staging) s) s) s)

/-- The admin operation that waited on a switch or a quiesce completes. -/
def endWait (s : State) : State :=
  match s.plan.waiter with
  | some c => finishCmd c 0 0 { s with plan.waiter := none }
  | none => s

/-- The switch of R52, once every operation that has started is done. -/
def planSwitch (s : State) : State :=
  match s.plan.switching, s.led.active with
  | true, some b =>
    if opsStarted s then s
    else
      let s := bindJnl (meetMembers (loadImage b { s with plan.switching := false }))
      placeHeld (jointApplied (endWait (startCkpt s)))
  | _, _ => s

/-- PLAN_SWITCH (R52). -/
def execPlanSwitch (s : State) : Res := go (planSwitch s)

/-! ## Plan-signing keys (R47, R48, R549) -/

/-- First 8 bytes of the hash of a key. -/
def keyTag (k : List Byte) : List Byte := padTo 8 (Config.sha256 k)

/-- Run a key operation under the rules of R47: without an owner no authorisation is needed. `f` takes the authorisation
sequence that the effect accepts. -/
def keyAuth (c op : Nat) (av a : List Byte) (f : Option Nat → State → State) (s : State) : State :=
  if s.led.ownerKey.isNone then f none s else withAuth c op av a (f (some (authSeqOf a))) s

/-- A key operation that changes nothing; an authorisation is used up all the same. -/
def keyUnchanged (c : Nat) (auth : Option Nat) (s : State) : State :=
  finishCmd c 0 1 (match auth with
    | some n => ledCommit { s with led.authSeq := n, sec.accepted := sat32 s.sec.accepted 1 }
    | none => s)

/-- PLAN_KEY_INSTALL (R549). -/
def execPlanKeyInstall (data : List Byte) (s : State) : Res :=
  ok (asAdmin 0x8A (fun c x s =>
    let d := adminIn x data
    let k := d.take 64
    keyAuth c 6 ((Config.sha256 k).take 24) (d.drop 64) (fun auth s =>
      if s.led.keys.contains k then keyUnchanged c auth s
      else if s.led.keys.any (fun y => keyTag y == keyTag k) then adminFail c 0x0002 0x0015 s
      else if 4 ≤ s.led.keys.length then adminFail c 0x0005 0x0012 s
      else commitGate c (fun s => changeShared c false (.planKeys (s.led.keys ++ [k])) s auth) s) s) s)

/-- PLAN_KEY_REMOVE (R48, R549). -/
def execPlanKeyRemove (data : List Byte) (s : State) : Res :=
  ok (asAdmin 0x8B (fun c x s =>
    let h := slice x.entry 40 8
    keyAuth c 7 h (adminIn x data) (fun auth s =>
      match s.led.keys.find? (fun y => keyTag y == h) with
      | none => adminFail c 0x0002 0x0013 s
      | some k =>
        if (s.led.active.map imgSigner) == some (Config.sha256 k) then adminFail c 0x0002 0x0014 s
        else commitGate c (fun s => changeShared c false (.planKeys (s.led.keys.filter (· != k))) s auth) s) s) s)

/-! ## Profiles (R66 to R73) -/

/-- PROFILE_READ. -/
def execProfileRead (s : State) : Res :=
  ok (asAdmin 0xA0 (fun c x s =>
    let n := arg x 40 1
    if 4 ≤ n then adminFail c 0x0002 0 s
    else adminOk c (adminOut x (padTo 512 (Config.profileBytes (ledProfile n s))) s)) s)

/-- PROFILE_WRITE (R66, R69). -/
def execProfileWrite (p : Profile) (s : State) : Res :=
  go (asAdmin 0xA1 (fun c x s =>
    let n := arg x 40 1
    if s.led.locked then adminFail c 0x0401 0 s
    else if decide (4 ≤ n) || !profileOk p then adminFail c 0x0002 0 s
    else commitGate c (changeShared c (s.dev.profile.toNat == n || (pairUp s && s.pair.peerProfile == n)) (.profile (Fin.ofNat 4 n) p)) s) s)

/-- PROFILE_SELECT (R70, R71). -/
def execProfileSelect (s : State) : Res :=
  go (asAdmin 0xA2 (fun c x s =>
    let n := arg x 40 1
    if s.led.profLock.isSome then adminFail c 0x0401 0 s
    else if 4 ≤ n then adminFail c 0x0002 0 s
    else changeShared c true (.profileInForce (Fin.ofNat 4 n)) s) s)

/-- PROFILE_LOCK (R68; 15 R514). -/
def execProfileLock (data : List Byte) (s : State) : Res :=
  ok (asAdmin 0xA3 (fun c x s =>
    let n := arg x 40 1
    let clear := bitN (arg x 41 1) 0
    if 4 ≤ n then adminFail c 0x0002 0 s
    else
      let a := adminIn x data
      withAuth c 3 (slice x.entry 40 2) a (fun s =>
        changeShared c false (.profileLock (if clear then none else some (Fin.ofNat 4 n))) s (some (authSeqOf a))) s) s)

/-- The quiesce of R70 ends: every operation that has started stage 5 has passed stage 9, or 1 s has passed. The new values
and GATE_CTL come into force, and intake resumes. In a joint quiesce before its commit it is the module's own part that ends
(10 R374 step 2). -/
def quiesceApply (s : State) : State :=
  match s.plan.quiesceSince, s.plan.nextProfile with
  | some t, some n =>
    let s := if opsStarted s then timeTo (t + 1000000) s else s
    let s := setCap (putProfile n { s with plan.quiesceSince := none, plan.nextProfile := none })
    placeHeld (jointApplied (endWait s))
  | _, _ => match s.pair.jq with
    | some q => if q.bounded && !q.ownDone then quiesceOwn (timeTo (q.since + 1000000) s) else s
    | none => s

/-- PROFILE_QUIESCE_APPLY (R70). -/
def execProfileQuiesceApply (s : State) : Res := go (quiesceApply s)

end Sys2Proof.Machine
end

