-- ==== Sys2Proof/Machine/Flags.lean ====
section
/-! DEFINITION. Sys2Proof/Machine/Flags.lean: every BAR0 register as a function of the state: what a read of it returns (00
R2, R4, R6; the register tables of 01, 03, 05, 07, 08 and 10 to 15). A field in a unit coarser than the state's rounds
down, unless its table says otherwise (log entry 44). -/

namespace Sys2Proof.Machine

/-- A register from its fields: (lowest bit, width, value); reserved bits read 0 (00 R3). -/
def fields (l : List (Nat × Nat × Nat)) : Nat := (l.map (fun (lo, w, v) => v % 2 ^ w * 2 ^ lo)).sum

/-- A value that its field saturates. -/
def sat (w v : Nat) : Nat := min v (2 ^ w - 1)

/-- A signed value in a field of some width, saturating. -/
def sgn (w : Nat) (v : Int) : Nat := (max (-(2 ^ (w - 1) : Nat) : Int) (min v ((2 ^ (w - 1) : Nat) - 1)) % (2 ^ w : Nat)).toNat

/-! ## Device identity and status (01 R35) -/

/-- The device block. -/
def devReg (p o : Nat) (s : State) : Nat :=
  let d := s.dev
  match o with
  | 0x00 => fields [(0, 16, 0x7128), (16, 8, 0x42), (24, 8, 0x41), (32, 18, s.led.cohort)]
  | 0x08 => fields [(0, 3, d.level.toNat), (3, 1, b2n d.ready), (4, 1, b2n (pairUp s)), (5, 1, b2n (d.ready && vaultOn s)),
      (6, 1, b2n (d.ready && cacheOn s)), (7, 1, b2n (decide (s.therm.target < 100))), (8, 2, d.profile.toNat),
      (10, 1, b2n s.fc.errLatch), (11, 1, p), (12, 5, (getPort p s).width)]
  | 0x10 => fields [(0, 8, 8), (8, 8, 32), (16, 8, 128), (24, 4, 4), (28, 4, 15), (32, 18, 0x3FFFF)]
  | 0x18 => fields [(0, 8, d.laneFence.toNat), (8, 4, d.ctrlFence.toNat), (12, 16, d.dramFence.toNat), (28, 16, d.groupFence.toNat),
      (44, 1, b2n d.vaultFence), (45, 1, b2n d.pairFence), (46, 1, b2n d.tagFence)]
  | 0x20 => fields [(0, 32, d.seqFence.toNat), (32, 16, d.hostFence.toNat)]
  | 0x28 => fields [(0, 8, d.laneAwake.toNat), (8, 16, d.groupAwake.toNat), (24, 4, d.coreAwake.toNat), (28, 1, b2n d.cacheActive),
      (29, 1, b2n (getPort p s).inL12), (30, 1, b2n d.pairActive)]
  | 0x30 => fields [(0, 1, b2n d.laneGateEn), (1, 1, b2n d.memberGateEn), (16, 16, d.idleUs), (32, 3, d.minLanes)]
  | 0x38 => fields [(0, 16, d.fwBuild), (16, 8, d.fwMinor), (24, 8, d.fwMajor), (32, 1, b2n d.fwSlot)]
  | _ => 0

/-! ## Pipeline and Fleist (03 R119) -/

/-- Operations that wait on the plan engine. -/
def schedWaits (s : State) : Nat := (s.pipe.ctxs.filter (fun e => e.2.inflight.any (fun f => f.2.schedWait.isSome))).length

/-- CTX_STATE.STATE: free, ready, stalled, ended. An occupied context whose program has not started, or whose operation runs
as a built-in procedure, reads as stalled (log entry 73). -/
def ctxCode (c : Option Ctx) (s : State) : Nat :=
  match c with
  | none => 0
  | some x => if x.run = .ended then 3 else if ctxReady x s then 1 else 2

/-- 64 bits of a bit list from number `b`. -/
def bits64 (l : List Nat) (b : Nat) : Nat := ((List.range 64).map (fun i => b2n (l.contains (b + i)) * 2 ^ i)).sum

/-- The pipeline block. -/
def pipeReg (o : Nat) (s : State) : Nat :=
  let k := s.pipe
  let c := ctxOf k.ctxSel s
  if o = 0x00 then fields [(0, 11, k.ctxs.length),
      (11, 1, b2n ((!k.held.isEmpty && (wakeable s).isNone) || intakeHeld s)),
      (12, 16, sat 16 (schedWaits s)), (28, 1, b2n (!s.plan.fencedDisp.isEmpty || !s.plan.fencedRout.isEmpty))]
  else if o = 0x08 then fields ((List.range 8).map (fun n => (8 * n, 8, laneOcc n s)))
  else if o = 0x10 then fields [(0, 32, sat 32 k.faults), (32, 32, sat 32 k.traps)]
  else if o = 0x18 then fields [(0, 8, k.lastCode), (8, 10, k.lastContext), (18, 17, k.lastPc), (35, 10, k.lastEntry),
      (45, 1, b2n k.lastRoutine), (46, 1, b2n k.lastValid)]
  else if 0x20 ≤ o ∧ o < 0xA0 then bits64 s.plan.fencedDisp ((o - 0x20) / 8 * 64)
  else if 0xA0 ≤ o ∧ o < 0xC0 then bits64 s.plan.fencedRout ((o - 0xA0) / 8 * 64)
  else if o = 0xC0 then k.ctxSel
  else if o = 0xC8 then
    let x := c.getD { op := 0 }
    fields [(0, 2, ctxCode c s), (2, 17, x.pc), (19, 10, x.entry), (29, 1, b2n x.routine), (30, 1, b2n x.jnl.isSome),
      (31, 16, x.pending.toNat), (47, 3, x.stack.length)]
  else if 0x100 ≤ o ∧ o < 0x180 then (match c with
    | some x => (tgetD x.slots ((o - 0x100) / 8) 0).toNat
    | none => 0)
  else 0

/-! ## Rings (05 R207, R216) -/

/-- The code of a ring state. -/
def RingSt.code : RingSt → Nat
  | .free => 0 | .active => 1 | .draining => 2 | .idle => 3 | .error => 4

/-- Whether the next entry of a submission ring waits as a fenced one (R183). -/
def ringFenced (v : Ring) : Bool :=
  v.head != v.tail && v.open_ != 0 && (match entryOf v v.head with
    | some e => entFence e
    | none => false)

/-- The ring that RING_SEL selects; none where it is FREE or outside the port. -/
def selRing (p : Nat) (s : State) : Option Ring :=
  let r := (getPort p s).ringSel
  if ringIn p r s && (ringOf r s).st != .free then some (ringOf r s) else none

/-- RING_STATE, RING_COUNTERS and RING_CHARGE of a ring. -/
def ringReg (o : Nat) (v : Ring) (s : State) : Nat :=
  match o with
  | 0x30 =>
    let sub := v.typ = 0
    fields [(0, 3, v.st.code), (3, 2, v.typ), (5, 1, b2n v.pushEn),
      (6, 1, b2n (sub && decide (capOf (ringOf v.bind s) s ≤ (ringOf v.bind s).charge))), (7, 1, b2n (sub && ringFenced v)),
      (8, 1, b2n v.push0.isSome), (9, 1, b2n v.push1.isSome), (10, 4, v.cause), (14, 18, if sub then v.bind else 0),
      (32, 11, if sub then 0 else v.vector), (43, 1, b2n (!sub && v.intEn)), (44, 5, v.log2)]
  | 0x38 => fields [(0, 32, v.head.toNat), (32, 32, v.tail.toNat)]
  | _ => if v.typ = 0 then 0 else fields [(0, 17, v.charge), (17, 17, capOf v s), (34, 17, v.stash.length)]

/-- Entries of all stash queues. -/
def stashUsed (s : State) : Nat := (s.rings.map (fun e => e.2.stash.length)).sum

/-- Half of an MSI-X table entry of a port: address, or data and vector control. -/
def msixReg (p o : Nat) (s : State) : Nat :=
  if vectors p s ≤ o / 16 then 0
  else
    let e := tgetD (getPort p s).msix (o / 16) {}
    if o % 16 < 8 then e.addr.toNat else fields [(0, 32, e.data.toNat), (32, 1, b2n e.masked)]

/-- 64 pending bits of a port. -/
def pbaReg (p o : Nat) (s : State) : Nat :=
  ((List.range 64).map (fun i => b2n (tgetD (getPort p s).msix (o * 8 + i) {}).pend * 2 ^ i)).sum

/-- The rings block. -/
def ringsReg (p o : Nat) (s : State) : Nat :=
  let q := getPort p s
  let last := if p = 1 && !s.dev.bifurcated then 0 else ringEnd p s - 1
  match o with
  | 0x00 => fields [(0, 18, ringFirst p s), (18, 18, last), (36, 12, vectors p s)]
  | 0x08 => q.adminSqBase
  | 0x10 => q.adminCqBase
  | 0x18 => fields [(0, 1, b2n q.en), (1, 1, b2n q.pushEn), (4, 4, q.sqLog2), (8, 4, q.cqLog2)]
  | 0x20 =>
    let f := ringFirst p s
    fields [(0, 1, b2n ((ringOf f s).st == .active && (ringOf (f + 1) s).st == .active)), (1, 1, b2n q.adminErr),
      (2, 1, b2n q.adminDraining)]
  | 0x28 => q.ringSel
  | 0x48 => fields [(0, 21, stashUsed s), (21, 21, capSum s)]
  | 0x50 => fields [(0, 32, q.pushAccept), (32, 32, q.pushDiscard)]
  | 0x58 => fields [(0, 32, q.stale), (32, 32, q.dbErrors)]
  | 0x60 => fields [(0, 18, q.errRing), (18, 4, q.errCause), (22, 1, b2n q.errValid)]
  | _ =>
    if o = 0x30 ∨ o = 0x38 ∨ o = 0x40 then ((selRing p s).map (fun v => ringReg o v s)).getD 0
    else if 0x7000 ≤ o ∧ o < 0x7100 then pbaReg p (o - 0x7000) s
    else if 0x8000 ≤ o ∧ o < 0x10000 then msixReg p (o - 0x8000) s
    else 0

/-! ## Cache (07 R296) -/

/-- A lost-write record's 128 bits (R294). -/
def lostWBits (k : Nat) (r : LostW) : Nat :=
  fields [(0, 43, k % 2 ^ 43), (43, 3, k / 2 ^ 43), (48, 16, r.mask.toNat), (64, 12, r.volume), (76, 4, r.reason), (96, 32, r.opSeconds)]

/-- The lost-write list in its order, by pool and line (R294); a record of a reshape's target layout follows one of the source that has
its line's number. -/
def lostWList (s : State) : Tbl (Nat × LostW) :=
  s.cache.lostW.foldl (fun t (k, r) => tset t ((k / 2 ^ 43 % 8 * 2 ^ 43 + k % 2 ^ 43) * 2 + k / 2 ^ 43 / 8) (k, r)) []

/-- The lost-write record that LOSTW_SEL selects. -/
def selLostW (s : State) : Nat := match (lostWList s)[s.cache.lostSel]? with
  | some (_, k, r) => lostWBits k r
  | none => 0

/-- The cache block. -/
def cacheReg (o : Nat) (s : State) : Nat :=
  let c := s.cache
  let j := s.jnl
  if o = 0x00 then fields [(0, 23, dirtySectors s), (23, 7, c.capUnits), (30, 7, c.energyUnits), (37, 7, (prof s).dirtyCapLimit),
      (44, 1, b2n (capReached s)), (45, 1, b2n c.unnamedLoss), (46, 1, b2n c.anchorDegraded), (47, 1, b2n c.frozen)]
  else if o = 0x08 then fields [(0, 21, (c.tags.filter (fun e => e.2.holds)).length), (21, 21, dirtyLines s), (42, 14, evictions s)]
  else if 0x40 ≤ o ∧ o < 0xC0 then (waysOf ((o - 0x40) / 8) s).toNat
  else if o = 0xC0 then c.lock.toNat
  else if o = 0xC8 then fields [(0, 48, c.invLba), (48, 12, c.invVol)]
  else if o = 0xD0 then fields [(0, 17, c.invCount), (33, 1, b2n c.invBusy), (34, 1, b2n c.invDone), (35, 1, b2n c.invErr)]
  else if o = 0xD8 then fields [(0, 32, c.dramCorr), (32, 32, c.dramUnc)]
  else if o = 0xE0 then fields [(0, 32, c.tagParity), (32, 32, c.shadowRep)]
  else if o = 0x100 then fields [(0, 11, openEntries s), (11, 1, b2n (mirroring s))]
  else if o = 0x108 then j.nextSeq % 2 ^ 64
  else if o = 0x110 then fields [(0, 27, j.marked.length), (32, 27, j.resync.length)]
  else if o = 0x118 then fields [(0, 32, sat 32 ((s.now - j.lastCkpt.getD s.pow.goodAt) / 1000000)), (32, 32, j.ckptSeq)]
  else if 0x120 ≤ o ∧ o < 0x138 then (match tget j.anchors ((o - 0x120) / 8) with
    | some a => fields [(0, 7, a.slot), (7, 3, a.pool), (10, 1, b2n a.valid), (11, 7, a.port % 128)]
    | none => 0)
  else if o = 0x138 then fields ((List.range 8).map (fun n => (5 * n, 5, tgetD j.shift n 0)))
  else if o = 0x140 then fields [(0, 21, c.lostW.length), (21, 25, (c.lostW.map (fun e => (secsOf e.2.mask).length)).sum)]
  else if o = 0x148 then c.lostSel
  else if o = 0x150 then selLostW s % 2 ^ 64
  else if o = 0x158 then selLostW s / 2 ^ 64
  else if 0x1000 ≤ o ∧ o < 0x1800 then fields ((List.range 16).map (fun i => (4 * i, 4, classOf ((o - 0x1000) / 8 * 16 + i) s)))
  else 0

/-! ## Pools and members (08 R303, R330) -/

/-- The state code of a port (R303). -/
def portCode (n : Nat) (s : State) : Nat :=
  match (mport n s).cls with
  | .absent => 0
  | .unclassified => 1
  | .foreign _ => 1
  | .serving p k => (slotRec p k s).st.code
  | .retired => 7
  | .stale _ _ => 4

/-- The reason that PORT_INFO shows: of a FOREIGN member, or the slot's; STALE for a stale label. -/
def portReason (n : Nat) (s : State) : Nat :=
  match (mport n s).cls with
  | .foreign r => r
  | .serving p k => (slotRec p k s).reason
  | .retired => (match (mport n s).label with
    | some b => (slotRec (byteAt b 24) (byteAt b 25) s).reason
    | none => 0)
  | .stale _ _ => 0x14
  | _ => 0

/-- PORT_INFO. -/
def portInfo (n : Nat) (s : State) : Nat :=
  let m := mport n s
  let b := m.label.getD []
  fields [(0, 4, portCode n s), (4, 8, portReason n s), (12, 3, byteAt b 24), (15, 7, byteAt b 25), (22, 1, b2n m.label.isSome),
    (23, 2, m.width), (25, 1, b2n m.linkUp)]

/-- Progress of the present restore, or else of the rebuild. -/
def movePercent (p : Nat) (s : State) : Nat :=
  match (poolRec p s).slots.find? (fun e => e.2.st == .rebuilding) with
  | some e => min 100 (e.2.restore * 100 / max 1 (poolEnt p s).bands)
  | none => rebuildPercent p s

/-- The SLOT_ registers. -/
def slotReg (o p n : Nat) (s : State) : Nat :=
  let r := slotRec p n s
  match o with
  | 0x20 => fields [(0, 4, r.st.code), (4, 8, r.reason), (12, 7, slotPort p n s), (19, 2, slotWidth p n s), (21, 1, b2n r.commitPending)]
  | 0x28 => r.restore % 2 ^ 48
  | 0x30 => fields [(0, 8, sat 8 r.pctUsed), (8, 32, r.eol), (40, 8, r.critWarn.toNat), (48, 16, r.tempK)]
  | 0x38 => fields [(0, 16, sat 16 (maxMs r s)), (16, 4, sat 4 (marksNow r s).length), (20, 8, sat 8 (lastDay r.suspects s).length)]
  | _ => fields [(0, 16, sat 16 (lastDay r.readErrs s).length), (16, 16, sat 16 (lastDay r.tagFails s).length),
      (32, 32, sat 32 r.readErrTotal)]

/-- The pools and members block. -/
def poolReg (o : Nat) (s : State) : Nat :=
  let m := s.mem
  if o = 0x00 then m.poolSel
  else if o = 0x08 then poolState m.poolSel s
  else if o = 0x10 then fields [(0, 9, (cellsInMotion m.poolSel s).length), (9, 16, sat 16 (cellsWaiting m.poolSel s)),
      (25, 7, movePercent m.poolSel s), (32, 3, (prof s).rebuildPriority)]
  else if o = 0x18 then m.slotSel
  else if 0x20 ≤ o ∧ o ≤ 0x40 then slotReg o m.poolSel m.slotSel s
  else if o = 0x48 then fields [(0, 22, m.lostE.length), (22, 1, b2n (decide (lostEMax ≤ m.lostE.length)))]
  else if 0x80 ≤ o ∧ o < 0xC0 then fields ((List.range 16).map (fun i => (4 * i, 4, portCode ((o - 0x80) / 8 * 16 + i) s)))
  else if o = 0xC0 then m.portSel
  else if o = 0xC8 then portInfo m.portSel s
  else 0

/-! ## Pair (10 R387) -/

/-- PAIR_ROLE.ROLE_n (R363). -/
def pairRole (p : Nat) (s : State) : Nat :=
  if !pairPool p s then 0
  else if s.pair.detached.contains p then 3
  else if (poolRec p s).owner = s.led.cohort then 1
  else 2

/-- The pair block. -/
def pairReg (o : Nat) (s : State) : Nat :=
  let r := s.pair
  let arb (p k : Nat) : Nat := if pairPool p s then (poolRec p s).arbs.getD k 0 else 0
  match o with
  | 0x00 => fields [(0, 4, r.st), (4, 18, s.led.peer), (22, 1, b2n r.linkUp), (23, 1, b2n r.mismatch),
      (24, 1, b2n ((List.range 8).any (fun p => ackHold p s && owns p s))), (25, 7, r.peerCap), (32, 32, s.led.pairEpoch)]
  | 0x08 => fields ((List.range 8).map (fun n => (2 * n, 2, pairRole n s)) ++
      (List.range 8).map (fun n => (16 + n, 1, b2n (r.gaps.any (fun g => g.1 % 8 == n)))))
  | 0x10 => fields [(0, 32, r.hbTx.toNat), (32, 32, r.hbRx.toNat)]
  | 0x18 => fields [(0, 4, r.width), (16, 16, sat 16 r.retrains), (32, 32, sat 32 r.suspects)]
  | 0x20 => fields [(8, 8, r.ctlPools.toNat)]
  | 0x28 => fields [(0, 3, r.xferPool.toNat), (4, 1, b2n (r.xfer != .none)), (5, 1, b2n r.xferDone), (6, 1, b2n r.xferErr),
      (8, 16, r.xferReason.toNat)]
  | 0x30 => fields [(0, 8, r.takePools.toNat), (8, 16, sat 16 r.takeConfirm), (24, 16, sat 16 r.takeServe), (40, 1, b2n r.takeForced),
      (41, 1, b2n r.takeValid)]
  | _ =>
    if 0x40 ≤ o ∧ o < 0x80 then
      let p := (o - 0x40) / 8
      fields [(0, 7, arb p 0), (7, 7, arb p 1), (14, 7, arb p 2), (21, 1, b2n (pairPool p s))]
    else 0

/-! ## Energy (12 R449) -/

/-- A fraction in units of 1/`k`, rounded down, saturating in a field. -/
def units (k w : Nat) (f : Frac) : Nat := sat w (f.mul (frac k 1)).floor.toNat

/-- The lower bound on s (12 R445). -/
def socLo (s : State) : Frac := match s.pack.soc with
  | some x => (x.sub s.pack.unc).min (frac 95 100)
  | none => fzero

/-- Operating seconds since the last anchor. -/
def restAge (s : State) : Nat := match s.pack.anchorAt with
  | some t => sat 20 (opSeconds s - t)
  | none => 0xFFFFF

/-- LEARN_STATE. -/
def LearnPh.code : LearnPh → Nat
  | .idle => 0 | .destaging => 1 | .discharging => 2 | .resting => 3

/-- The energy block. -/
def packReg (o : Nat) (s : State) : Nat :=
  let k := s.pack
  let id := k.identity.getD []
  match o with
  | 0x00 => fields [(0, 1, b2n (!k.absent)), (1, 1, b2n k.unproven), (2, 1, b2n k.proposed), (3, 2, k.learn.code), (5, 1, b2n k.atRest),
      (6, 1, b2n k.chgInh), (7, 1, b2n k.draw), (8, 1, b2n ((k.meas.map (·.chgStat)).getD false)), (9, 1, b2n k.tempFault),
      (10, 1, b2n k.overvolt), (11, 1, b2n k.clipped), (16, 8, idChem id), (24, 4, idCells id)]
  | 0x08 => (match k.meas with
    | some m => fields [(0, 16, sat 16 m.vMv), (16, 16, sgn 16 (Int.tdiv m.iUa 1000)), (32, 8, sat 8 (m.tQ / 4 + 64).toNat)]
    | none => 0)
  | 0x10 => fields [(0, 10, units 1000 10 (k.soc.getD fzero)), (10, 10, units 1000 10 k.unc), (20, 10, units 1000 10 (socLo s)),
      (30, 20, restAge s)]
  | 0x18 => fields [(0, 24, units 1000 24 (capQ s)), (24, 10, min 1000 (units 1000 10 (capU s))), (34, 16, units 1000 16 k.rho)]
  | 0x20 => fields [(0, 16, sat 16 (tenths k.eCert)), (16, 16, if k.learn = .idle then 0 else sat 16 (tenths k.eLearn)),
      (32, 16, units 1000 16 k.rOhm)]
  | 0x28 => fields [(0, 32, k.learnAt), (32, 8, sat 8 k.fails), (40, 4, k.lastResult)]
  | 0x30 => fields [(0, 32, units 100 32 k.cycles)]
  | _ => 0

/-! ## Temperature, ageing and clocks (13 R471; 11 R404) -/

/-- The highest level that a region holds. -/
def maxLevel (s : State) : Nat := ((List.range 15).map (fun r => levelOf r s)).foldl max 0

/-- Grace left on the earliest pending request, in 0.1 s, rounded up. -/
def graceLeft (s : State) : Nat :=
  match leastBy (fun r : ThrReq => r.at_) (s.therm.requests.filter (fun r => r.enforcedAt.isNone)) with
  | some r => sat 9 ((r.at_ + r.grace * 100000 - s.now + 99999) / 100000)
  | none => 0

/-- SENSOR_READ. -/
def sensorReg (n : Nat) (s : State) : Nat :=
  let rate : Int := match (rises n s).1 with
    | some d => d * 5
    | none => 0
  fields [(0, 12, sgn 12 (if s.therm.hist.isEmpty then 0 else sensorTj n s)), (12, 1, b2n (tget s.therm.broken n).isSome), (13, 1, b2n (s.therm.mask.getLsbD n)),
    (14, 2, tgetD s.therm.broken n 0), (16, 16, s.therm.counts.getD n 0), (32, 8, sgn 8 rate), (40, 4, regionOf n)]

/-- Operating hours until the next margin plan (13 R469). -/
def nextPlan (s : State) : Nat := s.therm.planHours + 720 - opSeconds s / 3600

/-- The thermal block. -/
def thermReg (p o : Nat) (s : State) : Nat :=
  let t := s.therm
  match o with
  | 0x00 => if t.hist.isEmpty then 0 else fields [(0, 8, tjByte (maxTj s).2), (8, 5, (maxTj s).1), (13, 2, maxLevel s),
      (15, 1, b2n (t.requests.any (·.rate)))]
  | 0x08 => fields ((List.range 15).map (fun r => (2 * r, 2, levelOf r s)) ++
      (List.range 15).map (fun r => (30 + r, 1, b2n (t.requests.any (fun q => q.region == r)))))
  | 0x10 => t.sensorSel
  | 0x18 => sensorReg t.sensorSel s
  | 0x20 => fields [(0, 32, bits64 (t.broken.map (·.1)) 0), (32, 32, t.mask.toNat)]
  | 0x28 => fields [(0, 7, t.target), (7, 9, graceLeft s), (16, 1, b2n (decide (t.target < 100))), (17, 2, t.clk),
      (20, 32, sat 32 t.enforcements)]
  | 0x30 => fields [(0, 1, b2n t.xtalOk), (1, 1, b2n t.rcTrimmed), (2, 1, b2n t.hostRef), (3, 1, b2n t.sysRef), (4, 1, b2n t.coreLock),
      (5, 1, b2n t.dramLock), (6, 16, t.groupLock.toNat), (22, 1, b2n (getPort p s).sris), (23, 12, coreMhz s), (35, 12, t.ceiling)]
  | 0x38 => fields [(0, 4, t.vid), (4, 4, t.planVid.getD Config.factoryVid.toNat), (8, 8, sat 8 t.slackMin), (16, 16, sat 16 t.steps)]
  | 0x40 => fields [(0, 16, sat 16 (t.twins.foldl max 0)), (16, 16, sat 16 (t.twins.sum / max 1 t.twins.length)), (32, 32, t.planHours)]
  | 0x48 => fields [(0, 2, t.refresh), (8, 8, t.scrubH), (16, 16, sat 16 (nextPlan s)), (32, 1, b2n t.planValid)]
  | _ => 0

/-- The retention assumption at 85 °C in hours (11 R404; 13 R469): from 3 months of a new vault to 1 month at the end of its
life, by the wear fraction. -/
def retention (s : State) : Nat :=
  (((frac 3 1).sub ((frac 2 1).mul (s.therm.wear.min fone))).mul (frac Config.monthHours 1)).floor.toNat

/-! ## Fault collector (14 R504) and event recorder (R505) -/

/-- Cycles of the 2.0 GHz count since chip reset. -/
def cycles (s : State) : Nat := (s.now - s.fc.cycBase) * 2000

/-- The collector's block. -/
def fcReg (p o : Nat) (s : State) : Nat :=
  let f := s.fc
  let c := cfgOf f.sel s
  let n := tgetD f.cnt f.sel {}
  if o = 0x00 then fields [(0, 10, f.last.src), (10, 6, f.last.kind), (16, 10, f.lastSevere), (26, 1, b2n (!f.severe.isEmpty)),
      (27, 1, b2n f.errLatch), (28, 1, b2n f.creset), (32, 32, sat 32 f.messages)]
  else if o = 0x08 then (msgWord f.last).toNat
  else if 0x40 ≤ o ∧ o < 0xC0 then bits64 f.sticky ((o - 0x40) / 8 * 64)
  else if 0xC0 ≤ o ∧ o < 0x140 then bits64 f.severe ((o - 0xC0) / 8 * 64)
  else if o = 0x148 then f.sel
  else if o = 0x150 then fields [(0, 6, c.ordinary.toNat), (8, 6, c.severe.toNat), (16, 16, c.n), (32, 16, c.w)]
  else if o = 0x158 then c.immed.toNat
  else if o = 0x160 then fields [(0, 16, sat 16 n.count), (16, 16, sat 16 n.shadow), (32, 32, sat 32 n.total)]
  else if o = 0x170 then bits64 (f.resets.map (·.1)) 0
  else if o = 0x178 then fields [(0, 48, cycles s), (48, 1, b2n (decide (f.cycWraps < cycles s / 2 ^ 48)))]
  else if o = 0x180 then fields [(0, 11, if p = 0 then f.vector0 else f.vector1), (11, 1, b2n (if p = 0 then f.intEn0 else f.intEn1))]
  else 0

/-- The recorder's block. -/
def evtReg (o : Nat) (s : State) : Nat :=
  let e := s.evr
  if o = 0x00 then fields [(0, 21, e.log.length), (21, 1, b2n e.full), (22, 1, b2n e.memFailed), (23, 9, e.staging.length), (32, 32, e.nextSeq)]
  else if o = 0x08 then fields [(0, 32, e.firstSeq), (32, 32, sat 32 e.notLogged)]
  else if o = 0x10 then fields [(0, 32, opSeconds s), (32, 24, e.powerCycles), (56, 1, b2n e.fromLog)]
  else if o = 0x18 then (e.hostTime.getD (0, 0)).1 % 2 ^ 64
  else if o = 0x20 then fields [(0, 32, (e.hostTime.getD (0, 0)).2), (32, 1, b2n e.hostTime.isSome), (33, 1, b2n e.backwards)]
  else if o = 0x30 then e.lastWords.length
  else if 0x40 ≤ o ∧ o < 0xC0 then (match e.lastWords[(o - 0x40) / 16]? with
    | some w => if o % 16 < 8 then (msgWord w.msg).toNat else fields [(0, 32, w.opSeconds), (32, 24, w.powerCycles)]
    | none => 0)
  else 0

/-! ## Security (15 R525) -/

/-- The security block. -/
def secReg (o : Nat) (s : State) : Nat :=
  let x := s.sec
  match o with
  | 0x00 => fields [(0, 8, x.arb), (8, 8, x.fwSvn), (16, 4, x.revoked.toNat), (20, 2, x.fwKey), (22, 1, b2n s.led.ownerKey.isSome),
      (23, 1, b2n (!x.signing.isEmpty)), (24, 1, b2n x.fuseFail)]
  | 0x48 => s.led.authSeq % 2 ^ 64
  | 0x50 => fields [(0, 32, x.accepted), (32, 32, x.refused)]
  | 0x58 => fields [(0, 8, x.eid.toNat), (8, 7, x.addr), (15, 1, b2n x.fast), (16, 1, b2n (s.port0.vdm || s.port1.vdm)),
      (17, 8, x.recvEid.toNat), (25, 1, b2n x.recvEn)]
  | 0x60 => Config.ianaNumber.toNat
  | _ =>
    if 0x08 ≤ o ∧ o < 0x28 then leAt (padTo 32 identityHash) (o - 0x08) 8
    else if 0x28 ≤ o ∧ o < 0x48 then leAt (padTo 32 (ownerHash s)) (o - 0x28) 8
    else 0

/-! ## Ledger (11 R423), power and boot (R424) -/

/-- The record types of the ledger (R419). -/
def recordTypes : List Nat :=
  [1, 2, 3, 4, 0x10, 0x11, 0x12, 0x13, 0x20, 0x21, 0x30, 0x31, 0x32, 0x33, 0x38, 0x40, 0x41, 0x42, 0x50, 0x51, 0x60]

/-- Lengths of the records that the directory in force lists. -/
def recordLens (s : State) : List Nat :=
  (recordTypes.flatMap (fun t => (List.range (instances t)).map (fun i => (recordData t i s).length))).filter (· != 0)

/-- Bytes of the ledger region in use (R416): two directory copies of 32,832 bytes and every record, in units of 4 KiB. -/
def ledgerBytes (s : State) : Nat := 2 * 36864 + ((recordLens s).map (fun n => (n + 4095) / 4096 * 4096)).sum

/-- The ledger block. -/
def ledReg (o : Nat) (s : State) : Nat :=
  let l := s.led
  match o with
  | 0x00 => fields [(0, 1, b2n l.locked), (1, 1, b2n l.ownerKey.isSome), (2, 1, b2n l.fallback), (3, 1, b2n l.damaged),
      (4, 1, b2n s.evr.memFailed), (5, 1, b2n s.cache.unnamedLoss), (6, 1, b2n l.profLock.isSome), (7, 2, l.profLock.getD 0),
      (9, 2, s.pow.boot.profileSel.toNat), (11, 1, b2n (commitsRefused s)), (32, 32, l.discards)]
  | 0x08 => l.seq % 2 ^ 64
  | 0x10 => fields [(0, 27, ledgerBytes s), (27, 12, (recordLens s).length)]
  | 0x18 => fields [(0, 20, l.lastDiscard), (20, 1, b2n l.discardValid)]
  | 0x20 => fields [(0, 12, l.bootVolNo), (12, 1, b2n l.bootVol.isSome)]
  | _ => 0

/-- PWR_STATUS.FLUSH_STATE. -/
def flushCode (s : State) : Nat := match s.pow.ph with
  | .flush => 1
  | .flushed => 2
  | .coldStopped => 3
  | _ => 0

/-- The power and boot block. -/
def pwrReg (o : Nat) (s : State) : Nat :=
  let w := s.pow
  match o with
  | 0x00 => fields [(0, 1, b2n w.pfail), (1, 1, b2n w.hold), (2, 2, flushCode s), (4, 1, b2n (vaultHot s)), (5, 3, w.bootCause),
      (8, 1, b2n w.restoring), (9, 1, b2n (s.dev.ready && vaultOn s)), (10, 1, b2n s.dev.vaultFence)]
  | 0x08 => b2n s.led.retrain
  | 0x10 => fields [(0, 16, sat 16 w.readyMs), (16, 16, sat 16 w.ledgerMs), (32, 16, sat 16 w.planMs), (48, 16, sat 16 w.restoreMs)]
  | 0x18 => fields [(0, 23, w.lastSectors), (23, 23, w.lastClean), (46, 2, w.lastResult), (48, 16, sat 16 w.lastMs)]
  | 0x20 => fields [(0, 1, w.cur), (1, 1, b2n (halfErased (1 - w.cur) s)), (2, 17, halfFree w.cur s / 256),
      (19, 23, (w.index.filter (fun e => liveEntry e s)).length)]
  | 0x28 => fields [(0, 23, if s.dev.ready then restoreLeft s else 0), (23, 32, sat 32 w.pagedN)]
  | 0x30 => fields [(0, 16, sat 16 (max w.erases0 w.erases1)), (16, 16, sat 16 (w.bad0 + w.bad1)), (32, 32, retention s)]
  | 0x38 => w.flushSeq % 2 ^ 64
  | 0x40 => fields [(0, 32, w.mramCorr), (32, 32, w.mramUnc)]
  | _ => 0

/-! ## BAR0 -/

/-- The 64 bits at an 8-byte aligned offset of BAR0: a reserved block or an undefined offset reads 0 (00 R4). -/
def readReg (p off : Nat) (s : State) : Nat :=
  let o := off % 0x10000
  if !answers off s then 0
  else match off / 0x10000 with
    | 0x0 => devReg p o s
    | 0x1 => ringsReg p o s
    | 0x2 => cacheReg o s
    | 0x3 => poolReg o s
    | 0x4 => pipeReg o s
    | 0x5 => pairReg o s
    | 0x6 => packReg o s
    | 0x7 => thermReg p o s
    | 0x8 => fcReg p o s
    | 0x9 => evtReg o s
    | 0xA => secReg o s
    | 0xB => ledReg o s
    | 0xC => pwrReg o s
    | _ => 0

/-- A read of BAR0 (00 R2): naturally aligned, of 32 or 64 bits; none for any other, and while the port's functions do not
answer (01 R30, R33). -/
def readBar (p off width : Nat) (s : State) : Option Word :=
  let v := readReg p (off / 8 * 8) s
  if !barUp p s then none
  else if width = 8 ∧ off % 8 = 0 then some (BitVec.ofNat 64 v)
  else if width = 4 ∧ off % 4 = 0 then some (BitVec.ofNat 64 (v / 2 ^ (off % 8 * 8) % 2 ^ 32))
  else none

/-- A read of BAR2, the doorbells (05 R189). -/
def readDoorbell (p : Nat) (s : State) : Option Word := if barUp p s then some 0 else none

/-- The vectors that PF0's MSI-X capability of a port reports (05 R170). -/
def msixVectors (p : Nat) (s : State) : Nat := vectors p s

/-- A PF1 controller register (01 R32; 06 R246, R248): CAP, VS, CC, CSTS, AQA, ASQ, ACQ at the offsets of the NVM Express Base
Specification (log entry 43). -/
def nvmeReg (p o : Nat) (s : State) : Nat :=
  let u := (getPort p s).pf1
  match o with
  | 0x00 => fields [(0, 16, 255), (16, 1, 1), (24, 8, 4), (37, 1, 1)]
  | 0x08 => 0x00020000
  | 0x10 => fields [(32, 32, u.cc.toNat)]
  | 0x18 => fields [(32, 1, b2n u.rdy), (33, 1, b2n u.cfs), (34, 2, if fld u.cc.toNat 15 14 = 0 then 0 else 2)]
  | 0x20 => fields [(32, 32, u.aqa.toNat)]
  | 0x28 => u.asqReg.toNat
  | 0x30 => u.acqReg.toNat
  | _ => 0

/-- Whether a port's PF1 answers memory requests: it does with no service too (01 R30). -/
def nvmeBarUp (p : Nat) (s : State) : Bool :=
  portThere p s && (s.pow.ph == .run || s.pow.ph == .boot || s.pow.ph == .noService) && s.dev.hostFence != 0xFFFF

/-- A read of PF1's BAR0, naturally aligned. -/
def readNvmeBar (p off width : Nat) (s : State) : Option Word :=
  let v := nvmeReg p (off / 8 * 8) s
  if !nvmeBarUp p s then none
  else if width = 8 ∧ off % 8 = 0 then some (BitVec.ofNat 64 v)
  else if width = 4 ∧ off % 4 = 0 then some (BitVec.ofNat 64 (v / 2 ^ (off % 8 * 8) % 2 ^ 32))
  else none

end Sys2Proof.Machine
end

