-- ==== Sys2Proof/Machine/Operands.lean ====
section
/-! DEFINITION. Sys2Proof/Machine/Operands.lean: writes of BAR0 registers (00 R2 to R8; the register tables), the command
REGISTER_WRITE. A register whose write has a row of its own takes the meaning of that row here too. -/

namespace Sys2Proof.Machine

/-! ## MSI-X table entries (05 R207, R209; PCI Express Base 6.0) -/

/-- `n` bytes at byte `o` of a 64-bit value replaced. -/
def mergeBytes (old o n v : Nat) : Nat :=
  leNat ((leBytes 8 old).take o ++ leBytes n v ++ (leBytes 8 old).drop (o + n))

/-- A write of half of a table entry: its address, or its data and vector control. A vector whose mask goes from 1 to 0 sends
the message that was pending. -/
def msixWrite (p o width v : Nat) (s : State) : State :=
  let n := o / 16
  if vectors p s ≤ n then s
  else
    let e := tgetD (getPort p s).msix n {}
    let m := mergeBytes (msixReg p (o / 8 * 8) s) (o % 8) width v
    let put (e : Msix) (s : State) : State := updPort p (fun q => { q with msix := tset q.msix n e }) s
    if o % 16 < 8 then put { e with addr := BitVec.ofNat 64 m } s
    else
      let s := put { e with data := BitVec.ofNat 32 m, masked := bitN m 32 } s
      if e.masked && !bitN m 32 then unmaskVector p n s else s

/-! ## Registers by block -/

/-- GATE_CTL (01 R35): an idle time of 0 is stored as 1. -/
def gateCtl (v : Nat) (s : State) : State :=
  keepLanes { s with dev := { s.dev with
    laneGateEn := bitN v 0, memberGateEn := bitN v 1, idleUs := max 1 (fld v 31 16), minLanes := fld v 34 32 } }

/-- The rings block (05 R216). -/
def ringsWrite (p o : Nat) (w : Word) (s : State) : State :=
  let v := w.toNat
  let q := getPort p s
  match o with
  | 0x08 => if q.en then s else setPort p { q with adminSqBase := v / 4096 * 4096 } s
  | 0x10 => if q.en then s else setPort p { q with adminCqBase := v / 4096 * 4096 } s
  | 0x18 => adminCtlWrite p w s
  | 0x20 => setPort p { q with adminErr := q.adminErr && !bitN v 1 } s
  | 0x28 => setPort p { q with ringSel := fld v 17 0 } s
  | 0x60 => setPort p { q with errValid := q.errValid && !bitN v 22 } s
  | _ => s

/-- VOL_CLASSn (07 R296): a class of 15 is stored as 0. -/
def volClasses (n v : Nat) (s : State) : State :=
  (List.range 16).foldl (fun s i =>
    let c := fld v (4 * i + 3) (4 * i)
    { s with cache.volClass := tset s.cache.volClass (16 * n + i) (if c = 15 then 0 else c) }) s

/-- The cache block (07 R296). -/
def cacheWrite (o : Nat) (w : Word) (s : State) : State :=
  let v := w.toNat
  if o = 0x00 then (if bitN v 45 then clearUnnamed s else s)
  else if 0x40 ≤ o ∧ o < 0xC0 then wayMask (some (Fin.ofNat 16 ((o - 0x40) / 8))) w s
  else if o = 0xC0 then wayMask none w s
  else if o = 0xC8 then { s with cache.invLba := fld v 47 0, cache.invVol := fld v 59 48 }
  else if o = 0xD0 then invCtl w s
  else if o = 0x148 then { s with cache.lostSel := fld v 19 0 }
  else if 0x1000 ≤ o ∧ o < 0x1800 then volClasses ((o - 0x1000) / 8) v s
  else s

/-- The pools and members block (08 R330). -/
def poolWrite (o v : Nat) (s : State) : State :=
  match o with
  | 0x00 => { s with mem.poolSel := fld v 2 0 }
  | 0x18 => { s with mem.slotSel := fld v 6 0 }
  | 0xC0 => { s with mem.portSel := fld v 6 0 }
  | _ => s

/-- The pipeline block (03 R119). -/
def pipeWrite (o v : Nat) (s : State) : State :=
  match o with
  | 0x18 => { s with pipe.lastValid := s.pipe.lastValid && !bitN v 46 }
  | 0xC0 => { s with pipe.ctxSel := fld v 9 0 }
  | _ => s

/-- The pair block (10 R387). -/
def pairWrite (o : Nat) (w : Word) (s : State) : State :=
  match o with
  | 0x20 => pairCtl w s
  | 0x28 => pairXfer w s
  | 0x30 => { s with pair.takeValid := s.pair.takeValid && !bitN w.toNat 41 }
  | _ => s

/-- A field of a source's configuration is set, unless the ledger is locked, which counts the discard (00 R8), or the source
is reserved. -/
def fcConfig (off : Nat) (f : SrcCfg → SrcCfg) (s : State) : State :=
  if s.led.locked then countLockDiscard off s
  else if reservedSrc s.fc.sel then s
  else { s with fc.cfg := tset s.fc.cfg s.fc.sel (f (cfgOf s.fc.sel s)) }

/-- FC_CTL of a port (14 R504). -/
def fcCtl (p v : Nat) (s : State) : State :=
  let s := if p = 0 then { s with fc.vector0 := fld v 10 0, fc.intEn0 := bitN v 11 }
    else { s with fc.vector1 := fld v 10 0, fc.intEn1 := bitN v 11 }
  if bitN v 12 then errClr s else s

/-- The collector's block (14 R504). -/
def fcWrite (p o : Nat) (w : Word) (s : State) : State :=
  let v := w.toNat
  match o with
  | 0x140 => fcClear w s
  | 0x148 => { s with fc.sel := fld v 9 0 }
  | 0x150 => fcConfig 0x80150 (fun c => { c with
      ordinary := BitVec.ofNat 6 v, severe := BitVec.ofNat 6 (fld v 13 8), n := max 1 (fld v 31 16), w := fld v 47 32 }) s
  | 0x158 => fcConfig 0x80158 (fun c => { c with immed := w ||| 0x2000000000000000#64 }) s
  | 0x168 => fcForce 8 w s
  | 0x178 => if bitN v 48 then { s with fc.cycWraps := cycles s / 2 ^ 48 } else s
  | 0x180 => fcCtl p v s
  | _ => s

/-- The ledger block (11 R423). -/
def ledWrite (o : Nat) (w : Word) (s : State) : State :=
  let v := w.toNat
  match o with
  | 0x00 =>
    let s := { s with led.damaged := s.led.damaged && !bitN v 3 }
    if bitN v 2 && s.led.fallback && !commitsRefused s then ledCommit { s with led.fallback := false } else s
  | 0x18 => { s with led.discardValid := s.led.discardValid && !bitN v 20 }
  | 0x20 => bootVol w s
  | _ => s

/-- A write of 64 bits at an 8-byte aligned offset (00 R4, R6): registers and fields that are read-only keep their values. -/
def writeReg (p off : Nat) (w : Word) (s : State) : State :=
  let o := off % 0x10000
  match off / 0x10000 with
  | 0x0 => if o = 0x30 then gateCtl w.toNat s else s
  | 0x1 => ringsWrite p o w s
  | 0x2 => cacheWrite o w s
  | 0x3 => poolWrite o w.toNat s
  | 0x4 => pipeWrite o w.toNat s
  | 0x5 => pairWrite o w s
  | 0x6 => if o = 0x00 then { s with pack.clipped := s.pack.clipped && !bitN w.toNat 11 } else s
  | 0x7 => if o = 0x10 then { s with therm.sensorSel := fld w.toNat 4 0 } else s
  | 0x8 => fcWrite p o w s
  | 0x9 => if o = 0x28 ∧ bitN w.toNat 0 = true then flushRecs s else s
  | 0xB => ledWrite o w s
  | 0xC => if o = 0x08 then pwrCtl w s else s
  | _ => s

/-- A write of BAR0 (00 R2, 05 R207): 64 bits naturally aligned, and 32 bits in the MSI-X table; any other is discarded. -/
def writeBar (p off width : Nat) (w : Word) (s : State) : State :=
  if 0x18000 ≤ off ∧ off < 0x20000 then
    (if (width = 8 ∨ width = 4) ∧ off % width = 0 then msixWrite p (off - 0x18000) width (w.toNat % 2 ^ (8 * width)) s else s)
  else if width = 8 ∧ off % 8 = 0 then writeReg p off w s
  else s

/-- REGISTER_WRITE (00 R2 to R8). -/
def execRegisterWrite (port : Fin 2) (off : BitVec 20) (width : Nat) (value : Word) (s : State) : Res :=
  go (barWrite port.val off.toNat (writeBar port.val off.toNat width value) s)

end Sys2Proof.Machine
end

