-- ==== Sys2Proof/Machine/SystemRows.lean ====
section
/-! DEFINITION. Sys2Proof/Machine/SystemRows.lean: deep standby (01 R22), IDENTIFY (06 R241) and the host link's training (11
R407). -/

namespace Sys2Proof.Machine

/-! ## Deep standby (01 R22; 06 R239; 11 R392) -/

/-- Whether an operation is a step of a rebuild, a patrol or a reshape. -/
def Why.mover : Why → Bool
  | .cell .. => true | .restore _ => true | .patrol => true | .check => true | .reshape => true | .home => true
  | .host => false | .destage => false | .evict _ => false | .replay _ => false | .region => false | .sealRow => false
  | .dealloc => false

/-- The conditions of R22 that do not hold, one bit each from bit 0: outstanding entries or other begun commands, dirty lines
or open journal entries, steps of rebuild, patrol or reshape, owned pools of an active pair. -/
def standbyUnmet (c : Nat) (s : State) : Nat :=
  let active := decide (3 ≤ s.pair.st ∧ s.pair.st ≤ 5)
  fields [(0, 1, b2n (s.rings.any (fun e => e.2.typ == 0 && e.2.head != e.2.tail) || s.pipe.cmds.any (fun e => e.1 != c))),
    (1, 1, b2n (dirtySectors s != 0 || openEntries s != 0)),
    (2, 1, b2n (s.pipe.ops.any (fun e => e.2.why.mover))),
    (3, 1, b2n (active && (List.range 8).any (fun p => pairPool p s && owns p s)))]

/-- The module enters deep standby: only the always-on domain runs, HOLD_EN is low. -/
def enterStandby (s : State) : State :=
  setHold false (dropWork { s with pow.ph := .standby, dev.standby := true, dev.ready := false, dev.level := 0 })

/-- DEEP_STANDBY. -/
def execDeepStandby (s : State) : Res :=
  ok (asAdmin 0xB9 (fun c _ s =>
    let unmet := standbyUnmet c s
    if unmet = 0 then enterStandby (adminOk c s) else adminFail c 0x0005 unmet s) s)

/-! ## IDENTIFY (06 R241) -/

/-- The identity structure for a port. -/
def identity (p : Nat) (s : State) : List Byte :=
  let t := tab s
  leBytes 8 (devReg p 0x00 s) ++ leBytes 8 (devReg p 0x38 s) ++ leBytes 8 (devReg p 0x10 s) ++ leBytes 8 (ringsReg p 0x00 s) ++
  runningHash s ++ leBytes 8 t.seq ++ leBytes 4 65536 ++ leBytes 2 t.vols.length ++
  leBytes 2 (s.led.bootVol.getD 0xFFFF) ++ leBytes 1 ((t.pools.filter (fun e => decide (e.1 < 8))).length) ++
  leBytes 1 (b2n s.led.ownerKey.isSome + 2 * b2n s.led.locked + 4 * b2n s.led.profLock.isSome) ++ leBytes 2 1 ++
  List.replicate 44 0 ++ padTo 32 Config.serialNumber

/-- IDENTIFY: its buffer of 4,096 bytes. -/
def execIdentify (s : State) : Res :=
  ok (asAdmin 0x80 (fun c x s => adminOk c (adminOut x (padTo 4096 (identity x.port s)) s)) s)

/-! ## The host link (01 R35 HOST_WIDTH; 13 R471 HOST_SRIS; 15 R522) -/

/-- Whether a number is a width that a port trains to. -/
def linkWidth (p n : Nat) (s : State) : Bool :=
  n == 0 || n == 1 || n == 2 || n == 4 || n == 8 || (n == 16 && p == 0 && !s.dev.bifurcated)

/-- HOST_LINK_TRAINED: nothing trains while the port's PERST_N is low or its functions do not answer. -/
def execHostLinkTrained (port : Fin 2) (width : Fin 17) (inL12 vdm sris : Bool) (s : State) : Res :=
  let p := port.val
  ok (if barUp p s && !s.port0.perstLow && !(getPort p s).perstLow && linkWidth p width.val s then
        updPort p (fun q => { q with width := width.val, inL12 := inL12, vdm := vdm, sris := sris }) s
      else s)

end Sys2Proof.Machine
end

