-- ==== Sys2Proof/Machine/SecRows.lean ====
section
/-! DEFINITION. Sys2Proof/Machine/SecRows.lean: attestation, certificates, owner enrolment and firmware update (15 R507 to
R521; 06 R237). -/

namespace Sys2Proof.Machine

/-! ## Attestation (R519, R520) -/

/-- Bytes of a signature by ALG. -/
def sigBytes (alg : Nat) : Nat := if alg = 0 then 35664 else 29792

/-- The body of a report, taken when signing starts. -/
def reportBody (alg : Nat) (nonce : List Byte) (s : State) : List Byte :=
  let flags := b2n s.led.ownerKey.isSome + 2 * b2n s.led.locked + 4 * b2n s.led.profLock.isSome + 8 * b2n (pairUp s) +
    16 * b2n s.led.fallback
  let key := if alg = 0 then Config.attestationKey else Config.identityKey
  [0x44, 0x56, 0x41, 0x54] ++ leBytes 2 1 ++ leBytes 1 alg ++ leBytes 1 s.dev.profile.toNat ++ leBytes 4 s.led.cohort ++
  leBytes 4 (opSeconds s) ++ leBytes 4 s.evr.powerCycles ++ leBytes 4 (runningVersion s) ++ leBytes 1 s.sec.arb ++
  leBytes 1 s.dev.level.toNat ++ leBytes 2 flags ++ leBytes 4 0 ++ padTo 32 nonce ++ padTo 32 identityHash ++
  padTo 32 (Config.sha256 key) ++ (measurements s).flatMap (padTo 32) ++ List.replicate 192 0

/-- Signing of the front request starts, if none runs. -/
def startSigning (s : State) : State :=
  match s.sec.body, s.sec.signing with
  | none, (_, alg, nonce) :: _ => { s with sec.body := some (reportBody alg nonce s) }
  | _, _ => s

/-- A request joins the queue. -/
def askSigning (who : Option Nat) (alg : Nat) (nonce : List Byte) (s : State) : State :=
  startSigning { s with sec.signing := s.sec.signing ++ [(who, alg, nonce)] }

/-- ATTEST: the command waits for its report. -/
def execAttest (nonce : List Byte) (s : State) : Res :=
  ok (asAdmin 0xB0 (fun c x s =>
    let alg := arg x 40 1
    if 1 < alg then adminFail c 0x0002 0 s
    else askSigning (some c) alg ((adminIn x nonce).take 32) (updCmd c (fun y => { y with ph := .waiting }) s)) s)

/-- A report: its body and the signature. -/
def report (alg : Nat) (body : List Byte) : List Byte := body ++ padTo (sigBytes alg) (Config.slhDsaSign alg body)

/-- ATTEST_SIGNED: the report goes to the command or the sideband that asked for it, and the next one starts. -/
def attestSigned (s : State) : State :=
  match s.sec.body, s.sec.signing with
  | some b, (who, alg, _) :: rest =>
    let r := report alg b
    let s := { s with sec.signing := rest, sec.body := none }
    let s := match who with
      | none => { s with sec.report := some r }
      | some c => (match cmdOf c s with
        | some x => finishCmd c 0 (BitVec.ofNat 32 r.length) (adminOut x r s)
        | none => s)
    startSigning s
  | _, _ => s

/-- ATTEST_SIGNED (R520); nothing while only the always-on domain runs, or none. -/
def execAttestSigned (s : State) : Res :=
  if s.pow.ph = .off ∨ s.pow.ph = .tripped ∨ s.pow.ph = .standby then ok s else go (attestSigned s)

/-! ## Certificates (R521) -/

/-- A certificate, padded to a multiple of 8 bytes. -/
def pad8 (l : List Byte) : List Byte := padTo ((l.length + 7) / 8 * 8) l

/-- The CERT_READ structure. -/
def certBytes : List Byte :=
  leBytes 4 Config.identityCert.length ++ leBytes 4 Config.attestationCert.length ++ leBytes 8 0 ++
  pad8 Config.identityCert ++ pad8 Config.attestationCert

/-- CERT_READ. -/
def execCertRead (s : State) : Res := ok (asAdmin 0xB1 (fun c x s => adminOk c (adminOut x certBytes s)) s)

/-! ## Owner (R512) -/

/-- Whether the enrolment data has its layout. -/
def enrolOk (d : List Byte) : Bool :=
  d.length == 128 && slice d 0 4 == [0x44, 0x56, 0x4F, 0x45] && leAt d 4 2 == 1 && allZero (slice d 6 2) && allZero (d.drop 72)

/-- OWNER_ENROL. -/
def execOwnerEnrol (data : List Byte) (s : State) : Res :=
  ok (asAdmin 0xB2 (fun c x s => commitGate c (fun s =>
    let d := adminIn x data
    if s.led.ownerKey.isSome then adminFail c 0x0005 0x0F06 s
    else if !enrolOk d then adminFail c 0x0002 0x0F07 s
    else adminOk c (ledCommit { s with led.ownerKey := some (slice d 8 64) })) s) s)

/-! ## Firmware update (R511; 06 R237) -/

/-- The slot that does not run. -/
def otherSlot (s : State) : Nat := 1 - runningSlot s

/-- Bytes of a slot from an offset on are written. -/
def writeSlotAt (i off : Nat) (d : List Byte) (s : State) : State :=
  let b := slotImage i s
  { s with sec.slots := tset s.sec.slots i ((b.take off ++ d ++ b.drop (off + d.length)).take fwLen) }

/-- FW_STAGE: a refused chunk discards the staging. -/
def execFwStage (data : List Byte) (s : State) : Res :=
  ok (asAdmin 0xB3 (fun c x s =>
    let d := adminIn x data
    let off := arg x 40 8
    match chunkBad off d.length s.sec.staged (bitN (arg x 48 1) 0) with
    | some why => adminFail c 0x0002 why { s with sec.staged := 0, sec.stagedLast := false }
    | none =>
      adminOk c (writeSlotAt (otherSlot s) off d
        { s with sec.staged := off + d.length, sec.stagedLast := bitN (arg x 48 1) 0 })) s)

/-- ARG of a FW_DOWNGRADE authorisation for an image (R514). -/
def downgradeArg (b : List Byte) : List Byte := slice b 8 4 ++ (Config.sha256 (fwBody b)).take 20

/-- Check 4 of R511: no downgrade, or an authorisation for it; the failing status otherwise. -/
def downgradeBad (b a : List Byte) (s : State) : Option (BitVec 16) :=
  if runningVersion s ≤ fwVersionOf b then none
  else if a.isEmpty || s.led.ownerKey.isNone then some 0x0401
  else if authOk 4 (downgradeArg b) a s then none
  else some 0x0402

/-- The first failing check of FW_COMMIT, with its reason (R237, R511). -/
def fwBad (a : List Byte) (s : State) : Option (BitVec 16 × Nat) :=
  let b := slotImage (otherSlot s) s
  if !s.sec.stagedLast then some (0x0005, 0x0023)
  else if s.sec.staged != fwLen then some (0x0002, 0x0F01)
  else if !fwSound b s then some (0x0002, 0x0F02)
  else if fwSvnOf b < s.sec.arb then some (0x0403, 0x0F03)
  else match downgradeBad b a s with
    | some st => some (st, 0x0F04)
    | none => if commitsRefused s then some (0x0005, 0x0F05) else none

/-- The slot pointer names a slot. -/
def pointTo (n : Nat) (s : State) : State := { s with sec.pointer := n, pow.boot.badPointer := false }

/-- FW_COMMIT: the slot pointer names the staged slot. A downgrade takes its authorisation with it. -/
def fwCommit (c : Nat) (a : List Byte) (s : State) : State :=
  match fwBad a s with
  | some (0x0402, why) => authRefused c why s
  | some (st, why) => adminFail c st why s
  | none =>
    let n := otherSlot s
    let s := if runningVersion s ≤ fwVersionOf (slotImage n s) then s else ledCommit (authAccept a s)
    finishCmd c 0 (BitVec.ofNat 32 n) (pointTo n s)

/-- FW_COMMIT. -/
def execFwCommit (data : List Byte) (s : State) : Res :=
  ok (asAdmin 0xB4 (fun c x s => fwCommit c (adminIn x data) s) s)

end Sys2Proof.Machine
end

