-- ==== Sys2Proof/Machine/MgmtRows.lean ====
section
/-! DEFINITION. Sys2Proof/Machine/MgmtRows.lean: the management sideband (15 R522 to R524; message forms of DSP0236, log entry
48) and the test access port (16 R545). -/

namespace Sys2Proof.Machine

/-! ## MCTP control messages (15 R523) -/

/-- The sideband answers in every state while VDD_AON is present. -/
def onSideband (f : State → State) (s : State) : State := if s.pow.aon then f s else s

/-- The response to a control message. -/
def control (cmd cc : Nat) (d : List Byte) (s : State) : State := emit (.mctp 0 cmd 0 cc d) s

/-- SET_ENDPOINT_ID: the two EIDs that DSP0236 reserves are invalid data. -/
def execSetEndpointId (eid : Byte) (s : State) : Res :=
  ok (onSideband (fun s =>
    if eid = 0 ∨ eid = 0xFF then control 0x01 2 [] s
    else control 0x01 0 [0, eid, 0] { s with sec.eid := eid }) s)

/-- GET_ENDPOINT_ID. -/
def execGetEndpointId (s : State) : Res := ok (onSideband (fun s => control 0x02 0 [s.sec.eid, 0, 0] s) s)

/-- GET_ENDPOINT_UUID. -/
def execGetEndpointUuid (s : State) : Res := ok (onSideband (control 0x03 0 (padTo 16 Config.endpointUuid)) s)

/-- GET_MCTP_VERSION_SUPPORT. -/
def execGetMctpVersionSupport (s : State) : Res := ok (onSideband (control 0x04 0 Config.mctpVersions) s)

/-- GET_MESSAGE_TYPE_SUPPORT: type 0x7F beside the control messages. -/
def execGetMessageTypeSupport (s : State) : Res := ok (onSideband (control 0x05 0 [1, 0x7F]) s)

/-- GET_VENDOR_DEFINED_MESSAGE_SUPPORT: the one set, of the enterprise number, its first byte the most significant. -/
def execGetVendorDefinedMessageSupport (s : State) : Res :=
  ok (onSideband (control 0x06 0 ([0xFF, 0x01] ++ (leBytes 4 Config.ianaNumber.toNat).reverse ++ padTo 2 Config.vendorSet)) s)

/-! ## Vywin messages (15 R524) -/

/-- The response to a Vywin command. -/
def vywin (cmd inst status : Nat) (d : List Byte) (s : State) : State := emit (.mctp 0x7F cmd inst status d) s

/-- GET_STATUS's payload. -/
def statusBytes (s : State) : List Byte :=
  leBytes 8 (devReg 0 0x08 s) ++ leBytes 8 (pwrReg 0x00 s) ++ leBytes 8 (thermReg 0 0x00 s) ++ leBytes 1 s.dev.noService ++
  leBytes 2 (packReg 0x20 s) ++ leBytes 5 0

/-- GET_STATUS. -/
def execGetStatus (inst : Byte) (s : State) : Res :=
  ok (onSideband (fun s => vywin 0x01 inst.toNat 0 (statusBytes s) s) s)

/-- Whether a report for the sideband is being signed or waits for it. -/
def sidebandSigns (s : State) : Bool := s.sec.signing.any (fun e => e.1.isNone)

/-- ATTEST_START. -/
def attestStart (inst alg : Nat) (nonce : List Byte) (s : State) : State :=
  if !s.dev.ready then vywin 0x02 inst 4 [] s
  else if 1 < alg then vywin 0x02 inst 2 [] s
  else if sidebandSigns s then vywin 0x02 inst 3 [] s
  else vywin 0x02 inst 0 (leBytes 4 (512 + sigBytes alg)) (askSigning none alg (padTo 32 nonce) s)

/-- ATTEST_START (R520, R524). -/
def execAttestStart (inst alg : Byte) (nonce : List Byte) (s : State) : Res :=
  ok (onSideband (attestStart inst.toNat alg.toNat nonce) s)

/-- The last-words file: eight entries of 16 bytes. -/
def lastWordBytes (s : State) : List Byte :=
  (List.range 8).flatMap (fun n => leBytes 8 (evtReg (0x40 + 16 * n) s) ++ leBytes 8 (evtReg (0x48 + 16 * n) s))

/-- An object's bytes, or the status that refuses it. -/
def objectBytes (obj : Nat) (s : State) : Except Nat (List Byte) :=
  match obj with
  | 1 =>
    if !s.dev.ready then .error 4
    else if sidebandSigns s then .error 1
    else match s.sec.report with
      | some r => .ok r
      | none => .error 1
  | 2 => if s.dev.ready then .ok certBytes else .error 4
  | 3 => .ok (lastWordBytes s)
  | _ => .error 2

/-- READ_OBJECT. -/
def readObject (inst obj off len : Nat) (s : State) : State :=
  if 1024 < len then vywin 0x03 inst 2 [] s
  else match objectBytes obj s with
    | .ok b => vywin 0x03 inst 0 (slice b off len) s
    | .error e => vywin 0x03 inst e [] s

/-- READ_OBJECT (R524). -/
def execReadObject (inst object : Byte) (offset length : Nat) (s : State) : Res :=
  ok (onSideband (readObject inst.toNat object.toNat offset length) s)

/-- SET_EVENT_RECEIVER. -/
def execSetEventReceiver (inst eid : Byte) (enable : Bool) (s : State) : Res :=
  ok (onSideband (fun s => vywin 0x04 inst.toNat 0 [] { s with sec.recvEid := eid, sec.recvEn := enable }) s)

/-- Whether a wake takes effect (01 R23; 11 R405). -/
def wakeMay (s : State) : Bool := s.pow.ph == .standby || (s.pow.ph == .coldStopped && belowThrottle s)

/-- WAKE. -/
def execWake (inst : Byte) (s : State) : Res :=
  ok (onSideband (fun s => if wakeMay s then wakeUp (vywin 0x05 inst.toNat 0 [] s) else vywin 0x05 inst.toNat 4 [] s) s)

/-! ## The test access port (16 R545) -/

/-- The port works while PWROK is low. -/
def onTap (f : TapSt → TapSt) (code bits : Nat) (s : State) : State :=
  if s.pow.ph = .off then emit (.tap code bits) { s with tap := { f s.tap with ir := code } } else s

/-- EXTEST: the boundary cells drive the balls; what the balls hold is captured and shifted out. -/
def execExtest (pins : Nat) (s : State) : Res := ok (onTap (fun t => { t with drives := true, highz := false }) 0x00 pins s)

/-- IDCODE. -/
def execIdcode (s : State) : Res := ok (onTap (fun t => { t with drives := false, highz := false }) 0x01 0x17128A6B s)

/-- SAMPLE/PRELOAD: the balls are captured without disturbing them, and the cells are loaded. -/
def execSamplePreload (pins shift : Nat) (s : State) : Res :=
  ok (onTap (fun t => { t with cells := shift, drives := false, highz := false }) 0x02 pins s)

/-- HIGHZ: the balls float; the bypass bit is between the ends. -/
def execHighz (s : State) : Res := ok (onTap (fun t => { t with drives := false, highz := true }) 0x03 0 s)

/-- CLAMP: the preloaded cells drive the balls; the bypass bit is between the ends. -/
def execClamp (s : State) : Res := ok (onTap (fun t => { t with drives := true, highz := false }) 0x04 0 s)

/-- EXTEST_PULSE. -/
def execExtestPulse (pins : Nat) (s : State) : Res := ok (onTap (fun t => { t with drives := true, highz := false }) 0x05 pins s)

/-- EXTEST_TRAIN. -/
def execExtestTrain (pins : Nat) (s : State) : Res := ok (onTap (fun t => { t with drives := true, highz := false }) 0x06 pins s)

/-- BYPASS, and any code of no instruction, which selects it and raises a message from 0x1E7. A code of another
instruction is no event of this row. -/
def execBypass (code : Byte) (s : State) : Res :=
  ok (if code.toNat < 7 || s.pow.ph != .off then s
      else
        let s := onTap (fun t => { t with drives := false, highz := false }) 0xFF 0 s
        if code = 0xFF then s else raiseOpen 0x1E7 s)

end Sys2Proof.Machine
end

