-- ==== Sys2Proof/Machine/Dispatch.lean ====
section
/-! DEFINITION. Sys2Proof/Machine/Dispatch.lean: one arm per command of the table. -/

namespace Sys2Proof.Machine

/-- The effect of a command on everything but the queue. -/
def exec (i : Instr) (s : State) : Host.Outcome State Fault Refusal :=
  match i with
  | .intakeBeginEntry => Sys2Proof.Machine.execIntakeBeginEntry s
  | .intakeResume => Sys2Proof.Machine.execIntakeResume s
  | .rowOrderRelease pool row => Sys2Proof.Machine.execRowOrderRelease pool row s
  | .laneWake lane => Sys2Proof.Machine.execLaneWake lane s
  | .laneGate lane wakeRequest => Sys2Proof.Machine.execLaneGate lane wakeRequest s
  | .memberGroupGate g => Sys2Proof.Machine.execMemberGroupGate g s
  | .domainWake d => Sys2Proof.Machine.execDomainWake d s
  | .housekeepingRound r => Sys2Proof.Machine.execHousekeepingRound r s
  | .throttleGraceEnd region => Sys2Proof.Machine.execThrottleGraceEnd region s
  | .throttleEscalate region => Sys2Proof.Machine.execThrottleEscalate region s
  | .clockRelockDone => Sys2Proof.Machine.execClockRelockDone s
  | .thermtrip => Sys2Proof.Machine.execThermtrip s
  | .xtalLoss => Sys2Proof.Machine.execXtalLoss s
  | .pllLockLoss p => Sys2Proof.Machine.execPllLockLoss p s
  | .marginPlan m => Sys2Proof.Machine.execMarginPlan m s
  | .deepStandby => Sys2Proof.Machine.execDeepStandby s
  | .planStage data => Sys2Proof.Machine.execPlanStage data s
  | .planCommit => Sys2Proof.Machine.execPlanCommit s
  | .planSwitch => Sys2Proof.Machine.execPlanSwitch s
  | .planKeyInstall data => Sys2Proof.Machine.execPlanKeyInstall data s
  | .planKeyRemove data => Sys2Proof.Machine.execPlanKeyRemove data s
  | .scheduleStored => Sys2Proof.Machine.execScheduleStored s
  | .longWait geometry erased => Sys2Proof.Machine.execLongWait geometry erased s
  | .planSectionReload geometry => Sys2Proof.Machine.execPlanSectionReload geometry s
  | .profileRead => Sys2Proof.Machine.execProfileRead s
  | .profileWrite p => Sys2Proof.Machine.execProfileWrite p s
  | .profileSelect => Sys2Proof.Machine.execProfileSelect s
  | .profileLock data => Sys2Proof.Machine.execProfileLock data s
  | .profileQuiesceApply => Sys2Proof.Machine.execProfileQuiesceApply s
  | .dispatch d => Sys2Proof.Machine.execDispatch d s
  | .look core => Sys2Proof.Machine.execLook core s
  | .mrd core => Sys2Proof.Machine.execMrd core s
  | .mrdLateReport ctx slot pos => Sys2Proof.Machine.execMrdLateReport ctx slot pos s
  | .mwr core => Sys2Proof.Machine.execMwr core s
  | .gmx core => Sys2Proof.Machine.execGmx core s
  | .xor core => Sys2Proof.Machine.execXor core s
  | .tag core => Sys2Proof.Machine.execTag core s
  | .jnl core => Sys2Proof.Machine.execJnl core s
  | .premarkTimeout ctx => Sys2Proof.Machine.execPremarkTimeout ctx s
  | .jcl core => Sys2Proof.Machine.execJcl core s
  | .wait core => Sys2Proof.Machine.execWait core s
  | .br core => Sys2Proof.Machine.execBr core s
  | .bz core => Sys2Proof.Machine.execBz core s
  | .bnz core => Sys2Proof.Machine.execBnz core s
  | .call core => Sys2Proof.Machine.execCall core s
  | .ret core => Sys2Proof.Machine.execRet core s
  | .done core => Sys2Proof.Machine.execDone core s
  | .trap core => Sys2Proof.Machine.execTrap core s
  | .nop core => Sys2Proof.Machine.execNop core s
  | .stageResultWritten ctx slot => Sys2Proof.Machine.execStageResultWritten ctx slot s
  | .programStoreReload => Sys2Proof.Machine.execProgramStoreReload s
  | .registerWrite port off width value => Sys2Proof.Machine.execRegisterWrite port off width value s
  | .read r => Sys2Proof.Machine.execRead r s
  | .write cmd => Sys2Proof.Machine.execWrite cmd s
  | .writeFua cmd => Sys2Proof.Machine.execWriteFua cmd s
  | .flush cmd => Sys2Proof.Machine.execFlush cmd s
  | .deallocate cmd => Sys2Proof.Machine.execDeallocate cmd s
  | .verify cmd => Sys2Proof.Machine.execVerify cmd s
  | .routineCall cmd => Sys2Proof.Machine.execRoutineCall cmd s
  | .acceptLoss cmd => Sys2Proof.Machine.execAcceptLoss cmd s
  | .identify => Sys2Proof.Machine.execIdentify s
  | .ringCreate desc => Sys2Proof.Machine.execRingCreate desc s
  | .ringReset => Sys2Proof.Machine.execRingReset s
  | .ringShutdown => Sys2Proof.Machine.execRingShutdown s
  | .ringEnable => Sys2Proof.Machine.execRingEnable s
  | .abort => Sys2Proof.Machine.execAbort s
  | .drainEnd ring => Sys2Proof.Machine.execDrainEnd ring s
  | .sqDoorbell port ring width value => Sys2Proof.Machine.execSqDoorbell port ring width value s
  | .cqDoorbell port ring width value => Sys2Proof.Machine.execCqDoorbell port ring width value s
  | .push port offset data => Sys2Proof.Machine.execPush port offset data s
  | .fetchComplete w => Sys2Proof.Machine.execFetchComplete w s
  | .coalesceTimeout ring => Sys2Proof.Machine.execCoalesceTimeout ring s
  | .msixVectorUnmask port vector => Sys2Proof.Machine.execMsixVectorUnmask port vector s
  | .pf0Flr port => Sys2Proof.Machine.execPf0Flr port s
  | .adminCtlWrite port value => Sys2Proof.Machine.execAdminCtlWrite port value s
  | .poolStatus => Sys2Proof.Machine.execPoolStatus s
  | .lostListRead => Sys2Proof.Machine.execLostListRead s
  | .memberAdopt => Sys2Proof.Machine.execMemberAdopt s
  | .memberRetire => Sys2Proof.Machine.execMemberRetire s
  | .memberFail => Sys2Proof.Machine.execMemberFail s
  | .patrolStart => Sys2Proof.Machine.execPatrolStart s
  | .ledgerRead => Sys2Proof.Machine.execLedgerRead s
  | .ledgerSet r => Sys2Proof.Machine.execLedgerSet r s
  | .ledgerLock => Sys2Proof.Machine.execLedgerLock s
  | .ledgerUnlock data => Sys2Proof.Machine.execLedgerUnlock data s
  | .logRead => Sys2Proof.Machine.execLogRead s
  | .logClear data => Sys2Proof.Machine.execLogClear data s
  | .logFlush => Sys2Proof.Machine.execLogFlush s
  | .hostTime => Sys2Proof.Machine.execHostTime s
  | .attest nonce => Sys2Proof.Machine.execAttest nonce s
  | .certRead => Sys2Proof.Machine.execCertRead s
  | .ownerEnrol data => Sys2Proof.Machine.execOwnerEnrol data s
  | .fwStage data => Sys2Proof.Machine.execFwStage data s
  | .fwCommit data => Sys2Proof.Machine.execFwCommit data s
  | .sensorMask data => Sys2Proof.Machine.execSensorMask data s
  | .learnApprove => Sys2Proof.Machine.execLearnApprove s
  | .nvmeIdentify port e => Sys2Proof.Machine.execNvmeIdentify port e s
  | .nvmeCreateIoQueue port submission e => Sys2Proof.Machine.execNvmeCreateIoQueue port submission e s
  | .nvmeDeleteIoQueue port submission e => Sys2Proof.Machine.execNvmeDeleteIoQueue port submission e s
  | .nvmeGetLogPage port e => Sys2Proof.Machine.execNvmeGetLogPage port e s
  | .nvmeGetFeatures port e => Sys2Proof.Machine.execNvmeGetFeatures port e s
  | .nvmeSetFeatures port e => Sys2Proof.Machine.execNvmeSetFeatures port e s
  | .nvmeAsyncEventRequest port e => Sys2Proof.Machine.execNvmeAsyncEventRequest port e s
  | .nvmeAbort port e => Sys2Proof.Machine.execNvmeAbort port e s
  | .nvmeRead port e => Sys2Proof.Machine.execNvmeRead port e s
  | .nvmeWrite port e => Sys2Proof.Machine.execNvmeWrite port e s
  | .nvmeFlush port e => Sys2Proof.Machine.execNvmeFlush port e s
  | .nvmeWriteZeroes port e => Sys2Proof.Machine.execNvmeWriteZeroes port e s
  | .nvmeDatasetManagement port e ranges => Sys2Proof.Machine.execNvmeDatasetManagement port e ranges s
  | .nvmeControllerReset port => Sys2Proof.Machine.execNvmeControllerReset port s
  | .evictionEnd set way => Sys2Proof.Machine.execEvictionEnd set way s
  | .allocationRetry set => Sys2Proof.Machine.execAllocationRetry set s
  | .allocationLongWait op => Sys2Proof.Machine.execAllocationLongWait op s
  | .destageAge pool row slice => Sys2Proof.Machine.execDestageAge pool row slice s
  | .destageRetry pool row slice => Sys2Proof.Machine.execDestageRetry pool row slice s
  | .tagScrub errs => Sys2Proof.Machine.execTagScrub errs s
  | .dramScrub errs => Sys2Proof.Machine.execDramScrub errs s
  | .regionSweep => Sys2Proof.Machine.execRegionSweep s
  | .checkpoint => Sys2Proof.Machine.execCheckpoint s
  | .rangeInvalidate value => Sys2Proof.Machine.execRangeInvalidate value s
  | .wayMaskWrite cls value => Sys2Proof.Machine.execWayMaskWrite cls value s
  | .unnamedLossClear => Sys2Proof.Machine.execUnnamedLossClear s
  | .memberCommandCompletion tag st data tags => Sys2Proof.Machine.execMemberCommandCompletion tag st data tags s
  | .slowMark tag => Sys2Proof.Machine.execSlowMark tag s
  | .failLatencyTimeout tag => Sys2Proof.Machine.execFailLatencyTimeout tag s
  | .suspectWindowExpiry pool slot => Sys2Proof.Machine.execSuspectWindowExpiry pool slot s
  | .slotFailureCommit pool slot => Sys2Proof.Machine.execSlotFailureCommit pool slot s
  | .memberAbortTimeout port => Sys2Proof.Machine.execMemberAbortTimeout port s
  | .linkRetrainTimeout port => Sys2Proof.Machine.execLinkRetrainTimeout port s
  | .memberSidebandFrame presence => Sys2Proof.Machine.execMemberSidebandFrame presence s
  | .memberRemoved port => Sys2Proof.Machine.execMemberRemoved port s
  | .memberInserted port id => Sys2Proof.Machine.execMemberInserted port id s
  | .discoveryWindowClose => Sys2Proof.Machine.execDiscoveryWindowClose s
  | .memberPrepDone port => Sys2Proof.Machine.execMemberPrepDone port s
  | .boundaryCommit m => Sys2Proof.Machine.execBoundaryCommit m s
  | .healthLogRead port log => Sys2Proof.Machine.execHealthLogRead port log s
  | .enduranceLogRead port pctUsed => Sys2Proof.Machine.execEnduranceLogRead port pctUsed s
  | .patrolPassDue pool => Sys2Proof.Machine.execPatrolPassDue pool s
  | .patrolProgressCommit pool => Sys2Proof.Machine.execPatrolProgressCommit pool s
  | .reshapeWalkStart pool => Sys2Proof.Machine.execReshapeWalkStart pool s
  | .reshapeCommit pool => Sys2Proof.Machine.execReshapeCommit pool s
  | .hello h m => Sys2Proof.Machine.execHello h m s
  | .heartbeat h m => Sys2Proof.Machine.execHeartbeat h m s
  | .heartbeatSend => Sys2Proof.Machine.execHeartbeatSend s
  | .heartbeatTimeout => Sys2Proof.Machine.execHeartbeatTimeout s
  | .farewell h => Sys2Proof.Machine.execFarewell h s
  | .suspectNotice h => Sys2Proof.Machine.execSuspectNotice h s
  | .mirrorWrite h sectors => Sys2Proof.Machine.execMirrorWrite h sectors s
  | .mirrorAck h upTo => Sys2Proof.Machine.execMirrorAck h upTo s
  | .mirrorClean h pool line mask => Sys2Proof.Machine.execMirrorClean h pool line mask s
  | .jnlMirror h e => Sys2Proof.Machine.execJnlMirror h e s
  | .jnlRetire h seq => Sys2Proof.Machine.execJnlRetire h seq s
  | .ledgerPrepare h r => Sys2Proof.Machine.execLedgerPrepare h r s
  | .ledgerVote h accept => Sys2Proof.Machine.execLedgerVote h accept s
  | .ledgerDecide h commit => Sys2Proof.Machine.execLedgerDecide h commit s
  | .quiesce q => Sys2Proof.Machine.execQuiesce q s
  | .quiesceDone h => Sys2Proof.Machine.execQuiesceDone h s
  | .forwardCmd h tag entry => Sys2Proof.Machine.execForwardCmd h tag entry s
  | .forwardData h write tag data => Sys2Proof.Machine.execForwardData h write tag data s
  | .forwardCpl h e => Sys2Proof.Machine.execForwardCpl h e s
  | .memberReport h pool slot timeout => Sys2Proof.Machine.execMemberReport h pool slot timeout s
  | .resyncLine h sectors entry => Sys2Proof.Machine.execResyncLine h sectors entry s
  | .resyncDone h => Sys2Proof.Machine.execResyncDone h s
  | .xfer h st => Sys2Proof.Machine.execXfer h st s
  | .pairLinkUp width => Sys2Proof.Machine.execPairLinkUp width s
  | .pairLinkDown => Sys2Proof.Machine.execPairLinkDown s
  | .reservationBeat reads => Sys2Proof.Machine.execReservationBeat reads s
  | .lossDecision => Sys2Proof.Machine.execLossDecision s
  | .helloTimeout reads => Sys2Proof.Machine.execHelloTimeout reads s
  | .force value => Sys2Proof.Machine.execForce value s
  | .pairXferGo value => Sys2Proof.Machine.execPairXferGo value s
  | .pfailN low => Sys2Proof.Machine.execPfailN low s
  | .railMonitorTrip rail => Sys2Proof.Machine.execRailMonitorTrip rail s
  | .flushEnd e => Sys2Proof.Machine.execFlushEnd e s
  | .postFlushReset => Sys2Proof.Machine.execPostFlushReset s
  | .vaultHotWaitEnd => Sys2Proof.Machine.execVaultHotWaitEnd s
  | .powerGood b => Sys2Proof.Machine.execPowerGood b s
  | .ready => Sys2Proof.Machine.execReady s
  | .pwrokFall => Sys2Proof.Machine.execPwrokFall s
  | .perstN port low => Sys2Proof.Machine.execPerstN port low s
  | .vaultHalfEraseDone half => Sys2Proof.Machine.execVaultHalfEraseDone half s
  | .restoreEnd => Sys2Proof.Machine.execRestoreEnd s
  | .countersCommit => Sys2Proof.Machine.execCountersCommit s
  | .ledgerScrub corrected uncorrectable => Sys2Proof.Machine.execLedgerScrub corrected uncorrectable s
  | .bootVolWrite value => Sys2Proof.Machine.execBootVolWrite value s
  | .retrainRequest value => Sys2Proof.Machine.execRetrainRequest value s
  | .packIdentityRead block => Sys2Proof.Machine.execPackIdentityRead block s
  | .packPresN high block => Sys2Proof.Machine.execPackPresN high block s
  | .restPoint => Sys2Proof.Machine.execRestPoint s
  | .packUnproven => Sys2Proof.Machine.execPackUnproven s
  | .learnRepropose => Sys2Proof.Machine.execLearnRepropose s
  | .learnDischargeEnd => Sys2Proof.Machine.execLearnDischargeEnd s
  | .learnTimeout => Sys2Proof.Machine.execLearnTimeout s
  | .chargerStuck => Sys2Proof.Machine.execChargerStuck s
  | .faultMessage sent => Sys2Proof.Machine.execFaultMessage sent s
  | .blockResetEnd b => Sys2Proof.Machine.execBlockResetEnd b s
  | .resetShadowEnd b => Sys2Proof.Machine.execResetShadowEnd b s
  | .fcForce width value => Sys2Proof.Machine.execFcForce width value s
  | .fcClear value => Sys2Proof.Machine.execFcClear value s
  | .errClr port => Sys2Proof.Machine.execErrClr port s
  | .evtCtlFlush => Sys2Proof.Machine.execEvtCtlFlush s
  | .attestSigned => Sys2Proof.Machine.execAttestSigned s
  | .setEndpointId eid => Sys2Proof.Machine.execSetEndpointId eid s
  | .getEndpointId => Sys2Proof.Machine.execGetEndpointId s
  | .getEndpointUuid => Sys2Proof.Machine.execGetEndpointUuid s
  | .getMctpVersionSupport => Sys2Proof.Machine.execGetMctpVersionSupport s
  | .getMessageTypeSupport => Sys2Proof.Machine.execGetMessageTypeSupport s
  | .getVendorDefinedMessageSupport => Sys2Proof.Machine.execGetVendorDefinedMessageSupport s
  | .getStatus inst => Sys2Proof.Machine.execGetStatus inst s
  | .attestStart inst alg nonce => Sys2Proof.Machine.execAttestStart inst alg nonce s
  | .readObject inst object offset length => Sys2Proof.Machine.execReadObject inst object offset length s
  | .setEventReceiver inst eid enable => Sys2Proof.Machine.execSetEventReceiver inst eid enable s
  | .wake inst => Sys2Proof.Machine.execWake inst s
  | .extest pins => Sys2Proof.Machine.execExtest pins s
  | .idcode => Sys2Proof.Machine.execIdcode s
  | .samplePreload pins shift => Sys2Proof.Machine.execSamplePreload pins shift s
  | .highz => Sys2Proof.Machine.execHighz s
  | .clamp => Sys2Proof.Machine.execClamp s
  | .extestPulse pins => Sys2Proof.Machine.execExtestPulse pins s
  | .extestTrain pins => Sys2Proof.Machine.execExtestTrain pins s
  | .bypass code => Sys2Proof.Machine.execBypass code s
  | .hostDataRead cmd data => Sys2Proof.Machine.execHostDataRead cmd data s
  | .memberLinkDown port => Sys2Proof.Machine.execMemberLinkDown port s
  | .memberLinkRetrained port width => Sys2Proof.Machine.execMemberLinkRetrained port width s
  | .controllerFatal port => Sys2Proof.Machine.execControllerFatal port s
  | .hostLinkTrained port width inL12 vdm sris => Sys2Proof.Machine.execHostLinkTrained port width inL12 vdm sris s
  | .pf1QueueDoorbell port io completion value => Sys2Proof.Machine.execPf1QueueDoorbell port io completion value s
  | .pf1ControllerEnable port cc asq acq aqa => Sys2Proof.Machine.execPf1ControllerEnable port cc asq acq aqa s
  | .vaultReadComplete half page badSectors => Sys2Proof.Machine.execVaultReadComplete half page badSectors s
  | .pllRelocked p => Sys2Proof.Machine.execPllRelocked p s
  | .xtalRestored => Sys2Proof.Machine.execXtalRestored s

end Sys2Proof.Machine
end

