-- ==== Sys2Proof/Safety.lean ====
section
/-! DEFINITION. Sys2Proof/Safety.lean: what counts as a safe run, and the words that the statements use. -/

namespace Sys2Proof

/-- A step that goes on. -/
def safeStep (s : Machine.State) : Bool :=
  match Machine.step s with
  | .next _ => true
  | .fault _ => false
  | .refused _ => false

/-- `n` steps that all go on: no stop hides in the run. -/
def safeRun : Nat → Machine.State → Bool
  | 0, _ => true
  | n + 1, s =>
    match Machine.step s with
    | .next t => safeRun n t
    | .fault _ => false
    | .refused _ => false

namespace Machine

/-- The command answers a next state, and `P` holds of it. -/
def Completes (i : Instr) (s : State) (P : State → Prop) : Prop := ∃ t, exec i s = .next t ∧ P t

/-- The command answers what the module makes by itself (`settle`) of a state of which `P` holds: the state that the
command's own effect gives. -/
def Settles (i : Instr) (s : State) (P : State → Prop) : Prop := ∃ u, exec i s = .next (settle u) ∧ P u

/-- The commands that write the ledger's own records, reset the chip or scan it: a statement about what no other command
changes leaves them out. -/
def bearsOnRecords : Instr → Bool
  | .powerGood _ | .ready | .postFlushReset | .perstN .. | .faultMessage _ | .wake _ => true
  | .ledgerSet _ | .ledgerLock | .ledgerUnlock _ | .ledgerScrub .. | .ownerEnrol _ | .sensorMask _ => true
  | .fwStage _ | .fwCommit _ | .setEndpointId _ => true
  | .extest _ | .idcode | .samplePreload .. | .highz | .clamp | .extestPulse _ | .extestTrain _ | .bypass _ => true
  | _ => false

/-- Core `k` is about to issue word `w` of operation `op` in context `c`, whose state is `x`: the domains run, it is the
next ready context, the word is one that a program may hold, the context has instructions left, and the destination slot is
free (03 R74, R89, R91, R110). -/
def AboutTo (k c : Nat) (x : Ctx) (op : Op) (w : Word) (s : State) : Prop :=
  domainsRun s = true ∧ nextCtx k s = some c ∧ ctxOf c s = some x ∧ opOf x.op s = some op ∧ fetchWord x s = some w ∧
  x.issued < 65536 ∧ (insOf w).fieldsOk = true ∧ ((insOf w).hasDs = true → x.pend (insOf w).ds = false)

/-- The state in which core `k` has served context `c`. -/
def served (k c : Nat) (s : State) : State := { s with pipe.lastCtx := tset s.pipe.lastCtx k (c % 32) }

/-- A context that issued word `w` for a stage: the program counter and the count of instructions moved on, the destination
slot pending, the instruction in flight (03 R91). -/
def launched (x : Ctx) (w : Word) (wait : Option Word) (s : State) : Ctx :=
  let i := insOf w
  { x with
    pc := x.pc + 1, issued := x.issued + 1, pending := x.pending ||| BitVec.ofNat 16 (2 ^ i.ds),
    inflight := tset x.inflight i.ds { word := w, sa := x.sl i.sa, sb := x.sl i.sb, reads := i.readsH,
                                       writes := i.writesH, issuedAt := s.now, arr := s.pipe.nextArr,
                                       schedWait := wait } }

/-- The class and the header of a message of the pair that this module discards out of turn; HELLO is not one of them (10
R358, R359). -/
def pairMsg : Instr → Option (Nat × PairHdr)
  | .heartbeat h _ | .farewell h | .suspectNotice h => some (0, h)
  | .mirrorWrite h _ | .mirrorAck h _ | .mirrorClean h .. | .jnlMirror h _ | .jnlRetire h _ => some (1, h)
  | .ledgerPrepare h _ | .ledgerVote h _ | .ledgerDecide h _ | .quiesceDone h | .xfer h _ => some (2, h)
  | .quiesce q => some (2, q.hdr)
  | .forwardCmd h .. | .forwardData h .. | .forwardCpl h _ | .memberReport h .. => some (3, h)
  | .resyncLine h .. | .resyncDone h => some (4, h)
  | _ => none

/-- A message that a paired module takes: intact, from its peer, of the pair's epoch, later than the last of its class and,
in classes 1 and 2, the next (10 R359). -/
def Arrives (cls : Nat) (h : PairHdr) (s : State) : Prop :=
  s.led.paired = true ∧ h.crcOk = true ∧ h.node.toNat = s.led.peer ∧ h.epoch = s.led.pairEpoch ∧
  tgetD s.pair.recvSeq cls 0 < h.seq ∧ (cls = 1 ∨ cls = 2 → h.seq = tgetD s.pair.recvSeq cls 0 + 1)

/-- The state in which the message is recorded as delivered. -/
def heard (cls : Nat) (h : PairHdr) (s : State) : State := { s with pair.recvSeq := tset s.pair.recvSeq cls h.seq }

end Machine

end Sys2Proof
end

