-- ==== Sys2Proof/WellFormed.lean ====
section
/-! DEFINITION. Sys2Proof/WellFormed.lean: which operands are events of this hardware: what the widths and the layouts of the
spec require of them. `exec` is defined on every operand. -/

namespace Sys2Proof

/-- A round has the channels of 01 R17: 32 sensors, rails, four canary groups, eight twins. -/
def RoundReadings.wf (r : RoundReadings) : Bool :=
  r.counts.length == 32 && r.railsMv.length == 12 && r.slack.length == 4 &&
  r.twins.length == 8

/-- A width of a host write in bytes. -/
def barWidth (w : Nat) : Bool := w == 1 || w == 2 || w == 4 || w == 8

/-- A number of lanes that a link trains to. -/
def linkLanes (n : Nat) : Bool := n == 1 || n == 2 || n == 4 || n == 8 || n == 16

/-- Entries of 64 bytes (05 R180). -/
def FetchWhat.wf : FetchWhat → Bool
  | .entries _ _ (some l) => l.all (fun e => e.length == 64)
  | .entries _ _ none => true
  | .scatterList _ (some d) => d.length % 8 == 0
  | .scatterList _ none => true
  | .scatterFail _ => true

/-- Label copies are pages of 4,096 bytes (04 R163). -/
def MemberId.wf (m : MemberId) : Bool := m.labelA.length == 4096 && m.labelB.length == 4096

/-- A sector of 4,096 bytes, or one that carries no data (10 R367, R386). -/
def LineSector.wf (x : LineSector) : Bool := x.data.length == 4096 || x.data.isEmpty

/-- Spans lie inside a slice of 16 sectors (07 R282). -/
def JnlWire.wf (e : JnlWire) : Bool := decide (1 ≤ e.count ∧ e.first + e.count ≤ 16)

/-- Whether a command's operands are an event of the hardware. -/
def Instr.wf (i : Instr) : Bool :=
  match i with
  | .intakeBeginEntry .. => true
  | .intakeResume => true
  | .rowOrderRelease .. => true
  | .laneWake .. => true
  | .laneGate .. => true
  | .memberGroupGate .. => true
  | .domainWake .. => true
  | .housekeepingRound r => r.wf
  | .throttleGraceEnd .. => true
  | .throttleEscalate .. => true
  | .clockRelockDone => true
  | .thermtrip => true
  | .xtalLoss => true
  | .pllLockLoss .. => true
  | .marginPlan m => m.twins.length == 8
  | .deepStandby => true
  | .planStage .. => true
  | .planCommit => true
  | .planSwitch => true
  | .planKeyInstall .. => true
  | .planKeyRemove .. => true
  | .scheduleStored => true
  | .longWait .. => true
  | .planSectionReload .. => true
  | .profileRead => true
  | .profileWrite p => p.name.length == 16
  | .profileSelect => true
  | .profileLock .. => true
  | .profileQuiesceApply => true
  | .dispatch .. => true
  | .look .. => true
  | .mrd .. => true
  | .mrdLateReport .. => true
  | .mwr .. => true
  | .gmx .. => true
  | .xor .. => true
  | .tag .. => true
  | .jnl .. => true
  | .premarkTimeout .. => true
  | .jcl .. => true
  | .wait .. => true
  | .br .. => true
  | .bz .. => true
  | .bnz .. => true
  | .call .. => true
  | .ret .. => true
  | .done .. => true
  | .trap .. => true
  | .nop .. => true
  | .stageResultWritten .. => true
  | .programStoreReload => true
  | .registerWrite _ _ w _ => barWidth w
  | .read .. => true
  | .write .. => true
  | .writeFua .. => true
  | .flush .. => true
  | .deallocate .. => true
  | .verify .. => true
  | .routineCall .. => true
  | .acceptLoss .. => true
  | .identify => true
  | .ringCreate d => d.length == 32
  | .ringReset => true
  | .ringShutdown => true
  | .ringEnable => true
  | .abort => true
  | .drainEnd .. => true
  | .sqDoorbell .. => true
  | .cqDoorbell .. => true
  | .push _ _ d => d.length != 0
  | .fetchComplete w => w.wf
  | .coalesceTimeout .. => true
  | .msixVectorUnmask .. => true
  | .pf0Flr .. => true
  | .adminCtlWrite .. => true
  | .poolStatus => true
  | .lostListRead => true
  | .memberAdopt => true
  | .memberRetire => true
  | .memberFail => true
  | .patrolStart => true
  | .ledgerRead => true
  | .ledgerSet .. => true
  | .ledgerLock => true
  | .ledgerUnlock .. => true
  | .logRead => true
  | .logClear .. => true
  | .logFlush => true
  | .hostTime => true
  | .attest n => n.length == 32
  | .certRead => true
  | .ownerEnrol .. => true
  | .fwStage .. => true
  | .fwCommit .. => true
  | .sensorMask .. => true
  | .learnApprove => true
  | .nvmeIdentify .. => true
  | .nvmeCreateIoQueue .. => true
  | .nvmeDeleteIoQueue .. => true
  | .nvmeGetLogPage .. => true
  | .nvmeGetFeatures .. => true
  | .nvmeSetFeatures .. => true
  | .nvmeAsyncEventRequest .. => true
  | .nvmeAbort .. => true
  | .nvmeRead .. => true
  | .nvmeWrite .. => true
  | .nvmeFlush .. => true
  | .nvmeWriteZeroes .. => true
  | .nvmeDatasetManagement _ _ l => decide (l.length ≤ 256)
  | .nvmeControllerReset .. => true
  | .evictionEnd .. => true
  | .allocationRetry .. => true
  | .allocationLongWait .. => true
  | .destageAge _ _ n => decide (n < 16)
  | .destageRetry _ _ n => decide (n < 16)
  | .tagScrub .. => true
  | .dramScrub .. => true
  | .regionSweep => true
  | .checkpoint => true
  | .rangeInvalidate .. => true
  | .wayMaskWrite .. => true
  | .unnamedLossClear => true
  | .memberCommandCompletion _ _ d _ => d.length % 4096 == 0
  | .slowMark .. => true
  | .failLatencyTimeout .. => true
  | .suspectWindowExpiry .. => true
  | .slotFailureCommit .. => true
  | .memberAbortTimeout .. => true
  | .linkRetrainTimeout .. => true
  | .memberSidebandFrame .. => true
  | .memberRemoved .. => true
  | .memberInserted _ m => m.wf
  | .discoveryWindowClose => true
  | .memberPrepDone .. => true
  | .boundaryCommit .. => true
  | .healthLogRead .. => true
  | .enduranceLogRead .. => true
  | .patrolPassDue .. => true
  | .patrolProgressCommit .. => true
  | .reshapeWalkStart .. => true
  | .reshapeCommit .. => true
  | .hello _ m => m.planHash.length == 32 && m.poolOwner.length == 8 && m.poolEpoch.length == 8
  | .heartbeat .. => true
  | .heartbeatSend => true
  | .heartbeatTimeout => true
  | .farewell .. => true
  | .suspectNotice .. => true
  | .mirrorWrite _ l => !l.isEmpty && l.all LineSector.wf
  | .mirrorAck .. => true
  | .mirrorClean .. => true
  | .jnlMirror _ e => e.wf
  | .jnlRetire .. => true
  | .ledgerPrepare .. => true
  | .ledgerVote .. => true
  | .ledgerDecide .. => true
  | .quiesce .. => true
  | .quiesceDone .. => true
  | .forwardCmd _ _ e => e.length == 64
  | .forwardData _ _ _ d => d.length % 4096 == 0
  | .forwardCpl .. => true
  | .memberReport .. => true
  | .resyncLine _ l e => l.all LineSector.wf && (match e with | some j => j.wf | none => true)
  | .resyncDone .. => true
  | .xfer .. => true
  | .pairLinkUp w => linkLanes w.val && decide (w.val ≤ 8)
  | .pairLinkDown => true
  | .reservationBeat .. => true
  | .lossDecision => true
  | .helloTimeout .. => true
  | .force .. => true
  | .pairXferGo .. => true
  | .pfailN .. => true
  | .railMonitorTrip .. => true
  | .flushEnd .. => true
  | .postFlushReset => true
  | .vaultHotWaitEnd .. => true
  | .powerGood .. => true
  | .ready => true
  | .pwrokFall => true
  | .perstN .. => true
  | .vaultHalfEraseDone .. => true
  | .restoreEnd => true
  | .countersCommit => true
  | .ledgerScrub .. => true
  | .bootVolWrite .. => true
  | .retrainRequest .. => true
  | .packIdentityRead b => match b with | some l => l.length == 128 | none => true
  | .packPresN _ b => match b with | some l => l.length == 128 | none => true
  | .restPoint => true
  | .packUnproven => true
  | .learnRepropose => true
  | .learnDischargeEnd => true
  | .learnTimeout => true
  | .chargerStuck => true
  | .faultMessage .. => true
  | .blockResetEnd .. => true
  | .resetShadowEnd .. => true
  | .fcForce w _ => barWidth w
  | .fcClear .. => true
  | .errClr .. => true
  | .evtCtlFlush => true
  | .attestSigned => true
  | .setEndpointId .. => true
  | .getEndpointId => true
  | .getEndpointUuid => true
  | .getMctpVersionSupport => true
  | .getMessageTypeSupport => true
  | .getVendorDefinedMessageSupport => true
  | .getStatus .. => true
  | .attestStart _ _ n => n.length == 32
  | .readObject _ _ o n => decide (o < 2 ^ 32 ∧ n < 2 ^ 16)
  | .setEventReceiver .. => true
  | .wake .. => true
  | .extest .. => true
  | .idcode => true
  | .samplePreload .. => true
  | .highz => true
  | .clamp => true
  | .extestPulse .. => true
  | .extestTrain .. => true
  | .bypass c => decide (7 ≤ c.toNat)
  | .hostDataRead _ d => match d with | some l => l.length % 4096 == 0 | none => true
  | .memberLinkDown .. => true
  | .memberLinkRetrained .. => true
  | .controllerFatal .. => true
  | .hostLinkTrained _ w _ _ _ => w.val == 0 || linkLanes w.val
  | .pf1QueueDoorbell .. => true
  | .pf1ControllerEnable .. => true
  | .vaultReadComplete _ p _ => decide (p < 4194304)
  | .pllRelocked .. => true
  | .xtalRestored => true

end Sys2Proof
end

