-- ==== Sys2Proof/Certificates/Slice0/Obligations.lean ====
section
/-! DEFINITION. Sys2Proof/Certificates/Slice0/Obligations.lean: the statements about the block. A statement's docstring says what
it states and which sections of the spec it rests on; where it rests on a choice of the model, it names the log entry. -/

open Sys2Proof Sys2Proof.Machine

/-- A step on a state with command c at the front of its queue is exec of c on the state with the rest of the queue. On an empty
queue the step answers the state with its clock one microsecond on and nothing else changed (the model's choice, log entry
10). Cites: 95_what_each_step_holds. -/
def Obligations.StepRunsTheFrontCommand : Prop :=
  (∀ (c : Instr) (rest : List Instr) (s : State), step { s with pending := c :: rest } = exec c { s with pending := rest }) ∧
  ∀ s : State, s.pending = [] → step s = .next { s with now := s.now + 1 }

/-- Whatever command runs, on whatever state: where it answers a next state, the queue of that state is the queue it was given.
(The queue is the model's own field, log entry 10.) Cites: 95_what_each_step_holds. -/
def Obligations.CommandsLeaveTheQueue : Prop :=
  ∀ (i : Instr) (s t : State), exec i s = .next t → t.pending = s.pending

/-- Every command whose operands are an event of the hardware answers a next state in every state; HOUSEKEEPING_ROUND with a wrong
number of channels faults (malformed), in every state. Cites: 13_thermal_ageing_clocks: The housekeeping round;
95_what_each_step_holds. -/
def Obligations.WellFormedCommandsAnswer : Prop :=
  (∀ (i : Instr) (s : State), i.wf = true → ∃ t, exec i s = .next t) ∧
  ∀ (r : RoundReadings) (s : State), roundSound r = false → exec (.housekeepingRound r) s = .fault .malformed

/-- For every state s, in reach of a run or not: if a step answers t, the anti-rollback count of t is at least that of s, and
every firmware key that s shows as revoked is revoked in t. No power loss, reset, boot or command gives a fuse back. Cites:
15_security_and_management: Keys, fuses and the boot ROM. -/
def Obligations.FusesOnlyBlow : Prop :=
  ∀ s t : State, step s = .next t → s.sec.arb ≤ t.sec.arb ∧ s.sec.revoked &&& t.sec.revoked = s.sec.revoked

/-- Where a command answers a next state: the firmware slots are as before unless the command is FW_STAGE; the slot pointer is as
before unless it is FW_COMMIT; the anti-rollback count and the revoked keys are as before unless it is READY. Cites:
15_security_and_management: Keys, fuses and the boot ROM; 15_security_and_management: Firmware update. -/
def Obligations.FirmwareChangesByItsCommandsOnly : Prop :=
  ∀ (i : Instr) (s t : State), exec i s = .next t →
    ((∀ d, i ≠ .fwStage d) → t.sec.slots = s.sec.slots) ∧
    ((∀ d, i ≠ .fwCommit d) → t.sec.pointer = s.sec.pointer) ∧
    (i ≠ .ready → t.sec.arb = s.sec.arb ∧ t.sec.revoked = s.sec.revoked)

/-- A step whose front command is none of the commands that bear on the ledger's own records, on a reset of the chip or on the
test access port leaves the owner key, the ledger lock, the cohort number, the sensor mask, the endpoint ID and the state of
the test access port as they were; a step on an empty queue does too. Cites: 11_power_fail_boot_ledger: The ledger;
15_security_and_management: Owner enrolment and authorisations; 16_electrical_and_package: Boundary scan. -/
def Obligations.OwnerAndLockFrame : Prop :=
  ∀ s t : State, step s = .next t →
    (∀ c, s.pending.head? = some c → bearsOnRecords c = false) →
    t.led.ownerKey = s.led.ownerKey ∧ t.led.locked = s.led.locked ∧ t.led.cohort = s.led.cohort ∧
    t.therm.mask = s.therm.mask ∧ t.sec.eid = s.sec.eid ∧ t.tap = s.tap

/-- A begun READ runs, after the DRAM errors met in the cached sectors it reads. A begun WRITE or WRITE_FUA of the host goes to
its data phase and leaves one host read for each run of its scatter list, in order; while the cache is out of service it is
staged instead, its data to be read at stage 4. One that the peer sent goes to its data phase and reads nothing from the host.
One that is forwarded to the peer leaves its host reads. Nothing else changes. When the host data of a command in its data
phase is read, the command is staged with its sectors of 4,096 bytes; when the read fails, it completes with TRANSFER_ERROR
(0x0009) and its operations are freed, so that no data of it enters the cache. The data of a running write goes to its
operations that hold their staging sectors. The data of a forwarded WRITE or WRITE_FUA is sent to the peer, at most 15 sectors
a message, or the command completes with TRANSFER_ERROR. Cites: 06_commands: I/O commands; 07_cache_and_write_hole: The write
path; 07_cache_and_write_hole: Errors in data, tags and shadow; 01_architecture: The data path; 10_pair_operation: One array
to the hosts. -/
def Obligations.IoTransfers : Prop :=
  (
    ∀ (c : Nat) (x : Cmd) (s : State), cmdOf c s = some x →
      let reads := (x.sgl.map (fun r => Out.hostRead x.port r.1 r.2)).reverse
      (x.opcode = 0x01 → x.ph = .begun → ∀ errs : List DramErr,
        exec (.read { cmd := c, errs := errs }) s = .next (settle (updCmd c (fun y => { y with ph := .running })
          (meetDram (fun s => (opsOfCmd c s).flatMap (fun o => opReads o s)) errs s))) ∧
        exec (.read { cmd := c }) s = .next (settle { s with pipe.cmds := tset s.pipe.cmds c { x with ph := .running } })) ∧
      ∀ i : Instr, (x.opcode = 0x02 ∧ i = .write c) ∨ (x.opcode = 0x03 ∧ i = .writeFua c) →
        (x.ph = .begun → (∀ tag, x.src ≠ .peer tag) → cacheOn s = true →
          exec i s = .next { s with pipe.cmds := tset s.pipe.cmds c { x with ph := .data }, out := reads ++ s.out }) ∧
        (x.ph = .begun → (∀ tag, x.src ≠ .peer tag) → cacheOn s = false →
          exec i s = .next { s with pipe.cmds := tset s.pipe.cmds c { x with ph := .staged } }) ∧
        (x.ph = .begun → (∃ tag, x.src = .peer tag) →
          exec i s = .next { s with pipe.cmds := tset s.pipe.cmds c { x with ph := .data } }) ∧
        (x.ph = .forwarded → (∀ tag, x.src ≠ .peer tag) → exec i s = .next { s with out := reads ++ s.out })) ∧
  (
    ∀ (c : Nat) (x : Cmd) (s : State), cmdOf c s = some x →
      (x.ph = .data →
        exec (.hostDataRead c none) s =
          .next (settle (finishCmd c 0x0009 0 ((opsOfCmd c s).foldl (fun s o => freeOp o s) s))) ∧
        ∀ d : List Byte, exec (.hostDataRead c (some d)) s = .next (settle { s with
          pipe.cmds := tset s.pipe.cmds c { x with
            ph := .staged, wdata := (List.range x.count).map (fun o => (o, padTo 4096 (slice d (4096 * o) 4096))) } })) ∧
      (x.ph = .running → ∀ d : Option (List Byte), exec (.hostDataRead c d) s = .next (settle (stageData c x d s))) ∧
      (x.ph = .forwarded → x.opcode = 0x02 ∨ x.opcode = 0x03 →
        exec (.hostDataRead c none) s = .next (settle (finishCmd c 0x0009 0 s)) ∧
        ∀ d : List Byte, exec (.hostDataRead c (some d)) s = .next (settle
          ((piecesOf (4096 * 15) (padTo (x.count * 4096) d)).foldl (fun s p => sendPair (.forwardData true c p) s)
            (mirrorOwn x (padTo (x.count * 4096) d) s)))))

/-- A begun FLUSH waits, after its own step, for the dirty sectors and vault sectors of its volume, or of every volume with ALL
set, as they are when it begins; while the pair holds a pool that it covers it is held instead. A begun VERIFY waits for the
dirty ones of its range; a begun ROUTINE_CALL for the dirty ones of the slices that its routine may write. Cites: 06_commands:
I/O commands; 03_fleist: Host-invoked routines. -/
def Obligations.CommandsWaitForDirtySectors : Prop :=
  ∀ (c : Nat) (x : Cmd) (s : State), cmdOf c s = some x → x.ph = .begun →
    (x.opcode = 0x04 → entryOwn x.entry s = .hold →
      exec (.flush c) s = .next (settle { s with pipe.cmds := tset s.pipe.cmds c { x with ph := .held } })) ∧
    (x.opcode = 0x04 → entryOwn x.entry s ≠ .hold → Settles (.flush c) s (fun u => ∃ y, cmdOf c u = some y ∧ y.ph = .waiting ∧
      y.waitSecs = dirtyPlaces (if byteAt x.entry 40 = 1 then none else some x.volume) s ∧
      y.waitVault = vaultPlaces (if byteAt x.entry 40 = 1 then none else some x.volume) s)) ∧
    (x.opcode = 0x06 → Settles (.verify c) s (fun u => ∃ y, cmdOf c u = some y ∧ y.ph = .waiting ∧
      (y.waitSecs, y.waitVault) = dirtyAmong (cmdSecs x.volume x.lba x.count s) s)) ∧
    (x.opcode = 0x07 → Settles (.routineCall c) s (fun u => ∃ y, cmdOf c u = some y ∧ y.ph = .waiting ∧
      (y.waitSecs, y.waitVault) = dirtyAmong (((opsOfCmd c s).filterMap (fun o => opOf o s)).flatMap
        (fun op => if mayWrite op s then sliceSecs op s else [])) s))

/-- A begun DEALLOCATE goes on as a write of zero sectors, its whole slices first. A begun ACCEPT_LOSS of KIND 0 drops the
lost-write records of its range and completes with SUCCESS and their number. One of KIND 1 releases the lost sectors of its
range and completes with SUCCESS and their number; where one of them cannot be released, for want of room in the list, it
completes with BUSY (0x0005), RESULT 0x0209, and releases none. Cites: 06_commands: I/O commands; 08_failure_and_rebuild: Lost
extents. -/
def Obligations.DeallocateAndAcceptLoss : Prop :=
  ∀ (c : Nat) (x : Cmd) (s : State), cmdOf c s = some x → x.ph = .begun →
    (x.opcode = 0x05 → exec (.deallocate c) s = .next (settle (placeWrite c (deallocPass c { s with
      pipe.cmds := tset s.pipe.cmds c { x with
        ph := .staged, wdata := (List.range x.count).map (fun o => (o, zeroSector)) } })))) ∧
    (x.opcode = 0x08 → byteAt x.entry 40 = 0 →
      let gone := (cmdSecs x.volume x.lba x.count s).filter (fun e =>
        isLostW e.1 (lineOf e.1 e.2.1 e.2.2.1 e.2.2.2 s).1 (lineOf e.1 e.2.1 e.2.2.1 e.2.2.2 s).2 s)
      exec (.acceptLoss c) s = .next (settle (finishCmd c 0 (BitVec.ofNat 32 gone.length) (gone.foldl (fun s e =>
        dropLostW e.1 (lineOf e.1 e.2.1 e.2.2.1 e.2.2.2 s).1 (lineOf e.1 e.2.1 e.2.2.1 e.2.2.2 s).2 s) s)))) ∧
    (x.opcode = 0x08 → byteAt x.entry 40 ≠ 0 →
      let secs := cmdSecs x.volume x.lba x.count s
      let gone := secs.filter (fun e => lostNow e.1 e.2.1 e.2.2.1 e.2.2.2 s)
      let t := gone.foldl (fun s e => releaseE e s) s
      let left (e : Nat × Nat × Nat × Nat) : Prop := lostNow e.1 e.2.1 e.2.2.1 e.2.2.2 t = true
      ((∃ e ∈ gone, left e) → exec (.acceptLoss c) s = .next (settle (finishCmd c 0x0005 0x0209 s))) ∧
      ((∀ e ∈ gone, ¬ left e) → exec (.acceptLoss c) s = .next (settle (finishCmd c 0 (BitVec.ofNat 32 gone.length)
        (lostChanged (secs.headD (0, 0, 0, 0)).1 s t)))))

/-- After the tag errors that stand, which it meets, with fetch running and a ring whose turn it is, INTAKE_BEGIN_ENTRY stores the
turn and begins the entry at that ring's head: the head passes it, the ring and its completion ring count it, the bucket pays
for one of an I/O ring, and a command is made of it and checked; an entry that ABORT marked completes with ABORTED_BY_HOST
(0x0008) instead. With fetch stopped, the domains without a clock or no turn, it begins nothing. INTAKE_RESUME places the held
operations from the oldest on, as long as the oldest finds its place; while intake is held it places none. ROW_ORDER_RELEASE
lets each operation that is first on its row, with no other busy there, go on, for the layout that runs and a reshape's
target. Cites: 05_host_rings: Fetch and arbitration; 06_commands: Acceptance and checking; 01_architecture: The data path;
07_cache_and_write_hole: Errors in data, tags and shadow. -/
def Obligations.IntakeBeginsAndHolds : Prop :=
  (∀ (s0 : State),
    let s := s0.cache.tagErrs.foldl (fun s e => tagError e s) { s0 with cache.tagErrs := [] }
    (fetchStopped s = true ∨ domainsRun s = false ∨ nextTurn s = none →
      exec .intakeBeginEntry s0 = .next (settle s)) ∧
    ∀ (p r last left : Nat) (e : List Byte), fetchStopped s = false → domainsRun s = true →
      nextTurn s = some (p, r, last, left) → entryOf (ringOf r s) (ringOf r s).head = some e →
      ∃ turn : Bool,
      let s1 := updPort p (fun q => { q with lastRing := last, turnLeft := left, pf1Turn := turn }) { s with pipe.lastPort := p }
      ((ringOf r s1).marked.contains (ringOf r s1).head.toNat = true →
        exec .intakeBeginEntry s0 = .next (settle (completeHead r e 0x0008 s1))) ∧
      ((ringOf r s1).marked.contains (ringOf r s1).head.toNat = false →
        let admin := r == ringFirst (ringPort r s1) s1
        let t := updRing r (fun v => { v with open_ := v.open_ + 1 }) (takeHead r s1)
        let s2 := updRing (ringOf r t).bind (fun v => { v with charge := v.charge + 1 }) t
        let m := newCmd (.ring r) (ringPort r s1) e (if admin then s2 else debit (entBytes e) s2)
        exec .intakeBeginEntry s0 = .next (settle (beginCmd admin m.1 m.2)))) ∧
  (∀ s : State,
    (intakeHeld s = true → exec .intakeResume s = .next (settle s)) ∧
    (intakeHeld s = false → exec .intakeResume s = .next (settle
      (s.pipe.held.foldl (fun t o => if t.pipe.held.head? = some o then placeOp o t else t) s)))) ∧
  ∀ (pool : Fin 8) (row : Nat) (s : State),
    exec (.rowOrderRelease pool row) s = .next (settle ([pool.val, pool.val + 8].foldl (fun t l =>
      (rowOps l row t).foldl (fun t e =>
        if firstOnRow e.2 t = true ∧ rowBusy e.1 l row t = false then updOp e.1 (fun y => { y with rowOk := true }) t else t) t) s))

/-- LANE_WAKE makes a waking, usable lane awake, restarts its idle time and places what intake held; for another lane it does
nothing. LANE_GATE gates a lane that may gate unless a wake request comes in the same cycle, which wins. MEMBER_GROUP_GATE
gates a group whose ports are each empty or in L1.2, without a command outstanding, and stops its PLL. DOMAIN_WAKE makes its
domain accept work unless it is fenced; a member group's PLL runs again and the commands that waited for it go out. Nothing
else changes. (That the clock stands at the timer's end is the model's choice, log entry 10.) Cites: 01_architecture: Power
domains and clocks. -/
def Obligations.DomainsGateAndWake : Prop :=
  (∀ (l : Fin 8) (s : State),
    ((tget s.dev.waking l.val).isSome = true → laneUnusable l.val s = false →
      exec (.laneWake l) s = .next (settle (placeHeld { s with
        dev.laneAwake := s.dev.laneAwake ||| BitVec.ofNat 8 (2 ^ l.val), dev.waking := tdel s.dev.waking l.val,
        dev.laneIdle := tset s.dev.laneIdle l.val s.now }))) ∧
    (tget s.dev.waking l.val = none ∨ laneUnusable l.val s = true → exec (.laneWake l) s = .next (settle s)) ∧
    exec (.domainWake (.lane l)) s = exec (.laneWake l) s) ∧
  (∀ (l : Fin 8) (s : State),
    (laneMayGate l.val s = true → exec (.laneGate l false) s = .next { s with
      now := max s.now (tgetD s.dev.laneIdle l.val 0 + s.dev.idleUs),
      dev.laneAwake := s.dev.laneAwake &&& ~~~ BitVec.ofNat 8 (2 ^ l.val) }) ∧
    (laneMayGate l.val s = false → exec (.laneGate l false) s = .next s) ∧
    exec (.laneGate l true) s = .next s) ∧
  (∀ (g : Fin 16) (l12 : BitVec 8) (s : State),
    (groupMayGate g.val l12 s = true → ∃ t, s.now ≤ t ∧ exec (.memberGroupGate { group := g, l12 := l12 }) s = .next { s with
      now := t, dev.groupAwake := s.dev.groupAwake &&& ~~~ BitVec.ofNat 16 (2 ^ g.val),
      therm.groupLock := s.therm.groupLock &&& ~~~ BitVec.ofNat 16 (2 ^ g.val) }) ∧
    (groupMayGate g.val l12 s = false → exec (.memberGroupGate { group := g, l12 := l12 }) s = .next s) ∧
    (groupMayGate g.val l12 s = true ↔ s.dev.groupAwake.getLsbD g.val = true ∧ s.dev.memberGateEn = true ∧
      (∀ e ∈ s.mem.ports, portGroup e.1 = g.val → e.2.present = true → l12.getLsbD (e.1 % 8) = true) ∧
      ∀ e ∈ s.mem.cmds, portGroup e.2.port = g.val → e.2.dead = true)) ∧
  (∀ (n : Fin 4) (s : State),
    exec (.domainWake (.controlCore n)) s = .next (if s.dev.ctrlFence.getLsbD n.val then s
      else { s with dev.coreAwake := s.dev.coreAwake ||| BitVec.ofNat 4 (2 ^ n.val) })) ∧
  (∀ (n : Fin 16) (s : State),
    (s.dev.groupFence.getLsbD n.val = true → exec (.domainWake (.memberGroup n)) s = .next s) ∧
    (s.dev.groupFence.getLsbD n.val = false → ∃ up,
      let t := { s with dev.groupAwake := s.dev.groupAwake ||| BitVec.ofNat 16 (2 ^ n.val),
                        dev.groupWaking := tdel s.dev.groupWaking n.val, dev.groupUpAt := up }
      exec (.domainWake (.memberGroup n)) s = .next (startGroup n.val t) ∧
      ((∀ e ∈ s.mem.stopped, portGroup e.1 ≠ n.val) →
        startGroup n.val t = { t with therm.groupLock := s.therm.groupLock ||| BitVec.ofNat 16 (2 ^ n.val) }))) ∧
  (∀ s : State, exec (.domainWake .cache) s = .next (if cacheOn s then { s with dev.cacheActive := true } else s)) ∧
  (∀ s : State, exec (.domainWake .hostLink) s = .next { s with port0.inL12 := false, port1.inL12 := false }) ∧
  ∀ s : State, exec (.domainWake .pairLink) s = .next (if s.dev.pairFence then s else { s with dev.pairActive := true })

/-- For a doorbell of value t to an ACTIVE submission ring of the port, with d_new = (t - head) mod 2^32, d_old = (tail - head)
mod 2^32 and size the ring's entries: d_new > size and (tail - t) mod 2^32 <= size, or d_new <= size and d_new < d_old, leaves
every ring as it was and counts one stale value; d_new > size and (tail - t) mod 2^32 > size puts the ring in ERROR with cause
DOORBELL_RANGE (1); otherwise the tail becomes t, and the ring's head and state stay. Cites: R190. -/
def Obligations.SubmissionDoorbellRule : Prop :=
  ∀ (p : Fin 2) (r : Fin 262144) (w : DbWidth) (v : Word) (s : State), w ≠ .hi32 →
    barUp p.val s = true → ringIn p.val r.val s = true → (ringOf r.val s).st = .active → (ringOf r.val s).typ = 0 →
    let q := ringOf r.val s
    let t : Dword := v.setWidth 32
    ((ringSize q < cdiff t q.head ∧ cdiff q.tail t ≤ ringSize q) ∨
      (cdiff t q.head ≤ ringSize q ∧ cdiff t q.head < cdiff q.tail q.head) →
      Completes (.sqDoorbell p r w v) s (fun u => u.rings = s.rings ∧
        (getPort p.val u).stale = sat32 (getPort p.val s).stale 1)) ∧
    (ringSize q < cdiff t q.head ∧ ringSize q < cdiff q.tail t →
      exec (.sqDoorbell p r w v) s = .next (ringError r.val 1 (0x020 + p.val) (countDbError p.val s))) ∧
    (cdiff t q.head ≤ ringSize q ∧ cdiff q.tail q.head ≤ cdiff t q.head →
      Completes (.sqDoorbell p r w v) s (fun u =>
        (ringOf r.val u).tail = t ∧ (ringOf r.val u).head = q.head ∧ (ringOf r.val u).st = .active))

/-- For a doorbell of value h to an ACTIVE completion or async event ring of the port, with avail = (tail - head) mod 2^32 and d =
(h - head) mod 2^32: d <= avail moves the head to h, and what waited for room is then written; otherwise (head - h) mod 2^32
<= size counts one stale value and changes nothing else; otherwise the ring enters ERROR with cause DOORBELL_RANGE (1).
Draining rings then go on in each case. Cites: R191. -/
def Obligations.CompletionDoorbellRule : Prop :=
  ∀ (p : Fin 2) (r : Fin 262144) (w : DbWidth) (v : Word) (s : State), w ≠ .hi32 →
    barUp p.val s = true → ringIn p.val r.val s = true → (ringOf r.val s).st = .active → (ringOf r.val s).typ ≠ 0 →
    let q := ringOf r.val s
    let h : Dword := v.setWidth 32
    (cdiff h q.head ≤ cdiff q.tail q.head →
      exec (.cqDoorbell p r w v) s = .next (settleDrains (deliverEvents 17 p.val (drainStash 1048576 r.val
        (setRing r.val { q with head := h } s))))) ∧
    (cdiff q.tail q.head < cdiff h q.head → cdiff q.head h ≤ ringSize q →
      exec (.cqDoorbell p r w v) s = .next (settleDrains (updPort p.val (fun y => { y with stale := sat32 y.stale 1 }) s))) ∧
    (cdiff q.tail q.head < cdiff h q.head → ringSize q < cdiff q.head h →
      exec (.cqDoorbell p r w v) s = .next (settleDrains (ringError r.val 1 (0x020 + p.val)
        (updPort p.val (fun y => { y with dbErrors := sat32 y.dbErrors 1 }) s))))

/-- A write of 64 bytes that covers a push slot of an ACTIVE submission ring with pushes enabled, whose ETAIL is the tail plus 1,
in the slot of the tail's parity, not held, within the ring: its copy is stored, the tail becomes ETAIL, and PUSH_ACCEPT
counts it. Any other write of a slot of such a ring applies ETAIL as a doorbell whose range error has cause PUSH_RANGE (2),
and PUSH_DISCARD counts it. A write that is not 64 bytes over a whole slot, or that goes to a ring that is not ACTIVE or takes
no pushes, changes no ring and is counted. A doorbell, to a submission or a completion ring of the port that is not ACTIVE,
adds one to the port's doorbell errors and changes no ring. A 32-bit write to bits [63:32] alone changes nothing; after one to
a completion ring, draining rings go on as they may. Cites: 05_host_rings: Push windows; 05_host_rings: Doorbells. -/
def Obligations.PushesAndStoppedRings : Prop :=
  (
    ∀ (p : Fin 2) (off : BitVec 25) (d : List Byte) (s : State), barUp p.val s = true →
      let r := off.toNat / 128
      let slot := off.toNat / 64 % 2
      let v := ringOf r s
      let e : Dword := BitVec.ofNat 32 (leAt d 4 4)
      let next := e = v.tail + 1 ∧ slot = v.tail.toNat % 2 ∧ (if slot = 1 then v.push1 else v.push0) = none ∧
        cdiff e v.head ≤ ringSize v
      (off.toNat % 64 ≠ 0 ∨ d.length ≠ 64 ∨ ringIn p.val r s = false ∨ v.st ≠ .active ∨ v.typ ≠ 0 ∨ v.pushEn = false →
        exec (.push p off d) s = .next (updPort p.val (fun q => { q with pushDiscard := sat32 q.pushDiscard 1 }) s)) ∧
      (off.toNat % 64 = 0 → d.length = 64 → ringIn p.val r s = true → v.st = .active → v.typ = 0 → v.pushEn = true →
        (next → Completes (.push p off d) s (fun u =>
          (ringOf r u).tail = e ∧ (ringOf r u).head = v.head ∧
          (if slot = 1 then (ringOf r u).push1 else (ringOf r u).push0) = some d ∧
          (getPort p.val u).pushAccept = sat32 (getPort p.val s).pushAccept 1)) ∧
        (¬ next → exec (.push p off d) s =
          .next (updPort p.val (fun q => { q with pushDiscard := sat32 q.pushDiscard 1 }) (applyTail p.val r e 2 s))))) ∧
  (
    ∀ (p : Fin 2) (r : Fin 262144) (w : DbWidth) (v : Word) (s : State), barUp p.val s = true → ringIn p.val r.val s = true →
      (w ≠ .hi32 → (ringOf r.val s).st ≠ .active →
        exec (.sqDoorbell p r w v) s = .next (updPort p.val (fun y => { y with dbErrors := sat32 y.dbErrors 1 }) s) ∧
        Completes (.sqDoorbell p r w v) s (fun u => u.rings = s.rings) ∧
        exec (.cqDoorbell p r w v) s =
          .next (settleDrains (updPort p.val (fun y => { y with dbErrors := sat32 y.dbErrors 1 }) s))) ∧
      exec (.sqDoorbell p r .hi32 v) s = .next s ∧ exec (.cqDoorbell p r .hi32 v) s = .next (settleDrains s))

/-- Entries that arrive for a ring are stored, and an ABORT that waited for them goes on. A failed read of an entry leaves the
entry without content; the ring, if ACTIVE, enters ERROR with cause FETCH (3); of a DRAINING ring only a message is raised. A
scatter list of a ring's command that is read and valid becomes the command's runs: for an admin command nothing else happens,
an I/O command starts. An invalid list ends the command with INVALID_FIELD (0x0002); so does a failed read of it, with cause
FETCH to an ACTIVE ring; a list whose read reports a transfer error ends it with TRANSFER_ERROR (0x0009). When the coalescing
time of a ring with unsignalled completions is over, its vector is signalled. DRAIN_END ends a drain whose entries have all
ended. Cites: 05_host_rings: Fetch and arbitration; 05_host_rings: Interrupts; 05_host_rings: Ring states, reset and shutdown;
06_commands: Acceptance and checking. -/
def Obligations.FetchAndCoalesce : Prop :=
  (∀ (r : Fin 262144) (c : Dword) (es : List (List Byte)) (s : State),
    exec (.fetchComplete (.entries r c (some es))) s = .next (settle (kickAbort (entriesArrive r.val c es s)))) ∧
  (∀ (r : Fin 262144) (c : Dword) (s : State), (ringOf r.val s).reading.contains c.toNat = true →
    let v := ringOf r.val s
    let t := setRing r.val { v with
      reading := v.reading.filter (· != c.toNat), fetched := tset v.fetched c.toNat [] } s
    let src := 0x022 + ringPort r.val s
    (v.st = .active → ringPort r.val t = ringPort r.val s →
      exec (.fetchComplete (.entries r c none)) s = .next (settle (kickAbort (ringError r.val 3 src t)))) ∧
    (v.st = .draining → ringPort r.val t = ringPort r.val s →
      exec (.fetchComplete (.entries r c none)) s = .next (settle (kickAbort (raise src 0x34 r.val t))))) ∧
  (∀ (c : Nat) (x : Cmd) (r : Nat) (s : State), cmdOf c s = some x → x.ph = .list → x.src = .ring r →
    (∀ (d : List Byte) (runs : List (Nat × Nat)), parseList (decide (0x80 ≤ x.opcode)) x.entry d = some runs →
      exec (.fetchComplete (.scatterList c (some d))) s = .next (settle
        (if 0x80 ≤ x.opcode then updCmd c (fun y => { y with ph := .begun, sgl := runs }) s
         else startIo c (updCmd c (fun y => { y with ph := .begun, sgl := runs }) s)))) ∧
    (∀ d : List Byte, parseList (decide (0x80 ≤ x.opcode)) x.entry d = none →
      exec (.fetchComplete (.scatterList c (some d))) s = .next (settle (finishCmd c 0x0002 0 s))) ∧
    (let t := finishCmd c 0x0002 0 s
     exec (.fetchComplete (.scatterList c none)) s =
       .next (settle (if (ringOf r t).st = .active then ringError r 3 (0x022 + x.port) t else t)))) ∧
  (∀ (c : Nat) (x : Cmd) (s : State), cmdOf c s = some x → x.ph = .list →
    exec (.fetchComplete (.scatterFail c)) s = .next (settle (finishCmd c 0x0009 0 s))) ∧
  (∀ (r : Fin 262144) (s : State), (ringOf r.val s).st = .active → (ringOf r.val s).typ ≠ 0 → (ringOf r.val s).intEn = true →
    (ringOf r.val s).coalTime ≠ 0 → (ringOf r.val s).unsignalled ≠ 0 →
    exec (.coalesceTimeout r) s = .next (signal (ringPort r.val s) (ringOf r.val s).vector
      (setRing r.val { ringOf r.val s with unsignalled := 0 }
        { s with now := max s.now ((ringOf r.val s).firstAt + (ringOf r.val s).coalTime) }))) ∧
  ∀ (r : Fin 262144) (s : State), drainDone (ringOf r.val s) = true →
    let t := setRing r.val { ringOf r.val s with
      st := (ringOf r.val s).drainTo, push0 := none, push1 := none, fetched := [], reading := [], marked := [] } s
    exec (.drainEnd r) s = .next (endAdminDrain (ringPort r.val t) t) ∧
    ((getPort (ringPort r.val t) t).adminDraining = false → exec (.drainEnd r) s = .next t)

/-- Run as the admin operation: RING_CREATE with no failing check makes the ring of its descriptor; with one it completes with
INVALID_FIELD (0x0002) and its reason. RING_RESET and RING_SHUTDOWN of an ACTIVE submission ring, or one in ERROR, start its
drain towards IDLE and FREE; RING_SHUTDOWN frees an IDLE one; a completion or event ring to which no running ring is bound
drops its stash, its number the RESULT. RING_ENABLE of an IDLE ring makes it ACTIVE with empty slots and both counters at INIT
(the new INIT where one is given, else the ring's), and an async event ring then takes its port's pending events. ABORT on an
ACTIVE submission ring whose outstanding entries are all at hand marks those with the CID and completes with their number; it
fetches them first where one is not at hand. Cites: 05_host_rings: Creating a ring; 05_host_rings: Ring states, reset and
shutdown; 06_commands: Admin operations. -/
def Obligations.RingAdministration : Prop :=
  ∀ (c : Nat) (x : Cmd) (s : State),
    let r := arg x 40 4
    let v := ringOf r s
    (∀ d : List Byte, adminNow 0x81 s = some (c, x) →
      (createReason x.port r (adminIn x d) s = none →
        exec (.ringCreate d) s = .next (finishCmd c 0 0 (createRing x.port r (adminIn x d) s))) ∧
      ∀ n, createReason x.port r (adminIn x d) s = some n →
        exec (.ringCreate d) s = .next (finishCmd c 0x0002 (BitVec.ofNat 32 n) s)) ∧
    (∀ (i : Instr) (dest : RingSt),
      (i = .ringReset ∧ dest = .idle ∧ adminNow 0x82 s = some (c, x)) ∨
      (i = .ringShutdown ∧ dest = .free ∧ adminNow 0x83 s = some (c, x)) → ringNamed x.port r s = true →
      (v.st = .active ∨ v.st = .error → v.typ = 0 →
        exec i s = .next (finishCmd c 0 0 (settleDrains (kickRing r (setRing r
          { v with st := .draining, drainTail := v.tail, drainTo := dest, cause := 0 } s))))) ∧
      (v.st = .idle → v.typ = 0 → dest = .free →
        exec i s = .next (finishCmd c 0 0 (settleDrains (setRing r { v with st := .free } s)))) ∧
      (v.st = .active ∨ v.st = .error ∨ (v.st = .idle ∧ dest = .free) → v.typ ≠ 0 → bindsIdle r s = true →
        exec i s = .next (finishCmd c 0 (BitVec.ofNat 32 v.stash.length) (dropCompletion r dest s).2))) ∧
    (adminNow 0x84 s = some (c, x) → ringNamed x.port r s = true → v.st = .idle →
      let n := if bitN (arg x 48 1) 0 then BitVec.ofNat 32 (arg x 44 4) else v.init
      let t := setRing r { v with
        st := .active, push0 := none, push1 := none, fetched := [], reading := [], cause := 0, init := n, head := n, tail := n } s
      exec .ringEnable s = .next (finishCmd c 0 0 (if v.typ = 2 then deliverEvents 17 x.port t else t))) ∧
    (adminNow 0x85 s = some (c, x) → ringNamed x.port r s = true → v.st = .active → v.typ = 0 →
      ((∀ i ∈ outstanding v, (entryOf v i).isSome = true) →
        exec .abort s = .next (finishCmd c 0 (BitVec.ofNat 32 (abortMatches v (arg x 44 2)).length)
          (updRing r (fun v => { v with marked := (abortMatches v (arg x 44 2)).foldl nins v.marked }) s))) ∧
      ((∃ i ∈ outstanding v, (entryOf v i).isSome = false) →
        exec .abort s = .next (fetchRing r (updCmd c (fun y => { y with ph := .waiting }) s))))

/-- Unmasking a vector of the port clears its mask and pending bits, and sends its message when one was pending. FLR of a port
frees every ring context of the port, returns its admin registers to reset and raises a NOTICE of source 0x008. A write of
ADMIN_CTL with EN set, on a port without admin rings and with both sizes in 4 to 12, creates the admin submission and
completion rings at the bases, bound to each other, on vector 0, with the cap of the profile; before READY it waits for READY
instead; with another size, or while a shutdown drains, it sets ADMIN_ERR and creates none. A write with EN clear starts the
drain of the admin ring. Cites: 05_host_rings: Interrupts; 05_host_rings: Ring states, reset and shutdown; 05_host_rings: Ring
registers; 14_faults_and_event_log: Sources and default reactions. -/
def Obligations.PortRegistersAct : Prop :=
  (∀ (p : Fin 2) (n : Fin 2048) (s : State), barUp p.val s = true → s.dev.ready = true →
    let e := tgetD (getPort p.val s).msix n.val {}
    let s1 := setPort p.val { getPort p.val s with
      msix := tset (getPort p.val s).msix n.val { e with masked := false, pend := false } } s
    exec (.msixVectorUnmask p n) s = .next (if vectors p.val s ≤ n.val then s
      else if e.pend then emit (.msix p.val n.val e.addr e.data) s1 else s1)) ∧
  (∀ (p : Fin 2) (s : State), barUp p.val s = true →
    exec (.pf0Flr p) s = .next (raiseFree 0x008 0x3F (flrPort p.val s)) ∧
    Completes (.pf0Flr p) s (fun u => (∀ e ∈ u.rings, ringIn p.val e.1 s = false) ∧
      (getPort p.val u).en = false ∧ (getPort p.val u).adminSqBase = 0 ∧ (getPort p.val u).adminCqBase = 0)) ∧
  ∀ (p : Fin 2) (v : Word) (s : State), barUp p.val s = true →
    let q := getPort p.val s
    let a := fld v.toNat 7 4
    let b := fld v.toNat 11 8
    let q' := { q with pushEn := v.getLsbD 1, sqLog2 := a, cqLog2 := b }
    (v.getLsbD 0 = true → q.en = false → s.dev.ready = true → q.adminDraining = false → 4 ≤ a → a ≤ 12 → 4 ≤ b → b ≤ 12 →
      Completes (.adminCtlWrite p v) s (fun u => (getPort p.val u).en = true ∧
        ringOf (ringFirst p.val s) u = { st := .active, typ := 0, base := q.adminSqBase, log2 := a, pushEn := v.getLsbD 1,
                                         bind := ringFirst p.val s + 1 } ∧
        ringOf (ringFirst p.val s + 1) u = { st := .active, typ := 1, base := q.adminCqBase, log2 := b, intEn := true,
                                             cap := (prof s).cqCapDefault })) ∧
    (v.getLsbD 0 = true → q.en = false → s.dev.ready = true →
      q.adminDraining = true ∨ a < 4 ∨ 12 < a ∨ b < 4 ∨ 12 < b →
      Completes (.adminCtlWrite p v) s (fun u => (getPort p.val u).en = false ∧ (getPort p.val u).adminErr = true ∧
        u.rings = s.rings)) ∧
    (v.getLsbD 0 = true → q.en = false → s.dev.ready = false →
      exec (.adminCtlWrite p v) s = .next (setPort p.val { q' with en := true, enPending := true } s)) ∧
    (v.getLsbD 0 = false → q.en = true → q.enPending = true →
      exec (.adminCtlWrite p v) s = .next (setPort p.val { q' with en := false, enPending := false } s)) ∧
    (v.getLsbD 0 = false → q.en = true → q.enPending = false →
      exec (.adminCtlWrite p v) s = .next (startDrain (ringFirst p.val s) .free
        (setPort p.val { q' with en := false, adminDraining := true } s))) ∧
    (v.getLsbD 0 = q.en → exec (.adminCtlWrite p v) s = .next (setPort p.val q' s))

/-- A core about to issue a branch whose target IMM[16:0] lies in the running extent: BR sets the program counter to it; BZ does
when SA (with M: SA AND SB) is 0 and otherwise moves to the next word; BNZ in the opposite cases. The context changes in
nothing else but its count of issued instructions. With a target outside the extent each of the three faults with BRANCH_RANGE
(0x03), taken or not. Cites: 03_fleist: Instruction semantics. -/
def Obligations.BranchesFollowTheirTest : Prop :=
  ∀ (k : Fin 32) (c : Nat) (x : Ctx) (op : Op) (w : Word) (s : State), AboutTo k.val c x op w s →
    let i := insOf w
    let t := i.imm % 2 ^ 17
    let zero := (if i.low then x.sl i.sa &&& x.sl i.sb else x.sl i.sa) = 0
    (i.op = 0x0A → inExtent x t = true →
      Settles (.br k) s (fun u => ctxOf c u = some { x with pc := t, issued := x.issued + 1 })) ∧
    (i.op = 0x0B → inExtent x t = true → Settles (.bz k) s (fun u =>
      (zero → ctxOf c u = some { x with pc := t, issued := x.issued + 1 }) ∧
      (¬ zero → ctxOf c u = some { x with pc := x.pc + 1, issued := x.issued + 1 }))) ∧
    (i.op = 0x0C → inExtent x t = true → Settles (.bnz k) s (fun u =>
      (zero → ctxOf c u = some { x with pc := x.pc + 1, issued := x.issued + 1 }) ∧
      (¬ zero → ctxOf c u = some { x with pc := t, issued := x.issued + 1 }))) ∧
    (inExtent x t = false →
      (i.op = 0x0A → exec (.br k) s = .next (settle (programFault c x 0x03 (served k.val c s)))) ∧
      (i.op = 0x0B → exec (.bz k) s = .next (settle (programFault c x 0x03 (served k.val c s)))) ∧
      (i.op = 0x0C → exec (.bnz k) s = .next (settle (programFault c x 0x03 (served k.val c s)))))

/-- A core about to issue CALL with fewer than four calls open pushes the return address with the running extent and enters the
callee at IMM[16:0], whose extent is IMM[28:17] + 1 words; RET takes the top of the stack back; WAIT, once it issues, and NOP
move to the next word. CALL with four calls open and RET with none fault with code 0x04. Cites: 03_fleist: Instruction
semantics. -/
def Obligations.CallsReturnsWaitsAndNops : Prop :=
  ∀ (k : Fin 32) (c : Nat) (x : Ctx) (op : Op) (w : Word) (s : State), AboutTo k.val c x op w s →
    let i := insOf w
    (i.op = 0x0D → x.stack.length < 4 → Settles (.call k) s (fun u => ctxOf c u = some { x with
      stack := (x.pc + 1, x.extStart, x.extLen) :: x.stack, pc := i.imm % 2 ^ 17, extStart := i.imm % 2 ^ 17,
      extLen := fld i.imm 28 17 + 1, issued := x.issued + 1 })) ∧
    (i.op = 0x0D → 4 ≤ x.stack.length → exec (.call k) s = .next (settle (programFault c x 0x04 (served k.val c s)))) ∧
    (∀ pc st len rest, i.op = 0x0E → x.stack = (pc, st, len) :: rest → Settles (.ret k) s (fun u =>
      ctxOf c u = some { x with stack := rest, pc := pc, extStart := st, extLen := len, issued := x.issued + 1 })) ∧
    (i.op = 0x0E → x.stack = [] → exec (.ret k) s = .next (settle (programFault c x 0x04 (served k.val c s)))) ∧
    (i.op = 0x09 → Settles (.wait k) s (fun u => ctxOf c u = some { x with pc := x.pc + 1, issued := x.issued + 1 })) ∧
    (i.op = 0x11 → Settles (.nop k) s (fun u => ctxOf c u = some { x with pc := x.pc + 1, issued := x.issued + 1 }))

/-- A core about to issue LOOK, with a slot below w for MEMBER and a mask without a bit at or above w for SCHED, GMX on data
handles whose spans and masks meet its rule, after its DEF where it has one, XOR on data handles of one mask and span, TAG on
a data handle, or JCL with an open entry: the context moves to the next word with its destination slot pending and the
instruction in flight, and changes in nothing else but the handle that DEF defines; a SCHED whose schedule is not in the cache
waits for it and is requested. LOOK beyond w faults with 0x0A, GMX, XOR and TAG on a handle without data with 0x06, GMX and
XOR with handles that do not fit with the code of that rule, JCL without an entry with 0x0D. Cites: 03_fleist: Instruction
semantics; 03_fleist: Ordering and stalls; 02_plans_and_profiles: Schedules made on the module. -/
def Obligations.StageInstructionsSetPending : Prop :=
  ∀ (k : Fin 32) (c : Nat) (x : Ctx) (op : Op) (w : Word) (s : State), AboutTo k.val c x op w s →
    let i := insOf w
    let g := geomOf op.pool s
    let a := x.h i.ba
    let b := x.h i.bb
    let v := x.sl i.sa
    let isData := fun h : Handle => h.kind = .host ∨ h.kind = .scratch
    let goes := fun u : State => ctxOf c u = some (launched x w none s)
    let faults := fun (n : Nat) (j : Instr) => exec j s = .next (settle (programFault c x n (served k.val c s)))
    (i.op = 0x01 →
      (i.sub = 0 ∨ i.sub = 1 ∨ i.sub = 2 ∨ i.sub = 5 → Settles (.look k) s goes) ∧
      (i.sub = 3 → v.toNat % 64 < g.w → Settles (.look k) s goes) ∧
      (i.sub = 3 → g.w ≤ v.toNat % 64 → faults 0x0A (.look k)) ∧
      (i.sub = 4 → beyondW g v = true → faults 0x0A (.look k)) ∧
      (i.sub = 4 → beyondW g v = false → pop v < 3 ∨ g.m < pop v ∨ findSched op.pool v s ≠ .missing →
        Settles (.look k) s goes) ∧
      (i.sub = 4 → beyondW g v = false → 3 ≤ pop v → pop v ≤ g.m → findSched op.pool v s = .missing →
        Settles (.look k) s (fun u => ctxOf c u = some (launched x w (some v) s) ∧
          ∃ q ∈ u.plan.queue, q.geom = (poolEnt op.pool s).geom ∧ q.erased = v))) ∧
    (i.op = 0x04 →
      (i.isDef = false → isData a → isData b → gmxCheck (i.sub % 4) g x.sch a b = none → Settles (.gmx k) s goes) ∧
      (i.isDef = false → isData a → isData b → ∀ n, gmxCheck (i.sub % 4) g x.sch a b = some n → faults n (.gmx k)) ∧
      (i.isDef = true → isData a → beyondW g v = false → ∀ hd t,
        defHandle x i.bb v a.first a.count (served k.val c s) = .ok (hd, t) →
        let y := { x with handles := tset x.handles i.bb hd }
        gmxCheck (i.sub % 4) g x.sch (y.h i.ba) (y.h i.bb) = none →
        Settles (.gmx k) s (fun u => ctxOf c u = some (launched y w none s))) ∧
      (¬ isData a → faults 0x06 (.gmx k))) ∧
    (i.op = 0x05 →
      (isData a → isData b → a.mask = b.mask → a.first = b.first → a.count = b.count → Settles (.xor k) s goes) ∧
      (isData a → isData b → a.mask ≠ b.mask ∨ a.first ≠ b.first ∨ a.count ≠ b.count → faults 0x07 (.xor k)) ∧
      (¬ isData a ∨ ¬ isData b → faults 0x06 (.xor k))) ∧
    (i.op = 0x06 → (isData a → Settles (.tag k) s goes) ∧ (¬ isData a → faults 0x06 (.tag k))) ∧
    (i.op = 0x08 → (x.jnl.isSome = true → Settles (.jcl k) s goes) ∧ (x.jnl = none → faults 0x0D (.jcl k)))

/-- A core about to issue MRD on a handle, after its DEF where it has one, with positions none of which is erased; MWR, in an
operation that may write, on a tagged handle whose positions an open entry of the context covers and none of which is erased,
but for the positions that a rebuild writes; or JNL with no entry open, on a handle, within w, in an operation that may write:
the context moves to the next word with its destination slot pending. After JNL of a pool that the module owns it has an open
entry, outside a flush and a cold stop; in one, and of another pool, it opens none. Where one of these conditions fails, the
instruction faults with that condition's code. Cites: 03_fleist: Instruction semantics; 07_cache_and_write_hole: The stripe
journal. -/
def Obligations.MemberInstructionsLaunch : Prop :=
  ∀ (k : Fin 32) (c : Nat) (x : Ctx) (op : Op) (w : Word) (s : State), AboutTo k.val c x op w s →
    let i := insOf w
    let g := geomOf op.pool s
    let h := x.h i.ba
    let b := x.h i.bb
    let v := x.sl i.sa
    let isData := fun h : Handle => h.kind = .host ∨ h.kind = .scratch
    let moves := fun u : State => ∃ y, ctxOf c u = some y ∧ y.pc = x.pc + 1 ∧ y.pend i.ds = true
    let faults := fun (n : Nat) (j : Instr) => exec j s = .next (settle (programFault c x n (served k.val c s)))
    (i.op = 0x02 →
      (i.isDef = false → beyondW g v = false → isData h → v &&& h.mask &&& x.sl 3 = 0 → Settles (.mrd k) s moves) ∧
      (i.isDef = true → beyondW g v = false → b.kind ≠ .none → v &&& x.sl 3 = 0 → ∀ hd t,
        defHandle x i.ba v b.first b.count (served k.val c s) = .ok (hd, t) → Settles (.mrd k) s moves) ∧
      (beyondW g v = true → faults 0x0A (.mrd k)) ∧
      (i.isDef = false → beyondW g v = false → ¬ isData h → faults 0x06 (.mrd k)) ∧
      (i.isDef = false → beyondW g v = false → isData h → v &&& h.mask &&& x.sl 3 ≠ 0 → faults 0x0A (.mrd k))) ∧
    (i.op = 0x03 →
      let covered := ∃ j, x.jnl = some j ∧ x.flying 0x07 = false ∧ sub (v &&& h.mask) (tgetD s.jnl.own j {}).positions = true
      let erased := v &&& h.mask &&& x.sl 3 &&& ~~~ (if op.kind = 3 then x.sl 5 else 0)
      (isData h → beyondW g v = false → mayIssueWrite x op s = true → h.tagged = true → covered → erased = 0 →
        Settles (.mwr k) s moves) ∧
      (¬ isData h → faults 0x06 (.mwr k)) ∧
      (isData h → beyondW g v = true → faults 0x0A (.mwr k)) ∧
      (isData h → beyondW g v = false → mayIssueWrite x op s = false → faults 0x0E (.mwr k)) ∧
      (isData h → beyondW g v = false → mayIssueWrite x op s = true → h.tagged = false → faults 0x0B (.mwr k)) ∧
      (isData h → beyondW g v = false → mayIssueWrite x op s = true → h.tagged = true → ¬ covered → faults 0x0C (.mwr k)) ∧
      (isData h → beyondW g v = false → mayIssueWrite x op s = true → h.tagged = true → covered → erased ≠ 0 →
        faults 0x0A (.mwr k))) ∧
    (i.op = 0x07 →
      let m := v ||| x.sl i.sb
      let opens := x.jnl = none ∧ x.flying 0x07 = false
      (opens → h.kind ≠ .none → beyondW g m = false → mayIssueWrite x op s = true →
        (commitsRefused s = false → owns op.pool s = true →
          Settles (.jnl k) s (fun u => ∃ y, ctxOf c u = some y ∧ y.pc = x.pc + 1 ∧ y.pend i.ds = true ∧ y.jnl.isSome = true)) ∧
        (commitsRefused s = true ∨ owns op.pool s = false →
          Settles (.jnl k) s (fun u => ∃ y, ctxOf c u = some y ∧ y.pc = x.pc + 1 ∧ y.pend i.ds = true ∧ y.jnl = none))) ∧
      (¬ opens → faults 0x0D (.jnl k)) ∧
      (opens → h.kind = .none → faults 0x06 (.jnl k)) ∧
      (opens → h.kind ≠ .none → beyondW g m = true → faults 0x0A (.jnl k)) ∧
      (opens → h.kind ≠ .none → beyondW g m = false → mayIssueWrite x op s = false → faults 0x0E (.jnl k)))

/-- A core about to issue DONE with no open journal entry and a status of SUCCESS, MEDIA_LOST, INTEGRITY_MISMATCH or WRITE_REFUSED
ends the operation with that status, and with SA[31:0] as the result when RES is set, 0 otherwise (of an operation that 08 or
09 gives its own procedure, the procedure starts instead); a VERIFY that ends with INTEGRITY_MISMATCH queues its slice for a
check. DONE with an open entry faults with 0x0D, with another status with 0x10. A TRAP counts itself and raises the notice of
the context's control core with its code: INCONSISTENT (2) ends the operation with INTEGRITY_MISMATCH (0x0102) and queues the
slice for a check; LOST (1), of positions below w, records them; REDISPATCH (3), without an open entry and of a position below
w that was not erased, dispatches the operation again with SA added to the erased mask, or records the positions as lost where
the operation goes on after a loss already (08 R310). A TRAP whose conditions fail faults with their code, one of another code
with 0x11. Cites: 03_fleist: Instruction semantics; 03_fleist: Faults and traps. -/
def Obligations.ProgramsEnd : Prop :=
  ∀ (k : Fin 32) (c : Nat) (x : Ctx) (op : Op) (w : Word) (s : State), AboutTo k.val c x op w s →
    let i := insOf w
    let v := x.sl i.sa
    let st := i.imm % 65536
    let faults := fun (n : Nat) (j : Instr) => exec j s = .next (settle (programFault c x n (served k.val c s)))
    let counted := raise (0x048 + c / 32) 0x3F st { served k.val c s with pipe.traps := sat32 s.pipe.traps 1 }
    (i.op = 0x0F → x.jnl = none →
      let ends := fun t : State =>
        exec (.done k) s = .next (settle (progEnd x.op (BitVec.ofNat 16 st) (if i.low then v.setWidth 32 else 0) (x.h 0).secs t))
      (st = 0 ∨ st = 0x0101 ∨ st = 0x0104 ∨ (st = 0x0102 ∧ op.kind ≠ 6) → ends (served k.val c s) ∧
        (ruled op = false → exec (.done k) s = .next (settle
          (endOp x.op (BitVec.ofNat 16 st) (if i.low then v.setWidth 32 else 0) (x.h 0).secs (served k.val c s)))) ∧
        (ruled op = true → op.ctx = some c → exec (.done k) s = .next (settle (biStart x.op
          (updCtx c (fun y => { op := x.op, scratch := y.scratch }) (dropInflight c (served k.val c s))))))) ∧
      (st = 0x0102 → op.kind = 6 → ends (queueCheck op.pool op.row op.slice (served k.val c s))) ∧
      (st ≠ 0 → st ≠ 0x0101 → st ≠ 0x0102 → st ≠ 0x0104 → faults 0x10 (.done k))) ∧
    (i.op = 0x0F → x.jnl.isSome = true → faults 0x0D (.done k)) ∧
    (i.op = 0x10 →
      (st = 2 → exec (.trap k) s =
        .next (settle (queueCheck op.pool op.row op.slice (progEnd x.op 0x0102 0 [] (settleOpen x counted))))) ∧
      (st = 1 → beyondW (geomOf op.pool s) v = false → exec (.trap k) s = .next (settle (trapLost x op v counted))) ∧
      (st = 1 → beyondW (geomOf op.pool s) v = true → faults 0x0A (.trap k)) ∧
      (st = 3 → x.jnl = none → x.flying 0x07 = false → beyondW (geomOf op.pool s) v = false → v &&& ~~~ x.sl 3 ≠ 0 →
        exec (.trap k) s = .next (settle
          (if op.cont0 then trapLost x op v counted else redispatch x.op c (v ||| x.sl 3) counted))) ∧
      (st = 3 → x.jnl.isSome = true ∨ x.flying 0x07 = true → faults 0x0D (.trap k)) ∧
      (st = 3 → x.jnl = none → x.flying 0x07 = false → beyondW (geomOf op.pool s) v = true → faults 0x0A (.trap k)) ∧
      (st = 3 → x.jnl = none → x.flying 0x07 = false → beyondW (geomOf op.pool s) v = false → v &&& ~~~ x.sl 3 = 0 →
        faults 0x11 (.trap k)) ∧
      (st ≠ 1 → st ≠ 2 → st ≠ 3 → faults 0x11 (.trap k)))

/-- For a running context whose destination slot n is pending and whose stage has no earlier request to serve: the result of LOOK
of a constant is IMM, or IMM shifted by 32; of a field its value in the pool's geometry; of the masks the data, parity or full
mask; of an ended MRD or MWR the mask of the failed and late positions; of a TAG CRC the mask of positions whose tags fail, of
a TAG GET the common generation and bit 32 where they differ or fail; of a TAG GEN or NEXT the generation it gives its
sectors; of an XOR the mask of bad source positions, with every sector of BB in its span the byte-wise exclusive or of both
handles; of a GMX the mask of bad source positions, with BB combined as its mode says; of a JNL its status code once decided,
or 0 once its entry is durable; of a JCL 0, its entry closed. In each case the slot holds the result and is pending no longer.
Cites: 03_fleist: Instruction semantics; 03_fleist: Ordering and stalls. -/
def Obligations.ResultsAreWritten : Prop :=
  ∀ (c : Fin 1024) (n : Fin 16) (x : Ctx) (op : Op) (f : Inflight) (s : State), ctxOf c.val s = some x →
    opOf x.op s = some op → tget x.inflight n.val = some f → x.run = .running → x.pend n.val = true →
    servedBefore c.val f s = false →
    let i := insOf f.word
    let g := geomOf op.pool s
    let a := x.h i.ba
    let b := x.h i.bb
    let sch := x.sch.getD {}
    let writes := fun (v : Word) (u : State) => ∃ y, ctxOf c.val u = some y ∧ y.sl n.val = v ∧ y.pend n.val = false
    let done := fun v => Settles (.stageResultWritten c n) s (writes v)
    (i.op = 0x01 → i.sub = 0 → done (BitVec.ofNat 64 i.imm)) ∧
    (i.op = 0x01 → i.sub = 1 → done (BitVec.ofNat 64 (i.imm * 2 ^ 32))) ∧
    (i.op = 0x01 → i.sub = 2 → done (BitVec.ofNat 64 (match i.imm % 8 with
      | 0 => g.k | 1 => g.m | 2 => g.w | 3 => g.ss | _ => (poolEnt op.pool s).geom))) ∧
    (i.op = 0x01 → i.sub = 3 → done (lookValue op i f.sa s)) ∧
    (i.op = 0x01 → i.sub = 5 → done (if i.imm = 0 then g.dataMask else if i.imm = 1 then g.parMask else span 0 g.w)) ∧
    (i.op = 0x02 ∨ i.op = 0x03 → jobsDone f = true →
      done (maskOf ((f.jobs.filter (fun e => e.2.fail || e.2.late)).map (·.1)))) ∧
    (i.op = 0x06 → i.sub = 0 → done (failMask op a tagOk)) ∧
    (i.op = 0x06 → i.sub = 2 → done (tagGet op a)) ∧
    (i.op = 0x06 → i.sub = 3 → Settles (.stageResultWritten c n) s (fun u =>
      writes (BitVec.ofNat 64 (f.sa.toNat % 2 ^ 32)) u ∧
      ∃ y, ctxOf c.val u = some y ∧ y.h i.ba = tagGenerate op a (f.sa.setWidth 32))) ∧
    (i.op = 0x06 → i.sub = 4 → Settles (.stageResultWritten c n) s (fun u =>
      writes (BitVec.ofNat 64 (f.sa.setWidth 32 + 1 : Dword).toNat) u ∧
      ∃ y, ctxOf c.val u = some y ∧ y.h i.ba = tagGenerate op a (f.sa.setWidth 32 + 1))) ∧
    (i.op = 0x05 → Settles (.stageResultWritten c n) s (fun u =>
      writes (badSources a b (bitsOf a.mask)) u ∧ ∃ y, ctxOf c.val u = some y ∧
        y.h i.bb = putData op b (fun p j => xorBytes (hData a p j) (hData b p j)))) ∧
    (i.op = 0x04 → Settles (.stageResultWritten c n) s (fun u =>
      writes (if i.sub % 4 = 1 then badSources a b (bitsOf a.mask) else badMask a (gmxSources (i.sub % 4) sch a)) u ∧
      ∃ y, ctxOf c.val u = some y ∧ y.h i.bb = putData op b (gmxValue (i.sub % 4) g (coeffsOf op.pool s) sch a b))) ∧
    (i.op = 0x07 → ∀ code, f.jnl = some code → done (BitVec.ofNat 64 code)) ∧
    (i.op = 0x07 → f.jnl = none → jnlDurable c.val f.mirror s = true → done 0) ∧
    (i.op = 0x08 → ∀ idx, x.jnl = some idx → Settles (.stageResultWritten c n) s (fun u =>
      writes 0 u ∧ ∃ y, ctxOf c.val u = some y ∧ y.jnl = none))

/-- DISPATCH runs stage 4 on the operation, after the DRAM errors met in the cached sectors it reads. A finished schedule of the
oldest request goes into the cache as its record, for a free slot, or in place of the least recently used slot that is not
pinned, and the LOOKs that wait for its pattern get it. A request that waits more than 100 ms raises one WARNING of source
0x1F5 and is marked. A reload of the program store, or of a plan section, makes it whole. A hedged LATE read that may be late
is reported late, and what it still returns reaches no handle. A context's pre-mark that times out drops the anchors that did
not acknowledge, and bars their slots from being chosen again. (That the clock stands at the timer's end, and the kind of the
message's address, are the model's choice, log entries 10 and 2.) Cites: 03_fleist: Dispatch; 03_fleist: Program store
integrity; 03_fleist: Instruction semantics; 02_plans_and_profiles: Schedules made on the module; 07_cache_and_write_hole:
Anchor checkpoints. -/
def Obligations.PlanEngineAndStores : Prop :=
  (∀ (o : Nat) (errs : List DramErr) (s : State),
    exec (.dispatch { op := o, errs := errs }) s = .next (settle (stage4 o (meetDram (opReads o) errs s))) ∧
    exec (.dispatch { op := o }) s = .next (settle (stage4 o s))) ∧
  (∀ (r : SchedReq) (rest : List SchedReq) (g : Geom) (cs : List Byte) (x : Sched) (s : State),
    s.plan.queue = r :: rest → geomRow r.geom s = some (g, cs) → makeSched g cs r.erased = some x →
    let stored := fun c : Tbl SchedSlot => exec .scheduleStored s = .next (settle (releaseSched r.geom r.erased { s with
      plan.queue := rest,
      plan.cache := tset c (schedKey r.geom r.erased) { record := schedRecord g r.geom x, lastUse := s.now } }))
    (s.plan.cache.length < schedSlots s → stored s.plan.cache) ∧
    (schedSlots s ≤ s.plan.cache.length → ∀ e,
      leastBy (fun (e : Nat × SchedSlot) => e.2.lastUse) (s.plan.cache.filter (fun e => !slotPinned e.1 s)) = some e →
      stored (tdel s.plan.cache e.1))) ∧
  (∀ (n : Fin 16) (e : Word) (r : SchedReq) (s : State),
    s.plan.queue.find? (fun q => q.geom == n.val && q.erased == e) = some r →
    (r.raised = false → exec (.longWait n e) s = .next (raiseFree 0x1F5 0x36 { s with
      now := max s.now (r.since + 100001),
      plan.queue := s.plan.queue.map (fun q => if q = r then { q with raised := true } else q) })) ∧
    (r.raised = true → exec (.longWait n e) s = .next s)) ∧
  (∀ (n : Fin 16) (s : State), exec (.planSectionReload n) s =
    .next (settle { s with plan.reloading := s.plan.reloading.filter (· != n.val) })) ∧
  (∀ s : State, exec .programStoreReload s = .next (settle { s with plan.badWords := [] })) ∧
  (∀ (c : Fin 1024) (n : Fin 16) (p : Fin 64) (x : Ctx) (op : Op) (f : Inflight) (e : Nat × MCmd) (s : State),
    ctxOf c.val s = some x → opOf x.op s = some op → tget x.inflight n.val = some f →
    (insOf f.word).op = 0x02 → (insOf f.word).low = true →
    (tgetD f.jobs p.val {}).left ≠ 0 → (tgetD f.jobs p.val {}).fail = false → (tgetD f.jobs p.val {}).late = false →
    s.mem.cmds.find? (fun e => readsFor c.val n.val p.val e.2.owner) = some e →
    pop (x.sl 3) + (f.jobs.filter (·.2.late)).length + 1 ≤ (geomOf op.pool s).m →
    exec (.mrdLateReport c n p) s = .next (settle (leaveReads c.val n.val p.val
      (updJob c.val n.val p.val (fun j => { j with late := true })
        { s with now := max s.now (f.issuedAt + 1000 * e.2.hedgeMs) })))) ∧
  ∀ (c : Fin 1024) (p : Premark) (s : State),
    s.jnl.premarks.find? (fun p => p.ctx == c.val && !p.left.isEmpty) = some p →
    exec (.premarkTimeout c) s = .next (settle (((p.left.map (·.1)).eraseDups).foldl (fun s i => barAnchor i s)
      { s with now := max s.now (p.since + 100000) }))

/-- EVICTION_END of an eviction whose destage has ended, or that has no operation left, that no request attached to and whose line
has no dirty sector, empties the way and ends the eviction; one that a request attached to, whose destage failed or whose line
got dirty again keeps the line, no longer evicting and most recently used. The operation that waits for the way gets it, or
chooses again. An eviction whose destage has not ended stays. ALLOCATION_RETRY makes the operations that wait for a way of the
set choose again, the longest waiting first. ALLOCATION_LONG_WAIT, for an operation that has waited since t, raises a WARNING
of source 0x092 after 1 s and leaves the operation waiting. (That the clock stands at the timer's end is the model's choice,
log entry 10.) Cites: 07_cache_and_write_hole: Eviction; 07_cache_and_write_hole: Requester classes, way masks and locks. -/
def Obligations.EvictionsAndAllocations : Prop :=
  (∀ (a : Fin 65536) (b : Fin 16) (e : Evict) (s : State),
    let x := a.val * 16 + b.val
    let s1 := { s with cache.evict := tdel s.cache.evict x }
    tget s.cache.evict x = some e →
    (e.ended = false → e.ops ≠ [] → exec (.evictionEnd a b) s = .next (settle s)) ∧
    (e.ended = true ∨ e.ops = [] →
      let kept := touch x (setTag x { tagAt x s with evicting := false } s1)
      let freed := setTag x {} s1
      (e.attached = true ∨ e.failed = true ∨ (tagAt x s).valid &&& (tagAt x s).dirty ≠ 0 →
        (e.waiter = none → exec (.evictionEnd a b) s = .next (settle kept)) ∧
        ∀ o, e.waiter = some o → exec (.evictionEnd a b) s = .next (settle (retryAlloc o kept))) ∧
      (e.attached = false → e.failed = false → (tagAt x s).valid &&& (tagAt x s).dirty = 0 →
        (e.waiter = none → exec (.evictionEnd a b) s = .next (settle freed)) ∧
        ∀ o, e.waiter = some o → exec (.evictionEnd a b) s = .next (settle (retryAlloc o (passWay x o freed)))))) ∧
  (∀ (a : Fin 65536) (s : State),
    let waiting := s.pipe.ops.filterMap (fun e => match e.2.st with
      | .alloc t => if needsSet e.2 a.val s then some (t, e.1) else none
      | _ => none)
    ∃ l : List (Nat × Nat), l.Perm waiting ∧ l.Pairwise (fun v w => v.1 ≤ w.1) ∧
      exec (.allocationRetry a) s = .next (settle (l.foldl (fun s w => retryAlloc w.2 s) s))) ∧
  ∀ (o t : Nat) (op : Op) (s : State), opOf o s = some op → op.st = .alloc t →
    exec (.allocationLongWait o) s = .next (raiseFree 0x092 0x36 { s with now := max s.now (t + 1000000) }) ∧
    Completes (.allocationLongWait o) s (fun u => opOf o u = some op)

/-- DESTAGE_AGE of a slice whose oldest dirty sector became dirty at t destages the slice at a clock of at least t + 2 s;
DESTAGE_RETRY of a slice whose failed destage may be made again from a time on destages it at a clock of at least that time.
(That the clock stands at the timer's end is the model's choice, log entry 10; a slice of a reshape's target layout is treated
in the same way.) Cites: 07_cache_and_write_hole: Dirty data and the dirty cap; 07_cache_and_write_hole: Eviction. -/
def Obligations.DestagesByAgeAndAgain : Prop :=
  (∀ (p : Fin 8) (row sl : Nat) (s : State),
    (∀ t, oldestOf p.val row sl s = some t →
      exec (.destageAge p row sl) s = .next (settle (destageAged (p.val + 8) row sl
        (destageSlice p.val row sl .destage { s with now := max s.now (t + 2000000) })))) ∧
    (oldestOf p.val row sl s = none →
      exec (.destageAge p row sl) s = .next (settle (destageAged (p.val + 8) row sl s)))) ∧
  ∀ (p : Fin 8) (row sl : Nat) (s : State),
    (∀ r, tget s.cache.retry (sliceKey p.val row sl) = some r →
      exec (.destageRetry p row sl) s = .next (settle (destageAgain (p.val + 8) row sl
        (destageSlice p.val row sl .destage { s with now := max s.now r.due })))) ∧
    (tget s.cache.retry (sliceKey p.val row sl) = none →
      exec (.destageRetry p row sl) s = .next (settle (destageAgain (p.val + 8) row sl s)))

/-- A DRAM scrub treats the errors it found one after another. A correctable error counts and leaves every tag and the lost-write
list alone. An uncorrectable one in a clean sector clears the sector's VALID and leaves the lost-write list alone; in a dirty
sector of a pool that this module owns, with room in the list, it clears VALID and DIRTY and the line is in the lost-write
list with reason 1 and the sector in its mask. A tag scrub treats the errors that stand and those that it found in the same
way; where none stood, a bad shadow entry of a good tag is written again; a bad tag is repaired from its shadow entry, which
counts, or dropped where it has none; where the shadow entry fails too the line is dropped and UNNAMED_LOSS and the ledger
flag are set. Cites: 07_cache_and_write_hole: Errors in data, tags and shadow. -/
def Obligations.ScrubErrors : Prop :=
  (∀ (errs : List DramErr) (s : State), ∃ n d, exec (.dramScrub errs) s =
    .next (settle (errs.foldl (fun s e => dramError e s) { s with now := n, cache.lastDramScrub := d })) ∧ s.now ≤ n) ∧
  (∀ (errs : List TagErr) (s : State),
    let n := max s.now (s.cache.lastTagScrub + 1000000)
    exec (.tagScrub errs) s =
      .next (settle ((s.cache.tagErrs ++ errs).foldl (fun s e => tagError e s)
        { s with now := n, cache.lastTagScrub := n, cache.tagErrs := [] }))) ∧
  (∀ (e : DramErr) (s : State),
    let x := e.set.val * 16 + e.way.val
    let t := tagAt x s
    let i := e.sector.val
    let key := t.pool * 2 ^ 43 + tagLine x t
    (e.uncorrectable = false → Settles (.dramScrub [e]) s (fun u =>
      u.cache.dramCorr = sat32 s.cache.dramCorr 1 ∧ u.cache.tags = s.cache.tags ∧ u.cache.lostW = s.cache.lostW)) ∧
    (e.uncorrectable = true → t.dirty.getLsbD i = false → t.valid.getLsbD i = true → Settles (.dramScrub [e]) s (fun u =>
      u.cache.dramUnc = sat32 s.cache.dramUnc 1 ∧ (tagAt x u).valid.getLsbD i = false ∧ u.cache.lostW = s.cache.lostW)) ∧
    (e.uncorrectable = true → t.dirty.getLsbD i = true → t.valid.getLsbD i = true → owns t.pool s = true →
      s.cache.lostW.length < lostWMax → Settles (.dramScrub [e]) s (fun u =>
        (tagAt x u).valid.getLsbD i = false ∧ (tagAt x u).dirty.getLsbD i = false ∧
        ∃ r, tget u.cache.lostW key = some r ∧ r.reason = 1 ∧ r.mask.getLsbD i = true))) ∧
  ∀ (g : TagErr) (s : State), s.cache.tagErrs = [] →
    let x := g.set.val * 16 + g.way.val
    (g.tagGood = true → g.shadowBad = true → Settles (.tagScrub [g]) s (fun u =>
      u.cache.tags = s.cache.tags ∧ u.cache.shadow = (syncShadow x s).cache.shadow)) ∧
    (g.tagGood = false → g.shadowBad = false →
      Settles (.tagScrub [g]) s (fun u =>
        u.cache.tagParity = sat32 s.cache.tagParity 1 ∧
        (tget s.cache.shadow x = none → tget u.cache.tags x = none) ∧
        ∀ h, tget s.cache.shadow x = some h →
          let live := h.dirty &&& ~~~ unrestoredMask h.pool (tagLine x { lineHi := h.lineHi, pool := h.pool }) s
          u.cache.shadowRep = sat32 s.cache.shadowRep 1 ∧ (tagAt x u).valid = live ∧ (tagAt x u).dirty = live)) ∧
    (g.tagGood = false → g.shadowBad = true → Settles (.tagScrub [g]) s (fun u =>
      u.cache.unnamedLoss = true ∧ u.led.unnamedLoss = true ∧ tget u.cache.tags x = none ∧
      tget u.cache.shadow x = none ∧ u.cache.tagParity = sat32 s.cache.tagParity 1))

/-- REGION_SWEEP keeps a region's bit when an entry is open in it, or its last entry was opened less than 10 s ago, or it waits
for resynchronisation, and clears it otherwise; nothing else changes but the time of the sweep. CHECKPOINT, 60 s after the
last one began, takes, when none runs, the bitmap as the anchor image, counts up the checkpoint sequence and queues the pages
of one copy for every anchor, of both for one that is new; while one runs it is made afterwards; while the module restores
from anchors none starts. (Log entries 10, 14 and 17 name the clock, the header's field order and the wait, which are the
model's choice.) Cites: 07_cache_and_write_hole: The dirty-region bitmap; 07_cache_and_write_hole: Anchor checkpoints. -/
def Obligations.RegionsAndCheckpoints : Prop :=
  (∀ s : State,
    let n := max s.now (s.jnl.lastSweep + 1000000)
    exec .regionSweep s = .next { s with
      now := n, jnl.lastSweep := n,
      jnl.marked := s.jnl.marked.filter (fun k => tgetD s.jnl.opens k 0 != 0 ||
        decide (n < tgetD s.jnl.lastOpen k 0 + 10000000) || (tget s.jnl.resync k).isSome) }) ∧
  ∀ s : State,
    let n := max s.now (s.jnl.ckptAt + 60000000)
    (s.jnl.restorePools ≠ [] → exec .checkpoint s = .next (settle { s with now := n })) ∧
    (s.jnl.restorePools = [] → ckptRuns s = true →
      exec .checkpoint s = .next (settle { s with now := n, jnl.ckptAgain := true })) ∧
    (s.jnl.restorePools = [] → ckptRuns s = false →
      exec .checkpoint s = .next (settle (s.jnl.anchors.foldl (fun s e => ckptPages e.1 (if e.2.fresh then 2 else 1) s)
        { s with
          now := n, jnl.image := s.jnl.marked, jnl.ckptSeq := s.jnl.ckptSeq + 1, jnl.ckptAgain := false, jnl.ckptAt := n,
          jnl.oldAnchors := s.jnl.oldAnchors.map (fun a => { a with valid := false, fresh := true }) })))

/-- On a module that serves, a write to CLASS_WAYSn (n below 15) or to WAY_LOCK that leaves every host class a way in its mask and
unlocked sets that mask or the lock to the written bits and changes nothing else of the masks; one that would leave a class
without any leaves all of them as they were and raises a message of the allocation source 0x092; CLASS_WAYS15 does not change.
A 1 written to UNNAMED_LOSS clears it, and the ledger's flag in one commit while commits are taken. (The kind and the address
of the message are the model's choice, log entry 2.) A write of INV_CTL stores the count and clears the status bits it writes
1 to. With GO, and no invalidate running, over a range within its volume, the module destages the dirty sectors of the range
and waits for exactly them, and for those of them that the vault still holds; over another range it sets the error and done
bits. Without GO, or while one runs, nothing starts. Cites: 07_cache_and_write_hole: Requester classes, way masks and locks;
07_cache_and_write_hole: Errors in data, tags and shadow; 07_cache_and_write_hole: Invalidation; 07_cache_and_write_hole:
Cache registers. -/
def Obligations.CacheRegisterCommands : Prop :=
  (
    (∀ (n : Option (Fin 16)) (v : Word) (s : State), barUp 0 s = true → s.dev.ready = true → (∀ k, n = some k → k.val < 15) →
      let m : BitVec 16 := v.setWidth 16
      let ways := match n with
        | some k => tset s.cache.ways k.val m
        | none => s.cache.ways
      let lock := match n with
        | some _ => s.cache.lock
        | none => m
      (waysLeft ways lock = true → exec (.wayMaskWrite n v) s = .next { s with cache.ways := ways, cache.lock := lock }) ∧
      (waysLeft ways lock = false → exec (.wayMaskWrite n v) s = .next (raiseFree 0x092 0x34 s))) ∧
    (∀ (k : Fin 16) (v : Word) (s : State), k.val = 15 → exec (.wayMaskWrite (some k) v) s = .next s) ∧
    ∀ s : State, barUp 0 s = true → s.dev.ready = true →
      (commitsRefused s = false → s.led.unnamedLoss = true → exec .unnamedLossClear s =
        .next (ledCommit { s with cache.unnamedLoss := false, led.unnamedLoss := false })) ∧
      (commitsRefused s = true ∨ s.led.unnamedLoss = false → exec .unnamedLossClear s =
        .next { s with cache.unnamedLoss := false })) ∧
  (
    ∀ (v : Word) (s : State), barUp 0 s = true → s.dev.ready = true →
      let c := { s.cache with
        invDone := s.cache.invDone && !v.getLsbD 34, invErr := s.cache.invErr && !v.getLsbD 35, invCount := fld v.toNat 16 0 }
      (v.getLsbD 32 = false ∨ s.cache.invBusy = true → exec (.rangeInvalidate v) s = .next (settle { s with cache := c })) ∧
      (v.getLsbD 32 = true → s.cache.invBusy = false → invSecs c.invVol c.invLba c.invCount { s with cache := c } = none →
        exec (.rangeInvalidate v) s = .next (settle { s with cache := { c with invErr := true, invDone := true } })) ∧
      ∀ secs, v.getLsbD 32 = true → s.cache.invBusy = false →
        invSecs c.invVol c.invLba c.invCount { s with cache := c } = some secs →
        let dirty := dirtyAmong secs { s with cache := c }
        exec (.rangeInvalidate v) s = .next (settle (endInvalidate (destagePlaces dirty.1
          { s with cache := { c with
            invBusy := true, invRange := (c.invVol, c.invLba, c.invCount), invWait := dirty.1, invVault := dirty.2 } }))))

/-- For a port whose member serves slot (p, n): a command outstanding for FAIL_LATENCY raises a message of the port and fails the
slot with reason TIMEOUT, and is reported to the peer instead where the peer owns the pool; a link that was down for 1 s fails
it with LINK_LOST, CSTS.CFS with CONTROLLER_FATAL, a removal with REMOVED, after which no member is at the port, no command is
outstanding there and the slot has no port. A reservation command that dies counts as one that failed. A link that goes down
only raises a message and notes the time; one that comes back is up and no group reset waits for it. An event of a command, a
link or a port that serves nothing fails no slot. (That the clock stands at the timer's end is the model's choice, log entry
10.) After the own effect of a CONTROLLER_FATAL, while no reservation command is out, at a port whose member serves an ONLINE,
SUSPECT, REBUILDING or RETIRING slot of a pool that this module owns, the slot is FAILED with reason CONTROLLER_FATAL, its
LABEL_GEN record above the old one, its commit pending since now, and every command that was outstanding at the port is dead
and aborted. Once that commit lands, no commit is pending, the restore boundary is 0, the member's port is stale, and the
slot's cells are rebuilt, or the slot is ABSENT where it holds none; while the peer has not decided it, nothing lands. Cites:
08_failure_and_rebuild: Slow members; 08_failure_and_rebuild: Slot states; 14_faults_and_event_log: Nested errors and block
resets; 08_failure_and_rebuild: Rebuild. -/
def Obligations.SlotFailures : Prop :=
  (
    ∀ (q : PortNo) (p n : Nat) (s : State),
      (∀ (tag : Nat) (m : MCmd), tget s.mem.cmds tag = some m →
        let t := { s with now := max s.now (m.issued + m.failMs * 1000) }
        (m.dead = false → m.slot = some (p, n) → s.led.paired = false ∨ owns p s = true →
          exec (.failLatencyTimeout tag) s =
            .next (settle (resvLost t (slotFails p n 0x04 (raise (portSrc m.port) 0x33 m.lba t))))) ∧
        (m.dead = false → m.slot = some (p, n) → s.led.paired = true → owns p s = false → (∀ a b, m.owner ≠ .resv a b) →
          exec (.failLatencyTimeout tag) s = .next (settle (sendPair (.memberReport p n true) t))) ∧
        (∀ a b, m.dead = false → m.slot = some (p, n) → s.led.paired = true → owns p s = false → m.owner = .resv a b →
          exec (.failLatencyTimeout tag) s =
            .next (settle (resvLost t { t with mem.cmds := tset s.mem.cmds tag { m with dead := true } }))) ∧
        (m.dead = true ∨ m.slot = none → exec (.failLatencyTimeout tag) s = .next (settle s))) ∧
      (∀ t, (mport q.val s).downAt = some t →
        let u := forgetLink q.val { s with now := max s.now (t + 1000000) }
        (portSlot q.val s = some (p, n) → exec (.linkRetrainTimeout q) s = .next (settle (resvLost u (slotFails p n 0x09 u)))) ∧
        (portSlot q.val s = none → exec (.linkRetrainTimeout q) s = .next (settle u))) ∧
      ((mport q.val s).downAt = none → exec (.linkRetrainTimeout q) s = .next (settle s)) ∧
      (portSlot q.val s = some (p, n) → exec (.controllerFatal q) s = .next (settle (resvLost s (slotFails p n 0x08 s)))) ∧
      (portSlot q.val s = none → exec (.controllerFatal q) s = .next (settle s)) ∧
      Settles (.memberRemoved q) s (fun u => (mport q.val u).present = false ∧ (mport q.val u).id = none) ∧
      ((∀ e ∈ s.mem.cmds, ∀ a b, e.2.owner ≠ .resv a b) → ∀ t, resvLost s t = t) ∧
      ((∀ e ∈ s.mem.cmds, ∀ a b, e.2.owner ≠ .resv a b) → Settles (.memberRemoved q) s (fun u =>
        (∀ e ∈ u.mem.cmds, e.2.port ≠ q.val) ∧
        (portSlot q.val s = some (p, n) → p < 8 → (slotRec p n u).port = none ∧
          (owns p s = true → (slotRec p n s).st.serving = true →
            (slotRec p n u).st = .failed ∧ (slotRec p n u).reason = 0x0A)))) ∧
      exec (.memberLinkDown q) s = .next (raise (portSrc q.val) 0x34 0
        (updMport q.val (fun x => { x with linkUp := false, downAt := some s.now }) s)) ∧
      ∀ w : BitVec 2, Settles (.memberLinkRetrained q w) s (fun u => (mport q.val u).linkUp = true ∧
        (mport q.val u).downAt = none ∧ ∀ e ∈ u.fc.resets, q.val ∉ e.2.links)) ∧
  (
    ∀ (q : PortNo) (p : Fin 8) (n : Fin 128) (s : State),
      (portSlot q.val s = some (p.val, n.val) → (slotRec p.val n.val s).port = some q.val → owns p.val s = true →
        (slotRec p.val n.val s).st.serving = true → (∀ e ∈ s.mem.cmds, ∀ a b, e.2.owner ≠ .resv a b) →
        Settles (.controllerFatal q) s (fun u =>
          (slotRec p.val n.val u).st = .failed ∧ (slotRec p.val n.val u).reason = 0x08 ∧
          (slotRec p.val n.val s).labelGen < (slotRec p.val n.val u).labelGen ∧
          (slotRec p.val n.val u).commitPending = true ∧ (slotRec p.val n.val u).commitSince = s.now ∧
          ∀ e ∈ u.mem.cmds, e.2.port = q.val → e.2.dead = true ∧ e.2.aborted = true)) ∧
      ((slotRec p.val n.val s).commitPending = true → poolPending p.val s = false →
        let s1 := updSlot p.val n.val (fun r => { r with commitPending := false, restore := 0, prep := none }) s
        let s2 := match (slotRec p.val n.val s).port with
          | some k => if (mport k s1).cls = .serving p.val n.val then updMport k (fun m => { m with cls := .stale p.val n.val }) s1
                      else s1
          | none => s1
        exec (.slotFailureCommit p n) s = .next (settle (slotEmptied p.val n.val (precompute p.val (startRebuild p.val n.val
          (updPool p.val (fun x => { x with rebuildTotal := x.rebuildTotal + homedOn p.val n.val s2 }) s2)))))) ∧
      ((slotRec p.val n.val s).commitPending = false ∨ poolPending p.val s = true →
        exec (.slotFailureCommit p n) s = .next (settle s)))

/-- A command of a serving slot that is outstanding for SUSPECT_LATENCY is marked once; in a pool that this module owns it raises
a message of its port and adds a mark and its time to its slot; an ONLINE slot becomes SUSPECT with reason SLOW_MARK, a
SUSPECT slot stays; with SUSPECT_COUNT marks in the window the slot fails with reason 0x05. When a slot's window passes
without a mark, its marks are gone, and a SUSPECT slot of an owned pool is ONLINE with reason RECOVERED. (That the clock
stands at the timer's end is the model's choice, log entry 10.) Cites: 08_failure_and_rebuild: Slow members;
08_failure_and_rebuild: Slot states. -/
def Obligations.MarksAndWindows : Prop :=
  (∀ (tag p n : Nat) (m : MCmd) (s : State), tget s.mem.cmds tag = some m →
    (m.marked = true ∨ m.dead = true ∨ m.slot = none → exec (.slowMark tag) s = .next (settle s)) ∧
    (m.marked = false → m.dead = false → m.slot = some (p, n) →
      let s0 := { s with
        now := max s.now (m.issued + m.suspectMs * 1000), mem.cmds := tset s.mem.cmds tag { m with marked := true } }
      let s1 := raise (portSrc m.port) 0x33 m.lba s0
      let s2 := updSlot p n (fun r => { r with
        marks := marksNow r s1 ++ [s1.now], lat := latNow r s1 ++ [(s1.now, m.suspectMs)] }) s1
      let s3 := if (slotRec p n s2).st = .online then
          let t := slotTo p n .suspect 0x02 s2
          updSlot p n (fun r => { r with suspects := lastDay r.suspects s2 ++ [opSeconds s2] }) t
        else s2
      (s.led.paired = true → owns p s = false → exec (.slowMark tag) s = .next (settle s0)) ∧
      (s.led.paired = false ∨ owns p s = true → exec (.slowMark tag) s = .next (settle
        (if (prof s).suspectCount ≤ (slotRec p n s3).marks.length then slotFails p n 0x05 s3 else s3))))) ∧
  (∀ (tag p n : Nat) (m : MCmd) (s : State), tget s.mem.cmds tag = some m → m.marked = false → m.dead = false →
    m.slot = some (p, n) → owns p s = true → (slotRec p n s).st = .online → (slotRec p n s).marks = [] → 1 < (prof s).suspectCount →
    Settles (.slowMark tag) s (fun u => (slotRec p n u).st = .suspect ∧ (slotRec p n u).reason = 0x02)) ∧
  ∀ (p : Fin 8) (n : Fin 128) (s : State),
    let r := slotRec p.val n.val s
    let s1 := updSlot p.val n.val (fun r => { r with marks := [] })
      { s with now := max s.now (r.marks.foldl max 0 + (prof s).suspectWindow * 1000000) }
    (r.st ≠ .suspect ∨ owns p.val s = false → exec (.suspectWindowExpiry p n) s = .next (settle s1)) ∧
    (r.st = .suspect → owns p.val s = true →
      exec (.suspectWindowExpiry p n) s = .next (settle (slotTo p.val n.val .online 0x03 s1)) ∧
      Settles (.suspectWindowExpiry p n) s (fun u => (slotRec p.val n.val u).st = .online ∧
        (slotRec p.val n.val u).reason = 0x03 ∧ (slotRec p.val n.val u).marks = []))

/-- A completion takes the command off the outstanding ones, notes its time at its slot, reaches the work that sent it, and has
the effect of its error on the slot; one with success of a command that a MWR waits for takes one from what its position still
waits for. A completion of a command that was aborted only forgets it; one of no command reaches nothing. Outstanding commands
1 s after a failure make the module clear CC.EN of the member and forget them, once. Cites: 08_failure_and_rebuild: Slot
states; 08_failure_and_rebuild: Slow members. -/
def Obligations.MemberCompletions : Prop :=
  (∀ (tag : Nat) (m : MCmd) (st : MStatus) (d : List Byte) (tags : List Word) (s : State),
    tget s.mem.cmds tag = some m → m.dead = false →
    let s1 := updMport m.port (fun p => { p with lastUse := s.now }) { s with mem.cmds := tdel s.mem.cmds tag }
    let s2 := match m.slot with
      | some (p, n) => updSlot p n (fun r => { r with lat := latNow r s1 ++ [(s1.now, (s.now - m.issued) / 1000)] }) s1
      | none => s1
    ((∀ a b, m.owner ≠ .resv a b) → exec (.memberCommandCompletion tag st d tags) s =
      .next (settle (memberError m st (ownerOp m.owner s2) (ownerEnd m (st == .success) d tags s2)))) ∧
    ((∃ a b, m.owner = .resv a b) → exec (.memberCommandCompletion tag st d tags) s =
      .next (settle (ownerEnd m (st == .success) d tags (memberError m st (ownerOp m.owner s2) s2))))) ∧
  (∀ (tag : Nat) (m : MCmd) (c k pos fr n : Nat) (ts : List Word) (d : List Byte) (tags : List Word) (f : Inflight) (s : State),
    tget s.mem.cmds tag = some m → m.dead = false → m.owner = .wr c k pos fr n none ts → inflightOf c k s = some f →
    Settles (.memberCommandCompletion tag .success d tags) s (fun u => tget u.mem.cmds tag = none ∧
      ∃ g, inflightOf c k u = some g ∧ (tgetD g.jobs pos {}).left = (tgetD f.jobs pos {}).left - 1 ∧
        (tgetD g.jobs pos {}).fail = (tgetD f.jobs pos {}).fail)) ∧
  (∀ (tag : Nat) (st : MStatus) (d : List Byte) (tags : List Word) (s : State), tget s.mem.cmds tag = none →
    exec (.memberCommandCompletion tag st d tags) s = .next (settle s)) ∧
  (∀ (tag : Nat) (m : MCmd) (st : MStatus) (d : List Byte) (tags : List Word) (s : State),
    tget s.mem.cmds tag = some m → m.dead = true →
    exec (.memberCommandCompletion tag st d tags) s = .next (settle
      (updMport m.port (fun p => { p with lastUse := s.now }) { s with mem.cmds := tdel s.mem.cmds tag }))) ∧
  ∀ (q : PortNo) (p n : Nat) (s : State), portSlot q.val s = some (p, n) →
    ((slotRec p n s).st = .failed → (slotRec p n s).ccCleared = false →
      (s.mem.cmds.any (fun e => e.2.port == q.val && e.2.dead)) = true →
      Completes (.memberAbortTimeout q) s (fun u => u.out.head? = some (.memberCcClear q.val) ∧
        (∀ e ∈ u.mem.cmds, ¬ (e.2.port = q.val ∧ e.2.dead = true)) ∧ (slotRec p n u).ccCleared = true)) ∧
    ((slotRec p n s).st ≠ .failed ∨ (slotRec p n s).ccCleared = true ∨
      (s.mem.cmds.any (fun e => e.2.port == q.val && e.2.dead)) = false → exec (.memberAbortTimeout q) s = .next s)

/-- While the module is powered, a sideband frame that shows every port as it is leaves presence alone; the tenth frame in a row
that shows a member at an empty port makes it present and unclassified, and the tenth that shows none at a full port empties
it. A member that appears is recorded at its port with its identity, link up, and the class that its labels give; one with an
own label is then served at its slot, a foreign one reported. When the discovery window closes, every unfound slot of an own
pool that has a cell homed on it is FAILED with reason NOT_FOUND (0x0B), its commit pending. A prepared member's slot, of a
pool that this module owns and with its labels written, has no preparation left, which is committed, and the restore walk of
an adopted one starts at its boundary. Cites: 08_failure_and_rebuild: Ports and foreign members; 08_failure_and_rebuild:
Discovery after boot; 08_failure_and_rebuild: Replacement and adoption; 16_electrical_and_package: Member sideband. -/
def Obligations.PresenceAndDiscovery : Prop :=
  (∀ (f : BitVec 128) (s : State),
    s.pow.ph = .off ∨ s.pow.ph = .tripped ∨ s.pow.ph = .standby ∨ s.pow.ph = .coldStopped →
    exec (.memberSidebandFrame f) s = .next s) ∧
  (∀ (f : BitVec 128) (s : State), s.pow.ph ≠ .off → s.pow.ph ≠ .tripped → s.pow.ph ≠ .standby → s.pow.ph ≠ .coldStopped →
    ((∀ q : Fin 128, (!f.getLsbD q.val) = (mport q.val s).present) →
      Settles (.memberSidebandFrame f) s (fun u => ∀ q : Fin 128, (mport q.val u).present = (mport q.val s).present ∧
        (mport q.val u).agree = 0)) ∧
    ∀ a : Fin 128, (mport a.val s).agree = 9 → (∀ q : Fin 128, q ≠ a → (!f.getLsbD q.val) = (mport q.val s).present) →
      (f.getLsbD a.val = false → (mport a.val s).present = false →
        Settles (.memberSidebandFrame f) s (fun u => (mport a.val u).present = true ∧ (mport a.val u).cls = .unclassified)) ∧
      (f.getLsbD a.val = true → (mport a.val s).present = true →
        Settles (.memberSidebandFrame f) s (fun u => (mport a.val u).present = false ∧ (mport a.val u).id = none))) ∧
  (∀ (q : PortNo) (id : MemberId) (s : State),
    let s1 := updMport q.val (fun p => { p with
      present := true, agree := 0, linkUp := true, downAt := none, id := some id, label := memberLabel id,
      width := id.width.toNat, cls := classify q.val id s, lastUse := s.now }) s
    (∀ p n, classify q.val id s = .serving p n → exec (.memberInserted q id) s = .next (settle (serveAt q.val p n s1))) ∧
    (∀ why, classify q.val id s = .foreign why → (why ≠ 2 ∨ offersAt q.val s1 = true) →
      exec (.memberInserted q id) s = .next (settle (event 0x0002 q.val why s1))) ∧
    (classify q.val id s = .foreign 2 → offersAt q.val s1 = false → exec (.memberInserted q id) s = .next (settle s1)) ∧
    (classify q.val id s = .retired ∨ (∃ p n, classify q.val id s = .stale p n) →
      exec (.memberInserted q id) s = .next (settle s1)) ∧
    (∀ why, classify q.val id s = .foreign why →
      Settles (.memberInserted q id) s (fun u => (mport q.val u).present = true ∧ (mport q.val u).id = some id ∧
        (mport q.val u).cls = .foreign why ∧ (mport q.val u).linkUp = true))) ∧
  (∀ (s : State) (t : Nat), s.mem.discoveryAt = some t →
    Settles .discoveryWindowClose s (fun u => u.mem.discoveryAt = none ∧ t + 60000000 ≤ u.now ∧
      ∀ (p : Fin 8) (n : Nat), p.val ∈ poolIds s → discovering p.val s = true → n ∈ heldSlots p.val s →
        (slotRec p.val n s).st = .absent → homedOn p.val n s ≠ 0 → owns p.val s = true →
        (slotRec p.val n u).st = .failed ∧ (slotRec p.val n u).reason = 0x0B ∧ (slotRec p.val n u).commitPending = true)) ∧
  (∀ s : State, s.mem.discoveryAt = none → exec .discoveryWindowClose s = .next (settle s)) ∧
  ∀ (q : PortNo) (p : Fin 8) (n : Nat) (creation : Bool) (s : State), portSlot q.val s = some (p.val, n) →
    (slotRec p.val n s).prep = some creation →
    let waits := (slotRec p.val n s).st = .failed ∨ (slotRec p.val n s).adopting.isSome = true ∨ owns p.val s = false
    let s1 := poolCommit p.val (updSlot p.val n (fun r => { r with prep := none }) s)
    (waits → exec (.memberPrepDone q) s = .next (settle s)) ∧ (¬ waits →
    (creation = true ∨ (slotRec p.val n s1).st ≠ .rebuilding → exec (.memberPrepDone q) s = .next (settle s1)) ∧
    (creation = false → (slotRec p.val n s1).st = .rebuilding → exec (.memberPrepDone q) s = .next (settle
      (updPool p.val (fun x => { x with
        walks := tset x.walks n { next := (slotRec p.val n s1).restore, lastCommit := s1.now } }) s1))))

/-- A boundary commit of a moving cell, and of a restore walk of a REBUILDING slot, sets the boundary to the first band at or
above it whose row is not done, commits the pool's record, with 256 rows in the window at once, else 1 s after the last, and
frees the accepted sectors of the rows done; past the last band the cell settles, and the restored slot is ONLINE with reason
RESTORED (0x13) and its cells are copied back. While PAIRED the peer votes on it first, and nothing moves. With rows to be
marked again, a move that stopped or paused, or commits refused, nothing commits. A health log, read when it falls due, sets
percentage used, warning and temperature of the slot at the port; an endurance log of a member that reports endurance groups
the group's percentage; then wear is judged. (That the clock stands at the timer's end, and that the read and its answer are
one event, are the model's choice, log entries 10 and 79.) A pass that falls due on an owned pool whose reshape does not walk
starts, or is overdue while one runs. PATROL_PROGRESS_COMMIT of a pass commits its progress 600 operating seconds after the
last commit. RESHAPE_WALK_START of a reshape that may start takes the blank members of its added slots, and reports one that
is not blank; with every added slot ready the reshape is in its walk with boundary 0. RESHAPE_COMMIT of a walk commits the
boundary reached, up to the first row whose sources are in use, with 256 rows done at once, else 1 s after the last, carries
the lost writes behind it, and ends the reshape when every row is behind it and no operation of the pool is left; while PAIRED
the peer votes on it first; a row done whose sources are dirty again is marked first. (That the clock stands at the timer's
end is the model's choice, log entry 10.) Cites: 04_layout_and_placement: Relocation; 04_layout_and_placement: Drives as
consumables; 08_failure_and_rebuild: Replacement and adoption; 08_failure_and_rebuild: Rebuild; 08_failure_and_rebuild: Lost
extents; 09_patrol_and_reshape: Patrol passes; 09_patrol_and_reshape: Online reshape. -/
def Obligations.MovesAndWalks : Prop :=
  (
    (∀ (p : Fin 8) (e : Fin 4096) (i : Fin 64) (r : Reloc) (s : State), relocOf p.val e.val i.val s = some r →
      let stops := r.settled = true ∨ r.stopped = true ∨ r.paused = true ∨ r.full = true ∨ r.remark ≠ [] ∨
        commitsRefused s = true ∨ works p.val s = false
      (stops → exec (.boundaryCommit (.cell p e i)) s = .next (settle s)) ∧
      (¬ stops →
        let s0 := if 256 ≤ r.window.length then s else { s with now := max s.now (r.lastCommit + 1000000) }
        let b := cellFront 257 p.val e.val r r.boundary s0
        let done := fun row => decide (row / (poolEnt p.val s0).q < b)
        let r' := { r with boundary := b, window := r.window.filter (fun row => !done row), lastCommit := s0.now }
        let s1 := (r.window.filter done).foldl (fun s row => freeAccepted p.val row i.val s) (setReloc p.val e.val i.val r' s0)
        (jointPool p.val s0 = false → b < (poolEnt p.val s1).bands → (nextBandFor p.val e.val b s1).isSome = true →
          exec (.boundaryCommit (.cell p e i)) s = .next (settle (ledCommit s1))) ∧
        (jointPool p.val s0 = false → (poolEnt p.val s1).bands ≤ b ∨ nextBandFor p.val e.val b s1 = none →
          exec (.boundaryCommit (.cell p e i)) s =
            .next (settle (ledCommit (poolCommit p.val (settleCell p.val e.val i.val r' s1))))) ∧
        (jointPool p.val s0 = true → poolPending p.val s0 = true →
          exec (.boundaryCommit (.cell p e i)) s = .next (settle s0)) ∧
        (jointPool p.val s0 = true → poolPending p.val s0 = false → exec (.boundaryCommit (.cell p e i)) s = .next (settle
          (propose { r := poolShared (p.val % 8) (setReloc p.val e.val i.val { r with boundary := b } s0) } s0))))) ∧
    (∀ (p : Fin 8) (n : Fin 128) (w : Walk) (s : State), tget (poolRec p.val s).walks n.val = some w →
      let stops := w.remark ≠ [] ∨ commitsRefused s = true ∨ (slotRec p.val n.val s).st ≠ .rebuilding ∨ works p.val s = false
      (stops → exec (.boundaryCommit (.restore p n)) s = .next (settle s)) ∧
      (¬ stops →
        let s0 := if 256 ≤ w.window.length then s else { s with now := max s.now (w.lastCommit + 1000000) }
        let b := walkFront (w.next + 1) p.val n.val w (slotRec p.val n.val s0).restore s0
        let done := fun row => decide (row / (poolEnt p.val s0).q < b)
        let s1 := updSlot p.val n.val (fun r => { r with restore := b })
          (updPool p.val (fun x => { x with walks := tset x.walks n.val { w with
            window := w.window.filter (fun row => !done row), lastCommit := s0.now } }) s0)
        let s2 := (w.window.filter done).foldl (fun s row =>
          ((walkRowsOf p.val n.val (row / (poolEnt p.val s).q) s).filter (fun x => x.1 == row)).foldl
            (fun s x => freeAccepted p.val row x.2 s) s) s1
        (jointPool p.val s0 = false → b < (poolEnt p.val s2).bands →
          exec (.boundaryCommit (.restore p n)) s = .next (settle (ledCommit s2))) ∧
        (jointPool p.val s0 = false → (poolEnt p.val s2).bands ≤ b → exec (.boundaryCommit (.restore p n)) s =
          .next (settle (ledCommit (startCopyBack p.val n.val (slotTo p.val n.val .online 0x13
            (updPool p.val (fun x => { x with walks := tdel x.walks n.val }) s2)))))) ∧
        (jointPool p.val s0 = true → poolPending p.val s0 = true →
          exec (.boundaryCommit (.restore p n)) s = .next (settle s0)) ∧
        (jointPool p.val s0 = true → poolPending p.val s0 = false → exec (.boundaryCommit (.restore p n)) s = .next (settle
          (propose { r := poolShared (p.val % 8) (updSlot p.val n.val (fun r => { r with restore := b }) s0) } s0))))) ∧
    (∀ (q : PortNo) (log : HealthLog) (p n : Nat) (s : State), healthSlot q.val s = some (p, n) →
      let s0 := readLog q.val .health (timeToOp ((slotRec p n s).lastHealth + 600) s)
      let hot := if log.warnK ≤ log.tempK then (slotRec p n s).hotReads + 1 else 0
      let s1 := updSlot p n (fun r => { r with
        smartPct := log.pctUsed, critWarn := log.critWarning, tempK := log.tempK,
        hotReads := if log.warnK ≤ log.tempK then r.hotReads + 1 else 0,
        hot := decide ((tgetD (tab s).limits p {}).hotReads ≤ if log.warnK ≤ log.tempK then r.hotReads + 1 else 0),
        lastHealth := opSeconds s0 }) s0
      exec (.healthLogRead q log) s = .next (settle (noteWear p n s1)) ∧
      ((slotRec p n s1).hotReads = hot ∧ (slotRec p n s1).critWarn = log.critWarning)) ∧
    (∀ (q : PortNo) (pct p n : Nat) (s : State), healthSlot q.val s = some (p, n) →
      (mport q.val s).id.any (·.endurance) = true →
      let s0 := readLog q.val .endurance (timeToOp ((slotRec p n s).lastEndur + 86400) s)
      exec (.enduranceLogRead q pct) s = .next (settle (noteWear p n
        (updSlot p n (fun r => { r with endurPct := pct, lastEndur := opSeconds s0 }) s0)))) ∧
    ∀ (q : PortNo) (log : HealthLog) (pct : Nat) (s : State),
      (healthSlot q.val s = none → exec (.healthLogRead q log) s = .next (settle s)) ∧
      (healthSlot q.val s = none ∨ (mport q.val s).id.any (·.endurance) = false →
        exec (.enduranceLogRead q pct) s = .next (settle s))) ∧
  (
    ∀ (p : Fin 8) (s : State),
      (let s1 := timeToOp ((poolRec p.val s).patrol.dueFrom + (prof s).patrolPeriod * 86400) s
       (poolValid p.val s = false ∨ owns p.val s = false ∨ (poolRec p.val s).reshape.st = 2 →
         exec (.patrolPassDue p) s = .next (settle s)) ∧
       (poolValid p.val s = true → owns p.val s = true → (poolRec p.val s).reshape.st ≠ 2 →
         ((poolRec p.val s).patrol.st = 0 → exec (.patrolPassDue p) s = .next (settle (startPass p.val s1))) ∧
         ((poolRec p.val s).patrol.st ≠ 0 → exec (.patrolPassDue p) s =
           .next (settle (updPatrol p.val (fun y => { y with overdue := true }) s1))))) ∧
      ((poolRec p.val s).patrol.st ≠ 0 → commitsRefused s = false →
        let s1 := timeToOp ((poolRec p.val s).patrol.lastCommit + 600) s
        exec (.patrolProgressCommit p) s = .next (settle (poolCommit p.val
          (updPatrol p.val (fun y => { y.save with lastCommit := opSeconds s1 }) s1)))) ∧
      ((poolRec p.val s).patrol.st = 0 ∨ commitsRefused s = true → exec (.patrolProgressCommit p) s = .next (settle s)) ∧
      (reshapeMay p.val s = false ∨ commitsRefused s = true → exec (.reshapeWalkStart p) s = .next (settle s)) ∧
      (reshapeMay p.val s = true → commitsRefused s = false →
        let bad := (openSlots p.val s).find? (fun n => (mport (expectedPort (p.val + 8) n s) s).cls != .foreign 2 ||
          !(mport (expectedPort (p.val + 8) n s) s).id.any (fun i => fits p.val i s))
        (∀ n, bad = some n → exec (.reshapeWalkStart p) s = .next (settle
          (recEvent 0x1F5 0x0033 p.val [BitVec.ofNat 8 (expectedPort (p.val + 8) n s % 128)] s))) ∧
        (bad = none → exec (.reshapeWalkStart p) s = .next (settle
          (beginWalk p.val ((openSlots p.val s).foldl (fun s n => addSlot p.val n s) s)))) ∧
        (addedSlots p.val s = [] →
          let s1 := updPool p.val (fun x => { x with reshape := { x.reshape with
            st := 2, b := 0, rows := (tgetD (tab s).targets p.val {}).rows, window := [], next := 0, finished := [], remark := [],
            lastCommit := s.now } }) (updPatrol p.val (fun y => ({ y with st := 0, overdue := false } : Patrol).save) s)
          exec (.reshapeWalkStart p) s = .next (settle (poolCommit p.val
            (updPool p.val (fun x => { x with reshape := { x.reshape with src := srcFor p.val 0 s1 } }) s1))))) ∧
      ∀ r : Reshape, walking p.val s = some r →
        let dirty := r.finished.filter (fun row => !(dirtySources p.val row s).isEmpty)
        let free := works p.val s = true ∧ r.remark = [] ∧ commitsRefused s = false
        (¬ free → exec (.reshapeCommit p) s = .next (settle s)) ∧
        (free → dirty ≠ [] → exec (.reshapeCommit p) s = .next (settle
          (updPool p.val (fun x => { x with reshape := { r with remark := dirty } }) s))) ∧
        (free → dirty = [] →
          let s0 := if 256 ≤ r.finished.length then s else { s with now := max s.now (r.lastCommit + 1000000) }
          let b := reshapeFront ((walkRows p.val s0).length + 1) (walkRows p.val s0)
            (r.finished.filter (fun row => !sourcesUsed p.val row s0)) r.b
          let t := reshapeTo p.val b s0
          let still := b = r.b ∧ ∀ w ∈ r.window, w.homed = false ∧ w.saved = true
          ((poolRec p.val t).reshape.b = b ∧ (∀ w ∈ (poolRec p.val t).reshape.window, w.homed = false ∧ w.saved = true)) ∧
          (still → exec (.reshapeCommit p) s = .next (settle (reshapeDone p.val t))) ∧
          (¬ still → jointPool p.val s0 = false →
            exec (.reshapeCommit p) s = .next (settle (reshapeDone p.val (ledCommit t)))) ∧
          (¬ still → jointPool p.val s0 = true → poolPending p.val s0 = true →
            exec (.reshapeCommit p) s = .next (settle (reshapeDone p.val s0))) ∧
          (¬ still → jointPool p.val s0 = true → poolPending p.val s0 = false → exec (.reshapeCommit p) s =
            .next (settle (reshapeDone p.val (propose { r := poolShared (p.val % 8) (boundaryRecord p.val b s0) } s0))))) ∧
        let ends := (walkRows p.val s).length ≤ r.b ∧ r.window = [] ∧ ∀ e ∈ s.pipe.ops, e.2.pool ≠ p.val
        (ends → jointPool p.val s = false → reshapeDone p.val s = ledCommit (reshapeEnd p.val s)) ∧
        (¬ ends → reshapeDone p.val s = s))

/-- Run as the admin operation on a valid pool: POOL_STATUS writes the 64 bytes of the pool and the 64 bytes of each slot, as far
as the buffer holds them; LOST_LIST_READ its header with the number of extents, the first and the count, then the extents from
FIRST on as far as the buffer holds them; both complete with SUCCESS. A pool that is not valid fails both with INVALID_FIELD,
reason 0x0201. Run as the admin operation, MEMBER_ADOPT, MEMBER_RETIRE and MEMBER_FAIL complete with the status and reason of
their first failing check, or with BUSY and 0x0B07 while commits are refused; in a pair's pool while PAIRED they, and
PATROL_START, are proposed to the peer and wait; else MEMBER_ADOPT labels the member and makes the slot REBUILDING with reason
ADOPTED, to complete when the labels are written; MEMBER_RETIRE makes it RETIRING with HOST_RETIRE, starts its moves and
succeeds; MEMBER_FAIL fails it with HOST_FAIL and succeeds. PATROL_START of a pool without a pass starts one, of a PAUSED one
resumes it with RESULT 1; its checks that fail give theirs. Cites: 08_failure_and_rebuild: Pool status;
08_failure_and_rebuild: Lost extents; 08_failure_and_rebuild: Replacement and adoption; 09_patrol_and_reshape: Patrol passes;
06_commands: Admin operations. -/
def Obligations.PoolOperations : Prop :=
  (
    ∀ (c : Nat) (x : Cmd) (s : State),
      let p := arg x 40 1
      (adminNow 0x90 s = some (c, x) → p < 8 → poolValid p s = true →
        exec .poolStatus s = .next (finishCmd c 0 0 (scatter x.port x.sgl ((poolBytes p s).take (bufLen x)) s))) ∧
      (adminNow 0x90 s = some (c, x) → 8 ≤ p ∨ poolValid p s = false → exec .poolStatus s = .next (finishCmd c 0x0002 0x0201 s)) ∧
      (adminNow 0x91 s = some (c, x) → p < 8 → poolValid p s = true →
        let all := s.mem.lostE.filter (fun e => e.pool % 8 == p)
        let got := (all.drop (arg x 44 4)).take (min 32767 ((bufLen x - 16) / 32))
        exec .lostListRead s = .next (finishCmd c 0 0 (scatter x.port x.sgl
          ((leBytes 4 all.length ++ leBytes 4 (arg x 44 4) ++ leBytes 4 got.length ++ leBytes 4 0 ++
            got.flatMap lostEBytes).take (bufLen x)) s))) ∧
      (adminNow 0x91 s = some (c, x) → 8 ≤ p ∨ poolValid p s = false → exec .lostListRead s = .next (finishCmd c 0x0002 0x0201 s))) ∧
  (
    ∀ (c : Nat) (x : Cmd) (s : State),
      let q := arg x 40 1
      let p := arg x 41 1
      let n := arg x 42 1
      (∀ (i : Instr) (a : SlotAct),
        (i = .memberAdopt ∧ a = .adopt (adoptPort q p n s) ∧ adminNow 0x92 s = some (c, x)) ∨
        (i = .memberRetire ∧ a = .retire ∧ adminNow 0x93 s = some (c, x)) ∨
        (i = .memberFail ∧ a = .fail ∧ adminNow 0x94 s = some (c, x)) →
        (∀ st why, slotActBad a p n s = some (st, why) →
          exec i s = .next (settle (finishCmd c st (BitVec.ofNat 32 why) s))) ∧
        (slotActBad a p n s = none → commitsRefused s = true → exec i s = .next (settle (finishCmd c 0x0005 0x0B07 s))) ∧
        (slotActBad a p n s = none → commitsRefused s = false → jointPool p s = true →
          exec i s = .next (settle (propose
            { r := poolShared p (actPool a p n s), cmd := some c, act := some (p, n, a) }
            (updCmd c (fun x => { x with ph := .waiting }) s)))) ∧
        (slotActBad a p n s = none → commitsRefused s = false → jointPool p s = false →
          exec i s = .next (settle (match a with
            | .adopt k => adopt c k p n s
            | .retire => finishCmd c 0 0 (slotEmptied p n (startRetire p n (slotTo p n .retiring 0x0F s)))
            | .fail => finishCmd c 0 0 (slotFails p n 0x0C s)
            | .patrol | .patrolOn => s)))) ∧
      (∀ k, p < 8 → (slotRec p n (adopt c k p n s)).st = .rebuilding ∧ (slotRec p n (adopt c k p n s)).reason = 0x12 ∧
        (slotRec p n (adopt c k p n s)).port = some k ∧ (slotRec p n (adopt c k p n s)).adopting = some c) ∧
      (adminNow 0x95 s = some (c, x) →
        (8 ≤ p ∨ poolValid p s = false → exec .patrolStart s = .next (settle (finishCmd c 0x0002 0x0901 s))) ∧
        (p < 8 → poolValid p s = true → owns p s = false → exec .patrolStart s = .next (settle (finishCmd c 0x0201 0x0902 s))) ∧
        (p < 8 → poolValid p s = true → owns p s = true →
          ((poolRec p s).reshape.st = 1 ∨ (poolRec p s).reshape.st = 2 →
            exec .patrolStart s = .next (settle (finishCmd c 0x0006 0x0903 s))) ∧
          ((poolRec p s).reshape.st ≠ 1 → (poolRec p s).reshape.st ≠ 2 →
            ((poolRec p s).patrol.st = 1 ∨ (poolRec p s).patrol.st = 2 →
              exec .patrolStart s = .next (settle (finishCmd c 0x0006 0x0904 s))) ∧
            (((poolRec p s).patrol.st = 0 ∨ (poolRec p s).patrol.st = 3) → commitsRefused s = true →
              exec .patrolStart s = .next (settle (finishCmd c 0x0005 0x0B07 s))) ∧
            (∀ a, ((poolRec p s).patrol.st = 0 ∧ a = .patrol) ∨ ((poolRec p s).patrol.st = 3 ∧ a = .patrolOn) →
              commitsRefused s = false → jointPool p s = true → exec .patrolStart s = .next (settle (propose
                { r := poolShared p (actPool a p 0 s), cmd := some c, act := some (p, 0, a) }
                (updCmd c (fun x => { x with ph := .waiting }) s)))) ∧
            ((poolRec p s).patrol.st = 0 → commitsRefused s = false → jointPool p s = false →
              exec .patrolStart s = .next (settle (finishCmd c 0 0 (landCommit p (passFrom p s))))) ∧
            ((poolRec p s).patrol.st = 3 → commitsRefused s = false → jointPool p s = false →
              exec .patrolStart s = .next (settle (finishCmd c 0 1 (landCommit p (passOn p s)))))))))

/-- For every message of the pair but HELLO, received by a paired module: with its CRC good, a message of another node than the
peer, of another epoch, with a SEQ not above the last delivered of its class, or, in classes 1 and 2, not the next SEQ,
changes nothing; a message whose CRC fails takes the pair link down, with a message of source 0x181 (whose address no rule
states: a free value, log entry 2). An unpaired module changes nothing on any message. (What the module then does by itself,
settle, is the same for all commands.) Cites: 10_pair_operation: The pair link. -/
def Obligations.PairMessagesOutOfTurn : Prop :=
  ∀ (i : Instr) (cls : Nat) (h : PairHdr) (s : State), pairMsg i = some (cls, h) →
    let last := tgetD s.pair.recvSeq cls 0
    (s.led.paired = false → exec i s = .next (settle s)) ∧
    (s.led.paired = true → h.crcOk = true →
      h.node.toNat ≠ s.led.peer ∨ h.epoch ≠ s.led.pairEpoch ∨ h.seq ≤ last ∨ ((cls = 1 ∨ cls = 2) ∧ h.seq ≠ last + 1) →
      exec i s = .next (settle s)) ∧
    (s.led.paired = true → h.crcOk = false → exec i s = .next (settle (raiseFree 0x181 0x34 (pairDown s))))

/-- HEARTBEAT_SEND of a module that beats (link up, and RESYNC, PAIRED, or SUSPECT after the HELLO exchange) sends the next
heartbeat at its time; else nothing. A heartbeat that arrives records the peer's state, cap, commit sequence and profile,
counts those in a row, and ends the mismatch when the profiles agree; three each way in SUSPECT end SUSPECT.
HEARTBEAT_TIMEOUT, SUSPECT_NOTICE and the link's fall make a module in RESYNC or PAIRED enter SUSPECT. The link coming up
records its width and, on a paired module after READY, sends HELLO and every message kept. FAREWELL confirms at once the loss
of the peer's pools (in SUSPECT, of those undecided) or, with none, partitions. (Time runs to the timer's end: log entry 10;
details of HELLO and heartbeats: log entry 34.) A HELLO is recorded, and answered with HELLO when none went out and the module
is not mirroring. With the link up and the module DOWN, FORMING, PARTITIONED or with the peer lost it makes the module
FORMING: from another node than the peer it is refused with check 0, with another plan hash with check 1, else formation
begins. In SUSPECT, of the pair's epoch and the peer's node, it ends the HELLO exchange and starts the counts of heartbeats in
a row. Else nothing more. (HELLO is taken whatever its SEQ: log entry 30.) Cites: 10_pair_operation: The pair link;
10_pair_operation: Pair states; 10_pair_operation: Loss of the peer; 10_pair_operation: Boot, formation and rejoin. -/
def Obligations.HeartbeatsAndFormation : Prop :=
  (
    (∀ s : State, (beats s = false → exec .heartbeatSend s = .next (settle s)) ∧
      (beats s = true →
        let t := max s.now (s.pair.hbTxAt + 1000)
        exec .heartbeatSend s = .next (settle (resumePaired (sendPair (.heartbeat
          { hbSeq := s.pair.hbTx + 1, peerState := BitVec.ofNat 4 s.pair.st, dirtyCap := s.cache.capUnits, commitSeq := s.led.seq,
            profile := s.dev.profile })
          { s with now := t, pair.hbTx := s.pair.hbTx + 1, pair.hbTxAt := t, pair.hbTxRun := s.pair.hbTxRun + 1 }))))) ∧
    (∀ (h : PairHdr) (m : HeartbeatMsg) (s : State), Arrives 0 h s →
      exec (.heartbeat h m) s = .next (settle (resumePaired { heard 0 h s with
        pair.hbRx := m.hbSeq, pair.hbRxAt := s.now, pair.peerSt := m.peerState.toNat, pair.peerCap := m.dirtyCap,
        pair.hbRxRun := if m.hbSeq = s.pair.hbRx + 1 then s.pair.hbRxRun + 1 else 1,
        pair.peerCommit := m.commitSeq, pair.peerProfile := m.profile.toNat,
        pair.mismatch := s.pair.mismatch && m.profile != s.dev.profile })) ∧
      Settles (.heartbeat h m) s (fun u => u.pair.hbRx = m.hbSeq ∧ u.pair.hbRxAt = s.now ∧ u.pair.peerSt = m.peerState.toNat ∧
        u.pair.peerCap = m.dirtyCap ∧ u.pair.peerCommit = m.commitSeq ∧ u.pair.peerProfile = m.profile.toNat)) ∧
    (∀ s : State, resumePaired s =
      if s.pair.st = 5 ∧ s.pair.linkUp = true ∧ s.pair.helloOk = true ∧ 3 ≤ s.pair.hbTxRun ∧ 3 ≤ s.pair.hbRxRun then
        resendPair (setPairSt 4 { s with pair.deciding := false, pair.undecided := [], pair.peerKeys := [] })
      else s) ∧
    (∀ s : State, (mirroring s = false → exec .heartbeatTimeout s = .next (settle s)) ∧
      (mirroring s = true →
        exec .heartbeatTimeout s = .next (settle (enterSuspect { s with now := max s.now (s.pair.hbRxAt + 3000) })) ∧
        Settles .heartbeatTimeout s (fun u => u.pair.st = 5 ∧ u.pair.suspectAt = max s.now (s.pair.hbRxAt + 3000) ∧
          u.pair.suspects = sat32 s.pair.suspects 1))) ∧
    (∀ (h : PairHdr) (s : State), Arrives 0 h s →
      (mirroring s = false → exec (.suspectNotice h) s = .next (settle (heard 0 h s))) ∧
      (mirroring s = true → exec (.suspectNotice h) s = .next (settle (enterSuspect (heard 0 h s))) ∧
        Settles (.suspectNotice h) s (fun u => u.pair.st = 5 ∧ u.pair.suspectAt = s.now))) ∧
    (∀ s : State, exec .pairLinkDown s = .next (settle (pairDown s)) ∧
      (mirroring s = true → Settles .pairLinkDown s (fun u => u.pair.st = 5 ∧ u.pair.linkUp = false ∧ u.pair.width = 0)) ∧
      (mirroring s = false → exec .pairLinkDown s = .next (settle
        { s with pair.linkUp := false, pair.width := 0, pair.helloSent := false, pair.helloIn := none }))) ∧
    (∀ (w : Fin 9) (s : State),
      let s1 : State := { s with pair.linkUp := true, pair.width := w.val, pair.linkSeen := true,
                                 pair.retrains := if s.pair.linkSeen then min 65535 (s.pair.retrains + 1) else s.pair.retrains }
      (s.led.paired = false ∨ s.dev.ready = false → exec (.pairLinkUp w) s = .next (settle s1)) ∧
      (s.led.paired = true → s.dev.ready = true → exec (.pairLinkUp w) s = .next (settle (resendPair (sendHello s1))) ∧
        Settles (.pairLinkUp w) s (fun u => u.pair.linkUp = true ∧ u.pair.width = w.val ∧ u.pair.helloSent = true))) ∧
    ∀ (h : PairHdr) (s : State), Arrives 0 h s →
      (s.pair.st ≠ 3 → s.pair.st ≠ 4 → s.pair.st ≠ 5 → exec (.farewell h) s = .next (settle (heard 0 h s))) ∧
      (s.pair.st = 5 ∨ mirroring s = true →
        let far := if s.pair.st = 5 then s.pair.undecided else poolsOf s.led.peer s
        let s1 := if s.pair.st = 5 then heard 0 h s
          else leavePaired { heard 0 h s with pair.suspectAt := s.now, pair.lastBeat := s.now - 5000, pair.taken := [] }
        let s2 := { s1 with pair.deciding := false, pair.undecided := [] }
        (far = [] → exec (.farewell h) s = .next (settle (partition s2))) ∧
        (far ≠ [] → exec (.farewell h) s = .next (settle (confirmLoss far s2))))) ∧
  (
    ∀ (h : PairHdr) (m : HelloMsg) (s : State),
      (s.led.paired = false → exec (.hello h m) s = .next (settle s)) ∧
      (s.led.paired = true → h.crcOk = false → exec (.hello h m) s = .next (settle (raiseFree 0x181 0x34 (pairDown s)))) ∧
      (s.led.paired = true → h.crcOk = true →
        let s0 : State := { s with pair.recvSeq := tset s.pair.recvSeq 0 h.seq, pair.helloIn := some m,
                                   pair.peerCommit := m.commitSeq, pair.peerProfile := m.profile.toNat }
        let s1 := if s.pair.linkUp = true ∧ s.pair.helloSent = false ∧ mirroring s = false then sendHello s0 else s0
        (s.pair.linkUp = false ∨ s.pair.st = 0 ∨ mirroring s = true → exec (.hello h m) s = .next (settle s1)) ∧
        (s.pair.linkUp = true → s.pair.st = 5 →
          (h.epoch = s.led.pairEpoch → h.node.toNat = s.led.peer → s.pair.helloOk = false →
            exec (.hello h m) s = .next (settle { s1 with pair.helloOk := true, pair.hbTxRun := 0, pair.hbRxRun := 0 })) ∧
          (h.epoch ≠ s.led.pairEpoch ∨ h.node.toNat ≠ s.led.peer ∨ s.pair.helloOk = true →
            exec (.hello h m) s = .next (settle s1))) ∧
        (s.pair.linkUp = true → s.pair.st ≠ 0 → mirroring s = false → s.pair.st ≠ 5 →
          (h.node.toNat ≠ s.led.peer → exec (.hello h m) s = .next (settle (refuseForming 0 (setPairSt 2 s1)))) ∧
          (h.node.toNat = s.led.peer → m.planHash ≠ (tab s).hash →
            exec (.hello h m) s = .next (settle (refuseForming 1 (setPairSt 2 s1)))) ∧
          (h.node.toNat = s.led.peer → m.planHash = (tab s).hash →
            exec (.hello h m) s = .next (settle (beginForming m (setPairSt 2 s1)))))))

/-- A mirror write in RESYNC, PAIRED or SUSPECT with the cache in service, whose sectors all belong to the peer's pools, installs
them and is acknowledged; where that is not so, or one finds no way, the message is not taken. An acknowledgement forgets
every kept message of class 1 up to its SEQ. A mirror clean of a pool that this module does not own takes away the gaps it
names, makes each cached dirty sector it names clean and settles the others in the vault, and is acknowledged; of an own pool
it is only acknowledged. A mirrored journal entry is stored in the mirror area, a retired one closes every open entry of its
sequence; both are acknowledged. A resync line stores its entry; with a sector of an own pool it is answered with that line as
it is here, at most 15 sectors a message; else its sectors are installed, or noted as gaps and asked for again. RESYNC_DONE is
noted and ends RESYNC when this module sent its own. (Gaps and a RESYNC_LINE without data: log entries 36 and 82.) Cites:
10_pair_operation: Mirroring; 10_pair_operation: Boot, formation and rejoin. -/
def Obligations.MirrorMessages : Prop :=
  (∀ (h : PairHdr) (secs : List LineSector) (s : State), Arrives 1 h s →
    let ok := (mirroring s || s.pair.st == 5) && cacheOn s && secs.all (fun x => !owns x.pool.val s)
    (∀ t, ok = true → installAll secs (heard 1 h s) = some t → exec (.mirrorWrite h secs) s = .next (settle (ackMirror t))) ∧
    (ok = false ∨ installAll secs (heard 1 h s) = none → exec (.mirrorWrite h secs) s = .next (settle s))) ∧
  (∀ (h : PairHdr) (n : Nat) (s : State), Arrives 1 h s →
    exec (.mirrorAck h n) s = .next (settle { heard 1 h s with
      pair.unacked := s.pair.unacked.filter (fun m => !(m.1 == 1 && m.2.1 ≤ n)) })) ∧
  (∀ (h : PairHdr) (p : Fin 16) (line : Nat) (mask : BitVec 16) (s : State), Arrives 1 h s →
    (owns p.val s = true → exec (.mirrorClean h p line mask) s = .next (settle (ackMirror (heard 1 h s)))) ∧
    (owns p.val s = false → exec (.mirrorClean h p line mask) s = .next (settle (ackMirror ((secsOf mask).foldl (fun s sec =>
      match (findLine p.val line s).filter (fun x => (tagAt x s).valid.getLsbD sec && (tagAt x s).dirty.getLsbD sec) with
      | some x => unwait x sec (makeClean x sec s)
      | none => if unrestored p.val line sec s then settleVault p.val line sec s else s)
      { heard 1 h s with
        pair.gaps := s.pair.gaps.filter (fun g => !(g.1 == p.val && g.2.1 == line && mask.getLsbD g.2.2)) }))))) ∧
  (∀ (h : PairHdr) (e : JnlWire) (s : State), Arrives 1 h s →
    exec (.jnlMirror h e) s = .next (settle (ackMirror (storeMirror e (heard 1 h s))))) ∧
  (∀ (h : PairHdr) (n : Nat) (s : State), Arrives 1 h s →
    exec (.jnlRetire h n) s = .next (settle (ackMirror { heard 1 h s with
      jnl.mirror := s.jnl.mirror.map (fun e => if e.2.seq = n && e.2.st = 1 then (e.1, { e.2 with st := 2 }) else e) })) ∧
    Settles (.jnlRetire h n) s (fun u => ∀ i e, (i, e) ∈ u.jnl.mirror → e.seq = n → e.st ≠ 1)) ∧
  (∀ (h : PairHdr) (secs : List LineSector) (e : Option JnlWire) (s : State), Arrives 4 h s →
    let s1 := match e with
      | some e => storeMirror e (heard 4 h s)
      | none => heard 4 h s
    (∀ x, secs.find? (fun x => owns x.pool.val s) = some x → exec (.resyncLine h secs e) s = .next (settle
      (if lineSectors x.pool.val x.line s1 = [] then sendPair (.resyncLine [] none) s1
       else (piecesOf 15 (lineSectors x.pool.val x.line s1)).foldl (fun t ss => sendPair (.resyncLine ss none) t) s1))) ∧
    (∀ t, (∀ x ∈ secs, owns x.pool.val s = false) → installAll secs s1 = some t →
      exec (.resyncLine h secs e) s = .next (settle t)) ∧
    ((∀ x ∈ secs, owns x.pool.val s = false) → installAll secs s1 = none →
      exec (.resyncLine h secs e) s = .next (settle (missLine secs s1)))) ∧
  ∀ (h : PairHdr) (s : State), Arrives 4 h s →
    exec (.resyncDone h) s = .next (settle (endResync { heard 4 h s with pair.resyncIn := true })) ∧
    (s.pair.st = 3 → s.pair.resyncOut = true → Settles (.resyncDone h) s (fun u => u.pair.st = 4 ∧ u.pair.resyncIn = true))

/-- LEDGER_PREPARE of a record that passes its check stages it and votes yes; of one that fails, votes no with the reason, stages
nothing and ends the joint quiesce that the record belongs to. A vote, and with it the sender's word that it has the proposal,
goes to the oldest proposal; yes on the only proposal of a pair configuration commits it and completes its command; no on one
completes the waiting command with PAIR_STATE (0x0202), and an own pool record is proposed again. A decision to commit commits
the oldest staged record, and applies it here at the joint quiesce it belongs to; a decision to abort drops it and ends its
joint quiesce; with nothing staged neither does anything. QUIESCE without a quiesce in progress holds intake, bounded by 1 s
or not as it says; with one that crosses it, that of the lower cohort node goes first and the other waits; else it changes
nothing. QUIESCE_DONE records first that the peer is done, then that it has applied the change. XFER RELEASED starts to
acquire the members of the pool, and goes on at once without any to reserve; to the module that released it, it gives the pool
back; ACQUIRED proposes the new owner; DONE ends the transfer in. (What QUIESCE carries, crossed changes, and a pool given
back: log entries 75, 84 and 85.) Cites: 10_pair_operation: Joint commits and joint quiesce; 10_pair_operation: Forced
takeover and transfer. -/
def Obligations.JointCommits : Prop :=
  ∀ (h : PairHdr) (s : State), Arrives 2 h s →
    (∀ r : SharedRec, sharedOk r (heard 2 h s) = true →
      exec (.ledgerPrepare h r) s = .next (settle (sendPair (.ledgerVote true 0)
        { heard 2 h s with pair.staged := s.pair.staged ++ [r] }))) ∧
    (∀ r : SharedRec, sharedOk r (heard 2 h s) = false →
      let t := sendPair (.ledgerVote false (voteReason r (heard 2 h s))) (heard 2 h s)
      exec (.ledgerPrepare h r) s = .next (settle (if jointRecord r (heard 2 h s) then dropQuiesce t else t))) ∧
    (∀ yes : Bool, exec (.ledgerVote h yes) s = .next (settle (voteIn yes (heard 2 h s)))) ∧
    (∀ b : List Byte, s.pair.joint = [{ r := .pairConfig b }] → s.pair.unacked = [] → s.pair.st = 4 →
      Settles (.ledgerVote h true) s (fun u => u.led.pairCfg = b ∧ u.led.seq = s.led.seq + 1 ∧ u.pair.joint = [])) ∧
    (∀ (b : List Byte) (k : Nat), s.pair.joint = [{ r := .pairConfig b, cmd := some k }] → s.pair.unacked = [] → s.pair.st = 4 →
      exec (.ledgerVote h true) s = .next (settle (finishCmd k 0 0 (ledCommitRec (0x38 * 65536)
        { sendPair (.ledgerDecide true) { heard 2 h s with pair.joint := [] } with led.pairCfg := b })))) ∧
    (∀ (r : SharedRec) (k : Nat), s.pair.joint = [{ r := r, cmd := some k }] → s.pair.unacked = [] →
      exec (.ledgerVote h false) s = .next (settle (nextForming (finishCmd k 0x0202 0 { heard 2 h s with pair.joint := [] })))) ∧
    (∀ (p : Fin 8) (x : PoolShare), s.pair.joint = [{ r := .poolRecord p x }] → s.pair.unacked = [] → owns p.val s = true →
      s.pair.st = 4 → exec (.ledgerVote h false) s =
        .next (settle { heard 2 h s with pair.joint := [], pair.again := nins s.pair.again p.val })) ∧
    (
      let s1 := ackThrough 2 (fun m => match m with
        | .ledgerVote .. => true
        | _ => false) (heard 2 h s)
      (s.pair.staged = [] → ∀ yes : Bool, exec (.ledgerDecide h yes) s = .next (settle s1)) ∧
      (∀ r rest, s.pair.staged = r :: rest →
        let u := applyShared r false { s1 with pair.staged := rest }
        exec (.ledgerDecide h true) s = .next (settle (afterShared r (if jointRecord r u then jointCommitted u else u))) ∧
        let t := { s1 with pair.staged := rest }
        exec (.ledgerDecide h false) s = .next (settle (if jointRecord r t then dropQuiesce t else t))) ∧
      (∀ b, s.pair.staged = [.pairConfig b] → Settles (.ledgerDecide h true) s (fun u =>
        u.led.pairCfg = b ∧ u.led.seq = s.led.seq + 1 ∧ u.pair.staged = []))) ∧
    (∀ bounded : Bool,
      (s.pair.jq = none → exec (.quiesce { hdr := h, bounded := bounded }) s = .next (settle
        { heard 2 h s with pair.jq := some { since := s.now, bounded := bounded }, plan.jointHold := true })) ∧
      (∀ q : JointQ, s.pair.jq = some q →
        (q.r = none ∨ s.led.cohort < s.led.peer →
          exec (.quiesce { hdr := h, bounded := bounded }) s = .next (settle (heard 2 h s))) ∧
        ∀ r, q.r = some r → s.led.peer ≤ s.led.cohort →
          exec (.quiesce { hdr := h, bounded := bounded }) s = .next (settle { heard 2 h s with
            pair.jq := some { q with r := none, cmd := none, bounded := bounded },
            pair.jqWait := (r, q.cmd) :: s.pair.jqWait }))) ∧
    (
      let s1 := ackThrough 2 (fun m => match m with
        | .quiesce _ => true
        | .quiesceDone => true
        | .ledgerDecide _ => true
        | _ => false) (heard 2 h s)
      (s.pair.jq = none → exec (.quiesceDone h) s = .next (settle s1)) ∧
      ∀ q : JointQ, s.pair.jq = some q →
        (q.peerDone = false → exec (.quiesceDone h) s = .next (settle { s1 with pair.jq := some { q with peerDone := true } })) ∧
        (q.peerDone = true →
          exec (.quiesceDone h) s = .next (settle (endJoint { s1 with pair.jq := some { q with peerApplied := true } })))) ∧
    ∀ p : Fin 8,
      let s1 := ackThrough 2 (fun m => match m with
        | .xfer _ => true
        | _ => false) (heard 2 h s)
      let back := s.pair.xfer = .acquire ∧ s.pair.xferCur = p.val
      let r := resvTo p.val (resvSlots p.val s1) (.acquire (ownKey s1))
        { s1 with pair.xferIn := some p.val, pair.xferOk := 0, pair.xferBad := [] }
      let t := { r.2 with pair.xferLeft := r.1 }
      (back → exec (.xfer h (.released p)) s = .next (settle (endXfer (some 0x0A04) (acquireAll p.val s1)))) ∧
      (¬ back → r.1 = 0 → exec (.xfer h (.released p)) s = .next (settle (xferStep p.val t))) ∧
      (¬ back → r.1 ≠ 0 → exec (.xfer h (.released p)) s = .next (settle t)) ∧
      (s.pair.xfer = .acquire → s.pair.xferCur = p.val → exec (.xfer h (.acquired p)) s = .next (settle
        (propose { r := .poolOwner p (BitVec.ofNat 18 s.led.peer) ((poolRec p.val s).epoch + 1) }
          { s1 with pair.xfer := .commit }))) ∧
      (s.pair.xfer ≠ .acquire ∨ s.pair.xferCur ≠ p.val → exec (.xfer h (.acquired p)) s = .next (settle s1)) ∧
      (s.pair.xferIn = some p.val → exec (.xfer h (.done p)) s = .next (settle { s1 with pair.xferIn := none })) ∧
      (s.pair.xferIn ≠ some p.val → exec (.xfer h (.done p)) s = .next (settle s1))

/-- A forwarded entry becomes a command of the peer: it ends with its failing check, with NOT_OWNER (0x0201) when this module does
not own its volume's pool, and starts otherwise. Forwarded write data is gathered for the command of the peer with its tag,
which goes on with the last of it, forwarded read data goes to the buffer of the command that waits for it, each message
behind the one before; data without such a command is dropped. The owner's status and result complete a forwarded command, a
write asking first for the mirror lines that found no place; a waiting FLUSH waits for the peer no more. A member timeout that
the peer reports of an own pool fails the slot with reason 0x04; an error is counted as a read error, and 64 in a day fail it
with reason 0x07. (How a report is worked off is the model's choice, log entry 35.) Cites: 10_pair_operation: One array to the
hosts; 10_pair_operation: Ownership and fencing. -/
def Obligations.Forwarding : Prop :=
  ∀ (h : PairHdr) (s : State), Arrives 3 h s →
    (∀ (tag : Nat) (e : List Byte),
      let c := (newCmd (.peer tag) 0 e (heard 3 h s)).1
      let t := (newCmd (.peer tag) 0 e (heard 3 h s)).2
      (∀ st res, volumeBad e t = some (st, res) →
        exec (.forwardCmd h tag e) s = .next (settle (finishCmd c st (BitVec.ofNat 32 res) t))) ∧
      (volumeBad e t = none → namesVolume e = true → ownOf (entVol e) t ≠ .here →
        exec (.forwardCmd h tag e) s = .next (settle (finishCmd c 0x0201 0 t))) ∧
      (volumeBad e t = none → namesVolume e = false ∨ ownOf (entVol e) t = .here →
        exec (.forwardCmd h tag e) s = .next (settle (startIo c t)))) ∧
    (∀ (tag : Nat) (d : List Byte),
      (∀ c x, peerCmd tag s = some c → cmdOf c s = some x →
        let n := d.length / 4096
        let got := x.wdata ++ (List.range n).map (fun i => (x.got + i, slice d (4096 * i) 4096))
        (x.got + n < x.count → exec (.forwardData h true tag d) s = .next (settle
          (updCmd c (fun y => { y with wdata := got, got := y.got + n }) (heard 3 h s)))) ∧
        (x.count ≤ x.got + n → exec (.forwardData h true tag d) s = .next (settle (hostData c
          (some ((List.range x.count).flatMap (fun o => padTo 4096 (tgetD got o []))))
          (updCmd c (fun y => { y with got := y.got + n, ph := if y.ph = .begun then .data else y.ph }) (heard 3 h s)))))) ∧
      (peerCmd tag s = none → exec (.forwardData h true tag d) s = .next (settle (heard 3 h s))) ∧
      (∀ x : Cmd, cmdOf tag s = some x → x.ph = .forwarded →
        exec (.forwardData h false tag d) s = .next (settle (scatter x.port (dropRuns (4096 * x.got) x.sgl) d
          (updCmd tag (fun y => { y with got := y.got + d.length / 4096 }) (heard 3 h s))))) ∧
      ((∀ x : Cmd, cmdOf tag s = some x → x.ph ≠ .forwarded) →
        exec (.forwardData h false tag d) s = .next (settle (heard 3 h s)))) ∧
    (∀ e : ForwardEnd,
      (∀ x : Cmd, cmdOf e.tag s = some x →
        (x.ph = .forwarded →
          exec (.forwardCpl h e) s =
            .next (settle (finishCmd e.tag e.status e.result (fillGaps x (e.result != 0) (heard 3 h s)))) ∧
          (x.opcode ≠ 2 → x.opcode ≠ 3 → fillGaps x (e.result != 0) (heard 3 h s) = heard 3 h s)) ∧
        (x.ph = .waiting → x.opcode = 4 →
          exec (.forwardCpl h e) s = .next (settle (updCmd e.tag (fun y => { y with opsLeft := 0 }) (heard 3 h s)))) ∧
        (x.ph ≠ .forwarded → x.ph ≠ .waiting ∨ x.opcode ≠ 4 → exec (.forwardCpl h e) s = .next (settle (heard 3 h s)))) ∧
      (cmdOf e.tag s = none → exec (.forwardCpl h e) s = .next (settle (heard 3 h s)))) ∧
    ∀ (p : Fin 8) (n : Fin 128),
      (owns p.val s = true →
        exec (.memberReport h p n true) s = .next (settle (slotFails p.val n.val 0x04 (heard 3 h s)))) ∧
      (owns p.val s = true →
        let s1 := updSlot p.val n.val (fun r =>
          { r with readErrs := lastDay r.readErrs (heard 3 h s) ++ [opSeconds s], readErrTotal := sat32 r.readErrTotal 1 })
          (heard 3 h s)
        exec (.memberReport h p n false) s = .next (settle
          (if 64 ≤ (slotRec p.val n.val s1).readErrs.length then slotFails p.val n.val 0x07 s1 else s1))) ∧
      (owns p.val s = false → ∀ timeout : Bool, exec (.memberReport h p n timeout) s = .next (settle (heard 3 h s)))

/-- A loss decision takes each undecided pool as alive when a key on its arbiters moved, as lost when two or more arbiters show no
move, and leaves the others undecided: an alive pool is detached and its forwarded commands refused; the lost ones are
confirmed lost; with none lost and none open the pair is PARTITIONED. A beat of a paired module that is not mirroring counts
one higher, stamps its time and takes in the reads; else nothing. HELLO_TIMEOUT of a DOWN module after READY, not deciding,
starts the decision on the peer's pools; else nothing. PAIR_CTL without FORCE only names pools; with FORCE outside PARTITIONED
or while the ledger is locked it does nothing; else it takes the named detached pools. PAIR_XFER without GO or during a
transfer only takes its fields; without the pair up it is refused with reason 0x0A01, of a pool that this module does not own
with 0x0A02, of one in reshape with 0x0A03; else the transfer drains the pool. (The results of arbiter reads come with the
commands; time runs to the timer's end: log entry 10.) Cites: 10_pair_operation: Loss of the peer; 10_pair_operation: Forced
takeover and transfer; 10_pair_operation: Boot, formation and rejoin; 10_pair_operation: Pair registers. -/
def Obligations.PeerLossDecided : Prop :=
  (∀ s : State, s.pair.deciding = true → s.pair.undecided = [] → s.pair.st = 5 → s.pair.joint = [] → s.pair.staged = [] →
    s.pair.jq = none → s.pipe.cmds = [] → Settles .lossDecision s (fun u => u.pair.st = 6 ∧ u.pair.deciding = false)) ∧
  (∀ s : State, s.pair.deciding = true → s.pair.undecided ≠ [] → (∀ p ∈ s.pair.undecided, peerAlive p s = none) →
    Settles .lossDecision s (fun u => u.pair.deciding = true ∧ u.pair.undecided = s.pair.undecided ∧ u.pair.st = s.pair.st ∧
      u.pair.windowAt = max s.now (s.pair.windowAt + 20000))) ∧
  (∀ s : State, (s.pair.deciding = false → exec .lossDecision s = .next (settle s)) ∧
    (s.pair.deciding = true →
      let alive := s.pair.undecided.filter (fun p => peerAlive p s == some true)
      let lost := s.pair.undecided.filter (fun p => peerAlive p s == some false)
      let left := s.pair.undecided.filter (fun p => peerAlive p s == none)
      let s1 := alive.foldl (fun s p => refuseForwarded p (detach p s)) { s with now := max s.now (s.pair.windowAt + 20000) }
      let s2 := { s1 with
        pair.undecided := left, pair.windowAt := s1.now, pair.deciding := !left.isEmpty,
        pair.peerKeys := s1.pair.peerKeys.filter (fun e => !left.contains (e.1 / 4)) }
      (lost ≠ [] → exec .lossDecision s = .next (settle (confirmLoss lost s2))) ∧
      (lost = [] → left = [] → s2.pair.st ≠ 7 → exec .lossDecision s = .next (settle (partition s2))) ∧
      (lost = [] → left ≠ [] ∨ s2.pair.st = 7 → exec .lossDecision s = .next (settle s2)))) ∧
  (∀ (reads : List ArbiterRead) (s : State),
    (s.led.paired = false ∨ mirroring s = true ∨ s.pair.st = 0 → exec (.reservationBeat reads) s = .next (settle s)) ∧
    (s.led.paired = true → mirroring s = false → s.pair.st ≠ 0 →
      exec (.reservationBeat reads) s = .next (settle (beat reads { s with now := max s.now (s.pair.lastBeat + 5000) })))) ∧
  (∀ (s : State), s.led.paired = true → s.pair.st ≠ 0 → mirroring s = false → s.pair.beat ≠ 0xFFFFFFFF →
    Settles (.reservationBeat []) s (fun u => u.pair.beat = s.pair.beat + 1 ∧
      u.pair.lastBeat = max s.now (s.pair.lastBeat + 5000) ∧ u.pair.peerKeys = s.pair.peerKeys)) ∧
  (∀ (reads : List ArbiterRead) (s : State),
    (s.pair.st ≠ 1 ∨ s.pair.deciding = true ∨ s.dev.ready = false → exec (.helloTimeout reads) s = .next (settle s)) ∧
    (s.pair.st = 1 → s.pair.deciding = false → s.dev.ready = true →
      let t := max s.now (s.pair.suspectAt + 5000000)
      exec (.helloTimeout reads) s = .next (settle (beat reads { s with
        now := t, pair.deciding := true, pair.windowAt := t, pair.undecided := poolsOf s.led.peer s, pair.peerKeys := [],
        pair.taken := [] })) ∧
      Settles (.helloTimeout []) s (fun u => u.pair.deciding = true ∧ u.pair.undecided = poolsOf s.led.peer s ∧
        u.pair.windowAt = t ∧ u.pair.st = 1))) ∧
  (∀ (v : Word) (s : State), barUp 0 s = true → s.dev.ready = true →
    (v.getLsbD 0 = false → exec (.force v) s = .next (settle { s with pair.ctlPools := v.extractLsb' 8 8 })) ∧
    (v.getLsbD 0 = true → s.led.locked = true ∨ s.pair.st ≠ 6 → exec (.force v) s = .next (settle s)) ∧
    (v.getLsbD 0 = true → s.led.locked = false → s.pair.st = 6 →
      let s1 : State := { s with
        pair.ctlPools := v.extractLsb' 8 8, pair.takePools := 0, pair.taken := [],
        pair.takeConfirm := min 65535 ((s.now - s.pair.hbRxAt) / 1000) }
      exec (.force v) s = .next (settle ((s.pair.detached.filter (fun p =>
        pairPool p s1 && (v.extractLsb' 8 8 : BitVec 8).getLsbD p)).foldl (fun s p => startTake p true s) s1)))) ∧
  (∀ (v : Word) (s : State), barUp 0 s = true → s.dev.ready = true →
    let p := (v.extractLsb' 0 3 : BitVec 3).toNat
    let s1 : State := { s with
      pair.xferPool := v.extractLsb' 0 3, pair.xferDone := s.pair.xferDone && !v.getLsbD 5,
      pair.xferErr := s.pair.xferErr && !v.getLsbD 6 }
    let refused (r : BitVec 16) : State := { s1 with pair.xferErr := true, pair.xferReason := r }
    (v.getLsbD 3 = false ∨ s.pair.xfer ≠ .none → exec (.pairXferGo v) s = .next (settle s1)) ∧
    (v.getLsbD 3 = true → s.pair.xfer = .none →
      (pairUp s = false → exec (.pairXferGo v) s = .next (settle (refused 0x0A01))) ∧
      (pairUp s = true → (pairPool p s && owns p s) = false → exec (.pairXferGo v) s = .next (settle (refused 0x0A02))) ∧
      (pairUp s = true → pairPool p s = true → owns p s = true → (poolRec p s).reshape.st = 2 →
        exec (.pairXferGo v) s = .next (settle (refused 0x0A03))) ∧
      (pairUp s = true → pairPool p s = true → owns p s = true → (poolRec p s).reshape.st ≠ 2 →
        exec (.pairXferGo v) s = .next (settle (updPool p (fun r => { r with
          relocs := r.relocs.map (fun (k, m) => (k, if m.settled then m else toBoundary m)),
          walks := r.walks.map (fun (n, w) => (n, { w with next := (slotRec p n s).restore, window := [], remark := [] })) })
          { s1 with pair.xfer := .drain, pair.xferCur := p }))))) ∧
  ∀ (v : Word) (s : State), barUp 0 s = false ∨ s.dev.ready = false →
    exec (.force v) s = .next (settle s) ∧ exec (.pairXferGo v) s = .next (settle s)

/-- In service, PFAIL_N low and a rail monitor's trip start a flush: the cache shadow is frozen as it stands, the work of the data
path is dropped, and, but for the FLOOR level, the flush sequence rises by 1 and an empty header goes into the header copy
that is not in force. Before READY they commit the counters record once, with the operating seconds and the power cycles, and
HOLD_EN falls. In any other phase (a flush that runs, a flushed or stopped module, standby, a held or failed boot, off) a rail
trip changes nothing and PFAIL_N is only recorded, as PFAIL_N high is always. (That a boot in progress ends with its power is
as R410 states it.) Cites: 11_power_fail_boot_ledger: Detecting power loss; 11_power_fail_boot_ledger: The flush;
11_power_fail_boot_ledger: Boot. -/
def Obligations.PowerLossStartsTheFlush : Prop :=
  (∀ s : State, s.pow.ph = .run →
    let starts (t : State) : Prop := t.pow.ph = .flush ∧ t.pow.flushing = true ∧ t.cache.frozen = true ∧
      t.cache.shadow = s.cache.shadow ∧ t.pow.flushAt = s.now ∧
      (atFloor s = false → t.pow.flushSeq = s.pow.flushSeq + 1 ∧ t.pow.header = 0 ∧ t.pow.hdrCur = 1 - s.pow.hdrCur ∧
        tget t.pow.hdrs t.pow.hdrCur = some {
          seq := s.pow.flushSeq + 1, st := 0, first := s.pow.index.length, cur := s.pow.cur, free0 := s.pow.free0, free1 := s.pow.free1,
          erased0 := s.pow.erased0, erased1 := s.pow.erased1 }) ∧
      (atFloor s = true → t.pow.flushSeq = s.pow.flushSeq ∧ t.pow.header = s.pow.header ∧ t.pow.hdrs = s.pow.hdrs) ∧
      t.pow.step6 = false ∧ t.pow.nand = s.pow.nand ∧ t.pow.index = s.pow.index ∧ t.pipe.ops = [] ∧ t.pipe.cmds = [] ∧
      t.mem.cmds = []
    Completes (.pfailN true) s (fun t => starts t ∧ t.pow.pfail = true) ∧
    ∀ r : MonRail, Completes (.railMonitorTrip r) s starts) ∧
  (∀ s : State, s.pow.ph = .boot →
    let ends (t : State) : Prop := t.pow.ph = .off ∧ t.pow.hold = false ∧ t.led.seq = s.led.seq + 1 ∧
      t.led.opSeconds = opSeconds s ∧ t.led.powerCycles = s.evr.powerCycles
    Completes (.pfailN true) s ends ∧ ∀ r : MonRail, Completes (.railMonitorTrip r) s ends) ∧
  (∀ s : State, s.pow.ph ≠ .run → s.pow.ph ≠ .boot →
    exec (.pfailN true) s = .next { s with pow.pfail := true, pow.pfailAt := s.now } ∧
    ∀ r : MonRail, exec (.railMonitorTrip r) s = .next s) ∧
  ∀ s : State, exec (.pfailN false) s = .next { s with pow.pfail := false, pow.pfailAt := s.now }

/-- At the end of a flush with the vault free and cool, the dirty sectors that are not vault-clean are programmed, but for those
that the DRAM errors met lose; the header is COMPLETE (1), the last result 0, and HOLD_EN falls; the module stands stopped
after a cold stop, flushed with main power, off without. A flush whose wait on a hot vault has ended programs and closes in
the same way. With a hot vault it waits on main power, and without it closes with header 2 and programs nothing. When the
vault has cooled and is not in block reset, the wait ends and step 6 runs, until the end of the flush. Outside a flush, or
with the vault in block reset, both do nothing. PWROK falling during a flush leaves the vault as it is or with the first lines
of the shadow programmed, result 1 (torn); the module is off and not ready; after the analog trip it only drops what the trip
held, and off it does nothing. In service, a vault half that is not current, not erased and holds no live entry is erased and
counted, and becomes the current one where that has no room; any other stays, as in any other phase. Cites:
11_power_fail_boot_ledger: The flush; 11_power_fail_boot_ledger: Vault and index; 11_power_fail_boot_ledger: Cold stop. -/
def Obligations.FlushEnds : Prop :=
  (∀ (main : Bool) (errs : List DramErr) (s : State),
    (s.pow.ph ≠ .flush ∨ vaultResetting s = true → exec (.flushEnd { mainPower := main, errs := errs }) s = .next s) ∧
    (s.pow.ph = .flush → vaultResetting s = false →
      (s.pow.step6 = true → exec (.flushEnd { mainPower := main, errs := errs }) s = .next (afterFlush main (closeFlush 1 (programVault errs s)))) ∧
      (s.pow.step6 = false → s.pow.hotWait = true ∨ vaultHot s = true →
        exec (.flushEnd { mainPower := true, errs := errs }) s = .next { s with pow.hotWait := true } ∧
        exec (.flushEnd { mainPower := false, errs := errs }) s = .next (afterFlush false (closeFlush 2 s)) ∧
        Completes (.flushEnd { mainPower := false, errs := errs }) s (fun t => (atFloor s = false → t.pow.header = 2) ∧ t.pow.lastResult = 2 ∧ t.pow.hold = false ∧
          t.pow.nand = s.pow.nand ∧ t.pow.index = s.pow.index)) ∧
      (s.pow.step6 = false → s.pow.hotWait = false → vaultHot s = false →
        exec (.flushEnd { mainPower := main, errs := errs }) s = .next (afterFlush main (closeFlush 1 (programVault errs s))) ∧
        Completes (.flushEnd { mainPower := main }) s (fun t => (atFloor s = false → t.pow.header = 1) ∧ t.pow.lastResult = 0 ∧ t.pow.hold = false ∧
          t.pow.nand = (programVault [] s).pow.nand ∧ t.pow.index = (programVault [] s).pow.index ∧
          t.pow.ph = (if s.pow.coldStop then .coldStopped else if main then .flushed else .off))))) ∧
  (∀ s : State,
    let ends := s.pow.ph = .flush ∧ s.pow.hotWait = true ∧ vaultCool s = true ∧ vaultResetting s = false
    (ends → exec .vaultHotWaitEnd s = .next { s with pow.hotWait := false, pow.step6 := true }) ∧
    (¬ ends → exec .vaultHotWaitEnd s = .next s)) ∧
  (∀ s : State, (s.pow.ph = .off → exec .pwrokFall s = .next s) ∧
    (s.pow.ph = .tripped → exec .pwrokFall s = .next
      { (if s.therm.tripped = true then emit (.pin "THERMTRIP_N" true) s else s) with
        pow.aon := false, therm.tripped := false, dev.powerGood := false }) ∧
    (s.pow.ph ≠ .off → s.pow.ph ≠ .tripped →
      Completes .pwrokFall s (fun t => t.pow.ph = .off ∧ t.pow.aon = false ∧ t.dev.ready = false ∧ t.dev.powerGood = false ∧
        t.cache.shadow = s.cache.shadow ∧ t.led = s.led ∧
        ((t.pow.nand = s.pow.nand ∧ t.pow.index = s.pow.index) ∨ (s.pow.ph = .flush ∧ ∃ n : Nat,
          t.pow.nand = (programLines (s.cache.shadow.take n) s).pow.nand ∧
          t.pow.index = (programLines (s.cache.shadow.take n) s).pow.index)) ∧
        (s.pow.ph = .flush → t.pow.lastResult = 1)))) ∧
  ∀ (h : Fin 2) (s : State),
    let free := h.val ≠ s.pow.cur ∧ halfErased h.val s = false ∧ ∀ e ∈ s.pow.index, e.half = h.val → liveEntry e s = false
    (s.pow.ph ≠ .run → exec (.vaultHalfEraseDone h) s = .next s) ∧
    (s.pow.ph = .run → ¬ free → exec (.vaultHalfEraseDone h) s = .next (settle s)) ∧
    (s.pow.ph = .run → free →
      let w : PowSt :=
        if h.val = 0 then { s.pow with nand := s.pow.nand.filter (fun e => e.1 / 2 ^ 24 != h.val), free0 := 0, erased0 := true,
                                       erases0 := s.pow.erases0 + 1 }
        else { s.pow with nand := s.pow.nand.filter (fun e => e.1 / 2 ^ 24 != h.val), free1 := 0, erased1 := true,
                          erases1 := s.pow.erases1 + 1 }
      exec (.vaultHalfEraseDone h) s = .next (settle (setCap { s with pow := saveHdr (bootHalf w) })))

/-- From off or tripped, power-good boots: rails out of range hold the boot with HOLD_EN low; MRAM that cannot be read gives no
service with cause 1, firmware that does not verify cause 2; else, with a control core and a lane at hand, the boot goes on
with HOLD_EN high and the boot cause of the last power-down. In any other phase power-good does nothing. READY makes a booting
module serve, else nothing. After a flush with PFAIL_N high for 100 ms the module boots again. PERST_N is recorded; of port 0,
and of port 1 when bifurcated, its fall resets both or one of the ports while hosts are powered, with a message of source
0x008; of port 0 it frees the rings of both ports and takes both links down; the rise of port 0 is a wake. DEEP_STANDBY enters
standby with every condition met, and fails with INVALID_STATE (0x0005) and the conditions otherwise. A link that trains to a
width it may have records it, while its port answers and no PERST_N is low. (That time runs to the timer's end is the model's
choice, log entry 10.) Cites: 11_power_fail_boot_ledger: Boot; 01_architecture: Power domains and clocks; 01_architecture:
Device identity and status registers; 05_host_rings: Ring states, reset and shutdown. -/
def Obligations.BootsAndResets : Prop :=
  (∀ (b : BootInputs) (s : State),
    (s.pow.ph ≠ .off → s.pow.ph ≠ .tripped → exec (.powerGood b) s = .next s) ∧
    (s.pow.ph = .off ∨ s.pow.ph = .tripped → exec (.powerGood b) s = .next (boot true
      (if s.pow.ph = .tripped then 6 else if s.pow.endedBad then 7 else if s.pow.endedDone then 1 else 0) b s))) ∧
  (∀ (b : BootInputs) (s : State), s.pow.ph = .off →
    let c := if s.pow.endedBad then 7 else if s.pow.endedDone then 1 else 0
    let r := setHold true (resetState true c b (loadLedger b s))
    (b.railsOk = false → Completes (.powerGood b) s (fun t => t.pow.ph = .held ∧ t.pow.hold = false ∧ t.dev.ready = false)) ∧
    (b.railsOk = true → b.mramReadable = false →
      Completes (.powerGood b) s (fun t => t.pow.ph = .noService ∧ t.dev.noService = 1 ∧ t.pow.hold = false)) ∧
    (b.railsOk = true → b.mramReadable = true → b.badCtrlCores = 0xF →
      Completes (.powerGood b) s (fun t => t.pow.ph = .noService ∧ t.dev.ready = false ∧
        t.dev.noService = if (verifyFirmware r).1 then 3 else 2)) ∧
    (b.railsOk = true → b.mramReadable = true → b.badCtrlCores = 0 → b.badLanes = 0 → b.badSeqCores = 0 →
      Completes (.powerGood b) s (fun t => t.dev.ready = false ∧ t.pow.bootCause = c ∧
        if (verifyFirmware r).1 then t.pow.ph = .boot ∧ t.pow.hold = true ∧ t.led.retrain = false
        else t.pow.ph = .noService ∧ t.dev.noService = 2 ∧ t.pow.hold = false))) ∧
  (∀ s : State, (s.pow.ph ≠ .boot → exec .ready s = .next s) ∧
    (s.pow.ph = .boot → Settles .ready s (fun u => u.dev.ready = true ∧ u.pow.ph = .run ∧ u.pow.readyAt = s.now ∧
      u.cache.frozen = false))) ∧
  (∀ s : State, (s.pow.ph = .flushed → s.pow.pfail = false → exec .postFlushReset s =
      .next (bootAgain (if s.pow.flushCause = 3 then 3 else 2) { s with now := max s.now (s.pow.pfailAt + 100000) })) ∧
    (s.pow.ph ≠ .flushed ∨ s.pow.pfail = true → exec .postFlushReset s = .next s)) ∧
  (∀ (p : Fin 2) (low : Bool) (s : State),
    let s1 := updPort p.val (fun q => { q with perstLow := low }) s
    (p = 1 → s.dev.bifurcated = false → exec (.perstN p low) s = .next s1) ∧
    (p = 0 ∨ s.dev.bifurcated = true →
      (hostPowered s = false → exec (.perstN p true) s = .next (updPort p.val (fun q => { q with perstLow := true }) s)) ∧
      (hostPowered s = true → exec (.perstN p true) s = .next (raiseFree 0x008 0x3F
        (if p = 0 then linkReset 1 (linkReset 0 (updPort 0 (fun q => { q with perstLow := true }) s))
          else linkReset 1 (updPort 1 (fun q => { q with perstLow := true }) s)))) ∧
      (p = 0 → s.port0.perstLow = true → exec (.perstN p false) s =
        .next (wakeUp (updPort 0 (fun q => { q with perstLow := false }) s))) ∧
      (p = 1 ∨ s.port0.perstLow = false → exec (.perstN p false) s =
        .next (updPort p.val (fun q => { q with perstLow := false }) s)))) ∧
  (∀ s : State, hostPowered s = true →
    Completes (.perstN 0 true) s (fun t => t.port0.perstLow = true ∧ t.port0.width = 0 ∧ t.port1.width = 0 ∧
      ∀ (p : Fin 2) (r : Nat), ringIn p.val r s = true → (ringOf r t).st = .free)) ∧
  (∀ s : State, s.port0.perstLow = true → s.pow.ph = .standby →
    exec (.perstN 0 false) s = .next (bootAgain 5 (updPort 0 (fun q => { q with perstLow := false }) s))) ∧
  (∀ (c : Nat) (x : Cmd) (s : State), adminNow 0xB9 s = some (c, x) →
    (standbyUnmet c s = 0 → Completes .deepStandby s (fun t => t.pow.ph = .standby ∧ t.dev.standby = true ∧
      t.dev.ready = false ∧ t.pow.hold = false)) ∧
    (standbyUnmet c s ≠ 0 → exec .deepStandby s = .next (finishCmd c 0x0005 (BitVec.ofNat 32 (standbyUnmet c s)) s))) ∧
  (∀ (p : Fin 2) (w : Fin 17) (l12 vdm sris : Bool) (s : State), barUp p.val s = true →
    s.port0.perstLow = false → (getPort p.val s).perstLow = false →
    (linkWidth p.val w.val s = true → exec (.hostLinkTrained p w l12 vdm sris) s = .next (updPort p.val
      (fun q => { q with width := w.val, inL12 := l12, vdm := vdm, sris := sris }) s)) ∧
    (linkWidth p.val w.val s = false → exec (.hostLinkTrained p w l12 vdm sris) s = .next s)) ∧
  ∀ (p : Fin 2) (w : Fin 17) (l12 vdm sris : Bool) (s : State),
    barUp p.val s = false ∨ s.port0.perstLow = true ∨ (getPort p.val s).perstLow = true →
    exec (.hostLinkTrained p w l12 vdm sris) s = .next s

/-- In service with the vault not in block reset, a page that was read counts the READ commands that wait for it, each once, and
gives each of its sectors to restore in order, and what a FLUSH or range invalidate waits for, or a slice now dirty as a
whole, is destaged; else it changes nothing. One sector: good, with the cache in service, it is installed in its shadow's way;
failing its checks it is lost with reason 3; with the cache out of service it stays in buffer memory. The restore ends when
nothing is left, and only then. COUNTERS_COMMIT commits the operating seconds and power cycles once, unless commits are
refused. LEDGER_SCRUB counts corrected words, and each record that fails is counted and makes the ledger DAMAGED. BOOT_VOL and
PWR_CTL commit their record, the directory before keeping what it held; while the ledger is locked they are discarded and
counted, and while commits are refused or PF0 does not answer they do nothing. (That time runs to the timer's end is the
model's choice, log entry 10.) Cites: 11_power_fail_boot_ledger: Restore and vault paging; 11_power_fail_boot_ledger: The
ledger; 11_power_fail_boot_ledger: Ledger and profile registers; 11_power_fail_boot_ledger: Power and boot registers. -/
def Obligations.RestoreAndLedgerUpkeep : Prop :=
  (∀ (half : Fin 2) (page : Nat) (bad : BitVec 4) (s : State),
    (s.pow.ph ≠ .run ∨ vaultResetting s = true → exec (.vaultReadComplete half page bad) s = .next s) ∧
    (s.pow.ph = .run → vaultResetting s = false →
      let secs := pageSecs half.val page s
      let s1 := (pageReaders half.val page s).foldl (fun t c => if ((cmdOf c t).map (·.paged)).getD true then t
        else updCmd c (fun x => { x with paged := true }) { t with pow.pagedN := sat32 t.pow.pagedN 1 }) s
      exec (.vaultReadComplete half page bad) s = .next (settle (destageWaited (secs.map (fun (e, i, _) => (e.pool, e.line, i)))
        (secs.foldl (fun s (e, i, v) => takeSector (bad.getLsbD (v % 4)) e i v s) s1))) ∧
      ∀ (e : IdxEnt) (i v x : Nat) (d : List Byte), secs = [(e, i, v)] → shadowWay e.pool e.line s = some x →
        tget s.pow.nand (e.half * 2 ^ 24 + v) = some d →
        (bad.getLsbD (v % 4) = true → exec (.vaultReadComplete half page bad) s =
          .next (settle (destageWaited [(e.pool, e.line, i)] (settleVault e.pool e.line i (addLostW e.pool e.line x i 3 s1))))) ∧
        (bad.getLsbD (v % 4) = false → cacheOn s = true → exec (.vaultReadComplete half page bad) s =
          .next (settle (destageWaited [(e.pool, e.line, i)] (installRestored e.pool e.line x i d s1)))) ∧
        (bad.getLsbD (v % 4) = false → cacheOn s = false → exec (.vaultReadComplete half page bad) s =
          .next (settle (destageWaited [(e.pool, e.line, i)]
            { s1 with pow.pagedData := tset s.pow.pagedData (e.half * 2 ^ 24 + v) d }))))) ∧
  (∀ s : State,
    (s.pow.restoring = true → restoreLeft s = 0 → exec .restoreEnd s = .next { s with
      pow.restoring := false, pow.restoreMs := min ((s.now - s.pow.readyAt) / 1000) 0xFFFF }) ∧
    (s.pow.restoring = false ∨ restoreLeft s ≠ 0 → exec .restoreEnd s = .next s)) ∧
  (∀ s : State,
    let s1 := timeToOp (s.evr.lastCounters + 900) s
    (commitsRefused s = false → Completes .countersCommit s (fun t => t.led.opSeconds = opSeconds s1 ∧
      t.led.powerCycles = s.evr.powerCycles ∧ t.evr.lastCounters = opSeconds s1 ∧ t.led.seq = s.led.seq + 1)) ∧
    (commitsRefused s = true → exec .countersCommit s = .next s1)) ∧
  (∀ (n : Nat) (bad : List (Nat × Nat)) (s : State),
    let s1 := timeToOp (s.led.lastScrub + s.therm.scrubH * 3600) s
    exec (.ledgerScrub n bad) s = .next (bad.foldl (fun s r => damagedRecord r { s with pow.mramUnc := sat32 s.pow.mramUnc 1 })
      { s1 with led.lastScrub := opSeconds s1, pow.mramCorr := sat32 s.pow.mramCorr n })) ∧
  (∀ (n : Nat) (s : State), Completes (.ledgerScrub n []) s (fun t =>
    t.pow.mramCorr = sat32 s.pow.mramCorr n ∧ t.pow.mramUnc = s.pow.mramUnc ∧ t.led.damaged = s.led.damaged ∧
    t.led.lastScrub = opSeconds (timeToOp (s.led.lastScrub + s.therm.scrubH * 3600) s))) ∧
  (∀ (n typ inst : Nat) (s : State), Completes (.ledgerScrub n [(typ, inst)]) s (fun t => t.led.damaged = true)) ∧
  ∀ (v : Word) (s : State),
    (barUp 0 s = false ∨ (s.led.locked = false ∧ commitsRefused s = true) →
      exec (.bootVolWrite v) s = .next s ∧ exec (.retrainRequest v) s = .next s) ∧
    (barUp 0 s = true → s.led.locked = true → exec (.bootVolWrite v) s = .next (countLockDiscard 0xB0020 s) ∧
      exec (.retrainRequest v) s = .next (countLockDiscard 0xC0008 s)) ∧
    (barUp 0 s = true → s.led.locked = false → commitsRefused s = false →
      let n := (v.extractLsb' 0 12 : BitVec 12).toNat
      exec (.bootVolWrite v) s =
        .next (ledCommit { s with led.bootVol := if v.getLsbD 12 then some n else none, led.bootVolNo := n }) ∧
      exec (.retrainRequest v) s = .next (ledCommit { s with led.retrain := v.getLsbD 0 }) ∧
      ∀ t : State, (ledCommit t).led = { t.led with seq := t.led.seq + 1 } ∧ (ledCommit t).ledNow.led = (ledCommit t).led ∧
        (ledCommit t).ledNow.pools = t.mem.pools ∧ (ledCommit t).ledOld = t.ledNow)

/-- An identity read that gets no block, or an unsound one, counts a failure and raises 0x1C0; a block of a chemistry the module
does not know counts a failure; a sound block of the known identity clears the count, of another one makes a new pack; then
the absent state is judged: three failures make the pack absent, with no state of charge. PACK_PRES_N reads the identity again
at each change. A rest point anchors the state of charge, ends a learn cycle that rests, and learns from earlier points
otherwise. 90 days without a learn make the pack unproven with a proposal; a declined proposal returns after 168 hours.
LEARN_APPROVE starts a cycle, declines, or fails with its check; the discharge ends at half the capacity; a rest of two hours
times out with code 5; a charger full for 24 hours is stuck. Without their cause these events change nothing but what the
model then does by itself. (Timers run to their end: log entry 10. Which message KIND goes out at those last two, no rule
states: log entry 2.) Cites: 12_energy_pack: Presence and identity; 12_energy_pack: State of charge; 12_energy_pack: Capacity;
12_energy_pack: Learn cycles; 12_energy_pack: Charger supervision. -/
def Obligations.PackIdentityAndLearn : Prop :=
  (∀ s : State, (packPowered s = false → ∀ b, exec (.packIdentityRead b) s = .next s) ∧
    (packPowered s = true →
      let s1 := timeToOp s.pack.idAt s
      let s2 : State := { s1 with pack.idAt := opSeconds s1 + 600 }
      let bad : State := { s2 with pack.idFails := s.pack.idFails + 1, pack.idOk := false }
      let good : State := { s2 with pack.idFails := 0, pack.idOk := true }
      exec (.packIdentityRead none) s =
        .next (settle (judgeAbsent (raise 0x1C0 0x34 (0x20 + (Config.freeWord s.free).toNat % 4) (nextFree bad)))) ∧
      ∀ b : List Byte,
        (blockSound b = false → exec (.packIdentityRead (some b)) s = .next (settle (judgeAbsent (raise 0x1C0 0x34
          (if leAt b 0 4 == 0x50455644 && leAt b 4 2 == 1 then 0x23 else 0x20) bad)))) ∧
        (blockSound b = true → chemOk b = false → exec (.packIdentityRead (some b)) s = .next (settle (judgeAbsent bad))) ∧
        (blockSound b = true → chemOk b = true → s.pack.identity = some (b.take 64) →
          exec (.packIdentityRead (some b)) s = .next (settle (judgeAbsent good))) ∧
        (blockSound b = true → chemOk b = true → s.pack.identity ≠ some (b.take 64) →
          exec (.packIdentityRead (some b)) s = .next (settle (judgeAbsent (newPack b good)))))) ∧
  (∀ s : State, 3 ≤ s.pack.idFails → (judgeAbsent s).pack.absent = true ∧ (judgeAbsent s).pack.soc = none) ∧
  (∀ (high : Bool) (b : Option (List Byte)) (s : State),
    (high = s.pack.presHigh → exec (.packPresN high b) s = .next s) ∧
    (high ≠ s.pack.presHigh → packPowered s = false → exec (.packPresN high b) s = .next { s with pack.presHigh := high }) ∧
    (high ≠ s.pack.presHigh → packPowered s = true →
      exec (.packPresN high b) s = .next (settle (readIdentity b { s with pack.presHigh := high })))) ∧
  (∀ s : State, (s.pack.lowAt = none ∨ s.pack.absent = true → exec .restPoint s = .next (settle (setCap s))) ∧
    ∀ t : Nat, s.pack.lowAt = some t → s.pack.absent = false →
      let a := anchor { s with
        now := max s.now (t + 1200000000), pack.lowAt := some (t + 1200000000), pack.atRest := true }
      let u := if s.pack.learn = .resting then endCycle (s.pack.pointA.getD a.1) a.1 a.2 else learnFrom a.1 a.2
      exec .restPoint s = .next (settle (setCap { u with
        pack.points := a.1 :: u.pack.points.filter (fun p => decide (a.1.at_ - p.at_ ≤ 172800) && p != a.1) })) ∧
      (s.pack.learn = .idle → s.pack.points = [] →
        exec .restPoint s = .next (settle (setCap { a.2 with pack.points := [a.1] })))) ∧
  (∀ s : State,
    let waits := s.pack.unproven = true ∧ (s.pack.proposed = true ∨ s.pack.declinedAt.isSome = true)
    (s.pack.identity = none ∨ waits → exec .packUnproven s = .next s) ∧
    (s.pack.identity.isSome = true → ¬ waits →
      exec .packUnproven s = .next (packEvent false (raiseOpen 0x1C4
        { timeToOp (learnClock s + 7776000) s with pack.unproven := true, pack.proposed := true })) ∧
      Completes .packUnproven s (fun t => t.pack.unproven = true ∧ t.pack.proposed = true ∧ t.pack.soc = s.pack.soc))) ∧
  (∀ s : State, (s.pack.declinedAt = none ∨ s.pack.unproven = false → exec .learnRepropose s = .next s) ∧
    ∀ t : Nat, s.pack.declinedAt = some t → s.pack.unproven = true →
      Completes .learnRepropose s (fun u => u.pack.proposed = true ∧ u.pack.declinedAt = none)) ∧
  (∀ s : State, (s.pack.pointA = none ∨ s.pack.learn ≠ .discharging → exec .learnDischargeEnd s = .next s) ∧
    ∀ a : RestPt, s.pack.pointA = some a → s.pack.learn = .discharging →
      let done := ((capQ s).mul (frac 5 10)).le (s.pack.count.sub a.q).abs
      (done = true → Completes .learnDischargeEnd s (fun t => t.pack.learn = .resting ∧ t.pack.draw = false)) ∧
      (done = false → exec .learnDischargeEnd s = .next s)) ∧
  (∀ s : State, (s.pack.learn ≠ .resting → exec .learnTimeout s = .next s) ∧
    (s.pack.learn = .resting →
      let s1 := timeToOp (s.pack.restFrom + 7200) s
      exec .learnTimeout s = .next (settle (setCap (abandonLearn 5 s1))) ∧ (abandonLearn 5 s1).pack.learn = .idle ∧
        (abandonLearn 5 s1).pack.lastResult = 5 ∧ (abandonLearn 5 s1).pack.fails = min (s.pack.fails + 1) 255)) ∧
  (∀ s : State, (s.pack.fullAt = none ∨ s.pack.stuck = true → exec .chargerStuck s = .next s) ∧
    ∀ t : Nat, s.pack.fullAt = some t → s.pack.stuck = false →
      exec .chargerStuck s = .next (raiseOpen 0x1C3 { timeToOp (t + 86400) s with pack.stuck := true }) ∧
      Completes .chargerStuck s (fun u => u.pack.stuck = true)) ∧
  ∀ s : State, (adminNow 0xB8 s = none → exec .learnApprove s = .next (settle s)) ∧
    ∀ (c : Nat) (x : Cmd), adminNow 0xB8 s = some (c, x) →
      (bitN (arg x 40 1) 0 = true → exec .learnApprove s = .next (settle (finishCmd c 0 0 (abandonLearn 6
        { s with pack := { s.pack with proposed := false,
                                       declinedAt := if s.pack.proposed then some (opSeconds s) else s.pack.declinedAt } })))) ∧
      (bitN (arg x 40 1) 0 = false → learnCheck s = none →
        exec .learnApprove s = .next (settle (finishCmd c 0 0 (startLearn s)))) ∧
      (∀ st r, bitN (arg x 40 1) 0 = false → learnCheck s = some (st, r) →
        exec .learnApprove s = .next (settle (finishCmd c st (BitVec.ofNat 32 r) s)))

/-- A housekeeping round with its 64 channels is evaluated in the order of the rule; one with another number of channels is
malformed and stops (the operand is not one a module can read). A region whose hottest reading is at or above a level for the
third round in a row enters it. At the end of its grace a region's earliest pending request is enforced and counted; a region
still in THROTTLE 30 s after its earliest enforced request that has no follower gets a further request for 25 percent less, 25
at least. Without such a request, or below THROTTLE, nothing changes. The analog trip gates every domain but the always-on
one, with HOLD_EN low and no flush: vault, index and shadow stay, but for a flush that it tears (result 1); without power, or
already tripped, it does nothing. (Timers run to their end: log entry 10.) Cites: 13_thermal_ageing_clocks: The housekeeping
round; 13_thermal_ageing_clocks: Thresholds and dwell; 13_thermal_ageing_clocks: The throttle handshake;
13_thermal_ageing_clocks: Critical temperature and the analog trip. -/
def Obligations.ThermalLevelsAndThrottle : Prop :=
  (∀ (r : RoundReadings) (s : State),
    (roundSound r = true → exec (.housekeepingRound r) s = .next (settle (housekeep r s))) ∧
    (roundSound r = false → exec (.housekeepingRound r) s = .fault .malformed)) ∧
  (∀ (region l n : Nat) (t : Int) (s : State), hottest region s = some (n, t) → levelTj l ≤ t → levelOf region s < l →
    2 ≤ tgetD s.therm.up (region * 4 + l) 0 →
    stepLevel region s l = enterLevel region l { s with therm := { s.therm with
      up := tset s.therm.up (region * 4 + l) 3, dn := tset s.therm.dn (region * 4 + l) 0 } }) ∧
  (∀ (region l n : Nat) (t : Int) (s : State), hottest region s = some (n, t) → levelTj l - 12 ≤ t → t < levelTj l →
    stepLevel region s l = { s with therm := { s.therm with
      up := tset s.therm.up (region * 4 + l) 0, dn := tset s.therm.dn (region * 4 + l) 0 } }) ∧
  (∀ (region : Fin 15) (i : Nat) (r : ThrReq) (s : State), pendingReq region.val s = some i → s.therm.requests[i]? = some r →
    let now := max s.now (r.at_ + r.grace * 100000)
    Settles (.throttleGraceEnd region) s (fun u => u.now = now ∧
      u.therm.requests = lset s.therm.requests i { r with enforcedAt := some now } ∧
      u.therm.enforcements = sat32 s.therm.enforcements 1)) ∧
  (∀ (region : Fin 15) (s : State),
    (pendingReq region.val s = none → exec (.throttleGraceEnd region) s = .next s) ∧
    (∀ i, pendingReq region.val s = some i → s.therm.requests[i]? = none → exec (.throttleGraceEnd region) s = .next s) ∧
    let open_ := s.therm.requests.filter (fun r => r.region == region.val && r.enforcedAt.isSome && !r.followed)
    let first := leastBy (fun r : ThrReq => r.enforcedAt.getD 0) open_
    (first = none ∨ levelOf region.val s < 2 → exec (.throttleEscalate region) s = .next s) ∧
    ∀ r, first = some r → 2 ≤ levelOf region.val s →
      exec (.throttleEscalate region) s = .next (request region.val (max 25 (r.target - 25)) false
        { s with now := max s.now (r.enforcedAt.getD 0 + 30000000),
                 therm.requests := s.therm.requests.map (fun q => if q = r then { q with followed := true } else q) })) ∧
  (∀ (region : Fin 15) (r : ThrReq) (s : State), s.therm.requests = [r] → r.region = region.val → r.enforcedAt.isSome = true →
    r.followed = false → 2 ≤ levelOf region.val s →
    Completes (.throttleEscalate region) s (fun t => t.therm.requests.length = 2 ∧
      ∃ q, t.therm.requests[1]? = some q ∧ q.region = region.val ∧ q.target = max 25 (r.target - 25) ∧ q.enforcedAt = none ∧
        q.grace = (prof s).throttleGrace)) ∧
  (∀ s : State, s.pow.ph = .off ∨ s.therm.tripped = true → exec .thermtrip s = .next s) ∧
  ∀ s : State, s.therm.tripped = false → s.pow.ph ≠ .off →
    Completes .thermtrip s (fun t => t.therm.tripped = true ∧ t.pow.ph = .tripped ∧ t.pow.hold = false ∧ t.dev.ready = false ∧
      (s.pow.ph ≠ .flush → t.pow.nand = s.pow.nand ∧ t.pow.index = s.pow.index) ∧
      (s.pow.ph = .flush → t.pow.lastResult = 1) ∧ t.cache.shadow = s.cache.shadow ∧ t.pow.header = s.pow.header ∧
      Out.pin "THERMTRIP_N" false ∈ t.out)

/-- CLOCK_RELOCK_DONE puts the relocked clock state in force, with VDD_CORE at the plan's code in P0 and code 0 below. The
crystal's loss and return are recorded. A PLL that loses lock stops its domain, with a message of its source; relocked, the
domain runs, but the core PLL while it relocks for a clock state changes nothing. MARGIN_PLAN, which waits while the one
control core has a waiting schedule to plan, commits once its code, ceiling and hour, or, while commits are refused, waits to
be tried again. SENSOR_MASK without an authorisation or an owner fails with 0x0401, with a bad one is refused; with a good one
it commits a mask that changes, and answers SUCCESS for one that does not; a sensor number above 31 fails with 0x0D01, masking
the last live sensor of a region with 0x0D02; while commits are refused it fails with 0x0B07. (Timers run to their end: log
entry 10; message KIND of a lost lock: log entry 2.) Cites: 13_thermal_ageing_clocks: Clocks; 13_thermal_ageing_clocks: Ageing
and the margin plan; 13_thermal_ageing_clocks: Sensors and thermal regions. -/
def Obligations.ClocksAndMargin : Prop :=
  (∀ (k : Nat) (s : State), s.therm.relock = some k → exec .clockRelockDone s = .next (settle (setVid
    (if k = 0 then s.therm.code else 0) { s with therm.relock := none, therm.coreLock := true, therm.clk := k }))) ∧
  (∀ (k : Nat) (s : State), s.therm.relock = some k → s.therm.vid ≤ 10 → s.therm.code ≤ 10 →
    Settles .clockRelockDone s (fun u => u.therm.clk = k ∧ u.therm.coreLock = true ∧ u.therm.relock = none ∧
      u.therm.vid = if k = 0 then s.therm.code else 0)) ∧
  (∀ s : State, s.therm.relock = none → exec .clockRelockDone s = .next s) ∧
  (∀ s : State, exec .xtalLoss s = .next { s with therm.xtalOk := false } ∧
    exec .xtalRestored s = .next { s with therm.xtalOk := true }) ∧
  (∀ (p : Pll) (s : State), exec (.pllLockLoss p) s = .next (setLock p false (raiseOpen (pllSource p) s)) ∧
    Completes (.pllLockLoss p) s (fun t => (match p with
      | .core => t.therm.coreLock = false
      | .dram => t.therm.dramLock = false
      | .hostSerdes => t.therm.hostLock = false
      | .group n => ∀ i < 16, t.therm.groupLock.getLsbD i = (s.therm.groupLock.getLsbD i && i != n.val)) ∧
      t.therm.clk = s.therm.clk) ∧
    (p = .core ∧ s.therm.relock.isSome = true → exec (.pllRelocked p) s = .next s) ∧
    (¬ (p = .core ∧ s.therm.relock.isSome = true) → Settles (.pllRelocked p) s (fun t => (match p with
      | .core => t.therm.coreLock = true
      | .dram => t.therm.dramLock = true
      | .hostSerdes => t.therm.hostLock = true
      | .group n => ∀ i < 16, t.therm.groupLock.getLsbD i = (s.therm.groupLock.getLsbD i || i == n.val)) ∧
      t.therm.clk = s.therm.clk))) ∧
  (∀ (m : MarginInputs) (s : State), planFirst s = true → exec (.marginPlan m) s = .next s) ∧
  (∀ (m : MarginInputs) (s : State), planFirst s = false →
    let s1 := if s.therm.planAgain then s else timeToOp ((s.therm.planHours + 720) * 3600) s
    (commitsRefused s1 = true → exec (.marginPlan m) s = .next { s1 with therm.planAgain := true }) ∧
    (∀ (code ceiling : Nat) (met : Bool), commitsRefused s1 = false → planPoint m.twins (noteHour id (noteWords s1)) = (code, ceiling, met) →
      Completes (.marginPlan m) s (fun t => t.led.seq = s.led.seq + 1 ∧ t.therm.planVid = some code ∧
        t.therm.planCeiling = ceiling ∧ t.therm.code = code ∧ t.therm.ceiling = ceiling ∧ t.therm.planAgain = false ∧
        t.therm.planHours = opSeconds s1 / 3600 ∧ t.therm.planValid = true ∧ t.therm.steps = 0))) ∧
  ∀ (d : List Byte) (s : State), (adminNow 0xB5 s = none → exec (.sensorMask d) s = .next s) ∧
    ∀ (c : Nat) (x : Cmd), adminNow 0xB5 s = some (c, x) →
      (commitsRefused s = true → exec (.sensorMask d) s = .next (finishCmd c 0x0005 0x0B07 s)) ∧
      (commitsRefused s = false →
        let n := arg x 40 1
        let on := !bitN (arg x 41 1) 0
        let a := adminIn x d
        (a = [] ∨ s.led.ownerKey = none → exec (.sensorMask d) s = .next (finishCmd c 0x0401 0 s)) ∧
        (a ≠ [] → s.led.ownerKey.isSome = true →
          let checked (t : State) : Host.Outcome State Fault Refusal :=
            .next (if authOk 2 (leBytes 1 n ++ leBytes 1 (b2n !on)) a s then t else authRefused c 0 s)
          (32 ≤ n → exec (.sensorMask d) s = checked (finishCmd c 0x0002 0x0D01 s)) ∧
          (n < 32 → on = true → (sensorsOf (regionOf n)).filter (fun k => !s.therm.mask.getLsbD k) = [n] →
            exec (.sensorMask d) s = checked (finishCmd c 0x0005 0x0D02 s)) ∧
          (n < 32 → on = false ∨ (sensorsOf (regionOf n)).filter (fun k => !s.therm.mask.getLsbD k) ≠ [n] →
            (s.therm.mask.getLsbD n = on → exec (.sensorMask d) s = checked (finishCmd c 0 0 s)) ∧
            (s.therm.mask.getLsbD n ≠ on → exec (.sensorMask d) s = checked (finishCmd c 0 0 (changeMask n on (authAccept a s)))))))

/-- PLAN_STAGE appends the chunk at the staged length, or starts anew at 0, with one commit; another offset, or a chunk that is
not the last and no multiple of 4,096 bytes, empties the staging and fails with 0x0021 or 0x0022. PLAN_COMMIT without the last
chunk fails with 0x0023, of an image that a check refuses with that check; with every check passed it proposes or commits the
image. Both fail with 0x0B07 while commits are refused. PLAN_SWITCH waits for started operations, then loads the image and
goes on with what waited; with no image to switch to it does nothing. PLAN_KEY_INSTALL and PLAN_KEY_REMOVE need the owner's
authorisation where there is an owner; of a known key INSTALL succeeds with RESULT 1, of another with the same tag it fails
with 0x0015, a fifth with 0x0012; REMOVE of an unknown hash fails with 0x0013, of the active image's signer with 0x0014; else
the new list of keys is committed or proposed. Cites: 02_plans_and_profiles: Signing keys; 02_plans_and_profiles: Loading a
plan image; 06_commands: Admin operations. -/
def Obligations.PlanImagesAndKeys : Prop :=
  ∀ s : State,
    (∀ d : List Byte, (adminNow 0x88 s = none → exec (.planStage d) s = .next s) ∧
      ∀ (c : Nat) (x : Cmd), adminNow 0x88 s = some (c, x) →
        let b := adminIn x d
        let last := bitN (arg x 48 1) 0
        let failed (why : BitVec 32) : State := finishCmd c 0x0002 why (ledCommit { s with
          led.staging := [], led.stagingLast := false })
        (commitsRefused s = true → exec (.planStage d) s = .next (finishCmd c 0x0005 0x0B07 s)) ∧
        (commitsRefused s = false → arg x 40 8 = s.led.staging.length ∨ arg x 40 8 = 0 →
          (last = true ∨ b.length % 4096 = 0 → exec (.planStage d) s = .next (finishCmd c 0 0 (ledCommit { s with
            led.staging := if arg x 40 8 = 0 then b else s.led.staging ++ b, led.stagingLast := last }))) ∧
          (last = false → b.length % 4096 ≠ 0 → exec (.planStage d) s = .next (failed 0x0022))) ∧
        (commitsRefused s = false → arg x 40 8 ≠ s.led.staging.length → arg x 40 8 ≠ 0 →
          exec (.planStage d) s = .next (failed 0x0021))) ∧
    ((adminNow 0x89 s = none → exec .planCommit s = .next (settle s)) ∧
      ∀ (c : Nat) (x : Cmd), adminNow 0x89 s = some (c, x) →
        (commitsRefused s = true → exec .planCommit s = .next (settle (finishCmd c 0x0005 0x0B07 s))) ∧
        (commitsRefused s = false → s.led.stagingLast = false →
          exec .planCommit s = .next (settle (finishCmd c 0x0005 0x0023 s))) ∧
        (commitsRefused s = false → s.led.stagingLast = true →
          exec .planCommit s = .next (settle (match stagedBad s with
            | some (st, why) => finishCmd c st (BitVec.ofNat 32 why) s
            | none => changeShared c true (.planImage s.led.staging) s)))) ∧
    ((s.plan.switching = false ∨ s.led.active = none → exec .planSwitch s = .next (settle s)) ∧
      ∀ b : List Byte, s.plan.switching = true → s.led.active = some b →
        (opsStarted s = true → exec .planSwitch s = .next (settle s)) ∧
        (opsStarted s = false → exec .planSwitch s = .next (settle (placeHeld (jointApplied (endWait (startCkpt
          (bindJnl (meetMembers (loadImage b { s with plan.switching := false })))))))))) ∧
    (∀ d : List Byte, (adminNow 0x8A s = none → exec (.planKeyInstall d) s = .next s) ∧
      ∀ (c : Nat) (x : Cmd), adminNow 0x8A s = some (c, x) →
        let k := (adminIn x d).take 64
        let a := (adminIn x d).drop 64
        let install (auth : Option Nat) (s : State) : State :=
          if k ∈ s.led.keys then keyUnchanged c auth s
          else if s.led.keys.any (fun y => keyTag y == keyTag k) then finishCmd c 0x0002 0x0015 s
          else if 4 ≤ s.led.keys.length then finishCmd c 0x0005 0x0012 s
          else if commitsRefused s = true then finishCmd c 0x0005 0x0B07 s
          else changeShared c false (.planKeys (s.led.keys ++ [k])) s auth
        (s.led.ownerKey = none → exec (.planKeyInstall d) s = .next (install none s) ∧
          (k ∈ s.led.keys → exec (.planKeyInstall d) s = .next (finishCmd c 0 1 s)) ∧
          (s.led.paired = false → s.plan.switching = false → s.plan.quiesceSince = none → k ∉ s.led.keys →
            s.led.keys.any (fun y => keyTag y == keyTag k) = false → s.led.keys.length < 4 → commitsRefused s = false →
            Completes (.planKeyInstall d) s (fun t => t.led.keys = s.led.keys ++ [k] ∧ t.led.seq = s.led.seq + 1))) ∧
        (s.led.ownerKey.isSome = true → exec (.planKeyInstall d) s =
          .next (withAuth c 6 ((Config.sha256 k).take 24) a (install (some (authSeqOf a))) s))) ∧
    ∀ d : List Byte, (adminNow 0x8B s = none → exec (.planKeyRemove d) s = .next s) ∧
      ∀ (c : Nat) (x : Cmd), adminNow 0x8B s = some (c, x) →
        let h := slice x.entry 40 8
        let a := adminIn x d
        let remove (auth : Option Nat) (s : State) : State :=
          match s.led.keys.find? (fun y => keyTag y == h) with
          | none => finishCmd c 0x0002 0x0013 s
          | some k =>
            if s.led.active.map imgSigner = some (Config.sha256 k) then finishCmd c 0x0002 0x0014 s
            else if commitsRefused s = true then finishCmd c 0x0005 0x0B07 s
            else changeShared c false (.planKeys (s.led.keys.filter (· != k))) s auth
        (s.led.ownerKey = none → exec (.planKeyRemove d) s = .next (remove none s) ∧
          ∀ k, s.led.paired = false → s.plan.switching = false → s.plan.quiesceSince = none → commitsRefused s = false →
            s.led.keys.find? (fun y => keyTag y == h) = some k → s.led.active.map imgSigner ≠ some (Config.sha256 k) →
            Completes (.planKeyRemove d) s (fun t =>
              t.led.keys = s.led.keys.filter (· != k) ∧ t.led.seq = s.led.seq + 1)) ∧
        (s.led.ownerKey.isSome = true →
          exec (.planKeyRemove d) s = .next (withAuth c 7 h a (remove (some (authSeqOf a))) s))

/-- PROFILE_READ of profiles 0 to 3 sends it, of another number fails. PROFILE_WRITE fails with LOCKED (0x0401) while the ledger
is locked, with 0x0002 for a profile or number that is not sound, with 0x0B07 while commits are refused; else it commits the
profile, at a joint quiesce where it is in force on one of a pair. PROFILE_SELECT holds intake and waits; while a profile is
locked it fails with LOCKED. PROFILE_LOCK with a good authorisation commits the lock with the sequence. PROFILE_QUIESCE_APPLY
puts the selected profile and its gate control in force, ends the hold, and completes the operation; with operations started,
a second after the hold began; with no change waiting it ends this module's part of a bounded joint quiesce. (Time runs to the
timer's end: log entry 10.) Cites: 02_plans_and_profiles: Profiles; 15_security_and_management: Owner enrolment and
authorisations. -/
def Obligations.ProfileOperations : Prop :=
  (∀ (c : Nat) (x : Cmd) (s : State),
    let n := arg x 40 1
    (adminNow 0xA0 s = some (c, x) →
      (n < 4 → exec .profileRead s = .next (finishCmd c 0 0 (adminOut x (padTo 512 (Config.profileBytes (ledProfile n s))) s))) ∧
      (4 ≤ n → exec .profileRead s = .next (finishCmd c 0x0002 0 s))) ∧
    (∀ p : Profile, adminNow 0xA1 s = some (c, x) →
      (s.led.locked = true → exec (.profileWrite p) s = .next (settle (finishCmd c 0x0401 0 s))) ∧
      (s.led.locked = false → 4 ≤ n ∨ profileOk p = false →
        exec (.profileWrite p) s = .next (settle (finishCmd c 0x0002 0 s))) ∧
      (s.led.locked = false → n < 4 → profileOk p = true → commitsRefused s = true →
        exec (.profileWrite p) s = .next (settle (finishCmd c 0x0005 0x0B07 s))) ∧
      (s.led.locked = false → n < 4 → profileOk p = true → commitsRefused s = false →
        exec (.profileWrite p) s = .next (settle (changeShared c
          (s.dev.profile.toNat == n || (pairUp s && s.pair.peerProfile == n)) (.profile (Fin.ofNat 4 n) p) s)) ∧
        (s.led.paired = false → s.plan.switching = false → s.plan.quiesceSince = none → s.dev.profile.toNat ≠ n →
          exec (.profileWrite p) s = .next (settle (finishCmd c 0 0 (ledCommitRec (0x20 * 65536 + n)
            { s with led.profiles := tset s.led.profiles n p })))))) ∧
    (adminNow 0xA2 s = some (c, x) →
      (s.led.profLock.isSome = true → exec .profileSelect s = .next (settle (finishCmd c 0x0401 0 s))) ∧
      (s.led.profLock = none → 4 ≤ n → exec .profileSelect s = .next (settle (finishCmd c 0x0002 0 s))) ∧
      (s.led.profLock = none → n < 4 →
        exec .profileSelect s = .next (settle (changeShared c true (.profileInForce (Fin.ofNat 4 n)) s)) ∧
        (s.led.paired = false → exec .profileSelect s = .next (settle (updCmd c (fun y => { y with ph := .waiting })
          { s with plan := { s.plan with quiesceSince := some ((s.pair.jq.map (·.since)).getD s.now), nextProfile := some n,
                                         waiter := some c } }))))) ∧
    (∀ d : List Byte, adminNow 0xA3 s = some (c, x) →
      let a := adminIn x d
      let lock : Option Nat := if bitN (arg x 41 1) 0 then none else some n
      (4 ≤ n → exec (.profileLock d) s = .next (finishCmd c 0x0002 0 s)) ∧
      (n < 4 → exec (.profileLock d) s = .next (withAuth c 3 (slice x.entry 40 2) a (fun s =>
        changeShared c false (.profileLock (lock.map (Fin.ofNat 4))) s (some (authSeqOf a))) s)) ∧
      (n < 4 → commitsRefused s = false → a ≠ [] → s.led.ownerKey.isSome = true → s.led.paired = false →
        s.plan.switching = false → s.plan.quiesceSince = none →
        exec (.profileLock d) s = .next (if authOk 3 (slice x.entry 40 2) a s then finishCmd c 0 0 (ledCommitRec (0x21 * 65536) { s with
          led.authSeq := authSeqOf a, led.profLock := lock, sec.accepted := sat32 s.sec.accepted 1 }) else authRefused c 0 s)))) ∧
  (∀ (p : Profile) (d : List Byte) (s : State),
    (adminNow 0xA0 s = none → exec .profileRead s = .next s) ∧
    (adminNow 0xA1 s = none → exec (.profileWrite p) s = .next (settle s)) ∧
    (adminNow 0xA2 s = none → exec .profileSelect s = .next (settle s)) ∧
    (adminNow 0xA3 s = none → exec (.profileLock d) s = .next s)) ∧
  ∀ s : State,
    (∀ (t m : Nat), s.plan.quiesceSince = some t → s.plan.nextProfile = some m →
      let s1 : State := { s with plan.quiesceSince := none, plan.nextProfile := none }
      (opsStarted s = false →
        exec .profileQuiesceApply s = .next (settle (placeHeld (jointApplied (endWait (setCap (putProfile m s1))))))) ∧
      (opsStarted s = true → exec .profileQuiesceApply s = .next (settle (placeHeld (jointApplied (endWait (setCap (putProfile m
        { s1 with now := max s.now (t + 1000000) }))))))) ) ∧
    (s.plan.quiesceSince = none ∨ s.plan.nextProfile = none →
      (∀ q : JointQ, s.pair.jq = some q → q.bounded = true → q.ownDone = false →
        exec .profileQuiesceApply s = .next (settle (quiesceOwn { s with now := max s.now (q.since + 1000000) }))) ∧
      ((∀ q : JointQ, s.pair.jq = some q → q.bounded = false ∨ q.ownDone = true) →
        exec .profileQuiesceApply s = .next (settle s)))

/-- A read of BAR0, where the port's functions answer, gives the 64 bits of the register at an 8-byte aligned offset, or the half
of them at a 4-byte aligned one; no other width or alignment is read. A write of another width or alignment is discarded
without side effect, but for naturally aligned 32-bit writes at the MSI-X table and the pending-bit array (offsets 0x18000 to
0x1FFFF). A naturally aligned 64-bit write reaches its register, where the port's functions and the register's block answer;
where they do not, it is discarded. Cites: R2. -/
def Obligations.BarAccessRule : Prop :=
  (∀ (p off : Nat) (s : State), barUp p s = true →
    (off % 8 = 0 → readBar p off 8 s = some (BitVec.ofNat 64 (readReg p off s)) ∧
      readBar p off 4 s = some (BitVec.ofNat 64 (readReg p off s % 2 ^ 32)) ∧
      readBar p (off + 4) 4 s = some (BitVec.ofNat 64 (readReg p off s / 2 ^ 32 % 2 ^ 32))) ∧
    ∀ width, ¬ (width = 8 ∧ off % 8 = 0) → ¬ (width = 4 ∧ off % 4 = 0) → readBar p off width s = none) ∧
  (∀ (p : Fin 2) (off : BitVec 20) (width : Nat) (v : Word) (s : State), ¬ (width = 8 ∧ off.toNat % 8 = 0) →
    ¬ (width = 4 ∧ off.toNat % 4 = 0 ∧ 0x18000 ≤ off.toNat ∧ off.toNat < 0x20000) →
    exec (.registerWrite p off width v) s = .next (settle s)) ∧
  (∀ (p : Fin 2) (off : BitVec 20) (v : Word) (s : State), barUp p.val s = true → answers off.toNat s = true →
    off.toNat % 8 = 0 → ¬ (0x18000 ≤ off.toNat ∧ off.toNat < 0x20000) →
    exec (.registerWrite p off 8 v) s = .next (settle (writeReg p.val off.toNat v s))) ∧
  (∀ (p : Fin 2) (off : BitVec 20) (width : Nat) (v : Word) (s : State), barUp p.val s = false ∨ answers off.toNat s = false →
    exec (.registerWrite p off width v) s = .next (settle s)) ∧
  ∀ (p : Fin 2) (off : BitVec 20) (width : Nat) (v : Word) (s : State), barUp p.val s = true → answers off.toNat s = true →
    width = 4 ∨ width = 8 → off.toNat % width = 0 → 0x18000 ≤ off.toNat → off.toNat < 0x20000 →
    exec (.registerWrite p off width v) s =
      .next (settle (msixWrite p.val (off.toNat - 0x18000) width (v.toNat % 2 ^ (8 * width)) s))

/-- Of the registers that a host writes: an offset of the device block other than GATE_CTL's, and one above the last block,
changes nothing; the selectors RING_SEL, SLOT_SEL, FC_SEL and CTX_SEL take their field and read it back; GATE_CTL takes its
fields, an idle time of 0 stored as 1; a configuration of the fault collector, while the ledger is locked, only counts one
discarded write with its offset. Before READY, blocks other than the device, the admin registers of the rings, the ledger and
the power block read 0 and discard writes. Cites: 00_scope: Conventions; 01_architecture: Device identity and status
registers; 11_power_fail_boot_ledger: Boot; 11_power_fail_boot_ledger: Ledger and profile registers; 14_faults_and_event_log:
Collector registers. -/
def Obligations.RegistersKeepTheirAccess : Prop :=
  ∀ (p : Fin 2) (v : Word) (s : State), barUp p.val s = true →
    (∀ off : BitVec 20, off.toNat / 0x10000 = 0x0 → off.toNat ≠ 0x30 → off.toNat % 8 = 0 →
      exec (.registerWrite p off 8 v) s = .next (settle s)) ∧
    (∀ off : BitVec 20, 0xD ≤ off.toNat / 0x10000 → off.toNat % 8 = 0 →
      exec (.registerWrite p off 8 v) s = .next (settle s) ∧ readBar p.val off.toNat 8 s = some 0) ∧
    exec (.registerWrite p 0x30 8 v) s = .next (settle (keepLanes { s with dev := { s.dev with
      laneGateEn := v.getLsbD 0, memberGateEn := v.getLsbD 1, idleUs := max 1 (v.extractLsb' 16 16).toNat,
      minLanes := (v.extractLsb' 32 3).toNat } })) ∧
    (s.dev.ready = true →
      exec (.registerWrite p 0x10028 8 v) s =
        .next (settle (setPort p.val { getPort p.val s with ringSel := (v.extractLsb' 0 18).toNat } s)) ∧
      exec (.registerWrite p 0x30018 8 v) s = .next (settle { s with mem.slotSel := (v.extractLsb' 0 7).toNat }) ∧
      exec (.registerWrite p 0x400C0 8 v) s = .next (settle { s with pipe.ctxSel := (v.extractLsb' 0 10).toNat }) ∧
      readReg p.val 0x400C0 { s with pipe.ctxSel := (v.extractLsb' 0 10).toNat } = (v.extractLsb' 0 10).toNat ∧
      exec (.registerWrite p 0x80148 8 v) s = .next (settle { s with fc.sel := (v.extractLsb' 0 10).toNat }) ∧
      (s.led.locked = true → exec (.registerWrite p 0x80150 8 v) s = .next (settle (countLockDiscard 0x80150 s)))) ∧
    (s.dev.ready = false → ∀ off : BitVec 20, off.toNat % 8 = 0 → off.toNat / 0x10000 ∉ [0x0, 0x1, 0xB, 0xC] →
      exec (.registerWrite p off 8 v) s = .next (settle s) ∧ readBar p.val off.toNat 8 s = some 0)

/-- Run as the admin operation: IDENTIFY and LEDGER_READ send their data, LEDGER_READ of no record fails with 0x0B01; LOG_READ
sends as many records as the buffer holds with their number as RESULT. LEDGER_SET with no failing check commits its record
once, or changes it jointly for the pair configuration; with a failing one it ends with its status and reason. LEDGER_LOCK
with an owner locks, without one fails with INVALID_STATE. LEDGER_UNLOCK and LOG_CLEAR fail with LOCKED (0x0401) without an
authorisation or an owner; with a good one LEDGER_UNLOCK unlocks, and releases the owner too with OP 8, and LOG_CLEAR commits
and clears, or fails with 0x0E01 while the log memory has failed. While commits are refused these three fail with 0x0B07.
LOG_FLUSH flushes the staging, HOST_TIME stores the time and says whether it went backwards. Cites: 06_commands: Admin
operations; 11_power_fail_boot_ledger: The ledger; 14_faults_and_event_log: Staging and the log; 14_faults_and_event_log:
Operating time; 15_security_and_management: Owner enrolment and authorisations. -/
def Obligations.AdminRecordOperations : Prop :=
  ∀ (c : Nat) (x : Cmd) (s : State),
    (adminNow 0x80 s = some (c, x) →
      exec .identify s = .next (finishCmd c 0 0 (adminOut x (padTo 4096 (identity x.port s)) s))) ∧
    (adminNow 0x98 s = some (c, x) →
      let d := ((recordData (arg x 40 2) (arg x 42 2) s).drop (arg x 48 8)).take (bufLen x)
      (recordExists (arg x 40 2) (arg x 42 2) = true →
        exec .ledgerRead s = .next (finishCmd c 0 (BitVec.ofNat 32 d.length) (adminOut x d s))) ∧
      (recordExists (arg x 40 2) (arg x 42 2) = false → exec .ledgerRead s = .next (finishCmd c 0x0002 0x0B01 s))) ∧
    (∀ r : SetRecord, adminNow 0x99 s = some (c, x) →
      (∀ st why, setBad (arg x 40 2) (arg x 42 2) r s = some (st, why) →
        exec (.ledgerSet r) s = .next (finishCmd c st (BitVec.ofNat 32 why) s)) ∧
      (setBad (arg x 40 2) (arg x 42 2) r s = none →
        (∀ n paired peer, r = .identity n paired peer → exec (.ledgerSet r) s =
          .next (finishCmd c 0 0 (ledCommit (setIdentity n.toNat paired peer.toNat s)))) ∧
        (∀ ctx vec, r = .portSplit ctx vec → exec (.ledgerSet r) s = .next (finishCmd c 0 0
          (ledCommit { s with led.splitCtx := ctx, led.splitVec := vec }))) ∧
        (∀ v t, r = .boot v t → exec (.ledgerSet r) s = .next (finishCmd c 0 0 (ledCommit { s with
          led.bootVol := v.map Fin.val, led.bootVolNo := (v.map Fin.val).getD 0, led.retrain := t }))) ∧
        (∀ ways lock vc, r = .cacheClasses ways lock vc → exec (.ledgerSet r) s = .next (finishCmd c 0 0
          (ledCommit { s with
            led.ways := maskTable ways, led.lock := lock,
            led.volClass := (vc.foldl (fun t e => tset t (e.1 % 4096) e.2.val) []).filter (fun e => e.2 != 0) }))) ∧
        (∀ b, r = .pairConfig b → exec (.ledgerSet r) s = .next (changeShared c false (.pairConfig b) s)))) ∧
    (adminNow 0x9A s = some (c, x) →
      (commitsRefused s = true → exec .ledgerLock s = .next (finishCmd c 0x0005 0x0B07 s)) ∧
      (commitsRefused s = false → s.led.ownerKey.isSome = true → exec .ledgerLock s = .next (finishCmd c 0 0
        (ledCommit { s with led.locked := true }))) ∧
      (commitsRefused s = false → s.led.ownerKey = none → exec .ledgerLock s = .next (finishCmd c 0x0005 0 s))) ∧
    (∀ d : List Byte, adminNow 0x9B s = some (c, x) →
      let a := adminIn x d
      (commitsRefused s = true → exec (.ledgerUnlock d) s = .next (finishCmd c 0x0005 0x0B07 s)) ∧
      (commitsRefused s = false → a = [] ∨ s.led.ownerKey = none →
        exec (.ledgerUnlock d) s = .next (finishCmd c 0x0401 0 s)) ∧
      (commitsRefused s = false → a ≠ [] → s.led.ownerKey.isSome = true →
        (leAt a 6 2 ≠ 8 → exec (.ledgerUnlock d) s = .next (if authOk 5 [] a s then finishCmd c 0 0 (ledCommit { s with
          led.locked := false, led.authSeq := authSeqOf a, sec.accepted := sat32 s.sec.accepted 1 }) else authRefused c 0 s)) ∧
        (leAt a 6 2 = 8 → exec (.ledgerUnlock d) s = .next (if authOk 8 [] a s then finishCmd c 0 0 (ledCommit { s with
          led.locked := false, led.ownerKey := none, led.authSeq := authSeqOf a, sec.accepted := sat32 s.sec.accepted 1 }) else authRefused c 0 s)))) ∧
    (adminNow 0xA8 s = some (c, x) →
      let got := (recsFrom (arg x 40 4) s).take (min (bufLen x) 1048576 / 64)
      exec .logRead s = .next (finishCmd c 0 (BitVec.ofNat 32 got.length)
        (adminOut x (got.flatMap (fun r => recBytes r.1 r.2)) s))) ∧
    (∀ d : List Byte, adminNow 0xA9 s = some (c, x) →
      let a := adminIn x d
      (commitsRefused s = true → exec (.logClear d) s = .next (finishCmd c 0x0005 0x0B07 s)) ∧
      (commitsRefused s = false → a = [] ∨ s.led.ownerKey = none →
        exec (.logClear d) s = .next (finishCmd c 0x0401 0 s)) ∧
      (commitsRefused s = false → a ≠ [] → s.led.ownerKey.isSome = true → exec (.logClear d) s = .next (
        if !authOk 1 [] a s then authRefused c 0 s
        else if s.evr.memFailed then finishCmd c 0x0005 0x0E01 s
        else finishCmd c 0 0 (clearLog (authSeqOf a) (ledCommit (authAccept a s))))) ∧
      (∀ t : State, t.evr.memFailed = false → nvOn t = true → (clearLog (authSeqOf a) t).evr.staging = [] ∧
        (clearLog (authSeqOf a) t).evr.log.length = 1)) ∧
    (adminNow 0xAA s = some (c, x) → exec .logFlush s = .next (finishCmd c 0 0 (flushRecs s))) ∧
    (adminNow 0xAB s = some (c, x) →
      let t := hostTime (arg x 40 8) s
      exec .hostTime s = .next (finishCmd c 0 0 t) ∧ t.evr.hostTime = some (arg x 40 8, opSeconds s) ∧
        t.evr.backwards = decide (arg x 40 8 < (s.evr.hostTime.map (·.1)).getD 0))

/-- Run as the admin operation: ATTEST queues its request and waits, or fails with 0x0002 for an unknown algorithm. When a
signature is ready in a powered module, the report of the body and its signature goes to the command's buffer, which completes
with its length, or is kept for the sideband, and the next request is begun; with no body nothing happens. CERT_READ sends the
certificates. OWNER_ENROL fails with 0x0B07 while commits are refused, with 0x0F06 where there is an owner, with 0x0F07 for an
unsound request; else it commits the key. FW_STAGE writes the chunk into the slot that does not run, or drops what is staged
and fails with its check; FW_COMMIT with no failing check points to that slot. An update to a lower version takes the sequence
of its authorisation. Cites: 15_security_and_management: Attestation; 15_security_and_management: Owner enrolment and
authorisations; 15_security_and_management: Firmware update; 06_commands: Admin operations. -/
def Obligations.SecurityOperations : Prop :=
  ∀ (c : Nat) (x : Cmd) (s : State),
    (∀ n : List Byte, adminNow 0xB0 s = some (c, x) →
      (arg x 40 1 ≤ 1 → exec (.attest n) s = .next (askSigning (some c) (arg x 40 1) ((adminIn x n).take 32)
        (updCmd c (fun y => { y with ph := .waiting }) s))) ∧
      (1 < arg x 40 1 → exec (.attest n) s = .next (finishCmd c 0x0002 0 s))) ∧
    (
      let powered := s.pow.ph ≠ .off ∧ s.pow.ph ≠ .tripped ∧ s.pow.ph ≠ .standby
      (¬ powered → exec .attestSigned s = .next s) ∧
      (powered → s.sec.body = none ∨ s.sec.signing = [] → exec .attestSigned s = .next (settle s)) ∧
      ∀ (b n : List Byte) (alg : Nat) (rest : List (Option Nat × Nat × List Byte)), powered → s.sec.body = some b →
        let t : State := { s with sec.signing := rest, sec.body := none }
        (s.sec.signing = (none, alg, n) :: rest →
          exec .attestSigned s = .next (settle (startSigning { t with sec.report := some (report alg b) }))) ∧
        (s.sec.signing = (some c, alg, n) :: rest →
          (∀ y, cmdOf c s = some y → exec .attestSigned s = .next (settle (startSigning
            (finishCmd c 0 (BitVec.ofNat 32 (report alg b).length) (adminOut y (report alg b) t))))) ∧
          (cmdOf c s = none → exec .attestSigned s = .next (settle (startSigning t))))) ∧
    (adminNow 0xB1 s = some (c, x) → exec .certRead s = .next (finishCmd c 0 0 (adminOut x certBytes s))) ∧
    (∀ d : List Byte, adminNow 0xB2 s = some (c, x) →
      (commitsRefused s = true → exec (.ownerEnrol d) s = .next (finishCmd c 0x0005 0x0B07 s)) ∧
      (commitsRefused s = false → s.led.ownerKey.isSome = true →
        exec (.ownerEnrol d) s = .next (finishCmd c 0x0005 0x0F06 s)) ∧
      (commitsRefused s = false → s.led.ownerKey = none → enrolOk (adminIn x d) = false →
        exec (.ownerEnrol d) s = .next (finishCmd c 0x0002 0x0F07 s)) ∧
      (commitsRefused s = false → s.led.ownerKey = none → enrolOk (adminIn x d) = true →
        exec (.ownerEnrol d) s = .next (finishCmd c 0 0
          (ledCommit { s with led.ownerKey := some (slice (adminIn x d) 8 64) })))) ∧
    (∀ d : List Byte, adminNow 0xB3 s = some (c, x) →
      let b := adminIn x d
      let off := arg x 40 8
      let last := bitN (arg x 48 1) 0
      (chunkBad off b.length s.sec.staged last = none → exec (.fwStage d) s = .next (finishCmd c 0 0
        (writeSlotAt (otherSlot s) off b { s with sec.staged := off + b.length, sec.stagedLast := last }))) ∧
      (∀ why, chunkBad off b.length s.sec.staged last = some why → exec (.fwStage d) s =
        .next (finishCmd c 0x0002 (BitVec.ofNat 32 why) { s with sec.staged := 0, sec.stagedLast := false }))) ∧
    (∀ d : List Byte, adminNow 0xB4 s = some (c, x) →
      let n := otherSlot s
      exec (.fwCommit d) s = .next (match fwBad (adminIn x d) s with
        | some (0x0402, why) => authRefused c why s
        | some (st, why) => finishCmd c st (BitVec.ofNat 32 why) s
        | none =>
          if runningVersion s ≤ fwVersionOf (slotImage n s) then
            finishCmd c 0 (BitVec.ofNat 32 n) { s with sec.pointer := n, pow.boot.badPointer := false }
          else finishCmd c 0 (BitVec.ofNat 32 n) 
            (let u := ledCommit { s with led.authSeq := authSeqOf (adminIn x d), sec.accepted := sat32 s.sec.accepted 1 }
             { u with sec.pointer := n, pow.boot.badPointer := false })))

/-- A write of CC stores CC and the admin queue registers. CC.EN makes the admin queues of the given bases and sizes, ready at
once or at READY; more than 64 entries are fatal; on an enabled controller, or an absent port, it makes none. CC.EN 0 is a
reset, which drops queues and features and keeps the fatal status. A doorbell moves the tail of a queue, whose new entries are
read, or the head, where completions that waited go out; a value outside it, or no queue, does nothing. With an entry at the
head of a ready admin queue, the head moves; an unsupported opcode fails with 0x001; Identify, Get Log Page and Get Features
return their data, Set Features stores, Create and Delete of the one I/O pair make and drop it, an event request waits, Abort
answers, each with the failures of its checks. With none, nothing happens. (What NVM Express fixes beyond the spec is log
entry 43.) Cites: 06_commands: NVMe boot function. -/
def Obligations.BootControllerAndAdmin : Prop :=
  (∀ (p : Fin 2) (s : State),
    let u := (getPort p.val s).pf1
    exec (.nvmeControllerReset p) s = .next (updPf1 p.val (fun u =>
      { cfs := u.cfs, msix := u.msix, warned := u.warned, cc := 0, aqa := u.aqa, asqReg := u.asqReg, acqReg := u.acqReg,
        sectorsRead := u.sectorsRead, sectorsWritten := u.sectorsWritten }) (orphanNvme p.val s)) ∧
    (∀ (cc aqa : Dword) (asq acq : Word),
      let kept (t : State) : State := updPf1 p.val (fun u => { u with cc := cc, asqReg := asq, acqReg := acq, aqa := aqa }) t
      let nsq := (aqa.extractLsb' 0 12).toNat + 1
      let ncq := (aqa.extractLsb' 16 12).toNat + 1
      (cc.getLsbD 0 = false → exec (.pf1ControllerEnable p cc asq acq aqa) s = .next (kept (nvmeReset p.val s))) ∧
      (cc.getLsbD 0 = true → u.en = true ∨ portThere p.val s = false →
        exec (.pf1ControllerEnable p cc asq acq aqa) s = .next (kept s)) ∧
      (cc.getLsbD 0 = true → u.en = false → portThere p.val s = true →
        (64 < nsq ∨ 64 < ncq → exec (.pf1ControllerEnable p cc asq acq aqa) s =
          .next (kept (updPf1 p.val (fun u => { u with en := true, cfs := true }) s))) ∧
        (nsq ≤ 64 → ncq ≤ 64 → exec (.pf1ControllerEnable p cc asq acq aqa) s = .next (kept (updPf1 p.val (fun u =>
          { u with en := true, rdy := s.dev.ready, enPending := !s.dev.ready,
                   asq := some { base := asq.toNat / 4096 * 4096, size := nsq },
                   acq := some { base := acq.toNat / 4096 * 4096, size := ncq, intEn := true, vector := 0 } }) s))))) ∧
    (∀ (io cpl : Bool) (v : Dword), u.rdy = false → exec (.pf1QueueDoorbell p io cpl v) s = .next s) ∧
    (∀ (io : Bool) (v : Dword), u.rdy = true →
      let n := v.toNat % 65536
      (nvmeSq p.val (!io) s = none → exec (.pf1QueueDoorbell p io false v) s = .next s) ∧
      (nvmeCq p.val (!io) s = none → exec (.pf1QueueDoorbell p io true v) s = .next s) ∧
      (∀ q, nvmeSq p.val (!io) s = some q →
        (q.size ≤ n → exec (.pf1QueueDoorbell p io false v) s = .next s) ∧
        (n < q.size → exec (.pf1QueueDoorbell p io false v) s = .next (readSqes p.val q n (updPf1 p.val (fun u =>
          if io then { u with ioSq := some { q with tail := n } } else { u with asq := some { q with tail := n } }) s)))) ∧
      (∀ q, nvmeCq p.val (!io) s = some q →
        (q.size ≤ n → exec (.pf1QueueDoorbell p io true v) s = .next s) ∧
        (n < q.size → exec (.pf1QueueDoorbell p io true v) s = .next (nvmeStashed 512 p.val (updPf1 p.val (fun u =>
          if io then { u with ioCq := some { q with head := n } } else { u with acq := some { q with head := n } }) s)))))) ∧
  ∀ (p : Fin 2) (e : NvmeSqe) (s : State),
    let t := nvmeTake p.val true s
    let u := (getPort p.val s).pf1
    let lo := fld e.cdw10.toNat 7 0
    let done (st dw0 : Nat) (s : State) : Host.Outcome State Fault Refusal := .next (postNvme p.val true e.cid st dw0 s)
    let all (o : Host.Outcome State Fault Refusal) : Prop :=
      exec (.nvmeIdentify p e) s = o ∧ exec (.nvmeGetLogPage p e) s = o ∧ exec (.nvmeGetFeatures p e) s = o ∧
      exec (.nvmeSetFeatures p e) s = o ∧ exec (.nvmeAsyncEventRequest p e) s = o ∧ exec (.nvmeAbort p e) s = o ∧
      ∀ sub : Bool, exec (.nvmeCreateIoQueue p sub e) s = o ∧ exec (.nvmeDeleteIoQueue p sub e) s = o
    (nvmeReady p.val true s = false → all (.next s)) ∧
    (nvmeReady p.val true s = true → e.unsupported = true → all (done 0x001 0 t)) ∧
    (nvmeReady p.val true s = true → e.unsupported = false →
      (lo = 0 → e.nsid.toNat ≠ 1 → exec (.nvmeIdentify p e) s = done 0x00B 0 t) ∧
      (lo = 0 → e.nsid.toNat = 1 → exec (.nvmeIdentify p e) s =
        .next (nvmeOut p.val e (if (bootVolume t).isSome then identNamespace t else List.replicate 4096 0) t)) ∧
      (lo = 1 → exec (.nvmeIdentify p e) s = .next (nvmeOut p.val e identController t)) ∧
      (lo = 2 → 0xFFFFFFFE ≤ e.nsid.toNat → exec (.nvmeIdentify p e) s = done 0x00B 0 t) ∧
      (lo = 2 → e.nsid.toNat < 0xFFFFFFFE → exec (.nvmeIdentify p e) s = .next (nvmeOut p.val e
        (padTo 4096 (if (bootVolume t).isSome && e.nsid.toNat == 0 then leBytes 4 1 else [])) t)) ∧
      (2 < lo → exec (.nvmeIdentify p e) s = done 0x002 0 t) ∧
      (let page (d : List Byte) : State := nvmeOut p.val e ((d.drop (e.cdw12.toNat + e.cdw13.toNat * 2 ^ 32)).take
          (4 * (fld e.cdw10.toNat 31 16 + fld e.cdw11.toNat 15 0 * 65536 + 1))) t
       (lo = 1 → exec (.nvmeGetLogPage p e) s = .next (page (List.replicate 64 0))) ∧
       (lo = 2 → exec (.nvmeGetLogPage p e) s = .next (nvmeEvent p.val (updPf1 p.val (fun u =>
          if e.cdw10.getLsbD 15 then u else { u with aerMasked := false }) (page (smartLog p.val t))))) ∧
       (lo ≠ 1 → lo ≠ 2 → exec (.nvmeGetLogPage p e) s = done 0x109 0 t)) ∧
      (lo = 0x07 → exec (.nvmeGetFeatures p e) s = done 0 0 t) ∧
      (lo = 0x08 → exec (.nvmeGetFeatures p e) s = done 0 u.coalescing.toNat t) ∧
      (lo = 0x0B → exec (.nvmeGetFeatures p e) s = done 0 u.aerConfig.toNat t) ∧
      (lo ≠ 0x07 → lo ≠ 0x08 → lo ≠ 0x0B → exec (.nvmeGetFeatures p e) s = done 0x002 0 t ∧
        exec (.nvmeSetFeatures p e) s = done 0x002 0 t) ∧
      (lo = 0x07 ∨ lo = 0x08 ∨ lo = 0x0B → e.cdw10.getLsbD 31 = true → exec (.nvmeSetFeatures p e) s = done 0x10D 0 t) ∧
      (e.cdw10.getLsbD 31 = false →
        (lo = 0x07 → exec (.nvmeSetFeatures p e) s = done 0 0 t) ∧
        (lo = 0x08 → exec (.nvmeSetFeatures p e) s =
          done 0 0 (updPf1 p.val (fun u => { u with coalescing := e.cdw11 &&& 0xFFFF#32 }) t)) ∧
        (lo = 0x0B → exec (.nvmeSetFeatures p e) s =
          done 0 0 (updPf1 p.val (fun u => { u with aerConfig := e.cdw11 }) t))) ∧
      (u.aers.length < 4 → exec (.nvmeAsyncEventRequest p e) s =
        .next (nvmeEvent p.val (updPf1 p.val (fun u => { u with aers := u.aers ++ [e.cid] }) t))) ∧
      (4 ≤ u.aers.length → exec (.nvmeAsyncEventRequest p e) s = done 0x105 0 t) ∧
      (let cid : BitVec 16 := BitVec.ofNat 16 (fld e.cdw10.toNat 31 16)
       (fld e.cdw10.toNat 15 0 = 0 → cid ∈ u.aers → exec (.nvmeAbort p e) s = done 0 0
          (postNvme p.val true cid 0x007 0 (updPf1 p.val (fun u => { u with aers := u.aers.erase cid }) t))) ∧
       (fld e.cdw10.toNat 15 0 ≠ 0 ∨ cid ∉ u.aers → exec (.nvmeAbort p e) s = done 0 1 t)) ∧
      (let id := fld e.cdw10.toNat 15 0
       let size := fld e.cdw10.toNat 31 16 + 1
       let hi := fld e.cdw11.toNat 31 16
       (∀ sub : Bool, exec (.nvmeCreateIoQueue p sub e) s =
          if id ≠ 1 ∨ (if sub then u.ioSq.isSome else u.ioCq.isSome) = true then done 0x101 0 t
          else if size < 2 ∨ 256 < size then done 0x102 0 t
          else if e.cdw11.getLsbD 0 = false then done 0x002 0 t
          else if e.prp1.toNat % 4096 ≠ 0 then done 0x013 0 t
          else if sub = true ∧ hi ≠ 1 then done 0x101 0 t
          else if sub = true ∧ u.ioCq = none then done 0x100 0 t
          else if sub = false ∧ 1 < hi then done 0x108 0 t
          else if sub = true then
            done 0 0 (updPf1 p.val (fun u => { u with ioSq := some { base := e.prp1.toNat, size := size } }) t)
          else done 0 0 (updPf1 p.val (fun u => { u with
            ioCq := some { base := e.prp1.toNat, size := size, intEn := e.cdw11.getLsbD 1, vector := hi } }) t)) ∧
       ∀ sub : Bool, exec (.nvmeDeleteIoQueue p sub e) s =
          if id ≠ 1 ∨ (if sub then u.ioSq.isNone else u.ioCq.isNone) = true then done 0x101 0 t
          else if sub = true then done 0 0 (updPf1 p.val (fun u => { u with ioSq := none, dsmFail := [] }) (orphanNvme p.val t))
          else if u.ioSq.isSome = true then done 0x10C 0 t
          else done 0 0 (updPf1 p.val (fun u => { u with ioCq := none, stash := u.stash.filter (·.1) }) t)))

/-- With an entry at the head of the ready I/O queue, intake, throttling and turns letting it begin, and the boot volume not held,
the entry takes its command token, a Read or Write the bytes it names too: an unsupported opcode fails with 0x001. With a boot
volume: Read, Write (with FUA as WRITE_FUA), Flush (of namespace 1 or all), Write Zeroes (as DEALLOCATE) and Dataset
Management with deallocate begin the module's command on it, one for each range of some length; another namespace, or no boot
volume, fails with 0x00B, a range beyond the end with 0x080, more than 64 sectors with 0x002, a bad data pointer with 0x013;
Dataset Management without deallocate or ranges succeeds at once. Where the command may not begin, nothing happens. (What NVM
Express fixes beyond the spec is log entry 43.) Cites: 06_commands: NVMe boot function. -/
def Obligations.BootIoCommands : Prop :=
  ∀ (p : Fin 2) (e : NvmeSqe) (s : State),
    let starts := nvmeReady p.val false s = true ∧ fetchStopped s = false ∧ domainsRun s = true ∧ tokensOk s = true ∧
      (∀ v, bootVolume s = some v → ownOf v s ≠ .hold) ∧ nvmeTurnOver p.val s = false
    let t := debit 0
      (nvmeTake p.val false (updPort p.val (fun q => { q with pf1Turn := true }) { s with pipe.lastPort := p.val }))
    let src := CmdSrc.pf1 p.val false e.cid
    let n := nvmeCount e
    let w := debitBytes (n * 4096) t
    let failsAt (u : State) (st : Nat) : Host.Outcome State Fault Refusal := .next (settle (postNvme p.val false e.cid st 0 u))
    let fails := failsAt t
    let badIo := failsAt w
    let all (o : Host.Outcome State Fault Refusal) : Prop :=
      exec (.nvmeRead p e) s = o ∧ exec (.nvmeWrite p e) s = o ∧ exec (.nvmeFlush p e) s = o ∧
      exec (.nvmeWriteZeroes p e) s = o ∧ ∀ rs, exec (.nvmeDatasetManagement p e rs) s = o
    let one := e.nsid.toNat = 1
    (¬ starts → all (.next (settle s))) ∧
    (starts → e.unsupported = true → all (fails 0x001)) ∧
    (starts → e.unsupported = false → bootVolume s = none →
      exec (.nvmeRead p e) s = badIo 0x00B ∧ exec (.nvmeWrite p e) s = badIo 0x00B ∧
      exec (.nvmeFlush p e) s = fails 0x00B ∧ exec (.nvmeWriteZeroes p e) s = fails 0x00B ∧
      ∀ rs, exec (.nvmeDatasetManagement p e rs) s = fails 0x00B) ∧
    (starts → e.unsupported = false → ∀ v, bootVolume s = some v →
      (¬ one → exec (.nvmeRead p e) s = badIo 0x00B ∧ exec (.nvmeWrite p e) s = badIo 0x00B ∧
        exec (.nvmeWriteZeroes p e) s = fails 0x00B ∧ (∀ rs, exec (.nvmeDatasetManagement p e rs) s = fails 0x00B) ∧
        (e.nsid ≠ 0xFFFFFFFF#32 → exec (.nvmeFlush p e) s = fails 0x00B)) ∧
      (one → 64 < n → exec (.nvmeRead p e) s = badIo 0x002 ∧ exec (.nvmeWrite p e) s = badIo 0x002) ∧
      (one → n ≤ 64 → prpOk e.prp1.toNat e.prp2.toNat (n * 4096) = false →
        exec (.nvmeRead p e) s = badIo 0x013 ∧ exec (.nvmeWrite p e) s = badIo 0x013) ∧
      (one → n ≤ 64 → prpOk e.prp1.toNat e.prp2.toNat (n * 4096) = true →
        (nsze s < nvmeLba e + n → exec (.nvmeRead p e) s = badIo 0x080 ∧ exec (.nvmeWrite p e) s = badIo 0x080) ∧
        (nvmeLba e + n ≤ nsze s →
          exec (.nvmeRead p e) s = .next (settle (beginNvme src p.val 1 v (nvmeLba e) n e.prp1.toNat e.prp2.toNat true w)) ∧
          exec (.nvmeWrite p e) s = .next (settle (beginNvme src p.val (if e.cdw12.getLsbD 30 then 3 else 2) v (nvmeLba e) n
            e.prp1.toNat e.prp2.toNat true w)))) ∧
      (one ∨ e.nsid = 0xFFFFFFFF#32 →
        exec (.nvmeFlush p e) s = .next (settle (beginNvme src p.val 4 v 0 0 0 0 false t))) ∧
      (one → nsze s < nvmeLba e + n → exec (.nvmeWriteZeroes p e) s = fails 0x080) ∧
      (one → nvmeLba e + n ≤ nsze s →
        exec (.nvmeWriteZeroes p e) s = .next (settle (beginNvme src p.val 5 v (nvmeLba e) n 0 0 false t))) ∧
      (one → ∀ rs : List (Nat × Nat),
        let ranges := (rs.take (fld e.cdw10.toNat 7 0 + 1)).filter (fun r => r.2 != 0)
        (e.cdw11.getLsbD 2 = false ∨ ranges = [] → exec (.nvmeDatasetManagement p e rs) s = fails 0) ∧
        (e.cdw11.getLsbD 2 = true → ranges ≠ [] →
          ((∃ r ∈ ranges, nsze s < r.1 + r.2) → exec (.nvmeDatasetManagement p e rs) s = fails 0x080) ∧
          ((∀ r ∈ ranges, r.1 + r.2 ≤ nsze s) →
            let made := ranges.foldl (fun (m : List Nat × State) r =>
              let c := newCmd (.dsm p.val e.cid) p.val (nvmeEntry 5 v r.1 r.2 0 0) m.2
              (m.1 ++ [c.1], updCmd c.1 (fun x => { x with sgl := [] }) c.2)) ([], t)
            exec (.nvmeDatasetManagement p e rs) s =
              .next (settle (made.1.foldl (fun s c => runNvme c s) made.2))))))

/-- FAULT_MESSAGE first raises the message that a unit sent, if any; with nothing waiting nothing more changes; else the next
source's oldest message is taken: in a reset shadow it is only tallied, else it is classified, and it escalates when its kind
is immediate or the count reaches N; then the overruns of its source are taken. A block reset whose links are back ends; the
end of its shadow takes it away with a SHADOW record; without such a reset nothing changes. FC_FORCE of 64 bits raises a
forced message, and is counted while the ledger is locked; of another width, a reserved source or kind 0 it does nothing.
FC_CLEAR clears what it names; ERR_CLR releases ERR_N; EVT_CTL.FLUSH flushes the staging into the log, all of it where there
is room and the MRAM has power. Where PF0 (for ERR_CLR the port) does not answer, or before READY, these registers take
nothing. (Kind 0x3D stands for the immediate kinds that R504 fixes.) Cites: 14_faults_and_event_log: Fault messages;
14_faults_and_event_log: Classification; 14_faults_and_event_log: Nested errors and block resets; 14_faults_and_event_log:
Force bits; 14_faults_and_event_log: Staging and the log; 14_faults_and_event_log: Collector registers;
14_faults_and_event_log: Recorder registers. -/
def Obligations.FaultCollector : Prop :=
  (∀ (w : Word) (s : State), exec (.faultMessage (some w)) s = exec (.faultMessage none) (unitRaises (msgOf w false) s)) ∧
  (∀ s : State, nextSource s = none → exec (.faultMessage none) s = .next (settle s)) ∧
  (∀ (src : Nat) (m : FMsg) (rest : List FMsg) (s : State), nextSource s = some src → tgetD s.fc.queue src [] = m :: rest →
    let s1 : State := { s with fc := { s.fc with
      queue := if rest = [] then tdel s.fc.queue src else tset s.fc.queue src rest, lastServed := src, last := m,
      messages := sat32 s.fc.messages 1 } }
    (s.fc.resets.any (fun e => covers e.1 m.src) = true →
      exec (.faultMessage none) s = .next (settle (takeOverruns src (shadowMsg m s1)))) ∧
    (s.fc.resets.any (fun e => covers e.1 m.src) = false →
      exec (.faultMessage none) s = .next (settle (takeOverruns src (classifyMsg m false s1))))) ∧
  (∀ (m : FMsg) (silent : Bool) (s : State),
    let f := cfgOf m.src s
    let c := tgetD s.fc.cnt m.src {}
    let fresh := c.count == 0 || (f.w != 0 && decide (c.windowStart + f.w * 1000 ≤ s.now))
    let c1 : SrcCnt := { c with count := if fresh then 1 else c.count + 1,
                                windowStart := if fresh then s.now else c.windowStart, total := sat32 c.total 1 }
    let s1 : State := { s with fc.cnt := tset s.fc.cnt m.src c1 }
    (m.kind ≠ 0x3D → f.immed.getLsbD m.kind = false → c1.count < f.n → classifyMsg m silent s = ordinary m silent s1) ∧
    (m.kind = 0x3D ∨ f.immed.getLsbD m.kind = true ∨ f.n ≤ c1.count →
      let u := escalate m silent s1
      classifyMsg m silent s = { u with fc.cnt := tupd u.fc.cnt m.src (fun c => { c with count := 0 }) })) ∧
  (∀ (b : Block) (s : State), tget s.fc.resets (blockNo b) = none →
    exec (.blockResetEnd b) s = .next (settle s) ∧ exec (.resetShadowEnd b) s = .next s) ∧
  (∀ (b : Block) (r : BlockRst) (s : State), tget s.fc.resets (blockNo b) = some r →
    let s1 : State := { s with fc.resets := tset s.fc.resets (blockNo b) { r with endedAt := some s.now } }
    (r.endedAt.isSome = true ∨ r.links ≠ [] → exec (.blockResetEnd b) s = .next (settle s)) ∧
    (r.endedAt = none → exec (.resetShadowEnd b) s = .next s) ∧
    (r.endedAt = none → r.links = [] →
      (8 ≤ blockNo b → blockNo b < 26 → exec (.blockResetEnd b) s = .next (settle s1)) ∧
      (blockNo b < 8 → exec (.blockResetEnd b) s = .next (settle (placeHeld s1))) ∧
      (blockNo b = 26 → exec (.blockResetEnd b) s = .next (settle { s1 with pack.noRise := 3 })))) ∧
  (∀ (b : Block) (r : BlockRst) (t : Nat) (s : State), tget s.fc.resets (blockNo b) = some r → r.endedAt = some t →
    let s1 : State := { s with
      now := max s.now (t + (1024 + coreMhz s - 1) / coreMhz s), fc.resets := tdel s.fc.resets (blockNo b) }
    exec (.resetShadowEnd b) s = .next (addRec (mkRec 0x03 { src := lowestInside (blockNo b), kind := 0x3F } false
      (leBytes 2 (blockNo b) ++ leBytes 4 (t - r.startedAt) ++ leBytes 4 r.shadowed ++ leBytes 2 r.sources.length) s1) s1) ∧
    Completes (.resetShadowEnd b) s (fun u => tget u.fc.resets (blockNo b) = none ∧ u.now = s1.now)) ∧
  (∀ (w : Nat) (v : Word) (s : State), barUp 0 s = true → s.dev.ready = true →
    let m := msgOf v true
    (w ≠ 8 → exec (.fcForce w v) s = .next s) ∧
    (s.led.locked = true → exec (.fcForce 8 v) s = .next (countLockDiscard 0x80168 s)) ∧
    (s.led.locked = false → reservedSrc m.src = true ∨ m.kind = 0 → exec (.fcForce 8 v) s = .next s) ∧
    (s.led.locked = false → reservedSrc m.src = false → m.kind ≠ 0 →
      exec (.fcForce 8 v) s = .next (raise m.src m.kind m.addr s (forced := true)) ∧
      ((tgetD s.fc.queue m.src []).length < 4 →
        exec (.fcForce 8 v) s = .next { s with fc.queue := tset s.fc.queue m.src (tgetD s.fc.queue m.src [] ++ [m]) }))) ∧
  (∀ (v : Word) (s : State), barUp 0 s = true → s.dev.ready = true →
    let hit (k : Nat) : Bool := v.getLsbD 10 || k == (v.extractLsb' 0 10).toNat
    exec (.fcClear v) s = .next { s with
      fc.sticky := if v.getLsbD 11 then s.fc.sticky.filter (fun k => !hit k) else s.fc.sticky,
      fc.severe := if v.getLsbD 12 then s.fc.severe.filter (fun k => !hit k) else s.fc.severe,
      fc.cnt := if v.getLsbD 12 then
        s.fc.cnt.map (fun (k, c) => (k, if hit k then { c with count := 0, windowStart := 0 } else c)) else s.fc.cnt }) ∧
  (∀ (v : Word) (s : State), barUp 0 s = true → s.dev.ready = true → v.getLsbD 10 = true → v.getLsbD 11 = true →
    v.getLsbD 12 = true → Completes (.fcClear v) s (fun u => u.fc.sticky = [] ∧ u.fc.severe = [] ∧
      ∀ k c, (k, c) ∈ u.fc.cnt → c.count = 0)) ∧
  (∀ (p : Fin 2) (s : State), barUp p.val s = true → s.dev.ready = true →
    (s.fc.errLatch = true → exec (.errClr p) s = .next (emit (.pin "ERR_N" true) { s with fc.errLatch := false })) ∧
    (s.fc.errLatch = false → exec (.errClr p) s = .next s)) ∧
  (∀ s : State, barUp 0 s = true → s.dev.ready = true → exec .evtCtlFlush s = .next (flushRecs s)) ∧
  (∀ s : State, barUp 0 s = true → s.dev.ready = true → s.evr.memFailed = false → nvOn s = true →
    s.evr.log.length + s.evr.staging.length < logMax → s.evr.full = false →
    Completes .evtCtlFlush s (fun u => u.evr.staging = [] ∧ u.evr.log = s.evr.log ++ s.evr.staging)) ∧
  ∀ (p : Fin 2) (w : Nat) (v : Word) (s : State), barUp p.val s = false ∨ s.dev.ready = false →
    exec (.errClr p) s = .next s ∧
    (p = 0 → exec (.fcForce w v) s = .next s ∧ exec (.fcClear v) s = .next s ∧ exec .evtCtlFlush s = .next s)

/-- With the always-on supply, the endpoint ID is set and reported, reserved IDs are refused, and the UUID, versions, message
types and vendor messages are answered; GET_STATUS answers with the status registers; ATTEST_START queues a report, or answers
4 before READY, 2 for an unknown algorithm, 3 while one runs; READ_OBJECT answers with the bytes asked for, 2 for more than
1,024 or an unknown object, 4 before READY for the report and the certificates, 1 for a report that is not there yet;
SET_EVENT_RECEIVER stores the receiver; WAKE wakes the module from deep standby, or from a cold stop once it has cooled, and
answers 4 when it may not. Without the supply nothing answers. (Which statuses stand for which refusal, log entry 47; message
forms, log entry 48.) Cites: 15_security_and_management: Management sideband; 01_architecture: Power domains and clocks. -/
def Obligations.SidebandMessages : Prop :=
  ∀ (i : Byte) (s : State),
    let reply (cmd cc : Nat) (d : List Byte) (s : State) : State := emit (.mctp 0 cmd 0 cc d) s
    let answer (cmd st : Nat) (d : List Byte) (s : State) : State := emit (.mctp 0x7F cmd i.toNat st d) s
    (s.pow.aon = true →
      (∀ eid : Byte, (eid = 0 ∨ eid = 0xFF → exec (.setEndpointId eid) s = .next (reply 1 2 [] s)) ∧
        (eid ≠ 0 → eid ≠ 0xFF → exec (.setEndpointId eid) s = .next (reply 1 0 [0, eid, 0] { s with sec.eid := eid }))) ∧
      exec .getEndpointId s = .next (reply 2 0 [s.sec.eid, 0, 0] s) ∧
      exec .getEndpointUuid s = .next (reply 3 0 (padTo 16 Config.endpointUuid) s) ∧
      exec .getMctpVersionSupport s = .next (reply 4 0 Config.mctpVersions s) ∧
      exec .getMessageTypeSupport s = .next (reply 5 0 [1, 0x7F] s) ∧
      exec .getVendorDefinedMessageSupport s = .next (reply 6 0
        ([0xFF, 0x01] ++ (leBytes 4 Config.ianaNumber.toNat).reverse ++ padTo 2 Config.vendorSet) s) ∧
      exec (.getStatus i) s = .next (answer 1 0 (statusBytes s) s) ∧
      (∀ (alg : Byte) (n : List Byte),
        (s.dev.ready = false → exec (.attestStart i alg n) s = .next (answer 2 4 [] s)) ∧
        (s.dev.ready = true → 1 < alg.toNat → exec (.attestStart i alg n) s = .next (answer 2 2 [] s)) ∧
        (s.dev.ready = true → alg.toNat ≤ 1 → sidebandSigns s = true → exec (.attestStart i alg n) s = .next (answer 2 3 [] s)) ∧
        (s.dev.ready = true → alg.toNat ≤ 1 → sidebandSigns s = false → exec (.attestStart i alg n) s =
          .next (answer 2 0 (leBytes 4 (512 + sigBytes alg.toNat)) (askSigning none alg.toNat (padTo 32 n) s)))) ∧
      (∀ (obj : Byte) (off len : Nat),
        (1024 < len → exec (.readObject i obj off len) s = .next (answer 3 2 [] s)) ∧
        (len ≤ 1024 → obj = 1 →
          (s.dev.ready = false → exec (.readObject i obj off len) s = .next (answer 3 4 [] s)) ∧
          (s.dev.ready = true → sidebandSigns s = true ∨ s.sec.report = none →
            exec (.readObject i obj off len) s = .next (answer 3 1 [] s)) ∧
          (∀ r, s.dev.ready = true → sidebandSigns s = false → s.sec.report = some r →
            exec (.readObject i obj off len) s = .next (answer 3 0 (slice r off len) s))) ∧
        (len ≤ 1024 → obj = 2 → exec (.readObject i obj off len) s =
          .next (if s.dev.ready then answer 3 0 (slice certBytes off len) s else answer 3 4 [] s)) ∧
        (len ≤ 1024 → obj = 3 → exec (.readObject i obj off len) s = .next (answer 3 0 (slice (lastWordBytes s) off len) s)) ∧
        (len ≤ 1024 → obj ≠ 1 → obj ≠ 2 → obj ≠ 3 → exec (.readObject i obj off len) s = .next (answer 3 2 [] s))) ∧
      (∀ (eid : Byte) (on : Bool), exec (.setEventReceiver i eid on) s =
        .next (answer 4 0 [] { s with sec.recvEid := eid, sec.recvEn := on })) ∧
      (s.pow.ph = .standby → exec (.wake i) s = .next (bootAgain 5 (answer 5 0 [] s))) ∧
      (s.pow.ph = .coldStopped → belowThrottle s = true → exec (.wake i) s = .next (bootAgain 4 (answer 5 0 [] s))) ∧
      (s.pow.ph ≠ .standby → s.pow.ph ≠ .coldStopped ∨ belowThrottle s = false →
        exec (.wake i) s = .next (answer 5 4 [] s))) ∧
    (s.pow.aon = false → exec .getEndpointId s = .next s ∧ exec .getEndpointUuid s = .next s ∧
      exec .getMctpVersionSupport s = .next s ∧ exec .getMessageTypeSupport s = .next s ∧
      exec .getVendorDefinedMessageSupport s = .next s ∧ exec (.getStatus i) s = .next s ∧ exec (.wake i) s = .next s ∧
      ∀ (a : Byte) (n : List Byte) (off len : Nat) (on : Bool),
        exec (.setEndpointId a) s = .next s ∧ exec (.attestStart i a n) s = .next s ∧
        exec (.readObject i a off len) s = .next s ∧ exec (.setEventReceiver i a on) s = .next s)

/-- With PWROK low: EXTEST, EXTEST_PULSE and EXTEST_TRAIN drive the balls from the boundary cells and shift out the balls; IDCODE
shifts out 0x17128A6B; SAMPLE/PRELOAD shifts out the balls and loads the cells, undisturbed; HIGHZ floats the balls; CLAMP
drives them from the cells. BYPASS, and any code of no instruction, selects BYPASS (the code of another instruction is no
event of this row and changes nothing); the latter raises a message of source 0x1E7 (whose KIND no rule states: a free value,
log entry 2). Nothing else of the module changes. With PWROK high, nothing happens (log entry 49). Cites:
16_electrical_and_package: Boundary scan. -/
def Obligations.BoundaryScan : Prop :=
  ∀ (pins sh : Nat) (code : Byte) (s : State),
    let at_ (ir bits : Nat) (drives highz : Bool) : State :=
      emit (.tap ir bits) { s with tap := { s.tap with ir := ir, drives := drives, highz := highz } }
    (s.pow.ph = .off →
      exec (.extest pins) s = .next (at_ 0x00 pins true false) ∧
      exec .idcode s = .next (at_ 0x01 0x17128A6B false false) ∧
      exec (.samplePreload pins sh) s = .next (emit (.tap 0x02 pins)
        { s with tap := { s.tap with ir := 0x02, cells := sh, drives := false, highz := false } }) ∧
      exec .highz s = .next (at_ 0x03 0 false true) ∧
      exec .clamp s = .next (at_ 0x04 0 true false) ∧
      exec (.extestPulse pins) s = .next (at_ 0x05 pins true false) ∧
      exec (.extestTrain pins) s = .next (at_ 0x06 pins true false) ∧
      exec (.bypass 0xFF) s = .next (at_ 0xFF 0 false false) ∧
      (code.toNat ≤ 6 → exec (.bypass code) s = .next s) ∧
      (6 < code.toNat → code ≠ 0xFF → exec (.bypass code) s = .next (raiseOpen 0x1E7 (at_ 0xFF 0 false false)))) ∧
    (s.pow.ph ≠ .off →
      exec (.extest pins) s = .next s ∧ exec .idcode s = .next s ∧ exec (.samplePreload pins sh) s = .next s ∧
      exec .highz s = .next s ∧ exec .clamp s = .next s ∧ exec (.extestPulse pins) s = .next s ∧
      exec (.extestTrain pins) s = .next s ∧ exec (.bypass code) s = .next s)

/-- Right after reset the queue of commands is empty, READY and the service level are 0, every ring is FREE, no command, operation
or context exists, the fault latches and counts are clear, the collector's source selector is 0, the owner is not enrolled,
the ledger is not locked, the fuse counter is 0, no flush is recorded (LAST_FLUSH result 3), and the cache data memory lists
no byte. (That the state is that of a new module is the model's choice, log entry 1.) Cites: 01_architecture: Device identity
and status registers; 05_host_rings: Ring registers; 11_power_fail_boot_ledger: Power and boot registers;
14_faults_and_event_log: Collector registers; 15_security_and_management: Security registers. -/
def Obligations.ResetState : Prop :=
  State.reset.pending = [] ∧ State.reset.dev.ready = false ∧ State.reset.dev.level = 0 ∧
  (∀ r, (ringOf r State.reset).st = .free) ∧ State.reset.pipe.cmds = [] ∧ State.reset.pipe.ops = [] ∧
  State.reset.pipe.ctxs = [] ∧ State.reset.fc.sticky = [] ∧ State.reset.fc.severe = [] ∧ State.reset.fc.errLatch = false ∧
  State.reset.fc.messages = 0 ∧ State.reset.fc.sel = 0 ∧ State.reset.led.ownerKey = none ∧ State.reset.led.locked = false ∧
  State.reset.sec.arb = 0 ∧ State.reset.pow.lastResult = 3 ∧ State.reset.pow.index = [] ∧ State.reset.cache.mem = []
end

