-- ==== Sys2Proof/Laws/Kept.lean ====
section
/-! SUPPORT. Sys2Proof/Laws/Kept.lean: the part of the state that nearly every operation leaves alone, as one value `kept s`. An
operation `f` has one lemma, `f_kept`, so no proof about this part unfolds an operation. -/

namespace Sys2Proof.Machine

/-- What only a few named commands change: the queue, fuses and firmware slots, the owner, the ledger lock and identity, the
sensor mask, the test access port. -/
structure Kept where
  pending : List Instr
  arb : Nat
  revoked : BitVec 4
  slots : Tbl (List Byte)
  pointer : Nat
  ownerKey : Option (List Byte)
  locked : Bool
  cohort : Nat
  mask : BitVec 32
  eid : Byte
  tap : TapSt

/-- That part of a state. -/
def kept (s : State) : Kept :=
  ⟨s.pending, s.sec.arb, s.sec.revoked, s.sec.slots, s.sec.pointer, s.led.ownerKey, s.led.locked, s.led.cohort, s.therm.mask,
   s.sec.eid, s.tap⟩

theorem kept_mk (now free out pending dev port0 port1 rings pipe plan cache jnl mem led ledNow ledOld pair pow pack therm sec tap fc evr) :
    kept (State.mk now free out pending dev port0 port1 rings pipe plan cache jnl mem led ledNow ledOld pair pow pack therm sec tap fc evr) =
      ⟨pending, sec.arb, sec.revoked, sec.slots, sec.pointer, led.ownerKey, led.locked, led.cohort, therm.mask, sec.eid, tap⟩ := rfl

theorem kept_eta (s : State) :
    (⟨s.pending, s.sec.arb, s.sec.revoked, s.sec.slots, s.sec.pointer, s.led.ownerKey, s.led.locked, s.led.cohort, s.therm.mask,
      s.sec.eid, s.tap⟩ : Kept) = kept s := rfl

theorem kept_ite {c : Prop} [Decidable c] (a b : State) : kept (if c then a else b) = if c then kept a else kept b := by
  split <;> rfl

/-- A fold of steps that each keep the part keeps it. -/
theorem kept_foldl {α : Type} (f : State → α → State) (l : List α) (s : State) (h : ∀ s a, kept (f s a) = kept s) :
    kept (l.foldl f s) = kept s := by
  induction l generalizing s with
  | nil => rfl
  | cons a l ih => exact (ih (f s a)).trans (h s a)

/-- The same for a fold that carries a value beside the state. -/
theorem kept_foldl_snd {α β : Type} (f : β × State → α → β × State) (l : List α) (x : β × State)
    (h : ∀ x a, kept (f x a).2 = kept x.2) : kept (l.foldl f x).2 = kept x.2 := by
  induction l generalizing x with
  | nil => rfl
  | cons a l ih => exact (ih (f x a)).trans (h x a)

/-- Wherever the outcome is a next state, the part is what it was. -/
def KeptBy (r : Res) (s : State) : Prop := ∀ t, r = .next t → kept t = kept s

/-- What no reset and no message's reaction changes either: the queue, the fuses, the firmware slots and their pointer. -/
structure Fixed where
  pending : List Instr
  arb : Nat
  revoked : BitVec 4
  slots : Tbl (List Byte)
  pointer : Nat

/-- That part of a state. -/
def fixed (s : State) : Fixed := ⟨s.pending, s.sec.arb, s.sec.revoked, s.sec.slots, s.sec.pointer⟩

/-- `Fixed` read from `Kept`. -/
def Kept.fixed (k : Kept) : Fixed := ⟨k.pending, k.arb, k.revoked, k.slots, k.pointer⟩

theorem fixed_of_kept {s t : State} (h : kept t = kept s) : fixed t = fixed s := congrArg Kept.fixed h

theorem fixed_mk (now free out pending dev port0 port1 rings pipe plan cache jnl mem led ledNow ledOld pair pow pack therm sec tap fc evr) :
    fixed (State.mk now free out pending dev port0 port1 rings pipe plan cache jnl mem led ledNow ledOld pair pow pack therm sec tap fc evr) =
      ⟨pending, sec.arb, sec.revoked, sec.slots, sec.pointer⟩ := rfl

theorem fixed_eta (s : State) : (⟨s.pending, s.sec.arb, s.sec.revoked, s.sec.slots, s.sec.pointer⟩ : Fixed) = fixed s := rfl

theorem fixed_ite {c : Prop} [Decidable c] (a b : State) : fixed (if c then a else b) = if c then fixed a else fixed b := by
  split <;> rfl

theorem fixed_foldl {α : Type} (f : State → α → State) (l : List α) (s : State) (h : ∀ s a, fixed (f s a) = fixed s) :
    fixed (l.foldl f s) = fixed s := by
  induction l generalizing s with
  | nil => rfl
  | cons a l ih => exact (ih (f s a)).trans (h s a)

theorem fixed_foldl_snd {α β : Type} (f : β × State → α → β × State) (l : List α) (x : β × State)
    (h : ∀ x a, fixed (f x a).2 = fixed x.2) : fixed (l.foldl f x).2 = fixed x.2 := by
  induction l generalizing x with
  | nil => rfl
  | cons a l ih => exact (ih (f x a)).trans (h x a)

/-- Wherever the outcome is a next state, `fixed` is what it was. -/
def FixedBy (r : Res) (s : State) : Prop := ∀ t, r = .next t → fixed t = fixed s

theorem fixedBy_ok {s u : State} (h : fixed u = fixed s) : FixedBy (ok u) s := by
  intro t e; cases e; exact h

theorem fixedBy_of_kept {r : Res} {s : State} (h : KeptBy r s) : FixedBy r s := fun t e => fixed_of_kept (h t e)

theorem keptBy_ok {s u : State} (h : kept u = kept s) : KeptBy (ok u) s := by
  intro t e; cases e; exact h

theorem keptBy_fault (f : Fault) (s : State) : KeptBy (.fault f) s := by
  intro t e; cases e

end Sys2Proof.Machine
end

