-- ==== Sys2Proof/Laws/KeptOps.lean ====
section
/-! SUPPORT. Sys2Proof/Laws/KeptOps.lean: the shared operations leave `kept s` as it was, one lemma an operation. -/

namespace Sys2Proof.Machine

set_option linter.unusedSimpArgs false
set_option linter.unusedTactic false
set_option linter.unreachableTactic false

/-! ## Machine/Ops.lean -/

theorem emit_kept (o : Out) (s : State) : kept (emit o s) = kept s := rfl

theorem setPort_kept (p : Nat) (v : Port) (s : State) : kept (setPort p v s) = kept s := by
  unfold setPort
  repeat' first
    | with_reducible rfl
    | simp only [kept_mk, kept_eta, kept_ite, ite_self]
    | split
    | rfl

theorem updPort_kept (p : Nat) (f : Port → Port) (s : State) : kept (updPort p f s) = kept s := by
  unfold updPort
  repeat' first
    | with_reducible rfl
    | simp only [kept_mk, kept_eta, kept_ite, ite_self, setPort_kept]
    | split
    | rfl

theorem timeTo_kept (t : Nat) (s : State) : kept (timeTo t s) = kept s := rfl

theorem nextFree_kept (s : State) : kept (nextFree s) = kept s := rfl

theorem timeToOp_kept (t : Nat) (s : State) : kept (timeToOp t s) = kept s := rfl

theorem emitMember_kept (q tag : Nat) (r : MReq) (s : State) : kept (emitMember q tag r s) = kept s := by
  unfold emitMember
  repeat' first
    | with_reducible rfl
    | simp only [kept_mk, kept_eta, kept_ite, ite_self, emit_kept]
    | split
    | rfl

theorem startGroup_kept (g : Nat) (s : State) : kept (startGroup g s) = kept s := by
  unfold startGroup
  repeat' first
    | with_reducible rfl
    | simp only [kept_mk, kept_eta, kept_ite, ite_self, emit_kept]
    | split
    | refine (kept_foldl _ _ _ fun _ _ => ?_).trans ?_
    | refine (kept_foldl_snd _ _ _ fun _ _ => ?_).trans ?_
    | rfl

theorem stopGroup_kept (g : Nat) (s : State) : kept (stopGroup g s) = kept s := by
  unfold stopGroup
  repeat' first
    | with_reducible rfl
    | simp only [kept_mk, kept_eta, kept_ite, ite_self]
    | split
    | rfl

theorem ledCommit_kept (s : State) : kept (ledCommit s) = kept s := rfl

theorem ledCommitRec_kept (k : Nat) (s : State) : kept (ledCommitRec k s) = kept s := by
  unfold ledCommitRec
  repeat' first
    | with_reducible rfl
    | simp only [kept_mk, kept_eta, kept_ite, ite_self, ledCommit_kept]
    | split
    | rfl

theorem setRing_kept (r : Nat) (v : Ring) (s : State) : kept (setRing r v s) = kept s := by
  unfold setRing
  repeat' first
    | with_reducible rfl
    | simp only [kept_mk, kept_eta, kept_ite, ite_self]
    | split
    | rfl

theorem updRing_kept (r : Nat) (f : Ring → Ring) (s : State) : kept (updRing r f s) = kept s := by
  unfold updRing
  repeat' first
    | with_reducible rfl
    | simp only [kept_mk, kept_eta, kept_ite, ite_self, setRing_kept]
    | split
    | rfl

theorem signal_kept (p v : Nat) (s : State) : kept (signal p v s) = kept s := by
  unfold signal
  repeat' first
    | with_reducible rfl
    | simp only [kept_mk, kept_eta, kept_ite, ite_self, updPort_kept, emit_kept]
    | split
    | rfl

theorem maybeSignal_kept (r : Nat) (s : State) : kept (maybeSignal r s) = kept s := by
  unfold maybeSignal
  repeat' first
    | with_reducible rfl
    | simp only [kept_mk, kept_eta, kept_ite, ite_self, signal_kept, setRing_kept]
    | split
    | rfl

theorem writeCqe_kept (r : Nat) (c : Cqe) (s : State) : kept (writeCqe r c s) = kept s := by
  unfold writeCqe
  repeat' first
    | with_reducible rfl
    | simp only [kept_mk, kept_eta, kept_ite, ite_self, emit_kept, setRing_kept, maybeSignal_kept]
    | split
    | rfl

theorem stashCqe_kept (r : Nat) (c : Cqe) (s : State) : kept (stashCqe r c s) = kept s := by
  unfold stashCqe
  repeat' first
    | with_reducible rfl
    | simp only [kept_mk, kept_eta, kept_ite, ite_self, updRing_kept, nextFree_kept]
    | split
    | rfl

theorem postCqe_kept (r : Nat) (c : Cqe) (s : State) : kept (postCqe r c s) = kept s := by
  unfold postCqe
  repeat' first
    | with_reducible rfl
    | simp only [kept_mk, kept_eta, kept_ite, ite_self, stashCqe_kept, writeCqe_kept]
    | split
    | rfl

theorem deliverEvents_kept (n p : Nat) (s : State) : kept (deliverEvents n p s) = kept s := by
  induction n generalizing s with
  | zero => rfl
  | succ n ih =>
    unfold deliverEvents
    try dsimp only
    repeat' first | rfl | split | (rw [ih]; simp only [postCqe_kept, updRing_kept, setPort_kept])

theorem eventOn_kept (p typ obj : Nat) (data : Dword) (s : State) : kept (eventOn p typ obj data s) = kept s := by
  unfold eventOn
  repeat' first
    | with_reducible rfl
    | simp only [kept_mk, kept_eta, kept_ite, ite_self, setPort_kept, deliverEvents_kept]
    | split
    | rfl

theorem event_kept (typ obj : Nat) (data : Nat) (s : State) : kept (event typ obj data s) = kept s := by
  unfold event
  repeat' first
    | with_reducible rfl
    | simp only [kept_mk, kept_eta, kept_ite, ite_self, eventOn_kept]
    | split
    | rfl

theorem flushRecs_kept (s : State) : kept (flushRecs s) = kept s := by
  unfold flushRecs
  repeat' first
    | with_reducible rfl
    | simp only [kept_mk, kept_eta, kept_ite, ite_self, event_kept]
    | split
    | rfl

theorem addRec_kept (r : EvRec) (s : State) : kept (addRec r s) = kept s := by
  have stageNew : kept (addRec.stageNew r s) = kept s := by
    unfold addRec.stageNew; repeat' first | rfl | simp only [kept_mk, kept_eta, kept_ite, ite_self, flushRecs_kept] | split
  unfold addRec; repeat' first | rfl | simp only [kept_mk, kept_eta, stageNew] | split

theorem recEvent_kept (src code obj : Nat) (detail : List Byte) (s : State) :
    kept (recEvent src code obj detail s) = kept s := by
  unfold recEvent
  repeat' first
    | with_reducible rfl
    | simp only [kept_mk, kept_eta, kept_ite, ite_self, addRec_kept]
    | split
    | rfl

theorem raise_kept (src kind addr : Nat) (s : State) (forced : Bool := false) :
    kept (raise src kind addr s forced) = kept s := by
  unfold raise
  repeat' first
    | with_reducible rfl
    | simp only [kept_mk, kept_eta, kept_ite, ite_self]
    | split
    | rfl

theorem raiseFree_kept (src kind : Nat) (s : State) : kept (raiseFree src kind s) = kept s := by
  unfold raiseFree
  repeat' first
    | with_reducible rfl
    | simp only [kept_mk, kept_eta, kept_ite, ite_self, raise_kept, nextFree_kept]
    | split
    | rfl

theorem raiseOpen_kept (src : Nat) (s : State) : kept (raiseOpen src s) = kept s := by
  unfold raiseOpen
  repeat' first
    | with_reducible rfl
    | simp only [kept_mk, kept_eta, kept_ite, ite_self, raise_kept, nextFree_kept]
    | split
    | rfl

theorem updPf1_kept (p : Nat) (f : Pf1 → Pf1) (s : State) : kept (updPf1 p f s) = kept s := by
  unfold updPf1
  repeat' first
    | with_reducible rfl
    | simp only [kept_mk, kept_eta, kept_ite, ite_self, updPort_kept]
    | split
    | rfl

theorem writeNvme_kept (p : Nat) (admin : Bool) (cid : BitVec 16) (status dw0 : Nat) (s : State) :
    kept (writeNvme p admin cid status dw0 s) = kept s := by
  unfold writeNvme
  repeat' first
    | with_reducible rfl
    | simp only [kept_mk, kept_eta, kept_ite, ite_self, emit_kept, updPf1_kept]
    | split
    | rfl

theorem postNvme_kept (p : Nat) (admin : Bool) (cid : BitVec 16) (status dw0 : Nat) (s : State) :
    kept (postNvme p admin cid status dw0 s) = kept s := by
  unfold postNvme
  repeat' first
    | with_reducible rfl
    | simp only [kept_mk, kept_eta, kept_ite, ite_self, updPf1_kept, writeNvme_kept]
    | split
    | rfl

theorem nvmeEvent_kept (p : Nat) (s : State) : kept (nvmeEvent p s) = kept s := by
  unfold nvmeEvent
  repeat' first
    | with_reducible rfl
    | simp only [kept_mk, kept_eta, kept_ite, ite_self, updPf1_kept, postNvme_kept]
    | split
    | rfl

theorem nvmeEvents_kept (s : State) : kept (nvmeEvents s) = kept s := by
  unfold nvmeEvents
  repeat' first
    | with_reducible rfl
    | simp only [kept_mk, kept_eta, kept_ite, ite_self, nvmeEvent_kept]
    | split
    | rfl

theorem countNvme_kept (p opcode n : Nat) (s : State) : kept (countNvme p opcode n s) = kept s := by
  unfold countNvme
  repeat' first
    | with_reducible rfl
    | simp only [kept_mk, kept_eta, kept_ite, ite_self, updPf1_kept]
    | split
    | rfl

theorem endRange_kept (p : Nat) (cid : BitVec 16) (status : BitVec 16) (s : State) :
    kept (endRange p cid status s) = kept s := by
  unfold endRange
  repeat' first
    | with_reducible rfl
    | simp only [kept_mk, kept_eta, kept_ite, ite_self, updPf1_kept, postNvme_kept]
    | split
    | rfl

theorem updCmd_kept (c : Nat) (f : Cmd → Cmd) (s : State) : kept (updCmd c f s) = kept s := rfl

theorem wirePair_kept (seq : Nat) (m : PMsg) (s : State) : kept (wirePair seq m s) = kept s := by
  unfold wirePair
  repeat' first
    | with_reducible rfl
    | simp only [kept_mk, kept_eta, kept_ite, ite_self, emit_kept]
    | split
    | rfl

theorem sendPair_kept (m : PMsg) (s : State) : kept (sendPair m s) = kept s := by
  unfold sendPair
  repeat' first
    | with_reducible rfl
    | simp only [kept_mk, kept_eta, kept_ite, ite_self, wirePair_kept]
    | split
    | rfl

theorem finishCmd_kept (c : Nat) (status : BitVec 16) (result : Dword) (s : State) :
    kept (finishCmd c status result s) = kept s := by
  unfold finishCmd
  repeat' first
    | with_reducible rfl
    | simp only [kept_mk, kept_eta, kept_ite, ite_self, updRing_kept, postCqe_kept, postNvme_kept, countNvme_kept,
        endRange_kept, sendPair_kept]
    | split
    | rfl

/-! ## Machine/Geometry.lean -/

theorem updPool_kept (l : Nat) (f : PoolRec → PoolRec) (s : State) : kept (updPool l f s) = kept s := rfl

theorem updSlot_kept (l slot : Nat) (f : SlotRec → SlotRec) (s : State) : kept (updSlot l slot f s) = kept s := rfl

theorem setTag_kept (x : Nat) (t : Tag) (s : State) : kept (setTag x t s) = kept s := by
  unfold setTag
  repeat' first
    | with_reducible rfl
    | simp only [kept_mk, kept_eta, kept_ite, ite_self]
    | split
    | rfl

theorem setCacheSec_kept (x sec : Nat) (d : List Byte) (s : State) : kept (setCacheSec x sec d s) = kept s := rfl

/-! ## Machine/Sched.lean -/

theorem updOp_kept (o : Nat) (f : Op → Op) (s : State) : kept (updOp o f s) = kept s := rfl

theorem updCtx_kept (c : Nat) (f : Ctx → Ctx) (s : State) : kept (updCtx c f s) = kept s := rfl

theorem rowTurn_kept (o : Nat) (s : State) : kept (rowTurn o s) = kept s := rfl

theorem placeOp_kept (o : Nat) (s : State) : kept (placeOp o s) = kept s := by
  unfold placeOp
  repeat' first
    | with_reducible rfl
    | simp only [kept_mk, kept_eta, kept_ite, ite_self]
    | split
    | rfl

theorem keepLanes_kept (s : State) : kept (keepLanes s) = kept s := by
  unfold keepLanes
  repeat' first
    | with_reducible rfl
    | simp only [kept_mk, kept_eta, kept_ite, ite_self]
    | split
    | refine (kept_foldl _ _ _ fun _ _ => ?_).trans ?_
    | refine (kept_foldl_snd _ _ _ fun _ _ => ?_).trans ?_
    | rfl

theorem placeHeld_kept (s : State) : kept (placeHeld s) = kept s := by
  unfold placeHeld
  repeat' first
    | with_reducible rfl
    | simp only [kept_mk, kept_eta, kept_ite, ite_self, placeOp_kept]
    | split
    | refine (kept_foldl _ _ _ fun _ _ => ?_).trans ?_
    | refine (kept_foldl_snd _ _ _ fun _ _ => ?_).trans ?_
    | rfl

theorem newOp_kept (op : Op) (s : State) : kept (newOp op s) = kept s := by
  unfold newOp
  repeat' first
    | with_reducible rfl
    | simp only [kept_mk, kept_eta, kept_ite, ite_self, placeOp_kept]
    | split
    | rfl

theorem dropInflight_kept (c : Nat) (s : State) : kept (dropInflight c s) = kept s := rfl

theorem freeOp_kept (o : Nat) (s : State) : kept (freeOp o s) = kept s := by
  unfold freeOp
  repeat' first
    | with_reducible rfl
    | simp only [kept_mk, kept_eta, kept_ite, ite_self, dropInflight_kept]
    | split
    | rfl

theorem joinWait_kept (o : Nat) (s : State) : kept (joinWait o s) = kept s := by
  unfold joinWait
  repeat' first
    | with_reducible rfl
    | simp only [kept_mk, kept_eta, kept_ite, ite_self, updOp_kept]
    | split
    | rfl

/-! ## Machine/Cache.lean -/

theorem touch_kept (x : Nat) (s : State) : kept (touch x s) = kept s := rfl

theorem syncShadow_kept (x : Nat) (s : State) : kept (syncShadow x s) = kept s := by
  unfold syncShadow
  repeat' first
    | with_reducible rfl
    | simp only [kept_mk, kept_eta, kept_ite, ite_self]
    | split
    | rfl

theorem noteShare_kept (l : Nat) (s : State) : kept (noteShare l s) = kept s := by
  unfold noteShare
  repeat' first
    | with_reducible rfl
    | simp only [kept_mk, kept_eta, kept_ite, ite_self]
    | split
    | rfl

theorem dropLostW_kept (l line sec : Nat) (s : State) : kept (dropLostW l line sec s) = kept s := by
  unfold dropLostW
  repeat' first
    | with_reducible rfl
    | simp only [kept_mk, kept_eta, kept_ite, ite_self, noteShare_kept]
    | split
    | rfl

theorem freeIndex_kept (s : State) : kept (freeIndex s) = kept s := by
  unfold freeIndex
  repeat' first
    | with_reducible rfl
    | simp only [kept_mk, kept_eta, kept_ite, ite_self]
    | split
    | rfl

theorem vaultMoved_kept (l line x sec : Nat) (s : State) : kept (vaultMoved l line x sec s) = kept s := by
  unfold vaultMoved
  repeat' first
    | with_reducible rfl
    | simp only [kept_mk, kept_eta, kept_ite, ite_self]
    | split
    | rfl

theorem installRestored_kept (l line x sec : Nat) (d : List Byte) (s : State) :
    kept (installRestored l line x sec d s) = kept s := by
  unfold installRestored
  repeat' first
    | with_reducible rfl
    | simp only [kept_mk, kept_eta, kept_ite, ite_self, setCacheSec_kept, setTag_kept, vaultMoved_kept, touch_kept]
    | split
    | rfl

theorem settleVault_kept (l line sec : Nat) (s : State) : kept (settleVault l line sec s) = kept s := by
  unfold settleVault
  repeat' first
    | with_reducible rfl
    | simp only [kept_mk, kept_eta, kept_ite, ite_self, freeIndex_kept]
    | split
    | rfl

theorem lostEvent_kept (k vol : Nat) (s : State) : kept (lostEvent k vol s) = kept s := by
  unfold lostEvent
  repeat' first
    | with_reducible rfl
    | simp only [kept_mk, kept_eta, kept_ite, ite_self, event_kept]
    | split
    | rfl

theorem unnamedLost_kept (x : Nat) (s : State) : kept (unnamedLost x s) = kept s := by
  unfold unnamedLost
  repeat' first
    | with_reducible rfl
    | simp only [kept_mk, kept_eta, kept_ite, ite_self, raiseFree_kept, recEvent_kept]
    | split
    | rfl

theorem addLostW_kept (l line x sec reason : Nat) (s : State) : kept (addLostW l line x sec reason s) = kept s := by
  unfold addLostW
  repeat' first
    | with_reducible rfl
    | simp only [kept_mk, kept_eta, kept_ite, ite_self, noteShare_kept, lostEvent_kept, unnamedLost_kept]
    | split
    | rfl

theorem killVault_kept (l line x sec : Nat) (s : State) : kept (killVault l line x sec s) = kept s := by
  unfold killVault
  repeat' first
    | with_reducible rfl
    | simp only [kept_mk, kept_eta, kept_ite, ite_self, settleVault_kept, addLostW_kept, nextFree_kept,
        installRestored_kept, freeIndex_kept, vaultMoved_kept]
    | split
    | refine (kept_foldl _ _ _ fun _ _ => ?_).trans ?_
    | refine (kept_foldl_snd _ _ _ fun _ _ => ?_).trans ?_
    | rfl

theorem storeDirty_kept (l line x sec : Nat) (d : List Byte) (s : State) : kept (storeDirty l line x sec d s) = kept s := by
  unfold storeDirty
  repeat' first
    | with_reducible rfl
    | simp only [kept_mk, kept_eta, kept_ite, ite_self, killVault_kept, setCacheSec_kept, setTag_kept, dropLostW_kept,
        syncShadow_kept, touch_kept]
    | split
    | rfl

theorem storeTransit_kept (l line x sec : Nat) (d : List Byte) (s : State) :
    kept (storeTransit l line x sec d s) = kept s := by
  unfold storeTransit
  repeat' first
    | with_reducible rfl
    | simp only [kept_mk, kept_eta, kept_ite, ite_self, setCacheSec_kept, touch_kept, setTag_kept]
    | split
    | rfl

theorem storeClean_kept (l line x sec : Nat) (d : List Byte) (s : State) : kept (storeClean l line x sec d s) = kept s := by
  unfold storeClean
  repeat' first
    | with_reducible rfl
    | simp only [kept_mk, kept_eta, kept_ite, ite_self, setCacheSec_kept, touch_kept, setTag_kept]
    | split
    | rfl

theorem makeClean_kept (x sec : Nat) (s : State) : kept (makeClean x sec s) = kept s := by
  unfold makeClean
  repeat' first
    | with_reducible rfl
    | simp only [kept_mk, kept_eta, kept_ite, ite_self, killVault_kept, setTag_kept, syncShadow_kept]
    | split
    | rfl

theorem dropSec_kept (x sec : Nat) (s : State) : kept (dropSec x sec s) = kept s := by
  unfold dropSec
  repeat' first
    | with_reducible rfl
    | simp only [kept_mk, kept_eta, kept_ite, ite_self, killVault_kept, setTag_kept, syncShadow_kept]
    | split
    | rfl

theorem addLostE_kept (l row sl : Nat) (positions : Word) (first count reason : Nat) (s : State) :
    kept (addLostE l row sl positions first count reason s) = kept s := by
  unfold addLostE
  repeat' first
    | with_reducible rfl
    | simp only [kept_mk, kept_eta, kept_ite, ite_self, event_kept]
    | split
    | rfl

theorem dropLostE_kept (l row pos ssec : Nat) (s : State) : kept (dropLostE l row pos ssec s) = kept s := by
  unfold dropLostE
  repeat' first
    | with_reducible rfl
    | simp only [kept_mk, kept_eta, kept_ite, ite_self]
    | split
    | rfl

theorem acceptLostE_kept (l row pos ssec : Nat) (s : State) : kept (acceptLostE l row pos ssec s) = kept s := by
  unfold acceptLostE
  repeat' first
    | with_reducible rfl
    | simp only [kept_mk, kept_eta, kept_ite, ite_self]
    | split
    | refine (kept_foldl _ _ _ fun _ _ => ?_).trans ?_
    | refine (kept_foldl_snd _ _ _ fun _ _ => ?_).trans ?_
    | rfl

theorem destageSecs_kept (l row sl : Nat) (secs : List (Nat × Nat)) (why : Why) (s : State) :
    kept (destageSecs l row sl secs why s) = kept s := by
  unfold destageSecs
  repeat' first
    | with_reducible rfl
    | simp only [kept_mk, kept_eta, kept_ite, ite_self, newOp_kept]
    | split
    | refine (kept_foldl _ _ _ fun _ _ => ?_).trans ?_
    | refine (kept_foldl_snd _ _ _ fun _ _ => ?_).trans ?_
    | rfl

theorem destageSlice_kept (l row sl : Nat) (why : Why) (s : State) : kept (destageSlice l row sl why s) = kept s := by
  unfold destageSlice
  repeat' first
    | with_reducible rfl
    | simp only [kept_mk, kept_eta, kept_ite, ite_self, destageSecs_kept]
    | split
    | rfl

theorem destageOldest_kept (l : List (Nat × Nat × Nat × Nat)) (s : State) : kept (destageOldest l s) = kept s := by
  unfold destageOldest
  repeat' first
    | with_reducible rfl
    | simp only [kept_mk, kept_eta, kept_ite, ite_self, destageSlice_kept]
    | split
    | refine (kept_foldl _ _ _ fun _ _ => ?_).trans ?_
    | refine (kept_foldl_snd _ _ _ fun _ _ => ?_).trans ?_
    | rfl

theorem destageAll_kept (s : State) : kept (destageAll s) = kept s := by
  unfold destageAll
  repeat' first
    | with_reducible rfl
    | simp only [kept_mk, kept_eta, kept_ite, ite_self, destageOldest_kept]
    | split
    | rfl

theorem destageDown_kept (dest : Nat) (s : State) : kept (destageDown dest s) = kept s := by
  unfold destageDown
  repeat' first
    | with_reducible rfl
    | simp only [kept_mk, kept_eta, kept_ite, ite_self, destageOldest_kept]
    | split
    | rfl

theorem beginEvict_kept (x : Nat) (waiter : Option Nat) (s : State) : kept (beginEvict x waiter s) = kept s := by
  unfold beginEvict
  repeat' first
    | with_reducible rfl
    | simp only [kept_mk, kept_eta, kept_ite, ite_self, setTag_kept, destageSecs_kept]
    | split
    | refine (kept_foldl _ _ _ fun _ _ => ?_).trans ?_
    | refine (kept_foldl_snd _ _ _ fun _ _ => ?_).trans ?_
    | rfl

theorem takeWay_kept (cls l line : Nat) (op : Option Nat) (s : State) : kept (takeWay cls l line op s).2 = kept s := by
  unfold takeWay
  repeat' first
    | with_reducible rfl
    | simp only [kept_mk, kept_eta, kept_ite, ite_self, setTag_kept, beginEvict_kept]
    | split
    | rfl

theorem relevel_kept (s : State) : kept (relevel s) = kept s := by
  unfold relevel
  repeat' first
    | with_reducible rfl
    | simp only [kept_mk, kept_eta, kept_ite, ite_self, destageAll_kept, event_kept]
    | split
    | rfl

/-! ## Machine/PairBase.lean -/

theorem propose_kept (c : JointC) (s : State) : kept (propose c s) = kept s := by
  unfold propose
  repeat' first
    | with_reducible rfl
    | simp only [kept_mk, kept_eta, kept_ite, ite_self, sendPair_kept]
    | split
    | rfl

theorem takeShare_kept (p : Nat) (r : PoolShare) (s : State) : kept (takeShare p r s) = kept s := by
  unfold takeShare
  repeat' first
    | with_reducible rfl
    | simp only [kept_mk, kept_eta, kept_ite, ite_self, updPool_kept]
    | split
    | refine (kept_foldl _ _ _ fun _ _ => ?_).trans ?_
    | refine (kept_foldl_snd _ _ _ fun _ _ => ?_).trans ?_
    | rfl

theorem poolCommit_kept (p : Nat) (s : State) : kept (poolCommit p s) = kept s := by
  unfold poolCommit
  repeat' first
    | with_reducible rfl
    | simp only [kept_mk, kept_eta, kept_ite, ite_self, ledCommit_kept, propose_kept]
    | split
    | rfl

theorem futureCommit_kept (p : Nat) (f land : State → State) (s : State) (h : ∀ s, kept (land s) = kept s) :
    kept (futureCommit p f land s) = kept s := by
  unfold futureCommit; repeat' first | rfl | simp only [h, ledCommit_kept, propose_kept] | split

theorem kickAgain_kept (s : State) : kept (kickAgain s) = kept s := by
  unfold kickAgain
  repeat' first
    | with_reducible rfl
    | simp only [kept_mk, kept_eta, kept_ite, ite_self, poolCommit_kept]
    | split
    | refine (kept_foldl _ _ _ fun _ _ => ?_).trans ?_
    | refine (kept_foldl_snd _ _ _ fun _ _ => ?_).trans ?_
    | rfl

theorem shareLost_kept (p : Nat) (s : State) : kept (shareLost p s) = kept s := by
  unfold shareLost
  repeat' first
    | with_reducible rfl
    | simp only [kept_mk, kept_eta, kept_ite, ite_self, poolCommit_kept]
    | split
    | rfl

theorem lostChanged_kept (p : Nat) (was s : State) : kept (lostChanged p was s) = kept s := by
  unfold lostChanged
  repeat' first
    | with_reducible rfl
    | simp only [kept_mk, kept_eta, kept_ite, ite_self, shareLost_kept]
    | split
    | rfl

theorem fixArbs_kept (p : Nat) (s : State) : kept (fixArbs p s) = kept s := by
  unfold fixArbs
  repeat' first
    | with_reducible rfl
    | simp only [kept_mk, kept_eta, kept_ite, ite_self, updPool_kept]
    | split
    | rfl

theorem updJq_kept (f : JointQ → JointQ) (s : State) : kept (updJq f s) = kept s := rfl

theorem startQuiesce_kept (r : SharedRec) (c : Option Nat) (s : State) : kept (startQuiesce r c s) = kept s := by
  unfold startQuiesce
  repeat' first
    | with_reducible rfl
    | simp only [kept_mk, kept_eta, kept_ite, ite_self, sendPair_kept]
    | split
    | rfl

theorem nextJoint_kept (s : State) : kept (nextJoint s) = kept s := by
  unfold nextJoint
  repeat' first
    | with_reducible rfl
    | simp only [kept_mk, kept_eta, kept_ite, ite_self, startQuiesce_kept, finishCmd_kept]
    | split
    | refine (kept_foldl _ _ _ fun _ _ => ?_).trans ?_
    | refine (kept_foldl_snd _ _ _ fun _ _ => ?_).trans ?_
    | rfl

theorem quiesceOwn_kept (s : State) : kept (quiesceOwn s) = kept s := by
  unfold quiesceOwn
  repeat' first
    | with_reducible rfl
    | simp only [kept_mk, kept_eta, kept_ite, ite_self, sendPair_kept, updJq_kept]
    | split
    | rfl

theorem kickJoint_kept (s : State) : kept (kickJoint s) = kept s := by
  unfold kickJoint
  repeat' first
    | with_reducible rfl
    | simp only [kept_mk, kept_eta, kept_ite, ite_self, quiesceOwn_kept, propose_kept, updJq_kept]
    | split
    | rfl

theorem endJoint_kept (s : State) : kept (endJoint s) = kept s := by
  unfold endJoint
  repeat' first
    | with_reducible rfl
    | simp only [kept_mk, kept_eta, kept_ite, ite_self, nextJoint_kept, placeHeld_kept, finishCmd_kept]
    | split
    | rfl

theorem jointApplied_kept (s : State) : kept (jointApplied s) = kept s := by
  unfold jointApplied
  repeat' first
    | with_reducible rfl
    | simp only [kept_mk, kept_eta, kept_ite, ite_self, endJoint_kept, sendPair_kept, updJq_kept]
    | split
    | rfl

theorem jointCommitted_kept (s : State) : kept (jointCommitted s) = kept s := by
  unfold jointCommitted
  repeat' first
    | with_reducible rfl
    | simp only [kept_mk, kept_eta, kept_ite, ite_self, updJq_kept, jointApplied_kept]
    | split
    | rfl

/-! ## Machine/Member.lean -/

theorem updMport_kept (n : Nat) (f : MPort → MPort) (s : State) : kept (updMport n f s) = kept s := rfl

theorem sendMember_kept (port : Nat) (slot : Option (Nat × Nat)) (owner : MOwner) (r : MReq) (s : State) :
    kept (sendMember port slot owner r s) = kept s := by
  unfold sendMember
  repeat' first
    | with_reducible rfl
    | simp only [kept_mk, kept_eta, kept_ite, ite_self, emitMember_kept, updMport_kept]
    | split
    | rfl

theorem joinMember_kept (p n q : Nat) (take : Bool) (s : State) : kept (joinMember p n q take s) = kept s := by
  unfold joinMember
  repeat' first
    | with_reducible rfl
    | simp only [kept_mk, kept_eta, kept_ite, ite_self, sendMember_kept]
    | split
    | rfl

theorem updInflight_kept (c k : Nat) (f : Inflight → Inflight) (s : State) : kept (updInflight c k f s) = kept s := rfl

theorem updJob_kept (c k pos : Nat) (f : Job → Job) (s : State) : kept (updJob c k pos f s) = kept s := rfl

theorem putHSec_kept (c h pos i : Nat) (f : HSec → HSec) (s : State) : kept (putHSec c h pos i f s) = kept s := rfl

theorem countCell_kept (l row pos : Nat) (write : Bool) (s : State) : kept (countCell l row pos write s) = kept s := by
  unfold countCell
  repeat' first
    | with_reducible rfl
    | simp only [kept_mk, kept_eta, kept_ite, ite_self, updPool_kept]
    | split
    | rfl

theorem markReshape_kept (op : Op) (s : State) : kept (markReshape op s) = kept s := by
  unfold markReshape
  repeat' first
    | with_reducible rfl
    | simp only [kept_mk, kept_eta, kept_ite, ite_self, updPool_kept]
    | split
    | refine (kept_foldl _ _ _ fun _ _ => ?_).trans ?_
    | refine (kept_foldl_snd _ _ _ fun _ _ => ?_).trans ?_
    | rfl

theorem markMovers_kept (op : Op) (s : State) : kept (markMovers op s) = kept s :=
  (updPool_kept _ _ _).trans (markReshape_kept _ _)

theorem startRead_kept (c k h pos : Nat) (op : Op) (first count : Nat) (s : State) :
    kept (startRead c k h pos op first count s) = kept s := by
  unfold startRead
  repeat' first
    | with_reducible rfl
    | simp only [kept_mk, kept_eta, kept_ite, ite_self, putHSec_kept, updJob_kept, sendMember_kept, countCell_kept]
    | split
    | refine (kept_foldl _ _ _ fun _ _ => ?_).trans ?_
    | refine (kept_foldl_snd _ _ _ fun _ _ => ?_).trans ?_
    | rfl

theorem startWrite_kept (c k : Nat) (hd : Handle) (pos : Nat) (op : Op) (fua : Bool) (s : State) (want : Nat → Bool := fun _ => true) :
    kept (startWrite c k hd pos op fua s want) = kept s := by
  unfold startWrite
  repeat' first
    | with_reducible rfl
    | simp only [kept_mk, kept_eta, kept_ite, ite_self, markMovers_kept, updJob_kept, sendMember_kept, countCell_kept]
    | split
    | refine (kept_foldl _ _ _ fun _ _ => ?_).trans ?_
    | refine (kept_foldl_snd _ _ _ fun _ _ => ?_).trans ?_
    | rfl

theorem kickTagJobs_kept (s : State) : kept (kickTagJobs s) = kept s := by
  unfold kickTagJobs
  repeat' first
    | with_reducible rfl
    | simp only [kept_mk, kept_eta, kept_ite, ite_self, sendMember_kept]
    | split
    | refine (kept_foldl _ _ _ fun _ _ => ?_).trans ?_
    | refine (kept_foldl_snd _ _ _ fun _ _ => ?_).trans ?_
    | rfl

theorem writeLabel_kept (l slot : Nat) (retired : Bool) (both : Bool) (s : State) :
    kept (writeLabel l slot retired both s) = kept s := by
  unfold writeLabel
  repeat' first
    | with_reducible rfl
    | simp only [kept_mk, kept_eta, kept_ite, ite_self, sendMember_kept]
    | split
    | refine (kept_foldl _ _ _ fun _ _ => ?_).trans ?_
    | refine (kept_foldl_snd _ _ _ fun _ _ => ?_).trans ?_
    | rfl

theorem labelWritten_kept (port lba l slot gen : Nat) (page : List Byte) (s : State) :
    kept (labelWritten port lba l slot gen page s) = kept s := by
  unfold labelWritten
  repeat' first
    | with_reducible rfl
    | simp only [kept_mk, kept_eta, kept_ite, ite_self, updMport_kept, poolCommit_kept, updSlot_kept]
    | split
    | rfl

theorem slotTo_kept (l slot : Nat) (st : SlotSt) (reason : Nat) (s : State) : kept (slotTo l slot st reason s) = kept s := by
  unfold slotTo
  repeat' first
    | with_reducible rfl
    | simp only [kept_mk, kept_eta, kept_ite, ite_self, updSlot_kept, event_kept, poolCommit_kept, fixArbs_kept,
        recEvent_kept]
    | split
    | rfl

theorem failOwner_kept (o : MOwner) (s : State) : kept (failOwner o s) = kept s := by
  unfold failOwner
  repeat' first
    | with_reducible rfl
    | simp only [kept_mk, kept_eta, kept_ite, ite_self, updJob_kept]
    | split
    | rfl

theorem failTags_kept (port : Nat) (s : State) : kept (failTags port s) = kept s := by
  unfold failTags
  repeat' first
    | with_reducible rfl
    | simp only [kept_mk, kept_eta, kept_ite, ite_self, updJob_kept]
    | split
    | refine (kept_foldl _ _ _ fun _ _ => ?_).trans ?_
    | refine (kept_foldl_snd _ _ _ fun _ _ => ?_).trans ?_
    | rfl

theorem failPoolTags_kept (p : Nat) (s : State) : kept (failPoolTags p s) = kept s := by
  unfold failPoolTags
  repeat' first
    | with_reducible rfl
    | simp only [kept_mk, kept_eta, kept_ite, ite_self, failTags_kept]
    | split
    | refine (kept_foldl _ _ _ fun _ _ => ?_).trans ?_
    | refine (kept_foldl_snd _ _ _ fun _ _ => ?_).trans ?_
    | rfl

theorem failPort_kept (port : Nat) (s : State) : kept (failPort port s) = kept s := by
  unfold failPort
  repeat' first
    | with_reducible rfl
    | simp only [kept_mk, kept_eta, kept_ite, ite_self, emit_kept, failOwner_kept, failTags_kept]
    | split
    | refine (kept_foldl _ _ _ fun _ _ => ?_).trans ?_
    | refine (kept_foldl_snd _ _ _ fun _ _ => ?_).trans ?_
    | rfl

theorem slotFails_kept (l slot reason : Nat) (s : State) : kept (slotFails l slot reason s) = kept s := by
  unfold slotFails
  repeat' first
    | with_reducible rfl
    | simp only [kept_mk, kept_eta, kept_ite, ite_self, slotTo_kept, updSlot_kept, updPool_kept, finishCmd_kept,
        raise_kept, failPort_kept]
    | split
    | rfl

theorem oldCopies_kept (s : State) : kept (oldCopies s) = kept s := by
  unfold oldCopies
  repeat' first
    | with_reducible rfl
    | simp only [kept_mk, kept_eta, kept_ite, ite_self]
    | split
    | rfl

theorem markRegion_kept (c l row : Nat) (s : State) : kept (markRegion c l row s) = kept s := by
  unfold markRegion
  repeat' first
    | with_reducible rfl
    | simp only [kept_mk, kept_eta, kept_ite, ite_self, oldCopies_kept]
    | split
    | rfl

theorem usePremarks_kept (c : Nat) (s : State) : kept (usePremarks c s) = kept s := by
  unfold usePremarks
  repeat' first
    | with_reducible rfl
    | simp only [kept_mk, kept_eta, kept_ite, ite_self]
    | split
    | rfl

theorem openJnl_kept (c : Nat) (op : Op) (positions : Word) (first count : Nat) (gen : Dword) (cached reloc : Bool) (s : State) :
    kept (openJnl c op positions first count gen cached reloc s).2 = kept s := by
  unfold openJnl
  repeat' first
    | with_reducible rfl
    | simp only [kept_mk, kept_eta, kept_ite, ite_self, markRegion_kept]
    | split
    | rfl

theorem retireJnl_kept (i : Nat) (s : State) : kept (retireJnl i s) = kept s := by
  unfold retireJnl
  repeat' first
    | with_reducible rfl
    | simp only [kept_mk, kept_eta, kept_ite, ite_self]
    | split
    | rfl

/-! ## Machine/Anchors.lean -/

theorem fillAnchors_kept (n : Nat) (s : State) : kept (fillAnchors n s) = kept s := by
  induction n generalizing s with
  | zero => rfl
  | succ n ih =>
    unfold fillAnchors
    try dsimp only
    repeat' first | rfl | split | exact ih _

theorem dropAnchor_kept (i : Nat) (s : State) : kept (dropAnchor i s) = kept s := by
  unfold dropAnchor
  repeat' first
    | with_reducible rfl
    | simp only [kept_mk, kept_eta, kept_ite, ite_self]
    | split
    | rfl

theorem barAnchor_kept (i : Nat) (s : State) : kept (barAnchor i s) = kept s := by
  unfold barAnchor
  repeat' first
    | with_reducible rfl
    | simp only [kept_mk, kept_eta, kept_ite, ite_self, dropAnchor_kept]
    | split
    | rfl

theorem replaceAnchors_kept (s : State) : kept (replaceAnchors s) = kept s := by
  unfold replaceAnchors
  repeat' first
    | with_reducible rfl
    | simp only [kept_mk, kept_eta, kept_ite, ite_self, fillAnchors_kept, dropAnchor_kept]
    | split
    | refine (kept_foldl _ _ _ fun _ _ => ?_).trans ?_
    | refine (kept_foldl_snd _ _ _ fun _ _ => ?_).trans ?_
    | rfl

theorem kickAnchorQ_kept (s : State) : kept (kickAnchorQ s) = kept s := by
  unfold kickAnchorQ
  repeat' first
    | with_reducible rfl
    | simp only [kept_mk, kept_eta, kept_ite, ite_self, sendMember_kept]
    | split
    | refine (kept_foldl _ _ _ fun _ _ => ?_).trans ?_
    | refine (kept_foldl_snd _ _ _ fun _ _ => ?_).trans ?_
    | rfl

theorem ckptPages_kept (i copies : Nat) (s : State) : kept (ckptPages i copies s) = kept s := by
  unfold ckptPages
  repeat' first
    | with_reducible rfl
    | simp only [kept_mk, kept_eta, kept_ite, ite_self]
    | split
    | rfl

theorem startCkpt_kept (s : State) : kept (startCkpt s) = kept s := by
  unfold startCkpt
  repeat' first
    | with_reducible rfl
    | simp only [kept_mk, kept_eta, kept_ite, ite_self, oldCopies_kept, ckptPages_kept]
    | split
    | refine (kept_foldl _ _ _ fun _ _ => ?_).trans ?_
    | refine (kept_foldl_snd _ _ _ fun _ _ => ?_).trans ?_
    | rfl

theorem ckptDone_kept (i : Nat) (good : Bool) (s : State) : kept (ckptDone i good s) = kept s := by
  unfold ckptDone
  repeat' first
    | with_reducible rfl
    | simp only [kept_mk, kept_eta, kept_ite, ite_self, dropAnchor_kept, ckptPages_kept]
    | split
    | rfl

theorem kickNewAnchors_kept (s : State) : kept (kickNewAnchors s) = kept s := by
  unfold kickNewAnchors
  repeat' first
    | with_reducible rfl
    | simp only [kept_mk, kept_eta, kept_ite, ite_self, startCkpt_kept, ckptPages_kept]
    | split
    | refine (kept_foldl _ _ _ fun _ _ => ?_).trans ?_
    | refine (kept_foldl_snd _ _ _ fun _ _ => ?_).trans ?_
    | rfl

theorem premarkEnd_kept (id i lba : Nat) (good : Bool) (s : State) : kept (premarkEnd id i lba good s) = kept s := by
  unfold premarkEnd
  repeat' first
    | with_reducible rfl
    | simp only [kept_mk, kept_eta, kept_ite, ite_self, barAnchor_kept]
    | split
    | rfl

theorem notePremark_kept (p : Premark) (s : State) : kept (notePremark p s) = kept s := by
  unfold notePremark
  repeat' first
    | with_reducible rfl
    | simp only [kept_mk, kept_eta, kept_ite, ite_self, recEvent_kept]
    | split
    | rfl

theorem notePremarks_kept (s : State) : kept (notePremarks s) = kept s := by
  unfold notePremarks
  repeat' first
    | with_reducible rfl
    | simp only [kept_mk, kept_eta, kept_ite, ite_self, notePremark_kept]
    | split
    | refine (kept_foldl _ _ _ fun _ _ => ?_).trans ?_
    | refine (kept_foldl_snd _ _ _ fun _ _ => ?_).trans ?_
    | rfl

theorem premarkTimeout_kept (c : Nat) (s : State) : kept (premarkTimeout c s) = kept s := by
  unfold premarkTimeout
  repeat' first
    | with_reducible rfl
    | simp only [kept_mk, kept_eta, kept_ite, ite_self, barAnchor_kept, timeTo_kept]
    | split
    | refine (kept_foldl _ _ _ fun _ _ => ?_).trans ?_
    | refine (kept_foldl_snd _ _ _ fun _ _ => ?_).trans ?_
    | rfl

theorem kickAnchors_kept (s : State) : kept (kickAnchors s) = kept s := by
  unfold kickAnchors
  repeat' first
    | with_reducible rfl
    | simp only [kept_mk, kept_eta, kept_ite, ite_self, kickAnchorQ_kept, notePremarks_kept, kickNewAnchors_kept,
        replaceAnchors_kept]
    | split
    | rfl

/-! ## Machine/Finish.lean -/

theorem failSecs_kept (c : Nat) (offs : List Nat) (st : BitVec 16) (s : State) : kept (failSecs c offs st s) = kept s := rfl

theorem scatter_kept (port : Nat) (l : List (Nat × Nat)) (d : List Byte) (s : State) : kept (scatter port l d s) = kept s := by
  induction l generalizing d s with
  | nil => rfl
  | cons a l ih =>
    unfold scatter
    split
    · rfl
    · exact (ih _ _).trans (emit_kept _ _)

theorem forwardOut_kept (write : Bool) (tag : Nat) (d : List Byte) (s : State) :
    kept (forwardOut write tag d s) = kept s := by
  unfold forwardOut
  repeat' first
    | with_reducible rfl
    | simp only [kept_mk, kept_eta, kept_ite, ite_self, sendPair_kept]
    | split
    | refine (kept_foldl _ _ _ fun _ _ => ?_).trans ?_
    | refine (kept_foldl_snd _ _ _ fun _ _ => ?_).trans ?_
    | rfl

theorem concludeCmd_kept (c : Nat) (s : State) : kept (concludeCmd c s) = kept s := by
  unfold concludeCmd
  repeat' first
    | with_reducible rfl
    | simp only [kept_mk, kept_eta, kept_ite, ite_self, forwardOut_kept, scatter_kept, finishCmd_kept]
    | split
    | rfl

theorem opLeft_kept (c : Nat) (s : State) : kept (opLeft c s) = kept s := by
  unfold opLeft
  repeat' first
    | with_reducible rfl
    | simp only [kept_mk, kept_eta, kept_ite, ite_self, updCmd_kept, concludeCmd_kept]
    | split
    | rfl

theorem unwait_kept (x sec : Nat) (s : State) : kept (unwait x sec s) = kept s := rfl

theorem leaveExtents_kept (op : Op) (s : State) : kept (leaveExtents op s) = kept s := by
  unfold leaveExtents
  repeat' first
    | with_reducible rfl
    | simp only [kept_mk, kept_eta, kept_ite, ite_self, dropLostE_kept, dropLostW_kept]
    | split
    | refine (kept_foldl _ _ _ fun _ _ => ?_).trans ?_
    | refine (kept_foldl_snd _ _ _ fun _ _ => ?_).trans ?_
    | rfl

theorem cleanSecs_kept (op : Op) (s : State) : kept (cleanSecs op s) = kept s := by
  unfold cleanSecs
  repeat' first
    | with_reducible rfl
    | simp only [kept_mk, kept_eta, kept_ite, ite_self, unwait_kept, makeClean_kept, settleVault_kept, sendPair_kept]
    | split
    | refine (kept_foldl _ _ _ fun _ _ => ?_).trans ?_
    | refine (kept_foldl_snd _ _ _ fun _ _ => ?_).trans ?_
    | rfl

theorem dropTransit_kept (op : Op) (s : State) : kept (dropTransit op s) = kept s := by
  unfold dropTransit
  repeat' first
    | with_reducible rfl
    | simp only [kept_mk, kept_eta, kept_ite, ite_self, dropSec_kept]
    | split
    | refine (kept_foldl _ _ _ fun _ _ => ?_).trans ?_
    | refine (kept_foldl_snd _ _ _ fun _ _ => ?_).trans ?_
    | rfl

theorem noteEvict_kept (o x : Nat) (ok : Bool) (s : State) : kept (noteEvict o x ok s) = kept s := rfl

theorem invFail_kept (op : Op) (s : State) : kept (invFail op s) = kept s := by
  unfold invFail
  repeat' first
    | with_reducible rfl
    | simp only [kept_mk, kept_eta, kept_ite, ite_self]
    | split
    | rfl

theorem keepRetry_kept (op : Op) (status : BitVec 16) (s : State) : kept (keepRetry op status s) = kept s := by
  unfold keepRetry
  repeat' first
    | with_reducible rfl
    | simp only [kept_mk, kept_eta, kept_ite, ite_self, invFail_kept]
    | split
    | rfl

theorem unmark_kept (l row ssec : Nat) (s : State) : kept (unmark l row ssec s) = kept s := rfl

theorem unmarkSpan_kept (op : Op) (s : State) : kept (unmarkSpan op s) = kept s := by
  unfold unmarkSpan
  repeat' first
    | with_reducible rfl
    | simp only [kept_mk, kept_eta, kept_ite, ite_self, unmark_kept]
    | split
    | refine (kept_foldl _ _ _ fun _ _ => ?_).trans ?_
    | refine (kept_foldl_snd _ _ _ fun _ _ => ?_).trans ?_
    | rfl

theorem noteMover_kept (o : Nat) (op : Op) (good : Bool) (s : State) : kept (noteMover o op good s) = kept s := by
  unfold noteMover
  repeat' first
    | with_reducible rfl
    | simp only [kept_mk, kept_eta, kept_ite, ite_self, updPool_kept, poolCommit_kept]
    | split
    | rfl

theorem deliverRead_kept (op : Op) (c : Nat) (secs : Tbl HSec) (s : State) : kept (deliverRead op c secs s) = kept s := by
  unfold deliverRead
  repeat' first
    | with_reducible rfl
    | simp only [kept_mk, kept_eta, kept_ite, ite_self, storeClean_kept, updCmd_kept]
    | split
    | refine (kept_foldl _ _ _ fun _ _ => ?_).trans ?_
    | refine (kept_foldl_snd _ _ _ fun _ _ => ?_).trans ?_
    | rfl

theorem dropDestage_kept (o : Nat) (s : State) : kept (dropDestage o s) = kept s := by
  unfold dropDestage
  repeat' first
    | with_reducible rfl
    | simp only [kept_mk, kept_eta, kept_ite, ite_self, freeOp_kept, noteEvict_kept]
    | split
    | rfl

theorem endOp_kept (o : Nat) (status : BitVec 16) (result : Dword) (secs : Tbl HSec) (s : State) :
    kept (endOp o status result secs s) = kept s := by
  unfold endOp
  repeat' first
    | with_reducible rfl
    | simp only [kept_mk, kept_eta, kept_ite, ite_self, deliverRead_kept, failSecs_kept, updCmd_kept, cleanSecs_kept,
        lostChanged_kept, leaveExtents_kept, unmarkSpan_kept, dropTransit_kept, keepRetry_kept, noteEvict_kept,
        noteMover_kept, freeOp_kept, opLeft_kept]
    | split
    | rfl

/-! ## Machine/Code.lean -/

theorem requestSched_kept (l : Nat) (erased : Word) (s : State) : kept (requestSched l erased s) = kept s := by
  unfold requestSched
  repeat' first
    | with_reducible rfl
    | simp only [kept_mk, kept_eta, kept_ite, ite_self]
    | split
    | rfl

/-! ## Machine/Builtin.lean -/

theorem updPatrol_kept (l : Nat) (f : Patrol → Patrol) (s : State) : kept (updPatrol l f s) = kept s := rfl

theorem queueCheck_kept (l row sl : Nat) (s : State) : kept (queueCheck l row sl s) = kept s := by
  unfold queueCheck
  repeat' first
    | with_reducible rfl
    | simp only [kept_mk, kept_eta, kept_ite, ite_self, recEvent_kept, updPatrol_kept]
    | split
    | rfl

theorem noteTagFail_kept (l row pos ssec : Nat) (s : State) : kept (noteTagFail l row pos ssec s) = kept s := by
  unfold noteTagFail
  repeat' first
    | with_reducible rfl
    | simp only [kept_mk, kept_eta, kept_ite, ite_self, updSlot_kept, raise_kept]
    | split
    | rfl

theorem startSource_kept (c key row pos ssec l : Nat) (s : State) : kept (startSource c key row pos ssec l s) = kept s := by
  unfold startSource
  repeat' first
    | with_reducible rfl
    | simp only [kept_mk, kept_eta, kept_ite, ite_self, sendMember_kept, countCell_kept, updJob_kept]
    | split
    | rfl

theorem biStart_kept (o : Nat) (s : State) : kept (biStart o s) = kept s := by
  unfold biStart
  repeat' first
    | with_reducible rfl
    | simp only [kept_mk, kept_eta, kept_ite, ite_self, updOp_kept, updCtx_kept, startSource_kept, startRead_kept]
    | split
    | refine (kept_foldl _ _ _ fun _ _ => ?_).trans ?_
    | refine (kept_foldl_snd _ _ _ fun _ _ => ?_).trans ?_
    | rfl

theorem noteVerdict_kept (op : Op) (i : Nat) (v : Verdict) (s : State) : kept (noteVerdict op i v s) = kept s := by
  unfold noteVerdict
  repeat' first
    | with_reducible rfl
    | simp only [kept_mk, kept_eta, kept_ite, ite_self, updPatrol_kept, unmark_kept, recEvent_kept, poolCommit_kept]
    | split
    | rfl

theorem noteVerdicts_kept (op : Op) (vs : List (Nat × Verdict)) (s : State) : kept (noteVerdicts op vs s) = kept s := by
  unfold noteVerdicts
  repeat' first
    | with_reducible rfl
    | simp only [kept_mk, kept_eta, kept_ite, ite_self, noteVerdict_kept, recEvent_kept, updPatrol_kept]
    | split
    | refine (kept_foldl _ _ _ fun _ _ => ?_).trans ?_
    | refine (kept_foldl_snd _ _ _ fun _ _ => ?_).trans ?_
    | rfl

theorem setMirrored_kept (idx : Nat) (s : State) : kept (setMirrored idx s) = kept s := by
  unfold setMirrored
  repeat' first
    | with_reducible rfl
    | simp only [kept_mk, kept_eta, kept_ite, ite_self]
    | split
    | rfl

theorem mirrorJnl_kept (idx : Nat) (s : State) : kept (mirrorJnl idx s).2 = kept s := by
  unfold mirrorJnl
  repeat' first
    | with_reducible rfl
    | simp only [kept_mk, kept_eta, kept_ite, ite_self, setMirrored_kept, sendPair_kept]
    | split
    | rfl

theorem closeJnl_kept (idx : Nat) (s : State) : kept (closeJnl idx s) = kept s := by
  unfold closeJnl
  repeat' first
    | with_reducible rfl
    | simp only [kept_mk, kept_eta, kept_ite, ite_self, retireJnl_kept, sendPair_kept]
    | split
    | rfl

theorem resyncNext_kept (l row : Nat) (s : State) : kept (resyncNext l row s) = kept s := by
  unfold resyncNext
  repeat' first
    | with_reducible rfl
    | simp only [kept_mk, kept_eta, kept_ite, ite_self]
    | split
    | rfl

theorem pauseSeal_kept (l : Nat) (s : State) : kept (pauseSeal l s) = kept s := by
  unfold pauseSeal
  repeat' first
    | with_reducible rfl
    | simp only [kept_mk, kept_eta, kept_ite, ite_self, recEvent_kept, updPool_kept]
    | split
    | rfl

theorem dropSlice_kept (op : Op) (s : State) : kept (dropSlice op s) = kept s := by
  unfold dropSlice
  repeat' first
    | with_reducible rfl
    | simp only [kept_mk, kept_eta, kept_ite, ite_self, dropDestage_kept, unwait_kept, dropSec_kept, settleVault_kept,
        lostChanged_kept, dropLostE_kept, dropLostW_kept]
    | split
    | refine (kept_foldl _ _ _ fun _ _ => ?_).trans ?_
    | refine (kept_foldl_snd _ _ _ fun _ _ => ?_).trans ?_
    | rfl

theorem unmarkEncoded_kept (op : Op) (s : State) : kept (unmarkEncoded op s) = kept s := by
  unfold unmarkEncoded
  repeat' first
    | with_reducible rfl
    | simp only [kept_mk, kept_eta, kept_ite, ite_self, unmark_kept]
    | split
    | refine (kept_foldl _ _ _ fun _ _ => ?_).trans ?_
    | refine (kept_foldl_snd _ _ _ fun _ _ => ?_).trans ?_
    | rfl

theorem biEnd_kept (o : Nat) (op : Op) (r : BiRes) (s : State) : kept (biEnd o op r s) = kept s := by
  unfold biEnd
  repeat' first
    | with_reducible rfl
    | simp only [kept_mk, kept_eta, kept_ite, ite_self, noteVerdicts_kept, endOp_kept, pauseSeal_kept, closeJnl_kept,
        unmarkEncoded_kept, resyncNext_kept, dropSlice_kept, queueCheck_kept]
    | split
    | rfl

theorem biLose_kept (op : Op) (r : BiRes) (s : State) : kept (biLose op r s) = kept s := by
  unfold biLose
  repeat' first
    | with_reducible rfl
    | simp only [kept_mk, kept_eta, kept_ite, ite_self, lostChanged_kept, addLostE_kept]
    | split
    | refine (kept_foldl _ _ _ fun _ _ => ?_).trans ?_
    | refine (kept_foldl_snd _ _ _ fun _ _ => ?_).trans ?_
    | rfl

theorem noteBadTags_kept (op : Op) (hd : Handle) (s : State) : kept (noteBadTags op hd s) = kept s := by
  unfold noteBadTags
  repeat' first
    | with_reducible rfl
    | simp only [kept_mk, kept_eta, kept_ite, ite_self, queueCheck_kept, noteTagFail_kept]
    | split
    | refine (kept_foldl _ _ _ fun _ _ => ?_).trans ?_
    | refine (kept_foldl_snd _ _ _ fun _ _ => ?_).trans ?_
    | rfl

theorem redoAsRebuild_kept (o c : Nat) (op : Op) (hd : Handle) (s : State) : kept (redoAsRebuild o c op hd s) = kept s := by
  unfold redoAsRebuild
  repeat' first
    | with_reducible rfl
    | simp only [kept_mk, kept_eta, kept_ite, ite_self, updOp_kept, updCtx_kept, startRead_kept]
    | split
    | refine (kept_foldl _ _ _ fun _ _ => ?_).trans ?_
    | refine (kept_foldl_snd _ _ _ fun _ _ => ?_).trans ?_
    | rfl

theorem biAdvance_kept (o : Nat) (s : State) : kept (biAdvance o s) = kept s := by
  unfold biAdvance
  repeat' first
    | with_reducible rfl
    | simp only [kept_mk, kept_eta, kept_ite, ite_self, redoAsRebuild_kept, noteBadTags_kept, endOp_kept,
        queueCheck_kept, biEnd_kept, biLose_kept, openJnl_kept, mirrorJnl_kept, updOp_kept, updCtx_kept,
        usePremarks_kept, sendMember_kept, markMovers_kept, countCell_kept, updJob_kept, startWrite_kept, closeJnl_kept]
    | split
    | refine (kept_foldl _ _ _ fun _ _ => ?_).trans ?_
    | refine (kept_foldl_snd _ _ _ fun _ _ => ?_).trans ?_
    | rfl

theorem biAll_kept (s : State) : kept (biAll s) = kept s := by
  unfold biAll
  repeat' first
    | with_reducible rfl
    | simp only [kept_mk, kept_eta, kept_ite, ite_self, biAdvance_kept]
    | split
    | refine (kept_foldl _ _ _ fun _ _ => ?_).trans ?_
    | refine (kept_foldl_snd _ _ _ fun _ _ => ?_).trans ?_
    | rfl

/-! ## Machine/Stage4.lean -/

theorem fenceEntry_kept (routine : Bool) (i : Nat) (s : State) : kept (fenceEntry routine i s) = kept s := by
  unfold fenceEntry
  repeat' first
    | with_reducible rfl
    | simp only [kept_mk, kept_eta, kept_ite, ite_self]
    | split
    | rfl

theorem startB0_kept (op : Op) (s : State) : kept (startB0 op s).2 = kept s := by
  unfold startB0
  repeat' first
    | with_reducible rfl
    | simp only [kept_mk, kept_eta, kept_ite, ite_self]
    | split
    | refine (kept_foldl _ _ _ fun _ _ => ?_).trans ?_
    | refine (kept_foldl_snd _ _ _ fun _ _ => ?_).trans ?_
    | rfl

theorem startProgram_kept (o c : Nat) (op : Op) (er : Word) (routine : Bool) (idx : Nat) (e : Word × Word) (staging : Nat) (s : State) :
    kept (startProgram o c op er routine idx e staging s) = kept s := by
  unfold startProgram
  repeat' first
    | with_reducible rfl
    | simp only [kept_mk, kept_eta, kept_ite, ite_self, startB0_kept]
    | split
    | rfl

theorem splitSingle_kept (o : Nat) (op : Op) (s : State) : kept (splitSingle o op s) = kept s := by
  unfold splitSingle
  repeat' first
    | with_reducible rfl
    | simp only [kept_mk, kept_eta, kept_ite, ite_self, newOp_kept, queueCheck_kept, endOp_kept]
    | split
    | refine (kept_foldl _ _ _ fun _ _ => ?_).trans ?_
    | refine (kept_foldl_snd _ _ _ fun _ _ => ?_).trans ?_
    | rfl

theorem keepBeyond_kept (o : Nat) (op : Op) (s : State) : kept (keepBeyond o op s) = kept s := by
  unfold keepBeyond
  repeat' first
    | with_reducible rfl
    | simp only [kept_mk, kept_eta, kept_ite, ite_self, recEvent_kept, endOp_kept]
    | split
    | rfl

theorem loseSecs_kept (o : Nat) (op : Op) (m : Word) (s : State) : kept (loseSecs o op m s) = kept s := by
  unfold loseSecs
  repeat' first
    | with_reducible rfl
    | simp only [kept_mk, kept_eta, kept_ite, ite_self, failSecs_kept, updOp_kept]
    | split
    | rfl

theorem destagePlaces_kept (ps : List (Nat × Nat)) (s : State) : kept (destagePlaces ps s) = kept s := by
  unfold destagePlaces
  repeat' first
    | with_reducible rfl
    | simp only [kept_mk, kept_eta, kept_ite, ite_self, destageSlice_kept]
    | split
    | refine (kept_foldl _ _ _ fun _ _ => ?_).trans ?_
    | refine (kept_foldl_snd _ _ _ fun _ _ => ?_).trans ?_
    | rfl

theorem invalidateSlice_kept (op : Op) (s : State) : kept (invalidateSlice op s) = kept s := by
  unfold invalidateSlice
  repeat' first
    | with_reducible rfl
    | simp only [kept_mk, kept_eta, kept_ite, ite_self, dropSec_kept]
    | split
    | refine (kept_foldl _ _ _ fun _ _ => ?_).trans ?_
    | refine (kept_foldl_snd _ _ _ fun _ _ => ?_).trans ?_
    | rfl

theorem cleanAgain_kept (o : Nat) (op : Op) (w : List (Nat × Nat) × List (Nat × Nat × Nat)) (s : State) :
    kept (cleanAgain o op w s) = kept s := by
  unfold cleanAgain
  repeat' first
    | with_reducible rfl
    | simp only [kept_mk, kept_eta, kept_ite, ite_self, destagePlaces_kept, updOp_kept, updCmd_kept]
    | split
    | rfl

theorem readSectors_kept (op : Op) (s : State) : kept (readSectors op s) = kept s := by
  unfold readSectors
  repeat' first
    | with_reducible rfl
    | simp only [kept_mk, kept_eta, kept_ite, ite_self, emit_kept]
    | split
    | refine (kept_foldl _ _ _ fun _ _ => ?_).trans ?_
    | refine (kept_foldl_snd _ _ _ fun _ _ => ?_).trans ?_
    | rfl

theorem reserve_kept (o c : Nat) (op : Op) (scratch : Nat) (go : Nat → State → State) (s : State)
    (h : ∀ n s, kept (go n s) = kept s) : kept (reserve o c op scratch go s) = kept s := by
  unfold reserve
  repeat' first
    | with_reducible rfl
    | simp only [kept_mk, kept_eta, kept_ite, ite_self, joinWait_kept, readSectors_kept, updCtx_kept, updOp_kept, h]
    | split

theorem selectStart_kept (o c : Nat) (op : Op) (er : Word) (s : State) : kept (selectStart o c op er s) = kept s := by
  unfold selectStart
  repeat' first
    | with_reducible rfl
    | refine (reserve_kept _ _ _ _ _ _ fun _ _ => ?_).trans ?_
    | simp only [kept_mk, kept_eta, kept_ite, ite_self, endOp_kept, raise_kept, fenceEntry_kept,
        startProgram_kept, invalidateSlice_kept, cleanAgain_kept]
    | split

theorem startOwn_kept (o c : Nat) (op : Op) (s : State) : kept (startOwn o c op s) = kept s := by
  unfold startOwn
  repeat' first
    | with_reducible rfl
    | simp only [kept_mk, kept_eta, kept_ite, ite_self, biStart_kept, updOp_kept]
    | split
    | refine (reserve_kept _ _ _ _ _ _ fun _ _ => ?_).trans ?_
    | rfl

theorem stage4Run_kept (o c : Nat) (op : Op) (er : Word) (s : State) : kept (stage4Run o c op er s) = kept s := by
  unfold stage4Run
  repeat' first
    | with_reducible rfl
    | simp only [kept_mk, kept_eta, kept_ite, ite_self, endOp_kept, startOwn_kept, keepBeyond_kept, splitSingle_kept,
        loseSecs_kept, selectStart_kept, updOp_kept]
    | split
    | rfl

theorem stage4_kept (o : Nat) (s : State) : kept (stage4 o s) = kept s := by
  unfold stage4
  repeat' first
    | with_reducible rfl
    | simp only [kept_mk, kept_eta, kept_ite, ite_self, stage4Run_kept]
    | split
    | rfl

theorem grantScratch_kept (s : State) : kept (grantScratch s) = kept s := by
  unfold grantScratch
  repeat' first
    | with_reducible rfl
    | simp only [kept_mk, kept_eta, kept_ite, ite_self, stage4_kept]
    | split
    | refine (kept_foldl _ _ _ fun _ _ => ?_).trans ?_
    | refine (kept_foldl_snd _ _ _ fun _ _ => ?_).trans ?_
    | rfl

theorem redispatch_kept (o c : Nat) (add : Word) (s : State) : kept (redispatch o c add s) = kept s := by
  unfold redispatch
  repeat' first
    | with_reducible rfl
    | simp only [kept_mk, kept_eta, kept_ite, ite_self, updOp_kept, dropInflight_kept, stage4_kept, updCtx_kept]
    | split
    | rfl

/-! ## Machine/Fleist.lean -/

theorem leaveOpen_kept (x : Ctx) (s : State) : kept (leaveOpen x s) = kept s := by
  unfold leaveOpen
  repeat' first
    | with_reducible rfl
    | simp only [kept_mk, kept_eta, kept_ite, ite_self]
    | split
    | rfl

theorem settleOpen_kept (x : Ctx) (s : State) : kept (settleOpen x s) = kept s := by
  unfold settleOpen
  repeat' first
    | with_reducible rfl
    | simp only [kept_mk, kept_eta, kept_ite, ite_self, closeJnl_kept, leaveOpen_kept]
    | split
    | rfl

theorem progEnd_kept (o : Nat) (status : BitVec 16) (result : Dword) (secs : Tbl HSec) (s : State) :
    kept (progEnd o status result secs s) = kept s := by
  unfold progEnd
  repeat' first
    | with_reducible rfl
    | simp only [kept_mk, kept_eta, kept_ite, ite_self, biStart_kept, updCtx_kept, dropInflight_kept, endOp_kept]
    | split
    | rfl

theorem programFault_kept (c : Nat) (x : Ctx) (code : Nat) (s : State) : kept (programFault c x code s) = kept s := by
  unfold programFault
  repeat' first
    | with_reducible rfl
    | simp only [kept_mk, kept_eta, kept_ite, ite_self, settleOpen_kept, fenceEntry_kept, endOp_kept, raiseFree_kept]
    | split
    | rfl

theorem defHandle_kept {x : Ctx} {h : Nat} {mask : Word} {first count : Nat} {s : State} {hd : Handle} {t : State}
    (e : defHandle x h mask first count s = .ok (hd, t)) : kept t = kept s := by
  unfold defHandle at e
  dsimp only at e
  repeat' split at e
  all_goals first | (injection e with e; injection e with _ e; rw [← e]; rfl) | (injection e)

theorem countTagFails_kept (op : Op) (h : Handle) (m : Word) (s : State) : kept (countTagFails op h m s) = kept s := by
  unfold countTagFails
  repeat' first
    | with_reducible rfl
    | simp only [kept_mk, kept_eta, kept_ite, ite_self, queueCheck_kept, noteTagFail_kept]
    | split
    | refine (kept_foldl _ _ _ fun _ _ => ?_).trans ?_
    | refine (kept_foldl_snd _ _ _ fun _ _ => ?_).trans ?_
    | rfl

theorem launch_kept (c : Nat) (w : Word) (f : Inflight → Inflight) (s : State) : kept (launch c w f s) = kept s := rfl

theorem goto_kept (c pc : Nat) (s : State) : kept (goto c pc s) = kept s := rfl

theorem issueLook_kept (c : Nat) (x : Ctx) (op : Op) (w : Word) (s : State) : kept (issueLook c x op w s) = kept s := by
  unfold issueLook
  repeat' first
    | with_reducible rfl
    | simp only [kept_mk, kept_eta, kept_ite, ite_self, programFault_kept, requestSched_kept, launch_kept]
    | split
    | rfl

theorem issueMrd_kept (c : Nat) (x : Ctx) (op : Op) (w : Word) (s : State) : kept (issueMrd c x op w s) = kept s := by
  unfold issueMrd
  repeat' first
    | with_reducible rfl
    | simp only [kept_mk, kept_eta, kept_ite, ite_self, programFault_kept, launch_kept, updCtx_kept, startRead_kept,
        defHandle_kept]
    | split
    | exact defHandle_kept (by assumption)
    | refine (kept_foldl _ _ _ fun _ _ => ?_).trans ?_
    | refine (kept_foldl_snd _ _ _ fun _ _ => ?_).trans ?_
    | rfl

theorem issueMwr_kept (c : Nat) (x : Ctx) (op : Op) (w : Word) (s : State) : kept (issueMwr c x op w s) = kept s := by
  unfold issueMwr
  repeat' first
    | with_reducible rfl
    | simp only [kept_mk, kept_eta, kept_ite, ite_self, programFault_kept, launch_kept, updJob_kept, startWrite_kept]
    | split
    | refine (kept_foldl _ _ _ fun _ _ => ?_).trans ?_
    | refine (kept_foldl_snd _ _ _ fun _ _ => ?_).trans ?_
    | rfl

theorem issueGmx_kept (c : Nat) (x : Ctx) (op : Op) (w : Word) (s : State) : kept (issueGmx c x op w s) = kept s := by
  unfold issueGmx
  repeat' first
    | with_reducible rfl
    | simp only [kept_mk, kept_eta, kept_ite, ite_self, programFault_kept, launch_kept, updCtx_kept, defHandle_kept]
    | split
    | exact defHandle_kept (by assumption)
    | rfl

theorem issueXor_kept (c : Nat) (x : Ctx) (_op : Op) (w : Word) (s : State) : kept (issueXor c x _op w s) = kept s := by
  unfold issueXor
  repeat' first
    | with_reducible rfl
    | simp only [kept_mk, kept_eta, kept_ite, ite_self, programFault_kept, launch_kept]
    | split
    | rfl

theorem issueTag_kept (c : Nat) (x : Ctx) (_op : Op) (w : Word) (s : State) : kept (issueTag c x _op w s) = kept s := by
  unfold issueTag
  repeat' first
    | with_reducible rfl
    | simp only [kept_mk, kept_eta, kept_ite, ite_self, launch_kept, programFault_kept]
    | split
    | rfl

theorem issueJnl_kept (c : Nat) (x : Ctx) (op : Op) (w : Word) (s : State) : kept (issueJnl c x op w s) = kept s := by
  unfold issueJnl
  repeat' first
    | with_reducible rfl
    | simp only [kept_mk, kept_eta, kept_ite, ite_self, programFault_kept, launch_kept, openJnl_kept, mirrorJnl_kept,
        updInflight_kept, updCtx_kept]
    | split
    | rfl

theorem issueJcl_kept (c : Nat) (x : Ctx) (_op : Op) (w : Word) (s : State) : kept (issueJcl c x _op w s) = kept s := by
  unfold issueJcl
  repeat' first
    | with_reducible rfl
    | simp only [kept_mk, kept_eta, kept_ite, ite_self, programFault_kept, launch_kept]
    | split
    | rfl

theorem issueBr_kept (c : Nat) (x : Ctx) (_op : Op) (w : Word) (s : State) : kept (issueBr c x _op w s) = kept s := by
  unfold issueBr
  repeat' first
    | with_reducible rfl
    | simp only [kept_mk, kept_eta, kept_ite, ite_self, goto_kept, programFault_kept]
    | split
    | rfl

theorem issueBranch_kept (onZero : Bool) (c : Nat) (x : Ctx) (_op : Op) (w : Word) (s : State) :
    kept (issueBranch onZero c x _op w s) = kept s := by
  unfold issueBranch
  repeat' first
    | with_reducible rfl
    | simp only [kept_mk, kept_eta, kept_ite, ite_self, programFault_kept, goto_kept]
    | split
    | rfl

theorem issueCall_kept (c : Nat) (x : Ctx) (_op : Op) (w : Word) (s : State) : kept (issueCall c x _op w s) = kept s := by
  unfold issueCall
  repeat' first
    | with_reducible rfl
    | simp only [kept_mk, kept_eta, kept_ite, ite_self, programFault_kept, updCtx_kept]
    | split
    | rfl

theorem issueRet_kept (c : Nat) (x : Ctx) (_op : Op) (_w : Word) (s : State) : kept (issueRet c x _op _w s) = kept s := by
  unfold issueRet
  repeat' first
    | with_reducible rfl
    | simp only [kept_mk, kept_eta, kept_ite, ite_self, programFault_kept, updCtx_kept]
    | split
    | rfl

theorem issueDone_kept (c : Nat) (x : Ctx) (op : Op) (w : Word) (s : State) : kept (issueDone c x op w s) = kept s := by
  unfold issueDone
  repeat' first
    | with_reducible rfl
    | simp only [kept_mk, kept_eta, kept_ite, ite_self, programFault_kept, queueCheck_kept, progEnd_kept]
    | split
    | rfl

theorem trapLost_kept (x : Ctx) (op : Op) (m : Word) (s : State) : kept (trapLost x op m s) = kept s := by
  unfold trapLost
  repeat' first
    | with_reducible rfl
    | simp only [kept_mk, kept_eta, kept_ite, ite_self, newOp_kept, pauseSeal_kept, lostChanged_kept, addLostE_kept,
        progEnd_kept, settleOpen_kept]
    | split
    | rfl

theorem issueTrap_kept (c : Nat) (x : Ctx) (op : Op) (w : Word) (s : State) : kept (issueTrap c x op w s) = kept s := by
  unfold issueTrap
  repeat' first
    | with_reducible rfl
    | simp only [kept_mk, kept_eta, kept_ite, ite_self, raise_kept, programFault_kept, trapLost_kept, queueCheck_kept,
        progEnd_kept, settleOpen_kept, redispatch_kept]
    | split
    | rfl

theorem issueIns_kept (c : Nat) (x : Ctx) (op : Op) (w : Word) (s : State) : kept (issueIns c x op w s) = kept s := by
  unfold issueIns
  repeat' first
    | with_reducible rfl
    | simp only [kept_mk, kept_eta, kept_ite, ite_self, issueLook_kept, issueMrd_kept, issueMwr_kept, issueGmx_kept,
        issueXor_kept, issueTag_kept, issueJnl_kept, issueJcl_kept, goto_kept, issueBr_kept, issueBranch_kept,
        issueCall_kept, issueRet_kept, issueDone_kept, issueTrap_kept]
    | split
    | rfl

theorem issue_kept (want k : Nat) (s : State) : kept (issue want k s) = kept s := by
  unfold issue
  repeat' first
    | with_reducible rfl
    | simp only [kept_mk, kept_eta, kept_ite, ite_self, programFault_kept, issueIns_kept]
    | split
    | rfl

theorem journalWriteFails_kept (idx : Nat) (s : State) : kept (journalWriteFails idx s) = kept s := by
  unfold journalWriteFails
  repeat' first
    | with_reducible rfl
    | simp only [kept_mk, kept_eta, kept_ite, ite_self, updCtx_kept, retireJnl_kept, updInflight_kept, endOp_kept]
    | split
    | rfl

theorem writeSlot_kept (c n : Nat) (v : Word) (s : State) : kept (writeSlot c n v s) = kept s := rfl

theorem endSched_kept (c n : Nat) (op : Op) (f : Inflight) (s : State) : kept (endSched c n op f s) = kept s := by
  unfold endSched
  repeat' first
    | with_reducible rfl
    | simp only [kept_mk, kept_eta, kept_ite, ite_self, writeSlot_kept, updCtx_kept, raiseFree_kept, updInflight_kept,
        requestSched_kept]
    | split
    | rfl

theorem writeResult_kept (c n : Nat) (x : Ctx) (op : Op) (f : Inflight) (s : State) :
    kept (writeResult c n x op f s) = kept s := by
  unfold writeResult
  repeat' first
    | with_reducible rfl
    | simp only [kept_mk, kept_eta, kept_ite, ite_self, updCtx_kept, endSched_kept, writeSlot_kept, countTagFails_kept,
        usePremarks_kept, closeJnl_kept]
    | split
    | rfl

theorem stageResult_kept (c n : Nat) (s : State) : kept (stageResult c n s) = kept s := by
  unfold stageResult
  repeat' first
    | with_reducible rfl
    | simp only [kept_mk, kept_eta, kept_ite, ite_self, writeResult_kept]
    | split
    | rfl

theorem leaveReads_kept (c n pos : Nat) (s : State) : kept (leaveReads c n pos s) = kept s := by
  unfold leaveReads
  repeat' first
    | with_reducible rfl
    | simp only [kept_mk, kept_eta, kept_ite, ite_self]
    | split
    | rfl

theorem lateReport_kept (c n pos : Nat) (s : State) : kept (lateReport c n pos s) = kept s := by
  unfold lateReport
  repeat' first
    | with_reducible rfl
    | simp only [kept_mk, kept_eta, kept_ite, ite_self, leaveReads_kept, updJob_kept, timeTo_kept]
    | split
    | rfl

/-! ## Machine/Rings.lean -/

theorem readEntry_kept (r : Nat) (i : Dword) (s : State) : kept (readEntry r i s) = kept s := by
  unfold readEntry
  repeat' first
    | with_reducible rfl
    | simp only [kept_mk, kept_eta, kept_ite, ite_self, emit_kept, setRing_kept]
    | split
    | rfl

theorem fetchRing_kept (r : Nat) (s : State) : kept (fetchRing r s) = kept s := by
  unfold fetchRing
  repeat' first
    | with_reducible rfl
    | simp only [kept_mk, kept_eta, kept_ite, ite_self, readEntry_kept]
    | split
    | refine (kept_foldl _ _ _ fun _ _ => ?_).trans ?_
    | refine (kept_foldl_snd _ _ _ fun _ _ => ?_).trans ?_
    | rfl

theorem kickRing_kept (r : Nat) (s : State) : kept (kickRing r s) = kept s := by
  unfold kickRing
  repeat' first
    | with_reducible rfl
    | simp only [kept_mk, kept_eta, kept_ite, ite_self, fetchRing_kept]
    | split
    | rfl

theorem kickFetch_kept (s : State) : kept (kickFetch s) = kept s := by
  unfold kickFetch
  repeat' first
    | with_reducible rfl
    | simp only [kept_mk, kept_eta, kept_ite, ite_self, kickRing_kept]
    | split
    | refine (kept_foldl _ _ _ fun _ _ => ?_).trans ?_
    | refine (kept_foldl_snd _ _ _ fun _ _ => ?_).trans ?_
    | rfl

theorem ringError_kept (r cause src : Nat) (s : State) : kept (ringError r cause src s) = kept s := by
  unfold ringError
  repeat' first
    | with_reducible rfl
    | simp only [kept_mk, kept_eta, kept_ite, ite_self, updRing_kept, updPort_kept, event_kept, raise_kept]
    | split
    | rfl

theorem countStale_kept (p : Nat) (s : State) : kept (countStale p s) = kept s := by
  unfold countStale
  repeat' first
    | with_reducible rfl
    | simp only [kept_mk, kept_eta, kept_ite, ite_self, updPort_kept]
    | split
    | rfl

theorem countDbError_kept (p : Nat) (s : State) : kept (countDbError p s) = kept s := by
  unfold countDbError
  repeat' first
    | with_reducible rfl
    | simp only [kept_mk, kept_eta, kept_ite, ite_self, updPort_kept]
    | split
    | rfl

theorem applyTail_kept (p r : Nat) (t : Dword) (cause : Nat) (s : State) : kept (applyTail p r t cause s) = kept s := by
  unfold applyTail
  repeat' first
    | with_reducible rfl
    | simp only [kept_mk, kept_eta, kept_ite, ite_self, countStale_kept, ringError_kept, countDbError_kept,
        kickRing_kept, setRing_kept]
    | split
    | rfl

theorem sqDoorbell_kept (p r : Nat) (w : DbWidth) (v : Word) (s : State) : kept (sqDoorbell p r w v s) = kept s := by
  unfold sqDoorbell
  repeat' first
    | with_reducible rfl
    | simp only [kept_mk, kept_eta, kept_ite, ite_self, applyTail_kept, countDbError_kept]
    | split
    | rfl

theorem loseStashed_kept (r : Nat) (s : State) : kept (loseStashed r s) = kept s := by
  unfold loseStashed
  repeat' first
    | with_reducible rfl
    | simp only [kept_mk, kept_eta, kept_ite, ite_self, updRing_kept, updPort_kept, event_kept, raise_kept]
    | split
    | rfl

theorem stashLost_kept (c : Cqe) (s : State) : kept (stashLost c s).2 = kept s := by
  unfold stashLost
  repeat' first
    | with_reducible rfl
    | simp only [kept_mk, kept_eta, kept_ite, ite_self, nextFree_kept]
    | split
    | rfl

theorem drainStash_kept (n r : Nat) (s : State) : kept (drainStash n r s) = kept s := by
  induction n generalizing s with
  | zero => rfl
  | succ n ih =>
    unfold drainStash
    repeat' first
      | with_reducible rfl
      | simp only [kept_mk, kept_eta, kept_ite, ite_self, ih, writeCqe_kept, setRing_kept, stashLost_kept, loseStashed_kept]
      | split
      | rfl

theorem applyHead_kept (p r : Nat) (h : Dword) (s : State) : kept (applyHead p r h s) = kept s := by
  unfold applyHead
  repeat' first
    | with_reducible rfl
    | simp only [kept_mk, kept_eta, kept_ite, ite_self, setRing_kept, drainStash_kept, deliverEvents_kept,
        countStale_kept, ringError_kept, countDbError_kept]
    | split
    | rfl

theorem cqDoorbell_kept (p r : Nat) (w : DbWidth) (v : Word) (s : State) : kept (cqDoorbell p r w v s) = kept s := by
  unfold cqDoorbell
  repeat' first
    | with_reducible rfl
    | simp only [kept_mk, kept_eta, kept_ite, ite_self, applyHead_kept, countDbError_kept]
    | split
    | rfl

theorem countDiscard_kept (p : Nat) (s : State) : kept (countDiscard p s) = kept s := by
  unfold countDiscard
  repeat' first
    | with_reducible rfl
    | simp only [kept_mk, kept_eta, kept_ite, ite_self, updPort_kept]
    | split
    | rfl

theorem pushWrite_kept (p off : Nat) (data : List Byte) (s : State) : kept (pushWrite p off data s) = kept s := by
  unfold pushWrite
  repeat' first
    | with_reducible rfl
    | simp only [kept_mk, kept_eta, kept_ite, ite_self, countDiscard_kept, updPort_kept, setRing_kept, applyTail_kept]
    | split
    | rfl

theorem endDrain_kept (r : Nat) (s : State) : kept (endDrain r s) = kept s := by
  unfold endDrain
  repeat' first
    | with_reducible rfl
    | simp only [kept_mk, kept_eta, kept_ite, ite_self, setRing_kept]
    | split
    | rfl

theorem startDrain_kept (r : Nat) (dest : RingSt) (s : State) : kept (startDrain r dest s) = kept s := by
  unfold startDrain
  repeat' first
    | with_reducible rfl
    | simp only [kept_mk, kept_eta, kept_ite, ite_self, setRing_kept, kickRing_kept]
    | split
    | rfl

theorem stashToPending_kept (p : Nat) (q : List Cqe) (s : State) : kept (stashToPending p q s) = kept s := by
  unfold stashToPending
  repeat' first
    | with_reducible rfl
    | simp only [kept_mk, kept_eta, kept_ite, ite_self, updPort_kept]
    | split
    | refine (kept_foldl _ _ _ fun _ _ => ?_).trans ?_
    | refine (kept_foldl_snd _ _ _ fun _ _ => ?_).trans ?_
    | rfl

theorem dropCompletion_kept (r : Nat) (dest : RingSt) (s : State) : kept (dropCompletion r dest s).2 = kept s := by
  unfold dropCompletion
  repeat' first
    | with_reducible rfl
    | simp only [kept_mk, kept_eta, kept_ite, ite_self, stashToPending_kept, updPort_kept, setRing_kept]
    | split
    | rfl

theorem createRing_kept (p r : Nat) (d : List Byte) (s : State) : kept (createRing p r d s) = kept s := by
  unfold createRing
  repeat' first
    | with_reducible rfl
    | simp only [kept_mk, kept_eta, kept_ite, ite_self, setRing_kept, deliverEvents_kept, updPort_kept]
    | split
    | rfl

theorem createAdmin_kept (p : Nat) (s : State) : kept (createAdmin p s) = kept s := by
  unfold createAdmin
  repeat' first
    | with_reducible rfl
    | simp only [kept_mk, kept_eta, kept_ite, ite_self, setPort_kept, setRing_kept]
    | split
    | rfl

theorem adminCtlWrite_kept (p : Nat) (w : Word) (s : State) : kept (adminCtlWrite p w s) = kept s := by
  unfold adminCtlWrite
  repeat' first
    | with_reducible rfl
    | simp only [kept_mk, kept_eta, kept_ite, ite_self, createAdmin_kept, setPort_kept, startDrain_kept]
    | split
    | rfl

theorem endAdminDrain_kept (p : Nat) (s : State) : kept (endAdminDrain p s) = kept s := by
  unfold endAdminDrain
  repeat' first
    | with_reducible rfl
    | simp only [kept_mk, kept_eta, kept_ite, ite_self, dropCompletion_kept, updPort_kept]
    | split
    | rfl

theorem coalesce_kept (r : Nat) (s : State) : kept (coalesce r s) = kept s := by
  unfold coalesce
  repeat' first
    | with_reducible rfl
    | simp only [kept_mk, kept_eta, kept_ite, ite_self, signal_kept, setRing_kept]
    | split
    | rfl

theorem unmaskVector_kept (p n : Nat) (s : State) : kept (unmaskVector p n s) = kept s := by
  unfold unmaskVector
  repeat' first
    | with_reducible rfl
    | simp only [kept_mk, kept_eta, kept_ite, ite_self, setPort_kept, emit_kept]
    | split
    | rfl

theorem flrPort_kept (p : Nat) (s : State) : kept (flrPort p s) = kept s := by
  unfold flrPort
  repeat' first
    | with_reducible rfl
    | simp only [kept_mk, kept_eta, kept_ite, ite_self, stashToPending_kept, updPort_kept]
    | split
    | rfl

theorem entriesArrive_kept (r : Nat) (c : Dword) (es : List (List Byte)) (s : State) :
    kept (entriesArrive r c es s) = kept s := by
  unfold entriesArrive
  repeat' first
    | with_reducible rfl
    | simp only [kept_mk, kept_eta, kept_ite, ite_self, updRing_kept]
    | split
    | refine (kept_foldl _ _ _ fun _ _ => ?_).trans ?_
    | refine (kept_foldl_snd _ _ _ fun _ _ => ?_).trans ?_
    | rfl

theorem entriesFail_kept (r : Nat) (c : Dword) (s : State) : kept (entriesFail r c s) = kept s := by
  unfold entriesFail
  repeat' first
    | with_reducible rfl
    | simp only [kept_mk, kept_eta, kept_ite, ite_self, setRing_kept, raise_kept, ringError_kept]
    | split
    | rfl

/-! ## Machine/Movers.lean -/

theorem setReloc_kept (l e p : Nat) (r : Reloc) (s : State) : kept (setReloc l e p r s) = kept s := rfl

theorem moveCell_kept (l e p reason : Nat) (s : State) : kept (moveCell l e p reason s).2 = kept s := by
  unfold moveCell
  repeat' first
    | with_reducible rfl
    | simp only [kept_mk, kept_eta, kept_ite, ite_self, setReloc_kept]
    | split
    | rfl

theorem leaveErased_kept (l slot e p : Nat) (s : State) : kept (leaveErased l slot e p s) = kept s := by
  unfold leaveErased
  repeat' first
    | with_reducible rfl
    | simp only [kept_mk, kept_eta, kept_ite, ite_self, updPool_kept, recEvent_kept]
    | split
    | rfl

theorem startRebuild_kept (l slot : Nat) (s : State) : kept (startRebuild l slot s) = kept s := by
  unfold startRebuild
  repeat' first
    | with_reducible rfl
    | simp only [kept_mk, kept_eta, kept_ite, ite_self, setReloc_kept, moveCell_kept, leaveErased_kept]
    | split
    | refine (kept_foldl _ _ _ fun _ _ => ?_).trans ?_
    | refine (kept_foldl_snd _ _ _ fun _ _ => ?_).trans ?_
    | rfl

theorem noteShort_kept (l slot short : Nat) (s : State) : kept (noteShort l slot short s) = kept s := by
  unfold noteShort
  repeat' first
    | with_reducible rfl
    | simp only [kept_mk, kept_eta, kept_ite, ite_self, recEvent_kept]
    | split
    | rfl

theorem startRetire_kept (l slot : Nat) (s : State) : kept (startRetire l slot s) = kept s := by
  unfold startRetire
  repeat' first
    | with_reducible rfl
    | simp only [kept_mk, kept_eta, kept_ite, ite_self, moveCell_kept, noteShort_kept]
    | split
    | refine (kept_foldl _ _ _ fun _ _ => ?_).trans ?_
    | refine (kept_foldl_snd _ _ _ fun _ _ => ?_).trans ?_
    | rfl

theorem copyBack_kept (l e p : Nat) (s : State) : kept (copyBack l e p s) = kept s := by
  unfold copyBack
  repeat' first
    | with_reducible rfl
    | simp only [kept_mk, kept_eta, kept_ite, ite_self, setReloc_kept]
    | split
    | rfl

theorem startCopyBack_kept (l slot : Nat) (s : State) : kept (startCopyBack l slot s) = kept s := by
  unfold startCopyBack
  repeat' first
    | with_reducible rfl
    | simp only [kept_mk, kept_eta, kept_ite, ite_self, copyBack_kept, setReloc_kept]
    | split
    | refine (kept_foldl _ _ _ fun _ _ => ?_).trans ?_
    | refine (kept_foldl_snd _ _ _ fun _ _ => ?_).trans ?_
    | rfl

theorem startVoluntary_kept (l slot reason : Nat) (s : State) : kept (startVoluntary l slot reason s) = kept s := by
  unfold startVoluntary
  repeat' first
    | with_reducible rfl
    | simp only [kept_mk, kept_eta, kept_ite, ite_self, moveCell_kept]
    | split
    | rfl

theorem voluntaryDue_kept (p n : Nat) (s : State) : kept (voluntaryDue p n s) = kept s := by
  unfold voluntaryDue
  repeat' first
    | with_reducible rfl
    | simp only [kept_mk, kept_eta, kept_ite, ite_self, startVoluntary_kept]
    | split
    | rfl

theorem kickVoluntary_kept (l : Nat) (s : State) : kept (kickVoluntary l s) = kept s := by
  unfold kickVoluntary
  repeat' first
    | with_reducible rfl
    | simp only [kept_mk, kept_eta, kept_ite, ite_self, updPool_kept, voluntaryDue_kept]
    | split
    | refine (kept_foldl _ _ _ fun _ _ => ?_).trans ?_
    | refine (kept_foldl_snd _ _ _ fun _ _ => ?_).trans ?_
    | rfl

theorem rowOf_kept (l row : Nat) (kind : Nat) (rebuild : Word) (why : Why) (s : State) :
    kept (rowOf l row kind rebuild why s) = kept s := by
  unfold rowOf
  repeat' first
    | with_reducible rfl
    | simp only [kept_mk, kept_eta, kept_ite, ite_self, newOp_kept]
    | split
    | refine (kept_foldl _ _ _ fun _ _ => ?_).trans ?_
    | refine (kept_foldl_snd _ _ _ fun _ _ => ?_).trans ?_
    | rfl

theorem kickCell_kept (n : Nat) (onward : Bool) (l e p : Nat) (s : State) : kept (kickCell n onward l e p s) = kept s := by
  induction n generalizing s with
  | zero => rfl
  | succ n ih =>
    unfold kickCell
    repeat' first
      | with_reducible rfl
      | simp only [kept_mk, kept_eta, kept_ite, ite_self, ih, rowOf_kept, setReloc_kept]
      | split
      | rfl

theorem kickWalk_kept (n l slot : Nat) (s : State) : kept (kickWalk n l slot s) = kept s := by
  induction n generalizing s with
  | zero => rfl
  | succ n ih =>
    unfold kickWalk
    repeat' first
      | rfl
      | simp only [ih, rowOf_kept, updPool_kept]
      | split
      | refine (kept_foldl _ _ _ fun _ _ => ?_).trans ?_

theorem recordPatrol_kept (l : Nat) (s : State) : kept (recordPatrol l s) = kept s := by
  unfold recordPatrol
  repeat' first
    | with_reducible rfl
    | simp only [kept_mk, kept_eta, kept_ite, ite_self, updPatrol_kept]
    | split
    | rfl

theorem savePatrol_kept (l : Nat) (s : State) : kept (savePatrol l s) = kept s := by
  unfold savePatrol
  repeat' first
    | with_reducible rfl
    | simp only [kept_mk, kept_eta, kept_ite, ite_self, poolCommit_kept, recordPatrol_kept]
    | split
    | rfl

theorem beginPass_kept (l : Nat) (s : State) : kept (beginPass l s) = kept s := by
  unfold beginPass
  repeat' first
    | with_reducible rfl
    | simp only [kept_mk, kept_eta, kept_ite, ite_self, updPatrol_kept]
    | split
    | rfl

theorem startPass_kept (l : Nat) (s : State) : kept (startPass l s) = kept s := by
  unfold startPass
  repeat' first
    | with_reducible rfl
    | simp only [kept_mk, kept_eta, kept_ite, ite_self, beginPass_kept, savePatrol_kept]
    | split
    | rfl

theorem endPass_kept (l : Nat) (s : State) : kept (endPass l s) = kept s := by
  unfold endPass
  repeat' first
    | with_reducible rfl
    | simp only [kept_mk, kept_eta, kept_ite, ite_self, savePatrol_kept, updPatrol_kept, startPass_kept]
    | split
    | rfl

theorem setPatrol_kept (l st : Nat) (s : State) : kept (setPatrol l st s) = kept s := by
  unfold setPatrol
  repeat' first
    | with_reducible rfl
    | simp only [kept_mk, kept_eta, kept_ite, ite_self, savePatrol_kept, updPatrol_kept]
    | split
    | rfl

theorem kickPatrol_kept (l : Nat) (s : State) : kept (kickPatrol l s) = kept s := by
  unfold kickPatrol
  repeat' first
    | with_reducible rfl
    | simp only [kept_mk, kept_eta, kept_ite, ite_self, setPatrol_kept, startPass_kept, endPass_kept, updPatrol_kept,
        newOp_kept]
    | split
    | rfl

theorem moveChecks_kept (s : State) : kept (moveChecks s) = kept s := by
  unfold moveChecks
  repeat' first
    | with_reducible rfl
    | simp only [kept_mk, kept_eta, kept_ite, ite_self, queueCheck_kept]
    | split
    | refine (kept_foldl _ _ _ fun _ _ => ?_).trans ?_
    | refine (kept_foldl_snd _ _ _ fun _ _ => ?_).trans ?_
    | rfl

theorem kickCheck_kept (s : State) : kept (kickCheck s) = kept s := by
  unfold kickCheck
  repeat' first
    | with_reducible rfl
    | simp only [kept_mk, kept_eta, kept_ite, ite_self, moveChecks_kept, newOp_kept]
    | split
    | rfl

theorem kickReplay_kept (s : State) : kept (kickReplay s) = kept s := by
  unfold kickReplay
  repeat' first
    | with_reducible rfl
    | simp only [kept_mk, kept_eta, kept_ite, ite_self, newOp_kept]
    | split
    | refine (kept_foldl _ _ _ fun _ _ => ?_).trans ?_
    | refine (kept_foldl_snd _ _ _ fun _ _ => ?_).trans ?_
    | rfl

theorem kickResync_kept (s : State) : kept (kickResync s) = kept s := by
  unfold kickResync
  repeat' first
    | with_reducible rfl
    | simp only [kept_mk, kept_eta, kept_ite, ite_self, rowOf_kept]
    | split
    | refine (kept_foldl _ _ _ fun _ _ => ?_).trans ?_
    | refine (kept_foldl_snd _ _ _ fun _ _ => ?_).trans ?_
    | rfl

theorem adoptEntry_kept (b : List Byte) (s : State) : kept (adoptEntry b s) = kept s := by
  unfold adoptEntry
  repeat' first
    | with_reducible rfl
    | simp only [kept_mk, kept_eta, kept_ite, ite_self]
    | split
    | rfl

theorem adoptRegions_kept (p : Nat) (data : List Byte) (s : State) : kept (adoptRegions p data s) = kept s := rfl

theorem endRestore_kept (s : State) : kept (endRestore s) = kept s := by
  unfold endRestore
  repeat' first
    | with_reducible rfl
    | simp only [kept_mk, kept_eta, kept_ite, ite_self, fillAnchors_kept]
    | split
    | rfl

theorem takeCkpt_kept (c : CkptHdr) (s : State) : kept (takeCkpt c s) = kept s := by
  unfold takeCkpt
  repeat' first
    | with_reducible rfl
    | simp only [kept_mk, kept_eta, kept_ite, ite_self, adoptEntry_kept, adoptRegions_kept, endRestore_kept,
        recEvent_kept]
    | split
    | refine (kept_foldl _ _ _ fun _ _ => ?_).trans ?_
    | refine (kept_foldl_snd _ _ _ fun _ _ => ?_).trans ?_
    | rfl

theorem readCkpt_kept (s : State) : kept (readCkpt s) = kept s := by
  unfold readCkpt
  repeat' first
    | with_reducible rfl
    | simp only [kept_mk, kept_eta, kept_ite, ite_self, endRestore_kept, sendMember_kept]
    | split
    | refine (kept_foldl _ _ _ fun _ _ => ?_).trans ?_
    | refine (kept_foldl_snd _ _ _ fun _ _ => ?_).trans ?_
    | rfl

theorem kickRestore_kept (s : State) : kept (kickRestore s) = kept s := by
  unfold kickRestore
  repeat' first
    | with_reducible rfl
    | simp only [kept_mk, kept_eta, kept_ite, ite_self, readCkpt_kept, takeCkpt_kept]
    | split
    | rfl

theorem beginWalk_kept (p : Nat) (s : State) : kept (beginWalk p s) = kept s := by
  unfold beginWalk
  repeat' first
    | with_reducible rfl
    | simp only [kept_mk, kept_eta, kept_ite, ite_self, updPatrol_kept, updPool_kept, poolCommit_kept]
    | split
    | rfl

theorem kickReshape_kept (p : Nat) (s : State) : kept (kickReshape p s) = kept s := by
  unfold kickReshape
  dsimp only
  generalize hs : (if (!(addedSlots p s).isEmpty && _) = true then beginWalk p s else s) = s1
  have hk : kept s1 = kept s := by
    rw [← hs]; split <;> first | exact beginWalk_kept _ _ | rfl
  rw [← hk]; clear hs hk
  repeat' first
    | with_reducible rfl
    | simp only [kept_mk, kept_eta, kept_ite, ite_self, rowOf_kept, updPool_kept, destageSlice_kept]
    | split
    | refine (kept_foldl _ _ _ fun _ _ => ?_).trans ?_
    | rfl

theorem kickVault_kept (s : State) : kept (kickVault s) = kept s := by
  unfold kickVault
  repeat' first
    | with_reducible rfl
    | simp only [kept_mk, kept_eta, kept_ite, ite_self, newOp_kept]
    | split
    | refine (kept_foldl _ _ _ fun _ _ => ?_).trans ?_
    | refine (kept_foldl_snd _ _ _ fun _ _ => ?_).trans ?_
    | rfl

theorem kickLabels_kept (l : Nat) (s : State) : kept (kickLabels l s) = kept s := by
  unfold kickLabels
  repeat' first
    | with_reducible rfl
    | simp only [kept_mk, kept_eta, kept_ite, ite_self, writeLabel_kept]
    | split
    | refine (kept_foldl _ _ _ fun _ _ => ?_).trans ?_
    | refine (kept_foldl_snd _ _ _ fun _ _ => ?_).trans ?_
    | rfl

theorem resumeSeals_kept (s : State) : kept (resumeSeals s) = kept s := by
  unfold resumeSeals
  repeat' first
    | with_reducible rfl
    | simp only [kept_mk, kept_eta, kept_ite, ite_self, updPool_kept]
    | split
    | refine (kept_foldl _ _ _ fun _ _ => ?_).trans ?_
    | refine (kept_foldl_snd _ _ _ fun _ _ => ?_).trans ?_
    | rfl

theorem kickMovers_kept (s : State) : kept (kickMovers s) = kept s := by
  unfold kickMovers
  repeat' first
    | with_reducible rfl
    | simp only [kept_mk, kept_eta, kept_ite, ite_self, kickVault_kept, kickCheck_kept, kickResync_kept,
        kickReplay_kept, resumeSeals_kept, kickVoluntary_kept, kickLabels_kept, kickCell_kept, kickWalk_kept,
        kickReshape_kept, kickPatrol_kept]
    | split
    | refine (kept_foldl _ _ _ fun _ _ => ?_).trans ?_
    | refine (kept_foldl_snd _ _ _ fun _ _ => ?_).trans ?_
    | rfl

/-! ## Machine/Serve.lean -/

theorem acceptOps_kept (c : Nat) (ops : List Op) (s : State) : kept (acceptOps c ops s) = kept s := by
  unfold acceptOps
  repeat' first
    | with_reducible rfl
    | simp only [kept_mk, kept_eta, kept_ite, ite_self, newOp_kept, updCmd_kept]
    | split
    | refine (kept_foldl _ _ _ fun _ _ => ?_).trans ?_
    | refine (kept_foldl_snd _ _ _ fun _ _ => ?_).trans ?_
    | rfl

theorem attach_kept (x : Nat) (s : State) : kept (attach x s) = kept s := rfl

theorem takeWays_kept (o : Nat) (keys : List Nat) (s : State) : kept (takeWays o keys s).2 = kept s := by
  unfold takeWays
  repeat' first
    | with_reducible rfl
    | simp only [kept_mk, kept_eta, kept_ite, ite_self, attach_kept, updOp_kept, takeWay_kept]
    | split
    | refine (kept_foldl _ _ _ fun _ _ => ?_).trans ?_
    | refine (kept_foldl_snd _ _ _ fun _ _ => ?_).trans ?_
    | rfl

theorem waitAlloc_kept (o : Nat) (s : State) : kept (waitAlloc o s) = kept s := rfl

theorem probeRead_kept (o : Nat) (s : State) : kept (probeRead o s) = kept s := by
  unfold probeRead
  repeat' first
    | with_reducible rfl
    | simp only [kept_mk, kept_eta, kept_ite, ite_self, takeWays_kept, waitAlloc_kept]
    | split
    | rfl

theorem serveHit_kept (op : Op) (c k x sec : Nat) (s : State) : kept (serveHit op c k x sec s) = kept s := by
  unfold serveHit
  repeat' first
    | with_reducible rfl
    | simp only [kept_mk, kept_eta, kept_ite, ite_self, attach_kept, updCmd_kept, touch_kept]
    | split
    | rfl

theorem serveRead_kept (o : Nat) (s : State) : kept (serveRead o s) = kept s := by
  unfold serveRead
  repeat' first
    | with_reducible rfl
    | simp only [kept_mk, kept_eta, kept_ite, ite_self, serveHit_kept, updCmd_kept, failSecs_kept, updOp_kept,
        endOp_kept]
    | split
    | refine (kept_foldl _ _ _ fun _ _ => ?_).trans ?_
    | refine (kept_foldl_snd _ _ _ fun _ _ => ?_).trans ?_
    | rfl

theorem attachWaits_kept (op : Op) (s : State) : kept (attachWaits op s) = kept s := by
  unfold attachWaits
  repeat' first
    | with_reducible rfl
    | simp only [kept_mk, kept_eta, kept_ite, ite_self, attach_kept]
    | split
    | refine (kept_foldl _ _ _ fun _ _ => ?_).trans ?_
    | refine (kept_foldl_snd _ _ _ fun _ _ => ?_).trans ?_
    | rfl

theorem fullSlice_kept (l row sl : Nat) (s : State) : kept (fullSlice l row sl s) = kept s := by
  unfold fullSlice
  repeat' first
    | with_reducible rfl
    | simp only [kept_mk, kept_eta, kept_ite, ite_self, destageSecs_kept]
    | split
    | rfl

theorem pressure_kept (s : State) : kept (pressure s) = kept s := by
  unfold pressure
  repeat' first
    | with_reducible rfl
    | simp only [kept_mk, kept_eta, kept_ite, ite_self, destageAll_kept, destageDown_kept]
    | split
    | rfl

theorem placeCached_kept (o c : Nat) (op : Op) (cmd : Cmd) (s : State) : kept (placeCached o c op cmd s) = kept s := by
  unfold placeCached
  repeat' first
    | with_reducible rfl
    | simp only [kept_mk, kept_eta, kept_ite, ite_self, takeWays_kept, waitAlloc_kept, storeDirty_kept, freeOp_kept,
        updCmd_kept, fullSlice_kept]
    | split
    | refine (kept_foldl _ _ _ fun _ _ => ?_).trans ?_
    | refine (kept_foldl_snd _ _ _ fun _ _ => ?_).trans ?_
    | rfl

theorem placeThrough_kept (o c : Nat) (op : Op) (cmd : Cmd) (s : State) : kept (placeThrough o c op cmd s) = kept s := by
  unfold placeThrough
  repeat' first
    | with_reducible rfl
    | simp only [kept_mk, kept_eta, kept_ite, ite_self, rowTurn_kept, updOp_kept, takeWays_kept, waitAlloc_kept,
        storeTransit_kept]
    | split
    | refine (kept_foldl _ _ _ fun _ _ => ?_).trans ?_
    | refine (kept_foldl_snd _ _ _ fun _ _ => ?_).trans ?_
    | rfl

theorem sendMirror_kept (secs : List LineSector) (s : State) : kept (sendMirror secs s) = kept s := by
  unfold sendMirror
  repeat' first
    | with_reducible rfl
    | simp only [kept_mk, kept_eta, kept_ite, ite_self, sendPair_kept]
    | split
    | refine (kept_foldl _ _ _ fun _ _ => ?_).trans ?_
    | refine (kept_foldl_snd _ _ _ fun _ _ => ?_).trans ?_
    | rfl

theorem mirrorSector_kept (l line sec : Nat) (d : List Byte) (s : State) : kept (mirrorSector l line sec d s).2 = kept s := by
  unfold mirrorSector
  split
  · rfl
  · split
    · exact storeDirty_kept _ _ _ _ _ _
    · have h := takeWay_kept 15 l line none s
      split <;> rename_i e <;> rw [e] at h
      · exact (storeDirty_kept _ _ _ _ _ _).trans h
      · exact h

theorem mirrorOwn_kept (cmd : Cmd) (d : List Byte) (s : State) : kept (mirrorOwn cmd d s) = kept s := by
  unfold mirrorOwn
  repeat' first
    | with_reducible rfl
    | simp only [kept_mk, kept_eta, kept_ite, ite_self, mirrorSector_kept]
    | split
    | refine (kept_foldl _ _ _ fun _ _ => ?_).trans ?_
    | refine (kept_foldl_snd _ _ _ fun _ _ => ?_).trans ?_
    | rfl

theorem endCachedWrite_kept (c : Nat) (s : State) : kept (endCachedWrite c s) = kept s := by
  unfold endCachedWrite
  repeat' first
    | with_reducible rfl
    | simp only [kept_mk, kept_eta, kept_ite, ite_self, updCmd_kept, sendMirror_kept, finishCmd_kept]
    | split
    | rfl

theorem releaseMirrored_kept (s : State) : kept (releaseMirrored s) = kept s := by
  unfold releaseMirrored
  repeat' first
    | with_reducible rfl
    | simp only [kept_mk, kept_eta, kept_ite, ite_self, opLeft_kept, updCmd_kept, finishCmd_kept]
    | split
    | refine (kept_foldl _ _ _ fun _ _ => ?_).trans ?_
    | refine (kept_foldl_snd _ _ _ fun _ _ => ?_).trans ?_
    | rfl

theorem nowThrough_kept (c : Nat) (cmd : Cmd) (s : State) : kept (nowThrough c cmd s) = kept s := by
  unfold nowThrough
  repeat' first
    | with_reducible rfl
    | simp only [kept_mk, kept_eta, kept_ite, ite_self, updCmd_kept, sendMirror_kept]
    | split
    | rfl

theorem placeWrite_kept (c : Nat) (s : State) : kept (placeWrite c s) = kept s := by
  unfold placeWrite
  repeat' first
    | with_reducible rfl
    | simp only [kept_mk, kept_eta, kept_ite, ite_self, nowThrough_kept, attachWaits_kept, placeThrough_kept,
        placeCached_kept, updCmd_kept, pressure_kept, endCachedWrite_kept]
    | split
    | refine (kept_foldl _ _ _ fun _ _ => ?_).trans ?_
    | refine (kept_foldl_snd _ _ _ fun _ _ => ?_).trans ?_
    | rfl

theorem verifyOp_kept (o c : Nat) (s : State) : kept (verifyOp o c s) = kept s := by
  unfold verifyOp
  repeat' first
    | with_reducible rfl
    | simp only [kept_mk, kept_eta, kept_ite, ite_self, failSecs_kept, updOp_kept, endOp_kept]
    | split
    | rfl

theorem routineOp_kept (o : Nat) (s : State) : kept (routineOp o s) = kept s := by
  unfold routineOp
  repeat' first
    | with_reducible rfl
    | simp only [kept_mk, kept_eta, kept_ite, ite_self, updOp_kept]
    | split
    | rfl

theorem advanceWaiting_kept (c : Nat) (s : State) : kept (advanceWaiting c s) = kept s := by
  unfold advanceWaiting
  repeat' first
    | with_reducible rfl
    | simp only [kept_mk, kept_eta, kept_ite, ite_self, finishCmd_kept, verifyOp_kept, routineOp_kept]
    | split
    | refine (kept_foldl _ _ _ fun _ _ => ?_).trans ?_
    | refine (kept_foldl_snd _ _ _ fun _ _ => ?_).trans ?_
    | rfl

theorem dropCmd_kept (c : Nat) (status : BitVec 16) (s : State) : kept (dropCmd c status s) = kept s := by
  unfold dropCmd
  repeat' first
    | with_reducible rfl
    | simp only [kept_mk, kept_eta, kept_ite, ite_self, finishCmd_kept, freeOp_kept]
    | split
    | refine (kept_foldl _ _ _ fun _ _ => ?_).trans ?_
    | refine (kept_foldl_snd _ _ _ fun _ _ => ?_).trans ?_
    | rfl

theorem deallocPass_kept (c : Nat) (s : State) : kept (deallocPass c s) = kept s := by
  unfold deallocPass
  repeat' first
    | with_reducible rfl
    | simp only [kept_mk, kept_eta, kept_ite, ite_self, rowTurn_kept, updOp_kept]
    | split
    | refine (kept_foldl _ _ _ fun _ _ => ?_).trans ?_
    | refine (kept_foldl_snd _ _ _ fun _ _ => ?_).trans ?_
    | rfl

theorem deallocOps_kept (c : Nat) (s : State) : kept (deallocOps c s) = kept s := by
  unfold deallocOps
  repeat' first
    | with_reducible rfl
    | simp only [kept_mk, kept_eta, kept_ite, ite_self, placeWrite_kept, deallocPass_kept, updCmd_kept]
    | split
    | rfl

/-! ## Machine/Ecc.lean -/

theorem keepTransit_kept (x : Nat) (s : State) : kept (keepTransit x s) = kept s := rfl

theorem tagError_kept (e : TagErr) (s : State) : kept (tagError e s) = kept s := by
  unfold tagError
  repeat' first
    | with_reducible rfl
    | simp only [kept_mk, kept_eta, kept_ite, ite_self, syncShadow_kept, raiseFree_kept, keepTransit_kept, setTag_kept,
        recEvent_kept]
    | split
    | rfl

theorem mirrorLost_kept (l line x sec : Nat) (s : State) : kept (mirrorLost l line x sec s) = kept s := by
  unfold mirrorLost
  repeat' first
    | with_reducible rfl
    | simp only [kept_mk, kept_eta, kept_ite, ite_self, dropSec_kept, raiseFree_kept, sendPair_kept, unwait_kept]
    | split
    | rfl

theorem loseSec_kept (x sec : Nat) (s : State) : kept (loseSec x sec s) = kept s := by
  unfold loseSec
  repeat' first
    | with_reducible rfl
    | simp only [kept_mk, kept_eta, kept_ite, ite_self, mirrorLost_kept, unwait_kept, addLostW_kept, dropSec_kept,
        endOp_kept]
    | split
    | refine (kept_foldl _ _ _ fun _ _ => ?_).trans ?_
    | refine (kept_foldl_snd _ _ _ fun _ _ => ?_).trans ?_
    | rfl

theorem dramError_kept (e : DramErr) (s : State) : kept (dramError e s) = kept s := by
  unfold dramError
  repeat' first
    | with_reducible rfl
    | simp only [kept_mk, kept_eta, kept_ite, ite_self, raiseFree_kept, loseSec_kept]
    | split
    | rfl

theorem meetTags_kept (errs : List TagErr) (s : State) : kept (meetTags errs s) = kept s := by
  unfold meetTags
  repeat' first
    | with_reducible rfl
    | simp only [kept_mk, kept_eta, kept_ite, ite_self, tagError_kept]
    | split
    | refine (kept_foldl _ _ _ fun _ _ => ?_).trans ?_
    | refine (kept_foldl_snd _ _ _ fun _ _ => ?_).trans ?_
    | rfl

theorem meetDram_kept (places : State → List (Nat × Nat)) (errs : List DramErr) (s : State) :
    kept (meetDram places errs s) = kept s := by
  unfold meetDram
  repeat' first
    | with_reducible rfl
    | simp only [kept_mk, kept_eta, kept_ite, ite_self, dramError_kept]
    | split
    | refine (kept_foldl _ _ _ fun _ _ => ?_).trans ?_
    | refine (kept_foldl_snd _ _ _ fun _ _ => ?_).trans ?_
    | rfl

/-! ## Machine/Intake.lean -/

theorem accrue_kept (s : State) : kept (accrue s) = kept s := rfl

theorem debitBytes_kept (bytes : Nat) (s : State) : kept (debitBytes bytes s) = kept s := by
  unfold debitBytes
  repeat' first
    | with_reducible rfl
    | simp only [kept_mk, kept_eta, kept_ite, ite_self, accrue_kept]
    | split
    | rfl

theorem debit_kept (bytes : Nat) (s : State) : kept (debit bytes s) = kept s := by
  unfold debit
  repeat' first
    | with_reducible rfl
    | simp only [kept_mk, kept_eta, kept_ite, ite_self, accrue_kept]
    | split
    | rfl

theorem takeHead_kept (r : Nat) (s : State) : kept (takeHead r s) = kept s := by
  unfold takeHead
  repeat' first
    | with_reducible rfl
    | simp only [kept_mk, kept_eta, kept_ite, ite_self, updRing_kept]
    | split
    | rfl

theorem completeHead_kept (r : Nat) (e : List Byte) (status : BitVec 16) (s : State) :
    kept (completeHead r e status s) = kept s := by
  unfold completeHead
  repeat' first
    | with_reducible rfl
    | simp only [kept_mk, kept_eta, kept_ite, ite_self, takeHead_kept, updRing_kept, postCqe_kept]
    | split
    | rfl

theorem drainRing_kept (n r : Nat) (s : State) : kept (drainRing n r s) = kept s := by
  induction n generalizing s with
  | zero => rfl
  | succ n ih =>
    unfold drainRing
    try dsimp only
    repeat' first | rfl | split | (rw [ih]; exact completeHead_kept _ _ _ _)

theorem startIo_kept (c : Nat) (s : State) : kept (startIo c s) = kept s := by
  unfold startIo
  repeat' first
    | with_reducible rfl
    | simp only [kept_mk, kept_eta, kept_ite, ite_self, acceptOps_kept, updCmd_kept, finishCmd_kept, raise_kept,
        sendPair_kept]
    | split
    | rfl

theorem kickHeld_kept (s : State) : kept (kickHeld s) = kept s := by
  unfold kickHeld
  repeat' first
    | with_reducible rfl
    | simp only [kept_mk, kept_eta, kept_ite, ite_self, startIo_kept]
    | split
    | refine (kept_foldl _ _ _ fun _ _ => ?_).trans ?_
    | refine (kept_foldl_snd _ _ _ fun _ _ => ?_).trans ?_
    | rfl

theorem newCmd_kept (src : CmdSrc) (port : Nat) (e : List Byte) (s : State) : kept (newCmd src port e s).2 = kept s := rfl

theorem beginCmd_kept (admin : Bool) (c : Nat) (s : State) : kept (beginCmd admin c s) = kept s := by
  unfold beginCmd
  repeat' first
    | with_reducible rfl
    | simp only [kept_mk, kept_eta, kept_ite, ite_self, finishCmd_kept, emit_kept, updCmd_kept, startIo_kept]
    | split
    | rfl

theorem beginHead_kept (r : Nat) (s : State) : kept (beginHead r s) = kept s := by
  unfold beginHead
  repeat' first
    | with_reducible rfl
    | simp only [kept_mk, kept_eta, kept_ite, ite_self, completeHead_kept, takeHead_kept, updRing_kept, debit_kept,
        newCmd_kept, beginCmd_kept]
    | split
    | rfl

theorem intakeNext_kept (s : State) : kept (intakeNext s) = kept s := by
  unfold intakeNext
  repeat' first
    | with_reducible rfl
    | simp only [kept_mk, kept_eta, kept_ite, ite_self, updPort_kept, beginHead_kept]
    | split
    | rfl

theorem endInvalidate_kept (s : State) : kept (endInvalidate s) = kept s := by
  unfold endInvalidate
  repeat' first
    | with_reducible rfl
    | simp only [kept_mk, kept_eta, kept_ite, ite_self, dropSec_kept]
    | split
    | refine (kept_foldl _ _ _ fun _ _ => ?_).trans ?_
    | refine (kept_foldl_snd _ _ _ fun _ _ => ?_).trans ?_
    | rfl

theorem kickXfer_kept (s : State) : kept (kickXfer s) = kept s := by
  unfold kickXfer
  repeat' first
    | with_reducible rfl
    | simp only [kept_mk, kept_eta, kept_ite, ite_self, sendMember_kept, sendPair_kept]
    | split
    | refine (kept_foldl _ _ _ fun _ _ => ?_).trans ?_
    | refine (kept_foldl_snd _ _ _ fun _ _ => ?_).trans ?_
    | rfl

theorem settleDrains_kept (s : State) : kept (settleDrains s) = kept s := by
  unfold settleDrains
  repeat' first
    | with_reducible rfl
    | simp only [kept_mk, kept_eta, kept_ite, ite_self, drainRing_kept]
    | split
    | refine (kept_foldl _ _ _ fun _ _ => ?_).trans ?_
    | refine (kept_foldl_snd _ _ _ fun _ _ => ?_).trans ?_
    | rfl

theorem settleOps_kept (s : State) : kept (settleOps s) = kept s := by
  unfold settleOps
  repeat' first
    | with_reducible rfl
    | simp only [kept_mk, kept_eta, kept_ite, ite_self, kickHeld_kept, kickAgain_kept, biAll_kept, grantScratch_kept,
        relevel_kept, nvmeEvents_kept, serveRead_kept, probeRead_kept, kickXfer_kept, kickJoint_kept,
        releaseMirrored_kept, advanceWaiting_kept, placeWrite_kept, deallocPass_kept]
    | split
    | refine (kept_foldl _ _ _ fun _ _ => ?_).trans ?_
    | refine (kept_foldl_snd _ _ _ fun _ _ => ?_).trans ?_
    | rfl

theorem settle_kept (s : State) : kept (settle s) = kept s := by
  unfold settle
  repeat' first
    | with_reducible rfl
    | simp only [kept_mk, kept_eta, kept_ite, ite_self, kickFetch_kept, settleDrains_kept, kickAnchors_kept,
        kickMovers_kept, kickRestore_kept, kickTagJobs_kept, endInvalidate_kept, settleOps_kept, meetTags_kept]
    | split
    | rfl

/-! ## Machine/Admin.lean -/

theorem go_kept (s : State) : KeptBy (go s) s := by
  unfold go
  repeat' first
    | with_reducible rfl
    | refine keptBy_ok ?_
    | exact keptBy_fault _ _
    | simp only [kept_mk, kept_eta, kept_ite, ite_self, settle_kept]
    | split
    | rfl

theorem asAdmin_kept (opcode : Nat) (f : Nat → Cmd → State → State) (s : State) (h : ∀ c x, kept (f c x s) = kept s) :
    kept (asAdmin opcode f s) = kept s := by
  unfold asAdmin; split
  · exact h _ _
  · rfl

theorem adminOk_kept (c : Nat) (s : State) : kept (adminOk c s) = kept s := by
  unfold adminOk
  repeat' first
    | with_reducible rfl
    | simp only [kept_mk, kept_eta, kept_ite, ite_self, finishCmd_kept]
    | split
    | rfl

theorem adminFail_kept (c : Nat) (status : BitVec 16) (reason : Nat) (s : State) :
    kept (adminFail c status reason s) = kept s := by
  unfold adminFail
  repeat' first
    | with_reducible rfl
    | simp only [kept_mk, kept_eta, kept_ite, ite_self, finishCmd_kept]
    | split
    | rfl

theorem commitGate_kept (c : Nat) (f : State → State) (s : State) (h : kept (f s) = kept s) : kept (commitGate c f s) = kept s := by
  unfold commitGate; split
  · exact adminFail_kept _ _ _ _
  · exact h

theorem adminOut_kept (x : Cmd) (d : List Byte) (s : State) : kept (adminOut x d s) = kept s := by
  unfold adminOut
  repeat' first
    | with_reducible rfl
    | simp only [kept_mk, kept_eta, kept_ite, ite_self, scatter_kept]
    | split
    | rfl

theorem barWrite_kept (p off : Nat) (f : State → State) (s : State) (h : kept (f s) = kept s) : kept (barWrite p off f s) = kept s := by
  unfold barWrite; split
  · exact h
  · rfl

end Sys2Proof.Machine
end

