-- ==== Sys2Proof/Laws/KeptRows.lean ====
section
/-! SUPPORT. Sys2Proof/Laws/KeptRows.lean: the commands of the rings, the pipeline, the cache and the pack leave `kept s` as it was, one lemma an operation. -/

namespace Sys2Proof.Machine

set_option linter.unusedSimpArgs false
set_option linter.unusedTactic false
set_option linter.unreachableTactic false

/-! ## Machine/IoRows.lean -/

theorem asIo_kept (opcode c : Nat) (f : Cmd → State → State) (s : State) (h : ∀ x, kept (f x s) = kept s) :
    kept (asIo opcode c f s) = kept s := by
  unfold asIo; repeat' first | rfl | exact h _ | split

theorem readHostData_kept (x : Cmd) (s : State) : kept (readHostData x s) = kept s := by
  unfold readHostData
  repeat' first
    | with_reducible rfl
    | simp only [kept_mk, kept_eta, kept_ite, ite_self, emit_kept]
    | split
    | refine (kept_foldl _ _ _ fun _ _ => ?_).trans ?_
    | refine (kept_foldl_snd _ _ _ fun _ _ => ?_).trans ?_
    | rfl

theorem execRead_kept (r : ReadIn) (s : State) : KeptBy (execRead r s) s := by
  unfold execRead
  repeat' first
    | with_reducible rfl
    | refine keptBy_ok ?_
    | exact keptBy_fault _ _
    | simp only [kept_mk, kept_eta, kept_ite, ite_self, go_kept, updCmd_kept, meetDram_kept, settle_kept]
    | split
    | refine (asIo_kept _ _ _ _ fun _ => ?_).trans ?_
    | rfl

theorem askData_kept (opcode cmd : Nat) (s : State) : kept (askData opcode cmd s) = kept s := by
  unfold askData
  repeat' first
    | with_reducible rfl
    | simp only [kept_mk, kept_eta, kept_ite, ite_self, updCmd_kept, readHostData_kept]
    | split
    | rfl

theorem execWrite_kept (cmd : Nat) (s : State) : KeptBy (execWrite cmd s) s := by
  unfold execWrite
  repeat' first
    | with_reducible rfl
    | refine keptBy_ok ?_
    | exact keptBy_fault _ _
    | simp only [kept_mk, kept_eta, kept_ite, ite_self, askData_kept]
    | split
    | rfl

theorem execWriteFua_kept (cmd : Nat) (s : State) : KeptBy (execWriteFua cmd s) s := by
  unfold execWriteFua
  repeat' first
    | with_reducible rfl
    | refine keptBy_ok ?_
    | exact keptBy_fault _ _
    | simp only [kept_mk, kept_eta, kept_ite, ite_self, askData_kept]
    | split
    | rfl

theorem stageData_kept (c : Nat) (x : Cmd) (d : Option (List Byte)) (s : State) : kept (stageData c x d s) = kept s := by
  unfold stageData
  repeat' first
    | with_reducible rfl
    | simp only [kept_mk, kept_eta, kept_ite, ite_self, stage4_kept, updOp_kept, opLeft_kept, freeOp_kept,
        failSecs_kept]
    | split
    | refine (kept_foldl _ _ _ fun _ _ => ?_).trans ?_
    | refine (kept_foldl_snd _ _ _ fun _ _ => ?_).trans ?_
    | rfl

theorem hostData_kept (c : Nat) (d : Option (List Byte)) (s : State) : kept (hostData c d s) = kept s := by
  unfold hostData
  repeat' first
    | with_reducible rfl
    | simp only [kept_mk, kept_eta, kept_ite, ite_self, dropCmd_kept, updCmd_kept, stageData_kept, finishCmd_kept,
        forwardOut_kept, mirrorOwn_kept]
    | split
    | rfl

theorem execHostDataRead_kept (cmd : Nat) (data : Option (List Byte)) (s : State) :
    KeptBy (execHostDataRead cmd data s) s := by
  unfold execHostDataRead
  repeat' first
    | with_reducible rfl
    | refine keptBy_ok ?_
    | exact keptBy_fault _ _
    | simp only [kept_mk, kept_eta, kept_ite, ite_self, go_kept, hostData_kept, settle_kept]
    | split
    | rfl

theorem flushCmd_kept (c : Nat) (x : Cmd) (s : State) : kept (flushCmd c x s) = kept s := by
  unfold flushCmd
  repeat' first
    | with_reducible rfl
    | simp only [kept_mk, kept_eta, kept_ite, ite_self, updCmd_kept, sendPair_kept, destagePlaces_kept]
    | split
    | rfl

theorem execFlush_kept (cmd : Nat) (s : State) : KeptBy (execFlush cmd s) s := by
  unfold execFlush
  repeat' first
    | with_reducible rfl
    | refine keptBy_ok ?_
    | exact keptBy_fault _ _
    | simp only [kept_mk, kept_eta, kept_ite, ite_self, go_kept, flushCmd_kept, settle_kept]
    | split
    | refine (asIo_kept _ _ _ _ fun _ => ?_).trans ?_
    | rfl

theorem execDeallocate_kept (cmd : Nat) (s : State) : KeptBy (execDeallocate cmd s) s := by
  unfold execDeallocate
  repeat' first
    | with_reducible rfl
    | refine keptBy_ok ?_
    | exact keptBy_fault _ _
    | simp only [kept_mk, kept_eta, kept_ite, ite_self, go_kept, deallocOps_kept, settle_kept]
    | split
    | refine (asIo_kept _ _ _ _ fun _ => ?_).trans ?_
    | rfl

theorem waitClean_kept (c : Nat) (secs : List (Nat × Nat × Nat × Nat)) (s : State) : kept (waitClean c secs s) = kept s := by
  unfold waitClean
  repeat' first
    | with_reducible rfl
    | simp only [kept_mk, kept_eta, kept_ite, ite_self, destagePlaces_kept, updCmd_kept]
    | split
    | rfl

theorem execVerify_kept (cmd : Nat) (s : State) : KeptBy (execVerify cmd s) s := by
  unfold execVerify
  repeat' first
    | with_reducible rfl
    | refine keptBy_ok ?_
    | exact keptBy_fault _ _
    | simp only [kept_mk, kept_eta, kept_ite, ite_self, go_kept, waitClean_kept, settle_kept]
    | split
    | refine (asIo_kept _ _ _ _ fun _ => ?_).trans ?_
    | rfl

theorem execRoutineCall_kept (cmd : Nat) (s : State) : KeptBy (execRoutineCall cmd s) s := by
  unfold execRoutineCall
  repeat' first
    | with_reducible rfl
    | refine keptBy_ok ?_
    | exact keptBy_fault _ _
    | simp only [kept_mk, kept_eta, kept_ite, ite_self, go_kept, waitClean_kept, settle_kept]
    | split
    | refine (asIo_kept _ _ _ _ fun _ => ?_).trans ?_
    | rfl

theorem releaseE_kept (x : Nat × Nat × Nat × Nat) (s : State) : kept (releaseE x s) = kept s := by
  unfold releaseE
  repeat' first
    | with_reducible rfl
    | simp only [kept_mk, kept_eta, kept_ite, ite_self, dropLostE_kept, acceptLostE_kept]
    | split
    | rfl

theorem acceptLoss_kept (c : Nat) (x : Cmd) (s : State) : kept (acceptLoss c x s) = kept s := by
  unfold acceptLoss
  repeat' first
    | with_reducible rfl
    | simp only [kept_mk, kept_eta, kept_ite, ite_self, dropLostW_kept, finishCmd_kept, releaseE_kept, lostChanged_kept]
    | split
    | refine (kept_foldl _ _ _ fun _ _ => ?_).trans ?_
    | refine (kept_foldl_snd _ _ _ fun _ _ => ?_).trans ?_
    | rfl

theorem execAcceptLoss_kept (cmd : Nat) (s : State) : KeptBy (execAcceptLoss cmd s) s := by
  unfold execAcceptLoss
  repeat' first
    | with_reducible rfl
    | refine keptBy_ok ?_
    | exact keptBy_fault _ _
    | simp only [kept_mk, kept_eta, kept_ite, ite_self, go_kept, acceptLoss_kept, settle_kept]
    | split
    | refine (asIo_kept _ _ _ _ fun _ => ?_).trans ?_
    | rfl

theorem execIntakeResume_kept (s : State) : KeptBy (execIntakeResume s) s := by
  unfold execIntakeResume
  repeat' first
    | with_reducible rfl
    | refine keptBy_ok ?_
    | exact keptBy_fault _ _
    | simp only [kept_mk, kept_eta, kept_ite, ite_self, go_kept, placeHeld_kept, settle_kept]
    | split
    | rfl

theorem execRowOrderRelease_kept (pool : Fin 8) (row : Nat) (s : State) : KeptBy (execRowOrderRelease pool row s) s := by
  unfold execRowOrderRelease
  repeat' first
    | with_reducible rfl
    | refine keptBy_ok ?_
    | exact keptBy_fault _ _
    | simp only [kept_mk, kept_eta, kept_ite, ite_self, updOp_kept, go_kept, settle_kept]
    | split
    | refine (kept_foldl _ _ _ fun _ _ => ?_).trans ?_
    | refine (kept_foldl_snd _ _ _ fun _ _ => ?_).trans ?_
    | rfl

theorem wakeLane_kept (j : Nat) (s : State) : kept (wakeLane j s) = kept s := by
  unfold wakeLane
  repeat' first
    | with_reducible rfl
    | simp only [kept_mk, kept_eta, kept_ite, ite_self, placeHeld_kept]
    | split
    | rfl

theorem execLaneWake_kept (lane : Fin 8) (s : State) : KeptBy (execLaneWake lane s) s := by
  unfold execLaneWake
  repeat' first
    | with_reducible rfl
    | refine keptBy_ok ?_
    | exact keptBy_fault _ _
    | simp only [kept_mk, kept_eta, kept_ite, ite_self, go_kept, wakeLane_kept, settle_kept]
    | split
    | rfl

theorem execLaneGate_kept (lane : Fin 8) (wakeRequest : Bool) (s : State) : KeptBy (execLaneGate lane wakeRequest s) s := by
  unfold execLaneGate
  repeat' first
    | with_reducible rfl
    | refine keptBy_ok ?_
    | exact keptBy_fault _ _
    | simp only [kept_mk, kept_eta, kept_ite, ite_self, timeTo_kept]
    | split
    | rfl

theorem execMemberGroupGate_kept (g : GateIn) (s : State) : KeptBy (execMemberGroupGate g s) s := by
  unfold execMemberGroupGate
  repeat' first
    | with_reducible rfl
    | refine keptBy_ok ?_
    | exact keptBy_fault _ _
    | simp only [kept_mk, kept_eta, kept_ite, ite_self, timeTo_kept, stopGroup_kept]
    | split
    | refine (kept_foldl _ _ _ fun _ _ => ?_).trans ?_
    | refine (kept_foldl_snd _ _ _ fun _ _ => ?_).trans ?_
    | rfl

theorem execDomainWake_kept (d : Domain) (s : State) : KeptBy (execDomainWake d s) s := by
  unfold execDomainWake
  repeat' first
    | with_reducible rfl
    | refine keptBy_ok ?_
    | exact keptBy_fault _ _
    | simp only [kept_mk, kept_eta, kept_ite, ite_self, go_kept, wakeLane_kept, startGroup_kept, settle_kept]
    | split
    | rfl

/-! ## Machine/NvmeIo.lean -/

theorem nvmeTake_kept (p : Nat) (admin : Bool) (s : State) : kept (nvmeTake p admin s) = kept s := by
  unfold nvmeTake
  repeat' first
    | with_reducible rfl
    | simp only [kept_mk, kept_eta, kept_ite, ite_self, updPf1_kept]
    | split
    | rfl

theorem asNvmeAdmin_kept (p : Nat) (e : NvmeSqe) (f : State → State) (s : State) (h : ∀ s, kept (f s) = kept s) :
    kept (asNvmeAdmin p e f s) = kept s := by
  unfold asNvmeAdmin; repeat' split
  · rfl
  · exact (postNvme_kept _ _ _ _ _ _).trans (nvmeTake_kept _ _ _)
  · exact (h _).trans (nvmeTake_kept _ _ _)

theorem asNvmeIo_kept (p : Nat) (e : NvmeSqe) (f : State → State) (s : State) (h : ∀ s, kept (f s) = kept s) :
    kept (asNvmeIo p e f s) = kept s := by
  unfold asNvmeIo
  repeat' first
    | with_reducible rfl
    | refine (h _).trans ?_
    | simp only [kept_ite, ite_self, postNvme_kept, nvmeTake_kept, updPort_kept, debit_kept, kept_mk, kept_eta]
    | split
    | rfl

theorem readPrps_kept (x : Cmd) (addr : Nat) (s : State) : kept (readPrps x addr s) = kept s := rfl

theorem runNvme_kept (c : Nat) (s : State) : kept (runNvme c s) = kept s := by
  unfold runNvme
  repeat' first
    | with_reducible rfl
    | simp only [kept_mk, kept_eta, kept_ite, ite_self, startIo_kept, updCmd_kept, askData_kept, flushCmd_kept,
        deallocOps_kept]
    | split
    | rfl

theorem prpArrive_kept (c : Nat) (x : Cmd) (d : Option (List Byte)) (s : State) : kept (prpArrive c x d s) = kept s := by
  unfold prpArrive
  repeat' first
    | with_reducible rfl
    | simp only [kept_mk, kept_eta, kept_ite, ite_self, finishCmd_kept, postNvme_kept, readPrps_kept, updCmd_kept,
        runNvme_kept]
    | split
    | rfl

theorem beginNvme_kept (src : CmdSrc) (p opcode v lba count prp1 prp2 : Nat) (data : Bool) (s : State) :
    kept (beginNvme src p opcode v lba count prp1 prp2 data s) = kept s := by
  unfold beginNvme
  repeat' first
    | with_reducible rfl
    | simp only [kept_mk, kept_eta, kept_ite, ite_self, newCmd_kept, finishCmd_kept, runNvme_kept, updCmd_kept,
        readPrps_kept]
    | split
    | rfl

theorem orphanNvme_kept (p : Nat) (s : State) : kept (orphanNvme p s) = kept s := rfl

theorem nvmeReset_kept (p : Nat) (s : State) : kept (nvmeReset p s) = kept s := by
  unfold nvmeReset
  repeat' first
    | with_reducible rfl
    | simp only [kept_mk, kept_eta, kept_ite, ite_self, updPf1_kept, orphanNvme_kept]
    | split
    | rfl

/-! ## Machine/RingRows.lean -/

theorem execIntakeBeginEntry_kept (s : State) : KeptBy (execIntakeBeginEntry s) s := by
  unfold execIntakeBeginEntry
  repeat' first
    | with_reducible rfl
    | refine keptBy_ok ?_
    | exact keptBy_fault _ _
    | simp only [kept_mk, kept_eta, kept_ite, ite_self, go_kept, intakeNext_kept, meetTags_kept, settle_kept]
    | split
    | rfl

theorem execSqDoorbell_kept (port : Fin 2) (ring : Fin 262144) (width : DbWidth) (value : Word) (s : State) :
    KeptBy (execSqDoorbell port ring width value s) s := by
  unfold execSqDoorbell
  repeat' first
    | with_reducible rfl
    | refine keptBy_ok ?_
    | exact keptBy_fault _ _
    | simp only [kept_mk, kept_eta, kept_ite, ite_self, sqDoorbell_kept]
    | split
    | rfl

theorem execCqDoorbell_kept (port : Fin 2) (ring : Fin 262144) (width : DbWidth) (value : Word) (s : State) :
    KeptBy (execCqDoorbell port ring width value s) s := by
  unfold execCqDoorbell
  repeat' first
    | with_reducible rfl
    | refine keptBy_ok ?_
    | exact keptBy_fault _ _
    | simp only [kept_mk, kept_eta, kept_ite, ite_self, settleDrains_kept, cqDoorbell_kept]
    | split
    | rfl

theorem execPush_kept (port : Fin 2) (offset : BitVec 25) (data : List Byte) (s : State) :
    KeptBy (execPush port offset data s) s := by
  unfold execPush
  repeat' first
    | with_reducible rfl
    | refine keptBy_ok ?_
    | exact keptBy_fault _ _
    | simp only [kept_mk, kept_eta, kept_ite, ite_self, pushWrite_kept]
    | split
    | rfl

theorem execCoalesceTimeout_kept (ring : Fin 262144) (s : State) : KeptBy (execCoalesceTimeout ring s) s := by
  unfold execCoalesceTimeout
  repeat' first
    | with_reducible rfl
    | refine keptBy_ok ?_
    | exact keptBy_fault _ _
    | simp only [kept_mk, kept_eta, kept_ite, ite_self, coalesce_kept, timeTo_kept]
    | split
    | rfl

theorem execMsixVectorUnmask_kept (port : Fin 2) (vector : Fin 2048) (s : State) :
    KeptBy (execMsixVectorUnmask port vector s) s := by
  unfold execMsixVectorUnmask
  repeat' first
    | with_reducible rfl
    | refine keptBy_ok ?_
    | exact keptBy_fault _ _
    | simp only [kept_mk, kept_eta, kept_ite, ite_self, barWrite_kept, unmaskVector_kept]
    | split
    | refine (barWrite_kept _ _ _ _ ?_).trans ?_
    | rfl

theorem execPf0Flr_kept (port : Fin 2) (s : State) : KeptBy (execPf0Flr port s) s := by
  unfold execPf0Flr
  repeat' first
    | with_reducible rfl
    | refine keptBy_ok ?_
    | exact keptBy_fault _ _
    | simp only [kept_mk, kept_eta, kept_ite, ite_self, raiseFree_kept, flrPort_kept]
    | split
    | rfl

theorem execAdminCtlWrite_kept (port : Fin 2) (value : Word) (s : State) : KeptBy (execAdminCtlWrite port value s) s := by
  unfold execAdminCtlWrite
  repeat' first
    | with_reducible rfl
    | refine keptBy_ok ?_
    | exact keptBy_fault _ _
    | simp only [kept_mk, kept_eta, kept_ite, ite_self, barWrite_kept, adminCtlWrite_kept]
    | split
    | refine (barWrite_kept _ _ _ _ ?_).trans ?_
    | rfl

theorem execDrainEnd_kept (ring : Fin 262144) (s : State) : KeptBy (execDrainEnd ring s) s := by
  unfold execDrainEnd
  repeat' first
    | with_reducible rfl
    | refine keptBy_ok ?_
    | exact keptBy_fault _ _
    | simp only [kept_mk, kept_eta, kept_ite, ite_self, settleDrains_kept, endDrain_kept, endAdminDrain_kept]
    | split
    | rfl

theorem execRingCreate_kept (desc : List Byte) (s : State) : KeptBy (execRingCreate desc s) s := by
  unfold execRingCreate
  repeat' first
    | with_reducible rfl
    | refine keptBy_ok ?_
    | exact keptBy_fault _ _
    | simp only [kept_mk, kept_eta, kept_ite, ite_self, adminFail_kept, adminOk_kept, createRing_kept]
    | split
    | refine (asAdmin_kept _ _ _ fun _ _ => ?_).trans ?_
    | rfl

theorem ringDown_kept (c : Nat) (x : Cmd) (dest : RingSt) (idleOk : Bool) (s : State) :
    kept (ringDown c x dest idleOk s) = kept s := by
  unfold ringDown
  repeat' first
    | with_reducible rfl
    | simp only [kept_mk, kept_eta, kept_ite, ite_self, adminFail_kept, adminOk_kept, settleDrains_kept,
        startDrain_kept, dropCompletion_kept, finishCmd_kept]
    | split
    | rfl

theorem execRingReset_kept (s : State) : KeptBy (execRingReset s) s := by
  unfold execRingReset
  repeat' first
    | with_reducible rfl
    | refine keptBy_ok ?_
    | exact keptBy_fault _ _
    | simp only [kept_mk, kept_eta, kept_ite, ite_self, ringDown_kept]
    | split
    | refine (asAdmin_kept _ _ _ fun _ _ => ?_).trans ?_
    | rfl

theorem execRingShutdown_kept (s : State) : KeptBy (execRingShutdown s) s := by
  unfold execRingShutdown
  repeat' first
    | with_reducible rfl
    | refine keptBy_ok ?_
    | exact keptBy_fault _ _
    | simp only [kept_mk, kept_eta, kept_ite, ite_self, ringDown_kept]
    | split
    | refine (asAdmin_kept _ _ _ fun _ _ => ?_).trans ?_
    | rfl

theorem enableRing_kept (p r : Nat) (init : Option Dword) (s : State) : kept (enableRing p r init s) = kept s := by
  unfold enableRing
  repeat' first
    | with_reducible rfl
    | simp only [kept_mk, kept_eta, kept_ite, ite_self, setRing_kept, deliverEvents_kept]
    | split
    | rfl

theorem execRingEnable_kept (s : State) : KeptBy (execRingEnable s) s := by
  unfold execRingEnable
  repeat' first
    | with_reducible rfl
    | refine keptBy_ok ?_
    | exact keptBy_fault _ _
    | simp only [kept_mk, kept_eta, kept_ite, ite_self, adminFail_kept, adminOk_kept, enableRing_kept]
    | split
    | refine (asAdmin_kept _ _ _ fun _ _ => ?_).trans ?_
    | rfl

theorem abortGo_kept (c : Nat) (x : Cmd) (s : State) : kept (abortGo c x s) = kept s := by
  unfold abortGo
  repeat' first
    | with_reducible rfl
    | simp only [kept_mk, kept_eta, kept_ite, ite_self, fetchRing_kept, updCmd_kept, updRing_kept, finishCmd_kept]
    | split
    | refine (kept_foldl _ _ _ fun _ _ => ?_).trans ?_
    | refine (kept_foldl_snd _ _ _ fun _ _ => ?_).trans ?_
    | rfl

theorem execAbort_kept (s : State) : KeptBy (execAbort s) s := by
  unfold execAbort
  repeat' first
    | with_reducible rfl
    | refine keptBy_ok ?_
    | exact keptBy_fault _ _
    | simp only [kept_mk, kept_eta, kept_ite, ite_self, adminFail_kept, abortGo_kept]
    | split
    | refine (asAdmin_kept _ _ _ fun _ _ => ?_).trans ?_
    | rfl

theorem kickAbort_kept (s : State) : kept (kickAbort s) = kept s := by
  unfold kickAbort
  repeat' first
    | with_reducible rfl
    | simp only [kept_mk, kept_eta, kept_ite, ite_self, abortGo_kept]
    | split
    | rfl

theorem listRead_kept (c : Nat) (d : Option (List Byte)) (s : State) : kept (listRead c d s) = kept s := by
  unfold listRead
  repeat' first
    | with_reducible rfl
    | simp only [kept_mk, kept_eta, kept_ite, ite_self, prpArrive_kept, finishCmd_kept, ringError_kept, updCmd_kept,
        startIo_kept]
    | split
    | rfl

theorem listFails_kept (c : Nat) (s : State) : kept (listFails c s) = kept s := by
  unfold listFails
  repeat' first
    | with_reducible rfl
    | simp only [kept_mk, kept_eta, kept_ite, ite_self, finishCmd_kept]
    | split
    | rfl

theorem execFetchComplete_kept (w : FetchWhat) (s : State) : KeptBy (execFetchComplete w s) s := by
  unfold execFetchComplete
  repeat' first
    | with_reducible rfl
    | refine keptBy_ok ?_
    | exact keptBy_fault _ _
    | simp only [kept_mk, kept_eta, kept_ite, ite_self, go_kept, kickAbort_kept, entriesArrive_kept, entriesFail_kept,
        listRead_kept, listFails_kept, settle_kept]
    | split
    | rfl

/-! ## Machine/PipeRows.lean -/

theorem execDispatch_kept (d : DispatchIn) (s : State) : KeptBy (execDispatch d s) s := by
  unfold execDispatch
  repeat' first
    | with_reducible rfl
    | refine keptBy_ok ?_
    | exact keptBy_fault _ _
    | simp only [kept_mk, kept_eta, kept_ite, ite_self, go_kept, stage4_kept, meetDram_kept, settle_kept]
    | split
    | rfl

theorem execLook_kept (core : Fin 32) (s : State) : KeptBy (execLook core s) s := by
  unfold execLook
  repeat' first
    | with_reducible rfl
    | refine keptBy_ok ?_
    | exact keptBy_fault _ _
    | simp only [kept_mk, kept_eta, kept_ite, ite_self, go_kept, issue_kept, settle_kept]
    | split
    | rfl

theorem execMrd_kept (core : Fin 32) (s : State) : KeptBy (execMrd core s) s := by
  unfold execMrd
  repeat' first
    | with_reducible rfl
    | refine keptBy_ok ?_
    | exact keptBy_fault _ _
    | simp only [kept_mk, kept_eta, kept_ite, ite_self, go_kept, issue_kept, settle_kept]
    | split
    | rfl

theorem execMrdLateReport_kept (ctx : Fin 1024) (slot : Fin 16) (pos : Fin 64) (s : State) :
    KeptBy (execMrdLateReport ctx slot pos s) s := by
  unfold execMrdLateReport
  repeat' first
    | with_reducible rfl
    | refine keptBy_ok ?_
    | exact keptBy_fault _ _
    | simp only [kept_mk, kept_eta, kept_ite, ite_self, go_kept, lateReport_kept, settle_kept]
    | split
    | rfl

theorem execMwr_kept (core : Fin 32) (s : State) : KeptBy (execMwr core s) s := by
  unfold execMwr
  repeat' first
    | with_reducible rfl
    | refine keptBy_ok ?_
    | exact keptBy_fault _ _
    | simp only [kept_mk, kept_eta, kept_ite, ite_self, go_kept, issue_kept, settle_kept]
    | split
    | rfl

theorem execGmx_kept (core : Fin 32) (s : State) : KeptBy (execGmx core s) s := by
  unfold execGmx
  repeat' first
    | with_reducible rfl
    | refine keptBy_ok ?_
    | exact keptBy_fault _ _
    | simp only [kept_mk, kept_eta, kept_ite, ite_self, go_kept, issue_kept, settle_kept]
    | split
    | rfl

theorem execXor_kept (core : Fin 32) (s : State) : KeptBy (execXor core s) s := by
  unfold execXor
  repeat' first
    | with_reducible rfl
    | refine keptBy_ok ?_
    | exact keptBy_fault _ _
    | simp only [kept_mk, kept_eta, kept_ite, ite_self, go_kept, issue_kept, settle_kept]
    | split
    | rfl

theorem execTag_kept (core : Fin 32) (s : State) : KeptBy (execTag core s) s := by
  unfold execTag
  repeat' first
    | with_reducible rfl
    | refine keptBy_ok ?_
    | exact keptBy_fault _ _
    | simp only [kept_mk, kept_eta, kept_ite, ite_self, go_kept, issue_kept, settle_kept]
    | split
    | rfl

theorem execJnl_kept (core : Fin 32) (s : State) : KeptBy (execJnl core s) s := by
  unfold execJnl
  repeat' first
    | with_reducible rfl
    | refine keptBy_ok ?_
    | exact keptBy_fault _ _
    | simp only [kept_mk, kept_eta, kept_ite, ite_self, go_kept, issue_kept, settle_kept]
    | split
    | rfl

theorem execJcl_kept (core : Fin 32) (s : State) : KeptBy (execJcl core s) s := by
  unfold execJcl
  repeat' first
    | with_reducible rfl
    | refine keptBy_ok ?_
    | exact keptBy_fault _ _
    | simp only [kept_mk, kept_eta, kept_ite, ite_self, go_kept, issue_kept, settle_kept]
    | split
    | rfl

theorem execWait_kept (core : Fin 32) (s : State) : KeptBy (execWait core s) s := by
  unfold execWait
  repeat' first
    | with_reducible rfl
    | refine keptBy_ok ?_
    | exact keptBy_fault _ _
    | simp only [kept_mk, kept_eta, kept_ite, ite_self, go_kept, issue_kept, settle_kept]
    | split
    | rfl

theorem execBr_kept (core : Fin 32) (s : State) : KeptBy (execBr core s) s := by
  unfold execBr
  repeat' first
    | with_reducible rfl
    | refine keptBy_ok ?_
    | exact keptBy_fault _ _
    | simp only [kept_mk, kept_eta, kept_ite, ite_self, go_kept, issue_kept, settle_kept]
    | split
    | rfl

theorem execBz_kept (core : Fin 32) (s : State) : KeptBy (execBz core s) s := by
  unfold execBz
  repeat' first
    | with_reducible rfl
    | refine keptBy_ok ?_
    | exact keptBy_fault _ _
    | simp only [kept_mk, kept_eta, kept_ite, ite_self, go_kept, issue_kept, settle_kept]
    | split
    | rfl

theorem execBnz_kept (core : Fin 32) (s : State) : KeptBy (execBnz core s) s := by
  unfold execBnz
  repeat' first
    | with_reducible rfl
    | refine keptBy_ok ?_
    | exact keptBy_fault _ _
    | simp only [kept_mk, kept_eta, kept_ite, ite_self, go_kept, issue_kept, settle_kept]
    | split
    | rfl

theorem execCall_kept (core : Fin 32) (s : State) : KeptBy (execCall core s) s := by
  unfold execCall
  repeat' first
    | with_reducible rfl
    | refine keptBy_ok ?_
    | exact keptBy_fault _ _
    | simp only [kept_mk, kept_eta, kept_ite, ite_self, go_kept, issue_kept, settle_kept]
    | split
    | rfl

theorem execRet_kept (core : Fin 32) (s : State) : KeptBy (execRet core s) s := by
  unfold execRet
  repeat' first
    | with_reducible rfl
    | refine keptBy_ok ?_
    | exact keptBy_fault _ _
    | simp only [kept_mk, kept_eta, kept_ite, ite_self, go_kept, issue_kept, settle_kept]
    | split
    | rfl

theorem execDone_kept (core : Fin 32) (s : State) : KeptBy (execDone core s) s := by
  unfold execDone
  repeat' first
    | with_reducible rfl
    | refine keptBy_ok ?_
    | exact keptBy_fault _ _
    | simp only [kept_mk, kept_eta, kept_ite, ite_self, go_kept, issue_kept, settle_kept]
    | split
    | rfl

theorem execTrap_kept (core : Fin 32) (s : State) : KeptBy (execTrap core s) s := by
  unfold execTrap
  repeat' first
    | with_reducible rfl
    | refine keptBy_ok ?_
    | exact keptBy_fault _ _
    | simp only [kept_mk, kept_eta, kept_ite, ite_self, go_kept, issue_kept, settle_kept]
    | split
    | rfl

theorem execNop_kept (core : Fin 32) (s : State) : KeptBy (execNop core s) s := by
  unfold execNop
  repeat' first
    | with_reducible rfl
    | refine keptBy_ok ?_
    | exact keptBy_fault _ _
    | simp only [kept_mk, kept_eta, kept_ite, ite_self, go_kept, issue_kept, settle_kept]
    | split
    | rfl

theorem execStageResultWritten_kept (ctx : Fin 1024) (slot : Fin 16) (s : State) :
    KeptBy (execStageResultWritten ctx slot s) s := by
  unfold execStageResultWritten
  repeat' first
    | with_reducible rfl
    | refine keptBy_ok ?_
    | exact keptBy_fault _ _
    | simp only [kept_mk, kept_eta, kept_ite, ite_self, go_kept, stageResult_kept, settle_kept]
    | split
    | rfl

theorem execPremarkTimeout_kept (ctx : Fin 1024) (s : State) : KeptBy (execPremarkTimeout ctx s) s := by
  unfold execPremarkTimeout
  repeat' first
    | with_reducible rfl
    | refine keptBy_ok ?_
    | exact keptBy_fault _ _
    | simp only [kept_mk, kept_eta, kept_ite, ite_self, go_kept, premarkTimeout_kept, settle_kept]
    | split
    | rfl

theorem execProgramStoreReload_kept (s : State) : KeptBy (execProgramStoreReload s) s := by
  unfold execProgramStoreReload
  repeat' first
    | with_reducible rfl
    | refine keptBy_ok ?_
    | exact keptBy_fault _ _
    | simp only [kept_mk, kept_eta, kept_ite, ite_self, go_kept, settle_kept]
    | split
    | rfl

theorem storeSched_kept {key : Nat} {x : List Byte} {s t : State} (e : storeSched key x s = some t) : kept t = kept s := by
  unfold storeSched at e
  dsimp only at e
  split at e
  · cases e; rfl
  · split at e
    · cases e; rfl
    · cases e

theorem scheduleStored_kept (s : State) : kept (scheduleStored s) = kept s := by
  unfold scheduleStored
  repeat' first
    | with_reducible rfl
    | simp only [kept_mk, kept_eta, kept_ite, ite_self, storeSched_kept]
    | split
    | exact storeSched_kept (by assumption)
    | rfl

theorem releaseSched_kept (geom : Nat) (erased : Word) (s : State) : kept (releaseSched geom erased s) = kept s := by
  unfold releaseSched
  repeat' first
    | with_reducible rfl
    | simp only [kept_mk, kept_eta, kept_ite, ite_self, stageResult_kept, updInflight_kept]
    | split
    | refine (kept_foldl _ _ _ fun _ _ => ?_).trans ?_
    | refine (kept_foldl_snd _ _ _ fun _ _ => ?_).trans ?_
    | rfl

theorem execScheduleStored_kept (s : State) : KeptBy (execScheduleStored s) s := by
  unfold execScheduleStored
  repeat' first
    | with_reducible rfl
    | refine keptBy_ok ?_
    | exact keptBy_fault _ _
    | simp only [kept_mk, kept_eta, kept_ite, ite_self, go_kept, releaseSched_kept, scheduleStored_kept, settle_kept]
    | split
    | rfl

theorem execLongWait_kept (geometry : Fin 16) (erased : Word) (s : State) : KeptBy (execLongWait geometry erased s) s := by
  unfold execLongWait
  repeat' first
    | with_reducible rfl
    | refine keptBy_ok ?_
    | exact keptBy_fault _ _
    | simp only [kept_mk, kept_eta, kept_ite, ite_self, timeTo_kept, raiseFree_kept]
    | split
    | rfl

theorem execPlanSectionReload_kept (geometry : Fin 16) (s : State) : KeptBy (execPlanSectionReload geometry s) s := by
  unfold execPlanSectionReload
  repeat' first
    | with_reducible rfl
    | refine keptBy_ok ?_
    | exact keptBy_fault _ _
    | simp only [kept_mk, kept_eta, kept_ite, ite_self, go_kept, settle_kept]
    | split
    | rfl

/-! ## Machine/CacheRows.lean -/

theorem passWay_kept (x o : Nat) (s : State) : kept (passWay x o s) = kept s := by
  unfold passWay
  repeat' first
    | with_reducible rfl
    | simp only [kept_mk, kept_eta, kept_ite, ite_self, updOp_kept]
    | split
    | rfl

theorem retryAlloc_kept (o : Nat) (s : State) : kept (retryAlloc o s) = kept s := by
  unfold retryAlloc
  repeat' first
    | with_reducible rfl
    | simp only [kept_mk, kept_eta, kept_ite, ite_self, updOp_kept, placeWrite_kept, probeRead_kept, rowTurn_kept]
    | split
    | rfl

theorem endEviction_kept (x : Nat) (s : State) : kept (endEviction x s) = kept s := by
  unfold endEviction
  repeat' first
    | with_reducible rfl
    | simp only [kept_mk, kept_eta, kept_ite, ite_self, touch_kept, setTag_kept, retryAlloc_kept, passWay_kept]
    | split
    | rfl

theorem execEvictionEnd_kept (set : Fin 65536) (way : Fin 16) (s : State) : KeptBy (execEvictionEnd set way s) s := by
  unfold execEvictionEnd
  repeat' first
    | with_reducible rfl
    | refine keptBy_ok ?_
    | exact keptBy_fault _ _
    | simp only [kept_mk, kept_eta, kept_ite, ite_self, go_kept, endEviction_kept, settle_kept]
    | split
    | rfl

theorem execAllocationRetry_kept (set : Fin 65536) (s : State) : KeptBy (execAllocationRetry set s) s := by
  unfold execAllocationRetry
  repeat' first
    | with_reducible rfl
    | refine keptBy_ok ?_
    | exact keptBy_fault _ _
    | simp only [kept_mk, kept_eta, kept_ite, ite_self, go_kept, retryAlloc_kept, settle_kept]
    | split
    | refine (kept_foldl _ _ _ fun _ _ => ?_).trans ?_
    | refine (kept_foldl_snd _ _ _ fun _ _ => ?_).trans ?_
    | rfl

theorem execAllocationLongWait_kept (op : Nat) (s : State) : KeptBy (execAllocationLongWait op s) s := by
  unfold execAllocationLongWait
  repeat' first
    | with_reducible rfl
    | refine keptBy_ok ?_
    | exact keptBy_fault _ _
    | simp only [kept_mk, kept_eta, kept_ite, ite_self, raiseFree_kept, timeTo_kept]
    | split
    | rfl

theorem destageAged_kept (l row sl : Nat) (s : State) : kept (destageAged l row sl s) = kept s := by
  unfold destageAged
  repeat' first
    | with_reducible rfl
    | simp only [kept_mk, kept_eta, kept_ite, ite_self, destageSlice_kept, timeTo_kept]
    | split
    | rfl

theorem execDestageAge_kept (pool : Fin 8) (row : Nat) (slice : Nat) (s : State) :
    KeptBy (execDestageAge pool row slice s) s := by
  unfold execDestageAge
  repeat' first
    | with_reducible rfl
    | refine keptBy_ok ?_
    | exact keptBy_fault _ _
    | simp only [kept_mk, kept_eta, kept_ite, ite_self, go_kept, destageAged_kept, settle_kept]
    | split
    | rfl

theorem destageAgain_kept (l row sl : Nat) (s : State) : kept (destageAgain l row sl s) = kept s := by
  unfold destageAgain
  repeat' first
    | with_reducible rfl
    | simp only [kept_mk, kept_eta, kept_ite, ite_self, destageSlice_kept, timeTo_kept]
    | split
    | rfl

theorem execDestageRetry_kept (pool : Fin 8) (row : Nat) (slice : Nat) (s : State) :
    KeptBy (execDestageRetry pool row slice s) s := by
  unfold execDestageRetry
  repeat' first
    | with_reducible rfl
    | refine keptBy_ok ?_
    | exact keptBy_fault _ _
    | simp only [kept_mk, kept_eta, kept_ite, ite_self, go_kept, destageAgain_kept, settle_kept]
    | split
    | rfl

theorem execTagScrub_kept (errs : List TagErr) (s : State) : KeptBy (execTagScrub errs s) s := by
  unfold execTagScrub
  repeat' first
    | with_reducible rfl
    | refine keptBy_ok ?_
    | exact keptBy_fault _ _
    | simp only [kept_mk, kept_eta, kept_ite, ite_self, timeTo_kept, go_kept, meetTags_kept, settle_kept]
    | split
    | rfl

theorem execDramScrub_kept (errs : List DramErr) (s : State) : KeptBy (execDramScrub errs s) s := by
  unfold execDramScrub
  repeat' first
    | with_reducible rfl
    | refine keptBy_ok ?_
    | exact keptBy_fault _ _
    | simp only [kept_mk, kept_eta, kept_ite, ite_self, timeTo_kept, go_kept, dramError_kept, settle_kept]
    | split
    | refine (kept_foldl _ _ _ fun _ _ => ?_).trans ?_
    | refine (kept_foldl_snd _ _ _ fun _ _ => ?_).trans ?_
    | rfl

theorem execRegionSweep_kept (s : State) : KeptBy (execRegionSweep s) s := by
  unfold execRegionSweep
  repeat' first
    | with_reducible rfl
    | refine keptBy_ok ?_
    | exact keptBy_fault _ _
    | simp only [kept_mk, kept_eta, kept_ite, ite_self, timeTo_kept]
    | split
    | rfl

theorem execCheckpoint_kept (s : State) : KeptBy (execCheckpoint s) s := by
  unfold execCheckpoint
  repeat' first
    | with_reducible rfl
    | refine keptBy_ok ?_
    | exact keptBy_fault _ _
    | simp only [kept_mk, kept_eta, kept_ite, ite_self, go_kept, startCkpt_kept, timeTo_kept, settle_kept]
    | split
    | rfl

theorem readHeaders_kept (q p n : Nat) (s : State) : kept (readHeaders q p n s) = kept s := by
  unfold readHeaders
  repeat' first
    | with_reducible rfl
    | simp only [kept_mk, kept_eta, kept_ite, ite_self, sendMember_kept]
    | split
    | refine (kept_foldl _ _ _ fun _ _ => ?_).trans ?_
    | refine (kept_foldl_snd _ _ _ fun _ _ => ?_).trans ?_
    | rfl

theorem noteHeader_kept (m : MCmd) (a : Bool) (data : List Byte) (s : State) : kept (noteHeader m a data s) = kept s := by
  unfold noteHeader
  repeat' first
    | with_reducible rfl
    | simp only [kept_mk, kept_eta, kept_ite, ite_self]
    | split
    | rfl

theorem notePages_kept (m : MCmd) (a : Bool) (off : Nat) (data : List Byte) (s : State) :
    kept (notePages m a off data s) = kept s := by
  unfold notePages
  repeat' first
    | with_reducible rfl
    | simp only [kept_mk, kept_eta, kept_ite, ite_self]
    | split
    | rfl

theorem invCtl_kept (v : Word) (s : State) : kept (invCtl v s) = kept s := by
  unfold invCtl
  repeat' first
    | with_reducible rfl
    | simp only [kept_mk, kept_eta, kept_ite, ite_self, endInvalidate_kept, destagePlaces_kept]
    | split
    | rfl

theorem execRangeInvalidate_kept (value : Word) (s : State) : KeptBy (execRangeInvalidate value s) s := by
  unfold execRangeInvalidate
  repeat' first
    | with_reducible rfl
    | refine keptBy_ok ?_
    | exact keptBy_fault _ _
    | simp only [kept_mk, kept_eta, kept_ite, ite_self, go_kept, barWrite_kept, invCtl_kept, settle_kept]
    | split
    | refine (barWrite_kept _ _ _ _ ?_).trans ?_
    | rfl

theorem wayMask_kept (cls : Option (Fin 16)) (v : Word) (s : State) : kept (wayMask cls v s) = kept s := by
  unfold wayMask
  repeat' first
    | with_reducible rfl
    | simp only [kept_mk, kept_eta, kept_ite, ite_self, raiseFree_kept]
    | split
    | rfl

theorem execWayMaskWrite_kept (cls : Option (Fin 16)) (value : Word) (s : State) :
    KeptBy (execWayMaskWrite cls value s) s := by
  unfold execWayMaskWrite
  repeat' first
    | with_reducible rfl
    | refine keptBy_ok ?_
    | exact keptBy_fault _ _
    | simp only [kept_mk, kept_eta, kept_ite, ite_self, barWrite_kept, wayMask_kept]
    | split
    | refine (barWrite_kept _ _ _ _ ?_).trans ?_
    | rfl

theorem clearUnnamed_kept (s : State) : kept (clearUnnamed s) = kept s := by
  unfold clearUnnamed
  repeat' first
    | with_reducible rfl
    | simp only [kept_mk, kept_eta, kept_ite, ite_self, ledCommit_kept]
    | split
    | rfl

theorem execUnnamedLossClear_kept (s : State) : KeptBy (execUnnamedLossClear s) s := by
  unfold execUnnamedLossClear
  repeat' first
    | with_reducible rfl
    | refine keptBy_ok ?_
    | exact keptBy_fault _ _
    | simp only [kept_mk, kept_eta, kept_ite, ite_self, barWrite_kept, clearUnnamed_kept]
    | split
    | refine (barWrite_kept _ _ _ _ ?_).trans ?_
    | rfl

/-! ## Machine/Level.lean -/

theorem setCap_kept (s : State) : kept (setCap s) = kept s := by
  unfold setCap
  repeat' first
    | with_reducible rfl
    | simp only [kept_mk, kept_eta, kept_ite, ite_self, relevel_kept, event_kept, pressure_kept]
    | split
    | rfl

theorem setFence_kept (u : UnitNo) (s : State) : kept (setFence u s) = kept s := by
  unfold setFence
  repeat' first
    | with_reducible rfl
    | simp only [kept_mk, kept_eta, kept_ite, ite_self]
    | split
    | rfl

theorem moveDuties_kept (s : State) : kept (moveDuties s) = kept s := rfl

theorem loseChannel_kept (ch : Nat) (s : State) : kept (loseChannel ch s) = kept s := by
  unfold loseChannel
  repeat' first
    | with_reducible rfl
    | simp only [kept_mk, kept_eta, kept_ite, ite_self, loseSec_kept]
    | split
    | refine (kept_foldl _ _ _ fun _ _ => ?_).trans ?_
    | refine (kept_foldl_snd _ _ _ fun _ _ => ?_).trans ?_
    | rfl

theorem dropSchedules_kept (ch : Nat) (s : State) : kept (dropSchedules ch s) = kept s := by
  unfold dropSchedules
  repeat' first
    | with_reducible rfl
    | simp only [kept_mk, kept_eta, kept_ite, ite_self]
    | split
    | rfl

theorem setHold_kept (b : Bool) (s : State) : kept (setHold b s) = kept s := by
  unfold setHold
  repeat' first
    | with_reducible rfl
    | simp only [kept_mk, kept_eta, kept_ite, ite_self, emit_kept]
    | split
    | rfl

theorem dropWork_kept (s : State) : kept (dropWork s) = kept s := rfl

theorem loseService_kept (why : Nat) (s : State) : kept (loseService why s) = kept s := by
  unfold loseService
  repeat' first
    | with_reducible rfl
    | simp only [kept_mk, kept_eta, kept_ite, ite_self, dropWork_kept, setHold_kept]
    | split
    | rfl

theorem loseVault_kept (s : State) : kept (loseVault s) = kept s := by
  unfold loseVault
  repeat' first
    | with_reducible rfl
    | simp only [kept_mk, kept_eta, kept_ite, ite_self, settleVault_kept, addLostW_kept]
    | split
    | refine (kept_foldl _ _ _ fun _ _ => ?_).trans ?_
    | refine (kept_foldl_snd _ _ _ fun _ _ => ?_).trans ?_
    | rfl

theorem serviceLeft_kept (s : State) : kept (serviceLeft s) = kept s := by
  unfold serviceLeft
  repeat' first
    | with_reducible rfl
    | simp only [kept_mk, kept_eta, kept_ite, ite_self, loseService_kept]
    | split
    | rfl

theorem fenceUnit_kept (u : UnitNo) (s : State) : kept (fenceUnit u s) = kept s := by
  unfold fenceUnit
  repeat' first
    | with_reducible rfl
    | simp only [kept_mk, kept_eta, kept_ite, ite_self, recEvent_kept, setFence_kept, dropSchedules_kept,
        loseChannel_kept, loseVault_kept, setCap_kept, serviceLeft_kept, moveDuties_kept]
    | split
    | rfl

/-! ## Machine/Pack.lean -/

theorem unitsRound_kept (s : State) : kept (unitsRound s) = kept s := by
  unfold unitsRound
  repeat' first
    | with_reducible rfl
    | simp only [kept_mk, kept_eta, kept_ite, ite_self, setCap_kept]
    | split
    | refine (kept_foldl _ _ _ fun _ _ => ?_).trans ?_
    | refine (kept_foldl_snd _ _ _ fun _ _ => ?_).trans ?_
    | rfl

theorem packEvent_kept (changed : Bool) (s : State) : kept (packEvent changed s) = kept s := by
  unfold packEvent
  repeat' first
    | with_reducible rfl
    | simp only [kept_mk, kept_eta, kept_ite, ite_self, event_kept]
    | split
    | rfl

theorem setDraw_kept (b : Bool) (s : State) : kept (setDraw b s) = kept s := by
  unfold setDraw
  repeat' first
    | with_reducible rfl
    | simp only [kept_mk, kept_eta, kept_ite, ite_self, emit_kept]
    | split
    | rfl

theorem setInh_kept (s : State) : kept (setInh s) = kept s := by
  unfold setInh
  repeat' first
    | with_reducible rfl
    | simp only [kept_mk, kept_eta, kept_ite, ite_self, emit_kept]
    | split
    | rfl

theorem packCommit_kept (s : State) : kept (packCommit s) = kept s := rfl

theorem abandonLearn_kept (code : Nat) (s : State) : kept (abandonLearn code s) = kept s := by
  unfold abandonLearn
  repeat' first
    | with_reducible rfl
    | simp only [kept_mk, kept_eta, kept_ite, ite_self, setInh_kept, setDraw_kept]
    | split
    | rfl

theorem judgeAbsent_kept (s : State) : kept (judgeAbsent s) = kept s := by
  unfold judgeAbsent
  repeat' first
    | with_reducible rfl
    | simp only [kept_mk, kept_eta, kept_ite, ite_self, packEvent_kept, abandonLearn_kept]
    | split
    | rfl

theorem newPack_kept (b : List Byte) (s : State) : kept (newPack b s) = kept s := by
  unfold newPack
  repeat' first
    | with_reducible rfl
    | simp only [kept_mk, kept_eta, kept_ite, ite_self, abandonLearn_kept, packEvent_kept, packCommit_kept]
    | split
    | rfl

theorem readIdentity_kept (block : Option (List Byte)) (s : State) : kept (readIdentity block s) = kept s := by
  unfold readIdentity
  repeat' first
    | with_reducible rfl
    | simp only [kept_mk, kept_eta, kept_ite, ite_self, raise_kept, nextFree_kept, newPack_kept, judgeAbsent_kept]
    | split
    | rfl

theorem execPackIdentityRead_kept (block : Option (List Byte)) (s : State) : KeptBy (execPackIdentityRead block s) s := by
  unfold execPackIdentityRead
  repeat' first
    | with_reducible rfl
    | refine keptBy_ok ?_
    | exact keptBy_fault _ _
    | simp only [kept_mk, kept_eta, kept_ite, ite_self, timeToOp_kept, go_kept, readIdentity_kept, settle_kept]
    | split
    | rfl

theorem execPackPresN_kept (high : Bool) (block : Option (List Byte)) (s : State) :
    KeptBy (execPackPresN high block s) s := by
  unfold execPackPresN
  repeat' first
    | with_reducible rfl
    | refine keptBy_ok ?_
    | exact keptBy_fault _ _
    | simp only [kept_mk, kept_eta, kept_ite, ite_self, go_kept, readIdentity_kept, settle_kept]
    | split
    | rfl

theorem acceptLearn_kept (a b : RestPt) (q : Frac) (s : State) : kept (acceptLearn a b q s) = kept s := by
  unfold acceptLearn
  repeat' first
    | with_reducible rfl
    | simp only [kept_mk, kept_eta, kept_ite, ite_self, packCommit_kept, packEvent_kept]
    | split
    | rfl

theorem rejectLearn_kept (s : State) : kept (rejectLearn s) = kept s := by
  unfold rejectLearn
  repeat' first
    | with_reducible rfl
    | simp only [kept_mk, kept_eta, kept_ite, ite_self, raiseOpen_kept]
    | split
    | rfl

theorem endCycle_kept (a b : RestPt) (s : State) : kept (endCycle a b s) = kept s := by
  unfold endCycle
  repeat' first
    | with_reducible rfl
    | simp only [kept_mk, kept_eta, kept_ite, ite_self, abandonLearn_kept, raiseOpen_kept, acceptLearn_kept,
        setInh_kept]
    | split
    | rfl

theorem learnFrom_kept (b : RestPt) (s : State) : kept (learnFrom b s) = kept s := by
  unfold learnFrom
  repeat' first
    | with_reducible rfl
    | simp only [kept_mk, kept_eta, kept_ite, ite_self, rejectLearn_kept, acceptLearn_kept]
    | split
    | rfl

theorem anchor_kept (s : State) : kept (anchor s).2 = kept s := rfl

theorem restPoint_kept (s : State) : kept (restPoint s) = kept s := by
  unfold restPoint
  repeat' first
    | with_reducible rfl
    | simp only [kept_mk, kept_eta, kept_ite, ite_self, timeTo_kept, anchor_kept, endCycle_kept, learnFrom_kept]
    | split
    | rfl

theorem execRestPoint_kept (s : State) : KeptBy (execRestPoint s) s := by
  unfold execRestPoint
  repeat' first
    | with_reducible rfl
    | refine keptBy_ok ?_
    | exact keptBy_fault _ _
    | simp only [kept_mk, kept_eta, kept_ite, ite_self, go_kept, setCap_kept, restPoint_kept, settle_kept]
    | split
    | rfl

theorem execPackUnproven_kept (s : State) : KeptBy (execPackUnproven s) s := by
  unfold execPackUnproven
  repeat' first
    | with_reducible rfl
    | refine keptBy_ok ?_
    | exact keptBy_fault _ _
    | simp only [kept_mk, kept_eta, kept_ite, ite_self, timeToOp_kept, packEvent_kept, raiseOpen_kept]
    | split
    | rfl

theorem execLearnRepropose_kept (s : State) : KeptBy (execLearnRepropose s) s := by
  unfold execLearnRepropose
  repeat' first
    | with_reducible rfl
    | refine keptBy_ok ?_
    | exact keptBy_fault _ _
    | simp only [kept_mk, kept_eta, kept_ite, ite_self, packEvent_kept, timeToOp_kept]
    | split
    | rfl

theorem startLearn_kept (s : State) : kept (startLearn s) = kept s := by
  unfold startLearn
  repeat' first
    | with_reducible rfl
    | simp only [kept_mk, kept_eta, kept_ite, ite_self, anchor_kept, setInh_kept, setCap_kept]
    | split
    | rfl

theorem execLearnApprove_kept (s : State) : KeptBy (execLearnApprove s) s := by
  unfold execLearnApprove
  repeat' first
    | with_reducible rfl
    | refine keptBy_ok ?_
    | exact keptBy_fault _ _
    | simp only [kept_mk, kept_eta, kept_ite, ite_self, go_kept, adminOk_kept, abandonLearn_kept, adminFail_kept,
        startLearn_kept, settle_kept]
    | split
    | refine (asAdmin_kept _ _ _ fun _ _ => ?_).trans ?_
    | rfl

theorem execLearnDischargeEnd_kept (s : State) : KeptBy (execLearnDischargeEnd s) s := by
  unfold execLearnDischargeEnd
  repeat' first
    | with_reducible rfl
    | refine keptBy_ok ?_
    | exact keptBy_fault _ _
    | simp only [kept_mk, kept_eta, kept_ite, ite_self, setDraw_kept]
    | split
    | rfl

theorem execLearnTimeout_kept (s : State) : KeptBy (execLearnTimeout s) s := by
  unfold execLearnTimeout
  repeat' first
    | with_reducible rfl
    | refine keptBy_ok ?_
    | exact keptBy_fault _ _
    | simp only [kept_mk, kept_eta, kept_ite, ite_self, go_kept, setCap_kept, abandonLearn_kept, timeToOp_kept,
        settle_kept]
    | split
    | rfl

theorem chargerRound_kept (m : PackReading) (s : State) : kept (chargerRound m s) = kept s := by
  unfold chargerRound
  repeat' first
    | with_reducible rfl
    | simp only [kept_mk, kept_eta, kept_ite, ite_self, setInh_kept, raiseOpen_kept]
    | split
    | rfl

theorem execChargerStuck_kept (s : State) : KeptBy (execChargerStuck s) s := by
  unfold execChargerStuck
  repeat' first
    | with_reducible rfl
    | refine keptBy_ok ?_
    | exact keptBy_fault _ _
    | simp only [kept_mk, kept_eta, kept_ite, ite_self, raiseOpen_kept, timeToOp_kept]
    | split
    | rfl

theorem socRound_kept (m : PackReading) (q : Frac) (s : State) : kept (socRound m q s) = kept s := by
  unfold socRound
  repeat' first
    | with_reducible rfl
    | simp only [kept_mk, kept_eta, kept_ite, ite_self]
    | split
    | rfl

theorem countRound_kept (m : PackReading) (q : Frac) (s : State) : kept (countRound m q s) = kept s := rfl

theorem restRound_kept (m : PackReading) (q : Frac) (s : State) : kept (restRound m q s) = kept s := by
  unfold restRound
  repeat' first
    | with_reducible rfl
    | simp only [kept_mk, kept_eta, kept_ite, ite_self]
    | split
    | rfl

theorem measureRho_kept (m : PackReading) (s : State) : kept (measureRho m s) = kept s := by
  unfold measureRho
  repeat' first
    | with_reducible rfl
    | simp only [kept_mk, kept_eta, kept_ite, ite_self]
    | split
    | rfl

theorem learnRound_kept (m : PackReading) (q : Frac) (s : State) : kept (learnRound m q s) = kept s := by
  unfold learnRound
  repeat' first
    | with_reducible rfl
    | simp only [kept_mk, kept_eta, kept_ite, ite_self, abandonLearn_kept, setDraw_kept, measureRho_kept]
    | split
    | rfl

theorem packRound_kept (m : PackReading) (s : State) : kept (packRound m s) = kept s := by
  unfold packRound
  repeat' first
    | with_reducible rfl
    | simp only [kept_mk, kept_eta, kept_ite, ite_self, raise_kept, judgeAbsent_kept, chargerRound_kept, restRound_kept,
        countRound_kept, socRound_kept, learnRound_kept]
    | split
    | rfl

/-! ## Machine/Flush.lean -/

theorem noteHour_kept (f : HourLog → HourLog) (s : State) : kept (noteHour f s) = kept s := by
  unfold noteHour
  repeat' first
    | with_reducible rfl
    | simp only [kept_mk, kept_eta, kept_ite, ite_self]
    | split
    | rfl

theorem noteWords_kept (s : State) : kept (noteWords s) = kept s := by
  unfold noteWords
  repeat' first
    | with_reducible rfl
    | simp only [kept_mk, kept_eta, kept_ite, ite_self, noteHour_kept]
    | split
    | rfl

theorem programLine_kept (x : Nat) (h : Shadow) (s : State) : kept (programLine x h s) = kept s := by
  unfold programLine
  repeat' first
    | with_reducible rfl
    | simp only [kept_mk, kept_eta, kept_ite, ite_self]
    | split
    | rfl

theorem programLines_kept (l : Tbl Shadow) (s : State) : kept (programLines l s) = kept s := by
  unfold programLines
  repeat' first
    | with_reducible rfl
    | simp only [kept_mk, kept_eta, kept_ite, ite_self, programLine_kept]
    | split
    | refine (kept_foldl _ _ _ fun _ _ => ?_).trans ?_
    | refine (kept_foldl_snd _ _ _ fun _ _ => ?_).trans ?_
    | rfl

theorem flushErrors_kept (errs : List DramErr) (s : State) : kept (flushErrors errs s) = kept s := by
  unfold flushErrors
  repeat' first
    | with_reducible rfl
    | simp only [kept_mk, kept_eta, kept_ite, ite_self, dramError_kept]
    | split
    | refine (kept_foldl _ _ _ fun _ _ => ?_).trans ?_
    | refine (kept_foldl_snd _ _ _ fun _ _ => ?_).trans ?_
    | rfl

theorem programVault_kept (errs : List DramErr) (s : State) : kept (programVault errs s) = kept s := by
  unfold programVault
  repeat' first
    | with_reducible rfl
    | simp only [kept_ite, ite_self, programLines_kept, flushErrors_kept]
    | split

theorem vidSteps_kept (n a b : Nat) (s : State) : kept (vidSteps n a b s) = kept s := by
  induction n generalizing a s with
  | zero => rfl
  | succ n ih =>
    unfold vidSteps
    split
    · rfl
    · exact (ih _ _).trans (emit_kept _ _)

theorem setVid_kept (c : Nat) (s : State) : kept (setVid c s) = kept s := by
  unfold setVid
  repeat' first
    | with_reducible rfl
    | simp only [kept_mk, kept_eta, kept_ite, ite_self, vidSteps_kept]
    | split
    | rfl

theorem commitCounters_kept (s : State) : kept (commitCounters s) = kept s := rfl

theorem refuseWrites_kept (s : State) : kept (refuseWrites s) = kept s := by
  unfold refuseWrites
  repeat' first
    | with_reducible rfl
    | simp only [kept_mk, kept_eta, kept_ite, ite_self, dropCmd_kept]
    | split
    | refine (kept_foldl _ _ _ fun _ _ => ?_).trans ?_
    | refine (kept_foldl_snd _ _ _ fun _ _ => ?_).trans ?_
    | rfl

theorem startFlush_kept (cause : Nat) (cold : Bool) (s : State) : kept (startFlush cause cold s) = kept s := by
  unfold startFlush
  repeat' first
    | with_reducible rfl
    | simp only [kept_mk, kept_eta, kept_ite, ite_self, abandonLearn_kept, refuseWrites_kept, sendPair_kept,
        dropWork_kept, setHold_kept, commitCounters_kept]
    | split
    | rfl

theorem closeFlush_kept (state : Nat) (s : State) : kept (closeFlush state s) = kept s := by
  unfold closeFlush
  repeat' first
    | with_reducible rfl
    | simp only [kept_mk, kept_eta, kept_ite, ite_self, flushRecs_kept, commitCounters_kept, timeTo_kept, setHold_kept]
    | split
    | rfl

theorem afterFlush_kept (mainPower : Bool) (s : State) : kept (afterFlush mainPower s) = kept s := by
  unfold afterFlush
  repeat' first
    | with_reducible rfl
    | simp only [kept_mk, kept_eta, kept_ite, ite_self]
    | split
    | rfl

theorem tornFlush_kept (s : State) : kept (tornFlush s) = kept s := by
  unfold tornFlush
  repeat' first
    | with_reducible rfl
    | simp only [kept_mk, kept_eta, kept_ite, ite_self, nextFree_kept, programLines_kept]
    | split
    | rfl

theorem flushEnds_kept (mainPower : Bool) (errs : List DramErr) (s : State) :
    kept (flushEnds mainPower errs s) = kept s := by
  unfold flushEnds
  repeat' first
    | with_reducible rfl
    | simp only [kept_mk, kept_eta, kept_ite, ite_self, afterFlush_kept, closeFlush_kept, programVault_kept]
    | split
    | rfl

theorem execFlushEnd_kept (e : FlushIn) (s : State) : KeptBy (execFlushEnd e s) s := by
  unfold execFlushEnd
  repeat' first
    | with_reducible rfl
    | refine keptBy_ok ?_
    | exact keptBy_fault _ _
    | simp only [kept_mk, kept_eta, kept_ite, ite_self, flushEnds_kept]
    | split
    | rfl

theorem execVaultHotWaitEnd_kept (s : State) : KeptBy (execVaultHotWaitEnd s) s := by
  unfold execVaultHotWaitEnd
  repeat' first
    | with_reducible rfl
    | refine keptBy_ok ?_
    | exact keptBy_fault _ _
    | simp only [kept_mk, kept_eta, kept_ite, ite_self]
    | split
    | rfl

theorem execPfailN_kept (low : Bool) (s : State) : KeptBy (execPfailN low s) s := by
  unfold execPfailN
  repeat' first
    | with_reducible rfl
    | refine keptBy_ok ?_
    | exact keptBy_fault _ _
    | simp only [kept_mk, kept_eta, kept_ite, ite_self, startFlush_kept]
    | split
    | rfl

theorem execRailMonitorTrip_kept (_rail : MonRail) (s : State) : KeptBy (execRailMonitorTrip _rail s) s := by
  unfold execRailMonitorTrip
  repeat' first
    | with_reducible rfl
    | refine keptBy_ok ?_
    | exact keptBy_fault _ _
    | simp only [kept_mk, kept_eta, kept_ite, ite_self, startFlush_kept]
    | split
    | rfl

theorem execPwrokFall_kept (s : State) : KeptBy (execPwrokFall s) s := by
  unfold execPwrokFall
  repeat' first
    | with_reducible rfl
    | refine keptBy_ok ?_
    | exact keptBy_fault _ _
    | simp only [kept_mk, kept_eta, kept_ite, ite_self, emit_kept, tornFlush_kept, dropWork_kept]
    | split
    | rfl

/-! ## Machine/Secure.lean -/

theorem runSlot_kept (i : Nat) (s : State) : kept (runSlot i s) = kept s := rfl

theorem verifyFirmware_kept (s : State) : kept (verifyFirmware s).2 = kept s := by
  unfold verifyFirmware
  repeat' first
    | with_reducible rfl
    | simp only [kept_mk, kept_eta, kept_ite, ite_self, runSlot_kept, raiseOpen_kept]
    | split
    | rfl

theorem authRefused_kept (c : Nat) (reason : Nat) (s : State) : kept (authRefused c reason s) = kept s := by
  unfold authRefused
  repeat' first
    | with_reducible rfl
    | simp only [kept_mk, kept_eta, kept_ite, ite_self, adminFail_kept, raiseOpen_kept]
    | split
    | rfl

theorem authAccept_kept (a : List Byte) (s : State) : kept (authAccept a s) = kept s := rfl

theorem withAuth_kept (c op : Nat) (av a : List Byte) (f : State → State) (s : State) (h : kept (f s) = kept s) :
    kept (withAuth c op av a f s) = kept s := by
  refine commitGate_kept _ _ _ ?_
  repeat' first | exact h | simp only [adminFail_kept, authRefused_kept] | split

/-! ## Machine/PairOps.lean -/

theorem setPairSt_kept (n : Nat) (s : State) : kept (setPairSt n s) = kept s := by
  unfold setPairSt
  repeat' first
    | with_reducible rfl
    | simp only [kept_mk, kept_eta, kept_ite, ite_self, event_kept]
    | split
    | rfl

theorem detach_kept (p : Nat) (s : State) : kept (detach p s) = kept s := by
  unfold detach
  repeat' first
    | with_reducible rfl
    | simp only [kept_mk, kept_eta, kept_ite, ite_self]
    | split
    | rfl

theorem acquiresLeft_kept (p n : Nat) (s : State) : kept (acquiresLeft p n s) = kept s := by
  unfold acquiresLeft
  repeat' first
    | with_reducible rfl
    | simp only [kept_mk, kept_eta, kept_ite, ite_self]
    | split
    | rfl

theorem resvTo_kept (p : Nat) (slots : List Nat) (r : MReq) (s : State) : kept (resvTo p slots r s).2 = kept s := by
  unfold resvTo
  repeat' first
    | with_reducible rfl
    | simp only [kept_mk, kept_eta, kept_ite, ite_self, sendMember_kept]
    | split
    | refine (kept_foldl _ _ _ fun _ _ => ?_).trans ?_
    | refine (kept_foldl_snd _ _ _ fun _ _ => ?_).trans ?_
    | rfl

theorem rerun_kept (p : Nat) (s : State) : kept (rerun p s) = kept s := by
  unfold rerun
  repeat' first
    | with_reducible rfl
    | simp only [kept_mk, kept_eta, kept_ite, ite_self, startIo_kept, updCmd_kept]
    | split
    | refine (kept_foldl _ _ _ fun _ _ => ?_).trans ?_
    | refine (kept_foldl_snd _ _ _ fun _ _ => ?_).trans ?_
    | rfl

theorem refuseForwarded_kept (p : Nat) (s : State) : kept (refuseForwarded p s) = kept s := by
  unfold refuseForwarded
  repeat' first
    | with_reducible rfl
    | simp only [kept_mk, kept_eta, kept_ite, ite_self, finishCmd_kept]
    | split
    | refine (kept_foldl _ _ _ fun _ _ => ?_).trans ?_
    | refine (kept_foldl_snd _ _ _ fun _ _ => ?_).trans ?_
    | rfl

theorem adoptMirror_kept (p : Nat) (s : State) : kept (adoptMirror p s) = kept s := by
  unfold adoptMirror
  repeat' first
    | with_reducible rfl
    | simp only [kept_mk, kept_eta, kept_ite, ite_self]
    | split
    | refine (kept_foldl _ _ _ fun _ _ => ?_).trans ?_
    | refine (kept_foldl_snd _ _ _ fun _ _ => ?_).trans ?_
    | rfl

theorem prepare_kept (p n : Nat) (creation : Bool) (s : State) : kept (prepare p n creation s) = kept s := by
  unfold prepare
  repeat' first
    | with_reducible rfl
    | simp only [kept_mk, kept_eta, kept_ite, ite_self, updSlot_kept, sendMember_kept]
    | split
    | rfl

theorem resumeSlots_kept (p : Nat) (s : State) : kept (resumeSlots p s) = kept s := by
  unfold resumeSlots
  repeat' first
    | with_reducible rfl
    | simp only [kept_mk, kept_eta, kept_ite, ite_self, prepare_kept, updPool_kept]
    | split
    | refine (kept_foldl _ _ _ fun _ _ => ?_).trans ?_
    | refine (kept_foldl_snd _ _ _ fun _ _ => ?_).trans ?_
    | rfl

theorem takeCommit_kept (p : Nat) (t : Take) (s : State) : kept (takeCommit p t s) = kept s := by
  unfold takeCommit
  repeat' first
    | with_reducible rfl
    | simp only [kept_mk, kept_eta, kept_ite, ite_self, ledCommit_kept, updPool_kept, slotFails_kept, adoptMirror_kept,
        resumeSlots_kept, recEvent_kept, setPairSt_kept, rerun_kept]
    | split
    | refine (kept_foldl _ _ _ fun _ _ => ?_).trans ?_
    | refine (kept_foldl_snd _ _ _ fun _ _ => ?_).trans ?_
    | rfl

theorem takeFail_kept (p : Nat) (s : State) : kept (takeFail p s) = kept s := by
  unfold takeFail
  repeat' first
    | with_reducible rfl
    | simp only [kept_mk, kept_eta, kept_ite, ite_self, detach_kept, setPairSt_kept, refuseForwarded_kept]
    | split
    | rfl

theorem takeMembers_kept (p : Nat) (t : Take) (s : State) : kept (takeMembers p t s) = kept s := by
  unfold takeMembers
  repeat' first
    | with_reducible rfl
    | simp only [kept_mk, kept_eta, kept_ite, ite_self, takeFail_kept, resvTo_kept, takeCommit_kept]
    | split
    | rfl

theorem startTake_kept (p : Nat) (forced : Bool) (s : State) : kept (startTake p forced s) = kept s := by
  unfold startTake
  repeat' first
    | with_reducible rfl
    | simp only [kept_mk, kept_eta, kept_ite, ite_self, resvTo_kept, takeFail_kept]
    | split
    | rfl

theorem endXfer_kept (reason : Option Nat) (s : State) : kept (endXfer reason s) = kept s := rfl

theorem acquireAll_kept (p : Nat) (s : State) : kept (acquireAll p s) = kept s := by
  unfold acquireAll
  repeat' first
    | with_reducible rfl
    | simp only [kept_mk, kept_eta, kept_ite, ite_self, resvTo_kept, acquiresLeft_kept]
    | split
    | rfl

theorem ownerHere_kept (p e : Nat) (s : State) : kept (ownerHere p e s) = kept s := by
  unfold ownerHere
  repeat' first
    | with_reducible rfl
    | simp only [kept_mk, kept_eta, kept_ite, ite_self, ledCommit_kept, updPool_kept, resumeSlots_kept, slotFails_kept]
    | split
    | refine (kept_foldl _ _ _ fun _ _ => ?_).trans ?_
    | refine (kept_foldl_snd _ _ _ fun _ _ => ?_).trans ?_
    | rfl

theorem xferStep_kept (p : Nat) (s : State) : kept (xferStep p s) = kept s := by
  unfold xferStep
  repeat' first
    | with_reducible rfl
    | simp only [kept_mk, kept_eta, kept_ite, ite_self, sendPair_kept, endXfer_kept, resvTo_kept, acquiresLeft_kept,
        ownerHere_kept]
    | split
    | rfl

theorem resvEnd_kept (p n : Nat) (good : Bool) (s : State) : kept (resvEnd p n good s) = kept s := by
  unfold resvEnd
  repeat' first
    | with_reducible rfl
    | simp only [kept_mk, kept_eta, kept_ite, ite_self, takeCommit_kept, takeMembers_kept, acquiresLeft_kept,
        slotFails_kept, xferStep_kept]
    | split
    | rfl

end Sys2Proof.Machine
end

