-- ==== Sys2Proof/Laws/KeptMembers.lean ====
section
/-! SUPPORT. Sys2Proof/Laws/KeptMembers.lean: the commands of the members, the pools and the pair leave `kept s` as it was, one lemma an operation. -/

namespace Sys2Proof.Machine

set_option linter.unusedSimpArgs false
set_option linter.unusedTactic false
set_option linter.unreachableTactic false

/-! ## Machine/MemberRows.lean -/

theorem precompute_kept (l : Nat) (s : State) : kept (precompute l s) = kept s := by
  unfold precompute
  repeat' first
    | with_reducible rfl
    | simp only [kept_mk, kept_eta, kept_ite, ite_self]
    | split
    | rfl

theorem precomputeAll_kept (s : State) : kept (precomputeAll s) = kept s := by
  unfold precomputeAll
  refine (kept_foldl _ _ _ fun u l => ?_).trans rfl
  split
  · exact precompute_kept l u
  · rfl

theorem conflictPool_kept (p : Nat) (s : State) : kept (conflictPool p s) = kept s := by
  unfold conflictPool
  repeat' first
    | with_reducible rfl
    | simp only [kept_mk, kept_eta, kept_ite, ite_self, failPoolTags_kept, updCtx_kept, retireJnl_kept,
        updInflight_kept, freeOp_kept, failSecs_kept, opLeft_kept, raiseFree_kept, recEvent_kept, nextFree_kept]
    | split
    | refine (kept_foldl _ _ _ fun _ _ => ?_).trans ?_
    | refine (kept_foldl_snd _ _ _ fun _ _ => ?_).trans ?_
    | rfl

theorem jobLess_kept (c k pos : Nat) (good : Bool) (s : State) : kept (jobLess c k pos good s) = kept s := rfl

theorem putRead_kept (c k pos fr n : Nat) (data : List Byte) (tags : List Word) (meta_ : Bool) (s : State) :
    kept (putRead c k pos fr n data tags meta_ s) = kept s := by
  unfold putRead
  repeat' first
    | with_reducible rfl
    | simp only [kept_mk, kept_eta, kept_ite, ite_self, putHSec_kept]
    | split
    | refine (kept_foldl _ _ _ fun _ _ => ?_).trans ?_
    | refine (kept_foldl_snd _ _ _ fun _ _ => ?_).trans ?_
    | rfl

theorem putTags_kept (c k pos fr n idx group : Nat) (page : List Byte) (s : State) :
    kept (putTags c k pos fr n idx group page s) = kept s := by
  unfold putTags
  repeat' first
    | with_reducible rfl
    | simp only [kept_mk, kept_eta, kept_ite, ite_self, putHSec_kept]
    | split
    | refine (kept_foldl _ _ _ fun _ _ => ?_).trans ?_
    | refine (kept_foldl_snd _ _ _ fun _ _ => ?_).trans ?_
    | rfl

theorem memberError_kept (m : MCmd) (st : MStatus) (op : Option Op) (s : State) : kept (memberError m st op s) = kept s := by
  unfold memberError
  repeat' first
    | with_reducible rfl
    | simp only [kept_mk, kept_eta, kept_ite, ite_self, queueCheck_kept, sendPair_kept, raise_kept, conflictPool_kept,
        slotFails_kept, updSlot_kept]
    | split
    | rfl

theorem resvLost_kept (was s : State) : kept (resvLost was s) = kept s := by
  unfold resvLost
  repeat' first
    | with_reducible rfl
    | simp only [kept_mk, kept_eta, kept_ite, ite_self, resvEnd_kept]
    | split
    | refine (kept_foldl _ _ _ fun _ _ => ?_).trans ?_
    | refine (kept_foldl_snd _ _ _ fun _ _ => ?_).trans ?_
    | rfl

theorem slowMark_kept (tag : Nat) (s : State) : kept (slowMark tag s) = kept s := by
  unfold slowMark
  repeat' first
    | with_reducible rfl
    | simp only [kept_mk, kept_eta, kept_ite, ite_self, timeTo_kept, raise_kept, updSlot_kept, slotTo_kept,
        slotFails_kept]
    | split
    | rfl

theorem execSlowMark_kept (tag : Nat) (s : State) : KeptBy (execSlowMark tag s) s := by
  unfold execSlowMark
  repeat' first
    | with_reducible rfl
    | refine keptBy_ok ?_
    | exact keptBy_fault _ _
    | simp only [kept_mk, kept_eta, kept_ite, ite_self, go_kept, slowMark_kept, settle_kept]
    | split
    | rfl

theorem execFailLatencyTimeout_kept (tag : Nat) (s : State) : KeptBy (execFailLatencyTimeout tag s) s := by
  unfold execFailLatencyTimeout
  repeat' first
    | with_reducible rfl
    | refine keptBy_ok ?_
    | exact keptBy_fault _ _
    | simp only [kept_mk, kept_eta, kept_ite, ite_self, go_kept, timeTo_kept, resvLost_kept, sendPair_kept,
        slotFails_kept, raise_kept, settle_kept]
    | split
    | rfl

theorem windowExpiry_kept (p n : Nat) (s : State) : kept (windowExpiry p n s) = kept s := by
  unfold windowExpiry
  repeat' first
    | with_reducible rfl
    | simp only [kept_mk, kept_eta, kept_ite, ite_self, timeTo_kept, updSlot_kept, slotTo_kept]
    | split
    | refine (kept_foldl _ _ _ fun _ _ => ?_).trans ?_
    | refine (kept_foldl_snd _ _ _ fun _ _ => ?_).trans ?_
    | rfl

theorem execSuspectWindowExpiry_kept (pool : Fin 8) (slot : Fin 128) (s : State) :
    KeptBy (execSuspectWindowExpiry pool slot s) s := by
  unfold execSuspectWindowExpiry
  repeat' first
    | with_reducible rfl
    | refine keptBy_ok ?_
    | exact keptBy_fault _ _
    | simp only [kept_mk, kept_eta, kept_ite, ite_self, go_kept, windowExpiry_kept, settle_kept]
    | split
    | rfl

theorem slotEmptied_kept (p n : Nat) (s : State) : kept (slotEmptied p n s) = kept s := by
  unfold slotEmptied
  repeat' first
    | with_reducible rfl
    | simp only [kept_mk, kept_eta, kept_ite, ite_self, updSlot_kept, slotTo_kept, updPool_kept, event_kept,
        writeLabel_kept, updMport_kept]
    | split
    | rfl

theorem failureCommit_kept (p n : Nat) (s : State) : kept (failureCommit p n s) = kept s := by
  unfold failureCommit
  repeat' first
    | with_reducible rfl
    | simp only [kept_mk, kept_eta, kept_ite, ite_self, updSlot_kept, updMport_kept, slotEmptied_kept, precompute_kept,
        startRebuild_kept, updPool_kept]
    | split
    | rfl

theorem execSlotFailureCommit_kept (pool : Fin 8) (slot : Fin 128) (s : State) :
    KeptBy (execSlotFailureCommit pool slot s) s := by
  unfold execSlotFailureCommit
  repeat' first
    | with_reducible rfl
    | refine keptBy_ok ?_
    | exact keptBy_fault _ _
    | simp only [kept_mk, kept_eta, kept_ite, ite_self, go_kept, failureCommit_kept, settle_kept]
    | split
    | rfl

theorem abortTimeout_kept (q : Nat) (s : State) : kept (abortTimeout q s) = kept s := by
  unfold abortTimeout
  repeat' first
    | with_reducible rfl
    | simp only [kept_mk, kept_eta, kept_ite, ite_self, timeTo_kept, updSlot_kept, emit_kept]
    | split
    | rfl

theorem execMemberAbortTimeout_kept (port : PortNo) (s : State) : KeptBy (execMemberAbortTimeout port s) s := by
  unfold execMemberAbortTimeout
  repeat' first
    | with_reducible rfl
    | refine keptBy_ok ?_
    | exact keptBy_fault _ _
    | simp only [kept_mk, kept_eta, kept_ite, ite_self, abortTimeout_kept]
    | split
    | rfl

theorem execMemberLinkDown_kept (port : PortNo) (s : State) : KeptBy (execMemberLinkDown port s) s := by
  unfold execMemberLinkDown
  repeat' first
    | with_reducible rfl
    | refine keptBy_ok ?_
    | exact keptBy_fault _ _
    | simp only [kept_mk, kept_eta, kept_ite, ite_self, updMport_kept, raise_kept]
    | split
    | rfl

theorem forgetLink_kept (q : Nat) (s : State) : kept (forgetLink q s) = kept s := rfl

theorem linkUp_kept (q : Nat) (width : BitVec 2) (s : State) : kept (linkUp q width s) = kept s := rfl

theorem execMemberLinkRetrained_kept (port : PortNo) (width : BitVec 2) (s : State) :
    KeptBy (execMemberLinkRetrained port width s) s := by
  unfold execMemberLinkRetrained
  repeat' first
    | with_reducible rfl
    | refine keptBy_ok ?_
    | exact keptBy_fault _ _
    | simp only [kept_mk, kept_eta, kept_ite, ite_self, go_kept, linkUp_kept, settle_kept]
    | split
    | rfl

theorem execLinkRetrainTimeout_kept (port : PortNo) (s : State) : KeptBy (execLinkRetrainTimeout port s) s := by
  unfold execLinkRetrainTimeout
  repeat' first
    | with_reducible rfl
    | refine keptBy_ok ?_
    | exact keptBy_fault _ _
    | simp only [kept_mk, kept_eta, kept_ite, ite_self, go_kept, forgetLink_kept, timeTo_kept, resvLost_kept,
        slotFails_kept, settle_kept]
    | split
    | rfl

theorem execControllerFatal_kept (port : PortNo) (s : State) : KeptBy (execControllerFatal port s) s := by
  unfold execControllerFatal
  repeat' first
    | with_reducible rfl
    | refine keptBy_ok ?_
    | exact keptBy_fault _ _
    | simp only [kept_mk, kept_eta, kept_ite, ite_self, go_kept, resvLost_kept, slotFails_kept, settle_kept]
    | split
    | rfl

theorem removed_kept (q : Nat) (s : State) : kept (removed q s) = kept s := by
  unfold removed
  repeat' first
    | with_reducible rfl
    | simp only [kept_mk, kept_eta, kept_ite, ite_self, resvLost_kept, slotFails_kept, updSlot_kept, forgetLink_kept,
        updMport_kept, linkUp_kept]
    | split
    | rfl

theorem execMemberRemoved_kept (port : PortNo) (s : State) : KeptBy (execMemberRemoved port s) s := by
  unfold execMemberRemoved
  repeat' first
    | with_reducible rfl
    | refine keptBy_ok ?_
    | exact keptBy_fault _ _
    | simp only [kept_mk, kept_eta, kept_ite, ite_self, go_kept, removed_kept, settle_kept]
    | split
    | rfl

theorem portEmptied_kept (q : Nat) (s : State) : kept (portEmptied q s) = kept s := by
  unfold portEmptied
  repeat' first
    | with_reducible rfl
    | simp only [kept_mk, kept_eta, kept_ite, ite_self, removed_kept]
    | split
    | refine (kept_foldl _ _ _ fun _ _ => ?_).trans ?_
    | refine (kept_foldl_snd _ _ _ fun _ _ => ?_).trans ?_
    | rfl

theorem sidebandFrame_kept (f : BitVec 128) (s : State) : kept (sidebandFrame f s) = kept s := by
  unfold sidebandFrame
  repeat' first
    | with_reducible rfl
    | simp only [kept_mk, kept_eta, kept_ite, ite_self, timeTo_kept, updMport_kept, portEmptied_kept]
    | split
    | refine (kept_foldl _ _ _ fun _ _ => ?_).trans ?_
    | refine (kept_foldl_snd _ _ _ fun _ _ => ?_).trans ?_
    | rfl

theorem execMemberSidebandFrame_kept (presence : BitVec 128) (s : State) :
    KeptBy (execMemberSidebandFrame presence s) s := by
  unfold execMemberSidebandFrame
  repeat' first
    | with_reducible rfl
    | refine keptBy_ok ?_
    | exact keptBy_fault _ _
    | simp only [kept_mk, kept_eta, kept_ite, ite_self, go_kept, sidebandFrame_kept, settle_kept]
    | split
    | rfl

theorem closeIfFound_kept (s : State) : kept (closeIfFound s) = kept s := by
  unfold closeIfFound
  repeat' first
    | with_reducible rfl
    | simp only [kept_mk, kept_eta, kept_ite, ite_self]
    | split
    | rfl

theorem yieldSlot_kept (q p n : Nat) (s : State) : kept (yieldSlot q p n s) = kept s := by
  unfold yieldSlot
  repeat' first
    | with_reducible rfl
    | simp only [kept_mk, kept_eta, kept_ite, ite_self, updSlot_kept, failPort_kept, updMport_kept]
    | split
    | rfl

theorem olderFound_kept (p : Nat) (s : State) : kept (olderFound p s) = kept s := by
  unfold olderFound
  repeat' first
    | with_reducible rfl
    | simp only [kept_mk, kept_eta, kept_ite, ite_self, updPool_kept]
    | split
    | rfl

theorem serveAt_kept (q p n : Nat) (s : State) : kept (serveAt q p n s) = kept s := by
  unfold serveAt
  repeat' first
    | with_reducible rfl
    | simp only [kept_mk, kept_eta, kept_ite, ite_self, updSlot_kept, yieldSlot_kept, olderFound_kept, joinMember_kept,
        precompute_kept, slotTo_kept, updPool_kept, prepare_kept, closeIfFound_kept, readHeaders_kept]
    | split
    | rfl

theorem serveOwn_kept (p : Nat) (s : State) : kept (serveOwn p s) = kept s := by
  unfold serveOwn
  repeat' first
    | with_reducible rfl
    | simp only [kept_mk, kept_eta, kept_ite, ite_self, serveAt_kept]
    | split
    | refine (kept_foldl _ _ _ fun _ _ => ?_).trans ?_
    | refine (kept_foldl_snd _ _ _ fun _ _ => ?_).trans ?_
    | rfl

theorem meetMembers_kept (s : State) : kept (meetMembers s) = kept s := by
  unfold meetMembers
  repeat' first
    | with_reducible rfl
    | simp only [kept_mk, kept_eta, kept_ite, ite_self, serveAt_kept, updMport_kept]
    | split
    | refine (kept_foldl _ _ _ fun _ _ => ?_).trans ?_
    | refine (kept_foldl_snd _ _ _ fun _ _ => ?_).trans ?_
    | rfl

theorem inserted_kept (q : Nat) (id : MemberId) (s : State) : kept (inserted q id s) = kept s := by
  unfold inserted
  repeat' first
    | with_reducible rfl
    | simp only [kept_mk, kept_eta, kept_ite, ite_self, updMport_kept, linkUp_kept, serveAt_kept, event_kept]
    | split
    | rfl

theorem labelsRead_kept (q : Nat) (data : List Byte) (s : State) : kept (labelsRead q data s) = kept s := by
  unfold labelsRead
  repeat' first
    | with_reducible rfl
    | simp only [kept_mk, kept_eta, kept_ite, ite_self, updMport_kept, serveAt_kept]
    | split
    | rfl

theorem seekMembers_kept (p : Nat) (s : State) : kept (seekMembers p s) = kept s := by
  unfold seekMembers
  repeat' first
    | with_reducible rfl
    | simp only [kept_mk, kept_eta, kept_ite, ite_self, sendMember_kept]
    | split
    | refine (kept_foldl _ _ _ fun _ _ => ?_).trans ?_
    | refine (kept_foldl_snd _ _ _ fun _ _ => ?_).trans ?_
    | rfl

theorem execMemberInserted_kept (port : PortNo) (id : MemberId) (s : State) : KeptBy (execMemberInserted port id s) s := by
  unfold execMemberInserted
  repeat' first
    | with_reducible rfl
    | refine keptBy_ok ?_
    | exact keptBy_fault _ _
    | simp only [kept_mk, kept_eta, kept_ite, ite_self, go_kept, inserted_kept, settle_kept]
    | split
    | rfl

theorem closeWindow_kept (s : State) : kept (closeWindow s) = kept s := by
  unfold closeWindow
  repeat' first
    | with_reducible rfl
    | simp only [kept_mk, kept_eta, kept_ite, ite_self, timeTo_kept, updSlot_kept, slotTo_kept, updPool_kept]
    | split
    | refine (kept_foldl _ _ _ fun _ _ => ?_).trans ?_
    | refine (kept_foldl_snd _ _ _ fun _ _ => ?_).trans ?_
    | rfl

theorem execDiscoveryWindowClose_kept (s : State) : KeptBy (execDiscoveryWindowClose s) s := by
  unfold execDiscoveryWindowClose
  repeat' first
    | with_reducible rfl
    | refine keptBy_ok ?_
    | exact keptBy_fault _ _
    | simp only [kept_mk, kept_eta, kept_ite, ite_self, go_kept, closeWindow_kept, settle_kept]
    | split
    | rfl

theorem adopted_kept (p n : Nat) (s : State) : kept (adopted p n s) = kept s := by
  unfold adopted
  repeat' first
    | with_reducible rfl
    | simp only [kept_mk, kept_eta, kept_ite, ite_self, prepare_kept, finishCmd_kept, updSlot_kept]
    | split
    | rfl

theorem ownerEnd_kept (m : MCmd) (good : Bool) (data : List Byte) (tags : List Word) (s : State) :
    kept (ownerEnd m good data tags s) = kept s := by
  unfold ownerEnd
  repeat' first
    | with_reducible rfl
    | simp only [kept_mk, kept_eta, kept_ite, ite_self, putRead_kept, jobLess_kept, putTags_kept, sendMember_kept,
        premarkEnd_kept, ckptDone_kept, noteHeader_kept, notePages_kept, adopted_kept, labelWritten_kept,
        labelsRead_kept, resvEnd_kept]
    | split
    | rfl

theorem memberDone_kept (tag : Nat) (st : MStatus) (data : List Byte) (tags : List Word) (s : State) :
    kept (memberDone tag st data tags s) = kept s := by
  unfold memberDone
  repeat' first
    | with_reducible rfl
    | simp only [kept_mk, kept_eta, kept_ite, ite_self, updMport_kept, updSlot_kept, ownerEnd_kept, memberError_kept]
    | split
    | rfl

theorem execMemberCommandCompletion_kept (tag : Nat) (st : MStatus) (data : List Byte) (tags : List Word) (s : State) :
    KeptBy (execMemberCommandCompletion tag st data tags s) s := by
  unfold execMemberCommandCompletion
  repeat' first
    | with_reducible rfl
    | refine keptBy_ok ?_
    | exact keptBy_fault _ _
    | simp only [kept_mk, kept_eta, kept_ite, ite_self, go_kept, memberDone_kept, settle_kept]
    | split
    | rfl

theorem prepDone_kept (q : Nat) (s : State) : kept (prepDone q s) = kept s := by
  unfold prepDone
  repeat' first
    | with_reducible rfl
    | simp only [kept_mk, kept_eta, kept_ite, ite_self, poolCommit_kept, updSlot_kept, updPool_kept]
    | split
    | rfl

theorem execMemberPrepDone_kept (port : PortNo) (s : State) : KeptBy (execMemberPrepDone port s) s := by
  unfold execMemberPrepDone
  repeat' first
    | with_reducible rfl
    | refine keptBy_ok ?_
    | exact keptBy_fault _ _
    | simp only [kept_mk, kept_eta, kept_ite, ite_self, go_kept, prepDone_kept, settle_kept]
    | split
    | rfl

theorem settleCell_kept (p e pos : Nat) (r : Reloc) (s : State) : kept (settleCell p e pos r s) = kept s := by
  unfold settleCell
  repeat' first
    | with_reducible rfl
    | simp only [kept_mk, kept_eta, kept_ite, ite_self, updPool_kept, setReloc_kept, event_kept, copyBack_kept,
        moveCell_kept, noteShort_kept, slotEmptied_kept]
    | split
    | rfl

theorem freeAccepted_kept (l row pos : Nat) (s : State) : kept (freeAccepted l row pos s) = kept s := by
  unfold freeAccepted
  repeat' first
    | with_reducible rfl
    | simp only [kept_mk, kept_eta, kept_ite, ite_self, shareLost_kept, dropLostE_kept]
    | split
    | refine (kept_foldl _ _ _ fun _ _ => ?_).trans ?_
    | refine (kept_foldl_snd _ _ _ fun _ _ => ?_).trans ?_
    | rfl

theorem cellTo_kept (p e pos b : Nat) (s : State) : kept (cellTo p e pos b s) = kept s := by
  unfold cellTo
  repeat' first
    | with_reducible rfl
    | simp only [kept_mk, kept_eta, kept_ite, ite_self, freeAccepted_kept, setReloc_kept, poolCommit_kept,
        settleCell_kept]
    | split
    | refine (kept_foldl _ _ _ fun _ _ => ?_).trans ?_
    | refine (kept_foldl_snd _ _ _ fun _ _ => ?_).trans ?_
    | rfl

theorem commitCell_kept (p e pos : Nat) (s : State) : kept (commitCell p e pos s) = kept s := by
  unfold commitCell
  repeat' first
    | with_reducible rfl
    | simp only [kept_mk, kept_eta, kept_ite, ite_self, timeTo_kept, setReloc_kept, cellTo_kept]
    | split
    | refine (futureCommit_kept _ _ _ _ fun _ => ?_).trans ?_
    | rfl

theorem walkTo_kept (p n b : Nat) (s : State) : kept (walkTo p n b s) = kept s := by
  unfold walkTo
  repeat' first
    | with_reducible rfl
    | simp only [kept_mk, kept_eta, kept_ite, ite_self, updSlot_kept, updPool_kept, freeAccepted_kept,
        startCopyBack_kept, slotTo_kept]
    | split
    | refine (kept_foldl _ _ _ fun _ _ => ?_).trans ?_
    | refine (kept_foldl_snd _ _ _ fun _ _ => ?_).trans ?_
    | rfl

theorem commitWalk_kept (p n : Nat) (s : State) : kept (commitWalk p n s) = kept s := by
  unfold commitWalk
  repeat' first
    | with_reducible rfl
    | simp only [kept_mk, kept_eta, kept_ite, ite_self, timeTo_kept, updSlot_kept, walkTo_kept]
    | split
    | refine (futureCommit_kept _ _ _ _ fun _ => ?_).trans ?_
    | rfl

theorem execBoundaryCommit_kept (m : MoveRef) (s : State) : KeptBy (execBoundaryCommit m s) s := by
  unfold execBoundaryCommit
  repeat' first
    | with_reducible rfl
    | refine keptBy_ok ?_
    | exact keptBy_fault _ _
    | simp only [kept_mk, kept_eta, kept_ite, ite_self, go_kept, commitCell_kept, commitWalk_kept, settle_kept]
    | split
    | rfl

theorem noteWear_kept (p n : Nat) (s : State) : kept (noteWear p n s) = kept s := by
  unfold noteWear
  repeat' first
    | with_reducible rfl
    | simp only [kept_mk, kept_eta, kept_ite, ite_self, updSlot_kept, event_kept, slotEmptied_kept, startRetire_kept,
        slotTo_kept]
    | split
    | rfl

theorem readLog_kept (q : Nat) (r : MReq) (s : State) : kept (readLog q r s) = kept s := by
  unfold readLog
  repeat' first
    | with_reducible rfl
    | simp only [kept_mk, kept_eta, kept_ite, ite_self, emitMember_kept]
    | split
    | rfl

theorem execHealthLogRead_kept (port : PortNo) (log : HealthLog) (s : State) : KeptBy (execHealthLogRead port log s) s := by
  unfold execHealthLogRead
  repeat' first
    | with_reducible rfl
    | refine keptBy_ok ?_
    | exact keptBy_fault _ _
    | simp only [kept_mk, kept_eta, kept_ite, ite_self, go_kept, readLog_kept, timeToOp_kept, updSlot_kept,
        noteWear_kept, settle_kept]
    | split
    | rfl

theorem execEnduranceLogRead_kept (port : PortNo) (pctUsed : Nat) (s : State) :
    KeptBy (execEnduranceLogRead port pctUsed s) s := by
  unfold execEnduranceLogRead
  repeat' first
    | with_reducible rfl
    | refine keptBy_ok ?_
    | exact keptBy_fault _ _
    | simp only [kept_mk, kept_eta, kept_ite, ite_self, go_kept, readLog_kept, timeToOp_kept, noteWear_kept,
        updSlot_kept, settle_kept]
    | split
    | rfl

/-! ## Machine/PoolRows.lean -/

theorem execPoolStatus_kept (s : State) : KeptBy (execPoolStatus s) s := by
  unfold execPoolStatus
  repeat' first
    | with_reducible rfl
    | refine keptBy_ok ?_
    | exact keptBy_fault _ _
    | simp only [kept_mk, kept_eta, kept_ite, ite_self, adminFail_kept, adminOk_kept, adminOut_kept]
    | split
    | refine (asAdmin_kept _ _ _ fun _ _ => ?_).trans ?_
    | rfl

theorem execLostListRead_kept (s : State) : KeptBy (execLostListRead s) s := by
  unfold execLostListRead
  repeat' first
    | with_reducible rfl
    | refine keptBy_ok ?_
    | exact keptBy_fault _ _
    | simp only [kept_mk, kept_eta, kept_ite, ite_self, adminFail_kept, adminOk_kept, adminOut_kept]
    | split
    | refine (asAdmin_kept _ _ _ fun _ _ => ?_).trans ?_
    | rfl

theorem passFrom_kept (p : Nat) (s : State) : kept (passFrom p s) = kept s := by
  unfold passFrom
  repeat' first
    | with_reducible rfl
    | simp only [kept_mk, kept_eta, kept_ite, ite_self, beginPass_kept, recordPatrol_kept]
    | split
    | rfl

theorem passOn_kept (p : Nat) (s : State) : kept (passOn p s) = kept s := by
  unfold passOn
  repeat' first
    | with_reducible rfl
    | simp only [kept_mk, kept_eta, kept_ite, ite_self, recordPatrol_kept, updPatrol_kept]
    | split
    | rfl

theorem adopt_kept (c q p n : Nat) (s : State) : kept (adopt c q p n s) = kept s := by
  unfold adopt
  repeat' first
    | with_reducible rfl
    | simp only [kept_mk, kept_eta, kept_ite, ite_self, updMport_kept, updPool_kept, updSlot_kept, slotTo_kept,
        writeLabel_kept, joinMember_kept]
    | split
    | rfl

theorem landCommit_kept (p : Nat) (s : State) : kept (landCommit p s) = kept s := by
  unfold landCommit
  repeat' first
    | with_reducible rfl
    | simp only [kept_mk, kept_eta, kept_ite, ite_self, ledCommit_kept]
    | split
    | rfl

theorem slotAct_kept (c p n : Nat) (a : SlotAct) (s : State) : kept (slotAct c p n a s) = kept s := by
  unfold slotAct
  repeat' first
    | with_reducible rfl
    | simp only [kept_mk, kept_eta, kept_ite, ite_self, adminFail_kept, adopt_kept, adminOk_kept, slotEmptied_kept,
        startRetire_kept, slotTo_kept, slotFails_kept, landCommit_kept, passFrom_kept, finishCmd_kept, passOn_kept]
    | split
    | rfl

theorem actPool_kept (a : SlotAct) (p n : Nat) (s : State) : kept (actPool a p n s) = kept s := by
  unfold actPool
  repeat' first
    | with_reducible rfl
    | simp only [kept_mk, kept_eta, kept_ite, ite_self, adopt_kept, updSlot_kept, passFrom_kept, passOn_kept]
    | split
    | rfl

theorem startAct_kept (c p n : Nat) (a : SlotAct) (s : State) : kept (startAct c p n a s) = kept s := by
  unfold startAct
  repeat' first
    | with_reducible rfl
    | simp only [kept_mk, kept_eta, kept_ite, ite_self, adminFail_kept, commitGate_kept, propose_kept, actPool_kept,
        updCmd_kept, slotAct_kept]
    | split
    | rfl

theorem execMemberAdopt_kept (s : State) : KeptBy (execMemberAdopt s) s := by
  unfold execMemberAdopt
  repeat' first
    | with_reducible rfl
    | refine keptBy_ok ?_
    | exact keptBy_fault _ _
    | simp only [kept_mk, kept_eta, kept_ite, ite_self, go_kept, startAct_kept, adopt_kept, settle_kept]
    | split
    | refine (asAdmin_kept _ _ _ fun _ _ => ?_).trans ?_
    | refine (commitGate_kept _ _ _ ?_).trans ?_
    | rfl

theorem execMemberRetire_kept (s : State) : KeptBy (execMemberRetire s) s := by
  unfold execMemberRetire
  repeat' first
    | with_reducible rfl
    | refine keptBy_ok ?_
    | exact keptBy_fault _ _
    | simp only [kept_mk, kept_eta, kept_ite, ite_self, go_kept, startAct_kept, settle_kept]
    | split
    | refine (asAdmin_kept _ _ _ fun _ _ => ?_).trans ?_
    | refine (commitGate_kept _ _ _ ?_).trans ?_
    | rfl

theorem execMemberFail_kept (s : State) : KeptBy (execMemberFail s) s := by
  unfold execMemberFail
  repeat' first
    | with_reducible rfl
    | refine keptBy_ok ?_
    | exact keptBy_fault _ _
    | simp only [kept_mk, kept_eta, kept_ite, ite_self, go_kept, startAct_kept, settle_kept]
    | split
    | refine (asAdmin_kept _ _ _ fun _ _ => ?_).trans ?_
    | refine (commitGate_kept _ _ _ ?_).trans ?_
    | rfl

theorem execPatrolStart_kept (s : State) : KeptBy (execPatrolStart s) s := by
  unfold execPatrolStart
  repeat' first
    | with_reducible rfl
    | refine keptBy_ok ?_
    | exact keptBy_fault _ _
    | simp only [kept_mk, kept_eta, kept_ite, ite_self, go_kept, adminFail_kept, startAct_kept, settle_kept]
    | split
    | refine (asAdmin_kept _ _ _ fun _ _ => ?_).trans ?_
    | rfl

theorem passDue_kept (p : Nat) (s : State) : kept (passDue p s) = kept s := by
  unfold passDue
  repeat' first
    | with_reducible rfl
    | simp only [kept_mk, kept_eta, kept_ite, ite_self, timeToOp_kept, startPass_kept, updPatrol_kept]
    | split
    | rfl

theorem execPatrolPassDue_kept (pool : Fin 8) (s : State) : KeptBy (execPatrolPassDue pool s) s := by
  unfold execPatrolPassDue
  repeat' first
    | with_reducible rfl
    | refine keptBy_ok ?_
    | exact keptBy_fault _ _
    | simp only [kept_mk, kept_eta, kept_ite, ite_self, go_kept, passDue_kept, settle_kept]
    | split
    | rfl

theorem execPatrolProgressCommit_kept (pool : Fin 8) (s : State) : KeptBy (execPatrolProgressCommit pool s) s := by
  unfold execPatrolProgressCommit
  repeat' first
    | with_reducible rfl
    | refine keptBy_ok ?_
    | exact keptBy_fault _ _
    | simp only [kept_mk, kept_eta, kept_ite, ite_self, go_kept, timeToOp_kept, savePatrol_kept, settle_kept]
    | split
    | rfl

theorem addSlot_kept (p n : Nat) (s : State) : kept (addSlot p n s) = kept s := by
  unfold addSlot
  repeat' first
    | with_reducible rfl
    | simp only [kept_mk, kept_eta, kept_ite, ite_self, updSlot_kept, updMport_kept, slotTo_kept, writeLabel_kept,
        prepare_kept, joinMember_kept]
    | split
    | rfl

theorem reshapeStart_kept (p : Nat) (s : State) : kept (reshapeStart p s) = kept s := by
  unfold reshapeStart
  repeat' first
    | with_reducible rfl
    | simp only [kept_mk, kept_eta, kept_ite, ite_self, recEvent_kept, beginWalk_kept, addSlot_kept]
    | split
    | refine (kept_foldl _ _ _ fun _ _ => ?_).trans ?_
    | refine (kept_foldl_snd _ _ _ fun _ _ => ?_).trans ?_
    | rfl

theorem execReshapeWalkStart_kept (pool : Fin 8) (s : State) : KeptBy (execReshapeWalkStart pool s) s := by
  unfold execReshapeWalkStart
  repeat' first
    | with_reducible rfl
    | refine keptBy_ok ?_
    | exact keptBy_fault _ _
    | simp only [kept_mk, kept_eta, kept_ite, ite_self, go_kept, reshapeStart_kept, settle_kept]
    | split
    | rfl

theorem adoptTarget_kept (p : Nat) (s : State) : kept (adoptTarget p s) = kept s := by
  unfold adoptTarget; dsimp only
  rw [updPool_kept]; rfl

theorem doneRecord_kept (p : Nat) (s : State) : kept (doneRecord p s) = kept s := by
  unfold doneRecord
  repeat' first
    | with_reducible rfl
    | simp only [kept_mk, kept_eta, kept_ite, ite_self, updPool_kept]
    | split
    | rfl

theorem reshapeEnd_kept (p : Nat) (s : State) : kept (reshapeEnd p s) = kept s := by
  unfold reshapeEnd
  repeat' first
    | with_reducible rfl
    | simp only [kept_mk, kept_eta, kept_ite, ite_self, adoptTarget_kept, writeLabel_kept, updMport_kept, updPool_kept,
        startRebuild_kept]
    | split
    | refine (kept_foldl _ _ _ fun _ _ => ?_).trans ?_
    | refine (kept_foldl_snd _ _ _ fun _ _ => ?_).trans ?_
    | rfl

theorem carryLost_kept (p line sec row pos ss : Nat) (r : LostW) (s : State) :
    kept (carryLost p line sec row pos ss r s) = kept s := by
  unfold carryLost
  repeat' first
    | with_reducible rfl
    | simp only [kept_mk, kept_eta, kept_ite, ite_self, dropLostW_kept, unnamedLost_kept]
    | split
    | rfl

theorem carryLosts_kept (p b : Nat) (s : State) : kept (carryLosts p b s) = kept s := by
  unfold carryLosts
  repeat' first
    | with_reducible rfl
    | simp only [kept_mk, kept_eta, kept_ite, ite_self, carryLost_kept]
    | split
    | refine (kept_foldl _ _ _ fun _ _ => ?_).trans ?_
    | refine (kept_foldl_snd _ _ _ fun _ _ => ?_).trans ?_
    | rfl

theorem boundaryRecord_kept (p b : Nat) (s : State) : kept (boundaryRecord p b s) = kept s := by
  unfold boundaryRecord
  repeat' first
    | with_reducible rfl
    | simp only [kept_mk, kept_eta, kept_ite, ite_self, updPool_kept]
    | split
    | rfl

theorem reshapeTo_kept (p b : Nat) (s : State) : kept (reshapeTo p b s) = kept s := by
  unfold reshapeTo
  repeat' first
    | with_reducible rfl
    | simp only [kept_mk, kept_eta, kept_ite, ite_self, boundaryRecord_kept, carryLosts_kept, rowOf_kept]
    | split
    | refine (kept_foldl _ _ _ fun _ _ => ?_).trans ?_
    | refine (kept_foldl_snd _ _ _ fun _ _ => ?_).trans ?_
    | rfl

theorem reshapeDone_kept (p : Nat) (s : State) : kept (reshapeDone p s) = kept s := by
  unfold reshapeDone
  repeat' first
    | with_reducible rfl
    | simp only [kept_mk, kept_eta, kept_ite, ite_self, doneRecord_kept, reshapeEnd_kept]
    | split
    | refine (futureCommit_kept _ _ _ _ fun _ => ?_).trans ?_
    | rfl

theorem reshapeCommit_kept (p : Nat) (s : State) : kept (reshapeCommit p s) = kept s := by
  unfold reshapeCommit
  repeat' first
    | with_reducible rfl
    | simp only [kept_mk, kept_eta, kept_ite, ite_self, updPool_kept, timeTo_kept, reshapeTo_kept, boundaryRecord_kept,
        reshapeDone_kept]
    | split
    | refine (futureCommit_kept _ _ _ _ fun _ => ?_).trans ?_
    | rfl

theorem execReshapeCommit_kept (pool : Fin 8) (s : State) : KeptBy (execReshapeCommit pool s) s := by
  unfold execReshapeCommit
  repeat' first
    | with_reducible rfl
    | refine keptBy_ok ?_
    | exact keptBy_fault _ _
    | simp only [kept_mk, kept_eta, kept_ite, ite_self, go_kept, reshapeCommit_kept, settle_kept]
    | split
    | rfl

/-! ## Machine/Plan.lean -/

theorem commitImage_kept (b : List Byte) (s : State) : kept (commitImage b s) = kept s := rfl

theorem takeBlank_kept (p n : Nat) (s : State) : kept (takeBlank p n s) = kept s := by
  unfold takeBlank
  repeat' first
    | with_reducible rfl
    | simp only [kept_mk, kept_eta, kept_ite, ite_self, updSlot_kept, updMport_kept, slotTo_kept, writeLabel_kept,
        prepare_kept, joinMember_kept]
    | split
    | rfl

theorem createPool_kept (p node : Nat) (s : State) : kept (createPool p node s) = kept s := by
  unfold createPool
  repeat' first
    | with_reducible rfl
    | simp only [kept_mk, kept_eta, kept_ite, ite_self, updPool_kept, ledCommit_kept, takeBlank_kept]
    | split
    | refine (kept_foldl _ _ _ fun _ _ => ?_).trans ?_
    | refine (kept_foldl_snd _ _ _ fun _ _ => ?_).trans ?_
    | rfl

theorem joinMembers_kept (p : Nat) (s : State) : kept (joinMembers p s) = kept s := by
  unfold joinMembers
  repeat' first
    | with_reducible rfl
    | simp only [kept_mk, kept_eta, kept_ite, ite_self, joinMember_kept]
    | split
    | refine (kept_foldl _ _ _ fun _ _ => ?_).trans ?_
    | refine (kept_foldl_snd _ _ _ fun _ _ => ?_).trans ?_
    | rfl

theorem loadImage_kept (b : List Byte) (s : State) : kept (loadImage b s) = kept s := by
  unfold loadImage
  repeat' first
    | with_reducible rfl
    | simp only [kept_mk, kept_eta, kept_ite, ite_self, createPool_kept, joinMembers_kept, updPool_kept]
    | split
    | refine (kept_foldl _ _ _ fun _ _ => ?_).trans ?_
    | refine (kept_foldl_snd _ _ _ fun _ _ => ?_).trans ?_
    | rfl

/-! ## Machine/Joint.lean -/

theorem profileChange_kept (n : Nat) (s : State) : kept (profileChange n s) = kept s := rfl

theorem leavePorts_kept (p n : Nat) (s : State) : kept (leavePorts p n s) = kept s := by
  unfold leavePorts
  repeat' first
    | with_reducible rfl
    | simp only [kept_mk, kept_eta, kept_ite, ite_self, updMport_kept]
    | split
    | refine (kept_foldl _ _ _ fun _ _ => ?_).trans ?_
    | refine (kept_foldl_snd _ _ _ fun _ _ => ?_).trans ?_
    | rfl

theorem peerEvents_kept (p : Nat) (was s : State) : kept (peerEvents p was s) = kept s := by
  unfold peerEvents
  repeat' first
    | with_reducible rfl
    | simp only [kept_mk, kept_eta, kept_ite, ite_self, event_kept, updPool_kept]
    | split
    | refine (kept_foldl _ _ _ fun _ _ => ?_).trans ?_
    | refine (kept_foldl_snd _ _ _ fun _ _ => ?_).trans ?_
    | rfl

theorem landPool_kept (p : Nat) (r : PoolShare) (s : State) : kept (landPool p r s) = kept s := by
  unfold landPool
  repeat' first
    | with_reducible rfl
    | simp only [kept_mk, kept_eta, kept_ite, ite_self, cellTo_kept, walkTo_kept, poolCommit_kept, reshapeEnd_kept,
        reshapeDone_kept, reshapeTo_kept]
    | split
    | refine (kept_foldl _ _ _ fun _ _ => ?_).trans ?_
    | refine (kept_foldl_snd _ _ _ fun _ _ => ?_).trans ?_
    | rfl

theorem applyShared_kept (r : SharedRec) (mine : Bool) (s : State) : kept (applyShared r mine s) = kept s := by
  unfold applyShared
  repeat' first
    | with_reducible rfl
    | simp only [kept_mk, kept_eta, kept_ite, ite_self, ledCommitRec_kept, profileChange_kept, commitImage_kept,
        ownerHere_kept, ledCommit_kept, updPool_kept, landPool_kept, adoptTarget_kept, updSlot_kept, leavePorts_kept,
        event_kept, peerEvents_kept, seekMembers_kept, takeShare_kept]
    | split
    | refine (kept_foldl _ _ _ fun _ _ => ?_).trans ?_
    | refine (kept_foldl_snd _ _ _ fun _ _ => ?_).trans ?_
    | rfl

theorem changeShared_kept (c : Nat) (quiesce : Bool) (r : SharedRec) (s : State) (auth : Option Nat := none) :
    kept (changeShared c quiesce r s auth) = kept s := by
  unfold changeShared
  repeat' first
    | with_reducible rfl
    | simp only [kept_mk, kept_eta, kept_ite, ite_self, applyShared_kept, updCmd_kept, finishCmd_kept,
        startQuiesce_kept, propose_kept]
    | split
    | rfl

theorem dropQuiesce_kept (s : State) : kept (dropQuiesce s) = kept s := by
  unfold dropQuiesce
  repeat' first
    | with_reducible rfl
    | simp only [kept_mk, kept_eta, kept_ite, ite_self, nextJoint_kept, placeHeld_kept, finishCmd_kept]
    | split
    | rfl

theorem leavePaired_kept (s : State) : kept (leavePaired s) = kept s := by
  unfold leavePaired
  repeat' first
    | with_reducible rfl
    | simp only [kept_mk, kept_eta, kept_ite, ite_self, dropQuiesce_kept, sendPair_kept, endXfer_kept, acquireAll_kept,
        acquiresLeft_kept, resvTo_kept, detach_kept, xferStep_kept]
    | split
    | rfl

theorem jointEnd_kept (c : JointC) (s : State) : kept (jointEnd c s) = kept s := by
  unfold jointEnd
  repeat' first
    | with_reducible rfl
    | simp only [kept_mk, kept_eta, kept_ite, ite_self, slotAct_kept, finishCmd_kept]
    | split
    | rfl

theorem settleJoint_kept (lost : Bool) (c : JointC) (s : State) : kept (settleJoint lost c s) = kept s := by
  unfold settleJoint
  repeat' first
    | with_reducible rfl
    | simp only [kept_mk, kept_eta, kept_ite, ite_self, applyShared_kept, jointEnd_kept, finishCmd_kept, ledCommit_kept]
    | split
    | rfl

theorem endPairing_kept (lost : Bool) (s : State) : kept (endPairing lost s) = kept s := by
  unfold endPairing
  repeat' first
    | with_reducible rfl
    | simp only [kept_mk, kept_eta, kept_ite, ite_self, settleJoint_kept, applyShared_kept, endJoint_kept, updJq_kept]
    | split
    | refine (kept_foldl _ _ _ fun _ _ => ?_).trans ?_
    | refine (kept_foldl_snd _ _ _ fun _ _ => ?_).trans ?_
    | rfl

/-! ## Machine/PairRows.lean -/

theorem resendPair_kept (s : State) : kept (resendPair s) = kept s := by
  unfold resendPair
  repeat' first
    | with_reducible rfl
    | simp only [kept_mk, kept_eta, kept_ite, ite_self, wirePair_kept]
    | split
    | refine (kept_foldl _ _ _ fun _ _ => ?_).trans ?_
    | refine (kept_foldl_snd _ _ _ fun _ _ => ?_).trans ?_
    | rfl

theorem sendHello_kept (s : State) : kept (sendHello s) = kept s := by
  unfold sendHello
  repeat' first
    | with_reducible rfl
    | simp only [kept_mk, kept_eta, kept_ite, ite_self, sendPair_kept]
    | split
    | rfl

theorem enterSuspect_kept (s : State) : kept (enterSuspect s) = kept s := by
  unfold enterSuspect
  repeat' first
    | with_reducible rfl
    | simp only [kept_mk, kept_eta, kept_ite, ite_self, leavePaired_kept, setPairSt_kept, sendHello_kept, sendPair_kept]
    | split
    | rfl

theorem pairDown_kept (s : State) : kept (pairDown s) = kept s := by
  unfold pairDown
  repeat' first
    | with_reducible rfl
    | simp only [kept_mk, kept_eta, kept_ite, ite_self, enterSuspect_kept]
    | split
    | rfl

theorem deliver_kept (cls : Nat) (h : PairHdr) (f : State → State) (s : State) (hf : ∀ s, kept (f s) = kept s) :
    kept (deliver cls h f s) = kept s := by
  unfold deliver
  repeat' first | rfl | exact (hf _).trans rfl | simp only [raiseFree_kept, pairDown_kept] | split

theorem ackThrough_kept (cls : Nat) (f : PMsg → Bool) (s : State) : kept (ackThrough cls f s) = kept s := by
  unfold ackThrough
  repeat' first
    | with_reducible rfl
    | simp only [kept_mk, kept_eta, kept_ite, ite_self]
    | split
    | rfl

theorem ackMirror_kept (s : State) : kept (ackMirror s) = kept s := by
  unfold ackMirror
  repeat' first
    | with_reducible rfl
    | simp only [kept_mk, kept_eta, kept_ite, ite_self, sendPair_kept]
    | split
    | rfl

theorem resumePaired_kept (s : State) : kept (resumePaired s) = kept s := by
  unfold resumePaired
  repeat' first
    | with_reducible rfl
    | simp only [kept_mk, kept_eta, kept_ite, ite_self, resendPair_kept, setPairSt_kept]
    | split
    | rfl

theorem execHeartbeatSend_kept (s : State) : KeptBy (execHeartbeatSend s) s := by
  unfold execHeartbeatSend
  repeat' first
    | with_reducible rfl
    | refine keptBy_ok ?_
    | exact keptBy_fault _ _
    | simp only [kept_mk, kept_eta, kept_ite, ite_self, go_kept, timeTo_kept, resumePaired_kept, sendPair_kept,
        settle_kept]
    | split
    | rfl

theorem heartbeatIn_kept (m : HeartbeatMsg) (s : State) : kept (heartbeatIn m s) = kept s := by
  unfold heartbeatIn
  repeat' first
    | with_reducible rfl
    | simp only [kept_mk, kept_eta, kept_ite, ite_self, resumePaired_kept]
    | split
    | rfl

theorem execHeartbeat_kept (h : PairHdr) (m : HeartbeatMsg) (s : State) : KeptBy (execHeartbeat h m s) s := by
  unfold execHeartbeat
  repeat' first
    | with_reducible rfl
    | refine keptBy_ok ?_
    | exact keptBy_fault _ _
    | simp only [kept_mk, kept_eta, kept_ite, ite_self, go_kept, deliver_kept, heartbeatIn_kept, settle_kept]
    | split
    | refine (deliver_kept _ _ _ _ fun _ => ?_).trans ?_
    | rfl

theorem execHeartbeatTimeout_kept (s : State) : KeptBy (execHeartbeatTimeout s) s := by
  unfold execHeartbeatTimeout
  repeat' first
    | with_reducible rfl
    | refine keptBy_ok ?_
    | exact keptBy_fault _ _
    | simp only [kept_mk, kept_eta, kept_ite, ite_self, go_kept, enterSuspect_kept, timeTo_kept, settle_kept]
    | split
    | rfl

theorem execSuspectNotice_kept (h : PairHdr) (s : State) : KeptBy (execSuspectNotice h s) s := by
  unfold execSuspectNotice
  repeat' first
    | with_reducible rfl
    | refine keptBy_ok ?_
    | exact keptBy_fault _ _
    | simp only [kept_mk, kept_eta, kept_ite, ite_self, go_kept, deliver_kept, enterSuspect_kept, settle_kept]
    | split
    | refine (deliver_kept _ _ _ _ fun _ => ?_).trans ?_
    | rfl

theorem dropPoolDirty_kept (p : Nat) (s : State) : kept (dropPoolDirty p s).2 = kept s := by
  unfold dropPoolDirty
  repeat' first
    | with_reducible rfl
    | simp only [kept_mk, kept_eta, kept_ite, ite_self, unwait_kept, dropSec_kept, freeIndex_kept]
    | split
    | refine (kept_foldl _ _ _ fun _ _ => ?_).trans ?_
    | refine (kept_foldl_snd _ _ _ fun _ _ => ?_).trans ?_
    | rfl

theorem sendLine_kept (l line : Nat) (s : State) : kept (sendLine l line s) = kept s := by
  unfold sendLine
  repeat' first
    | with_reducible rfl
    | simp only [kept_mk, kept_eta, kept_ite, ite_self, sendPair_kept]
    | split
    | refine (kept_foldl _ _ _ fun _ _ => ?_).trans ?_
    | refine (kept_foldl_snd _ _ _ fun _ _ => ?_).trans ?_
    | rfl

theorem enterResync_kept (s : State) : kept (enterResync s) = kept s := by
  unfold enterResync
  repeat' first
    | with_reducible rfl
    | simp only [kept_mk, kept_eta, kept_ite, ite_self, serveOwn_kept, dropPoolDirty_kept, setPairSt_kept,
        sendLine_kept, sendPair_kept, setMirrored_kept]
    | split
    | refine (kept_foldl _ _ _ fun _ _ => ?_).trans ?_
    | refine (kept_foldl_snd _ _ _ fun _ _ => ?_).trans ?_
    | rfl

theorem endResync_kept (s : State) : kept (endResync s) = kept s := by
  unfold endResync
  repeat' first
    | with_reducible rfl
    | simp only [kept_mk, kept_eta, kept_ite, ite_self, setPairSt_kept]
    | split
    | rfl

theorem nextForming_kept (s : State) : kept (nextForming s) = kept s := by
  unfold nextForming
  repeat' first
    | with_reducible rfl
    | simp only [kept_mk, kept_eta, kept_ite, ite_self, propose_kept]
    | split
    | rfl

theorem beginForming_kept (m : HelloMsg) (s : State) : kept (beginForming m s) = kept s := by
  unfold beginForming
  repeat' first
    | with_reducible rfl
    | simp only [kept_mk, kept_eta, kept_ite, ite_self, updPool_kept, recEvent_kept, propose_kept, nextForming_kept]
    | split
    | refine (kept_foldl _ _ _ fun _ _ => ?_).trans ?_
    | refine (kept_foldl_snd _ _ _ fun _ _ => ?_).trans ?_
    | rfl

theorem refuseForming_kept (check : Nat) (s : State) : kept (refuseForming check s) = kept s := by
  unfold refuseForming
  repeat' first
    | with_reducible rfl
    | simp only [kept_mk, kept_eta, kept_ite, ite_self, raiseFree_kept, recEvent_kept]
    | split
    | rfl

theorem helloDone_kept (h : PairHdr) (s : State) : kept (helloDone h s) = kept s := by
  unfold helloDone
  repeat' first
    | with_reducible rfl
    | simp only [kept_mk, kept_eta, kept_ite, ite_self, setPairSt_kept, refuseForming_kept, beginForming_kept]
    | split
    | rfl

theorem execHello_kept (h : PairHdr) (m : HelloMsg) (s : State) : KeptBy (execHello h m s) s := by
  unfold execHello
  repeat' first
    | with_reducible rfl
    | refine keptBy_ok ?_
    | exact keptBy_fault _ _
    | simp only [kept_mk, kept_eta, kept_ite, ite_self, go_kept, raiseFree_kept, pairDown_kept, sendHello_kept,
        helloDone_kept, settle_kept]
    | split
    | rfl

theorem execPairLinkUp_kept (width : Fin 9) (s : State) : KeptBy (execPairLinkUp width s) s := by
  unfold execPairLinkUp
  repeat' first
    | with_reducible rfl
    | refine keptBy_ok ?_
    | exact keptBy_fault _ _
    | simp only [kept_mk, kept_eta, kept_ite, ite_self, go_kept, linkUp_kept, resendPair_kept, sendHello_kept,
        settle_kept]
    | split
    | rfl

theorem execPairLinkDown_kept (s : State) : KeptBy (execPairLinkDown s) s := by
  unfold execPairLinkDown
  repeat' first
    | with_reducible rfl
    | refine keptBy_ok ?_
    | exact keptBy_fault _ _
    | simp only [kept_mk, kept_eta, kept_ite, ite_self, go_kept, pairDown_kept, settle_kept]
    | split
    | rfl

theorem installAll_kept {secs : List LineSector} {s t : State} (e : installAll secs s = some t) : kept t = kept s := by
  have key : ∀ (l : List LineSector) (a : Option State), (∀ u, a = some u → kept u = kept s) → ∀ t,
      l.foldl (fun acc x => acc.bind (fun s =>
        let (fits, s') := mirrorSector x.pool.val x.line x.sector.val (padTo 4096 x.data) s
        if fits then some { s' with pair.gaps := s'.pair.gaps.filter (· != (x.pool.val, x.line, x.sector.val)) } else none)) a
        = some t → kept t = kept s := by
    intro l
    induction l with
    | nil => intro a ha t e; exact ha t e
    | cons x l ih =>
      intro a ha t e
      refine ih _ ?_ t e
      intro u hu
      cases a with
      | none => cases hu
      | some v =>
        simp only [Option.bind_some] at hu
        split at hu
        · cases hu
          exact (mirrorSector_kept _ _ _ _ _).trans (ha v rfl)
        · cases hu
  exact key secs (some s) (fun u h => by cases h; rfl) t e

theorem execMirrorWrite_kept (h : PairHdr) (sectors : List LineSector) (s : State) :
    KeptBy (execMirrorWrite h sectors s) s := by
  unfold execMirrorWrite
  refine keptBy_ok ((settle_kept _).trans ?_)
  split
  · unfold deliver
    repeat' first
      | with_reducible rfl
      | simp only [raiseFree_kept, pairDown_kept, ackMirror_kept]
      | split
      | (rename_i e; exact (installAll_kept e).trans rfl)
  · unfold deliver
    repeat' first
      | with_reducible rfl
      | simp only [raiseFree_kept, pairDown_kept]
      | split

theorem execMirrorAck_kept (h : PairHdr) (upTo : Nat) (s : State) : KeptBy (execMirrorAck h upTo s) s := by
  unfold execMirrorAck
  repeat' first
    | with_reducible rfl
    | refine keptBy_ok ?_
    | exact keptBy_fault _ _
    | simp only [kept_mk, kept_eta, kept_ite, ite_self, go_kept, deliver_kept, settle_kept]
    | split
    | refine (deliver_kept _ _ _ _ fun _ => ?_).trans ?_
    | rfl

theorem execMirrorClean_kept (h : PairHdr) (pool : Fin 16) (line : Nat) (mask : BitVec 16) (s : State) :
    KeptBy (execMirrorClean h pool line mask s) s := by
  unfold execMirrorClean
  repeat' first
    | with_reducible rfl
    | refine keptBy_ok ?_
    | exact keptBy_fault _ _
    | simp only [kept_mk, kept_eta, kept_ite, ite_self, go_kept, deliver_kept, unwait_kept, makeClean_kept,
        settleVault_kept, ackMirror_kept, settle_kept]
    | split
    | refine (deliver_kept _ _ _ _ fun _ => ?_).trans ?_
    | refine (kept_foldl _ _ _ fun _ _ => ?_).trans ?_
    | refine (kept_foldl_snd _ _ _ fun _ _ => ?_).trans ?_
    | rfl

theorem storeMirror_kept (e : JnlWire) (s : State) : kept (storeMirror e s) = kept s := rfl

theorem execJnlMirror_kept (h : PairHdr) (e : JnlWire) (s : State) : KeptBy (execJnlMirror h e s) s := by
  unfold execJnlMirror
  repeat' first
    | with_reducible rfl
    | refine keptBy_ok ?_
    | exact keptBy_fault _ _
    | simp only [kept_mk, kept_eta, kept_ite, ite_self, go_kept, deliver_kept, ackMirror_kept, storeMirror_kept,
        settle_kept]
    | split
    | refine (deliver_kept _ _ _ _ fun _ => ?_).trans ?_
    | rfl

theorem execJnlRetire_kept (h : PairHdr) (seq : Nat) (s : State) : KeptBy (execJnlRetire h seq s) s := by
  unfold execJnlRetire
  repeat' first
    | with_reducible rfl
    | refine keptBy_ok ?_
    | exact keptBy_fault _ _
    | simp only [kept_mk, kept_eta, kept_ite, ite_self, go_kept, deliver_kept, ackMirror_kept, settle_kept]
    | split
    | refine (deliver_kept _ _ _ _ fun _ => ?_).trans ?_
    | rfl

theorem missLine_kept (secs : List LineSector) (s : State) : kept (missLine secs s) = kept s := by
  unfold missLine
  repeat' first
    | with_reducible rfl
    | simp only [kept_mk, kept_eta, kept_ite, ite_self, sendPair_kept]
    | split
    | rfl

theorem execResyncLine_kept (h : PairHdr) (sectors : List LineSector) (entry : Option JnlWire) (s : State) :
    KeptBy (execResyncLine h sectors entry s) s := by
  have key : ∀ u : State, kept ((installAll sectors u).getD (missLine sectors u)) = kept u := by
    intro u
    cases e : installAll sectors u with
    | none => exact missLine_kept _ _
    | some v => exact installAll_kept e
  unfold execResyncLine
  refine keptBy_ok ((settle_kept _).trans ?_)
  repeat' first
    | with_reducible rfl
    | refine (deliver_kept _ _ _ _ fun _ => ?_).trans ?_
    | simp only [sendPair_kept, sendLine_kept, storeMirror_kept, key]
    | split

theorem execResyncDone_kept (h : PairHdr) (s : State) : KeptBy (execResyncDone h s) s := by
  unfold execResyncDone
  repeat' first
    | with_reducible rfl
    | refine keptBy_ok ?_
    | exact keptBy_fault _ _
    | simp only [kept_mk, kept_eta, kept_ite, ite_self, go_kept, deliver_kept, endResync_kept, settle_kept]
    | split
    | refine (deliver_kept _ _ _ _ fun _ => ?_).trans ?_
    | rfl

theorem execLedgerPrepare_kept (h : PairHdr) (r : SharedRec) (s : State) : KeptBy (execLedgerPrepare h r s) s := by
  unfold execLedgerPrepare
  repeat' first
    | with_reducible rfl
    | refine keptBy_ok ?_
    | exact keptBy_fault _ _
    | simp only [kept_mk, kept_eta, kept_ite, ite_self, go_kept, deliver_kept, sendPair_kept, dropQuiesce_kept,
        settle_kept]
    | split
    | refine (deliver_kept _ _ _ _ fun _ => ?_).trans ?_
    | rfl

theorem afterShared_kept (r : SharedRec) (s : State) : kept (afterShared r s) = kept s := by
  unfold afterShared
  repeat' first
    | with_reducible rfl
    | simp only [kept_mk, kept_eta, kept_ite, ite_self, enterResync_kept]
    | split
    | rfl

theorem voteIn_kept (accept : Bool) (s : State) : kept (voteIn accept s) = kept s := by
  unfold voteIn
  repeat' first
    | with_reducible rfl
    | simp only [kept_mk, kept_eta, kept_ite, ite_self, ackThrough_kept, applyShared_kept, sendPair_kept, endXfer_kept,
        jointCommitted_kept, jointEnd_kept, nextForming_kept, afterShared_kept, dropQuiesce_kept, finishCmd_kept]
    | split
    | rfl

theorem execLedgerVote_kept (h : PairHdr) (accept : Bool) (s : State) : KeptBy (execLedgerVote h accept s) s := by
  unfold execLedgerVote
  repeat' first
    | with_reducible rfl
    | refine keptBy_ok ?_
    | exact keptBy_fault _ _
    | simp only [kept_mk, kept_eta, kept_ite, ite_self, go_kept, deliver_kept, voteIn_kept, settle_kept]
    | split
    | refine (deliver_kept _ _ _ _ fun _ => ?_).trans ?_
    | rfl

theorem execLedgerDecide_kept (h : PairHdr) (commit : Bool) (s : State) : KeptBy (execLedgerDecide h commit s) s := by
  unfold execLedgerDecide
  repeat' first
    | with_reducible rfl
    | refine keptBy_ok ?_
    | exact keptBy_fault _ _
    | simp only [kept_mk, kept_eta, kept_ite, ite_self, go_kept, deliver_kept, ackThrough_kept, applyShared_kept,
        jointCommitted_kept, afterShared_kept, dropQuiesce_kept, settle_kept]
    | split
    | refine (deliver_kept _ _ _ _ fun _ => ?_).trans ?_
    | rfl

theorem quiesceIn_kept (bounded : Bool) (s : State) : kept (quiesceIn bounded s) = kept s := by
  unfold quiesceIn
  repeat' first
    | with_reducible rfl
    | simp only [kept_mk, kept_eta, kept_ite, ite_self]
    | split
    | rfl

theorem execQuiesce_kept (q : QuiesceIn) (s : State) : KeptBy (execQuiesce q s) s := by
  unfold execQuiesce
  repeat' first
    | with_reducible rfl
    | refine keptBy_ok ?_
    | exact keptBy_fault _ _
    | simp only [kept_mk, kept_eta, kept_ite, ite_self, go_kept, deliver_kept, quiesceIn_kept, settle_kept]
    | split
    | refine (deliver_kept _ _ _ _ fun _ => ?_).trans ?_
    | rfl

theorem execQuiesceDone_kept (h : PairHdr) (s : State) : KeptBy (execQuiesceDone h s) s := by
  unfold execQuiesceDone
  repeat' first
    | with_reducible rfl
    | refine keptBy_ok ?_
    | exact keptBy_fault _ _
    | simp only [kept_mk, kept_eta, kept_ite, ite_self, go_kept, deliver_kept, ackThrough_kept, endJoint_kept,
        updJq_kept, settle_kept]
    | split
    | refine (deliver_kept _ _ _ _ fun _ => ?_).trans ?_
    | rfl

theorem execForwardCmd_kept (h : PairHdr) (tag : Nat) (entry : List Byte) (s : State) :
    KeptBy (execForwardCmd h tag entry s) s := by
  unfold execForwardCmd
  repeat' first
    | with_reducible rfl
    | refine keptBy_ok ?_
    | exact keptBy_fault _ _
    | simp only [kept_mk, kept_eta, kept_ite, ite_self, go_kept, deliver_kept, newCmd_kept, finishCmd_kept,
        startIo_kept, settle_kept]
    | split
    | refine (deliver_kept _ _ _ _ fun _ => ?_).trans ?_
    | rfl

theorem forwardIn_kept (c : Nat) (data : List Byte) (s : State) : kept (forwardIn c data s) = kept s := by
  unfold forwardIn
  repeat' first
    | with_reducible rfl
    | simp only [kept_mk, kept_eta, kept_ite, ite_self, updCmd_kept, hostData_kept]
    | split
    | rfl

theorem execForwardData_kept (h : PairHdr) (write : Bool) (tag : Nat) (data : List Byte) (s : State) :
    KeptBy (execForwardData h write tag data s) s := by
  unfold execForwardData
  repeat' first
    | with_reducible rfl
    | refine keptBy_ok ?_
    | exact keptBy_fault _ _
    | simp only [kept_mk, kept_eta, kept_ite, ite_self, go_kept, deliver_kept, forwardIn_kept, scatter_kept,
        updCmd_kept, settle_kept]
    | split
    | refine (deliver_kept _ _ _ _ fun _ => ?_).trans ?_
    | rfl

theorem fillGaps_kept (x : Cmd) (through : Bool) (s : State) : kept (fillGaps x through s) = kept s := by
  unfold fillGaps
  repeat' first
    | with_reducible rfl
    | simp only [kept_mk, kept_eta, kept_ite, ite_self, sendPair_kept]
    | split
    | refine (kept_foldl _ _ _ fun _ _ => ?_).trans ?_
    | refine (kept_foldl_snd _ _ _ fun _ _ => ?_).trans ?_
    | rfl

theorem execForwardCpl_kept (h : PairHdr) (e : ForwardEnd) (s : State) : KeptBy (execForwardCpl h e s) s := by
  unfold execForwardCpl
  repeat' first
    | with_reducible rfl
    | refine keptBy_ok ?_
    | exact keptBy_fault _ _
    | simp only [kept_mk, kept_eta, kept_ite, ite_self, go_kept, deliver_kept, finishCmd_kept, fillGaps_kept,
        updCmd_kept, settle_kept]
    | split
    | refine (deliver_kept _ _ _ _ fun _ => ?_).trans ?_
    | rfl

theorem execMemberReport_kept (h : PairHdr) (pool : Fin 8) (slot : Fin 128) (timeout : Bool) (s : State) :
    KeptBy (execMemberReport h pool slot timeout s) s := by
  unfold execMemberReport
  repeat' first
    | with_reducible rfl
    | refine keptBy_ok ?_
    | exact keptBy_fault _ _
    | simp only [kept_mk, kept_eta, kept_ite, ite_self, go_kept, deliver_kept, slotFails_kept, updSlot_kept,
        settle_kept]
    | split
    | refine (deliver_kept _ _ _ _ fun _ => ?_).trans ?_
    | rfl

theorem partition_kept (s : State) : kept (partition s) = kept s := by
  unfold partition
  repeat' first
    | with_reducible rfl
    | simp only [kept_mk, kept_eta, kept_ite, ite_self, setPairSt_kept, endPairing_kept, finishCmd_kept,
        refuseForwarded_kept]
    | split
    | refine (kept_foldl _ _ _ fun _ _ => ?_).trans ?_
    | refine (kept_foldl_snd _ _ _ fun _ _ => ?_).trans ?_
    | rfl

theorem confirmLoss_kept (pools : List Nat) (s : State) : kept (confirmLoss pools s) = kept s := by
  unfold confirmLoss
  repeat' first
    | with_reducible rfl
    | simp only [kept_mk, kept_eta, kept_ite, ite_self, endPairing_kept, setPairSt_kept, startTake_kept]
    | split
    | refine (kept_foldl _ _ _ fun _ _ => ?_).trans ?_
    | refine (kept_foldl_snd _ _ _ fun _ _ => ?_).trans ?_
    | rfl

theorem lossDecide_kept (s : State) : kept (lossDecide s) = kept s := by
  unfold lossDecide
  repeat' first
    | with_reducible rfl
    | simp only [kept_mk, kept_eta, kept_ite, ite_self, timeTo_kept, refuseForwarded_kept, detach_kept,
        confirmLoss_kept, partition_kept]
    | split
    | refine (kept_foldl _ _ _ fun _ _ => ?_).trans ?_
    | refine (kept_foldl_snd _ _ _ fun _ _ => ?_).trans ?_
    | rfl

theorem execLossDecision_kept (s : State) : KeptBy (execLossDecision s) s := by
  unfold execLossDecision
  repeat' first
    | with_reducible rfl
    | refine keptBy_ok ?_
    | exact keptBy_fault _ _
    | simp only [kept_mk, kept_eta, kept_ite, ite_self, go_kept, lossDecide_kept, settle_kept]
    | split
    | rfl

theorem execFarewell_kept (h : PairHdr) (s : State) : KeptBy (execFarewell h s) s := by
  unfold execFarewell
  repeat' first
    | with_reducible rfl
    | refine keptBy_ok ?_
    | exact keptBy_fault _ _
    | simp only [kept_mk, kept_eta, kept_ite, ite_self, go_kept, deliver_kept, leavePaired_kept, partition_kept,
        confirmLoss_kept, settle_kept]
    | split
    | refine (deliver_kept _ _ _ _ fun _ => ?_).trans ?_
    | rfl

theorem lostOwn_kept (p : Nat) (s : State) : kept (lostOwn p s) = kept s := by
  unfold lostOwn
  repeat' first
    | with_reducible rfl
    | simp only [kept_mk, kept_eta, kept_ite, ite_self, detach_kept, dropPoolDirty_kept, retireJnl_kept, recEvent_kept]
    | split
    | refine (kept_foldl _ _ _ fun _ _ => ?_).trans ?_
    | refine (kept_foldl_snd _ _ _ fun _ _ => ?_).trans ?_
    | rfl

theorem beat_kept (reads : List ArbiterRead) (s : State) : kept (beat reads s) = kept s := by
  unfold beat
  repeat' first
    | with_reducible rfl
    | simp only [kept_mk, kept_eta, kept_ite, ite_self, emitMember_kept, lostOwn_kept, serveOwn_kept]
    | split
    | refine (kept_foldl _ _ _ fun _ _ => ?_).trans ?_
    | refine (kept_foldl_snd _ _ _ fun _ _ => ?_).trans ?_
    | rfl

theorem execReservationBeat_kept (reads : List ArbiterRead) (s : State) : KeptBy (execReservationBeat reads s) s := by
  unfold execReservationBeat
  repeat' first
    | with_reducible rfl
    | refine keptBy_ok ?_
    | exact keptBy_fault _ _
    | simp only [kept_mk, kept_eta, kept_ite, ite_self, go_kept, beat_kept, timeTo_kept, settle_kept]
    | split
    | rfl

theorem execHelloTimeout_kept (reads : List ArbiterRead) (s : State) : KeptBy (execHelloTimeout reads s) s := by
  unfold execHelloTimeout
  repeat' first
    | with_reducible rfl
    | refine keptBy_ok ?_
    | exact keptBy_fault _ _
    | simp only [kept_mk, kept_eta, kept_ite, ite_self, go_kept, timeTo_kept, beat_kept, settle_kept]
    | split
    | rfl

theorem pairCtl_kept (v : Word) (s : State) : kept (pairCtl v s) = kept s := by
  unfold pairCtl
  repeat' first
    | with_reducible rfl
    | simp only [kept_mk, kept_eta, kept_ite, ite_self, startTake_kept]
    | split
    | refine (kept_foldl _ _ _ fun _ _ => ?_).trans ?_
    | refine (kept_foldl_snd _ _ _ fun _ _ => ?_).trans ?_
    | rfl

theorem execForce_kept (value : Word) (s : State) : KeptBy (execForce value s) s := by
  unfold execForce
  repeat' first
    | with_reducible rfl
    | refine keptBy_ok ?_
    | exact keptBy_fault _ _
    | simp only [kept_mk, kept_eta, kept_ite, ite_self, go_kept, barWrite_kept, pairCtl_kept, settle_kept]
    | split
    | refine (barWrite_kept _ _ _ _ ?_).trans ?_
    | rfl

theorem pairXfer_kept (v : Word) (s : State) : kept (pairXfer v s) = kept s := by
  unfold pairXfer
  repeat' first
    | with_reducible rfl
    | simp only [kept_mk, kept_eta, kept_ite, ite_self, updPool_kept]
    | split
    | rfl

theorem execPairXferGo_kept (value : Word) (s : State) : KeptBy (execPairXferGo value s) s := by
  unfold execPairXferGo
  repeat' first
    | with_reducible rfl
    | refine keptBy_ok ?_
    | exact keptBy_fault _ _
    | simp only [kept_mk, kept_eta, kept_ite, ite_self, go_kept, barWrite_kept, pairXfer_kept, settle_kept]
    | split
    | refine (barWrite_kept _ _ _ _ ?_).trans ?_
    | rfl

theorem execXfer_kept (h : PairHdr) (st : XferStep) (s : State) : KeptBy (execXfer h st s) s := by
  unfold execXfer
  repeat' first
    | with_reducible rfl
    | refine keptBy_ok ?_
    | exact keptBy_fault _ _
    | simp only [kept_mk, kept_eta, kept_ite, ite_self, go_kept, deliver_kept, ackThrough_kept, endXfer_kept,
        acquireAll_kept, resvTo_kept, xferStep_kept, propose_kept, settle_kept]
    | split
    | refine (deliver_kept _ _ _ _ fun _ => ?_).trans ?_
    | rfl

/-! ## Machine/Boot.lean -/

theorem noteDamaged_kept (r : Nat × Nat) (s : State) : kept (noteDamaged r s) = kept s := by
  unfold noteDamaged
  repeat' first
    | with_reducible rfl
    | simp only [kept_mk, kept_eta, kept_ite, ite_self, recEvent_kept]
    | split
    | rfl

theorem giveNoService_kept (why : Nat) (s : State) : kept (giveNoService why s) = kept s := by
  unfold giveNoService
  repeat' first
    | with_reducible rfl
    | simp only [kept_mk, kept_eta, kept_ite, ite_self, loseService_kept, setHold_kept]
    | split
    | rfl

theorem putProfile_kept (n : Nat) (s : State) : kept (putProfile n s) = kept s := by
  unfold putProfile
  repeat' first
    | with_reducible rfl
    | simp only [kept_mk, kept_eta, kept_ite, ite_self, keepLanes_kept]
    | split
    | rfl

theorem loadPlan_kept (s : State) : kept (loadPlan s) = kept s := by
  unfold loadPlan
  repeat' first
    | with_reducible rfl
    | simp only [kept_mk, kept_eta, kept_ite, ite_self, loadImage_kept, event_kept, recEvent_kept]
    | split
    | rfl

theorem bindJnl_kept (s : State) : kept (bindJnl s) = kept s := by
  unfold bindJnl
  repeat' first
    | with_reducible rfl
    | simp only [kept_mk, kept_eta, kept_ite, ite_self]
    | split
    | rfl

theorem bootLost_kept (s : State) : kept (bootLost s) = kept s := by
  unfold bootLost
  repeat' first
    | with_reducible rfl
    | simp only [kept_mk, kept_eta, kept_ite, ite_self, addLostW_kept]
    | split
    | refine (kept_foldl _ _ _ fun _ _ => ?_).trans ?_
    | refine (kept_foldl_snd _ _ _ fun _ _ => ?_).trans ?_
    | rfl

theorem bootNotices_kept (s : State) : kept (bootNotices s) = kept s := by
  unfold bootNotices
  repeat' first
    | with_reducible rfl
    | simp only [kept_mk, kept_eta, kept_ite, ite_self, raise_kept]
    | split
    | rfl

theorem bootRecord_kept (s : State) : kept (bootRecord s) = kept s := by
  unfold bootRecord
  repeat' first
    | with_reducible rfl
    | simp only [kept_mk, kept_eta, kept_ite, ite_self, addRec_kept]
    | split
    | rfl

theorem pairReady_kept (s : State) : kept (pairReady s) = kept s := by
  unfold pairReady
  repeat' first
    | with_reducible rfl
    | simp only [kept_mk, kept_eta, kept_ite, ite_self, setPairSt_kept, detach_kept]
    | split
    | refine (kept_foldl _ _ _ fun _ _ => ?_).trans ?_
    | refine (kept_foldl_snd _ _ _ fun _ _ => ?_).trans ?_
    | rfl

theorem comeUp_kept (s : State) : kept (comeUp s) = kept s := by
  unfold comeUp
  repeat' first
    | with_reducible rfl
    | simp only [kept_mk, kept_eta, kept_ite, ite_self, bootRecord_kept, setCap_kept, relevel_kept, precomputeAll_kept,
        moveDuties_kept, recEvent_kept]
    | split
    | refine (kept_foldl _ _ _ fun _ _ => ?_).trans ?_
    | refine (kept_foldl_snd _ _ _ fun _ _ => ?_).trans ?_
    | rfl

theorem openService_kept (s : State) : kept (openService s) = kept s := by
  unfold openService
  repeat' first
    | with_reducible rfl
    | simp only [kept_mk, kept_eta, kept_ite, ite_self, bootNotices_kept, event_kept, createAdmin_kept,
        closeIfFound_kept, pairReady_kept]
    | split
    | refine (kept_foldl _ _ _ fun _ _ => ?_).trans ?_
    | refine (kept_foldl_snd _ _ _ fun _ _ => ?_).trans ?_
    | rfl

end Sys2Proof.Machine
end

