-- ==== Sys2Proof/Laws/KeptSystem.lean ====
section
/-! SUPPORT. Sys2Proof/Laws/KeptSystem.lean: the commands of the other units leave `kept s` as it was, one lemma an operation. -/

namespace Sys2Proof.Machine

set_option linter.unusedSimpArgs false
set_option linter.unusedTactic false
set_option linter.unreachableTactic false

/-! ## Machine/Collector.lean -/

theorem reactInt_kept (s : State) : kept (reactInt s) = kept s := by
  unfold reactInt
  repeat' first
    | with_reducible rfl
    | simp only [kept_mk, kept_eta, kept_ite, ite_self, signal_kept]
    | split
    | rfl

theorem reactErr_kept (s : State) : kept (reactErr s) = kept s := by
  unfold reactErr
  repeat' first
    | with_reducible rfl
    | simp only [kept_mk, kept_eta, kept_ite, ite_self, emit_kept]
    | split
    | rfl

theorem stopOnLane_kept (o : Nat) (s : State) : kept (stopOnLane o s) = kept s := by
  unfold stopOnLane
  repeat' first
    | with_reducible rfl
    | simp only [kept_mk, kept_eta, kept_ite, ite_self, dropInflight_kept, settleOpen_kept, endOp_kept, placeOp_kept]
    | split
    | rfl

theorem clearLane_kept (j : Nat) (s : State) : kept (clearLane j s) = kept s := by
  unfold clearLane
  repeat' first
    | with_reducible rfl
    | simp only [kept_mk, kept_eta, kept_ite, ite_self, stopOnLane_kept]
    | split
    | refine (kept_foldl _ _ _ fun _ _ => ?_).trans ?_
    | refine (kept_foldl_snd _ _ _ fun _ _ => ?_).trans ?_
    | rfl

theorem failOps_kept (q : Nat) (s : State) : kept (failOps q s) = kept s := by
  unfold failOps
  repeat' first
    | with_reducible rfl
    | simp only [kept_mk, kept_eta, kept_ite, ite_self, failTags_kept, failOwner_kept]
    | split
    | refine (kept_foldl _ _ _ fun _ _ => ?_).trans ?_
    | refine (kept_foldl_snd _ _ _ fun _ _ => ?_).trans ?_
    | rfl

theorem dropGroup_kept (g : Nat) (s : State) : kept (dropGroup g s) = kept s := by
  unfold dropGroup
  repeat' first
    | with_reducible rfl
    | simp only [kept_mk, kept_eta, kept_ite, ite_self, updMport_kept, linkUp_kept, failOps_kept]
    | split
    | refine (kept_foldl _ _ _ fun _ _ => ?_).trans ?_
    | refine (kept_foldl_snd _ _ _ fun _ _ => ?_).trans ?_
    | rfl

theorem resetWork_kept (b : Nat) (s : State) : kept (resetWork b s) = kept s := by
  unfold resetWork
  repeat' first
    | with_reducible rfl
    | simp only [kept_mk, kept_eta, kept_ite, ite_self, clearLane_kept, dropGroup_kept, pairDown_kept]
    | split
    | rfl

theorem fenceWork_kept (u : UnitNo) (s : State) : kept (fenceWork u s) = kept s := by
  unfold fenceWork
  repeat' first
    | with_reducible rfl
    | simp only [kept_mk, kept_eta, kept_ite, ite_self, clearLane_kept, dropGroup_kept, pairDown_kept]
    | split
    | rfl

theorem reactFence_kept (u : UnitNo) (s : State) : kept (reactFence u s) = kept s := by
  unfold reactFence
  repeat' first
    | with_reducible rfl
    | simp only [kept_mk, kept_eta, kept_ite, ite_self, fenceUnit_kept, fenceWork_kept]
    | split
    | refine (kept_foldl _ _ _ fun _ _ => ?_).trans ?_
    | refine (kept_foldl_snd _ _ _ fun _ _ => ?_).trans ?_
    | rfl

theorem reactBreset_kept (src b : Nat) (s : State) : kept (reactBreset src b s) = kept s := by
  unfold reactBreset
  repeat' first
    | with_reducible rfl
    | simp only [kept_mk, kept_eta, kept_ite, ite_self, reactErr_kept, reactFence_kept, resetWork_kept]
    | split
    | rfl

theorem faultRecord_kept (m : FMsg) (severe trap : Bool) (s : State) : kept (faultRecord m severe trap s) = kept s := by
  unfold faultRecord
  repeat' first
    | with_reducible rfl
    | simp only [kept_mk, kept_eta, kept_ite, ite_self, addRec_kept]
    | split
    | rfl

theorem lastWord_kept (m : FMsg) (s : State) : kept (lastWord m s) = kept s := by
  unfold lastWord
  repeat' first
    | with_reducible rfl
    | simp only [kept_mk, kept_eta, kept_ite, ite_self]
    | split
    | rfl

theorem shadowMsg_kept (m : FMsg) (s : State) : kept (shadowMsg m s) = kept s := rfl

theorem logFails_kept (m : FMsg) (s : State) : kept (logFails m s) = kept s := by
  unfold logFails
  repeat' first
    | with_reducible rfl
    | simp only [kept_mk, kept_eta, kept_ite, ite_self, event_kept, raiseFree_kept]
    | split
    | rfl

theorem bufferError_kept (j : Nat) (s : State) : kept (bufferError j s) = kept s := by
  unfold bufferError
  repeat' first
    | with_reducible rfl
    | simp only [kept_mk, kept_eta, kept_ite, ite_self, nextFree_kept, updCtx_kept]
    | split
    | rfl

theorem journalFails_kept (s : State) : kept (journalFails s) = kept s := by
  unfold journalFails
  repeat' first
    | with_reducible rfl
    | simp only [kept_mk, kept_eta, kept_ite, ite_self, nextFree_kept, journalWriteFails_kept]
    | split
    | rfl

theorem badBlock_kept (die addr : Nat) (s : State) : kept (badBlock die addr s) = kept s := by
  unfold badBlock
  repeat' first
    | with_reducible rfl
    | simp only [kept_mk, kept_eta, kept_ite, ite_self, fenceUnit_kept]
    | split
    | rfl

theorem unitEffect_kept (m : FMsg) (s : State) : kept (unitEffect m s) = kept s := by
  unfold unitEffect
  repeat' first
    | with_reducible rfl
    | simp only [kept_mk, kept_eta, kept_ite, ite_self, bufferError_kept, journalFails_kept, badBlock_kept,
        logFails_kept]
    | split
    | rfl

theorem unitRaises_kept (m : FMsg) (s : State) : kept (unitRaises m s) = kept s := by
  unfold unitRaises
  repeat' first
    | with_reducible rfl
    | simp only [kept_mk, kept_eta, kept_ite, ite_self, raise_kept, unitEffect_kept]
    | split
    | rfl

theorem endReset_kept (b : Nat) (s : State) : kept (endReset b s) = kept s := by
  unfold endReset
  repeat' first
    | with_reducible rfl
    | simp only [kept_mk, kept_eta, kept_ite, ite_self, placeHeld_kept]
    | split
    | rfl

theorem execBlockResetEnd_kept (b : Block) (s : State) : KeptBy (execBlockResetEnd b s) s := by
  unfold execBlockResetEnd
  repeat' first
    | with_reducible rfl
    | refine keptBy_ok ?_
    | exact keptBy_fault _ _
    | simp only [kept_mk, kept_eta, kept_ite, ite_self, go_kept, endReset_kept, settle_kept]
    | split
    | rfl

theorem endShadow_kept (b : Nat) (s : State) : kept (endShadow b s) = kept s := by
  unfold endShadow
  repeat' first
    | with_reducible rfl
    | simp only [kept_mk, kept_eta, kept_ite, ite_self, timeTo_kept, addRec_kept]
    | split
    | rfl

theorem execResetShadowEnd_kept (b : Block) (s : State) : KeptBy (execResetShadowEnd b s) s := by
  unfold execResetShadowEnd
  repeat' first
    | with_reducible rfl
    | refine keptBy_ok ?_
    | exact keptBy_fault _ _
    | simp only [kept_mk, kept_eta, kept_ite, ite_self, endShadow_kept]
    | split
    | rfl

theorem countLockDiscard_kept (off : Nat) (s : State) : kept (countLockDiscard off s) = kept s := rfl

theorem fcForce_kept (width : Nat) (v : Word) (s : State) : kept (fcForce width v s) = kept s := by
  unfold fcForce
  repeat' first
    | with_reducible rfl
    | simp only [kept_mk, kept_eta, kept_ite, ite_self, countLockDiscard_kept, raise_kept]
    | split
    | rfl

theorem execFcForce_kept (width : Nat) (value : Word) (s : State) : KeptBy (execFcForce width value s) s := by
  unfold execFcForce
  repeat' first
    | with_reducible rfl
    | refine keptBy_ok ?_
    | exact keptBy_fault _ _
    | simp only [kept_mk, kept_eta, kept_ite, ite_self, barWrite_kept, fcForce_kept]
    | split
    | refine (barWrite_kept _ _ _ _ ?_).trans ?_
    | rfl

theorem fcClear_kept (v : Word) (s : State) : kept (fcClear v s) = kept s := by
  unfold fcClear
  repeat' first
    | with_reducible rfl
    | simp only [kept_mk, kept_eta, kept_ite, ite_self]
    | split
    | rfl

theorem execFcClear_kept (value : Word) (s : State) : KeptBy (execFcClear value s) s := by
  unfold execFcClear
  repeat' first
    | with_reducible rfl
    | refine keptBy_ok ?_
    | exact keptBy_fault _ _
    | simp only [kept_mk, kept_eta, kept_ite, ite_self, barWrite_kept, fcClear_kept]
    | split
    | refine (barWrite_kept _ _ _ _ ?_).trans ?_
    | rfl

theorem errClr_kept (s : State) : kept (errClr s) = kept s := by
  unfold errClr
  repeat' first
    | with_reducible rfl
    | simp only [kept_mk, kept_eta, kept_ite, ite_self, emit_kept]
    | split
    | rfl

theorem execErrClr_kept (port : Fin 2) (s : State) : KeptBy (execErrClr port s) s := by
  unfold execErrClr
  repeat' first
    | with_reducible rfl
    | refine keptBy_ok ?_
    | exact keptBy_fault _ _
    | simp only [kept_mk, kept_eta, kept_ite, ite_self, barWrite_kept, errClr_kept]
    | split
    | refine (barWrite_kept _ _ _ _ ?_).trans ?_
    | rfl

theorem execEvtCtlFlush_kept (s : State) : KeptBy (execEvtCtlFlush s) s := by
  unfold execEvtCtlFlush
  repeat' first
    | with_reducible rfl
    | refine keptBy_ok ?_
    | exact keptBy_fault _ _
    | simp only [kept_mk, kept_eta, kept_ite, ite_self, barWrite_kept, flushRecs_kept]
    | split
    | refine (barWrite_kept _ _ _ _ ?_).trans ?_
    | rfl

theorem execLogRead_kept (s : State) : KeptBy (execLogRead s) s := by
  unfold execLogRead
  repeat' first
    | with_reducible rfl
    | refine keptBy_ok ?_
    | exact keptBy_fault _ _
    | simp only [kept_mk, kept_eta, kept_ite, ite_self, finishCmd_kept, adminOut_kept]
    | split
    | refine (asAdmin_kept _ _ _ fun _ _ => ?_).trans ?_
    | rfl

theorem clearLog_kept (authSeq : Nat) (s : State) : kept (clearLog authSeq s) = kept s := by
  unfold clearLog
  repeat' first
    | with_reducible rfl
    | simp only [kept_mk, kept_eta, kept_ite, ite_self, addRec_kept, event_kept, flushRecs_kept]
    | split
    | rfl

theorem execLogClear_kept (data : List Byte) (s : State) : KeptBy (execLogClear data s) s := by
  unfold execLogClear
  repeat' first
    | with_reducible rfl
    | refine keptBy_ok ?_
    | exact keptBy_fault _ _
    | simp only [kept_mk, kept_eta, kept_ite, ite_self, withAuth_kept, adminFail_kept, adminOk_kept, clearLog_kept,
        ledCommit_kept, authAccept_kept]
    | split
    | refine (asAdmin_kept _ _ _ fun _ _ => ?_).trans ?_
    | refine (withAuth_kept _ _ _ _ _ _ ?_).trans ?_
    | rfl

theorem execLogFlush_kept (s : State) : KeptBy (execLogFlush s) s := by
  unfold execLogFlush
  repeat' first
    | with_reducible rfl
    | refine keptBy_ok ?_
    | exact keptBy_fault _ _
    | simp only [kept_mk, kept_eta, kept_ite, ite_self, adminOk_kept, flushRecs_kept]
    | split
    | refine (asAdmin_kept _ _ _ fun _ _ => ?_).trans ?_
    | rfl

theorem hostTime_kept (t : Nat) (s : State) : kept (hostTime t s) = kept s := by
  unfold hostTime
  repeat' first
    | with_reducible rfl
    | simp only [kept_mk, kept_eta, kept_ite, ite_self, addRec_kept]
    | split
    | rfl

theorem execHostTime_kept (s : State) : KeptBy (execHostTime s) s := by
  unfold execHostTime
  repeat' first
    | with_reducible rfl
    | refine keptBy_ok ?_
    | exact keptBy_fault _ _
    | simp only [kept_mk, kept_eta, kept_ite, ite_self, adminOk_kept, hostTime_kept]
    | split
    | refine (asAdmin_kept _ _ _ fun _ _ => ?_).trans ?_
    | rfl

/-! ## Machine/Therm.lean -/

theorem startRelock_kept (k : Nat) (s : State) : kept (startRelock k s) = kept s := rfl

theorem setClk_kept (k : Nat) (s : State) : kept (setClk k s) = kept s := by
  unfold setClk
  repeat' first
    | with_reducible rfl
    | simp only [kept_mk, kept_eta, kept_ite, ite_self, startRelock_kept, setVid_kept]
    | split
    | rfl

theorem execClockRelockDone_kept (s : State) : KeptBy (execClockRelockDone s) s := by
  unfold execClockRelockDone
  repeat' first
    | with_reducible rfl
    | refine keptBy_ok ?_
    | exact keptBy_fault _ _
    | simp only [kept_mk, kept_eta, kept_ite, ite_self, go_kept, setVid_kept, settle_kept]
    | split
    | rfl

theorem sendThermal_kept (r : ThrReq) (state : Nat) (s : State) : kept (sendThermal r state s) = kept s := by
  unfold sendThermal
  repeat' first
    | with_reducible rfl
    | simp only [kept_mk, kept_eta, kept_ite, ite_self, emit_kept]
    | split
    | rfl

theorem throttleState_kept (r : ThrReq) (enforced : Bool) (s : State) : kept (throttleState r enforced s) = kept s := by
  unfold throttleState
  repeat' first
    | with_reducible rfl
    | simp only [kept_mk, kept_eta, kept_ite, ite_self, sendThermal_kept, event_kept]
    | split
    | rfl

theorem request_kept (region target : Nat) (rate : Bool) (s : State) : kept (request region target rate s) = kept s := by
  unfold request
  repeat' first
    | with_reducible rfl
    | simp only [kept_mk, kept_eta, kept_ite, ite_self, sendThermal_kept, event_kept]
    | split
    | rfl

theorem setTarget_kept (s : State) : kept (setTarget s) = kept s := by
  unfold setTarget
  repeat' first
    | with_reducible rfl
    | simp only [kept_mk, kept_eta, kept_ite, ite_self, accrue_kept, setClk_kept]
    | split
    | rfl

theorem enforceAt_kept (i : Nat) (s : State) : kept (enforceAt i s) = kept s := by
  unfold enforceAt
  repeat' first
    | with_reducible rfl
    | simp only [kept_mk, kept_eta, kept_ite, ite_self, throttleState_kept, setTarget_kept]
    | split
    | rfl

theorem enforceAll_kept (n region : Nat) (s : State) : kept (enforceAll n region s) = kept s := by
  induction n generalizing s with
  | zero => rfl
  | succ n ih =>
    unfold enforceAll
    split
    · rfl
    · exact (ih _).trans (enforceAt_kept _ _)

theorem endRequests_kept (f : ThrReq → Bool) (s : State) : kept (endRequests f s) = kept s := by
  unfold endRequests
  repeat' first
    | with_reducible rfl
    | simp only [kept_mk, kept_eta, kept_ite, ite_self, setTarget_kept, throttleState_kept]
    | split
    | refine (kept_foldl _ _ _ fun _ _ => ?_).trans ?_
    | refine (kept_foldl_snd _ _ _ fun _ _ => ?_).trans ?_
    | rfl

theorem execThrottleGraceEnd_kept (region : Fin 15) (s : State) : KeptBy (execThrottleGraceEnd region s) s := by
  unfold execThrottleGraceEnd
  repeat' first
    | with_reducible rfl
    | refine keptBy_ok ?_
    | exact keptBy_fault _ _
    | simp only [kept_mk, kept_eta, kept_ite, ite_self, go_kept, enforceAt_kept, timeTo_kept, settle_kept]
    | split
    | rfl

theorem execThrottleEscalate_kept (region : Fin 15) (s : State) : KeptBy (execThrottleEscalate region s) s := by
  unfold execThrottleEscalate
  repeat' first
    | with_reducible rfl
    | refine keptBy_ok ?_
    | exact keptBy_fault _ _
    | simp only [kept_mk, kept_eta, kept_ite, ite_self, timeTo_kept, request_kept]
    | split
    | rfl

theorem breakSensor_kept (n cause : Nat) (s : State) : kept (breakSensor n cause s) = kept s := by
  unfold breakSensor
  repeat' first
    | with_reducible rfl
    | simp only [kept_mk, kept_eta, kept_ite, ite_self, raiseOpen_kept, recEvent_kept]
    | split
    | rfl

theorem testSensors_kept (r : RoundReadings) (s : State) : kept (testSensors r s) = kept s := by
  unfold testSensors
  repeat' first
    | with_reducible rfl
    | simp only [kept_mk, kept_eta, kept_ite, ite_self, breakSensor_kept]
    | split
    | refine (kept_foldl _ _ _ fun _ _ => ?_).trans ?_
    | refine (kept_foldl_snd _ _ _ fun _ _ => ?_).trans ?_
    | rfl

theorem enterLevel_kept (region l : Nat) (s : State) : kept (enterLevel region l s) = kept s := by
  unfold enterLevel
  repeat' first
    | with_reducible rfl
    | simp only [kept_mk, kept_eta, kept_ite, ite_self, event_kept, request_kept, startFlush_kept, raiseFree_kept]
    | split
    | rfl

theorem leaveLevel_kept (region l : Nat) (s : State) : kept (leaveLevel region l s) = kept s := by
  unfold leaveLevel
  repeat' first
    | with_reducible rfl
    | simp only [kept_mk, kept_eta, kept_ite, ite_self, endRequests_kept]
    | split
    | rfl

theorem stepLevel_kept (region : Nat) (s : State) (l : Nat) : kept (stepLevel region s l) = kept s := by
  unfold stepLevel
  repeat' first
    | with_reducible rfl
    | simp only [kept_mk, kept_eta, kept_ite, ite_self, enterLevel_kept, leaveLevel_kept]
    | split
    | rfl

theorem stepRate_kept (n : Nat) (s : State) : kept (stepRate n s) = kept s := by
  unfold stepRate
  repeat' first
    | with_reducible rfl
    | simp only [kept_mk, kept_eta, kept_ite, ite_self, event_kept, request_kept]
    | split
    | rfl

theorem stepSlow_kept (region : Nat) (s : State) : kept (stepSlow region s) = kept s := by
  unfold stepSlow
  repeat' first
    | with_reducible rfl
    | simp only [kept_mk, kept_eta, kept_ite, ite_self, endRequests_kept]
    | split
    | rfl

theorem stepRegion_kept (region : Nat) (s : State) : kept (stepRegion region s) = kept s := by
  unfold stepRegion
  repeat' first
    | with_reducible rfl
    | simp only [kept_mk, kept_eta, kept_ite, ite_self, stepLevel_kept]
    | split
    | refine (kept_foldl _ _ _ fun _ _ => ?_).trans ?_
    | refine (kept_foldl_snd _ _ _ fun _ _ => ?_).trans ?_
    | rfl

theorem stepThrottle_kept (region : Nat) (s : State) : kept (stepThrottle region s) = kept s := by
  unfold stepThrottle
  repeat' first
    | with_reducible rfl
    | simp only [kept_mk, kept_eta, kept_ite, ite_self, stepSlow_kept, enforceAll_kept]
    | split
    | rfl

theorem canaryStep_kept (g : Nat) (s : State) : kept (canaryStep g s) = kept s := by
  unfold canaryStep
  repeat' first
    | with_reducible rfl
    | simp only [kept_mk, kept_eta, kept_ite, ite_self, setVid_kept, startRelock_kept, recEvent_kept]
    | split
    | rfl

theorem stepCanary_kept (slack : List Nat) (s : State) (g : Nat) : kept (stepCanary slack s g) = kept s := by
  unfold stepCanary
  repeat' first
    | with_reducible rfl
    | simp only [kept_mk, kept_eta, kept_ite, ite_self, noteHour_kept, canaryStep_kept]
    | split
    | rfl

theorem stepCanaries_kept (slack : List Nat) (s : State) : kept (stepCanaries slack s) = kept s := by
  unfold stepCanaries
  repeat' first
    | with_reducible rfl
    | simp only [kept_mk, kept_eta, kept_ite, ite_self, stepCanary_kept]
    | split
    | refine (kept_foldl _ _ _ fun _ _ => ?_).trans ?_
    | refine (kept_foldl_snd _ _ _ fun _ _ => ?_).trans ?_
    | rfl

theorem stepRails_kept (was : List Nat) (s : State) : kept (stepRails was s) = kept s := by
  unfold stepRails
  repeat' first
    | with_reducible rfl
    | simp only [kept_mk, kept_eta, kept_ite, ite_self, raiseOpen_kept]
    | split
    | refine (kept_foldl _ _ _ fun _ _ => ?_).trans ?_
    | refine (kept_foldl_snd _ _ _ fun _ _ => ?_).trans ?_
    | rfl

theorem storeRound_kept (r : RoundReadings) (s : State) : kept (storeRound r s) = kept s := rfl

theorem stepPack_kept (r : RoundReadings) (s : State) : kept (stepPack r s) = kept s := by
  unfold stepPack
  repeat' first
    | with_reducible rfl
    | simp only [kept_mk, kept_eta, kept_ite, ite_self, packRound_kept]
    | split
    | rfl

theorem stepHours_kept (s : State) : kept (stepHours s) = kept s := by
  unfold stepHours
  repeat' first
    | with_reducible rfl
    | simp only [kept_mk, kept_eta, kept_ite, ite_self, noteHour_kept, noteWords_kept]
    | split
    | rfl

theorem housekeep_kept (r : RoundReadings) (s : State) : kept (housekeep r s) = kept s := by
  unfold housekeep
  repeat' first
    | with_reducible rfl
    | simp only [kept_mk, kept_eta, kept_ite, ite_self, testSensors_kept, storeRound_kept, stepRegion_kept,
        stepRate_kept, stepThrottle_kept, stepHours_kept, stepCanaries_kept, stepPack_kept, unitsRound_kept,
        stepRails_kept]
    | split
    | refine (kept_foldl _ _ _ fun _ _ => ?_).trans ?_
    | refine (kept_foldl_snd _ _ _ fun _ _ => ?_).trans ?_
    | rfl

theorem execHousekeepingRound_kept (r : RoundReadings) (s : State) : KeptBy (execHousekeepingRound r s) s := by
  unfold execHousekeepingRound
  repeat' first
    | with_reducible rfl
    | refine keptBy_ok ?_
    | exact keptBy_fault _ _
    | simp only [kept_mk, kept_eta, kept_ite, ite_self, go_kept, housekeep_kept, settle_kept]
    | split
    | rfl

theorem execThermtrip_kept (s : State) : KeptBy (execThermtrip s) s := by
  unfold execThermtrip
  repeat' first
    | with_reducible rfl
    | refine keptBy_ok ?_
    | exact keptBy_fault _ _
    | simp only [kept_mk, kept_eta, kept_ite, ite_self, tornFlush_kept, setHold_kept, emit_kept, dropWork_kept]
    | split
    | rfl

theorem execXtalLoss_kept (s : State) : KeptBy (execXtalLoss s) s := by
  unfold execXtalLoss
  repeat' first
    | with_reducible rfl
    | refine keptBy_ok ?_
    | exact keptBy_fault _ _
    | simp only [kept_mk, kept_eta, kept_ite, ite_self]
    | split
    | rfl

theorem execXtalRestored_kept (s : State) : KeptBy (execXtalRestored s) s := by
  unfold execXtalRestored
  repeat' first
    | with_reducible rfl
    | refine keptBy_ok ?_
    | exact keptBy_fault _ _
    | simp only [kept_mk, kept_eta, kept_ite, ite_self]
    | split
    | rfl

theorem setLock_kept (p : Pll) (b : Bool) (s : State) : kept (setLock p b s) = kept s := by
  unfold setLock
  repeat' first
    | with_reducible rfl
    | simp only [kept_mk, kept_eta, kept_ite, ite_self, startGroup_kept, stopGroup_kept]
    | split
    | rfl

theorem execPllLockLoss_kept (p : Pll) (s : State) : KeptBy (execPllLockLoss p s) s := by
  unfold execPllLockLoss
  repeat' first
    | with_reducible rfl
    | refine keptBy_ok ?_
    | exact keptBy_fault _ _
    | simp only [kept_mk, kept_eta, kept_ite, ite_self, setLock_kept, raiseOpen_kept]
    | split
    | rfl

theorem execPllRelocked_kept (p : Pll) (s : State) : KeptBy (execPllRelocked p s) s := by
  unfold execPllRelocked
  repeat' first
    | with_reducible rfl
    | refine keptBy_ok ?_
    | exact keptBy_fault _ _
    | simp only [kept_mk, kept_eta, kept_ite, ite_self, go_kept, setLock_kept, settle_kept]
    | split
    | rfl

theorem applyPlan_kept (code ceiling : Nat) (s : State) : kept (applyPlan code ceiling s) = kept s := by
  unfold applyPlan
  repeat' first
    | with_reducible rfl
    | simp only [kept_mk, kept_eta, kept_ite, ite_self, setVid_kept, startRelock_kept]
    | split
    | rfl

theorem halveCounts_kept (s : State) : kept (halveCounts s) = kept s := by
  unfold halveCounts
  repeat' first
    | with_reducible rfl
    | simp only [kept_mk, kept_eta, kept_ite, ite_self]
    | split
    | rfl

theorem marginPlan_kept (m : MarginInputs) (s : State) : kept (marginPlan m s) = kept s := by
  unfold marginPlan
  repeat' first
    | with_reducible rfl
    | simp only [kept_mk, kept_eta, kept_ite, ite_self, timeToOp_kept, noteHour_kept, noteWords_kept, applyPlan_kept,
        ledCommit_kept, halveCounts_kept, raiseFree_kept, recEvent_kept]
    | split
    | rfl

theorem execMarginPlan_kept (m : MarginInputs) (s : State) : KeptBy (execMarginPlan m s) s := by
  unfold execMarginPlan
  repeat' first
    | with_reducible rfl
    | refine keptBy_ok ?_
    | exact keptBy_fault _ _
    | simp only [kept_mk, kept_eta, kept_ite, ite_self, marginPlan_kept]
    | split
    | rfl

/-! ## Machine/PowerRows.lean -/

theorem linkReset_kept (p : Nat) (s : State) : kept (linkReset p s) = kept s := by
  unfold linkReset
  repeat' first
    | with_reducible rfl
    | simp only [kept_mk, kept_eta, kept_ite, ite_self, updPort_kept, nvmeReset_kept, flrPort_kept]
    | split
    | rfl

theorem takeSector_kept (bad : Bool) (e : IdxEnt) (i v : Nat) (s : State) : kept (takeSector bad e i v s) = kept s := by
  unfold takeSector
  repeat' first
    | with_reducible rfl
    | simp only [kept_mk, kept_eta, kept_ite, ite_self, settleVault_kept, addLostW_kept, installRestored_kept]
    | split
    | rfl

theorem destageWaited_kept (l : List (Nat × Nat × Nat)) (s : State) : kept (destageWaited l s) = kept s := by
  unfold destageWaited
  repeat' first
    | with_reducible rfl
    | simp only [kept_mk, kept_eta, kept_ite, ite_self, fullSlice_kept, destagePlaces_kept]
    | split
    | refine (kept_foldl _ _ _ fun _ _ => ?_).trans ?_
    | refine (kept_foldl_snd _ _ _ fun _ _ => ?_).trans ?_
    | rfl

theorem vaultRead_kept (half page : Nat) (bad : BitVec 4) (s : State) : kept (vaultRead half page bad s) = kept s := by
  unfold vaultRead
  repeat' first
    | with_reducible rfl
    | simp only [kept_mk, kept_eta, kept_ite, ite_self, updCmd_kept, takeSector_kept, destageWaited_kept]
    | split
    | refine (kept_foldl _ _ _ fun _ _ => ?_).trans ?_
    | refine (kept_foldl_snd _ _ _ fun _ _ => ?_).trans ?_
    | rfl

theorem execVaultReadComplete_kept (half : Fin 2) (page : Nat) (bad : BitVec 4) (s : State) :
    KeptBy (execVaultReadComplete half page bad s) s := by
  unfold execVaultReadComplete
  repeat' first
    | with_reducible rfl
    | refine keptBy_ok ?_
    | exact keptBy_fault _ _
    | simp only [kept_mk, kept_eta, kept_ite, ite_self, go_kept, vaultRead_kept, settle_kept]
    | split
    | rfl

theorem execRestoreEnd_kept (s : State) : KeptBy (execRestoreEnd s) s := by
  unfold execRestoreEnd
  repeat' first
    | with_reducible rfl
    | refine keptBy_ok ?_
    | exact keptBy_fault _ _
    | simp only [kept_mk, kept_eta, kept_ite, ite_self]
    | split
    | rfl

theorem eraseHalf_kept (h : Nat) (s : State) : kept (eraseHalf h s) = kept s := by
  unfold eraseHalf
  repeat' first
    | with_reducible rfl
    | simp only [kept_mk, kept_eta, kept_ite, ite_self, setCap_kept]
    | split
    | rfl

theorem execVaultHalfEraseDone_kept (half : Fin 2) (s : State) : KeptBy (execVaultHalfEraseDone half s) s := by
  unfold execVaultHalfEraseDone
  repeat' first
    | with_reducible rfl
    | refine keptBy_ok ?_
    | exact keptBy_fault _ _
    | simp only [kept_mk, kept_eta, kept_ite, ite_self, go_kept, eraseHalf_kept, settle_kept]
    | split
    | rfl

theorem execCountersCommit_kept (s : State) : KeptBy (execCountersCommit s) s := by
  unfold execCountersCommit
  repeat' first
    | with_reducible rfl
    | refine keptBy_ok ?_
    | exact keptBy_fault _ _
    | simp only [kept_mk, kept_eta, kept_ite, ite_self, timeToOp_kept, commitCounters_kept]
    | split
    | rfl

theorem execLedgerRead_kept (s : State) : KeptBy (execLedgerRead s) s := by
  unfold execLedgerRead
  repeat' first
    | with_reducible rfl
    | refine keptBy_ok ?_
    | exact keptBy_fault _ _
    | simp only [kept_mk, kept_eta, kept_ite, ite_self, adminFail_kept, finishCmd_kept, adminOut_kept]
    | split
    | refine (asAdmin_kept _ _ _ fun _ _ => ?_).trans ?_
    | rfl

theorem bootVol_kept (v : Word) (s : State) : kept (bootVol v s) = kept s := by
  unfold bootVol
  repeat' first
    | with_reducible rfl
    | simp only [kept_mk, kept_eta, kept_ite, ite_self, countLockDiscard_kept, ledCommit_kept]
    | split
    | rfl

theorem execBootVolWrite_kept (value : Word) (s : State) : KeptBy (execBootVolWrite value s) s := by
  unfold execBootVolWrite
  repeat' first
    | with_reducible rfl
    | refine keptBy_ok ?_
    | exact keptBy_fault _ _
    | simp only [kept_mk, kept_eta, kept_ite, ite_self, barWrite_kept, bootVol_kept]
    | split
    | refine (barWrite_kept _ _ _ _ ?_).trans ?_
    | rfl

theorem pwrCtl_kept (v : Word) (s : State) : kept (pwrCtl v s) = kept s := by
  unfold pwrCtl
  repeat' first
    | with_reducible rfl
    | simp only [kept_mk, kept_eta, kept_ite, ite_self, countLockDiscard_kept, ledCommit_kept]
    | split
    | rfl

theorem execRetrainRequest_kept (value : Word) (s : State) : KeptBy (execRetrainRequest value s) s := by
  unfold execRetrainRequest
  repeat' first
    | with_reducible rfl
    | refine keptBy_ok ?_
    | exact keptBy_fault _ _
    | simp only [kept_mk, kept_eta, kept_ite, ite_self, barWrite_kept, pwrCtl_kept]
    | split
    | refine (barWrite_kept _ _ _ _ ?_).trans ?_
    | rfl

/-! ## Machine/PlanRows.lean -/

theorem execPlanStage_kept (data : List Byte) (s : State) : KeptBy (execPlanStage data s) s := by
  unfold execPlanStage
  repeat' first
    | with_reducible rfl
    | refine keptBy_ok ?_
    | exact keptBy_fault _ _
    | simp only [kept_mk, kept_eta, kept_ite, ite_self, commitGate_kept, adminFail_kept, ledCommit_kept, adminOk_kept]
    | split
    | refine (asAdmin_kept _ _ _ fun _ _ => ?_).trans ?_
    | refine (commitGate_kept _ _ _ ?_).trans ?_
    | rfl

theorem execPlanCommit_kept (s : State) : KeptBy (execPlanCommit s) s := by
  unfold execPlanCommit
  repeat' first
    | with_reducible rfl
    | refine keptBy_ok ?_
    | exact keptBy_fault _ _
    | simp only [kept_mk, kept_eta, kept_ite, ite_self, go_kept, commitGate_kept, adminFail_kept, changeShared_kept,
        settle_kept]
    | split
    | refine (asAdmin_kept _ _ _ fun _ _ => ?_).trans ?_
    | refine (commitGate_kept _ _ _ ?_).trans ?_
    | rfl

theorem endWait_kept (s : State) : kept (endWait s) = kept s := by
  unfold endWait
  repeat' first
    | with_reducible rfl
    | simp only [kept_mk, kept_eta, kept_ite, ite_self, finishCmd_kept]
    | split
    | rfl

theorem planSwitch_kept (s : State) : kept (planSwitch s) = kept s := by
  unfold planSwitch
  repeat' first
    | with_reducible rfl
    | simp only [kept_mk, kept_eta, kept_ite, ite_self, bindJnl_kept, meetMembers_kept, loadImage_kept, placeHeld_kept,
        jointApplied_kept, endWait_kept, startCkpt_kept]
    | split
    | rfl

theorem execPlanSwitch_kept (s : State) : KeptBy (execPlanSwitch s) s := by
  unfold execPlanSwitch
  repeat' first
    | with_reducible rfl
    | refine keptBy_ok ?_
    | exact keptBy_fault _ _
    | simp only [kept_mk, kept_eta, kept_ite, ite_self, go_kept, planSwitch_kept, settle_kept]
    | split
    | rfl

theorem keyAuth_kept (c op : Nat) (av a : List Byte) (f : Option Nat → State → State) (s : State) (h : ∀ q, kept (f q s) = kept s) :
    kept (keyAuth c op av a f s) = kept s := by
  unfold keyAuth; split
  · exact h _
  · exact withAuth_kept _ _ _ _ _ _ (h _)

theorem keyUnchanged_kept (c : Nat) (auth : Option Nat) (s : State) : kept (keyUnchanged c auth s) = kept s := by
  unfold keyUnchanged
  repeat' first
    | with_reducible rfl
    | simp only [kept_mk, kept_eta, kept_ite, ite_self, finishCmd_kept, ledCommit_kept]
    | split
    | rfl

theorem execPlanKeyInstall_kept (data : List Byte) (s : State) : KeptBy (execPlanKeyInstall data s) s := by
  unfold execPlanKeyInstall
  repeat' first
    | with_reducible rfl
    | refine keptBy_ok ?_
    | exact keptBy_fault _ _
    | simp only [kept_mk, kept_eta, kept_ite, ite_self, keyAuth_kept, keyUnchanged_kept, adminFail_kept,
        commitGate_kept, changeShared_kept]
    | split
    | refine (asAdmin_kept _ _ _ fun _ _ => ?_).trans ?_
    | refine (commitGate_kept _ _ _ ?_).trans ?_
    | refine (keyAuth_kept _ _ _ _ _ _ fun _ => ?_).trans ?_
    | rfl

theorem execPlanKeyRemove_kept (data : List Byte) (s : State) : KeptBy (execPlanKeyRemove data s) s := by
  unfold execPlanKeyRemove
  repeat' first
    | with_reducible rfl
    | refine keptBy_ok ?_
    | exact keptBy_fault _ _
    | simp only [kept_mk, kept_eta, kept_ite, ite_self, keyAuth_kept, adminFail_kept, commitGate_kept,
        changeShared_kept]
    | split
    | refine (asAdmin_kept _ _ _ fun _ _ => ?_).trans ?_
    | refine (commitGate_kept _ _ _ ?_).trans ?_
    | refine (keyAuth_kept _ _ _ _ _ _ fun _ => ?_).trans ?_
    | rfl

theorem execProfileRead_kept (s : State) : KeptBy (execProfileRead s) s := by
  unfold execProfileRead
  repeat' first
    | with_reducible rfl
    | refine keptBy_ok ?_
    | exact keptBy_fault _ _
    | simp only [kept_mk, kept_eta, kept_ite, ite_self, adminFail_kept, adminOk_kept, adminOut_kept]
    | split
    | refine (asAdmin_kept _ _ _ fun _ _ => ?_).trans ?_
    | rfl

theorem execProfileWrite_kept (p : Profile) (s : State) : KeptBy (execProfileWrite p s) s := by
  unfold execProfileWrite
  repeat' first
    | with_reducible rfl
    | refine keptBy_ok ?_
    | exact keptBy_fault _ _
    | simp only [kept_mk, kept_eta, kept_ite, ite_self, go_kept, adminFail_kept, commitGate_kept, changeShared_kept,
        settle_kept]
    | split
    | refine (asAdmin_kept _ _ _ fun _ _ => ?_).trans ?_
    | refine (commitGate_kept _ _ _ ?_).trans ?_
    | rfl

theorem execProfileSelect_kept (s : State) : KeptBy (execProfileSelect s) s := by
  unfold execProfileSelect
  repeat' first
    | with_reducible rfl
    | refine keptBy_ok ?_
    | exact keptBy_fault _ _
    | simp only [kept_mk, kept_eta, kept_ite, ite_self, go_kept, adminFail_kept, changeShared_kept, settle_kept]
    | split
    | refine (asAdmin_kept _ _ _ fun _ _ => ?_).trans ?_
    | rfl

theorem execProfileLock_kept (data : List Byte) (s : State) : KeptBy (execProfileLock data s) s := by
  unfold execProfileLock
  repeat' first
    | with_reducible rfl
    | refine keptBy_ok ?_
    | exact keptBy_fault _ _
    | simp only [kept_mk, kept_eta, kept_ite, ite_self, adminFail_kept, withAuth_kept, changeShared_kept]
    | split
    | refine (asAdmin_kept _ _ _ fun _ _ => ?_).trans ?_
    | refine (withAuth_kept _ _ _ _ _ _ ?_).trans ?_
    | rfl

theorem quiesceApply_kept (s : State) : kept (quiesceApply s) = kept s := by
  unfold quiesceApply
  repeat' first
    | with_reducible rfl
    | simp only [kept_mk, kept_eta, kept_ite, ite_self, timeTo_kept, setCap_kept, putProfile_kept, placeHeld_kept,
        jointApplied_kept, endWait_kept, quiesceOwn_kept]
    | split
    | rfl

theorem execProfileQuiesceApply_kept (s : State) : KeptBy (execProfileQuiesceApply s) s := by
  unfold execProfileQuiesceApply
  repeat' first
    | with_reducible rfl
    | refine keptBy_ok ?_
    | exact keptBy_fault _ _
    | simp only [kept_mk, kept_eta, kept_ite, ite_self, go_kept, quiesceApply_kept, settle_kept]
    | split
    | rfl

/-! ## Machine/NvmeRows.lean -/

theorem execNvmeControllerReset_kept (port : Fin 2) (s : State) : KeptBy (execNvmeControllerReset port s) s := by
  unfold execNvmeControllerReset
  repeat' first
    | with_reducible rfl
    | refine keptBy_ok ?_
    | exact keptBy_fault _ _
    | simp only [kept_mk, kept_eta, kept_ite, ite_self, nvmeReset_kept]
    | split
    | rfl

theorem nvmeEnable_kept (p : Nat) (asq acq : Word) (aqa : Dword) (s : State) :
    kept (nvmeEnable p asq acq aqa s) = kept s := by
  unfold nvmeEnable
  repeat' first
    | with_reducible rfl
    | simp only [kept_mk, kept_eta, kept_ite, ite_self, updPf1_kept]
    | split
    | rfl

theorem execPf1ControllerEnable_kept (port : Fin 2) (cc : Dword) (asq acq : Word) (aqa : Dword) (s : State) :
    KeptBy (execPf1ControllerEnable port cc asq acq aqa s) s := by
  unfold execPf1ControllerEnable
  repeat' first
    | with_reducible rfl
    | refine keptBy_ok ?_
    | exact keptBy_fault _ _
    | simp only [kept_mk, kept_eta, kept_ite, ite_self, updPf1_kept, nvmeEnable_kept, nvmeReset_kept]
    | split
    | rfl

theorem readSqes_kept (p : Nat) (q : Nvq) (t : Nat) (s : State) : kept (readSqes p q t s) = kept s := by
  unfold readSqes
  repeat' first
    | with_reducible rfl
    | simp only [kept_mk, kept_eta, kept_ite, ite_self, emit_kept]
    | split
    | refine (kept_foldl _ _ _ fun _ _ => ?_).trans ?_
    | refine (kept_foldl_snd _ _ _ fun _ _ => ?_).trans ?_
    | rfl

theorem nvmeStashed_kept (n p : Nat) (s : State) : kept (nvmeStashed n p s) = kept s := by
  induction n generalizing s with
  | zero => rfl
  | succ n ih =>
    unfold nvmeStashed
    try dsimp only
    repeat' first | rfl | split | (rw [ih]; simp only [writeNvme_kept, updPf1_kept])

theorem nvmeDoorbell_kept (p : Nat) (io completion : Bool) (v : Nat) (s : State) :
    kept (nvmeDoorbell p io completion v s) = kept s := by
  unfold nvmeDoorbell
  repeat' first
    | with_reducible rfl
    | simp only [kept_mk, kept_eta, kept_ite, ite_self, updPf1_kept, nvmeStashed_kept, readSqes_kept]
    | split
    | rfl

theorem execPf1QueueDoorbell_kept (port : Fin 2) (io completion : Bool) (value : Dword) (s : State) :
    KeptBy (execPf1QueueDoorbell port io completion value s) s := by
  unfold execPf1QueueDoorbell
  repeat' first
    | with_reducible rfl
    | refine keptBy_ok ?_
    | exact keptBy_fault _ _
    | simp only [kept_mk, kept_eta, kept_ite, ite_self, nvmeDoorbell_kept]
    | split
    | rfl

theorem nvmeDone_kept (p : Nat) (e : NvmeSqe) (status dw0 : Nat) (s : State) :
    kept (nvmeDone p e status dw0 s) = kept s := by
  unfold nvmeDone
  repeat' first
    | with_reducible rfl
    | simp only [kept_mk, kept_eta, kept_ite, ite_self, postNvme_kept]
    | split
    | rfl

theorem nvmeOut_kept (p : Nat) (e : NvmeSqe) (d : List Byte) (s : State) : kept (nvmeOut p e d s) = kept s := by
  unfold nvmeOut
  repeat' first
    | with_reducible rfl
    | simp only [kept_mk, kept_eta, kept_ite, ite_self, nvmeDone_kept, scatter_kept]
    | split
    | rfl

theorem nvmeIdentify_kept (p : Nat) (e : NvmeSqe) (s : State) : kept (nvmeIdentify p e s) = kept s := by
  unfold nvmeIdentify
  repeat' first
    | with_reducible rfl
    | simp only [kept_mk, kept_eta, kept_ite, ite_self, nvmeDone_kept, nvmeOut_kept]
    | split
    | rfl

theorem execNvmeIdentify_kept (port : Fin 2) (e : NvmeSqe) (s : State) : KeptBy (execNvmeIdentify port e s) s := by
  unfold execNvmeIdentify
  repeat' first
    | with_reducible rfl
    | refine keptBy_ok ?_
    | exact keptBy_fault _ _
    | simp only [kept_mk, kept_eta, kept_ite, ite_self, asNvmeAdmin_kept, nvmeIdentify_kept]
    | split
    | refine (asNvmeAdmin_kept _ _ _ _ fun _ => ?_).trans ?_
    | rfl

theorem nvmeCreate_kept (p : Nat) (submission : Bool) (e : NvmeSqe) (s : State) :
    kept (nvmeCreate p submission e s) = kept s := by
  unfold nvmeCreate
  repeat' first
    | with_reducible rfl
    | simp only [kept_mk, kept_eta, kept_ite, ite_self, nvmeDone_kept, updPf1_kept]
    | split
    | rfl

theorem execNvmeCreateIoQueue_kept (port : Fin 2) (submission : Bool) (e : NvmeSqe) (s : State) :
    KeptBy (execNvmeCreateIoQueue port submission e s) s := by
  unfold execNvmeCreateIoQueue
  repeat' first
    | with_reducible rfl
    | refine keptBy_ok ?_
    | exact keptBy_fault _ _
    | simp only [kept_mk, kept_eta, kept_ite, ite_self, asNvmeAdmin_kept, nvmeCreate_kept]
    | split
    | refine (asNvmeAdmin_kept _ _ _ _ fun _ => ?_).trans ?_
    | rfl

theorem nvmeDelete_kept (p : Nat) (submission : Bool) (e : NvmeSqe) (s : State) :
    kept (nvmeDelete p submission e s) = kept s := by
  unfold nvmeDelete
  repeat' first
    | with_reducible rfl
    | simp only [kept_mk, kept_eta, kept_ite, ite_self, nvmeDone_kept, updPf1_kept, orphanNvme_kept]
    | split
    | rfl

theorem execNvmeDeleteIoQueue_kept (port : Fin 2) (submission : Bool) (e : NvmeSqe) (s : State) :
    KeptBy (execNvmeDeleteIoQueue port submission e s) s := by
  unfold execNvmeDeleteIoQueue
  repeat' first
    | with_reducible rfl
    | refine keptBy_ok ?_
    | exact keptBy_fault _ _
    | simp only [kept_mk, kept_eta, kept_ite, ite_self, asNvmeAdmin_kept, nvmeDelete_kept]
    | split
    | refine (asNvmeAdmin_kept _ _ _ _ fun _ => ?_).trans ?_
    | rfl

theorem nvmeLog_kept (p : Nat) (e : NvmeSqe) (s : State) : kept (nvmeLog p e s) = kept s := by
  unfold nvmeLog
  repeat' first
    | with_reducible rfl
    | simp only [kept_mk, kept_eta, kept_ite, ite_self, nvmeOut_kept, nvmeEvent_kept, updPf1_kept, nvmeDone_kept]
    | split
    | rfl

theorem execNvmeGetLogPage_kept (port : Fin 2) (e : NvmeSqe) (s : State) : KeptBy (execNvmeGetLogPage port e s) s := by
  unfold execNvmeGetLogPage
  repeat' first
    | with_reducible rfl
    | refine keptBy_ok ?_
    | exact keptBy_fault _ _
    | simp only [kept_mk, kept_eta, kept_ite, ite_self, asNvmeAdmin_kept, nvmeLog_kept]
    | split
    | refine (asNvmeAdmin_kept _ _ _ _ fun _ => ?_).trans ?_
    | rfl

theorem nvmeGetFeature_kept (p : Nat) (e : NvmeSqe) (s : State) : kept (nvmeGetFeature p e s) = kept s := by
  unfold nvmeGetFeature
  repeat' first
    | with_reducible rfl
    | simp only [kept_mk, kept_eta, kept_ite, ite_self, nvmeDone_kept]
    | split
    | rfl

theorem execNvmeGetFeatures_kept (port : Fin 2) (e : NvmeSqe) (s : State) : KeptBy (execNvmeGetFeatures port e s) s := by
  unfold execNvmeGetFeatures
  repeat' first
    | with_reducible rfl
    | refine keptBy_ok ?_
    | exact keptBy_fault _ _
    | simp only [kept_mk, kept_eta, kept_ite, ite_self, asNvmeAdmin_kept, nvmeGetFeature_kept]
    | split
    | refine (asNvmeAdmin_kept _ _ _ _ fun _ => ?_).trans ?_
    | rfl

theorem nvmeSetFeature_kept (p : Nat) (e : NvmeSqe) (s : State) : kept (nvmeSetFeature p e s) = kept s := by
  unfold nvmeSetFeature
  repeat' first
    | with_reducible rfl
    | simp only [kept_mk, kept_eta, kept_ite, ite_self, nvmeDone_kept, updPf1_kept]
    | split
    | rfl

theorem execNvmeSetFeatures_kept (port : Fin 2) (e : NvmeSqe) (s : State) : KeptBy (execNvmeSetFeatures port e s) s := by
  unfold execNvmeSetFeatures
  repeat' first
    | with_reducible rfl
    | refine keptBy_ok ?_
    | exact keptBy_fault _ _
    | simp only [kept_mk, kept_eta, kept_ite, ite_self, asNvmeAdmin_kept, nvmeSetFeature_kept]
    | split
    | refine (asNvmeAdmin_kept _ _ _ _ fun _ => ?_).trans ?_
    | rfl

theorem nvmeAer_kept (p : Nat) (e : NvmeSqe) (s : State) : kept (nvmeAer p e s) = kept s := by
  unfold nvmeAer
  repeat' first
    | with_reducible rfl
    | simp only [kept_mk, kept_eta, kept_ite, ite_self, nvmeDone_kept, nvmeEvent_kept, updPf1_kept]
    | split
    | rfl

theorem execNvmeAsyncEventRequest_kept (port : Fin 2) (e : NvmeSqe) (s : State) :
    KeptBy (execNvmeAsyncEventRequest port e s) s := by
  unfold execNvmeAsyncEventRequest
  repeat' first
    | with_reducible rfl
    | refine keptBy_ok ?_
    | exact keptBy_fault _ _
    | simp only [kept_mk, kept_eta, kept_ite, ite_self, asNvmeAdmin_kept, nvmeAer_kept]
    | split
    | refine (asNvmeAdmin_kept _ _ _ _ fun _ => ?_).trans ?_
    | rfl

theorem nvmeAbort_kept (p : Nat) (e : NvmeSqe) (s : State) : kept (nvmeAbort p e s) = kept s := by
  unfold nvmeAbort
  repeat' first
    | with_reducible rfl
    | simp only [kept_mk, kept_eta, kept_ite, ite_self, updPf1_kept, nvmeDone_kept, postNvme_kept]
    | split
    | rfl

theorem execNvmeAbort_kept (port : Fin 2) (e : NvmeSqe) (s : State) : KeptBy (execNvmeAbort port e s) s := by
  unfold execNvmeAbort
  repeat' first
    | with_reducible rfl
    | refine keptBy_ok ?_
    | exact keptBy_fault _ _
    | simp only [kept_mk, kept_eta, kept_ite, ite_self, asNvmeAdmin_kept, nvmeAbort_kept]
    | split
    | refine (asNvmeAdmin_kept _ _ _ _ fun _ => ?_).trans ?_
    | rfl

theorem nvmeFail_kept (p : Nat) (e : NvmeSqe) (status : Nat) (s : State) : kept (nvmeFail p e status s) = kept s := by
  unfold nvmeFail
  repeat' first
    | with_reducible rfl
    | simp only [kept_mk, kept_eta, kept_ite, ite_self, postNvme_kept]
    | split
    | rfl

theorem onBoot_kept (p : Nat) (e : NvmeSqe) (f : Nat → State → State) (s : State) (h : ∀ v, kept (f v s) = kept s) :
    kept (onBoot p e f s) = kept s := by
  unfold onBoot; repeat' first | exact h _ | exact nvmeFail_kept _ _ _ _ | split

theorem nvmeRw_kept (p opcode : Nat) (e : NvmeSqe) (s : State) : kept (nvmeRw p opcode e s) = kept s := by
  unfold nvmeRw
  repeat' first
    | with_reducible rfl
    | simp only [kept_mk, kept_eta, kept_ite, ite_self, debitBytes_kept, onBoot_kept, nvmeFail_kept, beginNvme_kept]
    | split
    | refine (onBoot_kept _ _ _ _ fun _ => ?_).trans ?_
    | rfl

theorem execNvmeRead_kept (port : Fin 2) (e : NvmeSqe) (s : State) : KeptBy (execNvmeRead port e s) s := by
  unfold execNvmeRead
  repeat' first
    | with_reducible rfl
    | refine keptBy_ok ?_
    | exact keptBy_fault _ _
    | simp only [kept_mk, kept_eta, kept_ite, ite_self, go_kept, asNvmeIo_kept, nvmeRw_kept, settle_kept]
    | split
    | refine (asNvmeIo_kept _ _ _ _ fun _ => ?_).trans ?_
    | rfl

theorem execNvmeWrite_kept (port : Fin 2) (e : NvmeSqe) (s : State) : KeptBy (execNvmeWrite port e s) s := by
  unfold execNvmeWrite
  repeat' first
    | with_reducible rfl
    | refine keptBy_ok ?_
    | exact keptBy_fault _ _
    | simp only [kept_mk, kept_eta, kept_ite, ite_self, go_kept, asNvmeIo_kept, nvmeRw_kept, settle_kept]
    | split
    | refine (asNvmeIo_kept _ _ _ _ fun _ => ?_).trans ?_
    | rfl

theorem execNvmeFlush_kept (port : Fin 2) (e : NvmeSqe) (s : State) : KeptBy (execNvmeFlush port e s) s := by
  unfold execNvmeFlush
  repeat' first
    | with_reducible rfl
    | refine keptBy_ok ?_
    | exact keptBy_fault _ _
    | simp only [kept_mk, kept_eta, kept_ite, ite_self, go_kept, asNvmeIo_kept, onBoot_kept, beginNvme_kept,
        settle_kept]
    | split
    | refine (asNvmeIo_kept _ _ _ _ fun _ => ?_).trans ?_
    | refine (onBoot_kept _ _ _ _ fun _ => ?_).trans ?_
    | rfl

theorem execNvmeWriteZeroes_kept (port : Fin 2) (e : NvmeSqe) (s : State) : KeptBy (execNvmeWriteZeroes port e s) s := by
  unfold execNvmeWriteZeroes
  repeat' first
    | with_reducible rfl
    | refine keptBy_ok ?_
    | exact keptBy_fault _ _
    | simp only [kept_mk, kept_eta, kept_ite, ite_self, go_kept, asNvmeIo_kept, onBoot_kept, nvmeFail_kept,
        beginNvme_kept, settle_kept]
    | split
    | refine (asNvmeIo_kept _ _ _ _ fun _ => ?_).trans ?_
    | refine (onBoot_kept _ _ _ _ fun _ => ?_).trans ?_
    | rfl

theorem nvmeDsm_kept (p : Nat) (e : NvmeSqe) (ranges : List (Nat × Nat)) (s : State) :
    kept (nvmeDsm p e ranges s) = kept s := by
  unfold nvmeDsm
  repeat' first
    | with_reducible rfl
    | simp only [kept_mk, kept_eta, kept_ite, ite_self, onBoot_kept, nvmeFail_kept, newCmd_kept, updCmd_kept,
        runNvme_kept]
    | split
    | refine (onBoot_kept _ _ _ _ fun _ => ?_).trans ?_
    | refine (kept_foldl _ _ _ fun _ _ => ?_).trans ?_
    | refine (kept_foldl_snd _ _ _ fun _ _ => ?_).trans ?_
    | rfl

theorem execNvmeDatasetManagement_kept (port : Fin 2) (e : NvmeSqe) (ranges : List (Nat × Nat)) (s : State) :
    KeptBy (execNvmeDatasetManagement port e ranges s) s := by
  unfold execNvmeDatasetManagement
  repeat' first
    | with_reducible rfl
    | refine keptBy_ok ?_
    | exact keptBy_fault _ _
    | simp only [kept_mk, kept_eta, kept_ite, ite_self, go_kept, asNvmeIo_kept, nvmeDsm_kept, settle_kept]
    | split
    | refine (asNvmeIo_kept _ _ _ _ fun _ => ?_).trans ?_
    | rfl

/-! ## Machine/Operands.lean -/

theorem msixWrite_kept (p o width v : Nat) (s : State) : kept (msixWrite p o width v s) = kept s := by
  unfold msixWrite
  repeat' first
    | with_reducible rfl
    | simp only [kept_mk, kept_eta, kept_ite, ite_self, updPort_kept, unmaskVector_kept]
    | split
    | rfl

theorem gateCtl_kept (v : Nat) (s : State) : kept (gateCtl v s) = kept s := by
  unfold gateCtl
  repeat' first
    | with_reducible rfl
    | simp only [kept_mk, kept_eta, kept_ite, ite_self, keepLanes_kept]
    | split
    | rfl

theorem ringsWrite_kept (p o : Nat) (w : Word) (s : State) : kept (ringsWrite p o w s) = kept s := by
  unfold ringsWrite
  repeat' first
    | with_reducible rfl
    | simp only [kept_mk, kept_eta, kept_ite, ite_self, setPort_kept, adminCtlWrite_kept]
    | split
    | rfl

theorem volClasses_kept (n v : Nat) (s : State) : kept (volClasses n v s) = kept s := by
  unfold volClasses
  repeat' first
    | with_reducible rfl
    | simp only [kept_mk, kept_eta, kept_ite, ite_self]
    | split
    | refine (kept_foldl _ _ _ fun _ _ => ?_).trans ?_
    | refine (kept_foldl_snd _ _ _ fun _ _ => ?_).trans ?_
    | rfl

theorem cacheWrite_kept (o : Nat) (w : Word) (s : State) : kept (cacheWrite o w s) = kept s := by
  unfold cacheWrite
  repeat' first
    | with_reducible rfl
    | simp only [kept_mk, kept_eta, kept_ite, ite_self, clearUnnamed_kept, wayMask_kept, invCtl_kept, volClasses_kept]
    | split
    | rfl

theorem poolWrite_kept (o v : Nat) (s : State) : kept (poolWrite o v s) = kept s := by
  unfold poolWrite
  repeat' first
    | with_reducible rfl
    | simp only [kept_mk, kept_eta, kept_ite, ite_self]
    | split
    | rfl

theorem pipeWrite_kept (o v : Nat) (s : State) : kept (pipeWrite o v s) = kept s := by
  unfold pipeWrite
  repeat' first
    | with_reducible rfl
    | simp only [kept_mk, kept_eta, kept_ite, ite_self]
    | split
    | rfl

theorem pairWrite_kept (o : Nat) (w : Word) (s : State) : kept (pairWrite o w s) = kept s := by
  unfold pairWrite
  repeat' first
    | with_reducible rfl
    | simp only [kept_mk, kept_eta, kept_ite, ite_self, pairCtl_kept, pairXfer_kept]
    | split
    | rfl

theorem fcConfig_kept (off : Nat) (f : SrcCfg → SrcCfg) (s : State) : kept (fcConfig off f s) = kept s := by
  unfold fcConfig
  repeat' first
    | with_reducible rfl
    | simp only [kept_mk, kept_eta, kept_ite, ite_self, countLockDiscard_kept]
    | split
    | rfl

theorem fcCtl_kept (p v : Nat) (s : State) : kept (fcCtl p v s) = kept s := by
  unfold fcCtl
  repeat' first
    | with_reducible rfl
    | simp only [kept_mk, kept_eta, kept_ite, ite_self, errClr_kept]
    | split
    | rfl

theorem fcWrite_kept (p o : Nat) (w : Word) (s : State) : kept (fcWrite p o w s) = kept s := by
  unfold fcWrite
  repeat' first
    | with_reducible rfl
    | simp only [kept_mk, kept_eta, kept_ite, ite_self, fcClear_kept, fcConfig_kept, fcForce_kept, fcCtl_kept]
    | split
    | rfl

theorem ledWrite_kept (o : Nat) (w : Word) (s : State) : kept (ledWrite o w s) = kept s := by
  unfold ledWrite
  repeat' first
    | with_reducible rfl
    | simp only [kept_mk, kept_eta, kept_ite, ite_self, ledCommit_kept, bootVol_kept]
    | split
    | rfl

theorem writeReg_kept (p off : Nat) (w : Word) (s : State) : kept (writeReg p off w s) = kept s := by
  unfold writeReg
  repeat' first
    | with_reducible rfl
    | simp only [kept_mk, kept_eta, kept_ite, ite_self, gateCtl_kept, ringsWrite_kept, cacheWrite_kept, poolWrite_kept,
        pipeWrite_kept, pairWrite_kept, fcWrite_kept, flushRecs_kept, ledWrite_kept, pwrCtl_kept]
    | split
    | rfl

theorem writeBar_kept (p off width : Nat) (w : Word) (s : State) : kept (writeBar p off width w s) = kept s := by
  unfold writeBar
  repeat' first
    | with_reducible rfl
    | simp only [kept_mk, kept_eta, kept_ite, ite_self, msixWrite_kept, writeReg_kept]
    | split
    | rfl

theorem execRegisterWrite_kept (port : Fin 2) (off : BitVec 20) (width : Nat) (value : Word) (s : State) :
    KeptBy (execRegisterWrite port off width value s) s := by
  unfold execRegisterWrite
  repeat' first
    | with_reducible rfl
    | refine keptBy_ok ?_
    | exact keptBy_fault _ _
    | simp only [kept_mk, kept_eta, kept_ite, ite_self, go_kept, barWrite_kept, writeBar_kept, settle_kept]
    | split
    | refine (barWrite_kept _ _ _ _ ?_).trans ?_
    | rfl

/-! ## Machine/SystemRows.lean -/

theorem enterStandby_kept (s : State) : kept (enterStandby s) = kept s := by
  unfold enterStandby
  repeat' first
    | with_reducible rfl
    | simp only [kept_mk, kept_eta, kept_ite, ite_self, setHold_kept, dropWork_kept]
    | split
    | rfl

theorem execDeepStandby_kept (s : State) : KeptBy (execDeepStandby s) s := by
  unfold execDeepStandby
  repeat' first
    | with_reducible rfl
    | refine keptBy_ok ?_
    | exact keptBy_fault _ _
    | simp only [kept_mk, kept_eta, kept_ite, ite_self, enterStandby_kept, adminOk_kept, adminFail_kept]
    | split
    | refine (asAdmin_kept _ _ _ fun _ _ => ?_).trans ?_
    | rfl

theorem execIdentify_kept (s : State) : KeptBy (execIdentify s) s := by
  unfold execIdentify
  repeat' first
    | with_reducible rfl
    | refine keptBy_ok ?_
    | exact keptBy_fault _ _
    | simp only [kept_mk, kept_eta, kept_ite, ite_self, adminOk_kept, adminOut_kept]
    | split
    | refine (asAdmin_kept _ _ _ fun _ _ => ?_).trans ?_
    | rfl

theorem execHostLinkTrained_kept (port : Fin 2) (width : Fin 17) (inL12 vdm sris : Bool) (s : State) :
    KeptBy (execHostLinkTrained port width inL12 vdm sris s) s := by
  unfold execHostLinkTrained
  repeat' first
    | with_reducible rfl
    | refine keptBy_ok ?_
    | exact keptBy_fault _ _
    | simp only [kept_mk, kept_eta, kept_ite, ite_self, updPort_kept]
    | split
    | rfl

/-! ## Machine/SecRows.lean -/

theorem startSigning_kept (s : State) : kept (startSigning s) = kept s := by
  unfold startSigning
  repeat' first
    | with_reducible rfl
    | simp only [kept_mk, kept_eta, kept_ite, ite_self]
    | split
    | rfl

theorem askSigning_kept (who : Option Nat) (alg : Nat) (nonce : List Byte) (s : State) :
    kept (askSigning who alg nonce s) = kept s := by
  unfold askSigning
  repeat' first
    | with_reducible rfl
    | simp only [kept_mk, kept_eta, kept_ite, ite_self, startSigning_kept]
    | split
    | rfl

theorem execAttest_kept (nonce : List Byte) (s : State) : KeptBy (execAttest nonce s) s := by
  unfold execAttest
  repeat' first
    | with_reducible rfl
    | refine keptBy_ok ?_
    | exact keptBy_fault _ _
    | simp only [kept_mk, kept_eta, kept_ite, ite_self, adminFail_kept, askSigning_kept, updCmd_kept]
    | split
    | refine (asAdmin_kept _ _ _ fun _ _ => ?_).trans ?_
    | rfl

theorem attestSigned_kept (s : State) : kept (attestSigned s) = kept s := by
  unfold attestSigned
  repeat' first
    | with_reducible rfl
    | simp only [kept_mk, kept_eta, kept_ite, ite_self, finishCmd_kept, adminOut_kept, startSigning_kept]
    | split
    | rfl

theorem execAttestSigned_kept (s : State) : KeptBy (execAttestSigned s) s := by
  unfold execAttestSigned
  repeat' first
    | with_reducible rfl
    | refine keptBy_ok ?_
    | exact keptBy_fault _ _
    | simp only [kept_mk, kept_eta, kept_ite, ite_self, go_kept, attestSigned_kept, settle_kept]
    | split
    | rfl

theorem execCertRead_kept (s : State) : KeptBy (execCertRead s) s := by
  unfold execCertRead
  repeat' first
    | with_reducible rfl
    | refine keptBy_ok ?_
    | exact keptBy_fault _ _
    | simp only [kept_mk, kept_eta, kept_ite, ite_self, adminOk_kept, adminOut_kept]
    | split
    | refine (asAdmin_kept _ _ _ fun _ _ => ?_).trans ?_
    | rfl

/-! ## Machine/MgmtRows.lean -/

theorem onSideband_kept (f : State → State) (s : State) (h : kept (f s) = kept s) : kept (onSideband f s) = kept s := by
  unfold onSideband; split
  · exact h
  · rfl

theorem control_kept (cmd cc : Nat) (d : List Byte) (s : State) : kept (control cmd cc d s) = kept s := rfl

theorem execGetEndpointId_kept (s : State) : KeptBy (execGetEndpointId s) s := by
  unfold execGetEndpointId
  repeat' first
    | with_reducible rfl
    | refine keptBy_ok ?_
    | exact keptBy_fault _ _
    | simp only [kept_mk, kept_eta, kept_ite, ite_self, control_kept]
    | split
    | refine (onSideband_kept _ _ ?_).trans ?_
    | rfl

theorem execGetEndpointUuid_kept (s : State) : KeptBy (execGetEndpointUuid s) s := by
  unfold execGetEndpointUuid
  repeat' first
    | with_reducible rfl
    | refine keptBy_ok ?_
    | exact keptBy_fault _ _
    | simp only [kept_mk, kept_eta, kept_ite, ite_self, control_kept]
    | split
    | refine (onSideband_kept _ _ ?_).trans ?_
    | rfl

theorem execGetMctpVersionSupport_kept (s : State) : KeptBy (execGetMctpVersionSupport s) s := by
  unfold execGetMctpVersionSupport
  repeat' first
    | with_reducible rfl
    | refine keptBy_ok ?_
    | exact keptBy_fault _ _
    | simp only [kept_mk, kept_eta, kept_ite, ite_self, control_kept]
    | split
    | refine (onSideband_kept _ _ ?_).trans ?_
    | rfl

theorem execGetMessageTypeSupport_kept (s : State) : KeptBy (execGetMessageTypeSupport s) s := by
  unfold execGetMessageTypeSupport
  repeat' first
    | with_reducible rfl
    | refine keptBy_ok ?_
    | exact keptBy_fault _ _
    | simp only [kept_mk, kept_eta, kept_ite, ite_self, control_kept]
    | split
    | refine (onSideband_kept _ _ ?_).trans ?_
    | rfl

theorem execGetVendorDefinedMessageSupport_kept (s : State) : KeptBy (execGetVendorDefinedMessageSupport s) s := by
  unfold execGetVendorDefinedMessageSupport
  repeat' first
    | with_reducible rfl
    | refine keptBy_ok ?_
    | exact keptBy_fault _ _
    | simp only [kept_mk, kept_eta, kept_ite, ite_self, control_kept]
    | split
    | refine (onSideband_kept _ _ ?_).trans ?_
    | rfl

theorem vywin_kept (cmd inst status : Nat) (d : List Byte) (s : State) : kept (vywin cmd inst status d s) = kept s := rfl

theorem execGetStatus_kept (inst : Byte) (s : State) : KeptBy (execGetStatus inst s) s := by
  unfold execGetStatus
  repeat' first
    | with_reducible rfl
    | refine keptBy_ok ?_
    | exact keptBy_fault _ _
    | simp only [kept_mk, kept_eta, kept_ite, ite_self, vywin_kept]
    | split
    | refine (onSideband_kept _ _ ?_).trans ?_
    | rfl

theorem attestStart_kept (inst alg : Nat) (nonce : List Byte) (s : State) :
    kept (attestStart inst alg nonce s) = kept s := by
  unfold attestStart
  repeat' first
    | with_reducible rfl
    | simp only [kept_mk, kept_eta, kept_ite, ite_self, vywin_kept, askSigning_kept]
    | split
    | rfl

theorem execAttestStart_kept (inst alg : Byte) (nonce : List Byte) (s : State) :
    KeptBy (execAttestStart inst alg nonce s) s := by
  unfold execAttestStart
  repeat' first
    | with_reducible rfl
    | refine keptBy_ok ?_
    | exact keptBy_fault _ _
    | simp only [kept_mk, kept_eta, kept_ite, ite_self, attestStart_kept]
    | split
    | refine (onSideband_kept _ _ ?_).trans ?_
    | rfl

theorem readObject_kept (inst obj off len : Nat) (s : State) : kept (readObject inst obj off len s) = kept s := by
  unfold readObject
  repeat' first
    | with_reducible rfl
    | simp only [kept_mk, kept_eta, kept_ite, ite_self, vywin_kept]
    | split
    | rfl

theorem execReadObject_kept (inst object : Byte) (offset length : Nat) (s : State) :
    KeptBy (execReadObject inst object offset length s) s := by
  unfold execReadObject
  repeat' first
    | with_reducible rfl
    | refine keptBy_ok ?_
    | exact keptBy_fault _ _
    | simp only [kept_mk, kept_eta, kept_ite, ite_self, readObject_kept]
    | split
    | refine (onSideband_kept _ _ ?_).trans ?_
    | rfl

theorem execSetEventReceiver_kept (inst eid : Byte) (enable : Bool) (s : State) :
    KeptBy (execSetEventReceiver inst eid enable s) s := by
  unfold execSetEventReceiver
  repeat' first
    | with_reducible rfl
    | refine keptBy_ok ?_
    | exact keptBy_fault _ _
    | simp only [kept_mk, kept_eta, kept_ite, ite_self, vywin_kept]
    | split
    | refine (onSideband_kept _ _ ?_).trans ?_
    | rfl

end Sys2Proof.Machine
end

