-- ==== Sys2Proof/Laws/Fixed.lean ====
section
/-! SUPPORT. Sys2Proof/Laws/Fixed.lean: the operations that change `kept s` leave `fixed s` as it was, but for those
named at the end, which say what they change of it. -/

namespace Sys2Proof.Machine

set_option linter.unusedSimpArgs false
set_option linter.unusedTactic false
set_option linter.unreachableTactic false

theorem asAdmin_fixed (opcode : Nat) (f : Nat → Cmd → State → State) (s : State) (h : ∀ c x, fixed (f c x s) = fixed s) :
    fixed (asAdmin opcode f s) = fixed s := by
  unfold asAdmin; split
  · exact h _ _
  · rfl

theorem commitGate_fixed (c : Nat) (f : State → State) (s : State) (h : fixed (f s) = fixed s) :
    fixed (commitGate c f s) = fixed s := by
  unfold commitGate; split
  · exact fixed_of_kept (adminFail_kept _ _ _ _)
  · exact h

theorem withAuth_fixed (c op : Nat) (av a : List Byte) (f : State → State) (s : State) (h : fixed (f s) = fixed s) :
    fixed (withAuth c op av a f s) = fixed s := by
  refine commitGate_fixed _ _ _ ?_
  repeat' first | exact h | simp only [fixed_of_kept (adminFail_kept _ _ _ _), fixed_of_kept (authRefused_kept _ _ _)] | split

theorem onSideband_fixed (f : State → State) (s : State) (h : fixed (f s) = fixed s) : fixed (onSideband f s) = fixed s := by
  unfold onSideband; split
  · exact h
  · rfl

theorem absentRecord_fixed (typ inst : Nat) (s : State) : fixed (absentRecord typ inst s) = fixed s := by
  unfold absentRecord
  repeat' first
    | with_reducible rfl
    | simp only [fixed_mk, fixed_eta, fixed_ite, ite_self, fixed_of_kept (updPool_kept _ _ _)]
    | split
    | rfl

theorem damagedRecord_fixed (r : Nat × Nat) (s : State) : fixed (damagedRecord r s) = fixed s := by
  unfold damagedRecord
  repeat' first
    | with_reducible rfl
    | simp only [fixed_mk, fixed_eta, fixed_ite, ite_self, absentRecord_fixed, fixed_of_kept (noteDamaged_kept _ _)]
    | split
    | rfl

theorem loadLedger_fixed (b : BootInputs) (s : State) : fixed (loadLedger b s) = fixed s := by
  unfold loadLedger
  refine (fixed_foldl _ _ _ fun _ _ => absentRecord_fixed _ _ _).trans ?_
  repeat' first
    | with_reducible rfl
    | split
    | rfl

theorem resetState_fixed (powerOn : Bool) (cause : Nat) (b : BootInputs) (s : State) : fixed (resetState powerOn cause b s) = fixed s := by
  unfold resetState
  repeat' first
    | with_reducible rfl
    | simp only [fixed_mk, fixed_eta, fixed_ite, ite_self, fixed_of_kept (noteWords_kept _)]
    | split
    | rfl

theorem bootPins_fixed (s : State) : fixed (bootPins s) = fixed s := by
  unfold bootPins
  repeat' first
    | with_reducible rfl
    | simp only [fixed_mk, fixed_eta, fixed_ite, ite_self]
    | split
    | rfl

theorem loadMargin_fixed (s : State) : fixed (loadMargin s) = fixed s := by
  unfold loadMargin
  repeat' first
    | with_reducible rfl
    | simp only [fixed_mk, fixed_eta, fixed_ite, ite_self, fixed_of_kept (setVid_kept _ _)]
    | split
    | rfl

theorem boot_fixed (powerOn : Bool) (cause : Nat) (b : BootInputs) (s : State) : fixed (boot powerOn cause b s) = fixed s := by
  unfold boot
  repeat' first
    | with_reducible rfl
    | simp only [fixed_mk, fixed_eta, fixed_ite, ite_self, fixed_of_kept (bindJnl_kept _), fixed_of_kept (bootLost_kept _),
        loadLedger_fixed, fixed_of_kept (noteDamaged_kept _ _), fixed_of_kept (giveNoService_kept _ _), fixed_of_kept (ledCommit_kept _),
        fixed_of_kept (loadPlan_kept _), fixed_of_kept (moveDuties_kept _), fixed_of_kept (putProfile_kept _ _),
        resetState_fixed, loadMargin_fixed, fixed_of_kept (setHold_kept _ _), fixed_of_kept (verifyFirmware_kept _)]
    | split
    | refine (fixed_foldl _ _ _ fun _ _ => ?_).trans ?_
    | refine (fixed_foldl_snd _ _ _ fun _ _ => ?_).trans ?_
    | rfl

theorem execPowerGood_fixed (b : BootInputs) (s : State) : FixedBy (execPowerGood b s) s := by
  unfold execPowerGood
  repeat' first
    | with_reducible rfl
    | refine fixedBy_ok ?_
    | simp only [fixed_mk, fixed_eta, fixed_ite, ite_self, boot_fixed, fixed_of_kept (settle_kept _)]
    | split
    | rfl

theorem bootAgain_fixed (cause : Nat) (s : State) : fixed (bootAgain cause s) = fixed s := by
  unfold bootAgain
  repeat' first
    | with_reducible rfl
    | simp only [fixed_mk, fixed_eta, fixed_ite, ite_self, boot_fixed]
    | split
    | rfl

theorem execPostFlushReset_fixed (s : State) : FixedBy (execPostFlushReset s) s := by
  unfold execPostFlushReset
  repeat' first
    | with_reducible rfl
    | refine fixedBy_ok ?_
    | simp only [fixed_mk, fixed_eta, fixed_ite, ite_self, bootAgain_fixed, fixed_of_kept (timeTo_kept _ _),
        fixed_of_kept (settle_kept _)]
    | split
    | rfl

theorem reactCreset_fixed (s : State) : fixed (reactCreset s) = fixed s := by
  unfold reactCreset
  repeat' first
    | with_reducible rfl
    | simp only [fixed_mk, fixed_eta, fixed_ite, ite_self, bootAgain_fixed, fixed_of_kept (startFlush_kept _ _ _)]
    | split
    | rfl

theorem reactRest_fixed (src : Nat) (r : BitVec 6) (s : State) : fixed (reactRest src r s) = fixed s := by
  unfold reactRest
  repeat' first
    | with_reducible rfl
    | simp only [fixed_mk, fixed_eta, fixed_ite, ite_self, fixed_of_kept (reactBreset_kept _ _ _), reactCreset_fixed,
        fixed_of_kept (reactFence_kept _ _)]
    | split
    | rfl

theorem ordinary_fixed (m : FMsg) (silent : Bool) (s : State) : fixed (ordinary m silent s) = fixed s := by
  unfold ordinary
  repeat' first
    | with_reducible rfl
    | simp only [fixed_mk, fixed_eta, fixed_ite, ite_self, fixed_of_kept (faultRecord_kept _ _ _ _),
        fixed_of_kept (reactErr_kept _), fixed_of_kept (reactInt_kept _), reactRest_fixed]
    | split
    | rfl

theorem escalate_fixed (m : FMsg) (silent : Bool) (s : State) : fixed (escalate m silent s) = fixed s := by
  unfold escalate
  repeat' first
    | with_reducible rfl
    | simp only [fixed_mk, fixed_eta, fixed_ite, ite_self, fixed_of_kept (event_kept _ _ _ _),
        fixed_of_kept (faultRecord_kept _ _ _ _), fixed_of_kept (flushRecs_kept _), fixed_of_kept (lastWord_kept _ _),
        fixed_of_kept (reactErr_kept _), fixed_of_kept (reactInt_kept _), reactRest_fixed]
    | split
    | rfl

theorem classifyMsg_fixed (m : FMsg) (silent : Bool) (s : State) : fixed (classifyMsg m silent s) = fixed s := by
  unfold classifyMsg
  repeat' first
    | with_reducible rfl
    | simp only [fixed_mk, fixed_eta, fixed_ite, ite_self, escalate_fixed, ordinary_fixed]
    | split
    | rfl

theorem takeMsg_fixed (m : FMsg) (silent : Bool) (s : State) : fixed (takeMsg m silent s) = fixed s := by
  unfold takeMsg
  repeat' first
    | with_reducible rfl
    | simp only [fixed_mk, fixed_eta, fixed_ite, ite_self, classifyMsg_fixed, fixed_of_kept (shadowMsg_kept _ _)]
    | split
    | rfl

theorem takeOverruns_fixed (src : Nat) (s : State) : fixed (takeOverruns src s) = fixed s := by
  unfold takeOverruns
  repeat' first
    | with_reducible rfl
    | simp only [fixed_mk, fixed_eta, fixed_ite, ite_self, takeMsg_fixed]
    | split
    | refine (fixed_foldl _ _ _ fun _ _ => ?_).trans ?_
    | refine (fixed_foldl_snd _ _ _ fun _ _ => ?_).trans ?_
    | rfl

theorem collect_fixed (s : State) : fixed (collect s) = fixed s := by
  unfold collect
  repeat' first
    | with_reducible rfl
    | simp only [fixed_mk, fixed_eta, fixed_ite, ite_self, takeMsg_fixed, takeOverruns_fixed]
    | split
    | rfl

theorem execFaultMessage_fixed (sent : Option Word) (s : State) : FixedBy (execFaultMessage sent s) s := by
  unfold execFaultMessage
  repeat' first
    | with_reducible rfl
    | refine fixedBy_ok ?_
    | simp only [fixed_mk, fixed_eta, fixed_ite, ite_self, collect_fixed, fixed_of_kept (unitRaises_kept _ _),
        fixed_of_kept (settle_kept _)]
    | split
    | rfl

theorem changeMask_fixed (n : Nat) (on : Bool) (s : State) : fixed (changeMask n on s) = fixed s := by
  unfold changeMask
  repeat' first
    | with_reducible rfl
    | simp only [fixed_mk, fixed_eta, fixed_ite, ite_self, fixed_of_kept (ledCommit_kept _),
        fixed_of_kept (recEvent_kept _ _ _ _ _)]
    | split
    | rfl

theorem execSensorMask_fixed (data : List Byte) (s : State) : FixedBy (execSensorMask data s) s := by
  unfold execSensorMask
  repeat' first
    | with_reducible rfl
    | refine fixedBy_ok ?_
    | simp only [fixed_mk, fixed_eta, fixed_ite, ite_self, fixed_of_kept (adminFail_kept _ _ _ _),
        fixed_of_kept (adminOk_kept _ _), fixed_of_kept (authAccept_kept _ _), changeMask_fixed, fixed_of_kept (settle_kept _)]
    | split
    | refine (asAdmin_fixed _ _ _ fun _ _ => ?_).trans ?_
    | refine (withAuth_fixed _ _ _ _ _ _ ?_).trans ?_
    | rfl

theorem wakeUp_fixed (s : State) : fixed (wakeUp s) = fixed s := by
  unfold wakeUp
  repeat' first
    | with_reducible rfl
    | simp only [fixed_mk, fixed_eta, fixed_ite, ite_self, bootAgain_fixed]
    | split
    | rfl

theorem perst_fixed (port : Nat) (low : Bool) (s : State) : fixed (perst port low s) = fixed s := by
  unfold perst
  repeat' first
    | with_reducible rfl
    | simp only [fixed_mk, fixed_eta, fixed_ite, ite_self, fixed_of_kept (linkReset_kept _ _),
        fixed_of_kept (raiseFree_kept _ _ _), fixed_of_kept (updPort_kept _ _ _), wakeUp_fixed]
    | split
    | rfl

theorem execPerstN_fixed (port : Fin 2) (low : Bool) (s : State) : FixedBy (execPerstN port low s) s := by
  unfold execPerstN
  repeat' first
    | with_reducible rfl
    | refine fixedBy_ok ?_
    | simp only [fixed_mk, fixed_eta, fixed_ite, ite_self, perst_fixed, fixed_of_kept (settle_kept _)]
    | split
    | rfl

theorem execLedgerScrub_fixed (corrected : Nat) (uncorrectable : List (Nat × Nat)) (s : State) : FixedBy (execLedgerScrub corrected uncorrectable s) s := by
  unfold execLedgerScrub
  repeat' first
    | with_reducible rfl
    | refine fixedBy_ok ?_
    | simp only [fixed_mk, fixed_eta, fixed_ite, ite_self, damagedRecord_fixed, fixed_of_kept (timeToOp_kept _ _),
        fixed_of_kept (settle_kept _)]
    | split
    | refine (fixed_foldl _ _ _ fun _ _ => ?_).trans ?_
    | refine (fixed_foldl_snd _ _ _ fun _ _ => ?_).trans ?_
    | rfl

theorem setIdentity_fixed (cohort : Nat) (paired : Bool) (peer : Nat) (s : State) : fixed (setIdentity cohort paired peer s) = fixed s := by
  unfold setIdentity
  repeat' first
    | with_reducible rfl
    | simp only [fixed_mk, fixed_eta, fixed_ite, ite_self, fixed_of_kept (endPairing_kept _ _),
        fixed_of_kept (leavePaired_kept _), fixed_of_kept (linkUp_kept _ _ _), fixed_of_kept (sendHello_kept _),
        fixed_of_kept (setPairSt_kept _ _)]
    | split
    | rfl

theorem setRecord_fixed (c : Nat) (r : SetRecord) (s : State) : fixed (setRecord c r s) = fixed s := by
  unfold setRecord
  repeat' first
    | with_reducible rfl
    | simp only [fixed_mk, fixed_eta, fixed_ite, ite_self, fixed_of_kept (adminOk_kept _ _),
        fixed_of_kept (changeShared_kept _ _ _ _ _), fixed_of_kept (ledCommit_kept _), setIdentity_fixed]
    | split
    | refine (fixed_foldl _ _ _ fun _ _ => ?_).trans ?_
    | refine (fixed_foldl_snd _ _ _ fun _ _ => ?_).trans ?_
    | rfl

theorem execLedgerSet_fixed (r : SetRecord) (s : State) : FixedBy (execLedgerSet r s) s := by
  unfold execLedgerSet
  repeat' first
    | with_reducible rfl
    | refine fixedBy_ok ?_
    | simp only [fixed_mk, fixed_eta, fixed_ite, ite_self, fixed_of_kept (adminFail_kept _ _ _ _), setRecord_fixed,
        fixed_of_kept (settle_kept _)]
    | split
    | refine (asAdmin_fixed _ _ _ fun _ _ => ?_).trans ?_
    | rfl

theorem execLedgerLock_fixed (s : State) : FixedBy (execLedgerLock s) s := by
  unfold execLedgerLock
  repeat' first
    | with_reducible rfl
    | refine fixedBy_ok ?_
    | simp only [fixed_mk, fixed_eta, fixed_ite, ite_self, fixed_of_kept (adminFail_kept _ _ _ _),
        fixed_of_kept (adminOk_kept _ _), fixed_of_kept (ledCommit_kept _), fixed_of_kept (settle_kept _)]
    | split
    | refine (asAdmin_fixed _ _ _ fun _ _ => ?_).trans ?_
    | refine (commitGate_fixed _ _ _ ?_).trans ?_
    | rfl

theorem execLedgerUnlock_fixed (data : List Byte) (s : State) : FixedBy (execLedgerUnlock data s) s := by
  unfold execLedgerUnlock
  repeat' first
    | with_reducible rfl
    | refine fixedBy_ok ?_
    | simp only [fixed_mk, fixed_eta, fixed_ite, ite_self, fixed_of_kept (adminOk_kept _ _),
        fixed_of_kept (authAccept_kept _ _), fixed_of_kept (ledCommit_kept _), fixed_of_kept (settle_kept _)]
    | split
    | refine (asAdmin_fixed _ _ _ fun _ _ => ?_).trans ?_
    | refine (withAuth_fixed _ _ _ _ _ _ ?_).trans ?_
    | rfl

theorem execOwnerEnrol_fixed (data : List Byte) (s : State) : FixedBy (execOwnerEnrol data s) s := by
  unfold execOwnerEnrol
  repeat' first
    | with_reducible rfl
    | refine fixedBy_ok ?_
    | simp only [fixed_mk, fixed_eta, fixed_ite, ite_self, fixed_of_kept (adminFail_kept _ _ _ _),
        fixed_of_kept (adminOk_kept _ _), fixed_of_kept (ledCommit_kept _), fixed_of_kept (settle_kept _)]
    | split
    | refine (asAdmin_fixed _ _ _ fun _ _ => ?_).trans ?_
    | refine (commitGate_fixed _ _ _ ?_).trans ?_
    | rfl

theorem execSetEndpointId_fixed (eid : Byte) (s : State) : FixedBy (execSetEndpointId eid s) s := by
  unfold execSetEndpointId
  repeat' first
    | with_reducible rfl
    | refine fixedBy_ok ?_
    | simp only [fixed_mk, fixed_eta, fixed_ite, ite_self, fixed_of_kept (control_kept _ _ _ _), fixed_of_kept (settle_kept _)]
    | split
    | refine (onSideband_fixed _ _ ?_).trans ?_
    | rfl

theorem execWake_fixed (inst : Byte) (s : State) : FixedBy (execWake inst s) s := by
  unfold execWake
  repeat' first
    | with_reducible rfl
    | refine fixedBy_ok ?_
    | simp only [fixed_mk, fixed_eta, fixed_ite, ite_self, fixed_of_kept (vywin_kept _ _ _ _ _), wakeUp_fixed,
        fixed_of_kept (settle_kept _)]
    | split
    | refine (onSideband_fixed _ _ ?_).trans ?_
    | rfl

theorem onTap_fixed (f : TapSt → TapSt) (code bits : Nat) (s : State) : fixed (onTap f code bits s) = fixed s := by
  unfold onTap
  repeat' first
    | with_reducible rfl
    | simp only [fixed_mk, fixed_eta, fixed_ite, ite_self, fixed_of_kept (emit_kept _ _)]
    | split
    | rfl

theorem execExtest_fixed (pins : Nat) (s : State) : FixedBy (execExtest pins s) s := by
  unfold execExtest
  repeat' first
    | with_reducible rfl
    | refine fixedBy_ok ?_
    | simp only [fixed_mk, fixed_eta, fixed_ite, ite_self, onTap_fixed, fixed_of_kept (settle_kept _)]
    | split
    | rfl

theorem execIdcode_fixed (s : State) : FixedBy (execIdcode s) s := by
  unfold execIdcode
  repeat' first
    | with_reducible rfl
    | refine fixedBy_ok ?_
    | simp only [fixed_mk, fixed_eta, fixed_ite, ite_self, onTap_fixed, fixed_of_kept (settle_kept _)]
    | split
    | rfl

theorem execSamplePreload_fixed (pins shift : Nat) (s : State) : FixedBy (execSamplePreload pins shift s) s := by
  unfold execSamplePreload
  repeat' first
    | with_reducible rfl
    | refine fixedBy_ok ?_
    | simp only [fixed_mk, fixed_eta, fixed_ite, ite_self, onTap_fixed, fixed_of_kept (settle_kept _)]
    | split
    | rfl

theorem execHighz_fixed (s : State) : FixedBy (execHighz s) s := by
  unfold execHighz
  repeat' first
    | with_reducible rfl
    | refine fixedBy_ok ?_
    | simp only [fixed_mk, fixed_eta, fixed_ite, ite_self, onTap_fixed, fixed_of_kept (settle_kept _)]
    | split
    | rfl

theorem execClamp_fixed (s : State) : FixedBy (execClamp s) s := by
  unfold execClamp
  repeat' first
    | with_reducible rfl
    | refine fixedBy_ok ?_
    | simp only [fixed_mk, fixed_eta, fixed_ite, ite_self, onTap_fixed, fixed_of_kept (settle_kept _)]
    | split
    | rfl

theorem execExtestPulse_fixed (pins : Nat) (s : State) : FixedBy (execExtestPulse pins s) s := by
  unfold execExtestPulse
  repeat' first
    | with_reducible rfl
    | refine fixedBy_ok ?_
    | simp only [fixed_mk, fixed_eta, fixed_ite, ite_self, onTap_fixed, fixed_of_kept (settle_kept _)]
    | split
    | rfl

theorem execExtestTrain_fixed (pins : Nat) (s : State) : FixedBy (execExtestTrain pins s) s := by
  unfold execExtestTrain
  repeat' first
    | with_reducible rfl
    | refine fixedBy_ok ?_
    | simp only [fixed_mk, fixed_eta, fixed_ite, ite_self, onTap_fixed, fixed_of_kept (settle_kept _)]
    | split
    | rfl

theorem execBypass_fixed (code : Byte) (s : State) : FixedBy (execBypass code s) s := by
  unfold execBypass
  repeat' first
    | with_reducible rfl
    | refine fixedBy_ok ?_
    | simp only [fixed_mk, fixed_eta, fixed_ite, ite_self, onTap_fixed, fixed_of_kept (raiseOpen_kept _ _),
        fixed_of_kept (settle_kept _)]
    | split
    | rfl

/-! ## The commands that change that part -/

/-- Fuses blow one way only (15 R507). -/
theorem blowFuses_fixed (s : State) : ∃ n r, s.sec.arb ≤ n ∧
    fixed (blowFuses s) = { fixed s with arb := n, revoked := s.sec.revoked ||| r } := by
  unfold blowFuses; split
  · exact ⟨s.sec.arb, 0, Nat.le_refl _, by simp [fixed]⟩
  · rename_i h
    dsimp only
    refine ⟨_, _, ?_, fixed_foldl _ _ _ fun _ _ => fixed_of_kept (raiseFree_kept _ _ _)⟩
    generalize e : List.find? _ _ = o
    cases o with
    | none => exact Nat.le_of_lt (Nat.lt_of_not_le h)
    | some a =>
      obtain ⟨i, hi, rfl⟩ := List.mem_iff_getElem.1 (List.mem_of_find?_eq_some e)
      simp

/-- READY blows fuses and changes nothing else of that part. -/
theorem becomeReady_fixed (s : State) : ∃ n r, s.sec.arb ≤ n ∧
    fixed (becomeReady s) = { fixed s with arb := n, revoked := s.sec.revoked ||| r } := by
  have h : fixed (comeUp s) = fixed s := fixed_of_kept (comeUp_kept s)
  unfold becomeReady
  generalize comeUp s = u at h ⊢
  obtain ⟨n, r, hn, e⟩ := blowFuses_fixed u
  have ha : u.sec.arb = s.sec.arb := congrArg Fixed.arb h
  have hr : u.sec.revoked = s.sec.revoked := congrArg Fixed.revoked h
  exact ⟨n, r, ha ▸ hn, (fixed_of_kept (openService_kept _)).trans (by rw [e, h, hr])⟩

theorem pointTo_fixed (n : Nat) (s : State) : fixed (pointTo n s) = { fixed s with pointer := n } := rfl

theorem writeSlotAt_fixed (i off : Nat) (d : List Byte) (s : State) :
    fixed (writeSlotAt i off d s) = { fixed s with slots := (writeSlotAt i off d s).sec.slots } := rfl

theorem execReady_fixed {s t : State} (e : execReady s = .next t) : ∃ n r, s.sec.arb ≤ n ∧
    fixed t = { fixed s with arb := n, revoked := s.sec.revoked ||| r } := by
  unfold execReady at e
  split at e
  · have e : settle (becomeReady s) = t := Host.Outcome.next.inj e
    rw [← e, fixed_of_kept (settle_kept _)]
    exact becomeReady_fixed s
  · have e : s = t := Host.Outcome.next.inj e
    rw [← e]
    exact ⟨s.sec.arb, 0, Nat.le_refl _, by simp [fixed]⟩

theorem execFwStage_fixed {data : List Byte} {s t : State} (e : execFwStage data s = .next t) :
    ∃ m, fixed t = { fixed s with slots := m } := by
  unfold execFwStage at e
  cases e
  unfold asAdmin
  split
  · dsimp only
    split
    · exact ⟨s.sec.slots, by rw [fixed_of_kept (adminFail_kept _ _ _ _), fixed_mk]; rfl⟩
    · exact ⟨_, by rw [fixed_of_kept (adminOk_kept _ _), writeSlotAt_fixed, fixed_mk]; rfl⟩
  · exact ⟨s.sec.slots, rfl⟩

theorem fwCommit_fixed (c : Nat) (a : List Byte) (s : State) : ∃ p, fixed (fwCommit c a s) = { fixed s with pointer := p } := by
  unfold fwCommit
  split
  · exact ⟨s.sec.pointer, by rw [fixed_of_kept (authRefused_kept _ _ _)]; rfl⟩
  · exact ⟨s.sec.pointer, by rw [fixed_of_kept (adminFail_kept _ _ _ _)]; rfl⟩
  · refine ⟨otherSlot s, ?_⟩
    dsimp only
    rw [fixed_of_kept (finishCmd_kept _ _ _ _), pointTo_fixed]
    split
    · rfl
    · rw [fixed_of_kept (ledCommit_kept _), fixed_of_kept (authAccept_kept _ _)]

theorem execFwCommit_fixed {data : List Byte} {s t : State} (e : execFwCommit data s = .next t) :
    ∃ p, fixed t = { fixed s with pointer := p } := by
  unfold execFwCommit at e
  cases e
  unfold asAdmin
  split
  · exact fwCommit_fixed _ _ _
  · exact ⟨s.sec.pointer, rfl⟩

end Sys2Proof.Machine
end

