-- ==== Sys2Proof/Laws/Table.lean ====
section
/-! SUPPORT. Sys2Proof/Laws/Table.lean: the laws of tables and of the byte memory: a read after a write, what a write leaves
alone, and that every operation keeps the canonical form. -/

namespace Sys2Proof.Machine

/-! ## Tables -/

/-- A key that is looked up first decides. -/
theorem tget_cons {α : Type} (k j : Nat) (v : α) (t : Tbl α) : tget ((k, v) :: t) j = if j = k then some v else tget t j := by
  simp only [tget, List.lookup]
  by_cases h : j = k
  · subst h; simp
  · have : (j == k) = false := by simp [h]
    simp [this, h]

@[simp] theorem tget_nil {α : Type} (j : Nat) : tget ([] : Tbl α) j = none := rfl

@[simp] theorem tget_tset {α : Type} (t : Tbl α) (k j : Nat) (v : α) :
    tget (tset t k v) j = if j = k then some v else tget t j := by
  induction t with
  | nil => simp [tset, tget_cons]
  | cons e t ih =>
    obtain ⟨k', v'⟩ := e
    unfold tset
    split
    · simp [tget_cons]
    · split
      · rename_i h; subst h; simp only [tget_cons]; split <;> rfl
      · rename_i h1 h2
        rw [tget_cons, ih, tget_cons]
        by_cases hj : j = k
        · subst hj; simp [h2]
        · simp [hj]

@[simp] theorem tgetD_tset {α : Type} (t : Tbl α) (k j : Nat) (v d : α) :
    tgetD (tset t k v) j d = if j = k then v else tgetD t j d := by
  unfold tgetD; rw [tget_tset]; split <;> rfl

@[simp] theorem tget_tdel {α : Type} (t : Tbl α) (k j : Nat) : tget (tdel t k) j = if j = k then none else tget t j := by
  induction t with
  | nil => simp [tdel]
  | cons e t ih =>
    obtain ⟨k', v'⟩ := e
    unfold tdel at ih ⊢
    rw [List.filter_cons]
    by_cases h : k' = k
    · subst h
      simp only [bne_self_eq_false, Bool.false_eq_true, if_false, ih, tget_cons]
      split <;> rfl
    · have : (k' != k) = true := by simp [h]
      simp only [this, if_true, tget_cons, ih]
      by_cases hj : j = k
      · subst hj; simp [Ne.symm h]
      · simp [hj]

/-- In a canonical table every later key is greater. -/
theorem Tbl.wf_cons {α : Type} (k : Nat) (v : α) (t : Tbl α) :
    Tbl.wf ((k, v) :: t) = true ↔ Tbl.wf t = true ∧ ∀ e ∈ t.head?, k < e.1 := by
  cases t with
  | nil => simp [Tbl.wf]
  | cons e t => obtain ⟨k', v'⟩ := e; simp [Tbl.wf, and_comm]

/-- The first key after a write is the written one or the old first. -/
theorem tset_head {α : Type} (t : Tbl α) (k : Nat) (v : α) : ∀ e ∈ (tset t k v).head?, e.1 = k ∨ ∃ e' ∈ t.head?, e.1 = e'.1 := by
  intro e he
  cases t with
  | nil => simp [tset] at he; simp [← he]
  | cons x t =>
    obtain ⟨k', v'⟩ := x
    unfold tset at he
    split at he
    · simp at he; simp [← he]
    · split at he
      · simp at he; simp [← he]
      · simp at he; simp [← he]

/-- A write keeps the canonical form of a table. -/
theorem Tbl.wf_tset {α : Type} (t : Tbl α) (k : Nat) (v : α) (h : Tbl.wf t = true) : Tbl.wf (tset t k v) = true := by
  induction t with
  | nil => rfl
  | cons x t ih =>
    obtain ⟨k', v'⟩ := x
    have hx := (Tbl.wf_cons k' v' t).mp h
    unfold tset
    split
    · rw [Tbl.wf_cons]; exact ⟨h, by simpa using ‹_›⟩
    · split
      · rename_i e; subst e; rw [Tbl.wf_cons]; exact hx
      · rw [Tbl.wf_cons]
        refine ⟨ih hx.1, fun e he => ?_⟩
        rcases tset_head t k v e he with q | ⟨e', he', q⟩
        · omega
        · rw [q]; exact hx.2 e' he'

/-! ## The byte memory -/

theorem mread_cons (a j : Nat) (b : Byte) (m : List Host.Cell) : mread ((a, b) :: m) j = if j = a then b else mread m j := by
  unfold mread
  simp only [List.lookup]
  by_cases h : j = a
  · subst h; simp
  · have : (j == a) = false := by simp [h]
    simp [this, h]

/-- The canonical form, one entry at a time. -/
theorem Memory.wf_cons (a : Nat) (b : Byte) (m : List Host.Cell) :
    Memory.wf ((a, b) :: m) = true ↔ b ≠ memDefault ∧ Memory.wf m = true ∧ ∀ e ∈ m.head?, a < e.1 := by
  cases m with
  | nil => simp [Memory.wf]
  | cons e m => obtain ⟨a', b'⟩ := e; simp [Memory.wf, and_assoc, and_comm, and_left_comm]

/-- Below the first entry of a canonical memory nothing is listed. -/
theorem mread_below (m : List Host.Cell) (j : Nat) (h : Memory.wf m = true) (hj : ∀ e ∈ m.head?, j < e.1) :
    mread m j = memDefault := by
  induction m with
  | nil => rfl
  | cons x m ih =>
    obtain ⟨a, b⟩ := x
    have hx := (Memory.wf_cons a b m).mp h
    have hja : j < a := hj (a, b) (by simp)
    rw [mread_cons, if_neg (by omega)]
    exact ih hx.2.1 (fun e he => by have := hx.2.2 e he; omega)

/-- A byte reads as written. -/
theorem mread_mwrite_same (m : List Host.Cell) (a : Nat) (b : Byte) (h : Memory.wf m = true) : mread (mwrite m a b) a = b := by
  induction m with
  | nil =>
    unfold mwrite; split
    · rename_i e; rw [e]; rfl
    · simp [mread_cons]
  | cons x m ih =>
    obtain ⟨a', b'⟩ := x
    have hx := (Memory.wf_cons a' b' m).mp h
    unfold mwrite
    split
    · split
      · rename_i hlt e; rw [e]; exact mread_below _ _ h (by simpa using hlt)
      · simp [mread_cons]
    · split
      · rename_i e1; subst e1
        split
        · rename_i e; rw [e]; exact mread_below _ _ hx.2.1 hx.2.2
        · simp [mread_cons]
      · rename_i h2; rw [mread_cons, if_neg h2]; exact ih hx.2.1

/-- A write leaves every other byte alone. -/
theorem mread_mwrite_ne (m : List Host.Cell) (a j : Nat) (b : Byte) (h : j ≠ a) : mread (mwrite m a b) j = mread m j := by
  induction m with
  | nil =>
    unfold mwrite; split
    · rfl
    · simp [mread_cons, h]
  | cons x m ih =>
    obtain ⟨a', b'⟩ := x
    unfold mwrite
    split
    · split
      · rfl
      · rw [mread_cons, if_neg h]
    · split
      · rename_i e1; subst e1
        split
        · rw [mread_cons, if_neg h]
        · rw [mread_cons, mread_cons, if_neg h, if_neg h]
      · rw [mread_cons, mread_cons, ih]

/-- Whatever a write lists first is at the written address or was first before, or stood behind it. -/
theorem mwrite_above (m : List Host.Cell) (a : Nat) (b : Byte) (n : Nat) (h : Memory.wf m = true) (hn : n < a)
    (hm : ∀ e ∈ m.head?, n < e.1) : ∀ e ∈ (mwrite m a b).head?, n < e.1 := by
  intro e he
  cases m with
  | nil =>
    unfold mwrite at he; split at he
    · simp at he
    · simp at he; simp [← he, hn]
  | cons x m =>
    obtain ⟨a', b'⟩ := x
    have hx := (Memory.wf_cons a' b' m).mp h
    have h0 : n < a' := hm (a', b') (by simp)
    unfold mwrite at he
    split at he
    · split at he
      · simp at he; simp [← he, h0]
      · simp at he; simp [← he, hn]
    · split at he
      · split at he
        · have := hx.2.2 e he; omega
        · simp at he; simp [← he, hn]
      · simp at he; simp [← he, h0]

/-- A write keeps the canonical form. -/
theorem Memory.wf_mwrite (m : List Host.Cell) (a : Nat) (b : Byte) (h : Memory.wf m = true) : Memory.wf (mwrite m a b) = true := by
  induction m with
  | nil =>
    unfold mwrite; split
    · rfl
    · rename_i e; rw [Memory.wf_cons]; exact ⟨e, rfl, by simp⟩
  | cons x m ih =>
    obtain ⟨a', b'⟩ := x
    have hx := (Memory.wf_cons a' b' m).mp h
    unfold mwrite
    split
    · rename_i hlt
      split
      · exact h
      · rename_i e; rw [Memory.wf_cons]; exact ⟨e, h, by simpa using hlt⟩
    · split
      · split
        · exact hx.2.1
        · rename_i e1 e; subst e1; rw [Memory.wf_cons]; exact ⟨e, hx.2⟩
      · rw [Memory.wf_cons]
        exact ⟨hx.1, ih hx.2.1, mwrite_above m a b a' hx.2.1 (by omega) hx.2.2⟩

/-- A run of writes keeps the canonical form. -/
theorem Memory.wf_mwriteRun (l : List Byte) (m : List Host.Cell) (a : Nat) (h : Memory.wf m = true) :
    Memory.wf (mwriteRun m a l) = true := by
  induction l generalizing m a with
  | nil => exact h
  | cons b l ih => exact ih _ _ (Memory.wf_mwrite m a b h)

/-- A run of writes leaves every byte outside it alone. -/
theorem mread_mwriteRun_out (l : List Byte) (m : List Host.Cell) (a j : Nat) (h : j < a ∨ a + l.length ≤ j) :
    mread (mwriteRun m a l) j = mread m j := by
  induction l generalizing m a with
  | nil => rfl
  | cons b l ih =>
    simp only [List.length_cons] at h
    exact (ih _ _ (by omega)).trans (mread_mwrite_ne _ _ _ _ (by omega))

end Sys2Proof.Machine
end

