-- ==== Sys2Proof/Laws/State.lean ====
section
/-! SUPPORT. Sys2Proof/Laws/State.lean: what each small update does to each field of the state, so that no proof unfolds a
record update; the laws of a port and of a ring. -/

namespace Sys2Proof.Machine

/-! ## emit -/

@[simp] theorem emit_now (o : Out) (s : State) : (emit o s).now = s.now := rfl
@[simp] theorem emit_free (o : Out) (s : State) : (emit o s).free = s.free := rfl
@[simp] theorem emit_out (o : Out) (s : State) : (emit o s).out = o :: s.out := rfl
@[simp] theorem emit_pending (o : Out) (s : State) : (emit o s).pending = s.pending := rfl
@[simp] theorem emit_dev (o : Out) (s : State) : (emit o s).dev = s.dev := rfl
@[simp] theorem emit_port0 (o : Out) (s : State) : (emit o s).port0 = s.port0 := rfl
@[simp] theorem emit_port1 (o : Out) (s : State) : (emit o s).port1 = s.port1 := rfl
@[simp] theorem emit_rings (o : Out) (s : State) : (emit o s).rings = s.rings := rfl
@[simp] theorem emit_pipe (o : Out) (s : State) : (emit o s).pipe = s.pipe := rfl
@[simp] theorem emit_plan (o : Out) (s : State) : (emit o s).plan = s.plan := rfl
@[simp] theorem emit_cache (o : Out) (s : State) : (emit o s).cache = s.cache := rfl
@[simp] theorem emit_jnl (o : Out) (s : State) : (emit o s).jnl = s.jnl := rfl
@[simp] theorem emit_mem (o : Out) (s : State) : (emit o s).mem = s.mem := rfl
@[simp] theorem emit_led (o : Out) (s : State) : (emit o s).led = s.led := rfl
@[simp] theorem emit_ledNow (o : Out) (s : State) : (emit o s).ledNow = s.ledNow := rfl
@[simp] theorem emit_ledOld (o : Out) (s : State) : (emit o s).ledOld = s.ledOld := rfl
@[simp] theorem emit_pair (o : Out) (s : State) : (emit o s).pair = s.pair := rfl
@[simp] theorem emit_pow (o : Out) (s : State) : (emit o s).pow = s.pow := rfl
@[simp] theorem emit_pack (o : Out) (s : State) : (emit o s).pack = s.pack := rfl
@[simp] theorem emit_therm (o : Out) (s : State) : (emit o s).therm = s.therm := rfl
@[simp] theorem emit_sec (o : Out) (s : State) : (emit o s).sec = s.sec := rfl
@[simp] theorem emit_tap (o : Out) (s : State) : (emit o s).tap = s.tap := rfl
@[simp] theorem emit_fc (o : Out) (s : State) : (emit o s).fc = s.fc := rfl
@[simp] theorem emit_evr (o : Out) (s : State) : (emit o s).evr = s.evr := rfl

/-! ## timeTo -/

@[simp] theorem timeTo_now (t : Nat) (s : State) : (timeTo t s).now = max s.now t := rfl
@[simp] theorem timeTo_free (t : Nat) (s : State) : (timeTo t s).free = s.free := rfl
@[simp] theorem timeTo_out (t : Nat) (s : State) : (timeTo t s).out = s.out := rfl
@[simp] theorem timeTo_pending (t : Nat) (s : State) : (timeTo t s).pending = s.pending := rfl
@[simp] theorem timeTo_dev (t : Nat) (s : State) : (timeTo t s).dev = s.dev := rfl
@[simp] theorem timeTo_port0 (t : Nat) (s : State) : (timeTo t s).port0 = s.port0 := rfl
@[simp] theorem timeTo_port1 (t : Nat) (s : State) : (timeTo t s).port1 = s.port1 := rfl
@[simp] theorem timeTo_rings (t : Nat) (s : State) : (timeTo t s).rings = s.rings := rfl
@[simp] theorem timeTo_pipe (t : Nat) (s : State) : (timeTo t s).pipe = s.pipe := rfl
@[simp] theorem timeTo_plan (t : Nat) (s : State) : (timeTo t s).plan = s.plan := rfl
@[simp] theorem timeTo_cache (t : Nat) (s : State) : (timeTo t s).cache = s.cache := rfl
@[simp] theorem timeTo_jnl (t : Nat) (s : State) : (timeTo t s).jnl = s.jnl := rfl
@[simp] theorem timeTo_mem (t : Nat) (s : State) : (timeTo t s).mem = s.mem := rfl
@[simp] theorem timeTo_led (t : Nat) (s : State) : (timeTo t s).led = s.led := rfl
@[simp] theorem timeTo_ledNow (t : Nat) (s : State) : (timeTo t s).ledNow = s.ledNow := rfl
@[simp] theorem timeTo_ledOld (t : Nat) (s : State) : (timeTo t s).ledOld = s.ledOld := rfl
@[simp] theorem timeTo_pair (t : Nat) (s : State) : (timeTo t s).pair = s.pair := rfl
@[simp] theorem timeTo_pow (t : Nat) (s : State) : (timeTo t s).pow = s.pow := rfl
@[simp] theorem timeTo_pack (t : Nat) (s : State) : (timeTo t s).pack = s.pack := rfl
@[simp] theorem timeTo_therm (t : Nat) (s : State) : (timeTo t s).therm = s.therm := rfl
@[simp] theorem timeTo_sec (t : Nat) (s : State) : (timeTo t s).sec = s.sec := rfl
@[simp] theorem timeTo_tap (t : Nat) (s : State) : (timeTo t s).tap = s.tap := rfl
@[simp] theorem timeTo_fc (t : Nat) (s : State) : (timeTo t s).fc = s.fc := rfl
@[simp] theorem timeTo_evr (t : Nat) (s : State) : (timeTo t s).evr = s.evr := rfl

/-! ## nextFree -/

@[simp] theorem nextFree_now (s : State) : (nextFree s).now = s.now := rfl
@[simp] theorem nextFree_free (s : State) : (nextFree s).free = s.free + 1 := rfl
@[simp] theorem nextFree_out (s : State) : (nextFree s).out = s.out := rfl
@[simp] theorem nextFree_pending (s : State) : (nextFree s).pending = s.pending := rfl
@[simp] theorem nextFree_dev (s : State) : (nextFree s).dev = s.dev := rfl
@[simp] theorem nextFree_port0 (s : State) : (nextFree s).port0 = s.port0 := rfl
@[simp] theorem nextFree_port1 (s : State) : (nextFree s).port1 = s.port1 := rfl
@[simp] theorem nextFree_rings (s : State) : (nextFree s).rings = s.rings := rfl
@[simp] theorem nextFree_pipe (s : State) : (nextFree s).pipe = s.pipe := rfl
@[simp] theorem nextFree_plan (s : State) : (nextFree s).plan = s.plan := rfl
@[simp] theorem nextFree_cache (s : State) : (nextFree s).cache = s.cache := rfl
@[simp] theorem nextFree_jnl (s : State) : (nextFree s).jnl = s.jnl := rfl
@[simp] theorem nextFree_mem (s : State) : (nextFree s).mem = s.mem := rfl
@[simp] theorem nextFree_led (s : State) : (nextFree s).led = s.led := rfl
@[simp] theorem nextFree_ledNow (s : State) : (nextFree s).ledNow = s.ledNow := rfl
@[simp] theorem nextFree_ledOld (s : State) : (nextFree s).ledOld = s.ledOld := rfl
@[simp] theorem nextFree_pair (s : State) : (nextFree s).pair = s.pair := rfl
@[simp] theorem nextFree_pow (s : State) : (nextFree s).pow = s.pow := rfl
@[simp] theorem nextFree_pack (s : State) : (nextFree s).pack = s.pack := rfl
@[simp] theorem nextFree_therm (s : State) : (nextFree s).therm = s.therm := rfl
@[simp] theorem nextFree_sec (s : State) : (nextFree s).sec = s.sec := rfl
@[simp] theorem nextFree_tap (s : State) : (nextFree s).tap = s.tap := rfl
@[simp] theorem nextFree_fc (s : State) : (nextFree s).fc = s.fc := rfl
@[simp] theorem nextFree_evr (s : State) : (nextFree s).evr = s.evr := rfl

/-! ## ledCommit -/

@[simp] theorem ledCommit_now (s : State) : (ledCommit s).now = s.now := rfl
@[simp] theorem ledCommit_free (s : State) : (ledCommit s).free = s.free := rfl
@[simp] theorem ledCommit_out (s : State) : (ledCommit s).out = s.out := rfl
@[simp] theorem ledCommit_pending (s : State) : (ledCommit s).pending = s.pending := rfl
@[simp] theorem ledCommit_dev (s : State) : (ledCommit s).dev = s.dev := rfl
@[simp] theorem ledCommit_port0 (s : State) : (ledCommit s).port0 = s.port0 := rfl
@[simp] theorem ledCommit_port1 (s : State) : (ledCommit s).port1 = s.port1 := rfl
@[simp] theorem ledCommit_rings (s : State) : (ledCommit s).rings = s.rings := rfl
@[simp] theorem ledCommit_pipe (s : State) : (ledCommit s).pipe = s.pipe := rfl
@[simp] theorem ledCommit_plan (s : State) : (ledCommit s).plan = s.plan := rfl
@[simp] theorem ledCommit_cache (s : State) : (ledCommit s).cache = s.cache := rfl
@[simp] theorem ledCommit_jnl (s : State) : (ledCommit s).jnl = s.jnl := rfl
@[simp] theorem ledCommit_mem (s : State) : (ledCommit s).mem = s.mem := rfl
@[simp] theorem ledCommit_led (s : State) : (ledCommit s).led = { s.led with seq := s.led.seq + 1 } := rfl
@[simp] theorem ledCommit_pair (s : State) : (ledCommit s).pair = s.pair := rfl
@[simp] theorem ledCommit_pow (s : State) : (ledCommit s).pow = s.pow := rfl
@[simp] theorem ledCommit_pack (s : State) : (ledCommit s).pack = s.pack := rfl
@[simp] theorem ledCommit_therm (s : State) : (ledCommit s).therm = s.therm := rfl
@[simp] theorem ledCommit_sec (s : State) : (ledCommit s).sec = s.sec := rfl
@[simp] theorem ledCommit_tap (s : State) : (ledCommit s).tap = s.tap := rfl
@[simp] theorem ledCommit_fc (s : State) : (ledCommit s).fc = s.fc := rfl
@[simp] theorem ledCommit_evr (s : State) : (ledCommit s).evr = s.evr := rfl

/-! ## setRing -/

@[simp] theorem setRing_now (r : Nat) (v : Ring) (s : State) : (setRing r v s).now = s.now := by unfold setRing; split <;> rfl
@[simp] theorem setRing_free (r : Nat) (v : Ring) (s : State) : (setRing r v s).free = s.free := by unfold setRing; split <;> rfl
@[simp] theorem setRing_out (r : Nat) (v : Ring) (s : State) : (setRing r v s).out = s.out := by unfold setRing; split <;> rfl
@[simp] theorem setRing_pending (r : Nat) (v : Ring) (s : State) : (setRing r v s).pending = s.pending := by unfold setRing; split <;> rfl
@[simp] theorem setRing_dev (r : Nat) (v : Ring) (s : State) : (setRing r v s).dev = s.dev := by unfold setRing; split <;> rfl
@[simp] theorem setRing_port0 (r : Nat) (v : Ring) (s : State) : (setRing r v s).port0 = s.port0 := by unfold setRing; split <;> rfl
@[simp] theorem setRing_port1 (r : Nat) (v : Ring) (s : State) : (setRing r v s).port1 = s.port1 := by unfold setRing; split <;> rfl
@[simp] theorem setRing_pipe (r : Nat) (v : Ring) (s : State) : (setRing r v s).pipe = s.pipe := by unfold setRing; split <;> rfl
@[simp] theorem setRing_plan (r : Nat) (v : Ring) (s : State) : (setRing r v s).plan = s.plan := by unfold setRing; split <;> rfl
@[simp] theorem setRing_cache (r : Nat) (v : Ring) (s : State) : (setRing r v s).cache = s.cache := by unfold setRing; split <;> rfl
@[simp] theorem setRing_jnl (r : Nat) (v : Ring) (s : State) : (setRing r v s).jnl = s.jnl := by unfold setRing; split <;> rfl
@[simp] theorem setRing_mem (r : Nat) (v : Ring) (s : State) : (setRing r v s).mem = s.mem := by unfold setRing; split <;> rfl
@[simp] theorem setRing_led (r : Nat) (v : Ring) (s : State) : (setRing r v s).led = s.led := by unfold setRing; split <;> rfl
@[simp] theorem setRing_pair (r : Nat) (v : Ring) (s : State) : (setRing r v s).pair = s.pair := by unfold setRing; split <;> rfl
@[simp] theorem setRing_pow (r : Nat) (v : Ring) (s : State) : (setRing r v s).pow = s.pow := by unfold setRing; split <;> rfl
@[simp] theorem setRing_pack (r : Nat) (v : Ring) (s : State) : (setRing r v s).pack = s.pack := by unfold setRing; split <;> rfl
@[simp] theorem setRing_therm (r : Nat) (v : Ring) (s : State) : (setRing r v s).therm = s.therm := by unfold setRing; split <;> rfl
@[simp] theorem setRing_sec (r : Nat) (v : Ring) (s : State) : (setRing r v s).sec = s.sec := by unfold setRing; split <;> rfl
@[simp] theorem setRing_tap (r : Nat) (v : Ring) (s : State) : (setRing r v s).tap = s.tap := by unfold setRing; split <;> rfl
@[simp] theorem setRing_fc (r : Nat) (v : Ring) (s : State) : (setRing r v s).fc = s.fc := by unfold setRing; split <;> rfl
@[simp] theorem setRing_evr (r : Nat) (v : Ring) (s : State) : (setRing r v s).evr = s.evr := by unfold setRing; split <;> rfl

/-! ## updCmd -/

@[simp] theorem updCmd_now (c : Nat) (f : Cmd → Cmd) (s : State) : (updCmd c f s).now = s.now := rfl
@[simp] theorem updCmd_free (c : Nat) (f : Cmd → Cmd) (s : State) : (updCmd c f s).free = s.free := rfl
@[simp] theorem updCmd_out (c : Nat) (f : Cmd → Cmd) (s : State) : (updCmd c f s).out = s.out := rfl
@[simp] theorem updCmd_pending (c : Nat) (f : Cmd → Cmd) (s : State) : (updCmd c f s).pending = s.pending := rfl
@[simp] theorem updCmd_dev (c : Nat) (f : Cmd → Cmd) (s : State) : (updCmd c f s).dev = s.dev := rfl
@[simp] theorem updCmd_port0 (c : Nat) (f : Cmd → Cmd) (s : State) : (updCmd c f s).port0 = s.port0 := rfl
@[simp] theorem updCmd_port1 (c : Nat) (f : Cmd → Cmd) (s : State) : (updCmd c f s).port1 = s.port1 := rfl
@[simp] theorem updCmd_rings (c : Nat) (f : Cmd → Cmd) (s : State) : (updCmd c f s).rings = s.rings := rfl
@[simp] theorem updCmd_pipe (c : Nat) (f : Cmd → Cmd) (s : State) : (updCmd c f s).pipe = { s.pipe with cmds := tupd s.pipe.cmds c f } := rfl
@[simp] theorem updCmd_plan (c : Nat) (f : Cmd → Cmd) (s : State) : (updCmd c f s).plan = s.plan := rfl
@[simp] theorem updCmd_cache (c : Nat) (f : Cmd → Cmd) (s : State) : (updCmd c f s).cache = s.cache := rfl
@[simp] theorem updCmd_jnl (c : Nat) (f : Cmd → Cmd) (s : State) : (updCmd c f s).jnl = s.jnl := rfl
@[simp] theorem updCmd_mem (c : Nat) (f : Cmd → Cmd) (s : State) : (updCmd c f s).mem = s.mem := rfl
@[simp] theorem updCmd_led (c : Nat) (f : Cmd → Cmd) (s : State) : (updCmd c f s).led = s.led := rfl
@[simp] theorem updCmd_ledNow (c : Nat) (f : Cmd → Cmd) (s : State) : (updCmd c f s).ledNow = s.ledNow := rfl
@[simp] theorem updCmd_ledOld (c : Nat) (f : Cmd → Cmd) (s : State) : (updCmd c f s).ledOld = s.ledOld := rfl
@[simp] theorem updCmd_pair (c : Nat) (f : Cmd → Cmd) (s : State) : (updCmd c f s).pair = s.pair := rfl
@[simp] theorem updCmd_pow (c : Nat) (f : Cmd → Cmd) (s : State) : (updCmd c f s).pow = s.pow := rfl
@[simp] theorem updCmd_pack (c : Nat) (f : Cmd → Cmd) (s : State) : (updCmd c f s).pack = s.pack := rfl
@[simp] theorem updCmd_therm (c : Nat) (f : Cmd → Cmd) (s : State) : (updCmd c f s).therm = s.therm := rfl
@[simp] theorem updCmd_sec (c : Nat) (f : Cmd → Cmd) (s : State) : (updCmd c f s).sec = s.sec := rfl
@[simp] theorem updCmd_tap (c : Nat) (f : Cmd → Cmd) (s : State) : (updCmd c f s).tap = s.tap := rfl
@[simp] theorem updCmd_fc (c : Nat) (f : Cmd → Cmd) (s : State) : (updCmd c f s).fc = s.fc := rfl
@[simp] theorem updCmd_evr (c : Nat) (f : Cmd → Cmd) (s : State) : (updCmd c f s).evr = s.evr := rfl

/-! ## tick -/

@[simp] theorem tick_now (s : State) : (tick s).now = s.now + 1 := rfl
@[simp] theorem tick_free (s : State) : (tick s).free = s.free := rfl
@[simp] theorem tick_out (s : State) : (tick s).out = s.out := rfl
@[simp] theorem tick_pending (s : State) : (tick s).pending = s.pending := rfl
@[simp] theorem tick_dev (s : State) : (tick s).dev = s.dev := rfl
@[simp] theorem tick_port0 (s : State) : (tick s).port0 = s.port0 := rfl
@[simp] theorem tick_port1 (s : State) : (tick s).port1 = s.port1 := rfl
@[simp] theorem tick_rings (s : State) : (tick s).rings = s.rings := rfl
@[simp] theorem tick_pipe (s : State) : (tick s).pipe = s.pipe := rfl
@[simp] theorem tick_plan (s : State) : (tick s).plan = s.plan := rfl
@[simp] theorem tick_cache (s : State) : (tick s).cache = s.cache := rfl
@[simp] theorem tick_jnl (s : State) : (tick s).jnl = s.jnl := rfl
@[simp] theorem tick_mem (s : State) : (tick s).mem = s.mem := rfl
@[simp] theorem tick_led (s : State) : (tick s).led = s.led := rfl
@[simp] theorem tick_ledNow (s : State) : (tick s).ledNow = s.ledNow := rfl
@[simp] theorem tick_ledOld (s : State) : (tick s).ledOld = s.ledOld := rfl
@[simp] theorem tick_pair (s : State) : (tick s).pair = s.pair := rfl
@[simp] theorem tick_pow (s : State) : (tick s).pow = s.pow := rfl
@[simp] theorem tick_pack (s : State) : (tick s).pack = s.pack := rfl
@[simp] theorem tick_therm (s : State) : (tick s).therm = s.therm := rfl
@[simp] theorem tick_sec (s : State) : (tick s).sec = s.sec := rfl
@[simp] theorem tick_tap (s : State) : (tick s).tap = s.tap := rfl
@[simp] theorem tick_fc (s : State) : (tick s).fc = s.fc := rfl
@[simp] theorem tick_evr (s : State) : (tick s).evr = s.evr := rfl

/-! ## setPort -/

@[simp] theorem setPort_now (p : Nat) (v : Port) (s : State) : (setPort p v s).now = s.now := by unfold setPort; split <;> rfl
@[simp] theorem setPort_free (p : Nat) (v : Port) (s : State) : (setPort p v s).free = s.free := by unfold setPort; split <;> rfl
@[simp] theorem setPort_out (p : Nat) (v : Port) (s : State) : (setPort p v s).out = s.out := by unfold setPort; split <;> rfl
@[simp] theorem setPort_pending (p : Nat) (v : Port) (s : State) : (setPort p v s).pending = s.pending := by unfold setPort; split <;> rfl
@[simp] theorem setPort_dev (p : Nat) (v : Port) (s : State) : (setPort p v s).dev = s.dev := by unfold setPort; split <;> rfl
@[simp] theorem setPort_rings (p : Nat) (v : Port) (s : State) : (setPort p v s).rings = s.rings := by unfold setPort; split <;> rfl
@[simp] theorem setPort_pipe (p : Nat) (v : Port) (s : State) : (setPort p v s).pipe = s.pipe := by unfold setPort; split <;> rfl
@[simp] theorem setPort_plan (p : Nat) (v : Port) (s : State) : (setPort p v s).plan = s.plan := by unfold setPort; split <;> rfl
@[simp] theorem setPort_cache (p : Nat) (v : Port) (s : State) : (setPort p v s).cache = s.cache := by unfold setPort; split <;> rfl
@[simp] theorem setPort_jnl (p : Nat) (v : Port) (s : State) : (setPort p v s).jnl = s.jnl := by unfold setPort; split <;> rfl
@[simp] theorem setPort_mem (p : Nat) (v : Port) (s : State) : (setPort p v s).mem = s.mem := by unfold setPort; split <;> rfl
@[simp] theorem setPort_led (p : Nat) (v : Port) (s : State) : (setPort p v s).led = s.led := by unfold setPort; split <;> rfl
@[simp] theorem setPort_pair (p : Nat) (v : Port) (s : State) : (setPort p v s).pair = s.pair := by unfold setPort; split <;> rfl
@[simp] theorem setPort_pow (p : Nat) (v : Port) (s : State) : (setPort p v s).pow = s.pow := by unfold setPort; split <;> rfl
@[simp] theorem setPort_pack (p : Nat) (v : Port) (s : State) : (setPort p v s).pack = s.pack := by unfold setPort; split <;> rfl
@[simp] theorem setPort_therm (p : Nat) (v : Port) (s : State) : (setPort p v s).therm = s.therm := by unfold setPort; split <;> rfl
@[simp] theorem setPort_sec (p : Nat) (v : Port) (s : State) : (setPort p v s).sec = s.sec := by unfold setPort; split <;> rfl
@[simp] theorem setPort_tap (p : Nat) (v : Port) (s : State) : (setPort p v s).tap = s.tap := by unfold setPort; split <;> rfl
@[simp] theorem setPort_fc (p : Nat) (v : Port) (s : State) : (setPort p v s).fc = s.fc := by unfold setPort; split <;> rfl
@[simp] theorem setPort_evr (p : Nat) (v : Port) (s : State) : (setPort p v s).evr = s.evr := by unfold setPort; split <;> rfl

/-- A port reads as it was set, and the other as before. -/
@[simp] theorem getPort_setPort (p q : Nat) (v : Port) (s : State) :
    getPort q (setPort p v s) = if (p = 0 ↔ q = 0) then v else getPort q s := by
  unfold getPort setPort
  by_cases hp : p = 0 <;> by_cases hq : q = 0 <;> simp [hp, hq]

/-! ## Rings -/

/-- A ring reads as it was set, and every other ring as before. A FREE ring reads as the empty context. -/
theorem ringOf_setRing (r q : Nat) (v : Ring) (s : State) (h : v.st ≠ .free) :
    ringOf q (setRing r v s) = if q = r then v else ringOf q s := by
  simp [ringOf, setRing, h]

/-- Setting a ring changes the rings only. -/
theorem setRing_eq (r : Nat) (v : Ring) (s : State) : setRing r v s = { s with rings := (setRing r v s).rings } := by
  unfold setRing; split <;> rfl

/-! ## Fault messages -/

/-- Raising a message changes the fault controller's inputs only. -/
theorem raise_eq (src kind addr : Nat) (s : State) (forced : Bool) :
    raise src kind addr s forced = { s with fc := (raise src kind addr s forced).fc } := by
  unfold raise; dsimp only; split <;> rfl

/-- A message raised waits last at its source, when fewer than four do. -/
theorem raise_queue (src kind addr : Nat) (s : State) (h : (tgetD s.fc.queue src []).length < 4) :
    tgetD (raise src kind addr s).fc.queue src [] =
      tgetD s.fc.queue src [] ++ [{ src := src, kind := kind, addr := addr % 2 ^ 48 }] := by
  simp [raise, h]

end Sys2Proof.Machine
end

