-- ==== Sys2Proof/Tests/Slice0.lean ====
section
/-! SUPPORT. Sys2Proof/Tests/Slice0.lean: tests of the model. `witness_<Name>` shows a state and operands that meet the
hypotheses of the clauses of `Obligations.<Name>` together; `test_…` are results worked out by hand from the rules that
they name; `refuses_…` are operands that `Instr.wf` turns away, one for each of its checks. -/

set_option Elab.async false

open Sys2Proof Sys2Proof.Machine

namespace Sys2Proof.Tests

/-! ## States to test on -/

/-- A table of one pool of 4 slots with 2 + 1 strips, and one volume of 1,000 sectors. -/
def plan1 : PlanTab :=
  { pools := [(0, { geom := 0, n := 4, q := 16, bands := 100, serial := 7, members := [0x8000, 0x8001, 0x8002, 0x8003] })],
    vols := [(0, { pool := 0, startRow := 0, sectors := 1000 })],
    geoms := [(0, { k := 2, m := 1, shift := 2 })], coeff := [(0, [1, 1])],
    roll := [(0, (List.range 48).map (fun i => BitVec.ofNat 8 ((i / 3 + i % 3) % 4)))] }

/-- A module that serves. -/
def up : State := { State.reset with
  dev := { State.reset.dev with ready := true, powerGood := true, laneAwake := 0xFF, groupAwake := 0xFFFF, coreAwake := 0xF,
                                cacheActive := true },
  pow := { State.reset.pow with ph := .run, hold := true },
  therm := { State.reset.therm with coreLock := true, dramLock := true, hostLock := true, groupLock := 0xFFFF, xtalOk := true },
  plan := { State.reset.plan with tab := some plan1 } }

/-- The same, in a pair with node 9, of epoch 3. -/
def paired : State := { up with
  led := { up.led with paired := true, peer := 9, cohort := 1, pairEpoch := 3 },
  pair := { up.pair with st := 4, linkUp := true, helloSent := true } }

/-- A state in a phase of R392, with the fields of the power record changed. -/
def power (f : PowSt → PowSt) : State := { up with pow := f up.pow }

/-- A header of the message that `paired` takes next. -/
def hdr : PairHdr := { seq := 1, node := 9, epoch := 3, crcOk := true }

/-- A 64-byte entry with the bytes given at offsets, low byte first. -/
def entry (fields : List (Nat × List Byte)) : List Byte :=
  (List.range 64).map (fun o =>
    (fields.findSome? (fun f => if f.1 ≤ o ∧ o < f.1 + f.2.length then f.2[o - f.1]? else none)).getD 0)

/-- A begun command of ring 2, with a buffer of 64 bytes. -/
def begun (opcode : Nat) (fields : List (Nat × List Byte)) : Cmd :=
  { src := .ring 2, entry := entry fields, opcode := opcode, ph := .begun, volume := 0, lba := 8, count := 4,
    sgl := [(0x10000, 64)] }

/-- A state in which command 5 is the one that the command table holds. -/
def holding (x : Cmd) (s : State) : State := { s with pipe := { s.pipe with cmds := [(5, x)] } }

/-- A state in which an admin operation is the one that runs, with no duty placed that a schedule could hold back. -/
def admin (opcode : Nat) (fields : List (Nat × List Byte)) (s : State) : State :=
  holding (begun opcode fields) { s with dev := { s.dev with duty := [] } }

theorem adminNow_admin (op : Nat) (fields : List (Nat × List Byte)) (s : State) (h : 0x80 ≤ op) :
    adminNow op (admin op fields s) = some (5, begun op fields) := by
  simp [adminNow, planFirst, adminFront, admin, holding, begun, h]

theorem cmdOf_holding (x : Cmd) (s : State) : cmdOf 5 (holding x s) = some x := rfl

/-- A state with one ring. -/
def ring (r : Nat) (v : Ring) (s : State) : State := { s with rings := [(r, v)] }

/-- An ACTIVE submission ring of 16 entries. -/
def sq : Ring := { st := .active, typ := 0, base := 0x40000, log2 := 4, pushEn := true, bind := 3, head := 0xFFFFFFF8,
                   tail := 2 }

/-- An ACTIVE completion ring of 16 entries. -/
def cq : Ring := { st := .active, typ := 1, base := 0x50000, log2 := 4, intEn := true, cap := 4, head := 10, tail := 14,
                   coalTime := 20, unsignalled := 3, firstAt := 7 }

/-! ## Witnesses -/

theorem witness_StepRunsTheFrontCommand : State.reset.pending = [] := by decide

theorem witness_CommandsLeaveTheQueue : ∃ t, exec .idcode State.reset = .next t ∧ t.pending = [] := ⟨_, rfl, rfl⟩

/-- A round of a quiet module. -/
def quiet : RoundReadings :=
  { counts := List.replicate 32 1224, railsMv := List.replicate 12 900, slack := List.replicate 4 20, twins := List.replicate 8 0, rcTrimmed := true,
    hostRef := true, sysRef := true,
    pack := { vMv := 52000, iUa := 0, dqNah := 0, tQ := 100, chgStat := false, clipped := false } }

theorem witness_WellFormedCommandsAnswer : (Instr.housekeepingRound quiet).wf = true ∧ roundSound quiet = true ∧
    roundSound { quiet with railsMv := List.replicate 11 900 } = false := by decide

theorem witness_FusesOnlyBlow : ∃ t, step State.reset = .next t := ⟨_, rfl⟩

theorem witness_FirmwareChangesByItsCommandsOnly : (∃ t, exec .idcode State.reset = .next t) ∧
    Instr.idcode ≠ .fwStage [] ∧ Instr.idcode ≠ .ready := ⟨⟨_, rfl⟩, by decide, by decide⟩

theorem witness_OwnerAndLockFrame : (∃ t, step { State.reset with pending := [.regionSweep] } = .next t) ∧
    bearsOnRecords .regionSweep = false := ⟨⟨_, rfl⟩, by decide⟩

theorem begun_not_peer (op : Nat) (f : List (Nat × List Byte)) (p : CmdPh) :
    ∀ tag, ({ begun op f with ph := p } : Cmd).src ≠ .peer tag := fun _ h => nomatch h

theorem witness_IoTransfers :
    (let x := begun 0x01 []; cmdOf 5 (holding x up) = some x ∧ x.ph = .begun ∧ x.opcode = 0x01) ∧
    (∀ op ∈ [0x02, 0x03], ∀ ph ∈ [CmdPh.begun, .data, .running, .forwarded],
      let x := { begun op [] with ph := ph }
      cmdOf 5 (holding x up) = some x ∧ x.ph = ph ∧ x.opcode = op ∧ ∀ tag, x.src ≠ .peer tag) ∧
    cacheOn (holding (begun 0x02 []) up) = true ∧
    cacheOn (holding (begun 0x02 []) { up with dev := { up.dev with tagFence := true } }) = false ∧
    let x := { begun 0x03 [] with src := .peer 8 }
    cmdOf 5 (holding x up) = some x ∧ x.ph = .begun ∧ x.opcode = 0x03 ∧ ∃ tag, x.src = .peer tag :=
  ⟨by decide, fun _ _ _ _ => ⟨rfl, rfl, rfl, begun_not_peer _ _ _⟩, by decide, by decide, rfl, rfl, rfl, 8, rfl⟩

theorem witness_CommandsWaitForDirtySectors :
    (let x := begun 0x04 [(40, [1])]; cmdOf 5 (holding x up) = some x ∧ x.ph = .begun ∧ x.opcode = 0x04) ∧
    (let x := begun 0x06 []; cmdOf 5 (holding x up) = some x ∧ x.ph = .begun ∧ x.opcode = 0x06) ∧
    let x := begun 0x07 []
    cmdOf 5 (holding x up) = some x ∧ x.ph = .begun ∧ x.opcode = 0x07 := by decide

theorem witness_DeallocateAndAcceptLoss :
    (let x := begun 0x05 []; cmdOf 5 (holding x up) = some x ∧ x.ph = .begun ∧ x.opcode = 0x05) ∧
    (let x := begun 0x08 []; cmdOf 5 (holding x up) = some x ∧ x.ph = .begun ∧ x.opcode = 0x08 ∧ byteAt x.entry 40 = 0) ∧
    let x := begun 0x08 [(40, [1])]
    cmdOf 5 (holding x up) = some x ∧ x.ph = .begun ∧ x.opcode = 0x08 ∧ byteAt x.entry 40 ≠ 0 ∧
      ∀ e ∈ cmdSecs x.volume x.lba x.count (holding x up), lostNow e.1 e.2.1 e.2.2.1 e.2.2.2 (holding x up) = false := by
  decide

/-- A lost extent of three sectors around LBA 9 of volume 0, and n others. -/
def lostMany (n : Nat) : State :=
  { up with mem := { up.mem with
    lostE := { row := 1, positions := 1, count := 3 } :: List.replicate n { row := 9, positions := 1 } } }

/-- With no room for one more extent, a sector in the midst of one cannot be released: what is left takes two. -/
theorem lostMany_stays (n : Nat) (h : lostEMax ≤ n + 1) : releaseE (0, 1, 0, 1) (lostMany n) = lostMany n := by
  have e : lostEOf 0 1 0 1 (lostMany n) = some { row := 1, positions := 1, count := 3 } := rfl
  have l : (lostMany n).mem.lostE.length = n + 1 := by
    show (List.replicate n _).length + 1 = n + 1
    rw [List.length_replicate]
  show (if writableHome 0 1 0 (lostMany n) = true then dropLostE 0 1 0 1 (lostMany n) else acceptLostE 0 1 0 1 (lostMany n)) = _
  rw [show writableHome 0 1 0 (lostMany n) = writableHome 0 1 0 up from rfl, if_neg (by decide)]
  unfold acceptLostE
  rw [e]
  show (if lostEMax < (lostMany n).mem.lostE.length - 1 + 3 then lostMany n else _) = lostMany n
  rw [l, if_pos (by omega)]

/-- ACCEPT_LOSS of KIND 1 on LBA 9. -/
def acceptAt9 : Cmd := { begun 0x08 [(40, [1])] with lba := 9, count := 1 }

theorem lostMany_blocks (n : Nat) (h : lostEMax ≤ n + 1) :
    let s := holding acceptAt9 (lostMany n)
    let gone := (cmdSecs acceptAt9.volume acceptAt9.lba acceptAt9.count s).filter (fun e => lostNow e.1 e.2.1 e.2.2.1 e.2.2.2 s)
    cmdOf 5 s = some acceptAt9 ∧ gone = [(0, 1, 0, 1)] ∧
      lostNow 0 1 0 1 (gone.foldl (fun s e => releaseE e s) (lostMany n)) = true := by
  have c : cmdSecs acceptAt9.volume acceptAt9.lba acceptAt9.count (holding acceptAt9 (lostMany n)) = [(0, 1, 0, 1)] :=
    (show _ = cmdSecs 0 9 1 up from rfl).trans (by decide)
  refine ⟨rfl, by rw [c]; rfl, ?_⟩
  rw [c]
  show lostNow 0 1 0 1 (releaseE (0, 1, 0, 1) (lostMany n)) = true
  rw [lostMany_stays n h]
  rfl

theorem witness_DeallocateAndAcceptLoss_full : ∃ n,
    let s := holding acceptAt9 (lostMany n)
    let gone := (cmdSecs acceptAt9.volume acceptAt9.lba acceptAt9.count s).filter (fun e => lostNow e.1 e.2.1 e.2.2.1 e.2.2.2 s)
    cmdOf 5 s = some acceptAt9 ∧ gone = [(0, 1, 0, 1)] ∧
      lostNow 0 1 0 1 (gone.foldl (fun s e => releaseE e s) (lostMany n)) = true :=
  ⟨2097151, lostMany_blocks _ (by decide)⟩

/-- A WRITE of 4 sectors of volume 0 from sector 8, CID 0x1234, for a fetched copy. -/
def writeEntry : List Byte := entry [(0, [0x02]), (2, [0x34, 0x12]), (12, [4]), (16, [8]), (32, [0, 0x40])]

/-- `sq` with two entries, whose copies are at hand. -/
def sqFull : Ring :=
  { sq with tail := 0xFFFFFFFA, fetched := [(0xFFFFFFF8, writeEntry), (0xFFFFFFF9, List.replicate 64 0)] }

/-- Ring 2 with entries beside its completion ring, ring 3. -/
def ringsUp : State := { up with rings := [(2, sqFull), (3, cq)] }

/-- An operation on slice 0 of row 5. -/
def op5 : Op := { kind := 2, pool := 0, row := 5, data := 1, seq := 4 }

/-- A state with one operation, number 7. -/
def opState (o : Op) (s : State) : State := { s with pipe := { s.pipe with ops := [(7, o)] } }

theorem witness_IntakeBeginsAndHolds :
    (fetchStopped ringsUp = false ∧ domainsRun ringsUp = true ∧ nextTurn ringsUp = some (0, 2, 2, 0) ∧
      entryOf (ringOf 2 ringsUp) (ringOf 2 ringsUp).head = some writeEntry ∧
      (ringOf 2 ringsUp).marked.contains (ringOf 2 ringsUp).head.toNat = false ∧
      2 ≠ ringFirst (ringPort 2 (updPort 0 (fun q => { q with lastRing := 2, turnLeft := 0 })
        { ringsUp with pipe.lastPort := 0 })) (updPort 0 (fun q => { q with lastRing := 2, turnLeft := 0 })
        { ringsUp with pipe.lastPort := 0 })) ∧
    (let s : State := { ringsUp with rings := [(2, { sqFull with marked := [0xFFFFFFF8] }), (3, cq)] }
     fetchStopped s = false ∧ domainsRun s = true ∧ nextTurn s = some (0, 2, 2, 0) ∧
      entryOf (ringOf 2 s) (ringOf 2 s).head = some writeEntry ∧ (ringOf 2 s).marked.contains (ringOf 2 s).head.toNat = true) ∧
    (let s : State := { ringsUp with pow := { up.pow with ph := .flush } }; fetchStopped s = true) ∧
    (let s : State := { ringsUp with therm := { up.therm with coreLock := false } }; domainsRun s = false) ∧
    nextTurn up = none ∧
    (let s : State := opState op5 { up with pipe := { up.pipe with held := [7] } }
     intakeHeld s = false ∧ s.pipe.held = [7]) ∧
    intakeHeld { up with plan := { up.plan with switching := true } } = true ∧
    let s := opState { op5 with st := .ready } up
    rowOps 0 5 s = [(7, { op5 with st := .ready })] ∧ firstOnRow { op5 with st := .ready } s = true ∧ rowBusy 7 0 5 s = false ∧
      rowOps 8 5 (updOp 7 (fun y => { y with rowOk := true }) s) = [] := by decide

theorem witness_DomainsGateAndWake :
    (let s : State := { up with dev := { up.dev with waking := [(7, 100)] } }
     (tget s.dev.waking (7 : Fin 8).val).isSome = true ∧ laneUnusable (7 : Fin 8).val s = false) ∧
    tget up.dev.waking (7 : Fin 8).val = none ∧
    (let s : State := { up with dev := { up.dev with waking := [(7, 100)], laneFence := 0x80 } }
     laneUnusable (7 : Fin 8).val s = true) ∧
    laneMayGate (7 : Fin 8).val up = true ∧ laneMayGate (0 : Fin 8).val up = false ∧
    (let s : State := { up with
        dev := { up.dev with memberGateEn := true }, mem := { up.mem with ports := [(127, { present := true })] } }
     groupMayGate (15 : Fin 16).val 0x80 s = true ∧ groupMayGate (15 : Fin 16).val 0x7F s = false) ∧
    up.dev.ctrlFence.getLsbD (3 : Fin 4).val = false ∧ up.dev.groupFence.getLsbD (15 : Fin 16).val = false ∧
    ({ up with dev := { up.dev with groupFence := 0x8000 } } : State).dev.groupFence.getLsbD (15 : Fin 16).val = true ∧
    cacheOn up = true ∧ up.dev.pairFence = false := by decide

/-- Doorbell values at the edges of R190: head is 2^32 - 8, tail 2, so that 10 entries are outstanding of 16. -/
theorem witness_SubmissionDoorbellRule :
    let s := ring 2 sq up
    let q := ringOf 2 s
    DbWidth.lo32 ≠ .hi32 ∧ barUp 0 s = true ∧ ringIn 0 2 s = true ∧ q.st = .active ∧ q.typ = 0 ∧
    (ringSize q < cdiff 0xFFFFFFF7 q.head ∧ cdiff q.tail 0xFFFFFFF7 ≤ ringSize q) ∧
    (cdiff 1 q.head ≤ ringSize q ∧ cdiff 1 q.head < cdiff q.tail q.head) ∧
    (ringSize q < cdiff 9 q.head ∧ ringSize q < cdiff q.tail 9) ∧
    (cdiff 8 q.head ≤ ringSize q ∧ cdiff q.tail q.head ≤ cdiff 8 q.head) ∧
    (cdiff 2 q.head ≤ ringSize q ∧ cdiff q.tail q.head ≤ cdiff 2 q.head) := by decide

/-- Doorbell values at the edges of R191: head is 10, tail 14, so that 4 entries are available of 16. -/
theorem witness_CompletionDoorbellRule :
    let s := ring 3 cq up
    let q := ringOf 3 s
    barUp 0 s = true ∧ ringIn 0 3 s = true ∧ q.st = .active ∧ q.typ ≠ 0 ∧
    cdiff 10 q.head ≤ cdiff q.tail q.head ∧ cdiff 14 q.head ≤ cdiff q.tail q.head ∧
    (cdiff q.tail q.head < cdiff 9 q.head ∧ cdiff q.head 9 ≤ ringSize q) ∧
    (cdiff q.tail q.head < cdiff 0xFFFFFFFA q.head ∧ cdiff q.head 0xFFFFFFFA ≤ ringSize q) ∧
    (cdiff q.tail q.head < cdiff 15 q.head ∧ ringSize q < cdiff q.head 15) ∧
    (cdiff q.tail q.head < cdiff 0xFFFFFFF9 q.head ∧ ringSize q < cdiff q.head 0xFFFFFFF9) := by decide

theorem witness_PushesAndStoppedRings :
    (let s := ring 2 sq up
     let off : BitVec 25 := 256
     let d := entry [(4, [3])]
     barUp 0 s = true ∧ off.toNat / 128 = 2 ∧ off.toNat / 64 % 2 = 0 ∧ off.toNat % 64 = 0 ∧ d.length = 64 ∧
      ringIn 0 2 s = true ∧ (ringOf 2 s).st = .active ∧ (ringOf 2 s).typ = 0 ∧ (ringOf 2 s).pushEn = true ∧
      BitVec.ofNat 32 (leAt d 4 4) = (ringOf 2 s).tail + 1 ∧ 0 = (ringOf 2 s).tail.toNat % 2 ∧ (ringOf 2 s).push0 = none ∧
      cdiff 3 (ringOf 2 s).head ≤ ringSize (ringOf 2 s) ∧
      ¬ BitVec.ofNat 32 (leAt (entry [(4, [4])]) 4 4) = (ringOf 2 s).tail + 1) ∧
    (257 : BitVec 25).toNat % 64 ≠ 0 ∧ (entry [] ++ [0]).length ≠ 64 ∧ (ringOf 4 (ring 2 sq up)).st ≠ .active ∧
    (ringOf 3 (ring 3 cq up)).typ ≠ 0 ∧ (ringOf 2 (ring 2 { sq with pushEn := false } up)).pushEn = false ∧
    ringIn 0 262143 up = true ∧ (ringOf 262143 up).st = .free ∧
    (ringOf 2 (ring 2 { sq with st := .draining } up)).st = .draining ∧ (ringOf 2 (ring 2 { sq with st := .idle } up)).st = .idle := by
  decide

theorem witness_FetchAndCoalesce :
    (∀ st ∈ [RingSt.active, .draining],
     let s := ring 2 { sq with st := st, reading := [0xFFFFFFF8] } up
     let v := ringOf 2 s
     (ringOf (2 : Fin 262144).val s).reading.contains (0xFFFFFFF8 : Dword).toNat = true ∧ v.st = st ∧
      ringPort 2 (setRing 2 { v with reading := [], fetched := tset v.fetched 0xFFFFFFF8 [] } s) = ringPort 2 s) ∧
    (let x : Cmd := { begun 0x02 [(12, [4]), (32, [1])] with ph := .list }
     let d : List Byte := [0, 0, 1, 0, 0, 0, 0, 0, 0, 0x40, 0, 0, 0, 0, 0, 0]
     cmdOf 5 (holding x up) = some x ∧ x.ph = .list ∧ x.src = .ring 2 ∧
      parseList (decide (0x80 ≤ x.opcode)) x.entry d = some [(0x10000, 0x4000)] ∧
      parseList (decide (0x80 ≤ x.opcode)) x.entry (d.drop 1) = none) ∧
    (let v := ringOf 3 (ring 3 cq up)
     v.st = .active ∧ v.typ ≠ 0 ∧ v.intEn = true ∧ v.coalTime ≠ 0 ∧ v.unsignalled ≠ 0) ∧
    let s := ring 2 { sq with st := .draining, drainTail := 0xFFFFFFF8 } up
    drainDone (ringOf (2 : Fin 262144).val s) = true ∧ (getPort (ringPort 2 s) s).adminDraining = false := by decide

/-- A descriptor of a submission ring of 16 entries at 0x40000, bound to ring 3. -/
def sqDesc : List Byte := (entry [(1, [0, 4]), (8, [4, 0, 1]), (12, [3])]).take 32

/-- Rings 2 and 3. -/
def ringsWith (v : Ring) : State := { up with rings := [(2, v), (3, cq)] }

theorem witness_RingAdministration :
    (let s := admin 0x81 [(40, [4])] (ringsWith sq)
     let x := begun 0x81 [(40, [4])]
     adminNow 0x81 s = some (5, x) ∧ createReason x.port (arg x 40 4) (adminIn x sqDesc) s = none) ∧
    (let s := admin 0x81 [] (ringsWith sq)
     let x := begun 0x81 []
     adminNow 0x81 s = some (5, x) ∧ createReason x.port (arg x 40 4) (adminIn x sqDesc) s = some 0x0101) ∧
    (∀ op ∈ [0x82, 0x83, 0x84, 0x85], ∀ r ∈ [2, 3], ∀ s : State,
      adminNow op (admin op [(40, [r])] s) = some (5, begun op [(40, [r])])) ∧
    (∀ op ∈ [0x82, 0x83, 0x84, 0x85], arg (begun op [(40, [2])]) 40 4 = 2 ∧ arg (begun op [(40, [3])]) 40 4 = 3) ∧
    (∀ st ∈ [RingSt.active, .error, .idle],
      let s := ringsWith { sq with st := st }
      ringNamed 0 2 s = true ∧ (ringOf 2 s).st = st ∧ (ringOf 2 s).typ = 0) ∧
    (∀ st ∈ [RingSt.active, .error, .idle],
      let s : State := { up with rings := [(2, { sq with st := .idle }), (3, { cq with st := st })] }
      ringNamed 0 3 s = true ∧ (ringOf 3 s).st = st ∧ (ringOf 3 s).typ ≠ 0 ∧ bindsIdle 3 s = true) ∧
    (ringOf 3 { up with rings := [(3, { cq with st := .idle, typ := 2 })] }).typ = 2 ∧
    adminNow 0x85 (admin 0x85 [(40, [2]), (44, [0x34, 0x12])] (ringsWith sqFull)) =
      some (5, begun 0x85 [(40, [2]), (44, [0x34, 0x12])]) ∧
    (∀ i ∈ outstanding sqFull, (entryOf sqFull i).isSome = true) ∧ abortMatches sqFull 0x1234 = [0xFFFFFFF8] ∧
    ∃ i ∈ outstanding sq, (entryOf sq i).isSome = false := by
  refine ⟨⟨adminNow_admin _ _ _ (by decide), ?_⟩, ⟨adminNow_admin _ _ _ (by decide), ?_⟩,
    fun op h _ _ s => adminNow_admin _ _ _ ?_, ?_, ?_, ?_, ?_, adminNow_admin _ _ _ (by decide), ?_, ?_, 0xFFFFFFF8, ?_, ?_⟩
  · decide +kernel
  · decide +kernel
  · revert op; decide
  · decide +kernel
  · decide +kernel
  · decide +kernel
  · decide +kernel
  · have h : (outstanding sqFull).all (fun i => (entryOf sqFull i).isSome) = true := by decide +kernel
    exact fun i m => List.all_eq_true.mp h i m
  · decide +kernel
  · decide +kernel
  · decide +kernel

theorem witness_PortRegistersAct :
    barUp (0 : Fin 2).val up = true ∧ up.dev.ready = true ∧ (2047 : Fin 2048).val < vectors 0 up ∧
    (let v : Word := 0xCC1
     let q := getPort 0 up
     v.getLsbD 0 = true ∧ q.en = false ∧ q.adminDraining = false ∧ 4 ≤ fld v.toNat 7 4 ∧ fld v.toNat 7 4 ≤ 12 ∧
      4 ≤ fld v.toNat 11 8 ∧ fld v.toNat 11 8 ≤ 12) ∧
    fld (0x441 : Word).toNat 7 4 = 4 ∧ fld (0x431 : Word).toNat 7 4 < 4 ∧ 12 < fld (0x4D1 : Word).toNat 7 4 ∧
    fld (0x341 : Word).toNat 11 8 < 4 ∧ 12 < fld (0xD41 : Word).toNat 11 8 ∧
    ({ up.port0 with adminDraining := true } : Port).adminDraining = true ∧
    (let s : State := { up with dev := { up.dev with ready := false } }
     barUp 0 s = true ∧ (getPort 0 s).en = false ∧ s.dev.ready = false) ∧
    (∀ b : Bool,
     let s : State := { up with port0 := { up.port0 with en := true, enPending := b } }
     barUp 0 s = true ∧ (0x440 : Word).getLsbD 0 = false ∧ (getPort 0 s).en = true ∧ (getPort 0 s).enPending = b ∧
      (0x441 : Word).getLsbD 0 = (getPort 0 s).en) ∧
    (0x440 : Word).getLsbD 0 = (getPort 0 up).en := by decide

/-- An instruction word by its fields (03 R88). -/
def word (op sub ds sa sb ba bb imm : Nat) : Word :=
  BitVec.ofNat 64 (((((((op * 16 + sub) * 16 + ds) * 16 + sa) * 16 + sb) * 32 + ba) * 32 + bb) * 2 ^ 32 + imm)

/-- A running context of operation 7 over four words, with slots and handles of several kinds. -/
def ctx5 : Ctx :=
  { op := 7, run := .running, pc := 0, extStart := 0, extLen := 4, scratch := 100,
    slots := [(4, 1), (5, 3), (8, 2), (9, 8), (10, 4), (11, 7)],
    handles := [(0, { kind := .host, first := 0, count := 2, mask := 3, tagged := true }),
                (1, { kind := .scratch, first := 0, count := 2, mask := 4 }),
                (2, { kind := .scratch, first := 0, count := 2, mask := 3 })] }

/-- Core 0 with a word at the program counter of operation 7's context, over a table. -/
def onCoreOf (t : PlanTab) (o : Op) (w : Word) (x : Ctx) : State :=
  { up with
    plan := { up.plan with tab := some { t with program := [w, word 0x11 0 0 0 0 0 0 0] } }
    pipe := { up.pipe with ops := [(7, o)], ctxs := [(0, x)] }
    jnl := { up.jnl with own := [(2, { positions := 3, st := 1 })] } }

/-- The operation of `onCore`. -/
def opRun : Op := { op5 with st := .program, ctx := some 0 }

/-- The same with a WRITE of the host under way. -/
def onCore (w : Word) (x : Ctx) : State := onCoreOf plan1 opRun w x

/-- Whether the context ready0 `AboutTo` in `onCoreOf`. -/
def ready0 (t : PlanTab) (o : Op) (w : Word) (x : Ctx) : Bool :=
  nextCtx 0 (onCoreOf t o w x) == some 0 && x.op == 7 && x.issued == 0 && fetchWord x (onCoreOf t o w x) == some w &&
  (insOf w).fieldsOk && (!(insOf w).hasDs || !x.pend (insOf w).ds)

theorem aboutTo_of_fits {t : PlanTab} {o : Op} {w : Word} {x : Ctx} (h : ready0 t o w x = true) :
    AboutTo 0 0 x o w (onCoreOf t o w x) := by
  simp only [ready0, Bool.and_eq_true, beq_iff_eq, Bool.or_eq_true, Bool.not_eq_true'] at h
  obtain ⟨⟨⟨⟨⟨h1, h2⟩, h3⟩, h4⟩, h5⟩, h6⟩ := h
  refine ⟨rfl, h1, rfl, by rw [h2]; rfl, h4, by omega, h5, fun h => ?_⟩
  rcases h6 with h6 | h6
  · rw [h] at h6; cases h6
  · exact h6

/-- Contexts of an operation about to issue words, as lists of both. -/
def aboutOf (t : PlanTab) (o : Op) (l : List (Word × Ctx)) : Prop := ∀ e ∈ l, AboutTo 0 0 e.2 o e.1 (onCoreOf t o e.1 e.2)

theorem aboutOf_of_all {t : PlanTab} {o : Op} {l : List (Word × Ctx)} (h : l.all (fun e => ready0 t o e.1 e.2) = true) :
    aboutOf t o l := fun e m => aboutTo_of_fits (List.all_eq_true.mp h e m)

/-- The same of the operation of `onCore`. -/
def about (l : List (Word × Ctx)) : Prop := aboutOf plan1 opRun l

theorem about_of_all {l : List (Word × Ctx)} (h : l.all (fun e => ready0 plan1 opRun e.1 e.2) = true) : about l := aboutOf_of_all h

/-- `ctx5` with some calls open. -/
def calls (n : Nat) : Ctx := { ctx5 with stack := List.replicate n (1, 0, 4) }

theorem witness_BranchesFollowTheirTest :
    about [(word 0x0A 0 0 0 0 0 0 3, ctx5), (word 0x0B 1 0 4 5 0 0 0, ctx5), (word 0x0B 0 0 6 0 0 0 0, ctx5),
           (word 0x0C 0 0 4 0 0 0 1, ctx5), (word 0x0A 0 0 0 0 0 0 4, ctx5), (word 0x0B 0 0 0 0 0 0 4, ctx5),
           (word 0x0C 0 0 0 0 0 0 4, ctx5)] ∧
    (insOf (word 0x0A 0 0 0 0 0 0 3)).op = 0x0A ∧ inExtent ctx5 3 = true ∧ inExtent ctx5 4 = false ∧
    (insOf (word 0x0B 1 0 4 5 0 0 0)).op = 0x0B ∧ (insOf (word 0x0B 1 0 4 5 0 0 0)).low = true ∧
    ctx5.sl 4 &&& ctx5.sl 5 = 1 ∧ ctx5.sl 6 = 0 ∧ (insOf (word 0x0C 0 0 4 0 0 0 1)).op = 0x0C :=
  ⟨about_of_all (by decide +kernel), by decide +kernel⟩

theorem witness_CallsReturnsWaitsAndNops :
    about [(word 0x0D 0 0 0 0 0 0 2, calls 3), (word 0x0D 0 0 0 0 0 0 2, calls 4), (word 0x0E 0 0 0 0 0 0 0, calls 1),
           (word 0x0E 0 0 0 0 0 0 0, calls 0), (word 0x09 0 0 0 0 0 0 0, ctx5), (word 0x11 0 0 0 0 0 0 0, ctx5)] ∧
    (insOf (word 0x0D 0 0 0 0 0 0 2)).op = 0x0D ∧ (calls 3).stack.length < 4 ∧ 4 ≤ (calls 4).stack.length ∧
    (insOf (word 0x0E 0 0 0 0 0 0 0)).op = 0x0E ∧ (calls 1).stack = [(1, 0, 4)] ∧ (calls 0).stack = [] ∧
    (insOf (word 0x09 0 0 0 0 0 0 0)).op = 0x09 ∧ (insOf (word 0x11 0 0 0 0 0 0 0)).op = 0x11 :=
  ⟨about_of_all (by decide +kernel), by decide +kernel⟩

/-- The table of `plan1` with three parity strips, of rows 1, 1; 1, 2; 1, 3. -/
def plan3 : PlanTab :=
  { plan1 with geoms := [(0, { k := 2, m := 3, shift := 2 })], coeff := [(0, [1, 1, 1, 2, 1, 3])] }

theorem witness_StageInstructionsSetPending :
    about [(word 0x01 0 7 0 0 0 0 1, ctx5), (word 0x01 1 7 0 0 0 0 1, ctx5), (word 0x01 2 7 0 0 0 0 1, ctx5),
           (word 0x01 5 7 0 0 0 0 1, ctx5), (word 0x01 3 7 8 0 0 0 0, ctx5), (word 0x01 3 7 5 0 0 0 0, ctx5),
           (word 0x01 4 7 9 0 0 0 0, ctx5), (word 0x01 4 7 5 0 0 0 0, ctx5), (word 0x04 0 7 0 0 0 1 0, ctx5),
           (word 0x04 0 7 0 0 0 2 0, ctx5), (word 0x04 8 7 10 0 0 3 0, ctx5), (word 0x04 0 7 0 0 5 1 0, ctx5),
           (word 0x05 0 7 0 0 0 2 0, ctx5), (word 0x05 0 7 0 0 0 1 0, ctx5), (word 0x05 0 7 0 0 0 5 0, ctx5),
           (word 0x06 0 7 0 0 0 0 0, ctx5), (word 0x06 0 7 0 0 5 0 0, ctx5),
           (word 0x08 0 7 0 0 0 0 0, { ctx5 with jnl := some 2 }), (word 0x08 0 7 0 0 0 0 0, ctx5)] ∧
    aboutOf plan3 opRun [(word 0x01 4 7 11 0 0 0 0, ctx5)] ∧
    ([0, 1, 2, 3, 4, 5].all (fun n =>
      (insOf (word 0x01 n 7 0 0 0 0 1)).op == 1 && (insOf (word 0x01 n 7 0 0 0 0 1)).sub == n)) = true ∧
    (let s := onCore 0 ctx5
     let g := geomOf opRun.pool s
     (ctx5.sl 8).toNat % 64 < g.w ∧ g.w ≤ (ctx5.sl 5).toNat % 64 ∧ beyondW g (ctx5.sl 9) = true ∧
      beyondW g (ctx5.sl 5) = false ∧ pop (ctx5.sl 5) < 3 ∧
      gmxCheck 0 g ctx5.sch (ctx5.h 0) (ctx5.h 1) = none ∧ gmxCheck 0 g ctx5.sch (ctx5.h 0) (ctx5.h 2) = some 7) ∧
    (let s := onCoreOf plan3 opRun 0 ctx5
     let v := ctx5.sl 11
     beyondW (geomOf opRun.pool s) v = false ∧ 3 ≤ pop v ∧ pop v ≤ (geomOf opRun.pool s).m ∧
      (findSched opRun.pool v s == .missing) = true ∧
      (findSched opRun.pool v { s with plan := { s.plan with cache := [(schedKey 0 v, { record := [] })] } } == .missing) = false) ∧
    (let i := insOf (word 0x04 0 7 0 0 0 1 0); i.op = 0x04 ∧ i.isDef = false ∧ i.ba = 0 ∧ i.bb = 1) ∧
    (let i := insOf (word 0x04 8 7 10 0 0 3 0)
     i.op = 0x04 ∧ i.isDef = true ∧ i.ba = 0 ∧ i.bb = 3 ∧ i.sa = 10 ∧ beyondW (geomOf 0 (onCore 0 ctx5)) (ctx5.sl 10) = false ∧
      ((defHandle ctx5 3 4 0 2 (served 0 0 (onCore 0 ctx5))).toOption.map (fun d =>
        let y := { ctx5 with handles := tset ctx5.handles 3 d.1 }
        gmxCheck 0 (geomOf 0 (onCore 0 ctx5)) y.sch (y.h 0) (y.h 3))) = some none) ∧
    (ctx5.h 0).kind = .host ∧ (ctx5.h 1).kind = .scratch ∧ (ctx5.h 2).kind = .scratch ∧ (ctx5.h 5).kind = .none ∧
    (insOf (word 0x05 0 7 0 0 0 2 0)).op = 0x05 ∧ (ctx5.h 0).mask = (ctx5.h 2).mask ∧ (ctx5.h 0).mask ≠ (ctx5.h 1).mask ∧
    (ctx5.h 0).first = (ctx5.h 2).first ∧ (ctx5.h 0).count = (ctx5.h 2).count ∧
    (insOf (word 0x06 0 7 0 0 0 0 0)).op = 0x06 ∧ (insOf (word 0x08 0 7 0 0 0 0 0)).op = 0x08 :=
  ⟨about_of_all (by decide +kernel), aboutOf_of_all (by decide +kernel), by decide +kernel⟩

/-- `ctx5` with position 0 erased. -/
def erased0 : Ctx := { ctx5 with slots := (3, 1) :: ctx5.slots }

/-- A context with an open entry that covers positions 0 and 1. -/
def opened (x : Ctx) : Ctx := { x with jnl := some 2 }

theorem witness_MemberInstructionsLaunch :
    about [(word 0x02 0 7 5 0 0 0 0, ctx5), (word 0x02 8 7 5 0 3 0 0, ctx5), (word 0x02 0 7 9 0 0 0 0, ctx5),
           (word 0x02 0 7 5 0 5 0 0, ctx5), (word 0x02 0 7 5 0 0 0 0, erased0),
           (word 0x03 0 7 5 0 0 0 0, opened ctx5), (word 0x03 0 7 5 0 5 0 0, opened ctx5), (word 0x03 0 7 9 0 0 0 0, opened ctx5),
           (word 0x03 0 7 5 0 2 0 0, opened ctx5), (word 0x03 0 7 5 0 0 0 0, ctx5), (word 0x03 0 7 5 0 0 0 0, opened erased0),
           (word 0x07 0 7 5 4 0 0 0, ctx5), (word 0x07 0 7 5 4 0 0 0, opened ctx5), (word 0x07 0 7 5 4 5 0 0, ctx5),
           (word 0x07 0 7 9 4 0 0 0, ctx5)] ∧
    aboutOf plan1 { opRun with kind := 0 } [(word 0x03 0 7 5 0 0 0 0, opened ctx5), (word 0x07 0 7 5 4 0 0 0, ctx5)] ∧
    aboutOf plan1 { opRun with kind := 3 } [(word 0x03 0 7 5 0 0 0 0, opened erased0)] ∧
    (let i := insOf (word 0x02 0 7 5 0 0 0 0); i.op = 0x02 ∧ i.isDef = false ∧ i.ba = 0 ∧ i.sa = 5) ∧
    (let i := insOf (word 0x02 8 7 5 0 3 0 0); i.op = 0x02 ∧ i.isDef = true ∧ i.ba = 3 ∧ i.bb = 0 ∧ i.sa = 5) ∧
    (let i := insOf (word 0x03 0 7 5 0 0 0 0); i.op = 0x03 ∧ i.ba = 0 ∧ i.sa = 5) ∧
    (let i := insOf (word 0x07 0 7 5 4 0 0 0); i.op = 0x07 ∧ i.ba = 0 ∧ i.sa = 5 ∧ i.sb = 4) ∧
    let s := onCore 0 ctx5
    let g := geomOf opRun.pool s
    let h := ctx5.h 0
    let v := ctx5.sl 5
    beyondW g v = false ∧ beyondW g (ctx5.sl 9) = true ∧ h.kind = .host ∧ (ctx5.h 5).kind = .none ∧
    v &&& h.mask &&& ctx5.sl 3 = 0 ∧ v &&& h.mask &&& erased0.sl 3 ≠ 0 ∧
    (match defHandle ctx5 3 v h.first h.count (served 0 0 s) with | .ok _ => true | .error _ => false) = true ∧
    mayIssueWrite ctx5 opRun s = true ∧ mayIssueWrite ctx5 { opRun with kind := 0 } s = false ∧ h.tagged = true ∧
    (ctx5.h 2).tagged = false ∧ sub (v &&& h.mask) (tgetD s.jnl.own 2 {}).positions = true ∧
    v &&& h.mask &&& erased0.sl 3 &&& ~~~ (erased0.sl 5) = 0 ∧ v &&& h.mask &&& erased0.sl 3 &&& ~~~ 0 ≠ 0 ∧
    commitsRefused s = false ∧ commitsRefused { s with pow := { s.pow with coldStop := true } } = true ∧
    ctx5.jnl = none ∧ ctx5.flying 0x07 = false ∧ beyondW g (v ||| ctx5.sl 4) = false ∧ beyondW g (ctx5.sl 9 ||| ctx5.sl 4) = true :=
  ⟨about_of_all (by decide +kernel), aboutOf_of_all (by decide +kernel), aboutOf_of_all (by decide +kernel), by decide +kernel⟩

theorem witness_ProgramsEnd :
    about ([0, 0x0101, 0x0104, 0x0102, 0x0005].map (fun n => (word 0x0F 1 0 5 0 0 0 n, ctx5)) ++
           [(word 0x0F 0 0 0 0 0 0 0x0104, ctx5), (word 0x0F 0 0 0 0 0 0 0, opened ctx5), (word 0x10 0 0 5 0 0 0 2, ctx5),
            (word 0x10 0 0 5 0 0 0 1, ctx5), (word 0x10 0 0 9 0 0 0 1, ctx5), (word 0x10 0 0 5 0 0 0 3, erased0),
            (word 0x10 0 0 5 0 0 0 3, opened erased0), (word 0x10 0 0 9 0 0 0 3, ctx5), (word 0x10 0 0 4 0 0 0 3, erased0),
            (word 0x10 0 0 5 0 0 0 4, ctx5), (word 0x10 0 0 5 0 0 0 0, ctx5)]) ∧
    aboutOf plan1 { opRun with kind := 6 } [(word 0x0F 1 0 5 0 0 0 0x0102, ctx5)] ∧
    ([0, 0x0101, 0x0104, 0x0102, 5].all (fun n => (insOf (word 0x0F 1 0 5 0 0 0 n)).op == 0x0F &&
      (insOf (word 0x0F 1 0 5 0 0 0 n)).imm % 65536 == n)) = true ∧ opRun.kind ≠ 6 ∧ ctx5.jnl = none ∧
    (opened ctx5).jnl.isSome = true ∧ ctx5.flying 0x07 = false ∧
    ([0, 1, 2, 3, 4].all (fun n => (insOf (word 0x10 0 0 5 0 0 0 n)).op == 0x10 &&
      (insOf (word 0x10 0 0 5 0 0 0 n)).imm % 65536 == n && (insOf (word 0x10 0 0 5 0 0 0 n)).sa == 5)) = true ∧
    let g := geomOf opRun.pool (onCore 0 ctx5)
    beyondW g (ctx5.sl 5) = false ∧ beyondW g (ctx5.sl 9) = true ∧ erased0.sl 5 &&& ~~~ erased0.sl 3 ≠ 0 ∧
    erased0.sl 4 &&& ~~~ erased0.sl 3 = 0 :=
  ⟨about_of_all (by decide +kernel), aboutOf_of_all (by decide +kernel), by decide +kernel⟩

/-- `ctx5` with an instruction in flight to slot 7. -/
def flightOf (f : Inflight) : Ctx := { ctx5 with pending := 0x80, inflight := [(7, f)] }

/-- The same by the instruction's word. -/
def flight (w : Word) : Ctx := flightOf { word := w }

/-- Instructions in flight, one for each clause of `ResultsAreWritten`. -/
def flights : List Inflight :=
  [(0x01, 0), (0x01, 1), (0x01, 2), (0x01, 3), (0x01, 5), (0x06, 0), (0x06, 2), (0x06, 3), (0x06, 4), (0x05, 0), (0x04, 0),
   (0x04, 1), (0x04, 2)].map (fun e => { word := word e.1 e.2 7 0 0 0 2 0 }) ++
  [{ word := word 0x02 0 7 5 0 0 0 0, jobs := [(0, { left := 0 }), (1, { left := 0, fail := true })] },
   { word := word 0x03 0 7 5 0 0 0 0, jobs := [(1, { left := 0 })] },
   { word := word 0x07 0 7 5 4 0 0 0, jnl := some 3 }, { word := word 0x07 0 7 5 4 0 0 0 }, { word := word 0x08 0 7 0 0 0 0 0 }]

theorem witness_ResultsAreWritten :
    (flights.all (fun f =>
      let x := opened (flightOf f)
      let s := onCore f.word x
      ctxOf (0 : Fin 1024).val s == some x && opOf x.op s == some opRun && tget x.inflight (7 : Fin 16).val == some f &&
        x.run == .running && x.pend 7 && !servedBefore (0 : Fin 1024).val f s)) = true ∧
    flights.map (fun f => ((insOf f.word).op, (insOf f.word).sub)) =
      [(1, 0), (1, 1), (1, 2), (1, 3), (1, 5), (6, 0), (6, 2), (6, 3), (6, 4), (5, 0), (4, 0), (4, 1), (4, 2), (2, 0), (3, 0),
       (7, 0), (7, 0), (8, 0)] ∧
    (flights[13]?.map jobsDone, flights[14]?.map jobsDone) = (some true, some true) ∧
    flights[15]?.map (·.jnl) = some (some 3) ∧ flights[16]?.map (·.jnl) = some none ∧
    jnlDurable (0 : Fin 1024).val none (onCore 0 (flightOf {})) = true ∧ (opened (flightOf {})).jnl = some 2 := by
  decide +kernel

/-- `plan1` beside a second geometry of k = 2, m = 2, whose parity rows are 1, 1 and 1, 2. -/
def plan2 : State :=
  { up with plan := { up.plan with
    tab := some { plan1 with geoms := [(0, { k := 2, m := 1, shift := 2 }), (1, { k := 2, m := 2, shift := 2 })],
                             coeff := [(0, [1, 1]), (1, [1, 1, 1, 2])] },
    queue := [{ geom := 1, erased := 3, since := 5 }] } }

/-- The schedule for positions 0 and 1 erased, worked out by hand (04 R128, 02 R44): position 2 is d0 + d1, position 3 is
d0 + 2 d1, so d1 = (s2 + s3) / 3 and d0 = d1 + s2; 1 / 3 is 0xF4, since 3 times 0xF4 is 0xF4 + 0xF5 = 1. -/
def sched3 : Sched := { erased := 3, sources := 12, rows := [[0xF5, 0xF4], [0xF4, 0xF4]] }

/-- `plan2` without pools, its DRAM fenced, with a cache that has no slot left. -/
def plan2Full : State :=
  { plan2 with
    dev := { up.dev with dramFence := 0xFFFF }
    plan := { plan2.plan with
      tab := plan2.plan.tab.map (fun t => { t with pools := [] })
      cache := (List.range 819).map (fun n => (2 ^ 70 + n, { record := [], lastUse := n + 1 })) } }

theorem witness_PlanEngineAndStores :
    (let r : SchedReq := { geom := 1, erased := 3, since := 5 }
     plan2.plan.queue = [r] ∧ geomRow r.geom plan2 = some ({ k := 2, m := 2, shift := 2 }, [1, 1, 1, 2]) ∧
      makeSched { k := 2, m := 2, shift := 2 } [1, 1, 1, 2] r.erased = some sched3 ∧ plan2.plan.cache.length < schedSlots plan2 ∧
      plan2.plan.queue.find? (fun q => q.geom == (1 : Fin 16).val && q.erased == 3) = some r ∧ r.raised = false ∧
      ({ r with raised := true } : SchedReq).raised = true) ∧
    (let e : Nat × SchedSlot := (2 ^ 70, { record := [], lastUse := 1 })
     schedSlots plan2Full ≤ plan2Full.plan.cache.length ∧
      leastBy (fun (e : Nat × SchedSlot) => e.2.lastUse) (plan2Full.plan.cache.filter (fun e => !slotPinned e.1 plan2Full)) = some e) ∧
    (let f : Inflight := { word := word 0x02 1 7 5 0 0 0 0, jobs := [(0, { left := 1 })] }
     let x := { ctx5 with inflight := [(7, f)] }
     let m : MCmd := { port := 0, owner := .rd 0 7 0 0 2 }
     let s : State := { onCore 0 x with mem := { up.mem with cmds := [(9, m)] } }
     ctxOf (0 : Fin 1024).val s = some x ∧ opOf x.op s = some opRun ∧ tget x.inflight (7 : Fin 16).val = some f ∧
      (insOf f.word).op = 0x02 ∧ (insOf f.word).low = true ∧ (tgetD f.jobs 0 {}).left ≠ 0 ∧ (tgetD f.jobs 0 {}).fail = false ∧
      (tgetD f.jobs 0 {}).late = false ∧ s.mem.cmds.find? (fun e => readsFor 0 7 0 e.2.owner) = some (9, m) ∧
      pop (x.sl 3) + (f.jobs.filter (·.2.late)).length + 1 ≤ (geomOf opRun.pool s).m) ∧
    let p : Premark := { id := 1, ctx := 3, since := 10, left := [(0, 4)] }
    let s : State := { up with jnl := { up.jnl with premarks := [p] } }
    s.jnl.premarks.find? (fun p => p.ctx == (3 : Fin 1024).val && !p.left.isEmpty) = some p := by decide +kernel

/-- The sector 0 of row 5 of pool 0 dirty in way 0 of its line's set since 7 µs. -/
def dirty5 : State :=
  let x := Machine.setOf 0 (lineOf 0 5 0 0 up).1 * 16
  { up with cache := { up.cache with tags := [(x, { valid := 1 <<< (lineOf 0 5 0 0 up).2, dirty := 1 <<< (lineOf 0 5 0 0 up).2 })],
                                     shadow := [(x, { dirty := 1 <<< (lineOf 0 5 0 0 up).2 })],
                                     since := [(secKey x (lineOf 0 5 0 0 up).2, 7)],
                                     retry := [(sliceKey 0 5 0, { due := 2000 })] } }

theorem witness_EvictionsAndAllocations :
    (∀ e ∈ [({ ops := [7] } : Evict), { ended := true }, { ended := true, ops := [7], waiter := some 3 }, {}, { waiter := some 3 },
            { attached := true }, { failed := true, waiter := some 3 }],
     let s : State := { up with cache := { up.cache with tags := [(35, { valid := 1, evicting := true })], evict := [(35, e)] } }
     tget s.cache.evict ((2 : Fin 65536).val * 16 + (3 : Fin 16).val) = some e ∧ (tagAt 35 s).valid &&& (tagAt 35 s).dirty = 0) ∧
    (tagAt 35 { up with cache := { up.cache with tags := [(35, { valid := 3, dirty := 2 })] } }).valid &&&
      (tagAt 35 { up with cache := { up.cache with tags := [(35, { valid := 3, dirty := 2 })] } }).dirty ≠ 0 ∧
    (let op : Op := { op5 with st := .alloc 9, secs := [0] }
     let s := opState op up
     s.pipe.ops = [(7, op)] ∧ op.st = .alloc 9 ∧ needsSet op (Machine.setOf 0 (lineOf 0 5 0 0 up).1) s = true ∧
      Machine.setOf 0 (lineOf 0 5 0 0 up).1 < 65536 ∧ opOf 7 s = some op) := by decide +kernel

theorem witness_DestagesByAgeAndAgain : oldestOf (0 : Fin 8).val 5 0 dirty5 = some 7 ∧ oldestOf (0 : Fin 8).val 5 0 up = none ∧
    tget dirty5.cache.retry (sliceKey (0 : Fin 8).val 5 0) = some { due := 2000 } ∧
    tget up.cache.retry (sliceKey (0 : Fin 8).val 5 0) = none := by decide +kernel

theorem witness_ScrubErrors :
    (let s : State := { up with cache := { up.cache with tags := [(35, { valid := 3, dirty := 2 })] } }
     let t := tagAt 35 s
     t.dirty.getLsbD 0 = false ∧ t.valid.getLsbD 0 = true ∧ t.dirty.getLsbD 1 = true ∧ t.valid.getLsbD 1 = true ∧
      owns t.pool s = true ∧ s.cache.lostW.length < lostWMax) ∧
    (∀ u : Bool, ({ set := 2, way := 3, sector := 15, uncorrectable := u } : DramErr).uncorrectable = u) ∧
    (∀ a b : Bool, let g : TagErr := { set := 2, way := 3, shadowBad := a, tagGood := b }; g.tagGood = b ∧ g.shadowBad = a) ∧
    tget up.cache.shadow 35 = none ∧
    (let h : Shadow := { dirty := 0x8000 }
     let s : State := { up with cache := { up.cache with shadow := [(35, h)] } }
     tget s.cache.shadow 35 = some h ∧ s.cache.tagErrs = []) ∧ up.cache.tagErrs = [] := by decide

theorem witness_RegionsAndCheckpoints : (up.jnl.restorePools = [] ∧ ckptRuns up = false) ∧
    ({ up with jnl.restorePools := [0] } : State).jnl.restorePools ≠ [] ∧
    (let s : State := { up with jnl.anchors := [(0, { fresh := false }), (3, { stage := 2 })] }
     s.jnl.restorePools = [] ∧ ckptRuns s = true) ∧
    ckptRuns { up with jnl.anchors := [(0, { fresh := false }), (3, {})] } = false := by decide

theorem witness_CacheRegisterCommands :
    (barUp 0 up = true ∧ up.dev.ready = true ∧ (∀ k : Fin 16, some (14 : Fin 16) = some k → k.val < 15) ∧
      waysLeft (tset up.cache.ways 14 1) up.cache.lock = true ∧ waysLeft (tset up.cache.ways 14 0) up.cache.lock = false ∧
      waysLeft up.cache.ways 0x7FFF = true ∧ waysLeft up.cache.ways 0xFFFF = false ∧ commitsRefused up = false ∧
      (15 : Fin 16).val = 15 ∧ up.led.unnamedLoss = false) ∧
    (let s : State := { up with led := { up.led with unnamedLoss := true } }
     s.led.unnamedLoss = true ∧ commitsRefused s = false ∧ barUp 0 s = true) ∧
    (let s : State := { up with led := { up.led with unnamedLoss := true }, pow := { up.pow with coldStop := true } }
     commitsRefused s = true ∧ barUp 0 s = true ∧ s.dev.ready = true) ∧
    up.cache.invBusy = false ∧ ({ up.cache with invBusy := true } : CacheSt).invBusy = true ∧
    (0x100000002 : Word).getLsbD 32 = true ∧ (0x2 : Word).getLsbD 32 = false ∧
    (invSecs up.cache.invVol up.cache.invLba (fld (0x1000003E8 : Word).toNat 16 0) up).isSome = true ∧
    invSecs up.cache.invVol up.cache.invLba (fld (0x1000003E9 : Word).toNat 16 0) up = none := by
  decide +kernel

/-- A blank member of 100,000 blocks. -/
def blankId : MemberId :=
  { lbaSize := 4096, metaSize := 8, capacity := 100000, width := 0, zeroOnDealloc := true, reservations := true,
    labelA := [], labelB := [] }

/-- The ports of `plan1`: members in slots 0 to 2, and a blank one at port 3. -/
def ports4 : Tbl MPort :=
  [(0, { cls := .serving 0 0, present := true, linkUp := true, id := some blankId }),
   (1, { cls := .serving 0 1, present := true, linkUp := true, id := some blankId }),
   (2, { cls := .serving 0 2, present := true, linkUp := true, id := some blankId }),
   (3, { cls := .foreign 2, present := true, linkUp := true, id := some blankId })]

/-- A module whose slot 1 is as given; slots 0 and 2 are ONLINE, slot 3 is FAILED. -/
def members (r : SlotRec) (cmds : Tbl MCmd) : State :=
  { up with mem := { up.mem with
      ports := ports4, cmds := cmds, nextTag := 100,
      pools := [(0, { serial := 7, n := 4, slots :=
        [(0, { st := .online, port := some 0, labelGen := 2 }), (1, r), (2, { st := .online, port := some 2, labelGen := 2 }),
         (3, { st := .failed, reason := 4, labelGen := 3 })] })] } }

/-- Slot 1 ONLINE. -/
def online1 : SlotRec := { st := .online, port := some 1, labelGen := 2 }

/-- A state, with its pool the pool of a pair that this module does not own. -/
def inPair (s : State) : State :=
  { s with led := paired.led, pair := paired.pair,
           plan := { s.plan with tab := s.plan.tab.map (fun t => { t with pools := t.pools.map (fun e => (e.1, { e.2 with dual := true })) }) } }

/-- The same with a pool that this module owns. -/
def ownPair (s : State) : State :=
  { inPair s with mem := { s.mem with pools := s.mem.pools.map (fun e => (e.1, { e.2 with owner := 1 })) } }

theorem witness_SlotFailures :
    (let m : MCmd := { port := 1, slot := some (0, 1) }
     let s := members online1 [(9, m), (10, { m with dead := true }), (11, { port := 1 })]
     tget s.mem.cmds 9 = some m ∧ m.dead = false ∧ m.slot = some (0, 1) ∧ s.led.paired = false ∧
      tget s.mem.cmds 10 = some { m with dead := true } ∧ tget s.mem.cmds 11 = some { port := 1 } ∧
      ({ port := 1 } : MCmd).slot = none ∧ (inPair s).led.paired = true ∧ owns 0 (inPair s) = false ∧ owns 0 (ownPair s) = true ∧
      portSlot (1 : PortNo).val s = some (0, 1) ∧ (slotRec 0 1 s).port = some 1 ∧ owns 0 s = true ∧
      (slotRec 0 1 s).st.serving = true ∧ portSlot (4095 : PortNo).val s = none ∧ (mport (4095 : PortNo).val s).downAt = none) ∧
    (let s : State := { members online1 [] with mem := { (members online1 []).mem with
        ports := [(1, { downAt := some 40 }), (129, { downAt := some 40 })] } }
     (mport (1 : PortNo).val s).downAt = some 40 ∧ portSlot (1 : PortNo).val s = some (0, 1) ∧
      (mport (129 : PortNo).val s).downAt = some 40 ∧ portSlot (129 : PortNo).val s = none) ∧
    (let s := members { online1 with st := .failed, commitPending := true } []
     portSlot (1 : PortNo).val s = some ((0 : Fin 8).val, (1 : Fin 128).val) ∧ (slotRec 0 1 s).commitPending = true ∧
      poolPending 0 s = false ∧
      poolPending 0 { s with pair := { s.pair with joint := [{ r := poolShared 0 s }] } } = true) ∧
    (slotRec (0 : Fin 8).val (1 : Fin 128).val (members online1 [])).commitPending = false := by decide +kernel

theorem witness_MarksAndWindows :
    (let m : MCmd := { port := 1, slot := some (0, 1), issued := 5 }
     let s := members { online1 with st := .suspect, marks := [1, 2, 3] } [(9, m)]
     tget s.mem.cmds 9 = some m ∧ m.marked = false ∧ m.dead = false ∧ m.slot = some (0, 1) ∧ s.led.paired = false ∧
      ({ m with marked := true } : MCmd).marked = true ∧ ({ m with dead := true } : MCmd).dead = true ∧
      ({ m with slot := none } : MCmd).slot = none ∧ (inPair s).led.paired = true ∧ owns 0 (inPair s) = false ∧
      owns 0 (ownPair s) = true) ∧
    (let s := members online1 [(9, { port := 1, slot := some (0, 1) })]
     owns 0 s = true ∧ (slotRec 0 1 s).st = .online ∧ (slotRec 0 1 s).marks = [] ∧ 1 < (prof s).suspectCount) ∧
    let s := members { online1 with st := .suspect, marks := [4] } []
    owns (0 : Fin 8).val s = true ∧ (slotRec (0 : Fin 8).val (1 : Fin 128).val s).st = .suspect ∧
    (slotRec (0 : Fin 8).val (0 : Fin 128).val s).st ≠ .suspect ∧ owns 0 (inPair s) = false := by decide +kernel

theorem witness_MemberCompletions :
    (let f : Inflight := { word := word 0x03 0 7 5 0 0 0 0, jobs := [(0, { left := 2 })] }
     let m : MCmd := { port := 0, slot := some (0, 0), write := true, owner := .wr 0 7 0 0 2 none [] }
     let s : State := { onCore 0 { ctx5 with inflight := [(7, f)] } with mem := { up.mem with cmds := [(9, m)] } }
     tget s.mem.cmds 9 = some m ∧ m.dead = false ∧ m.owner = .wr 0 7 0 0 2 none [] ∧ inflightOf 0 7 s = some f ∧
      tget s.mem.cmds 8 = none) ∧
    (let m : MCmd := { port := 1, dead := true }
     tget (members online1 [(9, m)]).mem.cmds 9 = some m ∧ m.dead = true) ∧
    (let s := members { online1 with st := .failed } [(9, { port := 1, dead := true })]
     portSlot (1 : PortNo).val s = some (0, 1) ∧ (slotRec 0 1 s).st = .failed ∧ (slotRec 0 1 s).ccCleared = false ∧
      (s.mem.cmds.any (fun e => e.2.port == (1 : PortNo).val && e.2.dead)) = true) ∧
    (slotRec 0 1 (members online1 [])).st ≠ .failed ∧
    (slotRec 0 1 (members { online1 with st := .failed, ccCleared := true } [])).ccCleared = true ∧
    ((members { online1 with st := .failed } []).mem.cmds.any (fun e => e.2.port == (1 : PortNo).val && e.2.dead)) = false := by
  decide

/-- A frame that shows members at ports 0 to 3 alone: presence is active low. -/
def frame4 : BitVec 128 := ~~~ 0xF

/-- A member that carries the label of slot 1 of the pool, of a generation. -/
def labelled (gen : Nat) (retired : Bool) : MemberId :=
  { blankId with labelA := labelPage 0 1 gen retired (members online1 []) }

set_option maxRecDepth 100000 in
theorem labelled_classes :
    classify (1 : PortNo).val (labelled 2 false) (members { online1 with st := .absent, port := none } []) = .serving 0 1 ∧
    classify (1 : PortNo).val (labelled 1 false) (members { online1 with st := .absent, port := none } []) = .stale 0 1 ∧
    classify (1 : PortNo).val (labelled 2 true) (members { online1 with st := .absent, port := none } []) = .retired := by
  decide +kernel

theorem witness_PresenceAndDiscovery :
    (∀ ph ∈ [PwrPh.off, .tripped, .standby, .coldStopped],
      let s := power (fun p => { p with ph := ph })
      s.pow.ph = .off ∨ s.pow.ph = .tripped ∨ s.pow.ph = .standby ∨ s.pow.ph = .coldStopped) ∧
    (up.pow.ph ≠ .off ∧ up.pow.ph ≠ .tripped ∧ up.pow.ph ≠ .standby ∧ up.pow.ph ≠ .coldStopped) ∧
    (let s := members online1 []; ∀ q : Fin 128, (!frame4.getLsbD q.val) = (mport q.val s).present) ∧
    (let s : State := { members online1 [] with
        mem := { (members online1 []).mem with ports := ports4.take 3 ++ [(3, { agree := 9 })] } }
     frame4.getLsbD (3 : Fin 128).val = false ∧ (mport (3 : Fin 128).val s).present = false ∧
      (mport (3 : Fin 128).val s).agree = 9 ∧
      ∀ q : Fin 128, q ≠ 3 → (!frame4.getLsbD q.val) = (mport q.val s).present) ∧
    (let s : State := { members online1 [] with
        mem := { (members online1 []).mem with ports := ports4 ++ [(127, { present := true, agree := 9 })] } }
     frame4.getLsbD (127 : Fin 128).val = true ∧ (mport (127 : Fin 128).val s).present = true ∧
      (mport (127 : Fin 128).val s).agree = 9 ∧
      ∀ q : Fin 128, q ≠ 127 → (!frame4.getLsbD q.val) = (mport q.val s).present) ∧
    (classify (3 : PortNo).val blankId (members online1 []) = .foreign 2 ∧ offersAt 3 (members online1 []) = true ∧
      offersAt 4095 (members online1 []) = false ∧
      classify 3 { blankId with lbaSize := 512 } (members online1 []) = .foreign 1) ∧
    (let s := members { online1 with st := .absent, port := none } []
     let t : State := { s with mem := { s.mem with discoveryAt := some 60 } }
     t.mem.discoveryAt = some 60 ∧ (0 : Fin 8).val ∈ poolIds t ∧ discovering 0 t = true ∧ 1 ∈ heldSlots 0 t ∧
      (slotRec 0 1 t).st = .absent ∧ homedOn 0 1 t ≠ 0 ∧ owns 0 t = true) ∧ up.mem.discoveryAt = none ∧
    ∀ creation : Bool,
      let s := members { online1 with st := .rebuilding, prep := some creation } []
      portSlot (1 : PortNo).val s = some ((0 : Fin 8).val, 1) ∧ (slotRec (0 : Fin 8).val 1 s).prep = some creation ∧
      (slotRec 0 1 s).st ≠ .failed ∧ (slotRec 0 1 s).st = .rebuilding ∧
      (slotRec 0 1 (members { online1 with prep := some creation } [])).st ≠ .rebuilding := by
  decide +kernel

/-- `plan1` with a reshape target of the same layout from row 0 on, in the state given. -/
def reshaping (r : Reshape) : State :=
  { members online1 [] with
    plan := { up.plan with tab := some { plan1 with
      pools := plan1.pools ++ [(8, { geom := 0, n := 4, q := 16, bands := 100, serial := 7,
                                     members := [0x8000, 0x8001, 0x8002, 0x8003] })],
      targets := [(0, { rows := 200, vols := [(0, 0)] })] } }
    mem := { (members online1 []).mem with pools := [(0, { serial := 7, n := 4, reshape := r, slots :=
      [(0, online1), (1, online1), (2, online1), (3, online1)] })] } }

/-- The same, with a fifth slot in the target, expected at port 4, where a member of a class is. -/
def widening (c : PortCls) : State :=
  let s := reshaping { st := 1 }
  { s with
    plan := { up.plan with tab := some { plan1 with
      pools := plan1.pools ++ [(8, { geom := 0, n := 5, q := 16, bands := 100, serial := 7,
                                     members := [0x8000, 0x8001, 0x8002, 0x8003, 0x8004] })],
      targets := [(0, { rows := 200, vols := [(0, 0)] })] } }
    mem := { s.mem with ports := ports4 ++ [(4, { cls := c, present := true, linkUp := true, id := some blankId })] } }

/-- Sector 0 of row 0 of pool 0 dirty. -/
def dirty0 : State :=
  let x := Machine.setOf 0 (lineOf 0 0 0 0 up).1 * 16
  { up with cache := { up.cache with tags := [(x, { valid := 1, dirty := 1 })] } }

/-- The cell (1, 2) of `members`, moving from slot 0 to slot 3. -/
def moving (r : Reloc) : State := setReloc 0 1 2 r (members online1 [])

/-- A restore walk of slot 1. -/
def walkOf (w : Walk) (r : SlotRec) : State := updPool 0 (fun x => { x with walks := [(1, w)] }) (members r [])

/-- The record of slot 1 in a restore walk. -/
def restored : SlotRec := { online1 with st := .rebuilding, restore := 3 }

/-- A state in a cold stop. -/
def refusing (s : State) : State := { s with pow := { s.pow with coldStop := true } }

theorem witness_MovesAndWalks :
    (∀ r ∈ [({ toSlot := 3, boundary := 2, next := 5, window := [32] } : Reloc), { settled := true }, { remark := [5] }],
      relocOf (0 : Fin 8).val (1 : Fin 4096).val (2 : Fin 64).val (moving r) = some r) ∧ commitsRefused (refusing up) = true ∧
    (let r : Reloc := { toSlot := 3, boundary := 2, next := 5, window := [32] }
     let s := moving r
     let s0 : State := { s with now := max s.now (r.lastCommit + 1000000) }
     let b := cellFront 257 0 1 r r.boundary s0
     r.settled = false ∧ r.remark = [] ∧ commitsRefused s = false ∧ b < (poolEnt 0 s0).bands ∧ (nextBandFor 0 1 b s0).isSome = true) ∧
    (let r : Reloc := { toSlot := 3, boundary := 99, next := 100, window := [1585] }
     let s := moving r
     r.settled = false ∧ r.remark = [] ∧ commitsRefused s = false ∧ (poolEnt 0 s).bands ≤ cellFront 257 0 1 r r.boundary s) ∧
    (let w : Walk := { next := 3 }
     let s := walkOf w restored
     tget (poolRec (0 : Fin 8).val s).walks (1 : Fin 128).val = some w ∧ w.remark = [] ∧ commitsRefused s = false ∧
      (slotRec 0 1 s).st = .rebuilding ∧ walkFront (w.next + 1) 0 1 w (slotRec 0 1 s).restore s = 3 ∧ 3 < (poolEnt 0 s).bands ∧
      ({ w with remark := [4] } : Walk).remark ≠ [] ∧ (slotRec 0 1 (walkOf w online1)).st ≠ .rebuilding) ∧
    (let w : Walk := { next := 100 }
     let s := walkOf w { restored with restore := 100 }
     w.remark = [] ∧ (slotRec 0 1 s).st = .rebuilding ∧
      (poolEnt 0 s).bands ≤ walkFront (w.next + 1) 0 1 w (slotRec 0 1 s).restore s) ∧
    (let s := members online1 []
     healthSlot (1 : PortNo).val s = some (0, 1) ∧ healthSlot (129 : PortNo).val s = none ∧
      (mport (1 : PortNo).val s).id.any (·.endurance) = false ∧
      (mport 1 { s with mem := { s.mem with
        ports := [(1, { id := some { blankId with endurance := true } })] } }).id.any (·.endurance) = true ∧
      poolValid (0 : Fin 8).val s = true ∧ poolValid (7 : Fin 8).val s = false ∧ owns 0 s = true ∧ owns 0 (inPair s) = false ∧
      (poolRec 0 s).reshape.st ≠ 2 ∧ (poolRec 0 (reshaping { st := 2 })).reshape.st = 2 ∧ (poolRec 0 s).patrol.st = 0 ∧
      (poolRec 0 (updPatrol 0 (fun p => { p with st := 1, row := 40 }) s)).patrol.st ≠ 0) ∧
    (let s := reshaping { st := 1 }
     reshapeMay (0 : Fin 8).val s = true ∧ commitsRefused s = false ∧ addedSlots 0 s = [] ∧ openSlots 0 s = [] ∧
      reshapeMay 0 up = false) ∧
    (let s := widening (.foreign 2)
     reshapeMay 0 s = true ∧ openSlots 0 s = [4] ∧
      ((openSlots 0 s).find? (fun n => (mport (expectedPort 8 n s) s).cls != .foreign 2 ||
        !(mport (expectedPort 8 n s) s).id.any (fun i => fits 0 i s))) = none) ∧
    (let s := widening .retired
     reshapeMay 0 s = true ∧
      ((openSlots 0 s).find? (fun n => (mport (expectedPort 8 n s) s).cls != .foreign 2 ||
        !(mport (expectedPort 8 n s) s).id.any (fun i => fits 0 i s))) = some 4) ∧
    (let r : Reshape := { st := 2, finished := [0] }
     let s := reshaping r
     walking (0 : Fin 8).val s = some r ∧ owns 0 s = true ∧ r.remark = [] ∧ commitsRefused s = false ∧
      (∀ row ∈ r.finished, sourcesBusy 0 row s = false) ∧
      r.finished.filter (fun row => !(dirtySources 0 row s).isEmpty) = [] ∧
      reshapeFront ((walkRows 0 s).length + 1) (walkRows 0 s) r.finished r.b = 1 ∧ ¬ (walkRows 0 s).length ≤ 1 ∧
      walking 0 (reshaping { r with remark := [0] }) = some { r with remark := [0] }) ∧
    (let r : Reshape := { st := 2, finished := [0] }
     let s := { reshaping r with cache := dirty0.cache }
     r.finished.filter (fun row => !(dirtySources 0 row s).isEmpty) = [0] ∧ ∀ row ∈ r.finished, sourcesBusy 0 row s = false) ∧
    (let n := (walkRows 0 (reshaping { st := 2 })).length
     let r : Reshape := { st := 2, b := n }
     let s := reshaping r
     walking 0 s = some r ∧ (walkRows 0 s).length ≤ reshapeFront (n + 1) (walkRows 0 s) r.finished r.b ∧ s.pipe.ops = []) := by
  refine ⟨?_, ?_, ?_, ?_, ?_, ?_, ?_, ?_, ?_, ?_, ?_, ?_, ?_⟩ <;> decide +kernel

theorem witness_PoolOperations :
    (let s := members online1 []
     poolValid 0 s = true ∧ poolValid 7 s = false ∧ owns 0 s = true ∧ commitsRefused s = false ∧ commitsRefused (refusing s) = true ∧
      slotActBad (.adopt (adoptPort 3 0 3 s)) 0 3 s = none ∧ slotActBad (.adopt (adoptPort 3 0 1 s)) 0 1 s = some (0x0005, 0x0202) ∧
      slotActBad .retire 0 1 s = none ∧ slotActBad .retire 0 3 s = some (0x0005, 0x0202) ∧
      slotActBad .fail 0 1 s = some (0x0005, 0x0208) ∧ slotActBad .fail 0 1 (reshaping {}) = none ∧
      pairUp s = false ∧ pairUp (ownPair s) = true ∧ pairPool 0 (ownPair s) = true ∧
      slotActBad .retire 0 1 (ownPair s) = none ∧ (0 : Nat) < 8 ∧ owns 0 (inPair s) = false ∧
      (poolRec 0 (reshaping { st := 1 })).reshape.st = 1 ∧ (poolRec 0 (reshaping { st := 2 })).reshape.st = 2 ∧
      (poolRec 0 s).reshape.st ≠ 1 ∧ (poolRec 0 s).reshape.st ≠ 2 ∧ (poolRec 0 s).patrol.st = 0) ∧
    (∀ k ∈ [1, 2, 3], (poolRec 0 (updPatrol 0 (fun y => { y with st := k }) (members online1 []))).patrol.st = k) ∧
    (∀ op ∈ [0x90, 0x91, 0x92, 0x93, 0x94, 0x95], ∀ p ∈ [0, 7, 8, 255], ∀ s : State,
      adminNow op (admin op [(40, [p]), (41, [0]), (42, [1])] s) = some (5, begun op [(40, [p]), (41, [0]), (42, [1])])) ∧
    arg (begun 0x94 [(40, [0]), (41, [0]), (42, [1])]) 42 1 = 1 ∧ 8 ≤ arg (begun 0x90 [(40, [8])]) 40 1 := by
  refine ⟨by decide +kernel, by decide +kernel, fun op h _ _ s => adminNow_admin _ _ _ ?_, by decide, by decide⟩
  revert op; decide

theorem witness_PairMessagesOutOfTurn :
    pairMsg (.quiesce { hdr := hdr, bounded := true }) = some (2, hdr) ∧ pairMsg (.mirrorAck hdr 4) = some (1, hdr) ∧ up.led.paired = false ∧
    paired.led.paired = true ∧ hdr.crcOk = true ∧ ({ hdr with node := 8 } : PairHdr).node.toNat ≠ paired.led.peer ∧
    ({ hdr with epoch := 2 } : PairHdr).epoch ≠ paired.led.pairEpoch ∧
    ({ hdr with seq := 0 } : PairHdr).seq ≤ tgetD paired.pair.recvSeq 2 0 ∧
    ({ hdr with seq := 2 } : PairHdr).seq ≠ tgetD paired.pair.recvSeq 1 0 + 1 ∧ ({ hdr with crcOk := false } : PairHdr).crcOk = false := by
  decide

theorem arrives_hdr (cls : Nat) (s : State) (h1 : s.led.paired = true) (h2 : s.led.peer = 9) (h3 : s.led.pairEpoch = 3)
    (h4 : tgetD s.pair.recvSeq cls 0 = 0) : Arrives cls hdr s := by
  refine ⟨h1, rfl, ?_, h3.symm, ?_, fun _ => ?_⟩
  · rw [h2]; rfl
  · rw [h4]; decide
  · rw [h4]; rfl

/-- `paired` in a pair state. -/
def pairIn (st : Nat) : State := { paired with pair := { paired.pair with st := st } }

/-- A HELLO of the peer over the plan `plan1`. -/
def helloOf (hash : List Byte) : HelloMsg :=
  { commitSeq := 1, recSeqs := [], planHash := hash, poolOwner := List.replicate 8 0, poolEpoch := List.replicate 8 0, profile := 0 }

theorem witness_HeartbeatsAndFormation :
    (beats paired = true ∧ beats (pairIn 5) = false ∧ beats up = false) ∧
    (∀ st, Arrives 0 hdr (pairIn st)) ∧ (∀ st ∈ [3, 4], mirroring (pairIn st) = true) ∧
    (∀ st ∈ [0, 1, 2, 5, 6, 7], mirroring (pairIn st) = false ∧ (pairIn st).pair.st = st) ∧
    (paired.led.paired = true ∧ paired.dev.ready = true ∧ up.led.paired = false ∧
      ({ paired with dev := { up.dev with ready := false } } : State).dev.ready = false) ∧
    ((pairIn 5).pair.undecided = [] ∧ ({ (pairIn 5).pair with undecided := [2] } : PairSt).undecided ≠ [] ∧
      poolsOf 9 paired = [] ∧
      poolsOf 9 { paired with
        mem := { paired.mem with pools := [(7, { owner := 9 })] }
        plan := { up.plan with tab := some { plan1 with pools := [(7, { dual := true })] } } } = [7]) ∧
    ((pairIn 1).pair.helloSent = true ∧ (pairIn 1).pair.linkUp = true ∧
      ({ hdr with node := 8 } : PairHdr).node.toNat ≠ (pairIn 1).led.peer ∧ hdr.node.toNat = (pairIn 1).led.peer) ∧
    ({ (pairIn 1).pair with linkUp := false } : PairSt).linkUp = false ∧ ({ hdr with crcOk := false } : PairHdr).crcOk = false ∧
    (helloOf []).planHash = (tab (pairIn 1)).hash ∧ (helloOf [1]).planHash ≠ (tab (pairIn 1)).hash ∧
    hdr.epoch = (pairIn 5).led.pairEpoch ∧ ({ hdr with epoch := 4 } : PairHdr).epoch ≠ (pairIn 5).led.pairEpoch ∧
    (pairIn 5).pair.helloOk = false ∧ ({ (pairIn 5).pair with helloOk := true } : PairSt).helloOk = true := by
  refine ⟨by decide, fun _ => arrives_hdr _ _ rfl rfl rfl rfl, ?_⟩; decide

/-- `paired`, which owns pool 2. -/
def owner2 : State := { paired with mem := { paired.mem with pools := [(2, { owner := 1 })] } }

/-- A sector of line 40. -/
def sector (p : Fin 16) : LineSector := { pool := p, line := 40, sector := 15, data := [1] }

/-- The same with every way of the set of line 40 of pool 0 dirty. -/
def fullSet : State :=
  { owner2 with cache := { up.cache with
    tags := (List.range 16).map (fun i => (Machine.setOf 0 40 * 16 + i, { lineHi := 1, valid := 1, dirty := 1 })) } }

theorem witness_MirrorMessages :
    (∀ st, Arrives 1 hdr (pairIn st) ∧ Arrives 4 hdr (pairIn st)) ∧ Arrives 1 hdr owner2 ∧ Arrives 4 hdr owner2 ∧
    (let ok := fun (l : List LineSector) (s : State) =>
       (mirroring s || s.pair.st == 5) && cacheOn s && l.all (fun x => !owns x.pool.val s)
     ok [sector 0] owner2 = true ∧ ok [sector 0, sector 2] owner2 = false ∧ ok [] (pairIn 5) = true ∧ ok [] (pairIn 6) = false ∧
      ok [sector 15] { owner2 with dev := { up.dev with tagFence := true } } = false) ∧
    owns (sector 0).pool.val owner2 = false ∧ owns (sector 2).pool.val owner2 = true ∧
    (installAll [sector 0] (heard 1 hdr owner2)).isSome = true ∧ (installAll [sector 0] (heard 4 hdr owner2)).isSome = true ∧
    (∀ cls ∈ [1, 4], (installAll [sector 0] (heard cls hdr fullSet)).isNone = true) ∧
    owns (2 : Fin 16).val owner2 = true ∧ owns (15 : Fin 16).val owner2 = false ∧
    [sector 0, sector 2].find? (fun x => owns x.pool.val owner2) = some (sector 2) ∧
    (∀ x ∈ [sector 0], owns x.pool.val owner2 = false) ∧
    (let s : State := { pairIn 3 with pair := { (pairIn 3).pair with resyncOut := true } }
     s.pair.st = 3 ∧ s.pair.resyncOut = true) := by
  refine ⟨fun _ => ⟨arrives_hdr _ _ rfl rfl rfl rfl, arrives_hdr _ _ rfl rfl rfl rfl⟩, arrives_hdr _ _ rfl rfl rfl rfl,
    arrives_hdr _ _ rfl rfl rfl rfl, ?_⟩
  decide +kernel

/-- `paired` with fields of the pair's record changed. -/
def pairWith (f : PairSt → PairSt) : State := { paired with pair := f paired.pair }

theorem witness_JointCommits :
    (∀ f, (∀ q, (f q).recvSeq = q.recvSeq) → Arrives 2 hdr (pairWith f)) ∧ Arrives 2 hdr (ownPair (members online1 [])) ∧
    sharedOk (.pairConfig [1]) (heard 2 hdr paired) = true ∧ sharedOk (.pairEpoch 9) (heard 2 hdr paired) = false ∧
    sharedOk (.pairEpoch 4) (heard 2 hdr paired) = true ∧
    (∀ k ∈ [none, some 5],
      let s := pairWith (fun q => { q with joint := [{ r := .pairConfig [1], cmd := k }] })
      s.pair.joint = [{ r := .pairConfig [1], cmd := k }] ∧ s.pair.unacked = [] ∧ s.pair.st = 4) ∧
    (let s := pairWith (fun q => { q with staged := [.pairConfig [1]] })
     s.pair.staged = [.pairConfig [1]] ∧ paired.pair.staged = []) ∧ paired.pair.jq = none ∧
    (∀ b : Bool, (pairWith (fun q => { q with jq := some { peerDone := b } })).pair.jq = some { peerDone := b }) ∧
    (resvTo 7 (resvSlots (7 : Fin 8).val paired) (.acquire (ownKey paired)) paired).1 = 0 ∧
    (let s := ownPair (members online1 [])
     (resvTo 0 (resvSlots (0 : Fin 8).val s) (.acquire (ownKey s)) { s with pair := { s.pair with xferIn := some 0 } }).1 = 3) ∧
    (let s := pairWith (fun q => { q with xfer := .acquire, xferCur := 7 })
     s.pair.xfer = .acquire ∧ s.pair.xferCur = (7 : Fin 8).val ∧ s.pair.xferCur ≠ (6 : Fin 8).val) ∧ paired.pair.xfer ≠ .acquire ∧
    (pairWith (fun q => { q with xferIn := some 7 })).pair.xferIn = some (7 : Fin 8).val ∧
    paired.pair.xferIn ≠ some (7 : Fin 8).val := by
  refine ⟨fun f h => arrives_hdr _ _ rfl rfl rfl ?_, arrives_hdr _ _ rfl rfl rfl rfl, ?_⟩
  · show tgetD (f paired.pair).recvSeq 2 0 = 0
    rw [h]; rfl
  · decide +kernel

/-- A READ entry of volume 0, 4 sectors from an LBA. -/
def readEntryAt (lba : Byte) : List Byte := entry [(0, [0x01]), (12, [4]), (16, [lba, 3]), (32, [0, 0x40])]

/-- `paired`, which owns pool 0. -/
def own0 : State := { paired with mem := { paired.mem with pools := [(0, { owner := 1 })] } }

/-- `paired` with a command 5 of an opcode in a phase. -/
def phased (op : Nat) (ph : CmdPh) : State := holding { begun op [] with ph := ph } paired

theorem witness_Forwarding :
    let t := fun s lba => (newCmd (.peer 8) 0 (readEntryAt lba) (heard 3 hdr s)).2
    let all := entry [(0, [4]), (40, [1])]
    Arrives 3 hdr paired ∧ Arrives 3 hdr own0 ∧ (∀ op ph, Arrives 3 hdr (phased op ph)) ∧
    volumeBad (readEntryAt 229) (t paired 229) = some (0x0004, 3) ∧ volumeBad (readEntryAt 228) (t paired 228) = none ∧
    namesVolume (readEntryAt 228) = true ∧ ownOf (entVol (readEntryAt 228)) (t paired 228) ≠ .here ∧
    volumeBad (readEntryAt 228) (t own0 228) = none ∧ ownOf (entVol (readEntryAt 228)) (t own0 228) = .here ∧
    volumeBad all (newCmd (.peer 8) 0 all (heard 3 hdr paired)).2 = none ∧ namesVolume all = false ∧
    (let s := holding { begun 0x02 [] with src := .peer 8 } paired; peerCmd 8 s = some 5 ∧ peerCmd 9 s = none) ∧
    (∀ ph ∈ [CmdPh.forwarded, .waiting, .running, .begun],
      cmdOf 5 (phased 0x04 ph) = some { begun 0x04 [] with ph := ph } ∧ (begun 0x04 []).opcode = 4) ∧
    (begun 0x01 []).opcode ≠ 4 ∧ cmdOf 5 paired = none ∧ owns (0 : Fin 8).val own0 = true ∧ owns (0 : Fin 8).val paired = false :=
  ⟨arrives_hdr _ _ rfl rfl rfl rfl, arrives_hdr _ _ rfl rfl rfl rfl, fun _ _ => arrives_hdr _ _ rfl rfl rfl rfl, by decide +kernel⟩

/-- `pairIn`, deciding on some pools. -/
def deciding (st : Nat) (l : List Nat) : State :=
  { pairIn st with pair := { (pairIn st).pair with deciding := true, undecided := l } }

theorem witness_PeerLossDecided :
    (let s := deciding 5 []
     s.pair.deciding = true ∧ s.pair.undecided = [] ∧ s.pair.st = 5 ∧ s.pair.joint = [] ∧ s.pair.staged = [] ∧
      s.pair.jq = none ∧ s.pipe.cmds = [] ∧ up.pair.deciding = false) ∧
    (let s := deciding 5 [1, 2]
     s.pair.deciding = true ∧ s.pair.undecided ≠ [] ∧ ∀ p ∈ s.pair.undecided, peerAlive p s = none) ∧
    (let s := { deciding 5 [1, 2, 3] with pair := { (deciding 5 [1, 2, 3]).pair with
       peerKeys := [(4, (1, 1)), (5, (1, 1)), (8, (1, 2)), (12, (1, 1))] } }
     s.pair.undecided.filter (fun p => peerAlive p s == some true) = [2] ∧
      s.pair.undecided.filter (fun p => peerAlive p s == some false) = [1] ∧
      s.pair.undecided.filter (fun p => peerAlive p s == none) = [3]) ∧ (pairIn 7).pair.st = 7 ∧
    (∀ st ∈ [1, 2, 5, 6, 7], (pairIn st).led.paired = true ∧ (pairIn st).pair.st ≠ 0 ∧ mirroring (pairIn st) = false ∧
      (pairIn st).pair.beat ≠ 0xFFFFFFFF) ∧ mirroring (pairIn 3) = true ∧ up.led.paired = false ∧ (pairIn 0).pair.st = 0 ∧
    ((pairIn 1).pair.st = 1 ∧ (pairIn 1).pair.deciding = false ∧ (pairIn 1).dev.ready = true ∧ (pairIn 2).pair.st ≠ 1 ∧
      (deciding 1 []).pair.deciding = true) ∧
    (barUp 0 up = true ∧ up.dev.ready = true ∧ (0x8100 : Word).getLsbD 0 = false ∧ (0x8101 : Word).getLsbD 0 = true ∧
      up.pair.st ≠ 6 ∧ (pairIn 6).pair.st = 6 ∧ (pairIn 6).led.locked = false ∧ barUp 0 (pairIn 6) = true ∧
      ({ (pairIn 6).led with locked := true } : Ledger).locked = true ∧ barUp 0 State.reset = false ∧
      ({ up with dev := { up.dev with ready := false } } : State).dev.ready = false) ∧
    (let v : Word := 10
     let s := fun st (r : PoolRec) =>
       { pairIn st with mem := { paired.mem with pools := [(2, r)] },
                        plan := { up.plan with tab := some { plan1 with pools := [(2, { dual := true })] } } }
     v.getLsbD 3 = true ∧ (2 : Word).getLsbD 3 = false ∧ up.pair.xfer = .none ∧ XferPh.drain ≠ .none ∧
      (v.extractLsb' 0 3 : BitVec 3).toNat = 2 ∧ pairUp (s 5 {}) = false ∧
      pairUp (s 4 {}) = true ∧ (pairPool 2 (s 4 {}) && owns 2 (s 4 {})) = false ∧
      pairPool 2 (s 4 { owner := 1 }) = true ∧ owns 2 (s 4 { owner := 1 }) = true ∧
      (poolRec 2 (s 4 { owner := 1, reshape := { st := 2 } })).reshape.st = 2 ∧
      (poolRec 2 (s 4 { owner := 1 })).reshape.st ≠ 2 ∧ (s 4 {}).pair.xfer = .none) := by decide +kernel

theorem witness_PowerLossStartsTheFlush : up.pow.ph = .run ∧ (power (fun p => { p with ph := .boot })).pow.ph = .boot ∧
    (∀ ph ∈ [PwrPh.flush, .flushed, .coldStopped, .standby, .held, .noService, .off, .tripped],
      (power (fun p => { p with ph := ph })).pow.ph ≠ .run ∧ (power (fun p => { p with ph := ph })).pow.ph ≠ .boot) := by decide

/-- `up` during a flush, with the vault's sensors at a temperature in quarter degrees. -/
def flushing (t : Int) (hot : Bool) : State :=
  { power (fun p => { p with ph := .flush, flushing := true, hotWait := hot }) with
    therm := { up.therm with hist := [List.replicate 32 t] } }

/-- A state whose vault is in block reset. -/
def vaultReset (s : State) : State := { s with fc := { s.fc with resets := [(25, {})] } }

theorem witness_FlushEnds :
    (let s := flushing 500 false
     s.pow.ph = .flush ∧ vaultResetting s = false ∧ s.pow.step6 = false ∧ s.pow.hotWait = false ∧ vaultHot s = false ∧
      vaultResetting (vaultReset s) = true) ∧
    (let s := flushing 501 false
     s.pow.ph = .flush ∧ vaultResetting s = false ∧ s.pow.step6 = false ∧ vaultHot s = true) ∧
    (let s := power (fun p => { p with ph := .flush, flushing := true, step6 := true })
     s.pow.ph = .flush ∧ vaultResetting s = false ∧ s.pow.step6 = true) ∧
    (let s := flushing 480 true
     s.pow.ph = .flush ∧ s.pow.hotWait = true ∧ vaultCool s = true ∧ vaultResetting s = false ∧ vaultCool (flushing 481 true) = false) ∧
    (up.pow.ph ≠ .off ∧ up.pow.ph ≠ .tripped ∧ up.pow.ph ≠ .flush ∧ State.reset.pow.ph = .off ∧
      (power (fun p => { p with ph := .tripped })).pow.ph = .tripped) ∧
    (let s := power (fun p => { p with erased1 := false, index := [{ half := 1, dead := true, mask := 1 }] })
     s.pow.ph = .run ∧ (1 : Fin 2).val ≠ s.pow.cur ∧ halfErased (1 : Fin 2).val s = false ∧
      ∀ e ∈ s.pow.index, e.half = (1 : Fin 2).val → liveEntry e s = false) ∧
    (let s := power (fun p => { p with cur := 1, erased0 := false })
     (0 : Fin 2).val ≠ s.pow.cur ∧ halfErased (0 : Fin 2).val s = false ∧ s.pow.index = []) ∧
    halfErased 1 (power (fun p => { p with erased1 := true })) = true := by decide +kernel

theorem witness_BootsAndResets :
    (State.reset.pow.ph = .off ∧ (power (fun p => { p with ph := .tripped })).pow.ph = .tripped ∧ up.pow.ph ≠ .off ∧
      up.pow.ph ≠ .tripped ∧ ({ goodBoot with railsOk := false } : BootInputs).railsOk = false ∧ goodBoot.railsOk = true ∧
      ({ goodBoot with mramReadable := false } : BootInputs).mramReadable = false ∧ goodBoot.mramReadable = true ∧
      ({ goodBoot with badCtrlCores := 0xF } : BootInputs).badCtrlCores = 0xF ∧ goodBoot.badCtrlCores = 0 ∧
      goodBoot.badLanes = 0 ∧ goodBoot.badSeqCores = 0 ∧ (power (fun p => { p with ph := .boot })).pow.ph = .boot ∧
      up.pow.ph ≠ .boot) ∧
    (let s := power (fun p => { p with ph := .flushed, pfail := false })
     s.pow.ph = .flushed ∧ s.pow.pfail = false) ∧ (power (fun p => { p with ph := .flushed, pfail := true })).pow.pfail = true ∧
    hostPowered up = true ∧ hostPowered State.reset = false ∧ up.dev.bifurcated = false ∧
    ({ up with dev := { up.dev with bifurcated := true } } : State).dev.bifurcated = true ∧
    (let s : State := { power (fun p => { p with ph := .standby }) with port0 := { up.port0 with perstLow := true } }
     s.port0.perstLow = true ∧ s.pow.ph = .standby) ∧
    adminNow 0xB9 (admin 0xB9 [] up) = some (5, begun 0xB9 []) ∧ standbyUnmet 5 (admin 0xB9 [] up) = 0 ∧
    standbyUnmet 5 (admin 0xB9 [] (ring 2 sq up)) ≠ 0 ∧
    barUp (0 : Fin 2).val up = true ∧ barUp (1 : Fin 2).val up = false ∧ up.port0.perstLow = false ∧
    linkWidth 0 (16 : Fin 17).val up = true ∧ linkWidth 0 (3 : Fin 17).val up = false := by
  refine ⟨by decide, by decide, by decide, by decide, by decide, by decide, by decide, by decide,
    adminNow_admin _ _ _ (by decide), ?_⟩
  decide +kernel

/-- One sector of line 40 of pool 0 in the vault's first page, with its way in the shadow. -/
def inVault (fence : Bool) : State :=
  { power (fun p => { p with restoring := true, index := [{ mask := 4, line := 40 }], nand := [(0, [1])] }) with
    dev := { up.dev with tagFence := fence }
    cache := { up.cache with shadow := [(Machine.setOf 0 40 * 16 + 3, { dirty := 4, lineHi := 0, pool := 0 })] } }

theorem witness_RestoreAndLedgerUpkeep :
    (let s := inVault false
     s.pow.ph = .run ∧ vaultResetting s = false ∧ vaultResetting (vaultReset s) = true ∧ State.reset.pow.ph ≠ .run ∧
      pageSecs (0 : Fin 2).val 0 s = [({ mask := 4, line := 40 }, 2, 0)] ∧
      shadowWay 0 40 s = some (Machine.setOf 0 40 * 16 + 3) ∧ tget s.pow.nand (0 * 2 ^ 24 + 0) = some [1] ∧
      (1 : BitVec 4).getLsbD 0 = true ∧
      (0 : BitVec 4).getLsbD 0 = false ∧ cacheOn s = true ∧ cacheOn (inVault true) = false ∧
      pageSecs 0 0 (inVault true) = [({ mask := 4, line := 40 }, 2, 0)] ∧ restoreLeft s ≠ 0 ∧ s.pow.restoring = true) ∧
    (let s := power (fun p => { p with restoring := true })
     s.pow.restoring = true ∧ restoreLeft s = 0 ∧ up.pow.restoring = false) ∧
    commitsRefused up = false ∧ commitsRefused (flushing 0 false) = true ∧ barUp 0 up = true ∧ barUp 0 State.reset = false ∧
    up.led.locked = false ∧
    (let s : State := { up with led := { up.led with locked := true } }; s.led.locked = true ∧ barUp 0 s = true) ∧
    (let s := power (fun p => { p with coldStop := true }); commitsRefused s = true ∧ barUp 0 s = true) := by decide +kernel

/-- A sound identity block: chemistry 1, 14 cells, 5 Ah, 40 mΩ, T_MAX 60 °C, V_CHG 53.2 V; its CRC-32C is 0xCA4F5B0E. -/
def packBlock : List Byte :=
  [0x44, 0x56, 0x45, 0x50, 1, 0, 1, 14, 0x88, 0x13, 0, 0, 40, 0, 0xF4, 1, 0xA0, 0x8C, 90, 60, 0xD0, 0xCF] ++
  List.replicate 102 0 ++ [0x0E, 0x5B, 0x4F, 0xCA]

set_option maxRecDepth 100000 in
theorem packBlock_sound : blockSound packBlock = true := by decide +kernel

/-- `up` with the fields of the pack changed. -/
def withPack (f : PackSt → PackSt) : State := { up with pack := f up.pack }

/-- `up` with a pack at rest that may learn. -/
def learner : State :=
  withPack (fun p => { p with
    identity := some (packBlock.take 64), idOk := true, absent := false, atRest := true, meas := some quiet.pack })

/-- A sound block of a chemistry that the module does not know. -/
def strangeBlock : List Byte := packBlock.take 6 ++ [9] ++ (packBlock.drop 7).take 117 ++ leBytes 4 0xd69befdc

set_option maxRecDepth 100000 in
theorem strangeBlock_sound : blockSound strangeBlock = true := by decide +kernel

theorem witness_PackIdentityAndLearn :
    packPowered up = true ∧ packPowered State.reset = false ∧ blockSound packBlock = true ∧ blockSound strangeBlock = true ∧
    chemOk packBlock = true ∧ chemOk strangeBlock = false ∧ blockSound [] = false ∧
    learner.pack.identity = some (packBlock.take 64) ∧ up.pack.identity ≠ some (packBlock.take 64) ∧ up.pack.identity = none ∧
    3 ≤ (withPack (fun p => { p with idFails := 3 })).pack.idFails ∧
    (false : Bool) ≠ up.pack.presHigh ∧ true = up.pack.presHigh ∧ false ≠ State.reset.pack.presHigh ∧
    (let s := withPack (fun p => { p with lowAt := some 5, absent := false })
     s.pack.lowAt = some 5 ∧ s.pack.absent = false ∧ s.pack.learn = .idle ∧ s.pack.points = []) ∧ up.pack.lowAt = none ∧
    (learner.pack.identity.isSome = true ∧ learner.pack.unproven = false) ∧
    (∀ b : Bool,
     let s := withPack (fun p => { p with declinedAt := some 9, unproven := true, proposed := b })
     s.pack.declinedAt = some 9 ∧ s.pack.unproven = true ∧ s.pack.declinedAt.isSome = true) ∧ up.pack.declinedAt = none ∧
    (let a : RestPt := { at_ := 0, s := {}, q := {}, inBand := true }
     let s := fun count : Int => withPack (fun p => { p with
       pointA := some a, learn := .discharging, qLearn := frac 100 1, count := frac count 1 })
     (s 0).pack.pointA = some a ∧ (s 0).pack.learn = .discharging ∧
      ((capQ (s 50)).mul (frac 5 10)).le ((s 50).pack.count.sub a.q).abs = true ∧
      ((capQ (s 49)).mul (frac 5 10)).le ((s 49).pack.count.sub a.q).abs = false) ∧
    (withPack (fun p => { p with learn := .resting })).pack.learn = .resting ∧ up.pack.learn ≠ .resting ∧
    up.pack.learn ≠ .discharging ∧
    (let s := withPack (fun p => { p with fullAt := some 3 }); s.pack.fullAt = some 3 ∧ s.pack.stuck = false) ∧ up.pack.fullAt = none ∧
    adminNow 0xB8 up = none ∧
    (∀ f s, adminNow 0xB8 (admin 0xB8 f s) = some (5, begun 0xB8 f)) ∧
    bitN (arg (begun 0xB8 [(40, [1])]) 40 1) 0 = true ∧ bitN (arg (begun 0xB8 []) 40 1) 0 = false ∧
    learnCheck (admin 0xB8 [] { learner with dev := { learner.dev with level := 1 } }) = none ∧
    learnCheck (admin 0xB8 [] up) = some (0x0005, 0x0C01) := by
  refine ⟨?_, ?_, packBlock_sound, strangeBlock_sound, ?_, ?_, ?_, ?_, ?_, ?_, ?_, ?_, ?_, ?_, ?_, ?_, ?_, ?_, ?_, ?_, ?_, ?_, ?_, ?_,
    ?_, ?_, fun f s => adminNow_admin _ _ _ (by decide), ?_⟩
  all_goals decide +kernel

/-- `up` with one throttle request. -/
def throttled (r : ThrReq) : State := { up with therm := { up.therm with requests := [r], lvl := [(4, 2)] } }

theorem witness_ThermalLevelsAndThrottle :
    roundSound quiet = true ∧ roundSound { quiet with counts := [] } = false ∧
    (let s := fun t : Int => { flushing t false with therm := { (flushing t false).therm with up := [(4 * 4 + 2, 2)] } }
     hottest 4 (s 500) = some (10, 500) ∧ levelTj 2 ≤ 500 ∧ levelOf 4 (s 500) < 2 ∧
      2 ≤ tgetD (s 500).therm.up (4 * 4 + 2) 0 ∧ hottest 4 (s 488) = some (10, 488) ∧ levelTj 2 - 12 ≤ 488 ∧
      (499 : Int) < levelTj 2) ∧
    (let r : ThrReq := { region := 14, target := 50, grace := 20, at_ := 3 }
     pendingReq (14 : Fin 15).val (throttled r) = some 0 ∧ (throttled r).therm.requests[0]? = some r ∧
      pendingReq (13 : Fin 15).val (throttled r) = none) ∧
    (let r : ThrReq := { region := 4, target := 50, grace := 20, at_ := 3, enforcedAt := some 9 }
     let first := fun (k : Nat) (s : State) => leastBy (fun r : ThrReq => r.enforcedAt.getD 0)
       (s.therm.requests.filter (fun r => r.region == k && r.enforcedAt.isSome && !r.followed))
     (throttled r).therm.requests = [r] ∧ r.region = (4 : Fin 15).val ∧ r.enforcedAt.isSome = true ∧ r.followed = false ∧
      2 ≤ levelOf (4 : Fin 15).val (throttled r) ∧ first 4 (throttled r) = some r ∧ first 3 (throttled r) = none ∧
      first 4 (throttled { r with followed := true }) = none ∧ levelOf 4 { throttled r with therm := { up.therm with requests := [r] } } < 2) ∧
    State.reset.pow.ph = .off ∧ up.therm.tripped = false ∧ up.pow.ph ≠ .off ∧
    ({ up with therm := { up.therm with tripped := true } } : State).therm.tripped = true := by decide +kernel

/-- An admin operation that has the sensor, record or profile number `n` first in its ARGS. -/
def adminN (op : Nat) (n : Byte) (s : State) : State := admin op [(40, [n])] s

theorem adminNow_adminN (op : Nat) (n : Byte) (s : State) (h : 0x80 ≤ op) :
    adminNow op (adminN op n s) = some (5, begun op [(40, [n])]) := adminNow_admin _ _ _ h

/-- `up` with an owner. -/
def owned : State := { up with led := { up.led with ownerKey := some (List.replicate 64 1) } }

theorem adminIn_begun (op : Nat) (f : List (Nat × List Byte)) (d : List Byte) : adminIn (begun op f) d ≠ [] := by
  rw [← List.length_pos_iff, adminIn, padTo, List.length_take, List.length_append, List.length_replicate]
  show 0 < min 64 (d.length + (64 - d.length))
  omega

theorem witness_ClocksAndMargin :
    (let s : State := { up with therm := { up.therm with relock := some 2, coreLock := false } }
     s.therm.relock = some 2 ∧ s.therm.vid ≤ 10 ∧ s.therm.code ≤ 10 ∧ (Pll.core = .core ∧ s.therm.relock.isSome = true)) ∧
    up.therm.relock = none ∧ ¬ (Pll.core = .core ∧ up.therm.relock.isSome = true) ∧
    (let s1 := timeToOp ((up.therm.planHours + 720) * 3600) up
     up.therm.planAgain = false ∧ commitsRefused s1 = false ∧
      ∃ code ceiling met, planPoint (List.replicate 8 0) s1 = (code, ceiling, met)) ∧
    commitsRefused (timeToOp ((up.therm.planHours + 720) * 3600) (flushing 0 false)) = true ∧ adminNow 0xB5 up = none ∧
    (∀ n s, adminNow 0xB5 (adminN 0xB5 n s) = some (5, begun 0xB5 [(40, [n])])) ∧
    (∀ n s, adminNow 0xB5 (admin 0xB5 [(40, [n]), (41, [1])] s) = some (5, begun 0xB5 [(40, [n]), (41, [1])])) ∧
    commitsRefused (adminN 0xB5 32 (refusing owned)) = true ∧
    commitsRefused (adminN 0xB5 32 owned) = false ∧ arg (begun 0xB5 [(40, [32])]) 40 1 = 32 ∧
    arg (begun 0xB5 [(40, [31])]) 40 1 = 31 ∧ (∀ f d, adminIn (begun 0xB5 f) d ≠ []) ∧
    adminIn { begun 0xB5 [(40, [31])] with sgl := [] } [] = [] ∧ owned.led.ownerKey.isSome = true ∧ up.led.ownerKey = none ∧
    bitN (arg (begun 0xB5 [(40, [31])]) 41 1) 0 = false ∧ bitN (arg (begun 0xB5 [(40, [0]), (41, [1])]) 41 1) 0 = true ∧
    liveSensors (regionOf 30) owned = [30] ∧ liveSensors (regionOf 0) owned ≠ [0] ∧ masked 0 owned = false := by
  refine ⟨by decide, by decide, by decide, ⟨by decide, by decide, _, _, _, rfl⟩, by decide, by decide,
    fun n s => adminNow_adminN _ _ _ (by decide), fun n s => adminNow_admin _ _ _ (by decide), by decide, by decide, by decide,
    by decide, fun f d => adminIn_begun _ _ _, ?_, ?_, ?_, ?_, ?_, ?_, ?_, ?_⟩
  all_goals decide +kernel

/-- An 8-byte tag in an entry's ARGS reads back. -/
theorem slice_begun (t : List Byte) (h : t.length = 8) : slice (begun 0x8B [(40, t)]).entry 40 8 = t := by
  match t, h with
  | [a, b, c, d, e, f, g, i], _ => rfl

theorem keyTag_length (k : List Byte) : (keyTag k).length = 8 := by
  simp only [keyTag, padTo, List.length_take, List.length_append, List.length_replicate]; omega

theorem witness_PlanImagesAndKeys :
    (∀ op ∈ [0x88, 0x89, 0x8A, 0x8B], ∀ s f, adminNow op (admin op f s) = some (5, begun op f)) ∧
    (∀ op ∈ [0x88, 0x89, 0x8A, 0x8B], adminNow op up = none) ∧ commitsRefused up = false ∧ commitsRefused (refusing up) = true ∧
    (let x := begun 0x88 [(40, [0]), (48, [1])]
     arg x 40 8 = up.led.staging.length ∧ bitN (arg x 48 1) 0 = true ∧ (adminIn x []).length % 4096 ≠ 0) ∧
    bitN (arg (begun 0x88 []) 48 1) 0 = false ∧
    (let x := begun 0x88 [(40, [0, 16])]
     let s : State := { up with led := { up.led with staging := List.replicate 64 1 } }
     arg x 40 8 ≠ s.led.staging.length ∧ arg x 40 8 ≠ 0) ∧ up.led.stagingLast = false ∧
    (let s : State := { up with led := { up.led with stagingLast := true } }; s.led.stagingLast = true) ∧
    (let s : State := { opState { op5 with st := .program } up with
        plan := { up.plan with switching := true }, led := { up.led with active := some [] } }
     s.plan.switching = true ∧ s.led.active = some [] ∧ opsStarted s = true ∧
      opsStarted { s with pipe := up.pipe } = false) ∧ up.led.active = none ∧
    (up.led.ownerKey = none ∧ owned.led.ownerKey.isSome = true ∧ up.led.paired = false ∧ up.plan.switching = false ∧
      up.plan.quiesceSince = none) ∧
    (let k := (adminIn (begun 0x8A []) [9]).take 64
     let s := fun l : List (List Byte) => { up with led := { up.led with keys := l } }
     k ∈ (s [k]).led.keys ∧ k ∉ (s []).led.keys ∧ (s []).led.keys.any (fun y => keyTag y == keyTag k) = false ∧
      (s []).led.keys.length < 4) ∧
    ∀ k : List Byte,
      let s : State := { up with led := { up.led with keys := [k] } }
      let x := begun 0x8B [(40, keyTag k)]
      s.led.keys.find? (fun y => keyTag y == slice x.entry 40 8) = some k ∧
        s.led.active.map imgSigner ≠ some (Config.sha256 k) := by
  refine ⟨fun op h s f => adminNow_admin _ _ _ ?_, by decide, ?_, ?_, ?_, ?_, ?_, ?_, ?_, ?_, ?_, ?_, ⟨?_, ?_, rfl, ?_⟩, fun k => ⟨?_, ?_⟩⟩
  · revert op; decide
  all_goals try decide +kernel
  · rw [slice_begun _ (keyTag_length k)]
    exact List.find?_cons_of_pos (by simp)
  · exact fun h => nomatch h

theorem witness_ProfileOperations :
    (∀ op ∈ [0xA0, 0xA1, 0xA2, 0xA3], ∀ n s, adminNow op (adminN op n s) = some (5, begun op [(40, [n])])) ∧
    (∀ op ∈ [0xA0, 0xA1, 0xA2, 0xA3], adminNow op up = none) ∧
    up.led.paired = false ∧ up.plan.switching = false ∧ arg (begun 0xA0 [(40, [3])]) 40 1 = 3 ∧
    arg (begun 0xA0 [(40, [4])]) 40 1 = 4 ∧ profileOk (defaultProfile 3) = true ∧
    profileOk { defaultProfile 3 with minLanes := 8 } = false ∧ commitsRefused up = false ∧ commitsRefused (refusing up) = true ∧
    up.dev.profile.toNat ≠ 3 ∧
    up.plan.quiesceSince = none ∧ up.led.locked = false ∧ up.led.profLock = none ∧ owned.led.ownerKey.isSome = true ∧
    (∀ f d, adminIn (begun 0xA3 f) d ≠ []) ∧
    (let s : State := { up with led := { up.led with locked := true, profLock := some 2 } }
     s.led.locked = true ∧ s.led.profLock.isSome = true) ∧
    (let s : State := { opState { op5 with st := .program } up with
        plan := { up.plan with quiesceSince := some 4, nextProfile := some 3 } }
     s.plan.quiesceSince = some 4 ∧ s.plan.nextProfile = some 3 ∧ opsStarted s = true) ∧
    opsStarted up = false ∧ up.plan.nextProfile = none ∧ up.pair.jq = none ∧
    (let s := pairWith (fun q => { q with jq := some { bounded := true } })
     s.plan.quiesceSince = none ∧ s.pair.jq = some { bounded := true } ∧ ({ bounded := true } : JointQ).ownDone = false) := by
  refine ⟨fun op h n s => adminNow_adminN _ _ _ ?_, by decide, by decide, by decide, by decide, by decide, by decide, by decide,
    by decide, by decide, by decide, by decide, by decide, by decide, by decide, fun f d => adminIn_begun _ _ _, by decide, by decide,
    by decide, by decide, by decide, by decide⟩
  revert op; decide

theorem witness_BarAccessRule :
    barUp 0 up = true ∧ barUp 1 up = false ∧ (0x40000 : Nat) % 8 = 0 ∧ ¬ (8 = 8 ∧ 0x40004 % 8 = 0) ∧
    ¬ (2 = 4 ∧ 0x40004 % 4 = 0) ∧
    ¬ (4 = 4 ∧ (0x18002 : BitVec 20).toNat % 4 = 0 ∧ 0x18000 ≤ (0x18002 : BitVec 20).toNat ∧ (0x18002 : BitVec 20).toNat < 0x20000) ∧
    ¬ (4 = 4 ∧ (0x20000 : BitVec 20).toNat % 4 = 0 ∧ 0x18000 ≤ (0x20000 : BitVec 20).toNat ∧ (0x20000 : BitVec 20).toNat < 0x20000) ∧
    answers (0x17FF8 : BitVec 20).toNat up = true ∧ (0x17FF8 : BitVec 20).toNat % 8 = 0 ∧
    answers (0x20000 : BitVec 20).toNat State.reset = false ∧
    ¬ (0x18000 ≤ (0x17FF8 : BitVec 20).toNat ∧ (0x17FF8 : BitVec 20).toNat < 0x20000) ∧ up.dev.ready = true ∧
    (0x1FFFC : BitVec 20).toNat % 4 = 0 ∧ (0x1FFF8 : BitVec 20).toNat % 8 = 0 ∧ 0x18000 ≤ (0x1FFFC : BitVec 20).toNat ∧
    (0x1FFFC : BitVec 20).toNat < 0x20000 ∧ answers (0x1FFFC : BitVec 20).toNat up = true := by
  decide

theorem witness_RegistersKeepTheirAccess :
    barUp (0 : Fin 2).val up = true ∧
    ((0xFFF8 : BitVec 20).toNat / 0x10000 = 0x0 ∧ (0xFFF8 : BitVec 20).toNat ≠ 0x30 ∧ (0xFFF8 : BitVec 20).toNat % 8 = 0) ∧
    (0xD ≤ (0xD0000 : BitVec 20).toNat / 0x10000 ∧ (0xD0000 : BitVec 20).toNat % 8 = 0) ∧ up.dev.ready = true ∧
    (let s : State := { up with led := { up.led with locked := true } }; s.led.locked = true) ∧
    (let s : State := { power (fun p => { p with ph := .boot }) with dev := { up.dev with ready := false } }
     barUp 0 s = true ∧ s.dev.ready = false) ∧
    (0x20000 : BitVec 20).toNat % 8 = 0 ∧ (0x20000 : BitVec 20).toNat / 0x10000 ∉ [0x0, 0x1, 0xB, 0xC] := by decide

/-- A module that is not of a pair and has no image. -/
def fresh : State := { up with plan := State.reset.plan }

theorem witness_AdminRecordOperations :
    (∀ op ∈ [0x80, 0x98, 0x99, 0x9A, 0x9B, 0xA8, 0xA9, 0xAA, 0xAB], ∀ s f, adminNow op (admin op f s) = some (5, begun op f)) ∧
    (let x := begun 0x98 [(40, [1, 0])]; recordExists (arg x 40 2) (arg x 42 2) = true) ∧
    (let x := begun 0x98 [(40, [1, 0]), (42, [1])]; recordExists (arg x 40 2) (arg x 42 2) = false) ∧
    setBad 1 1 (.boot none false) up = some (0x0002, 0x0B01) ∧ setBad 2 0 (.portSplit 4096 64) up = none ∧
    setBad 3 0 (.boot (some 4095) true) up = none ∧ setBad 1 0 (.identity 5 true 9) fresh = none ∧
    setBad 4 0 (.cacheClasses (List.replicate 15 0xFFFF) 0 []) up = none ∧ setBad 0x38 0 (.pairConfig []) up = none ∧
    commitsRefused up = false ∧ commitsRefused (refusing up) = true ∧ owned.led.ownerKey.isSome = true ∧
    up.led.ownerKey = none ∧ (∀ op f d, adminIn (begun op f) d ≠ []) ∧
    (∀ op ∈ [0x9B, 0xA9], adminIn { begun op [] with sgl := [] } [] = []) ∧
    leAt (adminIn (begun 0x9B []) [0, 0, 0, 0, 0, 0, 8, 0]) 6 2 = 8 ∧
    leAt (adminIn (begun 0x9B []) [0, 0, 0, 0, 0, 0, 5, 0]) 6 2 ≠ 8 ∧ up.evr.memFailed = false := by
  refine ⟨fun op h s f => adminNow_admin _ _ _ ?_, ?_, ?_, ?_, ?_, ?_, ?_, ?_, ?_, ?_, ?_, ?_, ?_, fun op f d => adminIn_begun _ _ _,
    ?_, ?_, ?_, ?_⟩
  · revert op; decide
  all_goals decide +kernel

theorem witness_SecurityOperations :
    (∀ op ∈ [0xB0, 0xB1, 0xB2, 0xB3, 0xB4], ∀ s f, adminNow op (admin op f s) = some (5, begun op f)) ∧
    arg (begun 0xB0 [(40, [1])]) 40 1 = 1 ∧ arg (begun 0xB0 [(40, [2])]) 40 1 = 2 ∧
    (up.pow.ph ≠ .off ∧ up.pow.ph ≠ .tripped ∧ up.pow.ph ≠ .standby ∧ State.reset.pow.ph = .off) ∧
    (let s : State := { admin 0xB0 [] up with sec := { up.sec with body := some [7], signing := [(some 5, 1, [8])] } }
     s.sec.body = some [7] ∧ s.sec.signing = [(some 5, 1, [8])] ∧ cmdOf 5 s = some (begun 0xB0 [])) ∧
    (let s : State := { up with sec := { up.sec with body := some [7], signing := [(some 5, 1, [8])] } }
     s.sec.body = some [7] ∧ s.sec.signing = [(some 5, 1, [8])] ∧ cmdOf 5 s = none) ∧
    (let s : State := { up with sec := { up.sec with body := some [7], signing := [(none, 0, [8])] } }
     s.sec.body = some [7] ∧ s.sec.signing = [(none, 0, [8])]) ∧ (up.sec.body = none ∧ up.sec.signing = []) ∧
    commitsRefused up = false ∧ commitsRefused (refusing up) = true ∧
    owned.led.ownerKey.isSome = true ∧ up.led.ownerKey = none ∧
    enrolOk (adminIn { begun 0xB2 [] with sgl := [(0x10000, 128)] } [0x44, 0x56, 0x4F, 0x45, 1]) = true ∧
    enrolOk (adminIn (begun 0xB2 []) []) = false ∧
    chunkBad 0 64 up.sec.staged true = none ∧ chunkBad 4096 64 4096 true = none ∧
    chunkBad 8 64 up.sec.staged true = some 0x0021 ∧ chunkBad 0 64 up.sec.staged false = some 0x0022 := by
  refine ⟨fun op h s f => adminNow_admin _ _ _ ?_, by decide, by decide, by decide, ⟨rfl, rfl, rfl⟩, ⟨rfl, rfl, rfl⟩, ⟨rfl, rfl⟩, by decide,
    by decide, by decide, by decide, by decide, by decide +kernel, by decide +kernel, by decide, by decide, by decide, by decide⟩
  revert op; decide

/-- `up` with PF1 ready, its queues of 8 entries with one entry waiting in each submission queue, and boot volume 0. -/
def booting : State :=
  { up with
    led := { up.led with bootVol := some 0 }
    port0 := { up.port0 with pf1 := { up.port0.pf1 with
      en := true, rdy := true, asq := some { base := 4096, size := 8, tail := 1 }, acq := some { base := 8192, size := 8 },
      ioSq := some { base := 12288, size := 8, tail := 1 }, ioCq := some { base := 16384, size := 8 } } } }

/-- An NVMe entry over sectors from `lba` on, a count from 0, in namespace 1. -/
def nvmeSqe (lba nlb : Dword) : NvmeSqe :=
  { cid := 3, nsid := 1, prp1 := 4096, prp2 := 0x8000, cdw10 := lba, cdw11 := 0, cdw12 := nlb, cdw13 := 0 }

/-- `booting` with the record of PF1 changed. -/
def pf1With (f : Pf1 → Pf1) : State := { booting with port0 := { booting.port0 with pf1 := f booting.port0.pf1 } }

theorem witness_BootControllerAndAdmin :
    (up.port0.pf1.en = false ∧ booting.port0.pf1.en = true ∧ portThere 0 up = true ∧ portThere 1 up = false ∧
      (1 : Dword).getLsbD 0 = true ∧ (0 : Dword).getLsbD 0 = false ∧
      ((0x003F0040 : Dword).extractLsb' 0 12).toNat + 1 = 65 ∧ ((0x0040003F : Dword).extractLsb' 16 12).toNat + 1 = 65 ∧
      ((0x003F003F : Dword).extractLsb' 0 12).toNat + 1 = 64 ∧ ((0x003F003F : Dword).extractLsb' 16 12).toNat + 1 = 64) ∧
    (up.port0.pf1.rdy = false ∧ booting.port0.pf1.rdy = true ∧
      (∀ a : Bool, (nvmeSq 0 a booting).isSome = true ∧ (nvmeCq 0 a booting).isSome = true) ∧
      nvmeSq 0 true booting = some { base := 4096, size := 8, tail := 1 } ∧ nvmeCq 0 true booting = some { base := 8192, size := 8 } ∧
      nvmeSq 0 false (pf1With (fun u => { u with ioSq := none })) = none ∧
      nvmeCq 0 false (pf1With (fun u => { u with ioCq := none })) = none ∧
      8 ≤ (8 : Dword).toNat % 65536 ∧ (7 : Dword).toNat % 65536 < 8) ∧
    nvmeReady (0 : Fin 2).val true booting = true ∧ nvmeReady (0 : Fin 2).val true up = false ∧
    (∀ b : Bool, ({ nvmeSqe 0 0 with unsupported := b } : NvmeSqe).unsupported = b) ∧
    (∀ n ∈ [0, 1, 2, 3, 7, 8, 11], fld (BitVec.ofNat 32 n : Dword).toNat 7 0 = n) ∧
    (nvmeSqe 0 0).nsid.toNat = 1 ∧ ({ nvmeSqe 0 0 with nsid := 2 } : NvmeSqe).nsid.toNat ≠ 1 ∧
    0xFFFFFFFE ≤ (0xFFFFFFFE : Dword).toNat ∧ (0xFFFFFFFD : Dword).toNat < 0xFFFFFFFE ∧
    (0x0B : Dword).getLsbD 31 = false ∧ (0x8000000B : Dword).getLsbD 31 = true ∧ fld (0x8000000B : Dword).toNat 7 0 = 0x0B ∧
    booting.port0.pf1.aers.length < 4 ∧
    (let s := pf1With (fun u => { u with aers := [1, 2, 3, 4] })
     4 ≤ s.port0.pf1.aers.length ∧ nvmeReady 0 true s = true ∧ fld (0x00040000 : Dword).toNat 15 0 = 0 ∧
      (BitVec.ofNat 16 (fld (0x00040000 : Dword).toNat 31 16)) ∈ s.port0.pf1.aers ∧
      (BitVec.ofNat 16 (fld (0x00050000 : Dword).toNat 31 16)) ∉ s.port0.pf1.aers ∧ fld (0x00040001 : Dword).toNat 15 0 ≠ 0) := by
  decide

theorem witness_BootIoCommands :
    (nvmeReady (0 : Fin 2).val false booting = true ∧ fetchStopped booting = false ∧ domainsRun booting = true ∧
      tokensOk booting = true ∧ bootVolume booting = some 0 ∧ (ownOf 0 booting == .hold) = false ∧
      nvmeTurnOver (0 : Fin 2).val booting = false) ∧
    nvmeReady (0 : Fin 2).val false up = false ∧ (∀ b : Bool, ({ nvmeSqe 0 0 with unsupported := b } : NvmeSqe).unsupported = b) ∧
    bootVolume { booting with led := { booting.led with bootVol := none } } = none ∧
    (nvmeSqe 0 0).nsid.toNat = 1 ∧ ¬ ({ nvmeSqe 0 0 with nsid := 2 } : NvmeSqe).nsid.toNat = 1 ∧
    ({ nvmeSqe 0 0 with nsid := 2 } : NvmeSqe).nsid ≠ 0xFFFFFFFF#32 ∧
    64 < nvmeCount (nvmeSqe 0 64) ∧ nvmeCount (nvmeSqe 0 63) ≤ 64 ∧ prpOk 4096 0x8000 (64 * 4096) = true ∧
    prpOk 4098 0x8000 4096 = false ∧
    nsze booting < nvmeLba (nvmeSqe 937 63) + 64 ∧ nvmeLba (nvmeSqe 936 63) + 64 ≤ nsze booting ∧
    (nvmeSqe 0 0).cdw11.getLsbD 2 = false ∧ ({ nvmeSqe 0 0 with cdw11 := 4 } : NvmeSqe).cdw11.getLsbD 2 = true ∧
    (let ranges := fun rs : List (Nat × Nat) => (rs.take (fld (nvmeSqe 1 0).cdw10.toNat 7 0 + 1)).filter (fun r => r.2 != 0)
     ranges [(5, 0)] = [] ∧ ranges [(0, 8), (999, 1), (0, 1001)] = [(0, 8), (999, 1)] ∧
      (∀ r ∈ ranges [(0, 8), (999, 1), (0, 1001)], r.1 + r.2 ≤ nsze booting) ∧
      ∃ r ∈ ranges [(0, 8), (999, 2)], nsze booting < r.1 + r.2) := by decide +kernel

/-- `up` with messages of a source waiting. -/
def waitingMsgs (m : FMsg) : State := { up with fc := { up.fc with queue := [(m.src, [m])] } }

/-- `up` with a block in reset. -/
def resetting (b : Nat) (r : BlockRst) : State := { up with fc := { up.fc with resets := [(b, r)] } }

theorem witness_FaultCollector :
    nextSource up = none ∧
    (let m : FMsg := { src := 0x180, kind := 0x33 }
     nextSource (waitingMsgs m) = some 0x180 ∧ tgetD (waitingMsgs m).fc.queue 0x180 [] = [m] ∧
      (waitingMsgs m).fc.resets.any (fun e => covers e.1 m.src) = false ∧
      ({ waitingMsgs m with fc := { (waitingMsgs m).fc with resets := [(24, {})] } } : State).fc.resets.any
        (fun e => covers e.1 m.src) = true) ∧
    (let m : FMsg := { src := 0x180, kind := 0x33 }
     let f := { cfgOf m.src up with immed := 0, n := 2 }
     let s : State := { up with fc := { up.fc with cfg := [(0x180, f)] } }
     m.kind ≠ 0x3D ∧ (cfgOf m.src s).immed.getLsbD m.kind = false ∧ 1 < (cfgOf m.src s).n ∧
      (cfgOf 0x180 { up with fc := { up.fc with cfg := [(0x180, { f with n := 1 })] } }).n ≤ 1 ∧
      (cfgOf 0x180 { up with fc := { up.fc with cfg := [(0x180, { f with immed := 0x0008000000000000 })] } }).immed.getLsbD 0x33 = true) ∧
    (tget up.fc.resets (blockNo .pairLink) = none ∧
      tget (resetting 24 { startedAt := 1 }).fc.resets (blockNo .pairLink) = some { startedAt := 1 } ∧
      8 ≤ blockNo .pairLink ∧ blockNo (.memberGroup 0) = 8 ∧ blockNo .vault = 25 ∧ blockNo (.lane 7) < 8 ∧
      blockNo .packInterface = 26 ∧
      (tget (resetting 8 { links := [3] }).fc.resets (blockNo (.memberGroup 0))).map (·.links) = some [3] ∧
      (tget (resetting 24 { endedAt := some 4 }).fc.resets (blockNo .pairLink)).bind (·.endedAt) = some 4) ∧
    (barUp 0 up = true ∧ up.dev.ready = true ∧ barUp (0 : Fin 2).val State.reset = false ∧ up.led.locked = false ∧
      ({ up with led := { up.led with locked := true } } : State).led.locked = true ∧ up.fc.errLatch = false ∧
      ({ up with fc := { up.fc with errLatch := true } } : State).fc.errLatch = true ∧ up.evr.memFailed = false ∧
      up.evr.log.length + up.evr.staging.length < logMax ∧ up.evr.full = false ∧ (4 : Nat) ≠ 8) ∧
    (let m := msgOf 0x6033000000000000 true
     m.src = 0x180 ∧ m.kind = 0x33 ∧ m.kind ≠ 0 ∧ reservedSrc m.src = false ∧ (tgetD up.fc.queue m.src []).length < 4) ∧
    reservedSrc (msgOf 0xFFF3000000000000 true).src = true ∧
    (msgOf 0x6000000000000000 true).kind = 0 ∧ (0x1C00 : Word).getLsbD 10 = true ∧ (0x1C00 : Word).getLsbD 11 = true ∧
    (0x1C00 : Word).getLsbD 12 = true := by decide +kernel

theorem witness_SidebandMessages :
    up.pow.aon = true ∧ up.dev.ready = true ∧ up.pow.ph = .run ∧ (0 : Byte) = 0 ∧ (0xFF : Byte) = 0xFF ∧ (0xFE : Byte) ≠ 0 ∧
    (0xFE : Byte) ≠ 0xFF ∧ 1 < (2 : Byte).toNat ∧ (1 : Byte).toNat ≤ 1 ∧ sidebandSigns up = false ∧ up.sec.report = none ∧
    sidebandSigns { up with sec := { up.sec with signing := [(none, 0, [])] } } = true ∧ State.reset.dev.ready = false ∧
    (let s : State := { up with sec := { up.sec with report := some [7] } }; sidebandSigns s = false ∧ s.sec.report = some [7]) ∧
    (power (fun p => { p with ph := .standby })).pow.ph = .standby ∧ (power (fun p => { p with aon := false })).pow.aon = false ∧
    (let s := fun t : Int => { power (fun p => { p with ph := .coldStopped }) with therm := (flushing t false).therm }
     (s 400).pow.ph = .coldStopped ∧ belowThrottle (s 400) = true ∧ belowThrottle (s 500) = false) := by
  decide +kernel

theorem witness_BoundaryScan : State.reset.pow.ph = .off ∧ up.pow.ph ≠ .off ∧ (6 : Byte).toNat ≤ 6 ∧ 6 < (7 : Byte).toNat ∧
    (7 : Byte) ≠ 0xFF ∧ 6 < (0xFE : Byte).toNat ∧ (0xFE : Byte) ≠ 0xFF := by decide

theorem witness_ResetState : (ringOf 262143 State.reset).st = .free := by decide

/-! ## Operands that are no events -/

/-- A message's line sector with data of the wrong length. -/
def shortSector : LineSector := { pool := 0, line := 0, sector := 0, data := [1] }

/-- A journal entry whose span leaves the slice. -/
def wideEntry : JnlWire :=
  { seq := 1, pool := 0, row := 0, kind := 0, positions := 1, slice := 0, first := 15, count := 2, dataCached := false,
    reloc := false, newGen := 0 }

theorem refuses_rounds : (Instr.housekeepingRound { quiet with counts := [] }).wf = false ∧
    (Instr.housekeepingRound { quiet with railsMv := [] }).wf = false ∧
    (Instr.housekeepingRound { quiet with slack := [1, 2, 3] }).wf = false ∧
    (Instr.housekeepingRound { quiet with twins := [] }).wf = false := by decide

theorem refuses_margin : (Instr.marginPlan { twins := [] }).wf = false := by decide

theorem refuses_profileWrite : (Instr.profileWrite { defaultProfile 0 with name := [] }).wf = false := by decide

theorem refuses_writes : (Instr.registerWrite 0 0 3 0).wf = false ∧ (Instr.fcForce 5 0).wf = false := by decide

theorem refuses_rings : (Instr.ringCreate [0]).wf = false ∧ (Instr.push 0 0 []).wf = false ∧
    (Instr.fetchComplete (.entries 0 0 (some [[1]]))).wf = false ∧
    (Instr.fetchComplete (.scatterList 0 (some [1]))).wf = false := by decide

theorem refuses_nonces : (Instr.attest []).wf = false ∧ (Instr.attestStart 0 0 []).wf = false := by decide

theorem refuses_slices : (Instr.destageAge 0 0 16).wf = false ∧ (Instr.destageRetry 0 0 16).wf = false := by decide

theorem refuses_data : (Instr.memberCommandCompletion 0 .success [1] []).wf = false ∧ (Instr.hostDataRead 0 (some [1])).wf = false ∧
    (Instr.forwardData hdr true 0 [1]).wf = false ∧ (Instr.forwardCmd hdr 0 [1]).wf = false := by decide

theorem refuses_ranges : (Instr.nvmeDatasetManagement 0 (nvmeSqe 0 0) (List.replicate 257 (0, 1))).wf = false := by
  decide +kernel

theorem refuses_members : (Instr.memberInserted 0 blankId).wf = false := by decide

theorem refuses_hello : (Instr.hello hdr (helloOf [])).wf = false ∧
    (Instr.hello hdr { helloOf (List.replicate 32 0) with poolOwner := [] }).wf = false ∧
    (Instr.hello hdr { helloOf (List.replicate 32 0) with poolEpoch := [] }).wf = false := by decide

theorem refuses_lines : (Instr.mirrorWrite hdr []).wf = false ∧ (Instr.mirrorWrite hdr [shortSector]).wf = false ∧
    (Instr.jnlMirror hdr wideEntry).wf = false ∧ (Instr.resyncLine hdr [shortSector] none).wf = false ∧
    (Instr.resyncLine hdr [] (some wideEntry)).wf = false := by decide

theorem refuses_links : (Instr.pairLinkUp 3).wf = false ∧ (Instr.hostLinkTrained 0 3 false false false).wf = false := by decide

theorem refuses_blocks : (Instr.packIdentityRead (some [])).wf = false ∧ (Instr.packPresN true (some [])).wf = false := by decide

theorem refuses_codes : (Instr.bypass 6).wf = false ∧ (Instr.readObject 0 0 (2 ^ 32) 1).wf = false ∧
    (Instr.readObject 0 0 0 65536).wf = false ∧ (Instr.vaultReadComplete 0 4194304 0).wf = false := by decide

/-! ## Results worked out by hand -/

/-- Whether a command answers a next state in which `p` holds. -/
def after (i : Instr) (s : State) (p : State → Bool) : Bool :=
  match exec i s with
  | .next t => p t
  | .fault _ => false
  | .refused _ => false

/-- The CRC-32C of the nine digits is the check value 0xE3069283 (04 R136). -/
theorem test_crc32c : crc32c [0x31, 0x32, 0x33, 0x34, 0x35, 0x36, 0x37, 0x38, 0x39] = 0xE3069283 := by decide +kernel

/-- 2 times 0x80 is 0x100, less 0x11D (04 R127). -/
theorem test_field : gfMul 2 0x80 = 0x1D ∧ gfMul 3 0xF4 = 1 := by decide

/-- Line 65,536 of pool 0 has LINE_HI 1: its set is 0 exclusive or 40503 (07 R253). -/
theorem test_set : Machine.setOf 0 65536 = 40503 ∧ Machine.setOf 1 5 = (5 ^^^ 7919) := by decide

/-- A row takes no bits of the opcode table. -/
theorem test_decode : decodeTableWord 64 0 = none ∧ State.reset.withFetchWord 64 0 = State.reset := ⟨rfl, rfl⟩

/-- 05 R190: 17 entries ahead of head are more than a ring of 16 holds; 16 are not. -/
theorem test_doorbell : after (.sqDoorbell 0 2 .lo32 9) (ring 2 sq up) (fun t => (ringOf 2 t).st == .error && (ringOf 2 t).cause == 1) = true ∧
    after (.sqDoorbell 0 2 .lo32 8) (ring 2 sq up) (fun t => (ringOf 2 t).tail == 8 && (ringOf 2 t).st == .active) = true := by
  decide +kernel

/-- 05 R191: head of a completion ring may move to its tail and no further. -/
theorem test_completion_doorbell : after (.cqDoorbell 0 3 .lo32 14) (ring 3 cq up) (fun t => (ringOf 3 t).head == 14) = true ∧
    after (.cqDoorbell 0 3 .lo32 15) (ring 3 cq up) (fun t => (ringOf 3 t).st == .error) = true := by decide +kernel

/-- 01 R35: an idle time of 0 µs is stored as 1. -/
theorem test_gate_ctl : after (.registerWrite 0 0x30 8 0) up (fun t => t.dev.idleUs == 1 && !t.dev.laneGateEn) = true := by
  decide +kernel

/-- 07 R257: a write that would leave class 3 without a way changes no mask. -/
theorem test_way_mask : after (.wayMaskWrite (some 3) 0) up (fun t => tgetD t.cache.ways 3 0xFFFF == 0xFFFF) = true ∧
    after (.wayMaskWrite (some 3) 0x8000) up (fun t => tgetD t.cache.ways 3 0xFFFF == 0x8000) = true := by decide +kernel

/-- 11 R423: BOOT_VOL with VALID 1 and volume 4095, then while the ledger is locked. -/
theorem test_boot_vol : after (.bootVolWrite 0x1FFF) up (fun t => t.led.bootVol == some 4095 && t.led.seq == up.led.seq + 1) = true ∧
    after (.bootVolWrite 0x1FFF) { up with led := { up.led with locked := true } }
      (fun t => t.led.bootVol == none && t.led.discards == 1) = true := by decide +kernel

/-- 03: BNZ takes the branch on a slot that is not 0, BZ does not. -/
theorem test_branches :
    after (.bnz 0) (onCore (word 0x0C 0 0 4 0 0 0 3) ctx5) (fun t => (ctxOf 0 t).map (·.pc) == some 3) = true ∧
    after (.bz 0) (onCore (word 0x0B 0 0 4 0 0 0 3) ctx5) (fun t => (ctxOf 0 t).map (·.pc) == some 1) = true := by decide +kernel

/-- 03: CALL keeps the running extent and enters one of IMM[28:17] + 1 words; RET goes back behind it. -/
theorem test_call_ret :
    after (.call 0) (onCore (word 0x0D 0 0 0 0 0 0 (2 * 2 ^ 17 + 1)) ctx5)
      (fun t => (ctxOf 0 t).map (fun x => (x.pc, x.extStart, x.extLen, x.stack)) == some (1, 1, 3, [(1, 0, 4)])) = true ∧
    after (.ret 0) (onCore (word 0x0E 0 0 0 0 0 0 0) (calls 1))
      (fun t => (ctxOf 0 t).map (fun x => (x.pc, x.stack.length)) == some (1, 0)) = true := by decide +kernel

/-- 02, 03: a LOOK of a constant shifted by 32 writes its slot. -/
theorem test_look : after (.stageResultWritten 0 7) (onCore 0 (flight (word 0x01 1 7 0 0 0 0 0x80000001)))
    (fun t => (ctxOf 0 t).map (fun x => (x.sl 7, x.pend 7)) == some (0x8000000100000000, false)) = true := by decide +kernel

/-- 13 R468: back in P0 the supply follows the plan's code, below it code 0. -/
theorem test_relock :
    after .clockRelockDone { up with therm := { up.therm with relock := some 1, clk := 0 } }
      (fun t => t.therm.clk == 1 && t.therm.vid == 0 && t.therm.relock == none) = true := by decide +kernel

/-- 13 R457: a region in a level is in every lower level, so a region that cools past both in one round leaves both, and
its pending request ends with them (R460). -/
theorem test_leave_both :
    let r : ThrReq := { region := 4, target := 75, grace := 20, at_ := 3 }
    let t := { flushing 400 false with therm := { (flushing 400 false).therm with
      lvl := [(4, 2)], requests := [r], dn := [(17, 9), (18, 9)] } }
    levelOf 4 (stepRegion 4 t) = 0 ∧ (stepRegion 4 t).therm.requests = [] := by decide +kernel

/-- 13: two rounds at 125 °C in region 4 leave it below THROTTLE; the third enters it. -/
theorem test_level : levelOf 4 (stepLevel 4 { flushing 500 false with therm := { (flushing 500 false).therm with up := [(18, 1)] } } 2) = 0 ∧
    levelOf 4 (stepLevel 4 { flushing 500 false with therm := { (flushing 500 false).therm with up := [(18, 2)] } } 2) = 2 := by
  decide +kernel

/-- 16 R545: IDCODE, with PWROK low. -/
theorem test_idcode : after .idcode State.reset (fun t => t.out == [.tap 1 0x17128A6B] && t.tap.ir == 1) = true := by decide

/-- 15: SET_EVENT_RECEIVER answers status 0 and stores the receiver. -/
theorem test_event_receiver : after (.setEventReceiver 3 0x21 true) up
    (fun t => t.sec.recvEid == 0x21 && t.sec.recvEn && t.out == [.mctp 0x7F 4 3 0 []]) = true := by decide +kernel

/-- 10 R357: an acknowledgement up to 4 leaves the kept message 5. -/
theorem test_mirror_ack : after (.mirrorAck hdr 4) { paired with pair := { paired.pair with unacked := [(1, 4, .farewell), (1, 5, .farewell)] } }
    (fun t => t.pair.unacked == [(1, 5, .farewell)]) = true := by decide +kernel

/-- 06 R246: 65 entries are fatal. -/
theorem test_pf1 : after (.pf1ControllerEnable 0 1 4096 8192 0x003F0040) up (fun t => t.port0.pf1.cfs) = true ∧
    after (.pf1ControllerEnable 0 1 4096 8192 0x003F003F) up (fun t => t.port0.pf1.rdy && !t.port0.pf1.cfs) = true := by
  decide +kernel

/-- 14 R476, R478: the sources of a lane, and one that no unit has. -/
theorem test_sources : unitOf 0x047 = some 7 ∧ unitOf 0x17F = some 23 ∧ reservedSrc 0x3FF = true := by decide +kernel

/-- 07 R293: a member of a pool that is restored from anchors has both its headers read, at LBA 1,024 and 8,192 (R290). -/
theorem test_read_headers :
    ((readHeaders 6 0 2 { up with jnl := { up.jnl with restorePools := [0] } }).mem.cmds.map (fun e => (e.2.port, e.2.lba, e.2.count))) =
      [(6, 1024, 1), (6, 8192, 1)] := by decide +kernel

/-- 07 R293: the copy with the higher checkpoint sequence is read, from the page after its header. -/
theorem test_best_copy :
    let h (n port : Nat) : CkptHdr := { seq := n, port := port, copyA := false }
    let t := kickRestore { up with jnl := { up.jnl with restorePools := [1], hdrs := [h 4 3, h 9 5] } }
    t.jnl.restFrom = some (h 9 5) ∧ t.jnl.hdrs = [h 4 3] ∧ (t.mem.cmds.head?.map (fun e => (e.2.port, e.2.lba, e.2.count))) = some (5, 8193, 64) := by
  decide +kernel

/-! ## Witnesses of the further clauses -/

theorem witness_CommandsWaitForDirtySectors_held :
    let x := begun 0x04 [(40, [1])]
    let s := holding x { inPair (members online1 []) with pair := { paired.pair with st := 5 } }
    cmdOf 5 s = some x ∧ x.ph = .begun ∧ x.opcode = 0x04 ∧ entryOwn x.entry s = .hold ∧ entryOwn x.entry (holding x up) ≠ .hold := by
  decide +kernel

theorem witness_DomainsGateAndWake_stopped : up.dev.groupFence.getLsbD (15 : Fin 16).val = false ∧
    ∀ e ∈ up.mem.stopped, portGroup e.1 ≠ (15 : Fin 16).val := by decide

/-- A row operation of a reshape, which 09 gives its own procedure. -/
def opRuled : Op := { opRun with kind := 5 }

/-- An operation that goes on after a loss. -/
def opGoesOn : Op := { opRun with cont0 := true }

theorem witness_ProgramsEnd_ruled :
    aboutOf plan1 opRuled [(word 0x0F 1 0 5 0 0 0 0, ctx5)] ∧ aboutOf plan1 opGoesOn [(word 0x10 0 0 5 0 0 0 3, erased0)] ∧
    ruled opRuled = true ∧ opRuled.ctx = some 0 ∧ ruled opRun = false ∧ opGoesOn.cont0 = true ∧ opRun.cont0 = false :=
  ⟨aboutOf_of_all (by decide +kernel), aboutOf_of_all (by decide +kernel), by decide +kernel⟩

theorem witness_MemberInstructionsLaunch_owner :
    owns opRun.pool (onCore 0 ctx5) = true ∧ owns opRun.pool (inPair (onCore 0 ctx5)) = false := by decide +kernel

/-- A reservation command at slot 1. -/
def resv1 : MCmd := { port := 1, slot := some (0, 1), owner := .resv 0 1 }

theorem witness_MemberCompletions_reservation :
    (let s := inPair (members online1 [(9, resv1)])
     tget s.mem.cmds 9 = some resv1 ∧ resv1.dead = false ∧ resv1.slot = some (0, 1) ∧ s.led.paired = true ∧ owns 0 s = false ∧
      resv1.owner = .resv 0 1) ∧
    (∀ a b, ({ port := 1, slot := some (0, 1) } : MCmd).owner ≠ .resv a b) ∧
    (∀ e ∈ (members online1 [(9, { port := 1, slot := some (0, 1) })]).mem.cmds, ∀ a b, e.2.owner ≠ .resv a b) := by
  refine ⟨by decide +kernel, fun _ _ h => (nomatch h), ?_⟩
  intro e h a b
  have : e = (9, { port := 1, slot := some (0, 1) }) := List.mem_singleton.mp h
  subst this; exact fun h => nomatch h

theorem witness_PresenceAndDiscovery_prepared :
    let s := fun r => members { r with prep := some false } []
    let waits := fun t => (slotRec 0 1 t).st = .failed ∨ (slotRec 0 1 t).adopting.isSome = true ∨ owns (0 : Fin 8).val t = false
    ¬ waits (s { online1 with st := .rebuilding }) ∧ waits (s { online1 with st := .failed }) ∧
    waits (s { online1 with adopting := some 5 }) ∧ waits (inPair (s online1)) := by decide +kernel

/-- A state of a pair's pool that this module owns, with a record of it proposed. -/
def proposed0 (s : State) : State := { ownPair s with pair := { (ownPair s).pair with joint := [{ r := poolShared 0 (ownPair s) }] } }

theorem witness_MovesAndWalks_joint :
    (let r : Reloc := { toSlot := 3, boundary := 2, next := 5, window := [32] }
     let s := ownPair (moving r)
     relocOf 0 1 2 s = some r ∧ works 0 s = true ∧ r.settled = false ∧ r.stopped = false ∧ r.paused = false ∧ r.full = false ∧
      commitsRefused s = false ∧ jointPool 0 s = true ∧ poolPending 0 s = false ∧ jointPool 0 (proposed0 (moving r)) = true ∧
      poolPending 0 (proposed0 (moving r)) = true ∧ jointPool 0 (moving r) = false ∧ works 0 (inPair (moving r)) = false ∧
      works 0 (moving r) = true) ∧
    (∀ r ∈ [({ stopped := true } : Reloc), { paused := true }, { full := true }], relocOf 0 1 2 (moving r) = some r) ∧
    (let w : Walk := { next := 3 }
     let s := ownPair (walkOf w restored)
     tget (poolRec 0 s).walks 1 = some w ∧ works 0 s = true ∧ w.remark = [] ∧ commitsRefused s = false ∧
      (slotRec 0 1 s).st = .rebuilding ∧ jointPool 0 s = true ∧ poolPending 0 s = false ∧
      poolPending 0 (proposed0 (walkOf w restored)) = true ∧ jointPool 0 (walkOf w restored) = false) ∧
    (let r : Reshape := { st := 2, finished := [0] }
     let s := ownPair (reshaping r)
     walking 0 s = some r ∧ works 0 s = true ∧ r.remark = [] ∧ commitsRefused s = false ∧ jointPool 0 s = true ∧
      poolPending 0 s = false ∧ poolPending 0 (proposed0 (reshaping r)) = true ∧
      r.finished.filter (fun row => !(dirtySources 0 row s).isEmpty) = [] ∧ walking 0 (inPair (reshaping r)) = some r ∧
      works 0 (inPair (reshaping r)) = false) ∧
    (let n := (walkRows 0 (reshaping { st := 2 })).length
     let r : Reshape := { st := 2, b := n }
     walking 0 (reshaping r) = some r ∧ works 0 (reshaping r) = true ∧ jointPool 0 (reshaping r) = false ∧
      (walkRows 0 (reshaping r)).length ≤ r.b ∧ r.window = [] ∧ (reshaping r).pipe.ops = []) := by
  refine ⟨?_, ?_, ?_, ?_, ?_⟩ <;> decide +kernel

theorem witness_PoolOperations_joint :
    (let s := ownPair (reshaping {})
     slotActBad .fail 0 1 s = none ∧ slotActBad .retire 0 1 (ownPair (members online1 [])) = none ∧
      commitsRefused s = false ∧ jointPool 0 s = true ∧ jointPool 0 (reshaping {}) = false ∧ poolValid 0 s = true ∧ owns 0 s = true ∧
      (poolRec 0 s).reshape.st ≠ 1 ∧ (poolRec 0 s).reshape.st ≠ 2 ∧ (poolRec 0 s).patrol.st = 0) ∧
    let s := updPatrol 0 (fun y => { y with st := 3 }) (members online1 [])
    (poolRec 0 (ownPair s)).patrol.st = 3 ∧ jointPool 0 (ownPair s) = true ∧ (poolRec 0 s).patrol.st = 3 ∧ jointPool 0 s = false ∧
      commitsRefused s = false ∧ poolValid 0 s = true ∧ owns 0 s = true := by
  refine ⟨?_, ?_⟩ <;> decide +kernel

theorem witness_JointCommits_refused :
    (let s := ownPair (members online1 [])
     let x : PoolShare := {}
     let t := { s with pair := { s.pair with joint := [{ r := .poolRecord 0 x }] } }
     t.pair.joint = [{ r := .poolRecord 0 x }] ∧ t.pair.unacked = [] ∧ owns (0 : Fin 8).val t = true ∧ t.pair.st = 4) ∧
    (let q : JointQ := { r := some (.profileInForce 2), cmd := some 5, bounded := true }
     let s := pairWith (fun p => { p with jq := some q })
     s.pair.jq = some q ∧ q.r = some (.profileInForce 2) ∧ s.led.cohort < s.led.peer ∧
      ({ s with led := { s.led with cohort := 12 } } : State).led.peer ≤ 12) ∧
    (let s := pairWith (fun q => { q with jq := some {} })
     s.pair.jq = some {} ∧ ({} : JointQ).r = none) ∧
    (let s := pairWith (fun q => { q with xfer := .acquire, xferCur := 7 })
     s.pair.xfer = .acquire ∧ s.pair.xferCur = (7 : Fin 8).val) ∧
    (let s := pairWith (fun q => { q with staged := [.profileInForce 1], jq := some { bounded := true } })
     s.pair.staged = [.profileInForce 1] ∧ jointRecord (.profileInForce 1) s = true ∧ jointRecord (.pairConfig [1]) s = false) := by
  refine ⟨?_, ?_, ?_, ?_, ?_⟩ <;> decide +kernel

theorem witness_Forwarding_gathered :
    let x : Cmd := { begun 0x02 [] with src := .peer 8 }
    let s := holding x paired
    peerCmd 8 s = some 5 ∧ cmdOf 5 s = some x ∧ x.got + 3 < x.count ∧ x.count ≤ x.got + 4 ∧
    (begun 0x01 []).opcode ≠ 2 ∧ (begun 0x01 []).opcode ≠ 3 := by decide +kernel

theorem witness_PowerLossStartsTheFlush_floor : atFloor up = false ∧
    (let s : State := { up with dev := { up.dev with level := 4 } }; atFloor s = true ∧ s.pow.ph = .run) := by decide

/-- A context that waits for a schedule, with every duty at control core 2. -/
def scheduling : State :=
  { up with dev := { up.dev with duty := [(0, 2), (1, 2)] },
            pipe := { up.pipe with ctxs := [(0, flightOf { schedWait := some 4 })] } }

theorem witness_ClocksAndMargin_schedule : planFirst scheduling = true ∧ planFirst up = false := by decide +kernel


end Sys2Proof.Tests
end

