-- ==== Sys2Proof/Proofs/BarAccess.lean ====
section
/-! SUPPORT. Sys2Proof/Proofs/BarAccess.lean: which widths and alignments a read and a write of BAR0 take (00 R2), and what
REGISTER_WRITE does with each. -/

namespace Sys2Proof.Machine

/-! ## Reads of BAR0 -/

section
variable {p off : Nat} {s : State} (up : barUp p s = true)
include up

theorem readBar_of_barUp (width : Nat) : readBar p off width s =
    if width = 8 ∧ off % 8 = 0 then some (BitVec.ofNat 64 (readReg p (off / 8 * 8) s))
    else if width = 4 ∧ off % 4 = 0 then
      some (BitVec.ofNat 64 (readReg p (off / 8 * 8) s / 2 ^ (off % 8 * 8) % 2 ^ 32))
    else none := by
  simp only [readBar, up, Bool.not_true, Bool.false_eq_true, if_false]

theorem readBar_whole (h : off % 8 = 0) : readBar p off 8 s = some (BitVec.ofNat 64 (readReg p off s)) := by
  rw [readBar_of_barUp up, if_pos ⟨rfl, h⟩, Nat.div_mul_cancel (Nat.dvd_of_mod_eq_zero h)]

theorem readBar_lowHalf (h : off % 8 = 0) :
    readBar p off 4 s = some (BitVec.ofNat 64 (readReg p off s % 2 ^ 32)) := by
  have aligned : off % 4 = 0 := by omega
  rw [readBar_of_barUp up, if_neg (by omega), if_pos ⟨rfl, aligned⟩,
    Nat.div_mul_cancel (Nat.dvd_of_mod_eq_zero h), h, Nat.zero_mul, Nat.pow_zero, Nat.div_one]

theorem readBar_highHalf (h : off % 8 = 0) :
    readBar p (off + 4) 4 s = some (BitVec.ofNat 64 (readReg p off s / 2 ^ 32 % 2 ^ 32)) := by
  have aligned : (off + 4) % 4 = 0 := by omega
  have register : (off + 4) / 8 * 8 = off := by omega
  have half : (off + 4) % 8 * 8 = 32 := by omega
  rw [readBar_of_barUp up, if_neg (by omega), if_pos ⟨rfl, aligned⟩, register, half]

theorem readBar_none {width : Nat} (h8 : ¬ (width = 8 ∧ off % 8 = 0)) (h4 : ¬ (width = 4 ∧ off % 4 = 0)) :
    readBar p off width s = none := by
  rw [readBar_of_barUp up, if_neg h8, if_neg h4]

end

/-! ## Writes of BAR0 -/

/-- A write that is not 64 bits naturally aligned, nor 32 bits naturally aligned in the MSI-X table, has no effect (00 R2). -/
theorem writeBar_discarded {p off width : Nat} (w : Word) (s : State) (h8 : ¬ (width = 8 ∧ off % 8 = 0))
    (h4 : ¬ (width = 4 ∧ off % 4 = 0 ∧ 0x18000 ≤ off ∧ off < 0x20000)) : writeBar p off width w s = s := by
  by_cases table : 0x18000 ≤ off ∧ off < 0x20000
  · rw [writeBar, if_pos table]
    refine if_neg fun ⟨size, aligned⟩ => ?_
    obtain rfl | rfl := size
    · exact h8 ⟨rfl, aligned⟩
    · exact h4 ⟨rfl, aligned, table⟩
  · rw [writeBar, if_neg table, if_neg h8]

theorem writeBar_register {off : Nat} (p : Nat) (w : Word) (s : State) (aligned : off % 8 = 0)
    (outside : ¬ (0x18000 ≤ off ∧ off < 0x20000)) : writeBar p off 8 w s = writeReg p off w s := by
  rw [writeBar, if_neg outside, if_pos ⟨rfl, aligned⟩]

theorem writeBar_msixTable {off width : Nat} (p : Nat) (w : Word) (s : State) (size : width = 4 ∨ width = 8)
    (aligned : off % width = 0) (table : 0x18000 ≤ off ∧ off < 0x20000) :
    writeBar p off width w s = msixWrite p (off - 0x18000) width (w.toNat % 2 ^ (8 * width)) s := by
  rw [writeBar, if_pos table, if_pos ⟨size.symm, aligned⟩]

theorem barWrite_taken {p off : Nat} {s : State} (f : State → State) (up : barUp p s = true) (there : answers off s = true) :
    barWrite p off f s = f s := by
  simp [barWrite, up, there]

theorem barWrite_unanswered {p off : Nat} {s : State} (f : State → State) (h : barUp p s = false ∨ answers off s = false) :
    barWrite p off f s = s := by
  obtain down | absent := h
  · simp [barWrite, down]
  · simp [barWrite, absent]

theorem barWrite_of_effectless {f : State → State} {s : State} (p off : Nat) (h : f s = s) : barWrite p off f s = s := by
  rw [barWrite, h, ite_self]

/-! ## REGISTER_WRITE -/

theorem exec_registerWrite (p : Fin 2) (off : BitVec 20) (width : Nat) (v : Word) (s : State) :
    exec (.registerWrite p off width v) s =
      .next (settle (barWrite p.val off.toNat (writeBar p.val off.toNat width v) s)) := rfl

/-- Settles O51: a read by the half of the register that its offset names, a write by its width and alignment, then by
whether it falls in the MSI-X table. -/
theorem barAccessRule : Obligations.BarAccessRule := by
  unfold Obligations.BarAccessRule
  refine ⟨fun p off s up => ⟨fun h => ?reads, fun width h8 h4 => readBar_none up h8 h4⟩, ?discarded, ?register,
    ?unanswered, ?msixTable⟩
  case reads => exact ⟨readBar_whole up h, readBar_lowHalf up h, readBar_highHalf up h⟩
  case discarded =>
    intro p off width v s h8 h4
    rw [exec_registerWrite, barWrite_of_effectless _ _ (writeBar_discarded v s h8 h4)]
  case register =>
    intro p off v s up there aligned outside
    rw [exec_registerWrite, barWrite_taken _ up there, writeBar_register _ v s aligned outside]
  case unanswered =>
    intro p off width v s h
    rw [exec_registerWrite, barWrite_unanswered _ h]
  case msixTable =>
    intro p off width v s up there size aligned lower upper
    rw [exec_registerWrite, barWrite_taken _ up there, writeBar_msixTable _ v s size aligned ⟨lower, upper⟩]

end Sys2Proof.Machine
end

