-- ==== Sys2Proof/Proofs/RingDoorbells.lean ====
section
/-! SUPPORT. Sys2Proof/Proofs/RingDoorbells.lean: what a doorbell does to an ACTIVE ring (05 R190, R191). The fetch that a new
tail starts only notes its reads in the ring, so that the ring's head, tail and state are those that the doorbell left. -/

namespace Sys2Proof.Machine

/-! ## Fetch of a submission ring -/

/-- From `s` to `t` a ring's context is the same but for the entries whose read is on its way. -/
def SameButReading (r : Nat) (s t : State) : Prop :=
  ringOf r t = { ringOf r s with reading := (ringOf r t).reading }

theorem ringOf_setRing_same {r : Nat} {v : Ring} (s : State) (listed : v.st ≠ .free) : ringOf r (setRing r v s) = v := by
  rw [ringOf_setRing r r v s listed, if_pos rfl]

theorem readEntry_ringOf {r : Nat} {s : State} (i : Dword) (listed : (ringOf r s).st ≠ .free) :
    ringOf r (readEntry r i s) = { ringOf r s with reading := nins (ringOf r s).reading i.toNat } := by
  have sent : ringOf r (readEntry r i s) =
      ringOf r (setRing r { ringOf r s with reading := nins (ringOf r s).reading i.toNat } s) := rfl
  rw [sent, ringOf_setRing_same]
  exact listed

theorem SameButReading.readEntry {r : Nat} {s t : State} (same : SameButReading r s t) (i : Dword)
    (listed : (ringOf r s).st ≠ .free) : SameButReading r s (readEntry r i t) := by
  have listed' : (ringOf r t).st ≠ .free := by rw [same]; exact listed
  rw [SameButReading, readEntry_ringOf i listed', same]

theorem fetchRing_sameButReading {r : Nat} {s : State} (listed : (ringOf r s).st ≠ .free) :
    SameButReading r s (fetchRing r s) := by
  refine List.foldlRecOn (motive := SameButReading r s) _ _ rfl fun t same i _ => ?_
  split
  · exact same
  · exact same.readEntry i listed

theorem kickRing_sameButReading {r : Nat} {s : State} (listed : (ringOf r s).st ≠ .free) :
    SameButReading r s (kickRing r s) := by
  unfold kickRing
  dsimp only
  split
  · exact fetchRing_sameButReading listed
  · rfl

/-! ## Submission doorbells (05 R190) -/

theorem countStale_rings (p : Nat) (s : State) : (countStale p s).rings = s.rings := setPort_rings ..

theorem countStale_stale (p : Nat) (s : State) :
    (getPort p (countStale p s)).stale = sat32 (getPort p s).stale 1 := by
  simp [countStale, updPort]

section
variable {p r cause : Nat} {t : Dword} {s : State}

theorem applyTail_stale
    (h : (ringSize (ringOf r s) < cdiff t (ringOf r s).head ∧ cdiff (ringOf r s).tail t ≤ ringSize (ringOf r s)) ∨
      (cdiff t (ringOf r s).head ≤ ringSize (ringOf r s) ∧
        cdiff t (ringOf r s).head < cdiff (ringOf r s).tail (ringOf r s).head)) :
    applyTail p r t cause s = countStale p s := by
  unfold applyTail
  obtain ⟨beyond, behind⟩ | ⟨within, behind⟩ := h
  · exact (if_pos beyond).trans (if_pos behind)
  · exact (if_neg (Nat.not_lt.mpr within)).trans (if_pos behind)

theorem applyTail_outOfRange (beyond : ringSize (ringOf r s) < cdiff t (ringOf r s).head)
    (ahead : ringSize (ringOf r s) < cdiff (ringOf r s).tail t) :
    applyTail p r t cause s = ringError r cause (0x020 + p) (countDbError p s) :=
  (if_pos beyond).trans (if_neg (Nat.not_le.mpr ahead))

theorem applyTail_moves (within : cdiff t (ringOf r s).head ≤ ringSize (ringOf r s))
    (forward : cdiff (ringOf r s).tail (ringOf r s).head ≤ cdiff t (ringOf r s).head) :
    applyTail p r t cause s = kickRing r (setRing r { ringOf r s with tail := t } s) :=
  (if_neg (Nat.not_lt.mpr within)).trans (if_neg (Nat.not_lt.mpr forward))

end

/-- After a new tail, the fetch that it starts included, the ring is the one before with that tail and its new reads. -/
theorem kickRing_setRing_tail {r : Nat} {s : State} (t : Dword) (listed : (ringOf r s).st ≠ .free) :
    ∃ reads, ringOf r (kickRing r (setRing r { ringOf r s with tail := t } s)) =
      { ringOf r s with tail := t, reading := reads } := by
  have moved : ringOf r (setRing r { ringOf r s with tail := t } s) = { ringOf r s with tail := t } := by
    rw [ringOf_setRing_same]
    exact listed
  have same := kickRing_sameButReading (r := r) (s := setRing r { ringOf r s with tail := t } s) (by rwa [moved])
  rw [SameButReading, moved] at same
  exact ⟨_, same⟩

theorem doorbellValue_of_ne_hi32 {w : DbWidth} (v : Word) (h : w ≠ .hi32) : doorbellValue w v = some (v.setWidth 32) := by
  cases w with
  | w64 => rfl
  | lo32 => rfl
  | hi32 => exact absurd rfl h

theorem exec_sqDoorbell (p : Fin 2) (r : Fin 262144) (w : DbWidth) (v : Word) (s : State) :
    exec (.sqDoorbell p r w v) s = .next (if barUp p.val s then sqDoorbell p.val r.val w v s else s) := rfl

theorem exec_sqDoorbell_active {p : Fin 2} {r : Fin 262144} {w : DbWidth} (v : Word) {s : State} (low : w ≠ .hi32)
    (up : barUp p.val s = true) (inside : ringIn p.val r.val s = true) (active : (ringOf r.val s).st = .active)
    (submission : (ringOf r.val s).typ = 0) :
    exec (.sqDoorbell p r w v) s = .next (applyTail p.val r.val (v.setWidth 32) 1 s) := by
  simp [exec_sqDoorbell, sqDoorbell, doorbellValue_of_ne_hi32 v low, up, inside, active, submission]

/-- Settles O12: the doorbell applies its value as the tail, and the three cases are those of `applyTail`. -/
theorem submissionDoorbellRule : Obligations.SubmissionDoorbellRule := by
  unfold Obligations.SubmissionDoorbellRule
  intro p r w v s low up inside active submission
  have run := exec_sqDoorbell_active v low up inside active submission
  refine ⟨fun stale => ?stale, fun ⟨beyond, ahead⟩ => ?outOfRange, fun ⟨within, forward⟩ => ?moves⟩
  case stale =>
    exact ⟨_, run.trans (congrArg _ (applyTail_stale stale)), countStale_rings .., countStale_stale ..⟩
  case outOfRange => exact run.trans (congrArg _ (applyTail_outOfRange beyond ahead))
  case moves =>
    have listed : (ringOf r.val s).st ≠ .free := by simp [active]
    obtain ⟨reads, ring⟩ := kickRing_setRing_tail (v.setWidth 32) listed
    refine ⟨_, run.trans (congrArg _ (applyTail_moves within forward)), ?_⟩
    dsimp only
    rw [ring]
    exact ⟨rfl, rfl, active⟩

/-! ## Completion doorbells (05 R191) -/

section
variable {p r : Nat} {h : Dword} {s : State}

theorem applyHead_moves (available : cdiff h (ringOf r s).head ≤ cdiff (ringOf r s).tail (ringOf r s).head) :
    applyHead p r h s =
      deliverEvents 17 p (drainStash 1048576 r (setRing r { ringOf r s with head := h } s)) :=
  if_pos available

theorem applyHead_stale (beyond : cdiff (ringOf r s).tail (ringOf r s).head < cdiff h (ringOf r s).head)
    (behind : cdiff (ringOf r s).head h ≤ ringSize (ringOf r s)) : applyHead p r h s = countStale p s :=
  (if_neg (Nat.not_le.mpr beyond)).trans (if_pos behind)

theorem applyHead_outOfRange (beyond : cdiff (ringOf r s).tail (ringOf r s).head < cdiff h (ringOf r s).head)
    (ahead : ringSize (ringOf r s) < cdiff (ringOf r s).head h) :
    applyHead p r h s = ringError r 1 (0x020 + p) (countDbError p s) :=
  (if_neg (Nat.not_le.mpr beyond)).trans (if_neg (Nat.not_le.mpr ahead))

end

theorem exec_cqDoorbell (p : Fin 2) (r : Fin 262144) (w : DbWidth) (v : Word) (s : State) :
    exec (.cqDoorbell p r w v) s =
      .next (if barUp p.val s then settleDrains (cqDoorbell p.val r.val w v s) else s) := rfl

theorem exec_cqDoorbell_active {p : Fin 2} {r : Fin 262144} {w : DbWidth} (v : Word) {s : State} (low : w ≠ .hi32)
    (up : barUp p.val s = true) (inside : ringIn p.val r.val s = true) (active : (ringOf r.val s).st = .active)
    (completion : (ringOf r.val s).typ ≠ 0) :
    exec (.cqDoorbell p r w v) s = .next (settleDrains (applyHead p.val r.val (v.setWidth 32) s)) := by
  simp [exec_cqDoorbell, cqDoorbell, doorbellValue_of_ne_hi32 v low, up, inside, active, completion]

/-- Settles O13: the doorbell applies its value as the head, and the three cases are those of `applyHead`. -/
theorem completionDoorbellRule : Obligations.CompletionDoorbellRule := by
  unfold Obligations.CompletionDoorbellRule
  intro p r w v s low up inside active completion
  rw [exec_cqDoorbell_active v low up inside active completion]
  refine ⟨fun available => ?moves, fun beyond behind => ?stale, fun beyond ahead => ?outOfRange⟩
  case moves => rw [applyHead_moves available]
  case stale => rw [applyHead_stale beyond behind, countStale]
  case outOfRange => rw [applyHead_outOfRange beyond ahead, countDbError]

end Sys2Proof.Machine
end

