-- ==== Sys2Proof/Proofs/StepFrame.lean ====
section
/-! SUPPORT. Sys2Proof/Proofs/StepFrame.lean: what every command, and so every step, leaves alone (95), from the one lemma that each
command has about `kept` or `fixed`; that every well-formed command answers. -/

namespace Sys2Proof.Machine

/-! ## Every command and the records -/

theorem exec_keptBy (i : Instr) (s : State) (other : bearsOnRecords i = false) : KeptBy (exec i s) s := by
  cases i with
  | intakeBeginEntry => exact execIntakeBeginEntry_kept s
  | intakeResume => exact execIntakeResume_kept s
  | rowOrderRelease pool row => exact execRowOrderRelease_kept pool row s
  | laneWake lane => exact execLaneWake_kept lane s
  | laneGate lane wakeRequest => exact execLaneGate_kept lane wakeRequest s
  | memberGroupGate g => exact execMemberGroupGate_kept g s
  | domainWake d => exact execDomainWake_kept d s
  | housekeepingRound r => exact execHousekeepingRound_kept r s
  | throttleGraceEnd region => exact execThrottleGraceEnd_kept region s
  | throttleEscalate region => exact execThrottleEscalate_kept region s
  | clockRelockDone => exact execClockRelockDone_kept s
  | thermtrip => exact execThermtrip_kept s
  | xtalLoss => exact execXtalLoss_kept s
  | pllLockLoss p => exact execPllLockLoss_kept p s
  | marginPlan m => exact execMarginPlan_kept m s
  | deepStandby => exact execDeepStandby_kept s
  | planStage data => exact execPlanStage_kept data s
  | planCommit => exact execPlanCommit_kept s
  | planSwitch => exact execPlanSwitch_kept s
  | planKeyInstall data => exact execPlanKeyInstall_kept data s
  | planKeyRemove data => exact execPlanKeyRemove_kept data s
  | scheduleStored => exact execScheduleStored_kept s
  | longWait geometry erased => exact execLongWait_kept geometry erased s
  | planSectionReload geometry => exact execPlanSectionReload_kept geometry s
  | profileRead => exact execProfileRead_kept s
  | profileWrite p => exact execProfileWrite_kept p s
  | profileSelect => exact execProfileSelect_kept s
  | profileLock data => exact execProfileLock_kept data s
  | profileQuiesceApply => exact execProfileQuiesceApply_kept s
  | dispatch d => exact execDispatch_kept d s
  | look core => exact execLook_kept core s
  | mrd core => exact execMrd_kept core s
  | mrdLateReport ctx slot pos => exact execMrdLateReport_kept ctx slot pos s
  | mwr core => exact execMwr_kept core s
  | gmx core => exact execGmx_kept core s
  | xor core => exact execXor_kept core s
  | tag core => exact execTag_kept core s
  | jnl core => exact execJnl_kept core s
  | premarkTimeout ctx => exact execPremarkTimeout_kept ctx s
  | jcl core => exact execJcl_kept core s
  | wait core => exact execWait_kept core s
  | br core => exact execBr_kept core s
  | bz core => exact execBz_kept core s
  | bnz core => exact execBnz_kept core s
  | call core => exact execCall_kept core s
  | ret core => exact execRet_kept core s
  | done core => exact execDone_kept core s
  | trap core => exact execTrap_kept core s
  | nop core => exact execNop_kept core s
  | stageResultWritten ctx slot => exact execStageResultWritten_kept ctx slot s
  | programStoreReload => exact execProgramStoreReload_kept s
  | registerWrite port off width value => exact execRegisterWrite_kept port off width value s
  | read r => exact execRead_kept r s
  | write cmd => exact execWrite_kept cmd s
  | writeFua cmd => exact execWriteFua_kept cmd s
  | flush cmd => exact execFlush_kept cmd s
  | deallocate cmd => exact execDeallocate_kept cmd s
  | verify cmd => exact execVerify_kept cmd s
  | routineCall cmd => exact execRoutineCall_kept cmd s
  | acceptLoss cmd => exact execAcceptLoss_kept cmd s
  | identify => exact execIdentify_kept s
  | ringCreate desc => exact execRingCreate_kept desc s
  | ringReset => exact execRingReset_kept s
  | ringShutdown => exact execRingShutdown_kept s
  | ringEnable => exact execRingEnable_kept s
  | abort => exact execAbort_kept s
  | drainEnd ring => exact execDrainEnd_kept ring s
  | sqDoorbell port ring width value => exact execSqDoorbell_kept port ring width value s
  | cqDoorbell port ring width value => exact execCqDoorbell_kept port ring width value s
  | push port offset data => exact execPush_kept port offset data s
  | fetchComplete w => exact execFetchComplete_kept w s
  | coalesceTimeout ring => exact execCoalesceTimeout_kept ring s
  | msixVectorUnmask port vector => exact execMsixVectorUnmask_kept port vector s
  | pf0Flr port => exact execPf0Flr_kept port s
  | adminCtlWrite port value => exact execAdminCtlWrite_kept port value s
  | poolStatus => exact execPoolStatus_kept s
  | lostListRead => exact execLostListRead_kept s
  | memberAdopt => exact execMemberAdopt_kept s
  | memberRetire => exact execMemberRetire_kept s
  | memberFail => exact execMemberFail_kept s
  | patrolStart => exact execPatrolStart_kept s
  | ledgerRead => exact execLedgerRead_kept s
  | logRead => exact execLogRead_kept s
  | logClear data => exact execLogClear_kept data s
  | logFlush => exact execLogFlush_kept s
  | hostTime => exact execHostTime_kept s
  | attest nonce => exact execAttest_kept nonce s
  | certRead => exact execCertRead_kept s
  | learnApprove => exact execLearnApprove_kept s
  | nvmeIdentify port e => exact execNvmeIdentify_kept port e s
  | nvmeCreateIoQueue port submission e => exact execNvmeCreateIoQueue_kept port submission e s
  | nvmeDeleteIoQueue port submission e => exact execNvmeDeleteIoQueue_kept port submission e s
  | nvmeGetLogPage port e => exact execNvmeGetLogPage_kept port e s
  | nvmeGetFeatures port e => exact execNvmeGetFeatures_kept port e s
  | nvmeSetFeatures port e => exact execNvmeSetFeatures_kept port e s
  | nvmeAsyncEventRequest port e => exact execNvmeAsyncEventRequest_kept port e s
  | nvmeAbort port e => exact execNvmeAbort_kept port e s
  | nvmeRead port e => exact execNvmeRead_kept port e s
  | nvmeWrite port e => exact execNvmeWrite_kept port e s
  | nvmeFlush port e => exact execNvmeFlush_kept port e s
  | nvmeWriteZeroes port e => exact execNvmeWriteZeroes_kept port e s
  | nvmeDatasetManagement port e ranges => exact execNvmeDatasetManagement_kept port e ranges s
  | nvmeControllerReset port => exact execNvmeControllerReset_kept port s
  | evictionEnd set way => exact execEvictionEnd_kept set way s
  | allocationRetry set => exact execAllocationRetry_kept set s
  | allocationLongWait op => exact execAllocationLongWait_kept op s
  | destageAge pool row slice => exact execDestageAge_kept pool row slice s
  | destageRetry pool row slice => exact execDestageRetry_kept pool row slice s
  | tagScrub errs => exact execTagScrub_kept errs s
  | dramScrub errs => exact execDramScrub_kept errs s
  | regionSweep => exact execRegionSweep_kept s
  | checkpoint => exact execCheckpoint_kept s
  | rangeInvalidate value => exact execRangeInvalidate_kept value s
  | wayMaskWrite cls value => exact execWayMaskWrite_kept cls value s
  | unnamedLossClear => exact execUnnamedLossClear_kept s
  | memberCommandCompletion tag st data tags => exact execMemberCommandCompletion_kept tag st data tags s
  | slowMark tag => exact execSlowMark_kept tag s
  | failLatencyTimeout tag => exact execFailLatencyTimeout_kept tag s
  | suspectWindowExpiry pool slot => exact execSuspectWindowExpiry_kept pool slot s
  | slotFailureCommit pool slot => exact execSlotFailureCommit_kept pool slot s
  | memberAbortTimeout port => exact execMemberAbortTimeout_kept port s
  | linkRetrainTimeout port => exact execLinkRetrainTimeout_kept port s
  | memberSidebandFrame presence => exact execMemberSidebandFrame_kept presence s
  | memberRemoved port => exact execMemberRemoved_kept port s
  | memberInserted port id => exact execMemberInserted_kept port id s
  | discoveryWindowClose => exact execDiscoveryWindowClose_kept s
  | memberPrepDone port => exact execMemberPrepDone_kept port s
  | boundaryCommit m => exact execBoundaryCommit_kept m s
  | healthLogRead port log => exact execHealthLogRead_kept port log s
  | enduranceLogRead port pctUsed => exact execEnduranceLogRead_kept port pctUsed s
  | patrolPassDue pool => exact execPatrolPassDue_kept pool s
  | patrolProgressCommit pool => exact execPatrolProgressCommit_kept pool s
  | reshapeWalkStart pool => exact execReshapeWalkStart_kept pool s
  | reshapeCommit pool => exact execReshapeCommit_kept pool s
  | hello h m => exact execHello_kept h m s
  | heartbeat h m => exact execHeartbeat_kept h m s
  | heartbeatSend => exact execHeartbeatSend_kept s
  | heartbeatTimeout => exact execHeartbeatTimeout_kept s
  | farewell h => exact execFarewell_kept h s
  | suspectNotice h => exact execSuspectNotice_kept h s
  | mirrorWrite h sectors => exact execMirrorWrite_kept h sectors s
  | mirrorAck h upTo => exact execMirrorAck_kept h upTo s
  | mirrorClean h pool line mask => exact execMirrorClean_kept h pool line mask s
  | jnlMirror h e => exact execJnlMirror_kept h e s
  | jnlRetire h seq => exact execJnlRetire_kept h seq s
  | ledgerPrepare h r => exact execLedgerPrepare_kept h r s
  | ledgerVote h accept => exact execLedgerVote_kept h accept s
  | ledgerDecide h commit => exact execLedgerDecide_kept h commit s
  | quiesce q => exact execQuiesce_kept q s
  | quiesceDone h => exact execQuiesceDone_kept h s
  | forwardCmd h tag entry => exact execForwardCmd_kept h tag entry s
  | forwardData h write tag data => exact execForwardData_kept h write tag data s
  | forwardCpl h e => exact execForwardCpl_kept h e s
  | memberReport h pool slot timeout => exact execMemberReport_kept h pool slot timeout s
  | resyncLine h sectors entry => exact execResyncLine_kept h sectors entry s
  | resyncDone h => exact execResyncDone_kept h s
  | xfer h st => exact execXfer_kept h st s
  | pairLinkUp width => exact execPairLinkUp_kept width s
  | pairLinkDown => exact execPairLinkDown_kept s
  | reservationBeat reads => exact execReservationBeat_kept reads s
  | lossDecision => exact execLossDecision_kept s
  | helloTimeout reads => exact execHelloTimeout_kept reads s
  | force value => exact execForce_kept value s
  | pairXferGo value => exact execPairXferGo_kept value s
  | pfailN low => exact execPfailN_kept low s
  | railMonitorTrip rail => exact execRailMonitorTrip_kept rail s
  | flushEnd e => exact execFlushEnd_kept e s
  | vaultHotWaitEnd => exact execVaultHotWaitEnd_kept s
  | pwrokFall => exact execPwrokFall_kept s
  | vaultHalfEraseDone half => exact execVaultHalfEraseDone_kept half s
  | restoreEnd => exact execRestoreEnd_kept s
  | countersCommit => exact execCountersCommit_kept s
  | bootVolWrite value => exact execBootVolWrite_kept value s
  | retrainRequest value => exact execRetrainRequest_kept value s
  | packIdentityRead block => exact execPackIdentityRead_kept block s
  | packPresN high block => exact execPackPresN_kept high block s
  | restPoint => exact execRestPoint_kept s
  | packUnproven => exact execPackUnproven_kept s
  | learnRepropose => exact execLearnRepropose_kept s
  | learnDischargeEnd => exact execLearnDischargeEnd_kept s
  | learnTimeout => exact execLearnTimeout_kept s
  | chargerStuck => exact execChargerStuck_kept s
  | blockResetEnd b => exact execBlockResetEnd_kept b s
  | resetShadowEnd b => exact execResetShadowEnd_kept b s
  | fcForce width value => exact execFcForce_kept width value s
  | fcClear value => exact execFcClear_kept value s
  | errClr port => exact execErrClr_kept port s
  | evtCtlFlush => exact execEvtCtlFlush_kept s
  | attestSigned => exact execAttestSigned_kept s
  | getEndpointId => exact execGetEndpointId_kept s
  | getEndpointUuid => exact execGetEndpointUuid_kept s
  | getMctpVersionSupport => exact execGetMctpVersionSupport_kept s
  | getMessageTypeSupport => exact execGetMessageTypeSupport_kept s
  | getVendorDefinedMessageSupport => exact execGetVendorDefinedMessageSupport_kept s
  | getStatus inst => exact execGetStatus_kept inst s
  | attestStart inst alg nonce => exact execAttestStart_kept inst alg nonce s
  | readObject inst object offset length => exact execReadObject_kept inst object offset length s
  | setEventReceiver inst eid enable => exact execSetEventReceiver_kept inst eid enable s
  | hostDataRead cmd data => exact execHostDataRead_kept cmd data s
  | memberLinkDown port => exact execMemberLinkDown_kept port s
  | memberLinkRetrained port width => exact execMemberLinkRetrained_kept port width s
  | controllerFatal port => exact execControllerFatal_kept port s
  | hostLinkTrained port width inL12 vdm sris => exact execHostLinkTrained_kept port width inL12 vdm sris s
  | pf1QueueDoorbell port io completion value => exact execPf1QueueDoorbell_kept port io completion value s
  | pf1ControllerEnable port cc asq acq aqa => exact execPf1ControllerEnable_kept port cc asq acq aqa s
  | vaultReadComplete half page badSectors => exact execVaultReadComplete_kept half page badSectors s
  | pllRelocked p => exact execPllRelocked_kept p s
  | xtalRestored => exact execXtalRestored_kept s
  | powerGood | ready | postFlushReset | perstN | faultMessage | wake | ledgerSet | ledgerLock | ledgerUnlock | ledgerScrub | ownerEnrol | sensorMask | fwStage | fwCommit | setEndpointId | extest | idcode | samplePreload | highz | clamp | extestPulse | extestTrain | bypass => cases other

/-- Of the commands that bear on records, only READY, FW_STAGE and FW_COMMIT reach the fuses or the firmware slots. -/
theorem exec_fixedBy (i : Instr) (s : State) (ready : i ≠ .ready) (stage : ∀ d, i ≠ .fwStage d)
    (commit : ∀ d, i ≠ .fwCommit d) : FixedBy (exec i s) s := by
  cases bears : bearsOnRecords i with
  | false => exact fixedBy_of_kept (exec_keptBy i s bears)
  | true =>
    revert bears
    cases i with
    | ready => exact absurd rfl ready
    | fwStage d => exact absurd rfl (stage d)
    | fwCommit d => exact absurd rfl (commit d)
    | ledgerSet r => exact fun _ => execLedgerSet_fixed r s
    | ledgerLock => exact fun _ => execLedgerLock_fixed s
    | ledgerUnlock data => exact fun _ => execLedgerUnlock_fixed data s
    | ownerEnrol data => exact fun _ => execOwnerEnrol_fixed data s
    | sensorMask data => exact fun _ => execSensorMask_fixed data s
    | postFlushReset => exact fun _ => execPostFlushReset_fixed s
    | powerGood b => exact fun _ => execPowerGood_fixed b s
    | perstN port low => exact fun _ => execPerstN_fixed port low s
    | ledgerScrub corrected uncorrectable => exact fun _ => execLedgerScrub_fixed corrected uncorrectable s
    | faultMessage sent => exact fun _ => execFaultMessage_fixed sent s
    | setEndpointId eid => exact fun _ => execSetEndpointId_fixed eid s
    | wake inst => exact fun _ => execWake_fixed inst s
    | extest pins => exact fun _ => execExtest_fixed pins s
    | idcode => exact fun _ => execIdcode_fixed s
    | samplePreload pins shift => exact fun _ => execSamplePreload_fixed pins shift s
    | highz => exact fun _ => execHighz_fixed s
    | clamp => exact fun _ => execClamp_fixed s
    | extestPulse pins => exact fun _ => execExtestPulse_fixed pins s
    | extestTrain pins => exact fun _ => execExtestTrain_fixed pins s
    | bypass code => exact fun _ => execBypass_fixed code s
    | _ => exact fun bears => Bool.noConfusion bears

theorem exec_ready (s : State) : exec .ready s = execReady s := rfl

theorem exec_fwStage (d : List Byte) (s : State) : exec (.fwStage d) s = execFwStage d s := rfl

theorem exec_fwCommit (d : List Byte) (s : State) : exec (.fwCommit d) s = execFwCommit d s := rfl

/-- What a command may do to the queue, the fuses and the firmware slots: nothing, or what READY, FW_STAGE and FW_COMMIT do. -/
theorem fixed_of_exec {i : Instr} {s t : State} (e : exec i s = .next t) :
    fixed t = fixed s ∨
    (i = .ready ∧ ∃ n r, s.sec.arb ≤ n ∧ fixed t = { fixed s with arb := n, revoked := s.sec.revoked ||| r }) ∨
    ((∃ d, i = .fwStage d) ∧ ∃ m, fixed t = { fixed s with slots := m }) ∨
    ((∃ d, i = .fwCommit d) ∧ ∃ p, fixed t = { fixed s with pointer := p }) := by
  by_cases ready : i = .ready
  · subst ready
    exact .inr (.inl ⟨rfl, execReady_fixed e⟩)
  by_cases stage : ∃ d, i = .fwStage d
  · obtain ⟨d, rfl⟩ := stage
    exact .inr (.inr (.inl ⟨⟨d, rfl⟩, execFwStage_fixed e⟩))
  by_cases commit : ∃ d, i = .fwCommit d
  · obtain ⟨d, rfl⟩ := commit
    exact .inr (.inr (.inr ⟨⟨d, rfl⟩, execFwCommit_fixed e⟩))
  exact .inl (exec_fixedBy i s ready (not_exists.mp stage) (not_exists.mp commit) t e)

/-- Settles O2: the queue is a field of `fixed`, and no command changes it there. -/
theorem commandsLeaveTheQueue : Obligations.CommandsLeaveTheQueue := by
  unfold Obligations.CommandsLeaveTheQueue
  intro i s t e
  obtain same | ⟨-, _, _, -, same⟩ | ⟨-, _, same⟩ | ⟨-, _, same⟩ := fixed_of_exec e
  all_goals exact congrArg Fixed.pending same

/-- Settles O5: the four cases of `fixed_of_exec`, read field by field. -/
theorem firmwareChangesByItsCommandsOnly : Obligations.FirmwareChangesByItsCommandsOnly := by
  unfold Obligations.FirmwareChangesByItsCommandsOnly
  intro i s t e
  obtain same | ⟨isReady, _, _, -, same⟩ | ⟨⟨d, isStage⟩, _, same⟩ | ⟨⟨d, isCommit⟩, _, same⟩ := fixed_of_exec e
  · exact ⟨fun _ => congrArg Fixed.slots same, fun _ => congrArg Fixed.pointer same,
      fun _ => ⟨congrArg Fixed.arb same, congrArg Fixed.revoked same⟩⟩
  · exact ⟨fun _ => congrArg Fixed.slots same, fun _ => congrArg Fixed.pointer same, fun other => absurd isReady other⟩
  · exact ⟨fun other => absurd isStage (other d), fun _ => congrArg Fixed.pointer same,
      fun _ => ⟨congrArg Fixed.arb same, congrArg Fixed.revoked same⟩⟩
  · exact ⟨fun _ => congrArg Fixed.slots same, fun other => absurd isCommit (other d),
      fun _ => ⟨congrArg Fixed.arb same, congrArg Fixed.revoked same⟩⟩

/-! ## Steps -/

theorem step_cons {c : Instr} {rest : List Instr} {s : State} (h : s.pending = c :: rest) :
    step s = exec c { s with pending := rest } := by
  simp only [step, h]

theorem step_nil {s : State} (h : s.pending = []) : step s = .next (tick s) := by
  simp only [step, h]

/-- Settles O1: both clauses are the definition of a step. -/
theorem stepRunsTheFrontCommand : Obligations.StepRunsTheFrontCommand := by
  unfold Obligations.StepRunsTheFrontCommand
  exact ⟨fun c rest s => step_cons rfl, fun s empty => step_nil empty⟩

/-- Blowing fuses gives none back. -/
theorem revoked_and_or (a r : BitVec 4) : a &&& (a ||| r) = a := by
  ext i
  simp only [BitVec.getElem_and, BitVec.getElem_or, Bool.and_or_distrib_left, Bool.and_self]
  cases a[i] <;> simp

/-- Settles O4: a step only runs a command, which leaves the fuses alone unless it is READY, and READY raises the count and
adds to the revoked keys. -/
theorem fusesOnlyBlow : Obligations.FusesOnlyBlow := by
  unfold Obligations.FusesOnlyBlow
  intro s t e
  have unchanged {k : Fixed} (arb : k.arb = s.sec.arb) (revoked : k.revoked = s.sec.revoked) (same : fixed t = k) :
      s.sec.arb ≤ t.sec.arb ∧ s.sec.revoked &&& t.sec.revoked = s.sec.revoked := by
    have hArb : t.sec.arb = s.sec.arb := (congrArg Fixed.arb same).trans arb
    have hRevoked : t.sec.revoked = s.sec.revoked := (congrArg Fixed.revoked same).trans revoked
    rw [hArb, hRevoked, BitVec.and_self]
    exact ⟨Nat.le_refl _, rfl⟩
  cases queue : s.pending with
  | nil =>
    rw [step_nil queue] at e
    cases e
    exact unchanged rfl rfl rfl
  | cons c rest =>
    rw [step_cons queue] at e
    obtain same | ⟨-, n, r, grows, same⟩ | ⟨-, _, same⟩ | ⟨-, _, same⟩ := fixed_of_exec e
    case inr.inl =>
      have hArb : t.sec.arb = n := congrArg Fixed.arb same
      have hRevoked : t.sec.revoked = s.sec.revoked ||| r := congrArg Fixed.revoked same
      rw [hArb, hRevoked, revoked_and_or]
      exact ⟨grows, rfl⟩
    all_goals exact unchanged rfl rfl same

/-- Settles O6: the fields it names are those of `kept`, which a command that does not bear on records leaves alone. -/
theorem ownerAndLockFrame : Obligations.OwnerAndLockFrame := by
  unfold Obligations.OwnerAndLockFrame
  intro s t e others
  cases queue : s.pending with
  | nil =>
    rw [step_nil queue] at e
    cases e
    exact ⟨rfl, rfl, rfl, rfl, rfl, rfl⟩
  | cons c rest =>
    rw [step_cons queue] at e
    have same : kept t = kept { s with pending := rest } := exec_keptBy c _ (others c (by rw [queue]; rfl)) t e
    exact ⟨congrArg Kept.ownerKey same, congrArg Kept.locked same, congrArg Kept.cohort same, congrArg Kept.mask same,
      congrArg Kept.eid same, congrArg Kept.tap same⟩

end Sys2Proof.Machine
end

