-- ==== Sys2Proof/Proofs/Answers.lean ====
section
/-! SUPPORT. Sys2Proof/Proofs/Answers.lean: every command but a malformed HOUSEKEEPING_ROUND answers a next state (95). -/

namespace Sys2Proof.Machine

/-- The outcome is a next state. -/
def Answers (r : Res) : Prop := ∃ t, r = .next t

theorem answers_ok (s : State) : Answers (ok s) := ⟨s, rfl⟩

theorem answers_go (s : State) : Answers (go s) := ⟨settle s, rfl⟩

theorem answers_ite {c : Prop} [Decidable c] {a b : Res} (ha : Answers a) (hb : Answers b) : Answers (if c then a else b) := by
  split
  · exact ha
  · exact hb

theorem execThrottleGraceEnd_answers (region : Fin 15) (s : State) : Answers (execThrottleGraceEnd region s) := by
  unfold execThrottleGraceEnd
  split
  · exact answers_ok _
  · split
    · exact answers_ok _
    · exact answers_go _

theorem execThrottleEscalate_answers (region : Fin 15) (s : State) : Answers (execThrottleEscalate region s) := by
  unfold execThrottleEscalate
  split
  · exact answers_ok _
  · exact answers_ite (answers_ok _) (answers_ok _)

theorem execClockRelockDone_answers (s : State) : Answers (execClockRelockDone s) := by
  unfold execClockRelockDone
  split
  · exact answers_ok _
  · exact answers_go _

theorem execFetchComplete_answers (w : FetchWhat) (s : State) : Answers (execFetchComplete w s) := by
  unfold execFetchComplete
  split <;> exact answers_go _

theorem execBoundaryCommit_answers (m : MoveRef) (s : State) : Answers (execBoundaryCommit m s) := by
  cases m <;> exact answers_go _

theorem execDomainWake_answers (d : Domain) (s : State) : Answers (execDomainWake d s) := by
  cases d with
  | lane => exact answers_go _
  | _ => exact answers_ok _

theorem execLearnRepropose_answers (s : State) : Answers (execLearnRepropose s) := by
  unfold execLearnRepropose
  split
  · exact answers_ok _
  · exact answers_ite (answers_ok _) (answers_ok _)

theorem execLearnDischargeEnd_answers (s : State) : Answers (execLearnDischargeEnd s) := by
  unfold execLearnDischargeEnd
  split
  · exact answers_ok _
  · exact answers_ite (answers_ok _) (answers_ok _)

theorem execChargerStuck_answers (s : State) : Answers (execChargerStuck s) := by
  unfold execChargerStuck
  split
  · exact answers_ok _
  · exact answers_ite (answers_ok _) (answers_ok _)

theorem exec_housekeepingRound (r : RoundReadings) (s : State) :
    exec (.housekeepingRound r) s = if roundSound r then go (housekeep r s) else .fault .malformed := rfl

theorem exec_answers (i : Instr) (s : State) (wf : i.wf = true) : Answers (exec i s) := by
  cases i with
  | housekeepingRound r =>
    have sound : roundSound r = true := wf
    rw [exec_housekeepingRound, if_pos sound]
    exact answers_go _
  | throttleGraceEnd region => exact execThrottleGraceEnd_answers region s
  | throttleEscalate region => exact execThrottleEscalate_answers region s
  | clockRelockDone => exact execClockRelockDone_answers s
  | fetchComplete w => exact execFetchComplete_answers w s
  | boundaryCommit m => exact execBoundaryCommit_answers m s
  | domainWake d => exact execDomainWake_answers d s
  | learnRepropose => exact execLearnRepropose_answers s
  | learnDischargeEnd => exact execLearnDischargeEnd_answers s
  | chargerStuck => exact execChargerStuck_answers s
  | thermtrip => exact answers_ite (answers_ok _) (answers_ok _)
  | pf0Flr port => exact answers_ite (answers_ok _) (answers_ok _)
  | memberSidebandFrame presence => exact answers_ite (answers_ok _) (answers_go _)
  | pfailN low => exact answers_ite (answers_ok _) (answers_ok _)
  | postFlushReset => exact answers_ite (answers_ok _) (answers_ok _)
  | vaultHotWaitEnd => exact answers_ite (answers_ok _) (answers_ok _)
  | powerGood b => exact answers_ite (answers_ok _) (answers_ok _)
  | ready => exact answers_ite (answers_go _) (answers_ok _)
  | pwrokFall => exact answers_ite (answers_ok _) (answers_ite (answers_ok _) (answers_ok _))
  | vaultHalfEraseDone half => exact answers_ite (answers_go _) (answers_ok _)
  | restoreEnd => exact answers_ite (answers_ok _) (answers_ok _)
  | packIdentityRead block => exact answers_ite (answers_ok _) (answers_go _)
  | packPresN high block => exact answers_ite (answers_ok _) (answers_ite (answers_go _) (answers_ok _))
  | packUnproven => exact answers_ite (answers_ok _) (answers_ok _)
  | learnTimeout => exact answers_ite (answers_go _) (answers_ok _)
  | attestSigned => exact answers_ite (answers_ok _) (answers_go _)
  | vaultReadComplete half page bad => exact answers_ite (answers_go _) (answers_ok _)
  | pllRelocked p => exact answers_ite (answers_ok _) (answers_go _)
  | _ => exact ⟨_, rfl⟩

/-- Settles O3: a case for each command; the operand of a round is checked by `roundSound`, which is its `wf`. -/
theorem wellFormedCommandsAnswer : Obligations.WellFormedCommandsAnswer := by
  unfold Obligations.WellFormedCommandsAnswer
  refine ⟨exec_answers, fun r s bad => ?_⟩
  rw [exec_housekeepingRound, bad]
  rfl

end Sys2Proof.Machine
end

