-- ==== Sys2Proof/Proofs/Issue.lean ====
section
/-! SUPPORT. Sys2Proof/Proofs/Issue.lean: an instruction that a core is about to issue is issued (03 R74); the branches, calls
and returns (03 R103, R104). -/

namespace Sys2Proof.Machine

/-! ## Contexts -/

theorem tget_tupd {α : Type} (t : Tbl α) (k j : Nat) (f : α → α) :
    tget (tupd t k f) j = if j = k then (tget t k).map f else tget t j := by
  unfold tupd
  split
  next absent =>
    split
    · subst j
      simp [absent]
    · rfl
  next v listed => simp [listed]

theorem ctxOf_updCtx (c d : Nat) (f : Ctx → Ctx) (s : State) :
    ctxOf d (updCtx c f s) = if d = c then (ctxOf c s).map f else ctxOf d s :=
  tget_tupd ..

theorem ctxOf_updCtx_same {c : Nat} {x : Ctx} {s : State} (f : Ctx → Ctx) (h : ctxOf c s = some x) :
    ctxOf c (updCtx c f s) = some (f x) := by
  rw [ctxOf_updCtx, if_pos rfl, h, Option.map_some]

theorem ctxOf_goto {c : Nat} {x : Ctx} {s : State} (pc : Nat) (h : ctxOf c s = some x) :
    ctxOf c (goto c pc s) = some { x with pc := pc, issued := x.issued + 1 } :=
  ctxOf_updCtx_same _ h

theorem ctxOf_launch {c : Nat} {x : Ctx} {s : State} (w : Word) (wait : Option Word) (h : ctxOf c s = some x) :
    ctxOf c (launch c w (fun f => { f with schedWait := wait }) s) = some (launched x w wait s) :=
  ctxOf_updCtx_same _ h

theorem ctxOf_served (k c d : Nat) (s : State) : ctxOf d (served k c s) = ctxOf d s := rfl

theorem launched_served (k c : Nat) (x : Ctx) (w : Word) (wait : Option Word) (s : State) :
    launched x w wait (served k c s) = launched x w wait s := rfl

/-! ## Issue -/

section
variable {k c : Nat} {x : Ctx} {op : Op} {w : Word} {s : State}

/-- What a core is about to issue passes every check before the instruction's own (03 R74, R89, R109). -/
theorem issue_of_aboutTo (about : AboutTo k c x op w s) {want : Nat} (isOp : (insOf w).op = want) (legal : 1 ≤ want ∧ want ≤ 0x11) :
    issue want k s = issueIns c x op w (served k c s) := by
  obtain ⟨run, next, ctx, ofOp, word, left, fields, slotFree⟩ := about
  have legalIns : (insOf w).legal = true := by simp [Ins.legal, isOp, legal]
  have noClash : ((insOf w).hasDs && x.pend (insOf w).ds) = false := by
    cases h : (insOf w).hasDs with
    | false => rfl
    | true => exact slotFree h
  simp [issue, run, next, ctx, ofOp, word, legalIns, isOp, fields, noClash, Nat.not_le.mpr left, served]

/-- A command of a Fleist instruction that the core is about to issue. -/
theorem settles_of_issue {i : Instr} {want : Nat} {P : State → Prop} (runs : exec i s = .next (settle (issue want k s)))
    (about : AboutTo k c x op w s) (isOp : (insOf w).op = want) (legal : 1 ≤ want ∧ want ≤ 0x11)
    (h : P (issueIns c x op w (served k c s))) : Settles i s P :=
  ⟨_, runs, by rwa [issue_of_aboutTo about isOp legal]⟩

theorem exec_of_issue {i : Instr} {want : Nat} {t : State} (runs : exec i s = .next (settle (issue want k s)))
    (about : AboutTo k c x op w s) (isOp : (insOf w).op = want) (legal : 1 ≤ want ∧ want ≤ 0x11)
    (h : issueIns c x op w (served k c s) = t) : exec i s = .next (settle t) := by
  rw [runs, issue_of_aboutTo about isOp legal, h]

end

/-! ## Branches (03 R103) -/

section
variable {c : Nat} {x : Ctx} {op : Op} {w : Word} {s : State}

theorem issueIns_br (isOp : (insOf w).op = 0x0A) : issueIns c x op w s = issueBr c x op w s := by
  simp only [issueIns, isOp]

theorem issueIns_bz (isOp : (insOf w).op = 0x0B) : issueIns c x op w s = issueBranch true c x op w s := by
  simp only [issueIns, isOp]

theorem issueIns_bnz (isOp : (insOf w).op = 0x0C) : issueIns c x op w s = issueBranch false c x op w s := by
  simp only [issueIns, isOp]

theorem issueBr_inExtent (inside : inExtent x ((insOf w).imm % 2 ^ 17) = true) :
    issueBr c x op w s = goto c ((insOf w).imm % 2 ^ 17) s := if_pos inside

theorem issueBr_outside (outside : inExtent x ((insOf w).imm % 2 ^ 17) = false) :
    issueBr c x op w s = programFault c x 0x03 s := if_neg (Bool.eq_false_iff.mp outside)

/-- What a conditional branch tests: SA, with M SA AND SB. -/
def branchValue (x : Ctx) (w : Word) : Word :=
  if (insOf w).low then x.sl (insOf w).sa &&& x.sl (insOf w).sb else x.sl (insOf w).sa

theorem issueBranch_inExtent (onZero : Bool) (inside : inExtent x ((insOf w).imm % 2 ^ 17) = true) :
    issueBranch onZero c x op w s =
      if (branchValue x w == 0) == onZero then goto c ((insOf w).imm % 2 ^ 17) s else goto c (x.pc + 1) s :=
  if_neg (by rw [inside]; decide)

theorem issueBranch_outside (onZero : Bool) (outside : inExtent x ((insOf w).imm % 2 ^ 17) = false) :
    issueBranch onZero c x op w s = programFault c x 0x03 s :=
  if_pos (by rw [outside]; rfl)

theorem ctxOf_issueBranch (onZero : Bool) (inside : inExtent x ((insOf w).imm % 2 ^ 17) = true) (h : ctxOf c s = some x) :
    ctxOf c (issueBranch onZero c x op w s) =
      some { x with pc := if (branchValue x w == 0) == onZero then (insOf w).imm % 2 ^ 17 else x.pc + 1, issued := x.issued + 1 } := by
  rw [issueBranch_inExtent onZero inside]
  split <;> exact ctxOf_goto _ h

end

/-- Settles O18: the branch that the core issues is `issueBr` or `issueBranch`, which goes to one of two addresses or faults. -/
theorem branchesFollowTheirTest : Obligations.BranchesFollowTheirTest := by
  unfold Obligations.BranchesFollowTheirTest
  intro k c x op w s about
  have ctx : ctxOf c (served k.val c s) = some x := about.2.2.1
  refine ⟨fun isOp inside => ?br, fun isOp inside => ?bz, fun isOp inside => ?bnz, fun outside => ⟨fun isOp => ?_, fun isOp => ?_,
    fun isOp => ?_⟩⟩
  case br =>
    refine settles_of_issue rfl about isOp (by decide) ?_
    rw [issueIns_br isOp, issueBr_inExtent inside]
    exact ctxOf_goto _ ctx
  case bz =>
    refine settles_of_issue rfl about isOp (by decide) ?_
    rw [issueIns_bz isOp, ctxOf_issueBranch true inside ctx]
    refine ⟨fun zero => ?_, fun nonzero => ?_⟩
    · rw [if_pos (by rw [branchValue, zero]; rfl)]
    · rw [if_neg (by simpa [branchValue] using nonzero)]
  case bnz =>
    refine settles_of_issue rfl about isOp (by decide) ?_
    rw [issueIns_bnz isOp, ctxOf_issueBranch false inside ctx]
    refine ⟨fun zero => ?_, fun nonzero => ?_⟩
    · rw [if_neg (by rw [branchValue, zero]; decide)]
    · rw [if_pos (by simpa [branchValue] using nonzero)]
  · exact exec_of_issue rfl about isOp (by decide) ((issueIns_br isOp).trans (issueBr_outside outside))
  · exact exec_of_issue rfl about isOp (by decide) ((issueIns_bz isOp).trans (issueBranch_outside true outside))
  · exact exec_of_issue rfl about isOp (by decide) ((issueIns_bnz isOp).trans (issueBranch_outside false outside))

/-! ## Calls and returns (03 R104) -/

section
variable {c : Nat} {x : Ctx} {op : Op} {w : Word} {s : State}

theorem issueIns_call (isOp : (insOf w).op = 0x0D) : issueIns c x op w s = issueCall c x op w s := by
  simp only [issueIns, isOp]

theorem issueIns_ret (isOp : (insOf w).op = 0x0E) : issueIns c x op w s = issueRet c x op w s := by
  simp only [issueIns, isOp]

/-- WAIT, which issues only once it no longer stalls, and NOP. -/
theorem issueIns_movesOn (isOp : (insOf w).op = 0x09 ∨ (insOf w).op = 0x11) : issueIns c x op w s = goto c (x.pc + 1) s := by
  obtain isOp | isOp := isOp <;> simp only [issueIns, isOp]

theorem ctxOf_issueCall (room : x.stack.length < 4) (h : ctxOf c s = some x) :
    ctxOf c (issueCall c x op w s) = some { x with
      stack := (x.pc + 1, x.extStart, x.extLen) :: x.stack, pc := (insOf w).imm % 2 ^ 17,
      extStart := (insOf w).imm % 2 ^ 17, extLen := fld (insOf w).imm 28 17 + 1, issued := x.issued + 1 } := by
  rw [issueCall, if_neg (Nat.not_le.mpr room), ctxOf_updCtx_same _ h]

theorem issueCall_full (full : 4 ≤ x.stack.length) : issueCall c x op w s = programFault c x 0x04 s := if_pos full

theorem ctxOf_issueRet {pc st len : Nat} {rest : List (Nat × Nat × Nat)} (open_ : x.stack = (pc, st, len) :: rest)
    (h : ctxOf c s = some x) :
    ctxOf c (issueRet c x op w s) =
      some { x with stack := rest, pc := pc, extStart := st, extLen := len, issued := x.issued + 1 } := by
  simp only [issueRet, open_]
  exact ctxOf_updCtx_same _ h

theorem issueRet_empty (empty : x.stack = []) : issueRet c x op w s = programFault c x 0x04 s := by
  simp only [issueRet, empty]

end

/-- Settles O19: `issueCall`, `issueRet` and `goto`, each by its own equation. -/
theorem callsReturnsWaitsAndNops : Obligations.CallsReturnsWaitsAndNops := by
  unfold Obligations.CallsReturnsWaitsAndNops
  intro k c x op w s about
  have ctx : ctxOf c (served k.val c s) = some x := about.2.2.1
  refine ⟨fun isOp room => ?call, fun isOp full => ?fifth, fun pc st len rest isOp open_ => ?ret, fun isOp empty => ?noCall,
    fun isOp => ?wait, fun isOp => ?nop⟩
  case call =>
    refine settles_of_issue rfl about isOp (by decide) ?_
    rw [issueIns_call isOp]
    exact ctxOf_issueCall room ctx
  case fifth => exact exec_of_issue rfl about isOp (by decide) ((issueIns_call isOp).trans (issueCall_full full))
  case ret =>
    refine settles_of_issue rfl about isOp (by decide) ?_
    rw [issueIns_ret isOp]
    exact ctxOf_issueRet open_ ctx
  case noCall => exact exec_of_issue rfl about isOp (by decide) ((issueIns_ret isOp).trans (issueRet_empty empty))
  case wait =>
    refine settles_of_issue rfl about isOp (by decide) ?_
    rw [issueIns_movesOn (.inl isOp)]
    exact ctxOf_goto _ ctx
  case nop =>
    refine settles_of_issue rfl about isOp (by decide) ?_
    rw [issueIns_movesOn (.inr isOp)]
    exact ctxOf_goto _ ctx

end Sys2Proof.Machine
end

