-- ==== Sys2Proof/Proofs/StageIssue.lean ====
section
/-! SUPPORT. Sys2Proof/Proofs/StageIssue.lean: the instructions that a stage of their own finishes, at issue: LOOK, GMX, XOR,
TAG and JCL (03 R91 to R101). -/

namespace Sys2Proof.Machine

section
variable {c : Nat} {x : Ctx} {op : Op} {w : Word} {s : State}

theorem ctxOf_launch_id (h : ctxOf c s = some x) : ctxOf c (launch c w id s) = some (launched x w none s) :=
  ctxOf_updCtx_same _ h

/-! ## LOOK (03 R92, R93) -/

theorem issueIns_look (isOp : (insOf w).op = 0x01) : issueIns c x op w s = issueLook c x op w s := by
  simp only [issueIns, isOp]

theorem issueLook_beyond
    (beyond : ((insOf w).sub = 3 ∧ (geomOf op.pool s).w ≤ (x.sl (insOf w).sa).toNat % 64) ∨
      ((insOf w).sub = 4 ∧ beyondW (geomOf op.pool s) (x.sl (insOf w).sa) = true)) :
    issueLook c x op w s = programFault c x 0x0A s := by
  obtain ⟨member, beyond⟩ | ⟨sched, beyond⟩ := beyond
  · simp [issueLook, member, beyond]
  · simp [issueLook, sched, beyond]

/-- A LOOK whose operand lies within w and, for SCHED, whose schedule is at hand, or not needed. -/
theorem issueLook_launches (member : (insOf w).sub = 3 → (x.sl (insOf w).sa).toNat % 64 < (geomOf op.pool s).w)
    (sched : (insOf w).sub = 4 → beyondW (geomOf op.pool s) (x.sl (insOf w).sa) = false ∧
      (pop (x.sl (insOf w).sa) < 3 ∨ (geomOf op.pool s).m < pop (x.sl (insOf w).sa) ∨
        findSched op.pool (x.sl (insOf w).sa) s ≠ .missing)) :
    issueLook c x op w s = launch c w id s := by
  by_cases isMember : (insOf w).sub = 3
  · simp [issueLook, isMember, Nat.not_le.mpr (member isMember)]
  by_cases isSched : (insOf w).sub = 4
  · obtain ⟨within, few | many | atHand⟩ := sched isSched
    · simp [issueLook, isSched, within, Nat.not_le.mpr few]
    · simp [issueLook, isSched, within, Nat.not_le.mpr many]
    · cases found : findSched op.pool (x.sl (insOf w).sa) s with
      | missing => exact absurd found atHand
      | _ => simp [issueLook, isSched, within, found]
  · simp [issueLook, isMember, isSched]

theorem issueLook_waits (sched : (insOf w).sub = 4) (within : beyondW (geomOf op.pool s) (x.sl (insOf w).sa) = false)
    (three : 3 ≤ pop (x.sl (insOf w).sa)) (few : pop (x.sl (insOf w).sa) ≤ (geomOf op.pool s).m)
    (missing : findSched op.pool (x.sl (insOf w).sa) s = .missing) :
    issueLook c x op w s =
      requestSched op.pool (x.sl (insOf w).sa)
        (launch c w (fun f => { f with schedWait := some (x.sl (insOf w).sa) }) s) := by
  simp [issueLook, sched, within, three, few, missing]

theorem requestSched_pipe (l : Nat) (e : Word) (s : State) : (requestSched l e s).pipe = s.pipe := by
  unfold requestSched
  dsimp only
  split <;> rfl

theorem ctxOf_requestSched (l : Nat) (e : Word) (s : State) (d : Nat) : ctxOf d (requestSched l e s) = ctxOf d s := by
  simp only [ctxOf, requestSched_pipe]

theorem requestSched_queues (l : Nat) (e : Word) (s : State) :
    ∃ q ∈ (requestSched l e s).plan.queue, q.geom = (poolEnt l s).geom ∧ q.erased = e := by
  unfold requestSched
  dsimp only
  split
  next queued =>
    obtain ⟨q, listed, matched⟩ := List.any_eq_true.mp queued
    simp only [Bool.and_eq_true, beq_iff_eq] at matched
    exact ⟨q, listed, matched.1⟩
  next => exact ⟨{ geom := (poolEnt l s).geom, erased := e, since := s.now }, by simp, rfl, rfl⟩

/-! ## GMX, XOR and TAG (03 R97 to R99) -/

/-- A handle with data. -/
def hasData (h : Handle) : Bool := h.kind == .host || h.kind == .scratch

theorem hasData_iff (h : Handle) : hasData h = true ↔ h.kind = .host ∨ h.kind = .scratch := by
  simp [hasData]

theorem hasData_eq_false_iff (h : Handle) : hasData h = false ↔ ¬ (h.kind = .host ∨ h.kind = .scratch) := by
  rw [← hasData_iff, Bool.not_eq_true]

theorem issueIns_gmx (isOp : (insOf w).op = 0x04) : issueIns c x op w s = issueGmx c x op w s := by
  simp only [issueIns, isOp]

theorem issueIns_xor (isOp : (insOf w).op = 0x05) : issueIns c x op w s = issueXor c x op w s := by
  simp only [issueIns, isOp]

theorem issueIns_tag (isOp : (insOf w).op = 0x06) : issueIns c x op w s = issueTag c x op w s := by
  simp only [issueIns, isOp]

/-- What GMX does once its DEF, if any, has given it its handles. -/
def gmxOn (c : Nat) (op : Op) (w : Word) (x : Ctx) (s : State) : State :=
  if !hasData (x.h (insOf w).bb) then programFault c x 0x06 s
  else match gmxCheck ((insOf w).sub % 4) (geomOf op.pool s) x.sch (x.h (insOf w).ba) (x.h (insOf w).bb) with
    | some e => programFault c x e s
    | none => launch c w id (updCtx c (fun _ => x) s)

theorem gmxOn_launches (data : hasData (x.h (insOf w).bb) = true)
    (fits : gmxCheck ((insOf w).sub % 4) (geomOf op.pool s) x.sch (x.h (insOf w).ba) (x.h (insOf w).bb) = none) :
    gmxOn c op w x s = launch c w id (updCtx c (fun _ => x) s) := by
  simp [gmxOn, data, fits]

theorem gmxOn_misfit {n : Nat} (data : hasData (x.h (insOf w).bb) = true)
    (misfit : gmxCheck ((insOf w).sub % 4) (geomOf op.pool s) x.sch (x.h (insOf w).ba) (x.h (insOf w).bb) = some n) :
    gmxOn c op w x s = programFault c x n s := by
  simp [gmxOn, data, misfit]

theorem issueGmx_noData (noData : hasData (x.h (insOf w).ba) = false) : issueGmx c x op w s = programFault c x 0x06 s := by
  rw [hasData] at noData
  simp [issueGmx, noData]

theorem issueGmx_plain (data : hasData (x.h (insOf w).ba) = true) (plain : (insOf w).isDef = false) :
    issueGmx c x op w s = gmxOn c op w x s := by
  rw [hasData] at data
  simp only [issueGmx, data, plain, gmxOn, hasData]
  rfl

theorem issueGmx_def {hd : Handle} {t : State} (data : hasData (x.h (insOf w).ba) = true) (isDef : (insOf w).isDef = true)
    (within : beyondW (geomOf op.pool s) (x.sl (insOf w).sa) = false)
    (defined : defHandle x (insOf w).bb (x.sl (insOf w).sa) (x.h (insOf w).ba).first (x.h (insOf w).ba).count s = .ok (hd, t))
    (sameGeom : geomOf op.pool t = geomOf op.pool s) :
    issueGmx c x op w s = gmxOn c op w { x with handles := tset x.handles (insOf w).bb hd } t := by
  rw [hasData] at data
  simp only [issueGmx, data, isDef, within, defined, gmxOn, hasData, sameGeom]
  rfl

/-- A DEF that succeeds makes a scratch handle and only takes numbers for its sectors (03 R86). -/
theorem defHandle_ok {h first count : Nat} {mask : Word} {hd : Handle} {t : State}
    (defined : defHandle x h mask first count s = .ok (hd, t)) :
    hd.kind = .scratch ∧ hd.mask = mask ∧ ∃ n, t = { s with free := n } := by
  unfold defHandle at defined
  dsimp only at defined
  split at defined
  · cases defined
  · generalize scratchHeld x - _ = others at defined
    split at defined
    · cases defined
    · obtain ⟨rfl, rfl⟩ := Prod.mk.inj (Except.ok.inj defined)
      exact ⟨rfl, rfl, _, rfl⟩

theorem issueXor_launches (dataA : hasData (x.h (insOf w).ba) = true) (dataB : hasData (x.h (insOf w).bb) = true)
    (mask : (x.h (insOf w).ba).mask = (x.h (insOf w).bb).mask) (first : (x.h (insOf w).ba).first = (x.h (insOf w).bb).first)
    (count : (x.h (insOf w).ba).count = (x.h (insOf w).bb).count) : issueXor c x op w s = launch c w id s := by
  rw [hasData] at dataA dataB
  simp [issueXor, dataA, dataB, mask, first, count]

theorem issueXor_misfit (dataA : hasData (x.h (insOf w).ba) = true) (dataB : hasData (x.h (insOf w).bb) = true)
    (misfit : (x.h (insOf w).ba).mask ≠ (x.h (insOf w).bb).mask ∨ (x.h (insOf w).ba).first ≠ (x.h (insOf w).bb).first ∨
      (x.h (insOf w).ba).count ≠ (x.h (insOf w).bb).count) : issueXor c x op w s = programFault c x 0x07 s := by
  rw [hasData] at dataA dataB
  have differ : ((x.h (insOf w).ba).mask != (x.h (insOf w).bb).mask || (x.h (insOf w).ba).first != (x.h (insOf w).bb).first ||
      (x.h (insOf w).ba).count != (x.h (insOf w).bb).count) = true := by
    simpa only [Bool.or_eq_true, bne_iff_ne, or_assoc] using misfit
  simp only [issueXor, dataA, dataB, differ]
  rfl

theorem issueXor_noData (noData : hasData (x.h (insOf w).ba) = false ∨ hasData (x.h (insOf w).bb) = false) :
    issueXor c x op w s = programFault c x 0x06 s := by
  simp only [hasData] at noData
  obtain noData | noData := noData <;> simp [issueXor, noData]

theorem issueTag_launches (data : hasData (x.h (insOf w).ba) = true) : issueTag c x op w s = launch c w id s := if_pos data

theorem issueTag_noData (noData : hasData (x.h (insOf w).ba) = false) : issueTag c x op w s = programFault c x 0x06 s :=
  if_neg (Bool.eq_false_iff.mp noData)

/-! ## JCL (03 R101) -/

theorem issueIns_jcl (isOp : (insOf w).op = 0x08) : issueIns c x op w s = issueJcl c x op w s := by
  simp only [issueIns, isOp]

theorem issueJcl_launches (open_ : x.jnl.isSome = true) : issueJcl c x op w s = launch c w id s := by
  obtain ⟨n, entry⟩ := Option.isSome_iff_exists.mp open_
  simp only [issueJcl, entry]

theorem issueJcl_noEntry (closed : x.jnl = none) : issueJcl c x op w s = programFault c x 0x0D s := by
  simp only [issueJcl, closed]

end

/-- Settles O20: an opcode at a time, by what its `issue…` does in each of the cases that the statement tells apart. -/
theorem stageInstructionsSetPending : Obligations.StageInstructionsSetPending := by
  unfold Obligations.StageInstructionsSetPending
  intro k c x op w s about
  have ctx : ctxOf c (served k.val c s) = some x := about.2.2.1
  have ctxLaunched : ctxOf c (launch c w id (served k.val c s)) = some (launched x w none s) := ctxOf_launch_id ctx
  simp only [← hasData_iff, Bool.not_eq_true]
  refine ⟨fun isOp => ?look, fun isOp => ?gmx, fun isOp => ?xor, fun isOp => ?tag, fun isOp => ?jcl⟩
  case look =>
    have launches (member : (insOf w).sub = 3 → (x.sl (insOf w).sa).toNat % 64 < (geomOf op.pool s).w)
        (sched : (insOf w).sub = 4 → beyondW (geomOf op.pool s) (x.sl (insOf w).sa) = false ∧
          (pop (x.sl (insOf w).sa) < 3 ∨ (geomOf op.pool s).m < pop (x.sl (insOf w).sa) ∨
            findSched op.pool (x.sl (insOf w).sa) s ≠ .missing)) :
        Settles (.look k) s (fun u => ctxOf c u = some (launched x w none s)) := by
      refine settles_of_issue rfl about isOp (by decide) ?_
      rw [issueIns_look isOp, issueLook_launches (s := served k.val c s) member sched]
      exact ctxLaunched
    have faults (beyond : ((insOf w).sub = 3 ∧ (geomOf op.pool s).w ≤ (x.sl (insOf w).sa).toNat % 64) ∨
        ((insOf w).sub = 4 ∧ beyondW (geomOf op.pool s) (x.sl (insOf w).sa) = true)) :
        exec (.look k) s = .next (settle (programFault c x 0x0A (served k.val c s))) :=
      exec_of_issue rfl about isOp (by decide) ((issueIns_look isOp).trans (issueLook_beyond (s := served k.val c s) beyond))
    refine ⟨fun plain => launches (by omega) (by omega), fun member within => launches (fun _ => within) (by omega),
      fun member beyond => faults (.inl ⟨member, beyond⟩), fun sched beyond => faults (.inr ⟨sched, beyond⟩),
      fun sched within free => launches (by omega) (fun _ => ⟨within, free⟩), fun sched within three few missing => ?_⟩
    refine settles_of_issue rfl about isOp (by decide) ?_
    rw [issueIns_look isOp, issueLook_waits (s := served k.val c s) sched within three few missing]
    refine ⟨?_, requestSched_queues ..⟩
    rw [ctxOf_requestSched]
    exact ctxOf_launch w _ ctx
  case gmx =>
    refine ⟨fun plain dataA dataB fits => ?_, fun plain dataA dataB n misfit => ?_,
      fun isDef dataA within hd t defined fits => ?_, fun noData => ?_⟩
    · refine settles_of_issue rfl about isOp (by decide) ?_
      rw [issueIns_gmx isOp, issueGmx_plain dataA plain, gmxOn_launches (s := served k.val c s) dataB fits]
      exact ctxOf_launch_id (ctxOf_updCtx_same _ ctx)
    · refine exec_of_issue rfl about isOp (by decide) ?_
      rw [issueIns_gmx isOp, issueGmx_plain dataA plain, gmxOn_misfit (s := served k.val c s) dataB misfit]
    · refine settles_of_issue rfl about isOp (by decide) ?_
      obtain ⟨scratch, -, n, rfl⟩ := defHandle_ok defined
      have data : hasData (Ctx.h { x with handles := tset x.handles (insOf w).bb hd } (insOf w).bb) = true := by
        simp [Ctx.h, hasData, scratch]
      rw [issueIns_gmx isOp, issueGmx_def (s := served k.val c s) dataA isDef within defined rfl, gmxOn_launches (s := { served k.val c s with free := n }) data fits]
      exact ctxOf_launch_id (ctxOf_updCtx_same _ ctx)
    · exact exec_of_issue rfl about isOp (by decide) ((issueIns_gmx isOp).trans (issueGmx_noData noData))
  case xor =>
    refine ⟨fun dataA dataB mask first count => ?_, fun dataA dataB misfit => ?_, fun noData => ?_⟩
    · refine settles_of_issue rfl about isOp (by decide) ?_
      rw [issueIns_xor isOp, issueXor_launches dataA dataB mask first count]
      exact ctxLaunched
    · exact exec_of_issue rfl about isOp (by decide) ((issueIns_xor isOp).trans (issueXor_misfit dataA dataB misfit))
    · exact exec_of_issue rfl about isOp (by decide) ((issueIns_xor isOp).trans (issueXor_noData noData))
  case tag =>
    refine ⟨fun data => ?_, fun noData => ?_⟩
    · refine settles_of_issue rfl about isOp (by decide) ?_
      rw [issueIns_tag isOp, issueTag_launches data]
      exact ctxLaunched
    · exact exec_of_issue rfl about isOp (by decide) ((issueIns_tag isOp).trans (issueTag_noData noData))
  case jcl =>
    refine ⟨fun open_ => ?_, fun closed => ?_⟩
    · refine settles_of_issue rfl about isOp (by decide) ?_
      rw [issueIns_jcl isOp, issueJcl_launches open_]
      exact ctxLaunched
    · exact exec_of_issue rfl about isOp (by decide) ((issueIns_jcl isOp).trans (issueJcl_noEntry closed))

end Sys2Proof.Machine
end

