-- ==== Sys2Proof/Proofs/MemberIssue.lean ====
section
/-! SUPPORT. Sys2Proof/Proofs/MemberIssue.lean: MRD, MWR and JNL at issue (03 R94, R96, R100). What they start for their
positions, member commands and journal work, leaves the context's program counter, pending slots and open entry alone. -/

namespace Sys2Proof.Machine

/-! ## What leaves the pipeline alone -/

theorem emitMember_pipe (q tag : Nat) (r : MReq) (s : State) : (emitMember q tag r s).pipe = s.pipe := by
  unfold emitMember
  split <;> rfl

theorem sendMember_pipe (port : Nat) (slot : Option (Nat × Nat)) (owner : MOwner) (r : MReq) (s : State) :
    (sendMember port slot owner r s).pipe = s.pipe := by
  unfold sendMember
  split
  · rfl
  · exact emitMember_pipe ..

theorem countCell_pipe (l row pos : Nat) (write : Bool) (s : State) : (countCell l row pos write s).pipe = s.pipe := by
  unfold countCell
  split <;> rfl

theorem markReshape_pipe (op : Op) (s : State) : (markReshape op s).pipe = s.pipe := by
  unfold markReshape
  split <;> rfl

theorem markMovers_pipe (op : Op) (s : State) : (markMovers op s).pipe = s.pipe := markReshape_pipe op s

theorem oldCopies_pipe (s : State) : (oldCopies s).pipe = s.pipe := rfl

theorem markRegion_pipe (c l row : Nat) (s : State) : (markRegion c l row s).pipe = s.pipe := by
  unfold markRegion
  dsimp only
  split <;> rfl

theorem wirePair_pipe (seq : Nat) (m : PMsg) (s : State) : (wirePair seq m s).pipe = s.pipe := by
  unfold wirePair
  split <;> rfl

theorem sendPair_pipe (m : PMsg) (s : State) : (sendPair m s).pipe = s.pipe := wirePair_pipe ..

theorem openJnl_pipe (c : Nat) (op : Op) (m : Word) (first count : Nat) (gen : Dword) (cached reloc : Bool) (s : State) :
    (openJnl c op m first count gen cached reloc s).2.pipe = s.pipe := markRegion_pipe ..

theorem mirrorJnl_pipe (i : Nat) (s : State) : (mirrorJnl i s).2.pipe = s.pipe := by
  unfold mirrorJnl
  split
  · exact sendPair_pipe ..
  · rfl

/-! ## What leaves a context's front alone -/

/-- A context's program counter, its pending slots and its open entry. -/
def ctxFront (c : Nat) (s : State) : Option (Nat × BitVec 16 × Option Nat) :=
  (ctxOf c s).map (fun y => (y.pc, y.pending, y.jnl))

theorem ctxFront_of_pipe {s t : State} (c : Nat) (h : t.pipe = s.pipe) : ctxFront c t = ctxFront c s := by
  simp only [ctxFront, ctxOf, h]

theorem ctxFront_updCtx (c d : Nat) (f : Ctx → Ctx) (s : State)
    (same : ∀ y, ((f y).pc, (f y).pending, (f y).jnl) = (y.pc, y.pending, y.jnl)) :
    ctxFront c (updCtx d f s) = ctxFront c s := by
  unfold ctxFront
  rw [ctxOf_updCtx]
  split
  · subst c
    cases ctxOf d s with
    | none => rfl
    | some y => exact congrArg some (same y)
  · rfl

theorem ctxFront_updInflight (c d n : Nat) (f : Inflight → Inflight) (s : State) :
    ctxFront c (updInflight d n f s) = ctxFront c s := ctxFront_updCtx _ _ _ _ fun _ => rfl

theorem ctxFront_updJob (c d n pos : Nat) (f : Job → Job) (s : State) : ctxFront c (updJob d n pos f s) = ctxFront c s :=
  ctxFront_updInflight ..

theorem ctxFront_putHSec (c d h pos i : Nat) (f : HSec → HSec) (s : State) :
    ctxFront c (putHSec d h pos i f s) = ctxFront c s := ctxFront_updCtx _ _ _ _ fun _ => rfl

theorem ctxFront_foldl {α : Type} (c : Nat) (f : State → α → State) (l : List α) (s : State)
    (same : ∀ s a, ctxFront c (f s a) = ctxFront c s) : ctxFront c (l.foldl f s) = ctxFront c s :=
  List.foldlRecOn l f (motive := fun t => ctxFront c t = ctxFront c s) rfl fun t h a _ => (same t a).trans h

theorem ctxFront_startRead (c d n h pos : Nat) (op : Op) (first count : Nat) (s : State) :
    ctxFront c (startRead d n h pos op first count s) = ctxFront c s := by
  have sent (port : Nat) (slot : Option (Nat × Nat)) (o : MOwner) (r : MReq) (row : Nat) (s : State) :
      ctxFront c (sendMember port slot o r (countCell op.pool row pos false s)) = ctxFront c s :=
    ctxFront_of_pipe c ((sendMember_pipe ..).trans (countCell_pipe ..))
  unfold startRead
  dsimp only
  rw [ctxFront_foldl, ctxFront_updJob, ctxFront_foldl]
  · exact fun s a => ctxFront_putHSec ..
  · intro s r
    split
    · exact ctxFront_updJob ..
    · split
      · rw [ctxFront_updJob, sent]
      · rw [ctxFront_updJob, ctxFront_of_pipe c (sendMember_pipe ..), ctxFront_updJob, sent]

theorem ctxFront_startWrite (c d n : Nat) (hd : Handle) (pos : Nat) (op : Op) (fua : Bool) (s : State) :
    ctxFront c (startWrite d n hd pos op fua s) = ctxFront c s := by
  unfold startWrite
  dsimp only
  rw [ctxFront_foldl, ctxFront_of_pipe c (markMovers_pipe ..), ctxFront_updJob]
  intro s r
  split
  · exact ctxFront_updJob ..
  · rw [ctxFront_updJob, ctxFront_of_pipe c ((sendMember_pipe ..).trans (countCell_pipe ..))]

section
variable {c : Nat} {x : Ctx} {op : Op} {w : Word} {s : State}

theorem ctxFront_launch (f : Inflight → Inflight) (h : ctxOf c s = some x) :
    ctxFront c (launch c w f s) = some (x.pc + 1, x.pending ||| BitVec.ofNat 16 (2 ^ (insOf w).ds), x.jnl) := by
  have moved : ctxOf c (launch c w f s) = _ := ctxOf_updCtx_same _ h
  rw [ctxFront, moved]
  rfl

theorem insOf_ds_lt (w : Word) : (insOf w).ds < 16 := Nat.mod_lt _ (by decide)

theorem getLsbD_or_bit (p : BitVec 16) {n : Nat} (h : n < 16) : (p ||| BitVec.ofNat 16 (2 ^ n)).getLsbD n = true := by
  rw [BitVec.getLsbD_or, BitVec.getLsbD_ofNat, Nat.testBit_two_pow_self, decide_eq_true h, Bool.true_and, Bool.or_true]

/-- A context that moved on with its destination slot pending, read from its front. -/
theorem moved_of_ctxFront {u : State} {j : Option Nat}
    (h : ctxFront c u = some (x.pc + 1, x.pending ||| BitVec.ofNat 16 (2 ^ (insOf w).ds), j)) :
    ∃ y, ctxOf c u = some y ∧ y.pc = x.pc + 1 ∧ y.pend (insOf w).ds = true ∧ y.jnl = j := by
  obtain ⟨y, ctx, front⟩ := Option.map_eq_some_iff.mp h
  simp only [Prod.mk.injEq] at front
  obtain ⟨pc, pending, jnl⟩ := front
  refine ⟨y, ctx, pc, ?_, jnl⟩
  rw [Ctx.pend, pending]
  exact getLsbD_or_bit _ (insOf_ds_lt w)

end

/-! ## MRD (03 R94) -/

section
variable {c : Nat} {x : Ctx} {op : Op} {w : Word} {s : State}

theorem none_or_template (h : Handle) : (h.kind == .none || h.kind == .template) = !hasData h := by
  unfold hasData
  cases h.kind <;> rfl

theorem issueIns_mrd (isOp : (insOf w).op = 0x02) : issueIns c x op w s = issueMrd c x op w s := by
  simp only [issueIns, isOp]

/-- What MRD does once its DEF, if any, has given it its handle. -/
def mrdOn (c : Nat) (op : Op) (w : Word) (v : Word) (x : Ctx) (s : State) : State :=
  let i := insOf w
  let h := x.h i.ba
  if !hasData h then programFault c x 0x06 s
  else if v &&& h.mask &&& x.sl 3 != 0 then programFault c x 0x0A s
  else (bitsOf (v &&& h.mask)).foldl (fun s p => startRead c i.ds i.ba p op h.first h.count s)
    (launch c w id (updCtx c (fun _ => x) s))

theorem mrdOn_noData (v : Word) (noData : hasData (x.h (insOf w).ba) = false) : mrdOn c op w v x s = programFault c x 0x06 s := by
  simp [mrdOn, noData]

theorem mrdOn_erased {v : Word} (data : hasData (x.h (insOf w).ba) = true) (erased : v &&& (x.h (insOf w).ba).mask &&& x.sl 3 ≠ 0) :
    mrdOn c op w v x s = programFault c x 0x0A s := by
  have some : (v &&& (x.h (insOf w).ba).mask &&& x.sl 3 != 0) = true := bne_iff_ne.mpr erased
  simp only [mrdOn, data, some, Bool.not_true, Bool.false_eq_true, if_false, if_true]

theorem ctxFront_mrdOn {v : Word} {y : Ctx} (data : hasData (x.h (insOf w).ba) = true)
    (intact : v &&& (x.h (insOf w).ba).mask &&& x.sl 3 = 0) (ctx : ctxOf c s = some y) :
    ctxFront c (mrdOn c op w v x s) = some (x.pc + 1, x.pending ||| BitVec.ofNat 16 (2 ^ (insOf w).ds), x.jnl) := by
  have starts : mrdOn c op w v x s = (bitsOf (v &&& (x.h (insOf w).ba).mask)).foldl (fun s p =>
      startRead c (insOf w).ds (insOf w).ba p op (x.h (insOf w).ba).first (x.h (insOf w).ba).count s)
      (launch c w id (updCtx c (fun _ => x) s)) := by
    simp [mrdOn, data, intact]
  rw [starts, ctxFront_foldl]
  · exact ctxFront_launch id (ctxOf_updCtx_same _ ctx)
  · exact fun s p => ctxFront_startRead ..

theorem issueMrd_beyond (beyond : beyondW (geomOf op.pool s) (x.sl (insOf w).sa) = true) :
    issueMrd c x op w s = programFault c x 0x0A s := if_pos beyond

theorem issueMrd_plain (within : beyondW (geomOf op.pool s) (x.sl (insOf w).sa) = false) (plain : (insOf w).isDef = false) :
    issueMrd c x op w s = mrdOn c op w (x.sl (insOf w).sa) x s := by
  simp only [issueMrd, within, plain, mrdOn, none_or_template]
  rfl

theorem issueMrd_def {hd : Handle} {t : State} (within : beyondW (geomOf op.pool s) (x.sl (insOf w).sa) = false)
    (isDef : (insOf w).isDef = true) (named : (x.h (insOf w).bb).kind ≠ .none)
    (defined : defHandle x (insOf w).ba (x.sl (insOf w).sa) (x.h (insOf w).bb).first (x.h (insOf w).bb).count s = .ok (hd, t)) :
    issueMrd c x op w s =
      mrdOn c op w (x.sl (insOf w).sa) { x with handles := tset x.handles (insOf w).ba hd } t := by
  have isNamed : ((x.h (insOf w).bb).kind == HKind.none) = false := beq_eq_false_iff_ne.mpr named
  simp only [issueMrd, within, isDef, isNamed, defined, mrdOn, none_or_template]
  rfl

/-! ## MWR (03 R96) -/

theorem issueIns_mwr (isOp : (insOf w).op = 0x03) : issueIns c x op w s = issueMwr c x op w s := by
  simp only [issueIns, isOp]

/-- Whether an open entry of the context covers the positions. -/
def journalCovers (x : Ctx) (m : Word) (s : State) : Bool :=
  match x.jnl with
  | none => false
  | some j => !x.flying 0x07 && sub m (tgetD s.jnl.own j {}).positions

theorem journalCovers_iff (x : Ctx) (m : Word) (s : State) : journalCovers x m s = true ↔
    ∃ j, x.jnl = some j ∧ x.flying 0x07 = false ∧ sub m (tgetD s.jnl.own j {}).positions = true := by
  unfold journalCovers
  cases x.jnl with
  | none => simp
  | some j => simp

/-- The positions that MWR writes and that are erased, but for those that a rebuild writes. -/
def erasedFor (x : Ctx) (op : Op) (m : Word) : Word := m &&& x.sl 3 &&& ~~~ (if op.kind = 3 then x.sl 5 else 0)

/-- MWR's checks, in their order, and what it starts. -/
theorem issueMwr_eq : issueMwr c x op w s =
    let i := insOf w
    let v := x.sl i.sa
    let h := x.h i.ba
    let m := v &&& h.mask
    if !hasData h then programFault c x 0x06 s
    else if beyondW (geomOf op.pool s) v then programFault c x 0x0A s
    else if !mayIssueWrite x op s then programFault c x 0x0E s
    else if !h.tagged then programFault c x 0x0B s
    else if !journalCovers x m s then programFault c x 0x0C s
    else if erasedFor x op m != 0 then programFault c x 0x0A s
    else
      let s := launch c w id s
      if s.pow.flushing || s.pow.coldStop then
        (bitsOf m).foldl (fun s p => updJob c i.ds p (fun j => { j with fail := true }) s) s
      else (bitsOf m).foldl (fun s p => startWrite c i.ds h p op i.low s) s := by
  simp only [issueMwr, none_or_template, journalCovers, erasedFor]
  rfl

theorem ctxFront_issueMwr (data : hasData (x.h (insOf w).ba) = true)
    (within : beyondW (geomOf op.pool s) (x.sl (insOf w).sa) = false) (may : mayIssueWrite x op s = true)
    (tagged : (x.h (insOf w).ba).tagged = true) (covered : journalCovers x (x.sl (insOf w).sa &&& (x.h (insOf w).ba).mask) s = true)
    (intact : erasedFor x op (x.sl (insOf w).sa &&& (x.h (insOf w).ba).mask) = 0) (ctx : ctxOf c s = some x) :
    ctxFront c (issueMwr c x op w s) = some (x.pc + 1, x.pending ||| BitVec.ofNat 16 (2 ^ (insOf w).ds), x.jnl) := by
  simp only [issueMwr_eq, data, within, may, tagged, covered, intact, Bool.not_true, Bool.false_eq_true, if_false, bne_self_eq_false]
  split
  · rw [ctxFront_foldl _ _ _ _ fun s p => ctxFront_updJob .., ctxFront_launch id ctx]
  · rw [ctxFront_foldl _ _ _ _ fun s p => ctxFront_startWrite .., ctxFront_launch id ctx]

/-! ## JNL (03 R100) -/

theorem issueIns_jnl (isOp : (insOf w).op = 0x07) : issueIns c x op w s = issueJnl c x op w s := by
  simp only [issueIns, isOp]

/-- The entry that JNL opens, and its copy for the peer. -/
def openEntry (c : Nat) (x : Ctx) (op : Op) (w : Word) (gen : Dword) (s : State) : State :=
  let i := insOf w
  let h := x.h i.ba
  let cached := (op.kind == 1 || op.kind == 2) && !op.hostpost
  let r := openJnl c (slotOp x op) (x.sl i.sa ||| x.sl i.sb) h.first h.count gen cached (relocates op) (launch c w id s)
  let mir := mirrorJnl r.1 r.2
  updInflight c i.ds (fun f => { f with mirror := mir.1 }) (updCtx c (fun y => { y with jnl := some r.1 }) mir.2)

/-- JNL's checks, in their order; the new generation is that of the first sector that its handle names. -/
theorem issueJnl_eq : ∃ gen, issueJnl c x op w s =
    let m := x.sl (insOf w).sa ||| x.sl (insOf w).sb
    if x.jnl.isSome || x.flying 0x07 then programFault c x 0x0D s
    else if (x.h (insOf w).ba).kind == .none then programFault c x 0x06 s
    else if beyondW (geomOf op.pool s) m then programFault c x 0x0A s
    else if !mayIssueWrite x op s then programFault c x 0x0E s
    else if commitsRefused s then launch c w (fun f => { f with jnl := some 3 }) s
    else if !owns op.pool s then launch c w (fun f => { f with jnl := some 2 }) s
    else openEntry c x op w gen s := by
  unfold issueJnl openEntry
  dsimp only
  exact ⟨_, rfl⟩

theorem ctxFront_jnlOpened {t : State} {pc : Nat} {p : BitVec 16} {j : Option Nat} (n idx : Nat) (mir : Option Nat)
    (h : ctxFront c t = some (pc, p, j)) :
    ctxFront c (updInflight c n (fun f => { f with mirror := mir }) (updCtx c (fun y => { y with jnl := some idx }) t)) =
      some (pc, p, some idx) := by
  obtain ⟨y, ctx, front⟩ := Option.map_eq_some_iff.mp h
  simp only [Prod.mk.injEq] at front
  obtain ⟨rfl, rfl, -⟩ := front
  rw [ctxFront_updInflight, ctxFront, ctxOf_updCtx_same _ ctx]
  rfl

theorem ctxFront_openEntry (gen : Dword) (ctx : ctxOf c s = some x) : ∃ idx, ctxFront c (openEntry c x op w gen s) =
    some (x.pc + 1, x.pending ||| BitVec.ofNat 16 (2 ^ (insOf w).ds), some idx) := by
  refine ⟨_, ctxFront_jnlOpened (j := x.jnl) _ _ _ ?_⟩
  rw [ctxFront_of_pipe c ((mirrorJnl_pipe ..).trans (openJnl_pipe ..))]
  exact ctxFront_launch id ctx

section
variable (closed : x.jnl = none) (still : x.flying 0x07 = false) (named : (x.h (insOf w).ba).kind ≠ .none)
  (within : beyondW (geomOf op.pool s) (x.sl (insOf w).sa ||| x.sl (insOf w).sb) = false) (may : mayIssueWrite x op s = true)
include closed still named within may

theorem ctxFront_issueJnl_opens (commits : commitsRefused s = false) (owned : owns op.pool s = true) (ctx : ctxOf c s = some x) :
    ∃ idx, ctxFront c (issueJnl c x op w s) =
      some (x.pc + 1, x.pending ||| BitVec.ofNat 16 (2 ^ (insOf w).ds), some idx) := by
  have isNamed : ((x.h (insOf w).ba).kind == HKind.none) = false := beq_eq_false_iff_ne.mpr named
  obtain ⟨gen, run⟩ := issueJnl_eq (c := c) (x := x) (op := op) (w := w) (s := s)
  simp only [run, closed, still, isNamed, within, may, commits, owned, Option.isSome_none, Bool.or_self, Bool.not_true,
    Bool.false_eq_true, if_false]
  exact ctxFront_openEntry gen ctx

theorem ctxFront_issueJnl_refused (refused : commitsRefused s = true ∨ owns op.pool s = false) (ctx : ctxOf c s = some x) :
    ctxFront c (issueJnl c x op w s) = some (x.pc + 1, x.pending ||| BitVec.ofNat 16 (2 ^ (insOf w).ds), none) := by
  have isNamed : ((x.h (insOf w).ba).kind == HKind.none) = false := beq_eq_false_iff_ne.mpr named
  obtain ⟨gen, run⟩ := issueJnl_eq (c := c) (x := x) (op := op) (w := w) (s := s)
  simp only [run, closed, still, isNamed, within, may, Option.isSome_none, Bool.or_self, Bool.not_true, Bool.false_eq_true,
    if_false]
  rw [← closed]
  split
  · exact ctxFront_launch _ ctx
  next commits =>
    rw [if_pos (by simpa [commits] using refused)]
    exact ctxFront_launch _ ctx

end

end

/-! ## The statement -/

section
variable (k c : Nat) (x : Ctx) (op : Op) (m : Word) (l : Nat) (s : State)

@[simp] theorem geomOf_served : geomOf l (served k c s) = geomOf l s := rfl

@[simp] theorem mayIssueWrite_served : mayIssueWrite x op (served k c s) = mayIssueWrite x op s := rfl

@[simp] theorem journalCovers_served : journalCovers x m (served k c s) = journalCovers x m s := rfl

end

section
variable {k : Fin 32} {c : Nat} {x : Ctx} {op : Op} {w : Word} {s : State}

/-- A context moves to the next word with its destination slot pending. -/
def MovesOn (c : Nat) (x : Ctx) (w : Word) (u : State) : Prop :=
  ∃ y, ctxOf c u = some y ∧ y.pc = x.pc + 1 ∧ y.pend (insOf w).ds = true

theorem movesOn_of_ctxFront {u : State} {j : Option Nat}
    (h : ctxFront c u = some (x.pc + 1, x.pending ||| BitVec.ofNat 16 (2 ^ (insOf w).ds), j)) : MovesOn c x w u := by
  obtain ⟨y, ctx, pc, pend, -⟩ := moved_of_ctxFront h
  exact ⟨y, ctx, pc, pend⟩

theorem mrd_settles (about : AboutTo k.val c x op w s) (isOp : (insOf w).op = 0x02) {t : State}
    (run : issueMrd c x op w (served k.val c s) = t) : exec (.mrd k) s = .next (settle t) :=
  exec_of_issue rfl about isOp (by decide) ((issueIns_mrd isOp).trans run)

theorem mwr_settles (about : AboutTo k.val c x op w s) (isOp : (insOf w).op = 0x03) {t : State}
    (run : issueMwr c x op w (served k.val c s) = t) : exec (.mwr k) s = .next (settle t) :=
  exec_of_issue rfl about isOp (by decide) ((issueIns_mwr isOp).trans run)

theorem jnl_settles (about : AboutTo k.val c x op w s) (isOp : (insOf w).op = 0x07) {t : State}
    (run : issueJnl c x op w (served k.val c s) = t) : exec (.jnl k) s = .next (settle t) :=
  exec_of_issue rfl about isOp (by decide) ((issueIns_jnl isOp).trans run)

end

/-- Settles O21: each instruction's checks in their order, and the front that a context has once they have passed. -/
theorem memberInstructionsLaunch : Obligations.MemberInstructionsLaunch := by
  unfold Obligations.MemberInstructionsLaunch
  intro k c x op w s about
  have ctx : ctxOf c (served k.val c s) = some x := about.2.2.1
  simp only [← hasData_iff, Bool.not_eq_true, ← journalCovers_iff]
  refine ⟨fun isOp => ?mrd, fun isOp => ?mwr, fun isOp => ?jnl⟩
  case mrd =>
    refine ⟨fun plain within data intact => ?_, fun isDef within named intact hd t defined => ?_, fun beyond => ?_,
      fun plain within noData => ?_, fun plain within data erased => ?_⟩
    · refine ⟨_, mrd_settles about isOp (issueMrd_plain (s := served k.val c s) within plain), ?_⟩
      exact movesOn_of_ctxFront (ctxFront_mrdOn data intact ctx)
    · refine ⟨_, mrd_settles about isOp (issueMrd_def (s := served k.val c s) within isDef named defined), ?_⟩
      obtain ⟨scratch, mask, n, rfl⟩ := defHandle_ok defined
      have handle : Ctx.h { x with handles := tset x.handles (insOf w).ba hd } (insOf w).ba = hd := by simp [Ctx.h]
      have data : hasData hd = true := by simp [hasData, scratch]
      refine movesOn_of_ctxFront (x := x) (ctxFront_mrdOn (x := { x with handles := tset x.handles (insOf w).ba hd }) ?_ ?_ ctx)
      · rwa [handle]
      · rw [handle, mask, BitVec.and_self]
        exact intact
    · exact mrd_settles about isOp (issueMrd_beyond (s := served k.val c s) beyond)
    · exact mrd_settles about isOp ((issueMrd_plain (s := served k.val c s) within plain).trans (mrdOn_noData _ noData))
    · exact mrd_settles about isOp ((issueMrd_plain (s := served k.val c s) within plain).trans (mrdOn_erased data erased))
  case mwr =>
    refine ⟨fun data within may tagged covered intact => ⟨_, mwr_settles about isOp rfl,
        movesOn_of_ctxFront (ctxFront_issueMwr (s := served k.val c s) data within may tagged covered intact ctx)⟩,
      fun noData => mwr_settles about isOp ?_, fun data beyond => mwr_settles about isOp ?_,
      fun data within mayNot => mwr_settles about isOp ?_, fun data within may untagged => mwr_settles about isOp ?_,
      fun data within may tagged uncovered => mwr_settles about isOp ?_,
      fun data within may tagged covered erased => mwr_settles about isOp ?_⟩
    all_goals rw [issueMwr_eq]
    · simp [noData]
    · simp [data, beyond]
    · simp [data, within, mayNot]
    · simp [data, within, may, untagged]
    · simp [data, within, may, tagged, uncovered]
    · have some : (erasedFor x op (x.sl (insOf w).sa &&& (x.h (insOf w).ba).mask) != 0) = true := bne_iff_ne.mpr erased
      simp only [data, within, may, tagged, covered, some, geomOf_served, mayIssueWrite_served, journalCovers_served,
        Bool.not_true, Bool.false_eq_true, if_false, if_true]
  case jnl =>
    have opensBoth : (x.jnl = none ∧ x.flying 0x07 = false) ↔ (x.jnl.isSome || x.flying 0x07) = false := by
      cases x.jnl <;> simp
    obtain ⟨gen, run⟩ := issueJnl_eq (c := c) (x := x) (op := op) (w := w) (s := served k.val c s)
    refine ⟨fun ⟨closed, still⟩ named within may => ⟨fun commits owned => ?_, fun refused => ?_⟩, fun busy => jnl_settles about isOp ?_,
      fun opens unnamed => jnl_settles about isOp ?_, fun opens named beyond => jnl_settles about isOp ?_,
      fun opens named within mayNot => jnl_settles about isOp ?_⟩
    · obtain ⟨idx, front⟩ := ctxFront_issueJnl_opens (s := served k.val c s) closed still named within may commits owned ctx
      obtain ⟨y, ctxY, pc, pend, jnl⟩ := moved_of_ctxFront front
      exact ⟨_, jnl_settles about isOp rfl, y, ctxY, pc, pend, by rw [jnl]; rfl⟩
    · exact ⟨_, jnl_settles about isOp rfl,
        moved_of_ctxFront (ctxFront_issueJnl_refused (s := served k.val c s) closed still named within may refused ctx)⟩
    all_goals rw [run]
    · rw [opensBoth, Bool.not_eq_false] at busy
      simp [busy]
    all_goals rw [opensBoth] at opens
    · simp [opens, unnamed]
    · simp [opens, named, beyond]
    · simp [opens, named, within, mayNot]

end Sys2Proof.Machine
end

