-- ==== Sys2Proof/Proofs/ProgramEnds.lean ====
section
/-! SUPPORT. Sys2Proof/Proofs/ProgramEnds.lean: DONE and TRAP (03 R105, R112, R113). -/

namespace Sys2Proof.Machine

section
variable {c : Nat} {x : Ctx} {op : Op} {w : Word} {s : State}

theorem issueIns_done (isOp : (insOf w).op = 0x0F) : issueIns c x op w s = issueDone c x op w s := by
  simp only [issueIns, isOp]

theorem issueIns_trap (isOp : (insOf w).op = 0x10) : issueIns c x op w s = issueTrap c x op w s := by
  simp only [issueIns, isOp]

/-- The statuses that a program may end with (03 R105). -/
def doneStatus (st : Nat) : Prop := st = 0 ∨ st = 0x0101 ∨ st = 0x0102 ∨ st = 0x0104

theorem issueDone_openEntry (open_ : x.jnl.isSome = true) : issueDone c x op w s = programFault c x 0x0D s := if_pos open_

theorem issueDone_otherStatus (closed : x.jnl = none) (other : ¬ doneStatus ((insOf w).imm % 65536)) :
    issueDone c x op w s = programFault c x 0x10 s := by
  have refused : (!((insOf w).imm % 65536 == 0 || (insOf w).imm % 65536 == 0x0101 || (insOf w).imm % 65536 == 0x0102 ||
      (insOf w).imm % 65536 == 0x0104)) = true := by
    simpa [doneStatus, and_assoc] using other
  simp only [issueDone, closed, refused, Option.isSome_none, Bool.false_eq_true, if_false, if_true]

/-- DONE ends the program, after the check that a VERIFY with INTEGRITY_MISMATCH queues. -/
theorem issueDone_ends (closed : x.jnl = none) (status : doneStatus ((insOf w).imm % 65536)) :
    issueDone c x op w s =
      progEnd x.op (BitVec.ofNat 16 ((insOf w).imm % 65536)) (if (insOf w).low then (x.sl (insOf w).sa).setWidth 32 else 0)
        (x.h 0).secs
        (if op.kind = 6 ∧ (insOf w).imm % 65536 = 0x0102 then queueCheck op.pool op.row op.slice s else s) := by
  have taken : (!((insOf w).imm % 65536 == 0 || (insOf w).imm % 65536 == 0x0101 || (insOf w).imm % 65536 == 0x0102 ||
      (insOf w).imm % 65536 == 0x0104)) = false := by
    simp only [Bool.not_eq_false', Bool.or_eq_true, beq_iff_eq, or_assoc]
    exact status
  simp only [issueDone, closed, taken, Option.isSome_none, Bool.false_eq_true, if_false, Bool.and_eq_true, beq_iff_eq]

/-- DONE leaves a kind that its own chapter carries on to that procedure, and ends any other operation. -/
theorem progEnd_ends {o : Nat} (listed : opOf o s = some op) (plain : ruled op = false) (st : BitVec 16) (r : Dword) (secs : Tbl HSec) :
    progEnd o st r secs s = endOp o st r secs s := by
  simp only [progEnd, listed, plain]

theorem progEnd_goesOn {o : Nat} (listed : opOf o s = some op) (goesOn : ruled op = true) (inCtx : op.ctx = some c)
    (st : BitVec 16) (r : Dword) (secs : Tbl HSec) :
    progEnd o st r secs s = biStart o (updCtx c (fun x => { op := o, scratch := x.scratch }) (dropInflight c s)) := by
  simp only [progEnd, listed, goesOn, inCtx]

end

/-- Settles O22: DONE and TRAP by their statuses and codes. -/
theorem programsEnd : Obligations.ProgramsEnd := by
  unfold Obligations.ProgramsEnd
  intro k c x op w s about
  have listed : opOf x.op (served k.val c s) = some op := about.2.2.2.1
  refine ⟨fun isOp closed => ?done, fun isOp open_ => ?doneOpen, fun isOp => ?trap⟩
  case done =>
    have run {t : State} (h : issueDone c x op w (served k.val c s) = t) : exec (.done k) s = .next (settle t) :=
      exec_of_issue rfl about isOp (by decide) ((issueIns_done isOp).trans h)
    refine ⟨fun status => ?_, fun mismatch verify => ?_, fun h0 h1 h2 h3 => ?_⟩
    · have ends := run (issueDone_ends closed (by unfold doneStatus; omega))
      have noCheck : ¬ (op.kind = 6 ∧ (insOf w).imm % 65536 = 0x0102) := by omega
      rw [if_neg noCheck] at ends
      refine ⟨ends, fun plain => ?_, fun goesOn inCtx => ?_⟩
      · rwa [progEnd_ends listed plain] at ends
      · rwa [progEnd_goesOn listed goesOn inCtx] at ends
    · have ends := run (issueDone_ends closed (.inr (.inr (.inl mismatch))))
      have check : op.kind = 6 ∧ (insOf w).imm % 65536 = 0x0102 := ⟨verify, mismatch⟩
      rwa [if_pos check] at ends
    · exact run (issueDone_otherStatus closed (by unfold doneStatus; omega))
  case doneOpen =>
    exact exec_of_issue rfl about isOp (by decide) ((issueIns_done isOp).trans (issueDone_openEntry open_))
  case trap =>
    have run {t : State} (h : issueTrap c x op w (served k.val c s) = t) : exec (.trap k) s = .next (settle t) :=
      exec_of_issue rfl about isOp (by decide) ((issueIns_trap isOp).trans h)
    have isLost (code : (insOf w).imm % 65536 = 1) {t : State} := fun h => run (t := t) ((if_pos code).trans h)
    have isInconsistent (code : (insOf w).imm % 65536 = 2) {t : State} :=
      fun h => run (t := t) ((if_neg (by omega)).trans ((if_pos code).trans h))
    have isRedispatch (code : (insOf w).imm % 65536 = 3) {t : State} :=
      fun h => run (t := t) ((if_neg (by omega)).trans ((if_neg (by omega)).trans ((if_pos code).trans h)))
    have noEntry (closed : x.jnl = none) (still : x.flying 0x07 = false) : ¬ (x.jnl.isSome || x.flying 0x07) = true := by
      simp [closed, still]
    refine ⟨fun code => isInconsistent code rfl, fun code within => isLost code (if_neg (Bool.eq_false_iff.mp within)),
      fun code beyond => isLost code (if_pos beyond), fun code closed still within fresh => isRedispatch code ?_,
      fun code busy => isRedispatch code (if_pos ?_), fun code closed still beyond => isRedispatch code ?_,
      fun code closed still within known => isRedispatch code ?_, fun h1 h2 h3 => run ?_⟩
    · refine (if_neg (noEntry closed still)).trans ((if_neg (Bool.eq_false_iff.mp within)).trans (if_neg ?_))
      exact fun known => fresh (beq_iff_eq.mp known)
    · simpa using busy
    · exact (if_neg (noEntry closed still)).trans (if_pos beyond)
    · refine (if_neg (noEntry closed still)).trans ((if_neg (Bool.eq_false_iff.mp within)).trans (if_pos ?_))
      exact beq_iff_eq.mpr known
    · exact (if_neg h1).trans ((if_neg h2).trans (if_neg h3))

end Sys2Proof.Machine
end

