-- ==== Sys2Proof/Proofs/EventFrame.lean ====
section
/-! SUPPORT. Sys2Proof/Proofs/EventFrame.lean: event records and async events reach the event recorder, the ports and the host
rings only (14 R492 to R495, 06 R242 to R244). -/

namespace Sys2Proof.Machine

/-- From `s` to `t` nothing changed but the event recorder, the ports, the rings, what left the module and the free values. -/
def SameButEvents (s t : State) : Prop :=
  t = { s with out := t.out, free := t.free, port0 := t.port0, port1 := t.port1, rings := t.rings, evr := t.evr }

namespace SameButEvents

theorem refl (s : State) : SameButEvents s s := rfl

theorem trans {s t u : State} (hst : SameButEvents s t) (htu : SameButEvents t u) : SameButEvents s u := by
  unfold SameButEvents at hst htu ⊢
  rw [htu, hst]

theorem of_evr {s u : State} (e : RecSt) (h : SameButEvents { s with evr := e } u) : SameButEvents s u := h

section
variable {s t : State} (h : SameButEvents s t)
include h

theorem now : t.now = s.now := (congrArg State.now h).trans rfl
theorem pending : t.pending = s.pending := (congrArg State.pending h).trans rfl
theorem dev : t.dev = s.dev := (congrArg State.dev h).trans rfl
theorem pipe : t.pipe = s.pipe := (congrArg State.pipe h).trans rfl
theorem plan : t.plan = s.plan := (congrArg State.plan h).trans rfl
theorem cache : t.cache = s.cache := (congrArg State.cache h).trans rfl
theorem jnl : t.jnl = s.jnl := (congrArg State.jnl h).trans rfl
theorem mem : t.mem = s.mem := (congrArg State.mem h).trans rfl
theorem led : t.led = s.led := (congrArg State.led h).trans rfl
theorem pair : t.pair = s.pair := (congrArg State.pair h).trans rfl
theorem pow : t.pow = s.pow := (congrArg State.pow h).trans rfl
theorem pack : t.pack = s.pack := (congrArg State.pack h).trans rfl
theorem therm : t.therm = s.therm := (congrArg State.therm h).trans rfl
theorem sec : t.sec = s.sec := (congrArg State.sec h).trans rfl
theorem fc : t.fc = s.fc := (congrArg State.fc h).trans rfl

end

end SameButEvents

theorem sameButEvents_emit (o : Out) (s : State) : SameButEvents s (emit o s) := rfl

theorem sameButEvents_setPort (p : Nat) (v : Port) (s : State) : SameButEvents s (setPort p v s) := by
  unfold setPort
  split <;> rfl

theorem sameButEvents_setRing (r : Nat) (v : Ring) (s : State) : SameButEvents s (setRing r v s) := by
  unfold setRing
  split <;> rfl

theorem sameButEvents_signal (p v : Nat) (s : State) : SameButEvents s (signal p v s) := by
  unfold signal
  dsimp only
  split
  · exact sameButEvents_setPort ..
  · exact sameButEvents_emit ..

theorem sameButEvents_maybeSignal (r : Nat) (s : State) : SameButEvents s (maybeSignal r s) := by
  unfold maybeSignal
  dsimp only
  split
  · exact (sameButEvents_setRing ..).trans (sameButEvents_signal ..)
  · exact .refl s

theorem sameButEvents_writeCqe (r : Nat) (c : Cqe) (s : State) : SameButEvents s (writeCqe r c s) :=
  (sameButEvents_emit ..).trans ((sameButEvents_setRing ..).trans (sameButEvents_maybeSignal ..))

theorem sameButEvents_stashCqe (r : Nat) (c : Cqe) (s : State) : SameButEvents s (stashCqe r c s) := by
  unfold stashCqe
  dsimp only
  split
  · exact sameButEvents_setRing ..
  · exact SameButEvents.trans (t := nextFree s) rfl (sameButEvents_setRing ..)

theorem sameButEvents_postCqe (r : Nat) (c : Cqe) (s : State) : SameButEvents s (postCqe r c s) := by
  unfold postCqe
  dsimp only
  split
  · exact .refl s
  · exact .refl s
  · exact sameButEvents_stashCqe ..
  · split
    · exact sameButEvents_writeCqe ..
    · exact sameButEvents_stashCqe ..

theorem sameButEvents_deliverEvents (n p : Nat) (s : State) : SameButEvents s (deliverEvents n p s) := by
  induction n generalizing s with
  | zero => exact .refl s
  | succ n ih =>
    unfold deliverEvents
    dsimp only
    split
    · split
      · exact .refl s
      · exact (sameButEvents_setPort ..).trans ((sameButEvents_setRing ..).trans ((sameButEvents_postCqe ..).trans (ih _)))
    · exact .refl s

theorem sameButEvents_eventOn (p typ obj : Nat) (data : Dword) (s : State) : SameButEvents s (eventOn p typ obj data s) :=
  (sameButEvents_setPort ..).trans (sameButEvents_deliverEvents ..)

theorem sameButEvents_event (typ obj data : Nat) (s : State) : SameButEvents s (event typ obj data s) := by
  unfold event
  dsimp only
  split
  · exact (sameButEvents_eventOn ..).trans (sameButEvents_eventOn ..)
  · exact sameButEvents_eventOn ..

theorem sameButEvents_flushRecs (s : State) : SameButEvents s (flushRecs s) := by
  unfold flushRecs
  split
  · exact .refl s
  · dsimp only
    split
    · exact .of_evr _ (sameButEvents_event ..)
    · rfl

theorem sameButEvents_stageNew (r : EvRec) (s : State) : SameButEvents s (addRec.stageNew r s) := by
  unfold addRec.stageNew
  dsimp only
  split
  · rfl
  · split
    · exact .of_evr _ (sameButEvents_flushRecs _)
    · rfl

theorem sameButEvents_addRec (r : EvRec) (s : State) : SameButEvents s (addRec r s) := by
  unfold addRec
  dsimp only
  split
  · exact .refl s
  · split
    · split
      · rfl
      · exact sameButEvents_stageNew ..
    · split
      · rfl
      · exact sameButEvents_stageNew ..
    · exact sameButEvents_stageNew ..

theorem sameButEvents_recEvent (src code obj : Nat) (detail : List Byte) (s : State) :
    SameButEvents s (recEvent src code obj detail s) := sameButEvents_addRec ..

end Sys2Proof.Machine
end

