-- ==== Sys2Proof/Proofs/StageResults.lean ====
section
/-! SUPPORT. Sys2Proof/Proofs/StageResults.lean: the result that a stage writes into its slot (03 R91 to R101). -/

namespace Sys2Proof.Machine

/-! ## What a result's work leaves alone -/

theorem raise_pipe (src kind addr : Nat) (s : State) (forced : Bool) : (raise src kind addr s forced).pipe = s.pipe := by
  rw [raise_eq]

theorem queueCheck_pipe (l row sl : Nat) (s : State) : (queueCheck l row sl s).pipe = s.pipe := by
  unfold queueCheck
  split
  · rfl
  · split
    · exact (sameButEvents_recEvent ..).pipe
    · rfl

theorem noteTagFail_pipe (l row pos ssec : Nat) (s : State) : (noteTagFail l row pos ssec s).pipe = s.pipe := by
  unfold noteTagFail
  dsimp only
  split
  · exact raise_pipe ..
  · rfl

theorem foldl_pipe {α : Type} (f : State → α → State) (l : List α) (s : State) (same : ∀ s a, (f s a).pipe = s.pipe) :
    (l.foldl f s).pipe = s.pipe :=
  List.foldlRecOn l f (motive := fun t => t.pipe = s.pipe) rfl fun t h a _ => (same t a).trans h

theorem countTagFails_pipe (op : Op) (h : Handle) (m : Word) (s : State) : (countTagFails op h m s).pipe = s.pipe := by
  unfold countTagFails
  refine foldl_pipe _ _ _ fun s k => ?_
  dsimp only
  split
  · exact (queueCheck_pipe ..).trans (noteTagFail_pipe ..)
  · rfl

theorem retireJnl_pipe (i : Nat) (s : State) : (retireJnl i s).pipe = s.pipe := by
  unfold retireJnl
  split
  · rfl
  · split <;> rfl

theorem closeJnl_pipe (i : Nat) (s : State) : (closeJnl i s).pipe = s.pipe := by
  unfold closeJnl
  dsimp only
  split
  · exact (sendPair_pipe ..).trans (retireJnl_pipe ..)
  · exact retireJnl_pipe ..

theorem ctxOf_of_pipe {s t : State} (c : Nat) (h : t.pipe = s.pipe) : ctxOf c t = ctxOf c s := by
  simp only [ctxOf, h]

/-! ## The slot that a result is written into -/

/-- The slot holds the value and is pending no longer. -/
def SlotHolds (c n : Nat) (v : Word) (u : State) : Prop := ∃ y, ctxOf c u = some y ∧ y.sl n = v ∧ y.pend n = false

theorem getLsbD_and_not_bit (p : BitVec 16) (n : Nat) : (p &&& ~~~ BitVec.ofNat 16 (2 ^ n)).getLsbD n = false := by
  rw [BitVec.getLsbD_and, BitVec.getLsbD_not, BitVec.getLsbD_ofNat, Nat.testBit_two_pow_self, Bool.and_true]
  cases decide (n < 16) <;> simp

theorem ctxOf_writeSlot {c : Nat} {y : Ctx} {s : State} (n : Nat) (v : Word) (h : ctxOf c s = some y) :
    ctxOf c (writeSlot c n v s) = some { y with
      slots := tset y.slots n v, pending := y.pending &&& ~~~ BitVec.ofNat 16 (2 ^ n), inflight := tdel y.inflight n } :=
  ctxOf_updCtx_same _ h

/-- What is known of a context after a result is written: its slot, its handles and its entry as they were before. -/
theorem writeSlot_ctx {c : Nat} {y : Ctx} {s : State} (n : Nat) (v : Word) (h : ctxOf c s = some y) :
    ∃ z, ctxOf c (writeSlot c n v s) = some z ∧ z.sl n = v ∧ z.pend n = false ∧ z.handles = y.handles ∧ z.jnl = y.jnl :=
  ⟨_, ctxOf_writeSlot n v h, by simp [Ctx.sl], getLsbD_and_not_bit .., rfl, rfl⟩

theorem slotHolds_writeSlot {c : Nat} {y : Ctx} {s : State} (n : Nat) (v : Word) (h : ctxOf c s = some y) :
    SlotHolds c n v (writeSlot c n v s) := by
  obtain ⟨z, ctx, sl, pend, -, -⟩ := writeSlot_ctx n v h
  exact ⟨z, ctx, sl, pend⟩

/-! ## Results -/

/-- A handle is replaced. -/
def setHandle (c k : Nat) (h : Handle) (s : State) : State := updCtx c (fun y => { y with handles := tset y.handles k h }) s

/-- A result written behind a new handle. -/
theorem writeSlot_setHandle {c : Nat} {y : Ctx} {s : State} (n k : Nat) (v : Word) (hd : Handle) (h : ctxOf c s = some y) :
    SlotHolds c n v (writeSlot c n v (setHandle c k hd s)) ∧
    ∃ z, ctxOf c (writeSlot c n v (setHandle c k hd s)) = some z ∧ z.h k = hd := by
  have set : ctxOf c (setHandle c k hd s) = some { y with handles := tset y.handles k hd } := ctxOf_updCtx_same _ h
  refine ⟨slotHolds_writeSlot n v set, ?_⟩
  obtain ⟨z, ctx, -, -, handles, -⟩ := writeSlot_ctx n v set
  exact ⟨z, ctx, by rw [Ctx.h, handles]; simp⟩

section
variable {c n : Nat} {x : Ctx} {op : Op} {f : Inflight} {s : State}

theorem stageResult_eq (ctx : ctxOf c s = some x) (ofOp : opOf x.op s = some op) (flies : tget x.inflight n = some f)
    (run : x.run = .running) (pend : x.pend n = true) (first : servedBefore c f s = false) :
    stageResult c n s = writeResult c n x op f s := by
  simp [stageResult, ctx, ofOp, flies, run, pend, first]

theorem writeResult_look (isOp : (insOf f.word).op = 0x01) (notSched : (insOf f.word).sub ≠ 4) :
    writeResult c n x op f s = writeSlot c n (lookValue op (insOf f.word) f.sa s) s := by
  simp only [writeResult, isOp, notSched, if_false]

theorem lookValue_masks (i : Ins) (v : Word) (sub : i.sub = 5) :
    lookValue op i v s =
      if i.imm = 0 then (geomOf op.pool s).dataMask else if i.imm = 1 then (geomOf op.pool s).parMask
      else span 0 (geomOf op.pool s).w := by
  simp only [lookValue, sub]
  split
  next zero => rw [if_pos zero]
  next one => rw [if_neg (by omega), if_pos one]
  next notZero notOne => rw [if_neg notZero, if_neg notOne]

theorem writeResult_jobs (isOp : (insOf f.word).op = 0x02 ∨ (insOf f.word).op = 0x03) (done : jobsDone f = true) :
    writeResult c n x op f s = writeSlot c n (maskOf ((f.jobs.filter (fun e => e.2.fail || e.2.late)).map (·.1))) s := by
  obtain isOp | isOp := isOp <;> simp only [writeResult, isOp, done, if_true]

theorem writeResult_gmx (isOp : (insOf f.word).op = 0x04) :
    writeResult c n x op f s =
      let i := insOf f.word
      let a := x.h i.ba
      let b := x.h i.bb
      let sch := x.sch.getD {}
      writeSlot c n (if i.sub % 4 = 1 then badSources a b (bitsOf a.mask) else badMask a (gmxSources (i.sub % 4) sch a))
        (setHandle c i.bb (putData op b (gmxValue (i.sub % 4) (geomOf op.pool s) (coeffsOf op.pool s) sch a b)) s) := by
  simp only [writeResult, isOp, setHandle]

theorem writeResult_xor (isOp : (insOf f.word).op = 0x05) :
    writeResult c n x op f s =
      let a := x.h (insOf f.word).ba
      let b := x.h (insOf f.word).bb
      writeSlot c n (badSources a b (bitsOf a.mask))
        (setHandle c (insOf f.word).bb (putData op b (fun p j => xorBytes (hData a p j) (hData b p j))) s) := by
  simp only [writeResult, isOp, setHandle]

theorem writeResult_tagCrc (isOp : (insOf f.word).op = 0x06) (sub : (insOf f.word).sub = 0) :
    writeResult c n x op f s =
      writeSlot c n (failMask op (x.h (insOf f.word).ba) tagOk)
        (countTagFails op (x.h (insOf f.word).ba) (failMask op (x.h (insOf f.word).ba) tagOk) s) := by
  simp only [writeResult, isOp, sub]

theorem writeResult_tagGet (isOp : (insOf f.word).op = 0x06) (sub : (insOf f.word).sub = 2) :
    writeResult c n x op f s =
      writeSlot c n (tagGet op (x.h (insOf f.word).ba))
        (countTagFails op (x.h (insOf f.word).ba) (failMask op (x.h (insOf f.word).ba) tagOk) s) := by
  simp only [writeResult, isOp, sub]

theorem writeResult_tagGen (isOp : (insOf f.word).op = 0x06) (sub : (insOf f.word).sub = 3) :
    writeResult c n x op f s =
      writeSlot c n (BitVec.ofNat 64 (f.sa.toNat % 2 ^ 32))
        (setHandle c (insOf f.word).ba (tagGenerate op (x.h (insOf f.word).ba) (f.sa.setWidth 32)) s) := by
  simp only [writeResult, isOp, sub, setHandle]

theorem writeResult_tagNext (isOp : (insOf f.word).op = 0x06) (sub : (insOf f.word).sub = 4) :
    writeResult c n x op f s =
      writeSlot c n (BitVec.ofNat 64 (f.sa.setWidth 32 + 1 : Dword).toNat)
        (setHandle c (insOf f.word).ba (tagGenerate op (x.h (insOf f.word).ba) (f.sa.setWidth 32 + 1)) s) := by
  simp only [writeResult, isOp, sub, setHandle]

theorem writeResult_jnlDecided {code : Nat} (isOp : (insOf f.word).op = 0x07) (decided : f.jnl = some code) :
    writeResult c n x op f s = writeSlot c n (BitVec.ofNat 64 code) s := by
  simp only [writeResult, isOp, decided]

theorem writeResult_jnlDurable (isOp : (insOf f.word).op = 0x07) (open_ : f.jnl = none) (durable : jnlDurable c f.mirror s = true) :
    writeResult c n x op f s = writeSlot c n 0 (usePremarks c s) := by
  simp only [writeResult, isOp, open_, durable, if_true]

theorem writeResult_jcl {idx : Nat} (isOp : (insOf f.word).op = 0x08) (entry : x.jnl = some idx) :
    writeResult c n x op f s = writeSlot c n 0 (closeJnl idx (updCtx c (fun y => { y with jnl := none }) s)) := by
  simp only [writeResult, isOp, entry]

end

/-- Settles O23: an instruction's equation, and what a result leaves in the slot, the handles and the entry. -/
theorem resultsAreWritten : Obligations.ResultsAreWritten := by
  unfold Obligations.ResultsAreWritten
  intro c n x op f s ctx ofOp flies run pend first
  have settles {P : State → Prop} {t : State} (result : writeResult c.val n.val x op f s = t) (h : P t) :
      Settles (.stageResultWritten c n) s P :=
    ⟨_, rfl, by rwa [stageResult_eq ctx ofOp flies run pend first, result]⟩
  have look (isOp : (insOf f.word).op = 0x01) (notSched : (insOf f.word).sub ≠ 4) {v : Word}
      (value : lookValue op (insOf f.word) f.sa s = v) : Settles (.stageResultWritten c n) s (SlotHolds c.val n.val v) :=
    settles (writeResult_look isOp notSched) (value ▸ slotHolds_writeSlot _ _ ctx)
  have counted (hd : Handle) (m : Word) : ctxOf c.val (countTagFails op hd m s) = some x :=
    (ctxOf_of_pipe _ (countTagFails_pipe ..)).trans ctx
  refine ⟨fun isOp sub => ?_, fun isOp sub => ?_, fun isOp sub => ?_, fun isOp sub => ?_, fun isOp sub => ?_, fun isOp done => ?_,
    fun isOp sub => ?_, fun isOp sub => ?_, fun isOp sub => ?_, fun isOp sub => ?_, fun isOp => ?_, fun isOp => ?_,
    fun isOp code decided => ?_, fun isOp open_ durable => ?_, fun isOp idx entry => ?_⟩
  · exact look isOp (by omega) (by simp only [lookValue, sub])
  · exact look isOp (by omega) (by simp only [lookValue, sub])
  · exact look isOp (by omega) (by simp only [lookValue, sub] <;> rfl)
  · exact look isOp (by omega) rfl
  · exact look isOp (by omega) (lookValue_masks _ _ sub)
  · exact settles (writeResult_jobs isOp done) (slotHolds_writeSlot _ _ ctx)
  · exact settles (writeResult_tagCrc isOp sub) (slotHolds_writeSlot _ _ (counted _ _))
  · exact settles (writeResult_tagGet isOp sub) (slotHolds_writeSlot _ _ (counted _ _))
  · exact settles (writeResult_tagGen isOp sub) (writeSlot_setHandle _ _ _ _ ctx)
  · exact settles (writeResult_tagNext isOp sub) (writeSlot_setHandle _ _ _ _ ctx)
  · exact settles (writeResult_xor isOp) (writeSlot_setHandle _ _ _ _ ctx)
  · exact settles (writeResult_gmx isOp) (writeSlot_setHandle _ _ _ _ ctx)
  · exact settles (writeResult_jnlDecided isOp decided) (slotHolds_writeSlot _ _ ctx)
  · exact settles (writeResult_jnlDurable isOp open_ durable) (slotHolds_writeSlot _ _ ctx)
  · have closed : ctxOf c.val (closeJnl idx (updCtx c.val (fun y => { y with jnl := none }) s)) = some { x with jnl := none } :=
      (ctxOf_of_pipe _ (closeJnl_pipe ..)).trans (ctxOf_updCtx_same _ ctx)
    obtain ⟨z, ctxZ, sl, pend, -, jnl⟩ := writeSlot_ctx n.val 0 closed
    exact settles (writeResult_jcl isOp entry) ⟨⟨z, ctxZ, sl, pend⟩, z, ctxZ, jnl⟩

end Sys2Proof.Machine
end

