-- ==== Sys2Proof/Proofs/WaitForDirty.lean ====
section
/-! SUPPORT. Sys2Proof/Proofs/WaitForDirty.lean: a new operation takes a place in the pipeline and touches no command (01 R10 to
R14); so FLUSH, VERIFY and ROUTINE_CALL still wait, after the destages that they start, for what was dirty when they began (06 R228,
R230; 03 R116). -/

namespace Sys2Proof.Machine

/-! ## New operations -/

/-- From `s` to `t` nothing changed but operations, contexts, what intake holds and the lanes that wake for it. -/
def SameButOps (s t : State) : Prop :=
  t = { s with
    pipe := { s.pipe with
      ops := t.pipe.ops, ctxs := t.pipe.ctxs, held := t.pipe.held, nextOp := t.pipe.nextOp, nextSeq := t.pipe.nextSeq },
    dev := { s.dev with waking := t.dev.waking } }

namespace SameButOps

theorem refl (s : State) : SameButOps s s := rfl

theorem trans {s t u : State} (hst : SameButOps s t) (htu : SameButOps t u) : SameButOps s u := by
  unfold SameButOps at hst htu ⊢
  rw [htu, hst]

theorem foldl {α : Type} (f : State → α → State) (l : List α) (s : State) (each : ∀ s a, SameButOps s (f s a)) :
    SameButOps s (l.foldl f s) :=
  List.foldlRecOn l f (motive := SameButOps s) (refl s) fun t h a _ => h.trans (each t a)

section
variable {s t : State} (h : SameButOps s t)
include h

theorem cmds : t.pipe.cmds = s.pipe.cmds := (congrArg (·.pipe.cmds) h).trans rfl

theorem cmdOf_eq (c : Nat) : cmdOf c t = cmdOf c s := by
  unfold cmdOf
  rw [h.cmds]

theorem cache : t.cache = s.cache := (congrArg State.cache h).trans rfl
theorem mem : t.mem = s.mem := (congrArg State.mem h).trans rfl
theorem now : t.now = s.now := (congrArg State.now h).trans rfl

end

end SameButOps

theorem sameButOps_placeOp (o : Nat) (s : State) : SameButOps s (placeOp o s) := by
  unfold placeOp
  dsimp only
  split
  · exact .refl s
  · split
    · rfl
    · split
      · split <;> rfl
      · rfl

theorem sameButOps_newOp (op : Op) (s : State) : SameButOps s (newOp op s) := by
  unfold newOp
  dsimp only
  split
  · exact SameButOps.trans (t := { s with pipe := { s.pipe with
      nextOp := s.pipe.nextOp + 1, nextSeq := s.pipe.nextSeq + 1,
      ops := tset s.pipe.ops s.pipe.nextOp { op with seq := s.pipe.nextSeq, st := .held } } }) rfl (sameButOps_placeOp ..)
  · rfl

theorem sameButOps_destageSecs (l row sl : Nat) (secs : List (Nat × Nat)) (why : Why) (s : State) :
    SameButOps s (destageSecs l row sl secs why s) := .foldl _ _ _ fun _ _ => sameButOps_newOp ..

theorem sameButOps_destageSlice (l row sl : Nat) (why : Why) (s : State) : SameButOps s (destageSlice l row sl why s) := by
  unfold destageSlice
  split
  · exact sameButOps_destageSecs ..
  · exact .refl s

theorem sameButOps_destagePlaces (ps : List (Nat × Nat)) (s : State) : SameButOps s (destagePlaces ps s) :=
  .foldl _ _ _ fun _ _ => sameButOps_destageSlice ..

/-! ## Commands -/

theorem cmdOf_updCmd (c : Nat) {x : Cmd} {s : State} (f : Cmd → Cmd) (h : cmdOf c s = some x) :
    cmdOf c (updCmd c f s) = some (f x) :=
  (tget_tupd ..).trans (by rw [if_pos rfl]; exact congrArg (Option.map f) h)

theorem cmdOf_of_pipe {s t : State} (c : Nat) (h : t.pipe = s.pipe) : cmdOf c t = cmdOf c s := by
  simp only [cmdOf, h]

theorem cmdOf_ite_sendPair (c : Nat) (p : Prop) [Decidable p] (m : PMsg) (s : State) :
    cmdOf c (if p then sendPair m s else s) = cmdOf c s := by
  split
  · exact cmdOf_of_pipe c (sendPair_pipe ..)
  · rfl

/-- A listed command is changed by writing its new record. -/
theorem updCmd_eq {c : Nat} {x : Cmd} {s : State} (f : Cmd → Cmd) (h : cmdOf c s = some x) :
    updCmd c f s = { s with pipe.cmds := tset s.pipe.cmds c (f x) } := by
  have listed : tget s.pipe.cmds c = some x := h
  simp only [updCmd, tupd, listed]

theorem asIo_begun {opcode c : Nat} {x : Cmd} {s : State} (f : Cmd → State → State) (h : cmdOf c s = some x)
    (isOp : x.opcode = opcode) (begun : x.ph = .begun) : asIo opcode c f s = f x s := by
  simp [asIo, h, isOp, begun]

/-- A command waits for the dirty sectors and the vault sectors. -/
def WaitsFor (c : Nat) (dirty : List (Nat × Nat)) (vault : List (Nat × Nat × Nat)) (u : State) : Prop :=
  ∃ y, cmdOf c u = some y ∧ y.ph = .waiting ∧ y.waitSecs = dirty ∧ y.waitVault = vault

section
variable {c : Nat} {x : Cmd} {s t : State} {dirty : List (Nat × Nat)} {vault : List (Nat × Nat × Nat)}

theorem WaitsFor.of_cmdOf (same : cmdOf c t = cmdOf c s) (h : WaitsFor c dirty vault s) : WaitsFor c dirty vault t := by
  unfold WaitsFor
  rwa [same]

theorem waitsFor_updCmd {f : Cmd → Cmd} (h : cmdOf c s = some x) (waits : (f x).ph = .waiting) :
    WaitsFor c (f x).waitSecs (f x).waitVault (updCmd c f s) :=
  ⟨_, cmdOf_updCmd c _ h, waits, rfl, rfl⟩

end

theorem waitsFor_waitClean {c : Nat} {x : Cmd} {s : State} (secs : List (Nat × Nat × Nat × Nat)) (h : cmdOf c s = some x) :
    WaitsFor c (dirtyAmong secs s).1 (dirtyAmong secs s).2 (waitClean c secs s) :=
  .of_cmdOf ((sameButOps_destagePlaces ..).cmdOf_eq c) (waitsFor_updCmd h rfl)

theorem flushCmd_held {c : Nat} {x : Cmd} {s : State} (h : cmdOf c s = some x) (held : entryOwn x.entry s = .hold) :
    flushCmd c x s = { s with pipe.cmds := tset s.pipe.cmds c { x with ph := .held } } := by
  rw [← updCmd_eq (fun y => { y with ph := .held }) h]
  exact if_pos (beq_iff_eq.mpr held)

theorem waitsFor_flushCmd {c : Nat} {x : Cmd} {s : State} (h : cmdOf c s = some x) (free : entryOwn x.entry s ≠ .hold) :
    WaitsFor c (dirtyPlaces (if byteAt x.entry 40 = 1 then none else some x.volume) s)
      (vaultPlaces (if byteAt x.entry 40 = 1 then none else some x.volume) s) (flushCmd c x s) := by
  simp only [flushCmd, beq_iff_eq, if_neg free]
  generalize (if byteAt x.entry 40 = 1 then none else some x.volume) = vol
  exact .of_cmdOf ((sameButOps_destagePlaces ..).cmdOf_eq c) (.of_cmdOf (cmdOf_ite_sendPair ..) (waitsFor_updCmd h rfl))

/-- Settles O8: each of the three commands by what it waits for; FLUSH is held instead while the pair holds its pool. -/
theorem commandsWaitForDirtySectors : Obligations.CommandsWaitForDirtySectors := by
  unfold Obligations.CommandsWaitForDirtySectors
  intro c x s h begun
  have run {i : Instr} {opcode : Nat} {f : Cmd → State → State} {P : State → Prop}
      (row : exec i s = .next (settle (asIo opcode c f s))) (isOp : x.opcode = opcode) (p : P (f x s)) : Settles i s P :=
    ⟨_, row, by rwa [asIo_begun f h isOp begun]⟩
  refine ⟨fun isOp held => ?_, fun isOp free => run rfl isOp (waitsFor_flushCmd h free), fun isOp => run rfl isOp ?_,
    fun isOp => run rfl isOp ?_⟩
  · have row : exec (.flush c) s = .next (settle (asIo 0x04 c (flushCmd c) s)) := rfl
    rw [row, asIo_begun _ h isOp begun, flushCmd_held h held]
  · obtain ⟨y, listed, waits, dirty, vault⟩ := waitsFor_waitClean (cmdSecs x.volume x.lba x.count s) h
    exact ⟨y, listed, waits, Prod.ext dirty vault⟩
  · obtain ⟨y, listed, waits, dirty, vault⟩ := waitsFor_waitClean (((opsOfCmd c s).filterMap (fun o => opOf o s)).flatMap
      (fun op => if mayWrite op s then sliceSecs op s else [])) h
    exact ⟨y, listed, waits, Prod.ext dirty vault⟩

end Sys2Proof.Machine
end

