-- ==== Sys2Proof/Proofs/Pushes.lean ====
section
/-! SUPPORT. Sys2Proof/Proofs/Pushes.lean: writes to the push windows (05 R195, R196), and doorbells to rings that are not ACTIVE (05
R189, R192, R216). -/

namespace Sys2Proof.Machine

theorem getPort_updPort (p : Nat) (f : Port → Port) (s : State) : getPort p (updPort p f s) = f (getPort p s) := by
  simp [updPort]

theorem updPort_rings (p : Nat) (f : Port → Port) (s : State) : (updPort p f s).rings = s.rings := setPort_rings ..

theorem getPort_setRing (p r : Nat) (v : Ring) (s : State) : getPort p (setRing r v s) = getPort p s := by simp [getPort]

theorem ringOf_updPort (r p : Nat) (f : Port → Port) (s : State) : ringOf r (updPort p f s) = ringOf r s := by
  simp only [ringOf, updPort_rings]

/-! ## Pushes -/

theorem exec_push {p : Fin 2} {s : State} (up : barUp p.val s = true) (off : BitVec 25) (d : List Byte) :
    exec (.push p off d) s = .next (pushWrite p.val off.toNat d s) :=
  congrArg Host.Outcome.next (if_pos up)

section
variable {p off : Nat} {d : List Byte} {s : State}

/-- The entry that a push brings is the ring's next one: the tail plus 1, in the slot of the tail's parity, which is empty, and
within the ring. -/
def PushFits (v : Ring) (slot : Nat) (e : Dword) : Prop :=
  e = v.tail + 1 ∧ slot = v.tail.toNat % 2 ∧ (if slot = 1 then v.push1 else v.push0) = none ∧ cdiff e v.head ≤ ringSize v

theorem pushFits_iff (v : Ring) (slot : Nat) (e : Dword) :
    (e == v.tail + 1 && slot == v.tail.toNat % 2 && !(if slot = 1 then v.push1.isSome else v.push0.isSome) &&
      decide (cdiff e v.head ≤ ringSize v)) = true ↔ PushFits v slot e := by
  unfold PushFits
  split <;> simp [and_assoc]

theorem pushWrite_discarded (h : off % 64 ≠ 0 ∨ d.length ≠ 64 ∨ ringIn p (off / 128) s = false ∨
    (ringOf (off / 128) s).st ≠ .active ∨ (ringOf (off / 128) s).typ ≠ 0 ∨ (ringOf (off / 128) s).pushEn = false) :
    pushWrite p off d s = countDiscard p s := by
  unfold pushWrite
  dsimp only
  split
  · rfl
  next whole =>
    refine if_pos ?_
    simp only [Bool.or_eq_true, bne_iff_ne, Bool.not_eq_true', not_or, Bool.not_eq_false, ne_eq, not_not] at whole
    obtain ⟨⟨aligned, full⟩, inside⟩ := whole
    simpa [aligned, full, inside, or_assoc] using h

section
variable (aligned : off % 64 = 0) (full : d.length = 64) (inside : ringIn p (off / 128) s = true)
  (active : (ringOf (off / 128) s).st = .active) (submission : (ringOf (off / 128) s).typ = 0)
  (takes : (ringOf (off / 128) s).pushEn = true)
include aligned full inside active submission takes

/-- A write over a whole slot of an ACTIVE submission ring that takes pushes. -/
theorem pushWrite_slot :
    pushWrite p off d s =
      let v := ringOf (off / 128) s
      let e := BitVec.ofNat 32 (leAt d 4 4)
      if e == v.tail + 1 && off / 64 % 2 == v.tail.toNat % 2 &&
          !(if off / 64 % 2 = 1 then v.push1.isSome else v.push0.isSome) && decide (cdiff e v.head ≤ ringSize v) then
        updPort p (fun q => { q with pushAccept := sat32 q.pushAccept 1 }) (setRing (off / 128)
          (if off / 64 % 2 = 1 then { v with push1 := some d, tail := e } else { v with push0 := some d, tail := e }) s)
      else countDiscard p (applyTail p (off / 128) e 2 s) := by
  simp [pushWrite, aligned, full, inside, active, submission, takes]

theorem pushWrite_refused (misfit : ¬ PushFits (ringOf (off / 128) s) (off / 64 % 2) (BitVec.ofNat 32 (leAt d 4 4))) :
    pushWrite p off d s = countDiscard p (applyTail p (off / 128) (BitVec.ofNat 32 (leAt d 4 4)) 2 s) :=
  (pushWrite_slot aligned full inside active submission takes).trans (if_neg fun fits => misfit ((pushFits_iff ..).mp fits))

theorem pushWrite_accepted (fits : PushFits (ringOf (off / 128) s) (off / 64 % 2) (BitVec.ofNat 32 (leAt d 4 4))) :
    let v := ringOf (off / 128) s
    let u := pushWrite p off d s
    (ringOf (off / 128) u).tail = BitVec.ofNat 32 (leAt d 4 4) ∧ (ringOf (off / 128) u).head = v.head ∧
      (if off / 64 % 2 = 1 then (ringOf (off / 128) u).push1 else (ringOf (off / 128) u).push0) = some d ∧
      (getPort p u).pushAccept = sat32 (getPort p s).pushAccept 1 := by
  have accepted := (pushWrite_slot aligned full inside active submission takes).trans (if_pos ((pushFits_iff ..).mpr fits))
  have listed : (if off / 64 % 2 = 1 then { ringOf (off / 128) s with push1 := some d, tail := BitVec.ofNat 32 (leAt d 4 4) }
      else { ringOf (off / 128) s with push0 := some d, tail := BitVec.ofNat 32 (leAt d 4 4) }).st ≠ .free := by
    split <;> simp [active]
  dsimp only
  rw [accepted, ringOf_updPort, ringOf_setRing_same s listed, getPort_updPort]
  split <;> exact ⟨rfl, rfl, rfl, congrArg (fun q : Port => sat32 q.pushAccept 1) (getPort_setRing ..)⟩

end

end

/-! ## Doorbells to rings that are not ACTIVE -/

section
variable {p r : Nat} {w : DbWidth} {s : State}

theorem sqDoorbell_stopped (v : Word) (low : w ≠ .hi32) (inside : ringIn p r s = true) (stopped : (ringOf r s).st ≠ .active) :
    sqDoorbell p r w v s = countDbError p s := by
  simp only [sqDoorbell, doorbellValue_of_ne_hi32 v low, inside, Bool.not_true, Bool.false_eq_true, if_false]

theorem cqDoorbell_stopped (v : Word) (low : w ≠ .hi32) (inside : ringIn p r s = true) (stopped : (ringOf r s).st ≠ .active) :
    cqDoorbell p r w v s = countDbError p s := by
  simp only [cqDoorbell, doorbellValue_of_ne_hi32 v low, inside, Bool.not_true, Bool.false_eq_true, if_false]

end

/-- Settles O14: the two windows' writes by their checks, and the doorbells by the state of their ring. -/
theorem pushesAndStoppedRings : Obligations.PushesAndStoppedRings := by
  unfold Obligations.PushesAndStoppedRings
  refine ⟨fun p off d s up => ?_, fun p r w v s up inside => ⟨fun low stopped => ⟨?_, ?_, ?_⟩, ?_, ?_⟩⟩
  · refine ⟨fun h => (exec_push up off d).trans (congrArg _ (pushWrite_discarded h)), fun aligned full inside active submission takes =>
      ⟨fun fits => ⟨_, exec_push up off d, pushWrite_accepted aligned full inside active submission takes fits⟩,
        fun misfit => (exec_push up off d).trans
          (congrArg _ (pushWrite_refused aligned full inside active submission takes misfit))⟩⟩
  · rw [exec_sqDoorbell, if_pos up, sqDoorbell_stopped v low inside stopped, countDbError]
  · refine ⟨_, exec_sqDoorbell .., ?_⟩
    rw [if_pos up, sqDoorbell_stopped v low inside stopped]
    exact updPort_rings ..
  · rw [exec_cqDoorbell, if_pos up, cqDoorbell_stopped v low inside stopped, countDbError]
  · exact congrArg _ (if_pos up)
  · exact congrArg _ (if_pos up)

end Sys2Proof.Machine
end

