-- ==== Sys2Proof/Proofs/CacheRows.lean ====
section
/-! SUPPORT. Sys2Proof/Proofs/CacheRows.lean: the events of the cache, of the journal's regions and of the anchors, and the writes to
the cache registers (07). -/

namespace Sys2Proof.Machine

/-! ## Evictions and allocations (07 R259, R264, R265) -/

section
variable {x : Nat} {e : Evict} {s : State} (listed : tget s.cache.evict x = some e)
include listed

theorem endEviction_running (runs : e.ended = false) (left : e.ops ≠ []) : endEviction x s = s := by
  simp [endEviction, listed, runs, left]

theorem endEviction_reinstalled (ended : e.ended = true ∨ e.ops = [])
    (stays : e.attached = true ∨ e.failed = true ∨ (tagAt x s).valid &&& (tagAt x s).dirty ≠ 0) :
    endEviction x s =
      let kept := touch x (setTag x { tagAt x s with evicting := false } { s with cache.evict := tdel s.cache.evict x })
      match e.waiter with
      | some o => retryAlloc o kept
      | none => kept := by
  have notRun : (!e.ended && !e.ops.isEmpty) = false := by rcases ended with h | h <;> simp [h]
  have kept : (e.attached || e.failed || (tagAt x s).valid &&& (tagAt x s).dirty != 0) = true := by
    simpa [or_assoc] using stays
  unfold endEviction
  rw [listed]
  dsimp only
  rw [notRun, if_neg Bool.false_ne_true]
  exact if_pos kept

theorem endEviction_freed (ended : e.ended = true ∨ e.ops = []) (alone : e.attached = false) (good : e.failed = false)
    (clean : (tagAt x s).valid &&& (tagAt x s).dirty = 0) :
    endEviction x s =
      let freed := setTag x {} { s with cache.evict := tdel s.cache.evict x }
      match e.waiter with
      | some o => retryAlloc o (passWay x o freed)
      | none => freed := by
  have notRun : (!e.ended && !e.ops.isEmpty) = false := by rcases ended with h | h <;> simp [h]
  have drops : (e.attached || e.failed || (tagAt x s).valid &&& (tagAt x s).dirty != 0) = false := by simp [alone, good, clean]
  unfold endEviction
  rw [listed]
  dsimp only
  rw [notRun, if_neg Bool.false_ne_true]
  exact if_neg (ne_true_of_eq_false drops)

end

/-- Insert a waiting operation behind those that waited at least as long. -/
def insWaiting (acc : List (Nat × Nat)) (w : Nat × Nat) : List (Nat × Nat) :=
  acc.takeWhile (fun a => a.1 ≤ w.1) ++ [w] ++ acc.dropWhile (fun a => a.1 ≤ w.1)

theorem insWaiting_perm (acc : List (Nat × Nat)) (w : Nat × Nat) : (insWaiting acc w).Perm (w :: acc) := by
  have split : acc.takeWhile (fun a => a.1 ≤ w.1) ++ acc.dropWhile (fun a => a.1 ≤ w.1) = acc := List.takeWhile_append_dropWhile
  have front : (insWaiting acc w).Perm (w :: (acc.takeWhile (fun a => a.1 ≤ w.1) ++ acc.dropWhile (fun a => a.1 ≤ w.1))) := by
    rw [insWaiting, List.append_assoc]
    exact List.perm_middle
  rwa [split] at front

theorem insWaiting_sorted {acc : List (Nat × Nat)} (w : Nat × Nat) (sorted : acc.Pairwise (fun a b => a.1 ≤ b.1)) :
    (insWaiting acc w).Pairwise (fun a b => a.1 ≤ b.1) := by
  induction acc with
  | nil => exact List.pairwise_singleton ..
  | cons a l ih =>
    obtain ⟨least, rest⟩ := List.pairwise_cons.mp sorted
    by_cases h : a.1 ≤ w.1
    · have front : insWaiting (a :: l) w = a :: insWaiting l w := by simp [insWaiting, h]
      rw [front]
      refine List.pairwise_cons.mpr ⟨fun b hb => ?_, ih rest⟩
      rcases List.mem_cons.mp ((insWaiting_perm l w).mem_iff.mp hb) with rfl | hb
      · exact h
      · exact least b hb
    · have front : insWaiting (a :: l) w = w :: a :: l := by simp [insWaiting, h]
      rw [front]
      refine List.pairwise_cons.mpr ⟨fun b hb => ?_, sorted⟩
      rcases List.mem_cons.mp hb with rfl | hb
      · omega
      · have := least b hb; omega

/-- Insertion one after another sorts by the time since which each waits. -/
theorem foldl_insWaiting (ws acc : List (Nat × Nat)) (sorted : acc.Pairwise (fun a b => a.1 ≤ b.1)) :
    (ws.foldl insWaiting acc).Perm (acc ++ ws) ∧ (ws.foldl insWaiting acc).Pairwise (fun a b => a.1 ≤ b.1) := by
  induction ws generalizing acc with
  | nil => exact ⟨by simp, sorted⟩
  | cons w ws ih =>
    obtain ⟨perm, ordered⟩ := ih _ (insWaiting_sorted w sorted)
    exact ⟨perm.trans (((insWaiting_perm acc w).append_right ws).trans List.perm_middle.symm), ordered⟩

theorem opOf_raiseFree (o src kind : Nat) (s : State) : opOf o (raiseFree src kind s) = opOf o s := by
  simp [opOf, raiseFree, raise_pipe, nextFree]

/-- Settles O25: an eviction by what became of its destage, the waiting operations in order of the time since which they wait. -/
theorem evictionsAndAllocations : Obligations.EvictionsAndAllocations := by
  unfold Obligations.EvictionsAndAllocations
  refine ⟨fun a b e s listed => ⟨fun runs left => ?_, fun ended => ⟨fun stays => ?_, fun alone good clean => ?_⟩⟩,
    fun a s => ?_, fun o t op s op_o waits => ?_⟩
  · exact congrArg go (endEviction_running listed runs left)
  · have row := congrArg go (endEviction_reinstalled listed ended stays)
    exact ⟨fun none => row.trans (by rw [none]; rfl), fun o some => row.trans (by rw [some]; rfl)⟩
  · have row := congrArg go (endEviction_freed listed ended alone good clean)
    exact ⟨fun none => row.trans (by rw [none]; rfl), fun o some => row.trans (by rw [some]; rfl)⟩
  · obtain ⟨perm, ordered⟩ := foldl_insWaiting _ [] .nil
    exact ⟨_, perm, ordered, rfl⟩
  · have row : exec (.allocationLongWait o) s = .next (raiseFree 0x092 0x36 { s with now := max s.now (t + 1000000) }) := by
      show ok _ = _
      rw [op_o]
      dsimp only
      rw [waits]
      rfl
    exact ⟨row, _, row, (opOf_raiseFree ..).trans op_o⟩

/-! ## Destages (07 R264, R279) -/

/-- Settles O26: both rows are the destage of the slice of the layout that runs, then of a reshape's target. -/
theorem destagesByAgeAndAgain : Obligations.DestagesByAgeAndAgain := by
  unfold Obligations.DestagesByAgeAndAgain
  refine ⟨fun p row sl s => ⟨fun t oldest => ?_, fun clean => ?_⟩, fun p row sl s => ⟨fun r kept => ?_, fun no => ?_⟩⟩
  · exact congrArg (fun u => go (destageAged (p.val + 8) row sl u)) (by unfold destageAged; rw [oldest]; rfl)
  · exact congrArg (fun u => go (destageAged (p.val + 8) row sl u)) (by unfold destageAged; rw [clean])
  · exact congrArg (fun u => go (destageAgain (p.val + 8) row sl u)) (by unfold destageAgain; rw [kept]; rfl)
  · exact congrArg (fun u => go (destageAgain (p.val + 8) row sl u)) (by unfold destageAgain; rw [no])

/-! ## Regions and checkpoints (07 R286, R290) -/

section
variable {s : State}

theorem startCkpt_restoring (h : s.jnl.restorePools ≠ []) : startCkpt s = s := by simp [startCkpt, h]

theorem startCkpt_again (free : s.jnl.restorePools = []) (runs : ckptRuns s = true) :
    startCkpt s = { s with jnl.ckptAgain := true } := by simp [startCkpt, free, runs]

theorem startCkpt_new (free : s.jnl.restorePools = []) (rests : ckptRuns s = false) :
    startCkpt s = s.jnl.anchors.foldl (fun s e => ckptPages e.1 (if e.2.fresh then 2 else 1) s)
      (oldCopies { s with
        jnl.image := s.jnl.marked, jnl.ckptSeq := s.jnl.ckptSeq + 1, jnl.ckptAgain := false, jnl.ckptAt := s.now }) := by
  simp [startCkpt, free, rests, oldCopies]

end

/-- Settles O28: the sweep's filter, and the checkpoint by whether one may start. -/
theorem regionsAndCheckpoints : Obligations.RegionsAndCheckpoints := by
  unfold Obligations.RegionsAndCheckpoints
  refine ⟨fun s => rfl, fun s => ⟨fun restoring => ?_, fun free runs => ?_, fun free rests => ?_⟩⟩
  · exact congrArg go (startCkpt_restoring (s := timeTo (s.jnl.ckptAt + 60000000) s) restoring)
  · exact congrArg go (startCkpt_again (s := timeTo (s.jnl.ckptAt + 60000000) s) free runs)
  · exact congrArg go (startCkpt_new (s := timeTo (s.jnl.ckptAt + 60000000) s) free rests)

/-! ## Registers of the cache (07 R257, R266, R272, R296) -/

/-- A write to a register of a serving module takes its effect. -/
theorem barWrite_of_ready {p off : Nat} {s : State} (f : State → State) (up : barUp p s = true) (ready : s.dev.ready = true) :
    barWrite p off f s = f s :=
  if_pos (by simp [up, answers, ready])

section
variable {s : State} {v : Word}

theorem wayMask_some {k : Fin 16} (host : k.val < 15) :
    wayMask (some k) v s =
      if waysLeft (tset s.cache.ways k.val (v.setWidth 16)) s.cache.lock then
        { s with cache.ways := tset s.cache.ways k.val (v.setWidth 16) }
      else raiseFree 0x092 0x34 s :=
  if_neg (show ¬ k.val = 15 by omega)

theorem wayMask_none :
    wayMask none v s =
      if waysLeft s.cache.ways (v.setWidth 16) then { s with cache.lock := v.setWidth 16 } else raiseFree 0x092 0x34 s := rfl

theorem clearUnnamed_eq :
    clearUnnamed s =
      if commitsRefused s || !s.led.unnamedLoss then { s with cache.unnamedLoss := false }
      else ledCommit { s with cache.unnamedLoss := false, led.unnamedLoss := false } := rfl

/-- The status bits of the range invalidate after a write of INV_CTL, with the count it stores. -/
def invWritten (v : Word) (c : CacheSt) : CacheSt :=
  { c with invDone := c.invDone && !v.getLsbD 34, invErr := c.invErr && !v.getLsbD 35, invCount := fld v.toNat 16 0 }

theorem invCtl_none (h : v.getLsbD 32 = false ∨ s.cache.invBusy = true) :
    invCtl v s = { s with cache := invWritten v s.cache } :=
  if_pos (by rcases h with h | h <;> simp [h, -BitVec.getLsbD_eq_getElem])

section
variable (starts : v.getLsbD 32 = true) (rests : s.cache.invBusy = false)
include starts rests

theorem invCtl_go :
    invCtl v s =
      let c := invWritten v s.cache
      match invSecs c.invVol c.invLba c.invCount { s with cache := c } with
      | none => { s with cache := { c with invErr := true, invDone := true } }
      | some secs =>
        let dirty := dirtyAmong secs { s with cache := c }
        endInvalidate (destagePlaces dirty.1 { s with cache := { c with
          invBusy := true, invRange := (c.invVol, c.invLba, c.invCount), invWait := dirty.1, invVault := dirty.2 } }) :=
  if_neg (by simp [starts, rests, -BitVec.getLsbD_eq_getElem])

end

end

/-- Settles O29: each register's effect, by its checks. -/
theorem cacheRegisterCommands : Obligations.CacheRegisterCommands := by
  unfold Obligations.CacheRegisterCommands
  refine ⟨⟨fun n v s up ready host => ?_, fun k v s reserved => ?_, fun s up ready => ⟨fun taken flag => ?_, fun h => ?_⟩⟩,
    fun v s up ready => ⟨fun h => ?_, fun starts rests misfit => ?_, fun secs starts rests fits => ?_⟩⟩
  · have row : exec (.wayMaskWrite n v) s = .next (wayMask n v s) := congrArg ok (barWrite_of_ready _ up ready)
    cases n with
    | none => exact ⟨fun left => row.trans (congrArg _ (if_pos left)),
        fun lost => row.trans (congrArg _ (if_neg (ne_true_of_eq_false lost)))⟩
    | some k =>
      have row := row.trans (congrArg _ (wayMask_some (host k rfl)))
      exact ⟨fun left => row.trans (congrArg _ (if_pos left)),
        fun lost => row.trans (congrArg _ (if_neg (ne_true_of_eq_false lost)))⟩
  · have same : wayMask (some k) v s = s := if_pos reserved
    show ok (barWrite 0 0x20040 (wayMask (some k) v) s) = _
    rw [barWrite, same, ite_self]
    rfl
  · refine congrArg ok ((barWrite_of_ready _ up ready).trans (clearUnnamed_eq.trans (if_neg ?_)))
    simp [taken, flag]
  · refine congrArg ok ((barWrite_of_ready _ up ready).trans (clearUnnamed_eq.trans (if_pos ?_)))
    rcases h with h | h <;> simp [h]
  · exact congrArg go ((barWrite_of_ready _ up ready).trans (invCtl_none h))
  · refine congrArg go ((barWrite_of_ready _ up ready).trans ((invCtl_go starts rests).trans ?_))
    simp only [invWritten]
    rw [misfit]
  · refine congrArg go ((barWrite_of_ready _ up ready).trans ((invCtl_go starts rests).trans ?_))
    simp only [invWritten]
    rw [fits]

end Sys2Proof.Machine
end

