-- ==== Sys2Proof/Proofs/IoRows.lean ====
section
/-! SUPPORT. Sys2Proof/Proofs/IoRows.lean: the rows of the I/O commands, of intake and of the power domains (06 R220 to R232, 01 R10
to R20, 05 R199 to R202). -/

namespace Sys2Proof.Machine

/-! ## The data of reads and writes (06 R223 to R226, R232) -/

/-- Host reads of every run of a scatter list, in order. -/
theorem foldl_hostRead (port : Nat) (l : List (Nat × Nat)) (s : State) :
    l.foldl (fun s r => emit (.hostRead port r.1 r.2) s) s =
      { s with out := (l.map (fun r => Out.hostRead port r.1 r.2)).reverse ++ s.out } := by
  induction l generalizing s with
  | nil => rfl
  | cons r l ih =>
    rw [List.foldl_cons, ih]
    simp [emit]

theorem readHostData_of_host {x : Cmd} (host : ∀ tag, x.src ≠ .peer tag) (s : State) :
    readHostData x s = { s with out := (x.sgl.map (fun r => Out.hostRead x.port r.1 r.2)).reverse ++ s.out } := by
  unfold readHostData
  split
  next tag h => exact absurd h (host tag)
  next => exact foldl_hostRead ..

theorem readHostData_of_peer {x : Cmd} {tag : Nat} (peer : x.src = .peer tag) (s : State) : readHostData x s = s := by
  unfold readHostData
  rw [peer]

theorem stagesLate_of_host {x : Cmd} (host : ∀ tag, x.src ≠ .peer tag) (s : State) : stagesLate x s = !cacheOn s := by
  unfold stagesLate
  split
  next tag h => exact absurd h (host tag)
  next => exact Bool.and_true _

theorem stagesLate_of_peer {x : Cmd} {tag : Nat} (peer : x.src = .peer tag) (s : State) : stagesLate x s = false := by
  unfold stagesLate
  rw [peer]
  exact Bool.and_false _

section
variable {c : Nat} {x : Cmd} {s : State} (h : cmdOf c s = some x)
include h

section
variable {opcode : Nat} (isOp : x.opcode = opcode)
include isOp

theorem askData_late (begun : x.ph = .begun) (late : stagesLate x s = true) :
    askData opcode c s = { s with pipe.cmds := tset s.pipe.cmds c { x with ph := .staged } } := by
  rw [← updCmd_eq (fun y => { y with ph := .staged }) h]
  simp [askData, h, isOp, begun, late]

theorem askData_now (begun : x.ph = .begun) (now : stagesLate x s = false) :
    askData opcode c s = readHostData x { s with pipe.cmds := tset s.pipe.cmds c { x with ph := .data } } := by
  rw [← updCmd_eq (fun y => { y with ph := .data }) h]
  simp [askData, h, isOp, begun, now]

theorem askData_forwarded (forwarded : x.ph = .forwarded) : askData opcode c s = readHostData x s := by
  simp [askData, h, isOp, forwarded]

end

theorem hostData_data (data : x.ph = .data) (d : Option (List Byte)) :
    hostData c d s = match d with
      | none => dropCmd c 0x0009 s
      | some d => { s with pipe.cmds := tset s.pipe.cmds c { x with
          ph := .staged, wdata := (List.range x.count).map (fun o => (o, padTo 4096 (slice d (4096 * o) 4096))) } } := by
  simp only [hostData, h, data]
  cases d with
  | none => rfl
  | some d => exact updCmd_eq _ h

theorem hostData_running (running : x.ph = .running) (d : Option (List Byte)) : hostData c d s = stageData c x d s := by
  simp [hostData, h, running]

theorem hostData_forwarded (forwarded : x.ph = .forwarded) (write : x.opcode = 0x02 ∨ x.opcode = 0x03) (d : Option (List Byte)) :
    hostData c d s = match d with
      | none => finishCmd c 0x0009 0 s
      | some d => forwardOut true c (padTo (x.count * 4096) d) (mirrorOwn x (padTo (x.count * 4096) d) s) := by
  cases d with
  | none => simp [hostData, h, forwarded, write]
  | some d => simp [hostData, h, forwarded, write]

end

/-- Settles O7: the row of each command by the command's phase. -/
theorem ioTransfers : Obligations.IoTransfers := by
  unfold Obligations.IoTransfers
  refine ⟨fun c x s h => ⟨fun isRead begun errs => ⟨?_, ?_⟩, fun i isWrite => ?_⟩, fun c x s h =>
    ⟨fun data => ⟨?_, fun d => ?_⟩, fun running d => ?_, fun forwarded write => ⟨?_, fun d => ?_⟩⟩⟩
  · exact congrArg go (asIo_begun _ h isRead begun)
  · exact congrArg go ((asIo_begun _ h isRead begun).trans (updCmd_eq _ h))
  · obtain ⟨opcode, isOp, row⟩ : ∃ opcode, x.opcode = opcode ∧ exec i s = .next (askData opcode c s) := by
      rcases isWrite with ⟨isOp, rfl⟩ | ⟨isOp, rfl⟩
      · exact ⟨_, isOp, rfl⟩
      · exact ⟨_, isOp, rfl⟩
    rw [row]
    refine ⟨fun begun host on => ?_, fun begun host off => ?_, fun begun peer => ?_, fun forwarded host => ?_⟩
    · rw [askData_now h isOp begun (by rw [stagesLate_of_host host, on]; rfl), readHostData_of_host host]
    · rw [askData_late h isOp begun (by rw [stagesLate_of_host host, off]; rfl)]
    · obtain ⟨tag, peer⟩ := peer
      rw [askData_now h isOp begun (stagesLate_of_peer peer s), readHostData_of_peer peer]
    · rw [askData_forwarded h isOp forwarded, readHostData_of_host host]
  · exact congrArg go (hostData_data h data none)
  · exact congrArg go (hostData_data h data (some d))
  · exact congrArg go (hostData_running h running d)
  · exact congrArg go (hostData_forwarded h forwarded write none)
  · exact congrArg go (hostData_forwarded h forwarded write (some d))

/-! ## DEALLOCATE and ACCEPT_LOSS (06 R229, R231) -/

/-- Settles O9: the two rows on a begun command. -/
theorem deallocateAndAcceptLoss : Obligations.DeallocateAndAcceptLoss := by
  unfold Obligations.DeallocateAndAcceptLoss
  refine fun c x s h begun => ⟨fun isOp => ?_, fun isOp writes => ?_, fun isOp extents => ⟨fun left => ?_, fun gone => ?_⟩⟩
  · refine congrArg go ((asIo_begun _ h isOp begun).trans ?_)
    rw [← updCmd_eq (fun y => { y with ph := .staged, wdata := (List.range x.count).map (fun o => (o, zeroSector)) }) h]
    simp only [deallocOps, h]
  · exact congrArg go ((asIo_begun _ h isOp begun).trans (if_pos writes))
  · refine congrArg go ((asIo_begun _ h isOp begun).trans ((if_neg extents).trans (if_pos ?_)))
    exact List.any_eq_true.mpr left
  · refine congrArg go ((asIo_begun _ h isOp begun).trans ((if_neg extents).trans (if_neg ?_)))
    exact fun left => (List.any_eq_true.mp left).elim fun e he => gone e he.1 he.2

/-! ## Intake (05 R199 to R202, 01 R12 to R14) -/

theorem turnReady_active {r : Nat} {s : State} (ready : turnReady r s = true) : (ringOf r s).st = .active := by
  by_contra h
  simp [turnReady, h] at ready

theorem portPick_active {p r last left : Nat} {s : State} (pick : portPick p s = some (r, last, left)) :
    (ringOf r s).st = .active := by
  have listed : ∀ q ∈ readyRings p s, turnReady q s = true := fun q hq => by
    have := (List.mem_filter.mp hq).2
    simp only [Bool.and_eq_true] at this
    exact this.2
  unfold portPick at pick
  dsimp only at pick
  split at pick
  next first =>
    obtain ⟨rfl, -⟩ := Prod.mk.inj (Option.some.inj pick)
    exact turnReady_active first
  next =>
    split at pick
    next again =>
      obtain ⟨rfl, -⟩ := Prod.mk.inj (Option.some.inj pick)
      simp only [Bool.and_eq_true, List.contains_iff_mem] at again
      exact turnReady_active (listed _ again.2)
    next =>
      split at pick
      · cases pick
      next q rest front =>
        obtain ⟨rfl, -⟩ := Prod.mk.inj (Option.some.inj pick)
        have mem : q ∈ (readyRings p s).filter (fun r => (getPort p s).lastRing < r) ++ readyRings p s := by simp [front]
        rcases List.mem_append.mp mem with h | h
        · exact turnReady_active (listed _ (List.mem_filter.mp h).1)
        · exact turnReady_active (listed _ h)

theorem nextTurn_active {p r last left : Nat} {s : State} (turn : nextTurn s = some (p, r, last, left)) :
    (ringOf r s).st = .active := by
  obtain ⟨q, -, pick⟩ := List.exists_of_findSome?_eq_some turn
  obtain ⟨⟨r', last', left'⟩, pick, eq⟩ := Option.map_eq_some_iff.mp pick
  obtain ⟨-, eq⟩ := Prod.mk.inj eq
  rw [eq] at pick
  exact portPick_active pick

/-- A ring in use keeps what its context is changed to. -/
theorem ringOf_updRing_same {r : Nat} {f : Ring → Ring} {s : State} (listed : (f (ringOf r s)).st ≠ .free) :
    ringOf r (updRing r f s) = f (ringOf r s) := ringOf_setRing_same s listed

theorem beginHead_marked {r : Nat} {e : List Byte} {s : State} (head : entryOf (ringOf r s) (ringOf r s).head = some e)
    (marked : (ringOf r s).marked.contains (ringOf r s).head.toNat = true) : beginHead r s = completeHead r e 0x0008 s := by
  unfold beginHead
  dsimp only
  rw [head]
  exact if_pos marked

/-- The completion ring of an entry that begins is that of its ring, which stays bound while the head passes. -/
theorem bind_takeHead {r : Nat} {s : State} (active : (ringOf r s).st = .active) :
    (ringOf r (updRing r (fun v => { v with open_ := v.open_ + 1 }) (takeHead r s))).bind = (ringOf r s).bind := by
  have taken : (ringOf r (takeHead r s)).st = .active ∧ (ringOf r (takeHead r s)).bind = (ringOf r s).bind := by
    unfold takeHead
    rw [ringOf_updRing_same (by simp [active])]
    exact ⟨active, rfl⟩
  rw [ringOf_updRing_same (by simp [taken.1])]
  exact taken.2

theorem beginHead_begins {r : Nat} {e : List Byte} {s : State} (active : (ringOf r s).st = .active)
    (head : entryOf (ringOf r s) (ringOf r s).head = some e)
    (unmarked : (ringOf r s).marked.contains (ringOf r s).head.toNat = false) :
    beginHead r s =
      let admin := r == ringFirst (ringPort r s) s
      let t := updRing r (fun v => { v with open_ := v.open_ + 1 }) (takeHead r s)
      let u := updRing (ringOf r t).bind (fun v => { v with charge := v.charge + 1 }) t
      let m := newCmd (.ring r) (ringPort r s) e (if admin then u else debit (entBytes e) u)
      beginCmd admin m.1 m.2 := by
  dsimp only
  rw [bind_takeHead active]
  unfold beginHead
  dsimp only
  rw [head]
  exact if_neg (ne_true_of_eq_false unmarked)

theorem intakeNext_none {s : State} (h : fetchStopped s = true ∨ domainsRun s = false ∨ nextTurn s = none) : intakeNext s = s := by
  unfold intakeNext
  split
  · rfl
  next runs =>
    rcases h with h | h | h
    · simp [h] at runs
    · simp [h] at runs
    · rw [h]

/-- The held operations are placed from the oldest on, as long as the oldest finds its place (01 R13). -/
theorem placeHeld_eq {s : State} (free : intakeHeld s = false) :
    placeHeld s = s.pipe.held.foldl (fun t o => if t.pipe.held.head? = some o then placeOp o t else t) s := by
  unfold placeHeld
  rw [free]
  simp only [Bool.false_eq_true, if_false, beq_iff_eq]

/-- Settles O10: intake by its turn, held operations in their order, rows by who is first on them. -/
theorem intakeBeginsAndHolds : Obligations.IntakeBeginsAndHolds := by
  unfold Obligations.IntakeBeginsAndHolds
  have met (s : State) : meetTags [] s = s.cache.tagErrs.foldl (fun s e => tagError e s) { s with cache.tagErrs := [] } := by
    unfold meetTags
    rw [List.append_nil]
  refine ⟨fun s0 => ?_, fun s => ⟨fun held => ?_, fun free => ?_⟩, fun pool row s => ?_⟩
  · have row : exec .intakeBeginEntry s0 = go (intakeNext (meetTags [] s0)) := rfl
    rw [row, met]
    generalize s0.cache.tagErrs.foldl (fun s e => tagError e s) { s0 with cache.tagErrs := [] } = s
    refine ⟨fun stopped => congrArg go (intakeNext_none stopped), fun p r last left e fetch run turn head => ?_⟩
    have active := nextTurn_active turn
    obtain ⟨flag, begins⟩ : ∃ flag : Bool, intakeNext s =
        beginHead r (updPort p (fun q => { q with lastRing := last, turnLeft := left, pf1Turn := flag })
          { s with pipe.lastPort := p }) := by
      unfold intakeNext
      rw [if_neg (by simp [fetch, run]), turn]
      exact ⟨_, rfl⟩
    have same : ringOf r (updPort p (fun q => { q with lastRing := last, turnLeft := left, pf1Turn := flag })
        { s with pipe.lastPort := p }) = ringOf r s := ringOf_updPort ..
    rw [begins]
    refine ⟨flag, fun marked => congrArg go (beginHead_marked ?_ marked), fun unmarked => congrArg go (beginHead_begins ?_ ?_ unmarked)⟩
    · rw [same, head]
    · rw [same, active]
    · rw [same, head]
  · exact congrArg go (if_pos held)
  · exact congrArg go (placeHeld_eq free)
  · refine congrArg go ?_
    simp only [Bool.and_eq_true, Bool.not_eq_true']
    rfl

/-! ## Domains (01 R12, R18 to R20) -/

theorem groupMayGate_iff (g : Nat) (l12 : BitVec 8) (s : State) :
    groupMayGate g l12 s = true ↔ s.dev.groupAwake.getLsbD g = true ∧ s.dev.memberGateEn = true ∧
      (∀ e ∈ s.mem.ports, portGroup e.1 = g → e.2.present = true → l12.getLsbD (e.1 % 8) = true) ∧
      ∀ e ∈ s.mem.cmds, portGroup e.2.port = g → e.2.dead = true := by
  simp only [groupMayGate, Bool.and_eq_true, List.all_eq_true, Bool.or_eq_true, bne_iff_ne, Bool.not_eq_true', List.any_eq_false,
    beq_iff_eq, and_assoc]
  grind

/-- No command waits for the group: its PLL runs again, and nothing goes out. -/
theorem startGroup_quiet {g : Nat} {s : State} (quiet : ∀ e ∈ s.mem.stopped, portGroup e.1 ≠ g) :
    startGroup g s = { s with therm.groupLock := s.therm.groupLock ||| BitVec.ofNat 16 (2 ^ g) } := by
  have none : s.mem.stopped.filter (fun e => portGroup e.1 == g) = [] :=
    List.filter_eq_nil_iff.mpr fun e he => by simpa using quiet e he
  have all : s.mem.stopped.filter (fun e => portGroup e.1 != g) = s.mem.stopped :=
    List.filter_eq_self.mpr fun e he => by simpa using quiet e he
  unfold startGroup
  rw [none, all]
  rfl

/-- Settles O11: each domain's row by its condition. -/
theorem domainsGateAndWake : Obligations.DomainsGateAndWake := by
  unfold Obligations.DomainsGateAndWake
  refine ⟨fun l s => ⟨fun waking usable => ?_, fun h => ?_, rfl⟩, fun l s => ⟨fun may => ?_, fun mayNot => ?_, ?_⟩,
    fun g l12 s => ⟨fun may => ?_, fun mayNot => ?_, groupMayGate_iff ..⟩, fun n s => rfl,
    fun n s => ⟨fun fenced => ?_, fun free => ?_⟩, fun s => rfl, fun s => rfl, fun s => rfl⟩
  · exact congrArg go (if_pos (by simp [waking, usable]))
  · exact congrArg go (if_neg (by rcases h with h | h <;> simp [h]))
  · exact congrArg ok (if_pos (by simp [may]))
  · exact congrArg ok (if_neg (by simp [mayNot]))
  · exact congrArg ok (if_neg (by simp))
  · exact ⟨_, Nat.le_max_left .., congrArg ok (if_pos may)⟩
  · exact congrArg ok (if_neg (ne_true_of_eq_false mayNot))
  · exact congrArg ok (if_pos fenced)
  · exact ⟨_, congrArg ok (if_neg (ne_true_of_eq_false free)), fun quiet => startGroup_quiet quiet⟩

/-! ## Dispatch, schedules and stores (03 R80, R95, R117; 02 R57 to R63; 07 R292) -/

/-- The oldest request has a schedule: it is stored when the cache takes it, and the LOOKs that wait for its pattern get it. -/
theorem execScheduleStored_of {r : SchedReq} {rest : List SchedReq} {g : Geom} {cs : List Byte} {x : Sched} {s t : State}
    (front : s.plan.queue = r :: rest) (geom : geomRow r.geom s = some (g, cs)) (made : makeSched g cs r.erased = some x)
    (stored : storeSched (schedKey r.geom r.erased) (schedRecord g r.geom x) s = some t) :
    execScheduleStored s = .next (settle (releaseSched r.geom r.erased { t with plan.queue := rest })) := by
  have finished : scheduleStored s = { t with plan.queue := rest } := by
    unfold scheduleStored
    rw [front]
    simp only [geom, Option.bind_some, made, Option.map_some, stored]
  unfold execScheduleStored
  rw [front]
  dsimp only
  rw [finished]
  rfl

theorem storeSched_free {key : Nat} {rec : List Byte} {s : State} (room : s.plan.cache.length < schedSlots s) :
    storeSched key rec s = some { s with plan.cache := tset s.plan.cache key { record := rec, lastUse := s.now } } := if_pos room

theorem storeSched_full {key : Nat} {rec : List Byte} {s : State} {e : Nat × SchedSlot} (full : schedSlots s ≤ s.plan.cache.length)
    (victim : leastBy (fun (e : Nat × SchedSlot) => e.2.lastUse) (s.plan.cache.filter (fun e => !slotPinned e.1 s)) = some e) :
    storeSched key rec s =
      some { s with plan.cache := tset (tdel s.plan.cache e.1) key { record := rec, lastUse := s.now } } := by
  unfold storeSched
  dsimp only
  rw [if_neg (Nat.not_lt.mpr full), victim]

theorem lateReport_late {c n p : Nat} {x : Ctx} {op : Op} {f : Inflight} {e : Nat × MCmd} {s : State} (ctx : ctxOf c s = some x)
    (op_x : opOf x.op s = some op) (flies : tget x.inflight n = some f) (mrd : (insOf f.word).op = 0x02)
    (hedged : (insOf f.word).low = true) (open_ : (tgetD f.jobs p {}).left ≠ 0) (good : (tgetD f.jobs p {}).fail = false)
    (onTime : (tgetD f.jobs p {}).late = false) (hedge : s.mem.cmds.find? (fun e => readsFor c n p e.2.owner) = some e)
    (covered : pop (x.sl 3) + (f.jobs.filter (·.2.late)).length + 1 ≤ (geomOf op.pool s).m) :
    lateReport c n p s = leaveReads c n p
      (updJob c n p (fun j => { j with late := true }) (timeTo (f.issuedAt + 1000 * e.2.hedgeMs) s)) := by
  simp only [lateReport, ctx, op_x, flies, hedge, mrd, hedged, good, onTime]
  simp [open_, covered]

/-- Settles O24: each row unfolded under what its event names. -/
theorem planEngineAndStores : Obligations.PlanEngineAndStores := by
  unfold Obligations.PlanEngineAndStores
  refine ⟨fun o errs s => ⟨rfl, rfl⟩, fun r rest g cs x s front geom made => ⟨fun room => ?_, fun full e victim => ?_⟩,
    fun n e r s listed => ⟨fun quiet => ?_, fun raised => ?_⟩, fun n s => rfl, fun s => rfl,
    fun c n p x op f e s ctx op_x flies mrd hedged left good onTime hedge covered => ?_, fun c p s listed => ?_⟩
  · have row := execScheduleStored_of front geom made (storeSched_free room)
    exact row
  · have row := execScheduleStored_of front geom made (storeSched_full full victim)
    exact row
  · have row : exec (.longWait n e) s = execLongWait n e s := rfl
    rw [row, execLongWait, listed]
    exact congrArg ok (if_neg (ne_true_of_eq_false quiet))
  · have row : exec (.longWait n e) s = execLongWait n e s := rfl
    rw [row, execLongWait, listed]
    exact congrArg ok (if_pos raised)
  · exact congrArg go (lateReport_late ctx op_x flies mrd hedged left good onTime hedge covered)
  · have row : exec (.premarkTimeout c) s = go (premarkTimeout c.val s) := rfl
    rw [row, premarkTimeout, listed]
    rfl

end Sys2Proof.Machine
end

