-- ==== Sys2Proof/Proofs/MemberState.lean ====
section
/-! SUPPORT. Sys2Proof/Proofs/MemberState.lean: what reports (events, records, messages, completions, commits) leave alone, and what a
change of a pool's or a slot's record, of a port, and of a slot's state does (08 R298 to R308, 10 R372). -/

namespace Sys2Proof.Machine

/-! ## Tables -/

theorem tgetD_tmod {α : Type} (t : Tbl α) (k j : Nat) (d : α) (f : α → α) :
    tgetD (tmod t k d f) j d = if j = k then f (tgetD t j d) else tgetD t j d := by
  unfold tmod
  rw [tgetD_tset]
  split
  next h => rw [h]
  next => rfl

/-! ## Pools, slots and ports -/

theorem poolRec_updPool (l k : Nat) (f : PoolRec → PoolRec) (s : State) :
    poolRec l (updPool k f s) = if l % 8 = k % 8 then f (poolRec l s) else poolRec l s := tgetD_tmod ..

theorem poolRec_updPool_same (l : Nat) (f : PoolRec → PoolRec) (s : State) : poolRec l (updPool l f s) = f (poolRec l s) :=
  (poolRec_updPool ..).trans (if_pos rfl)

/-- A change of a pool's record that leaves its slots alone. -/
theorem slotRec_updPool (l n k : Nat) {f : PoolRec → PoolRec} (keeps : ∀ r, (f r).slots = r.slots) (s : State) :
    slotRec l n (updPool k f s) = slotRec l n s := by
  unfold slotRec
  rw [poolRec_updPool]
  split
  · rw [keeps]
  · rfl

theorem slotRec_updSlot (l n k m : Nat) (f : SlotRec → SlotRec) (s : State) :
    slotRec l n (updSlot k m f s) = if l % 8 = k % 8 ∧ n = m then f (slotRec l n s) else slotRec l n s := by
  unfold slotRec updSlot
  rw [poolRec_updPool]
  by_cases pool : l % 8 = k % 8
  · rw [if_pos pool]
    simp only [pool, true_and, tgetD_tmod]
  · rw [if_neg pool, if_neg fun h => pool h.1]

theorem slotRec_updSlot_same (l n : Nat) (f : SlotRec → SlotRec) (s : State) :
    slotRec l n (updSlot l n f s) = f (slotRec l n s) := (slotRec_updSlot ..).trans (if_pos ⟨rfl, rfl⟩)

theorem slotRec_mod (l n : Nat) (s : State) : slotRec (l % 8) n s = slotRec l n s := by
  simp only [slotRec, poolRec, Nat.mod_mod]

theorem poolRec_mod (l : Nat) (s : State) : poolRec (l % 8) s = poolRec l s := by
  simp only [poolRec, Nat.mod_mod]

theorem mport_updMport (q k : Nat) (f : MPort → MPort) (s : State) :
    mport q (updMport k f s) = if q = k then f (mport q s) else mport q s := tgetD_tmod ..

theorem mport_updMport_same (q : Nat) (f : MPort → MPort) (s : State) : mport q (updMport q f s) = f (mport q s) :=
  (mport_updMport ..).trans (if_pos rfl)

theorem slotRec_of_pools {s t : State} (h : t.mem.pools = s.mem.pools) (l n : Nat) : slotRec l n t = slotRec l n s := by
  simp only [slotRec, poolRec, h]

theorem mport_of_ports {s t : State} (h : t.mem.ports = s.mem.ports) (q : Nat) : mport q t = mport q s := by
  simp only [mport, h]

/-! ## Reports -/

/-- From `s` to `t` nothing changed but what reports something: events and records, fault messages, messages of the pair, the
module's commands with their completions, and ledger commits. -/
def SameButReports (s t : State) : Prop :=
  t = { s with
    out := t.out, free := t.free, port0 := t.port0, port1 := t.port1, rings := t.rings, evr := t.evr, fc := t.fc, pipe := t.pipe,
    led := { s.led with seq := t.led.seq }, ledNow := t.ledNow, ledOld := t.ledOld,
    pair := { s.pair with
      sendSeq := t.pair.sendSeq, unacked := t.pair.unacked, joint := t.pair.joint, again := t.pair.again } }

/-- The same, with the members, and the anchors that stay barred. -/
def SameButMembers (s t : State) : Prop :=
  t = { s with
    out := t.out, free := t.free, port0 := t.port0, port1 := t.port1, rings := t.rings, evr := t.evr, fc := t.fc, pipe := t.pipe,
    mem := t.mem, jnl := { s.jnl with barred := t.jnl.barred },
    led := { s.led with seq := t.led.seq }, ledNow := t.ledNow, ledOld := t.ledOld,
    pair := { s.pair with
      sendSeq := t.pair.sendSeq, unacked := t.pair.unacked, joint := t.pair.joint, again := t.pair.again } }

namespace SameButReports

theorem refl (s : State) : SameButReports s s := rfl

theorem trans {s t u : State} (hst : SameButReports s t) (htu : SameButReports t u) : SameButReports s u := by
  unfold SameButReports at hst htu ⊢
  rw [htu, hst]

theorem of_events {s t : State} (h : SameButEvents s t) : SameButReports s t := by
  unfold SameButEvents at h
  unfold SameButReports
  rw [h]

theorem foldl {α : Type} (f : State → α → State) (l : List α) (s : State) (each : ∀ s a, SameButReports s (f s a)) :
    SameButReports s (l.foldl f s) :=
  List.foldlRecOn l f (motive := SameButReports s) (refl s) fun t h a _ => h.trans (each t a)

section
variable {s t : State} (h : SameButReports s t)
include h

theorem now : t.now = s.now := (congrArg State.now h).trans rfl
theorem mem : t.mem = s.mem := (congrArg State.mem h).trans rfl
theorem pow : t.pow = s.pow := (congrArg State.pow h).trans rfl
theorem dev : t.dev = s.dev := (congrArg State.dev h).trans rfl
theorem plan : t.plan = s.plan := (congrArg State.plan h).trans rfl
theorem cache : t.cache = s.cache := (congrArg State.cache h).trans rfl
theorem jnl : t.jnl = s.jnl := (congrArg State.jnl h).trans rfl

theorem slotRec_eq (l n : Nat) : slotRec l n t = slotRec l n s := slotRec_of_pools (by rw [h.mem]) l n
theorem poolRec_eq (l : Nat) : poolRec l t = poolRec l s := by simp only [poolRec, h.mem]
theorem mport_eq (q : Nat) : mport q t = mport q s := mport_of_ports (by rw [h.mem]) q

theorem members : SameButMembers s t := by
  unfold SameButReports at h
  unfold SameButMembers
  rw [h]

end

end SameButReports

namespace SameButMembers

theorem refl (s : State) : SameButMembers s s := rfl

theorem trans {s t u : State} (hst : SameButMembers s t) (htu : SameButMembers t u) : SameButMembers s u := by
  unfold SameButMembers at hst htu ⊢
  rw [htu, hst]

theorem foldl {α : Type} (f : State → α → State) (l : List α) (s : State) (each : ∀ s a, SameButMembers s (f s a)) :
    SameButMembers s (l.foldl f s) :=
  List.foldlRecOn l f (motive := SameButMembers s) (refl s) fun t h a _ => h.trans (each t a)

section
variable {s t : State} (h : SameButMembers s t)
include h

theorem now : t.now = s.now := (congrArg State.now h).trans rfl
theorem dev : t.dev = s.dev := (congrArg State.dev h).trans rfl
theorem plan : t.plan = s.plan := (congrArg State.plan h).trans rfl
theorem pow : t.pow = s.pow := (congrArg State.pow h).trans rfl
theorem paired : t.led.paired = s.led.paired := (congrArg (·.led.paired) h).trans rfl
theorem cohort : t.led.cohort = s.led.cohort := (congrArg (·.led.cohort) h).trans rfl
theorem detached : t.pair.detached = s.pair.detached := (congrArg (·.pair.detached) h).trans rfl

/-- Whether the module owns a pool turns on the pool's recorded owner alone. -/
theorem owns_eq (l : Nat) (owner : (poolRec l t).owner = (poolRec l s).owner) : owns l t = owns l s := by
  simp only [owns, h.paired, h.cohort, h.detached, owner]

end

end SameButMembers

theorem sameButReports_raise (src kind addr : Nat) (s : State) (forced : Bool := false) :
    SameButReports s (raise src kind addr s forced) := by
  unfold raise
  dsimp only
  split <;> rfl

theorem sameButReports_raiseFree (src kind : Nat) (s : State) : SameButReports s (raiseFree src kind s) :=
  .trans (t := nextFree s) rfl (sameButReports_raise ..)

theorem sameButReports_event (typ obj data : Nat) (s : State) : SameButReports s (event typ obj data s) :=
  .of_events (sameButEvents_event ..)

theorem sameButReports_recEvent (src code obj : Nat) (detail : List Byte) (s : State) :
    SameButReports s (recEvent src code obj detail s) := .of_events (sameButEvents_recEvent ..)

theorem sameButReports_sendPair (m : PMsg) (s : State) : SameButReports s (sendPair m s) := by
  unfold sendPair wirePair
  dsimp only
  split <;> rfl

theorem sameButReports_propose (c : JointC) (s : State) : SameButReports s (propose c s) :=
  .trans (t := { s with pair.joint := s.pair.joint ++ [c] }) rfl (sameButReports_sendPair ..)

theorem sameButReports_poolCommit (p : Nat) (s : State) : SameButReports s (poolCommit p s) := by
  unfold poolCommit
  split
  · rfl
  · split
    · rfl
    · exact sameButReports_propose ..

theorem sameButEvents_updPort (p : Nat) (f : Port → Port) (s : State) : SameButEvents s (updPort p f s) := sameButEvents_setPort ..

/-- The interrupt of a PF1 completion queue, where it is on. -/
theorem sameButEvents_interrupt (p : Nat) (q : Nvq) (s : State) :
    SameButEvents s (if q.intEn then
      let e := tgetD (getPort p s).pf1.msix q.vector {}
      if e.masked then updPf1 p (fun u => { u with msix := tset u.msix q.vector { e with pend := true } }) s
      else emit (.msix p (4096 + q.vector) e.addr e.data) s
    else s) := by
  split
  · dsimp only
    split
    · exact sameButEvents_updPort ..
    · exact sameButEvents_emit ..
  · exact .refl s

theorem sameButEvents_writeNvme (p : Nat) (admin : Bool) (cid : BitVec 16) (status dw0 : Nat) (s : State) :
    SameButEvents s (writeNvme p admin cid status dw0 s) := by
  unfold writeNvme
  dsimp only
  split
  · exact .refl s
  next q _ => exact (sameButEvents_emit ..).trans ((sameButEvents_updPort ..).trans (sameButEvents_interrupt p q _))

theorem sameButEvents_postNvme (p : Nat) (admin : Bool) (cid : BitVec 16) (status dw0 : Nat) (s : State) :
    SameButEvents s (postNvme p admin cid status dw0 s) := by
  unfold postNvme
  split
  · exact .refl s
  · split
    · exact sameButEvents_updPort ..
    · exact sameButEvents_writeNvme ..

theorem sameButEvents_countNvme (p opcode n : Nat) (s : State) : SameButEvents s (countNvme p opcode n s) := by
  unfold countNvme
  split
  · exact sameButEvents_updPort ..
  · split
    · exact sameButEvents_updPort ..
    · exact .refl s

theorem sameButEvents_endRange (p : Nat) (cid status : BitVec 16) (s : State) : SameButEvents s (endRange p cid status s) := by
  have failed : SameButEvents s (if status = 0 ∨ (tget (getPort p s).pf1.dsmFail cid.toNat).isSome = true then s
      else updPf1 p (fun u => { u with dsmFail := tset u.dsmFail cid.toNat status }) s) := by
    split
    · exact .refl s
    · exact sameButEvents_updPort ..
  have ends (t : State) : SameButEvents t (if t.pipe.cmds.any (fun e => e.2.src == .dsm p cid) then t
      else postNvme p false cid (nvmeStatus (tgetD (getPort p t).pf1.dsmFail cid.toNat 0)) 0
        (updPf1 p (fun u => { u with dsmFail := tdel u.dsmFail cid.toNat }) t)) := by
    split
    · exact .refl t
    · exact (sameButEvents_updPort ..).trans (sameButEvents_postNvme ..)
  exact failed.trans (ends _)

theorem sameButReports_finishCmd (c : Nat) (status : BitVec 16) (result : Dword) (s : State) :
    SameButReports s (finishCmd c status result s) := by
  unfold finishCmd
  split
  · exact .refl s
  next cmd _ =>
    refine SameButReports.trans (t := { s with pipe.cmds := tdel s.pipe.cmds c }) rfl ?_
    dsimp only
    split
    · exact .of_events ((sameButEvents_setRing ..).trans (sameButEvents_postCqe ..))
    · split
      · exact .of_events ((sameButEvents_countNvme ..).trans (sameButEvents_postNvme ..))
      · exact .of_events (sameButEvents_postNvme ..)
    · exact .of_events (sameButEvents_endRange ..)
    · exact sameButReports_sendPair ..
    · exact .refl _

/-! ## Pools' records -/

/-- Of the members' state, the pools' records alone changed. -/
def OnlyPools (s t : State) : Prop := t.mem = { s.mem with pools := t.mem.pools }

namespace OnlyPools

theorem trans {s t u : State} (hst : OnlyPools s t) (htu : OnlyPools t u) : OnlyPools s u := by
  unfold OnlyPools at hst htu ⊢
  rw [htu, hst]

theorem of_mem {s t : State} (h : t.mem = s.mem) : OnlyPools s t := by
  unfold OnlyPools
  rw [h]

section
variable {s t : State} (h : OnlyPools s t)
include h

theorem cmds : t.mem.cmds = s.mem.cmds := (congrArg MemSt.cmds h).trans rfl
theorem ports : t.mem.ports = s.mem.ports := (congrArg MemSt.ports h).trans rfl

end

end OnlyPools

theorem onlyPools_updPool (l : Nat) (f : PoolRec → PoolRec) (s : State) : OnlyPools s (updPool l f s) := rfl

theorem onlyPools_updSlot (l n : Nat) (f : SlotRec → SlotRec) (s : State) : OnlyPools s (updSlot l n f s) := rfl

theorem sameButMembers_updPool (l : Nat) (f : PoolRec → PoolRec) (s : State) : SameButMembers s (updPool l f s) := rfl

theorem sameButMembers_updSlot (l n : Nat) (f : SlotRec → SlotRec) (s : State) : SameButMembers s (updSlot l n f s) := rfl

theorem owner_updPool (k l : Nat) {f : PoolRec → PoolRec} (keeps : ∀ r, (f r).owner = r.owner) (s : State) :
    (poolRec k (updPool l f s)).owner = (poolRec k s).owner := by
  rw [poolRec_updPool]
  split
  · exact keeps _
  · rfl

theorem owner_updSlot (k l n : Nat) (f : SlotRec → SlotRec) (s : State) :
    (poolRec k (updSlot l n f s)).owner = (poolRec k s).owner :=
  owner_updPool k l (f := fun p => { p with slots := tmod p.slots n {} f }) (fun _ => rfl) s

/-! ## A slot's state (08 R300 to R302) -/

/-- The choice of arbiters changes the pool's list of them, or nothing. -/
theorem fixArbs_cases (p : Nat) (s : State) :
    fixArbs p s = s ∨ ∃ l, fixArbs p s = updPool p (fun r => { r with arbs := l }) s := by
  unfold fixArbs
  dsimp only
  split
  · exact .inl rfl
  · split
    · split
      · exact .inr ⟨_, rfl⟩
      · exact .inl rfl
    · split
      · split
        · exact .inr ⟨_, rfl⟩
        · exact .inl rfl
      · exact .inl rfl

/-- What a pool's record says apart from its arbiters. -/
theorem fixArbs_poolRec (l p : Nat) (s : State) :
    ∃ a, poolRec l (fixArbs p s) = { poolRec l s with arbs := a } := by
  rcases fixArbs_cases p s with h | ⟨a, h⟩
  · exact ⟨_, by rw [h]⟩
  · rw [h, poolRec_updPool]
    split
    · exact ⟨a, rfl⟩
    · exact ⟨_, rfl⟩

theorem sameButMembers_fixArbs (p : Nat) (s : State) : SameButMembers s (fixArbs p s) := by
  rcases fixArbs_cases p s with h | ⟨a, h⟩
  · rw [h]; rfl
  · rw [h]; rfl

theorem onlyPools_fixArbs (p : Nat) (s : State) : OnlyPools s (fixArbs p s) := by
  rcases fixArbs_cases p s with h | ⟨a, h⟩
  · rw [h]; rfl
  · rw [h]; rfl

section
variable (l n : Nat) (st : SlotSt) (reason : Nat) (s : State)

theorem sameButMembers_slotTo : SameButMembers s (slotTo l n st reason s) := by
  unfold slotTo
  dsimp only
  refine SameButMembers.trans (SameButMembers.trans ?_ (sameButReports_event ..).members)
    ((sameButReports_recEvent ..).members.trans ((sameButMembers_fixArbs ..).trans (sameButReports_poolCommit ..).members))
  split <;> rfl

theorem onlyPools_slotTo : OnlyPools s (slotTo l n st reason s) := by
  unfold slotTo
  dsimp only
  refine OnlyPools.trans (OnlyPools.trans ?_ (.of_mem (sameButReports_event ..).mem))
    ((OnlyPools.of_mem (sameButReports_recEvent ..).mem).trans
      ((onlyPools_fixArbs ..).trans (.of_mem (sameButReports_poolCommit ..).mem)))
  split <;> rfl

/-- The record of a pool whose slot changes state: that slot's state and reason, and the arbiters. -/
theorem slotTo_poolRec (k : Nat) : ∃ a, poolRec k (slotTo l n st reason s) =
    { poolRec k (updSlot (l % 8) n (fun r => { r with st := st, reason := reason }) s) with arbs := a } := by
  unfold slotTo
  dsimp only
  rw [(sameButReports_poolCommit ..).poolRec_eq]
  obtain ⟨a, h⟩ := fixArbs_poolRec k (l % 8) (recEvent 0x1F4 0x0020 (l % 8 * 128 + n)
    [BitVec.ofNat 8 st.code, BitVec.ofNat 8 (slotRec (l % 8) n s).st.code, BitVec.ofNat 8 reason] (event 0x0001 (n + l % 8 * 128)
      (st.code + (slotRec (l % 8) n s).st.code * 16 + reason * 256)
      (if (slotRec (l % 8) n s).st = .online then
        { updSlot (l % 8) n (fun r => { r with st := st, reason := reason }) s with
          jnl.barred := (updSlot (l % 8) n (fun r => { r with st := st, reason := reason }) s).jnl.barred.filter (· != (l % 8, n)) }
      else updSlot (l % 8) n (fun r => { r with st := st, reason := reason }) s)))
  refine ⟨a, h.trans ?_⟩
  rw [(sameButReports_recEvent ..).poolRec_eq, (sameButReports_event ..).poolRec_eq]
  split <;> rfl

theorem slotTo_slotRec (k m : Nat) : slotRec k m (slotTo l n st reason s) =
    if k % 8 = l % 8 ∧ m = n then { slotRec k m s with st := st, reason := reason } else slotRec k m s := by
  obtain ⟨a, h⟩ := slotTo_poolRec l n st reason s k
  have slots : slotRec k m (slotTo l n st reason s) =
      slotRec k m (updSlot (l % 8) n (fun r => { r with st := st, reason := reason }) s) := by
    unfold slotRec
    rw [h]
  rw [slots, slotRec_updSlot, Nat.mod_mod]

theorem slotTo_slotRec_same : slotRec l n (slotTo l n st reason s) = { slotRec l n s with st := st, reason := reason } :=
  (slotTo_slotRec ..).trans (if_pos ⟨rfl, rfl⟩)

theorem slotTo_owner (k : Nat) : (poolRec k (slotTo l n st reason s)).owner = (poolRec k s).owner := by
  obtain ⟨a, h⟩ := slotTo_poolRec l n st reason s k
  rw [h, updSlot, poolRec_updPool]
  split <;> rfl

theorem slotTo_owns (k : Nat) : owns k (slotTo l n st reason s) = owns k s :=
  (sameButMembers_slotTo ..).owns_eq k (slotTo_owner ..)

end

end Sys2Proof.Machine
end

