-- ==== Sys2Proof/Proofs/SlotFailures.lean ====
section
/-! SUPPORT. Sys2Proof/Proofs/SlotFailures.lean: a slot that fails, the commit of its failure, and the completions of member commands
(08 R300 to R308). -/

namespace Sys2Proof.Machine

/-! ## What a failing port ends -/

theorem sameButReports_failOwner (o : MOwner) (s : State) : SameButReports s (failOwner o s) := by
  unfold failOwner
  split <;> rfl

/-- The waiting tag page updates of a port end: of the members, their queue alone changes. -/
theorem failTags_eq (q : Nat) (s : State) :
    ∃ t, SameButReports s t ∧ failTags q s = { t with mem.tagQueue := s.mem.tagQueue.filter (fun j => j.port != q) } := by
  have ends := SameButReports.foldl (fun s (j : TagJob) =>
    updJob j.ctx j.slot j.pos (fun y => { y with left := y.left - 1, fail := true }) s)
    (s.mem.tagQueue.filter (fun j => j.port == q)) s fun s j => rfl
  exact ⟨_, ends, by unfold failTags; dsimp only; rw [ends.mem]⟩

/-- A command of a failing port is dead and aborted. -/
def abortedAt (q : Nat) (e : Nat × MCmd) : Nat × MCmd :=
  if e.2.port = q then (e.1, { e.2 with dead := true, aborted := true }) else e

theorem failPort_eq (q : Nat) (s : State) :
    ∃ t, SameButReports s t ∧ failPort q s = { t with
      mem.tagQueue := s.mem.tagQueue.filter (fun j => j.port != q), mem.cmds := s.mem.cmds.map (abortedAt q) } := by
  have fails := SameButReports.foldl (fun s (e : Nat × MCmd) => emit (.memberAbort q e.1) (failOwner e.2.owner s))
    (s.mem.cmds.filter (fun e => e.2.port == q && !e.2.dead)) s fun s e => (sameButReports_failOwner ..).trans rfl
  obtain ⟨t, same, tags⟩ := failTags_eq q ((s.mem.cmds.filter (fun e => e.2.port == q && !e.2.dead)).foldl
    (fun s e => emit (.memberAbort q e.1) (failOwner e.2.owner s)) s)
  refine ⟨t, fails.trans same, ?_⟩
  unfold failPort
  dsimp only
  rw [tags, fails.mem]
  dsimp only
  rw [same.mem, fails.mem]
  rfl

theorem sameButMembers_failPort (q : Nat) (s : State) : SameButMembers s (failPort q s) := by
  obtain ⟨t, same, eq⟩ := failPort_eq q s
  rw [eq]
  exact same.members.trans rfl

theorem failPort_pools (q : Nat) (s : State) : (failPort q s).mem.pools = s.mem.pools := by
  obtain ⟨t, same, eq⟩ := failPort_eq q s
  rw [eq]
  show t.mem.pools = _
  rw [same.mem]

theorem failPort_ports (q : Nat) (s : State) : (failPort q s).mem.ports = s.mem.ports := by
  obtain ⟨t, same, eq⟩ := failPort_eq q s
  rw [eq]
  show t.mem.ports = _
  rw [same.mem]

theorem failPort_cmds (q : Nat) (s : State) : (failPort q s).mem.cmds = s.mem.cmds.map (abortedAt q) := by
  obtain ⟨t, same, eq⟩ := failPort_eq q s
  rw [eq]

/-! ## A slot fails (08 R300, R301, R307, R308) -/

section
variable (l n reason : Nat) (s : State)

/-- LABEL_GEN of a slot that fails: above the record's and the member's (04 R164). -/
def failedGen : Nat :=
  max (slotRec l n s).labelGen ((((slotRec l n s).port.bind (fun q => (mport q s).label)).map labelGen).getD 0) + 1

/-- What the record of a slot becomes when it fails. -/
def failedRec : SlotRec :=
  { slotRec l n s with
    st := .failed, reason := reason, labelGen := failedGen l n s, commitPending := true, commitSince := s.now, failedAt := s.now,
    ccCleared := false, resume := if (slotRec l n s).st = .suspect then .online else (slotRec l n s).st, adopting := none }

/-- The state of a slot that fails, before its adoption ends and the commands at its port do. -/
def failedSlot : State :=
  let s1 := slotTo l n .failed reason (updSlot l n (fun x => { x with labelGen := failedGen l n s }) s)
  updPool l (fun x => { x with walks := tdel x.walks n }) (updSlot l n (fun x => { x with
    commitPending := true, commitSince := s1.now, failedAt := s1.now, ccCleared := false,
    resume := if (slotRec l n s).st = .suspect then .online else (slotRec l n s).st }) s1)

/-- An adoption of a slot that fails ends with INVALID_STATE. -/
def failedAdoption : State :=
  match (slotRec l n s).adopting with
  | some c => finishCmd c 0x0005 0x0202 (updSlot l n (fun x => { x with adopting := none }) (failedSlot l n reason s))
  | none => failedSlot l n reason s

theorem owns_mod : owns (l % 8) s = owns l s := by
  simp only [owns, poolRec, Nat.mod_mod]

variable {l n s}

theorem slotFails_foreign (foreign : owns l s = false) : slotFails l n reason s = s := by
  unfold slotFails
  dsimp only
  rw [owns_mod, foreign]
  rfl

theorem slotFails_idle (idle : (slotRec l n s).st.serving = false) : slotFails l n reason s = s := by
  unfold slotFails
  dsimp only
  rw [slotRec_mod]
  split
  · rfl
  · split
    next h => simp [h, SlotSt.serving] at idle
    next h => simp [h, SlotSt.serving] at idle
    next h => simp [h, SlotSt.serving] at idle
    next h => simp [h, SlotSt.serving] at idle
    next => rfl

/-- A serving slot of an owned pool fails: the records say so, the adoption ends, then the commands at its port do. -/
theorem slotFails_serving (owned : owns l s = true) (serves : (slotRec l n s).st.serving = true) :
    slotFails l n reason s =
      match (slotRec (l % 8) n s).port with
      | none => failedAdoption (l % 8) n reason s
      | some q => raise (portSrc q) 0x3F ((l % 8 * 128 + n) * 65536 + reason) (failPort q (failedAdoption (l % 8) n reason s)) := by
  unfold slotFails failedAdoption failedSlot failedGen
  dsimp only
  rw [owns_mod, owned]
  rw [if_neg (by decide)]
  split
  next => rfl
  next => rfl
  next => rfl
  next => rfl
  next no1 no2 no3 no4 =>
    rw [← slotRec_mod] at serves
    cases st : (slotRec (l % 8) n s).st <;> simp_all [SlotSt.serving]

variable (l n s)

theorem sameButMembers_failedSlot : SameButMembers s (failedSlot l n reason s) :=
  (sameButMembers_updSlot l n _ s).trans ((sameButMembers_slotTo ..).trans
    ((sameButMembers_updSlot l n _ _).trans (sameButMembers_updPool l _ _)))

theorem onlyPools_failedSlot : OnlyPools s (failedSlot l n reason s) :=
  (onlyPools_updSlot l n _ s).trans ((onlyPools_slotTo ..).trans ((onlyPools_updSlot l n _ _).trans (onlyPools_updPool l _ _)))

theorem failedSlot_slotRec (k m : Nat) : slotRec k m (failedSlot l n reason s) =
    if k % 8 = l % 8 ∧ m = n then { failedRec l n reason s with adopting := (slotRec l n s).adopting } else slotRec k m s := by
  unfold failedSlot
  dsimp only
  rw [slotRec_updPool k m l (f := fun x => { x with walks := tdel x.walks n }) (fun _ => rfl), slotRec_updSlot, slotTo_slotRec,
    slotRec_updSlot, (sameButMembers_slotTo ..).now]
  split
  next same =>
    obtain ⟨pool, rfl⟩ := same
    have rec_k : slotRec k m s = slotRec l m s := by rw [← slotRec_mod k, pool, slotRec_mod]
    rw [rec_k]
    rfl
  next => rfl

theorem failedSlot_owner (k : Nat) : (poolRec k (failedSlot l n reason s)).owner = (poolRec k s).owner := by
  unfold failedSlot
  dsimp only
  rw [owner_updPool k l (f := fun x => { x with walks := tdel x.walks n }) (fun _ => rfl), owner_updSlot, slotTo_owner, owner_updSlot]

theorem sameButMembers_failedAdoption : SameButMembers s (failedAdoption l n reason s) := by
  unfold failedAdoption
  split
  · exact (sameButMembers_failedSlot ..).trans ((sameButMembers_updSlot ..).trans (sameButReports_finishCmd ..).members)
  · exact sameButMembers_failedSlot ..

theorem onlyPools_failedAdoption : OnlyPools s (failedAdoption l n reason s) := by
  unfold failedAdoption
  split
  · exact (onlyPools_failedSlot ..).trans ((onlyPools_updSlot ..).trans (.of_mem (sameButReports_finishCmd ..).mem))
  · exact onlyPools_failedSlot ..

theorem failedAdoption_slotRec (k m : Nat) : slotRec k m (failedAdoption l n reason s) =
    if k % 8 = l % 8 ∧ m = n then failedRec l n reason s else slotRec k m s := by
  unfold failedAdoption
  split
  · rw [(sameButReports_finishCmd ..).slotRec_eq, slotRec_updSlot, failedSlot_slotRec]
    split
    · rfl
    · rfl
  next none =>
    rw [failedSlot_slotRec]
    split
    next => rw [none]; rfl
    next => rfl

theorem failedAdoption_owner (k : Nat) : (poolRec k (failedAdoption l n reason s)).owner = (poolRec k s).owner := by
  unfold failedAdoption
  split
  · rw [(sameButReports_finishCmd ..).poolRec_eq, owner_updSlot, failedSlot_owner]
  · exact failedSlot_owner ..

/-- Whatever the slot does: of the members' state, the pools' records, the commands' ends and the tag queue alone change. -/
theorem slotFails_cases :
    slotFails l n reason s = s ∨
    slotFails l n reason s = failedAdoption (l % 8) n reason s ∨
    ∃ q addr, (slotRec (l % 8) n s).port = some q ∧
      slotFails l n reason s = raise (portSrc q) 0x3F addr (failPort q (failedAdoption (l % 8) n reason s)) := by
  by_cases owned : owns l s = true
  · by_cases serves : (slotRec l n s).st.serving = true
    · rw [slotFails_serving reason owned serves]
      cases port : (slotRec (l % 8) n s).port with
      | none => exact .inr (.inl rfl)
      | some q => exact .inr (.inr ⟨q, _, rfl, rfl⟩)
    · exact .inl (slotFails_idle reason (eq_false_of_ne_true serves))
  · exact .inl (slotFails_foreign reason (eq_false_of_ne_true owned))

theorem sameButMembers_slotFails : SameButMembers s (slotFails l n reason s) := by
  rcases slotFails_cases l n reason s with h | h | ⟨q, addr, -, h⟩
  · rw [h]; exact .refl s
  · rw [h]; exact sameButMembers_failedAdoption ..
  · rw [h]
    exact (sameButMembers_failedAdoption ..).trans ((sameButMembers_failPort ..).trans (sameButReports_raise ..).members)

theorem slotFails_ports : (slotFails l n reason s).mem.ports = s.mem.ports := by
  rcases slotFails_cases l n reason s with h | h | ⟨q, addr, -, h⟩
  · rw [h]
  · rw [h, (onlyPools_failedAdoption ..).ports]
  · rw [h, (sameButReports_raise ..).mem, failPort_ports, (onlyPools_failedAdoption ..).ports]

/-- The commands of members are those before, some of them dead. -/
theorem slotFails_cmds :
    ∀ e ∈ (slotFails l n reason s).mem.cmds, ∃ e' ∈ s.mem.cmds, e.1 = e'.1 ∧ e.2.owner = e'.2.owner ∧ e.2.port = e'.2.port := by
  intro e he
  rcases slotFails_cases l n reason s with h | h | ⟨q, addr, -, h⟩
  · rw [h] at he
    exact ⟨e, he, rfl, rfl, rfl⟩
  · rw [h, (onlyPools_failedAdoption ..).cmds] at he
    exact ⟨e, he, rfl, rfl, rfl⟩
  · rw [h, (sameButReports_raise ..).mem, failPort_cmds, (onlyPools_failedAdoption ..).cmds] at he
    obtain ⟨e', he', rfl⟩ := List.mem_map.mp he
    refine ⟨e', he', ?_⟩
    unfold abortedAt
    split <;> exact ⟨rfl, rfl, rfl⟩

variable {l n s} (owned : owns l s = true) (serves : (slotRec l n s).st.serving = true)
include owned serves

theorem slotFails_slotRec (k m : Nat) : slotRec k m (slotFails l n reason s) =
    if k % 8 = l % 8 ∧ m = n then failedRec (l % 8) n reason s else slotRec k m s := by
  rw [slotFails_serving reason owned serves]
  split
  next => rw [failedAdoption_slotRec, Nat.mod_mod]
  next =>
    rw [(sameButReports_raise ..).slotRec_eq, slotRec_of_pools (failPort_pools ..), failedAdoption_slotRec, Nat.mod_mod]

theorem slotFails_slotRec_same : slotRec l n (slotFails l n reason s) = failedRec (l % 8) n reason s :=
  (slotFails_slotRec reason owned serves l n).trans (if_pos ⟨rfl, rfl⟩)

/-- Every command that was outstanding at the slot's port is dead and aborted. -/
theorem slotFails_aborts {q : Nat} (port : (slotRec l n s).port = some q) :
    ∀ e ∈ (slotFails l n reason s).mem.cmds, e.2.port = q → e.2.dead = true ∧ e.2.aborted = true := by
  intro e he at_q
  rw [slotFails_serving reason owned serves, slotRec_mod, port] at he
  dsimp only at he
  rw [(sameButReports_raise ..).mem, failPort_cmds] at he
  obtain ⟨e', -, rfl⟩ := List.mem_map.mp he
  unfold abortedAt at at_q ⊢
  split
  next => exact ⟨rfl, rfl⟩
  next other =>
    rw [if_neg other] at at_q
    exact absurd at_q other

end

/-! ## Reservation commands that are lost (10 R381, R383) -/

theorem resvLost_of_none {s : State} (none : ∀ e ∈ s.mem.cmds, ∀ a b, e.2.owner ≠ .resv a b) (t : State) : resvLost s t = t := by
  unfold resvLost
  refine List.foldlRecOn s.mem.cmds _ (motive := fun u => u = t) rfl fun u eq e he => ?_
  split
  next a b owner => exact absurd owner (none e he a b)
  next => exact eq

/-! ## A member that is gone (08 R307) -/

/-- What a removal does before the port is emptied. -/
def removedSlot (q : Nat) (s : State) : State :=
  match portSlot q s with
  | some (p, n) => updSlot p n (fun r => { r with port := none }) (resvLost s (slotFails p n 0x0A s))
  | none => s

theorem removed_eq (q : Nat) (s : State) :
    removed q s = updMport q (fun p => { p with
        cls := .absent, present := false, agree := 0, linkUp := false, downAt := none, id := none, label := none })
      (resvLost (removedSlot q s) (forgetLink q { removedSlot q s with
        mem.cmds := (removedSlot q s).mem.cmds.filter (fun e => e.2.port != q) })) := by
  unfold removed removedSlot
  cases portSlot q s with
  | none => rfl
  | some sl => rfl

section
variable {q : Nat} {s : State}

theorem removed_mport : (mport q (removed q s)).present = false ∧ (mport q (removed q s)).id = none := by
  rw [removed_eq, mport_updMport_same]
  exact ⟨rfl, rfl⟩

variable (none : ∀ e ∈ s.mem.cmds, ∀ a b, e.2.owner ≠ .resv a b)
include none

theorem removedSlot_quiet : ∀ e ∈ (removedSlot q s).mem.cmds, ∀ a b, e.2.owner ≠ .resv a b := by
  unfold removedSlot
  split
  next p n _ =>
    rw [resvLost_of_none none]
    intro e he
    obtain ⟨e', he', -, owner, -⟩ := slotFails_cmds p n 0x0A s e he
    rw [owner]
    exact none e' he'
  next => exact none

theorem removed_mem : (removed q s).mem = { (removedSlot q s).mem with
    cmds := (removedSlot q s).mem.cmds.filter (fun e => e.2.port != q), ports := (removed q s).mem.ports } := by
  rw [removed_eq, resvLost_of_none (removedSlot_quiet none)]
  rfl

theorem removed_cmds : ∀ e ∈ (removed q s).mem.cmds, e.2.port ≠ q := by
  rw [removed_mem none]
  intro e he
  simpa using (List.mem_filter.mp he).2

theorem removed_slotRec {p n : Nat} (slot : portSlot q s = some (p, n)) :
    slotRec p n (removed q s) = { slotRec p n (slotFails p n 0x0A s) with port := .none } := by
  have pools : (removed q s).mem.pools = (removedSlot q s).mem.pools := by rw [removed_mem none]
  rw [slotRec_of_pools pools, removedSlot, slot]
  dsimp only
  rw [resvLost_of_none none, slotRec_updSlot_same]

end

/-! ## The commit of a failure (08 R300) -/

section
variable {p n : Nat} {s : State}

theorem failureCommit_waits (h : (slotRec p n s).commitPending = false ∨ poolPending p s = true) : failureCommit p n s = s :=
  if_pos (by rcases h with h | h <;> simp [h])

theorem failureCommit_lands (pending : (slotRec p n s).commitPending = true) (decided : poolPending p s = false) :
    failureCommit p n s =
      let s1 := updSlot p n (fun r => { r with commitPending := false, restore := 0, prep := none }) s
      let s2 := match (slotRec p n s).port with
        | some k => if (mport k s1).cls = .serving p n then updMport k (fun m => { m with cls := .stale p n }) s1 else s1
        | none => s1
      slotEmptied p n (precompute p (startRebuild p n
        (updPool p (fun x => { x with rebuildTotal := x.rebuildTotal + homedOn p n s2 }) s2))) := by
  refine (if_neg (by simp [pending, decided])).trans ?_
  cases (slotRec p n s).port with
  | none => rfl
  | some k =>
    simp only [beq_iff_eq]

end

/-! ## Timeouts (08 R307) -/

section
variable {tag p n : Nat} {m : MCmd} {s : State} (listed : tget s.mem.cmds tag = some m)
include listed

theorem failLatency_dead (h : m.dead = true ∨ m.slot = none) : exec (.failLatencyTimeout tag) s = .next (settle s) := by
  show execFailLatencyTimeout tag s = _
  rw [execFailLatencyTimeout, listed]
  refine congrArg go ?_
  dsimp only
  split
  · rfl
  · rw [h.resolve_left ‹_›]

theorem failLatency_alive (alive : m.dead = false) (slot : m.slot = some (p, n)) :
    exec (.failLatencyTimeout tag) s = .next (settle (
      let t := timeTo (m.issued + m.failMs * 1000) s
      if s.led.paired && !owns p s then match m.owner with
        | .resv .. => resvLost t { t with mem.cmds := tset s.mem.cmds tag { m with dead := true } }
        | _ => sendPair (.memberReport p n true) t
      else resvLost t (slotFails p n 0x04 (raise (portSrc m.port) 0x33 m.lba t)))) := by
  show execFailLatencyTimeout tag s = _
  rw [execFailLatencyTimeout, listed]
  dsimp only
  rw [alive, slot, if_neg Bool.false_ne_true]
  rfl

end

/-- Settles O30: each event by what its port serves; the record that a failing slot gets, and what its commit does. -/
theorem slotFailures : Obligations.SlotFailures := by
  unfold Obligations.SlotFailures
  refine ⟨fun q p n s => ⟨fun tag m listed => ⟨fun alive slot own => ?_, fun alive slot paired foreign owner => ?_,
    fun a b alive slot paired foreign owner => ?_, fun dead => failLatency_dead listed dead⟩, fun t down => ⟨fun slot => ?_, fun slot => ?_⟩,
    fun up => ?_, fun slot => ?_, fun slot => ?_, ⟨_, rfl, removed_mport⟩, fun none t => resvLost_of_none none t,
    fun none => ⟨_, rfl, removed_cmds none, fun slot small => ?_⟩, rfl, fun w => ⟨_, rfl, ?_⟩⟩, fun q p n s =>
    ⟨fun slot port owned serves none => ?_, fun pending decided => congrArg go (failureCommit_lands pending decided),
      fun h => congrArg go (failureCommit_waits h)⟩⟩
  · refine (failLatency_alive listed alive slot).trans (congrArg go (if_neg ?_))
    rcases own with h | h <;> simp [h]
  · refine (failLatency_alive listed alive slot).trans (congrArg go ((if_pos (by simp [paired, foreign])).trans ?_))
    split
    next a b h => exact absurd h (owner a b)
    next => rfl
  · refine (failLatency_alive listed alive slot).trans (congrArg go ((if_pos (by simp [paired, foreign])).trans ?_))
    rw [owner]
    rfl
  · show execLinkRetrainTimeout q s = _
    rw [execLinkRetrainTimeout, down]
    dsimp only
    rw [show portSlot q.val (forgetLink q.val (timeTo (t + 1000000) s)) = some (p, n) from slot]
    rfl
  · show execLinkRetrainTimeout q s = _
    rw [execLinkRetrainTimeout, down]
    dsimp only
    rw [show portSlot q.val (forgetLink q.val (timeTo (t + 1000000) s)) = none from slot]
    rfl
  · show execLinkRetrainTimeout q s = _
    rw [execLinkRetrainTimeout, up]
    rfl
  · show execControllerFatal q s = _
    rw [execControllerFatal, slot]
    rfl
  · show execControllerFatal q s = _
    rw [execControllerFatal, slot]
    rfl
  · rw [removed_slotRec none slot]
    refine ⟨rfl, fun owned serves => ?_⟩
    rw [slotFails_slotRec_same _ owned serves]
    exact ⟨rfl, rfl⟩
  · dsimp only
    rw [show mport q.val (linkUp q.val w s) = _ from mport_updMport_same ..]
    refine ⟨rfl, rfl, fun e he => ?_⟩
    obtain ⟨e', -, rfl⟩ := List.mem_map.mp he
    simp
  · have row : exec (.controllerFatal q) s = .next (settle (slotFails p.val n.val 0x08 s)) := by
      show execControllerFatal q s = _
      rw [execControllerFatal, slot]
      dsimp only
      rw [resvLost_of_none none]
      rfl
    refine ⟨_, row, ?_⟩
    dsimp only
    have mod : failedRec (p.val % 8) n.val 0x08 s = failedRec p.val n.val 0x08 s := by
      simp only [failedRec, failedGen, slotRec_mod]
    rw [slotFails_slotRec_same _ owned serves, mod]
    refine ⟨rfl, rfl, ?_, rfl, rfl, slotFails_aborts _ owned serves port⟩
    exact Nat.lt_succ_of_le (Nat.le_max_left ..)

end Sys2Proof.Machine
end

