-- ==== Sys2Proof/Proofs/MemberRows.lean ====
section
/-! SUPPORT. Sys2Proof/Proofs/MemberRows.lean: completions of member commands, marks and windows of slow ones (08 R301, R306 to
R308). -/

namespace Sys2Proof.Machine

/-! ## Completions (08 R306, R308) -/

section
variable {tag : Nat} {m : MCmd} {s : State} (listed : tget s.mem.cmds tag = some m)

/-- The state in which the work that sent a completed command hears of it. -/
def completedCmd (tag : Nat) (m : MCmd) (s : State) : State :=
  let s1 := updMport m.port (fun p => { p with lastUse := s.now }) { s with mem.cmds := tdel s.mem.cmds tag }
  match m.slot with
  | some (p, n) => updSlot p n (fun r => { r with lat := latNow r s1 ++ [(s1.now, (s.now - m.issued) / 1000)] }) s1
  | none => s1

include listed

theorem memberDone_dead (dead : m.dead = true) (st : MStatus) (d : List Byte) (tags : List Word) :
    memberDone tag st d tags s = updMport m.port (fun p => { p with lastUse := s.now }) { s with mem.cmds := tdel s.mem.cmds tag } := by
  unfold memberDone
  rw [listed]
  exact if_pos dead

theorem memberDone_alive (alive : m.dead = false) (st : MStatus) (d : List Byte) (tags : List Word) :
    ((∀ a b, m.owner ≠ .resv a b) → memberDone tag st d tags s =
      memberError m st (ownerOp m.owner (completedCmd tag m s)) (ownerEnd m (st == .success) d tags (completedCmd tag m s))) ∧
    ((∃ a b, m.owner = .resv a b) → memberDone tag st d tags s =
      ownerEnd m (st == .success) d tags (memberError m st (ownerOp m.owner (completedCmd tag m s)) (completedCmd tag m s))) := by
  unfold memberDone
  rw [listed]
  dsimp only
  rw [if_neg (ne_true_of_eq_false alive)]
  refine ⟨fun other => ?_, fun ⟨a, b, resv⟩ => ?_⟩
  · split
    next a b h => exact absurd h (other a b)
    next => rfl
  · rw [resv]
    rfl

end

theorem completedCmd_cmds (tag : Nat) (m : MCmd) (s : State) : (completedCmd tag m s).mem.cmds = tdel s.mem.cmds tag := by
  unfold completedCmd
  dsimp only
  split <;> rfl

theorem completedCmd_pipe (tag : Nat) (m : MCmd) (s : State) : (completedCmd tag m s).pipe = s.pipe := by
  unfold completedCmd
  dsimp only
  split <;> rfl

theorem memberError_success (m : MCmd) (op : Option Op) (s : State) : memberError m .success op s = s := by
  unfold memberError
  cases m.slot with
  | none => rfl
  | some sl => exact if_neg (by simp)

/-- A job of an instruction in flight changes; its instruction stays in flight. -/
theorem inflightOf_updJob {c k : Nat} {f : Inflight} {s : State} (pos : Nat) (g : Job → Job) (flies : inflightOf c k s = some f) :
    inflightOf c k (updJob c k pos g s) = some { f with jobs := tmod f.jobs pos {} g } := by
  obtain ⟨x, ctx, flight⟩ := Option.bind_eq_some_iff.mp flies
  unfold inflightOf updJob updInflight
  rw [ctxOf_updCtx_same _ ctx]
  show tget (tupd x.inflight k _) k = _
  rw [tget_tupd, if_pos rfl, flight]
  rfl

theorem abortTimeout_clears {q p n : Nat} {s : State} (slot : portSlot q s = some (p, n)) (failed : (slotRec p n s).st = .failed)
    (first : (slotRec p n s).ccCleared = false) (out : (s.mem.cmds.any (fun e => e.2.port == q && e.2.dead)) = true) :
    abortTimeout q s = emit (.memberCcClear q)
      (let t := updSlot p n (fun r => { r with ccCleared := true }) (timeTo ((slotRec p n s).failedAt + 1000000) s)
       { t with mem.cmds := t.mem.cmds.filter (fun e => !(e.2.port == q && e.2.dead)) }) := by
  unfold abortTimeout
  rw [slot]
  exact if_neg (by simp [failed, first, out])

/-- Settles O32: what a completion's command was for, and the 1 s after a failure. -/
theorem memberCompletions : Obligations.MemberCompletions := by
  unfold Obligations.MemberCompletions
  refine ⟨fun tag m st d tags s listed alive => ⟨fun other => congrArg go ((memberDone_alive listed alive st d tags).1 other),
    fun resv => congrArg go ((memberDone_alive listed alive st d tags).2 resv)⟩,
    fun tag m c k pos fr n ts d tags f s listed alive owner flies => ?_, fun tag st d tags s none => ?_,
    fun tag m st d tags s listed dead => congrArg go (memberDone_dead listed dead st d tags), fun q p n s slot =>
    ⟨fun failed first out => ⟨_, congrArg ok (abortTimeout_clears slot failed first out), rfl, fun e he => ?_, ?_⟩, fun h => ?_⟩⟩
  · have row := (memberDone_alive listed alive .success d tags).1 (by simp [owner])
    rw [memberError_success] at row
    have ends : ownerEnd m (MStatus.success == .success) d tags (completedCmd tag m s) =
        updJob c k pos (fun j => { j with left := j.left - 1, fail := j.fail || false }) (completedCmd tag m s) := by
      unfold ownerEnd
      rw [owner]
      rfl
    rw [ends] at row
    have still : inflightOf c k (completedCmd tag m s) = some f := by
      rw [inflightOf, ctxOf, completedCmd_pipe]
      exact flies
    refine ⟨_, congrArg go row, ?_, _, inflightOf_updJob pos _ still, ?_, ?_⟩
    · show tget (completedCmd tag m s).mem.cmds tag = none
      rw [completedCmd_cmds, tget_tdel, if_pos rfl]
    · rw [tgetD_tmod, if_pos rfl]
    · rw [tgetD_tmod, if_pos rfl]
      exact Bool.or_false _
  · refine congrArg go ?_
    unfold memberDone
    rw [none]
  · have := (List.mem_filter.mp he).2
    intro ⟨at_q, dead⟩
    simp [at_q, dead] at this
  · show (slotRec p n (updSlot p n _ _)).ccCleared = true
    rw [slotRec_updSlot_same]
  · refine congrArg ok ?_
    unfold abortTimeout
    rw [slot]
    exact if_pos (by rcases h with h | h | h <;> simp [h])

/-! ## Marks and windows (08 R301, R306) -/

/-- A command that is outstanding for SUSPECT_LATENCY is marked. -/
def markedCmd (tag : Nat) (m : MCmd) (s : State) : State :=
  { s with now := max s.now (m.issued + m.suspectMs * 1000), mem.cmds := tset s.mem.cmds tag { m with marked := true } }

/-- A mark, with the time that it stands for, joins its slot. -/
def markedSlot (p n : Nat) (m : MCmd) (s : State) : State :=
  let s1 := raise (portSrc m.port) 0x33 m.lba s
  updSlot p n (fun r => { r with marks := marksNow r s1 ++ [s1.now], lat := latNow r s1 ++ [(s1.now, m.suspectMs)] }) s1

/-- An ONLINE slot with a mark is SUSPECT. -/
def suspectSlot (p n : Nat) (s : State) : State :=
  if (slotRec p n s).st = .online then
    updSlot p n (fun r => { r with suspects := lastDay r.suspects s ++ [opSeconds s] }) (slotTo p n .suspect 0x02 s)
  else s

theorem sameButMembers_markedSlot (p n : Nat) (m : MCmd) (s : State) : SameButMembers s (markedSlot p n m s) :=
  (sameButReports_raise ..).members.trans (sameButMembers_updSlot ..)

theorem sameButMembers_suspectSlot (p n : Nat) (s : State) : SameButMembers s (suspectSlot p n s) := by
  unfold suspectSlot
  split
  · exact (sameButMembers_slotTo ..).trans (sameButMembers_updSlot ..)
  · exact .refl s

section
variable {tag p n : Nat} {m : MCmd} {s : State} (listed : tget s.mem.cmds tag = some m)
include listed

theorem slowMark_none (h : m.marked = true ∨ m.dead = true ∨ m.slot = none) : slowMark tag s = s := by
  unfold slowMark
  rw [listed]
  dsimp only
  split
  · rfl
  next fresh =>
    have noSlot : m.slot = none := by
      rcases h with h | h | h
      · simp [h] at fresh
      · simp [h] at fresh
      · exact h
    rw [noSlot]

variable (fresh : m.marked = false) (alive : m.dead = false) (slot : m.slot = some (p, n))
include fresh alive slot

theorem slowMark_marks :
    slowMark tag s =
      if s.led.paired && !owns p s then markedCmd tag m s
      else
        let s3 := suspectSlot p n (markedSlot p n m (markedCmd tag m s))
        if (prof s).suspectCount ≤ (slotRec p n s3).marks.length then slotFails p n 0x05 s3 else s3 := by
  have count : (prof (suspectSlot p n (markedSlot p n m (markedCmd tag m s)))).suspectCount = (prof s).suspectCount := by
    unfold prof
    rw [(sameButMembers_suspectSlot ..).dev, (sameButMembers_markedSlot ..).dev]
    rfl
  rw [← count]
  cases m
  dsimp only at fresh alive slot
  subst fresh alive slot
  unfold slowMark
  rw [listed]
  rfl

theorem slowMark_owned (own : s.led.paired = false ∨ owns p s = true) :
    slowMark tag s =
      let s3 := suspectSlot p n (markedSlot p n m (markedCmd tag m s))
      if (prof s).suspectCount ≤ (slotRec p n s3).marks.length then slotFails p n 0x05 s3 else s3 :=
  (slowMark_marks listed fresh alive slot).trans (if_neg (by rcases own with h | h <;> simp [h]))

end

/-- The record of an ONLINE slot that gets a mark. -/
theorem slotRec_suspectSlot {p n : Nat} {s : State} (online : (slotRec p n s).st = .online) :
    slotRec p n (suspectSlot p n s) = { slotRec p n s with
      st := .suspect, reason := 0x02, suspects := lastDay (slotRec p n s).suspects s ++ [opSeconds s] } := by
  unfold suspectSlot
  rw [if_pos online, slotRec_updSlot_same, slotTo_slotRec_same]

theorem slotRec_markedSlot (p n : Nat) (m : MCmd) (s : State) :
    slotRec p n (markedSlot p n m s) = { slotRec p n s with
      marks := marksNow (slotRec p n s) (raise (portSrc m.port) 0x33 m.lba s) ++ [s.now],
      lat := latNow (slotRec p n s) (raise (portSrc m.port) 0x33 m.lba s) ++ [(s.now, m.suspectMs)] } := by
  unfold markedSlot
  dsimp only
  rw [slotRec_updSlot_same, (sameButReports_raise ..).slotRec_eq, (sameButReports_raise ..).now]

section
variable {p n : Nat} {s : State}

theorem windowExpiry_clears (h : (slotRec p n s).st ≠ .suspect ∨ owns p s = false) :
    windowExpiry p n s = updSlot p n (fun r => { r with marks := [] })
      (timeTo ((slotRec p n s).marks.foldl max 0 + (prof s).suspectWindow * 1000000) s) := by
  have same : owns p (updSlot p n (fun r => { r with marks := [] })
      (timeTo ((slotRec p n s).marks.foldl max 0 + (prof s).suspectWindow * 1000000) s)) = owns p s := by
    unfold owns
    rw [owner_updSlot]
    rfl
  refine if_pos ?_
  rw [same]
  rcases h with h | h <;> simp [h]

theorem windowExpiry_recovers (suspect : (slotRec p n s).st = .suspect) (owned : owns p s = true) :
    windowExpiry p n s = slotTo p n .online 0x03 (updSlot p n (fun r => { r with marks := [] })
      (timeTo ((slotRec p n s).marks.foldl max 0 + (prof s).suspectWindow * 1000000) s)) := by
  have same : owns p (updSlot p n (fun r => { r with marks := [] })
      (timeTo ((slotRec p n s).marks.foldl max 0 + (prof s).suspectWindow * 1000000) s)) = owns p s := by
    unfold owns
    rw [owner_updSlot]
    rfl
  refine if_neg ?_
  rw [same]
  simp [suspect, owned]

end

/-- Settles O31: a mark by whether the command gives one and whose pool its slot is in; a window by its slot's state. -/
theorem marksAndWindows : Obligations.MarksAndWindows := by
  unfold Obligations.MarksAndWindows
  refine ⟨fun tag p n m s listed => ⟨fun h => congrArg go (slowMark_none listed h), fun fresh alive slot =>
    ⟨fun paired foreign => ?_, fun own => congrArg go (slowMark_owned listed fresh alive slot own)⟩⟩,
    fun tag p n m s listed fresh alive slot owned online first more => ?_, fun p n s =>
    ⟨fun h => congrArg go (windowExpiry_clears h), fun suspect owned => ?_⟩⟩
  · exact congrArg go ((slowMark_marks listed fresh alive slot).trans (if_pos (by simp [paired, foreign])))
  · have online1 : (slotRec p n (markedSlot p n m (markedCmd tag m s))).st = .online := by
      rw [slotRec_markedSlot]
      exact online
    have marks : (slotRec p n (suspectSlot p n (markedSlot p n m (markedCmd tag m s)))).marks =
        [(markedCmd tag m s).now] := by
      rw [slotRec_suspectSlot online1, slotRec_markedSlot]
      show marksNow (slotRec p n s) _ ++ _ = _
      rw [marksNow, first]
      rfl
    refine ⟨_, congrArg go ((slowMark_owned listed fresh alive slot (.inr owned)).trans (if_neg ?_)), ?_⟩
    · rw [marks]
      simpa using more
    · dsimp only
      rw [slotRec_suspectSlot online1]
      exact ⟨rfl, rfl⟩
  · have row := congrArg go (windowExpiry_recovers suspect owned)
    refine ⟨row, _, row, ?_⟩
    dsimp only
    rw [slotTo_slotRec_same, slotRec_updSlot_same]
    exact ⟨rfl, rfl, rfl⟩

end Sys2Proof.Machine
end

