-- ==== Sys2Proof/Proofs/Presence.lean ====
section
/-! SUPPORT. Sys2Proof/Proofs/Presence.lean: presence of members at their ports, insertion, the discovery window and preparation (16
R530; 04 R143, R166; 08 R303 to R305). -/

namespace Sys2Proof.Machine

/-! ## What changes no presence -/

/-- What the ports say of presence: whether a member is there, and which. -/
def presence (s : State) (q : Nat) : Bool × Option MemberId := ((mport q s).present, (mport q s).id)

theorem presence_of_ports {s t : State} (h : t.mem.ports = s.mem.ports) : presence t = presence s := by
  unfold presence mport
  rw [h]

theorem presence_of_mem {s t : State} (h : t.mem = s.mem) : presence t = presence s := presence_of_ports (by rw [h])

theorem presence_updMport (k : Nat) (f : MPort → MPort) (s : State) (keeps : ∀ v, (f v).present = v.present ∧ (f v).id = v.id) :
    presence (updMport k f s) = presence s := by
  funext q
  unfold presence
  rw [mport_updMport]
  split
  · rw [(keeps _).1, (keeps _).2]
  · rfl

theorem presence_foldl {α : Type} (f : State → α → State) (l : List α) (s : State) (each : ∀ s a, presence (f s a) = presence s) :
    presence (l.foldl f s) = presence s :=
  List.foldlRecOn l f (motive := fun t => presence t = presence s) rfl fun t h a _ => (each t a).trans h

theorem emitMember_ports (q tag : Nat) (r : MReq) (s : State) : (emitMember q tag r s).mem.ports = s.mem.ports := by
  unfold emitMember
  split <;> rfl

theorem presence_sendMember (q : Nat) (sl : Option (Nat × Nat)) (o : MOwner) (r : MReq) (s : State) :
    presence (sendMember q sl o r s) = presence s := by
  unfold sendMember
  split
  · rfl
  · exact (presence_of_ports (emitMember_ports ..)).trans
      (Eq.trans (presence_updMport q (fun v => { v with lastUse := s.now }) _ fun _ => ⟨rfl, rfl⟩) rfl)

theorem presence_resvTo (p : Nat) (slots : List Nat) (r : MReq) (s : State) : presence (resvTo p slots r s).2 = presence s := by
  unfold resvTo
  refine List.foldlRecOn slots _ (motive := fun a : Nat × State => presence a.2 = presence s) rfl fun a h k _ => ?_
  dsimp only
  split
  · exact (presence_sendMember ..).trans h
  · exact h

theorem presence_slotFails (l n reason : Nat) (s : State) : presence (slotFails l n reason s) = presence s :=
  presence_of_ports (slotFails_ports ..)

theorem presence_prepare (p n : Nat) (creation : Bool) (s : State) : presence (prepare p n creation s) = presence s := by
  unfold prepare
  split
  · rfl
  · dsimp only
    split
    · exact (presence_sendMember ..).trans (presence_sendMember ..)
    · exact presence_sendMember ..

theorem presence_resumeSlots (p : Nat) (s : State) : presence (resumeSlots p s) = presence s := by
  refine presence_foldl _ _ _ fun s e => ?_
  dsimp only
  split
  · exact presence_prepare ..
  · split <;> rfl

theorem adoptMirror_mem (p : Nat) (s : State) : (adoptMirror p s).mem = s.mem := by
  unfold adoptMirror
  dsimp only
  refine List.foldlRecOn _ _ (motive := fun t : State => t.mem = s.mem) rfl fun t h e _ => ?_
  exact h

theorem setPairSt_mem (n : Nat) (s : State) : (setPairSt n s).mem = s.mem := by
  unfold setPairSt
  split
  · rfl
  · exact (sameButReports_event ..).mem

theorem acceptOps_mem (c : Nat) (ops : List Op) (s : State) : (acceptOps c ops s).mem = s.mem :=
  (SameButOps.foldl (fun s o => newOp o s) ops (updCmd c (fun x => { x with opsLeft := x.opsLeft + ops.length }) s)
    fun s o => sameButOps_newOp o s).mem

theorem startIo_mem (c : Nat) (s : State) : (startIo c s).mem = s.mem := by
  have begins (ph : CmdPh) (ops : List Op) (u : State) : (acceptOps c ops (updCmd c (fun x => { x with ph := ph }) u)).mem = u.mem :=
    acceptOps_mem ..
  unfold startIo
  dsimp only
  split
  · rfl
  · split
    · exact (sameButReports_finishCmd ..).mem
    · split
      · exact (sameButReports_finishCmd ..).mem
      · split
        · split
          · exact (sameButReports_finishCmd ..).mem
          · exact begins ..
        · split
          · exact begins ..
          · split
            · exact begins ..
            · split
              · split
                · split
                  · exact ((sameButReports_raise ..).trans (sameButReports_finishCmd ..)).mem
                  · exact (sameButReports_finishCmd ..).mem
                · exact begins ..
              · rfl
      · rfl
      · exact (sameButReports_sendPair ..).mem

theorem rerun_mem (p : Nat) (s : State) : (rerun p s).mem = s.mem :=
  List.foldlRecOn _ _ (motive := fun t : State => t.mem = s.mem) rfl fun _ h _ _ => (startIo_mem ..).trans h

theorem refuseForwarded_mem (p : Nat) (s : State) : (refuseForwarded p s).mem = s.mem :=
  (SameButReports.foldl _ _ _ fun _ _ => sameButReports_finishCmd ..).mem

theorem presence_takeCommit (p : Nat) (t : Take) (s : State) : presence (takeCommit p t s) = presence s := by
  have fails (l : List Nat) (u : State) : presence (l.foldl (fun s n => slotFails p n 0x06 s) u) = presence u :=
    presence_foldl _ _ _ fun _ _ => presence_slotFails ..
  unfold takeCommit
  dsimp only
  rw [presence_of_mem (rerun_mem ..)]
  split
  · rw [presence_of_mem (sameButReports_recEvent ..).mem, presence_of_mem (setPairSt_mem ..)]
    refine (presence_of_mem (t := { adoptMirror p _ with pair := _ }) (adoptMirror_mem ..)).trans ?_
    rw [presence_resumeSlots, fails]
    rfl
  · refine (presence_of_mem (t := { adoptMirror p _ with pair := _ }) (adoptMirror_mem ..)).trans ?_
    rw [presence_resumeSlots, fails]
    rfl

theorem detach_mem (p : Nat) (s : State) : (detach p s).mem = s.mem := by
  unfold detach
  split <;> rfl

theorem presence_takeFail (p : Nat) (s : State) : presence (takeFail p s) = presence s := by
  unfold takeFail
  dsimp only
  rw [presence_of_mem (refuseForwarded_mem ..)]
  split
  · exact (presence_of_mem (setPairSt_mem ..)).trans (presence_of_mem (detach_mem ..))
  · exact presence_of_mem (detach_mem ..)

theorem presence_takeMembers (p : Nat) (t : Take) (s : State) : presence (takeMembers p t s) = presence s := by
  unfold takeMembers
  split
  · exact presence_takeFail ..
  · dsimp only
    split
    · rw [presence_takeCommit, presence_resvTo]
    · exact presence_resvTo ..

theorem presence_ownerHere (p e : Nat) (s : State) : presence (ownerHere p e s) = presence s := by
  unfold ownerHere
  dsimp only
  rw [presence_resumeSlots]
  exact presence_foldl _ _ _ fun _ _ => presence_slotFails ..

theorem presence_xferStep (p : Nat) (s : State) : presence (xferStep p s) = presence s := by
  unfold xferStep
  dsimp only
  split
  · exact presence_of_mem (sameButReports_sendPair ..).mem
  · split
    · split
      · rfl
      · exact presence_resvTo ..
    · split
      · split
        · split
          · rw [presence_of_mem (sameButReports_sendPair ..).mem]
            exact presence_resvTo ..
          · exact presence_resvTo ..
        · split
          · exact presence_of_mem (sameButReports_sendPair ..).mem
          · exact presence_ownerHere ..
      · rfl

theorem presence_resvEnd (p n : Nat) (good : Bool) (s : State) : presence (resvEnd p n good s) = presence s := by
  unfold resvEnd
  dsimp only
  split
  · split
    · rfl
    · split
      · exact presence_takeCommit ..
      · exact presence_takeMembers ..
  · split
    · split
      · rfl
      · exact presence_slotFails ..
    · split
      · rfl
      · split
        · exact presence_xferStep ..
        · rfl

theorem presence_resvLost (s t : State) : presence (resvLost s t) = presence t := by
  refine presence_foldl _ _ _ fun u e => ?_
  split
  · split
    · exact presence_resvEnd ..
    · rfl
  · rfl

theorem presence_removedSlot (k : Nat) (s : State) : presence (removedSlot k s) = presence s := by
  unfold removedSlot
  split
  · exact (presence_resvLost ..).trans (presence_slotFails ..)
  · rfl

theorem presence_removed (k q : Nat) (s : State) :
    presence (removed k s) q = if q = k then (false, none) else presence s q := by
  have rest : presence (resvLost (removedSlot k s) (forgetLink k { removedSlot k s with
      mem.cmds := (removedSlot k s).mem.cmds.filter (fun e => e.2.port != k) })) = presence s :=
    (presence_resvLost ..).trans (presence_removedSlot ..)
  rw [removed_eq, ← rest]
  unfold presence
  rw [mport_updMport]
  split <;> rfl

/-! ## Sideband frames (16 R530) -/

/-- What a frame does at one port. -/
def framePort (f : BitVec 128) (s : State) (q : Nat) : State :=
  if (!f.getLsbD q) == (mport q s).present then
    if (mport q s).agree = 0 then s else updMport q (fun p => { p with agree := 0 }) s
  else if (mport q s).agree + 1 < 10 then updMport q (fun p => { p with agree := p.agree + 1 }) s
  else if !f.getLsbD q then updMport q (fun p => { p with present := true, agree := 0, cls := .unclassified }) s
  else portEmptied q s

/-- The state in which a frame is taken. -/
def frameStart (s : State) : State :=
  let t := timeTo (s.mem.lastFrame + 100) s
  { t with mem.released := resetBits t, mem.lastFrame := t.now }

theorem sidebandFrame_eq (f : BitVec 128) (s : State) : sidebandFrame f s = (List.range 128).foldl (framePort f) (frameStart s) := by
  unfold sidebandFrame
  generalize List.range 128 = l
  rfl

/-- A port that a frame shows as it is. -/
theorem framePort_asIs {f : BitVec 128} {s : State} {q : Nat} (same : (!f.getLsbD q) = (mport q s).present) :
    (mport q (framePort f s q)).agree = 0 ∧ (mport q (framePort f s q)).present = (mport q s).present ∧
      ∀ k ≠ q, mport k (framePort f s q) = mport k s := by
  unfold framePort
  rw [if_pos (beq_iff_eq.mpr same)]
  split
  next zero => exact ⟨zero, rfl, fun _ _ => rfl⟩
  next =>
    refine ⟨?_, ?_, fun k other => ?_⟩
    · rw [mport_updMport_same]
    · rw [mport_updMport_same]
    · rw [mport_updMport, if_neg other]

/-- Ports that a frame shows as they are: none of them changes its presence, and no other port changes. -/
theorem frameFold_asIs {f : BitVec 128} {s : State} {l : List Nat} (same : ∀ q ∈ l, (!f.getLsbD q) = (mport q s).present) :
    (∀ q ∈ l, (mport q (l.foldl (framePort f) s)).agree = 0) ∧
    (∀ q, (mport q (l.foldl (framePort f) s)).present = (mport q s).present) ∧
    ∀ q, q ∉ l → mport q (l.foldl (framePort f) s) = mport q s := by
  induction l generalizing s with
  | nil => exact ⟨fun q h => absurd h List.not_mem_nil, fun _ => rfl, fun _ _ => rfl⟩
  | cons k l ih =>
    obtain ⟨zero, here, others⟩ := framePort_asIs (same k List.mem_cons_self)
    have presents (q : Nat) : (mport q (framePort f s k)).present = (mport q s).present := by
      by_cases h : q = k
      · rw [h, here]
      · rw [others q h]
    obtain ⟨zeros, stay, rest⟩ := ih (s := framePort f s k) fun q hq =>
      (same q (List.mem_cons_of_mem k hq)).trans (presents q).symm
    refine ⟨fun q hq => ?_, fun q => (stay q).trans (presents q), fun q hq => ?_⟩
    · by_cases later : q ∈ l
      · exact zeros q later
      · rcases List.mem_cons.mp hq with rfl | h
        · exact (congrArg MPort.agree (rest q later)).trans zero
        · exact absurd h later
    · obtain ⟨other, notLater⟩ := not_or.mp fun h => hq (List.mem_cons.mpr h)
      exact (rest q notLater).trans (others q other)

/-- A port that stands alone against the frame: those before it and behind it in the frame do not touch it. -/
theorem frameFold_one {f : BitVec 128} {s : State} {a : Nat} (port : a < 128)
    (same : ∀ q < 128, q ≠ a → (!f.getLsbD q) = (mport q s).present)
    (keeps : ∀ t : State, mport a t = mport a s → ∀ q < 128, q ≠ a → (mport q (framePort f t a)).present = (mport q t).present) :
    ∃ t, mport a t = mport a s ∧ mport a ((List.range 128).foldl (framePort f) s) = mport a (framePort f t a) := by
  obtain ⟨pre, post, split⟩ := List.append_of_mem (List.mem_range.mpr port)
  have distinct : (pre ++ a :: post).Nodup := split ▸ List.nodup_range
  have below : ∀ q ∈ pre ++ a :: post, q < 128 := fun q hq => List.mem_range.mp (split ▸ hq)
  have notPre : a ∉ pre := fun h => (List.nodup_append.mp distinct).2.2 a h a List.mem_cons_self rfl
  have notPost : a ∉ post := (List.nodup_cons.mp (List.nodup_append.mp distinct).2.1).1
  obtain ⟨-, presents, others⟩ := frameFold_asIs (f := f) (s := s) (l := pre) fun q hq =>
    same q (below q (List.mem_append_left _ hq)) (fun h => notPre (h ▸ hq))
  have here := others a notPre
  obtain ⟨-, -, rest⟩ := frameFold_asIs (f := f) (s := framePort f (pre.foldl (framePort f) s) a) (l := post) fun q hq => by
    have small := below q (List.mem_append_right _ (List.mem_cons_of_mem a hq))
    have other : q ≠ a := fun h => notPost (h ▸ hq)
    rw [keeps _ here q small other, presents, same q small other]
  exact ⟨_, here, by rw [split, List.foldl_append, List.foldl_cons, rest a notPost]⟩

/-- What stands on a port is gone, and no port of another base number changes its presence. -/
theorem presence_portEmptied {a : Nat} (port : a < 128) (s : State) :
    presence (portEmptied a s) a = (false, none) ∧ ∀ q < 128, q ≠ a → presence (portEmptied a s) q = presence s q := by
  unfold portEmptied
  rw [List.foldl_cons]
  generalize behind : (s.mem.ports.map (·.1)).filter (fun k => k != a && k % 128 == a) = l
  have others : ∀ k ∈ l, ∀ q < 128, q ≠ k := by
    intro k hk q small
    rw [← behind] at hk
    have far := (List.mem_filter.mp hk).2
    simp only [Bool.and_eq_true, bne_iff_ne, beq_iff_eq] at far
    omega
  have stays (q : Nat) (small : q < 128) (t : State) : presence (l.foldl (fun s k => removed k s) t) q = presence t q :=
    List.foldlRecOn l _ (motive := fun u => presence u q = presence t q) rfl fun u h k hk => by
      rw [presence_removed, if_neg (others k hk q small), h]
  refine ⟨?_, fun q small other => ?_⟩
  · rw [stays a port, presence_removed, if_pos rfl]
  · rw [stays q small, presence_removed, if_neg other]

section
variable {f : BitVec 128} {s : State} {a : Fin 128} (tenth : (mport a.val s).agree = 9)
  (same : ∀ q : Fin 128, q ≠ a → (!f.getLsbD q.val) = (mport q.val s).present)
include tenth same

/-- The tenth frame in a row that shows a member at an empty port. -/
theorem sidebandFrame_appears (shown : f.getLsbD a.val = false) (empty : (mport a.val s).present = false) :
    (mport a.val (sidebandFrame f s)).present = true ∧ (mport a.val (sidebandFrame f s)).cls = .unclassified := by
  have step (t : State) (here : mport a.val t = mport a.val s) : framePort f t a.val =
      updMport a.val (fun p => { p with present := true, agree := 0, cls := .unclassified }) t := by
    simp [framePort, here, shown, empty, tenth, -BitVec.getLsbD_eq_getElem]
  obtain ⟨t, here, eq⟩ := frameFold_one (f := f) (s := frameStart s) a.isLt
    (fun q small other => same ⟨q, small⟩ (fun h => other (congrArg Fin.val h))) (fun t here q _ other => by
      rw [step t here, mport_updMport, if_neg other])
  rw [sidebandFrame_eq, eq, step t here, mport_updMport_same]
  exact ⟨rfl, rfl⟩

/-- The tenth frame in a row that shows no member at a full port. -/
theorem sidebandFrame_empties (shown : f.getLsbD a.val = true) (full : (mport a.val s).present = true) :
    (mport a.val (sidebandFrame f s)).present = false ∧ (mport a.val (sidebandFrame f s)).id = none := by
  have step (t : State) (here : mport a.val t = mport a.val s) : framePort f t a.val = portEmptied a.val t := by
    simp [framePort, here, shown, full, tenth, -BitVec.getLsbD_eq_getElem]
  obtain ⟨t, here, eq⟩ := frameFold_one (f := f) (s := frameStart s) a.isLt
    (fun q small other => same ⟨q, small⟩ (fun h => other (congrArg Fin.val h))) (fun t here q small other => by
      rw [step t here]
      exact congrArg Prod.fst ((presence_portEmptied a.isLt t).2 q small other))
  rw [sidebandFrame_eq, eq, step t here]
  exact Prod.mk.inj (presence_portEmptied a.isLt t).1

end

/-! ## Insertion (04 R166, R167) -/

/-- The port's record of a member that appears. -/
def insertedPort (q : Nat) (id : MemberId) (s : State) : State :=
  updMport q (fun p => { p with
    present := true, agree := 0, linkUp := true, downAt := none, id := some id, label := memberLabel id,
    width := id.width.toNat, cls := classify q id s, lastUse := s.now }) s

theorem inserted_eq (q : Nat) (id : MemberId) (s : State) :
    inserted q id s = match classify q id s with
      | .serving p n => serveAt q p n (insertedPort q id s)
      | .foreign why => if why = 2 && !offersAt q (insertedPort q id s) then insertedPort q id s
        else event 0x0002 q why (insertedPort q id s)
      | _ => insertedPort q id s := rfl

section
variable {q : Nat} {id : MemberId} {s : State}

theorem inserted_serving {p n : Nat} (cls : classify q id s = .serving p n) :
    inserted q id s = serveAt q p n (insertedPort q id s) := by
  rw [inserted_eq, cls]

theorem inserted_foreign {why : Nat} (cls : classify q id s = .foreign why) :
    inserted q id s = if why = 2 && !offersAt q (insertedPort q id s) then insertedPort q id s
      else event 0x0002 q why (insertedPort q id s) := by
  rw [inserted_eq, cls]

theorem inserted_silent (cls : classify q id s = .retired ∨ ∃ p n, classify q id s = .stale p n) :
    inserted q id s = insertedPort q id s := by
  rw [inserted_eq]
  rcases cls with cls | ⟨p, n, cls⟩
  · rw [cls]
  · rw [cls]

end

/-! ## The discovery window (08 R304) -/

/-- Of a pool's record, the slots and the arbiters alone changed. -/
def SlotsOnly (k : Nat) (s t : State) : Prop := ∃ sl a, poolRec k t = { poolRec k s with slots := sl, arbs := a }

namespace SlotsOnly

theorem refl (k : Nat) (s : State) : SlotsOnly k s s := ⟨_, _, rfl⟩

theorem trans {k : Nat} {s t u : State} (hst : SlotsOnly k s t) (htu : SlotsOnly k t u) : SlotsOnly k s u := by
  obtain ⟨sl, a, h⟩ := hst
  obtain ⟨sl', a', h'⟩ := htu
  exact ⟨sl', a', by rw [h', h]⟩

section
variable {k : Nat} {s t : State} (h : SlotsOnly k s t)
include h

theorem owner : (poolRec k t).owner = (poolRec k s).owner := by obtain ⟨sl, a, h⟩ := h; rw [h]
theorem relocs : (poolRec k t).relocs = (poolRec k s).relocs := by obtain ⟨sl, a, h⟩ := h; rw [h]

end

end SlotsOnly

theorem slotsOnly_updSlot (k l n : Nat) (f : SlotRec → SlotRec) (s : State) : SlotsOnly k s (updSlot l n f s) := by
  unfold SlotsOnly updSlot
  rw [poolRec_updPool]
  split
  · exact ⟨_, _, rfl⟩
  · exact ⟨_, _, rfl⟩

theorem slotsOnly_slotTo (k l n : Nat) (st : SlotSt) (reason : Nat) (s : State) : SlotsOnly k s (slotTo l n st reason s) := by
  obtain ⟨a, h⟩ := slotTo_poolRec l n st reason s k
  obtain ⟨sl, b, h'⟩ := slotsOnly_updSlot k (l % 8) n (fun r => { r with st := st, reason := reason }) s
  exact ⟨sl, a, by rw [h, h']⟩

/-- Which cells are homed on a slot turns on the plan and on the pool's relocations. -/
theorem homedOn_eq {k : Nat} {s t : State} (plan : t.plan = s.plan) (only : SlotsOnly k s t) (n : Nat) :
    homedOn k n t = homedOn k n s := by
  simp only [homedOn, cellsOn, allCells, rollEntries, presentHome, relocOf, rollSlot, geomOf, poolEnt, tab, plan, only.relocs]

theorem updPool_other {k l : Nat} (other : k % 8 ≠ l % 8) (f : PoolRec → PoolRec) (s : State) :
    poolRec k (updPool l f s) = poolRec k s := (poolRec_updPool ..).trans (if_neg other)

/-- A change of a slot's state leaves the records of the other pools alone. -/
theorem slotTo_other {k l : Nat} (other : k % 8 ≠ l % 8) (n : Nat) (st : SlotSt) (reason : Nat) (s : State) :
    poolRec k (slotTo l n st reason s) = poolRec k s := by
  have other' : k % 8 ≠ l % 8 % 8 := by rwa [Nat.mod_mod]
  have arbs (t : State) : poolRec k (fixArbs (l % 8) t) = poolRec k t := by
    rcases fixArbs_cases (l % 8) t with h | ⟨a, h⟩
    · rw [h]
    · rw [h, updPool_other other']
  unfold slotTo
  dsimp only
  rw [(sameButReports_poolCommit ..).poolRec_eq, arbs, (sameButReports_recEvent ..).poolRec_eq,
    (sameButReports_event ..).poolRec_eq]
  split
  · exact updPool_other other' ..
  · exact updPool_other other' ..

/-- An unfound slot fails when the window closes. -/
def windowSlot (p : Nat) (s : State) (n : Nat) : State :=
  if (slotRec p n s).st = .absent && (homedOn p n s != 0 || !(usedSlots p s).contains n) && owns p s then
    updSlot p n (fun r => { r with commitPending := true, commitSince := s.now, failedAt := s.now, labelGen := r.labelGen + 1 })
      (slotTo p n .failed 0x0B s)
  else s

/-- A pool's window closes. -/
def windowPool (s : State) (p : Nat) : State :=
  if !discovering p s then s
  else updPool p (fun x => { x with discovery := false }) ((heldSlots p s).foldl (windowSlot p) s)

theorem closeWindow_eq {s : State} {t : Nat} (opened : s.mem.discoveryAt = some t) :
    closeWindow s = (poolIds s).foldl windowPool { s with now := max s.now (t + 60000000), mem.discoveryAt := none } := by
  unfold closeWindow
  rw [opened]
  rfl

/-- A slot that the closing window failed. -/
def Unfound (p n : Nat) (s : State) : Prop :=
  (slotRec p n s).st = .failed ∧ (slotRec p n s).reason = 0x0B ∧ (slotRec p n s).commitPending = true

section
variable (p m : Nat) (s : State)

theorem sameButMembers_windowSlot : SameButMembers s (windowSlot p s m) := by
  unfold windowSlot
  split
  · exact (sameButMembers_slotTo ..).trans (sameButMembers_updSlot ..)
  · exact .refl s

theorem windowSlot_discovery : (windowSlot p s m).mem.discoveryAt = s.mem.discoveryAt := by
  unfold windowSlot
  split
  · exact (congrArg MemSt.discoveryAt (onlyPools_slotTo p m .failed 0x0B s)).trans rfl
  · rfl

theorem slotsOnly_windowSlot (k : Nat) : SlotsOnly k s (windowSlot p s m) := by
  unfold windowSlot
  split
  · exact (slotsOnly_slotTo ..).trans (slotsOnly_updSlot ..)
  · exact .refl k s

theorem windowSlot_other {k n : Nat} (other : ¬ (k % 8 = p % 8 ∧ n = m)) : slotRec k n (windowSlot p s m) = slotRec k n s := by
  unfold windowSlot
  split
  · rw [slotRec_updSlot, if_neg other, slotTo_slotRec, if_neg other]
  · rfl

variable {p m s}

theorem windowSlot_fails (absent : (slotRec p m s).st = .absent) (cell : homedOn p m s ≠ 0) (owned : owns p s = true) :
    Unfound p m (windowSlot p s m) := by
  unfold windowSlot Unfound
  rw [if_pos (by simp [absent, cell, owned]), slotRec_updSlot_same, slotTo_slotRec_same]
  exact ⟨rfl, rfl, rfl⟩

theorem windowSlot_failed {k n : Nat} (failed : Unfound k n s) : Unfound k n (windowSlot p s m) := by
  by_cases same : k % 8 = p % 8 ∧ n = m
  · obtain ⟨pool, rfl⟩ := same
    have here : windowSlot p s n = s := by
      have st : (slotRec p n s).st = .failed := by rw [← slotRec_mod, ← pool, slotRec_mod]; exact failed.1
      exact if_neg (by simp [st])
    rw [here]
    exact failed
  · unfold Unfound
    rw [windowSlot_other p m s same]
    exact failed

end

/-- The window closes on the slots of a pool: an unfound one with a cell among them fails. -/
theorem windowSlots_fail {p n : Nat} {l : List Nat} {s : State} (listed : n ∈ l) (absent : (slotRec p n s).st = .absent)
    (cell : homedOn p n s ≠ 0) (owned : owns p s = true) : Unfound p n (l.foldl (windowSlot p) s) := by
  induction l generalizing s with
  | nil => exact absurd listed List.not_mem_nil
  | cons m l ih =>
    rw [List.foldl_cons]
    by_cases here : n = m
    · subst here
      exact List.foldlRecOn l _ (motive := Unfound p n) (windowSlot_fails absent cell owned) fun _ h _ _ => windowSlot_failed h
    · have only := slotsOnly_windowSlot p m s p
      refine ih ((List.mem_cons.mp listed).resolve_left here) ?_ ?_ ?_
      · rw [windowSlot_other p m s fun h => here h.2, absent]
      · rwa [homedOn_eq (sameButMembers_windowSlot p m s).plan only]
      · rw [(sameButMembers_windowSlot p m s).owns_eq p only.owner, owned]

theorem sameButMembers_windowPool (p : Nat) (s : State) : SameButMembers s (windowPool s p) := by
  unfold windowPool
  split
  · exact .refl s
  · exact (SameButMembers.foldl _ _ _ fun s m => sameButMembers_windowSlot p m s).trans (sameButMembers_updPool ..)

theorem windowPool_discoveryAt (p : Nat) (s : State) : (windowPool s p).mem.discoveryAt = s.mem.discoveryAt := by
  unfold windowPool
  split
  · rfl
  · exact List.foldlRecOn _ _ (motive := fun t : State => t.mem.discoveryAt = s.mem.discoveryAt) rfl fun t h m _ =>
      (windowSlot_discovery p m t).trans h

theorem windowPool_failed {k n p : Nat} {s : State} (failed : Unfound k n s) : Unfound k n (windowPool s p) := by
  unfold windowPool
  split
  · exact failed
  · have slots := List.foldlRecOn (heldSlots p s) (windowSlot p) (motive := Unfound k n) failed fun _ h _ _ => windowSlot_failed h
    unfold Unfound
    rw [slotRec_updPool k n p (f := fun x => { x with discovery := false }) fun _ => rfl]
    exact slots

theorem windowPool_other {k p : Nat} {s : State} (other : k % 8 ≠ p % 8) : poolRec k (windowPool s p) = poolRec k s := by
  have slot (t : State) (m : Nat) : poolRec k (windowSlot p t m) = poolRec k t := by
    unfold windowSlot
    split
    · exact (updPool_other other ..).trans (slotTo_other other ..)
    · rfl
  have slots := List.foldlRecOn (heldSlots p s) (windowSlot p) (motive := fun t => poolRec k t = poolRec k s) rfl
    fun t h m _ => (slot t m).trans h
  unfold windowPool
  split
  · rfl
  · exact (updPool_other other ..).trans slots

theorem windowPool_fails {p n : Nat} {s : State} (opened : discovering p s = true) (listed : n ∈ heldSlots p s)
    (absent : (slotRec p n s).st = .absent) (cell : homedOn p n s ≠ 0) (owned : owns p s = true) : Unfound p n (windowPool s p) := by
  unfold windowPool
  rw [opened]
  have slots := windowSlots_fail listed absent cell owned
  unfold Unfound
  rw [if_neg (by decide), slotRec_updPool p n p (f := fun x => { x with discovery := false }) fun _ => rfl]
  exact slots

/-- The window closes on the pools: an unfound slot with a cell, of an own pool among them, fails. -/
theorem windowPools_fail {p n : Nat} {l : List Nat} {s : State} (pool : p < 8) (pools : ∀ k ∈ l, k < 8) (has : p ∈ l)
    (opened : discovering p s = true) (listed : n ∈ heldSlots p s) (absent : (slotRec p n s).st = .absent)
    (cell : homedOn p n s ≠ 0) (owned : owns p s = true) : Unfound p n (l.foldl windowPool s) := by
  induction l generalizing s with
  | nil => exact absurd has List.not_mem_nil
  | cons k l ih =>
    rw [List.foldl_cons]
    by_cases here : p = k
    · subst here
      exact List.foldlRecOn l _ (motive := Unfound p n) (windowPool_fails opened listed absent cell owned) fun _ h _ _ =>
        windowPool_failed h
    · have other : p % 8 ≠ k % 8 := by
        have := pools k List.mem_cons_self
        omega
      have same := windowPool_other (s := s) other
      have plan := (sameButMembers_windowPool k s).plan
      refine ih (fun j hj => pools j (List.mem_cons_of_mem k hj)) ((List.mem_cons.mp has).resolve_left here) ?_ ?_ ?_ ?_ ?_
      · rw [discovering, same]; exact opened
      · simpa only [heldSlots, addedSlots, usedSlots, poolEnt, tab, plan, same] using listed
      · rw [slotRec, same]; exact absent
      · rwa [homedOn_eq plan ⟨_, _, same⟩]
      · rw [(sameButMembers_windowPool k s).owns_eq p (by rw [same]), owned]

theorem windowPools_now (l : List Nat) (s : State) : (l.foldl windowPool s).now = s.now :=
  (SameButMembers.foldl (fun s p => windowPool s p) l s fun s p => sameButMembers_windowPool p s).now

theorem windowPools_discoveryAt (l : List Nat) (s : State) : (l.foldl windowPool s).mem.discoveryAt = s.mem.discoveryAt :=
  List.foldlRecOn l windowPool (motive := fun t : State => t.mem.discoveryAt = s.mem.discoveryAt) rfl fun t h p _ =>
    (windowPool_discoveryAt p t).trans h

/-! ## Preparation (04 R143, 08 R305, R324) -/

section
variable {q p n : Nat} {creation : Bool} {s : State} (slot : portSlot q s = some (p, n))
  (prep : (slotRec p n s).prep = some creation)
include slot prep

theorem prepDone_waits (h : (slotRec p n s).st = .failed ∨ (slotRec p n s).adopting.isSome = true ∨ owns p s = false) :
    prepDone q s = s := by
  unfold prepDone
  rw [slot]
  dsimp only
  rw [prep]
  exact if_pos (by rcases h with h | h | h <;> simp [h])

theorem prepDone_ends (h : ¬ ((slotRec p n s).st = .failed ∨ (slotRec p n s).adopting.isSome = true ∨ owns p s = false)) :
    prepDone q s =
      let s1 := poolCommit p (updSlot p n (fun r => { r with prep := none }) s)
      if creation || (slotRec p n s1).st != .rebuilding then s1
      else updPool p (fun x => { x with
        walks := tset x.walks n { next := (slotRec p n s1).restore, lastCommit := s1.now } }) s1 := by
  unfold prepDone
  rw [slot]
  dsimp only
  rw [prep]
  refine if_neg ?_
  simp only [not_or, Bool.not_eq_true, Bool.not_eq_false] at h
  obtain ⟨st, adopting, owned⟩ := h
  simp [st, adopting, owned]

end

/-- Settles O33: the frame port by port, insertion by class, the window pool by pool and slot by slot. -/
theorem presenceAndDiscovery : Obligations.PresenceAndDiscovery := by
  unfold Obligations.PresenceAndDiscovery
  refine ⟨fun f s unpowered => if_pos unpowered, fun f s on1 on2 on3 on4 => ?_, fun q id s => ?_, fun s t opened => ?_,
    fun s closed => ?_, fun q p n creation s slot prep =>
    ⟨fun waits => congrArg go (prepDone_waits slot prep waits), fun ends => ⟨fun h => ?_, fun adopted rebuilding => ?_⟩⟩⟩
  · have row : exec (.memberSidebandFrame f) s = .next (settle (sidebandFrame f s)) := if_neg (by simp [on1, on2, on3, on4])
    refine ⟨fun same => ⟨_, row, fun q => ?_⟩, fun a tenth same => ⟨fun shown empty => ⟨_, row, ?_⟩, fun shown full => ⟨_, row, ?_⟩⟩⟩
    · obtain ⟨zeros, presents, -⟩ := frameFold_asIs (f := f) (s := frameStart s) (l := List.range 128)
        fun q hq => same ⟨q, List.mem_range.mp hq⟩
      rw [sidebandFrame_eq]
      exact ⟨presents q.val, zeros q.val (List.mem_range.mpr q.isLt)⟩
    · exact sidebandFrame_appears tenth same shown empty
    · exact sidebandFrame_empties tenth same shown full
  · refine ⟨fun p n cls => congrArg go (inserted_serving cls), fun why cls reported => ?_, fun cls silent => ?_,
      fun cls => congrArg go (inserted_silent cls), fun why cls => ⟨_, rfl, ?_⟩⟩
    · refine congrArg go ((inserted_foreign cls).trans (if_neg ?_))
      simp only [Bool.and_eq_true, decide_eq_true_eq, Bool.not_eq_true', not_and, Bool.not_eq_false]
      exact fun blank => reported.resolve_left (fun other => other blank)
    · refine congrArg go ((inserted_foreign cls).trans (if_pos ?_))
      simp only [Bool.and_eq_true, decide_true, true_and, Bool.not_eq_true']
      exact silent
    · have here : mport q.val (inserted q.val id s) = mport q.val (insertedPort q.val id s) := by
        rw [inserted_foreign cls]
        split
        · rfl
        · exact (sameButReports_event ..).mport_eq q.val
      dsimp only
      rw [here, insertedPort, mport_updMport_same]
      exact ⟨rfl, rfl, cls, rfl⟩
  · refine ⟨_, congrArg go (closeWindow_eq opened), ?_, ?_, fun p n pool discovers held absent cell owned => ?_⟩
    · rw [windowPools_discoveryAt]
    · rw [windowPools_now]
      exact Nat.le_max_right ..
    · refine windowPools_fail p.isLt (fun k hk => ?_) pool discovers held absent cell owned
      simpa using (List.mem_filter.mp hk).2
  · refine congrArg go ?_
    unfold closeWindow
    rw [closed]
  · exact congrArg go ((prepDone_ends slot prep ends).trans (if_pos (by rcases h with h | h <;> simp [h])))
  · exact congrArg go ((prepDone_ends slot prep ends).trans (if_neg (by simp [adopted, rebuilding])))

end Sys2Proof.Machine
end

