-- ==== Sys2Proof/Proofs/PairLink.lean ====
section
/-! SUPPORT. Sys2Proof/Proofs/PairLink.lean: what the pair's state keeps while work ends and messages go out; delivery, heartbeats,
SUSPECT and formation (10 R358 to R362, R378, R385). -/

namespace Sys2Proof.Machine

/-! ## The pair's state while work ends -/

/-- The pair's state without its messages, its joint commits and quiesces, its transfer and the pools that it lost. -/
def standing (s : State) : PairSt :=
  { s.pair with
    sendSeq := [], unacked := [], joint := [], staged := [], again := [], jq := none, jqWait := [], detached := [], detachedAt := [],
    acquiring := [], xfer := .none, xferCur := 0, xferDone := false, xferErr := false, xferReason := 0, xferLeft := 0,
    xferIn := none, xferOk := 0, xferBad := [] }

theorem standing_of_pair {s t : State} (h : t.pair = s.pair) : standing t = standing s := by
  rw [standing, standing, h]

theorem standing_of_members {s t : State} (h : SameButMembers s t) : standing t = standing s := by
  unfold SameButMembers at h
  rw [h]
  rfl

theorem standing_of_reports {s t : State} (h : SameButReports s t) : standing t = standing s := by
  unfold SameButReports at h
  rw [h]
  rfl

theorem standing_sendPair (m : PMsg) (s : State) : standing (sendPair m s) = standing s :=
  standing_of_reports (sameButReports_sendPair m s)

theorem standing_finishCmd (c : Nat) (status : BitVec 16) (result : Dword) (s : State) :
    standing (finishCmd c status result s) = standing s := standing_of_reports (sameButReports_finishCmd c status result s)

theorem standing_foldl {α : Type} (f : State → α → State) (l : List α) (s : State) (each : ∀ s a, standing (f s a) = standing s) :
    standing (l.foldl f s) = standing s :=
  List.foldlRecOn l f (motive := fun t => standing t = standing s) rfl fun t h a _ => (each t a).trans h

theorem standing_emitMember (q tag : Nat) (r : MReq) (s : State) : (emitMember q tag r s).pair = s.pair := by
  unfold emitMember
  split <;> rfl

theorem standing_sendMember (q : Nat) (sl : Option (Nat × Nat)) (o : MOwner) (r : MReq) (s : State) :
    standing (sendMember q sl o r s) = standing s := by
  unfold sendMember
  split
  · rfl
  · exact (standing_of_pair (standing_emitMember ..)).trans rfl

theorem standing_resvTo (p : Nat) (slots : List Nat) (r : MReq) (s : State) : standing (resvTo p slots r s).2 = standing s := by
  unfold resvTo
  refine List.foldlRecOn slots _ (motive := fun a : Nat × State => standing a.2 = standing s) rfl fun a h k _ => ?_
  dsimp only
  split
  · exact (standing_sendMember ..).trans h
  · exact h

theorem standing_prepare (p n : Nat) (creation : Bool) (s : State) : standing (prepare p n creation s) = standing s := by
  unfold prepare
  split
  · rfl
  · dsimp only
    split
    · exact (standing_sendMember ..).trans (standing_sendMember ..)
    · exact standing_sendMember ..

theorem standing_resumeSlots (p : Nat) (s : State) : standing (resumeSlots p s) = standing s := by
  refine standing_foldl _ _ _ fun s e => ?_
  dsimp only
  split
  · exact standing_prepare ..
  · split <;> rfl

theorem standing_ownerHere (p e : Nat) (s : State) : standing (ownerHere p e s) = standing s := by
  unfold ownerHere
  dsimp only
  rw [standing_resumeSlots]
  exact standing_foldl _ _ _ fun _ _ => standing_of_members (sameButMembers_slotFails ..)

theorem standing_xferStep (p : Nat) (s : State) : standing (xferStep p s) = standing s := by
  unfold xferStep
  dsimp only
  split
  · exact (standing_sendPair ..).trans rfl
  · split
    · split
      · rfl
      · exact standing_resvTo ..
    · split
      · split
        · split
          · rw [standing_sendPair]
            exact standing_resvTo ..
          · exact standing_resvTo ..
        · split
          · exact (standing_sendPair ..).trans rfl
          · exact standing_ownerHere ..
      · rfl

theorem standing_placeHeld (s : State) : standing (placeHeld s) = standing s := by
  unfold placeHeld
  split
  · rfl
  · refine standing_foldl _ _ _ fun s o => ?_
    split
    · exact standing_of_pair ((congrArg State.pair (sameButOps_placeOp o s)).trans rfl)
    · rfl

theorem standing_startQuiesce (r : SharedRec) (c : Option Nat) (s : State) : standing (startQuiesce r c s) = standing s := by
  unfold startQuiesce
  dsimp only
  split
  · rfl
  · exact (standing_sendPair ..).trans rfl

theorem standing_nextJoint (s : State) : standing (nextJoint s) = standing s := by
  unfold nextJoint
  split
  · split
    · rfl
    · exact standing_startQuiesce ..
  · refine standing_foldl _ _ _ fun s e => ?_
    dsimp only
    split
    · exact (standing_finishCmd ..).trans rfl
    · rfl

theorem standing_dropQuiesce (s : State) : standing (dropQuiesce s) = standing s := by
  unfold dropQuiesce
  split
  · rfl
  · dsimp only
    rw [standing_nextJoint, standing_placeHeld]
    split
    · exact (standing_finishCmd ..).trans rfl
    · rfl

theorem standing_detach (p : Nat) (s : State) : standing (detach p s) = standing s := by
  unfold detach
  split <;> rfl

theorem standing_acquireAll (p : Nat) (s : State) : standing (acquireAll p s) = standing s := standing_resvTo ..

/-- A joint quiesce before its commit point ends when the pair leaves PAIRED. -/
def leaveQuiesce (s : State) : State :=
  match s.pair.jq with
  | none => s
  | some q => if q.committed then s else dropQuiesce (if q.proposed then sendPair (.ledgerDecide false) s else s)

/-- A transfer out ends when the pair leaves PAIRED. -/
def leaveXfer (s : State) : State :=
  match s.pair.xfer with
  | .none => s
  | .drain => endXfer (some 0x0A04) s
  | .regain => s
  | .release => endXfer (some 0x0A04) (acquireAll s.pair.xferCur
      { acquiresLeft s.pair.xferCur s.pair.xferLeft s with pair.xferLeft := 0 })
  | _ =>
    let p := s.pair.xferCur
    let (n, s) := resvTo p (poolRec p s).arbs (.acquire (ownKey s)) (detach p s)
    let s := { s with pair.xfer := .regain, pair.xferLeft := n, pair.xferOk := 0, pair.xferBad := [] }
    if n = 0 then endXfer (some 0x0A04) s else s

theorem leavePaired_eq (s : State) : leavePaired s = match (leaveXfer (leaveQuiesce s)).pair.xferIn with
    | none => leaveXfer (leaveQuiesce s)
    | some p => if (leaveXfer (leaveQuiesce s)).pair.xferLeft = 0 then xferStep p (leaveXfer (leaveQuiesce s))
        else leaveXfer (leaveQuiesce s) := rfl

theorem standing_leaveQuiesce (s : State) : standing (leaveQuiesce s) = standing s := by
  unfold leaveQuiesce
  split
  · rfl
  · split
    · rfl
    · rw [standing_dropQuiesce]
      split
      · exact standing_sendPair ..
      · rfl

theorem standing_leaveXfer (s : State) : standing (leaveXfer s) = standing s := by
  have regains (t : Nat × State) : standing
      (if t.1 = 0 then endXfer (some 0x0A04)
          { t.2 with pair.xfer := .regain, pair.xferLeft := t.1, pair.xferOk := 0, pair.xferBad := [] }
        else { t.2 with pair.xfer := .regain, pair.xferLeft := t.1, pair.xferOk := 0, pair.xferBad := [] }) = standing t.2 := by
    split <;> rfl
  unfold leaveXfer
  split
  · rfl
  · rfl
  · rfl
  · exact standing_acquireAll s.pair.xferCur { acquiresLeft s.pair.xferCur s.pair.xferLeft s with pair.xferLeft := 0 }
  · exact (regains _).trans ((standing_resvTo ..).trans (standing_detach ..))

theorem standing_leavePaired (s : State) : standing (leavePaired s) = standing s := by
  have left : standing (leaveXfer (leaveQuiesce s)) = standing s := (standing_leaveXfer _).trans (standing_leaveQuiesce s)
  rw [leavePaired_eq]
  split
  · exact left
  · split
    · exact (standing_xferStep ..).trans left
    · exact left

/-! ## Messages and the pair state -/

theorem wirePair_events (seq : Nat) (m : PMsg) (s : State) : SameButEvents s (wirePair seq m s) := by
  unfold wirePair
  split <;> rfl

theorem resendPair_events (s : State) : SameButEvents s (resendPair s) := by
  unfold resendPair
  exact List.foldlRecOn _ _ (motive := fun t => SameButEvents s t) (.refl s) fun t h m _ => h.trans (wirePair_events ..)

theorem setPairSt_same {n : Nat} {s : State} (h : s.pair.st = n) : setPairSt n s = s := if_pos h

theorem setPairSt_events (n : Nat) (s : State) : SameButEvents { s with pair.st := n } (setPairSt n s) := by
  unfold setPairSt
  split
  next h => subst h; rfl
  next => exact sameButEvents_event ..

theorem setPairSt_pair (n : Nat) (s : State) : (setPairSt n s).pair = { s.pair with st := n } := (setPairSt_events n s).pair

theorem standing_sendHello (s : State) : standing (sendHello s) = { standing s with helloSent := true } :=
  (standing_sendPair ..).trans rfl

/-! ## Entry into SUSPECT (10 R362, R377 to R379) -/

/-- The pair's fields at the entry into SUSPECT. -/
def suspectStart (s : State) : State :=
  { s with pair := { s.pair with
    suspects := sat32 s.pair.suspects 1, suspectAt := s.now, windowAt := s.now, deciding := true,
    undecided := poolsOf s.led.peer s, peerKeys := [], taken := [], lastBeat := s.now - 5000,
    helloIn := none, helloOk := false, helloSent := false, hbTxRun := 0, hbRxRun := 0 } }

theorem enterSuspect_idle {s : State} (h : mirroring s = false) : enterSuspect s = s := if_pos (by simp [h])

theorem enterSuspect_eq {s : State} (h : mirroring s = true) : enterSuspect s =
    if (leavePaired (setPairSt 5 (suspectStart s))).pair.linkUp
    then sendHello (sendPair .suspectNotice (leavePaired (setPairSt 5 (suspectStart s))))
    else leavePaired (setPairSt 5 (suspectStart s)) := if_neg (by simp [h])

/-- A module that mirrors and enters SUSPECT. -/
theorem standing_enterSuspect {s : State} (h : mirroring s = true) : ∃ sent, standing (enterSuspect s) =
    { standing (suspectStart s) with st := 5, helloSent := sent } := by
  have left : standing (leavePaired (setPairSt 5 (suspectStart s))) = { standing (suspectStart s) with st := 5 } := by
    rw [standing_leavePaired, standing, setPairSt_pair]
    rfl
  rw [enterSuspect_eq h]
  split
  · exact ⟨true, by rw [standing_sendHello, standing_sendPair, left]⟩
  · exact ⟨false, left⟩

/-! ## Delivery (10 R359) -/

section
variable {cls : Nat} {h : PairHdr} {s : State} {f : State → State}

theorem deliver_unpaired (unpaired : s.led.paired = false) : deliver cls h f s = s := if_pos (by simp [unpaired])

theorem deliver_broken (paired : s.led.paired = true) (bad : h.crcOk = false) :
    deliver cls h f s = raiseFree 0x181 0x34 (pairDown s) :=
  (if_neg (by simp [paired])).trans (if_pos (by simp [bad]))

theorem deliver_discarded (paired : s.led.paired = true) (good : h.crcOk = true)
    (wrong : h.node.toNat ≠ s.led.peer ∨ h.epoch ≠ s.led.pairEpoch ∨ h.seq ≤ tgetD s.pair.recvSeq cls 0 ∨
      ((cls = 1 ∨ cls = 2) ∧ h.seq ≠ tgetD s.pair.recvSeq cls 0 + 1)) : deliver cls h f s = s := by
  refine (if_neg (by simp [paired])).trans ((if_neg (by simp [good])).trans (if_pos ?_))
  simp only [Bool.or_eq_true, Bool.and_eq_true, bne_iff_ne, beq_iff_eq, decide_eq_true_eq]
  tauto

theorem deliver_arrives (arrives : Arrives cls h s) : deliver cls h f s = f (heard cls h s) := by
  obtain ⟨paired, good, node, epoch, later, turn⟩ := arrives
  refine (if_neg (by simp [paired])).trans ((if_neg (by simp [good])).trans (if_neg ?_))
  simp only [Bool.or_eq_true, Bool.and_eq_true, bne_iff_ne, beq_iff_eq, decide_eq_true_eq]
  omega

end

/-- Every message of the pair but HELLO is delivered in its class. -/
theorem exec_pairMsg {i : Instr} {cls : Nat} {h : PairHdr} (message : pairMsg i = some (cls, h)) (s : State) :
    ∃ f, exec i s = go (deliver cls h f s) := by
  cases i
  case heartbeat => cases message; exact ⟨_, rfl⟩
  case farewell => cases message; exact ⟨_, rfl⟩
  case suspectNotice => cases message; exact ⟨_, rfl⟩
  case mirrorWrite => cases message; exact ⟨_, rfl⟩
  case mirrorAck => cases message; exact ⟨_, rfl⟩
  case mirrorClean => cases message; exact ⟨_, rfl⟩
  case jnlMirror => cases message; exact ⟨_, rfl⟩
  case jnlRetire => cases message; exact ⟨_, rfl⟩
  case ledgerPrepare => cases message; exact ⟨_, rfl⟩
  case ledgerVote => cases message; exact ⟨_, rfl⟩
  case ledgerDecide => cases message; exact ⟨_, rfl⟩
  case quiesceDone => cases message; exact ⟨_, rfl⟩
  case xfer => cases message; exact ⟨_, rfl⟩
  case quiesce => cases message; exact ⟨_, rfl⟩
  case forwardCmd => cases message; exact ⟨_, rfl⟩
  case forwardData => cases message; exact ⟨_, rfl⟩
  case forwardCpl => cases message; exact ⟨_, rfl⟩
  case memberReport => cases message; exact ⟨_, rfl⟩
  case resyncLine => cases message; exact ⟨_, rfl⟩
  case resyncDone => cases message; exact ⟨_, rfl⟩
  all_goals exact nomatch message

/-- Settles O36. -/
theorem pairMessagesOutOfTurn : Obligations.PairMessagesOutOfTurn := by
  intro i cls h s message last
  obtain ⟨f, row⟩ := exec_pairMsg message s
  rw [row]
  exact ⟨fun unpaired => congrArg go (deliver_unpaired unpaired), fun paired good wrong => congrArg go (deliver_discarded paired good wrong),
    fun paired bad => congrArg go (deliver_broken paired bad)⟩

/-! ## Heartbeats (10 R360, R362) -/

theorem resumePaired_eq (s : State) : resumePaired s =
    if s.pair.st = 5 ∧ s.pair.linkUp = true ∧ s.pair.helloOk = true ∧ 3 ≤ s.pair.hbTxRun ∧ 3 ≤ s.pair.hbRxRun then
      resendPair (setPairSt 4 { s with pair.deciding := false, pair.undecided := [], pair.peerKeys := [] })
    else s := by
  unfold resumePaired
  simp only [Bool.and_eq_true, decide_eq_true_eq, and_assoc]

/-- The end of SUSPECT touches the state, the decision and its keys only. -/
theorem resumePaired_pair (s : State) : ∃ n d l k, (resumePaired s).pair =
    { s.pair with st := n, deciding := d, undecided := l, peerKeys := k } := by
  rw [resumePaired_eq]
  split
  · exact ⟨4, false, [], [], (resendPair_events _).pair.trans (setPairSt_pair ..)⟩
  · exact ⟨_, _, _, _, rfl⟩

theorem exec_heartbeat {h : PairHdr} (m : HeartbeatMsg) {s : State} (arrives : Arrives 0 h s) :
    exec (.heartbeat h m) s = .next (settle (heartbeatIn m (heard 0 h s))) := congrArg go (deliver_arrives arrives)

theorem heartbeatIn_eq (h : PairHdr) (m : HeartbeatMsg) (s : State) : heartbeatIn m (heard 0 h s) = resumePaired { heard 0 h s with
    pair.hbRx := m.hbSeq, pair.hbRxAt := s.now, pair.peerSt := m.peerState.toNat, pair.peerCap := m.dirtyCap,
    pair.hbRxRun := if m.hbSeq = s.pair.hbRx + 1 then s.pair.hbRxRun + 1 else 1,
    pair.peerCommit := m.commitSeq, pair.peerProfile := m.profile.toNat,
    pair.mismatch := s.pair.mismatch && m.profile != s.dev.profile } := by
  unfold heartbeatIn heard
  simp only [beq_iff_eq]

theorem heartbeatSend_row (s : State) : (beats s = false → exec .heartbeatSend s = .next (settle s)) ∧
    (beats s = true →
      let t := max s.now (s.pair.hbTxAt + 1000)
      exec .heartbeatSend s = .next (settle (resumePaired (sendPair (.heartbeat
        { hbSeq := s.pair.hbTx + 1, peerState := BitVec.ofNat 4 s.pair.st, dirtyCap := s.cache.capUnits, commitSeq := s.led.seq,
          profile := s.dev.profile })
        { s with now := t, pair.hbTx := s.pair.hbTx + 1, pair.hbTxAt := t, pair.hbTxRun := s.pair.hbTxRun + 1 })))) :=
  ⟨fun no => congrArg go (if_pos (by simp [no])), fun yes => congrArg go (if_neg (by simp [yes]))⟩

/-! ## The ways into SUSPECT (10 R362) -/

theorem mirroring_of_st {s t : State} (h : t.pair.st = s.pair.st) : mirroring t = mirroring s := by
  rw [mirroring, mirroring, h]

theorem heartbeatTimeout_row (s : State) : (mirroring s = false → exec .heartbeatTimeout s = .next (settle s)) ∧
    (mirroring s = true →
      exec .heartbeatTimeout s = .next (settle (enterSuspect { s with now := max s.now (s.pair.hbRxAt + 3000) })) ∧
      Settles .heartbeatTimeout s (fun u => u.pair.st = 5 ∧ u.pair.suspectAt = max s.now (s.pair.hbRxAt + 3000) ∧
        u.pair.suspects = sat32 s.pair.suspects 1)) := by
  refine ⟨fun no => congrArg go (if_neg (ne_true_of_eq_false no)), fun yes => ?_⟩
  have row : exec .heartbeatTimeout s = .next (settle (enterSuspect { s with now := max s.now (s.pair.hbRxAt + 3000) })) :=
    congrArg go (if_pos yes)
  obtain ⟨sent, enters⟩ := standing_enterSuspect (s := { s with now := max s.now (s.pair.hbRxAt + 3000) }) yes
  exact ⟨row, _, row, congrArg PairSt.st enters, congrArg PairSt.suspectAt enters, congrArg PairSt.suspects enters⟩

theorem suspectNotice_row {h : PairHdr} {s : State} (arrives : Arrives 0 h s) :
    (mirroring s = false → exec (.suspectNotice h) s = .next (settle (heard 0 h s))) ∧
    (mirroring s = true → exec (.suspectNotice h) s = .next (settle (enterSuspect (heard 0 h s))) ∧
      Settles (.suspectNotice h) s (fun u => u.pair.st = 5 ∧ u.pair.suspectAt = s.now)) := by
  have row : exec (.suspectNotice h) s = .next (settle (enterSuspect (heard 0 h s))) := congrArg go (deliver_arrives arrives)
  refine ⟨fun no => row.trans (congrArg go (enterSuspect_idle (s := heard 0 h s) no)), fun yes => ?_⟩
  obtain ⟨sent, enters⟩ := standing_enterSuspect (s := heard 0 h s) yes
  exact ⟨row, _, row, congrArg PairSt.st enters, congrArg PairSt.suspectAt enters⟩

theorem pairLinkDown_row (s : State) : exec .pairLinkDown s = .next (settle (pairDown s)) ∧
    (mirroring s = true → Settles .pairLinkDown s (fun u => u.pair.st = 5 ∧ u.pair.linkUp = false ∧ u.pair.width = 0)) ∧
    (mirroring s = false → exec .pairLinkDown s = .next (settle
      { s with pair.linkUp := false, pair.width := 0, pair.helloSent := false, pair.helloIn := none })) := by
  refine ⟨rfl, fun yes => ?_, fun no => congrArg go (enterSuspect_idle
    (s := { s with pair.linkUp := false, pair.width := 0, pair.helloSent := false, pair.helloIn := none }) no)⟩
  obtain ⟨sent, enters⟩ := standing_enterSuspect
    (s := { s with pair.linkUp := false, pair.width := 0, pair.helloSent := false, pair.helloIn := none }) yes
  exact ⟨_, rfl, congrArg PairSt.st enters, congrArg PairSt.linkUp enters, congrArg PairSt.width enters⟩

theorem pairLinkUp_row (w : Fin 9) (s : State) :
    let s1 : State := { s with pair.linkUp := true, pair.width := w.val, pair.linkSeen := true,
                               pair.retrains := if s.pair.linkSeen then min 65535 (s.pair.retrains + 1) else s.pair.retrains }
    (s.led.paired = false ∨ s.dev.ready = false → exec (.pairLinkUp w) s = .next (settle s1)) ∧
    (s.led.paired = true → s.dev.ready = true → exec (.pairLinkUp w) s = .next (settle (resendPair (sendHello s1))) ∧
      Settles (.pairLinkUp w) s (fun u => u.pair.linkUp = true ∧ u.pair.width = w.val ∧ u.pair.helloSent = true)) := by
  intro s1
  refine ⟨fun no => congrArg go (if_pos ?_), fun paired ready => ?_⟩
  · simpa using no
  · have row : exec (.pairLinkUp w) s = .next (settle (resendPair (sendHello s1))) := congrArg go (if_neg (by simp [paired, ready]))
    have after : standing (resendPair (sendHello s1)) = { standing s1 with helloSent := true } :=
      (standing_of_pair (resendPair_events _).pair).trans (standing_sendHello s1)
    exact ⟨row, _, row, congrArg PairSt.linkUp after, congrArg PairSt.width after, congrArg PairSt.helloSent after⟩

/-! ## FAREWELL (10 R378) -/

/-- FAREWELL as a module in RESYNC, PAIRED or SUSPECT takes it. -/
def farewellIn (s : State) : State :=
  let far := if s.pair.st = 5 then s.pair.undecided else poolsOf s.led.peer s
  let s1 := if s.pair.st = 5 then s else leavePaired { s with pair.suspectAt := s.now, pair.lastBeat := s.now - 5000, pair.taken := [] }
  let s2 := { s1 with pair.deciding := false, pair.undecided := [] }
  if far.isEmpty then partition s2 else confirmLoss far s2

theorem exec_farewell {h : PairHdr} {s : State} (arrives : Arrives 0 h s) : exec (.farewell h) s =
    .next (settle (if s.pair.st = 3 ∨ s.pair.st = 4 ∨ s.pair.st = 5 then farewellIn (heard 0 h s) else heard 0 h s)) := by
  refine congrArg go ((deliver_arrives arrives).trans ?_)
  simp only [Bool.or_eq_true, decide_eq_true_eq, or_assoc]
  rfl

theorem farewell_row {h : PairHdr} {s : State} (arrives : Arrives 0 h s) :
    (s.pair.st ≠ 3 → s.pair.st ≠ 4 → s.pair.st ≠ 5 → exec (.farewell h) s = .next (settle (heard 0 h s))) ∧
    (s.pair.st = 5 ∨ mirroring s = true →
      let far := if s.pair.st = 5 then s.pair.undecided else poolsOf s.led.peer s
      let s1 := if s.pair.st = 5 then heard 0 h s
        else leavePaired { heard 0 h s with pair.suspectAt := s.now, pair.lastBeat := s.now - 5000, pair.taken := [] }
      let s2 := { s1 with pair.deciding := false, pair.undecided := [] }
      (far = [] → exec (.farewell h) s = .next (settle (partition s2))) ∧
      (far ≠ [] → exec (.farewell h) s = .next (settle (confirmLoss far s2)))) := by
  refine ⟨fun n3 n4 n5 => (exec_farewell arrives).trans (congrArg go (if_neg (by simp [n3, n4, n5]))), ?_⟩
  intro bears far s1 s2
  have row : exec (.farewell h) s = .next (settle (farewellIn (heard 0 h s))) := by
    refine (exec_farewell arrives).trans (congrArg go (if_pos ?_))
    simp only [mirroring, Bool.or_eq_true, beq_iff_eq] at bears
    tauto
  exact ⟨fun none => row.trans (congrArg go (if_pos (List.isEmpty_iff.mpr none))),
    fun some => row.trans (congrArg go (if_neg fun h => some (List.isEmpty_iff.mp h)))⟩

/-! ## HELLO (10 R385) -/

/-- A HELLO is recorded. -/
def helloHeard (h : PairHdr) (m : HelloMsg) (s : State) : State :=
  { s with pair.recvSeq := tset s.pair.recvSeq 0 h.seq, pair.helloIn := some m,
           pair.peerCommit := m.commitSeq, pair.peerProfile := m.profile.toNat }

/-- It is answered with HELLO when none went out and the module is not mirroring. -/
def helloAnswered (h : PairHdr) (m : HelloMsg) (s : State) : State :=
  if s.pair.linkUp = true ∧ s.pair.helloSent = false ∧ mirroring s = false then sendHello (helloHeard h m s) else helloHeard h m s

section
variable {h : PairHdr} {m : HelloMsg} {s : State}

theorem exec_hello (paired : s.led.paired = true) (good : h.crcOk = true) :
    exec (.hello h m) s = .next (settle (helloDone h (helloAnswered h m s))) := by
  refine congrArg go ((if_neg (by simp [paired])).trans ((if_neg (by simp [good])).trans ?_))
  simp only [Bool.and_eq_true, Bool.not_eq_true', and_assoc]
  rfl

/-- What an answer leaves of the pair's state, and what a HELLO says of it. -/
theorem helloAnswered_standing : standing (helloAnswered h m s) = { standing (helloHeard h m s) with
    helloSent := s.pair.helloSent || (s.pair.linkUp && !mirroring s) } := by
  unfold helloAnswered
  split
  next answers =>
    obtain ⟨up, -, rests⟩ := answers
    rw [standing_sendHello, up, rests, Bool.not_false, Bool.and_true, Bool.or_true]
  next none =>
    have same : (s.pair.helloSent || (s.pair.linkUp && !mirroring s)) = s.pair.helloSent := by
      cases sent : s.pair.helloSent <;> cases up : s.pair.linkUp <;> cases rests : mirroring s <;> simp_all
    rw [same]
    rfl

theorem sendPair_led (m : PMsg) (s : State) : (sendPair m s).led = s.led := (wirePair_events ..).led.trans rfl

theorem helloAnswered_led : (helloAnswered h m s).led = s.led := by
  unfold helloAnswered
  split
  · exact (sendPair_led ..).trans rfl
  · rfl

theorem helloAnswered_tab : tab (helloAnswered h m s) = tab s := by
  unfold helloAnswered
  split
  · exact congrArg (fun p : PlanSt => p.tab.getD {}) ((sameButReports_sendPair ..).plan.trans rfl)
  · rfl

end

/-! What the end of the exchange does, on a state that holds a HELLO. -/

section
variable {h : PairHdr} {m : HelloMsg} {t : State} (got : t.pair.helloIn = some m)
include got

theorem helloDone_idle (no : t.pair.linkUp = false ∨ t.pair.st = 0 ∨ mirroring t = true) : helloDone h t = t := by
  unfold helloDone
  rw [got]
  exact if_pos (by simp only [Bool.or_eq_true, Bool.not_eq_true', decide_eq_true_eq]; tauto)

variable (up : t.pair.linkUp = true) (sent : t.pair.helloSent = true) (rests : mirroring t = false)
include up sent rests

theorem helloDone_suspect (suspect : t.pair.st = 5) : helloDone h t =
    if h.epoch = t.led.pairEpoch ∧ h.node.toNat = t.led.peer ∧ t.pair.helloOk = false
    then { t with pair.helloOk := true, pair.hbTxRun := 0, pair.hbRxRun := 0 } else t := by
  unfold helloDone
  rw [got]
  refine (if_neg (by simp [up, sent, rests, suspect])).trans ((if_pos suspect).trans ?_)
  simp only [Bool.and_eq_true, Bool.not_eq_true', decide_eq_true_eq, and_assoc]

theorem helloDone_forms (known : t.pair.st ≠ 0) (other : t.pair.st ≠ 5) : helloDone h t =
    if h.node.toNat ≠ t.led.peer then refuseForming 0 (setPairSt 2 t)
    else if m.planHash ≠ (tab t).hash then refuseForming 1 (setPairSt 2 t)
    else beginForming m (setPairSt 2 t) := by
  have peer : (setPairSt 2 t).led = t.led := (setPairSt_events 2 t).led
  have plan : tab (setPairSt 2 t) = tab t := congrArg (fun p : PlanSt => p.tab.getD {}) ((setPairSt_events 2 t).plan.trans rfl)
  unfold helloDone
  rw [got]
  refine (if_neg (by simp [up, sent, rests, known])).trans ((if_neg other).trans ?_)
  dsimp only
  rw [peer, plan]
  simp only [bne_iff_ne]

end

theorem hello_row (h : PairHdr) (m : HelloMsg) (s : State) :
    (s.led.paired = false → exec (.hello h m) s = .next (settle s)) ∧
    (s.led.paired = true → h.crcOk = false → exec (.hello h m) s = .next (settle (raiseFree 0x181 0x34 (pairDown s)))) ∧
    (s.led.paired = true → h.crcOk = true →
      let s1 := helloAnswered h m s
      (s.pair.linkUp = false ∨ s.pair.st = 0 ∨ mirroring s = true → exec (.hello h m) s = .next (settle s1)) ∧
      (s.pair.linkUp = true → s.pair.st = 5 →
        (h.epoch = s.led.pairEpoch → h.node.toNat = s.led.peer → s.pair.helloOk = false →
          exec (.hello h m) s = .next (settle { s1 with pair.helloOk := true, pair.hbTxRun := 0, pair.hbRxRun := 0 })) ∧
        (h.epoch ≠ s.led.pairEpoch ∨ h.node.toNat ≠ s.led.peer ∨ s.pair.helloOk = true →
          exec (.hello h m) s = .next (settle s1))) ∧
      (s.pair.linkUp = true → s.pair.st ≠ 0 → mirroring s = false → s.pair.st ≠ 5 →
        (h.node.toNat ≠ s.led.peer → exec (.hello h m) s = .next (settle (refuseForming 0 (setPairSt 2 s1)))) ∧
        (h.node.toNat = s.led.peer → m.planHash ≠ (tab s).hash →
          exec (.hello h m) s = .next (settle (refuseForming 1 (setPairSt 2 s1)))) ∧
        (h.node.toNat = s.led.peer → m.planHash = (tab s).hash →
          exec (.hello h m) s = .next (settle (beginForming m (setPairSt 2 s1)))))) := by
  refine ⟨fun unpaired => congrArg go (if_pos (by simp [unpaired])),
    fun paired bad => congrArg go ((if_neg (by simp [paired])).trans (if_pos (by simp [bad]))), ?_⟩
  intro paired good s1
  have row : exec (.hello h m) s = .next (settle (helloDone h s1)) := exec_hello paired good
  have stands : standing s1 = _ := helloAnswered_standing
  have got : s1.pair.helloIn = some m := congrArg PairSt.helloIn stands
  have link : s1.pair.linkUp = s.pair.linkUp := (congrArg PairSt.linkUp stands).trans rfl
  have st : s1.pair.st = s.pair.st := (congrArg PairSt.st stands).trans rfl
  have ok : s1.pair.helloOk = s.pair.helloOk := (congrArg PairSt.helloOk stands).trans rfl
  have sent (up : s.pair.linkUp = true) (rests : mirroring s = false) : s1.pair.helloSent = true := by
    refine (congrArg PairSt.helloSent stands).trans ?_
    rw [up, rests]
    exact Bool.or_true _
  have led : s1.led = s.led := helloAnswered_led
  have plan : tab s1 = tab s := helloAnswered_tab
  rw [row]
  refine ⟨fun no => congrArg go (helloDone_idle got ?_), fun up suspect => ?_, fun up known rests other => ?_⟩
  · rwa [link, st, mirroring_of_st st]
  · have rests : mirroring s = false := by simp [mirroring, suspect]
    have suspects := helloDone_suspect (h := h) got (link.trans up) (sent up rests) ((mirroring_of_st st).trans rests)
      (st.trans suspect)
    exact ⟨fun epoch node fresh => congrArg go (suspects.trans (if_pos (by rw [led, ok]; exact ⟨epoch, node, fresh⟩))),
      fun no => congrArg go (suspects.trans (if_neg (by
        rw [led, ok]
        rintro ⟨epoch, node, fresh⟩
        simp [epoch, node, fresh] at no)))⟩
  · have forms := helloDone_forms (h := h) got (link.trans up) (sent up rests) ((mirroring_of_st st).trans rests)
      (by rwa [st]) (by rwa [st])
    rw [led, plan] at forms
    exact ⟨fun node => congrArg go (forms.trans (if_pos node)),
      fun node hash => congrArg go (forms.trans ((if_neg (not_not_intro node)).trans (if_pos hash))),
      fun node hash => congrArg go (forms.trans ((if_neg (not_not_intro node)).trans (if_neg (not_not_intro hash))))⟩

/-- Settles O37. -/
theorem heartbeatsAndFormation : Obligations.HeartbeatsAndFormation := by
  refine ⟨⟨heartbeatSend_row, fun h m s arrives => ?_, resumePaired_eq, heartbeatTimeout_row, fun h s => suspectNotice_row,
    pairLinkDown_row, pairLinkUp_row, fun h s => farewell_row⟩, hello_row⟩
  have row := exec_heartbeat m arrives
  rw [heartbeatIn_eq] at row
  obtain ⟨n, d, l, k, same⟩ := resumePaired_pair { heard 0 h s with
    pair.hbRx := m.hbSeq, pair.hbRxAt := s.now, pair.peerSt := m.peerState.toNat, pair.peerCap := m.dirtyCap,
    pair.hbRxRun := if m.hbSeq = s.pair.hbRx + 1 then s.pair.hbRxRun + 1 else 1,
    pair.peerCommit := m.commitSeq, pair.peerProfile := m.profile.toNat,
    pair.mismatch := s.pair.mismatch && m.profile != s.dev.profile }
  exact ⟨row, _, row, by rw [same], by rw [same], by rw [same], by rw [same], by rw [same], by rw [same]⟩

end Sys2Proof.Machine
end

