-- ==== Sys2Proof/Proofs/PairRows.lean ====
section
/-! SUPPORT. Sys2Proof/Proofs/PairRows.lean: the rows of the loss of the peer, of mirroring, of joint commits and of forwarding (10
R363 to R387). -/

namespace Sys2Proof.Machine

/-! ## Loss of the peer (10 R377 to R379) -/

theorem standing_settleJoint (c : JointC) (s : State) : standing (settleJoint false c s) = standing s := by
  unfold settleJoint
  simp only [Bool.false_and, Bool.false_eq_true, if_false]
  split
  · exact standing_finishCmd ..
  · split <;> rfl
  · rfl

theorem standing_endJoint (s : State) : standing (endJoint s) = standing s := by
  unfold endJoint
  split
  · rfl
  · split
    · rfl
    · dsimp only
      rw [standing_nextJoint, standing_placeHeld]
      split
      · exact (standing_finishCmd ..).trans rfl
      · rfl

theorem standing_endPairing (s : State) : standing (endPairing false s) = standing s :=
  (standing_endJoint _).trans (standing_foldl (fun s c => settleJoint false c s) s.pair.joint
    { s with pair := { s.pair with joint := [], staged := [], unacked := [] } } fun _ _ => standing_settleJoint ..)

theorem standing_refuseForwarded (p : Nat) (s : State) : standing (refuseForwarded p s) = standing s :=
  standing_foldl _ _ _ fun _ _ => standing_finishCmd ..

theorem standing_partition (s : State) :
    standing (partition s) = { standing s with st := 6, deciding := false, undecided := [] } := by
  unfold partition
  dsimp only
  rw [standing_foldl _ _ _ fun _ _ => standing_refuseForwarded .., standing_foldl _ _ _ fun _ _ => standing_finishCmd ..,
    standing_endPairing, standing, setPairSt_pair]
  rfl

/-- Undecided pools by what the reads of their arbiters say. -/
def undecidedBy (v : Option Bool) (s : State) : List Nat := s.pair.undecided.filter (fun p => peerAlive p s == v)

/-- The state behind a loss decision, before the loss is confirmed or the pair partitioned. -/
def lossTaken (s : State) : State :=
  let s1 := (undecidedBy (some true) s).foldl (fun s p => refuseForwarded p (detach p s))
    { s with now := max s.now (s.pair.windowAt + 20000) }
  { s1 with
    pair.undecided := undecidedBy none s, pair.windowAt := s1.now, pair.deciding := !(undecidedBy none s).isEmpty,
    pair.peerKeys := s1.pair.peerKeys.filter (fun e => !(undecidedBy none s).contains (e.1 / 4)) }

theorem lossDecide_idle {s : State} (decided : s.pair.deciding = false) : lossDecide s = s := if_pos (by simp [decided])

theorem lossDecide_eq {s : State} (deciding : s.pair.deciding = true) : lossDecide s =
    if undecidedBy (some false) s ≠ [] then confirmLoss (undecidedBy (some false) s) (lossTaken s)
    else if undecidedBy none s = [] ∧ (lossTaken s).pair.st ≠ 7 then partition (lossTaken s) else lossTaken s := by
  have shape (a b : Bool) (u v w : State) : (if !a then u else if b then v else w) = if ¬ a = true then u else if b = true then v else w := by
    cases a <;> rfl
  refine (if_neg (by simp [deciding])).trans ?_
  refine (shape (undecidedBy (some false) s).isEmpty ((undecidedBy none s).isEmpty && (lossTaken s).pair.st != 7)
    (confirmLoss (undecidedBy (some false) s) (lossTaken s)) (partition (lossTaken s)) (lossTaken s)).trans ?_
  simp only [List.isEmpty_iff, Bool.and_eq_true, bne_iff_ne]

theorem lossDecision_row (s : State) : (s.pair.deciding = false → exec .lossDecision s = .next (settle s)) ∧
    (s.pair.deciding = true →
      (undecidedBy (some false) s ≠ [] → exec .lossDecision s =
        .next (settle (confirmLoss (undecidedBy (some false) s) (lossTaken s)))) ∧
      (undecidedBy (some false) s = [] → undecidedBy none s = [] → (lossTaken s).pair.st ≠ 7 →
        exec .lossDecision s = .next (settle (partition (lossTaken s)))) ∧
      (undecidedBy (some false) s = [] → undecidedBy none s ≠ [] ∨ (lossTaken s).pair.st = 7 →
        exec .lossDecision s = .next (settle (lossTaken s)))) := by
  refine ⟨fun decided => congrArg go (lossDecide_idle decided), fun deciding => ⟨fun lost => ?_, fun none left st => ?_, fun none no => ?_⟩⟩
  · exact congrArg go ((lossDecide_eq deciding).trans (if_pos lost))
  · exact congrArg go ((lossDecide_eq deciding).trans ((if_neg (not_not_intro none)).trans (if_pos ⟨left, st⟩)))
  · exact congrArg go ((lossDecide_eq deciding).trans ((if_neg (not_not_intro none)).trans (if_neg (by tauto))))

theorem st_of_standing {t : State} {p : PairSt} (h : standing t = p) : t.pair.st = p.st := by
  subst h
  rfl

theorem deciding_of_standing {t : State} {p : PairSt} (h : standing t = p) : t.pair.deciding = p.deciding := by
  subst h
  rfl

/-- With no pool undecided, the decision partitions the pair. -/
theorem lossDecision_partitions {s : State} (deciding : s.pair.deciding = true) (none : s.pair.undecided = []) (suspect : s.pair.st = 5) :
    Settles .lossDecision s (fun u => u.pair.st = 6 ∧ u.pair.deciding = false) := by
  have empty (v : Option Bool) : undecidedBy v s = [] := by rw [undecidedBy, none, List.filter_nil]
  have st : (lossTaken s).pair.st = 5 := by
    unfold lossTaken
    rw [empty (some true)]
    exact suspect
  obtain ⟨-, parts, -⟩ := (lossDecision_row s).2 deciding
  have row := parts (empty _) (empty _) (by rw [st]; decide)
  exact ⟨_, row, st_of_standing (standing_partition _), deciding_of_standing (standing_partition _)⟩

/-- While no arbiter says anything of any pool, the window begins anew. -/
theorem lossDecision_waits {s : State} (deciding : s.pair.deciding = true) (some : s.pair.undecided ≠ [])
    (unread : ∀ p ∈ s.pair.undecided, peerAlive p s = none) :
    Settles .lossDecision s (fun u => u.pair.deciding = true ∧ u.pair.undecided = s.pair.undecided ∧ u.pair.st = s.pair.st ∧
      u.pair.windowAt = max s.now (s.pair.windowAt + 20000)) := by
  have empty (b : Bool) : undecidedBy (.some b) s = [] :=
    List.filter_eq_nil_iff.mpr fun p hp => by rw [unread p hp]; exact Bool.false_ne_true
  have all : undecidedBy none s = s.pair.undecided :=
    List.filter_eq_self.mpr fun p hp => by rw [unread p hp]; rfl
  have taken : lossTaken s = { s with
      now := max s.now (s.pair.windowAt + 20000), pair.undecided := s.pair.undecided,
      pair.windowAt := max s.now (s.pair.windowAt + 20000), pair.deciding := !s.pair.undecided.isEmpty,
      pair.peerKeys := s.pair.peerKeys.filter (fun e => !s.pair.undecided.contains (e.1 / 4)) } := by
    unfold lossTaken
    rw [empty true, all]
    rfl
  refine ⟨_, ((lossDecision_row s).2 deciding).2.2 (empty _) (.inl (by rwa [all])), ?_⟩
  rw [taken]
  exact ⟨by simpa using some, rfl, rfl, rfl⟩

/-! ## Beats (10 R377, R384) -/

/-- A command to every arbiter of pools. -/
def arbiterSends (req : State → MReq) (pools : List Nat) (s : State) : State :=
  pools.foldl (fun s p => (poolRec p s).arbs.foldl (fun s n => match (slotRec p n s).port with
    | some q => emitMember q s.mem.nextTag (req s) { s with mem.nextTag := s.mem.nextTag + 1 }
    | none => s) s) s

theorem arbiterSends_pair (req : State → MReq) (pools : List Nat) (s : State) : (arbiterSends req pools s).pair = s.pair := by
  refine List.foldlRecOn pools _ (motive := fun t : State => t.pair = s.pair) rfl fun t h p _ => ?_
  refine List.foldlRecOn _ _ (motive := fun t : State => t.pair = s.pair) h fun u h n _ => ?_
  dsimp only
  split
  · exact (standing_emitMember ..).trans h
  · exact h

/-- A beat is counted and stamped. -/
def beatCounted (s : State) : State :=
  { s with pair.lastBeat := s.now, pair.beat := if s.pair.beat = 0xFFFFFFFF then 1 else s.pair.beat + 1 }

/-- A beat without a read of an arbiter: it counts, and sends. -/
theorem beat_nil (s : State) : beat [] s = if s.pair.farewell then beatCounted s else
    let mine := if s.pair.deciding then poolsOf s.led.cohort (beatCounted s) ++ poolsOf s.led.peer (beatCounted s)
      else poolsOf s.led.cohort (beatCounted s)
    let t := arbiterSends (fun s => .register (ownKey s)) mine (beatCounted s)
    arbiterSends (fun _ => .report) (if t.pair.deciding then poolsOf t.led.peer t ++ t.pair.ownCheck else t.pair.ownCheck) t := by
  unfold beat
  dsimp only
  split
  · rfl
  · exact List.foldl_fixed _

theorem beat_nil_pair (s : State) : (beat [] s).pair = (beatCounted s).pair := by
  rw [beat_nil]
  split
  · rfl
  · exact (arbiterSends_pair ..).trans (arbiterSends_pair ..)

theorem reservationBeat_row (reads : List ArbiterRead) (s : State) :
    (s.led.paired = false ∨ mirroring s = true ∨ s.pair.st = 0 → exec (.reservationBeat reads) s = .next (settle s)) ∧
    (s.led.paired = true → mirroring s = false → s.pair.st ≠ 0 →
      exec (.reservationBeat reads) s = .next (settle (beat reads { s with now := max s.now (s.pair.lastBeat + 5000) }))) := by
  refine ⟨fun no => congrArg go (if_pos ?_), fun paired rests known => congrArg go (if_neg ?_)⟩
  · simpa [or_assoc] using no
  · simp [paired, rests, known]

theorem helloTimeout_row (reads : List ArbiterRead) (s : State) :
    (s.pair.st ≠ 1 ∨ s.pair.deciding = true ∨ s.dev.ready = false → exec (.helloTimeout reads) s = .next (settle s)) ∧
    (s.pair.st = 1 → s.pair.deciding = false → s.dev.ready = true →
      let t := max s.now (s.pair.suspectAt + 5000000)
      exec (.helloTimeout reads) s = .next (settle (beat reads { s with
        now := t, pair.deciding := true, pair.windowAt := t, pair.undecided := poolsOf s.led.peer s, pair.peerKeys := [],
        pair.taken := [] })) ∧
      Settles (.helloTimeout []) s (fun u => u.pair.deciding = true ∧ u.pair.undecided = poolsOf s.led.peer s ∧
        u.pair.windowAt = t ∧ u.pair.st = 1)) := by
  refine ⟨fun no => congrArg go (if_pos ?_), ?_⟩
  · simpa [or_assoc] using no
  · intro down decided ready t
    have row (l : List ArbiterRead) : exec (.helloTimeout l) s = .next (settle (beat l { s with
        now := t, pair.deciding := true, pair.windowAt := t, pair.undecided := poolsOf s.led.peer s, pair.peerKeys := [],
        pair.taken := [] })) := congrArg go (if_neg (by simp [down, decided, ready]))
    refine ⟨row reads, _, row [], ?_⟩
    dsimp only
    rw [beat_nil_pair]
    exact ⟨rfl, rfl, rfl, down⟩

/-! ## Forced takeover and transfer (10 R382, R383, R387) -/

theorem force_row (v : Word) (s : State) (up : barUp 0 s = true) (ready : s.dev.ready = true) :
    (v.getLsbD 0 = false → exec (.force v) s = .next (settle { s with pair.ctlPools := v.extractLsb' 8 8 })) ∧
    (v.getLsbD 0 = true → s.led.locked = true ∨ s.pair.st ≠ 6 → exec (.force v) s = .next (settle s)) ∧
    (v.getLsbD 0 = true → s.led.locked = false → s.pair.st = 6 →
      let s1 : State := { s with
        pair.ctlPools := v.extractLsb' 8 8, pair.takePools := 0, pair.taken := [],
        pair.takeConfirm := min 65535 ((s.now - s.pair.hbRxAt) / 1000) }
      exec (.force v) s = .next (settle ((s.pair.detached.filter (fun p =>
        pairPool p s1 && (v.extractLsb' 8 8 : BitVec 8).getLsbD p)).foldl (fun s p => startTake p true s) s1))) := by
  have row : exec (.force v) s = .next (settle (pairCtl v s)) := congrArg go (barWrite_of_ready _ up ready)
  rw [row]
  refine ⟨fun names => congrArg go (if_pos ?_), fun forces no => congrArg go ((if_neg ?_).trans (if_pos ?_)),
    fun forces open_ parted => congrArg go ((if_neg ?_).trans (if_neg ?_))⟩
  · rw [names]; rfl
  · rw [forces]; exact Bool.false_ne_true
  · simpa using no
  · rw [forces]; exact Bool.false_ne_true
  · simp [open_, parted]

theorem pairXfer_row (v : Word) (s : State) (up : barUp 0 s = true) (ready : s.dev.ready = true) :
    let p := (v.extractLsb' 0 3 : BitVec 3).toNat
    let s1 : State := { s with
      pair.xferPool := v.extractLsb' 0 3, pair.xferDone := s.pair.xferDone && !v.getLsbD 5,
      pair.xferErr := s.pair.xferErr && !v.getLsbD 6 }
    let refused (r : BitVec 16) : State := { s1 with pair.xferErr := true, pair.xferReason := r }
    (v.getLsbD 3 = false ∨ s.pair.xfer ≠ .none → exec (.pairXferGo v) s = .next (settle s1)) ∧
    (v.getLsbD 3 = true → s.pair.xfer = .none →
      (pairUp s = false → exec (.pairXferGo v) s = .next (settle (refused 0x0A01))) ∧
      (pairUp s = true → (pairPool p s && owns p s) = false → exec (.pairXferGo v) s = .next (settle (refused 0x0A02))) ∧
      (pairUp s = true → pairPool p s = true → owns p s = true → (poolRec p s).reshape.st = 2 →
        exec (.pairXferGo v) s = .next (settle (refused 0x0A03))) ∧
      (pairUp s = true → pairPool p s = true → owns p s = true → (poolRec p s).reshape.st ≠ 2 →
        exec (.pairXferGo v) s = .next (settle (updPool p (fun r => { r with
          relocs := r.relocs.map (fun (k, m) => (k, if m.settled then m else toBoundary m)),
          walks := r.walks.map (fun (n, w) => (n, { w with next := (slotRec p n s).restore, window := [], remark := [] })) })
          { s1 with pair.xfer := .drain, pair.xferCur := p })))) := by
  intro p s1 refused
  have row : exec (.pairXferGo v) s = .next (settle (pairXfer v s)) := congrArg go (barWrite_of_ready _ up ready)
  rw [row]
  refine ⟨fun no => congrArg go (if_pos ?_), fun starts rests => ?_⟩
  · obtain no | no := no
    · exact Bool.or_eq_true_iff.mpr (.inl (by rw [no]; rfl))
    · exact Bool.or_eq_true_iff.mpr (.inr (bne_iff_ne.mpr no))
  · have free : ¬ (!v.getLsbD 3 || s.pair.xfer != .none) = true := by simp [starts, rests]
    refine ⟨fun no => congrArg go ((if_neg free).trans (if_pos ?_)),
      fun yes no => congrArg go ((if_neg free).trans ((if_neg ?_).trans (if_pos ?_))),
      fun yes pair own walks => congrArg go ((if_neg free).trans ((if_neg ?_).trans ((if_neg ?_).trans (if_pos walks)))),
      fun yes pair own rests => congrArg go ((if_neg free).trans ((if_neg ?_).trans ((if_neg ?_).trans (if_neg rests))))⟩
    · exact congrArg not no
    · exact ne_true_of_eq_false (congrArg not yes)
    · exact congrArg not no
    · exact ne_true_of_eq_false (congrArg not yes)
    · exact ne_true_of_eq_false (congrArg not (Bool.and_eq_true_iff.mpr ⟨pair, own⟩))
    · exact ne_true_of_eq_false (congrArg not yes)
    · exact ne_true_of_eq_false (congrArg not (Bool.and_eq_true_iff.mpr ⟨pair, own⟩))

/-- Settles O41. -/
theorem peerLossDecided : Obligations.PeerLossDecided := by
  refine ⟨fun s deciding none suspect _ _ _ _ => lossDecision_partitions deciding none suspect,
    fun s deciding some unread => lossDecision_waits deciding some unread, lossDecision_row, reservationBeat_row,
    fun s paired known rests last => ?_, helloTimeout_row, force_row, pairXfer_row, fun v s no => ?_⟩
  · refine ⟨_, (reservationBeat_row [] s).2 paired rests known, ?_⟩
    dsimp only
    rw [beat_nil_pair]
    exact ⟨if_neg last, rfl, rfl⟩
  · have dead (off : Nat) (far : 0x50000 ≤ off ∧ off < 0x60000) (f : State → State) : barWrite 0 off f s = s := by
      refine barWrite_unanswered f (no.imp id fun early => ?_)
      have blocks : ¬ off / 0x10000 = 0 ∧ ¬ off ≤ 0x10020 ∧ ¬ off / 0x10000 = 0xB ∧ ¬ off / 0x10000 = 0xC := by omega
      obtain ⟨b0, b1, b2, b3⟩ := blocks
      simp [answers, early, b0, b1, b2, b3]
    exact ⟨congrArg go (dead 0x50020 (by decide) _), congrArg go (dead 0x50028 (by decide) _)⟩

end Sys2Proof.Machine
end

