-- ==== Sys2Proof/Proofs/PowerLoss.lean ====
section
/-! SUPPORT. Sys2Proof/Proofs/PowerLoss.lean: the loss of power, the flush and its ends, the vault's halves (11 R391 to R406, R410; 13
R464; 16 R533). -/

namespace Sys2Proof.Machine

/-! ## Balls and records -/

theorem setHold_eq (b : Bool) (s : State) : ∃ o, setHold b s = { s with out := o, pow.hold := b } := by
  unfold setHold
  split
  next h => subst h; exact ⟨_, rfl⟩
  next => exact ⟨_, rfl⟩

theorem setHold_pow (b : Bool) (s : State) : (setHold b s).pow = { s.pow with hold := b } := by
  obtain ⟨o, h⟩ := setHold_eq b s
  rw [h]

theorem setHold_dev (b : Bool) (s : State) : (setHold b s).dev = s.dev := by
  obtain ⟨o, h⟩ := setHold_eq b s
  rw [h]

theorem setHold_led (b : Bool) (s : State) : (setHold b s).led = s.led := by
  obtain ⟨o, h⟩ := setHold_eq b s
  rw [h]

/-- The state but for the pack and what goes out. -/
def SameButPack (s t : State) : Prop := t = { s with out := t.out, pack := t.pack }

theorem sameButPack_setDraw (b : Bool) (s : State) : SameButPack s (setDraw b s) := by
  unfold setDraw
  split <;> rfl

theorem sameButPack_setInh (s : State) : SameButPack s (setInh s) := by
  unfold setInh
  dsimp only
  split <;> rfl

theorem SameButPack.trans {s t u : State} (hst : SameButPack s t) (htu : SameButPack t u) : SameButPack s u := by
  unfold SameButPack at hst htu ⊢
  rw [htu, hst]

theorem sameButPack_abandonLearn (code : Nat) (s : State) : SameButPack s (abandonLearn code s) := by
  have drives (t : State) (h : SameButPack s t) : SameButPack s (setInh (setDraw false t)) :=
    (h.trans (sameButPack_setDraw ..)).trans (sameButPack_setInh ..)
  unfold abandonLearn
  split
  · rfl
  · exact drives _ rfl

/-! ## A flush starts (11 R391, R395) -/

/-- What a flush ends before it freezes the shadow: a learn cycle and the pair. -/
def flushQuit (s : State) : State :=
  let t := abandonLearn 1 s
  if 3 ≤ t.pair.st ∧ t.pair.st ≤ 5 then { sendPair .farewell t with pair.farewell := true } else t

theorem flushQuit_keeps (s : State) :
    (flushQuit s).pow = s.pow ∧ (flushQuit s).cache = s.cache ∧ (flushQuit s).dev = s.dev ∧ (flushQuit s).now = s.now := by
  have learn : SameButPack s (abandonLearn 1 s) := sameButPack_abandonLearn ..
  have sent : SameButReports (abandonLearn 1 s) (sendPair .farewell (abandonLearn 1 s)) := sameButReports_sendPair ..
  have pow : (abandonLearn 1 s).pow = s.pow := (congrArg State.pow learn).trans rfl
  have cache : (abandonLearn 1 s).cache = s.cache := (congrArg State.cache learn).trans rfl
  have dev : (abandonLearn 1 s).dev = s.dev := (congrArg State.dev learn).trans rfl
  have now : (abandonLearn 1 s).now = s.now := (congrArg State.now learn).trans rfl
  unfold flushQuit
  dsimp only
  split
  · exact ⟨sent.pow.trans pow, sent.cache.trans cache, sent.dev.trans dev, sent.now.trans now⟩
  · exact ⟨pow, cache, dev, now⟩

/-- The power fields of a flush that starts. -/
def flushPow (floor : Bool) (now cause : Nat) (p : PowSt) : PowSt :=
  let w := if floor then p else saveHdr { p with hdrCur := 1 - p.hdrCur, header := 0, flushSeq := p.flushSeq + 1,
                                                 logFirst := p.index.length }
  { w with
    ph := .flush, flushing := true, coldStop := false, flushAt := now, flushCause := cause, hotWait := false,
    step6 := false, lastSectors := 0, lastClean := 0 }

theorem startFlush_run {s : State} (cause : Nat) (run : s.pow.ph = .run) : startFlush cause false s =
    dropWork { flushQuit s with cache.frozen := true,
                                pow := flushPow (atFloor (flushQuit s)) (flushQuit s).now cause (flushQuit s).pow } := by
  unfold startFlush
  rw [run]
  rfl

theorem startFlush_boot {s : State} (cause : Nat) (boot : s.pow.ph = .boot) : startFlush cause false s =
    { setHold false (commitCounters s) with pow := { (setHold false (commitCounters s)).pow with ph := .off, aon := false } } := by
  unfold startFlush
  rw [boot]
  rfl

theorem startFlush_rest {s : State} (cause : Nat) (run : s.pow.ph ≠ .run) (boot : s.pow.ph ≠ .boot) : startFlush cause false s = s := by
  unfold startFlush
  split <;> first | contradiction | rfl

/-- What a flush leaves of the state in which it starts. -/
def FlushStarts (s t : State) : Prop :=
  t.pow.ph = .flush ∧ t.pow.flushing = true ∧ t.cache.frozen = true ∧
  t.cache.shadow = s.cache.shadow ∧ t.pow.flushAt = s.now ∧
  (atFloor s = false → t.pow.flushSeq = s.pow.flushSeq + 1 ∧ t.pow.header = 0 ∧ t.pow.hdrCur = 1 - s.pow.hdrCur ∧
    tget t.pow.hdrs t.pow.hdrCur = some {
      seq := s.pow.flushSeq + 1, st := 0, first := s.pow.index.length, cur := s.pow.cur, free0 := s.pow.free0, free1 := s.pow.free1,
      erased0 := s.pow.erased0, erased1 := s.pow.erased1 }) ∧
  (atFloor s = true → t.pow.flushSeq = s.pow.flushSeq ∧ t.pow.header = s.pow.header ∧ t.pow.hdrs = s.pow.hdrs) ∧
  t.pow.step6 = false ∧ t.pow.nand = s.pow.nand ∧ t.pow.index = s.pow.index ∧ t.pipe.ops = [] ∧ t.pipe.cmds = [] ∧
  t.mem.cmds = []

theorem flushStarts {s : State} (cause : Nat) (run : s.pow.ph = .run) :
    FlushStarts s (startFlush cause false s) ∧ (startFlush cause false s).pow.pfail = s.pow.pfail := by
  obtain ⟨pow, cache, dev, now⟩ := flushQuit_keeps s
  have floor : atFloor (flushQuit s) = atFloor s := by rw [atFloor, atFloor, dev]
  rw [startFlush_run cause run, pow, now, floor]
  cases at_ : atFloor s
  · refine ⟨⟨rfl, rfl, rfl, (congrArg CacheSt.shadow cache :), rfl, fun _ => ⟨rfl, rfl, rfl, ?_⟩, fun h => ?_,
      rfl, rfl, rfl, rfl, rfl, rfl⟩, rfl⟩
    · exact (tget_tset ..).trans (if_pos rfl)
    · exact absurd (at_.symm.trans h) Bool.false_ne_true
  · refine ⟨⟨rfl, rfl, rfl, (congrArg CacheSt.shadow cache :), rfl, fun h => ?_, fun _ => ⟨rfl, rfl, rfl⟩,
      rfl, rfl, rfl, rfl, rfl, rfl⟩, rfl⟩
    exact absurd (h.symm.trans at_) Bool.false_ne_true

/-- What ends with a boot that loses its power. -/
theorem bootEnds {s : State} (cause : Nat) (boot : s.pow.ph = .boot) :
    let t := startFlush cause false s
    t.pow.ph = .off ∧ t.pow.hold = false ∧ t.led.seq = s.led.seq + 1 ∧ t.led.opSeconds = opSeconds s ∧
      t.led.powerCycles = s.evr.powerCycles := by
  intro t
  have eq : t = _ := startFlush_boot cause boot
  rw [eq, setHold_pow]
  dsimp only
  rw [setHold_led]
  exact ⟨rfl, rfl, rfl, rfl, rfl⟩

/-- Settles O42. -/
theorem powerLossStartsTheFlush : Obligations.PowerLossStartsTheFlush := by
  refine ⟨fun s run => ?_, fun s boot => ?_, fun s run boot => ⟨?_, fun r => congrArg ok (startFlush_rest 0 run boot)⟩, fun s => rfl⟩
  · intro starts
    obtain ⟨low, pfail⟩ := flushStarts (s := { s with pow.pfail := true, pow.pfailAt := s.now }) 0 run
    exact ⟨⟨_, rfl, low, pfail⟩, fun r => ⟨_, rfl, (flushStarts 0 run).1⟩⟩
  · intro ends
    exact ⟨⟨_, rfl, bootEnds (s := { s with pow.pfail := true, pow.pfailAt := s.now }) 0 boot⟩, fun r => ⟨_, rfl, bootEnds 0 boot⟩⟩
  · exact congrArg ok (startFlush_rest (s := { s with pow.pfail := true, pow.pfailAt := s.now }) 0 run boot)

/-! ## A flush ends (11 R393, R395, R406) -/

/-- The last step of a flush, before HOLD_EN falls. -/
def flushClosed (n : Nat) (s : State) : State :=
  { s with pow := { s.pow with
    lastResult := if n = 1 then 0 else 2, lastMs := min ((s.now - s.pow.flushAt) / 1000) 0xFFFF, hotWait := false, flushing := false,
    endedDone := s.pow.endedDone || n == 1, endedBad := s.pow.endedBad || n != 1 } }

/-- The header in its last state, the counters and the event staging. -/
def flushSaved (n : Nat) (s : State) : State :=
  flushRecs (commitCounters { s with pow := if atFloor s then s.pow else saveHdr { s.pow with header := n }, dev.ready := false })

theorem closeFlush_eq (n : Nat) (s : State) :
    closeFlush n s = setHold false (flushClosed n (timeTo ((flushSaved n s).pow.flushAt + 10000) (flushSaved n s))) := rfl

theorem flushSaved_pow (n : Nat) (s : State) :
    (flushSaved n s).pow = if atFloor s then s.pow else saveHdr { s.pow with header := n } := (sameButEvents_flushRecs _).pow

/-- The power fields of a flush that closes. -/
theorem closeFlush_pow (n : Nat) (s : State) : ∃ ms, (closeFlush n s).pow =
    { (if atFloor s then s.pow else saveHdr { s.pow with header := n }) with
      lastResult := if n = 1 then 0 else 2, lastMs := ms, hotWait := false, flushing := false,
      endedDone := (if atFloor s then s.pow else saveHdr { s.pow with header := n }).endedDone || n == 1,
      endedBad := (if atFloor s then s.pow else saveHdr { s.pow with header := n }).endedBad || n != 1, hold := false } := by
  refine ⟨(flushClosed n (timeTo ((flushSaved n s).pow.flushAt + 10000) (flushSaved n s))).pow.lastMs, ?_⟩
  rw [closeFlush_eq, setHold_pow, ← flushSaved_pow n s]
  rfl

theorem afterFlush_pow (main : Bool) (s : State) : ∃ ph aon, (afterFlush main s).pow = { s.pow with ph := ph, aon := aon } ∧
    ph = if s.pow.coldStop then .coldStopped else if main then .flushed else .off := by
  unfold afterFlush
  cases cold : s.pow.coldStop
  · cases main
    · exact ⟨_, _, rfl, rfl⟩
    · exact ⟨_, _, rfl, rfl⟩
  · exact ⟨_, _, rfl, rfl⟩

/-- What the end of a flush leaves: the header in its last state, the result, HOLD_EN low, the vault. -/
theorem flushCloses (main : Bool) (n : Nat) (s : State) :
    let t := afterFlush main (closeFlush n s)
    (atFloor s = false → t.pow.header = n) ∧ t.pow.lastResult = (if n = 1 then 0 else 2) ∧ t.pow.hold = false ∧
      t.pow.nand = s.pow.nand ∧ t.pow.index = s.pow.index ∧
      t.pow.ph = (if s.pow.coldStop then .coldStopped else if main then .flushed else .off) := by
  intro t
  obtain ⟨ms, closed⟩ := closeFlush_pow n s
  obtain ⟨ph, aon, after, stands⟩ := afterFlush_pow main (closeFlush n s)
  have eq : t.pow = _ := after
  rw [eq, stands, closed]
  cases at_ : atFloor s
  · exact ⟨fun _ => rfl, rfl, rfl, rfl, rfl, rfl⟩
  · exact ⟨(nomatch ·), rfl, rfl, rfl, rfl, rfl⟩

/-- The state but for what step 6 writes: the vault, its index and its counts. -/
def SameButVault (s t : State) : Prop :=
  t = { s with pow := { s.pow with
    nand := t.pow.nand, index := t.pow.index, free0 := t.pow.free0, free1 := t.pow.free1, erased0 := t.pow.erased0,
    erased1 := t.pow.erased1, lastSectors := t.pow.lastSectors, lastClean := t.pow.lastClean } }

theorem SameButVault.trans {s t u : State} (hst : SameButVault s t) (htu : SameButVault t u) : SameButVault s u := by
  unfold SameButVault at hst htu ⊢
  rw [htu, hst]

theorem sameButVault_programLine (x : Nat) (h : Shadow) (s : State) : SameButVault s (programLine x h s) := by
  unfold programLine
  dsimp only
  split <;> rfl

theorem sameButVault_programLines (l : Tbl Shadow) (s : State) : SameButVault s (programLines l s) := by
  unfold programLines
  dsimp only
  split
  · exact List.foldlRecOn l _ (motive := fun t => SameButVault s t) rfl fun t h e _ => h.trans (sameButVault_programLine ..)
  · rfl

/-- Step 6 without an error of the DRAM. -/
theorem sameButVault_programVault (s : State) : SameButVault s (programVault [] s) := by
  unfold programVault
  dsimp only
  rw [show flushErrors [] s = s from rfl, ite_self]
  exact sameButVault_programLines ..

section
variable {main : Bool} {errs : List DramErr} {s : State}

theorem flushEnds_idle (h : s.pow.ph ≠ .flush ∨ vaultResetting s = true) : flushEnds main errs s = s :=
  if_pos (by simpa using h)

variable (flush : s.pow.ph = .flush) (free : vaultResetting s = false)
include flush free

theorem flushEnds_step6 (step6 : s.pow.step6 = true) :
    flushEnds main errs s = afterFlush main (closeFlush 1 (programVault errs s)) :=
  (if_neg (by simp [flush, free])).trans (if_pos step6)

variable (waits : s.pow.step6 = false)
include waits

theorem flushEnds_hot (hot : s.pow.hotWait = true ∨ vaultHot s = true) : flushEnds main errs s =
    if main then { s with pow.hotWait := true } else afterFlush main (closeFlush 2 s) :=
  (if_neg (by simp [flush, free])).trans ((if_neg (by simp [waits])).trans (if_pos (by simpa using hot)))

theorem flushEnds_cool (runs : s.pow.hotWait = false) (cool : vaultHot s = false) :
    flushEnds main errs s = afterFlush main (closeFlush 1 (programVault errs s)) :=
  (if_neg (by simp [flush, free])).trans ((if_neg (by simp [waits])).trans (if_neg (by simp [runs, cool])))

end

/-! ## A flush that is torn (11 R409; 16 R533) -/

theorem tornFlush_cases (s : State) : (∃ t, (t = s ∨ ∃ n, t = nextFree (programLines (s.cache.shadow.take n) s)) ∧
    tornFlush s = { t with pow.lastResult := 1, pow.endedBad := true }) := by
  unfold tornFlush
  dsimp only
  split
  · exact ⟨s, .inl rfl, rfl⟩
  · exact ⟨_, .inr ⟨_, rfl⟩, rfl⟩

/-- The module off after PWROK has fallen. -/
def powerGone (s : State) : State :=
  dropWork { s with pow.ph := .off, pow.aon := false, pow.flushing := false, dev.powerGood := false, dev.ready := false, dev.level := 0 }

theorem pwrokFall_row (s : State) : (s.pow.ph = .off → exec .pwrokFall s = .next s) ∧
    (s.pow.ph = .tripped → exec .pwrokFall s = .next
      { (if s.therm.tripped = true then emit (.pin "THERMTRIP_N" true) s else s) with
        pow.aon := false, therm.tripped := false, dev.powerGood := false }) ∧
    (s.pow.ph ≠ .off → s.pow.ph ≠ .tripped → exec .pwrokFall s =
      .next (powerGone (if s.pow.ph = .flush then tornFlush s else s))) := by
  refine ⟨fun off => if_pos off, fun tripped => (if_neg ?_).trans (if_pos tripped), fun off tripped => (if_neg off).trans (if_neg tripped)⟩
  rw [tripped]
  decide

theorem pwrokFall_tears {s : State} (off : s.pow.ph ≠ .off) (tripped : s.pow.ph ≠ .tripped) :
    Completes .pwrokFall s (fun t => t.pow.ph = .off ∧ t.pow.aon = false ∧ t.dev.ready = false ∧ t.dev.powerGood = false ∧
      t.cache.shadow = s.cache.shadow ∧ t.led = s.led ∧
      ((t.pow.nand = s.pow.nand ∧ t.pow.index = s.pow.index) ∨ (s.pow.ph = .flush ∧ ∃ n : Nat,
        t.pow.nand = (programLines (s.cache.shadow.take n) s).pow.nand ∧
        t.pow.index = (programLines (s.cache.shadow.take n) s).pow.index)) ∧
      (s.pow.ph = .flush → t.pow.lastResult = 1)) := by
  refine ⟨_, (pwrokFall_row s).2.2 off tripped, ?_⟩
  by_cases flush : s.pow.ph = .flush
  · rw [if_pos flush]
    obtain ⟨t, vault, torn⟩ := tornFlush_cases s
    rw [torn]
    have same : t.cache = s.cache ∧ t.led = s.led := by
      obtain rfl | ⟨n, rfl⟩ := vault
      · exact ⟨rfl, rfl⟩
      · have lines := sameButVault_programLines (s.cache.shadow.take n) s
        exact ⟨(congrArg State.cache lines).trans rfl, (congrArg State.led lines).trans rfl⟩
    refine ⟨rfl, rfl, rfl, rfl, (congrArg CacheSt.shadow same.1 :), (same.2 :), ?_, fun _ => rfl⟩
    obtain rfl | ⟨n, rfl⟩ := vault
    · exact .inl ⟨rfl, rfl⟩
    · exact .inr ⟨flush, n, rfl, rfl⟩
  · rw [if_neg flush]
    exact ⟨rfl, rfl, rfl, rfl, rfl, rfl, .inl ⟨rfl, rfl⟩, fun h => absurd h flush⟩

/-! ## Vault halves (11 R401, R402) -/

theorem eraseHalf_eq (h : Fin 2) (s : State) : eraseHalf h.val s =
    if h.val ≠ s.pow.cur ∧ halfErased h.val s = false ∧ ∀ e ∈ s.pow.index, e.half = h.val → liveEntry e s = false then
      let w : PowSt :=
        if h.val = 0 then { s.pow with nand := s.pow.nand.filter (fun e => e.1 / 2 ^ 24 != h.val), free0 := 0, erased0 := true,
                                       erases0 := s.pow.erases0 + 1 }
        else { s.pow with nand := s.pow.nand.filter (fun e => e.1 / 2 ^ 24 != h.val), free1 := 0, erased1 := true,
                          erases1 := s.pow.erases1 + 1 }
      setCap { s with pow := saveHdr (bootHalf w) }
    else s := by
  have stays : (decide (h.val = s.pow.cur) || halfErased h.val s || s.pow.index.any (fun e => e.half == h.val && liveEntry e s)) = true ↔
      ¬ (h.val ≠ s.pow.cur ∧ halfErased h.val s = false ∧ ∀ e ∈ s.pow.index, e.half = h.val → liveEntry e s = false) := by
    simp only [Bool.or_eq_true, decide_eq_true_eq, List.any_eq_true, Bool.and_eq_true, beq_iff_eq]
    constructor
    · rintro ((cur | erased) | ⟨e, there, half, live⟩) ⟨notCur, notErased, dead⟩
      · exact notCur cur
      · exact Bool.false_ne_true (notErased.symm.trans erased)
      · exact Bool.false_ne_true ((dead e there half).symm.trans live)
    · intro no
      by_contra none
      obtain ⟨⟨notCur, notErased⟩, noLive⟩ := (not_or.trans (and_congr_left' not_or)).mp none
      exact no ⟨notCur, Bool.eq_false_iff.mpr notErased, fun e there half => Bool.eq_false_iff.mpr fun live => noLive ⟨e, there, half, live⟩⟩
  unfold eraseHalf
  dsimp only
  by_cases free : h.val ≠ s.pow.cur ∧ halfErased h.val s = false ∧ ∀ e ∈ s.pow.index, e.half = h.val → liveEntry e s = false
  · rw [if_pos free]
    exact if_neg fun h => stays.mp h free
  · rw [if_neg free]
    exact if_pos (stays.mpr free)

/-- Settles O43. -/
theorem flushEndsCompleteWaitOrTear : Obligations.FlushEnds := by
  refine ⟨fun main errs s => ⟨fun idle => congrArg ok (flushEnds_idle idle), fun flush free => ⟨fun step6 => ?_, fun waits hot => ⟨?_, ?_, ?_⟩,
    fun waits runs cool => ⟨congrArg ok (flushEnds_cool flush free waits runs cool), ?_⟩⟩⟩, fun s => ⟨fun ends => if_pos ends, fun no => if_neg no⟩,
    fun s => ⟨(pwrokFall_row s).1, (pwrokFall_row s).2.1, pwrokFall_tears⟩, fun h s => ⟨fun no => if_neg no, fun run stays => ?_, fun run free => ?_⟩⟩
  · exact congrArg ok (flushEnds_step6 flush free step6)
  · exact congrArg ok (flushEnds_hot flush free waits hot)
  · exact congrArg ok (flushEnds_hot flush free waits hot)
  · obtain ⟨header, result, hold, nand, index, -⟩ := flushCloses false 2 s
    exact ⟨_, congrArg ok (flushEnds_hot flush free waits hot), header, result, hold, nand, index⟩
  · have program := sameButVault_programVault s
    have floor : atFloor (programVault [] s) = atFloor s := by
      have dev : (programVault [] s).dev = s.dev := (congrArg State.dev program).trans rfl
      rw [atFloor, atFloor, dev]
    have cold : (programVault [] s).pow.coldStop = s.pow.coldStop := (congrArg (·.pow.coldStop) program).trans rfl
    obtain ⟨header, result, hold, nand, index, stands⟩ := flushCloses main 1 (programVault [] s)
    rw [cold] at stands
    rw [floor] at header
    exact ⟨_, congrArg ok (flushEnds_cool flush free waits runs cool), header, result, hold, nand, index, stands⟩
  · exact (if_pos run).trans (congrArg go ((eraseHalf_eq h s).trans (if_neg stays)))
  · exact (if_pos run).trans (congrArg go ((eraseHalf_eq h s).trans (if_pos free)))

end Sys2Proof.Machine
end

