-- ==== Sys2Proof/Proofs/Boots.lean ====
section
/-! SUPPORT. Sys2Proof/Proofs/Boots.lean: what a boot and READY come to, resets of the host links, deep standby (01 R23, R33; 05 R214;
11 R407 to R411). -/

namespace Sys2Proof.Machine

/-! ## What work of the boot leaves alone -/

/-- Where a module stands: the power state, its ball and cause, READY, service, the frozen shadow and the request to retrain. -/
structure BootView where
  ph : PwrPh
  hold : Bool
  bootCause : Nat
  readyAt : Nat
  ready : Bool
  noService : Nat
  frozen : Bool
  retrain : Bool

def bootView (s : State) : BootView :=
  ⟨s.pow.ph, s.pow.hold, s.pow.bootCause, s.pow.readyAt, s.dev.ready, s.dev.noService, s.cache.frozen, s.led.retrain⟩

/-- What makes a lane unusable: fences and block resets. -/
def laneView (s : State) : BitVec 8 × BitVec 32 × Tbl BlockRst := (s.dev.laneFence, s.dev.seqFence, s.fc.resets)

theorem laneUnusable_of_view {s t : State} (h : laneView t = laneView s) (j : Nat) : laneUnusable j t = laneUnusable j s := by
  obtain ⟨lane, seq, resets⟩ : t.dev.laneFence = s.dev.laneFence ∧ t.dev.seqFence = s.dev.seqFence ∧ t.fc.resets = s.fc.resets := by
    simpa [laneView] using h
  rw [laneUnusable, laneUnusable, lane, seq, resets]

section
variable {s t : State}

theorem bootView_of_reports (h : SameButReports s t) : bootView t = bootView s := by
  unfold SameButReports at h
  rw [h]
  rfl

theorem bootView_of_events (h : SameButEvents s t) : bootView t = bootView s := bootView_of_reports (.of_events h)

theorem bootView_of_members (h : SameButMembers s t) : bootView t = bootView s := by
  unfold SameButMembers at h
  rw [h]
  rfl

theorem bootView_of_ops (h : SameButOps s t) : bootView t = bootView s := by
  unfold SameButOps at h
  rw [h]
  rfl

theorem laneView_of_events (h : SameButEvents s t) : laneView t = laneView s := by
  unfold SameButEvents at h
  rw [h]
  rfl

end

theorem bootView_foldl {α : Type} (f : State → α → State) (l : List α) (s : State) (each : ∀ s a, bootView (f s a) = bootView s) :
    bootView (l.foldl f s) = bootView s :=
  List.foldlRecOn l f (motive := fun t => bootView t = bootView s) rfl fun t h a _ => (each t a).trans h

theorem laneView_foldl {α : Type} (f : State → α → State) (l : List α) (s : State) (each : ∀ s a, laneView (f s a) = laneView s) :
    laneView (l.foldl f s) = laneView s :=
  List.foldlRecOn l f (motive := fun t => laneView t = laneView s) rfl fun t h a _ => (each t a).trans h

theorem bootView_recEvent (src code obj : Nat) (detail : List Byte) (s : State) :
    bootView (recEvent src code obj detail s) = bootView s := bootView_of_reports (sameButReports_recEvent src code obj detail s)

theorem bootView_event (typ obj data : Nat) (s : State) : bootView (event typ obj data s) = bootView s :=
  bootView_of_reports (sameButReports_event typ obj data s)

/-! ## Firmware, the margin plan and the profile (11 R407; 15 R508) -/

theorem raise_views (src kind addr : Nat) (s : State) :
    bootView (raise src kind addr s) = bootView s ∧ laneView (raise src kind addr s) = laneView s := by
  unfold raise
  dsimp only
  split <;> exact ⟨rfl, rfl⟩

theorem raiseOpen_views (src : Nat) (s : State) : bootView (raiseOpen src s) = bootView s ∧ laneView (raiseOpen src s) = laneView s :=
  raise_views _ _ _ (nextFree s)

theorem verifyFirmware_views (s : State) :
    bootView (verifyFirmware s).2 = bootView s ∧ laneView (verifyFirmware s).2 = laneView s := by
  obtain ⟨boot, lane⟩ := raiseOpen_views 0x1E0 s
  have from_ (a : Nat) (r : Bool × State) (h : r = if slotVerifies a s then (true, runSlot a s)
      else if slotVerifies (1 - a) (raiseOpen 0x1E0 s) then (true, runSlot (1 - a) (raiseOpen 0x1E0 s))
      else (false, raiseOpen 0x1E0 (raiseOpen 0x1E0 s))) : bootView r.2 = bootView s ∧ laneView r.2 = laneView s := by
    subst h
    split
    · exact ⟨rfl, rfl⟩
    · split
      · exact ⟨boot, lane⟩
      · exact ⟨(raiseOpen_views ..).1.trans boot, (raiseOpen_views ..).2.trans lane⟩
  exact from_ _ _ rfl

theorem recEvent_views (src code obj : Nat) (detail : List Byte) (s : State) :
    bootView (recEvent src code obj detail s) = bootView s ∧ laneView (recEvent src code obj detail s) = laneView s :=
  ⟨bootView_recEvent .., laneView_of_events (sameButEvents_recEvent ..)⟩

theorem noteDamaged_views (r : Nat × Nat) (s : State) :
    bootView (noteDamaged r s) = bootView s ∧ laneView (noteDamaged r s) = laneView s :=
  recEvent_views _ _ _ _ { s with led.damaged := true }

theorem vidSteps_views (n a b : Nat) (s : State) :
    bootView (vidSteps n a b s) = bootView s ∧ laneView (vidSteps n a b s) = laneView s := by
  induction n generalizing a s with
  | zero => exact ⟨rfl, rfl⟩
  | succ n ih =>
    unfold vidSteps
    split
    · exact ⟨rfl, rfl⟩
    · obtain ⟨boot, lane⟩ := ih (if a < b then a + 1 else a - 1) (emit (.vid (if a < b then a + 1 else a - 1))
        { s with therm.vid := if a < b then a + 1 else a - 1 })
      exact ⟨boot, lane⟩

theorem keepLanes_views (s : State) : bootView (keepLanes s) = bootView s ∧ laneView (keepLanes s) = laneView s := by
  unfold keepLanes
  constructor
  · refine bootView_foldl _ _ _ fun s j => ?_
    split <;> rfl
  · refine laneView_foldl _ _ _ fun s j => ?_
    split <;> rfl

/-- The ledger's damage is noted, the margin plan and the profile are put in force. -/
def bootLoaded (b : BootInputs) (s : State) : State :=
  let s := b.damaged.foldl (fun s r => noteDamaged r s) s
  let s := loadMargin { s with pow.ledgerMs := (s.now - s.pow.goodAt) / 1000 }
  putProfile (s.led.profLock.getD b.profileSel.toNat % 4) s

theorem loadMargin_views (s : State) : bootView (loadMargin s) = bootView s ∧ laneView (loadMargin s) = laneView s :=
  vidSteps_views ..

theorem putProfile_views (n : Nat) (s : State) : bootView (putProfile n s) = bootView s ∧ laneView (putProfile n s) = laneView s :=
  keepLanes_views _

theorem bootLoaded_views (b : BootInputs) (s : State) :
    bootView (bootLoaded b s) = bootView s ∧ laneView (bootLoaded b s) = laneView s := by
  have damage : bootView (b.damaged.foldl (fun s r => noteDamaged r s) s) = bootView s ∧
      laneView (b.damaged.foldl (fun s r => noteDamaged r s) s) = laneView s :=
    ⟨bootView_foldl _ _ _ fun s r => (noteDamaged_views r s).1, laneView_foldl _ _ _ fun s r => (noteDamaged_views r s).2⟩
  unfold bootLoaded
  dsimp only
  constructor
  · rw [(putProfile_views ..).1, (loadMargin_views _).1]
    exact damage.1
  · rw [(putProfile_views ..).2, (loadMargin_views _).2]
    exact damage.2

/-! ## The image and the lost sectors (02 R54; 11 R409) -/

theorem bootView_emitMember (q tag : Nat) (r : MReq) (s : State) : bootView (emitMember q tag r s) = bootView s := by
  unfold emitMember
  split <;> rfl

theorem bootView_sendMember (q : Nat) (sl : Option (Nat × Nat)) (o : MOwner) (r : MReq) (s : State) :
    bootView (sendMember q sl o r s) = bootView s := by
  unfold sendMember
  split
  · rfl
  · exact (bootView_emitMember ..).trans rfl

theorem bootView_prepare (p n : Nat) (creation : Bool) (s : State) : bootView (prepare p n creation s) = bootView s := by
  unfold prepare
  split
  · rfl
  · dsimp only
    split
    · exact (bootView_sendMember ..).trans (bootView_sendMember ..)
    · exact bootView_sendMember ..

theorem bootView_joinMember (p n q : Nat) (take : Bool) (s : State) : bootView (joinMember p n q take s) = bootView s := by
  unfold joinMember
  split
  · rfl
  · dsimp only
    split
    · exact (bootView_sendMember ..).trans ((bootView_sendMember ..).trans (bootView_sendMember ..))
    · exact (bootView_sendMember ..).trans (bootView_sendMember ..)

theorem bootView_writeLabel (l n : Nat) (retired both : Bool) (s : State) : bootView (writeLabel l n retired both s) = bootView s := by
  unfold writeLabel
  split
  · rfl
  · exact bootView_foldl _ _ _ fun _ _ => bootView_sendMember ..

theorem bootView_takeBlank (p n : Nat) (s : State) : bootView (takeBlank p n s) = bootView s := by
  unfold takeBlank
  dsimp only
  split
  · rw [bootView_writeLabel, bootView_prepare, bootView_joinMember]
    exact (bootView_of_members (sameButMembers_slotTo ..)).trans rfl
  · rfl

theorem bootView_createPool (p node : Nat) (s : State) : bootView (createPool p node s) = bootView s := by
  unfold createPool
  dsimp only
  split
  · rfl
  · split
    · exact (bootView_foldl _ _ _ fun _ _ => bootView_takeBlank ..).trans rfl
    · rfl

theorem bootView_joinMembers (p : Nat) (s : State) : bootView (joinMembers p s) = bootView s := by
  refine bootView_foldl _ _ _ fun s e => ?_
  dsimp only
  split
  · exact bootView_joinMember ..
  · rfl

theorem bootView_loadImage (b : List Byte) (s : State) : bootView (loadImage b s) = bootView s := by
  unfold loadImage
  dsimp only
  rw [bootView_foldl, bootView_foldl]
  · rfl
  · intro s p
    split
    · exact bootView_createPool ..
    · split
      · exact bootView_joinMembers ..
      · rfl
  · intro s p
    split
    · rfl
    · split <;> rfl

theorem bootView_loadPlan (s : State) : bootView (loadPlan s) = bootView s := by
  unfold loadPlan
  dsimp only
  split
  · exact bootView_loadImage ..
  · split
    · rfl
    · rw [bootView_event, bootView_recEvent]
      exact bootView_loadImage ..

theorem bootView_lostEvent (k vol : Nat) (s : State) : bootView (lostEvent k vol s) = bootView s := by
  unfold lostEvent
  split
  · rfl
  · exact bootView_event ..

theorem bootView_noteShare (l : Nat) (s : State) : bootView (noteShare l s) = bootView s := by
  unfold noteShare
  split <;> rfl

theorem bootView_addLostW (l line x sec reason : Nat) (s : State) : bootView (addLostW l line x sec reason s) = bootView s := by
  unfold addLostW
  dsimp only
  split
  · rw [bootView_noteShare, bootView_lostEvent]
    rfl
  · split
    · rw [bootView_noteShare, bootView_lostEvent]
      rfl
    · exact (bootView_of_reports (sameButReports_raiseFree ..)).trans ((bootView_recEvent ..).trans rfl)

theorem bootView_bootLost (s : State) : bootView (bootLost s) = bootView s := by
  refine bootView_foldl _ _ _ fun s e => ?_
  exact bootView_foldl _ _ _ fun _ _ => bootView_addLostW ..

theorem bootView_bindJnl (s : State) : bootView (bindJnl s) = bootView s := by
  unfold bindJnl
  split <;> rfl

/-- The steps of a boot behind its checks. -/
def bootServed (s : State) : State :=
  let s := if s.led.retrain then ledCommit { s with led.retrain := false, led.training := s.led.training + 1 } else s
  let s := moveDuties (loadPlan s)
  let s := bootLost { s with pow.planMs := (s.now - s.pow.goodAt) / 1000 }
  let s := bindJnl s
  { s with dev.fenceEvents := fencedUnits s, pack.idAt := opSeconds s,
           pack.unproven := s.pack.identity.isSome && decide (learnClock s + 7776000 ≤ opSeconds s) }

theorem bootServed_view (s : State) : bootView (bootServed s) = { bootView s with retrain := false } := by
  have retrained : bootView (if s.led.retrain then ledCommit { s with led.retrain := false, led.training := s.led.training + 1 } else s) =
      { bootView s with retrain := false } := by
    cases h : s.led.retrain
    · simp [bootView, h]
    · rfl
  have behind (t u : State) (h : u = { bindJnl t with
      dev.fenceEvents := fencedUnits (bindJnl t), pack.idAt := opSeconds (bindJnl t),
      pack.unproven := (bindJnl t).pack.identity.isSome && decide (learnClock (bindJnl t) + 7776000 ≤ opSeconds (bindJnl t)) }) :
      bootView u = bootView t := by
    rw [h]
    exact bootView_bindJnl t
  exact (behind _ _ rfl).trans ((bootView_bootLost _).trans ((bootView_loadPlan _).trans retrained))

/-! ## The ends of a boot (11 R407) -/

theorem giveNoService_eq (why : Nat) (s : State) : ∃ o p0 p1, giveNoService why s =
    { s with out := o, port0 := p0, port1 := p1, pow.ph := .noService, pow.hold := false, dev.noService := why } := by
  obtain ⟨o, held⟩ := setHold_eq false { s with pow.ph := .noService }
  unfold giveNoService loseService
  rw [held]
  exact ⟨_, _, _, rfl⟩

theorem giveNoService_view (why : Nat) (s : State) :
    bootView (giveNoService why s) = { bootView s with ph := .noService, hold := false, noService := why } := by
  obtain ⟨o, p0, p1, eq⟩ := giveNoService_eq why s
  rw [eq]
  rfl

theorem setHold_view (b : Bool) (s : State) : bootView (setHold b s) = { bootView s with hold := b } := by
  obtain ⟨o, eq⟩ := setHold_eq b s
  rw [eq]
  rfl

/-- What a boot makes of the MRAM, the firmware, the control cores and the lanes. -/
def bootChecked (b : BootInputs) (s : State) : State :=
  if !b.mramReadable then giveNoService 1 s
  else
    let (good, s) := verifyFirmware s
    if !good then giveNoService 2 s
    else if b.badCtrlCores == 0xF then giveNoService 3 (bootLoaded b s)
    else if (List.range 8).all (fun j => laneUnusable j (bootLoaded b s)) then giveNoService 4 (bootLoaded b s)
    else bootServed (bootLoaded b s)

theorem bootChecked_eq (b : BootInputs) (s : State) : bootChecked b s =
    if !b.mramReadable then giveNoService 1 s
    else if !(verifyFirmware s).1 then giveNoService 2 (verifyFirmware s).2
    else if b.badCtrlCores == 0xF then giveNoService 3 (bootLoaded b (verifyFirmware s).2)
    else if (List.range 8).all (fun j => laneUnusable j (bootLoaded b (verifyFirmware s).2)) then
      giveNoService 4 (bootLoaded b (verifyFirmware s).2)
    else bootServed (bootLoaded b (verifyFirmware s).2) := rfl

section
variable {b : BootInputs} {s : State} (mram : b.mramReadable = true)
include mram

theorem bootChecked_bad (bad : (verifyFirmware s).1 = false) :
    bootView (bootChecked b s) = { bootView s with ph := .noService, hold := false, noService := 2 } := by
  have eq : bootChecked b s = giveNoService 2 (verifyFirmware s).2 :=
    (bootChecked_eq ..).trans <| (if_neg (by rw [mram]; exact Bool.false_ne_true)).trans (if_pos (by rw [bad]; rfl))
  rw [eq, giveNoService_view, (verifyFirmware_views s).1]

variable (good : (verifyFirmware s).1 = true)
include good

theorem bootChecked_noCores (cores : b.badCtrlCores = 0xF) :
    bootView (bootChecked b s) = { bootView s with ph := .noService, hold := false, noService := 3 } := by
  have eq : bootChecked b s = giveNoService 3 (bootLoaded b (verifyFirmware s).2) :=
    (bootChecked_eq ..).trans <| (if_neg (by rw [mram]; exact Bool.false_ne_true)).trans ((if_neg (by rw [good]; exact Bool.false_ne_true)).trans
      (if_pos (by rw [cores]; rfl)))
  rw [eq, giveNoService_view, (bootLoaded_views ..).1, (verifyFirmware_views s).1]

theorem bootChecked_served (cores : b.badCtrlCores = 0) (lane : laneUnusable 0 s = false) :
    bootView (bootChecked b s) = { bootView s with retrain := false } := by
  have free : laneUnusable 0 (bootLoaded b (verifyFirmware s).2) = false :=
    (laneUnusable_of_view ((bootLoaded_views ..).2.trans (verifyFirmware_views s).2) 0).trans lane
  have eq : bootChecked b s = bootServed (bootLoaded b (verifyFirmware s).2) :=
    (bootChecked_eq ..).trans <| (if_neg (by rw [mram]; exact Bool.false_ne_true)).trans ((if_neg (by rw [good]; exact Bool.false_ne_true)).trans
      ((if_neg (by rw [cores]; decide)).trans (if_neg fun all => by
        have none := List.all_eq_true.mp all 0 (List.mem_range.mpr (by decide))
        exact Bool.false_ne_true (free.symm.trans none))))
  rw [eq, bootServed_view, (bootLoaded_views ..).1, (verifyFirmware_views s).1]

end

/-- The state in which a boot checks the firmware. -/
def bootStart (powerOn : Bool) (cause : Nat) (b : BootInputs) (s : State) : State :=
  setHold true (resetState powerOn cause b (loadLedger b s))

section
variable {powerOn : Bool} {cause : Nat} {b : BootInputs} {s : State}

theorem resetState_view : (resetState powerOn cause b s).pow.ph = .boot ∧ (resetState powerOn cause b s).pow.bootCause = cause ∧
    (resetState powerOn cause b s).dev.ready = false := by
  have keeps (q p : PowSt) (h : p = if q.hdrs.isEmpty then q else saveHdr q) : p.ph = q.ph ∧ p.bootCause = q.bootCause := by
    subst h
    split <;> exact ⟨rfl, rfl⟩
  obtain ⟨phase, why⟩ := keeps _ (resetState powerOn cause b s).pow rfl
  exact ⟨phase, why, rfl⟩

theorem boot_held (rails : b.railsOk = false) : ∃ t, boot powerOn cause b s =
    setHold false { resetState powerOn cause b t with pow := { (resetState powerOn cause b t).pow with ph := .held } } :=
  ⟨_, if_pos (by rw [rails]; rfl)⟩

/-- A boot whose rails are in range. -/
theorem boot_checks (rails : b.railsOk = true) : boot powerOn cause b s = bootChecked b
    (setHold true (resetState powerOn cause b (if b.railsOk && b.mramReadable then loadLedger b s else s))) := by
  unfold boot
  generalize resetState powerOn cause b (if b.railsOk && b.mramReadable then loadLedger b s else s) = t
  refine (if_neg (by rw [rails]; exact Bool.false_ne_true)).trans ?_
  generalize setHold true t = u
  rfl

theorem boot_unreadable (rails : b.railsOk = true) (mram : b.mramReadable = false) : ∃ t, boot powerOn cause b s = giveNoService 1 t :=
  ⟨_, (boot_checks rails).trans (if_pos (by rw [mram]; rfl))⟩

theorem boot_eq (rails : b.railsOk = true) (mram : b.mramReadable = true) :
    boot powerOn cause b s = bootChecked b (bootStart powerOn cause b s) := by
  rw [boot_checks rails, if_pos (by rw [rails, mram]; rfl), bootStart]

theorem bootStart_view : bootView (bootStart powerOn cause b s) =
    { bootView (resetState powerOn cause b (loadLedger b s)) with hold := true } := setHold_view ..

/-- A boot whose self-tests passed has every lane. -/
theorem bootStart_lanes (lanes : b.badLanes = 0) (cores : b.badSeqCores = 0) (j : Nat) :
    laneUnusable j (bootStart powerOn cause b s) = false := by
  obtain ⟨o, eq⟩ := setHold_eq true (resetState powerOn cause b (loadLedger b s))
  have lane : (bootStart powerOn cause b s).dev.laneFence = 0 := by rw [bootStart, eq]; exact lanes
  have seq : (bootStart powerOn cause b s).dev.seqFence = 0 := by rw [bootStart, eq]; exact cores
  have resets : (bootStart powerOn cause b s).fc.resets = [] := by
    rw [bootStart, eq]
    unfold resetState
    dsimp only
    split <;> rfl
  rw [laneUnusable, lane, seq, resets]
  simp [tget, List.range_succ]

/-- The state of a module by its view. -/
theorem of_bootView {t : State} {v : BootView} (h : bootView t = v) :
    t.pow.ph = v.ph ∧ t.pow.hold = v.hold ∧ t.pow.bootCause = v.bootCause ∧ t.pow.readyAt = v.readyAt ∧ t.dev.ready = v.ready ∧
      t.dev.noService = v.noService ∧ t.cache.frozen = v.frozen ∧ t.led.retrain = v.retrain := by
  subst h
  exact ⟨rfl, rfl, rfl, rfl, rfl, rfl, rfl, rfl⟩

/-- The view of the state in which the firmware is checked. -/
theorem bootStart_stands : (bootView (bootStart powerOn cause b s)).ph = .boot ∧ (bootView (bootStart powerOn cause b s)).hold = true ∧
    (bootView (bootStart powerOn cause b s)).bootCause = cause ∧ (bootView (bootStart powerOn cause b s)).ready = false := by
  obtain ⟨phase, why, unready⟩ := resetState_view (powerOn := powerOn) (cause := cause) (b := b) (s := loadLedger b s)
  rw [bootStart_view]
  exact ⟨phase, rfl, why, unready⟩

/-- With every control core fenced there is no service. -/
theorem boot_noCores (rails : b.railsOk = true) (mram : b.mramReadable = true) (cores : b.badCtrlCores = 0xF) :
    let t := boot powerOn cause b s
    t.pow.ph = .noService ∧ t.dev.ready = false ∧
      t.dev.noService = if (verifyFirmware (bootStart powerOn cause b s)).1 then 3 else 2 := by
  intro t
  obtain ⟨-, -, -, unready⟩ := bootStart_stands (powerOn := powerOn) (cause := cause) (b := b) (s := s)
  have eq : t = _ := boot_eq rails mram
  rw [eq]
  generalize bootStart powerOn cause b s = u at unready ⊢
  cases good : (verifyFirmware u).1
  · obtain ⟨phase, -, -, -, ready, why, -, -⟩ := of_bootView (bootChecked_bad mram good)
    exact ⟨phase, ready.trans unready, why⟩
  · obtain ⟨phase, -, -, -, ready, why, -, -⟩ := of_bootView (bootChecked_noCores mram good cores)
    exact ⟨phase, ready.trans unready, why⟩

/-- With a control core and a lane at hand a boot goes on, if firmware verifies. -/
theorem boot_goesOn (rails : b.railsOk = true) (mram : b.mramReadable = true) (ctrl : b.badCtrlCores = 0) (lanes : b.badLanes = 0)
    (cores : b.badSeqCores = 0) :
    let t := boot powerOn cause b s
    t.dev.ready = false ∧ t.pow.bootCause = cause ∧
      if (verifyFirmware (bootStart powerOn cause b s)).1 then t.pow.ph = .boot ∧ t.pow.hold = true ∧ t.led.retrain = false
      else t.pow.ph = .noService ∧ t.dev.noService = 2 ∧ t.pow.hold = false := by
  intro t
  obtain ⟨phase, hold, why, unready⟩ := bootStart_stands (powerOn := powerOn) (cause := cause) (b := b) (s := s)
  have lane : laneUnusable 0 (bootStart powerOn cause b s) = false := bootStart_lanes lanes cores 0
  have eq : t = _ := boot_eq rails mram
  rw [eq]
  generalize bootStart powerOn cause b s = u at phase hold why unready lane ⊢
  cases good : (verifyFirmware u).1
  · obtain ⟨ended, low, cause_, -, ready, none, -, -⟩ := of_bootView (bootChecked_bad mram good)
    exact ⟨ready.trans unready, cause_.trans why, ended, none, low⟩
  · obtain ⟨goes, high, cause_, -, ready, -, -, retrain⟩ := of_bootView (bootChecked_served mram good ctrl lane)
    exact ⟨ready.trans unready, cause_.trans why, goes.trans phase, high.trans hold, retrain⟩

end

end Sys2Proof.Machine
end

