-- ==== Sys2Proof/Proofs/Resets.lean ====
section
/-! SUPPORT. Sys2Proof/Proofs/Resets.lean: READY, resets of the host links, deep standby and the training of a link (01 R23, R35; 05
R214; 11 R394, R408 to R411). -/

namespace Sys2Proof.Machine

/-! ## READY (11 R408 to R411) -/

theorem sameButOps_destageOldest (l : List (Nat × Nat × Nat × Nat)) (s : State) : SameButOps s (destageOldest l s) :=
  SameButOps.foldl _ _ _ fun _ _ => sameButOps_destageSlice ..

theorem bootView_pressure (s : State) : bootView (pressure s) = bootView s := by
  unfold pressure
  split
  · exact bootView_of_ops (sameButOps_destageOldest ..)
  · split
    · exact bootView_of_ops (sameButOps_destageOldest ..)
    · rfl

theorem bootView_relevel (s : State) : bootView (relevel s) = bootView s := by
  unfold relevel
  dsimp only
  split
  · rfl
  · split
    · exact bootView_of_ops (sameButOps_destageOldest ..)
    · exact (bootView_event ..).trans rfl

theorem bootView_setCap (s : State) : bootView (setCap s) = bootView s := by
  have presses (t : State) : bootView (if t.dev.ready then pressure t else t) = bootView t := by
    split
    · exact bootView_pressure t
    · rfl
  refine (presses _).trans ((bootView_relevel _).trans ?_)
  split
  · rfl
  · exact (bootView_event ..).trans rfl

theorem bootView_precomputeAll (s : State) : bootView (precomputeAll s) = bootView s := by
  refine bootView_foldl _ _ _ fun s l => ?_
  split
  · unfold precompute
    dsimp only
    split <;> rfl
  · rfl

theorem bootView_comeUp (s : State) : bootView (comeUp s) =
    { bootView s with ready := true, ph := .run, readyAt := s.now, frozen := false } := by
  have records (t : State) : bootView { t.dev.fenceEvents.foldl (fun s u => recEvent (unitSource u) 0x0001 u [] s) t with
      dev := { (t.dev.fenceEvents.foldl (fun s u => recEvent (unitSource u) 0x0001 u [] s) t).dev with fenceEvents := [] } } =
      bootView t :=
    bootView_foldl (fun s u => recEvent (unitSource u) 0x0001 u [] s) _ _ fun _ _ => bootView_recEvent ..
  refine (records _).trans ?_
  rw [show bootView (bootRecord _) = _ from bootView_of_reports (.of_events (sameButEvents_addRec ..)), bootView_setCap,
    bootView_relevel, bootView_precomputeAll]
  rfl

theorem bootView_blowFuses (s : State) : bootView (blowFuses s) = bootView s := by
  unfold blowFuses
  split
  · rfl
  · exact (bootView_foldl _ _ _ fun _ _ => bootView_of_reports (sameButReports_raiseFree ..)).trans rfl

theorem bootView_bootNotices (s : State) : bootView (bootNotices s) = bootView s := by
  have ended : bootView (match s.pow.endedBad, s.pow.lastResult with
      | true, 1 => raise 0x0F1 0x3F (1 + s.pow.flushSeq % 2 ^ 32 * 65536) s
      | true, 2 => raise 0x0F1 0x3F (2 + s.pow.flushSeq % 2 ^ 32 * 65536) s
      | _, _ => s) = bootView s := by
    split
    · exact bootView_of_reports (sameButReports_raise ..)
    · exact bootView_of_reports (sameButReports_raise ..)
    · rfl
  have tripped (t : State) : bootView (if t.pow.bootCause = 6 then raise 0x1A3 0x3F 1 t else t) = bootView t := by
    split
    · exact bootView_of_reports (sameButReports_raise ..)
    · rfl
  exact (tripped _).trans ended

theorem sameButEvents_createAdmin (p : Nat) (s : State) : SameButEvents s (createAdmin p s) := by
  unfold createAdmin
  dsimp only
  split
  · exact sameButEvents_setPort ..
  · exact ((sameButEvents_setPort ..).trans (sameButEvents_setRing ..)).trans (sameButEvents_setRing ..)

theorem bootView_detach (p : Nat) (s : State) : bootView (detach p s) = bootView s := by
  unfold detach
  split <;> rfl

theorem bootView_pairReady (s : State) : bootView (pairReady s) = bootView s := by
  unfold pairReady
  dsimp only
  split
  · rfl
  · exact Eq.trans (bootView_foldl (fun s p => detach p s) _ (setPairSt 1 s) fun _ _ => bootView_detach ..)
      ((bootView_of_events (setPairSt_events 1 s)).trans rfl)

theorem bootView_closeIfFound (s : State) : bootView (closeIfFound s) = bootView s := by
  unfold closeIfFound
  split <;> rfl

/-- Ports whose enable waited for READY get their admin rings. -/
def enablePorts (s : State) : State :=
  let s := if s.port0.enPending then createAdmin 0 s else s
  if s.port1.enPending && s.dev.bifurcated then createAdmin 1 s else s

theorem sameButEvents_enablePorts (s : State) : SameButEvents s (enablePorts s) := by
  have maybe (b : Bool) (p : Nat) (s : State) : SameButEvents s (if b then createAdmin p s else s) := by
    split
    · exact sameButEvents_createAdmin ..
    · exact .refl s
  exact (maybe s.port0.enPending 0 s).trans (maybe _ 1 _)

theorem bootView_openService (s : State) : bootView (openService s) = bootView s := by
  have lost (t : State) : bootView (t.pow.bootLost.foldl (fun s (k, n) => event 0x0005 (tgetD s.cache.lostW k {}).volume n s)
      { t with pow.endedDone := false, pow.endedBad := false, pow.bootLost := [] }) = bootView t :=
    (bootView_foldl (fun s (x : Nat × Nat) => event 0x0005 (tgetD s.cache.lostW x.1 {}).volume x.2 s) _ _
      fun _ _ => bootView_event ..).trans rfl
  have ports (t : State) (p0 p1 : Port) : bootView { enablePorts t with port0 := p0, port1 := p1 } = bootView t :=
    (bootView_of_events (sameButEvents_enablePorts t) :)
  exact (bootView_closeIfFound _).trans ((bootView_pairReady _).trans ((ports _ _ _).trans ((lost _).trans (bootView_bootNotices s))))

theorem becomeReady_view (s : State) : bootView (becomeReady s) =
    { bootView s with ready := true, ph := .run, readyAt := s.now, frozen := false } := by
  unfold becomeReady
  rw [bootView_openService, bootView_blowFuses, bootView_comeUp]

theorem ready_row (s : State) : (s.pow.ph ≠ .boot → exec .ready s = .next s) ∧
    (s.pow.ph = .boot → Settles .ready s (fun u => u.dev.ready = true ∧ u.pow.ph = .run ∧ u.pow.readyAt = s.now ∧
      u.cache.frozen = false)) := by
  refine ⟨fun no => if_neg no, fun boots => ⟨_, if_pos boots, ?_⟩⟩
  obtain ⟨ph, -, -, at_, ready, -, frozen, -⟩ := of_bootView (becomeReady_view s)
  exact ⟨ready, ph, at_, frozen⟩

/-! ## Resets of the host links (05 R214; 11 R394) -/

theorem tget_filter_not {α : Type} {t : Tbl α} {k : Nat} {f : Nat → Bool} (drops : f k = false) :
    tget (t.filter (fun e => f e.1)) k = none := by
  induction t with
  | nil => rfl
  | cons e t ih =>
    rw [List.filter_cons]
    split
    next keeps =>
      have other : k ≠ e.1 := by
        rintro rfl
        exact Bool.false_ne_true (drops.symm.trans keeps)
      rw [tget_cons, if_neg other, ih]
    next => exact ih

/-- Of the ports only `p` changes, and its PERST_N is as it was. -/
def OnlyPort (p : Nat) (s t : State) : Prop :=
  (∀ k, ¬ (p = 0 ↔ k = 0) → getPort k t = getPort k s) ∧ (getPort p t).perstLow = (getPort p s).perstLow

namespace OnlyPort

theorem refl (p : Nat) (s : State) : OnlyPort p s s := ⟨fun _ _ => rfl, rfl⟩

theorem trans {p : Nat} {s t u : State} (hst : OnlyPort p s t) (htu : OnlyPort p t u) : OnlyPort p s u :=
  ⟨fun k h => (htu.1 k h).trans (hst.1 k h), htu.2.trans hst.2⟩

end OnlyPort

theorem onlyPort_updPort (p : Nat) {f : Port → Port} (keeps : ∀ q, (f q).perstLow = q.perstLow) (s : State) :
    OnlyPort p s (updPort p f s) :=
  ⟨fun k h => (getPort_setPort ..).trans (if_neg h), by rw [getPort_updPort, keeps]⟩

theorem stashToPending_ports (p : Nat) (q : List Cqe) (s : State) :
    SameButEvents s (stashToPending p q s) ∧ (stashToPending p q s).rings = s.rings ∧ OnlyPort p s (stashToPending p q s) := by
  refine List.foldlRecOn q _ (motive := fun t : State => SameButEvents s t ∧ t.rings = s.rings ∧ OnlyPort p s t)
    ⟨.refl s, rfl, .refl p s⟩ fun t h c _ => ?_
  obtain ⟨same, rings, ports⟩ := h
  dsimp only
  split
  · exact ⟨same.trans (sameButEvents_updPort ..), (updPort_rings ..).trans rings, ports.trans (onlyPort_updPort p (by intro _; rfl) t)⟩
  · exact ⟨same, rings, ports⟩

/-- The entries that the stash of the port's event ring keeps for its next ring. -/
def portStash (p : Nat) (s : State) : List Cqe :=
  match (getPort p s).evRing with
  | some r => (ringOf r s).stash
  | none => []

theorem flrPort_ports (p : Nat) (s : State) : (flrPort p s).rings = s.rings.filter (fun e => !ringIn p e.1 s) ∧
    (flrPort p s).dev = s.dev ∧ OnlyPort p s (flrPort p s) := by
  obtain ⟨same, rings, ports⟩ := stashToPending_ports p (portStash p s) s
  refine ⟨(updPort_rings ..).trans ?_, (sameButEvents_updPort ..).dev.trans same.dev, ports.trans ?_⟩
  · exact congrArg (List.filter _) rings
  · exact onlyPort_updPort p (by intro _; rfl)
      { stashToPending p (portStash p s) s with
        rings := (stashToPending p (portStash p s) s).rings.filter (fun e => !ringIn p e.1 s)
        pipe.cmds := (stashToPending p (portStash p s) s).pipe.cmds.map (fun e => match e.2.src with
          | .ring r => if ringIn p r s then (e.1, { e.2 with src := .gone }) else e
          | _ => e) }

theorem linkReset_ports (p : Nat) (s : State) : (linkReset p s).rings = s.rings.filter (fun e => !ringIn p e.1 s) ∧
    (linkReset p s).dev = s.dev ∧ OnlyPort p s (linkReset p s) ∧ (getPort p (linkReset p s)).width = 0 := by
  obtain ⟨rings, dev, ports⟩ := flrPort_ports p s
  have orphaned : OnlyPort p (flrPort p s) (orphanNvme p (flrPort p s)) := .refl p (flrPort p s)
  refine ⟨?_, ?_, ((ports.trans orphaned).trans (onlyPort_updPort p (by intro _; rfl) _)).trans
    (onlyPort_updPort p (by intro _; rfl) _), ?_⟩
  · exact (updPort_rings ..).trans ((updPort_rings ..).trans rings)
  · exact (sameButEvents_updPort ..).dev.trans ((sameButEvents_updPort ..).dev.trans dev)
  · rw [linkReset, getPort_updPort]

theorem raiseFree_port (src kind k : Nat) (s : State) : getPort k (raiseFree src kind s) = getPort k s ∧
    (raiseFree src kind s).rings = s.rings := by
  unfold raiseFree raise
  dsimp only
  split <;> exact ⟨rfl, rfl⟩

/-- Ring contexts of a port that was reset are FREE, and so are those that were not listed. -/
theorem free_of_filter {s t : State} {p r : Nat} {l : Tbl Ring} (rings : t.rings = l.filter (fun e => !ringIn p e.1 s))
    (there : ringIn p r s = true) : (ringOf r t).st = .free := by
  have none : tget t.rings r = none := by
    rw [rings]
    exact tget_filter_not (f := fun k => !ringIn p k s) (by rw [there]; rfl)
  rw [ringOf, tgetD, none]
  rfl

theorem hostPowered_updPort (p : Nat) (f : Port → Port) (s : State) : hostPowered (updPort p f s) = hostPowered s := by
  have same := sameButEvents_updPort p f s
  rw [hostPowered, hostPowered, same.pow, same.dev]

theorem bifurcated_updPort (p : Nat) (f : Port → Port) (s : State) : (updPort p f s).dev = s.dev := (sameButEvents_updPort p f s).dev

theorem ringIn_of_dev {s t : State} (h : t.dev = s.dev) (p r : Nat) : ringIn p r t = ringIn p r s := by
  rw [ringIn, ringIn, ringFirst, ringFirst, ringEnd, ringEnd, h]

/-- A write of a port's PERST_N. -/
def perstSet (p : Nat) (low : Bool) (s : State) : State := updPort p (fun q => { q with perstLow := low }) s

section
variable {p : Fin 2} {s : State}

theorem perst_idle {low : Bool} (second : p = 1) (single : s.dev.bifurcated = false) :
    exec (.perstN p low) s = .next (perstSet p.val low s) := by
  subst second
  refine congrArg ok (if_pos ?_)
  rw [bifurcated_updPort, single]
  rfl

variable (acts : p = 0 ∨ s.dev.bifurcated = true)
include acts

theorem perst_acts (low : Bool) : exec (.perstN p low) s = .next
    (if low then
      if !hostPowered s then perstSet p.val low s
      else raiseFree 0x008 0x3F (if p.val = 0 then linkReset 1 (linkReset 0 (perstSet p.val low s)) else linkReset 1 (perstSet p.val low s))
    else if (getPort p.val s).perstLow && decide (p.val = 0) then wakeUp (perstSet p.val low s) else perstSet p.val low s) := by
  refine congrArg ok ((if_neg ?_).trans ?_)
  · rw [bifurcated_updPort]
    obtain rfl | both := acts
    · exact Bool.false_ne_true
    · simp [both]
  · rw [hostPowered_updPort]
    rfl

theorem perst_falls (powered : hostPowered s = true) : exec (.perstN p true) s = .next (raiseFree 0x008 0x3F
    (if p.val = 0 then linkReset 1 (linkReset 0 (perstSet p.val true s)) else linkReset 1 (perstSet p.val true s))) :=
  (perst_acts acts true).trans (congrArg ok ((if_pos rfl).trans (if_neg (by rw [powered]; exact Bool.false_ne_true))))

theorem perst_unpowered (dark : hostPowered s = false) : exec (.perstN p true) s = .next (perstSet p.val true s) :=
  (perst_acts acts true).trans (congrArg ok ((if_pos rfl).trans (if_pos (by rw [dark]; rfl))))

theorem perst_rises (wakes : p = 0) (low : s.port0.perstLow = true) :
    exec (.perstN p false) s = .next (wakeUp (perstSet p.val false s)) := by
  subst wakes
  refine (perst_acts acts false).trans (congrArg ok ((if_neg Bool.false_ne_true).trans (if_pos ?_)))
  exact Bool.and_eq_true_iff.mpr ⟨low, rfl⟩

theorem perst_stays (no : p = 1 ∨ s.port0.perstLow = false) : exec (.perstN p false) s = .next (perstSet p.val false s) := by
  refine (perst_acts acts false).trans (congrArg ok ((if_neg Bool.false_ne_true).trans (if_neg ?_)))
  obtain rfl | high := no
  · simp
  · by_cases first : p.val = 0
    · rw [first]
      simp [getPort, high]
    · simp [first]

end

theorem perst_frees {s : State} (powered : hostPowered s = true) : Completes (.perstN 0 true) s (fun t =>
    t.port0.perstLow = true ∧ t.port0.width = 0 ∧ t.port1.width = 0 ∧
      ∀ (p : Fin 2) (r : Nat), ringIn p.val r s = true → (ringOf r t).st = .free) := by
  obtain ⟨rings0, dev0, ports0, width0⟩ := linkReset_ports 0 (perstSet 0 true s)
  obtain ⟨rings1, dev1, ports1, width1⟩ := linkReset_ports 1 (linkReset 0 (perstSet 0 true s))
  have port (k : Nat) := raiseFree_port 0x008 0x3F k (linkReset 1 (linkReset 0 (perstSet 0 true s)))
  have zero := (port 0).1.trans (ports1.1 0 (by decide))
  have start : (perstSet 0 true s).dev = s.dev := bifurcated_updPort ..
  have rings : (raiseFree 0x008 0x3F (linkReset 1 (linkReset 0 (perstSet 0 true s)))).rings =
      (s.rings.filter (fun e => !ringIn 0 e.1 s)).filter (fun e => !ringIn 1 e.1 s) := by
    rw [(port 0).2, rings1, rings0, show (perstSet 0 true s).rings = s.rings from updPort_rings ..]
    simp only [ringIn_of_dev (dev0.trans start), ringIn_of_dev start]
  have row : exec (.perstN 0 true) s = .next (raiseFree 0x008 0x3F (linkReset 1 (linkReset 0 (perstSet 0 true s)))) :=
    (perst_falls (.inl rfl) powered).trans rfl
  refine ⟨_, row, ?_, ?_, ?_, fun p r there => ?_⟩
  · exact (congrArg Port.perstLow zero).trans (ports0.2.trans (congrArg Port.perstLow (getPort_updPort ..)))
  · exact (congrArg Port.width zero).trans width0
  · exact (congrArg Port.width (port 1).1).trans width1
  · match p with
    | 0 => exact free_of_filter (rings.trans (List.filter_comm ..)) there
    | 1 => exact free_of_filter rings there

/-! ## Deep standby and the host link (01 R23, R35) -/

theorem asAdmin_now {op c : Nat} {x : Cmd} {s : State} (now : adminNow op s = some (c, x)) (f : Nat → Cmd → State → State) :
    asAdmin op f s = f c x s := by
  unfold asAdmin
  rw [now]

theorem enterStandby_stands (s : State) : (enterStandby s).pow.ph = .standby ∧ (enterStandby s).dev.standby = true ∧
    (enterStandby s).dev.ready = false ∧ (enterStandby s).pow.hold = false := by
  rw [enterStandby, setHold_pow, setHold_dev]
  exact ⟨rfl, rfl, rfl, rfl⟩

theorem deepStandby_row {c : Nat} {x : Cmd} {s : State} (now : adminNow 0xB9 s = some (c, x)) :
    (standbyUnmet c s = 0 → Completes .deepStandby s (fun t => t.pow.ph = .standby ∧ t.dev.standby = true ∧
      t.dev.ready = false ∧ t.pow.hold = false)) ∧
    (standbyUnmet c s ≠ 0 → exec .deepStandby s = .next (finishCmd c 0x0005 (BitVec.ofNat 32 (standbyUnmet c s)) s)) :=
  ⟨fun met => ⟨_, congrArg ok ((asAdmin_now now _).trans (if_pos met)), enterStandby_stands _⟩,
    fun unmet => congrArg ok ((asAdmin_now now _).trans (if_neg unmet))⟩

theorem hostLinkTrained_of {p : Fin 2} {w : Fin 17} {l12 vdm sris : Bool} {s : State} (up : barUp p.val s = true)
    (first : s.port0.perstLow = false) (own : (getPort p.val s).perstLow = false) :
    (linkWidth p.val w.val s = true → exec (.hostLinkTrained p w l12 vdm sris) s = .next (updPort p.val
      (fun q => { q with width := w.val, inL12 := l12, vdm := vdm, sris := sris }) s)) ∧
    (linkWidth p.val w.val s = false → exec (.hostLinkTrained p w l12 vdm sris) s = .next s) :=
  ⟨fun fits => congrArg ok (if_pos (by simp [up, first, own, fits])), fun no => congrArg ok (if_neg (by simp [no]))⟩

theorem hostLinkTrained_idle {p : Fin 2} {w : Fin 17} {l12 vdm sris : Bool} {s : State}
    (no : barUp p.val s = false ∨ s.port0.perstLow = true ∨ (getPort p.val s).perstLow = true) :
    exec (.hostLinkTrained p w l12 vdm sris) s = .next s := by
  refine congrArg ok (if_neg fun all => ?_)
  obtain ⟨⟨⟨up, first⟩, own⟩, -⟩ := (by simpa only [Bool.and_eq_true, Bool.not_eq_true'] using all :
    ((barUp p.val s = true ∧ s.port0.perstLow = false) ∧ (getPort p.val s).perstLow = false) ∧ linkWidth p.val w.val s = true)
  simp [up, first, own] at no

/-! ## Power-good (11 R407) -/

theorem powerGood_boots {b : BootInputs} {s : State} (off : s.pow.ph = .off ∨ s.pow.ph = .tripped) : exec (.powerGood b) s =
    .next (boot true (if s.pow.ph = .tripped then 6 else if s.pow.endedBad then 7 else if s.pow.endedDone then 1 else 0) b s) :=
  if_pos off

/-- Settles O44. -/
theorem bootsAndResets : Obligations.BootsAndResets := by
  refine ⟨fun b s => ⟨fun off tripped => if_neg (not_or_intro off tripped), powerGood_boots⟩, fun b s off => ?_, ready_row,
    fun s => ⟨fun flushed high => if_pos ⟨flushed, high⟩, fun no => if_neg fun h => no.elim (fun other => other h.1) fun low => Bool.false_ne_true (h.2.symm.trans low)⟩,
    fun p low s => ?_, fun s => perst_frees,
    fun s low standby => ?_, fun c x s => deepStandby_row, fun p w l12 vdm sris s => hostLinkTrained_of,
    fun p w l12 vdm sris s => hostLinkTrained_idle⟩
  · intro c r
    have row : exec (.powerGood b) s = .next (boot true c b s) := by
      rw [powerGood_boots (.inl off), if_neg (by rw [off]; decide)]
    refine ⟨fun rails => ?_, fun rails mram => ?_, fun rails mram cores => ⟨_, row, boot_noCores rails mram cores⟩,
      fun rails mram ctrl lanes cores => ⟨_, row, boot_goesOn rails mram ctrl lanes cores⟩⟩
    · obtain ⟨t, held⟩ := boot_held (powerOn := true) (cause := c) (s := s) rails
      refine ⟨_, row, ?_⟩
      dsimp only
      rw [held, setHold_pow, setHold_dev]
      exact ⟨rfl, rfl, rfl⟩
    · obtain ⟨t, none⟩ := boot_unreadable (powerOn := true) (cause := c) (s := s) rails mram
      obtain ⟨phase, hold, -, -, -, why, -, -⟩ := of_bootView (giveNoService_view 1 t)
      refine ⟨_, row, ?_⟩
      dsimp only
      rw [none]
      exact ⟨phase, why, hold⟩
  · intro s1
    refine ⟨fun second single => perst_idle second single, fun acts => ⟨perst_unpowered acts, fun powered => ?_, fun first => ?_,
      perst_stays acts⟩⟩
    · obtain rfl | rfl : p = 0 ∨ p = 1 := by omega
      · exact perst_falls acts powered
      · exact perst_falls acts powered
    · intro wakes
      subst first
      exact perst_rises acts rfl wakes
  · have same : (perstSet 0 false s).pow.ph = .standby := (congrArg PowSt.ph (sameButEvents_updPort ..).pow).trans standby
    refine (perst_rises (.inl rfl) rfl low).trans (congrArg ok ?_)
    show wakeUp (perstSet 0 false s) = bootAgain 5 (perstSet 0 false s)
    unfold wakeUp
    rw [same]

end Sys2Proof.Machine
end

