-- ==== Sys2Proof/Proofs/PackAndHeat.lean ====
section
/-! SUPPORT. Sys2Proof/Proofs/PackAndHeat.lean: the energy pack's identity, learns and supervision (12 R428 to R447); temperature
levels, the throttle handshake and the analog trip (13 R455 to R464). -/

namespace Sys2Proof.Machine

/-! ## Identity reads (12 R427 to R429) -/

section
variable {s : State} {b : List Byte}

/-- A read that gets no sound block, or one of a chemistry that the module does not know. -/
def identityBad (s : State) : State := { s with pack.idFails := s.pack.idFails + 1, pack.idOk := false }

/-- A read of a sound block of a known chemistry. -/
def identityGood (s : State) : State := { s with pack.idFails := 0, pack.idOk := true }

theorem readIdentity_none : readIdentity none s =
    judgeAbsent (raise 0x1C0 0x34 (0x20 + (Config.freeWord s.free).toNat % 4) (nextFree (identityBad s))) := rfl

theorem readIdentity_unsound (bad : blockSound b = false) : readIdentity (some b) s = judgeAbsent (raise 0x1C0 0x34
    (if leAt b 0 4 == 0x50455644 && leAt b 4 2 == 1 then 0x23 else 0x20) (identityBad s)) :=
  congrArg judgeAbsent (if_pos (by rw [bad]; rfl))

variable (sound : blockSound b = true)
include sound

theorem readIdentity_unknown (chem : chemOk b = false) : readIdentity (some b) s = judgeAbsent (identityBad s) :=
  congrArg judgeAbsent ((if_neg (by rw [sound]; exact Bool.false_ne_true)).trans (if_pos (by rw [chem]; rfl)))

variable (chem : chemOk b = true)
include chem

theorem readIdentity_known (same : s.pack.identity = some (b.take 64)) : readIdentity (some b) s = judgeAbsent (identityGood s) :=
  congrArg judgeAbsent ((if_neg (by rw [sound]; exact Bool.false_ne_true)).trans
    ((if_neg (by rw [chem]; exact Bool.false_ne_true)).trans (if_pos same)))

theorem readIdentity_other (other : s.pack.identity ≠ some (b.take 64)) :
    readIdentity (some b) s = judgeAbsent (newPack b (identityGood s)) :=
  congrArg judgeAbsent ((if_neg (by rw [sound]; exact Bool.false_ne_true)).trans
    ((if_neg (by rw [chem]; exact Bool.false_ne_true)).trans (if_neg other)))

end

/-! ## Learn cycles that end (12 R442 to R444) -/

theorem setDraw_pack (b : Bool) (s : State) : (setDraw b s).pack = { s.pack with draw := b } := by
  unfold setDraw
  split
  next h => subst h; rfl
  next => rfl

theorem setInh_pack (s : State) : ∃ b, (setInh s).pack = { s.pack with chgInh := b } := by
  unfold setInh
  dsimp only
  split
  · exact ⟨_, rfl⟩
  · exact ⟨_, rfl⟩

/-- What the end of a learn cycle leaves of the pack. -/
theorem abandonLearn_pack {code : Nat} {s : State} (runs : s.pack.learn ≠ .idle) :
    (abandonLearn code s).pack.learn = .idle ∧ (abandonLearn code s).pack.lastResult = code ∧
      (abandonLearn code s).pack.fails = (if code == 4 || code == 5 || code == 7 then min (s.pack.fails + 1) 255 else s.pack.fails) ∧
      (abandonLearn code s).pack.soc = s.pack.soc ∧ (abandonLearn code s).pack.absent = s.pack.absent := by
  obtain ⟨b, inh⟩ := setInh_pack (setDraw false { s with pack := { s.pack with
    learn := .idle, pointA := none, eLearn := {}, rhoMeas := none, beforeDraw := none, lastResult := code,
    fails := if code == 4 || code == 5 || code == 7 then min (s.pack.fails + 1) 255 else s.pack.fails } })
  have eq : abandonLearn code s = setInh (setDraw false { s with pack := { s.pack with
    learn := .idle, pointA := none, eLearn := {}, rhoMeas := none, beforeDraw := none, lastResult := code,
    fails := if code == 4 || code == 5 || code == 7 then min (s.pack.fails + 1) 255 else s.pack.fails } }) := if_neg runs
  rw [eq, inh, setDraw_pack]
  exact ⟨rfl, rfl, rfl, rfl, rfl⟩

theorem abandonLearn_absence (code : Nat) (s : State) :
    (abandonLearn code s).pack.soc = s.pack.soc ∧ (abandonLearn code s).pack.absent = s.pack.absent := by
  by_cases idle : s.pack.learn = .idle
  · rw [show abandonLearn code s = s from if_pos idle]
    exact ⟨rfl, rfl⟩
  · obtain ⟨-, -, -, soc, absent⟩ := abandonLearn_pack (code := code) idle
    exact ⟨soc, absent⟩

theorem packEvent_pack (changed : Bool) (s : State) : (packEvent changed s).pack = s.pack := (sameButEvents_event ..).pack

/-- Three failures in a row make the pack absent. -/
theorem judgeAbsent_fails {s : State} (three : 3 ≤ s.pack.idFails) :
    (judgeAbsent s).pack.absent = true ∧ (judgeAbsent s).pack.soc = none := by
  have judged (t : State) (absent : t.pack.absent = true) : (abandonLearn 3 { t with pack := { t.pack with
      soc := none, points := [], lowAt := none, atRest := false, eCert := {} } }).pack.absent = true ∧
      (abandonLearn 3 { t with pack := { t.pack with
        soc := none, points := [], lowAt := none, atRest := false, eCert := {} } }).pack.soc = none := by
    obtain ⟨soc, same⟩ := abandonLearn_absence 3 { t with pack := { t.pack with
      soc := none, points := [], lowAt := none, atRest := false, eCert := {} } }
    exact ⟨same.trans absent, soc⟩
  have yes (low : Bool) : (s.pack.presHigh || decide (3 ≤ s.pack.idFails) || low) = true := by simp [three]
  unfold judgeAbsent
  dsimp only
  rw [yes, if_pos rfl]
  refine judged _ ?_
  split
  next h => exact h.symm
  next => rw [packEvent_pack]

/-! ## Rest points and proposals (12 R435, R438 to R440) -/

theorem restPoint_none {s : State} (no : s.pack.lowAt = none ∨ s.pack.absent = true) : restPoint s = s := by
  unfold restPoint
  split
  · rfl
  next t low =>
    obtain none | absent := no
    · exact absurd (none.symm.trans low) (nomatch ·)
    · exact if_pos absent

/-- The anchor at a rest point. -/
def restAnchor (t : Nat) (s : State) : RestPt × State :=
  anchor { s with now := max s.now (t + 1200000000), pack.lowAt := some (t + 1200000000), pack.atRest := true }

/-- What the rest point's anchor gives to a learn cycle, or to a learn. -/
def restLearn (t : Nat) (s : State) : State :=
  if s.pack.learn = .resting then endCycle (s.pack.pointA.getD (restAnchor t s).1) (restAnchor t s).1 (restAnchor t s).2
  else learnFrom (restAnchor t s).1 (restAnchor t s).2

/-- The points of rest kept after one: itself, and the others of its last two days. -/
def restPoints (t : Nat) (s : State) : List RestPt :=
  (restAnchor t s).1 :: (restLearn t s).pack.points.filter
    (fun p => decide ((restAnchor t s).1.at_ - p.at_ ≤ 172800) && p != (restAnchor t s).1)

theorem restPoint_some {s : State} {t : Nat} (low : s.pack.lowAt = some t) (present : s.pack.absent = false) :
    restPoint s = { restLearn t s with pack.points := restPoints t s } := by
  unfold restPoint
  rw [low]
  exact if_neg (ne_true_of_eq_false present)

theorem restPoint_alone {s : State} {t : Nat} (low : s.pack.lowAt = some t) (present : s.pack.absent = false)
    (idle : s.pack.learn = .idle) (none : s.pack.points = []) :
    restPoint s = { (restAnchor t s).2 with pack.points := [(restAnchor t s).1] } := by
  have empty : (restAnchor t s).2.pack.points = [] := none
  have learn : restLearn t s = (restAnchor t s).2 := by
    rw [restLearn, if_neg (by rw [idle]; decide), learnFrom, empty]
    rfl
  rw [restPoint_some low present, restPoints, learn, empty]
  rfl

theorem sameButReports_raiseOpen (src : Nat) (s : State) : SameButReports s (raiseOpen src s) :=
  .trans (t := nextFree s) rfl (sameButReports_raise ..)

theorem raiseOpen_pack (src : Nat) (s : State) : (raiseOpen src s).pack = s.pack := by
  unfold raiseOpen raise
  dsimp only
  split <;> rfl

theorem packUnproven_none {s : State} (no : s.pack.identity = none ∨
    (s.pack.unproven = true ∧ (s.pack.proposed = true ∨ s.pack.declinedAt.isSome = true))) :
    exec .packUnproven s = .next s :=
  if_pos (by simpa using no)

theorem packUnproven_some {s : State} (known : s.pack.identity.isSome = true)
    (free : ¬ (s.pack.unproven = true ∧ (s.pack.proposed = true ∨ s.pack.declinedAt.isSome = true))) :
    exec .packUnproven s = .next (packEvent false (raiseOpen 0x1C4
      { timeToOp (learnClock s + 7776000) s with pack.unproven := true, pack.proposed := true })) := by
  refine if_neg fun waits => ?_
  simp only [Bool.or_eq_true, Bool.and_eq_true] at waits
  obtain none | waits := waits
  · rw [Option.isNone_iff_eq_none] at none
    rw [none] at known
    exact Bool.false_ne_true known
  · exact free waits

theorem learnRepropose_row (s : State) : (s.pack.declinedAt = none ∨ s.pack.unproven = false → exec .learnRepropose s = .next s) ∧
    ∀ t : Nat, s.pack.declinedAt = some t → s.pack.unproven = true →
      Completes .learnRepropose s (fun u => u.pack.proposed = true ∧ u.pack.declinedAt = none) := by
  refine ⟨fun no => ?_, fun t declined unproven =>
    ⟨packEvent false { timeToOp (t + 604800) s with pack.proposed := true, pack.declinedAt := none }, ?_, ?_⟩⟩
  · show execLearnRepropose s = _
    unfold execLearnRepropose
    split
    · rfl
    next t h =>
      obtain none | proven := no
      · exact absurd (none.symm.trans h) (nomatch ·)
      · exact if_pos (by rw [proven]; rfl)
  · show execLearnRepropose s = _
    unfold execLearnRepropose
    rw [declined]
    exact if_neg (by rw [unproven]; exact Bool.false_ne_true)
  · dsimp only
    rw [packEvent_pack]
    exact ⟨rfl, rfl⟩

/-! ## Learn cycles and the charger (12 R442 to R444, R447) -/

theorem learnDischargeEnd_row (s : State) :
    (s.pack.pointA = none ∨ s.pack.learn ≠ .discharging → exec .learnDischargeEnd s = .next s) ∧
    ∀ a : RestPt, s.pack.pointA = some a → s.pack.learn = .discharging →
      let done := ((capQ s).mul (frac 5 10)).le (s.pack.count.sub a.q).abs
      (done = true → Completes .learnDischargeEnd s (fun t => t.pack.learn = .resting ∧ t.pack.draw = false)) ∧
      (done = false → exec .learnDischargeEnd s = .next s) := by
  have at_ (a : RestPt) (here : s.pack.pointA = some a) : exec .learnDischargeEnd s =
      if s.pack.learn = .discharging && ((capQ s).mul (frac 5 10)).le (s.pack.count.sub a.q).abs then
        ok (setDraw false { s with pack.learn := .resting, pack.restFrom := opSeconds s }) else ok s := by
    show execLearnDischargeEnd s = _
    unfold execLearnDischargeEnd
    rw [here]
  refine ⟨fun no => ?_, fun a here runs => ⟨fun done => ⟨_, (at_ a here).trans (if_pos (by simp [runs, done])), ?_⟩, fun no => ?_⟩⟩
  · cases h : s.pack.pointA with
    | none =>
      show execLearnDischargeEnd s = _
      unfold execLearnDischargeEnd
      rw [h]
      rfl
    | some a =>
      refine (at_ a h).trans (if_neg ?_)
      obtain none | rests := no
      · exact absurd (none.symm.trans h) (nomatch ·)
      · simp [rests]
  · dsimp only
    rw [setDraw_pack]
    exact ⟨rfl, rfl⟩
  · exact (at_ a here).trans (if_neg (by simp [no]))

theorem learnTimeout_row (s : State) : (s.pack.learn ≠ .resting → exec .learnTimeout s = .next s) ∧
    (s.pack.learn = .resting →
      let s1 := timeToOp (s.pack.restFrom + 7200) s
      exec .learnTimeout s = .next (settle (setCap (abandonLearn 5 s1))) ∧ (abandonLearn 5 s1).pack.learn = .idle ∧
        (abandonLearn 5 s1).pack.lastResult = 5 ∧ (abandonLearn 5 s1).pack.fails = min (s.pack.fails + 1) 255) := by
  refine ⟨fun no => if_neg no, fun rests => ?_⟩
  intro s1
  obtain ⟨learn, result, fails, -, -⟩ := abandonLearn_pack (code := 5) (s := s1)
    (by rw [show s1.pack.learn = .resting from rests]; decide)
  exact ⟨if_pos rests, learn, result, fails⟩

theorem chargerStuck_row (s : State) : (s.pack.fullAt = none ∨ s.pack.stuck = true → exec .chargerStuck s = .next s) ∧
    ∀ t : Nat, s.pack.fullAt = some t → s.pack.stuck = false →
      exec .chargerStuck s = .next (raiseOpen 0x1C3 { timeToOp (t + 86400) s with pack.stuck := true }) ∧
      Completes .chargerStuck s (fun u => u.pack.stuck = true) := by
  have at_ (t : Nat) (full : s.pack.fullAt = some t) : exec .chargerStuck s =
      if s.pack.stuck then ok s else ok (raiseOpen 0x1C3 { timeToOp (t + 86400) s with pack.stuck := true }) := by
    show execChargerStuck s = _
    unfold execChargerStuck
    rw [full]
  refine ⟨fun no => ?_, fun t full free => ?_⟩
  · cases h : s.pack.fullAt with
    | none =>
      show execChargerStuck s = _
      unfold execChargerStuck
      rw [h]
      rfl
    | some t =>
      obtain none | stuck := no
      · exact absurd (none.symm.trans h) (nomatch ·)
      · exact (at_ t h).trans (if_pos stuck)
  · have row := (at_ t full).trans (if_neg (ne_true_of_eq_false free))
    refine ⟨row, _, row, ?_⟩
    dsimp only
    rw [raiseOpen_pack]

theorem learnApprove_row (s : State) : (adminNow 0xB8 s = none → exec .learnApprove s = .next (settle s)) ∧
    ∀ (c : Nat) (x : Cmd), adminNow 0xB8 s = some (c, x) →
      (bitN (arg x 40 1) 0 = true → exec .learnApprove s = .next (settle (finishCmd c 0 0 (abandonLearn 6
        { s with pack := { s.pack with proposed := false,
                                       declinedAt := if s.pack.proposed then some (opSeconds s) else s.pack.declinedAt } })))) ∧
      (bitN (arg x 40 1) 0 = false → learnCheck s = none →
        exec .learnApprove s = .next (settle (finishCmd c 0 0 (startLearn s)))) ∧
      (∀ st r, bitN (arg x 40 1) 0 = false → learnCheck s = some (st, r) →
        exec .learnApprove s = .next (settle (finishCmd c st (BitVec.ofNat 32 r) s))) := by
  refine ⟨fun none => congrArg go ?_, fun c x now => ⟨fun declines => congrArg go ((asAdmin_now now _).trans (if_pos declines)),
    fun approves free => congrArg go ((asAdmin_now now _).trans ((if_neg (ne_true_of_eq_false approves)).trans ?_)),
    fun st r approves bad => congrArg go ((asAdmin_now now _).trans ((if_neg (ne_true_of_eq_false approves)).trans ?_))⟩⟩
  · unfold asAdmin
    rw [none]
  · rw [free]
    rfl
  · rw [bad]
    rfl

/-- Settles O46. -/
theorem packIdentityAndLearn : Obligations.PackIdentityAndLearn := by
  refine ⟨fun s => ⟨fun off b => if_pos (by rw [off]; rfl), ?_⟩, fun s => judgeAbsent_fails, fun high b s => ⟨fun same => if_pos same,
    fun other off => (if_neg other).trans (if_neg (ne_true_of_eq_false off)), fun other on => (if_neg other).trans (if_pos on)⟩,
    fun s => ⟨fun no => congrArg (fun t => go (setCap t)) (restPoint_none no), fun t low present => ?_⟩,
    fun s => ?_, learnRepropose_row, learnDischargeEnd_row, learnTimeout_row, chargerStuck_row, learnApprove_row⟩
  · intro on s1 s2 bad good
    have row (b : Option (List Byte)) : exec (.packIdentityRead b) s = .next (settle (readIdentity b s2)) :=
      if_neg (by rw [on]; exact Bool.false_ne_true)
    exact ⟨row none, fun b => ⟨fun unsound => (row _).trans (congrArg go (readIdentity_unsound unsound)),
      fun sound chem => (row _).trans (congrArg go (readIdentity_unknown sound chem)),
      fun sound chem same => (row _).trans (congrArg go (readIdentity_known (s := s2) sound chem same)),
      fun sound chem other => (row _).trans (congrArg go (readIdentity_other (s := s2) sound chem other))⟩⟩
  · intro a u
    exact ⟨congrArg (fun t => go (setCap t)) (restPoint_some low present),
      fun idle none => congrArg (fun t => go (setCap t)) (restPoint_alone low present idle none)⟩
  · intro waits
    refine ⟨packUnproven_none, fun known free => ⟨packUnproven_some known free, _, packUnproven_some known free, ?_⟩⟩
    dsimp only
    rw [packEvent_pack, raiseOpen_pack]
    exact ⟨rfl, rfl, rfl⟩

/-! ## Thermal levels (13 R455, R457) -/

theorem stepLevel_enters {region l n : Nat} {t : Int} {s : State} (hot : hottest region s = some (n, t)) (above : levelTj l ≤ t)
    (below : levelOf region s < l) (third : 2 ≤ tgetD s.therm.up (region * 4 + l) 0) :
    stepLevel region s l = enterLevel region l { s with therm := { s.therm with
      up := tset s.therm.up (region * 4 + l) 3, dn := tset s.therm.dn (region * 4 + l) 0 } } := by
  unfold stepLevel
  rw [hot]
  dsimp only
  rw [if_pos above, if_neg (show ¬ t < levelTj l - 12 by omega)]
  refine (if_pos ⟨below, by omega⟩).trans ?_
  rw [Nat.min_eq_right (by omega : 3 ≤ tgetD s.therm.up (region * 4 + l) 0 + 1)]
  rfl

theorem stepLevel_holds {region l n : Nat} {t : Int} {s : State} (hot : hottest region s = some (n, t))
    (above : levelTj l - 12 ≤ t) (below : t < levelTj l) :
    stepLevel region s l = { s with therm := { s.therm with
      up := tset s.therm.up (region * 4 + l) 0, dn := tset s.therm.dn (region * 4 + l) 0 } } := by
  unfold stepLevel
  rw [hot]
  dsimp only
  rw [if_neg (show ¬ levelTj l ≤ t by omega), if_neg (show ¬ t < levelTj l - 12 by omega)]
  exact (if_neg (by omega)).trans (if_neg (by omega))

/-! ## Throttle requests (13 R459 to R461) -/

/-- The clock, the throttle requests and the count of those enforced: what putting a target in force leaves alone. -/
def throttleView (s : State) : Nat × List ThrReq × Nat := (s.now, s.therm.requests, s.therm.enforcements)

theorem throttleView_vidSteps (n a b : Nat) (s : State) : throttleView (vidSteps n a b s) = throttleView s := by
  induction n generalizing a s with
  | zero => rfl
  | succ n ih =>
    unfold vidSteps
    split
    · rfl
    · exact ih _ _

theorem throttleView_setClk (k : Nat) (s : State) : throttleView (setClk k s) = throttleView s := by
  unfold setClk startRelock
  split
  · rfl
  · split
    · exact throttleView_vidSteps ..
    · rfl

theorem throttleView_setTarget (s : State) : throttleView (setTarget s) = throttleView s := by
  unfold setTarget
  dsimp only
  split
  · rfl
  · refine (throttleView_setClk ..).trans ?_
    split <;> rfl

theorem throttleView_event (typ obj data : Nat) (s : State) : throttleView (event typ obj data s) = throttleView s := by
  have same := sameButEvents_event typ obj data s
  unfold throttleView
  rw [same.now, same.therm]

theorem throttleView_sendThermal (r : ThrReq) (k : Nat) (s : State) : throttleView (sendThermal r k s) = throttleView s := by
  unfold sendThermal
  split <;> rfl

theorem throttleView_throttleState (r : ThrReq) (b : Bool) (s : State) : throttleView (throttleState r b s) = throttleView s :=
  (throttleView_sendThermal ..).trans (throttleView_event ..)

theorem throttleView_request (region target : Nat) (rate : Bool) (s : State) :
    throttleView (request region target rate s) = (s.now, s.therm.requests ++
      [{ region := region, target := target, rate := rate, grace := (prof s).throttleGrace, at_ := s.now }], s.therm.enforcements) :=
  (throttleView_sendThermal ..).trans (throttleView_event ..)

theorem throttleView_enforceAt {i : Nat} {r : ThrReq} {s : State} (there : s.therm.requests[i]? = some r)
    (pending : r.enforcedAt = none) : throttleView (enforceAt i s) =
      (s.now, lset s.therm.requests i { r with enforcedAt := some s.now }, sat32 s.therm.enforcements 1) := by
  unfold enforceAt
  rw [there]
  refine (congrArg throttleView (if_neg (by rw [pending]; exact Bool.false_ne_true))).trans ?_
  exact (throttleView_throttleState ..).trans (throttleView_setTarget ..)

theorem pendingReq_pending {region i : Nat} {r : ThrReq} {s : State} (first : pendingReq region s = some i)
    (there : s.therm.requests[i]? = some r) : r.enforcedAt = none := by
  obtain ⟨bound, found, -⟩ := List.findIdx?_eq_some_iff_getElem.mp first
  rw [List.getElem?_eq_getElem bound, Option.some_inj] at there
  rw [there, Bool.and_eq_true] at found
  exact Option.isNone_iff_eq_none.mp found.2

theorem throttleGraceEnd_row {region : Fin 15} {i : Nat} {r : ThrReq} {s : State} (first : pendingReq region.val s = some i)
    (there : s.therm.requests[i]? = some r) : exec (.throttleGraceEnd region) s =
      .next (settle (enforceAt i (timeTo (r.at_ + r.grace * 100000) s))) := by
  show execThrottleGraceEnd region s = _
  unfold execThrottleGraceEnd
  rw [first]
  dsimp only
  rw [there]
  rfl

theorem throttleGraceEnd_none {region : Fin 15} {s : State} (none : pendingReq region.val s = none) :
    exec (.throttleGraceEnd region) s = .next s := by
  show execThrottleGraceEnd region s = _
  unfold execThrottleGraceEnd
  rw [none]
  rfl

theorem throttleGraceEnd_gone {region : Fin 15} {i : Nat} {s : State} (first : pendingReq region.val s = some i)
    (gone : s.therm.requests[i]? = none) : exec (.throttleGraceEnd region) s = .next s := by
  show execThrottleGraceEnd region s = _
  unfold execThrottleGraceEnd
  rw [first]
  dsimp only
  rw [gone]
  rfl

/-- The enforced request of a region that escalates first (R460). -/
def escalating (region : Nat) (s : State) : Option ThrReq :=
  leastBy (fun r : ThrReq => r.enforcedAt.getD 0)
    (s.therm.requests.filter (fun r => r.region == region && r.enforcedAt.isSome && !r.followed))

/-- The state after a request is followed by its escalation. -/
def escalated (region : Nat) (r : ThrReq) (s : State) : State :=
  request region (max 25 (r.target - 25)) false
    { s with now := max s.now (r.enforcedAt.getD 0 + 30000000),
             therm.requests := s.therm.requests.map (fun q => if q = r then { q with followed := true } else q) }

theorem throttleEscalate_none {region : Fin 15} {s : State} (no : escalating region.val s = none ∨ levelOf region.val s < 2) :
    exec (.throttleEscalate region) s = .next s := by
  show execThrottleEscalate region s = _
  unfold execThrottleEscalate
  split
  · rfl
  next r h =>
    obtain none | below := no
    · exact absurd (none.symm.trans h) (nomatch ·)
    · exact if_pos below

theorem throttleEscalate_some {region : Fin 15} {r : ThrReq} {s : State} (first : escalating region.val s = some r)
    (hot : 2 ≤ levelOf region.val s) : exec (.throttleEscalate region) s = .next (escalated region.val r s) := by
  show execThrottleEscalate region s = _
  unfold execThrottleEscalate
  rw [show leastBy _ _ = some r from first]
  exact if_neg (by omega)

theorem escalating_alone {region : Nat} {r : ThrReq} {s : State} (alone : s.therm.requests = [r]) (here : r.region = region)
    (enforced : r.enforcedAt.isSome = true) (open_ : r.followed = false) : escalating region s = some r := by
  rw [escalating, alone, List.filter_cons_of_pos (by simp [here, enforced, open_])]
  rfl

theorem escalated_requests (region : Nat) (r : ThrReq) (s : State) : (escalated region r s).therm.requests =
    s.therm.requests.map (fun q => if q = r then { q with followed := true } else q) ++
      [{ region := region, target := max 25 (r.target - 25), rate := false, grace := (prof s).throttleGrace,
         at_ := max s.now (r.enforcedAt.getD 0 + 30000000) }] :=
  congrArg (fun v : Nat × List ThrReq × Nat => v.2.1) (throttleView_request ..)

/-! ## The analog trip (13 R464) -/

theorem mem_out_setHold {o : Out} {b : Bool} {s : State} (h : o ∈ s.out) : o ∈ (setHold b s).out := by
  unfold setHold
  split
  · exact h
  · exact List.mem_cons_of_mem _ h

/-- What the trip leaves as it is but for the vault: the shadow and the header. -/
theorem tornFlush_shadow_header (s : State) :
    (tornFlush s).cache.shadow = s.cache.shadow ∧ (tornFlush s).pow.header = s.pow.header := by
  obtain ⟨t, cases, torn⟩ := tornFlush_cases s
  rw [torn]
  obtain rfl | ⟨n, rfl⟩ := cases
  · exact ⟨rfl, rfl⟩
  · have same := sameButVault_programLines (s.cache.shadow.take n) s
    exact ⟨congrArg (·.cache.shadow) same, congrArg (·.pow.header) same⟩

theorem tornFlush_lastResult (s : State) : (tornFlush s).pow.lastResult = 1 := by
  obtain ⟨t, -, torn⟩ := tornFlush_cases s
  rw [torn]

/-- The state in which a trip gates the domains. -/
def tripping (s : State) : State := emit (.pin "THERMTRIP_N" false) (if s.pow.ph = .flush then tornFlush s else s)

theorem thermtrip_row {s : State} (fresh : s.therm.tripped = false) (on : s.pow.ph ≠ .off) : exec .thermtrip s =
    .next (dropWork { setHold false (tripping s) with therm.tripped := true, pow.ph := .tripped, pow.flushing := false,
                                                      dev.ready := false, dev.level := 0 }) :=
  if_neg (by simp [fresh, on])

/-- Settles O47. -/
theorem thermalLevelsAndThrottle : Obligations.ThermalLevelsAndThrottle := by
  refine ⟨fun r s => ⟨(if_pos ·), fun bad => if_neg (by rw [bad]; exact Bool.false_ne_true)⟩,
    fun region l n t s => stepLevel_enters, fun region l n t s => stepLevel_holds, fun region i r s first there => ?_,
    fun region s => ⟨throttleGraceEnd_none, fun i => throttleGraceEnd_gone, throttleEscalate_none, fun r => throttleEscalate_some⟩,
    fun region r s alone here enforced open_ hot =>
      ⟨_, throttleEscalate_some (escalating_alone alone here enforced open_) hot, ?_⟩,
    fun s no => if_pos (by obtain off | tripped := no <;> simp [*]), fun s fresh on => ⟨_, thermtrip_row fresh on, rfl, rfl, ?_⟩⟩
  · have view := throttleView_enforceAt (s := timeTo (r.at_ + r.grace * 100000) s) there (pendingReq_pending first there)
    simp only [throttleView, Prod.mk.injEq] at view
    exact ⟨_, throttleGraceEnd_row first there, view⟩
  · dsimp only
    rw [escalated_requests, alone]
    exact ⟨rfl, _, rfl, rfl, rfl, rfl, rfl⟩
  · obtain ⟨o, held⟩ := setHold_eq false (tripping s)
    have pin : Out.pin "THERMTRIP_N" false ∈ (setHold false (tripping s)).out :=
      mem_out_setHold List.mem_cons_self
    have kept : (tripping s).cache.shadow = s.cache.shadow ∧ (tripping s).pow.header = s.pow.header := by
      unfold tripping
      split
      · exact tornFlush_shadow_header s
      · exact ⟨rfl, rfl⟩
    have vault (other : s.pow.ph ≠ .flush) : tripping s = emit (.pin "THERMTRIP_N" false) s := by
      rw [tripping, if_neg other]
    have torn (flush : s.pow.ph = .flush) : (tripping s).pow.lastResult = 1 := by
      rw [tripping, if_pos flush]
      exact tornFlush_lastResult s
    rw [held] at pin ⊢
    refine ⟨rfl, rfl, fun other => ?_, torn, kept.1, kept.2, pin⟩
    show (tripping s).pow.nand = _ ∧ (tripping s).pow.index = _
    rw [vault other]
    exact ⟨rfl, rfl⟩

end Sys2Proof.Machine
end

