-- ==== Sys2Proof/Proofs/FaultLines.lean ====
section
/-! SUPPORT. Sys2Proof/Proofs/FaultLines.lean: the fault collector's turn, the ends of block resets, and its registers (14 R475
to R505). -/

namespace Sys2Proof.Machine

/-! ## The collector's turn (14 R475, R480, R488) -/

theorem collect_none {s : State} (none : nextSource s = none) : collect s = s := by
  unfold collect
  rw [none]

theorem collect_some {src : Nat} {m : FMsg} {rest : List FMsg} {s : State} (next : nextSource s = some src)
    (first : tgetD s.fc.queue src [] = m :: rest) : collect s = takeOverruns src (takeMsg m false { s with fc := { s.fc with
      queue := if rest = [] then tdel s.fc.queue src else tset s.fc.queue src rest, lastServed := src, last := m,
      messages := sat32 s.fc.messages 1 } }) := by
  unfold collect
  rw [next]
  dsimp only
  rw [first]
  dsimp only
  simp only [List.isEmpty_iff]

theorem takeMsg_shadow {m : FMsg} {silent : Bool} {s : State} (covered : s.fc.resets.any (fun e => covers e.1 m.src) = true) :
    takeMsg m silent s = shadowMsg m s := if_pos covered

theorem takeMsg_classify {m : FMsg} {silent : Bool} {s : State} (free : s.fc.resets.any (fun e => covers e.1 m.src) = false) :
    takeMsg m silent s = classifyMsg m silent s := if_neg (ne_true_of_eq_false free)

theorem classifyMsg_row (m : FMsg) (silent : Bool) (s : State) :
    let f := cfgOf m.src s
    let c := tgetD s.fc.cnt m.src {}
    let fresh := c.count == 0 || (f.w != 0 && decide (c.windowStart + f.w * 1000 ≤ s.now))
    let c1 : SrcCnt := { c with count := if fresh then 1 else c.count + 1,
                                windowStart := if fresh then s.now else c.windowStart, total := sat32 c.total 1 }
    let s1 : State := { s with fc.cnt := tset s.fc.cnt m.src c1 }
    (m.kind ≠ 0x3D → f.immed.getLsbD m.kind = false → c1.count < f.n → classifyMsg m silent s = ordinary m silent s1) ∧
    (m.kind = 0x3D ∨ f.immed.getLsbD m.kind = true ∨ f.n ≤ c1.count →
      let u := escalate m silent s1
      classifyMsg m silent s = { u with fc.cnt := tupd u.fc.cnt m.src (fun c => { c with count := 0 }) }) := by
  intro f c fresh c1 s1
  refine ⟨fun other slow below => if_neg ?_, (if_pos ·)⟩
  rintro (immediate | set | full)
  · exact other immediate
  · exact Bool.false_ne_true (slow.symm.trans set)
  · exact absurd full (Nat.not_le.mpr below)

/-! ## Block resets end (14 R487, R488) -/

theorem endReset_idle {b : Nat} {s : State}
    (no : tget s.fc.resets b = none ∨ ∃ r, tget s.fc.resets b = some r ∧ (r.endedAt.isSome = true ∨ r.links ≠ [])) :
    endReset b s = s := by
  unfold endReset
  obtain none | ⟨r, runs, ended | links⟩ := no
  · rw [none]
  · rw [runs]
    exact if_pos (by simp [ended])
  · rw [runs]
    exact if_pos (by simp [links])

theorem endReset_ends {b : Nat} {r : BlockRst} {s : State} (runs : tget s.fc.resets b = some r) (open_ : r.endedAt = none)
    (up : r.links = []) : endReset b s =
      if b = 26 then { s with fc.resets := tset s.fc.resets b { r with endedAt := some s.now }, pack.noRise := 3 }
      else if b < 8 then placeHeld { s with fc.resets := tset s.fc.resets b { r with endedAt := some s.now } }
      else { s with fc.resets := tset s.fc.resets b { r with endedAt := some s.now } } := by
  unfold endReset
  rw [runs]
  exact if_neg (by simp [open_, up])

theorem endShadow_none {b : Nat} {s : State}
    (no : tget s.fc.resets b = none ∨ ∃ r, tget s.fc.resets b = some r ∧ r.endedAt = none) : endShadow b s = s := by
  unfold endShadow
  obtain none | ⟨r, runs, open_⟩ := no
  · rw [none]
  · rw [runs]
    dsimp only
    rw [open_]

/-- The state in which a block's shadow is over, and its SHADOW record not yet made. -/
def shadowOver (b t : Nat) (s : State) : State :=
  { s with now := max s.now (t + (1024 + coreMhz s - 1) / coreMhz s), fc.resets := tdel s.fc.resets b }

theorem endShadow_ends {b t : Nat} {r : BlockRst} {s : State} (runs : tget s.fc.resets b = some r) (ended : r.endedAt = some t) :
    endShadow b s = addRec (mkRec 0x03 { src := lowestInside b, kind := 0x3F } false
      (leBytes 2 b ++ leBytes 4 (t - r.startedAt) ++ leBytes 4 r.shadowed ++ leBytes 2 r.sources.length) (shadowOver b t s))
      (shadowOver b t s) := by
  unfold endShadow
  rw [runs]
  dsimp only
  rw [ended]
  rfl

/-! ## FC_FORCE, FC_CLEAR and EVT_CTL.FLUSH (14 R489, R493, R504, R505) -/

theorem raise_room {src kind addr : Nat} {forced : Bool} {s : State} (room : (tgetD s.fc.queue src []).length < 4)
    (word : addr < 2 ^ 48) : raise src kind addr s forced =
      { s with fc.queue := tset s.fc.queue src (tgetD s.fc.queue src [] ++ [⟨src, kind, addr, forced⟩]) } := by
  refine (if_pos room).trans ?_
  rw [Nat.mod_eq_of_lt word]

theorem fcForce_row {w : Nat} {v : Word} {s : State} :
    let m := msgOf v true
    (w ≠ 8 → fcForce w v s = s) ∧
    (s.led.locked = true → fcForce 8 v s = countLockDiscard 0x80168 s) ∧
    (s.led.locked = false → reservedSrc m.src = true ∨ m.kind = 0 → fcForce 8 v s = s) ∧
    (s.led.locked = false → reservedSrc m.src = false → m.kind ≠ 0 →
      fcForce 8 v s = raise m.src m.kind m.addr s (forced := true)) := by
  intro m
  have wide : fcForce 8 v s = if s.led.locked then countLockDiscard 0x80168 s
      else if reservedSrc m.src || m.kind == 0 then s else raise m.src m.kind m.addr s (forced := true) := rfl
  refine ⟨fun other => if_pos (by simpa using other), fun locked => wide.trans (if_pos locked),
    fun free bad => wide.trans ((if_neg (ne_true_of_eq_false free)).trans (if_pos (by simpa using bad))),
    fun free src kind => wide.trans ((if_neg (ne_true_of_eq_false free)).trans (if_neg ?_))⟩
  simp only [Bool.or_eq_true, beq_iff_eq]
  rintro (reserved | zero)
  · exact Bool.false_ne_true (src.symm.trans reserved)
  · exact kind zero

/-- The sources that a write of FC_CLEAR names (14 R504). -/
def clearHits (v : Word) (k : Nat) : Bool := v.getLsbD 10 || k == (v.extractLsb' 0 10).toNat

theorem fcClear_eq (v : Word) (s : State) : fcClear v s = { s with
    fc.sticky := if v.getLsbD 11 then s.fc.sticky.filter (fun k => !clearHits v k) else s.fc.sticky,
    fc.severe := if v.getLsbD 12 then s.fc.severe.filter (fun k => !clearHits v k) else s.fc.severe,
    fc.cnt := if v.getLsbD 12 then
      s.fc.cnt.map (fun (k, c) => (k, if clearHits v k then { c with count := 0, windowStart := 0 } else c)) else s.fc.cnt } := by
  have named : (v.extractLsb' 0 10).toNat = fld v.toNat 9 0 := by simp [fld]
  unfold fcClear clearHits
  rw [named]
  cases v.getLsbD 11 <;> cases v.getLsbD 12 <;> rfl

theorem fcClear_all {v : Word} {s : State} (every : v.getLsbD 10 = true) (sticky : v.getLsbD 11 = true)
    (severe : v.getLsbD 12 = true) : (fcClear v s).fc.sticky = [] ∧ (fcClear v s).fc.severe = [] ∧
      ∀ k c, (k, c) ∈ (fcClear v s).fc.cnt → c.count = 0 := by
  have hit (k : Nat) : clearHits v k = true := by simp [clearHits, every]
  rw [fcClear_eq, if_pos sticky, if_pos severe, if_pos severe]
  refine ⟨by simp [hit], by simp [hit], fun k c listed => ?_⟩
  simp only [hit, if_true, List.mem_map] at listed
  obtain ⟨e, -, same⟩ := listed
  exact (congrArg (fun e : Nat × SrcCnt => e.2.count) same).symm

theorem flushRecs_room {s : State} (ok : s.evr.memFailed = false) (power : nvOn s = true)
    (room : s.evr.log.length + s.evr.staging.length < logMax) (free : s.evr.full = false) :
    (flushRecs s).evr.staging = [] ∧ (flushRecs s).evr.log = s.evr.log ++ s.evr.staging := by
  have all : s.evr.staging.take (logMax - s.evr.log.length) = s.evr.staging := List.take_of_length_le (by omega)
  unfold flushRecs
  rw [if_neg (by simp [ok, power])]
  dsimp only
  rw [all, free, decide_eq_false (by omega)]
  exact ⟨rfl, rfl⟩

/-- Settles O57. -/
theorem faultCollector : Obligations.FaultCollector := by
  refine ⟨fun w s => rfl, fun s none => congrArg go (collect_none none), fun src m rest s next first => ?_, classifyMsg_row,
    fun b s none => ⟨congrArg go (endReset_idle (.inl none)), congrArg ok (endShadow_none (.inl none))⟩,
    fun b r s runs => ?_, fun b r t s runs ended => ?_, fun w v s up ready => ?_,
    fun v s up ready => congrArg ok ((barWrite_of_ready _ up ready).trans (fcClear_eq v s)),
    fun v s up ready every sticky severe => ⟨_, congrArg ok (barWrite_of_ready _ up ready), fcClear_all every sticky severe⟩,
    fun p s up ready => ⟨fun low => congrArg ok ((barWrite_of_ready _ up ready).trans (if_pos low)),
      fun high => congrArg ok ((barWrite_of_ready _ up ready).trans (if_neg (ne_true_of_eq_false high)))⟩,
    fun s up ready => congrArg ok (barWrite_of_ready _ up ready),
    fun s up ready fine power room free => ⟨_, congrArg ok (barWrite_of_ready _ up ready), flushRecs_room fine power room free⟩,
    fun p w v s no => ?_⟩
  · intro s1
    have turn := collect_some next first
    exact ⟨fun covered => congrArg go (turn.trans (congrArg (takeOverruns src) (takeMsg_shadow covered))),
      fun free => congrArg go (turn.trans (congrArg (takeOverruns src) (takeMsg_classify free)))⟩
  · intro s1
    refine ⟨fun no => congrArg go (endReset_idle (.inr ⟨r, runs, no⟩)), fun open_ => congrArg ok (endShadow_none (.inr ⟨r, runs, open_⟩)),
      fun open_ up => ?_⟩
    have row := endReset_ends runs open_ up
    refine ⟨fun group below => congrArg go (row.trans ((if_neg (by omega)).trans (if_neg (by omega)))),
      fun lane => congrArg go (row.trans ((if_neg (by omega)).trans (if_pos lane))),
      fun pack => congrArg go (row.trans (if_pos pack))⟩
  · intro s1
    have row : exec (.resetShadowEnd b) s = _ := congrArg ok (endShadow_ends runs ended)
    refine ⟨row, _, row, ?_⟩
    have same := sameButEvents_addRec (mkRec 0x03 { src := lowestInside (blockNo b), kind := 0x3F } false
      (leBytes 2 (blockNo b) ++ leBytes 4 (t - r.startedAt) ++ leBytes 4 r.shadowed ++ leBytes 2 r.sources.length)
      (shadowOver (blockNo b) t s)) (shadowOver (blockNo b) t s)
    dsimp only
    rw [same.fc, same.now]
    exact ⟨(tget_tdel ..).trans (if_pos rfl), rfl⟩
  · intro m
    obtain ⟨width, locked, bad, good⟩ := fcForce_row (w := w) (v := v) (s := s)
    have row (w : Nat) : exec (.fcForce w v) s = .next (fcForce w v s) := congrArg ok (barWrite_of_ready _ up ready)
    refine ⟨fun h => (row w).trans (congrArg ok (width h)), fun h => (row 8).trans (congrArg ok (locked h)),
      fun h k => (row 8).trans (congrArg ok (bad h k)), fun h src kind => ?_⟩
    have forced := (row 8).trans (congrArg ok (good h src kind))
    exact ⟨forced, fun room => forced.trans (congrArg ok (raise_room room (Nat.mod_lt _ (by decide))))⟩
  · have silent {off : Nat} (f : State → State) (inside : off / 0x10000 = 8 ∨ off / 0x10000 = 9) :
        barWrite p.val off f s = s :=
      barWrite_unanswered f (no.imp_right fun h => by simp [answers, h]; omega)
    refine ⟨congrArg ok (silent _ (by decide)), ?_⟩
    rintro rfl
    exact ⟨congrArg ok (silent _ (by decide)), congrArg ok (silent _ (by decide)), congrArg ok (silent _ (by decide))⟩

end Sys2Proof.Machine
end

