-- ==== Sys2Proof/Proofs/RingLines.lean ====
section
/-! SUPPORT. Sys2Proof/Proofs/RingLines.lean: fetched entries and lists, drains, the ring operations and the port registers of
PF0 (05 R174 to R215, 06 R240). -/

namespace Sys2Proof.Machine

/-! ## Fetch completions, coalescing and drains (05 R182, R201, R208, R212) -/

/-- A ring after the read of one of its entries has failed. -/
def entryLost (r : Nat) (c : Dword) (s : State) : State :=
  setRing r { ringOf r s with reading := (ringOf r s).reading.filter (· != c.toNat),
                              fetched := tset (ringOf r s).fetched c.toNat [] } s

theorem entriesFail_read {r : Nat} {c : Dword} {s : State} (reading : (ringOf r s).reading.contains c.toNat = true) :
    entriesFail r c s = match (ringOf r s).st with
      | .draining => raise (0x022 + ringPort r (entryLost r c s)) 0x34 r (entryLost r c s)
      | .active => ringError r 3 (0x022 + ringPort r (entryLost r c s)) (entryLost r c s)
      | _ => entryLost r c s := if_neg (by simp only [reading]; exact Bool.false_ne_true)

section
variable {c : Nat} {x : Cmd} {r : Nat} {s : State} (here : cmdOf c s = some x) (list : x.ph = .list)
include here list

theorem listRead_failed (ring : x.src = .ring r) : listRead c none s =
    if (ringOf r (finishCmd c 0x0002 0 s)).st = .active then
      ringError r 3 (0x022 + x.port) (finishCmd c 0x0002 0 s)
    else finishCmd c 0x0002 0 s := by
  unfold listRead
  rw [here]
  dsimp only
  rw [list, ring]
  simp

theorem listRead_data (d : List Byte) (ring : x.src = .ring r) : listRead c (some d) s =
    match parseList (decide (0x80 ≤ x.opcode)) x.entry d with
    | none => finishCmd c 0x0002 0 s
    | some runs => if 0x80 ≤ x.opcode then updCmd c (fun y => { y with ph := .begun, sgl := runs }) s
        else startIo c (updCmd c (fun y => { y with ph := .begun, sgl := runs }) s) := by
  unfold listRead
  rw [here]
  dsimp only
  rw [list, ring]
  simp <;> rfl

theorem listFails_some : listFails c s = finishCmd c 0x0009 0 s := by
  unfold listFails
  rw [here]
  exact if_pos (by rw [list]; rfl)

end

theorem coalesceTimeout_row {r : Fin 262144} {s : State} (active : (ringOf r.val s).st = .active) (typ : (ringOf r.val s).typ ≠ 0)
    (enabled : (ringOf r.val s).intEn = true) (time : (ringOf r.val s).coalTime ≠ 0) (some : (ringOf r.val s).unsignalled ≠ 0) :
    exec (.coalesceTimeout r) s = .next (signal (ringPort r.val s) (ringOf r.val s).vector
      (setRing r.val { ringOf r.val s with unsignalled := 0 }
        { s with now := max s.now ((ringOf r.val s).firstAt + (ringOf r.val s).coalTime) })) := by
  have late : ¬ ((ringOf r.val s).unsignalled = 0 || (ringOf r.val s).coalTime = 0) = true := by simp [time, some]
  refine congrArg ok ((congrArg (coalesce r.val) (if_neg late)).trans (if_pos ?_))
  have over_ : (ringOf r.val s).firstAt + (ringOf r.val s).coalTime ≤
      max s.now ((ringOf r.val s).firstAt + (ringOf r.val s).coalTime) := Nat.le_max_right ..
  show ((ringOf r.val s).st == .active && (ringOf r.val s).typ != 0 && (ringOf r.val s).intEn && (ringOf r.val s).coalTime != 0 &&
    (ringOf r.val s).unsignalled != 0 && decide _) = true
  rw [active, enabled, bne_iff_ne.mpr typ, bne_iff_ne.mpr time, bne_iff_ne.mpr some]
  exact decide_eq_true over_

/-- A ring whose drain has ended. -/
def drained (r : Nat) (s : State) : State :=
  setRing r { ringOf r s with
    st := (ringOf r s).drainTo, push0 := none, push1 := none, fetched := [], reading := [], marked := [] } s

theorem drainEnd_row {r : Fin 262144} {s : State} (done : drainDone (ringOf r.val s) = true) :
    exec (.drainEnd r) s = .next (endAdminDrain (ringPort r.val (drained r.val s)) (drained r.val s)) := by
  have ended : endDrain r.val (if drainDone (ringOf r.val s) then s else settleDrains s) = drained r.val s :=
    (congrArg (endDrain r.val) (if_pos done)).trans (if_pos done)
  exact congrArg (fun t => ok (endAdminDrain (ringPort r.val t) t)) ended

theorem endAdminDrain_idle {p : Nat} {s : State} (idle : (getPort p s).adminDraining = false) : endAdminDrain p s = s :=
  if_neg (by simp [idle])

/-- Settles O15. -/
theorem fetchAndCoalesce : Obligations.FetchAndCoalesce := by
  refine ⟨fun r c es s => rfl, fun r c s reading => ?_, fun c x r s here list ring => ⟨fun d runs parsed => ?_, fun d bad => ?_, ?_⟩,
    fun c x s here list => congrArg go (listFails_some here list), fun r s active typ enabled time some =>
      coalesceTimeout_row active typ enabled time some, fun r s done => ?_⟩
  · intro v t src
    have row := entriesFail_read reading
    refine ⟨fun active port => congrArg (fun t => go (kickAbort t)) ?_, fun draining port => congrArg (fun t => go (kickAbort t)) ?_⟩
    · rw [row, show (ringOf r.val s).st = .active from active]
      exact congrArg (fun p => ringError r.val 3 (0x022 + p) t) port
    · rw [row, show (ringOf r.val s).st = .draining from draining]
      exact congrArg (fun p => raise (0x022 + p) 0x34 r.val t) port
  · refine congrArg go ((listRead_data here list d ring).trans ?_)
    rw [parsed]
  · refine congrArg go ((listRead_data here list d ring).trans ?_)
    rw [bad]
  · exact congrArg go (listRead_failed here list ring)
  · exact ⟨drainEnd_row done, fun idle => (drainEnd_row done).trans (congrArg ok (endAdminDrain_idle idle))⟩

/-! ## Ring operations (05 R178, R179, R211 to R213; 06 R240) -/

section
variable {c : Nat} {x : Cmd} {s : State}

theorem ringCreate_row (d : List Byte) (now : adminNow 0x81 s = some (c, x)) : exec (.ringCreate d) s =
    .next (match createReason x.port (arg x 40 4) (adminIn x d) s with
      | some n => finishCmd c 0x0002 (BitVec.ofNat 32 n) s
      | none => finishCmd c 0 0 (createRing x.port (arg x 40 4) (adminIn x d) s)) := congrArg ok (asAdmin_now now _)

/-- A ring drain that starts: its tail stands, and what it fetched goes on. -/
def drainStarted (r : Nat) (dest : RingSt) (s : State) : State :=
  kickRing r (setRing r { ringOf r s with st := .draining, drainTail := (ringOf r s).tail, drainTo := dest, cause := 0 } s)

theorem startDrain_runs {r : Nat} {dest : RingSt} (runs : (ringOf r s).st = .active ∨ (ringOf r s).st = .error) :
    startDrain r dest s = drainStarted r dest s :=
  if_neg (by obtain h | h := runs <;> rw [h] <;> decide)

theorem startDrain_idle {r : Nat} {dest : RingSt} (idle : (ringOf r s).st = .idle) :
    startDrain r dest s = setRing r { ringOf r s with st := dest } s := if_pos (by rw [idle]; rfl)

section
variable {dest : RingSt} {idleOk : Bool} (named : ringNamed x.port (arg x 40 4) s = true)
include named

theorem ringDown_submission (takes : (ringOf (arg x 40 4) s).st = .active ∨ (ringOf (arg x 40 4) s).st = .error ∨
      ((ringOf (arg x 40 4) s).st = .idle ∧ idleOk = true)) (typ : (ringOf (arg x 40 4) s).typ = 0) :
    ringDown c x dest idleOk s = finishCmd c 0 0 (settleDrains (startDrain (arg x 40 4) dest s)) := by
  refine (if_neg (by simp [named])).trans ((if_neg ?_).trans (if_pos typ))
  obtain h | h | ⟨h, ok⟩ := takes <;> simp [*]

theorem ringDown_completion (takes : (ringOf (arg x 40 4) s).st = .active ∨ (ringOf (arg x 40 4) s).st = .error ∨
      ((ringOf (arg x 40 4) s).st = .idle ∧ idleOk = true)) (typ : (ringOf (arg x 40 4) s).typ ≠ 0)
    (unbound : bindsIdle (arg x 40 4) s = true) :
    ringDown c x dest idleOk s = finishCmd c 0 (BitVec.ofNat 32 (ringOf (arg x 40 4) s).stash.length)
      (dropCompletion (arg x 40 4) dest s).2 := by
  refine (if_neg (by simp [named])).trans ((if_neg ?_).trans ((if_neg typ).trans (if_neg (by simp [unbound]))))
  obtain h | h | ⟨h, ok⟩ := takes <;> simp [*]

end

/-- RING_RESET and RING_SHUTDOWN take a ring down towards their state; only RING_SHUTDOWN takes an IDLE one. -/
theorem ringDown_row {i : Instr} {dest : RingSt} (named :
      (i = .ringReset ∧ dest = .idle ∧ adminNow 0x82 s = some (c, x)) ∨
      (i = .ringShutdown ∧ dest = .free ∧ adminNow 0x83 s = some (c, x))) :
    exec i s = .next (ringDown c x dest (dest == .free) s) := by
  obtain ⟨rfl, rfl, now⟩ | ⟨rfl, rfl, now⟩ := named <;> exact congrArg ok (asAdmin_now now _)

theorem ringEnable_row (now : adminNow 0x84 s = some (c, x)) (named : ringNamed x.port (arg x 40 4) s = true)
    (idle : (ringOf (arg x 40 4) s).st = .idle) : exec .ringEnable s = .next (finishCmd c 0 0 (enableRing x.port (arg x 40 4)
      (if bitN (arg x 48 1) 0 then some (BitVec.ofNat 32 (arg x 44 4)) else none) s)) :=
  congrArg ok ((asAdmin_now now _).trans ((if_neg (by simp [named])).trans (if_neg (by simp [idle]))))

theorem abort_row (now : adminNow 0x85 s = some (c, x)) (named : ringNamed x.port (arg x 40 4) s = true)
    (active : (ringOf (arg x 40 4) s).st = .active) (typ : (ringOf (arg x 40 4) s).typ = 0) :
    exec .abort s = .next (abortGo c x s) :=
  congrArg ok ((asAdmin_now now _).trans ((if_neg (by simp [named])).trans ((if_neg (by simp [active])).trans (if_neg (by simp [typ])))))

end

/-- Settles O16. -/
theorem ringAdministration : Obligations.RingAdministration := by
  intro c x s r v
  refine ⟨fun d now => ⟨fun fine => ?_, fun n bad => ?_⟩, fun i dest which named => ⟨fun runs typ => ?_, fun idle typ free => ?_,
    fun takes typ unbound => ?_⟩, fun now named idle => ?_, fun now named active typ => ⟨fun athand => ?_, fun ⟨i, out, away⟩ => ?_⟩⟩
  · rw [ringCreate_row d now, fine]
  · rw [ringCreate_row d now, bad]
  · exact (ringDown_row which).trans (congrArg ok ((ringDown_submission named
      (runs.elim .inl (fun h => .inr (.inl h))) typ).trans (congrArg (fun t => finishCmd c 0 0 (settleDrains t)) (startDrain_runs runs))))
  · subst free
    exact (ringDown_row which).trans (congrArg ok ((ringDown_submission named (.inr (.inr ⟨idle, rfl⟩)) typ).trans
      (congrArg (fun t => finishCmd c 0 0 (settleDrains t)) (startDrain_idle idle))))
  · refine (ringDown_row which).trans (congrArg ok (ringDown_completion named ?_ typ unbound))
    exact takes.imp_right (.imp_right fun ⟨idle, free⟩ => ⟨idle, by rw [free]; rfl⟩)
  · intro n t
    refine (ringEnable_row now named idle).trans (congrArg (fun t => ok (finishCmd c 0 0 t)) ?_)
    have counter : (if bitN (arg x 48 1) 0 then some (BitVec.ofNat 32 (arg x 44 4)) else none).getD v.init = n := by
      cases h : bitN (arg x 48 1) 0 <;> simp [n, h]
    unfold enableRing
    dsimp only
    rw [counter]
  · have all : (outstanding v).any (fun i => (entryOf v i).isNone) = false := by
      simpa [List.any_eq_false, Option.isSome_iff_ne_none] using athand
    exact (abort_row now named active typ).trans (congrArg ok (if_neg (by rw [all, Bool.and_false]; exact Bool.false_ne_true)))
  · refine (abort_row now named active typ).trans (congrArg ok (if_pos ?_))
    have some : (outstanding v).any (fun i => (entryOf v i).isNone) = true :=
      List.any_eq_true.mpr ⟨i, out, by rw [← Option.not_isSome, away]; rfl⟩
    rw [show (ringOf (arg x 40 4) s).st = .active from active, some]
    rfl

/-! ## Registers of a port that act (05 R209, R214, R215) -/

theorem flrPort_port (p : Nat) (s : State) : (getPort p (flrPort p s)).en = false ∧ (getPort p (flrPort p s)).adminSqBase = 0 ∧
    (getPort p (flrPort p s)).adminCqBase = 0 := by
  unfold flrPort
  dsimp only
  rw [getPort_updPort]
  exact ⟨rfl, rfl, rfl⟩

theorem getPort_setPort_same (p : Nat) (q : Port) (s : State) : getPort p (setPort p q s) = q := by
  rw [getPort_setPort, if_pos Iff.rfl]

theorem ringFirst_setPort (p k : Nat) (q : Port) (s : State) : ringFirst p (setPort k q s) = ringFirst p s := by
  rw [ringFirst, ringFirst, setPort_dev]

theorem adminCtlWrite_row {p : Fin 2} (v : Word) {s : State} (up : barUp p.val s = true) :
    exec (.adminCtlWrite p v) s = .next (adminCtlWrite p.val v s) :=
  congrArg ok (barWrite_taken _ up (by simp [answers]))

/-- A port as a write of ADMIN_CTL leaves its other fields. -/
def adminPort (p : Nat) (v : Word) (s : State) : Port :=
  { getPort p s with pushEn := v.getLsbD 1, sqLog2 := fld v.toNat 7 4, cqLog2 := fld v.toNat 11 8 }

section
variable {p : Nat} {v : Word} {s : State}

theorem adminCtlWrite_on (on : v.getLsbD 0 = true) (off : (getPort p s).en = false) : adminCtlWrite p v s =
    if s.dev.ready then createAdmin p (setPort p (adminPort p v s) s)
    else setPort p { adminPort p v s with en := true, enPending := true } s := if_pos (congrArg₂ (fun a b => a && !b) on off)

theorem adminCtlWrite_off (off : v.getLsbD 0 = false) (on : (getPort p s).en = true) : adminCtlWrite p v s =
    if (getPort p s).enPending then setPort p { adminPort p v s with en := false, enPending := false } s
    else startDrain (ringFirst p (setPort p { adminPort p v s with en := false, adminDraining := true } s)) .free
      (setPort p { adminPort p v s with en := false, adminDraining := true } s) :=
  (if_neg (ne_true_of_eq_false (congrArg (· && !(getPort p s).en) off))).trans (if_pos (congrArg₂ (fun a b => !a && b) off on))

theorem adminCtlWrite_same (same : v.getLsbD 0 = (getPort p s).en) : adminCtlWrite p v s = setPort p (adminPort p v s) s := by
  have on : ¬ (v.getLsbD 0 && !(getPort p s).en) = true := by rw [same, Bool.and_not_self]; exact Bool.false_ne_true
  have off : ¬ (!v.getLsbD 0 && (getPort p s).en) = true := by rw [same, Bool.not_and_self]; exact Bool.false_ne_true
  exact (if_neg on).trans (if_neg off)

/-- The admin rings of a port at creation. -/
theorem createAdmin_makes {q : Port} (idle : q.adminDraining = false) (a4 : 4 ≤ q.sqLog2) (a12 : q.sqLog2 ≤ 12)
    (b4 : 4 ≤ q.cqLog2) (b12 : q.cqLog2 ≤ 12) :
    (getPort p (createAdmin p (setPort p q s))).en = true ∧
    ringOf (ringFirst p s) (createAdmin p (setPort p q s)) =
      { st := .active, typ := 0, base := q.adminSqBase, log2 := q.sqLog2, pushEn := q.pushEn, bind := ringFirst p s + 1 } ∧
    ringOf (ringFirst p s + 1) (createAdmin p (setPort p q s)) =
      { st := .active, typ := 1, base := q.adminCqBase, log2 := q.cqLog2, intEn := true, cap := (prof s).cqCapDefault } := by
  have sizes : ¬ (q.adminDraining || q.sqLog2 < 4 || 12 < q.sqLog2 || q.cqLog2 < 4 || 12 < q.cqLog2) = true := by
    simp [idle]; omega
  unfold createAdmin
  dsimp only
  rw [getPort_setPort_same, if_neg sizes, ringFirst_setPort, prof, setPort_dev]
  refine ⟨?_, ringOf_setRing_same _ (nomatch ·), ?_⟩
  · rw [getPort_setRing, getPort_setRing, getPort_setPort_same]
  · rw [ringOf_setRing, if_neg (by omega), ringOf_setRing_same]
    · rfl
    · exact RingSt.noConfusion
    · exact RingSt.noConfusion

theorem createAdmin_fails {q : Port} (bad : q.adminDraining = true ∨ q.sqLog2 < 4 ∨ 12 < q.sqLog2 ∨ q.cqLog2 < 4 ∨ 12 < q.cqLog2) :
    (getPort p (createAdmin p (setPort p q s))).en = false ∧ (getPort p (createAdmin p (setPort p q s))).adminErr = true ∧
      (createAdmin p (setPort p q s)).rings = s.rings := by
  have sizes : (q.adminDraining || q.sqLog2 < 4 || 12 < q.sqLog2 || q.cqLog2 < 4 || 12 < q.cqLog2) = true := by
    simpa [or_assoc] using bad
  unfold createAdmin
  dsimp only
  rw [getPort_setPort_same, if_pos sizes, getPort_setPort_same, setPort_rings, setPort_rings]
  exact ⟨rfl, rfl, rfl⟩

end

/-- Settles O17. -/
theorem portRegistersAct : Obligations.PortRegistersAct := by
  refine ⟨fun p n s up ready => congrArg ok (barWrite_of_ready _ up ready), fun p s up => ?_, fun p v s up => ?_⟩
  · have row : exec (.pf0Flr p) s = .next (raiseFree 0x008 0x3F (flrPort p.val s)) := if_pos up
    obtain ⟨port, rings⟩ := raiseFree_port 0x008 0x3F p.val (flrPort p.val s)
    refine ⟨row, _, row, fun e listed => ?_, ?_⟩
    · rw [rings, (flrPort_ports p.val s).1, List.mem_filter] at listed
      simpa using listed.2
    · rw [port]
      exact flrPort_port p.val s
  · intro q a b q'
    have row := adminCtlWrite_row v up
    refine ⟨fun on off ready idle a4 a12 b4 b12 => ⟨_, row.trans (congrArg ok ((adminCtlWrite_on on off).trans (if_pos ready))),
        createAdmin_makes (q := q') idle a4 a12 b4 b12⟩,
      fun on off ready bad => ⟨_, row.trans (congrArg ok ((adminCtlWrite_on on off).trans (if_pos ready))),
        createAdmin_fails (q := q') bad⟩,
      fun on off early => row.trans (congrArg ok ((adminCtlWrite_on on off).trans (if_neg (ne_true_of_eq_false early)))),
      fun off on pending => row.trans (congrArg ok ((adminCtlWrite_off off on).trans (if_pos pending))),
      fun off on settled => row.trans (congrArg ok ((adminCtlWrite_off off on).trans
        ((if_neg (ne_true_of_eq_false settled)).trans ?_))),
      fun same => row.trans (congrArg ok (adminCtlWrite_same same))⟩
    rw [ringFirst_setPort]
    rfl

end Sys2Proof.Machine
end

