-- ==== Sys2Proof/Proofs/Sideband.lean ====
section
/-! SUPPORT. Sys2Proof/Proofs/Sideband.lean: the reset state, the test access port, the management sideband, and the security
operations (15 R511 to R524, 16 R545). -/

namespace Sys2Proof.Machine

/-- Settles O60, field by field. (The model's own `resetState` has the name that would be this theorem's.) -/
theorem resetState_clear : Obligations.ResetState :=
  ⟨rfl, rfl, rfl, fun _ => rfl, rfl, rfl, rfl, rfl, rfl, rfl, rfl, rfl, rfl, rfl, rfl, rfl, rfl, rfl⟩

/-! ## The test access port (16 R545) -/

section
variable {f : TapSt → TapSt} {code bits : Nat} {s : State}

theorem onTap_off (off : s.pow.ph = .off) : onTap f code bits s = emit (.tap code bits) { s with tap := { f s.tap with ir := code } } :=
  if_pos off

theorem onTap_on (on : s.pow.ph ≠ .off) : onTap f code bits s = s := if_neg on

end

/-- Settles O59. -/
theorem boundaryScan : Obligations.BoundaryScan := by
  intro pins sh code s at_
  refine ⟨fun off => ?_, fun on => ?_⟩
  · have tap (f : TapSt → TapSt) (code bits : Nat) := congrArg ok (onTap_off (f := f) (code := code) (bits := bits) off)
    have bypass (code : Byte) (free : 6 < code.toNat) : exec (.bypass code) s =
        ok (if code = 0xFF then at_ 0xFF 0 false false else raiseOpen 0x1E7 (at_ 0xFF 0 false false)) := by
      refine congrArg ok ((if_neg ?_).trans ?_)
      · simp only [off, Bool.or_eq_true, decide_eq_true_eq]
        rintro (low | on)
        · omega
        · exact absurd on (by decide)
      · dsimp only
        rw [onTap_off off]
    refine ⟨tap .., tap .., tap .., tap .., tap .., tap .., tap .., ?_, fun low => congrArg ok (if_pos ?_), fun free other => ?_⟩
    · exact (bypass 0xFF (by decide)).trans (congrArg ok (if_pos rfl))
    · simp only [Bool.or_eq_true, decide_eq_true_eq]
      exact .inl (by omega)
    · exact (bypass code free).trans (congrArg ok (if_neg other))
  · have tap (f : TapSt → TapSt) (code bits : Nat) := congrArg ok (onTap_on (f := f) (code := code) (bits := bits) on)
    exact ⟨tap .., tap .., tap .., tap .., tap .., tap .., tap .., congrArg ok (if_pos (by simp [on]))⟩

/-! ## The management sideband (15 R522 to R524; 01 R23; 11 R405) -/

section
variable {s : State}

theorem onSideband_present (f : State → State) (aon : s.pow.aon = true) : onSideband f s = f s := if_pos aon

theorem onSideband_absent (f : State → State) (off : s.pow.aon = false) : onSideband f s = s := if_neg (ne_true_of_eq_false off)

theorem attestStart_row (inst alg : Nat) (n : List Byte) :
    (s.dev.ready = false → attestStart inst alg n s = vywin 2 inst 4 [] s) ∧
    (s.dev.ready = true → 1 < alg → attestStart inst alg n s = vywin 2 inst 2 [] s) ∧
    (s.dev.ready = true → alg ≤ 1 → sidebandSigns s = true → attestStart inst alg n s = vywin 2 inst 3 [] s) ∧
    (s.dev.ready = true → alg ≤ 1 → sidebandSigns s = false → attestStart inst alg n s =
      vywin 2 inst 0 (leBytes 4 (512 + sigBytes alg)) (askSigning none alg (padTo 32 n) s)) := by
  have row : attestStart inst alg n s = if s.dev.ready = false then vywin 2 inst 4 [] s else if 1 < alg then vywin 2 inst 2 [] s
      else if sidebandSigns s then vywin 2 inst 3 [] s
      else vywin 2 inst 0 (leBytes 4 (512 + sigBytes alg)) (askSigning none alg (padTo 32 n) s) := by
    unfold attestStart
    simp only [Bool.not_eq_true']
  refine ⟨fun early => row.trans (if_pos early), fun ready odd => row.trans ?_, fun ready known busy => row.trans ?_,
    fun ready known free => row.trans ?_⟩
  · rw [if_neg (by rw [ready]; decide), if_pos odd]
  · rw [if_neg (by rw [ready]; decide), if_neg (by omega), if_pos busy]
  · rw [if_neg (by rw [ready]; decide), if_neg (by omega), if_neg (ne_true_of_eq_false free)]

section
variable {inst obj off len : Nat}

theorem readObject_long (long : 1024 < len) : readObject inst obj off len s = vywin 3 inst 2 [] s := if_pos long

theorem readObject_error {e : Nat} (short : len ≤ 1024) (bad : objectBytes obj s = .error e) :
    readObject inst obj off len s = vywin 3 inst e [] s := by
  refine (if_neg (by omega)).trans ?_
  rw [bad]

theorem readObject_bytes {b : List Byte} (short : len ≤ 1024) (good : objectBytes obj s = .ok b) :
    readObject inst obj off len s = vywin 3 inst 0 (slice b off len) s := by
  refine (if_neg (by omega)).trans ?_
  rw [good]

end

theorem objectBytes_report : objectBytes 1 s = if s.dev.ready = false then .error 4 else if sidebandSigns s then .error 1
    else match s.sec.report with
      | some r => .ok r
      | none => .error 1 := by
  unfold objectBytes
  simp only [Bool.not_eq_true'] <;> rfl

theorem objectBytes_unknown {obj : Nat} (one : obj ≠ 1) (two : obj ≠ 2) (three : obj ≠ 3) : objectBytes obj s = .error 2 := by
  unfold objectBytes
  split
  · exact absurd rfl one
  · exact absurd rfl two
  · exact absurd rfl three
  · rfl

theorem wakeUp_standby (standby : s.pow.ph = .standby) : wakeUp s = bootAgain 5 s := by
  unfold wakeUp
  rw [standby]

theorem wakeUp_cold (cold : s.pow.ph = .coldStopped) (cool : belowThrottle s = true) : wakeUp s = bootAgain 4 s := by
  unfold wakeUp
  rw [cold]
  exact if_pos cool

theorem wake_row (i : Byte) (aon : s.pow.aon = true) : exec (.wake i) s = .next
    (if wakeMay s then wakeUp (vywin 5 i.toNat 0 [] s) else vywin 5 i.toNat 4 [] s) :=
  congrArg ok (onSideband_present _ aon)

end

/-- Settles O58. -/
theorem sidebandMessages : Obligations.SidebandMessages := by
  intro i s reply answer
  refine ⟨fun aon => ?_, fun off => ?_⟩
  · have row (f : State → State) : ok (onSideband f s) = .next (f s) := congrArg ok (onSideband_present f aon)
    refine ⟨fun eid => ⟨fun reserved => (row _).trans (congrArg ok (if_pos reserved)), fun zero ones => (row _).trans
      (congrArg ok (if_neg ?_))⟩, row _, row _, row _, row _, row _, row _, fun alg n => ?_, fun obj off len => ?_,
      fun eid on => row _, fun standby => ?_, fun cold cool => ?_, fun other hot => ?_⟩
    · rintro (h | h)
      · exact zero h
      · exact ones h
    · obtain ⟨early, odd, busy, free⟩ := attestStart_row (s := s) i.toNat alg.toNat n
      exact ⟨fun a => (row _).trans (congrArg ok (early a)), fun a b => (row _).trans (congrArg ok (odd a b)),
        fun a b c => (row _).trans (congrArg ok (busy a b c)), fun a b c => (row _).trans (congrArg ok (free a b c))⟩
    · have error {e : Nat} (short : len ≤ 1024) (bad : objectBytes obj.toNat s = .error e) :
          exec (.readObject i obj off len) s = .next (answer 3 e [] s) := (row _).trans (congrArg ok (readObject_error short bad))
      have bytes {b : List Byte} (short : len ≤ 1024) (good : objectBytes obj.toNat s = .ok b) :
          exec (.readObject i obj off len) s = .next (answer 3 0 (slice b off len) s) :=
        (row _).trans (congrArg ok (readObject_bytes short good))
      refine ⟨fun long => (row _).trans (congrArg ok (readObject_long long)), fun short one => ?_, fun short two => ?_,
        fun short three => bytes short ?_, fun short one two three => error short (objectBytes_unknown ?_ ?_ ?_)⟩
      · subst one
        refine ⟨fun early => error short ?_, fun ready no => error short ?_, fun r ready free there => bytes short ?_⟩
        · exact objectBytes_report.trans (if_pos early)
        · refine objectBytes_report.trans ((if_neg (by rw [ready]; decide)).trans ?_)
          obtain busy | none := no
          · exact if_pos busy
          · rw [none]
            exact ite_self _
        · refine objectBytes_report.trans ((if_neg (by rw [ready]; decide)).trans ((if_neg (ne_true_of_eq_false free)).trans ?_))
          rw [there]
      · subst two
        cases ready : s.dev.ready with
        | true => exact bytes short (if_pos ready)
        | false => exact error short (if_neg (ne_true_of_eq_false ready))
      · subst three
        rfl
      · exact fun h => one (BitVec.eq_of_toNat_eq h)
      · exact fun h => two (BitVec.eq_of_toNat_eq h)
      · exact fun h => three (BitVec.eq_of_toNat_eq h)
    · refine (wake_row i aon).trans (congrArg ok ((if_pos ?_).trans ?_))
      · rw [wakeMay, standby]
        rfl
      · exact wakeUp_standby (s := vywin 5 i.toNat 0 [] s) standby
    · refine (wake_row i aon).trans (congrArg ok ((if_pos ?_).trans ?_))
      · rw [wakeMay, cold, cool]
        rfl
      · exact wakeUp_cold (s := vywin 5 i.toNat 0 [] s) cold cool
    · refine (wake_row i aon).trans (congrArg ok (if_neg ?_))
      simp only [wakeMay, Bool.or_eq_true, Bool.and_eq_true, beq_iff_eq]
      rintro (standby | ⟨cold, cool⟩)
      · exact other standby
      · exact hot.elim (· cold) fun h => Bool.false_ne_true (h.symm.trans cool)
  · have row (f : State → State) : ok (onSideband f s) = .next s := congrArg ok (onSideband_absent f off)
    exact ⟨row _, row _, row _, row _, row _, row _, row _, fun a n o len on => ⟨row _, row _, row _, row _⟩⟩

/-! ## Security operations (15 R511, R512, R519 to R521) -/

section
variable {c : Nat} {x : Cmd} {s : State}

/-- Without a running signature ATTEST_SIGNED finds nothing. -/
theorem attestSigned_idle (idle : s.sec.body = none ∨ s.sec.signing = []) : attestSigned s = s := by
  unfold attestSigned
  split
  next b who alg n rest body signing =>
    obtain none | empty := idle
    · exact absurd (none.symm.trans body) (nomatch ·)
    · exact absurd (empty.symm.trans signing) (nomatch ·)
  next => rfl

theorem attestSigned_ends {b n : List Byte} {who : Option Nat} {alg : Nat} {rest : List (Option Nat × Nat × List Byte)}
    (body : s.sec.body = some b) (signing : s.sec.signing = (who, alg, n) :: rest) :
    attestSigned s = startSigning (match who with
      | none => { s with sec.signing := rest, sec.body := none, sec.report := some (report alg b) }
      | some c => match cmdOf c s with
        | some y => finishCmd c 0 (BitVec.ofNat 32 (report alg b).length)
            (adminOut y (report alg b) { s with sec.signing := rest, sec.body := none })
        | none => { s with sec.signing := rest, sec.body := none }) := by
  unfold attestSigned
  split
  next b' who' alg' n' rest' body' signing' =>
    obtain rfl := Option.some.inj (body.symm.trans body')
    cases signing.symm.trans signing'
    cases who <;> rfl
  next none => exact (none _ _ _ _ _ body signing).elim

theorem ownerEnrol_row (d : List Byte) (now : adminNow 0xB2 s = some (c, x)) : exec (.ownerEnrol d) s = .next
    (if commitsRefused s then finishCmd c 0x0005 0x0B07 s
     else if s.led.ownerKey.isSome then finishCmd c 0x0005 0x0F06 s
     else if !enrolOk (adminIn x d) then finishCmd c 0x0002 0x0F07 s
     else finishCmd c 0 0 (ledCommit { s with led.ownerKey := some (slice (adminIn x d) 8 64) })) :=
  congrArg ok (asAdmin_now now _)

theorem fwStage_row (d : List Byte) (now : adminNow 0xB3 s = some (c, x)) : exec (.fwStage d) s = .next
    (match chunkBad (arg x 40 8) (adminIn x d).length s.sec.staged (bitN (arg x 48 1) 0) with
      | some why => finishCmd c 0x0002 (BitVec.ofNat 32 why) { s with sec.staged := 0, sec.stagedLast := false }
      | none => finishCmd c 0 0 (writeSlotAt (otherSlot s) (arg x 40 8) (adminIn x d)
          { s with sec.staged := arg x 40 8 + (adminIn x d).length, sec.stagedLast := bitN (arg x 48 1) 0 })) :=
  congrArg ok (asAdmin_now now _)

theorem fwCommit_eq (a : List Byte) : fwCommit c a s = match fwBad a s with
    | some (0x0402, why) => authRefused c why s
    | some (st, why) => finishCmd c st (BitVec.ofNat 32 why) s
    | none =>
      if runningVersion s ≤ fwVersionOf (slotImage (otherSlot s) s) then
        finishCmd c 0 (BitVec.ofNat 32 (otherSlot s)) { s with sec.pointer := otherSlot s, pow.boot.badPointer := false }
      else finishCmd c 0 (BitVec.ofNat 32 (otherSlot s))
        (let u := ledCommit { s with led.authSeq := authSeqOf a, sec.accepted := sat32 s.sec.accepted 1 }
         { u with sec.pointer := otherSlot s, pow.boot.badPointer := false }) := by
  have lands : (if runningVersion s ≤ fwVersionOf (slotImage (otherSlot s) s) then
        finishCmd c 0 (BitVec.ofNat 32 (otherSlot s)) { s with sec.pointer := otherSlot s, pow.boot.badPointer := false }
      else finishCmd c 0 (BitVec.ofNat 32 (otherSlot s))
        (let u := ledCommit { s with led.authSeq := authSeqOf a, sec.accepted := sat32 s.sec.accepted 1 }
         { u with sec.pointer := otherSlot s, pow.boot.badPointer := false })) =
      finishCmd c 0 (BitVec.ofNat 32 (otherSlot s)) (pointTo (otherSlot s)
        (if runningVersion s ≤ fwVersionOf (slotImage (otherSlot s) s) then s else ledCommit (authAccept a s))) := by
    split <;> rfl
  rw [lands]
  rfl

end

/-- Settles O54. -/
theorem securityOperations : Obligations.SecurityOperations := by
  intro c x s
  refine ⟨fun n now => ⟨fun known => congrArg ok ((asAdmin_now now _).trans (if_neg (by omega))),
    fun odd => congrArg ok ((asAdmin_now now _).trans (if_pos odd))⟩, ?_, fun now => congrArg ok (asAdmin_now now _),
    fun d now => ⟨fun refused => (ownerEnrol_row d now).trans (congrArg ok (if_pos refused)), fun takes owned => ?_,
      fun takes none bad => ?_, fun takes none good => ?_⟩,
    fun d now => ?_, fun d now => congrArg ok ((asAdmin_now now _).trans ((fwCommit_eq _).trans ?_))⟩
  · intro powered
    refine ⟨fun off => if_pos ?_, fun on idle => (if_neg ?_).trans (congrArg go (attestSigned_idle idle)),
      fun b n alg rest on body => ?_⟩
    · simpa [powered, or_iff_not_imp_left] using off
    · simpa [powered, not_or] using on
    · intro t
      have row {who : Option Nat} (signing : s.sec.signing = (who, alg, n) :: rest) :=
        (show exec .attestSigned s = go (attestSigned s) from if_neg (by simpa [powered, not_or] using on)).trans
          (congrArg go (attestSigned_ends body signing))
      refine ⟨fun signing => row signing, fun signing => ⟨fun y there => (row signing).trans (congrArg (fun u => go (startSigning u)) ?_),
        fun gone => (row signing).trans (congrArg (fun u => go (startSigning u)) ?_)⟩⟩
      · dsimp only
        rw [there]
      · dsimp only
        rw [gone]
  · rw [ownerEnrol_row d now, if_neg (ne_true_of_eq_false takes), if_pos owned]
  · rw [ownerEnrol_row d now, if_neg (ne_true_of_eq_false takes), none, if_neg (by decide), if_pos (by rw [bad]; rfl)]
  · rw [ownerEnrol_row d now, if_neg (ne_true_of_eq_false takes), none, if_neg (by decide), if_neg (by rw [good]; decide)]
  · intro b off last
    refine ⟨fun fine => ?_, fun why bad => ?_⟩
    · rw [fwStage_row d now, show chunkBad _ _ _ _ = none from fine]
    · rw [fwStage_row d now, show chunkBad _ _ _ _ = some why from bad]
  · rfl

end Sys2Proof.Machine
end

