-- ==== Sys2Proof/Proofs/RecordLines.lean ====
section
/-! SUPPORT. Sys2Proof/Proofs/RecordLines.lean: the admin operations on ledger records, the log, plan images, plan keys and
profiles (02 R47 to R73, 11 R419 to R423, 14 R493 to R502). -/

namespace Sys2Proof.Machine

/-! ## Async events leave the recorder alone (06 R242 to R244) -/

theorem signal_evr (p v : Nat) (s : State) : (signal p v s).evr = s.evr := by
  unfold signal updPort
  dsimp only
  split
  · exact setPort_evr ..
  · rfl

theorem maybeSignal_evr (r : Nat) (s : State) : (maybeSignal r s).evr = s.evr := by
  unfold maybeSignal
  dsimp only
  split
  · exact (signal_evr ..).trans (setRing_evr ..)
  · rfl

theorem stashCqe_evr (r : Nat) (c : Cqe) (s : State) : (stashCqe r c s).evr = s.evr := by
  unfold stashCqe updRing
  dsimp only
  split <;> exact setRing_evr ..

theorem postCqe_evr (r : Nat) (c : Cqe) (s : State) : (postCqe r c s).evr = s.evr := by
  unfold postCqe
  dsimp only
  split
  · rfl
  · rfl
  · exact stashCqe_evr ..
  · split
    · exact (maybeSignal_evr ..).trans (setRing_evr ..)
    · exact stashCqe_evr ..

theorem deliverEvents_evr (n p : Nat) (s : State) : (deliverEvents n p s).evr = s.evr := by
  induction n generalizing s with
  | zero => rfl
  | succ n ih =>
    unfold deliverEvents
    dsimp only
    split
    · split
      · rfl
      · exact (ih _).trans ((postCqe_evr ..).trans ((setRing_evr ..).trans (setPort_evr ..)))
    · rfl

theorem eventOn_evr (p typ obj : Nat) (data : Dword) (s : State) : (eventOn p typ obj data s).evr = s.evr :=
  (deliverEvents_evr ..).trans (setPort_evr ..)

theorem event_evr (typ obj data : Nat) (s : State) : (event typ obj data s).evr = s.evr := by
  unfold event
  dsimp only
  split
  · exact (eventOn_evr ..).trans (eventOn_evr ..)
  · exact eventOn_evr ..

/-! ## Host time and a cleared log (14 R498, R502) -/

/-- The host's time as the recorder holds it. -/
def hostClock (s : State) : Option (Nat × Nat) × Bool := (s.evr.hostTime, s.evr.backwards)

theorem hostClock_flushRecs (s : State) : hostClock (flushRecs s) = hostClock s := by
  unfold flushRecs
  split
  · rfl
  · dsimp only
    split
    · unfold hostClock
      rw [event_evr]
    · rfl

theorem hostClock_stageNew (r : EvRec) (s : State) : hostClock (addRec.stageNew r s) = hostClock s := by
  unfold addRec.stageNew
  dsimp only
  split
  · rfl
  · split
    · exact hostClock_flushRecs _
    · rfl

theorem hostClock_addRec (r : EvRec) (s : State) : hostClock (addRec r s) = hostClock s := by
  unfold addRec
  dsimp only
  split
  · rfl
  · split
    · split
      · rfl
      · exact hostClock_stageNew ..
    · split
      · rfl
      · exact hostClock_stageNew ..
    · exact hostClock_stageNew ..

/-- The first record of an empty staging stays there. -/
theorem addRec_first {r : EvRec} {s : State} (works : s.evr.memFailed = false) (staging : s.evr.staging = []) (log : s.evr.log = []) :
    addRec r s = { s with evr := { s.evr with staging := [{ r with seq := s.evr.nextSeq, dropsBefore := s.evr.drops }],
                                              nextSeq := (s.evr.nextSeq + 1) % 2 ^ 32, drops := false } } := by
  have staged : addRec r s = addRec.stageNew r s := by
    unfold addRec
    dsimp only
    rw [if_neg (ne_true_of_eq_false works), staging, log]
    rfl
  have room : ¬ 256 ≤ s.evr.staging.length := by rw [staging]; decide
  have few : ¬ 192 ≤ (s.evr.staging ++ [{ r with seq := s.evr.nextSeq, dropsBefore := s.evr.drops }]).length := by
    rw [staging]
    exact of_decide_eq_true rfl
  exact staged.trans ((if_neg room).trans ((if_neg few).trans (by rw [staging]; rfl)))

theorem flushRecs_addRec_first {r : EvRec} {s : State} (works : s.evr.memFailed = false) (power : nvOn s = true)
    (staging : s.evr.staging = []) (log : s.evr.log = []) (free : s.evr.full = false) :
    (flushRecs (addRec r s)).evr.staging = [] ∧ (flushRecs (addRec r s)).evr.log.length = 1 := by
  rw [addRec_first works staging log]
  obtain ⟨empty, moved⟩ := flushRecs_room
    (s := { s with evr := { s.evr with staging := [{ r with seq := s.evr.nextSeq, dropsBefore := s.evr.drops }],
                                       nextSeq := (s.evr.nextSeq + 1) % 2 ^ 32, drops := false } })
    works power (by show s.evr.log.length + 1 < logMax; rw [log]; decide) free
  exact ⟨empty, (congrArg List.length moved).trans (by rw [log]; rfl)⟩

theorem clearLog_logs {n : Nat} {s : State} (works : s.evr.memFailed = false) (power : nvOn s = true) :
    (clearLog n s).evr.staging = [] ∧ (clearLog n s).evr.log.length = 1 := by
  unfold clearLog
  dsimp only
  rw [event_evr]
  exact flushRecs_addRec_first (s := { s with evr := { s.evr with log := [], staging := [], full := false, notLogged := 0, drops := false } })
    works power rfl rfl rfl

/-! ## Authorisations and shared records (02 R47; 06 R236, R238; 10 R372) -/

theorem finishCmd_led (c : Nat) (st : BitVec 16) (r : Dword) (s : State) : (finishCmd c st r s).led = s.led := by
  unfold finishCmd
  split
  · rfl
  · dsimp only
    split
    · exact (sameButEvents_postCqe ..).led.trans ((sameButEvents_setRing ..).led.trans rfl)
    · refine (sameButEvents_postNvme ..).led.trans ?_
      split
      · exact (sameButEvents_countNvme ..).led
      · rfl
    · exact (sameButEvents_endRange ..).led
    · exact sendPair_led ..
    · rfl

section
variable {c op : Nat} {av a : List Byte} {f : State → State} {s : State}

theorem withAuth_refused (refused : commitsRefused s = true) : withAuth c op av a f s = finishCmd c 0x0005 0x0B07 s := if_pos refused

theorem withAuth_absent (takes : commitsRefused s = false) (absent : a = [] ∨ s.led.ownerKey = none) :
    withAuth c op av a f s = finishCmd c 0x0401 0 s :=
  (if_neg (ne_true_of_eq_false takes)).trans (if_pos (by simpa using absent))

theorem withAuth_given (takes : commitsRefused s = false) (given : a ≠ []) (owned : s.led.ownerKey.isSome = true) :
    withAuth c op av a f s = if authOk op av a s then f s else authRefused c 0 s := by
  have there : ¬ (a.isEmpty || s.led.ownerKey.isNone) = true := by
    simp [given, Option.isNone_iff_eq_none, Option.isSome_iff_ne_none.mp owned]
  refine (if_neg (ne_true_of_eq_false takes)).trans ((if_neg there).trans ?_)
  cases authOk op av a s <;> rfl

theorem commitGate_refused (refused : commitsRefused s = true) : commitGate c f s = finishCmd c 0x0005 0x0B07 s := if_pos refused

theorem commitGate_takes (takes : commitsRefused s = false) : commitGate c f s = f s := if_neg (ne_true_of_eq_false takes)

theorem asAdmin_none {opcode : Nat} {g : Nat → Cmd → State → State} (none : adminNow opcode s = none) : asAdmin opcode g s = s := by
  unfold asAdmin
  rw [none]

theorem changeShared_alone {q : Bool} {r : SharedRec} (alone : s.led.paired = false) :
    changeShared c q r s none = if (applyShared r true s).plan.switching || (applyShared r true s).plan.quiesceSince.isSome then
        updCmd c (fun x => { x with ph := .waiting }) { applyShared r true s with plan.waiter := some c }
      else finishCmd c 0 0 (applyShared r true s) := if_pos (by rw [alone]; rfl)

theorem changeShared_settled {q : Bool} {r : SharedRec} (alone : s.led.paired = false)
    (settled : (applyShared r true s).plan = s.plan) (idle : s.plan.switching = false) (quiet : s.plan.quiesceSince = none) :
    changeShared c q r s none = finishCmd c 0 0 (applyShared r true s) :=
  (changeShared_alone alone).trans (if_neg (by rw [settled, idle, quiet]; decide))

theorem changeShared_auth {q : Bool} {r : SharedRec} {n : Nat} (alone : s.led.paired = false) :
    changeShared c q r s (some n) = changeShared c q r { s with led.authSeq := n, sec.accepted := sat32 s.sec.accepted 1 } none :=
  (if_pos (by rw [alone]; rfl)).trans (if_pos (by show (!s.led.paired) = true; rw [alone]; rfl)).symm

end

/-- Settles O53. -/
theorem adminRecordOperations : Obligations.AdminRecordOperations := by
  intro c x s
  refine ⟨fun now => congrArg ok (asAdmin_now now _), fun now => ?_, fun r now => ?_, fun now => ?_, fun d now => ?_,
    fun now => congrArg ok (asAdmin_now now _), fun d now => ?_, fun now => congrArg ok (asAdmin_now now _), fun now => ?_⟩
  · intro d
    exact ⟨fun there => congrArg ok ((asAdmin_now now _).trans (if_neg (by rw [there]; decide))),
      fun gone => congrArg ok ((asAdmin_now now _).trans (if_pos (by rw [gone]; rfl)))⟩
  · have row : exec (.ledgerSet r) s = .next (match setBad (arg x 40 2) (arg x 42 2) r s with
        | some (st, why) => finishCmd c st (BitVec.ofNat 32 why) s
        | none => setRecord c r s) := congrArg ok (asAdmin_now now _)
    refine ⟨fun st why bad => by rw [row, bad], fun fine => ?_⟩
    rw [fine] at row
    refine ⟨fun n paired peer kind => ?_, fun ctx vec kind => ?_, fun v t kind => ?_, fun ways lock vc kind => ?_, fun b kind => ?_⟩ <;>
      subst kind <;> exact row
  · have row : exec .ledgerLock s = .next (if commitsRefused s then finishCmd c 0x0005 0x0B07 s
        else if s.led.ownerKey.isNone then finishCmd c 0x0005 0 s else finishCmd c 0 0 (ledCommit { s with led.locked := true })) :=
      congrArg ok (asAdmin_now now _)
    refine ⟨fun refused => by rw [row, if_pos refused], fun takes owned => ?_, fun takes none => ?_⟩
    · rw [row, if_neg (ne_true_of_eq_false takes), if_neg (by simpa using Option.isSome_iff_ne_none.mp owned)]
    · rw [row, if_neg (ne_true_of_eq_false takes), if_pos (by rw [none]; rfl)]
  · intro a
    have row := congrArg ok (asAdmin_now now (fun c x s =>
      withAuth c (if leAt (adminIn x d) 6 2 == 8 then 8 else 5) [] (adminIn x d) (fun s =>
        finishCmd c 0 0 (ledCommit (if leAt (adminIn x d) 6 2 == 8 then
          { authAccept (adminIn x d) { s with led.locked := false } with led.ownerKey := none }
          else authAccept (adminIn x d) { s with led.locked := false }))) s))
    refine ⟨fun refused => row.trans (congrArg ok (withAuth_refused refused)),
      fun takes absent => row.trans (congrArg ok (withAuth_absent takes absent)), fun takes given owned => ?_⟩
    have goes := row.trans (congrArg ok (withAuth_given takes given owned))
    refine ⟨fun unlock => goes.trans ?_, fun release => goes.trans ?_⟩
    · rw [show (leAt (adminIn x d) 6 2 == 8) = false from beq_eq_false_iff_ne.mpr unlock]
      rfl
    · rw [show (leAt (adminIn x d) 6 2 == 8) = true from beq_iff_eq.mpr release]
      rfl
  · intro a
    have row := congrArg ok (asAdmin_now now (fun c x s => withAuth c 1 [] (adminIn x d) (fun s =>
      if s.evr.memFailed then finishCmd c 0x0005 0x0E01 s
      else finishCmd c 0 0 (clearLog (authSeqOf (adminIn x d)) (ledCommit (authAccept (adminIn x d) s)))) s))
    refine ⟨fun refused => row.trans (congrArg ok (withAuth_refused refused)),
      fun takes absent => row.trans (congrArg ok (withAuth_absent takes absent)),
      fun takes given owned => row.trans (congrArg ok ((withAuth_given takes given owned).trans ?_)),
      fun t works power => clearLog_logs works power⟩
    cases authOk 1 [] (adminIn x d) s <;> rfl
  · intro t
    have clock : hostClock t = (_, _) := hostClock_addRec ..
    exact ⟨congrArg ok (asAdmin_now now _), congrArg Prod.fst clock, congrArg Prod.snd clock⟩

/-! ## Plan images and keys (02 R47 to R53, R549; 06 R237) -/

section
variable {c : Nat} {x : Cmd} {s : State}

theorem chunkBad_none {off len staged : Nat} {last : Bool} (there : off = staged ∨ off = 0) (whole : last = true ∨ len % 4096 = 0) :
    chunkBad off len staged last = none := by
  refine (if_neg ?_).trans (if_neg ?_)
  · obtain rfl | rfl := there <;> simp
  · obtain h | h := whole <;> simp [h]

theorem chunkBad_ragged {off len staged : Nat} {last : Bool} (there : off = staged ∨ off = 0) (more : last = false)
    (ragged : len % 4096 ≠ 0) : chunkBad off len staged last = some 0x0022 := by
  refine (if_neg ?_).trans (if_pos (by simp [more, ragged]))
  obtain rfl | rfl := there <;> simp

theorem chunkBad_apart {off len staged : Nat} {last : Bool} (apart : off ≠ staged) (later : off ≠ 0) :
    chunkBad off len staged last = some 0x0021 := if_pos (by simp [apart, later])

/-- PLAN_STAGE while commits are taken. -/
theorem planStage_row (d : List Byte) (now : adminNow 0x88 s = some (c, x)) (takes : commitsRefused s = false) :
    exec (.planStage d) s = .next (match chunkBad (arg x 40 8) (adminIn x d).length s.led.staging.length (bitN (arg x 48 1) 0) with
      | some why => finishCmd c 0x0002 (BitVec.ofNat 32 why) (ledCommit { s with led.staging := [], led.stagingLast := false })
      | none => finishCmd c 0 0 (ledCommit { s with
          led.staging := if arg x 40 8 = 0 then adminIn x d else s.led.staging ++ adminIn x d,
          led.stagingLast := bitN (arg x 48 1) 0 })) :=
  congrArg ok ((asAdmin_now now _).trans (commitGate_takes takes))

theorem planSwitch_idle (idle : s.plan.switching = false ∨ s.led.active = none) : planSwitch s = s := by
  unfold planSwitch
  split
  next b switching active =>
    obtain off | none := idle
    · exact absurd (off.symm.trans switching) (nomatch ·)
    · exact absurd (none.symm.trans active) (nomatch ·)
  next => rfl

theorem planSwitch_runs {b : List Byte} (switching : s.plan.switching = true) (active : s.led.active = some b) : planSwitch s =
    if opsStarted s then s
    else placeHeld (jointApplied (endWait (startCkpt (bindJnl (meetMembers (loadImage b { s with plan.switching := false })))))) := by
  unfold planSwitch
  split
  next b' on active' =>
    obtain rfl := Option.some.inj (active.symm.trans active')
    rfl
  next none => exact (none b switching active).elim

/-- The keys that a key operation of an unpaired module leaves, and the one commit that it makes. -/
theorem changeKeys_alone {ks : List (List Byte)} (alone : s.led.paired = false) (idle : s.plan.switching = false)
    (quiet : s.plan.quiesceSince = none) :
    (changeShared c false (.planKeys ks) s none).led.keys = ks ∧
    (changeShared c false (.planKeys ks) s none).led.seq = s.led.seq + 1 := by
  rw [changeShared_settled alone rfl idle quiet, finishCmd_led]
  exact ⟨rfl, rfl⟩

/-- PLAN_KEY_INSTALL of a key, with the authorisation sequence that it takes (02 R549). -/
def keyInstall (c : Nat) (k : List Byte) (auth : Option Nat) (s : State) : State :=
  if k ∈ s.led.keys then keyUnchanged c auth s
  else if s.led.keys.any (fun y => keyTag y == keyTag k) then finishCmd c 0x0002 0x0015 s
  else if 4 ≤ s.led.keys.length then finishCmd c 0x0005 0x0012 s
  else if commitsRefused s = true then finishCmd c 0x0005 0x0B07 s
  else changeShared c false (.planKeys (s.led.keys ++ [k])) s auth

/-- PLAN_KEY_REMOVE of the key with a tag (02 R48, R549). -/
def keyRemove (c : Nat) (h : List Byte) (auth : Option Nat) (s : State) : State :=
  match s.led.keys.find? (fun y => keyTag y == h) with
  | none => finishCmd c 0x0002 0x0013 s
  | some k =>
    if s.led.active.map imgSigner = some (Config.sha256 k) then finishCmd c 0x0002 0x0014 s
    else if commitsRefused s = true then finishCmd c 0x0005 0x0B07 s
    else changeShared c false (.planKeys (s.led.keys.filter (· != k))) s auth

theorem planKeyInstall_row (d : List Byte) (now : adminNow 0x8A s = some (c, x)) : exec (.planKeyInstall d) s =
    .next (keyAuth c 6 ((Config.sha256 ((adminIn x d).take 64)).take 24) ((adminIn x d).drop 64)
      (keyInstall c ((adminIn x d).take 64)) s) := by
  refine congrArg ok ((asAdmin_now now _).trans ?_)
  refine congrArg (fun f => keyAuth c 6 _ _ f s) (funext fun auth => funext fun t => ?_)
  unfold keyInstall
  simp only [List.contains_iff_mem]
  rfl

theorem planKeyRemove_row (d : List Byte) (now : adminNow 0x8B s = some (c, x)) : exec (.planKeyRemove d) s =
    .next (keyAuth c 7 (slice x.entry 40 8) (adminIn x d) (keyRemove c (slice x.entry 40 8)) s) := by
  refine congrArg ok ((asAdmin_now now _).trans ?_)
  refine congrArg (fun f => keyAuth c 7 _ _ f s) (funext fun auth => funext fun t => ?_)
  unfold keyRemove
  simp only [beq_iff_eq]
  rfl

theorem keyAuth_unowned {op : Nat} {av a : List Byte} {f : Option Nat → State → State} (free : s.led.ownerKey = none) :
    keyAuth c op av a f s = f none s := if_pos (by rw [free]; rfl)

theorem keyAuth_owned {op : Nat} {av a : List Byte} {f : Option Nat → State → State} (owned : s.led.ownerKey.isSome = true) :
    keyAuth c op av a f s = withAuth c op av a (f (some (authSeqOf a))) s :=
  if_neg (by simpa using Option.isSome_iff_ne_none.mp owned)

theorem keyInstall_known {k : List Byte} (known : k ∈ s.led.keys) : keyInstall c k none s = finishCmd c 0 1 s := if_pos known

theorem keyInstall_new {k : List Byte} (new : k ∉ s.led.keys) (apart : s.led.keys.any (fun y => keyTag y == keyTag k) = false)
    (room : s.led.keys.length < 4) (takes : commitsRefused s = false) :
    keyInstall c k none s = changeShared c false (.planKeys (s.led.keys ++ [k])) s none :=
  (if_neg new).trans ((if_neg (ne_true_of_eq_false apart)).trans ((if_neg (by omega)).trans (if_neg (ne_true_of_eq_false takes))))

theorem keyRemove_found {h k : List Byte} (found : s.led.keys.find? (fun y => keyTag y == h) = some k)
    (unused : s.led.active.map imgSigner ≠ some (Config.sha256 k)) (takes : commitsRefused s = false) :
    keyRemove c h none s = changeShared c false (.planKeys (s.led.keys.filter (· != k))) s none := by
  unfold keyRemove
  rw [found]
  exact (if_neg unused).trans (if_neg (ne_true_of_eq_false takes))

end

/-- Settles O49. -/
theorem planImagesAndKeys : Obligations.PlanImagesAndKeys := by
  intro s
  refine ⟨fun d => ⟨fun none => congrArg ok (asAdmin_none none), fun c x now => ?_⟩,
    ⟨fun none => congrArg go (asAdmin_none none), fun c x now => ?_⟩,
    ⟨fun idle => congrArg go (planSwitch_idle idle), fun b switching active =>
      ⟨fun started => congrArg go ((planSwitch_runs switching active).trans (if_pos started)),
        fun rests => congrArg go ((planSwitch_runs switching active).trans (if_neg (ne_true_of_eq_false rests)))⟩⟩,
    fun d => ⟨fun none => congrArg ok (asAdmin_none none), fun c x now => ?_⟩,
    fun d => ⟨fun none => congrArg ok (asAdmin_none none), fun c x now => ?_⟩⟩
  · intro b last failed
    refine ⟨fun refused => congrArg ok ((asAdmin_now now _).trans (commitGate_refused refused)), fun takes there =>
      ⟨fun whole => ?_, fun more ragged => ?_⟩, fun takes apart later => ?_⟩
    · rw [planStage_row d now takes, chunkBad_none there whole]
    · rw [planStage_row d now takes, chunkBad_ragged there more ragged]
      rfl
    · rw [planStage_row d now takes, chunkBad_apart apart later]
      rfl
  · have row := asAdmin_now now (fun c _ s => commitGate c (fun s =>
      if !s.led.stagingLast then finishCmd c 0x0005 0x0023 s
      else match stagedBad s with
        | some (st, why) => finishCmd c st (BitVec.ofNat 32 why) s
        | none => changeShared c true (.planImage s.led.staging) s) s)
    exact ⟨fun refused => congrArg go (row.trans (commitGate_refused refused)),
      fun takes open_ => congrArg go (row.trans ((commitGate_takes takes).trans (if_pos (by rw [open_]; rfl)))),
      fun takes last => congrArg go (row.trans ((commitGate_takes takes).trans (if_neg (by rw [last]; decide))))⟩
  · intro k a install
    refine ⟨fun none => ?_, fun owned => (planKeyInstall_row d now).trans (congrArg ok (keyAuth_owned owned))⟩
    have row := (planKeyInstall_row d now).trans (congrArg ok (keyAuth_unowned none))
    exact ⟨row, fun known => row.trans (congrArg ok (keyInstall_known known)),
      fun alone idle quiet new apart room takes => ⟨_, row.trans (congrArg ok (keyInstall_new new apart room takes)),
        changeKeys_alone alone idle quiet⟩⟩
  · intro h a remove
    refine ⟨fun none => ?_, fun owned => (planKeyRemove_row d now).trans (congrArg ok (keyAuth_owned owned))⟩
    have row := (planKeyRemove_row d now).trans (congrArg ok (keyAuth_unowned none))
    exact ⟨row, fun k alone idle quiet takes found unused =>
      ⟨_, row.trans (congrArg ok (keyRemove_found found unused takes)), changeKeys_alone alone idle quiet⟩⟩

/-! ## Profiles (02 R66 to R73) -/

section
variable {c : Nat} {x : Cmd} {s : State}

theorem profileWrite_row (p : Profile) (now : adminNow 0xA1 s = some (c, x)) : exec (.profileWrite p) s = .next (settle
    (if s.led.locked then finishCmd c 0x0401 0 s
     else if decide (4 ≤ arg x 40 1) || !profileOk p then finishCmd c 0x0002 0 s
     else commitGate c (changeShared c (s.dev.profile.toNat == arg x 40 1 || (pairUp s && s.pair.peerProfile == arg x 40 1))
       (.profile (Fin.ofNat 4 (arg x 40 1)) p)) s)) := congrArg go (asAdmin_now now _)

theorem changeProfile_alone {q : Bool} {n : Nat} {p : Profile} (four : n < 4) (alone : s.led.paired = false)
    (idle : s.plan.switching = false) (quiet : s.plan.quiesceSince = none) (other : s.dev.profile.toNat ≠ n) :
    changeShared c q (.profile (Fin.ofNat 4 n) p) s none =
      finishCmd c 0 0 (ledCommitRec (0x20 * 65536 + n) { s with led.profiles := tset s.led.profiles n p }) := by
  have number : (Fin.ofNat 4 n).val = n := Nat.mod_eq_of_lt four
  have lands : applyShared (.profile (Fin.ofNat 4 n) p) true s =
      ledCommitRec (0x20 * 65536 + n) { s with led.profiles := tset s.led.profiles n p } := by
    refine (if_neg ?_).trans (by rw [number])
    rw [number]
    exact other
  rw [changeShared_settled alone (by rw [lands]; rfl) idle quiet, lands]

theorem profileSelect_row (now : adminNow 0xA2 s = some (c, x)) : exec .profileSelect s = .next (settle
    (if s.led.profLock.isSome then finishCmd c 0x0401 0 s
     else if 4 ≤ arg x 40 1 then finishCmd c 0x0002 0 s
     else changeShared c true (.profileInForce (Fin.ofNat 4 (arg x 40 1))) s)) := congrArg go (asAdmin_now now _)

theorem selectProfile_alone {n : Nat} (four : n < 4) (alone : s.led.paired = false) :
    changeShared c true (.profileInForce (Fin.ofNat 4 n)) s none = updCmd c (fun y => { y with ph := .waiting })
      { s with plan := { s.plan with quiesceSince := some ((s.pair.jq.map (·.since)).getD s.now), nextProfile := some n,
                                     waiter := some c } } := by
  have number : (Fin.ofNat 4 n).val = n := Nat.mod_eq_of_lt four
  refine (changeShared_alone alone).trans ((if_pos (by rw [applyShared, profileChange]; simp)).trans ?_)
  rw [applyShared, number]
  rfl

theorem profileLock_row (d : List Byte) (now : adminNow 0xA3 s = some (c, x)) : exec (.profileLock d) s = .next
    (if 4 ≤ arg x 40 1 then finishCmd c 0x0002 0 s
     else withAuth c 3 (slice x.entry 40 2) (adminIn x d) (fun s => changeShared c false
       (.profileLock (if bitN (arg x 41 1) 0 then none else some (Fin.ofNat 4 (arg x 40 1)))) s (some (authSeqOf (adminIn x d)))) s) :=
  congrArg ok (asAdmin_now now _)

theorem lockProfile_alone {l : Option (Fin 4)} {n : Nat} (alone : s.led.paired = false) (idle : s.plan.switching = false)
    (quiet : s.plan.quiesceSince = none) : changeShared c false (.profileLock l) s (some n) = finishCmd c 0 0
      (ledCommitRec (0x21 * 65536) { s with
        led.authSeq := n, led.profLock := l.map Fin.val, sec.accepted := sat32 s.sec.accepted 1 }) :=
  (changeShared_auth alone).trans (changeShared_settled (s := { s with led.authSeq := n, sec.accepted := sat32 s.sec.accepted 1 })
    alone rfl idle quiet)

theorem quiesceApply_profile {t m : Nat} (since : s.plan.quiesceSince = some t) (next : s.plan.nextProfile = some m) :
    quiesceApply s = placeHeld (jointApplied (endWait (setCap (putProfile m
      { (if opsStarted s then timeTo (t + 1000000) s else s) with plan.quiesceSince := none, plan.nextProfile := none })))) := by
  unfold quiesceApply
  split
  next t' m' since' next' =>
    obtain rfl := Option.some.inj (since.symm.trans since')
    obtain rfl := Option.some.inj (next.symm.trans next')
    rfl
  next none => exact (none t m since next).elim

theorem quiesceApply_joint (no : s.plan.quiesceSince = none ∨ s.plan.nextProfile = none) : quiesceApply s = match s.pair.jq with
    | some q => if q.bounded && !q.ownDone then quiesceOwn (timeTo (q.since + 1000000) s) else s
    | none => s := by
  unfold quiesceApply
  split
  next t m since next =>
    obtain none | none := no
    · exact absurd (none.symm.trans since) (nomatch ·)
    · exact absurd (none.symm.trans next) (nomatch ·)
  next => rfl

end

/-- Settles O50. -/
theorem profileOperations : Obligations.ProfileOperations := by
  refine ⟨fun c x s => ⟨fun now => ?_, fun p now => ?_, fun now => ?_, fun d now => ?_⟩, fun p d s => ?_, fun s => ⟨?_, ?_⟩⟩
  · exact ⟨fun four => congrArg ok ((asAdmin_now now _).trans (if_neg (by omega))),
      fun far => congrArg ok ((asAdmin_now now _).trans (if_pos far))⟩
  · have row := profileWrite_row p now
    refine ⟨fun locked => by rw [row, if_pos locked], fun free bad => ?_, fun free four sound refused => ?_,
      fun free four sound takes => ?_⟩
    · rw [row, if_neg (ne_true_of_eq_false free), if_pos (by simpa using bad)]
    · rw [row, if_neg (ne_true_of_eq_false free), if_neg (by simp [sound]; omega), commitGate_refused refused]
    · rw [row, if_neg (ne_true_of_eq_false free), if_neg (by simp [sound]; omega), commitGate_takes takes]
      exact ⟨rfl, fun alone idle quiet other => by rw [changeProfile_alone four alone idle quiet other]⟩
  · have row := profileSelect_row now
    refine ⟨fun locked => by rw [row, if_pos locked], fun free far => ?_, fun free four => ?_⟩
    · rw [row, if_neg (by rw [free]; decide), if_pos far]
    · rw [row, if_neg (by rw [free]; decide), if_neg (by omega)]
      exact ⟨rfl, fun alone => by rw [selectProfile_alone four alone]⟩
  · intro a lock
    have row := profileLock_row d now
    have lock_ : (if bitN (arg x 41 1) 0 then none else some (Fin.ofNat 4 (arg x 40 1)) : Option (Fin 4)) = lock.map (Fin.ofNat 4) := by
      cases h : bitN (arg x 41 1) 0 <;> simp [lock, h]
    rw [lock_] at row
    refine ⟨fun far => by rw [row, if_pos far], fun four => by rw [row, if_neg (by omega)],
      fun four takes given owned alone idle quiet => ?_⟩
    have number : (lock.map (Fin.ofNat 4)).map Fin.val = lock := by
      cases h : bitN (arg x 41 1) 0
      · simp [lock, h, Nat.mod_eq_of_lt four]
      · simp [lock, h]
    rw [row, if_neg (by omega), withAuth_given takes given owned, lockProfile_alone alone idle quiet, number]
  · exact ⟨fun none => congrArg ok (asAdmin_none none), fun none => congrArg go (asAdmin_none none),
      fun none => congrArg go (asAdmin_none none), fun none => congrArg ok (asAdmin_none none)⟩
  · intro t m since next s1
    have row := congrArg go (quiesceApply_profile since next)
    exact ⟨fun rests => row.trans (by rw [if_neg (ne_true_of_eq_false rests)]; rfl),
      fun started => row.trans (by rw [if_pos started]; rfl)⟩
  · intro no
    have row := congrArg go (quiesceApply_joint no)
    refine ⟨fun q runs bounded open_ => row.trans ?_, fun none => row.trans (congrArg go ?_)⟩
    · rw [runs]
      exact congrArg go (if_pos (by rw [bounded, open_]; rfl))
    · cases runs : s.pair.jq with
      | none => rfl
      | some q => exact if_neg (by obtain h | h := none q runs <;> simp [h])

end Sys2Proof.Machine
end

