-- ==== Sys2Proof/Proofs/ClocksAndUpkeep.lean ====
section
/-! SUPPORT. Sys2Proof/Proofs/ClocksAndUpkeep.lean: clocks, the margin plan and sensor masks (13 R454, R462 to R470); restored
vault pages and the upkeep of the ledger (11 R411 to R424). -/

namespace Sys2Proof.Machine

/-! ## VDD_CORE and clocks (13 R462, R466, R468) -/

theorem vidSteps_eq (n a b : Nat) (s : State) :
    vidSteps n a b s = { s with out := (vidSteps n a b s).out, therm.vid := (vidSteps n a b s).therm.vid } := by
  induction n generalizing a s with
  | zero => rfl
  | succ n ih =>
    unfold vidSteps
    split
    · rfl
    · exact (ih _ _).trans rfl

theorem setVid_eq (c : Nat) (s : State) : setVid c s = { s with out := (setVid c s).out, therm.vid := (setVid c s).therm.vid } :=
  vidSteps_eq ..

/-- Steps enough bring CORE_VID to its code. -/
theorem vidSteps_vid {n a b : Nat} {s : State} (from_ : s.therm.vid = a) (near : a ≤ b + n) (near' : b ≤ a + n) :
    (vidSteps n a b s).therm.vid = b := by
  induction n generalizing a s with
  | zero =>
    have same : a = b := by omega
    exact from_.trans same
  | succ n ih =>
    unfold vidSteps
    split
    next same => exact from_.trans same
    next apart => exact ih rfl (by split <;> omega) (by split <;> omega)

theorem setVid_vid {c : Nat} {s : State} (low : s.therm.vid ≤ 10) (code : c ≤ 10) : (setVid c s).therm.vid = c :=
  (vidSteps_vid rfl (by omega) (by omega)).trans (by omega)

theorem clockRelockDone_row {k : Nat} {s : State} (relocks : s.therm.relock = some k) : exec .clockRelockDone s =
    .next (settle (setVid (if k = 0 then s.therm.code else 0)
      { s with therm.relock := none, therm.coreLock := true, therm.clk := k })) := by
  show execClockRelockDone s = _
  unfold execClockRelockDone
  rw [relocks]
  rfl

theorem clockRelockDone_none {s : State} (none : s.therm.relock = none) : exec .clockRelockDone s = .next s := by
  show execClockRelockDone s = _
  unfold execClockRelockDone
  rw [none]
  rfl

/-- A group's PLL that locks sends what waited for it. -/
theorem startGroup_therm (g : Nat) (s : State) :
    (startGroup g s).therm = { s.therm with groupLock := s.therm.groupLock ||| BitVec.ofNat 16 (2 ^ g) } := by
  unfold startGroup
  dsimp only
  refine List.foldlRecOn _ _ (motive := fun t : State =>
    t.therm = { s.therm with groupLock := s.therm.groupLock ||| BitVec.ofNat 16 (2 ^ g) }) rfl fun t same e _ => ?_
  split <;> exact same

theorem getLsbD_twoPow16 (g i : Nat) (small : i < 16) : (BitVec.ofNat 16 (2 ^ g)).getLsbD i = (i == g) := by
  rw [BitVec.getLsbD_ofNat, Nat.testBit_two_pow, decide_eq_true small, Bool.true_and]
  exact Bool.eq_iff_iff.mpr ⟨fun h => beq_iff_eq.mpr (of_decide_eq_true h).symm, fun h => decide_eq_true (beq_iff_eq.mp h).symm⟩

/-- The lock that a PLL's domain has. -/
def lockOf (p : Pll) (b : Bool) (s t : State) : Prop :=
  (match p with
    | .core => t.therm.coreLock = b
    | .dram => t.therm.dramLock = b
    | .hostSerdes => t.therm.hostLock = b
    | .group n => ∀ i < 16, t.therm.groupLock.getLsbD i = if b then (s.therm.groupLock.getLsbD i || i == n.val)
        else (s.therm.groupLock.getLsbD i && i != n.val)) ∧ t.therm.clk = s.therm.clk

theorem setLock_lockOf (p : Pll) (b : Bool) (s : State) : lockOf p b s (setLock p b s) := by
  cases p with
  | core => exact ⟨rfl, rfl⟩
  | dram => exact ⟨rfl, rfl⟩
  | hostSerdes => exact ⟨rfl, rfl⟩
  | group n =>
    cases b with
    | true =>
      have therm : (setLock (.group n) true s).therm = _ := startGroup_therm n.val s
      unfold lockOf
      rw [therm]
      refine ⟨fun i small => ?_, rfl⟩
      rw [BitVec.getLsbD_or, getLsbD_twoPow16 n.val i small]
      rfl
    | false =>
      refine ⟨fun i small => ?_, rfl⟩
      show (s.therm.groupLock &&& ~~~ BitVec.ofNat 16 (2 ^ n.val)).getLsbD i = _
      rw [BitVec.getLsbD_and, BitVec.getLsbD_not, getLsbD_twoPow16 n.val i small, decide_eq_true small, Bool.true_and]
      rfl

theorem raiseOpen_therm (src : Nat) (s : State) : (raiseOpen src s).therm = s.therm := by
  unfold raiseOpen raise
  dsimp only
  split <;> rfl

/-! ## The margin plan (13 R469, R470) -/

/-- What the margin plan writes of the plan in force. -/
def planView (t : ThermSt) : Option Nat × Nat × Bool × Nat × Bool × Nat :=
  (t.planVid, t.planCeiling, t.planAgain, t.planHours, t.planValid, t.steps)

theorem setVid_plan (c : Nat) (s : State) : planView (setVid c s).therm = planView s.therm ∧ (setVid c s).therm.code = s.therm.code ∧
    (setVid c s).therm.ceiling = s.therm.ceiling ∧ (setVid c s).led = s.led := by
  rw [setVid_eq]
  exact ⟨rfl, rfl, rfl, rfl⟩

theorem applyPlan_plan (code ceiling : Nat) (s : State) : planView (applyPlan code ceiling s).therm = planView s.therm ∧
    (applyPlan code ceiling s).therm.code = code ∧ (applyPlan code ceiling s).therm.ceiling = ceiling ∧
    (applyPlan code ceiling s).led = s.led := by
  have rises (b : Prop) [Decidable b] : ∃ t : State, (if b then setVid code { s with therm.code := code } else
      { s with therm.code := code }) = t ∧ planView t.therm = planView s.therm ∧ t.therm.code = code ∧ t.led = s.led := by
    refine ⟨_, rfl, ?_⟩
    split
    · obtain ⟨plan, kept, -, led⟩ := setVid_plan code { s with therm.code := code }
      exact ⟨plan, kept, led⟩
    · exact ⟨rfl, rfl, rfl⟩
  unfold applyPlan
  dsimp only
  obtain ⟨t, raised, plan, kept, led⟩ := rises ((s.therm.relock.getD s.therm.clk == 0 && decide (s.therm.code < code)) = true)
  rw [raised]
  have lands : ∃ u : State, (if ceiling = t.therm.ceiling then t
      else if (s.therm.relock.getD s.therm.clk == 0) = true then startRelock 0 { t with therm.ceiling := ceiling }
      else { t with therm.ceiling := ceiling }) = u ∧ planView u.therm = planView s.therm ∧ u.therm.code = code ∧
        u.therm.ceiling = ceiling ∧ u.led = s.led := by
    refine ⟨_, rfl, ?_⟩
    split
    next same => exact ⟨plan, kept, same.symm, led⟩
    next => split <;> exact ⟨plan, kept, rfl, led⟩
  obtain ⟨u, set, plan, kept, top, led⟩ := lands
  rw [set]
  split
  · obtain ⟨plan', kept', top', led'⟩ := setVid_plan code u
    exact ⟨plan'.trans plan, kept'.trans kept, top'.trans top, led'.trans led⟩
  · exact ⟨plan, kept, top, led⟩

theorem noteHour_eq (f : HourLog → HourLog) (s : State) :
    noteHour f s = { s with therm.hours := (noteHour f s).therm.hours } := rfl

/-- The hours' record of the margin plan touches nothing but itself. -/
theorem noteWords_eq (s : State) : noteWords s = { s with therm := { s.therm with
    hours := (noteWords s).therm.hours, dramSeen := s.cache.dramCorr, mramSeen := s.pow.mramCorr } } := by
  unfold noteWords
  dsimp only
  split <;> rfl

/-- The state as the margin plan reads it. -/
def planReads (s : State) : State := noteHour id (noteWords s)

theorem planReads_opSeconds (s : State) : opSeconds (planReads s) = opSeconds s ∧ (planReads s).led = s.led := by
  rw [planReads, noteHour_eq, noteWords_eq]
  exact ⟨rfl, rfl⟩

/-- The state when the margin plan is due. -/
def planDue (s : State) : State := if s.therm.planAgain then s else timeToOp ((s.therm.planHours + 720) * 3600) s

theorem marginPlan_refused {m : MarginInputs} {s : State} (refused : commitsRefused (planDue s) = true) :
    marginPlan m s = { planDue s with therm.planAgain := true } := if_pos refused

/-- The committed plan, before it takes effect. -/
def planCommitted (m : MarginInputs) (code ceiling : Nat) (s : State) : State :=
  ledCommit (halveCounts { s with therm := { s.therm with
    planVid := some code, planCeiling := ceiling, planHours := opSeconds s / 3600, planValid := true, refresh := planRefresh s,
    scrubH := planScrub s, wear := wearNow s, planTwins := m.twins, planAgain := false, steps := 0, lowSlack := [] } })

/-- The margin plan's effect at its point: code, ceiling, and whether the rule is met. -/
def planEnds (m : MarginInputs) (s : State) (point : Nat × Nat × Bool) : State :=
  if point.2.2 then applyPlan point.1 point.2.1 (planCommitted m point.1 point.2.1 s)
  else raiseFree 0x1A6 0x3D (recEvent 0x1A6 0x0053 0 (leBytes 1 point.1 ++ leBytes 2 point.2.1)
    (applyPlan point.1 point.2.1 (planCommitted m point.1 point.2.1 s)))

theorem marginPlan_commits {m : MarginInputs} {s : State} {code ceiling : Nat} {met : Bool}
    (takes : commitsRefused (planDue s) = false) (point : planPoint m.twins (planReads (planDue s)) = (code, ceiling, met)) :
    marginPlan m s = planEnds m (planReads (planDue s)) (code, ceiling, met) := by
  have row : marginPlan m s = planEnds m (planReads (planDue s)) (planPoint m.twins (planReads (planDue s))) :=
    (if_neg (ne_true_of_eq_false takes)).trans rfl
  rw [row, point]

theorem planDue_led (s : State) : (planDue s).led = s.led := by
  unfold planDue
  split <;> rfl

theorem raiseFree_therm_led (src kind : Nat) (s : State) : (raiseFree src kind s).therm = s.therm ∧ (raiseFree src kind s).led = s.led := by
  unfold raiseFree raise
  dsimp only
  split <;> exact ⟨rfl, rfl⟩

/-- What stands once the margin plan has committed, with or without its message. -/
theorem marginPlan_stands {m : MarginInputs} {s : State} {code ceiling : Nat} {met : Bool}
    (takes : commitsRefused (planDue s) = false) (point : planPoint m.twins (planReads (planDue s)) = (code, ceiling, met)) :
    (marginPlan m s).led.seq = s.led.seq + 1 ∧ (marginPlan m s).therm.code = code ∧ (marginPlan m s).therm.ceiling = ceiling ∧
    planView (marginPlan m s).therm = (some code, ceiling, false, opSeconds (planDue s) / 3600, true, 0) := by
  have applied := applyPlan_plan code ceiling (planCommitted m code ceiling (planReads (planDue s)))
  obtain ⟨hours, led⟩ := planReads_opSeconds (planDue s)
  obtain ⟨plan, kept, top, same⟩ := applied
  have seq : (planCommitted m code ceiling (planReads (planDue s))).led.seq = s.led.seq + 1 := by
    show (planReads (planDue s)).led.seq + 1 = _
    rw [led, planDue_led]
  have view : planView (planCommitted m code ceiling (planReads (planDue s))).therm =
      (some code, ceiling, false, opSeconds (planDue s) / 3600, true, 0) := by
    show (some code, ceiling, false, opSeconds (planReads (planDue s)) / 3600, true, 0) = _
    rw [hours]
  rw [marginPlan_commits takes point, planEnds]
  split
  · rw [same, seq, plan, view]
    exact ⟨rfl, kept, top, rfl⟩
  · obtain ⟨therm, led⟩ := raiseFree_therm_led 0x1A6 0x3D (recEvent 0x1A6 0x0053 0 (leBytes 1 code ++ leBytes 2 ceiling)
      (applyPlan code ceiling (planCommitted m code ceiling (planReads (planDue s)))))
    have recs := sameButEvents_recEvent 0x1A6 0x0053 0 (leBytes 1 code ++ leBytes 2 ceiling)
      (applyPlan code ceiling (planCommitted m code ceiling (planReads (planDue s))))
    rw [therm, led, recs.therm, recs.led, same, seq, plan, view]
    exact ⟨rfl, kept, top, rfl⟩

/-- Settles O48. -/
theorem clocksAndMargin : Obligations.ClocksAndMargin := by
  refine ⟨fun k s => clockRelockDone_row, fun k s relocks low code => ⟨_, clockRelockDone_row relocks, ?_⟩,
    fun s => clockRelockDone_none, fun s => ⟨rfl, rfl⟩, fun p s => ?_, fun m s first => congrArg ok (if_pos first),
    fun m s free => ?_, fun d s => ⟨fun none => congrArg ok (asAdmin_none none), fun c x now => ?_⟩⟩
  · have vid := setVid_vid (c := if k = 0 then s.therm.code else 0)
      (s := { s with therm.relock := none, therm.coreLock := true, therm.clk := k }) low (by split <;> omega)
    refine ⟨?_, ?_, ?_, vid⟩ <;> rw [setVid_eq]
  · have lost := setLock_lockOf p false (raiseOpen (pllSource p) s)
    unfold lockOf at lost
    rw [raiseOpen_therm] at lost
    refine ⟨rfl, ⟨_, rfl, ?_⟩, fun held => if_pos held, fun free => ⟨setLock p true s, if_neg free, ?_⟩⟩
    · cases p <;> exact lost
    · have gained := setLock_lockOf p true s
      cases p <;> exact gained
  · intro s1
    have row : exec (.marginPlan m) s = .next (marginPlan m s) := congrArg ok (if_neg (ne_true_of_eq_false free))
    refine ⟨fun refused => row.trans (congrArg ok (marginPlan_refused refused)), fun code ceiling met takes point => ?_⟩
    obtain ⟨seq, kept, top, view⟩ := marginPlan_stands takes point
    simp only [planView, Prod.mk.injEq] at view
    obtain ⟨vid, ceil, again, hours, valid, steps⟩ := view
    exact ⟨_, row, seq, vid, ceil, kept, top, again, hours, valid, steps⟩
  · have row := congrArg ok (asAdmin_now now (fun c x s => withAuth c 2 (leBytes 1 (arg x 40 1) ++ leBytes 1 (b2n !(!bitN (arg x 41 1) 0)))
      (adminIn x d) (fun s =>
        if 32 ≤ arg x 40 1 then finishCmd c 0x0002 0x0D01 s
        else if (!bitN (arg x 41 1) 0) && (sensorsOf (regionOf (arg x 40 1))).filter (fun k => !s.therm.mask.getLsbD k) == [arg x 40 1] then
          finishCmd c 0x0005 0x0D02 s
        else if s.therm.mask.getLsbD (arg x 40 1) = (!bitN (arg x 41 1) 0) then finishCmd c 0 0 s
        else finishCmd c 0 0 (changeMask (arg x 40 1) (!bitN (arg x 41 1) 0) (authAccept (adminIn x d) s))) s))
    refine ⟨fun refused => row.trans (congrArg ok (withAuth_refused refused)), fun takes => ?_⟩
    intro n on a
    refine ⟨fun absent => row.trans (congrArg ok (withAuth_absent takes absent)), fun given owned => ?_⟩
    intro checked
    have goes := row.trans (congrArg ok (withAuth_given takes given owned))
    have last_iff (t u : State) : (if (on && (sensorsOf (regionOf n)).filter (fun k => !s.therm.mask.getLsbD k) == [n]) = true then t else u) =
        if on = true ∧ (sensorsOf (regionOf n)).filter (fun k => !s.therm.mask.getLsbD k) = [n] then t else u := by
      simp only [Bool.and_eq_true, beq_iff_eq]
    have change {t : State} (h : (if 32 ≤ n then finishCmd c 0x0002 0x0D01 s
        else if (on && (sensorsOf (regionOf n)).filter (fun k => !s.therm.mask.getLsbD k) == [n]) = true then finishCmd c 0x0005 0x0D02 s
        else if s.therm.mask.getLsbD n = on then finishCmd c 0 0 s
        else finishCmd c 0 0 (changeMask n on (authAccept a s))) = t) : exec (.sensorMask d) s = checked t :=
      goes.trans (congrArg (fun t => ok (if authOk 2 (leBytes 1 n ++ leBytes 1 (b2n !on)) a s then t else authRefused c 0 s)) h)
    refine ⟨fun far => change (if_pos far), fun near masks last => change ?_, fun near other => ⟨fun same => change ?_, fun new => change ?_⟩⟩
    · rw [if_neg (by omega), last_iff, if_pos ⟨masks, last⟩]
    · rw [if_neg (by omega), last_iff, if_neg (by rintro ⟨h, l⟩; exact other.elim (fun f => Bool.false_ne_true (f.symm.trans h)) (· l)), if_pos same]
    · rw [if_neg (by omega), last_iff, if_neg (by rintro ⟨h, l⟩; exact other.elim (fun f => Bool.false_ne_true (f.symm.trans h)) (· l)), if_neg new]

/-! ## Restored vault pages (11 R411 to R414) -/

/-- From `s` to `t` nothing changed but the host commands that count as paged. -/
def PagedOnly (s t : State) : Prop := t = { s with pipe := t.pipe, pow.pagedN := t.pow.pagedN }

/-- One waiting command is paged, once. -/
def pageCmd (s : State) (c : Nat) : State :=
  if ((cmdOf c s).map (·.paged)).getD true then s
  else updCmd c (fun x => { x with paged := true }) { s with pow.pagedN := sat32 s.pow.pagedN 1 }

theorem pagedOnly_pageCmd {s t : State} (h : PagedOnly s t) (c : Nat) : PagedOnly s (pageCmd t c) := by
  unfold PagedOnly at h ⊢
  unfold pageCmd
  split
  · exact h
  · rw [h]
    rfl

theorem pagedOnly_foldl (l : List Nat) (s : State) : PagedOnly s (l.foldl pageCmd s) :=
  List.foldlRecOn l pageCmd (motive := PagedOnly s) rfl fun _ h c _ => pagedOnly_pageCmd h c

section
variable {bad : Bool} {e : IdxEnt} {i v x : Nat} {d : List Byte} {s t : State} (way : shadowWay e.pool e.line s = some x)
  (data : tget s.pow.nand (e.half * 2 ^ 24 + v) = some d)
include way data

theorem takeSector_some : takeSector bad e i v s = if bad then settleVault e.pool e.line i (addLostW e.pool e.line x i 3 s)
    else if cacheOn s then installRestored e.pool e.line x i d s
    else { s with pow.pagedData := tset s.pow.pagedData (e.half * 2 ^ 24 + v) d } := by
  unfold takeSector
  rw [way, data]

theorem takeSector_paged (paged : PagedOnly s t) : takeSector bad e i v t =
    if bad then settleVault e.pool e.line i (addLostW e.pool e.line x i 3 t)
    else if cacheOn s then installRestored e.pool e.line x i d t
    else { t with pow.pagedData := tset s.pow.pagedData (e.half * 2 ^ 24 + v) d } := by
  have fields : shadowWay e.pool e.line t = shadowWay e.pool e.line s ∧ t.pow.nand = s.pow.nand ∧ cacheOn t = cacheOn s ∧
      t.pow.pagedData = s.pow.pagedData := by
    unfold PagedOnly at paged
    rw [paged]
    exact ⟨rfl, rfl, rfl, rfl⟩
  obtain ⟨ways, nand, on, held⟩ := fields
  rw [takeSector_some (ways.trans way) ((congrArg (tget · _) nand).trans data), on, held]

end

theorem vaultReadComplete_row {half : Fin 2} {page : Nat} {bad : BitVec 4} {s : State} (run : s.pow.ph = .run)
    (free : vaultResetting s = false) : exec (.vaultReadComplete half page bad) s = .next (settle (destageWaited
      ((pageSecs half.val page s).map (fun (e, i, _) => (e.pool, e.line, i)))
      ((pageSecs half.val page s).foldl (fun s (e, i, v) => takeSector (bad.getLsbD (v % 4)) e i v s)
        ((pageReaders half.val page s).foldl pageCmd s)))) := if_pos ⟨run, free⟩

/-! ## The ledger's upkeep (11 R420 to R424) -/

theorem damagedRecord_damaged (r : Nat × Nat) (s : State) : (damagedRecord r s).led.damaged = true :=
  congrArg (·.damaged) (sameButEvents_recEvent ..).led

/-- Settles O45. -/
theorem restoreAndLedgerUpkeep : Obligations.RestoreAndLedgerUpkeep := by
  refine ⟨fun half page bad s => ⟨fun no => if_neg ?_, fun run free => ?_⟩,
    fun s => ⟨fun runs none => if_pos (by rw [runs, none]; rfl), fun no => if_neg ?_⟩,
    fun s => ⟨fun takes => ⟨_, congrArg ok (if_neg (ne_true_of_eq_false takes)), rfl, rfl, rfl, rfl⟩,
      fun refused => congrArg ok (if_pos refused)⟩,
    fun n bad s => rfl, fun n s => ⟨_, rfl, rfl, rfl, rfl, rfl⟩, fun n typ inst s => ⟨_, rfl, damagedRecord_damaged ..⟩,
    fun v s => ⟨fun no => ?_, fun up locked => ?_, fun up free takes => ?_⟩⟩
  · rintro ⟨run, free⟩
    exact no.elim (· run) fun h => Bool.false_ne_true (free.symm.trans h)
  · intro secs s1
    have row := vaultReadComplete_row (bad := bad) (page := page) (half := half) run free
    refine ⟨row, fun e i v x d one way data => ?_⟩
    have paged : PagedOnly s s1 := pagedOnly_foldl ..
    have single : exec (.vaultReadComplete half page bad) s =
        .next (settle (destageWaited [(e.pool, e.line, i)] (takeSector (bad.getLsbD (v % 4)) e i v s1))) := by
      rw [row, show pageSecs half.val page s = [(e, i, v)] from one]
      rfl
    rw [single, takeSector_paged way data paged]
    refine ⟨fun failed => by rw [if_pos failed], fun good on => ?_, fun good off => ?_⟩
    · rw [if_neg (ne_true_of_eq_false good), if_pos on]
    · rw [if_neg (ne_true_of_eq_false good), if_neg (ne_true_of_eq_false off)]
  · simp only [Bool.and_eq_true, beq_iff_eq]
    rintro ⟨runs, none⟩
    exact no.elim (fun h => Bool.false_ne_true (h.symm.trans runs)) (· none)
  · obtain down | ⟨free, refused⟩ := no
    · exact ⟨congrArg ok (barWrite_unanswered _ (.inl down)), congrArg ok (barWrite_unanswered _ (.inl down))⟩
    · exact ⟨congrArg ok (barWrite_of_effectless _ _ ((if_neg (ne_true_of_eq_false free)).trans (if_pos refused))),
        congrArg ok (barWrite_of_effectless _ _ ((if_neg (ne_true_of_eq_false free)).trans (if_pos refused)))⟩
  · exact ⟨congrArg ok ((barWrite_taken _ up (by simp [answers])).trans (if_pos locked)),
      congrArg ok ((barWrite_taken _ up (by simp [answers])).trans (if_pos locked))⟩
  · intro n
    have number : n = fld v.toNat 11 0 := by simp [n, fld]
    refine ⟨congrArg ok ((barWrite_taken _ up (by simp [answers])).trans ((if_neg (ne_true_of_eq_false free)).trans
      ((if_neg (ne_true_of_eq_false takes)).trans (by rw [number])))),
      congrArg ok ((barWrite_taken _ up (by simp [answers])).trans ((if_neg (ne_true_of_eq_false free)).trans
        (if_neg (ne_true_of_eq_false takes)))), fun t => ⟨rfl, rfl, rfl, rfl⟩⟩

end Sys2Proof.Machine
end

