-- ==== Sys2Proof/Proofs/BootFunction.lean ====
section
/-! SUPPORT. Sys2Proof/Proofs/BootFunction.lean: the NVMe boot function PF1: its controller, its queues, its admin and its I/O
commands (06 R246 to R250). -/

namespace Sys2Proof.Machine

/-! ## The controller and its doorbells (06 R248) -/

section
variable {p : Nat} {s : State}

theorem aqa_sizes (aqa : Dword) : fld aqa.toNat 11 0 = (aqa.extractLsb' 0 12).toNat ∧ fld aqa.toNat 27 16 = (aqa.extractLsb' 16 12).toNat := by
  simp [fld, Nat.shiftRight_eq_div_pow]

theorem nvmeEnable_row (asq acq : Word) (aqa : Dword) :
    let nsq := (aqa.extractLsb' 0 12).toNat + 1
    let ncq := (aqa.extractLsb' 16 12).toNat + 1
    ((getPort p s).pf1.en = true ∨ portThere p s = false → nvmeEnable p asq acq aqa s = s) ∧
    ((getPort p s).pf1.en = false → portThere p s = true →
      (64 < nsq ∨ 64 < ncq → nvmeEnable p asq acq aqa s = updPf1 p (fun u => { u with en := true, cfs := true }) s) ∧
      (nsq ≤ 64 → ncq ≤ 64 → nvmeEnable p asq acq aqa s = updPf1 p (fun u =>
        { u with en := true, rdy := s.dev.ready, enPending := !s.dev.ready,
                 asq := some { base := asq.toNat / 4096 * 4096, size := nsq },
                 acq := some { base := acq.toNat / 4096 * 4096, size := ncq, intEn := true, vector := 0 } }) s)) := by
  obtain ⟨sq, cq⟩ := aqa_sizes aqa
  intro nsq ncq
  unfold nvmeEnable
  rw [sq, cq]
  refine ⟨fun no => if_pos (by simpa using no), fun off there => ?_⟩
  have free : ¬ ((getPort p s).pf1.en || !portThere p s) = true := by simp [off, there]
  exact ⟨fun big => (if_neg free).trans (if_pos big), fun small small' => (if_neg free).trans (if_neg (by omega))⟩

theorem nvmeDoorbell_idle {io cpl : Bool} {n : Nat} (idle : (getPort p s).pf1.rdy = false) : nvmeDoorbell p io cpl n s = s :=
  if_pos (by rw [idle]; rfl)

theorem nvmeDoorbell_tail {io : Bool} {n : Nat} (ready : (getPort p s).pf1.rdy = true) : nvmeDoorbell p io false n s =
    match nvmeSq p (!io) s with
    | none => s
    | some q => if q.size ≤ n then s else readSqes p q n (updPf1 p (fun u =>
        if io then { u with ioSq := some { q with tail := n } } else { u with asq := some { q with tail := n } }) s) :=
  (if_neg (by rw [ready]; decide)).trans (if_neg Bool.false_ne_true)

theorem nvmeDoorbell_head {io : Bool} {n : Nat} (ready : (getPort p s).pf1.rdy = true) : nvmeDoorbell p io true n s =
    match nvmeCq p (!io) s with
    | none => s
    | some q => if q.size ≤ n then s else nvmeStashed 512 p (updPf1 p (fun u =>
        if io then { u with ioCq := some { q with head := n } } else { u with acq := some { q with head := n } }) s) :=
  (if_neg (by rw [ready]; decide)).trans (if_pos rfl)

end

/-! ## Admin commands (06 R246, R250) -/

section
variable {p : Nat} {e : NvmeSqe} {f : State → State} {s : State}

theorem asNvmeAdmin_idle (idle : nvmeReady p true s = false) : asNvmeAdmin p e f s = s := if_pos (by rw [idle]; rfl)

theorem asNvmeAdmin_unsupported (ready : nvmeReady p true s = true) (odd : e.unsupported = true) :
    asNvmeAdmin p e f s = postNvme p true e.cid 0x001 0 (nvmeTake p true s) :=
  (if_neg (by rw [ready]; decide)).trans (if_pos odd)

theorem asNvmeAdmin_runs (ready : nvmeReady p true s = true) (known : e.unsupported = false) :
    asNvmeAdmin p e f s = f (nvmeTake p true s) :=
  (if_neg (by rw [ready]; decide)).trans (if_neg (ne_true_of_eq_false known))

/-- Taking an entry moves nothing of the controller but its admin queue's head. -/
theorem nvmeTake_pf1 : ∃ q, (getPort p (nvmeTake p true s)).pf1 = { (getPort p s).pf1 with asq := q } := by
  unfold nvmeTake updPf1
  rw [getPort_updPort]
  exact ⟨_, rfl⟩

theorem nvmeIdentify_namespace (cns : fld e.cdw10.toNat 7 0 = 0) : nvmeIdentify p e s = if e.nsid.toNat ≠ 1 then nvmeDone p e 0x00B 0 s
    else nvmeOut p e (if (bootVolume s).isSome then identNamespace s else List.replicate 4096 0) s := by
  unfold nvmeIdentify
  rw [cns]
  simp only [bne_iff_ne]
  rfl

theorem nvmeIdentify_controller (cns : fld e.cdw10.toNat 7 0 = 1) : nvmeIdentify p e s = nvmeOut p e identController s := by
  unfold nvmeIdentify
  rw [cns]
  rfl

theorem nvmeIdentify_list (cns : fld e.cdw10.toNat 7 0 = 2) : nvmeIdentify p e s =
    if 0xFFFFFFFE ≤ e.nsid.toNat then nvmeDone p e 0x00B 0 s
    else nvmeOut p e (padTo 4096 (if (bootVolume s).isSome && e.nsid.toNat == 0 then leBytes 4 1 else [])) s := by
  unfold nvmeIdentify
  rw [cns]
  rfl

theorem nvmeIdentify_other (cns : 2 < fld e.cdw10.toNat 7 0) : nvmeIdentify p e s = nvmeDone p e 0x002 0 s := by
  unfold nvmeIdentify
  split
  · omega
  · omega
  · omega
  · rfl

theorem nvmeGetFeature_row :
    (fld e.cdw10.toNat 7 0 = 0x07 → nvmeGetFeature p e s = nvmeDone p e 0 0 s) ∧
    (fld e.cdw10.toNat 7 0 = 0x08 → nvmeGetFeature p e s = nvmeDone p e 0 (getPort p s).pf1.coalescing.toNat s) ∧
    (fld e.cdw10.toNat 7 0 = 0x0B → nvmeGetFeature p e s = nvmeDone p e 0 (getPort p s).pf1.aerConfig.toNat s) ∧
    (fld e.cdw10.toNat 7 0 ≠ 0x07 → fld e.cdw10.toNat 7 0 ≠ 0x08 → fld e.cdw10.toNat 7 0 ≠ 0x0B →
      nvmeGetFeature p e s = nvmeDone p e 0x002 0 s) := by
  unfold nvmeGetFeature
  refine ⟨fun h => by rw [h]; rfl, fun h => by rw [h]; rfl, fun h => by rw [h]; rfl, fun a b c => ?_⟩
  dsimp only
  split
  · contradiction
  · contradiction
  · contradiction
  · rfl

theorem nvmeSetFeature_other (a : fld e.cdw10.toNat 7 0 ≠ 0x07) (b : fld e.cdw10.toNat 7 0 ≠ 0x08) (c : fld e.cdw10.toNat 7 0 ≠ 0x0B) :
    nvmeSetFeature p e s = nvmeDone p e 0x002 0 s := if_pos (by simp [a, b, c])

theorem nvmeSetFeature_known (known : fld e.cdw10.toNat 7 0 = 0x07 ∨ fld e.cdw10.toNat 7 0 = 0x08 ∨ fld e.cdw10.toNat 7 0 = 0x0B) :
    nvmeSetFeature p e s = if e.cdw10.getLsbD 31 then nvmeDone p e 0x10D 0 s
      else if fld e.cdw10.toNat 7 0 = 0x08 then nvmeDone p e 0 0 (updPf1 p (fun u => { u with coalescing := e.cdw11 &&& 0xFFFF#32 }) s)
      else if fld e.cdw10.toNat 7 0 = 0x0B then nvmeDone p e 0 0 (updPf1 p (fun u => { u with aerConfig := e.cdw11 }) s)
      else nvmeDone p e 0 0 s :=
  if_neg (by obtain h | h | h := known <;> simp [h])

theorem nvmeAbort_waiting (sq : fld e.cdw10.toNat 15 0 = 0)
    (waits : BitVec.ofNat 16 (fld e.cdw10.toNat 31 16) ∈ (getPort p s).pf1.aers) : nvmeAbort p e s = nvmeDone p e 0 0
      (postNvme p true (BitVec.ofNat 16 (fld e.cdw10.toNat 31 16)) 0x007 0
        (updPf1 p (fun u => { u with aers := u.aers.erase (BitVec.ofNat 16 (fld e.cdw10.toNat 31 16)) }) s)) :=
  if_pos (by rw [sq, List.contains_iff_mem.mpr waits]; rfl)

theorem nvmeAbort_other (no : fld e.cdw10.toNat 15 0 ≠ 0 ∨
    BitVec.ofNat 16 (fld e.cdw10.toNat 31 16) ∉ (getPort p s).pf1.aers) : nvmeAbort p e s = nvmeDone p e 0 1 s := by
  refine if_neg ?_
  simp only [Bool.and_eq_true, beq_iff_eq, List.contains_iff_mem]
  rintro ⟨zero, waits⟩
  exact no.elim (· zero) (· waits)

theorem nvmeCreate_eq (sub : Bool) : nvmeCreate p sub e s =
    if fld e.cdw10.toNat 15 0 ≠ 1 ∨ (if sub then (getPort p s).pf1.ioSq.isSome else (getPort p s).pf1.ioCq.isSome) = true then
      nvmeDone p e 0x101 0 s
    else if fld e.cdw10.toNat 31 16 + 1 < 2 ∨ 256 < fld e.cdw10.toNat 31 16 + 1 then nvmeDone p e 0x102 0 s
    else if e.cdw11.getLsbD 0 = false then nvmeDone p e 0x002 0 s
    else if e.prp1.toNat % 4096 ≠ 0 then nvmeDone p e 0x013 0 s
    else if sub = true ∧ fld e.cdw11.toNat 31 16 ≠ 1 then nvmeDone p e 0x101 0 s
    else if sub = true ∧ (getPort p s).pf1.ioCq = none then nvmeDone p e 0x100 0 s
    else if sub = false ∧ 1 < fld e.cdw11.toNat 31 16 then nvmeDone p e 0x108 0 s
    else if sub = true then
      nvmeDone p e 0 0 (updPf1 p (fun u => { u with ioSq := some { base := e.prp1.toNat, size := fld e.cdw10.toNat 31 16 + 1 } }) s)
    else nvmeDone p e 0 0 (updPf1 p (fun u => { u with
      ioCq := some { base := e.prp1.toNat, size := fld e.cdw10.toNat 31 16 + 1, intEn := e.cdw11.getLsbD 1,
                     vector := fld e.cdw11.toNat 31 16 } }) s) := by
  unfold nvmeCreate
  cases sub <;>
    simp only [Bool.or_eq_true, bne_iff_ne, Bool.not_eq_true', Option.isNone_iff_eq_none, Bool.false_eq_true, Bool.true_eq_false,
      if_true, if_false, true_and, false_and] <;> rfl

theorem nvmeDelete_eq (sub : Bool) : nvmeDelete p sub e s =
    if fld e.cdw10.toNat 15 0 ≠ 1 ∨ (if sub then (getPort p s).pf1.ioSq.isNone else (getPort p s).pf1.ioCq.isNone) = true then
      nvmeDone p e 0x101 0 s
    else if sub = true then nvmeDone p e 0 0 (updPf1 p (fun u => { u with ioSq := none, dsmFail := [] }) (orphanNvme p s))
    else if (getPort p s).pf1.ioSq.isSome = true then nvmeDone p e 0x10C 0 s
    else nvmeDone p e 0 0 (updPf1 p (fun u => { u with ioCq := none, stash := u.stash.filter (·.1) }) s) := by
  unfold nvmeDelete
  simp only [Bool.or_eq_true, bne_iff_ne]

end

theorem next_ite (c : Prop) [Decidable c] (a b : State) : (Host.Outcome.next (if c then a else b) : Res) =
    if c then .next a else .next b := apply_ite _ c a b

/-- Settles O55. -/
theorem bootControllerAndAdmin : Obligations.BootControllerAndAdmin := by
  refine ⟨fun p s => ?_, fun p e s => ?_⟩
  · intro u
    refine ⟨rfl, fun cc aqa asq acq => ?_, fun io cpl v idle => congrArg ok (nvmeDoorbell_idle idle), fun io v ready => ?_⟩
    · intro kept nsq ncq
      obtain ⟨none, makes⟩ := nvmeEnable_row (p := p.val) (s := s) asq acq aqa
      have on (en : cc.getLsbD 0 = true) {t : State} (h : nvmeEnable p.val asq acq aqa s = t) :
          exec (.pf1ControllerEnable p cc asq acq aqa) s = .next (kept t) :=
        congrArg (fun t => ok (kept t)) ((if_pos en).trans h)
      refine ⟨fun off => congrArg (fun t => ok (kept t)) (if_neg (ne_true_of_eq_false off)), fun en no => on en (none no),
        fun en off there => ⟨fun big => on en ((makes off there).1 big), fun small small' => on en ((makes off there).2 small small')⟩⟩
    · intro n
      have tail := congrArg ok (nvmeDoorbell_tail (io := io) (n := n) ready)
      have head := congrArg ok (nvmeDoorbell_head (io := io) (n := n) ready)
      refine ⟨fun none => tail.trans ?_, fun none => head.trans ?_, fun q there => ⟨fun out => tail.trans ?_, fun inside => tail.trans ?_⟩,
        fun q there => ⟨fun out => head.trans ?_, fun inside => head.trans ?_⟩⟩
      · rw [none]
        rfl
      · rw [none]
        rfl
      · rw [there]
        exact congrArg ok (if_pos out)
      · rw [there]
        exact congrArg ok (if_neg (by omega))
      · rw [there]
        exact congrArg ok (if_pos out)
      · rw [there]
        exact congrArg ok (if_neg (by omega))
  · intro t u lo done all
    refine ⟨fun idle => ?_, fun ready odd => ?_, fun ready known => ?_⟩
    · have row (f : State → State) := congrArg ok (asNvmeAdmin_idle (e := e) (f := f) idle)
      exact ⟨row _, row _, row _, row _, row _, row _, fun sub => ⟨row _, row _⟩⟩
    · have row (f : State → State) := congrArg ok (asNvmeAdmin_unsupported (f := f) ready odd)
      exact ⟨row _, row _, row _, row _, row _, row _, fun sub => ⟨row _, row _⟩⟩
    · have row (f : State → State) : ok (asNvmeAdmin p.val e f s) = .next (f t) := congrArg ok (asNvmeAdmin_runs ready known)
      obtain ⟨q, pf1⟩ := nvmeTake_pf1 (p := p.val) (s := s)
      obtain ⟨f7, f8, fB, fOther⟩ := nvmeGetFeature_row (p := p.val) (e := e) (s := t)
      refine ⟨fun cns other => ?_, fun cns one => ?_, fun cns => ?_, fun cns top => ?_, fun cns low => ?_, fun cns => ?_, ?_,
        fun h => ?_, fun h => ?_, fun h => ?_, fun a b c => ⟨?_, ?_⟩, fun h saved => ?_, fun free => ⟨fun h => ?_, fun h => ?_, fun h => ?_⟩,
        fun room => ?_, fun full => ?_, ?_, ?_⟩
      · exact (row _).trans (congrArg ok ((nvmeIdentify_namespace cns).trans (if_pos other)))
      · exact (row _).trans (congrArg ok ((nvmeIdentify_namespace cns).trans (if_neg (not_not.mpr one))))
      · exact (row _).trans (congrArg ok (nvmeIdentify_controller cns))
      · exact (row _).trans (congrArg ok ((nvmeIdentify_list cns).trans (if_pos top)))
      · exact (row _).trans (congrArg ok ((nvmeIdentify_list cns).trans (if_neg (Nat.not_le.mpr low))))
      · exact (row _).trans (congrArg ok (nvmeIdentify_other cns))
      · intro page
        exact ⟨fun one => (row _).trans (congrArg ok (if_pos one)), fun two => (row _).trans (congrArg ok ((if_neg (by
          show ¬ lo = 1; omega)).trans (if_pos two))), fun one two => (row _).trans (congrArg ok ((if_neg one).trans (if_neg two)))⟩
      · exact (row _).trans (congrArg ok (f7 h))
      · exact (row _).trans (congrArg ok ((f8 h).trans (by rw [pf1]; rfl)))
      · exact (row _).trans (congrArg ok ((fB h).trans (by rw [pf1]; rfl)))
      · exact (row _).trans (congrArg ok (fOther a b c))
      · exact (row _).trans (congrArg ok (nvmeSetFeature_other a b c))
      · exact (row _).trans (congrArg ok ((nvmeSetFeature_known h).trans (if_pos saved)))
      · exact (row _).trans (congrArg ok ((nvmeSetFeature_known (.inl h)).trans ((if_neg (ne_true_of_eq_false free)).trans
          ((if_neg (by show ¬ lo = 8; omega)).trans (if_neg (by show ¬ lo = 11; omega))))))
      · exact (row _).trans (congrArg ok ((nvmeSetFeature_known (.inr (.inl h))).trans ((if_neg (ne_true_of_eq_false free)).trans (if_pos h))))
      · exact (row _).trans (congrArg ok ((nvmeSetFeature_known (.inr (.inr h))).trans ((if_neg (ne_true_of_eq_false free)).trans
          ((if_neg (by show ¬ lo = 8; omega)).trans (if_pos h)))))
      · exact (row _).trans (congrArg ok (if_neg (by rw [pf1]; exact Nat.not_le.mpr room)))
      · exact (row _).trans (congrArg ok (if_pos (by rw [pf1]; exact full)))
      · intro cid
        exact ⟨fun sq waits => (row _).trans (congrArg ok (nvmeAbort_waiting sq (by rw [pf1]; exact waits))),
          fun no => (row _).trans (congrArg ok (nvmeAbort_other (by rw [pf1]; exact no)))⟩
      · intro id size hi
        refine ⟨fun sub => (row _).trans ?_, fun sub => (row _).trans ?_⟩
        · rw [nvmeCreate_eq, pf1]
          simp only [next_ite]
          rfl
        · rw [nvmeDelete_eq, pf1]
          simp only [next_ite]
          rfl

/-! ## I/O commands (06 R247 to R249; 13 R461) -/

/-- What tells the boot volume: the plan and the ledger. -/
theorem debit_plan_led (n : Nat) (s : State) : (debit n s).plan = s.plan ∧ (debit n s).led = s.led := by
  unfold debit
  split <;> exact ⟨rfl, rfl⟩

theorem debitBytes_plan_led (n : Nat) (s : State) : (debitBytes n s).plan = s.plan ∧ (debitBytes n s).led = s.led := by
  unfold debitBytes
  split <;> exact ⟨rfl, rfl⟩

theorem bootVolume_of {s t : State} (same : t.plan = s.plan ∧ t.led = s.led) : bootVolume t = bootVolume s ∧ nsze t = nsze s := by
  obtain ⟨plan, led⟩ := same
  have volume : bootVolume t = bootVolume s := by rw [bootVolume, bootVolume, plan, led]
  exact ⟨volume, by rw [nsze, nsze, volume, tab, tab, plan]⟩

/-- The state in which an I/O command of PF1 begins: its entry and its token are taken. -/
def nvmeBegun (p : Nat) (s : State) : State :=
  debit 0 (nvmeTake p false (updPort p (fun q => { q with pf1Turn := true }) { s with pipe.lastPort := p }))

theorem sameButEvents_nvmeTake (p : Nat) (admin : Bool) (s : State) : SameButEvents s (nvmeTake p admin s) := by
  unfold nvmeTake updPf1
  exact sameButEvents_updPort ..

theorem nvmeBegun_plan_led (p : Nat) (s : State) : (nvmeBegun p s).plan = s.plan ∧ (nvmeBegun p s).led = s.led := by
  obtain ⟨plan, led⟩ := debit_plan_led 0
    (nvmeTake p false (updPort p (fun q => { q with pf1Turn := true }) { s with pipe.lastPort := p }))
  have turned := sameButEvents_updPort p (fun q => { q with pf1Turn := true }) { s with pipe.lastPort := p }
  have taken := sameButEvents_nvmeTake p false (updPort p (fun q => { q with pf1Turn := true }) { s with pipe.lastPort := p })
  exact ⟨plan.trans (taken.plan.trans turned.plan), led.trans (taken.led.trans turned.led)⟩

/-- Whether an I/O command at the head of PF1's queue may begin (06 R248). -/
def NvmeStarts (p : Nat) (s : State) : Prop :=
  nvmeReady p false s = true ∧ fetchStopped s = false ∧ domainsRun s = true ∧ tokensOk s = true ∧
  (∀ v, bootVolume s = some v → ownOf v s ≠ .hold) ∧ nvmeTurnOver p s = false

section
variable {p : Nat} {e : NvmeSqe} {f : State → State} {s : State}

theorem asNvmeIo_eq : asNvmeIo p e f s = if (nvmeReady p false s && !fetchStopped s && domainsRun s && tokensOk s &&
      !(match bootVolume s with
        | some v => ownOf v s == .hold
        | none => false) && !nvmeTurnOver p s) = true then
      (if e.unsupported then postNvme p false e.cid 0x001 0 (nvmeBegun p s) else f (nvmeBegun p s))
    else s := rfl

theorem nvmeStarts_iff : NvmeStarts p s ↔ (nvmeReady p false s && !fetchStopped s && domainsRun s && tokensOk s &&
      !(match bootVolume s with
        | some v => ownOf v s == .hold
        | none => false) && !nvmeTurnOver p s) = true := by
  unfold NvmeStarts
  cases bootVolume s <;> simp [and_assoc]

theorem asNvmeIo_idle (idle : ¬ NvmeStarts p s) : asNvmeIo p e f s = s :=
  asNvmeIo_eq.trans (if_neg fun h => idle (nvmeStarts_iff.mpr h))

theorem asNvmeIo_unsupported (starts : NvmeStarts p s) (odd : e.unsupported = true) :
    asNvmeIo p e f s = postNvme p false e.cid 0x001 0 (nvmeBegun p s) :=
  asNvmeIo_eq.trans ((if_pos (nvmeStarts_iff.mp starts)).trans (if_pos odd))

theorem asNvmeIo_runs (starts : NvmeStarts p s) (known : e.unsupported = false) : asNvmeIo p e f s = f (nvmeBegun p s) :=
  asNvmeIo_eq.trans ((if_pos (nvmeStarts_iff.mp starts)).trans (if_neg (ne_true_of_eq_false known)))

section
variable {g : Nat → State → State}

theorem onBoot_none (none : bootVolume s = none) : onBoot p e g s = nvmeFail p e 0x00B s := by
  unfold onBoot
  rw [none]
  rfl

theorem onBoot_one {v : Nat} (boot : bootVolume s = some v) (one : e.nsid.toNat = 1) : onBoot p e g s = g v s := by
  unfold onBoot
  rw [boot]
  exact if_pos one

theorem onBoot_other {v : Nat} (boot : bootVolume s = some v) (other : e.nsid.toNat ≠ 1) : onBoot p e g s = nvmeFail p e 0x00B s := by
  unfold onBoot
  rw [boot]
  exact if_neg other

end

/-- A Read or Write of a volume as the boot volume, its byte tokens taken. -/
def nvmeTransfer (p opcode : Nat) (e : NvmeSqe) (v : Nat) (s : State) : State :=
  if 64 < nvmeCount e then nvmeFail p e 0x002 s
  else if prpOk e.prp1.toNat e.prp2.toNat (nvmeCount e * 4096) = false then nvmeFail p e 0x013 s
  else if nsze s < nvmeLba e + nvmeCount e then nvmeFail p e 0x080 s
  else beginNvme (.pf1 p false e.cid) p opcode v (nvmeLba e) (nvmeCount e) e.prp1.toNat e.prp2.toNat true s

section
variable {opcode v : Nat}

theorem nvmeTransfer_big (big : 64 < nvmeCount e) : nvmeTransfer p opcode e v s = nvmeFail p e 0x002 s := if_pos big

theorem nvmeTransfer_pointer (small : nvmeCount e ≤ 64) (bad : prpOk e.prp1.toNat e.prp2.toNat (nvmeCount e * 4096) = false) :
    nvmeTransfer p opcode e v s = nvmeFail p e 0x013 s := (if_neg (Nat.not_lt.mpr small)).trans (if_pos bad)

variable (small : nvmeCount e ≤ 64) (good : prpOk e.prp1.toNat e.prp2.toNat (nvmeCount e * 4096) = true)
include small good

theorem nvmeTransfer_checked : nvmeTransfer p opcode e v s = if nsze s < nvmeLba e + nvmeCount e then nvmeFail p e 0x080 s
    else beginNvme (.pf1 p false e.cid) p opcode v (nvmeLba e) (nvmeCount e) e.prp1.toNat e.prp2.toNat true s :=
  (if_neg (Nat.not_lt.mpr small)).trans (if_neg fun h => Bool.false_ne_true (h.symm.trans good))

theorem nvmeTransfer_beyond (beyond : nsze s < nvmeLba e + nvmeCount e) :
    nvmeTransfer p opcode e v s = nvmeFail p e 0x080 s := (nvmeTransfer_checked small good).trans (if_pos beyond)

theorem nvmeTransfer_begins (within : nvmeLba e + nvmeCount e ≤ nsze s) : nvmeTransfer p opcode e v s =
    beginNvme (.pf1 p false e.cid) p opcode v (nvmeLba e) (nvmeCount e) e.prp1.toNat e.prp2.toNat true s :=
  (nvmeTransfer_checked small good).trans (if_neg (Nat.not_lt.mpr within))

end

theorem nvmeRw_eq (opcode : Nat) : nvmeRw p opcode e s =
    onBoot p e (nvmeTransfer p opcode e) (debitBytes (nvmeCount e * 4096) s) := by
  unfold nvmeRw nvmeTransfer
  simp only [Bool.not_eq_true']
  rfl

/-- Write Zeroes on a volume as the boot volume. -/
def nvmeZeroes (p : Nat) (e : NvmeSqe) (v : Nat) (s : State) : State :=
  if nsze s < nvmeLba e + nvmeCount e then nvmeFail p e 0x080 s
  else beginNvme (.pf1 p false e.cid) p 5 v (nvmeLba e) (nvmeCount e) 0 0 false s

/-- The namespace that a Flush of every namespace names. -/
def flushEntry (e : NvmeSqe) : NvmeSqe := if e.nsid = 0xFFFFFFFF#32 then { e with nsid := 1#32 } else e

/-- Flush of a volume as the boot volume. -/
def nvmeFlushes (p : Nat) (e : NvmeSqe) (v : Nat) (s : State) : State := beginNvme (.pf1 p false e.cid) p 4 v 0 0 0 0 false s

theorem flushEntry_fails (st : Nat) : nvmeFail p (flushEntry e) st s = nvmeFail p e st s := by
  unfold flushEntry
  split <;> rfl

theorem flushEntry_one (named : e.nsid.toNat = 1 ∨ e.nsid = 0xFFFFFFFF#32) : (flushEntry e).nsid.toNat = 1 := by
  unfold flushEntry
  split
  · rfl
  next notAll => exact named.resolve_right notAll

/-- The commands that Dataset Management makes of its ranges, and the state with them. -/
def rangeCmds (p : Nat) (cid : BitVec 16) (v : Nat) (ranges : List (Nat × Nat)) (s : State) : List Nat × State :=
  ranges.foldl (fun m r =>
    let c := newCmd (.dsm p cid) p (nvmeEntry 5 v r.1 r.2 0 0) m.2
    (m.1 ++ [c.1], updCmd c.1 (fun x => { x with sgl := [] }) c.2)) ([], s)

/-- Dataset Management on a volume as the boot volume. -/
def nvmeRanges (p : Nat) (e : NvmeSqe) (rs : List (Nat × Nat)) (v : Nat) (s : State) : State :=
  let ranges := (rs.take (fld e.cdw10.toNat 7 0 + 1)).filter (fun r => r.2 != 0)
  if e.cdw11.getLsbD 2 = false ∨ ranges = [] then nvmeFail p e 0 s
  else if ∃ r ∈ ranges, nsze s < r.1 + r.2 then nvmeFail p e 0x080 s
  else (rangeCmds p e.cid v ranges s).1.foldl (fun s c => runNvme c s) (rangeCmds p e.cid v ranges s).2

theorem nvmeDsm_eq (rs : List (Nat × Nat)) : nvmeDsm p e rs s = onBoot p e (nvmeRanges p e rs) s := by
  unfold nvmeDsm nvmeRanges
  simp only [Bool.or_eq_true, Bool.not_eq_true', List.isEmpty_iff, List.any_eq_true, decide_eq_true_eq]
  rfl

end

/-- Settles O56. -/
theorem bootIoCommands : Obligations.BootIoCommands := by
  intro p e s starts t src n w failsAt fails badIo all one
  have begun := bootVolume_of (nvmeBegun_plan_led p.val s)
  have paid : bootVolume w = bootVolume s ∧ nsze w = nsze s := by
    obtain ⟨volume, size⟩ := bootVolume_of (debitBytes_plan_led (n * 4096) t)
    exact ⟨volume.trans begun.1, size.trans begun.2⟩
  refine ⟨fun idle => ?_, fun go_ odd => ?_, fun go_ known none => ?_, fun go_ known v boot => ?_⟩
  · have row (f : State → State) := congrArg go (asNvmeIo_idle (e := e) (f := f) idle)
    exact ⟨row _, row _, row _, row _, fun rs => row _⟩
  · have row (f : State → State) := congrArg go (asNvmeIo_unsupported (f := f) go_ odd)
    exact ⟨row _, row _, row _, row _, fun rs => row _⟩
  all_goals
    have row (f : State → State) : go (asNvmeIo p.val e f s) = .next (settle (f t)) := congrArg go (asNvmeIo_runs go_ known)
    have rw_ (k : Nat) {u : State} (h : onBoot p.val e (nvmeTransfer p.val k e) w = u) :
        go (asNvmeIo p.val e (nvmeRw p.val k e) s) = .next (settle u) := (row _).trans (congrArg go ((nvmeRw_eq k).trans h))
    have dsm (rs : List (Nat × Nat)) {u : State} (h : onBoot p.val e (nvmeRanges p.val e rs) t = u) :
        exec (.nvmeDatasetManagement p e rs) s = .next (settle u) := (row _).trans (congrArg go ((nvmeDsm_eq rs).trans h))
    have zeroes {u : State} (h : onBoot p.val e (nvmeZeroes p.val e) t = u) :
        exec (.nvmeWriteZeroes p e) s = .next (settle u) := (row _).trans (congrArg go h)
    have flush {u : State} (h : onBoot p.val (flushEntry e) (nvmeFlushes p.val e) t = u) :
        exec (.nvmeFlush p e) s = .next (settle u) := (row _).trans (congrArg go h)
  · have none_t := begun.1.trans none
    have none_w := paid.1.trans none
    exact ⟨rw_ 1 (onBoot_none none_w), rw_ _ (onBoot_none none_w), flush ((onBoot_none none_t).trans (flushEntry_fails _)),
      zeroes (onBoot_none none_t), fun rs => dsm rs (onBoot_none none_t)⟩
  · have boot_t := begun.1.trans boot
    have boot_w := paid.1.trans boot
    have both (here : one) {u : Nat → State} (h : ∀ k, nvmeTransfer p.val k e v w = u k) :
        exec (.nvmeRead p e) s = .next (settle (u 1)) ∧
        exec (.nvmeWrite p e) s = .next (settle (u (if e.cdw12.getLsbD 30 then 3 else 2))) :=
      ⟨rw_ 1 ((onBoot_one boot_w here).trans (h _)), rw_ _ ((onBoot_one boot_w here).trans (h _))⟩
    refine ⟨fun other => ⟨rw_ 1 (onBoot_other boot_w other), rw_ _ (onBoot_other boot_w other),
        zeroes (onBoot_other boot_t other), fun rs => dsm rs (onBoot_other boot_t other), fun notAll => ?_⟩,
      fun here big => both here fun _ => nvmeTransfer_big big,
      fun here small bad => both here fun _ => nvmeTransfer_pointer small bad,
      fun here small good => ⟨fun beyond => both here fun _ => nvmeTransfer_beyond small good (by rw [paid.2]; exact beyond),
        fun within => both here fun _ => nvmeTransfer_begins small good (by rw [paid.2]; exact within)⟩,
      fun named => ?_, fun here beyond => ?_, fun here within => ?_, fun here rs => ?_⟩
    · have same : flushEntry e = e := if_neg notAll
      exact flush ((onBoot_other boot_t (by rw [same]; exact other)).trans (flushEntry_fails _))
    · exact flush (onBoot_one boot_t (flushEntry_one named))
    · exact zeroes ((onBoot_one boot_t here).trans (if_pos (by rw [begun.2]; exact beyond)))
    · exact zeroes ((onBoot_one boot_t here).trans (if_neg (by rw [begun.2]; exact Nat.not_lt.mpr within)))
    · intro ranges
      refine ⟨fun no => dsm rs ((onBoot_one boot_t here).trans (if_pos no)), fun bit some => ⟨fun beyond => ?_, fun within => ?_⟩⟩
      all_goals
        have made : ¬ (e.cdw11.getLsbD 2 = false ∨ ranges = []) := by
          rintro (off | none)
          · exact Bool.false_ne_true (off.symm.trans bit)
          · exact some none
      · exact dsm rs ((onBoot_one boot_t here).trans ((if_neg made).trans (if_pos (by rw [begun.2]; exact beyond))))
      · refine dsm rs ((onBoot_one boot_t here).trans ((if_neg made).trans (if_neg ?_)))
        rw [begun.2]
        rintro ⟨r, listed, beyond⟩
        exact absurd (within r listed) (Nat.not_le.mpr beyond)

end Sys2Proof.Machine
end

