-- ==== Sys2Proof/Proofs/PoolLines.lean ====
section
/-! SUPPORT. Sys2Proof/Proofs/PoolLines.lean: the admin operations on pools and slots, moves, patrol passes and the reshape walk
(04 R143 to R161, 08 R318 to R330, 09 R332 to R356). -/

namespace Sys2Proof.Machine

/-! ## Commands to members leave the pools' records alone -/

theorem sendMember_pools (q : Nat) (sl : Option (Nat × Nat)) (o : MOwner) (r : MReq) (s : State) :
    (sendMember q sl o r s).mem.pools = s.mem.pools := by
  unfold sendMember
  split
  · rfl
  · split
    dsimp only
    unfold emitMember
    split <;> rfl

theorem joinMember_pools (p n q : Nat) (take : Bool) (s : State) : (joinMember p n q take s).mem.pools = s.mem.pools := by
  unfold joinMember
  split
  · rfl
  · dsimp only
    split
    · exact (sendMember_pools ..).trans ((sendMember_pools ..).trans (sendMember_pools ..))
    · exact (sendMember_pools ..).trans (sendMember_pools ..)

theorem writeLabel_pools (l n : Nat) (retired both : Bool) (s : State) : (writeLabel l n retired both s).mem.pools = s.mem.pools := by
  unfold writeLabel
  split
  · rfl
  · exact List.foldlRecOn _ _ (motive := fun t : State => t.mem.pools = s.mem.pools) rfl fun t same _ _ =>
      (sendMember_pools ..).trans same

/-! ## Admin operations on pools and slots (08 R322 to R330; 09 R336) -/

section
variable {c p n : Nat} {a : SlotAct} {x : Cmd} {s : State}

theorem slotRec_updMport (k : Nat) (f : MPort → MPort) : slotRec p n (updMport k f s) = slotRec p n s := rfl

/-- The slot of an adopted member. -/
theorem adopt_slotRec (k : Nat) : (slotRec p n (adopt c k p n s)).st = .rebuilding ∧ (slotRec p n (adopt c k p n s)).reason = 0x12 ∧
    (slotRec p n (adopt c k p n s)).port = some k ∧ (slotRec p n (adopt c k p n s)).adopting = some c := by
  unfold adopt
  dsimp only
  rw [slotRec_of_pools ((writeLabel_pools ..).trans (joinMember_pools ..)) p n, slotRec_updMport, slotTo_slotRec_same, slotRec_updSlot_same]
  exact ⟨rfl, rfl, rfl, rfl⟩

theorem startAct_bad {st : BitVec 16} {why : Nat} (bad : slotActBad a p n s = some (st, why)) :
    startAct c p n a s = finishCmd c st (BitVec.ofNat 32 why) s := by
  unfold startAct
  rw [bad]
  rfl

theorem startAct_fine (fine : slotActBad a p n s = none) : startAct c p n a s = if commitsRefused s then finishCmd c 0x0005 0x0B07 s
    else if jointPool p s then propose { r := poolShared p (actPool a p n s), cmd := some c, act := some (p, n, a) }
      (updCmd c (fun x => { x with ph := .waiting }) s)
    else slotAct c p n a s := by
  unfold startAct
  rw [fine]
  rfl

theorem slotAct_fine (fine : slotActBad a p n s = none) : slotAct c p n a s = match a with
    | .adopt q => adopt c q p n s
    | .retire => finishCmd c 0 0 (slotEmptied p n (startRetire p n (slotTo p n .retiring 0x0F s)))
    | .fail => finishCmd c 0 0 (slotFails p n 0x0C s)
    | .patrol => finishCmd c 0 0 (landCommit p (passFrom p s))
    | .patrolOn => finishCmd c 0 1 (landCommit p (passOn p s)) := by
  unfold slotAct
  rw [fine]
  cases a <;> rfl

theorem startAct_refused (fine : slotActBad a p n s = none) (refused : commitsRefused s = true) :
    startAct c p n a s = finishCmd c 0x0005 0x0B07 s := (startAct_fine fine).trans (if_pos refused)

theorem startAct_joint (fine : slotActBad a p n s = none) (takes : commitsRefused s = false) (joint : jointPool p s = true) :
    startAct c p n a s = propose { r := poolShared p (actPool a p n s), cmd := some c, act := some (p, n, a) }
      (updCmd c (fun x => { x with ph := .waiting }) s) :=
  (startAct_fine fine).trans ((if_neg (ne_true_of_eq_false takes)).trans (if_pos joint))

theorem startAct_alone (fine : slotActBad a p n s = none) (takes : commitsRefused s = false) (alone : jointPool p s = false) :
    startAct c p n a s = slotAct c p n a s :=
  (startAct_fine fine).trans ((if_neg (ne_true_of_eq_false takes)).trans (if_neg (ne_true_of_eq_false alone)))

/-- The checks of PATROL_START, first to last (09 R336). -/
theorem patrolBad_row :
    (8 ≤ p ∨ poolValid p s = false → patrolBad p s = some (0x0002, 0x0901)) ∧
    (p < 8 → poolValid p s = true → owns p s = false → patrolBad p s = some (0x0201, 0x0902)) ∧
    (p < 8 → poolValid p s = true → owns p s = true →
      ((poolRec p s).reshape.st = 1 ∨ (poolRec p s).reshape.st = 2 → patrolBad p s = some (0x0006, 0x0903)) ∧
      ((poolRec p s).reshape.st ≠ 1 → (poolRec p s).reshape.st ≠ 2 →
        ((poolRec p s).patrol.st = 1 ∨ (poolRec p s).patrol.st = 2 → patrolBad p s = some (0x0006, 0x0904)) ∧
        ((poolRec p s).patrol.st = 0 ∨ (poolRec p s).patrol.st = 3 → patrolBad p s = none))) := by
  have row : patrolBad p s = if ¬ (p < 8 ∧ poolValid p s = true) then some (0x0002, 0x0901)
      else if owns p s = false then some (0x0201, 0x0902)
      else if (poolRec p s).reshape.st = 1 ∨ (poolRec p s).reshape.st = 2 then some (0x0006, 0x0903)
      else if (poolRec p s).patrol.st = 1 ∨ (poolRec p s).patrol.st = 2 then some (0x0006, 0x0904) else none := by
    unfold patrolBad
    simp only [Bool.not_eq_true', Bool.and_eq_false_iff, decide_eq_false_iff_not, Bool.or_eq_true, decide_eq_true_eq, not_and_or,
      Bool.not_eq_true]
  rw [row]
  refine ⟨fun no => ?_, fun low valid foreign => ?_, fun low valid own => ⟨fun moves => ?_, fun one two =>
    ⟨fun runs => ?_, fun free => ?_⟩⟩⟩
  · refine if_pos ?_
    rintro ⟨low, valid⟩
    exact no.elim (fun far => absurd low (Nat.not_lt.mpr far)) fun h => Bool.false_ne_true (h.symm.trans valid)
  · rw [if_neg (not_not.mpr ⟨low, valid⟩), if_pos foreign]
  · rw [if_neg (not_not.mpr ⟨low, valid⟩), if_neg (by rw [own]; decide), if_pos moves]
  · rw [if_neg (not_not.mpr ⟨low, valid⟩), if_neg (by rw [own]; decide), if_neg (not_or.mpr ⟨one, two⟩), if_pos runs]
  · rw [if_neg (not_not.mpr ⟨low, valid⟩), if_neg (by rw [own]; decide), if_neg (not_or.mpr ⟨one, two⟩), if_neg (by omega)]

theorem patrolStart_bad {st : BitVec 16} {why : Nat} (now : adminNow 0x95 s = some (c, x))
    (bad : patrolBad (arg x 41 1) s = some (st, why)) :
    exec .patrolStart s = .next (settle (finishCmd c st (BitVec.ofNat 32 why) s)) := by
  refine congrArg go ((asAdmin_now now _).trans ?_)
  dsimp only
  rw [bad]
  rfl

theorem patrolStart_fine (now : adminNow 0x95 s = some (c, x)) (fine : patrolBad (arg x 41 1) s = none) : exec .patrolStart s =
    .next (settle (startAct c (arg x 41 1) 0 (if (poolRec (arg x 41 1) s).patrol.st = 3 then .patrolOn else .patrol) s)) := by
  refine congrArg go ((asAdmin_now now _).trans ?_)
  dsimp only
  rw [fine]

/-- MEMBER_ADOPT, MEMBER_RETIRE and MEMBER_FAIL run as their slot's operation. -/
theorem memberAct_row {i : Instr} (which :
      (i = .memberAdopt ∧ a = .adopt (adoptPort (arg x 40 1) (arg x 41 1) (arg x 42 1) s) ∧ adminNow 0x92 s = some (c, x)) ∨
      (i = .memberRetire ∧ a = .retire ∧ adminNow 0x93 s = some (c, x)) ∨
      (i = .memberFail ∧ a = .fail ∧ adminNow 0x94 s = some (c, x))) :
    exec i s = .next (settle (startAct c (arg x 41 1) (arg x 42 1) a s)) := by
  obtain ⟨rfl, rfl, now⟩ | ⟨rfl, rfl, now⟩ | ⟨rfl, rfl, now⟩ := which <;> exact congrArg go (asAdmin_now now _)

end

/-- Settles O35. -/
theorem poolOperations : Obligations.PoolOperations := by
  refine ⟨fun c x s => ?_, fun c x s => ?_⟩
  · intro p
    have invalid (no : 8 ≤ p ∨ poolValid p s = false) : (!(decide (p < 8) && poolValid p s)) = true := by
      obtain far | gone := no
      · rw [decide_eq_false (Nat.not_lt.mpr far)]
        rfl
      · rw [gone, Bool.and_false]
        rfl
    have valid (low : p < 8) (there : poolValid p s = true) : ¬ (!(decide (p < 8) && poolValid p s)) = true := by
      rw [decide_eq_true low, there]
      decide
    exact ⟨fun now low there => congrArg ok ((asAdmin_now now _).trans (if_neg (valid low there))),
      fun now no => congrArg ok ((asAdmin_now now _).trans (if_pos (invalid no))),
      fun now low there => congrArg ok ((asAdmin_now now _).trans (if_neg (valid low there))),
      fun now no => congrArg ok ((asAdmin_now now _).trans (if_pos (invalid no)))⟩
  · intro q p n
    refine ⟨fun i a which => ?_, fun k _ => adopt_slotRec k, fun now => ?_⟩
    · have row := memberAct_row which
      refine ⟨fun st why bad => by rw [row, startAct_bad bad], fun fine refused => by rw [row, startAct_refused fine refused],
        fun fine takes joint => by rw [row, startAct_joint fine takes joint], fun fine takes alone => ?_⟩
      rw [row, startAct_alone fine takes alone, slotAct_fine fine]
      obtain ⟨-, rfl, -⟩ | ⟨-, rfl, -⟩ | ⟨-, rfl, -⟩ := which <;> rfl
    · obtain ⟨invalid, foreign, own⟩ := patrolBad_row (p := p) (s := s)
      refine ⟨fun no => patrolStart_bad now (invalid no), fun low valid far => patrolStart_bad now (foreign low valid far),
        fun low valid mine => ?_⟩
      obtain ⟨moves, rests⟩ := own low valid mine
      refine ⟨fun h => patrolStart_bad now (moves h), fun one two => ?_⟩
      obtain ⟨runs, free⟩ := rests one two
      have starts {a : SlotAct} (which : ((poolRec p s).patrol.st = 0 ∧ a = .patrol) ∨ ((poolRec p s).patrol.st = 3 ∧ a = .patrolOn)) :
          exec .patrolStart s = .next (settle (startAct c p 0 a s)) ∧ slotActBad a p 0 s = none := by
        have fine := free (which.imp (·.1) (·.1))
        refine ⟨(patrolStart_fine now fine).trans ?_, ?_⟩
        · obtain ⟨st, rfl⟩ | ⟨st, rfl⟩ := which
          · rw [if_neg (by show ¬ (poolRec p s).patrol.st = 3; omega)]
          · rw [if_pos st]
        · obtain ⟨-, rfl⟩ | ⟨-, rfl⟩ := which <;> exact fine
      refine ⟨fun h => patrolStart_bad now (runs h), fun idle refused => ?_, fun a which takes joint => ?_,
        fun st takes alone => ?_, fun st takes alone => ?_⟩
      · obtain ⟨row, fine⟩ : ∃ a, exec .patrolStart s = .next (settle (startAct c p 0 a s)) ∧ slotActBad a p 0 s = none :=
          idle.elim (fun st => ⟨_, starts (.inl ⟨st, rfl⟩)⟩) fun st => ⟨_, starts (.inr ⟨st, rfl⟩)⟩
        rw [fine.1, startAct_refused fine.2 refused]
      · obtain ⟨row, fine⟩ := starts which
        rw [row, startAct_joint fine takes joint]
      · obtain ⟨row, fine⟩ := starts (.inl ⟨st, rfl⟩)
        rw [row, startAct_alone fine takes alone, slotAct_fine fine]
      · obtain ⟨row, fine⟩ := starts (.inr ⟨st, rfl⟩)
        rw [row, startAct_alone fine takes alone, slotAct_fine fine]

end Sys2Proof.Machine
end

