-- ==== Sys2Proof/Proofs/MoveLines.lean ====
section
/-! SUPPORT. Sys2Proof/Proofs/MoveLines.lean: boundary commits of moves and restore walks, health logs, patrol passes and the reshape
walk (04 R143 to R161, 08 R318 to R330, 09 R332 to R356). -/

namespace Sys2Proof.Machine

/-! ## Commits of what a pool record is to be (10 R372) -/

section FutureCommit
variable {p : Nat} {s : State} (f land : State → State)

theorem futureCommit_alone (alone : jointPool p s = false) : futureCommit p f land s = ledCommit (land s) := by
  unfold futureCommit
  rw [alone]
  rfl

theorem futureCommit_pending (joint : jointPool p s = true) (pending : poolPending p s = true) : futureCommit p f land s = s := by
  unfold futureCommit
  rw [joint, pending]
  rfl

theorem futureCommit_proposed (joint : jointPool p s = true) (settled : poolPending p s = false) :
    futureCommit p f land s = propose { r := poolShared (p % 8) (f s) } s := by
  unfold futureCommit
  rw [joint, settled]
  rfl

end FutureCommit

/-! ## A cell's boundary (04 R149) -/

/-- A cell's relocation with its boundary at a band: the rows below are done. -/
def cellReached (p b : Nat) (r : Reloc) (s : State) : Reloc :=
  { r with boundary := b, window := r.window.filter (fun row => !decide (row / (poolEnt p s).q < b)), lastCommit := s.now }

/-- The state with a cell's boundary at a band, before the move settles. -/
def cellCommitted (p e i b : Nat) (r : Reloc) (s : State) : State :=
  (r.window.filter (fun row => decide (row / (poolEnt p s).q < b))).foldl (fun s row => freeAccepted p row i s)
    (setReloc p e i (cellReached p b r s) s)

theorem cellTo_row {p e i b : Nat} {r : Reloc} {s : State} (found : relocOf p e i s = some r) :
    cellTo p e i b s =
      if (poolEnt p (cellCommitted p e i b r s)).bands ≤ b ∨ nextBandFor p e b (cellCommitted p e i b r s) = none then
        poolCommit p (settleCell p e i (cellReached p b r s) (cellCommitted p e i b r s))
      else cellCommitted p e i b r s := by
  unfold cellTo
  rw [found]
  simp only [Bool.or_eq_true, decide_eq_true_eq, Option.isNone_iff_eq_none] <;> rfl

theorem commitCell_row {p e i : Nat} {r : Reloc} {s : State} (found : relocOf p e i s = some r) :
    commitCell p e i s =
      if r.settled = true ∨ r.stopped = true ∨ r.paused = true ∨ r.full = true ∨ r.remark ≠ [] ∨ commitsRefused s = true ∨
        works p s = false then s
      else
        let s0 := if 256 ≤ r.window.length then s else { s with now := max s.now (r.lastCommit + 1000000) }
        let b := cellFront 257 p e r r.boundary s0
        futureCommit p (setReloc p e i { r with boundary := b }) (cellTo p e i b) s0 := by
  unfold commitCell
  rw [found]
  simp only [Bool.or_eq_true, Bool.not_eq_true', List.isEmpty_eq_false_iff, or_assoc] <;> rfl

/-! ## A restore walk's boundary (08 R325) -/

/-- The state with a restore walk's boundary at a band, before the walk ends. -/
def walkCommitted (p n b : Nat) (w : Walk) (s : State) : State :=
  (w.window.filter (fun row => decide (row / (poolEnt p s).q < b))).foldl (fun s row =>
      ((walkRowsOf p n (row / (poolEnt p s).q) s).filter (fun x => x.1 == row)).foldl (fun s x => freeAccepted p row x.2 s) s)
    (updSlot p n (fun r => { r with restore := b }) (updPool p (fun x => { x with walks := tset x.walks n { w with
      window := w.window.filter (fun row => !decide (row / (poolEnt p s).q < b)), lastCommit := s.now } }) s))

theorem walkTo_row {p n b : Nat} {w : Walk} {s : State} (found : tget (poolRec p s).walks n = some w) :
    walkTo p n b s = if (poolEnt p (walkCommitted p n b w s)).bands ≤ b then
        startCopyBack p n (slotTo p n .online 0x13
          (updPool p (fun x => { x with walks := tdel x.walks n }) (walkCommitted p n b w s)))
      else walkCommitted p n b w s := by
  unfold walkTo
  rw [found]
  rfl

theorem commitWalk_row {p n : Nat} {w : Walk} {s : State} (found : tget (poolRec p s).walks n = some w) :
    commitWalk p n s =
      if w.remark ≠ [] ∨ commitsRefused s = true ∨ (slotRec p n s).st ≠ .rebuilding ∨ works p s = false then s
      else
        let s0 := if 256 ≤ w.window.length then s else { s with now := max s.now (w.lastCommit + 1000000) }
        let b := walkFront (w.next + 1) p n w (slotRec p n s0).restore s0
        futureCommit p (updSlot p n (fun r => { r with restore := b })) (walkTo p n b) s0 := by
  unfold commitWalk
  rw [found]
  simp only [Bool.or_eq_true, Bool.not_eq_true', List.isEmpty_eq_false_iff, bne_iff_ne, or_assoc] <;> rfl

/-! ## Health (04 R160) -/

theorem readLog_pools (q : Nat) (r : MReq) (s : State) : (readLog q r s).mem.pools = s.mem.pools := by
  unfold readLog emitMember
  repeat' split
  all_goals rfl

theorem healthLogRead_of_slot {q : PortNo} {p n : Nat} {s : State} (log : HealthLog) (found : healthSlot q.val s = some (p, n)) :
    exec (.healthLogRead q log) s =
      let s0 := readLog q.val .health (timeToOp ((slotRec p n s).lastHealth + 600) s)
      .next (settle (noteWear p n (updSlot p n (fun r =>
        let hot := if log.warnK ≤ log.tempK then r.hotReads + 1 else 0
        { r with smartPct := log.pctUsed, critWarn := log.critWarning, tempK := log.tempK, hotReads := hot,
                 hot := decide ((tgetD (tab s).limits p {}).hotReads ≤ hot), lastHealth := opSeconds s0 }) s0))) := by
  show execHealthLogRead q log s = _
  unfold execHealthLogRead
  rw [found]
  rfl

theorem enduranceLogRead_of_slot {q : PortNo} {p n : Nat} {s : State} (pct : Nat) (found : healthSlot q.val s = some (p, n))
    (reports : (mport q.val s).id.any (·.endurance) = true) :
    exec (.enduranceLogRead q pct) s =
      let s0 := readLog q.val .endurance (timeToOp ((slotRec p n s).lastEndur + 86400) s)
      .next (settle (noteWear p n (updSlot p n (fun r => { r with endurPct := pct, lastEndur := opSeconds s0 }) s0))) := by
  show execEnduranceLogRead q pct s = _
  unfold execEnduranceLogRead
  rw [found, reports]
  rfl

theorem enduranceLogRead_idle {q : PortNo} {s : State} (pct : Nat)
    (idle : healthSlot q.val s = none ∨ (mport q.val s).id.any (·.endurance) = false) :
    exec (.enduranceLogRead q pct) s = .next (settle s) := by
  show execEnduranceLogRead q pct s = _
  unfold execEnduranceLogRead
  split
  next found reports =>
    rcases idle with no | no
    · exact nomatch no.symm.trans found
    · exact nomatch no.symm.trans reports
  next => rfl

/-! ## Patrol passes (09 R332 to R334) -/

theorem passDue_row (p : Nat) (s : State) :
    passDue p s = if poolValid p s = false ∨ owns p s = false ∨ (poolRec p s).reshape.st = 2 then s
      else if (poolRec p s).patrol.st = 0 then
        startPass p (timeToOp ((poolRec p s).patrol.dueFrom + (prof s).patrolPeriod * 86400) s)
      else updPatrol p (fun y => { y with overdue := true })
        (timeToOp ((poolRec p s).patrol.dueFrom + (prof s).patrolPeriod * 86400) s) := by
  unfold passDue
  simp only [Bool.or_eq_true, Bool.not_eq_true', decide_eq_true_eq, or_assoc]

theorem progressCommit_row (p : Fin 8) (s : State) :
    exec (.patrolProgressCommit p) s = go (if (poolRec p.val s).patrol.st = 0 ∨ commitsRefused s = true then s
      else poolCommit p.val (recordPatrol p.val (timeToOp ((poolRec p.val s).patrol.lastCommit + 600) s))) := by
  show execPatrolProgressCommit p s = _
  unfold execPatrolProgressCommit
  simp only [Bool.or_eq_true, decide_eq_true_eq] <;> rfl

/-! ## The reshape walk (09 R347 to R353) -/

theorem reshapeStart_row (p : Nat) (s : State) :
    reshapeStart p s = if reshapeMay p s = false ∨ commitsRefused s = true then s
      else match (openSlots p s).find? (fun n => (mport (expectedPort (p + 8) n s) s).cls != .foreign 2 ||
          !(mport (expectedPort (p + 8) n s) s).id.any (fun i => fits p i s)) with
        | some n => recEvent 0x1F5 0x0033 p [BitVec.ofNat 8 (expectedPort (p + 8) n s % 128)] s
        | none => beginWalk p ((openSlots p s).foldl (fun s n => addSlot p n s) s) := by
  unfold reshapeStart
  simp only [Bool.or_eq_true, Bool.not_eq_true'] <;> rfl

theorem openSlots_of_none {p : Nat} {s : State} (no : addedSlots p s = []) : openSlots p s = [] := by
  unfold openSlots
  rw [no]
  rfl

/-- A reshape that adds no slot walks at once. -/
theorem beginWalk_of_none {p : Nat} {s : State} (may : reshapeMay p s = true) (takes : commitsRefused s = false)
    (no : addedSlots p s = []) :
    beginWalk p s =
      let s1 := updPool p (fun x => { x with reshape := { x.reshape with
        st := 2, b := 0, rows := (tgetD (tab s).targets p {}).rows, window := [], next := 0, finished := [], remark := [],
        lastCommit := s.now } }) (updPatrol p (fun y => ({ y with st := 0, overdue := false } : Patrol).save) s)
      poolCommit p (updPool p (fun x => { x with reshape := { x.reshape with src := srcFor p 0 s1 } }) s1) := by
  unfold beginWalk
  rw [may, takes, no]
  rfl

theorem reshapeCommit_row {p : Nat} {r : Reshape} {s : State} (walks : walking p s = some r) :
    reshapeCommit p s =
      let dirty := r.finished.filter (fun row => !(dirtySources p row s).isEmpty)
      if ¬ (works p s = true ∧ r.remark = [] ∧ commitsRefused s = false) then s
      else if dirty ≠ [] then updPool p (fun x => { x with reshape := { r with remark := dirty } }) s
      else
        let s0 := if 256 ≤ r.finished.length then s else { s with now := max s.now (r.lastCommit + 1000000) }
        let b := reshapeFront ((walkRows p s0).length + 1) (walkRows p s0)
          (r.finished.filter (fun row => !sourcesUsed p row s0)) r.b
        reshapeDone p (if b = r.b ∧ ∀ w ∈ r.window, w.homed = false ∧ w.saved = true then reshapeTo p b s0
          else futureCommit p (boundaryRecord p b) (reshapeTo p b) s0) := by
  have stop : (!works p s || !r.remark.isEmpty || commitsRefused s) = true ↔
      ¬ (works p s = true ∧ r.remark = [] ∧ commitsRefused s = false) := by
    simp only [Bool.or_eq_true, Bool.not_eq_true', List.isEmpty_iff, not_and_or, ← Bool.not_eq_true, not_not, or_assoc]
  unfold reshapeCommit
  rw [walks]
  simp only [stop, Bool.not_eq_true', List.isEmpty_eq_false_iff, Bool.and_eq_true, beq_iff_eq, List.all_eq_true] <;> rfl

theorem reshapeDone_row {p : Nat} {r : Reshape} {s : State} (walks : walking p s = some r) :
    reshapeDone p s = if (walkRows p s).length ≤ r.b ∧ r.window = [] ∧ ∀ e ∈ s.pipe.ops, e.2.pool ≠ p then
        futureCommit p (doneRecord p) (reshapeEnd p) s
      else s := by
  unfold reshapeDone
  rw [walks]
  simp only [Bool.and_eq_true, decide_eq_true_eq, List.isEmpty_iff, Bool.not_eq_true', List.any_eq_false, beq_iff_eq, and_assoc]

/-- Copying rows home makes operations only. -/
theorem sameButOps_rowOf (l row kind : Nat) (rebuild : Word) (why : Why) (s : State) :
    SameButOps s (rowOf l row kind rebuild why s) := .foldl _ _ _ fun _ _ => sameButOps_newOp ..

theorem reshapeTo_poolRec (p b : Nat) (s : State) :
    poolRec p (reshapeTo p b s) = poolRec p (boundaryRecord p b (carryLosts p b s)) := by
  have ops : SameButOps (boundaryRecord p b (carryLosts p b s)) (reshapeTo p b s) := .foldl _ _ _ fun t w => by
    split
    · exact sameButOps_rowOf ..
    · exact .refl _
  unfold poolRec
  rw [ops.mem]

/-- After a boundary commit the reshape's record holds the boundary, and its window the rows that wait to be copied home. -/
theorem reshapeTo_record (p b : Nat) (s : State) :
    (poolRec p (reshapeTo p b s)).reshape.b = b ∧
      ∀ w ∈ (poolRec p (reshapeTo p b s)).reshape.window, w.homed = false ∧ w.saved = true := by
  rw [reshapeTo_poolRec, boundaryRecord, poolRec_updPool_same]
  refine ⟨rfl, fun w hw => ?_⟩
  obtain ⟨v, hv, rfl⟩ := List.mem_map.1 hw
  have kept := (List.mem_filter.1 hv).2
  exact ⟨by simpa using kept, rfl⟩

/-! ## The obligation -/

section Boundaries
variable {p e i n : Nat} {s : State}

theorem relocOf_timed (c : Prop) [Decidable c] (t : Nat) :
    relocOf p e i (if c then s else { s with now := t }) = relocOf p e i s := by
  split <;> rfl

theorem walks_timed (c : Prop) [Decidable c] (t : Nat) :
    (poolRec p (if c then s else { s with now := t })).walks = (poolRec p s).walks := by
  split <;> rfl

end Boundaries

/-- Settles O34: each event by the row of the function that it runs. -/
theorem movesAndWalks : Obligations.MovesAndWalks := by
  refine ⟨⟨?_, ?_, ?_, ?_, ?_⟩, ?_⟩
  · intro p e i r s found stops
    refine ⟨fun stop => congrArg go ((commitCell_row found).trans (if_pos stop)), fun no => ?_⟩
    intro s0 b done r' s1
    have row : exec (.boundaryCommit (.cell p e i)) s =
        go (futureCommit p.val (setReloc p.val e.val i.val { r with boundary := b }) (cellTo p.val e.val i.val b) s0) :=
      congrArg go ((commitCell_row found).trans (if_neg no))
    have reaches : cellTo p.val e.val i.val b s0 = if (poolEnt p.val s1).bands ≤ b ∨ nextBandFor p.val e.val b s1 = none then
        poolCommit p.val (settleCell p.val e.val i.val r' s1) else s1 := cellTo_row ((relocOf_timed ..).trans found)
    refine ⟨fun alone low more => ?_, fun alone last => ?_, fun joint pending => ?_, fun joint settled => ?_⟩
    · rw [row, futureCommit_alone _ _ alone, reaches, if_neg]
      · rfl
      · rintro (high | none_)
        · omega
        · rw [none_] at more
          exact nomatch more
    · rw [row, futureCommit_alone _ _ alone, reaches, if_pos last]
      rfl
    · rw [row, futureCommit_pending _ _ joint pending]
      rfl
    · rw [row, futureCommit_proposed _ _ joint settled]
      rfl
  · intro p n w s found stops
    refine ⟨fun stop => congrArg go ((commitWalk_row found).trans (if_pos stop)), fun no => ?_⟩
    intro s0 b done s1 s2
    have row : exec (.boundaryCommit (.restore p n)) s =
        go (futureCommit p.val (updSlot p.val n.val (fun r => { r with restore := b })) (walkTo p.val n.val b) s0) :=
      congrArg go ((commitWalk_row found).trans (if_neg no))
    have reaches : walkTo p.val n.val b s0 = if (poolEnt p.val s2).bands ≤ b then
        startCopyBack p.val n.val (slotTo p.val n.val .online 0x13
          (updPool p.val (fun x => { x with walks := tdel x.walks n.val }) s2)) else s2 :=
      walkTo_row ((congrArg (tget · n.val) (walks_timed ..)).trans found)
    refine ⟨fun alone low => ?_, fun alone last => ?_, fun joint pending => ?_, fun joint settled => ?_⟩
    · rw [row, futureCommit_alone _ _ alone, reaches, if_neg (Nat.not_le.2 low)]
      rfl
    · rw [row, futureCommit_alone _ _ alone, reaches, if_pos last]
      rfl
    · rw [row, futureCommit_pending _ _ joint pending]
      rfl
    · rw [row, futureCommit_proposed _ _ joint settled]
      rfl
  · intro q log p n s found s0 hot s1
    have same : slotRec p n s0 = slotRec p n s := slotRec_of_pools (readLog_pools ..) ..
    have slot : slotRec p n s1 = _ := slotRec_updSlot_same ..
    exact ⟨healthLogRead_of_slot log found, by rw [slot, same], by rw [slot]⟩
  · intro q pct p n s found reports
    exact enduranceLogRead_of_slot pct found reports
  · intro q log pct s
    refine ⟨fun no => ?_, enduranceLogRead_idle pct⟩
    show execHealthLogRead q log s = _
    unfold execHealthLogRead
    rw [no]
    rfl
  · intro p s
    refine ⟨?_, ?_, ?_, ?_, ?_, ?_⟩
    · intro s1
      refine ⟨fun stop => congrArg go ((passDue_row ..).trans (if_pos stop)), fun valid own walks => ?_⟩
      have go_on : ¬ (poolValid p.val s = false ∨ owns p.val s = false ∨ (poolRec p.val s).reshape.st = 2) := by
        simp [valid, own, walks]
      exact ⟨fun rest => congrArg go ((passDue_row ..).trans ((if_neg go_on).trans (if_pos rest))),
        fun runs => congrArg go ((passDue_row ..).trans ((if_neg go_on).trans (if_neg runs)))⟩
    · intro runs takes s1
      exact (progressCommit_row p s).trans (congrArg go (if_neg (by simp [runs, takes])))
    · exact fun stop => (progressCommit_row p s).trans (congrArg go (if_pos stop))
    · exact fun stop => congrArg go ((reshapeStart_row ..).trans (if_pos stop))
    · intro may takes bad
      have row : reshapeStart p.val s = _ := (reshapeStart_row p.val s).trans (if_neg (by simp [may, takes]))
      refine ⟨fun n found => ?_, fun none_ => ?_, fun no => ?_⟩
      · refine congrArg go (row.trans ?_)
        rw [show List.find? _ (openSlots p.val s) = some n from found]
      · refine congrArg go (row.trans ?_)
        rw [show List.find? _ (openSlots p.val s) = none from none_]
      · intro s1
        refine congrArg go (row.trans ?_)
        rw [openSlots_of_none no]
        exact beginWalk_of_none may takes no
    · intro r walks dirty free
      have row := reshapeCommit_row walks
      refine ⟨fun no => congrArg go (row.trans (if_pos no)), fun may some_ => congrArg go (row.trans ?_), fun may none_ => ?_, ?_⟩
      · exact (if_neg (not_not.2 may)).trans (if_pos some_)
      · intro s0 b t still
        have run : exec (.reshapeCommit p) s = go (reshapeDone p.val (if still then t
            else futureCommit p.val (boundaryRecord p.val b) (reshapeTo p.val b) s0)) :=
          congrArg go (row.trans ((if_neg (not_not.2 may)).trans (if_neg (not_not.2 none_))))
        refine ⟨reshapeTo_record .., fun yes => ?_, fun no alone => ?_, fun no joint pending => ?_, fun no joint settled => ?_⟩
        · rw [run, if_pos yes]
          rfl
        · rw [run, if_neg no, futureCommit_alone _ _ alone]
          rfl
        · rw [run, if_neg no, futureCommit_pending _ _ joint pending]
          rfl
        · rw [run, if_neg no, futureCommit_proposed _ _ joint settled]
          rfl
      · exact ⟨fun yes alone => ((reshapeDone_row walks).trans (if_pos yes)).trans (futureCommit_alone _ _ alone),
          fun no => (reshapeDone_row walks).trans (if_neg no)⟩

end Sys2Proof.Machine
end

