-- ==== Sys2Proof/Proofs/PairLines.lean ====
section
/-! SUPPORT. Sys2Proof/Proofs/PairLines.lean: mirroring, joint commits and quiesces, forwarding (10 R367 to R376, R383, R386). -/

namespace Sys2Proof.Machine

/-! ## Mirroring (10 R367 to R371, R386) -/

section Mirroring
variable {h : PairHdr} {secs : List LineSector} {s : State}

theorem mirrorWrite_row (arrives : Arrives 1 h s) : exec (.mirrorWrite h secs) s = go
    (if (mirroring s || s.pair.st == 5) && cacheOn s && secs.all (fun x => !owns x.pool.val s) then
      match installAll secs (heard 1 h s) with
      | some t => ackMirror t
      | none => s
    else s) := congrArg go (deliver_arrives arrives)

theorem mirrorWrite_taken {t : State} (arrives : Arrives 1 h s)
    (ok : ((mirroring s || s.pair.st == 5) && cacheOn s && secs.all (fun x => !owns x.pool.val s)) = true)
    (installed : installAll secs (heard 1 h s) = some t) : exec (.mirrorWrite h secs) s = .next (settle (ackMirror t)) := by
  rw [mirrorWrite_row arrives, if_pos ok, installed]
  rfl

theorem mirrorWrite_refused (arrives : Arrives 1 h s)
    (no : ((mirroring s || s.pair.st == 5) && cacheOn s && secs.all (fun x => !owns x.pool.val s)) = false ∨
      installAll secs (heard 1 h s) = none) : exec (.mirrorWrite h secs) s = .next (settle s) := by
  rw [mirrorWrite_row arrives]
  rcases no with no | no
  · rw [no]
    rfl
  · rw [no, ite_self]
    rfl

theorem mirrorClean_row (p : Fin 16) (line : Nat) (mask : BitVec 16) (arrives : Arrives 1 h s) :
    exec (.mirrorClean h p line mask) s = .next (settle (ackMirror (if owns p.val s then heard 1 h s
      else (secsOf mask).foldl (fun s sec =>
        match (findLine p.val line s).filter (fun x => (tagAt x s).valid.getLsbD sec && (tagAt x s).dirty.getLsbD sec) with
        | some x => unwait x sec (makeClean x sec s)
        | none => if unrestored p.val line sec s then settleVault p.val line sec s else s)
        { heard 1 h s with
          pair.gaps := s.pair.gaps.filter (fun g => !(g.1 == p.val && g.2.1 == line && mask.getLsbD g.2.2)) }))) :=
  congrArg go (deliver_arrives arrives)

/-- The mirror area with the open entries of a sequence retired. -/
def retired (n : Nat) (t : Tbl Jnl) : Tbl Jnl := t.map (fun e => if e.2.seq = n && e.2.st = 1 then (e.1, { e.2 with st := 2 }) else e)

theorem not_open_of_mem_retired {n i : Nat} {t : Tbl Jnl} {e : Jnl} (mem : (i, e) ∈ retired n t) (seq : e.seq = n) : e.st ≠ 1 := by
  obtain ⟨⟨j, o⟩, -, eq⟩ := List.mem_map.1 mem
  split at eq
  next => cases eq; exact (nomatch ·)
  next other =>
    cases eq
    intro st
    exact other (by simp [seq, st])

theorem jnlRetire_row (n : Nat) (arrives : Arrives 1 h s) : exec (.jnlRetire h n) s =
    .next (settle (ackMirror { heard 1 h s with jnl.mirror := retired n s.jnl.mirror })) :=
  congrArg go (deliver_arrives arrives)

theorem ackMirror_jnl (t : State) : (ackMirror t).jnl = t.jnl := (sameButReports_sendPair ..).jnl

theorem piecesOf_nil {α : Type} (n : Nat) : piecesOf (n + 1) ([] : List α) = [] := by
  unfold piecesOf
  rw [List.length_nil, Nat.zero_add, Nat.add_sub_cancel, Nat.div_eq_of_lt (Nat.lt_succ_self n)]
  rfl

theorem piecesOf_ne_nil {α : Type} (n : Nat) {l : List α} (some : l ≠ []) : piecesOf (n + 1) l ≠ [] := by
  have long := List.length_pos_iff.2 some
  have pieces : 0 < (l.length + (n + 1) - 1) / (n + 1) := Nat.div_pos (by omega) (by omega)
  unfold piecesOf
  simp only [ne_eq, List.map_eq_nil_iff, List.range_eq_nil]
  omega

theorem sendLine_row (l line : Nat) (s : State) : sendLine l line s =
    if lineSectors l line s = [] then sendPair (.resyncLine [] none) s
    else (piecesOf 15 (lineSectors l line s)).foldl (fun t ss => sendPair (.resyncLine ss none) t) s := by
  unfold sendLine sectorsPerMsg
  by_cases empty : lineSectors l line s = []
  · rw [if_pos empty, empty, piecesOf_nil]
  · rw [if_neg empty]
    split
    next none => exact absurd none (piecesOf_ne_nil _ empty)
    next => rfl

theorem resyncLine_row (e : Option JnlWire) (arrives : Arrives 4 h s) : exec (.resyncLine h secs e) s = go
    (let s1 := match e with
      | some e => storeMirror e (heard 4 h s)
      | none => heard 4 h s
    match secs.find? (fun x => owns x.pool.val s1) with
    | some x => sendLine x.pool.val x.line s1
    | none => (installAll secs s1).getD (missLine secs s1)) := congrArg go (deliver_arrives arrives)

theorem resyncDone_row (arrives : Arrives 4 h s) :
    exec (.resyncDone h) s = .next (settle (endResync { heard 4 h s with pair.resyncIn := true })) :=
  congrArg go (deliver_arrives arrives)

theorem endResync_ends {t : State} (st : t.pair.st = 3) (into : t.pair.resyncIn = true) (out : t.pair.resyncOut = true) :
    (endResync t).pair.st = 4 ∧ (endResync t).pair.resyncIn = true := by
  have pair : (endResync t).pair =
      { t.pair with detached := t.pair.detached.filter (fun p => !(poolsOf t.led.peer t).contains p), st := 4 } := by
    unfold endResync
    rw [if_neg (by simp [st, into, out])]
    exact setPairSt_pair ..
  rw [pair]
  exact ⟨rfl, into⟩

end Mirroring

/-- Settles O38: each message by its row, once it is delivered. -/
theorem mirrorMessages : Obligations.MirrorMessages := by
  refine ⟨?_, ?_, ?_, ?_, ?_, ?_, ?_⟩
  · intro h secs s arrives ok
    exact ⟨fun t fine installed => mirrorWrite_taken arrives fine installed, mirrorWrite_refused arrives⟩
  · intro h n s arrives
    exact congrArg go (deliver_arrives arrives)
  · intro h p line mask s arrives
    have row := mirrorClean_row p line mask arrives
    exact ⟨fun own => row.trans (congrArg (fun t => go (ackMirror t)) (if_pos own)),
      fun other => row.trans (congrArg (fun t => go (ackMirror t)) (if_neg (ne_true_of_eq_false other)))⟩
  · intro h e s arrives
    exact congrArg go (deliver_arrives arrives)
  · intro h n s arrives
    refine ⟨jnlRetire_row n arrives, _, jnlRetire_row n arrives, fun i e mem seq => ?_⟩
    rw [ackMirror_jnl] at mem
    exact not_open_of_mem_retired mem seq
  · intro h secs e s arrives s1
    have owners : ∀ p, owns p s1 = owns p s := by
      intro p
      dsimp only [s1]
      split <;> rfl
    have row : exec (.resyncLine h secs e) s = go (match secs.find? (fun x => owns x.pool.val s) with
        | some x => sendLine x.pool.val x.line s1
        | none => (installAll secs s1).getD (missLine secs s1)) := by
      rw [resyncLine_row e arrives]
      simp only [← owners] <;> rfl
    have noOwner : (∀ x ∈ secs, owns x.pool.val s = false) → secs.find? (fun x => owns x.pool.val s) = none :=
      fun none_ => List.find?_eq_none.2 fun x mem => ne_true_of_eq_false (none_ x mem)
    refine ⟨fun x found => ?_, fun t none_ installed => ?_, fun none_ misses => ?_⟩
    · rw [row, found]
      exact congrArg go (sendLine_row ..)
    · rw [row, noOwner none_, installed]
      rfl
    · rw [row, noOwner none_, misses]
      rfl
  · intro h s arrives
    exact ⟨resyncDone_row arrives, fun st out => ⟨_, resyncDone_row arrives, endResync_ends st rfl out⟩⟩

/-! ## Joint commits and quiesces (10 R372, R374) -/

theorem ackThrough_nil {cls : Nat} {f : PMsg → Bool} {s : State} (acked : s.pair.unacked = []) : ackThrough cls f s = s := by
  unfold ackThrough
  rw [acked]
  rfl

/-! An acknowledgement changes the messages kept only. -/

theorem ackThrough_pair (cls : Nat) (f : PMsg → Bool) (s : State) :
    (ackThrough cls f s).pair = { s.pair with unacked := (ackThrough cls f s).pair.unacked } := by
  unfold ackThrough
  split <;> rfl

theorem ackThrough_led (cls : Nat) (f : PMsg → Bool) (s : State) : (ackThrough cls f s).led = s.led := by
  unfold ackThrough
  split <;> rfl

theorem ackThrough_mem (cls : Nat) (f : PMsg → Bool) (s : State) : (ackThrough cls f s).mem = s.mem := by
  unfold ackThrough
  split <;> rfl

theorem nextForming_other {s : State} (other : s.pair.st ≠ 2) : nextForming s = s := if_neg (by simp [other])

section Votes
variable {c : JointC} {s : State}

theorem voteIn_only (yes : Bool) (acked : s.pair.unacked = []) (only : s.pair.joint = [c]) : voteIn yes s =
    let s := { s with pair.joint := [] }
    if yes then
      let s := match c.auth with
        | some n => { s with led.authSeq := n, sec.accepted := sat32 s.sec.accepted 1 }
        | none => s
      let s := applyShared c.r true (sendPair (.ledgerDecide true) s)
      let s := match c.r with
        | .poolOwner p _ _ => if s.pair.xfer = .commit && s.pair.xferCur = p.val then
            endXfer none (sendPair (.xfer (.done p)) s) else s
        | _ => s
      let s := if c.quiesced then jointCommitted s else jointEnd c s
      nextForming (afterShared c.r s)
    else if c.quiesced then dropQuiesce s
    else nextForming (match c.cmd with
      | some k => finishCmd k 0x0202 0 s
      | none => (match c.r with
        | .poolOwner p _ _ => if s.pair.xfer = .commit && s.pair.xferCur = p.val then endXfer (some 0x0A04) s else s
        | .poolRecord p _ => if owns p.val s then { s with pair.again := nins s.pair.again p.val } else s
        | _ => s)) := by
  unfold voteIn
  rw [ackThrough_nil acked]
  dsimp only
  rw [only] <;> rfl

/-- The commit of a pair configuration by the module that proposed it. -/
def pairConfigured (b : List Byte) (s : State) : State :=
  ledCommitRec (0x38 * 65536) { sendPair (.ledgerDecide true) { s with pair.joint := [] } with led.pairCfg := b }

variable {b : List Byte}

theorem pairConfigured_standing (b : List Byte) (s : State) : standing (pairConfigured b s) = standing s :=
  (standing_sendPair ..).trans rfl

theorem pairConfigured_record (b : List Byte) (s : State) : (pairConfigured b s).led.pairCfg = b ∧
    (pairConfigured b s).led.seq = s.led.seq + 1 ∧ (pairConfigured b s).pair.joint = [] := by
  refine ⟨rfl, congrArg (·.seq + 1) (sendPair_led ..), ?_⟩
  show (sendPair (.ledgerDecide true) { s with pair.joint := [] }).pair.joint = []
  unfold sendPair
  rw [(wirePair_events ..).pair]

theorem voteIn_pairConfig (acked : s.pair.unacked = []) (only : s.pair.joint = [{ r := .pairConfig b }]) (st : s.pair.st = 4) :
    voteIn true s = pairConfigured b s := by
  rw [voteIn_only true acked only]
  refine nextForming_other (s := pairConfigured b s) ?_
  rw [st_of_standing (pairConfigured_standing b s)]
  exact ne_of_eq_of_ne st (by decide)

theorem voteIn_pairConfig_cmd {k : Nat} (acked : s.pair.unacked = []) (only : s.pair.joint = [{ r := .pairConfig b, cmd := some k }])
    (st : s.pair.st = 4) : voteIn true s = finishCmd k 0 0 (pairConfigured b s) := by
  rw [voteIn_only true acked only]
  refine nextForming_other (s := finishCmd k 0 0 (pairConfigured b s)) ?_
  rw [st_of_standing ((standing_finishCmd ..).trans (pairConfigured_standing b s))]
  exact ne_of_eq_of_ne st (by decide)

theorem voteIn_no_cmd {r : SharedRec} {k : Nat} (acked : s.pair.unacked = []) (only : s.pair.joint = [{ r := r, cmd := some k }]) :
    voteIn false s = nextForming (finishCmd k 0x0202 0 { s with pair.joint := [] }) := by
  rw [voteIn_only false acked only]
  rfl

theorem voteIn_no_pool {p : Fin 8} {x : PoolShare} (acked : s.pair.unacked = []) (only : s.pair.joint = [{ r := .poolRecord p x }])
    (own : owns p.val s = true) (st : s.pair.st = 4) :
    voteIn false s = { s with pair.joint := [], pair.again := nins s.pair.again p.val } := by
  rw [voteIn_only false acked only]
  refine (congrArg nextForming (if_pos own)).trans (nextForming_other ?_)
  exact ne_of_eq_of_ne st (by decide)

end Votes

section Joint
variable {h : PairHdr} {s : State}

/-- What acknowledges votes: a decision. -/
def decideAcks (s : State) : State := ackThrough 2 (fun m => match m with
  | .ledgerVote .. => true
  | _ => false) s

theorem decideAcks_led (s : State) : (decideAcks s).led = s.led := ackThrough_led ..

theorem decideAcks_staged (s : State) : (decideAcks s).pair.staged = s.pair.staged := by
  rw [decideAcks, ackThrough_pair]

theorem ledgerDecide_row (yes : Bool) (arrives : Arrives 2 h s) : exec (.ledgerDecide h yes) s = go
    (match s.pair.staged with
    | [] => decideAcks (heard 2 h s)
    | r :: rest =>
      let t := { decideAcks (heard 2 h s) with pair.staged := rest }
      if yes then
        let u := applyShared r false t
        afterShared r (if jointRecord r u then jointCommitted u else u)
      else if jointRecord r t then dropQuiesce t else t) := by
  refine congrArg go ((deliver_arrives arrives).trans ?_)
  rw [← show (decideAcks (heard 2 h s)).pair.staged = s.pair.staged from decideAcks_staged _] <;> rfl

/-- What acknowledges a quiesce: QUIESCE_DONE. -/
def quiesceAcks (s : State) : State := ackThrough 2 (fun m => match m with
  | .quiesce _ => true
  | .quiesceDone => true
  | .ledgerDecide _ => true
  | _ => false) s

theorem quiesceAcks_jq (s : State) : (quiesceAcks s).pair.jq = s.pair.jq := by
  rw [quiesceAcks, ackThrough_pair]

theorem quiesceDone_row (arrives : Arrives 2 h s) : exec (.quiesceDone h) s = go
    (match s.pair.jq with
    | none => quiesceAcks (heard 2 h s)
    | some q =>
      if q.peerDone then endJoint { quiesceAcks (heard 2 h s) with pair.jq := some { q with peerApplied := true } }
      else { quiesceAcks (heard 2 h s) with pair.jq := some { q with peerDone := true } }) := by
  have jq : (quiesceAcks (heard 2 h s)).pair.jq = s.pair.jq := quiesceAcks_jq _
  refine congrArg go ((deliver_arrives arrives).trans ?_)
  show (match (quiesceAcks (heard 2 h s)).pair.jq with
    | none => quiesceAcks (heard 2 h s)
    | some q =>
      if q.peerDone then endJoint (updJq (fun q => { q with peerApplied := true }) (quiesceAcks (heard 2 h s)))
      else updJq (fun q => { q with peerDone := true }) (quiesceAcks (heard 2 h s))) = _
  unfold updJq
  rw [jq]
  cases s.pair.jq <;> rfl

/-- What acknowledges a step of a transfer: the next. -/
def xferAcks (s : State) : State := ackThrough 2 (fun m => match m with
  | .xfer _ => true
  | _ => false) s

theorem xferAcks_pair (s : State) : (xferAcks s).pair = { s.pair with unacked := (xferAcks s).pair.unacked } :=
  ackThrough_pair ..

theorem xferAcks_led (s : State) : (xferAcks s).led = s.led := ackThrough_led ..

theorem xferAcks_mem (s : State) : (xferAcks s).mem = s.mem := ackThrough_mem ..

/-- The members of a pool whose transfer in begins are reserved. -/
def xferBegun (p : Nat) (s : State) : Nat × State :=
  resvTo p (resvSlots p s) (.acquire (ownKey s)) { s with pair.xferIn := some p, pair.xferOk := 0, pair.xferBad := [] }

theorem xferReleased_row (p : Fin 8) (arrives : Arrives 2 h s) : exec (.xfer h (.released p)) s = go
    (let s1 := xferAcks (heard 2 h s)
    if s.pair.xfer = .acquire ∧ s.pair.xferCur = p.val then endXfer (some 0x0A04) (acquireAll p.val s1)
    else if (xferBegun p.val s1).1 = 0 then
      xferStep p.val { (xferBegun p.val s1).2 with pair.xferLeft := (xferBegun p.val s1).1 }
    else { (xferBegun p.val s1).2 with pair.xferLeft := (xferBegun p.val s1).1 }) := by
  have pair := xferAcks_pair (heard 2 h s)
  have xfer : (xferAcks (heard 2 h s)).pair.xfer = s.pair.xfer := by rw [pair]; rfl
  have cur : (xferAcks (heard 2 h s)).pair.xferCur = s.pair.xferCur := by rw [pair]; rfl
  refine congrArg go ((deliver_arrives arrives).trans ?_)
  rw [← xfer, ← cur]
  simp only [Bool.and_eq_true, decide_eq_true_eq] <;> rfl

theorem xferAcquired_row (p : Fin 8) (arrives : Arrives 2 h s) : exec (.xfer h (.acquired p)) s = go
    (let s1 := xferAcks (heard 2 h s)
    if s.pair.xfer = .acquire ∧ s.pair.xferCur = p.val then
      propose { r := .poolOwner p (BitVec.ofNat 18 s.led.peer) ((poolRec p.val s).epoch + 1) } { s1 with pair.xfer := .commit }
    else s1) := by
  have pair := xferAcks_pair (heard 2 h s)
  have xfer : (xferAcks (heard 2 h s)).pair.xfer = s.pair.xfer := by rw [pair]; rfl
  have cur : (xferAcks (heard 2 h s)).pair.xferCur = s.pair.xferCur := by rw [pair]; rfl
  have peer : (xferAcks (heard 2 h s)).led.peer = s.led.peer := congrArg (·.peer) (xferAcks_led _)
  have rec_ : poolRec p.val (xferAcks (heard 2 h s)) = poolRec p.val s :=
    congrArg (fun m : MemSt => tgetD m.pools (p.val % 8) {}) (xferAcks_mem _)
  refine congrArg go ((deliver_arrives arrives).trans ?_)
  rw [← xfer, ← cur, ← peer, ← rec_]
  simp only [Bool.and_eq_true, decide_eq_true_eq] <;> rfl

theorem xferDone_row (p : Fin 8) (arrives : Arrives 2 h s) : exec (.xfer h (.done p)) s = go
    (if s.pair.xferIn = some p.val then { xferAcks (heard 2 h s) with pair.xferIn := none } else xferAcks (heard 2 h s)) := by
  have into : (xferAcks (heard 2 h s)).pair.xferIn = s.pair.xferIn := by rw [xferAcks_pair]; rfl
  refine congrArg go ((deliver_arrives arrives).trans ?_)
  rw [← into] <;> rfl

end Joint

/-- Settles O39: each message by its row, once it is delivered. -/
theorem jointCommits : Obligations.JointCommits := by
  intro h s arrives
  refine ⟨?_, ?_, ?_, ?_, ?_, ?_, ?_, ?_, ?_, ?_, ?_⟩
  · exact fun r ok => congrArg go ((deliver_arrives arrives).trans (if_pos ok))
  · exact fun r bad => congrArg go ((deliver_arrives arrives).trans (if_neg (ne_true_of_eq_false bad)))
  · exact fun yes => congrArg go (deliver_arrives arrives)
  · intro b only acked st
    refine ⟨_, congrArg go ((deliver_arrives arrives).trans (voteIn_pairConfig (s := heard 2 h s) acked only st)), ?_⟩
    exact pairConfigured_record b (heard 2 h s)
  · intro b k only acked st
    exact congrArg go ((deliver_arrives arrives).trans (voteIn_pairConfig_cmd (s := heard 2 h s) acked only st))
  · intro r k only acked
    exact congrArg go ((deliver_arrives arrives).trans (voteIn_no_cmd (s := heard 2 h s) acked only))
  · intro p x only acked own st
    exact congrArg go ((deliver_arrives arrives).trans (voteIn_no_pool (s := heard 2 h s) acked only own st))
  · intro s1
    refine ⟨fun none_ yes => ?_, fun r rest staged => ?_, fun b staged => ?_⟩
    · rw [ledgerDecide_row yes arrives, none_]
      rfl
    · intro u
      refine ⟨?_, ?_⟩
      · rw [ledgerDecide_row true arrives, staged]
        rfl
      · rw [ledgerDecide_row false arrives, staged]
        rfl
    · refine ⟨ledCommitRec (0x38 * 65536) { s1 with pair.staged := [], led.pairCfg := b }, ?_, rfl, ?_, rfl⟩
      · rw [ledgerDecide_row true arrives, staged]
        rfl
      · exact congrArg (·.seq + 1) (decideAcks_led (heard 2 h s))
  · intro bounded
    refine ⟨fun none_ => ?_, fun q some_ => ⟨fun first => ?_, fun r mine later => ?_⟩⟩
    all_goals refine congrArg go ((deliver_arrives arrives).trans ?_)
    all_goals unfold quiesceIn
    · rw [show (heard 2 h s).pair.jq = none from none_]
      rfl
    · rw [show (heard 2 h s).pair.jq = some q from some_]
      dsimp only
      split
      next r mine =>
        rcases first with no | lower
        · exact nomatch no.symm.trans mine
        · exact if_pos lower
      next => rfl
    · rw [show (heard 2 h s).pair.jq = some q from some_]
      dsimp only
      rw [mine]
      exact if_neg (Nat.not_lt.2 later)
  · intro s1
    refine ⟨fun none_ => ?_, fun q some_ => ⟨fun first => ?_, fun second => ?_⟩⟩
    · rw [quiesceDone_row arrives, none_]
      rfl
    · rw [quiesceDone_row arrives, some_]
      exact congrArg go (if_neg (ne_true_of_eq_false first))
    · rw [quiesceDone_row arrives, some_]
      exact congrArg go (if_pos second)
  · intro p s1 back r t
    have released := xferReleased_row p arrives
    have acquired := xferAcquired_row p arrives
    have done := xferDone_row p arrives
    refine ⟨fun yes => released.trans (congrArg go (if_pos yes)),
      fun no none_ => released.trans (congrArg go ((if_neg no).trans (if_pos none_))),
      fun no some_ => released.trans (congrArg go ((if_neg no).trans (if_neg some_))),
      fun st cur => acquired.trans (congrArg go (if_pos ⟨st, cur⟩)), fun other => acquired.trans (congrArg go (if_neg ?_)),
      fun into => done.trans (congrArg go (if_pos into)), fun other => done.trans (congrArg go (if_neg other))⟩
    rintro ⟨st, cur⟩
    exact other.elim (· st) (· cur)

/-! ## Forwarding (10 R371, R375, R376) -/

section Forwarding
variable {h : PairHdr} {s : State}

theorem forwardCmd_row (tag : Nat) (e : List Byte) (arrives : Arrives 3 h s) : exec (.forwardCmd h tag e) s = go
    (let c := (newCmd (.peer tag) 0 e (heard 3 h s)).1
    let t := (newCmd (.peer tag) 0 e (heard 3 h s)).2
    match volumeBad e t with
    | some (st, res) => finishCmd c st (BitVec.ofNat 32 res) t
    | none => if namesVolume e && ownOf (entVol e) t != .here then finishCmd c 0x0201 0 t else startIo c t) :=
  congrArg go (deliver_arrives arrives)

/-- Write data goes to the command of the peer that has the tag. -/
theorem forwardData_write (tag : Nat) (d : List Byte) (arrives : Arrives 3 h s) : exec (.forwardData h true tag d) s = go
    (match peerCmd tag s with
    | some c => forwardIn c d (heard 3 h s)
    | none => heard 3 h s) := congrArg go (deliver_arrives arrives)

theorem forwardIn_row {c : Nat} {x : Cmd} {t : State} (d : List Byte) (found : cmdOf c t = some x) :
    forwardIn c d t =
      let n := d.length / 4096
      let got := x.wdata ++ (List.range n).map (fun i => (x.got + i, slice d (4096 * i) 4096))
      if x.got + n < x.count then updCmd c (fun y => { y with wdata := got, got := y.got + n }) t
      else hostData c (some ((List.range x.count).flatMap (fun o => padTo 4096 (tgetD got o []))))
        (updCmd c (fun y => { y with got := y.got + n, ph := if y.ph = .begun then .data else y.ph }) t) := by
  unfold forwardIn
  rw [found]

/-- Read data goes to the buffer of the command that waits for it. -/
theorem forwardData_read (tag : Nat) (d : List Byte) (arrives : Arrives 3 h s) : exec (.forwardData h false tag d) s = go
    (match cmdOf tag s with
    | some x =>
      if x.ph = .forwarded then scatter x.port (dropRuns (4096 * x.got) x.sgl) d
        (updCmd tag (fun y => { y with got := y.got + d.length / 4096 }) (heard 3 h s))
      else heard 3 h s
    | none => heard 3 h s) := congrArg go (deliver_arrives arrives)

theorem forwardCpl_row (e : ForwardEnd) (arrives : Arrives 3 h s) : exec (.forwardCpl h e) s = go
    (match cmdOf e.tag s with
    | some x =>
      if x.ph = .forwarded then finishCmd e.tag e.status e.result (fillGaps x (e.result != 0) (heard 3 h s))
      else if x.ph = .waiting && x.opcode = 4 then updCmd e.tag (fun y => { y with opsLeft := 0 }) (heard 3 h s)
      else heard 3 h s
    | none => heard 3 h s) := congrArg go (deliver_arrives arrives)

theorem fillGaps_other {x : Cmd} (through : Bool) (two : x.opcode ≠ 2) (three : x.opcode ≠ 3) (t : State) :
    fillGaps x through t = t := if_pos (by simp [two, three])

/-- The state with an error of a member, which the peer reports, counted. -/
def errorReported (p n : Nat) (t : State) : State :=
  updSlot p n (fun r => { r with readErrs := lastDay r.readErrs t ++ [opSeconds t], readErrTotal := sat32 r.readErrTotal 1 }) t

theorem memberReport_row (p : Fin 8) (n : Fin 128) (timeout : Bool) (arrives : Arrives 3 h s) :
    exec (.memberReport h p n timeout) s = go
      (if !owns p.val s then heard 3 h s
      else if timeout then slotFails p.val n.val 0x04 (heard 3 h s)
      else if 64 ≤ (slotRec p.val n.val (errorReported p.val n.val (heard 3 h s))).readErrs.length then
        slotFails p.val n.val 0x07 (errorReported p.val n.val (heard 3 h s))
      else errorReported p.val n.val (heard 3 h s)) := congrArg go (deliver_arrives arrives)

end Forwarding

/-- Settles O40: each message by its row, once it is delivered. -/
theorem forwarding : Obligations.Forwarding := by
  intro h s arrives
  refine ⟨?_, ?_, ?_, ?_⟩
  · intro tag e c t
    have row := forwardCmd_row tag e arrives
    refine ⟨fun st res bad => row.trans ?_, fun good names other => row.trans ?_, fun good here => row.trans ?_⟩
    · dsimp only
      rw [show volumeBad e (newCmd (.peer tag) 0 e (heard 3 h s)).2 = some (st, res) from bad]
      rfl
    · dsimp only
      rw [show volumeBad e (newCmd (.peer tag) 0 e (heard 3 h s)).2 = none from good]
      exact congrArg go (if_pos (Bool.and_eq_true_iff.2 ⟨names, bne_iff_ne.2 other⟩))
    · dsimp only
      rw [show volumeBad e (newCmd (.peer tag) 0 e (heard 3 h s)).2 = none from good]
      refine congrArg go (if_neg fun both => ?_)
      obtain ⟨names, other⟩ := Bool.and_eq_true_iff.1 both
      exact here.elim (fun no => nomatch no.symm.trans names) (bne_iff_ne.1 other)
  · intro tag d
    have write := forwardData_write tag d arrives
    have read := forwardData_read tag d arrives
    refine ⟨fun c x peer found => ?_, fun none_ => ?_, fun x found waits => ?_, fun none_ => ?_⟩
    · have fwd := forwardIn_row (t := heard 3 h s) d found
      rw [peer] at write
      intro n got
      exact ⟨fun more => write.trans (congrArg go (fwd.trans (if_pos more))),
        fun last => write.trans (congrArg go (fwd.trans (if_neg (Nat.not_lt.2 last))))⟩
    · rw [write, none_]
      rfl
    · rw [read, found]
      exact congrArg go (if_pos waits)
    · rw [read]
      split
      next x found => exact congrArg go (if_neg (none_ x found))
      next => rfl
  · intro e
    have row := forwardCpl_row e arrives
    refine ⟨fun x found => ?_, fun none_ => ?_⟩
    · rw [found] at row
      refine ⟨fun waits => ⟨row.trans (congrArg go (if_pos waits)), fun two three => fillGaps_other _ two three _⟩,
        fun waits flush => row.trans (congrArg go ?_), fun notForwarded other => row.trans (congrArg go ?_)⟩
      · exact (if_neg (by rw [waits]; decide)).trans (if_pos (by simp [waits, flush]))
      · refine (if_neg notForwarded).trans (if_neg fun both => ?_)
        simp only [Bool.and_eq_true, decide_eq_true_eq] at both
        exact other.elim (· both.1) (· both.2)
    · rw [row, none_]
      rfl
  · intro p n
    refine ⟨fun own => ?_, fun own => ?_, fun other timeout => ?_⟩
    · rw [memberReport_row p n true arrives, own]
      rfl
    · intro s1
      rw [memberReport_row p n false arrives, own]
      rfl
    · rw [memberReport_row p n timeout arrives, other]
      rfl

end Sys2Proof.Machine
end

