-- ==== Sys2Proof/Proofs/VaultEntries.lean ====
section
/-! SUPPORT. Sys2Proof/Proofs/VaultEntries.lean: what becomes of the vault's entries and of a way's sectors when a
sector is destaged, written or dropped (07 R253, R266; 11 R398, R399, R411, R415). -/

namespace Sys2Proof.Machine

/-! ## Sectors of a tag (07 R253) -/

theorem getLsbD_bit16 (k i : Nat) : (bit16 k).getLsbD i = (decide (i < 16) && decide (k = i)) := by
  rw [bit16, BitVec.getLsbD_ofNat, Nat.testBit_two_pow]

theorem tagAt_setTag (x y : Nat) (t : Tag) (s : State) :
    tagAt y (setTag x t s) = if y = x then (if t.holds then t else {}) else tagAt y s := by
  unfold setTag tagAt tgetD
  by_cases holds : t.holds = true
  · rw [if_pos holds, if_pos holds]
    simp only [tget_tset]
    split <;> rfl
  · rw [if_neg holds, if_neg holds]
    simp only [tget_tdel]
    split <;> rfl

/-- A tag that holds no line has no sector. -/
theorem Tag.sectors_of_not_holds {t : Tag} (h : ¬ t.holds = true) : t.valid = 0 ∧ t.dirty = 0 := by
  simp only [Tag.holds, Bool.or_eq_true, bne_iff_ne, ne_eq, not_or, not_not] at h
  exact h.1

theorem tagAt_setTag_sectors (x : Nat) (t : Tag) (s : State) :
    (tagAt x (setTag x t s)).valid = t.valid ∧ (tagAt x (setTag x t s)).dirty = t.dirty := by
  rw [tagAt_setTag, if_pos rfl]
  split
  · exact ⟨rfl, rfl⟩
  next no =>
    obtain ⟨valid, dirty⟩ := Tag.sectors_of_not_holds no
    exact ⟨valid.symm, dirty.symm⟩

theorem tagLine_div {x : Nat} (small : x / 16 < 65536) (t : Tag) : tagLine x t / 65536 = t.lineHi := by
  have low : (x / 16) ^^^ ((t.lineHi * 40503 + t.pool % 8 * 7919) % 65536) < 2 ^ 16 :=
    Nat.xor_lt_two_pow small (Nat.mod_lt _ (by decide))
  unfold tagLine
  omega

/-! ## Entries of the vault index age (11 R398, R399) -/

/-- The entry `f` names what `e` names, and is restored and DEAD at least where `e` is. -/
structure Aged (e f : IdxEnt) : Prop where
  pool : f.pool = e.pool
  line : f.line = e.line
  mask : f.mask = e.mask
  half : f.half = e.half
  vsec : f.vsec = e.vsec
  dead : e.dead = true → f.dead = true
  restored : ∀ i, e.restored.getLsbD i = true → f.restored.getLsbD i = true

/-- The index `b` is the index `a` with its entries aged, or freed (11 R401). -/
def IndexAges (a b : List IdxEnt) : Prop := ∃ f : IdxEnt → IdxEnt, (∀ e, Aged e (f e)) ∧ (b = a.map f ∨ b = [])

theorem Aged.refl (e : IdxEnt) : Aged e e := ⟨rfl, rfl, rfl, rfl, rfl, id, fun _ => id⟩

theorem Aged.trans {e f g : IdxEnt} (h : Aged e f) (k : Aged f g) : Aged e g :=
  ⟨k.pool.trans h.pool, k.line.trans h.line, k.mask.trans h.mask, k.half.trans h.half, k.vsec.trans h.vsec,
    fun d => k.dead (h.dead d), fun i r => k.restored i (h.restored i r)⟩

namespace IndexAges

theorem refl (a : List IdxEnt) : IndexAges a a := ⟨id, Aged.refl, .inl (List.map_id a).symm⟩

theorem of_eq {a b : List IdxEnt} (h : b = a) : IndexAges a b := h ▸ refl a

theorem trans {a b c : List IdxEnt} (hab : IndexAges a b) (hbc : IndexAges b c) : IndexAges a c := by
  obtain ⟨f, aged, eq⟩ := hab
  obtain ⟨g, aged', eq'⟩ := hbc
  refine ⟨g ∘ f, fun e => (aged e).trans (aged' _), ?_⟩
  rcases eq' with rfl | rfl
  · rcases eq with rfl | rfl
    · exact .inl List.map_map
    · exact .inr rfl
  · exact .inr rfl

end IndexAges

theorem idxInForce_map {s t : State} {f : IdxEnt → IdxEnt} (aged : ∀ e, Aged e (f e)) (index : t.pow.index = s.pow.index.map f)
    (l line i : Nat) : idxInForce t l line i = (idxInForce s l line i).map f := by
  have same : (fun e : IdxEnt => e.pool == l && e.line == line && e.mask.getLsbD i) ∘ f =
      fun e => e.pool == l && e.line == line && e.mask.getLsbD i := by
    funext e
    simp only [Function.comp, (aged e).pool, (aged e).line, (aged e).mask]
  rw [idxInForce, index, ← List.map_reverse, List.find?_map, same]
  rfl

theorem idxInForce_freed {t : State} (index : t.pow.index = []) (l line i : Nat) : idxInForce t l line i = none := by
  rw [idxInForce, index]
  rfl

theorem unrestored_none {s : State} {l line i : Nat} (h : idxInForce s l line i = none) : unrestored l line i s = false := by
  rw [unrestored, h]

theorem unrestored_some {s : State} {l line i : Nat} {e : IdxEnt} (h : idxInForce s l line i = some e) :
    unrestored l line i s = (!e.dead && !e.restored.getLsbD i) := by
  rw [unrestored, h]

/-- A sector is restored once the entry in force for it is, and the index aged. -/
theorem unrestored_of_ended {s t : State} {l line i : Nat} {f : IdxEnt → IdxEnt} (aged : ∀ e, Aged e (f e))
    (index : t.pow.index = s.pow.index.map f ∨ t.pow.index = [])
    (ends : ∀ e, idxInForce s l line i = some e → (f e).dead = true ∨ (f e).restored.getLsbD i = true) :
    unrestored l line i t = false := by
  rcases index with mapped | freed
  · have found := idxInForce_map aged mapped l line i
    cases before : idxInForce s l line i with
    | none => exact unrestored_none (by rw [found, before]; rfl)
    | some e =>
      rw [unrestored_some (by rw [found, before]; rfl)]
      rcases ends e before with h | h <;> simp [h]
  · exact unrestored_none (idxInForce_freed freed ..)

/-- What is restored, or DEAD, or named by no entry stays so. -/
theorem unrestored_ages {s t : State} (h : IndexAges s.pow.index t.pow.index) {l line i : Nat}
    (done : unrestored l line i s = false) : unrestored l line i t = false := by
  obtain ⟨f, aged, index⟩ := h
  refine unrestored_of_ended aged index fun e before => ?_
  rw [unrestored_some before, Bool.and_eq_false_iff, Bool.not_eq_false', Bool.not_eq_false'] at done
  exact done.imp (aged e).dead ((aged e).restored i)

theorem idxInForce_names {s : State} {l line i : Nat} {e : IdxEnt} (h : idxInForce s l line i = some e) :
    e.pool = l ∧ e.line = line := by
  have named := List.find?_some h
  simp only [Bool.and_eq_true, beq_iff_eq] at named
  exact named.1

theorem freeIndex_index (s : State) : (freeIndex s).pow.index = s.pow.index ∨ (freeIndex s).pow.index = [] := by
  unfold freeIndex
  split
  · exact .inr rfl
  · exact .inl rfl

theorem freeIndex_cache (s : State) : (freeIndex s).cache = s.cache := by
  unfold freeIndex
  split <;> rfl

/-! ## Work on the vault for a way (11 R399, R411, R415) -/

/-- The free values under which every sector of the vault reads back (log entry 2): `killVault` takes bit `i` of a free value for
the verdict on sector `i`. `Config.freeWord` is uninterpreted, so that this can be neither proved nor refuted. -/
def VaultReadsBack : Prop := ∀ n i : Nat, i < 16 → (Config.freeWord n).getLsbD i = false

/-- From `s` to `t` the vault was worked on for the way `x`: no write is lost, no error counts, no other way changes. -/
structure VaultWork (x : Nat) (s t : State) : Prop where
  lostW : t.cache.lostW = s.cache.lostW
  dramUnc : t.cache.dramUnc = s.cache.dramUnc
  index : IndexAges s.pow.index t.pow.index
  others : ∀ y, y ≠ x → tagAt y t = tagAt y s

/-- From `s` to `t` the way `x` keeps its line, and sector `i` its state. -/
structure SectorStays (x i : Nat) (s t : State) : Prop where
  pool : (tagAt x t).pool = (tagAt x s).pool
  lineHi : (tagAt x t).lineHi = (tagAt x s).lineHi
  valid : (tagAt x t).valid.getLsbD i = (tagAt x s).valid.getLsbD i
  dirty : (tagAt x t).dirty.getLsbD i = (tagAt x s).dirty.getLsbD i

theorem VaultWork.refl (x : Nat) (s : State) : VaultWork x s s := ⟨rfl, rfl, .refl _, fun _ _ => rfl⟩

theorem VaultWork.trans {x : Nat} {s t u : State} (h : VaultWork x s t) (k : VaultWork x t u) : VaultWork x s u :=
  ⟨k.lostW.trans h.lostW, k.dramUnc.trans h.dramUnc, h.index.trans k.index, fun y ne => (k.others y ne).trans (h.others y ne)⟩

theorem SectorStays.refl (x i : Nat) (s : State) : SectorStays x i s s := ⟨rfl, rfl, rfl, rfl⟩

theorem SectorStays.trans {x i : Nat} {s t u : State} (h : SectorStays x i s t) (k : SectorStays x i t u) : SectorStays x i s u :=
  ⟨k.pool.trans h.pool, k.lineHi.trans h.lineHi, k.valid.trans h.valid, k.dirty.trans h.dirty⟩

theorem SectorStays.of_tag {x i : Nat} {s t : State} (h : tagAt x t = tagAt x s) : SectorStays x i s t := by
  constructor <;> rw [h]

theorem SectorStays.line {x i : Nat} {s t : State} (h : SectorStays x i s t) : tagLine x (tagAt x t) = tagLine x (tagAt x s) := by
  simp only [tagLine, h.pool, h.lineHi]

theorem tagAt_of_tags {s t : State} (h : t.cache.tags = s.cache.tags) (x : Nat) : tagAt x t = tagAt x s := by
  simp only [tagAt, h]

theorem VaultWork.of_cache {s t : State} (cache : t.cache = s.cache) (index : IndexAges s.pow.index t.pow.index) (x : Nat) :
    VaultWork x s t := ⟨by rw [cache], by rw [cache], index, fun y _ => tagAt_of_tags (by rw [cache]) y⟩

/-- An entry once its sector `sec` was destaged from the vault, or is lost there; `e` is the entry in force. -/
def paidEntry (l line sec : Nat) (e y : IdxEnt) : IdxEnt :=
  if y.pool = l ∧ y.line = line ∧ y.half = e.half ∧ y.vsec = e.vsec then
    { y with restored := y.restored ||| bit16 sec, dead := y.dead || y.mask &&& ~~~ (y.restored ||| bit16 sec) == 0 } else y

/-- An entry once its sector `sec` was destaged, written or invalidated; `e` is the entry in force. -/
def deadEntry (l line sec : Nat) (e y : IdxEnt) : IdxEnt :=
  if y.pool = l ∧ y.line = line ∧ y.half = e.half ∧ y.vsec = e.vsec then
    { y with dead := true, restored := y.restored ||| bit16 sec } else y

/-- An entry once its sector `sec` was installed. -/
def installedEntry (l line sec : Nat) (y : IdxEnt) : IdxEnt :=
  if y.pool = l ∧ y.line = line ∧ y.mask.getLsbD sec = true then { y with restored := y.restored ||| bit16 sec } else y

theorem getLsbD_or_left {v w : BitVec 16} {i : Nat} (h : v.getLsbD i = true) : (v ||| w).getLsbD i = true := by
  rw [BitVec.getLsbD_or, h, Bool.true_or]

theorem aged_paidEntry (l line sec : Nat) (e y : IdxEnt) : Aged y (paidEntry l line sec e y) := by
  unfold paidEntry
  split
  · exact ⟨rfl, rfl, rfl, rfl, rfl, fun dead => by simp [dead], fun _ => getLsbD_or_left⟩
  · exact .refl y

theorem aged_deadEntry (l line sec : Nat) (e y : IdxEnt) : Aged y (deadEntry l line sec e y) := by
  unfold deadEntry
  split
  · exact ⟨rfl, rfl, rfl, rfl, rfl, fun _ => rfl, fun _ => getLsbD_or_left⟩
  · exact .refl y

theorem aged_installedEntry (l line sec : Nat) (y : IdxEnt) : Aged y (installedEntry l line sec y) := by
  unfold installedEntry
  split
  · exact ⟨rfl, rfl, rfl, rfl, rfl, id, fun _ => getLsbD_or_left⟩
  · exact .refl y

theorem settleVault_cache (l line sec : Nat) (s : State) : (settleVault l line sec s).cache.tags = s.cache.tags ∧
    (settleVault l line sec s).cache.lostW = s.cache.lostW ∧ (settleVault l line sec s).cache.dramUnc = s.cache.dramUnc := by
  unfold settleVault
  split
  · exact ⟨rfl, rfl, rfl⟩
  · rw [freeIndex_cache]
    exact ⟨rfl, rfl, rfl⟩

theorem settleVault_index {l line sec : Nat} {s : State} {e : IdxEnt} (found : idxInForce s l line sec = some e) :
    (settleVault l line sec s).pow.index = s.pow.index.map (paidEntry l line sec e) ∨ (settleVault l line sec s).pow.index = [] := by
  unfold settleVault
  rw [found]
  exact freeIndex_index _

theorem settleVault_ages (l line sec : Nat) (s : State) : IndexAges s.pow.index (settleVault l line sec s).pow.index := by
  cases found : idxInForce s l line sec with
  | none => exact .of_eq (by rw [settleVault, found])
  | some e => exact ⟨_, aged_paidEntry l line sec e, settleVault_index found⟩

theorem settleVault_settles {l line sec : Nat} (small : sec < 16) (s : State) :
    unrestored l line sec (settleVault l line sec s) = false := by
  cases found : idxInForce s l line sec with
  | none =>
    exact unrestored_ages (settleVault_ages ..) (unrestored_none found)
  | some e =>
    obtain ⟨pool, line_⟩ := idxInForce_names found
    refine unrestored_of_ended (aged_paidEntry l line sec e) (settleVault_index found) fun y inForce => .inr ?_
    cases found.symm.trans inForce
    rw [paidEntry, if_pos ⟨pool, line_, rfl, rfl⟩]
    simp [getLsbD_bit16, small]

theorem vaultMoved_same (l line x sec : Nat) (s : State) : (vaultMoved l line x sec s).pow = s.pow ∧
    (vaultMoved l line x sec s).cache.tags = s.cache.tags ∧ (vaultMoved l line x sec s).cache.lostW = s.cache.lostW ∧
    (vaultMoved l line x sec s).cache.dramUnc = s.cache.dramUnc := by
  unfold vaultMoved
  dsimp only
  split <;> exact ⟨rfl, rfl, rfl, rfl⟩

theorem setTag_row (x : Nat) (t : Tag) (s : State) : setTag x t s = { s with cache.tags := (setTag x t s).cache.tags } := by
  unfold setTag
  split <;> rfl

/-- The tag of a way in which a sector of the vault is installed. -/
def restoredTag (l line sec : Nat) (t : Tag) : Tag :=
  { t with valid := t.valid ||| bit16 sec, dirty := t.dirty ||| bit16 sec, lineHi := line / 65536, pool := l }

theorem restoredTag_holds {l line sec : Nat} (small : sec < 16) (t : Tag) : (restoredTag l line sec t).holds = true := by
  have bit : (t.valid ||| bit16 sec).getLsbD sec = true := by simp [getLsbD_bit16, small]
  have some : t.valid ||| bit16 sec ≠ 0 := by
    intro none_
    rw [none_] at bit
    exact absurd bit (by simp)
  simp only [restoredTag, Tag.holds, bne_iff_ne.2 some, Bool.true_or]

section
variable {l line x sec : Nat} {d : List Byte} {s : State}

theorem tagAt_installRestored (small : sec < 16) (y : Nat) :
    tagAt y (installRestored l line x sec d s) = if y = x then restoredTag l line sec (tagAt x s) else tagAt y s := by
  unfold installRestored
  dsimp only
  rw [tagAt_of_tags (vaultMoved_same ..).2.1]
  refine (tagAt_of_tags (s := setTag x (restoredTag l line sec (tagAt x s)) (setCacheSec x sec d s)) rfl y).trans ?_
  rw [tagAt_setTag, if_pos (restoredTag_holds small _)]
  rfl

theorem installRestored_work (small : sec < 16) : VaultWork x s (installRestored l line x sec d s) := by
  have others : ∀ y, y ≠ x → tagAt y (installRestored l line x sec d s) = tagAt y s :=
    fun y ne => (tagAt_installRestored small y).trans (if_neg ne)
  have tagged := setTag_row x (restoredTag l line sec (tagAt x s)) (setCacheSec x sec d s)
  refine ⟨?_, ?_, ?_, others⟩
  · unfold installRestored
    dsimp only
    rw [(vaultMoved_same ..).2.2.1]
    exact congrArg (·.cache.lostW) tagged
  · unfold installRestored
    dsimp only
    rw [(vaultMoved_same ..).2.2.2]
    exact congrArg (·.cache.dramUnc) tagged
  · refine ⟨installedEntry l line sec, aged_installedEntry l line sec, .inl ?_⟩
    unfold installRestored
    dsimp only
    rw [(vaultMoved_same ..).1]
    exact congrArg (·.pow.index.map (installedEntry l line sec)) tagged

/-- Another sector of the line that a way holds is installed there. -/
theorem installRestored_stays {i : Nat} (small : sec < 16) (way : x / 16 < 65536) (pool : l = (tagAt x s).pool)
    (line_ : line = tagLine x (tagAt x s)) (other : sec ≠ i) : SectorStays x i s (installRestored l line x sec d s) := by
  have tag : tagAt x (installRestored l line x sec d s) = restoredTag l line sec (tagAt x s) :=
    (tagAt_installRestored small x).trans (if_pos rfl)
  constructor <;> rw [tag]
  · exact pool
  · exact (congrArg (· / 65536) line_).trans (tagLine_div way _)
  · simp [restoredTag, getLsbD_bit16, other]
  · simp [restoredTag, getLsbD_bit16, other]

end

/-! ## An entry that ends takes its other sectors along (11 R399) -/

theorem mem_secsOf {w : BitVec 16} {i : Nat} : i ∈ secsOf w ↔ i < 16 ∧ w.getLsbD i = true := by
  rw [secsOf, List.mem_filter, List.mem_range]

/-- A sector of the entry `e` is installed in the way `x`, or lost where it does not read back. -/
def restoreSec (l line x : Nat) (e : IdxEnt) (s : State) (i : Nat) : State :=
  match vaultSec e i s with
  | some d =>
    if (Config.freeWord s.free).getLsbD i then settleVault l line i (addLostW l line x i 3 (nextFree s))
    else installRestored l line x i d (nextFree s)
  | none => s

/-- The other sectors of the entry `e` that are to be restored. -/
def otherSecs (l line sec : Nat) (e : IdxEnt) (s : State) : List Nat :=
  (secsOf e.mask).filter fun i => i != sec && unrestored l line i s

/-- The entry `e` is DEAD, and freed if it was the last one. -/
def endEntry (l line x sec : Nat) (e : IdxEnt) (s : State) : State :=
  freeIndex (vaultMoved l line x sec { s with pow.index := s.pow.index.map (deadEntry l line sec e) })

theorem killVault_row (l line x sec : Nat) (s : State) : killVault l line x sec s =
    match idxInForce s l line sec with
    | none => s
    | some e => if e.dead then s else if !cacheOn s then settleVault l line sec s
      else endEntry l line x sec e ((otherSecs l line sec e s).foldl (restoreSec l line x e) s) := rfl

/-- What becomes of a sector whose entry ends: nothing, it is settled alone, or the entry ends after its other sectors. -/
theorem killVault_cases (l line x sec : Nat) (s : State) :
    (unrestored l line sec s = false ∧ killVault l line x sec s = s) ∨
    killVault l line x sec s = settleVault l line sec s ∨
    ∃ e, idxInForce s l line sec = some e ∧ killVault l line x sec s =
      endEntry l line x sec e ((otherSecs l line sec e s).foldl (restoreSec l line x e) s) := by
  rw [killVault_row]
  cases found : idxInForce s l line sec with
  | none => exact .inl ⟨unrestored_none found, rfl⟩
  | some e =>
    dsimp only
    split
    next dead => exact .inl ⟨by rw [unrestored_some found, dead]; rfl, rfl⟩
    · split
      · exact .inr (.inl rfl)
      · exact .inr (.inr ⟨e, rfl, rfl⟩)

theorem settleVault_work (l line x sec : Nat) (s : State) : VaultWork x s (settleVault l line sec s) :=
  have ⟨tags, lostW, dramUnc⟩ := settleVault_cache l line sec s
  ⟨lostW, dramUnc, settleVault_ages .., fun y _ => tagAt_of_tags tags y⟩

section
variable {l line x sec : Nat} {e : IdxEnt} {s : State}

theorem small_of_mem_otherSecs {k : Nat} (mem : k ∈ otherSecs l line sec e s) : k < 16 :=
  (mem_secsOf.1 (List.mem_of_mem_filter mem)).1

theorem endEntry_cache : (endEntry l line x sec e s).cache.tags = s.cache.tags ∧
    (endEntry l line x sec e s).cache.lostW = s.cache.lostW ∧ (endEntry l line x sec e s).cache.dramUnc = s.cache.dramUnc := by
  rw [endEntry, freeIndex_cache]
  exact (vaultMoved_same ..).2

theorem endEntry_index : (endEntry l line x sec e s).pow.index = s.pow.index.map (deadEntry l line sec e) ∨
    (endEntry l line x sec e s).pow.index = [] := by
  have freed := freeIndex_index (vaultMoved l line x sec { s with pow.index := s.pow.index.map (deadEntry l line sec e) })
  rwa [(vaultMoved_same ..).1] at freed

theorem endEntry_work : VaultWork x s (endEntry l line x sec e s) :=
  have ⟨tags, lostW, dramUnc⟩ := endEntry_cache (l := l) (line := line) (x := x) (sec := sec) (e := e) (s := s)
  ⟨lostW, dramUnc, ⟨_, aged_deadEntry l line sec e, endEntry_index⟩, fun y _ => tagAt_of_tags tags y⟩

end

section
variable {l line x sec : Nat} {e : IdxEnt} {s : State} (reads : VaultReadsBack)
include reads

theorem restoreSec_work {i : Nat} (small : i < 16) : VaultWork x s (restoreSec l line x e s i) := by
  unfold restoreSec
  split
  · rw [if_neg (by rw [reads _ _ small]; decide)]
    exact (VaultWork.of_cache (s := s) (t := nextFree s) rfl (.refl _) x).trans (installRestored_work small)
  · exact .refl x s

theorem restoreSec_stays {i k : Nat} (small : k < 16) (way : x / 16 < 65536) (pool : l = (tagAt x s).pool)
    (line_ : line = tagLine x (tagAt x s)) (other : k ≠ i) : SectorStays x i s (restoreSec l line x e s k) := by
  unfold restoreSec
  split
  · rw [if_neg (by rw [reads _ _ small]; decide)]
    exact .trans (t := nextFree s) (.of_tag rfl) (installRestored_stays small way pool line_ other)
  · exact .refl x i s

theorem restoreAll_work {ks : List Nat} (small : ∀ k ∈ ks, k < 16) : VaultWork x s (ks.foldl (restoreSec l line x e) s) :=
  List.foldlRecOn ks _ (motive := VaultWork x s) (.refl x s) fun _ h k mem => h.trans (restoreSec_work reads (small k mem))

theorem restoreAll_stays {i : Nat} {ks : List Nat} (small : ∀ k ∈ ks, k < 16) (way : x / 16 < 65536) (pool : l = (tagAt x s).pool)
    (line_ : line = tagLine x (tagAt x s)) (other : ∀ k ∈ ks, k ≠ i) :
    SectorStays x i s (ks.foldl (restoreSec l line x e) s) :=
  List.foldlRecOn ks _ (motive := SectorStays x i s) (.refl x i s) fun _ h k mem => h.trans
    (restoreSec_stays reads (small k mem) way (pool.trans h.pool.symm) (line_.trans h.line.symm) (other k mem))

theorem killVault_work : VaultWork x s (killVault l line x sec s) := by
  obtain ⟨-, same⟩ | same | ⟨e, -, same⟩ := killVault_cases l line x sec s <;> rw [same]
  · exact .refl x s
  · exact settleVault_work ..
  · exact (restoreAll_work reads fun _ => small_of_mem_otherSecs).trans endEntry_work

/-- The sector itself, and one that is not to be restored, keep their state in the tag of the line. -/
theorem killVault_stays {i : Nat} (way : x / 16 < 65536) (pool : l = (tagAt x s).pool) (line_ : line = tagLine x (tagAt x s))
    (done : i = sec ∨ unrestored l line i s = false) : SectorStays x i s (killVault l line x sec s) := by
  obtain ⟨-, same⟩ | same | ⟨e, -, same⟩ := killVault_cases l line x sec s <;> rw [same]
  · exact .refl x i s
  · exact .of_tag (tagAt_of_tags (settleVault_cache ..).1 x)
  · refine (restoreAll_stays reads (fun _ => small_of_mem_otherSecs) way pool line_ ?_).trans
      (.of_tag (tagAt_of_tags endEntry_cache.1 x))
    rintro k mem rfl
    have chosen := List.of_mem_filter mem
    simp only [Bool.and_eq_true, bne_iff_ne, ne_eq] at chosen
    rcases done with same | restored
    · exact chosen.1 same
    · exact absurd (restored.symm.trans chosen.2) (by decide)

theorem killVault_settles (small : sec < 16) : unrestored l line sec (killVault l line x sec s) = false := by
  obtain ⟨restored, same⟩ | same | ⟨e, found, same⟩ := killVault_cases l line x sec s <;> rw [same]
  · exact restored
  · exact settleVault_settles small s
  · obtain ⟨pool, line_⟩ := idxInForce_names found
    have work : VaultWork x s ((otherSecs l line sec e s).foldl (restoreSec l line x e) s) :=
      restoreAll_work reads fun _ => small_of_mem_otherSecs
    refine unrestored_of_ended (aged_deadEntry l line sec e) endEntry_index fun y inForce => .inl ?_
    obtain ⟨f, aged, mapped | freed⟩ := work.index
    · rw [idxInForce_map aged mapped, found] at inForce
      cases inForce
      rw [deadEntry, if_pos ⟨(aged e).pool.trans pool, (aged e).line.trans line_, (aged e).half, (aged e).vsec⟩]
    · exact nomatch (idxInForce_freed freed l line sec).symm.trans inForce

end

/-! ## A sector that is dropped (07 R266, R269) -/

/-- The tag of a way that keeps nothing of sector `sec`. -/
def clearedTag (sec : Nat) (t : Tag) : Tag :=
  { t with valid := t.valid &&& ~~~ bit16 sec, dirty := t.dirty &&& ~~~ bit16 sec }

/-- A dropped sector's entry of the vault ends. -/
def vaultLeft (x sec : Nat) (s : State) : State := killVault (tagAt x s).pool (tagLine x (tagAt x s)) x sec s

theorem syncShadow_row (x : Nat) (s : State) : syncShadow x s = { s with cache.shadow := (syncShadow x s).cache.shadow } := by
  unfold syncShadow
  dsimp only
  split <;> rfl

theorem dropSec_row (x sec : Nat) (s : State) : dropSec x sec s =
    let t := setTag x (clearedTag sec (tagAt x (vaultLeft x sec s))) (vaultLeft x sec s)
    { t with cache.since := tdel t.cache.since (secKey x sec), cache.shadow := (dropSec x sec s).cache.shadow } :=
  syncShadow_row ..

theorem tagAt_dropSec (x sec y : Nat) (s : State) : tagAt y (dropSec x sec s) =
    tagAt y (setTag x (clearedTag sec (tagAt x (vaultLeft x sec s))) (vaultLeft x sec s)) := by
  rw [dropSec_row]
  rfl

theorem dropSec_clears (x sec : Nat) (s : State) : VaultWork x (vaultLeft x sec s) (dropSec x sec s) := by
  have tagged := setTag_row x (clearedTag sec (tagAt x (vaultLeft x sec s))) (vaultLeft x sec s)
  refine ⟨?_, ?_, ?_, fun y ne => by rw [tagAt_dropSec, tagAt_setTag, if_neg ne]⟩ <;> rw [dropSec_row]
  · exact congrArg (·.cache.lostW) tagged
  · exact congrArg (·.cache.dramUnc) tagged
  · exact .of_eq (congrArg (·.pow.index) tagged)

/-- A dropped sector is neither valid nor dirty, and no other sector of the way becomes so by the drop alone. -/
theorem dropSec_sectors (x sec : Nat) (s : State) :
    (tagAt x (dropSec x sec s)).valid = (clearedTag sec (tagAt x (vaultLeft x sec s))).valid ∧
    (tagAt x (dropSec x sec s)).dirty = (clearedTag sec (tagAt x (vaultLeft x sec s))).dirty := by
  rw [tagAt_dropSec]
  exact tagAt_setTag_sectors ..

theorem getLsbD_cleared (v : BitVec 16) {sec i : Nat} (h : i = sec ∨ v.getLsbD i = false) :
    (v &&& ~~~ bit16 sec).getLsbD i = false := by
  rcases h with rfl | h
  · exact getLsbD_and_not_bit v i
  · rw [BitVec.getLsbD_and, h, Bool.false_and]

theorem dropSec_valid (x sec : Nat) (s : State) : (tagAt x (dropSec x sec s)).valid.getLsbD sec = false := by
  rw [(dropSec_sectors x sec s).1]
  exact getLsbD_cleared _ (.inl rfl)

/-- Sector `i` of the way `x` is neither valid nor dirty, and cannot come back from the vault while the way is dirty. -/
structure Gone (x i : Nat) (s : State) : Prop where
  valid : (tagAt x s).valid.getLsbD i = false
  dirty : (tagAt x s).dirty.getLsbD i = false
  stays : (tagAt x s).dirty = 0 ∨ unrestored (tagAt x s).pool (tagLine x (tagAt x s)) i s = false

theorem Gone.of_tags {x i : Nat} {s t : State} (h : Gone x i s) (tag : tagAt x t = tagAt x s)
    (index : IndexAges s.pow.index t.pow.index) : Gone x i t := by
  refine ⟨?_, ?_, ?_⟩ <;> rw [tag]
  · exact h.valid
  · exact h.dirty
  · exact h.stays.imp_right (unrestored_ages index)

section
variable {x sec i : Nat} {s : State} (reads : VaultReadsBack)
include reads

theorem vaultLeft_work : VaultWork x s (vaultLeft x sec s) := killVault_work reads

theorem dropSec_work : VaultWork x s (dropSec x sec s) := (vaultLeft_work reads).trans (dropSec_clears ..)

/-- Once sector `sec` of the way `x` is dropped, it is gone, and so is a sector of a dirty way that was gone. -/
theorem gone_dropSec_same (way : x / 16 < 65536) (small : i < 16) (was : i = sec ∨ ((tagAt x s).dirty ≠ 0 ∧ Gone x i s)) :
    Gone x i (dropSec x sec s) := by
  have restored : i = sec ∨ unrestored (tagAt x s).pool (tagLine x (tagAt x s)) i s = false :=
    was.imp_right fun ⟨held, gone⟩ => gone.stays.resolve_left held
  have stays : SectorStays x i s (vaultLeft x sec s) := killVault_stays reads way rfl rfl restored
  have settled : unrestored (tagAt x s).pool (tagLine x (tagAt x s)) i (vaultLeft x sec s) = false := by
    rcases restored with rfl | done
    · exact killVault_settles reads small
    · exact unrestored_ages (vaultLeft_work reads).index done
  obtain ⟨valid, dirty⟩ := dropSec_sectors x sec s
  refine ⟨?_, ?_, ?_⟩
  · rw [valid]
    exact getLsbD_cleared _ (was.imp_right fun ⟨_, gone⟩ => stays.valid.trans gone.valid)
  · rw [dirty]
    exact getLsbD_cleared _ (was.imp_right fun ⟨_, gone⟩ => stays.dirty.trans gone.dirty)
  · by_cases holds : (clearedTag sec (tagAt x (vaultLeft x sec s))).holds = true
    · right
      have tag : tagAt x (dropSec x sec s) = clearedTag sec (tagAt x (vaultLeft x sec s)) := by
        rw [tagAt_dropSec, tagAt_setTag, if_pos rfl, if_pos holds]
      have line : tagLine x (tagAt x (dropSec x sec s)) = tagLine x (tagAt x s) :=
        (congrArg (tagLine x) tag).trans stays.line
      rw [line, congrArg Tag.pool tag]
      exact unrestored_ages (dropSec_clears x sec s).index ((congrArg (unrestored · _ _ _) stays.pool).trans settled)
    · exact .inl (dirty.trans (Tag.sectors_of_not_holds holds).2)

/-- A sector that is gone stays so when a dirty sector of any way is dropped. -/
theorem gone_dropSec {y j : Nat} (way : x / 16 < 65536) (small : i < 16) (gone : Gone x i s)
    (dirty : (tagAt y s).dirty.getLsbD j = true) : Gone x i (dropSec y j s) := by
  by_cases same : y = x
  · subst same
    refine gone_dropSec_same reads way small (.inr ⟨fun none_ => ?_, gone⟩)
    rw [none_] at dirty
    exact absurd dirty (by simp)
  · exact gone.of_tags ((dropSec_work reads).others x (Ne.symm same)) (dropSec_work reads).index

end

end Sys2Proof.Machine
end

