-- ==== Sys2Proof/Proofs/ScrubbedSectors.lean ====
section
/-! SUPPORT. Sys2Proof/Proofs/ScrubbedSectors.lean: DRAM errors and tag errors that a scrub finds (07 R269 to R273, R294). -/

namespace Sys2Proof.Machine

/-! ## What the end of an operation leaves of the cache (07 R264, R269) -/

/-- Tags, lost writes, and the vault index. -/
def lossView (s : State) : Tbl Tag × Tbl LostW × List IdxEnt := (s.cache.tags, s.cache.lostW, s.pow.index)

theorem lossView_of_reports {s t : State} (h : SameButReports s t) : lossView t = lossView s := by
  rw [lossView, h.cache, h.pow]
  rfl

theorem lossView_foldl {α : Type} (f : State → α → State) (l : List α) (s : State) (each : ∀ s a, lossView (f s a) = lossView s) :
    lossView (l.foldl f s) = lossView s :=
  List.foldlRecOn l f (motive := fun t => lossView t = lossView s) rfl fun t h a _ => (each t a).trans h

theorem lossView_scatter (p : Nat) (runs : List (Nat × Nat)) (d : List Byte) (s : State) :
    lossView (scatter p runs d s) = lossView s := by
  induction runs generalizing d s with
  | nil => rfl
  | cons r runs ih =>
    unfold scatter
    split
    · rfl
    · exact ih ..

theorem lossView_forwardOut (write : Bool) (tag : Nat) (d : List Byte) (s : State) :
    lossView (forwardOut write tag d s) = lossView s :=
  lossView_foldl _ _ _ fun _ _ => lossView_of_reports (sameButReports_sendPair ..)

theorem lossView_finishCmd (c : Nat) (status : BitVec 16) (result : Dword) (s : State) :
    lossView (finishCmd c status result s) = lossView s := lossView_of_reports (sameButReports_finishCmd ..)

theorem lossView_concludeCmd (c : Nat) (s : State) : lossView (concludeCmd c s) = lossView s := by
  unfold concludeCmd
  split
  · rfl
  · dsimp only
    split <;>
    · rw [lossView_finishCmd]
      split
      · split
        · exact lossView_forwardOut ..
        · exact lossView_scatter ..
      · rfl

theorem lossView_opLeft (c : Nat) (s : State) : lossView (opLeft c s) = lossView s := by
  unfold opLeft
  split
  · rfl
  · dsimp only
    split
    · exact lossView_concludeCmd ..
    · rfl

theorem lossView_freeOp (o : Nat) (s : State) : lossView (freeOp o s) = lossView s := by
  unfold freeOp
  split
  · rfl
  · dsimp only
    split
    · rfl
    · split <;> rfl

theorem lossView_poolCommit (p : Nat) (s : State) : lossView (poolCommit p s) = lossView s :=
  lossView_of_reports (sameButReports_poolCommit ..)

theorem lossView_noteMover (o : Nat) (op : Op) (good : Bool) (s : State) : lossView (noteMover o op good s) = lossView s := by
  unfold noteMover
  dsimp only
  split
  · rfl
  · split
    case h_4 =>
      split
      · exact lossView_poolCommit ..
      · rfl
    case h_5 => split <;> rfl
    all_goals rfl

theorem lossView_keepRetry (op : Op) (status : BitVec 16) (s : State) : lossView (keepRetry op status s) = lossView s := by
  unfold keepRetry invFail
  dsimp only
  split <;> rfl

/-- What a view of tags, lost writes and vault index decides, and holds once a failed write's sectors in transit are dropped, holds
when an operation ends with a failure. -/
theorem endOp_failed {P : State → Prop} {o : Nat} {status : BitVec 16} {result : Dword} {secs : Tbl HSec} {s : State}
    (fails : (status == 0) = false) (view : ∀ t u, lossView u = lossView t → P t → P u) (now : P s)
    (transit : ∀ op, opOf o s = some op → P (dropTransit op s)) : P (endOp o status result secs s) := by
  unfold endOp
  split
  · exact now
  next op found =>
    have told (offs : Cmd → State → List Nat) (t : State) (h : P t) : P (match op.cmd with
        | some c => match cmdOf c t with
          | some cmd => failSecs c (offs cmd t) status t
          | none => t
        | none => t) := by
      split
      · split
        · exact view t _ rfl h
        · exact h
      · exact h
    have evicted (t : State) (h : P t) : P (match op.why with
        | .evict x => noteEvict o x false t
        | _ => t) := by
      split
      · exact view t _ rfl h
      · exact h
    have left (t : State) (h : P t) : P (match op.cmd with
        | some c => opLeft c t
        | none => t) := by
      split
      · exact view _ _ (lossView_opLeft ..) h
      · exact h
    simp only [fails, Bool.false_eq_true, if_false]
    refine left _ (view _ _ (lossView_freeOp ..) (view _ _ (lossView_noteMover ..) (evicted _ ?_)))
    have written : P (if op.hostpost = true then (match op.cmd with
        | some c => match cmdOf c (dropTransit op s) with
          | some cmd => failSecs c ((opOffsets op cmd (dropTransit op s)).take 1) status (dropTransit op s)
          | none => dropTransit op s
        | none => dropTransit op s) else keepRetry op status s) := by
      split
      · exact told (fun cmd t => (opOffsets op cmd t).take 1) _ (transit op found)
      · exact view _ _ (lossView_keepRetry ..) now
    split
    case h_1 | h_2 =>
      split
      · exact now
      · split
        · exact view s _ rfl now
        · exact now
    case h_3 =>
      split
      · exact now
      · exact view s _ rfl now
    case h_4 | h_5 => exact written
    case h_6 => exact told (fun cmd t => (opOffsets op cmd t).take 1) s now

/-! ## Operations that fail leave a lost sector lost -/

theorem Gone.of_lossView {x i : Nat} {s t : State} (same : lossView t = lossView s) (h : Gone x i s) : Gone x i t := by
  simp only [lossView, Prod.mk.injEq] at same
  obtain ⟨tags, -, index⟩ := same
  exact h.of_tags (tagAt_of_tags tags x) (.of_eq index)

section
variable {x i : Nat} {s : State} (reads : VaultReadsBack) (way : x / 16 < 65536) (small : i < 16)
include reads way small

/-- A sector is gone, and the lost writes are `w`. -/
theorem gone_dropTransit {w : Tbl LostW} (op : Op) (h : Gone x i s ∧ s.cache.lostW = w) :
    Gone x i (dropTransit op s) ∧ (dropTransit op s).cache.lostW = w := by
  refine List.foldlRecOn op.secs _ (motive := fun t => Gone x i t ∧ t.cache.lostW = w) h fun t ⟨gone, lostW⟩ k _ => ?_
  split
  · dsimp only
    split
    next transit =>
      have dirty := (Bool.and_eq_true_iff.1 transit).1
      exact ⟨gone_dropSec reads way small gone dirty, (dropSec_work reads).lostW.trans lostW⟩
    · exact ⟨gone, lostW⟩
  · exact ⟨gone, lostW⟩

theorem gone_endOp {w : Tbl LostW} (o : Nat) (h : Gone x i s ∧ s.cache.lostW = w) :
    Gone x i (endOp o 0x0104 0 [] s) ∧ (endOp o 0x0104 0 [] s).cache.lostW = w := by
  refine endOp_failed (P := fun t => Gone x i t ∧ t.cache.lostW = w) (by decide) (fun t u same ⟨gone, lostW⟩ => ?_) h
    fun op _ => gone_dropTransit reads way small op h
  exact ⟨gone.of_lossView same, (congrArg (·.2.1) same).trans lostW⟩

end

/-! ## A lost write is recorded (07 R294) -/

theorem noteShare_same (l : Nat) (s : State) : (noteShare l s).cache = s.cache ∧ (noteShare l s).pow = s.pow := by
  unfold noteShare
  split <;> exact ⟨rfl, rfl⟩

theorem lostEvent_same (k vol : Nat) (s : State) :
    (lostEvent k vol s).cache = s.cache ∧ (lostEvent k vol s).pow.index = s.pow.index := by
  unfold lostEvent
  split
  · exact ⟨rfl, rfl⟩
  · have same := sameButReports_event 0x0005 vol 1 s
    exact ⟨same.cache, by rw [same.pow]⟩

/-- The record of a line that lost a sector enters the list. -/
def recordLoss (l k vol : Nat) (r : LostW) (s : State) : State :=
  noteShare l (lostEvent k vol { s with cache.lostW := tset s.cache.lostW k r })

theorem recordLoss_same (l k vol : Nat) (r : LostW) (s : State) :
    (recordLoss l k vol r s).cache.lostW = tset s.cache.lostW k r ∧ (recordLoss l k vol r s).cache.tags = s.cache.tags ∧
    (recordLoss l k vol r s).pow.index = s.pow.index := by
  obtain ⟨cache, pow⟩ := noteShare_same l (lostEvent k vol { s with cache.lostW := tset s.cache.lostW k r })
  obtain ⟨cache', index⟩ := lostEvent_same k vol { s with cache.lostW := tset s.cache.lostW k r }
  rw [recordLoss, cache, cache', pow, index]
  exact ⟨rfl, rfl, rfl⟩

/-- With room in the list, a lost sector is in the record of its line, with the reason of the loss. -/
theorem addLostW_records {l line x sec reason : Nat} {s : State} (small : sec < 16) (room : s.cache.lostW.length < lostWMax) :
    ∃ vol r, addLostW l line x sec reason s = recordLoss l (l * 2 ^ 43 + line) vol r s ∧ r.reason = reason ∧
      r.mask.getLsbD sec = true := by
  unfold addLostW
  dsimp only
  split
  · exact ⟨_, _, rfl, rfl, by simp [getLsbD_bit16, small]⟩
  · rw [if_pos room]
    exact ⟨_, _, rfl, rfl, by simp [getLsbD_bit16, small]⟩

/-! ## One DRAM error (07 R269) -/

theorem loseSec_lost {x sec : Nat} {s : State} (dirty : (tagAt x s).dirty.getLsbD sec = true)
    (valid : (tagAt x s).valid.getLsbD sec = true) (own : owns (tagAt x s).pool s = true) : loseSec x sec s =
      (destagesOf x sec s).foldl (fun s o => endOp o 0x0104 0 [] s)
        (unwait x sec (addLostW (tagAt x s).pool (tagLine x (tagAt x s)) x sec 1 (dropSec x sec s))) := by
  unfold loseSec
  dsimp only
  rw [if_pos dirty, if_pos valid, own]
  rfl

theorem loseSec_clean {x sec : Nat} {s : State} (clean : (tagAt x s).dirty.getLsbD sec = false)
    (valid : (tagAt x s).valid.getLsbD sec = true) : loseSec x sec s = dropSec x sec s := by
  unfold loseSec
  dsimp only
  rw [if_neg (ne_true_of_eq_false clean), if_pos valid]

section
variable {x sec : Nat} {s : State} (reads : VaultReadsBack)
include reads

/-- An error in a dirty sector of an own pool, with room in the list: the sector is gone, and in the record of its line. -/
theorem loseSec_records (way : x / 16 < 65536) (small : sec < 16) (dirty : (tagAt x s).dirty.getLsbD sec = true)
    (valid : (tagAt x s).valid.getLsbD sec = true) (own : owns (tagAt x s).pool s = true)
    (room : s.cache.lostW.length < lostWMax) : Gone x sec (loseSec x sec s) ∧
      ∃ r, tget (loseSec x sec s).cache.lostW ((tagAt x s).pool * 2 ^ 43 + tagLine x (tagAt x s)) = some r ∧ r.reason = 1 ∧
        r.mask.getLsbD sec = true := by
  have dropped : Gone x sec (dropSec x sec s) := gone_dropSec_same reads way small (.inl rfl)
  obtain ⟨vol, r, recorded, reason, mask⟩ := addLostW_records (l := (tagAt x s).pool) (line := tagLine x (tagAt x s)) (x := x)
    (reason := 1) small ((congrArg List.length (dropSec_work reads).lostW).trans_lt room)
  rw [loseSec_lost dirty valid own, recorded]
  obtain ⟨listed, tags, index⟩ := recordLoss_same (tagAt x s).pool ((tagAt x s).pool * 2 ^ 43 + tagLine x (tagAt x s)) vol r
    (dropSec x sec s)
  obtain ⟨gone, lostW⟩ := List.foldlRecOn (destagesOf x sec s) (fun s o => endOp o 0x0104 0 [] s)
    (motive := fun t => Gone x sec t ∧ t.cache.lostW = tset (dropSec x sec s).cache.lostW _ r)
    (b := unwait x sec _) ⟨dropped.of_tags (tagAt_of_tags tags x) (.of_eq index), listed⟩ fun _ h o _ => gone_endOp reads way small o h
  exact ⟨gone, r, by rw [lostW, tget_tset, if_pos rfl], reason, mask⟩

end

/-! ## Tag errors (07 R270, R272) -/

theorem syncShadow_tags (x : Nat) (s : State) : (syncShadow x s).cache.tags = s.cache.tags := by rw [syncShadow_row]

theorem unrestored_of_index {s t : State} (h : t.pow.index = s.pow.index) (l line i : Nat) :
    unrestored l line i t = unrestored l line i s := by
  have found : idxInForce t l line i = idxInForce s l line i := by rw [idxInForce, idxInForce, h]
  rw [unrestored, unrestored, found]

theorem unrestoredMask_of_index {s t : State} (h : t.pow.index = s.pow.index) (l line : Nat) :
    unrestoredMask l line t = unrestoredMask l line s := by
  simp only [unrestoredMask, h, unrestored_of_index h]

/-- The dirty sectors that the shadow entry of a way has to name. -/
def dirtyToName (x : Nat) (s : State) : BitVec 16 :=
  (tagAt x s).valid &&& (tagAt x s).dirty ||| unrestoredMask (tagAt x s).pool (tagLine x (tagAt x s)) s

theorem syncShadow_shadow (x : Nat) (s : State) : (syncShadow x s).cache.shadow =
    if dirtyToName x s == 0 then tdel s.cache.shadow x
    else tset s.cache.shadow x { dirty := dirtyToName x s, lineHi := (tagAt x s).lineHi, pool := (tagAt x s).pool } := by
  unfold syncShadow
  exact apply_ite (fun u : State => u.cache.shadow) ..

theorem syncShadow_shadow_congr {s t : State} (tags : t.cache.tags = s.cache.tags) (shadow : t.cache.shadow = s.cache.shadow)
    (index : t.pow.index = s.pow.index) (x : Nat) : (syncShadow x t).cache.shadow = (syncShadow x s).cache.shadow := by
  have named : dirtyToName x t = dirtyToName x s := by
    rw [dirtyToName, dirtyToName, tagAt_of_tags tags, unrestoredMask_of_index index]
  rw [syncShadow_shadow, syncShadow_shadow, named, tagAt_of_tags tags, shadow]

/-- A bad tag is counted and reported. -/
def tagReported (s : State) : State := raiseFree 0x090 0x32 { s with cache.tagParity := sat32 s.cache.tagParity 1 }

/-- After its report, the operations at a bad tag's way keep their sectors in transit, and its eviction has to choose again. -/
def tagMet (x : Nat) (s : State) : State :=
  let s := keepTransit x (tagReported s)
  { s with cache.evict := tupd s.cache.evict x (fun v => { v with attached := true }) }

theorem tagReported_reports (s : State) : SameButReports { s with cache.tagParity := sat32 s.cache.tagParity 1 } (tagReported s) :=
  sameButReports_raiseFree ..

theorem tagMet_same (x : Nat) (s : State) : (tagMet x s).cache.tagParity = sat32 s.cache.tagParity 1 ∧
    (tagMet x s).cache.shadowRep = s.cache.shadowRep ∧ (tagMet x s).cache.shadow = s.cache.shadow ∧
    (tagMet x s).pow.index = s.pow.index := by
  show (tagReported s).cache.tagParity = _ ∧ (tagReported s).cache.shadowRep = _ ∧ (tagReported s).cache.shadow = _ ∧
    (tagReported s).pow.index = _
  rw [(tagReported_reports s).cache, (tagReported_reports s).pow]
  exact ⟨rfl, rfl, rfl, rfl⟩

theorem setTag_tagParity (x : Nat) (t : Tag) (s : State) : (setTag x t s).cache.tagParity = s.cache.tagParity :=
  congrArg (·.cache.tagParity) (setTag_row x t s)

theorem setTag_shadowRep (x : Nat) (t : Tag) (s : State) : (setTag x t s).cache.shadowRep = s.cache.shadowRep :=
  congrArg (·.cache.shadowRep) (setTag_row x t s)

section
variable {g : TagErr} {s : State}

theorem tagError_shadow (good : g.tagGood = true) (bad : g.shadowBad = true) :
    tagError g s = syncShadow (g.set.val * 16 + g.way.val) s := by
  unfold tagError
  dsimp only
  rw [if_pos good, if_pos bad]

theorem tagError_unnamed (bad : g.tagGood = false) (both : g.shadowBad = true) : tagError g s =
    raiseFree 0x091 0x3D (recEvent 0x091 0x0010 (g.set.val * 16 + g.way.val) []
      (setTag (g.set.val * 16 + g.way.val) {}
        { tagMet (g.set.val * 16 + g.way.val) s with
          cache.unnamedLoss := true, led.unnamedLoss := true,
          cache.shadow := tdel (tagMet (g.set.val * 16 + g.way.val) s).cache.shadow (g.set.val * 16 + g.way.val) })) := by
  unfold tagError
  dsimp only
  rw [if_neg (ne_true_of_eq_false bad), if_pos both]
  rfl

theorem tagError_dropped (bad : g.tagGood = false) (shadow : g.shadowBad = false)
    (none_ : tget s.cache.shadow (g.set.val * 16 + g.way.val) = none) :
    tagError g s = setTag (g.set.val * 16 + g.way.val) {} (tagMet (g.set.val * 16 + g.way.val) s) := by
  rw [← (tagMet_same (g.set.val * 16 + g.way.val) s).2.2.1] at none_
  unfold tagError
  dsimp only
  rw [if_neg (ne_true_of_eq_false bad), if_neg (ne_true_of_eq_false shadow)]
  split
  next found => exact nomatch none_.symm.trans found
  next => rfl

/-- The tag that a shadow entry gives back. -/
def repairedTag (x : Nat) (h : Shadow) (s : State) : Tag :=
  let live := h.dirty &&& ~~~ unrestoredMask h.pool (tagLine x { lineHi := h.lineHi, pool := h.pool }) s
  { valid := live, dirty := live, lineHi := h.lineHi, pool := h.pool }

theorem tagError_repaired {h : Shadow} (bad : g.tagGood = false) (shadow : g.shadowBad = false)
    (entry : tget s.cache.shadow (g.set.val * 16 + g.way.val) = some h) :
    tagError g s = setTag (g.set.val * 16 + g.way.val)
      (repairedTag (g.set.val * 16 + g.way.val) h (tagMet (g.set.val * 16 + g.way.val) s))
      { tagMet (g.set.val * 16 + g.way.val) s with
        cache.shadowRep := sat32 (tagMet (g.set.val * 16 + g.way.val) s).cache.shadowRep 1 } := by
  rw [← (tagMet_same (g.set.val * 16 + g.way.val) s).2.2.1] at entry
  unfold tagError
  dsimp only
  rw [if_neg (ne_true_of_eq_false bad), if_neg (ne_true_of_eq_false shadow)]
  split
  next found =>
    cases entry.symm.trans found
    rfl
  next found => exact nomatch entry.symm.trans found

end

/-! ## What scrubs do to a sector and to a tag -/

section
variable {e : DramErr} {s : State}

theorem dramError_corrected (correctable : e.uncorrectable = false) : dramError e s =
    raiseFree (0x080 + e.set.val % 16) 0x30 { s with cache.dramCorr := sat32 s.cache.dramCorr 1 } := by
  unfold dramError
  dsimp only
  rw [correctable]
  rfl

/-- An uncorrectable error is counted and reported. -/
def dramMet (e : DramErr) (s : State) : State :=
  raiseFree (0x080 + e.set.val % 16) 0x31 { s with cache.dramUnc := sat32 s.cache.dramUnc 1 }

theorem dramError_lost (uncorrectable : e.uncorrectable = true) :
    dramError e s = loseSec (e.set.val * 16 + e.way.val) e.sector.val (dramMet e s) := by
  unfold dramError
  dsimp only
  rw [uncorrectable]
  rfl

theorem dramMet_reports : SameButReports { s with cache.dramUnc := sat32 s.cache.dramUnc 1 } (dramMet e s) :=
  sameButReports_raiseFree ..

theorem dramMet_tagAt (x : Nat) : tagAt x (dramMet e s) = tagAt x s :=
  tagAt_of_tags (s := s) (by rw [dramMet_reports.cache]) x

theorem dramMet_owns (l : Nat) : owns l (dramMet e s) = owns l s :=
  dramMet_reports.members.owns_eq l (congrArg PoolRec.owner (dramMet_reports.poolRec_eq l))

theorem dramError_correctable (correctable : e.uncorrectable = false) :
    (dramError e s).cache = { s.cache with dramCorr := sat32 s.cache.dramCorr 1 } := by
  rw [dramError_corrected correctable, (sameButReports_raiseFree ..).cache]

theorem dramError_clean (reads : VaultReadsBack) (uncorrectable : e.uncorrectable = true)
    (clean : (tagAt (e.set.val * 16 + e.way.val) s).dirty.getLsbD e.sector.val = false)
    (valid : (tagAt (e.set.val * 16 + e.way.val) s).valid.getLsbD e.sector.val = true) :
    (dramError e s).cache.dramUnc = sat32 s.cache.dramUnc 1 ∧
    (tagAt (e.set.val * 16 + e.way.val) (dramError e s)).valid.getLsbD e.sector.val = false ∧
    (dramError e s).cache.lostW = s.cache.lostW := by
  rw [← dramMet_tagAt (e := e)] at clean valid
  rw [dramError_lost uncorrectable, loseSec_clean clean valid]
  refine ⟨?_, dropSec_valid .., ?_⟩
  · rw [(dropSec_work reads).dramUnc, dramMet_reports.cache]
  · rw [(dropSec_work reads).lostW, dramMet_reports.cache]

theorem dramError_dirty (reads : VaultReadsBack) (uncorrectable : e.uncorrectable = true)
    (dirty : (tagAt (e.set.val * 16 + e.way.val) s).dirty.getLsbD e.sector.val = true)
    (valid : (tagAt (e.set.val * 16 + e.way.val) s).valid.getLsbD e.sector.val = true)
    (own : owns (tagAt (e.set.val * 16 + e.way.val) s).pool s = true) (room : s.cache.lostW.length < lostWMax) :
    Gone (e.set.val * 16 + e.way.val) e.sector.val (dramError e s) ∧
    ∃ r, tget (dramError e s).cache.lostW ((tagAt (e.set.val * 16 + e.way.val) s).pool * 2 ^ 43 +
      tagLine (e.set.val * 16 + e.way.val) (tagAt (e.set.val * 16 + e.way.val) s)) = some r ∧ r.reason = 1 ∧
      r.mask.getLsbD e.sector.val = true := by
  have way : (e.set.val * 16 + e.way.val) / 16 < 65536 := by omega
  rw [← dramMet_owns (e := e)] at own
  rw [dramError_lost uncorrectable]
  simp only [← dramMet_tagAt (e := e) (s := s)] at dirty valid own ⊢
  exact loseSec_records reads way e.sector.isLt dirty valid own (by rw [dramMet_reports.cache]; exact room)

end

section
variable {g : TagErr} {s : State}

theorem tget_tags_of_dropped (x : Nat) (s : State) : tget (setTag x {} s).cache.tags x = none := (tget_tdel ..).trans (if_pos rfl)

theorem tagError_bad (bad : g.tagGood = false) (shadow : g.shadowBad = false) :
    (tagError g s).cache.tagParity = sat32 s.cache.tagParity 1 ∧
    (tget s.cache.shadow (g.set.val * 16 + g.way.val) = none →
      tget (tagError g s).cache.tags (g.set.val * 16 + g.way.val) = none) ∧
    ∀ h, tget s.cache.shadow (g.set.val * 16 + g.way.val) = some h →
      (tagError g s).cache.shadowRep = sat32 s.cache.shadowRep 1 ∧
      (tagAt (g.set.val * 16 + g.way.val) (tagError g s)).valid = (repairedTag (g.set.val * 16 + g.way.val) h s).valid ∧
      (tagAt (g.set.val * 16 + g.way.val) (tagError g s)).dirty = (repairedTag (g.set.val * 16 + g.way.val) h s).dirty := by
  obtain ⟨parity, repairs, -, index⟩ := tagMet_same (g.set.val * 16 + g.way.val) s
  refine ⟨?_, fun none_ => ?_, fun h entry => ?_⟩
  · cases entry : tget s.cache.shadow (g.set.val * 16 + g.way.val) with
    | none =>
      rw [tagError_dropped bad shadow entry]
      exact (setTag_tagParity ..).trans parity
    | some h =>
      rw [tagError_repaired bad shadow entry]
      exact (setTag_tagParity ..).trans parity
  · rw [tagError_dropped bad shadow none_]
    exact tget_tags_of_dropped ..
  · have live : repairedTag (g.set.val * 16 + g.way.val) h (tagMet (g.set.val * 16 + g.way.val) s) =
        repairedTag (g.set.val * 16 + g.way.val) h s := by
      rw [repairedTag, repairedTag, unrestoredMask_of_index index]
    rw [tagError_repaired bad shadow entry, live]
    exact ⟨(setTag_shadowRep ..).trans (congrArg (sat32 · 1) repairs), tagAt_setTag_sectors ..⟩

theorem tagError_both (bad : g.tagGood = false) (both : g.shadowBad = true) :
    (tagError g s).cache.unnamedLoss = true ∧ (tagError g s).led.unnamedLoss = true ∧
    tget (tagError g s).cache.tags (g.set.val * 16 + g.way.val) = none ∧
    tget (tagError g s).cache.shadow (g.set.val * 16 + g.way.val) = none ∧
    (tagError g s).cache.tagParity = sat32 s.cache.tagParity 1 := by
  rw [tagError_unnamed bad both, (sameButReports_raiseFree ..).cache, (sameButReports_recEvent ..).cache,
    (raiseFree_therm_led ..).2, (sameButEvents_recEvent ..).led]
  exact ⟨congrArg (·.cache.unnamedLoss) (setTag_row ..), congrArg (·.led.unnamedLoss) (setTag_row ..), tget_tags_of_dropped ..,
    (congrArg (fun u : State => tget u.cache.shadow _) (setTag_row ..)).trans ((tget_tdel ..).trans (if_pos rfl)),
    (setTag_tagParity ..).trans (tagMet_same ..).1⟩

end

/-- The state in which a DRAM scrub meets its errors. -/
def dramScrubbed (s : State) : State :=
  let t := timeTo (s.evr.opAt + (s.cache.lastDramScrub + 86400 - s.evr.opBase) * 1000000) s
  { t with cache.lastDramScrub := opSeconds t }

theorem dramScrub_row (errs : List DramErr) (s : State) :
    exec (.dramScrub errs) s = .next (settle (errs.foldl (fun s e => dramError e s) (dramScrubbed s))) := rfl

/-- The state in which a tag scrub meets the errors that stand, and its own. -/
def tagScrubbed (s : State) : State :=
  { s with now := max s.now (s.cache.lastTagScrub + 1000000),
           cache.lastTagScrub := max s.now (s.cache.lastTagScrub + 1000000), cache.tagErrs := [] }

theorem tagScrub_row (errs : List TagErr) (s : State) : exec (.tagScrub errs) s =
    .next (settle ((s.cache.tagErrs ++ errs).foldl (fun s e => tagError e s) (tagScrubbed s))) := rfl

theorem tagScrub_one (g : TagErr) {s : State} (none_ : s.cache.tagErrs = []) :
    exec (.tagScrub [g]) s = .next (settle (tagError g (tagScrubbed s))) := by
  rw [tagScrub_row, none_]
  rfl

/-- O27 holds where every sector of the vault reads back. That it needs such a premise is `readsBack_of_scrubErrors`. -/
theorem scrubErrors_of_vaultReadsBack (reads : VaultReadsBack) : Obligations.ScrubErrors := by
  refine ⟨fun errs s => ⟨(dramScrubbed s).now, (dramScrubbed s).cache.lastDramScrub, dramScrub_row errs s, Nat.le_max_left ..⟩,
    tagScrub_row, fun e s => ⟨fun correctable => ⟨_, dramScrub_row [e] s, ?_⟩, fun uncorrectable clean valid =>
      ⟨_, dramScrub_row [e] s, dramError_clean (s := dramScrubbed s) reads uncorrectable clean valid⟩,
      fun uncorrectable dirty valid own room => ⟨_, dramScrub_row [e] s, ?_⟩⟩,
    fun g s none_ => ⟨fun good shadow => ⟨_, tagScrub_one g none_, ?_⟩, fun bad shadow => ⟨_, tagScrub_one g none_, ?_⟩,
      fun bad both => ⟨_, tagScrub_one g none_, ?_⟩⟩⟩
  · show (dramError e (dramScrubbed s)).cache.dramCorr = _ ∧ (dramError e (dramScrubbed s)).cache.tags = _ ∧
      (dramError e (dramScrubbed s)).cache.lostW = _
    rw [dramError_correctable correctable]
    exact ⟨rfl, rfl, rfl⟩
  · obtain ⟨gone, record⟩ := dramError_dirty (s := dramScrubbed s) reads uncorrectable dirty valid own room
    exact ⟨gone.valid, gone.dirty, record⟩
  · rw [tagError_shadow good shadow]
    exact ⟨syncShadow_tags .., syncShadow_shadow_congr (s := s) (t := tagScrubbed s) rfl rfl rfl _⟩
  · exact tagError_bad (s := tagScrubbed s) bad shadow
  · exact tagError_both (s := tagScrubbed s) bad both

end Sys2Proof.Machine
end

