-- ==== Sys2Proof/Proofs/ScrubFreeValues.lean ====
section
/-! SUPPORT. Sys2Proof/Proofs/ScrubFreeValues.lean: what O27 says of the free values (log entry 2): a sector that the
vault names beside a clean one is lost where it does not read back (05 R197; 11 R399). -/

namespace Sys2Proof.Machine

/-! ## A state in which an entry waits to be read is not what `settle` works on (05 R197) -/

/-- A submission ring of which no entry is read, and nothing keeps it from being read. -/
structure Unread (r : Nat) (s : State) : Prop where
  runs : fetchStopped s = false
  listed : r ∈ s.rings.map (·.1)
  typ : (ringOf r s).typ = 0
  st : (ringOf r s).st = .active
  waits : outstanding (ringOf r s) = [0]
  none_ : entryOf (ringOf r s) 0 = none
  reading : (ringOf r s).reading = []

/-- From `s` to `t` entries of rings were only read. -/
structure OnlyReads (s t : State) : Prop where
  stopped : fetchStopped t = fetchStopped s
  listed : ∀ r, r ∈ t.rings.map (·.1) → r ∈ s.rings.map (·.1)
  ring : ∀ r, ringOf r t = { ringOf r s with reading := (ringOf r t).reading }
  reading : ∀ r n, n ∈ (ringOf r s).reading → n ∈ (ringOf r t).reading

theorem OnlyReads.refl (s : State) : OnlyReads s s := ⟨rfl, fun _ => id, fun _ => rfl, fun _ _ => id⟩

theorem OnlyReads.trans {s t u : State} (h : OnlyReads s t) (k : OnlyReads t u) : OnlyReads s u :=
  ⟨k.stopped.trans h.stopped, fun r m => h.listed r (k.listed r m), fun r => by rw [k.ring r, h.ring r],
    fun r n m => k.reading r n (h.reading r n m)⟩

theorem mem_nins {l : List Nat} {k n : Nat} : n ∈ nins l k ↔ n = k ∨ n ∈ l := by
  induction l with
  | nil => simp [nins]
  | cons a l ih =>
    unfold nins
    split
    · simp
    · split
      next eq => subst eq; simp
      · simp only [List.mem_cons, ih]
        tauto

theorem tset_keys {α : Type} {t : Tbl α} {k n : Nat} {v : α} (h : n ∈ (tset t k v).map (·.1)) : n = k ∨ n ∈ t.map (·.1) := by
  induction t with
  | nil => simpa [tset] using h
  | cons e t ih =>
    obtain ⟨k', v'⟩ := e
    unfold tset at h
    split at h
    · simpa using h
    · split at h
      next eq => subst eq; simp only [List.map_cons, List.mem_cons] at h ⊢; tauto
      · simp only [List.map_cons, List.mem_cons] at h ⊢
        rcases h with h | h
        · exact .inr (.inl h)
        · exact (ih h).imp_right .inr

theorem tget_key {α : Type} {t : Tbl α} {k : Nat} {v : α} (h : tget t k = some v) : k ∈ t.map (·.1) := by
  induction t with
  | nil => exact nomatch h
  | cons e t ih =>
    rw [tget_cons] at h
    split at h
    next eq => exact List.mem_cons.2 (.inl eq)
    · exact List.mem_cons.2 (.inr (ih h))

theorem ring_listed {r : Nat} {s : State} (held : (ringOf r s).st ≠ .free) : r ∈ s.rings.map (·.1) := by
  unfold ringOf tgetD at held
  cases found : tget s.rings r with
  | none => exact absurd (by rw [found]; rfl) held
  | some v => exact tget_key found

theorem readEntry_onlyReads {r : Nat} {s : State} (i : Dword) (held : (ringOf r s).st ≠ .free) :
    OnlyReads s (readEntry r i s) := by
  have ring (q : Nat) : ringOf q (readEntry r i s) =
      if q = r then { ringOf r s with reading := nins (ringOf r s).reading i.toNat } else ringOf q s :=
    ringOf_setRing r q _ s held
  have rings : (readEntry r i s).rings = tset s.rings r { ringOf r s with reading := nins (ringOf r s).reading i.toNat } :=
    congrArg State.rings (if_neg held)
  have same : SameButEvents s (readEntry r i s) := (sameButEvents_setRing ..).trans (sameButEvents_emit ..)
  refine ⟨?_, fun q mem => ?_, fun q => ?_, fun q n mem => ?_⟩
  · simp only [fetchStopped, intakeHeld, same.dev, same.pipe, same.plan, same.pow]
  · rw [rings] at mem
    exact (tset_keys mem).elim (fun eq => eq ▸ ring_listed held) id
  · rw [ring]
    split
    next eq => rw [eq]
    · rfl
  · rw [ring]
    split
    next eq => exact mem_nins.2 (.inr (eq ▸ mem))
    · exact mem

theorem OnlyReads.st {s t : State} (h : OnlyReads s t) (r : Nat) : (ringOf r t).st = (ringOf r s).st := by rw [h.ring r]

theorem fetchRing_onlyReads {r : Nat} {s : State} (held : (ringOf r s).st ≠ .free) : OnlyReads s (fetchRing r s) := by
  refine List.foldlRecOn (motive := OnlyReads s) _ _ (.refl s) fun t reads i _ => ?_
  split
  · exact reads
  · exact reads.trans (readEntry_onlyReads i (by rwa [reads.st]))

theorem kickRing_onlyReads (r : Nat) (s : State) : OnlyReads s (kickRing r s) := by
  unfold kickRing
  dsimp only
  split
  next fetches =>
    refine fetchRing_onlyReads fun free => ?_
    rw [free] at fetches
    simp at fetches
  · exact .refl s

theorem kickFetch_onlyReads (s : State) : OnlyReads s (kickFetch s) := by
  unfold kickFetch
  split
  · exact .refl s
  · exact List.foldlRecOn (motive := OnlyReads s) _ _ (.refl s) fun t reads e _ => reads.trans (kickRing_onlyReads e.1 t)

/-- What only read entries and left an entry unread was given it unread. -/
theorem Unread.before {r : Nat} {s t : State} (h : Unread r t) (reads : OnlyReads s t) : Unread r s := by
  obtain ⟨runs, listed, typ, st, waits, none_, reading⟩ := h
  rw [reads.ring r] at typ st waits none_
  refine ⟨reads.stopped ▸ runs, reads.listed r listed, typ, st, waits, none_, ?_⟩
  rw [List.eq_nil_iff_forall_not_mem] at reading ⊢
  exact fun n mem => reading n (reads.reading r n mem)

/-- The ring's own fetch reads the entry. -/
theorem Unread.kicked {r : Nat} {s : State} (h : Unread r s) : ¬ Unread r (kickRing r s) := by
  intro after
  have fetches : kickRing r s = readEntry r 0 s := by
    have none_ : entryOf (ringOf r s) 0#32 = none := h.none_
    unfold kickRing fetchRing
    simp [h.typ, h.st, h.runs, h.waits, none_, h.reading]
  have read : (ringOf r (kickRing r s)).reading = nins (ringOf r s).reading 0 := by
    rw [fetches, readEntry_ringOf]
    · rfl
    · rw [h.st]; decide
  rw [after.reading, h.reading] at read
  exact absurd read (by decide)

theorem kickFetch_reads (r : Nat) (s : State) : ¬ Unread r (kickFetch s) := by
  intro after
  have before : Unread r s := after.before (kickFetch_onlyReads s)
  unfold kickFetch at after
  rw [if_neg (by rw [before.runs]; decide)] at after
  obtain ⟨e, mem, rfl⟩ := List.mem_map.1 before.listed
  obtain ⟨l, l', split⟩ := List.append_of_mem mem
  rw [split, List.foldl_append, List.foldl_cons] at after
  have rest (l : List (Nat × Ring)) (t : State) : OnlyReads t (l.foldl (fun s e => kickRing e.1 s) t) :=
    List.foldlRecOn (motive := OnlyReads t) _ _ (.refl t) fun u reads e _ => reads.trans (kickRing_onlyReads e.1 u)
  have here := after.before (rest l' _)
  exact (here.before (kickRing_onlyReads ..)).kicked here

/-- A state with an entry left unread is what `settle` makes of itself only. -/
theorem eq_of_settle_unread {r : Nat} {s : State} (h : Unread r (settle s)) : settle s = s := by
  unfold settle at h ⊢
  split
  · rfl
  next serves =>
    rw [if_neg serves] at h
    exact absurd h (kickFetch_reads r _)

/-! ## A sector that does not read back is lost (11 R399; log entry 2) -/

theorem killVault_loses {l line x sec i : Nat} {e : IdxEnt} {s : State} (inForce : idxInForce s l line sec = some e)
    (live : e.dead = false) (on : cacheOn s = true) (one : otherSecs l line sec e s = [i]) (data : (vaultSec e i s).isSome = true)
    (bad : (Config.freeWord s.free).getLsbD i = true) : killVault l line x sec s =
      endEntry l line x sec e (settleVault l line i (addLostW l line x i 3 (nextFree s))) := by
  rw [killVault_row, inForce]
  dsimp only
  rw [if_neg (by rw [live]; decide), if_neg (by rw [on]; decide), one, List.foldl_cons, List.foldl_nil, restoreSec]
  split
  · rw [if_pos bad]
  next none_ => exact absurd data (by rw [none_]; decide)

/-- What `settle` asks before it fetches, and the rings. -/
def intakeView (s : State) : DevSt × Tbl Ring × PlanSt × List Nat × PwrPh := (s.dev, s.rings, s.plan, s.pipe.held, s.pow.ph)

theorem intakeView_raiseFree (src kind : Nat) (s : State) : intakeView (raiseFree src kind s) = intakeView s := by
  unfold raiseFree raise
  dsimp only
  split <;> rfl

theorem deliverEvents_quiet {p : Nat} {s : State} (quiet : (getPort p s).evRing = none) (n : Nat) : deliverEvents n p s = s := by
  cases n with
  | zero => rfl
  | succ n =>
    unfold deliverEvents
    dsimp only
    rw [quiet]

/-- No event reaches a ring while no port has a ring for events. -/
theorem intakeView_event (typ obj data : Nat) {s : State} (quiet : s.port0.evRing = none) (one : s.dev.bifurcated = false) :
    intakeView (event typ obj data s) = intakeView s := by
  have raised : intakeView (eventOn 0 typ obj (BitVec.ofNat 32 data) s) = intakeView s := by
    unfold eventOn
    dsimp only
    rw [deliverEvents_quiet]
    · rfl
    · exact quiet
  have dev : (eventOn 0 typ obj (BitVec.ofNat 32 data) s).dev = s.dev := congrArg Prod.fst raised
  unfold event
  dsimp only
  rw [dev, one]
  exact raised

theorem intakeView_lostEvent (k vol : Nat) {s : State} (quiet : s.port0.evRing = none) (one : s.dev.bifurcated = false) :
    intakeView (lostEvent k vol s) = intakeView s := by
  unfold lostEvent
  split
  · rfl
  · exact intakeView_event _ _ _ quiet one

theorem intakeView_noteShare (l : Nat) (s : State) : intakeView (noteShare l s) = intakeView s := by
  unfold noteShare
  split <;> rfl

theorem intakeView_addLostW (l line x sec reason : Nat) {s : State} (quiet : s.port0.evRing = none) (one : s.dev.bifurcated = false)
    (small : sec < 16) (room : s.cache.lostW.length < lostWMax) :
    intakeView (addLostW l line x sec reason s) = intakeView s := by
  obtain ⟨vol, r, recorded, -, -⟩ := addLostW_records (l := l) (line := line) (x := x) (reason := reason) small room
  rw [recorded, recordLoss, intakeView_noteShare]
  exact intakeView_lostEvent _ _ (s := { s with cache.lostW := tset s.cache.lostW _ r }) quiet one

theorem intakeView_freeIndex (s : State) : intakeView (freeIndex s) = intakeView s := by
  unfold freeIndex
  split <;> rfl

theorem intakeView_settleVault (l line sec : Nat) (s : State) : intakeView (settleVault l line sec s) = intakeView s := by
  unfold settleVault
  split
  · rfl
  · exact intakeView_freeIndex _

theorem intakeView_endEntry (l line x sec : Nat) (e : IdxEnt) (s : State) : intakeView (endEntry l line x sec e s) = intakeView s := by
  unfold endEntry vaultMoved
  rw [intakeView_freeIndex]
  dsimp only
  split <;> rfl

theorem intakeView_setTag (x : Nat) (t : Tag) (s : State) : intakeView (setTag x t s) = intakeView s := by
  unfold setTag
  split <;> rfl

theorem intakeView_dropSec (x sec : Nat) (s : State) : intakeView (dropSec x sec s) = intakeView (vaultLeft x sec s) := by
  rw [dropSec_row]
  exact intakeView_setTag ..

/-! ## A clean sector whose entry of the vault takes another sector along -/

/-- An entry of the vault that names a sector of line 0 and sector `i`. -/
def sharedEntry (i j : Nat) : IdxEnt := { mask := bit16 j ||| bit16 i }

/-- Another sector than `i`. -/
def besides (i : Nat) : Nat := if i = 0 then 1 else 0

/-- A module without service whose line 0 has a clean sector, which the vault names together with sector `i`; the next free value
has the number `n`. A submission ring has an entry that is not read. -/
def sharedVault (n i : Nat) : State := { State.reset with
  free := n
  dev := { State.reset.dev with ready := true, noService := 1 }
  rings := [(0, { st := .active, tail := 1 })]
  cache := { State.reset.cache with tags := [(0, { valid := bit16 (besides i) })] }
  pow := { State.reset.pow with ph := .run, index := [sharedEntry i (besides i)], nand := [(0, []), (1, [])] } }

theorem sharedVault_facts : ∀ i : Fin 16, besides i < 16 ∧
    idxInForce (sharedVault 0 i) 0 0 (besides i) = some (sharedEntry i (besides i)) ∧
    otherSecs 0 0 (besides i) (sharedEntry i (besides i)) (sharedVault 0 i) = [i.val] ∧
    (vaultSec (sharedEntry i (besides i)) i (sharedVault 0 i)).isSome = true ∧
    (tagAt 0 (sharedVault 0 i)).valid.getLsbD (besides i) = true := by decide +kernel

theorem unread_sharedVault {n i : Nat} {s : State} (view : intakeView s = intakeView (sharedVault n i)) : Unread 0 s := by
  simp only [intakeView, Prod.mk.injEq] at view
  obtain ⟨dev, rings, plan, held, ph⟩ := view
  have ring : ringOf 0 s = { st := .active, tail := 1 } := by
    rw [ringOf, rings]
    rfl
  refine ⟨?_, by rw [rings]; exact List.mem_singleton.2 rfl, by rw [ring], by rw [ring], ?_, ?_, by rw [ring]⟩
  · simp only [fetchStopped, intakeHeld, dev, plan, held, ph]
    rfl
  · rw [ring]
    rfl
  · rw [ring]
    rfl

/-- The error that a scrub finds in the clean sector. -/
def sharedErr (i : Nat) : DramErr := { set := 0, way := 0, sector := Fin.ofNat 16 (besides i), uncorrectable := true }

theorem settle_without_service {n i : Nat} {s : State} (view : intakeView s = intakeView (sharedVault n i)) : settle s = s := by
  have dev : s.dev = (sharedVault n i).dev := congrArg Prod.fst view
  unfold settle
  rw [if_pos]
  simp [dev, sharedVault]

theorem raiseFree_free (src kind : Nat) (s : State) : (raiseFree src kind s).free = s.free + 1 := by
  unfold raiseFree raise
  dsimp only
  split <;> rfl

/-- The state in which the clean sector is dropped. -/
def sharedMet (n i : Nat) : State := dramMet (sharedErr i) (dramScrubbed (sharedVault n i))

theorem sharedMet_port0 (n i : Nat) : (sharedMet n i).port0.evRing = none := by
  unfold sharedMet dramMet raiseFree raise
  dsimp only
  split <;> rfl

/-- The entry of the clean sector ends: the sector beside it does not read back and is lost. -/
theorem sharedMet_left {n i : Nat} (small : i < 16) (bad : (Config.freeWord (n + 1)).getLsbD i = true) :
    vaultLeft 0 (besides i) (sharedMet n i) = endEntry 0 0 0 (besides i) (sharedEntry i (besides i))
      (settleVault 0 0 i (addLostW 0 0 0 i 3 (nextFree (sharedMet n i)))) := by
  obtain ⟨-, inForce, one, data, -⟩ := sharedVault_facts ⟨i, small⟩
  have met : SameButReports _ (sharedMet n i) := dramMet_reports
  have pow : (sharedMet n i).pow = (sharedVault 0 i).pow := met.pow
  have tag : tagAt 0 (sharedMet n i) = { valid := bit16 (besides i) } := dramMet_tagAt 0
  have line : vaultLeft 0 (besides i) (sharedMet n i) = killVault 0 0 0 (besides i) (sharedMet n i) := by
    have zero : tagLine 0 { valid := bit16 (besides i) } = 0 := by simp [tagLine]
    rw [vaultLeft, tag, zero]
  rw [line]
  refine killVault_loses ?_ rfl ?_ ?_ ?_ ?_
  · rw [← inForce, idxInForce, idxInForce, pow]
  · rw [cacheOn, met.dev]
    rfl
  · rw [← one, otherSecs, otherSecs]
    simp only [unrestored_of_index (congrArg PowSt.index pow)]
  · rw [← data, vaultSec, vaultSec, pow]
  · rw [sharedMet, dramMet, raiseFree_free]
    exact bad

/-- Where sector `i` does not read back, an error in the clean sector beside it loses a write. -/
theorem sharedVault_loses {n i : Nat} (small : i < 16) (bad : (Config.freeWord (n + 1)).getLsbD i = true) :
    intakeView (dropSec 0 (besides i) (sharedMet n i)) = intakeView (sharedVault n i) ∧
    (dropSec 0 (besides i) (sharedMet n i)).cache.lostW ≠ [] := by
  have met : SameButReports _ (sharedMet n i) := dramMet_reports
  have empty : (nextFree (sharedMet n i)).cache.lostW = [] := congrArg CacheSt.lostW met.cache
  have room : (nextFree (sharedMet n i)).cache.lostW.length < lostWMax := by rw [empty]; decide
  constructor
  · rw [intakeView_dropSec, sharedMet_left small bad, intakeView_endEntry, intakeView_settleVault,
      intakeView_addLostW 0 0 0 i 3 (s := nextFree (sharedMet n i)) (sharedMet_port0 n i) (congrArg DevSt.bifurcated met.dev) small room]
    exact intakeView_raiseFree ..
  · rw [(dropSec_clears ..).lostW, sharedMet_left small bad, endEntry_cache.2.1, (settleVault_cache ..).2.1]
    obtain ⟨vol, r, recorded, -⟩ := addLostW_records (l := 0) (line := 0) (x := 0) (reason := 3) small room
    rw [recorded, (recordLoss_same ..).1, empty]
    exact List.cons_ne_nil _ _

theorem sharedErr_drops {n i : Nat} (small : i < 16) :
    dramError (sharedErr i) (dramScrubbed (sharedVault n i)) = dropSec 0 (besides i) (sharedMet n i) := by
  obtain ⟨other, -, -, -, valid⟩ := sharedVault_facts ⟨i, small⟩
  have sector : (sharedErr i).sector.val = besides i := Nat.mod_eq_of_lt other
  have tag : tagAt 0 (sharedMet n i) = { valid := bit16 (besides i) } := dramMet_tagAt 0
  refine (dramError_lost rfl).trans ?_
  rw [sector]
  refine loseSec_clean (x := 0) (s := sharedMet n i) ?_ ?_ <;> rw [tag]
  · exact BitVec.getLsbD_zero
  · exact valid

/-- What O27 says of the free values: the bits that `killVault` takes for the verdict on a sector of the vault are 0. With
`scrubErrors_of_vaultReadsBack` this leaves O27 open, since nothing is known of `Config.freeWord`. The clause that turns on it is the
one about a clean sector: where the vault names another sector with it, R399 has that one restored first, and it is recorded as a
lost write where it does not read back. -/
theorem readsBack_of_scrubErrors (h : Obligations.ScrubErrors) {n i : Nat} (small : i < 16) :
    (Config.freeWord (n + 1)).getLsbD i = false := by
  by_contra bad
  rw [Bool.not_eq_false] at bad
  obtain ⟨other, -, -, -, valid⟩ := sharedVault_facts ⟨i, small⟩
  have sector : (sharedErr i).sector.val = besides i := Nat.mod_eq_of_lt other
  obtain ⟨-, -, sectors, -⟩ := h
  obtain ⟨-, clean, -⟩ := sectors (sharedErr i) (sharedVault n i)
  rw [sector] at clean
  obtain ⟨u, next, -, -, kept⟩ := clean rfl BitVec.getLsbD_zero valid
  obtain ⟨view, lost⟩ := sharedVault_loses small bad
  have scrubbed := dramScrub_row [sharedErr i] (sharedVault n i)
  rw [List.foldl_cons, List.foldl_nil, sharedErr_drops small, settle_without_service view] at scrubbed
  have made : settle u = dropSec 0 (besides i) (sharedMet n i) := by
    injection next.symm.trans scrubbed
  have same : settle u = u := eq_of_settle_unread (r := 0) (by rw [made]; exact unread_sharedVault view)
  exact lost ((congrArg (·.cache.lostW) (made.symm.trans same)).trans kept)

end Sys2Proof.Machine
end
